-- ==== Sys2Proof/Word.lean ====
section
/-! DEFINITION. The word types of the RK-9100 (spec/00 R3: little-endian bytes, 32-bit words). -/

namespace Sys2Proof

/-- One byte of memory. -/
abbrev Byte := BitVec 8

/-- One lane, uniform or scale register (R124, R132). -/
abbrev Word := BitVec 32

/-- A 64-bit register pair, a special register, a management register (R124, R136, R412). -/
abbrev DWord := BitVec 64

end Sys2Proof
end

