-- ==== Sys2Proof/Machine/Bits.lean ====
section
/-! DEFINITION. Bit fields, signs and byte order over natural numbers (R3, R6: `bits`, `sext`, `zext`). -/

namespace Sys2Proof.Bits

/-- `bits(x, hi, lo)` of R6, given by its low bit and its width. -/
def field (x lo width : Nat) : Nat := x / 2 ^ lo % 2 ^ width

/-- Bit `i` of `x` as a truth value. -/
def bit (x i : Nat) : Bool := x / 2 ^ i % 2 == 1

/-- `x` modulo 2^w: the narrowing of R195. -/
def trunc (w x : Nat) : Nat := x % 2 ^ w

/-- The two's complement reading of the low `w` bits (R139, R195). -/
def signed (w x : Nat) : Int :=
  if x % 2 ^ w < 2 ^ (w - 1) then ((x % 2 ^ w : Nat) : Int) else ((x % 2 ^ w : Nat) : Int) - (2 ^ w : Nat)

/-- The low `w` bits of an exact integer: `v` modulo 2^w. -/
def ofInt (w : Nat) (v : Int) : Nat := (v % ((2 ^ w : Nat) : Int)).toNat

/-- `sext(x, n)` of R6: from `w` bits to `n` bits. -/
def sext (w n x : Nat) : Nat := ofInt n (signed w x)

/-- Joins words of `w` bits, the first least significant (R3, R124). -/
def joinLE (w : Nat) : List Nat → Nat
  | [] => 0
  | x :: xs => x % 2 ^ w + 2 ^ w * joinLE w xs

/-- Cuts `x` into `n` pieces of `w` bits, the least significant first (R3). -/
def splitLE (w : Nat) : Nat → Nat → List Nat
  | 0, _ => []
  | n + 1, x => x % 2 ^ w :: splitLE w n (x / 2 ^ w)

/-- The number of set bits among the low `n` bits (R198 `popc`). -/
def popcount : Nat → Nat → Nat
  | 0, _ => 0
  | n + 1, x => x % 2 + popcount n (x / 2)

/-- Bit `i` of the result is bit `n-1-i` of `x` (R198 `brev`). -/
def reverse : Nat → Nat → Nat
  | 0, _ => 0
  | n + 1, x => x % 2 * 2 ^ n + reverse n (x / 2)

/-- The number of zero bits below the lowest set bit of the low `n` bits (R198 `ctz`). -/
def trailingZeros : Nat → Nat → Nat
  | 0, _ => 0
  | n + 1, x => if x % 2 = 1 then 0 else 1 + trailingZeros n (x / 2)

/-- The number of zero bits above the highest set bit of the low `n` bits (R198 `clz`). -/
def leadingZeros (n x : Nat) : Nat := trailingZeros n (reverse n (x % 2 ^ n))

/-- A mask holding bit `l` for every listed `l` (R224: bit l for lane l). -/
def maskOf (ls : List Nat) : Nat := ls.foldl (fun m l => m ||| 2 ^ l) 0

/-- ⌈a ÷ b⌉. -/
def ceilDiv (a b : Nat) : Nat := (a + b - 1) / b

end Sys2Proof.Bits
end

