-- ==== Sys2Proof/Syntax.lean ====
section
/-! DEFINITION. The syntax: operand types, instruction forms and the one inductive `Instr` with a constructor for every
row of the opcode table. Rows without an encoding are steps of the part's other agents and of the outside world
(spec/95); their operands name what the step acts on. -/

namespace Sys2Proof

/-- The type codes of Table 9.5 (R167). -/
inductive Ty where
  | b32 | i8 | n8 | i16 | n16 | i32 | n32 | i64 | n64 | f16 | bf16 | f32 | f64 | e4m3 | e5m2 | e2m1 | e2m1s | b64 | b128
  deriving DecidableEq, Repr

/-- The fields of the extended form X (R162, Table 9.4), with the literal of LEN 11. -/
structure XForm where
  sub : BitVec 6
  ty : Ty
  g : BitVec 4
  h : BitVec 2
  fs : BitVec 3
  sc : BitVec 2
  d : BitVec 10
  a : BitVec 10
  b : BitVec 10
  xa : Bool
  xb : Bool
  c : BitVec 10
  imm : BitVec 22
  lit : Option DWord
  deriving DecidableEq, Repr

/-- Base format B3 (R160). `u` is M bit 0: type n32 in place of i32 where Table 9.3 allows it. `lit` is the literal of
LEN 10, which replaces operand B (R158). -/
structure B3 where
  d : BitVec 6
  a : BitVec 6
  b : BitVec 6
  u : Bool
  lit : Option DWord
  deriving DecidableEq, Repr

/-- Base format BI (R160). -/
structure BI where
  d : BitVec 6
  a : BitVec 6
  imm : BitVec 10
  deriving DecidableEq, Repr

/-- Base format BM (R160): `pair` is the even address register divided by two. -/
structure BM where
  d : BitVec 6
  pair : BitVec 5
  off : BitVec 10
  deriving DecidableEq, Repr

/-- Base format BJ (R160). -/
structure BJ where
  g : BitVec 4
  off : BitVec 18
  deriving DecidableEq, Repr

/-- What a peer access does at its destination (R283, R284). `atom` and `red` carry the SUB of Table 10.3. -/
inductive PeerOp where
  | load
  | store
  | atom (sub : Nat) (ty : Ty)
  | red (sub : Nat) (ty : Ty)
  deriving DecidableEq, Repr

/-- One peer access as it travels: sender's module and tag, address on the destination module, size in bytes,
operand and compare value (R283, R284). -/
structure PeerRequest where
  op : PeerOp
  source : Nat
  tag : Nat
  pa : Nat
  size : Nat
  value : Nat
  compare : Nat
  agent : Nat := 0                      -- the thread of the source that made it, told apart from its others (R85)
  plane : Option Nat := none            -- of an element of a collective's packet, the plane it travels on (R282, R289)
  deriving DecidableEq, Repr

/-- A destination's answer: a load's or an atomic's value, the acknowledgement of a store or reduction, a refusal with its
PROTECTION reason, or an uncorrectable word's array (R37, R87, R281, R283). -/
inductive PeerReply where
  | value (v : Nat)
  | ack
  | refusal (reason : Nat)
  | ecc (array : Nat)
  deriving DecidableEq, Repr

/-- The extended-form operations: one name per extended row of the opcode table. -/
inductive XOp where
  | add | sub | mul | mulhi | mad | minI | maxI | bitAnd | bitOr | bitXor | shl | shr | sra | rol | bfe | bfi
  | popc | clz | ctz | brev | absI | negI | bitNot | div | rem | lea | sel | mov | ldi | cvt | cmp | pand
  | por | pxor | pandn | pnot | pmov | pget | pset | fadd | fsub | fmul | fma | fmin | fmax | fabs | fneg
  | fsgn | frnd | frcp | frsq | fsqrt | fdiv | fex2 | flg2 | fsinr | fcosr | fcmp | fcvt | mxq | mxdq | shfl
  | perm | vote | redux | cdet | matchV | vget | vput | xclaim | xgive | stage | kmov | kset | sysrd | ld
  | st | ldfe | stfe | feset | pf | prq | atom | red | waddr | fenceSys | fenceIo | fenceCode | mma | mmaQ
  | mmas | acalloc | acfree | acrd | acwr | aczero | acq | cp | cpg | coll | futTest | futCancel | futMov
  | futShr | boInit | boArrive | boExpect | boWait | boTest | boFree | ncall | nret | impPost | impChk
  | impWait | impClear | br | brx | call | calli | ret | exit | tail | yield | nop | barArrive | barWait
  | barSync | trap | rte | syswr | brk | halt | jinit | jenter | jquit | jwait | jread | jsave | jrest
  | spawn | cancq | cancqSelf | cancqId | launch
  deriving DecidableEq, Repr

/-- One constructor per row of the opcode table. -/
inductive Instr where
  /-- R196. Extended-form integer add of two sources or a literal, modulo 2^w. -/
  | add (x : XForm)
  /-- R161. Base B3 form of add on v0-v63 at i32. -/
  | addBase (f : B3)
  /-- R161. Base BI form of add with a sign-extended 10-bit immediate. -/
  | addImmBase (f : BI)
  /-- R196. Extended-form integer subtract modulo 2^w. -/
  | sub (x : XForm)
  /-- R161. Base B3 form of sub. -/
  | subBase (f : B3)
  /-- R161. Base BI form of sub with an immediate. -/
  | subImmBase (f : BI)
  /-- R196. Extended-form integer multiply, low w bits. -/
  | mul (x : XForm)
  /-- R161. Base B3 form of mul. -/
  | mulBase (f : B3)
  /-- R161. Base BI form of mul with an immediate. -/
  | mulImmBase (f : BI)
  /-- R196. Extended-form high half of the exact 2w-bit product. -/
  | mulhi (x : XForm)
  /-- R161. Base B3 form of mulhi, M selecting i32 or n32. -/
  | mulhiBase (f : B3)
  /-- R161. Base BI form of mulhi with an immediate. -/
  | mulhiImmBase (f : BI)
  /-- R196. Extended-form integer multiply-add a*b+c modulo 2^w. -/
  | mad (x : XForm)
  /-- R161. Base B3 form of mad with the addend taken from D. -/
  | madBase (f : B3)
  /-- R161. Base BI form of mad with an immediate and addend D. -/
  | madImmBase (f : BI)
  /-- R196. Extended-form integer minimum by the type's signedness. -/
  | minI (x : XForm)
  /-- R161. Base B3 form of min, M selecting i32 or n32. -/
  | minIBase (f : B3)
  /-- R161. Base BI form of min with an immediate. -/
  | minIImmBase (f : BI)
  /-- R196. Extended-form integer maximum by the type's signedness. -/
  | maxI (x : XForm)
  /-- R161. Base B3 form of max, M selecting i32 or n32. -/
  | maxIBase (f : B3)
  /-- R161. Base BI form of max with an immediate. -/
  | maxIImmBase (f : BI)
  /-- R196. Extended-form bitwise AND. -/
  | bitAnd (x : XForm)
  /-- R161. Base B3 form of and. -/
  | bitAndBase (f : B3)
  /-- R161. Base BI form of and with an immediate. -/
  | bitAndImmBase (f : BI)
  /-- R196. Extended-form bitwise OR. -/
  | bitOr (x : XForm)
  /-- R161. Base B3 form of or. -/
  | bitOrBase (f : B3)
  /-- R161. Base BI form of or with an immediate. -/
  | bitOrImmBase (f : BI)
  /-- R196. Extended-form bitwise exclusive OR. -/
  | bitXor (x : XForm)
  /-- R161. Base B3 form of xor. -/
  | bitXorBase (f : B3)
  /-- R161. Base BI form of xor with an immediate. -/
  | bitXorImmBase (f : BI)
  /-- R196. Extended-form shift left, zero when the count reaches w. -/
  | shl (x : XForm)
  /-- R161. Base B3 form of shl. -/
  | shlBase (f : B3)
  /-- R161. Base BI form of shl with an immediate count. -/
  | shlImmBase (f : BI)
  /-- R196. Extended-form logical shift right. -/
  | shr (x : XForm)
  /-- R161. Base B3 form of shr. -/
  | shrBase (f : B3)
  /-- R161. Base BI form of shr with an immediate count. -/
  | shrImmBase (f : BI)
  /-- R196. Extended-form arithmetic shift right with the count clipped to w-1. -/
  | sra (x : XForm)
  /-- R161. Base B3 form of sra. -/
  | sraBase (f : B3)
  /-- R161. Base BI form of sra with an immediate count. -/
  | sraImmBase (f : BI)
  /-- R196. Extended-form rotate left by the count modulo w. -/
  | rol (x : XForm)
  /-- R161. Base B3 form of rol. -/
  | rolBase (f : B3)
  /-- R161. Base BI form of rol with an immediate count. -/
  | rolImmBase (f : BI)
  /-- R197. Extracts a bit field given by POS and LEN, sign- or zero-extended. -/
  | bfe (x : XForm)
  /-- R197. Inserts a bit field into a base value. -/
  | bfi (x : XForm)
  /-- R198. Counts the set bits of the source. -/
  | popc (x : XForm)
  /-- R198. Counts leading zero bits. -/
  | clz (x : XForm)
  /-- R198. Counts trailing zero bits. -/
  | ctz (x : XForm)
  /-- R198. Reverses the bit order of the source. -/
  | brev (x : XForm)
  /-- R198. Integer absolute value modulo 2^w. -/
  | absI (x : XForm)
  /-- R198. Integer negation modulo 2^w. -/
  | negI (x : XForm)
  /-- R198. Bitwise complement. -/
  | bitNot (x : XForm)
  /-- R199. Integer division rounding toward zero, all ones on a zero divisor. -/
  | div (x : XForm)
  /-- R199. Integer remainder with the sign of the dividend. -/
  | rem (x : XForm)
  /-- R200. Computes a 64-bit address base plus scaled offset without any check. -/
  | lea (x : XForm)
  /-- R201. Writes source A where the guard is true and source B elsewhere. -/
  | sel (x : XForm)
  /-- R202. Extended-form register copy of 32, 64 or 128 bits. -/
  | mov (x : XForm)
  /-- R161. Base B3 form of mov at b32. -/
  | movBase (d a : BitVec 6)
  /-- R203. Extended-form constant load from IMM22 or a literal. -/
  | ldi (x : XForm)
  /-- R161. Base BI form of ldi with a sign-extended 10-bit immediate. -/
  | ldiBase (d : BitVec 6) (imm : BitVec 10) (lit : Option DWord)
  /-- R204. Integer-to-integer conversion, wrapping or saturating. -/
  | cvt (x : XForm)
  /-- R205. Integer comparison writing a predicate. -/
  | cmp (x : XForm)
  /-- R206. Predicate AND. -/
  | pand (x : XForm)
  /-- R206. Predicate OR. -/
  | por (x : XForm)
  /-- R206. Predicate exclusive OR. -/
  | pxor (x : XForm)
  /-- R206. Predicate A AND NOT B. -/
  | pandn (x : XForm)
  /-- R206. Predicate negation. -/
  | pnot (x : XForm)
  /-- R206. Predicate copy. -/
  | pmov (x : XForm)
  /-- R207. Writes the eight predicates as bits of a register. -/
  | pget (x : XForm)
  /-- R207. Sets masked predicates p0-p6 from register bits. -/
  | pset (x : XForm)
  /-- R211. Extended-form floating add rounded once. -/
  | fadd (x : XForm)
  /-- R161. Base B3 form of fadd at f32. -/
  | faddBase (f : B3)
  /-- R211. Extended-form floating subtract. -/
  | fsub (x : XForm)
  /-- R161. Base B3 form of fsub at f32. -/
  | fsubBase (f : B3)
  /-- R211. Extended-form floating multiply. -/
  | fmul (x : XForm)
  /-- R161. Base B3 form of fmul at f32. -/
  | fmulBase (f : B3)
  /-- R211. Extended-form fused multiply-add with a single rounding. -/
  | fma (x : XForm)
  /-- R161. Base B3 form of fma at f32 with the addend in D. -/
  | fmaBase (f : B3)
  /-- R212. Extended-form minimumNumber. -/
  | fmin (x : XForm)
  /-- R161. Base B3 form of fmin at f32. -/
  | fminBase (f : B3)
  /-- R212. Extended-form maximumNumber. -/
  | fmax (x : XForm)
  /-- R161. Base B3 form of fmax at f32. -/
  | fmaxBase (f : B3)
  /-- R213. Clears the sign bit. -/
  | fabs (x : XForm)
  /-- R213. Inverts the sign bit. -/
  | fneg (x : XForm)
  /-- R213. Gives A's magnitude with B's sign bit. -/
  | fsgn (x : XForm)
  /-- R214. Rounds to an integral value under the mode of SUB. -/
  | frnd (x : XForm)
  /-- R215. Reciprocal within 1 ulp. -/
  | frcp (x : XForm)
  /-- R215. Reciprocal square root within 1 ulp. -/
  | frsq (x : XForm)
  /-- R215. Correctly rounded square root. -/
  | fsqrt (x : XForm)
  /-- R215. Correctly rounded division. -/
  | fdiv (x : XForm)
  /-- R215. Base-2 exponential within 1 ulp. -/
  | fex2 (x : XForm)
  /-- R215. Base-2 logarithm within 1 ulp. -/
  | flg2 (x : XForm)
  /-- R215. Sine of an argument in turns. -/
  | fsinr (x : XForm)
  /-- R215. Cosine of an argument in turns. -/
  | fcosr (x : XForm)
  /-- R216. Floating comparison writing a predicate. -/
  | fcmp (x : XForm)
  /-- R218. Floating conversion by mode or through a format slot. -/
  | fcvt (x : XForm)
  /-- R220. Quantises 32 f32 values into one e2m1s or e2m1 block. -/
  | mxq (x : XForm)
  /-- R221. Decodes one block into 32 f32 values. -/
  | mxdq (x : XForm)
  /-- R226. Collective pull of a value from a computed source lane. -/
  | shfl (x : XForm)
  /-- R227. Collective push of each value to a target lane. -/
  | perm (x : XForm)
  /-- R228. Collective vote over live lanes' predicates or values. -/
  | vote (x : XForm)
  /-- R229. Collective fixed-tree reduction over live lanes. -/
  | redux (x : XForm)
  /-- R230. Mask of lower live lanes holding an equal value. -/
  | cdet (x : XForm)
  /-- R230. Mask of all live lanes holding an equal value. -/
  | matchV (x : XForm)
  /-- R231. Reads a register whose number is computed. -/
  | vget (x : XForm)
  /-- R231. Writes a register whose number is computed. -/
  | vput (x : XForm)
  /-- R128. Claims extended registers for the group, completing, refusing or waiting. -/
  | xclaim (x : XForm)
  /-- R128. Shrinks the group's extended block and grants waiting claims in stamp order. -/
  | xgive (x : XForm)
  /-- R233. Names a working set of registers, affecting timing only. -/
  | stage (x : XForm)
  /-- R234. Copies a uniform register into lane registers. -/
  | kmov (x : XForm)
  /-- R234. Writes a uniform register under the single-writer rule. -/
  | kset (x : XForm)
  /-- R235. Copies a special register, optionally clearing %fpflags. -/
  | sysrd (x : XForm)
  /-- R181. Extended-form load performed in S at its site. -/
  | ld (x : XForm)
  /-- R161. Base BM form of ld at b32 with a scaled 10-bit offset. -/
  | ldBase (f : BM)
  /-- R181. Extended-form guarded store. -/
  | st (x : XForm)
  /-- R161. Base BM form of st at b32. -/
  | stBase (f : BM)
  /-- R182. Loads a forme word once it is full, optionally emptying it. -/
  | ldfe (x : XForm)
  /-- R182. Stores a forme word once it is empty and marks it full. -/
  | stfe (x : XForm)
  /-- R183. Sets a forme word's full/empty bit, possibly releasing a waiter. -/
  | feset (x : XForm)
  /-- R185. Prefetches a line into the region slice without any effect on values. -/
  | pf (x : XForm)
  /-- R184. Reads a forme line's presence state without waiting. -/
  | prq (x : XForm)
  /-- R187. Atomic read-modify-write returning the old value. -/
  | atom (x : XForm)
  /-- R188. Atomic reduction returning nothing. -/
  | red (x : XForm)
  /-- R190. Installs a wait-on-address entry and parks until the condition holds. -/
  | waddr (x : XForm)
  /-- R87. Holds later accesses until peer and host bypass stores are acknowledged. -/
  | fenceSys (x : XForm)
  /-- R88. Holds later accesses until I/O writes are sent and reads returned. -/
  | fenceIo (x : XForm)
  /-- R89. Performs earlier stores and drops every instruction cache. -/
  | fenceCode (x : XForm)
  /-- R246. Queues one 32x32 matrix product into a slug. -/
  | mma (x : XForm)
  /-- R247. Quad matrix product sharing B across four groups after a rendezvous. -/
  | mmaQ (x : XForm)
  /-- R248. Sparse matrix product on a compressed A. -/
  | mmas (x : XForm)
  /-- R251. Requests slug names, completing, refusing or waiting. -/
  | acalloc (x : XForm)
  /-- R253. Unbinds slug names and grants waiting requests. -/
  | acfree (x : XForm)
  /-- R254. Reads slug rows into lane registers. -/
  | acrd (x : XForm)
  /-- R254. Writes lane registers into slug rows. -/
  | acwr (x : XForm)
  /-- R254. Sets a slug to +0. -/
  | aczero (x : XForm)
  /-- R255. Converts slug rows to a narrow type through a slot. -/
  | acq (x : XForm)
  /-- R246. A queued matrix or galley operation acts on its slug, raises flags and makes its link arrival. -/
  | matrixOpComplete (core part : Nat)
  /-- R259. Issues a copy job from a job card and returns a future handle. -/
  | cp (x : XForm)
  /-- R259. Issues a gather job. -/
  | cpg (x : XForm)
  /-- R259. Issues a collective job to the die's collective engine. -/
  | coll (x : XForm)
  /-- R260. Tests whether a handle's job has ended. -/
  | futTest (x : XForm)
  /-- R122. Cancels a pending job. -/
  | futCancel (x : XForm)
  /-- R260. Moves a pending mark to another register. -/
  | futMov (x : XForm)
  /-- R260. Publishes a handle to a uniform register. -/
  | futShr (x : XForm)
  /-- R103. Initialises and tags a barrier object. -/
  | boInit (x : XForm)
  /-- R103. Arrives on a barrier object with a count. -/
  | boArrive (x : XForm)
  /-- R103. Adds pending bytes to the current phase. -/
  | boExpect (x : XForm)
  /-- R262. Waits until the object's phase differs from the named one. -/
  | boWait (x : XForm)
  /-- R262. Reports phase passed, pending or faulted without waiting. -/
  | boTest (x : XForm)
  /-- R103. Clears an object's tags. -/
  | boFree (x : XForm)
  /-- R264. Checks and sends a platen call with its card and arguments. -/
  | ncall (x : XForm)
  /-- R266. Ends a near-memory thread. -/
  | nret (x : XForm)
  /-- R267. Posts an output tile's imprint as a team release. -/
  | impPost (x : XForm)
  /-- R268. Tests whether a tile is imprinted at a generation. -/
  | impChk (x : XForm)
  /-- R268. Waits for a tile's imprint or raises IMPRINT_STALE. -/
  | impWait (x : XForm)
  /-- R269. Retires an imprint entry. -/
  | impClear (x : XForm)
  /-- R327. Extended-form guarded direct branch. -/
  | br (x : XForm)
  /-- R161. Base BJ form of br with an 18-bit word offset. -/
  | brBase (f : BJ)
  /-- R327. Guarded indirect branch through a register pair. -/
  | brx (x : XForm)
  /-- R327. Extended-form guarded direct call writing a link pair. -/
  | call (x : XForm)
  /-- R161. Base BJ form of call linking through v0:v1. -/
  | callBase (f : BJ)
  /-- R327. Guarded indirect call. -/
  | calli (x : XForm)
  /-- R327. Extended-form return through a register pair. -/
  | ret (x : XForm)
  /-- R161. Base form of ret through v0:v1. -/
  | retBase
  /-- R328. Extended-form thread exit. -/
  | exit (x : XForm)
  /-- R328. Base form of exit. -/
  | exitBase
  /-- R305. Ends a thread releasing its group resources early via the retirement tracker. -/
  | tail (x : XForm)
  /-- R330. Gives up the threads' turn for up to 64 clocks. -/
  | yield (x : XForm)
  /-- R331. Extended-form no operation. -/
  | nop (x : XForm)
  /-- R331. Base form of nop. -/
  | nopBase
  /-- R333. Arrives on a named barrier and returns its phase. -/
  | barArrive (x : XForm)
  /-- R333. Waits on a named barrier for a phase change. -/
  | barWait (x : XForm)
  /-- R333. Arrives on a named barrier and waits. -/
  | barSync (x : XForm)
  /-- R337. Extended-form software trap raising SW_TRAP. -/
  | trap (x : XForm)
  /-- R337. Base BI form of trap. -/
  | trapBase (code : BitVec 10)
  /-- R338. Returns from a handler and clears the handler bit. -/
  | rte (x : XForm)
  /-- R339. Writes a management-window register from system mode. -/
  | syswr (x : XForm)
  /-- R337. Raises BREAKPOINT. -/
  | brk (x : XForm)
  /-- R340. Stops the executing team at instruction boundaries. -/
  | halt (x : XForm)
  /-- R310. Replaces a rejoin set's member mask. -/
  | jinit (x : XForm)
  /-- R311. Adds the executing lanes to a set. -/
  | jenter (x : XForm)
  /-- R312. Removes the executing lanes from a set, possibly releasing it. -/
  | jquit (x : XForm)
  /-- R313. Extended-form arrival and park on a rejoin set. -/
  | jwait (x : XForm)
  /-- R313. Base form of jwait. -/
  | jwaitBase (set : BitVec 4)
  /-- R315. Reads a set's member or arrived mask. -/
  | jread (x : XForm)
  /-- R316. Saves a set's masks to a register pair. -/
  | jsave (x : XForm)
  /-- R316. Restores a set's member mask. -/
  | jrest (x : XForm)
  /-- R362. Offers a task to the core's spawn bins. -/
  | spawn (x : XForm)
  /-- R367. Tests the launch's cancel flag. -/
  | cancq (x : XForm)
  /-- R367. Cancels the thread's own launch. -/
  | cancqSelf (x : XForm)
  /-- R367. Cancels a launch of the thread's context by identifier. -/
  | cancqId (x : XForm)
  /-- R366. Places a launch record into a device queue. -/
  | launch (x : XForm)
  /-- R371. Reissues an instruction after a replay condition such as a full scoreboard or platen. -/
  | instructionReplay (team thread : Nat)
  /-- R28. Retries a TLB miss held because the pending-miss table was full. -/
  | pendingMissRetry (die : Nat)
  /-- R28. A page walk ends and all joined requesters proceed or fault. -/
  | walkComplete (die entry : Nat)
  /-- R30. Signals MSI-X vector 1 once the fault record is visible. -/
  | faultMsixSignal
  /-- R31. Host RETRY reply releases the entry and replays joined requesters. -/
  | fltreplyRetry (slot seq : Nat)
  /-- R31. Host FAIL reply raises HOST_DENIED in joined threads and jobs. -/
  | fltreplyFail (slot seq : Nat)
  /-- R29. Starts invalidation of one page range of a context. -/
  | tlbinvRange (ctx va size : Nat)
  /-- R29. Starts invalidation of every translation of a context. -/
  | tlbinvWhole (ctx : Nat)
  /-- R29. Starts invalidation of every translation. -/
  | tlbinvAllctx
  /-- R29. An invalidation finishes and BUSY returns to 0. -/
  | tlbinvComplete
  /-- R36. Periodic scrub of HBM words rewriting corrected data. -/
  | patrolScrub (pa : Nat)
  /-- R41. Every logical clock rises by one each 64 core clocks. -/
  | clockTick
  /-- R45. A clock reaching 2^62-2^20 stops issue and starts the rebase. -/
  | clockRebase
  /-- R45. After draining, all times are rebased and issue resumes. -/
  | rebaseComplete
  /-- R43. Home serves a shared read request extending the lease. -/
  | gets (tag : Nat)
  /-- R46. Home serves an exclusive request granting ownership or recalling. -/
  | getx (tag : Nat)
  /-- R47. Home serves an upgrade, granting or treating it as GETX. -/
  | upg (tag : Nat)
  /-- R48. Home takes an owner's write-back of data and times. -/
  | wb (tag : Nat)
  /-- R55. Home executes a device-scope atomic or reduction. -/
  | atomRequest (tag : Nat)
  /-- R46. Owner sends data home and keeps a shared copy. -/
  | fwdS (tag : Nat)
  /-- R46. Owner sends data home and drops its copy. -/
  | fwdX (tag : Nat)
  /-- R46. Home receives an owner's forward answer and completes the waiting request. -/
  | forwardAnswer (tag : Nat)
  /-- R48. Home discards a forward answer matching a write-back already taken. -/
  | fwdGone (tag : Nat)
  /-- R51. Region slice answers a discovery broadcast if it owns the line. -/
  | disc (tag : Nat)
  /-- R43. Requester receives line data with WTS and RTS. -/
  | data (tag : Nat)
  /-- R53. Requester's expired copy is renewed without data. -/
  | renew (tag : Nat)
  /-- R46. Requester receives data and ownership. -/
  | dataX (tag : Nat)
  /-- R46. Requester receives ownership without data. -/
  | grantX (tag : Nat)
  /-- R48. Owner frees a line from its write-back buffer. -/
  | wbAck (tag : Nat)
  /-- R49. Requester receives NACK because the line queue is full. -/
  | nack (tag : Nat)
  /-- R49. Requester retries 16 core clocks after a NACK. -/
  | nackRetry (tag : Nat)
  /-- R57. Host answers a back-invalidate snoop and the home leaves HB. -/
  | backInvalidateAnswer (line : Nat)
  /-- R56. Port answers a host snoop for a host line the device caches. -/
  | hostSnoop (line : Nat)
  /-- R82. Host CXL.mem read performed at the home slice. -/
  | hostMemRead (pa len : Nat)
  /-- R82. Host CXL.mem write performed at the home slice. -/
  | hostMemWrite (pa : Nat) (bytes : List (Option Byte))
  /-- R83. Port receives a host line fetched over CXL.cache. -/
  | hostLineFetch (line : Nat)
  /-- R60. A wake reaches the core, raises its clock and completes waddr. -/
  | wake (tag : Nat)
  /-- R63. Surviving die stops issue after the other die fails or is silent for 100 us. -/
  | dieLossDetect (die : Nat)
  /-- R63. Salvage records are written and HOME_LOST is raised. -/
  | salvageDone
  /-- R93. Releases a cluster's forme once its teams and jobs are done. -/
  | formeRelease (cluster : Nat)
  /-- R119. A job with no pending edge begins its line accesses. -/
  | jobStart (job : Nat)
  /-- R114. An engine reads one footprint line at its site. -/
  | engineLineRead (job : Nat)
  /-- R114. An engine writes one destination line, updating presence and bound object. -/
  | engineLineWrite (job : Nat)
  /-- R120. A job ends and its status word is written to its handles. -/
  | jobEnd (job : Nat)
  /-- R276. Home slices apply earlier packets for a call's range lines. -/
  | platenCallDrain (stack call : Nat)
  /-- R276. Range lines are recalled, back-invalidated and written to HBM. -/
  | platenCallWriteback (stack call : Nat)
  /-- R80. Range lines enter L and the platen clock is raised. -/
  | platenCallLoan (stack call : Nat)
  /-- R272. Places a near-memory team on a core after header checks. -/
  | platenTeamPlace (stack call : Nat)
  /-- R275. First fault of a call stops its threads and drops unstarted teams. -/
  | platenCallFault (stack call : Nat)
  /-- R276. After the last team, range lines are invalidated and MTS raised. -/
  | platenCallInvalidate (stack call : Nat)
  /-- R265. Writes the return record and arrives on the return object. -/
  | platenCallReturn (stack call : Nat)
  /-- R279. Platen reduction unit applies a queued packet at DRAM. -/
  | platenPacketApply (stack index : Nat)
  /-- R280. A UALink port trains, negotiating version, or is held down. -/
  | linkTrain (port : Nat) (good : Bool)
  /-- R285. A plane goes down and unacknowledged accesses are counted lost. -/
  | linkDown (port : Nat)
  /-- R283. Destination performs an inbound peer access at its site or refuses it. -/
  | peerRequestReceive (req : PeerRequest) (kind : Nat)
  /-- R284. Issuing thread receives a peer load or atomic reply or refusal. -/
  | peerReplyReceive (tag : Nat) (reply : PeerReply)
  /-- R87. Acknowledgement of a peer write arrives, possibly completing fence.sys. -/
  | peerAckReceive (tag : Nat)
  /-- R284. Home slice applies an inbound reduction packet to a device line. -/
  | reductionPacketApply (die index : Nat)
  /-- R291. Engine receives a summed element group and writes completed lines. -/
  | collResultReceive (job group : Nat) (vals : List Word)
  /-- R292. An abort from the switch ends the job with COLL_ABORT or COLL_MISMATCH. -/
  | collAbortReceive (job : Nat) (mismatch : Bool)
  /-- R286. Writes a reduction group, resetting its JSEQ when EN is set. -/
  | cgrptabWrite (group : Nat) (value : DWord)
  /-- R302. Places a ready cluster on a fitting rectangle and starts its teams. -/
  | clusterPlace (launch cluster core : Nat)
  /-- R304. Frees a group's slot and registers once its threads' accesses are performed. -/
  | groupRelease (team group : Nat)
  /-- R305. Frees a retirement-tracker entry when its accesses and jobs are done. -/
  | trackerDrainDone (core entry : Nat)
  /-- R306. Releases a team's barriers, uniform registers and slugs. -/
  | teamRetire (team : Nat)
  /-- R348. A launch completes and its completion entry is written. -/
  | launchComplete (launch : Nat)
  /-- R343. Host doorbell reads new records or sets ERR. -/
  | hqdb (queue : Nat) (value : DWord)
  /-- R342. Enabling a queue resets HEAD, TAIL and ERR. -/
  | hqctlEnable (queue : Nat) (value : DWord)
  /-- R342. Disabling a queue stops record reading. -/
  | hqctlDisable (queue : Nat) (value : DWord)
  /-- R346. Admits or refuses the chosen queue head when a kernel slot is free. -/
  | launchAdmit
  /-- R344. Signals MSI-X vector 2 once a completion entry is visible. -/
  | completionMsixSignal
  /-- R354. Cancels a launch, dropping unplaced clusters. -/
  | lcancel (launch : Nat)
  /-- R368. Cancel flag reaches a core, purging the launch's spawn bins. -/
  | cancelFlagSet (launch core : Nat)
  /-- R356. A thread's age reaches 512 and it becomes urgent. -/
  | ageUrgent (core part : Nat)
  /-- R330. A yield deferral ends after 64 clocks. -/
  | yieldExpire (team thread : Nat)
  /-- R357. A spin demotion ends after 256 clocks. -/
  | demotionExpire (team thread : Nat)
  /-- R359. Power arbiter grants matrix budget for a new 1 us window. -/
  | powerWindow (die : Nat)
  /-- R361. An open spawn bin's timer expires and it becomes ready. -/
  | spawnBinTimer (core bin : Nat)
  /-- R363. Places a ready bin as a child team on its core. -/
  | spawnBinPlace (core bin : Nat)
  /-- R363. An idle core steals and places a ready bin of another core. -/
  | spawnBinSteal (core : Nat)
  /-- R377. Signals MSI-X vector 3 once a host event record is visible. -/
  | eventMsixSignal
  /-- R378. Raises a WATCHDOG event for a launch idle for LIMIT periods. -/
  | watchdog (launch : Nat)
  /-- R380. Starts pre-emption of a launch's clusters: stop, rewind, drain. -/
  | preemptGo (value : DWord)
  /-- R380. Sets a launch's hold flag. -/
  | preemptHold (value : DWord)
  /-- R382. After the drain, writes a cluster's save areas and releases its resources. -/
  | preemptSave (cluster : Nat)
  /-- R380. Pre-emption finishes, BUSY clears and a KIND 7 event is raised. -/
  | preemptDone
  /-- R383. Restores a saved cluster onto fitting cores. -/
  | clusterRestore (saved core : Nat)
  /-- R379. Resumes a stopped team. -/
  | teamctlResume (core part slot : Nat)
  /-- R379. Discards a stopped team, ending its threads. -/
  | teamctlDiscard (core part slot : Nat)
  /-- R395. Starts dropping every instruction cache line. -/
  | codeinvGo
  /-- R395. Instruction caches are dropped and BUSY returns to 0. -/
  | codeinvComplete
  /-- R414. Submits a system-mode launch record. -/
  | syslaunch (value : DWord)
  /-- R416. RESETCTL write starts a warm reset. -/
  | warmReset
  /-- R416. A CXL hot reset starts a warm reset. -/
  | cxlHotReset
  /-- R416. Power-on runs the cold reset sequence. -/
  | coldReset
  /-- R418. Junction above 100 C cuts grants to the minimum. -/
  | thermalThrottle (die temp : Nat)
  /-- R418. Junction below 95 C ends throttling. -/
  | thermalRecover (die temp : Nat)
  /-- R418. Junction above 110 C runs warm-reset steps, signals viral and holds reset. -/
  | thermalTrip (die temp : Nat)
  /-- R419. GATE bit set stops placement on a die. -/
  | powerGateRequest (die : Nat)
  /-- R419. An idle die writes back its lines and loses power. -/
  | powerGateComplete (die : Nat)
  /-- R419. GATE bit cleared restores a die with raised clocks. -/
  | powerUngate (die : Nat)
  /-- R421. A write into the readback aperture for a stopped team or HBM. -/
  | stateReadbackWrite (offset : Nat) (value : DWord)
  /-- R412. Write to a management register that has no behaviour of its own. -/
  | registerWrite (offset : Nat) (value : DWord)
  /-- R88. The reply to an uncached I/O read over CXL.io returns to the issuing thread, completing its load and possibly its fence.io. -/
  | ioReadReturn (tag : Nat) (data : Nat)
  /-- R87. A .byp store to host-kind memory is acknowledged as written to host memory, which lets a waiting fence.sys complete. -/
  | hostMemoryWriteDone (tag : Nat)
  /-- R417. A DOE request from the host, such as an SPDM attestation message, is taken and answered, even while the part is held in reset. -/
  | doeRequest (request : Nat)
  /-- R349. The host retires an imprint table entry through the management window. -/
  | imprintEntryRetire (ctx buf x y : Nat)
  deriving DecidableEq, Repr

end Sys2Proof
end

