-- ==== Sys2Proof/Machine/Fields.lean ====
section
/-! DEFINITION. Type codes and the field-use tables of the instruction chapters (Tables 9.5, 10.1, 11.1, 12.1, 13.1,
14.1, 15.1, 19.1, 20.1, 22.1): which SUB, TY and fields each extended instruction accepts. -/

namespace Sys2Proof

/-- The code of a type (Table 9.5). -/
def Ty.code : Ty → Nat
  | .b32 => 0 | .i8 => 1 | .n8 => 2 | .i16 => 3 | .n16 => 4 | .i32 => 5 | .n32 => 6 | .i64 => 7 | .n64 => 8
  | .f16 => 9 | .bf16 => 10 | .f32 => 11 | .f64 => 12 | .e4m3 => 13 | .e5m2 => 14 | .e2m1 => 15 | .e2m1s => 16
  | .b64 => 17 | .b128 => 18

/-- The type of a code; codes 19 to 31 are reserved (R167). -/
def Ty.ofCode : Nat → Option Ty
  | 0 => some .b32 | 1 => some .i8 | 2 => some .n8 | 3 => some .i16 | 4 => some .n16 | 5 => some .i32
  | 6 => some .n32 | 7 => some .i64 | 8 => some .n64 | 9 => some .f16 | 10 => some .bf16 | 11 => some .f32
  | 12 => some .f64 | 13 => some .e4m3 | 14 => some .e5m2 | 15 => some .e2m1 | 16 => some .e2m1s | 17 => some .b64
  | 18 => some .b128 | _ => none

/-- The width of a value of the type, in bits (Tables 8.1 and 8.2). -/
def Ty.bits : Ty → Nat
  | .i8 | .n8 | .e4m3 | .e5m2 => 8
  | .i16 | .n16 | .f16 | .bf16 => 16
  | .b32 | .i32 | .n32 | .f32 => 32
  | .b64 | .i64 | .n64 | .f64 => 64
  | .b128 => 128
  | .e2m1 | .e2m1s => 4

/-- How many registers a value of the type occupies (R124). -/
def Ty.regs : Ty → Nat
  | .b64 | .i64 | .n64 | .f64 => 2
  | .b128 => 4
  | _ => 1

/-- The i types, read as two's complement (R195). -/
def Ty.isSigned : Ty → Bool
  | .i8 | .i16 | .i32 | .i64 => true
  | _ => false

/-- The value a type gives to bits: two's complement for the i types, unsigned otherwise (R195). -/
def Ty.value (ty : Ty) (a : Nat) : Int := if ty.isSigned then Bits.signed ty.bits a else ((a % 2 ^ ty.bits : Nat) : Int)

/-- The integer types of codes 1 to 8 (R204, R217). -/
def Ty.isInt (t : Ty) : Bool := decide (1 ≤ t.code) && decide (t.code ≤ 8)

/-- The IEEE formats: F of R217. -/
def Ty.isF : Ty → Bool
  | .f16 | .bf16 | .f32 | .f64 => true
  | _ => false

/-- The narrow formats: N of R217. -/
def Ty.isN : Ty → Bool
  | .e4m3 | .e5m2 | .e2m1 => true
  | _ => false

/-- What a register field of the extended form names (R163). -/
inductive FieldKind where
  | none                -- reserved: zero
  | reg                 -- lane register of the type's width
  | src                 -- lane register of the width of the type whose code is SUB (`cvt`, `fcvt`)
  | lanes (w : Nat)     -- lane register of `w` registers' width
  | pred                -- predicate, 0 to 7
  | kreg                -- uniform register, 0 to 63
  | kpair               -- uniform register, even for a 64-bit type
  | jset                -- rejoin set, 0 to 15
  | sreg                -- special register number (Table 7.2)
  | index               -- reserved unless XA or XB is set
  deriving DecidableEq, Repr

/-- One row of a field-use table. -/
structure Use where
  tys : List Ty
  lit : Bool := false
  guard : Bool := false
  h : Bool := false
  sc : Bool := false
  fs : Bool := false
  d : FieldKind := .none
  a : FieldKind := .none
  b : FieldKind := .none
  c : FieldKind := .none
  xa : Bool := false
  xb : Bool := false
  imm : Nat := 0
  deriving Repr

namespace Fields

def intTys : List Ty := [.i32, .n32, .i64, .n64]
def logicTys : List Ty := [.b32, .b64, .i32, .n32, .i64, .n64]
def bitTys : List Ty := [.b32, .b64]
def moveTys : List Ty := [.b32, .b64, .b128]
def floatTys : List Ty := [.f16, .bf16, .f32, .f64]
def shortFloatTys : List Ty := [.f16, .bf16, .f32]
def memTys : List Ty :=
  [.i8, .n8, .e4m3, .e5m2, .i16, .n16, .f16, .bf16, .b32, .i32, .n32, .f32, .b64, .i64, .n64, .f64, .b128]
def matrixTys : List Ty := [.e2m1, .e2m1s, .e4m3, .e5m2, .i8, .f16, .bf16]

/-- Types of `atom` and `red` (Table 10.3). -/
def atomTys : Nat → List Ty
  | 0 => [.i32, .n32, .i64, .n64, .f32, .f64]
  | 1 | 2 => [.i32, .n32, .i64, .n64, .f32]
  | 3 | 4 | 5 => [.b32, .b64]
  | 6 | 7 => [.b32, .b64, .b128]
  | 8 | 9 => [.n32, .n64]
  | 10 => [.f16, .bf16]
  | _ => []

/-- Types of `redux` (Table 13.2). -/
def reduxTys : Nat → List Ty
  | 0 | 1 | 2 => [.i32, .n32, .i64, .n64, .f32]
  | 3 | 4 | 5 => [.b32, .b64]
  | _ => []

/-- Destination types of `fcvt` for a source type (R217). -/
def fcvtTys (s : Option Ty) : List Ty :=
  match s with
  | some .f64 => floatTys ++ [.i8, .n8, .i16, .n16, .i32, .n32, .i64, .n64]
  | some .f16 | some .bf16 | some .f32 =>
    floatTys ++ [.i8, .n8, .i16, .n16, .i32, .n32, .i64, .n64] ++ [.e4m3, .e5m2, .e2m1]
  | some .i8 | some .n8 | some .i16 | some .n16 | some .i32 | some .n32 | some .i64 | some .n64 => floatTys
  | some .e4m3 | some .e5m2 | some .e2m1 => shortFloatTys
  | _ => []

def twoSource (tys : List Ty) : Use :=
  { tys, lit := true, d := .reg, a := .reg, b := .reg, c := .index, xa := true, xb := true }
def oneSource (tys : List Ty) : Use := { tys, d := .reg, a := .reg, c := .index, xa := true }
def shiftUse : Use := { twoSource logicTys with b := .lanes 1 }
def countUse : Use := { oneSource bitTys with d := .lanes 1 }
def predUse : Use := { tys := [.b32], d := .pred, a := .pred, b := .pred }
def laneUse : Use :=
  { tys := bitTys, d := .reg, a := .reg, b := .lanes 1, c := .index, xa := true, xb := true, imm := 0x3F }
def linkUse (tys : List Ty) : Use := { tys, c := .kreg, imm := 0x7F }
def jobUse : Use := { tys := [.b32], guard := true, d := .lanes 1, a := .lanes 1, c := .index, xa := true }
def boUse : Use :=
  { tys := [.b32], a := .lanes 2, b := .lanes 1, c := .index, xa := true, xb := true, imm := 0x3FFFFF }
def memUse (tys : List Ty) : Use := { tys, a := .lanes 2, c := .index, xa := true, imm := 0x3FFFFF }
def bare : Use := { tys := [.b32] }

end Fields

open Fields in
/-- The field use of each extended instruction, given its SUB. A SUB that the entry does not list has no types. -/
def XOp.use (op : XOp) (sub : Nat) : Use :=
  let only (n : Nat) (u : Use) : Use := if sub < n then u else { u with tys := [] }
  match op with
  | .add | .sub | .mul | .mulhi | .minI | .maxI | .div | .rem => twoSource intTys
  | .mad => { twoSource intTys with c := .reg, xa := false, xb := false }
  | .bitAnd | .bitOr | .bitXor => twoSource logicTys
  | .shl | .shr | .sra | .rol => shiftUse
  | .bfe => { twoSource intTys with b := .lanes 1 }
  | .bfi => { tys := bitTys, lit := true, d := .reg, a := .reg, b := .lanes 1, c := .reg }
  | .popc | .clz | .ctz => countUse
  | .brev | .bitNot => oneSource bitTys
  | .absI | .negI => oneSource [.i32, .i64]
  | .lea => { twoSource intTys with d := .lanes 2, a := .lanes 2, imm := 7 }
  | .sel => { twoSource moveTys with guard := true }
  | .mov => oneSource moveTys
  | .ldi => { tys := [.b32, .i32, .n32, .b64, .i64, .n64, .f32, .f64], lit := true, d := .reg, imm := 0x3FFFFF }
  | .cvt =>
    { tys := if 1 ≤ sub ∧ sub ≤ 8 then [.i8, .n8, .i16, .n16, .i32, .n32, .i64, .n64] else []
      d := .reg, a := .src, c := .index, xa := true, imm := 1 }
  | .cmp => only 6 { twoSource logicTys with d := .pred }
  | .pand | .por | .pxor | .pandn => predUse
  | .pnot | .pmov => { predUse with b := .none }
  | .pget => { tys := [.b32], d := .lanes 1 }
  | .pset => { tys := [.b32], a := .lanes 1, c := .index, xa := true, imm := 0xFF }
  | .fadd | .fsub | .fmul | .fmin | .fmax | .fdiv => twoSource floatTys
  | .fma => { twoSource floatTys with c := .reg, xa := false, xb := false }
  | .fabs | .fneg | .fsqrt => oneSource floatTys
  | .fsgn => twoSource floatTys
  | .frnd => only 4 (oneSource floatTys)
  | .frcp | .frsq | .fex2 | .flg2 | .fsinr | .fcosr => oneSource shortFloatTys
  | .fcmp => only 8 { twoSource floatTys with d := .pred }
  | .fcvt =>
    { tys := fcvtTys (Ty.ofCode sub), fs := true, d := .reg, a := .src, c := .index, xa := true, imm := 0xF }
  | .mxq =>
    only 2 { tys := [.e2m1s, .e2m1], fs := true, d := .lanes 4, a := .lanes 1, b := .lanes 1, c := .index, xa := true }
  | .mxdq =>
    only 2 { tys := [.e2m1s, .e2m1], fs := true, d := .lanes 1, a := .lanes 4, b := .lanes 1, c := .index, xa := true }
  | .shfl => only 4 laneUse
  | .perm => only 1 laneUse
  | .vote =>
    if sub < 2 then { tys := [.b32], d := .pred, a := .pred }
    else if sub = 2 then { tys := [.b32], d := .lanes 1, a := .pred }
    else if sub = 3 then { tys := bitTys, d := .pred, a := .reg, c := .index, xa := true }
    else { tys := [] }
  | .redux => { oneSource (reduxTys sub) with c := .index }
  | .cdet | .matchV => countUse
  | .vget => { tys := moveTys, d := .reg, a := .lanes 1, imm := 0x3FF }
  | .vput => { tys := moveTys, a := .lanes 1, b := .reg, imm := 0x3FF }
  | .xclaim => { tys := [.b32], d := .pred, imm := 0x1F }
  | .xgive => { tys := [.b32], imm := 0x1F }
  | .stage => { tys := [.b32], a := .lanes 1, imm := 0x7FF }
  | .kmov => { tys := bitTys, d := .reg, a := .kpair }
  | .kset => { tys := bitTys, d := .kpair, a := .reg, c := .index, xa := true }
  | .sysrd => { tys := bitTys, d := .reg, a := .sreg, imm := 1 }
  | .ld => { memUse memTys with h := true, d := .reg }
  | .st => { memUse memTys with guard := true, h := true, b := .reg, xb := true }
  | .ldfe => only 2 { memUse [.b32] with h := true, d := .lanes 1 }
  | .stfe => { memUse [.b32] with guard := true, h := true, b := .lanes 1, xb := true }
  | .feset => only 2 (memUse [.b32])
  | .pf => { memUse [.b32] with h := true }
  | .prq => { memUse [.b32] with d := .lanes 1 }
  | .atom =>
    { memUse (atomTys sub) with
      lit := true, guard := true, h := true, sc := true, d := .reg, b := .reg
      c := if sub = 7 then .reg else .index, xa := sub != 7, xb := sub != 7 }
  | .red =>
    { memUse (atomTys sub) with
      lit := true, guard := true, h := true, sc := true, b := .reg
      c := if sub = 7 then .reg else .index, xa := sub != 7, xb := sub != 7 }
  | .waddr => only 6 { tys := bitTys, d := .pred, a := .lanes 2, b := .reg, c := .reg, imm := 0x3FFFFF }
  | .fenceSys | .fenceIo | .fenceCode => bare
  | .mma | .mmaQ | .mmas => { linkUse matrixTys with fs := true, a := .lanes 1, b := .lanes 1 }
  | .acalloc => { tys := [.b32], d := .pred, imm := 0x1FF }
  | .acfree => { tys := [.b32], imm := 0x1FF }
  | .acrd => { linkUse [.b32] with d := .lanes 1 }
  | .acwr => { linkUse [.b32] with a := .lanes 1 }
  | .aczero => linkUse [.b32]
  | .acq => { linkUse [.f16, .bf16, .e4m3, .e5m2, .i8] with fs := true, d := .lanes 1 }
  | .cp | .cpg | .coll => jobUse
  | .futTest => { tys := [.b32], d := .pred, a := .lanes 1, c := .index, xa := true }
  | .futCancel => { tys := [.b32], a := .lanes 1, c := .index, xa := true }
  | .futMov => { tys := [.b32], d := .lanes 1, a := .lanes 1, c := .index, xa := true }
  | .futShr => { tys := [.b32], d := .kreg, a := .lanes 1, c := .index, xa := true }
  | .boInit => { boUse with c := .lanes 1, xa := false, xb := false }
  | .boArrive | .boExpect | .boWait => boUse
  | .boTest => { boUse with d := .lanes 1 }
  | .boFree => { boUse with b := .none, xb := false }
  | .ncall => { tys := [.b32], a := .lanes 1, b := .lanes 1 }
  | .nret => bare
  | .impPost => { tys := [.b32], d := .pred, a := .lanes 1 }
  | .impChk => { tys := [.b32], d := .pred, a := .lanes 1, b := .lanes 1, c := .lanes 1 }
  | .impWait => { tys := [.b32], a := .lanes 1, b := .lanes 1, c := .lanes 1 }
  | .impClear => { tys := [.b32], a := .lanes 1, b := .lanes 1 }
  | .br => { tys := [.b32], guard := true, imm := 0x3FFFFF }
  | .brx => { tys := [.b32], guard := true, a := .lanes 2 }
  | .call => { tys := [.b32], guard := true, d := .lanes 2, imm := 0x3FFFFF }
  | .calli => { tys := [.b32], guard := true, d := .lanes 2, a := .lanes 2 }
  | .ret | .rte => { tys := [.b32], a := .lanes 2 }
  | .exit | .tail | .yield | .nop | .halt => bare
  | .barArrive => { tys := [.b32], d := .lanes 1, b := .lanes 1, imm := 0x3FFFFF }
  | .barWait => { tys := [.b32], a := .lanes 1, imm := 0x3FF }
  | .barSync => { tys := [.b32], b := .lanes 1, imm := 0x3FFFFF }
  | .trap | .brk => { tys := [.b32], imm := 0x3FFFFF }
  | .syswr => { tys := [.b64], a := .lanes 2, imm := 0x3FFFFF }
  | .jinit => { tys := [.b32], d := .jset, a := .lanes 1, c := .index, xa := true }
  | .jenter | .jquit | .jwait => { tys := [.b32], a := .jset }
  | .jread => only 2 { tys := [.b32], d := .lanes 1, a := .jset }
  | .jsave => { tys := [.b64], d := .lanes 2, a := .jset }
  | .jrest => { tys := [.b64], d := .jset, a := .lanes 2, c := .index, xa := true }
  | .spawn => { tys := [.b64], d := .pred, a := .lanes 2, b := .lanes 2 }
  | .cancq => { tys := [.b32], d := .pred }
  | .cancqSelf => bare
  | .cancqId => { tys := [.b32], a := .lanes 1 }
  | .launch => { tys := [.b32], d := .pred, a := .lanes 2, b := .lanes 2, imm := 0xF }

/-- The width in bits of a special register, none for a reserved number (Table 7.2). -/
def sregBits (n : Nat) : Option Nat :=
  if n = 17 ∨ n = 18 ∨ n = 21 ∨ n = 22 then some 64 else if n ≤ 23 then some 32 else none

/-- Conditions an entry puts on fields beyond Table 9.4's layout. -/
def XOp.extra (op : XOp) (x : XForm) : Bool :=
  let imm := x.imm.toNat
  match op with
  | .ldi => if x.lit.isSome then imm == 0 else x.ty != .f32 && x.ty != .f64             -- R203
  | .fcvt =>                                                                            -- R217, R218
    let dst := x.ty.isN
    let srcN := ((Ty.ofCode x.sub.toNat).map Ty.isN).getD false
    let slot := Bits.bit imm 3
    let sat := Bits.bit imm 2
    (!sat || dst) && (if slot then (dst != srcN) && !sat && (!dst || imm % 4 == 0) else x.fs == 0)
  | .mxq => !(decide (x.d.toNat ≤ x.b.toNat) && decide (x.b.toNat < x.d.toNat + 4))     -- R220
  | .shfl | .perm => !(Bits.bit imm 5) || (x.b == 0 && !x.xb)                           -- R223
  | .sysrd =>                                                                           -- R235
    decide (sregBits x.a.toNat = some x.ty.bits) && (imm == 0 || x.a.toNat == 19)
  | .mma | .mmaQ | .mmas | .acrd | .acwr | .aczero | .acq =>                            -- R237
    Bits.bit imm 4 || Bits.bit imm 6 || x.c == 0
  | .acalloc | .acfree =>                                                               -- R237
    let first := imm % 16
    let count := imm / 16 % 32
    decide (1 ≤ count) && decide (count ≤ 16) && decide (first + count ≤ 16)
  | .barArrive | .barSync =>                                                            -- R325
    let e := imm / 1024 % 2048
    decide (1 ≤ e) && decide (e ≤ 1024) && (Bits.bit imm 21 || x.b == 0)
  | _ => true

/-- SUB values that an operation of one mnemonic leaves zero, or uses as options (Table 9.6). -/
def XOp.subOk (op : XOp) (sub : Nat) : Bool :=
  match op with
  | .popc | .pand | .pget | .fabs | .pf | .fenceSys | .mma | .futTest | .boInit | .impPost | .barArrive | .cancq
  | .kmov | .div => sub == 0
  | .clz | .por | .pset | .fneg | .prq | .fenceIo | .mmaQ | .futCancel | .boArrive | .impChk | .barWait | .cancqSelf
  | .kset | .rem => sub == 1
  | .ctz | .pxor | .fsgn | .fenceCode | .futMov | .boExpect | .impWait | .barSync | .cancqId => sub == 2
  | .brev | .pandn | .futShr | .boWait | .impClear => sub == 3
  | .absI | .pnot | .boTest => sub == 4
  | .negI | .pmov | .boFree => sub == 5
  | .bitNot => sub == 6
  | .cvt | .cmp | .fcmp | .fcvt | .frnd | .mxq | .mxdq | .shfl | .vote | .redux | .ldfe | .feset | .atom | .red
  | .waddr | .jread => true
  | .mmas => decide (sub < 4)
  | _ => sub == 0

/-- A literal cannot stand for a 128-bit operand (R158), and needs LEN 11 allowed for the operation (Table 9.6). -/
def XOp.litOk (op : XOp) (x : XForm) : Bool :=
  match x.lit with
  | none => true
  | some _ => (op.use x.sub.toNat).lit && x.ty != .b128

/-- Width in registers of the operand a field names. -/
def FieldKind.width (k : FieldKind) (x : XForm) : Nat :=
  match k with
  | .reg => x.ty.regs
  | .src => ((Ty.ofCode x.sub.toNat).map Ty.regs).getD 1
  | .lanes w => w
  | _ => 1

/-- What step 5 of R169 says of one register field: accepted, refused, or refused as a misaligned register. -/
inductive FieldCheck where
  | ok
  | bad
  | misaligned (n : Nat)
  deriving DecidableEq, Repr

/-- Checks field value `v` of kind `k`; `ind` says that the field is indirect, so no direct register is named. -/
def FieldKind.check (k : FieldKind) (x : XForm) (v : Nat) (ind : Bool) : FieldCheck :=
  match k with
  | .none => if v = 0 then .ok else .bad
  | .reg | .src | .lanes _ => if ind ∨ v % k.width x = 0 then .ok else .misaligned v
  | .pred => if v ≤ 7 then .ok else .bad
  | .kreg => if v ≤ 63 then .ok else .bad
  | .kpair => if 63 < v then .bad else if v % x.ty.regs = 0 then .ok else .misaligned v
  | .jset => if v ≤ 15 then .ok else .bad
  | .sreg => if (sregBits v).isSome then .ok else .bad
  | .index => if v = 0 ∨ x.xa ∨ x.xb then .ok else .bad

/-- Which check of R169, if any, refuses an extended form: (step, register number for `%taddr`). Where several fields fail
step 5, a field that is no misaligned register comes first, then D, A, B, C. DESIGN CHOICE (log 81). -/
def XOp.refuse (op : XOp) (x : XForm) : Option (Nat × Nat) :=
  let u := op.use x.sub.toNat
  if !op.litOk x then some (2, 0)
  else if !op.subOk x.sub.toNat || !u.tys.contains x.ty || (!u.h && x.h != 0) || (!u.sc && x.sc != 0)
      || (!u.fs && x.fs != 0) then some (3, 0)
  else if !u.guard && x.g != 7 then some (4, 0)
  else if (x.xa && !u.xa) || (x.xb && !u.xb) || (x.lit.isSome && (x.b != 0 || x.xb))
      || x.imm.toNat &&& u.imm != x.imm.toNat || !op.extra x then some (5, 0)
  else
    match u.d.check x x.d.toNat false, u.a.check x x.a.toNat x.xa, u.b.check x x.b.toNat (x.xb || x.lit.isSome),
      u.c.check x x.c.toNat false with
    | .ok, .ok, .ok, .ok => none
    | .bad, _, _, _ | _, .bad, _, _ | _, _, .bad, _ | _, _, _, .bad => some (5, 0)
    | .misaligned n, _, _, _ | _, .misaligned n, _, _ | _, _, .misaligned n, _ | _, _, _, .misaligned n => some (5, n)

end Sys2Proof
end

