-- ==== Sys2Proof/Decode.lean ====
section
/-! DEFINITION. Decoding and encoding (spec/09). `decode` is total: it answers an instruction and its length in words,
or which check of R169 refuses the words. `encode` is written from the same tables. -/

namespace Sys2Proof

/-- The OP code of each extended operation (Table 9.6). -/
def XOp.opcode : XOp → Nat
  | .add => 0x02 | .sub => 0x04 | .mul => 0x06 | .mulhi => 0x08 | .mad => 0x0A
  | .minI => 0x0C | .maxI => 0x0E | .bitAnd => 0x10 | .bitOr => 0x12 | .bitXor => 0x14
  | .shl => 0x16 | .shr => 0x18 | .sra => 0x1A | .rol => 0x1C | .bfe => 0x1E
  | .bfi => 0x1F | .popc => 0x20 | .clz => 0x20 | .ctz => 0x20 | .brev => 0x20
  | .absI => 0x20 | .negI => 0x20 | .bitNot => 0x20 | .div => 0x21 | .rem => 0x21
  | .lea => 0x22 | .sel => 0x23 | .mov => 0x24 | .ldi => 0x25 | .cvt => 0x26
  | .cmp => 0x28 | .pand => 0x2A | .por => 0x2A | .pxor => 0x2A | .pandn => 0x2A
  | .pnot => 0x2A | .pmov => 0x2A | .pget => 0x2B | .pset => 0x2B | .fadd => 0x30
  | .fsub => 0x31 | .fmul => 0x32 | .fma => 0x33 | .fmin => 0x34 | .fmax => 0x35
  | .fabs => 0x36 | .fneg => 0x36 | .fsgn => 0x36 | .frnd => 0x37 | .frcp => 0x38
  | .frsq => 0x39 | .fsqrt => 0x3A | .fdiv => 0x3B | .fex2 => 0x3C | .flg2 => 0x3D
  | .fsinr => 0x3E | .fcosr => 0x3F | .fcmp => 0x29 | .fcvt => 0x40 | .mxq => 0x41
  | .mxdq => 0x42 | .shfl => 0x50 | .perm => 0x51 | .vote => 0x52 | .redux => 0x53
  | .cdet => 0x54 | .matchV => 0x55 | .vget => 0x56 | .vput => 0x57 | .xclaim => 0x58
  | .xgive => 0x59 | .stage => 0x5A | .kmov => 0x5B | .kset => 0x5B | .sysrd => 0x5C
  | .ld => 0x60 | .st => 0x61 | .ldfe => 0x62 | .stfe => 0x63 | .feset => 0x64
  | .pf => 0x65 | .prq => 0x65 | .atom => 0x66 | .red => 0x67 | .waddr => 0x68
  | .fenceSys => 0x69 | .fenceIo => 0x69 | .fenceCode => 0x69 | .mma => 0x80 | .mmaQ => 0x80
  | .mmas => 0x81 | .acalloc => 0x82 | .acfree => 0x83 | .acrd => 0x84 | .acwr => 0x85
  | .aczero => 0x86 | .acq => 0x87 | .cp => 0x90 | .cpg => 0x91 | .coll => 0x92
  | .futTest => 0x93 | .futCancel => 0x93 | .futMov => 0x93 | .futShr => 0x93 | .boInit => 0x94
  | .boArrive => 0x94 | .boExpect => 0x94 | .boWait => 0x94 | .boTest => 0x94 | .boFree => 0x94
  | .ncall => 0x95 | .nret => 0x96 | .impPost => 0x97 | .impChk => 0x97 | .impWait => 0x97
  | .impClear => 0x97 | .br => 0xA0 | .brx => 0xA1 | .call => 0xA2 | .calli => 0xA3
  | .ret => 0xA4 | .exit => 0xA5 | .tail => 0xA6 | .yield => 0xA7 | .nop => 0xAF
  | .barArrive => 0xB0 | .barWait => 0xB0 | .barSync => 0xB0 | .trap => 0xB8 | .rte => 0xB9
  | .syswr => 0xBA | .brk => 0xBB | .halt => 0xBC | .jinit => 0xA8 | .jenter => 0xA9
  | .jquit => 0xAA | .jwait => 0xAB | .jread => 0xAC | .jsave => 0xAD | .jrest => 0xAE
  | .spawn => 0xB1 | .cancq => 0xB2 | .cancqSelf => 0xB2 | .cancqId => 0xB2 | .launch => 0xB3

/-- The operation an extended word names: OP, and SUB where one OP carries several mnemonics (Table 9.6, R168). -/
def XOp.ofOp (op sub : Nat) : Option XOp :=
  match op, sub with
  | 0x02, _ => some .add
  | 0x04, _ => some .sub
  | 0x06, _ => some .mul
  | 0x08, _ => some .mulhi
  | 0x0A, _ => some .mad
  | 0x0C, _ => some .minI
  | 0x0E, _ => some .maxI
  | 0x10, _ => some .bitAnd
  | 0x12, _ => some .bitOr
  | 0x14, _ => some .bitXor
  | 0x16, _ => some .shl
  | 0x18, _ => some .shr
  | 0x1A, _ => some .sra
  | 0x1C, _ => some .rol
  | 0x1E, _ => some .bfe
  | 0x1F, _ => some .bfi
  | 0x20, 0 => some .popc | 0x20, 1 => some .clz | 0x20, 2 => some .ctz
  | 0x20, 3 => some .brev | 0x20, 4 => some .absI | 0x20, 5 => some .negI
  | 0x20, 6 => some .bitNot
  | 0x21, 0 => some .div | 0x21, 1 => some .rem
  | 0x22, _ => some .lea
  | 0x23, _ => some .sel
  | 0x24, _ => some .mov
  | 0x25, _ => some .ldi
  | 0x26, _ => some .cvt
  | 0x28, _ => some .cmp
  | 0x29, _ => some .fcmp
  | 0x2A, 0 => some .pand | 0x2A, 1 => some .por | 0x2A, 2 => some .pxor
  | 0x2A, 3 => some .pandn | 0x2A, 4 => some .pnot | 0x2A, 5 => some .pmov
  | 0x2B, 0 => some .pget | 0x2B, 1 => some .pset
  | 0x30, _ => some .fadd
  | 0x31, _ => some .fsub
  | 0x32, _ => some .fmul
  | 0x33, _ => some .fma
  | 0x34, _ => some .fmin
  | 0x35, _ => some .fmax
  | 0x36, 0 => some .fabs | 0x36, 1 => some .fneg | 0x36, 2 => some .fsgn
  | 0x37, _ => some .frnd
  | 0x38, _ => some .frcp
  | 0x39, _ => some .frsq
  | 0x3A, _ => some .fsqrt
  | 0x3B, _ => some .fdiv
  | 0x3C, _ => some .fex2
  | 0x3D, _ => some .flg2
  | 0x3E, _ => some .fsinr
  | 0x3F, _ => some .fcosr
  | 0x40, _ => some .fcvt
  | 0x41, _ => some .mxq
  | 0x42, _ => some .mxdq
  | 0x50, _ => some .shfl
  | 0x51, _ => some .perm
  | 0x52, _ => some .vote
  | 0x53, _ => some .redux
  | 0x54, _ => some .cdet
  | 0x55, _ => some .matchV
  | 0x56, _ => some .vget
  | 0x57, _ => some .vput
  | 0x58, _ => some .xclaim
  | 0x59, _ => some .xgive
  | 0x5A, _ => some .stage
  | 0x5B, 0 => some .kmov | 0x5B, 1 => some .kset
  | 0x5C, _ => some .sysrd
  | 0x60, _ => some .ld
  | 0x61, _ => some .st
  | 0x62, _ => some .ldfe
  | 0x63, _ => some .stfe
  | 0x64, _ => some .feset
  | 0x65, 0 => some .pf | 0x65, 1 => some .prq
  | 0x66, _ => some .atom
  | 0x67, _ => some .red
  | 0x68, _ => some .waddr
  | 0x69, 0 => some .fenceSys | 0x69, 1 => some .fenceIo | 0x69, 2 => some .fenceCode
  | 0x80, 0 => some .mma | 0x80, 1 => some .mmaQ
  | 0x81, _ => some .mmas
  | 0x82, _ => some .acalloc
  | 0x83, _ => some .acfree
  | 0x84, _ => some .acrd
  | 0x85, _ => some .acwr
  | 0x86, _ => some .aczero
  | 0x87, _ => some .acq
  | 0x90, _ => some .cp
  | 0x91, _ => some .cpg
  | 0x92, _ => some .coll
  | 0x93, 0 => some .futTest | 0x93, 1 => some .futCancel | 0x93, 2 => some .futMov
  | 0x93, 3 => some .futShr
  | 0x94, 0 => some .boInit | 0x94, 1 => some .boArrive | 0x94, 2 => some .boExpect
  | 0x94, 3 => some .boWait | 0x94, 4 => some .boTest | 0x94, 5 => some .boFree
  | 0x95, _ => some .ncall
  | 0x96, _ => some .nret
  | 0x97, 0 => some .impPost | 0x97, 1 => some .impChk | 0x97, 2 => some .impWait
  | 0x97, 3 => some .impClear
  | 0xA0, _ => some .br
  | 0xA1, _ => some .brx
  | 0xA2, _ => some .call
  | 0xA3, _ => some .calli
  | 0xA4, _ => some .ret
  | 0xA5, _ => some .exit
  | 0xA6, _ => some .tail
  | 0xA7, _ => some .yield
  | 0xA8, _ => some .jinit
  | 0xA9, _ => some .jenter
  | 0xAA, _ => some .jquit
  | 0xAB, _ => some .jwait
  | 0xAC, _ => some .jread
  | 0xAD, _ => some .jsave
  | 0xAE, _ => some .jrest
  | 0xAF, _ => some .nop
  | 0xB0, 0 => some .barArrive | 0xB0, 1 => some .barWait | 0xB0, 2 => some .barSync
  | 0xB1, _ => some .spawn
  | 0xB2, 0 => some .cancq | 0xB2, 1 => some .cancqSelf | 0xB2, 2 => some .cancqId
  | 0xB3, _ => some .launch
  | 0xB8, _ => some .trap
  | 0xB9, _ => some .rte
  | 0xBA, _ => some .syswr
  | 0xBB, _ => some .brk
  | 0xBC, _ => some .halt
  | _, _ => none

/-- The instruction of an extended operation. -/
def Instr.ofX (op : XOp) (x : XForm) : Instr :=
  match op with
  | .add => .add x | .sub => .sub x | .mul => .mul x | .mulhi => .mulhi x
  | .mad => .mad x | .minI => .minI x | .maxI => .maxI x | .bitAnd => .bitAnd x
  | .bitOr => .bitOr x | .bitXor => .bitXor x | .shl => .shl x | .shr => .shr x
  | .sra => .sra x | .rol => .rol x | .bfe => .bfe x | .bfi => .bfi x
  | .popc => .popc x | .clz => .clz x | .ctz => .ctz x | .brev => .brev x
  | .absI => .absI x | .negI => .negI x | .bitNot => .bitNot x | .div => .div x
  | .rem => .rem x | .lea => .lea x | .sel => .sel x | .mov => .mov x
  | .ldi => .ldi x | .cvt => .cvt x | .cmp => .cmp x | .pand => .pand x
  | .por => .por x | .pxor => .pxor x | .pandn => .pandn x | .pnot => .pnot x
  | .pmov => .pmov x | .pget => .pget x | .pset => .pset x | .fadd => .fadd x
  | .fsub => .fsub x | .fmul => .fmul x | .fma => .fma x | .fmin => .fmin x
  | .fmax => .fmax x | .fabs => .fabs x | .fneg => .fneg x | .fsgn => .fsgn x
  | .frnd => .frnd x | .frcp => .frcp x | .frsq => .frsq x | .fsqrt => .fsqrt x
  | .fdiv => .fdiv x | .fex2 => .fex2 x | .flg2 => .flg2 x | .fsinr => .fsinr x
  | .fcosr => .fcosr x | .fcmp => .fcmp x | .fcvt => .fcvt x | .mxq => .mxq x
  | .mxdq => .mxdq x | .shfl => .shfl x | .perm => .perm x | .vote => .vote x
  | .redux => .redux x | .cdet => .cdet x | .matchV => .matchV x | .vget => .vget x
  | .vput => .vput x | .xclaim => .xclaim x | .xgive => .xgive x | .stage => .stage x
  | .kmov => .kmov x | .kset => .kset x | .sysrd => .sysrd x | .ld => .ld x
  | .st => .st x | .ldfe => .ldfe x | .stfe => .stfe x | .feset => .feset x
  | .pf => .pf x | .prq => .prq x | .atom => .atom x | .red => .red x
  | .waddr => .waddr x | .fenceSys => .fenceSys x | .fenceIo => .fenceIo x | .fenceCode => .fenceCode x
  | .mma => .mma x | .mmaQ => .mmaQ x | .mmas => .mmas x | .acalloc => .acalloc x
  | .acfree => .acfree x | .acrd => .acrd x | .acwr => .acwr x | .aczero => .aczero x
  | .acq => .acq x | .cp => .cp x | .cpg => .cpg x | .coll => .coll x
  | .futTest => .futTest x | .futCancel => .futCancel x | .futMov => .futMov x | .futShr => .futShr x
  | .boInit => .boInit x | .boArrive => .boArrive x | .boExpect => .boExpect x | .boWait => .boWait x
  | .boTest => .boTest x | .boFree => .boFree x | .ncall => .ncall x | .nret => .nret x
  | .impPost => .impPost x | .impChk => .impChk x | .impWait => .impWait x | .impClear => .impClear x
  | .br => .br x | .brx => .brx x | .call => .call x | .calli => .calli x
  | .ret => .ret x | .exit => .exit x | .tail => .tail x | .yield => .yield x
  | .nop => .nop x | .barArrive => .barArrive x | .barWait => .barWait x | .barSync => .barSync x
  | .trap => .trap x | .rte => .rte x | .syswr => .syswr x | .brk => .brk x
  | .halt => .halt x | .jinit => .jinit x | .jenter => .jenter x | .jquit => .jquit x
  | .jwait => .jwait x | .jread => .jread x | .jsave => .jsave x | .jrest => .jrest x
  | .spawn => .spawn x | .cancq => .cancq x | .cancqSelf => .cancqSelf x | .cancqId => .cancqId x
  | .launch => .launch x

/-- The extended operation and fields of an instruction, if it is an extended form. -/
def Instr.toX : Instr → Option (XOp × XForm)
  | .add x => some (.add, x) | .sub x => some (.sub, x) | .mul x => some (.mul, x)
  | .mulhi x => some (.mulhi, x) | .mad x => some (.mad, x) | .minI x => some (.minI, x)
  | .maxI x => some (.maxI, x) | .bitAnd x => some (.bitAnd, x) | .bitOr x => some (.bitOr, x)
  | .bitXor x => some (.bitXor, x) | .shl x => some (.shl, x) | .shr x => some (.shr, x)
  | .sra x => some (.sra, x) | .rol x => some (.rol, x) | .bfe x => some (.bfe, x)
  | .bfi x => some (.bfi, x) | .popc x => some (.popc, x) | .clz x => some (.clz, x)
  | .ctz x => some (.ctz, x) | .brev x => some (.brev, x) | .absI x => some (.absI, x)
  | .negI x => some (.negI, x) | .bitNot x => some (.bitNot, x) | .div x => some (.div, x)
  | .rem x => some (.rem, x) | .lea x => some (.lea, x) | .sel x => some (.sel, x)
  | .mov x => some (.mov, x) | .ldi x => some (.ldi, x) | .cvt x => some (.cvt, x)
  | .cmp x => some (.cmp, x) | .pand x => some (.pand, x) | .por x => some (.por, x)
  | .pxor x => some (.pxor, x) | .pandn x => some (.pandn, x) | .pnot x => some (.pnot, x)
  | .pmov x => some (.pmov, x) | .pget x => some (.pget, x) | .pset x => some (.pset, x)
  | .fadd x => some (.fadd, x) | .fsub x => some (.fsub, x) | .fmul x => some (.fmul, x)
  | .fma x => some (.fma, x) | .fmin x => some (.fmin, x) | .fmax x => some (.fmax, x)
  | .fabs x => some (.fabs, x) | .fneg x => some (.fneg, x) | .fsgn x => some (.fsgn, x)
  | .frnd x => some (.frnd, x) | .frcp x => some (.frcp, x) | .frsq x => some (.frsq, x)
  | .fsqrt x => some (.fsqrt, x) | .fdiv x => some (.fdiv, x) | .fex2 x => some (.fex2, x)
  | .flg2 x => some (.flg2, x) | .fsinr x => some (.fsinr, x) | .fcosr x => some (.fcosr, x)
  | .fcmp x => some (.fcmp, x) | .fcvt x => some (.fcvt, x) | .mxq x => some (.mxq, x)
  | .mxdq x => some (.mxdq, x) | .shfl x => some (.shfl, x) | .perm x => some (.perm, x)
  | .vote x => some (.vote, x) | .redux x => some (.redux, x) | .cdet x => some (.cdet, x)
  | .matchV x => some (.matchV, x) | .vget x => some (.vget, x) | .vput x => some (.vput, x)
  | .xclaim x => some (.xclaim, x) | .xgive x => some (.xgive, x) | .stage x => some (.stage, x)
  | .kmov x => some (.kmov, x) | .kset x => some (.kset, x) | .sysrd x => some (.sysrd, x)
  | .ld x => some (.ld, x) | .st x => some (.st, x) | .ldfe x => some (.ldfe, x)
  | .stfe x => some (.stfe, x) | .feset x => some (.feset, x) | .pf x => some (.pf, x)
  | .prq x => some (.prq, x) | .atom x => some (.atom, x) | .red x => some (.red, x)
  | .waddr x => some (.waddr, x) | .fenceSys x => some (.fenceSys, x) | .fenceIo x => some (.fenceIo, x)
  | .fenceCode x => some (.fenceCode, x) | .mma x => some (.mma, x) | .mmaQ x => some (.mmaQ, x)
  | .mmas x => some (.mmas, x) | .acalloc x => some (.acalloc, x) | .acfree x => some (.acfree, x)
  | .acrd x => some (.acrd, x) | .acwr x => some (.acwr, x) | .aczero x => some (.aczero, x)
  | .acq x => some (.acq, x) | .cp x => some (.cp, x) | .cpg x => some (.cpg, x)
  | .coll x => some (.coll, x) | .futTest x => some (.futTest, x) | .futCancel x => some (.futCancel, x)
  | .futMov x => some (.futMov, x) | .futShr x => some (.futShr, x) | .boInit x => some (.boInit, x)
  | .boArrive x => some (.boArrive, x) | .boExpect x => some (.boExpect, x) | .boWait x => some (.boWait, x)
  | .boTest x => some (.boTest, x) | .boFree x => some (.boFree, x) | .ncall x => some (.ncall, x)
  | .nret x => some (.nret, x) | .impPost x => some (.impPost, x) | .impChk x => some (.impChk, x)
  | .impWait x => some (.impWait, x) | .impClear x => some (.impClear, x) | .br x => some (.br, x)
  | .brx x => some (.brx, x) | .call x => some (.call, x) | .calli x => some (.calli, x)
  | .ret x => some (.ret, x) | .exit x => some (.exit, x) | .tail x => some (.tail, x)
  | .yield x => some (.yield, x) | .nop x => some (.nop, x) | .barArrive x => some (.barArrive, x)
  | .barWait x => some (.barWait, x) | .barSync x => some (.barSync, x) | .trap x => some (.trap, x)
  | .rte x => some (.rte, x) | .syswr x => some (.syswr, x) | .brk x => some (.brk, x)
  | .halt x => some (.halt, x) | .jinit x => some (.jinit, x) | .jenter x => some (.jenter, x)
  | .jquit x => some (.jquit, x) | .jwait x => some (.jwait, x) | .jread x => some (.jread, x)
  | .jsave x => some (.jsave, x) | .jrest x => some (.jrest, x) | .spawn x => some (.spawn, x)
  | .cancq x => some (.cancq, x) | .cancqSelf x => some (.cancqSelf, x) | .cancqId x => some (.cancqId, x)
  | .launch x => some (.launch, x)
  | _ => none

/-- An OP that Table 9.6 does not list (R168). The odd integer OPs exist only as BI. -/
def opReserved (op : Nat) : Bool :=
  !((decide (0x02 ≤ op) && decide (op ≤ 0x26)) || (decide (0x28 ≤ op) && decide (op ≤ 0x2B))
    || (decide (0x30 ≤ op) && decide (op ≤ 0x42)) || (decide (0x50 ≤ op) && decide (op ≤ 0x5C))
    || (decide (0x60 ≤ op) && decide (op ≤ 0x69)) || (decide (0x80 ≤ op) && decide (op ≤ 0x87))
    || (decide (0x90 ≤ op) && decide (op ≤ 0x97)) || (decide (0xA0 ≤ op) && decide (op ≤ 0xB3))
    || (decide (0xB8 ≤ op) && decide (op ≤ 0xBC)))

/-- The even OPs 0x02 to 0x1C (Table 9.3). -/
def evenInt (op : Nat) : Bool := decide (op % 2 = 0) && decide (0x02 ≤ op) && decide (op ≤ 0x1C)

/-- The odd OPs 0x03 to 0x1D (Table 9.3). -/
def oddInt (op : Nat) : Bool := decide (op % 2 = 1) && decide (0x03 ≤ op) && decide (op ≤ 0x1D)

/-- The lengths that Table 9.6 admits for an OP that is not reserved (check 2 of R169). -/
def lenAllowed (op sub len : Nat) : Bool :=
  if oddInt op then len == 0
  else if evenInt op || op == 0x25 || (decide (0x30 ≤ op) && decide (op ≤ 0x35)) then decide (len < 4)
  else if op == 0x24 || op == 0x60 || op == 0x61 || op == 0xA0 || op == 0xA2 || op == 0xA4 || op == 0xA5
      || op == 0xAB || op == 0xAF || op == 0xB8 then decide (len < 2)
  else if op == 0x1E || op == 0x1F || op == 0x21 || op == 0x22 || op == 0x23 || op == 0x28 || op == 0x29
      || op == 0x3B || op == 0x66 || op == 0x67 || (op == 0x36 && sub == 2) then len == 1 || len == 3
  else len == 1

/-- The number of words of an instruction of the LEN field (Table 9.1). -/
def lenWords (len : Nat) : Nat := if len = 0 then 1 else if len = 3 then 5 else 3

/-- Why words are not an instruction: the failing check of R169 and what it puts into `%taddr`. -/
structure DecodeError where
  step : Nat
  taddr : Nat
  deriving DecidableEq, Repr

/-- OP of word 0 (R157). -/
def wordOp (w0 : Nat) : Nat := Bits.field w0 22 8
/-- LEN of word 0 (R157). -/
def wordLen (w0 : Nat) : Nat := Bits.field w0 30 2
/-- SUB of word 0 (Table 9.4). -/
def wordSub (w0 : Nat) : Nat := Bits.field w0 16 6

/-- The literal in two words, the first the low one (R158). -/
def literalOf (lo hi : Nat) : DWord := BitVec.ofNat 64 (lo % 2 ^ 32 + 2 ^ 32 * hi)

/-- The fields of the extended form (Table 9.4); none when TY is a reserved code. -/
def fieldsX (w0 w1 w2 : Nat) (lit : Option DWord) : Option XForm :=
  match Ty.ofCode (Bits.field w0 11 5) with
  | none => none
  | some ty =>
    some
      { sub := BitVec.ofNat 6 (Bits.field w0 16 6)
        ty
        g := BitVec.ofNat 4 (Bits.field w0 7 4)
        h := BitVec.ofNat 2 (Bits.field w0 5 2)
        fs := BitVec.ofNat 3 (Bits.field w0 2 3)
        sc := BitVec.ofNat 2 (Bits.field w0 0 2)
        d := BitVec.ofNat 10 (Bits.field w1 22 10)
        a := BitVec.ofNat 10 (Bits.field w1 12 10)
        b := BitVec.ofNat 10 (Bits.field w1 2 10)
        xa := Bits.bit w1 1
        xb := Bits.bit w1 0
        c := BitVec.ofNat 10 (Bits.field w2 22 10)
        imm := BitVec.ofNat 22 (Bits.field w2 0 22)
        lit }

/-- Field D of B3 and BI. -/
def baseD (w0 : Nat) : BitVec 6 := BitVec.ofNat 6 (Bits.field w0 16 6)
/-- Field A of B3 and BI. -/
def baseA (w0 : Nat) : BitVec 6 := BitVec.ofNat 6 (Bits.field w0 10 6)
/-- Field B of B3. -/
def baseB (w0 : Nat) : BitVec 6 := BitVec.ofNat 6 (Bits.field w0 4 6)
/-- Field M of B3. -/
def baseM (w0 : Nat) : Nat := Bits.field w0 0 4
/-- Field IMM10 of BI, OFF10 of BM. -/
def baseImm (w0 : Nat) : BitVec 10 := BitVec.ofNat 10 (Bits.field w0 0 10)

/-- The base instruction of an even integer OP, by its position in Table 9.6. -/
def intB3 (k : Nat) (f : B3) : Option Instr :=
  match k with
  | 0 => some (.addBase f) | 1 => some (.subBase f) | 2 => some (.mulBase f) | 3 => some (.mulhiBase f)
  | 4 => some (.madBase f) | 5 => some (.minIBase f) | 6 => some (.maxIBase f) | 7 => some (.bitAndBase f)
  | 8 => some (.bitOrBase f) | 9 => some (.bitXorBase f) | 10 => some (.shlBase f) | 11 => some (.shrBase f)
  | 12 => some (.sraBase f) | 13 => some (.rolBase f) | _ => none

/-- The base instruction of an odd integer OP, by its position in Table 9.6. -/
def intBI (k : Nat) (f : BI) : Option Instr :=
  match k with
  | 0 => some (.addImmBase f) | 1 => some (.subImmBase f) | 2 => some (.mulImmBase f) | 3 => some (.mulhiImmBase f)
  | 4 => some (.madImmBase f) | 5 => some (.minIImmBase f) | 6 => some (.maxIImmBase f)
  | 7 => some (.bitAndImmBase f) | 8 => some (.bitOrImmBase f) | 9 => some (.bitXorImmBase f)
  | 10 => some (.shlImmBase f) | 11 => some (.shrImmBase f) | 12 => some (.sraImmBase f)
  | 13 => some (.rolImmBase f) | _ => none

/-- The base instruction of OP 0x30 to 0x35. -/
def floatB3 (k : Nat) (f : B3) : Option Instr :=
  match k with
  | 0 => some (.faddBase f) | 1 => some (.fsubBase f) | 2 => some (.fmulBase f) | 3 => some (.fmaBase f)
  | 4 => some (.fminBase f) | 5 => some (.fmaxBase f) | _ => none

/-- Types by M bit 0 exist for `mulhi`, `min` and `max` (Table 9.3). -/
def typedB3 (k : Nat) : Bool := k == 3 || k == 5 || k == 6

/-- A base-form word 0, under the field limits of Table 9.3; none is ILLEGAL_ENCODING at step 5. -/
def decodeBase (w0 : Nat) (lit : Option DWord) : Option Instr :=
  let op := wordOp w0
  let d := baseD w0
  let a := baseA w0
  let b := baseB w0
  let m := baseM w0
  let imm := baseImm w0
  let litB : Bool := lit.isNone || b == 0
  if evenInt op then
    let k := (op - 2) / 2
    if litB && (m == 0 || (m == 1 && typedB3 k)) then intB3 k { d, a, b, u := m == 1, lit } else none
  else if oddInt op then intBI ((op - 3) / 2) { d, a, imm }
  else if op = 0x24 then if b = 0 ∧ m = 0 then some (.movBase d a) else none
  else if op = 0x25 then
    if a = 0 ∧ (lit.isNone ∨ imm = 0) then some (.ldiBase d imm lit) else none
  else if 0x30 ≤ op ∧ op ≤ 0x35 then
    if litB && m == 0 then floatB3 (op - 0x30) { d, a, b, u := false, lit } else none
  else if op = 0x60 ∨ op = 0x61 then
    if a.toNat % 2 = 0 then
      let f : BM := { d, pair := BitVec.ofNat 5 (a.toNat / 2), off := imm }
      some (if op = 0x60 then .ldBase f else .stBase f)
    else none
  else if op = 0xA0 ∨ op = 0xA2 then
    let f : BJ := { g := BitVec.ofNat 4 (Bits.field w0 18 4), off := BitVec.ofNat 18 (Bits.field w0 0 18) }
    some (if op = 0xA0 then .brBase f else .callBase f)
  else if op = 0xA4 then if Bits.field w0 0 22 = 0 then some .retBase else none
  else if op = 0xA5 then if Bits.field w0 0 22 = 0 then some .exitBase else none
  else if op = 0xAB then
    if d = 0 ∧ b = 0 ∧ m = 0 ∧ a.toNat ≤ 15 then some (.jwaitBase (BitVec.ofNat 4 a.toNat)) else none
  else if op = 0xAF then if Bits.field w0 0 22 = 0 then some .nopBase else none
  else if op = 0xB8 then if d = 0 ∧ a = 0 then some (.trapBase imm) else none
  else none

/-- The alignment refusal of a base address register: its number goes to `%taddr` (R124, R169). -/
def baseTaddr (w0 : Nat) : Nat :=
  if wordOp w0 = 0x60 ∨ wordOp w0 = 0x61 then (baseA w0).toNat else 0

/-- Decodes the words at an instruction's address, checks 1 to 5 of R169 that need no context. Words that are absent read
as zero. -/
def decode (ws : List Nat) : Except DecodeError (Instr × Nat) :=
  let w0 := ws.getD 0 0
  let w1 := ws.getD 1 0
  let w2 := ws.getD 2 0
  let op := wordOp w0
  let len := wordLen w0
  if opReserved op then .error { step := 1, taddr := 0 }
  else if !lenAllowed op (wordSub w0) len then .error { step := 2, taddr := 0 }
  else if len = 0 ∨ len = 2 then
    match decodeBase w0 (if len = 2 then some (literalOf w1 w2) else none) with
    | some i => .ok (i, lenWords len)
    | none => .error { step := 5, taddr := baseTaddr w0 }
  else
    match XOp.ofOp op (wordSub w0),
      fieldsX w0 w1 w2 (if len = 3 then some (literalOf (ws.getD 3 0) (ws.getD 4 0)) else none) with
    | some o, some x =>
      match o.refuse x with
      | none => .ok (Instr.ofX o x, lenWords len)
      | some (step, taddr) => .error { step, taddr }
    | _, _ => .error { step := 3, taddr := 0 }

/-! ### Lengths and extended equivalents (R157, R161) -/

/-- Words of an extended form (Table 9.1). -/
def XForm.words (x : XForm) : Nat := if x.lit.isSome then 5 else 3
/-- Words of a base form of layout B3 (Table 9.1). -/
def B3.words (f : B3) : Nat := if f.lit.isSome then 3 else 1

/-- The extended form with every field zero but those a base form names, G 0b0111 (R161). -/
def XForm.blank (ty : Ty) : XForm :=
  { sub := 0, ty, g := 7, h := 0, fs := 0, sc := 0, d := 0, a := 0, b := 0, xa := false, xb := false, c := 0, imm := 0
    lit := none }

/-- The extended equivalent of layout B3 (Table 9.3); `cd`: C = D. -/
def B3.toX (f : B3) (ty : Ty) (cd : Bool) : XForm :=
  { XForm.blank ty with
    d := f.d.setWidth 10, a := f.a.setWidth 10, b := f.b.setWidth 10, lit := f.lit
    c := if cd then f.d.setWidth 10 else 0 }

/-- The type of an integer B3 form: i32, or n32 when M is 1 (Table 9.3). -/
def B3.intTy (f : B3) : Ty := if f.u then .n32 else .i32

/-- The extended equivalent of layout BI: operand B is sext(IMM10, 32) (Table 9.3). -/
def BI.toX (f : BI) (cd : Bool) : XForm :=
  { XForm.blank .i32 with
    d := f.d.setWidth 10, a := f.a.setWidth 10, lit := some (f.imm.signExtend 64)
    c := if cd then f.d.setWidth 10 else 0 }

/-- The words of bytes as the part stores them, little-endian (R3). -/
def wordsOfBytes : List Byte → List Nat
  | a :: b :: c :: d :: rest => Bits.joinLE 8 [a.toNat, b.toNat, c.toNat, d.toNat] :: wordsOfBytes rest
  | _ => []

/-- The bytes of words. -/
def bytesOfWords (ws : List Nat) : List Byte := ws.flatMap fun w => (Bits.splitLE 8 4 w).map (BitVec.ofNat 8)

/-- Decodes bytes at an instruction's address. -/
def decodeBytes (bs : List Byte) : Except DecodeError (Instr × Nat) := decode (wordsOfBytes bs)

/-- The two words of a literal. -/
def litWords (l : DWord) : List Nat := [l.toNat % 2 ^ 32, l.toNat / 2 ^ 32]

/-- Words of the extended form (Table 9.4). -/
def encodeX (o : XOp) (x : XForm) : List Nat :=
  let len := if x.lit.isSome then 3 else 1
  let w0 := len * 2 ^ 30 + o.opcode * 2 ^ 22 + x.sub.toNat * 2 ^ 16 + x.ty.code * 2 ^ 11 + x.g.toNat * 2 ^ 7
    + x.h.toNat * 2 ^ 5 + x.fs.toNat * 2 ^ 2 + x.sc.toNat
  let w1 := x.d.toNat * 2 ^ 22 + x.a.toNat * 2 ^ 12 + x.b.toNat * 2 ^ 2 + x.xa.toNat * 2 + x.xb.toNat
  let w2 := x.c.toNat * 2 ^ 22 + x.imm.toNat
  [w0, w1, w2] ++ (x.lit.map litWords).getD []

/-- Word 0 of a base form with its 22 low bits, and its literal (Tables 9.1, 9.2). -/
def encodeBase (op low : Nat) (lit : Option DWord) : List Nat :=
  ((if lit.isSome then 2 else 0) * 2 ^ 30 + op * 2 ^ 22 + low) :: (lit.map litWords).getD []

/-- Layout B3 (Table 9.2). -/
def packB3 (d a b : BitVec 6) (m : Nat) : Nat := d.toNat * 2 ^ 16 + a.toNat * 2 ^ 10 + b.toNat * 2 ^ 4 + m
/-- Layouts BI and BM (Table 9.2). -/
def packBI (d a : BitVec 6) (imm : BitVec 10) : Nat := d.toNat * 2 ^ 16 + a.toNat * 2 ^ 10 + imm.toNat
/-- Layout BJ (Table 9.2). -/
def packBJ (f : BJ) : Nat := f.g.toNat * 2 ^ 18 + f.off.toNat

def encodeB3 (op : Nat) (f : B3) : List Nat := encodeBase op (packB3 f.d f.a f.b f.u.toNat) f.lit
def encodeBI (op : Nat) (f : BI) : List Nat := encodeBase op (packBI f.d f.a f.imm) none
def encodeBM (op : Nat) (f : BM) : List Nat :=
  encodeBase op (packBI f.d (BitVec.ofNat 6 (2 * f.pair.toNat)) f.off) none
def encodeBJ (op : Nat) (f : BJ) : List Nat := encodeBase op (packBJ f) none

/-- The words of a base-form instruction (Tables 9.2 and 9.3); none for any other instruction. -/
def encodeBaseForm : Instr → Option (List Nat)
  | .addBase f => some (encodeB3 0x02 f) | .addImmBase f => some (encodeBI 0x03 f)
  | .subBase f => some (encodeB3 0x04 f) | .subImmBase f => some (encodeBI 0x05 f)
  | .mulBase f => some (encodeB3 0x06 f) | .mulImmBase f => some (encodeBI 0x07 f)
  | .mulhiBase f => some (encodeB3 0x08 f) | .mulhiImmBase f => some (encodeBI 0x09 f)
  | .madBase f => some (encodeB3 0x0A f) | .madImmBase f => some (encodeBI 0x0B f)
  | .minIBase f => some (encodeB3 0x0C f) | .minIImmBase f => some (encodeBI 0x0D f)
  | .maxIBase f => some (encodeB3 0x0E f) | .maxIImmBase f => some (encodeBI 0x0F f)
  | .bitAndBase f => some (encodeB3 0x10 f) | .bitAndImmBase f => some (encodeBI 0x11 f)
  | .bitOrBase f => some (encodeB3 0x12 f) | .bitOrImmBase f => some (encodeBI 0x13 f)
  | .bitXorBase f => some (encodeB3 0x14 f) | .bitXorImmBase f => some (encodeBI 0x15 f)
  | .shlBase f => some (encodeB3 0x16 f) | .shlImmBase f => some (encodeBI 0x17 f)
  | .shrBase f => some (encodeB3 0x18 f) | .shrImmBase f => some (encodeBI 0x19 f)
  | .sraBase f => some (encodeB3 0x1A f) | .sraImmBase f => some (encodeBI 0x1B f)
  | .rolBase f => some (encodeB3 0x1C f) | .rolImmBase f => some (encodeBI 0x1D f)
  | .movBase d a => some (encodeBase 0x24 (packB3 d a 0 0) none)
  | .ldiBase d imm lit => some (encodeBase 0x25 (packBI d 0 imm) lit)
  | .faddBase f => some (encodeB3 0x30 f) | .fsubBase f => some (encodeB3 0x31 f)
  | .fmulBase f => some (encodeB3 0x32 f) | .fmaBase f => some (encodeB3 0x33 f)
  | .fminBase f => some (encodeB3 0x34 f) | .fmaxBase f => some (encodeB3 0x35 f)
  | .ldBase f => some (encodeBM 0x60 f) | .stBase f => some (encodeBM 0x61 f)
  | .brBase f => some (encodeBJ 0xA0 f) | .callBase f => some (encodeBJ 0xA2 f)
  | .retBase => some (encodeBase 0xA4 0 none) | .exitBase => some (encodeBase 0xA5 0 none)
  | .jwaitBase set => some (encodeBase 0xAB (packB3 0 (set.setWidth 6) 0 0) none)
  | .nopBase => some (encodeBase 0xAF 0 none)
  | .trapBase code => some (encodeBase 0xB8 (packBI 0 0 code) none)
  | _ => none

/-- The words of an instruction; an agent's step has none. -/
def encode (i : Instr) : List Nat :=
  match i.toX with
  | some (o, x) => encodeX o x
  | none => (encodeBaseForm i).getD []

/-- The words of an instruction whose bits are `w`, numbered from the least significant bit of the first word. Bits above
`nbits` are zero. The longest instruction has five words. -/
def tableWords (nbits w : Nat) : List Nat := Bits.splitLE 32 5 (w % 2 ^ nbits)

/-- What the decoder reads from an instruction whose bits are `w`, through the bytes as the part stores them. -/
def decodeTableWord (nbits w : Nat) : Option Instr :=
  match decodeBytes (bytesOfWords (tableWords nbits w)) with
  | .ok (i, _) => some i
  | .error _ => none

end Sys2Proof
end

