-- ==== Sys2Proof/Config.lean ====
section
/-! DEFINITION. What the part fixes (spec/01, Table 1.1) and what the spec leaves open. The constants with no body are
free values: nothing constrains them. -/

namespace Sys2Proof.Config

/-- Compute dies (Table 1.1). -/
def dies : Nat := 2
/-- Cores per die (Table 1.1). -/
def coresPerDie : Nat := 96
/-- Cores of the module (Table 1.1). -/
def cores : Nat := 192
/-- Stacks (Table 1.1). -/
def stackCount : Nat := 12
/-- Home slices (R11). -/
def homes : Nat := 144
/-- Cluster regions (R9). -/
def regions : Nat := 16
/-- Bytes of a stack: 64 GiB (Table 1.1). -/
def stackBytes : Nat := 0x1000000000
/-- The interleaved size per stack in GiB, set by firmware (R23). Log 12, DESIGN CHOICE. -/
def lgib : Nat := 48
/-- The interleaved size per stack in bytes. -/
def interleaved : Nat := lgib * 0x40000000
/-- SALVSZ after a cold reset, in units of 16 MiB: the Reset column of Table 3.6 (R63). Firmware may set another value, which
the host can write too (log 12). -/
def salvSz : Nat := 0

/-- Lines of the host-line store: 4 MiB (R58). -/
def storeLines : Nat := 32768


/-- A value the spec does not state, drawn at a fresh index. -/
opaque freeNat : Nat → Nat
/-- The set of a directory of 512 sets that a line's entry falls in: R38 gives the counts and not the function. -/
opaque dirSet : Nat → Nat
/-- The set of a region slice of 256 sets that a line falls in: R54 gives the ways and not the function. -/
opaque sliceSet : Nat → Nat
/-- The result of a special function that R156 bounds by one unit in the last place: operation, format code, operand. -/
opaque specialFn : Nat → Nat → Nat → Nat
/-- A firmware image as the boot ROM meets it: its bytes, the key and the signature that come with it, its security version
(R417). -/
structure Image where
  bytes : Nat
  key : Nat
  signature : Nat
  version : Nat
  deriving DecidableEq, Repr

/-- The firmware images of a reset, by reset index (R417). -/
opaque images : Nat → List Image
/-- The SHA-512 hash of the vendor root key, in fuses (R417). -/
opaque fusedKeyHash : Nat
/-- The fused rollback counter (R417). -/
opaque rollback : Nat
/-- SHA-512 (R417). -/
opaque sha512 : Nat → Nat
/-- ECDSA on P-521: key, digest, signature (R417). -/
opaque ecdsaGood : Nat → Nat → Nat → Bool
/-- The answer to a DOE request (R417). -/
opaque doeAnswer : Nat → Nat

end Sys2Proof.Config
end

