-- ==== Sys2Proof/Machine/Tab.lean ====
section
/-! DEFINITION. Keyed tables as plain data: lists of (key, value) pairs with keys strictly rising. They hold the
memory's bytes, the register files and every collection of records of the state. -/

namespace Sys2Proof

/-- A keyed table. Its canonical form is `Tab.wf`. -/
abbrev Tab (α : Type) := List (Nat × α)

namespace Tab

variable {α : Type}

/-- The value listed at `k`. -/
def find (k : Nat) : Tab α → Option α
  | [] => none
  | (k', v) :: t => if k = k' then some v else find k t

/-- The value at `k`, or `d` where nothing is listed. -/
def getD (t : Tab α) (k : Nat) (d : α) : α := (find k t).getD d

/-- Lists `v` at `k`, in key order. -/
def put (k : Nat) (v : α) : Tab α → Tab α
  | [] => [(k, v)]
  | (k', v') :: t =>
    if k < k' then (k, v) :: (k', v') :: t
    else if k = k' then (k, v) :: t
    else (k', v') :: put k v t

/-- Unlists `k`. -/
def del (k : Nat) (t : Tab α) : Tab α := t.filter fun p => p.1 != k

/-- Sets `k` to `v`, listing nothing that equals the default `d`. -/
def set [DecidableEq α] (d : α) (k : Nat) (v : α) (t : Tab α) : Tab α :=
  if v = d then del k t else put k v t

/-- Applies `f` to the value listed at `k`, if any. -/
def modify (k : Nat) (f : α → α) (t : Tab α) : Tab α :=
  match find k t with
  | some v => put k (f v) t
  | none => t

/-- Whether `k` is listed. -/
def has (t : Tab α) (k : Nat) : Bool := (find k t).isSome

/-- The listed keys. -/
def keys (t : Tab α) : List Nat := t.map (·.1)

/-- The listed values, in key order. -/
def vals (t : Tab α) : List α := t.map (·.2)

/-- The least key not listed, counting from `n`, with `fuel` tries. -/
def freeKey (t : Tab α) : Nat → Nat → Nat
  | 0, n => n
  | fuel + 1, n => if has t n then freeKey t fuel (n + 1) else n

/-- Keys strictly rise. -/
def sorted : Tab α → Bool
  | [] => true
  | [_] => true
  | (a, _) :: (b, v) :: t => decide (a < b) && sorted ((b, v) :: t)

/-- The canonical form: keys strictly rising and nothing listed equal to the default. -/
def wf [DecidableEq α] (d : α) (t : Tab α) : Bool := sorted t && t.all (fun p => decide (p.2 ≠ d))

end Tab

end Sys2Proof
end

