-- ==== Sys2Proof/Machine/State.lean ====
section
/-! DEFINITION. The state of the module, all of it plain data, and the state after a cold reset. Every record's docstring
names the rule that gives it. Collections are tables keyed by number; an absent key reads as the default. -/

namespace Sys2Proof.Machine

/-- Why a step stops. -/
inductive Fault where
  /-- Raised by `exec` of an instruction of a thread when no issue group is formed: no thread executes it (log 2). Safe:
  the part never issues an instruction without threads. -/
  | noIssueGroup
  /-- Raised by `exec` of an agent's step that does not arise in the state: its message, job, entry or team is absent
  (log 1). Safe: the part never performs such a step. -/
  | notEnabled (mnemonic : String)
  deriving DecidableEq, Repr

/-- Why the model gives a step no meaning. -/
inductive Refusal where
  /-- Raised by an arm of `exec` whose instruction has no meaning in the model. Safe. -/
  | notModelled (mnemonic : String)
  deriving DecidableEq, Repr

/-- Bytes by address, unlisted bytes reading 0 (log 4). -/
abbrev Memory := Tab Byte
/-- The one canonical form of a memory: addresses strictly rising, no entry equal to what an unlisted address reads as. -/
def Memory.wf (m : Memory) : Bool := Tab.wf 0 m
/-- Bytes of one 128-byte line by offset, unlisted bytes reading 0. -/
abbrev LineData := Tab Byte

/-- Table 23.1 fault as an agent reports it: code, REASON or `%tinfo`, `%taddr`. -/
structure Trap where
  code : Nat
  info : Nat := 0
  addr : Nat := 0
  deriving DecidableEq, Repr

/-- Where a translated access goes (Table 2.3, R17, R88). -/
inductive Loc where
  | forme (team off : Nat)
  | device (pa : Nat)
  | host (pa : Nat)
  | io (pa : Nat)
  | peer (module pa : Nat)
  | platen (pa : Nat)
  deriving DecidableEq, Repr

/-! ### Threads, groups, teams -/

/-- What a thread waits for. -/
inductive Wait where
  /-- Ready (R296). -/
  | ready
  /-- Its memory instruction waits for lines or replies: timing only (R297). -/
  | mem (op : Nat)
  /-- Page walks that the issue group awaits, by entry (die × 4096 + e); `own` is the entry this thread's access to `va`
  joined: it parks there if the page is not valid (R28, R30, R297). -/
  | walk (own : Option Nat) (va : Nat) (all : List Nat)
  /-- A miss held because the pending-miss table is full (R28). -/
  | missFull (die : Nat)
  /-- `ldfe` or `stfe` in a bank's waiter table (R97). -/
  | word
  /-- An absent forme line, met at an address (R100). -/
  | presence (team line va : Nat)
  /-- `bo.wait` on an object for the end of a phase (R103). -/
  | object (team off : Nat) (phase : Bool)
  /-- A matrix link WAIT (R244). -/
  | link (team off : Nat) (phase : Bool)
  /-- A read or write of a register that holds a pending handle (R121). -/
  | future (job : Nat)
  /-- A named barrier's phase (R333). -/
  | barrier (bar : Nat) (phase : Bool)
  /-- Parked in `jwait` (R313). -/
  | rejoin (set next : Nat)
  /-- Parked in `waddr` (R190). -/
  | address (home entry : Nat)
  /-- `waddr` whose installation, the request with this tag, waits for its line (R49, R61, R62). -/
  | install (line tag : Nat)
  /-- `waddr` of a lane that takes its entry after a lower lane, which waits for a line (R190). -/
  | turn (line ahead : Nat)
  /-- Blocked `xclaim` (R128). -/
  | claim (pred next : Nat)
  /-- Blocked `acalloc` (R251). -/
  | slugs (pred next : Nat)
  /-- `acalloc` of another range than its group's waiting request names: handled in its turn (R251). -/
  | slugTurn
  /-- Quad rendezvous of `mma.q` (R247). -/
  | quad
  /-- `imp.wait` for a buffer's tile at a generation (R268). -/
  | imprint (buf tile gen : Nat)
  /-- `fence.sys` (R87). -/
  | fenceSys
  /-- `fence.io` (R88). -/
  | fenceIo
  /-- `fence.code` (R89). -/
  | fenceCode
  /-- Instruction replay: full scoreboard or platen (R110, R264). -/
  | replay
  /-- Its part of the instruction at `pc` is done; other threads of its issue group replay it (R297). -/
  | along (pc : Nat) (ns : List Nat)
  /-- Full matrix queue: timing (R359). -/
  | matrix
  /-- A galley read that waits for queued operations on its slug: timing (R249). -/
  | galley
  deriving DecidableEq, Repr

/-- A loop that the spin detector watches in one thread (R357). -/
structure Spin where
  branch : Nat                  -- address of the branch
  target : Nat
  count : Nat := 0              -- instructions since the target
  changed : Bool := false       -- something of R357's list happened in this iteration
  idle : Nat := 0               -- consecutive iterations without it
  demotes : Bool := false       -- it has demoted the thread
  deriving DecidableEq, Repr

/-- What a `launch` that reads its record holds: queue, predicate, completion address, the 16-byte pieces read (R366). -/
structure Launching where
  queue : Nat
  pred : Nat
  comp : Option Nat
  compPage : Nat × Nat := (0, 0)        -- the page, address and size, whose translation gave `comp` (R29)
  got : Tab Nat := []
  deriving DecidableEq, Repr

/-- One thread (R293): registers of chapter 07, trap record of R374, scheduling of R355 to R357. -/
structure Thread where
  pc : DWord := 0
  regs : Tab Word := []                 -- v0 to v1023, unlisted reads 0 (R126)
  preds : BitVec 7 := 0                 -- p0 to p6 (R134)
  fpflags : BitVec 5 := 0               -- R137
  live : Bool := true
  wait : Wait := .ready
  handler : Bool := false               -- R338
  tcause : Word := 0
  tpc : DWord := 0
  taddr : DWord := 0
  tinfo : Word := 0
  bad : List Nat := []                  -- uncorrectable lane registers (R37)
  pend : Tab Nat := []                  -- lane register → job of its pending handle (R138)
  seen : Tab Nat := []                  -- lane register → end time of its job, until the first read observes it (R72)
  ends : List (Nat × Nat) := []         -- registers whose job ended while the thread was blocked on a handle, with the
                                        -- address of the blocked instruction, until it takes effect; `k` register n as
                                        -- 1024 + n, and 2048 for the block itself (R72, R121)
  issued : Option (Nat × Nat) := none   -- the last instruction that it issued without performing it: address, highest
                                        -- destination register (R128)
  age : Nat := 0
  urgent : Bool := false
  deferred : Option Nat := none         -- until when a `yield` defers (R330)
  demoted : Option Nat := none          -- until when demoted (R357)
  spins : List Spin := []               -- loops, the inner ones first
  release : Option Nat := none          -- threads released together by one `jwait` (R314)
  peerOut : List Nat := []              -- peer writes not yet acknowledged (R87)
  peerLost : Bool := false              -- a peer write was lost with its plane (R285)
  hostOut : List Nat := []              -- `.byp` host stores not yet in host memory (R87)
  ioOut : List Nat := []                -- I/O reads not yet returned (R88)
  linked : Option (Nat × Nat × Bool) := none -- the link of the instruction at pc, its descriptor read (R245): forme and
                                        -- offset of the object, and whether the WAIT is satisfied
  launching : Option Launching := none  -- the record that `launch` is reading (R366)
  deriving DecidableEq, Repr

/-- A rejoin set (R307). -/
structure JSet where
  mem : Nat := 0
  arr : Nat := 0
  deriving DecidableEq, Repr

/-- A named barrier (R332). -/
structure Barrier where
  phase : Bool := false
  count : Nat := 0
  latch : Option Nat := none
  deriving DecidableEq, Repr

/-- A matrix operation, queued or waiting for its quad partners (R245 to R249). -/
structure MatrixOp where
  team : Nat
  group : Nat
  slug : Nat                            -- key in the team's slugs
  slot : Nat                            -- bits of the format slot
  a : List (List Nat)                   -- by lane: 16 registers of the row of the expanded A, then its scale registers
  b : List (List Nat)                   -- by lane: the registers of B's quarters
  breg : Nat := 0                       -- B register number and slot index, compared at a rendezvous (R247)
  fs : Nat := 0
  areg : Nat := 0                       -- A register number, elements kept of each block, and type: how A is read
  kept : Nat := 32
  ty : Ty := .b32
  arrive : Option (Nat × Nat) := none   -- forme and offset of the object linked with ARR
  deriving DecidableEq, Repr

/-- A resident group: its slot, its extended block, its claims. -/
structure Group where
  part : Nat := 0
  slot : Nat := 0
  x : Nat := 0                          -- extended block (R125)
  claim : Option Nat := none            -- waiting xclaim: target in registers (R128)
  sets : Tab JSet := []                 -- key: half × 16 + n (R135)
  mmaq : Nat := 0                       -- `mma.q` count (R247)
  quad : Option MatrixOp := none        -- what it waits with in a quad rendezvous (R247)
  held : Bool := true                   -- slot and registers held (R304)
  deriving DecidableEq, Repr

/-- Where a team runs. -/
inductive Place where
  | core (core : Nat)                   -- `%coreid`
  | near (stack core call : Nat)        -- near-memory core of a platen call (R272)
  deriving DecidableEq, Repr

/-- A resident team (R293, R299, R303). -/
structure Team where
  place : Place
  launch : Nat                          -- launch key
  cluster : Nat                         -- cluster key
  rank : Nat := 0
  x : Nat := 0
  y : Nat := 0
  z : Nat := 0
  grid : Nat × Nat × Nat := (0, 0, 0)   -- %gridid
  dim : Nat                             -- %teamdim
  stamp : Nat := 0
  depth : Nat := 0
  roles : Nat := 1
  base : Nat := 16                      -- b (R125)
  split : Bool := false                 -- split mode (R392)
  profile : Nat := 3                    -- R389
  nbar : Nat := 1
  nslug : Nat := 0
  forme : Nat := 0                      -- bytes after rounding (R91)
  system : Bool := false                -- mode (R324)
  stopped : Bool := false               -- R376, R340
  preempt : Bool := false               -- stopped for pre-emption (R380)
  threads : Tab Thread := []
  groups : Tab Group := []              -- key: 32-lane hardware group
  k : Tab Word := []                    -- uniform registers (R132)
  kw : Tab Nat := []                    -- writer records: group + 1 (R133)
  kp : Tab Nat := []                    -- pending k registers → job (R138)
  kseen : Tab Nat := []                 -- k register → end time of its job, for the readers' observation (R72)
  kbad : List Nat := []                 -- uncorrectable k registers (R37)
  bars : Tab Barrier := []
  slugs : Tab (Tab Word) := []          -- partition × 16 + name → 1,024 f32 words (R239); freed ones still
                                        -- in use by a queued operation from 64 on (R253)
  slugAsk : Tab (Nat × Nat) := []       -- waiting acalloc by group: FIRST, COUNT (R251)
  deriving DecidableEq, Repr

/-- A thread by name. -/
structure Tid where
  team : Nat
  n : Nat
  deriving DecidableEq, Repr

/-- The issue group that executes now (R296): threads in lane order, one program counter. -/
structure IssueGroup where
  team : Nat
  threads : List Nat
  pc : Nat
  deriving DecidableEq, Repr

/-! ### Memory sites -/

/-- Home line states (Table 3.1). -/
inductive HState where
  | h | o | ou | of | od | hb | l
  deriving DecidableEq, Repr

/-- An entry of the wait-on-address table (R60). -/
structure WaitEntry where
  addr : Nat                            -- physical address of the word
  size : Nat
  mask : Nat
  cmp : Nat
  expect : Nat
  tid : Tid
  ctx : Nat
  va : Nat
  pred : Nat
  deriving DecidableEq, Repr

/-- Requests at a home (Table 3.3). `recall` is the home's own: to free a way (R40), to install a wait entry (R61) or to
lend a line (R62). `byp` marks a GETS that keeps no copy (R54). `install` puts a `waddr` into the wait table, its thread going
on at `next` (R60 to R62). -/
inductive ReqKind where
  | gets (byp : Bool) | getx | upg | atom | recall
  | install (w : WaitEntry) (next : Nat)
  deriving DecidableEq, Repr

/-- One request at a home. `wts` is the WTS of the requester's copy, `op` the memory operation that sent an ATOM. -/
structure HReq where
  kind : ReqKind
  line : Nat
  region : Nat
  tag : Nat
  pts : Nat := 0
  wts : Option Nat := none
  lease : Nat := 32
  hint : Nat := 0
  op : Nat := 0
  deriving DecidableEq, Repr

/-- A line resident in its home slice, or a host line kept at the CXL port (R38, R56). -/
structure HomeLine where
  state : HState := .h
  data : LineData := []
  dirty : Bool := false                 -- differs from DRAM
  wts : Nat := 0
  rts : Nat := 0
  hint : Nat := 0
  hostHeld : Bool := false
  used : Nat := 0                       -- replacement order (R54)
  granted : Nat := 0                    -- order of grants (R40)
  pend : Option HReq := none            -- the request a transient state serves
  deriving DecidableEq, Repr

/-- A directory entry: line, owning region, order of allocation (R38, R50). -/
structure DirEntry where
  line : Nat
  region : Nat
  order : Nat
  deriving DecidableEq, Repr

/-- A home slice (0 to 143), or the CXL port as home of host lines (144) (R38, R56). -/
structure Home where
  lines : Tab HomeLine := []
  dir : List DirEntry := []
  queue : List HReq := []               -- 64-entry line queue (R49)
  waits : Tab WaitEntry := []           -- 256 entries (R60)
  mts : Nat := 0
  order : Nat := 0                      -- counts uses, grants and allocations
  deriving DecidableEq, Repr

/-- A line in a region slice: shared or owned (R53). -/
structure Copy where
  owned : Bool
  data : LineData := []
  dirty : Bool := false
  wts : Nat := 0
  rts : Nat := 0
  hint : Nat := 0
  used : Nat := 0
  deriving DecidableEq, Repr

/-- The 12 slices of one cluster region: copies, write-back buffer, outstanding requests by line (R52, R48). The slice and
the set of a copy follow from its line. -/
structure Region where
  copies : Tab Copy := []
  wbuf : Tab Copy := []
  asked : Tab Nat := []                 -- line → tag of the request outstanding
  ways : List Nat := []                 -- lines for whose reply a way is set aside
  order : Nat := 0
  deriving DecidableEq, Repr

/-- What a protocol message says (R43, R46 to R51, R60). -/
inductive MsgKind where
  | req (r : HReq)
  | wb
  | fwdS | fwdX | disc (excl : Bool)
  | answer (keeps : Bool) | fwdGone
  | data | renew | dataX | grantX | wbAck
  | nack (r : HReq) | retry (r : HReq) (due : Nat)
  | wake (tid : Tid) (pred : Nat)
  deriving DecidableEq, Repr

/-- A message in flight between a region and a home. -/
structure Msg where
  kind : MsgKind
  line : Nat
  region : Nat
  tag : Nat := 0                        -- the request it belongs to
  data : LineData := []
  dirty : Bool := false
  wts : Nat := 0
  rts : Nat := 0
  hint : Nat := 0
  op : Nat := 0                         -- the memory operation of a `.byp` load (R54)
  deriving DecidableEq, Repr

/-- What a memory access does at its site. -/
inductive AccKind where
  | load
  | store
  | atom (sub : Nat)
  | red (sub : Nat)
  /-- A piece of the record that `launch` reads (R366). -/
  | record
  deriving DecidableEq, Repr

/-- One thread's access of a memory instruction, translated. -/
structure Access where
  tid : Nat
  va : Nat
  loc : Loc
  size : Nat
  ty : Ty
  value : Nat := 0
  compare : Nat := 0
  dreg : Nat := 0
  deriving DecidableEq, Repr

/-- A memory instruction of an issue group that waits for lines or replies (R297). -/
structure MemOp where
  team : Nat
  kind : AccKind
  hint : Nat
  scope : Nat
  accs : List Access                    -- not yet performed, ascending lane
  replies : List Nat := []              -- tags of replies awaited
  threads : List Nat                    -- threads that go on at `next` when all is done
  next : Nat
  atHome : List Nat := []               -- lines whose ATOM the home serves in this step (R55)
  deriving DecidableEq, Repr

/-- A waiter of a full/empty word, in parking order (R97). -/
structure WordWait where
  off : Nat
  full : Bool                           -- the state awaited
  fe : Bool                             -- `ldfe.fe`: empties the word
  tid : Tid
  dreg : Nat
  value : Nat
  next : Nat
  deriving DecidableEq, Repr

/-- A team's forme allocation with its tags (R91 to R106). -/
structure Forme where
  size : Nat
  cluster : Nat
  core : Nat
  base : Nat := 0                       -- first byte in the slice (R91)
  data : LineData := []                 -- by offset
  full : Tab Bool := []                 -- by word number
  tag : Tab Bool := []                  -- by word number
  pres : Tab Nat := []                  -- by line number: 0 present, 1 absent, 2 faulted (R99)
  writer : Tab Nat := []                -- by line number: last job issued with the line in its write footprint
  cause : Tab Nat := []                 -- by line number: status word of the job that left it faulted
  wts : Tab Nat := []
  rts : Tab Nat := []
  objTime : Tab Nat := []               -- by object offset: greatest time of the current phase (R104)
  flipTime : Tab Nat := []              -- by object offset: time of the last flip
  objCause : Tab Nat := []              -- by object offset: what `%tinfo` of COPY_FAULTED holds (R105)
  waiters : List WordWait := []
  deriving DecidableEq, Repr

/-- A translation held in a TLB (R26): context, page base, page size, leaf entry. -/
structure TlbEntry where
  ctx : Nat
  va : Nat
  size : Nat
  pte : Nat
  time : Nat := 0                       -- time of the walk's reads, which precede its uses in S (R27)
  deriving DecidableEq, Repr

/-- Who waits on a pending miss (R28). -/
inductive Requester where
  | thread (tid : Tid)
  | job (j : Nat)
  | launcher (q : Nat)
  | call (stack call : Nat)
  deriving DecidableEq, Repr

/-- A pending-miss entry (R28, R30). -/
structure Miss where
  ctx : Nat
  va : Nat
  acc : Nat
  eng : Bool
  src : Nat
  launch : Nat
  joined : List Requester := []
  stack : Option Nat := none            -- a platen's miss
  reported : Bool := false              -- a fault record is outstanding
  deriving DecidableEq, Repr

/-! ### Engines, platens, fabric -/

/-- Job kinds (Table 6.1). -/
inductive JobKind where
  | copy | gather | coll
  deriving DecidableEq, Repr

/-- An engine job (R108 to R123). -/
structure Job where
  kind : JobKind
  card : List Nat
  region : Nat
  core : Nat
  tid : Tid
  launch : Nat
  ctx : Nat
  system : Bool
  cluster : Nat
  clock : Nat
  edges : List Nat := []
  started : Bool := false
  stalled : Bool := false               -- on a page walk or fault (R33)
  stalledAt : Nat := 0                  -- the address whose translation it last awaited (R33, R34)
  denied : Option Trap := none          -- the fault that ended a walk or a page fault it waited on (R31, R34)
  buf : Tab LineData := []              -- source lines read, by line address
  done : Nat := 0                       -- destination lines delivered
  object : Option (Nat × Nat) := none   -- forme (team key) and offset of the bound object
  endTime : Nat := 0                    -- greatest time of its accesses, at least its issue time (Table 4.2)
  ended : Option Nat := none            -- status word of a job that has stopped early
  faultAddr : Nat := 0
  sent : Nat := 0                       -- element groups sent (collective)
  recvd : Tab (List Word) := []         -- element groups received, by index (R291)
  jseq : Nat := 0
  deriving DecidableEq, Repr

/-- Phases of a platen call (R276). -/
inductive CallPhase where
  | drain | writeback | loan | run | ret
  deriving DecidableEq, Repr

/-- A launch that has been admitted and has not completed (R299, R345 to R354). -/
structure Launch where
  id : Nat
  ctx : Nat
  record : Nat                          -- the 4,096 bits of the record
  prio : Nat := 0
  queue : Nat := 0                      -- 0 to 63 host, 64 to 79 device, 80 SYSLAUNCH (R346)
  index : Nat := 0
  comp : Option Nat := none             -- completion address of a device record
  compPage : Nat × Nat := (0, 0)        -- the page, address and size, whose translation gave it (R29)
  system : Bool := false
  order : Nat := 0                      -- order of admission
  base : Nat := 16
  split : Bool := false
  profile : Nat := 3
  next : Nat := 0                       -- clusters considered so far, by linear index
  waiting : List Nat := []              -- cluster indexes neither placed nor dropped
  cancel : Bool := false
  hold : Bool := false
  skip : Nat := 0
  stale : List Nat := []                -- clusters refused as stale, their shares not yet given up (R352, R353)
  bnd : Bool := false                   -- it runs in boundary mode (R350)
  fault : Option (Nat × Nat) := none    -- first host-reported fault: CODE, REASON
  time : Nat := 0                       -- completion time so far (R348)
  after : Nat := 0                      -- completion time of the ORD predecessor
  boundary : Option Nat := none         -- boundary entry (R350)
  idleSince : Nat := 0                  -- for the watchdog (R378)
  warned : Bool := false
  deriving DecidableEq, Repr

/-- A platen call (R263 to R265, R276). -/
structure Call where
  card : List Nat
  args : List Nat
  launch : Nat
  ctx : Nat
  tid : Tid
  core : Nat
  caller : Launch                       -- the caller's launch as it is at issue
  time : Nat                            -- the caller's core clock
  phase : CallPhase := .drain
  lines : List (Nat × Nat) := []        -- runs of range lines: first line, count
  object : Option (Nat × Nat) := none
  started : Nat := 0                    -- teams placed
  ended : Nat := 0                      -- teams ended
  status : Nat := 0                     -- status word of the first fault
  faultAddr : Nat := 0
  stopping : Bool := false
  hdr : Option Nat := none              -- the kernel's header word, once it has passed its checks (R271)
  returned : Nat := 0                   -- the platen clock when its last team so far ended (R80)
  deriving DecidableEq, Repr

/-- A packet queued at a platen or a home for the reduction unit (R279, R284). -/
structure Packet where
  pa : Nat
  sub : Nat
  ty : Ty
  size : Nat
  value : Nat
  compare : Nat := 0
  reply : Option (Nat × Nat) := none    -- source module and tag that the acknowledgement answers
  seq : Nat := 0                        -- order of arrival at the module (R85)
  sender : Option (Nat × Nat) := none   -- the thread whose program order it keeps: module, thread (R85)
  plane : Option Nat := none            -- of an element of a collective's packet, its plane (R282, R289)
  deriving DecidableEq, Repr

/-- A platen (R66, R270, R279). -/
structure Platen where
  calls : Tab Call := []                -- 16 entries
  packets : List Packet := []           -- 256 entries
  wts : Tab Nat := []                   -- line times kept in the table
  rts : Tab Nat := []
  mem : Nat := 0                        -- memory time (R66)
  deriving DecidableEq, Repr

/-- A peer access of this module awaiting its reply or acknowledgement (R283 to R285). -/
structure PeerOut where
  tid : Tid
  module : Nat
  va : Nat
  ctx : Nat := 0
  write : Bool
  op : Option Nat := none               -- memory operation that awaits the value
  acc : Option Access := none
  plane : Nat := 0
  job : Option Nat := none              -- the PUSH job whose packet it is (R289)
  deriving DecidableEq, Repr

/-- A packet of a collective job: element group `line`, or an abort of the whole sequence number (R287 to R292). -/
structure CollPacket where
  collop : Nat
  group : Nat
  pos : Nat
  jseq : Nat
  line : Nat := 0
  vals : List Word := []
  dests : List (Nat × Nat) := []        -- PUSH: module and physical address of each element (R289)
  plane : Nat := 0                      -- the plane it travels on (R282)
  abort : Bool := false
  deriving DecidableEq, Repr

/-- The fabric ports (R280 to R285). -/
structure Fabric where
  up : Tab Bool := []                   -- trained planes, unlisted is down (log 10)
  out : Tab PeerOut := []
  sent : List (Nat × PeerRequest) := [] -- requests sent, oldest first: destination module, request
  inbound : List (PeerRequest × Nat) := [] -- accesses received and not yet taken, oldest first: access, KIND of its page
  arrivals : Nat := 0                   -- packets received so far (R85)
  coll : List CollPacket := []          -- collective packets sent, oldest first
  answers : List (Nat × PeerReply) := [] -- replies and acknowledgements sent back, oldest first: tag, reply
  lost : Nat := 0
  refused : Nat := 0
  jseq : Tab Nat := []                  -- by reduction group (R287)
  homePackets : List (Nat × Packet) := [] -- by die (R284)
  deriving DecidableEq, Repr

/-! ### Launches -/

/-- A resident cluster (R302). -/
structure Cluster where
  launch : Nat
  index : Nat
  w : Nat := 1
  h : Nat := 1
  teams : List Nat
  child : Bool := false
  pool : Option (Nat × Nat) := none     -- being pre-empted: base and size of what its save pool holds for it (R380)
  deriving DecidableEq, Repr

/-- A spawn task: argument, core clock, team that offered it (R362, R365). -/
structure Task where
  arg : Nat
  clock : Nat
  team : Nat
  deriving DecidableEq, Repr

/-- A spawn bin (R361). -/
structure Bin where
  launch : Nat
  entry : Nat
  depth : Nat
  tasks : List Task := []
  due : Nat := 0                        -- when its timer expires
  ready : Option Nat := none            -- order of readiness
  desc : Nat := 0                       -- the entry's kernel descriptor (Table 24.3)
  deriving DecidableEq, Repr

/-- A team of a saved cluster: its area, and what the area does not hold (R382). -/
structure SavedTeam where
  key : Nat
  rank : Nat
  base : Nat                            -- physical address of the area
  team : Team
  waits : List WaitEntry := []          -- in the order of the area's wait entries
  tasks : List Bin := []                -- one bin for each task, in the order of the area's tasks
  deriving DecidableEq, Repr

/-- A saved cluster (R382). -/
structure Saved where
  cluster : Cluster
  key : Nat
  teams : List SavedTeam
  formes : Tab Forme                    -- of every rank; data and tags of a resident one are in its area
  area : Nat × Nat                      -- physical base and bytes of all its areas
  deriving DecidableEq, Repr

/-- An imprint table entry (Table 21.4); a free entry is absent. -/
structure Imprint where
  die : Nat
  ctx : Nat
  buf : Nat
  tx : Nat
  ty : Nat
  gen : Nat := 0
  pgen : Nat := 0
  outst : Nat := 0
  posted : Bool := false                -- STATE 2
  bound : Bool := false
  abn : Bool := false
  time : Nat := 0
  launch : Nat := 0
  deriving DecidableEq, Repr

/-- A boundary table entry (R350). -/
structure Boundary where
  ctx : Nat
  buf : Nat
  gen : Nat
  state : Nat := 0                      -- 0 running, 1 completed, 2 abandoned
  time : Nat := 0
  left : Nat := 0
  launch : Nat := 0
  deriving DecidableEq, Repr

/-- What a core keeps beside its teams (R10). -/
structure Core where
  bins : Tab Bin := []
  victim : Option Nat := none           -- last steal victim (R363)
  tracker : Tab (List Nat × List Nat × Nat) := []  -- retirement entries: memory operations, jobs, launch (R305)
  cancelled : List Nat := []            -- launches whose cancel flag is set here (R368)
  icache : Tab LineData := []           -- instruction cache lines (R89)
  deriving DecidableEq, Repr

/-- A record placed in a device queue: record, launching context, completion address, order (R366). -/
structure DevRecord where
  record : Nat
  ctx : Nat
  comp : Option Nat := none
  compPage : Nat × Nat := (0, 0)        -- the page, address and size, whose translation gave `comp` (R29)
  time : Nat := 0                       -- the launching core's clock
  deriving DecidableEq, Repr

/-- A CXL.mem request that the port has received: a read of `len` bytes, or a write of the bytes listed, of which an
absent one is not enabled (R67, R82). -/
inductive HostReq where
  | read (pa len : Nat)
  | write (pa : Nat) (bytes : List (Option Byte))
  deriving DecidableEq, Repr

/-- The CXL port and the module controller's outside face (R30, R57, R82, R88, R344, R417). -/
structure Port where
  msix : List Nat := []                 -- vectors to signal, oldest first
  signalled : Tab Nat := []             -- signals sent, by vector
  requests : List HostReq := []         -- CXL.mem requests received and not yet performed, oldest first (R82)
  snoops : List Nat := []               -- lines with a back-invalidate outstanding
  readData : List Byte := []            -- data of the last CXL.mem read
  readError : Bool := false             -- the last CXL.mem read met an uncorrectable word
  fetching : List Nat := []             -- host lines being fetched
  snoopData : Option LineData := none   -- line returned by the last host snoop
  snoopHit : Bool := false
  ioWrites : List (Nat × Nat × Nat) := []  -- I/O writes sent: address, size, value
  ioReads : Tab (Tid × Nat × Nat) := []    -- outstanding: thread, size, memory operation
  bypStores : Tab (Tid × Nat × Nat × Nat) := []  -- `.byp` host stores outstanding: thread, address, size, value (R87)
  store : Tab LineData := []            -- always-powered host-line store (R58)
  viral : Bool := false
  posted : List (Nat × Nat) := []       -- events posted to the module controller: code, lost die (R63)
  doe : List Nat := []                  -- DOE answers
  deriving DecidableEq, Repr

/-- Tracking of a TLB invalidation, a pre-emption and other runs that a BUSY bit shows. -/
structure Busy where
  tlbinv : Option Nat := none           -- the TLBINV value in progress (R29)
  codeinv : Bool := false               -- R395
  preempt : Option Nat := none          -- launch identifier (R380)
  saved : Nat := 0
  left : Nat := 0
  rebase : Bool := false                -- R45
  deadDie : Option Nat := none          -- R63
  salvaged : Bool := false
  held : Bool := false                  -- held in reset after a thermal trip (R418)
  bootFailed : Bool := false            -- the boot image did not verify: in reset, CXL.io only (R417)
  deriving DecidableEq, Repr

/-- One entry of the model's own schedule: which agent moves next and what the outside world does (log 1). -/
inductive Turn where
  | event (i : Instr)
  | issue (core part : Nat)
  | clocks (n : Nat)
  | dropCopy (region line : Nat)        -- a region slice replaces a line (R53)
  | dropHome (line : Nat)               -- a home slice replaces a line (R40)
  | dropTranslation (tlb ctx va : Nat)  -- a TLB replaces a translation (R26)
  | dropCode (core line : Nat)          -- an instruction cache replaces a line (R89)
  | hostStore (pa : Nat) (bytes : List Byte)  -- the host writes its own memory (R83)
  | upset (key array : Nat)             -- a stored word of HBM, a forme or a slug becomes uncorrectable (R37)
  | upsetLine (region : Option Nat) (line unit : Nat)  -- so does 8 bytes of a region's copy of a line, or of its home's
  | upsetReg (tid : Tid) (n : Nat)      -- a lane register becomes uncorrectable (R37)
  | upsetK (team n : Nat)               -- a `k` register becomes uncorrectable (R37)
  | temperature (sensor temp : Nat)     -- a sensor reads another value: junction of die 0 or 1, coolant inlet (R418)
  | window (off size value : Nat)       -- the host writes `size` bytes of the management window (R412)
  | corrected (array : Nat)             -- an error is corrected (R36)
  | dropTimes (stack line : Nat)        -- a platen's table gives up a line's times (R66)
  deriving DecidableEq, Repr

/-- The whole module. -/
structure State where
  -- time (R41, R136)
  cycle : Nat := 0
  ticks : Nat := 0                      -- ticks of the logical clocks so far (R41)
  clocks : Tab Nat := []
  -- the model's own (logs 1, 2, 3)
  agenda : List Turn := []
  ig : Option IssueGroup := none
  oracle : Nat := 0
  nextTag : Nat := 1
  nextKey : Nat := 1
  -- memory
  hbm : Memory := []
  hostMem : Memory := []
  bad : Tab Nat := []                   -- uncorrectable words of memory, formes and galleys: key → array (R37)
  homes : Tab Home := []
  regions : Tab Region := []
  net : Tab Msg := []
  memops : Tab MemOp := []
  tlbs : Tab (List TlbEntry) := []      -- cores 0 to 191, dies 192 and 193, platens 194 to 205
  misses : Tab Miss := []               -- die × 4096 + e
  slotSeq : Tab Nat := []               -- SEQ of each fault slot (R30)
  formes : Tab Forme := []
  errors : Tab Nat := []                -- error counters (R36)
  nearCaches : Tab (Tab LineData) := [] -- platen instruction caches (R89)
  -- execution
  cores : Tab Core := []
  teams : Tab Team := []
  clusters : Tab Cluster := []
  launches : Tab Launch := []
  matrix : Tab (List MatrixOp) := []    -- by core × 4 + partition (R359)
  grants : Tab Nat := []                -- matrix starts granted to a partition in the window, by die; unlisted 64 (R359)
  starts : Tab Nat := []                -- matrix starts in the window, by core × 4 + partition
  windows : Tab Nat := []               -- when a die's next window begins
  jobs : Tab Job := []
  platens : Tab Platen := []
  fabric : Fabric := {}
  -- launcher
  stamp : Nat := 1                      -- next launch stamp (log 9)
  launchId : Nat := 1                   -- next launch identifier (R346)
  admitted : Nat := 0
  lastQueue : Nat := 80                 -- queue last admitted (R346)
  devQueues : Tab (List DevRecord) := []
  sysRecord : Option Nat := none        -- host address of the record submitted through SYSLAUNCH: BUSY (R414)
  running : Tab Nat := []               -- queue → launch key of its latest record
  doneTimes : Tab Nat := []             -- queue → completion time of its latest record
  replyWait : Tab Nat := []             -- queue → state of its head's descriptor read (R345)
  imprints : Tab Imprint := []
  boundaries : Tab Boundary := []
  saved : List Saved := []
  -- management
  win : Tab DWord := []                 -- registers by window offset; unlisted reads its reset value (R412)
  busy : Busy := {}
  port : Port := {}
  powered : Tab Bool := []              -- dies, unlisted is powered
  throttled : Tab Bool := []            -- by die (R418)
  resets : Nat := 0                     -- resets since manufacture: index of firmware verification (R417)
  deriving DecidableEq, Repr

/-- The module right after a cold reset (R416): every clock 0, nothing resident, registers at their reset values. Values
that the spec does not give are named in the assumption log (3 to 13). -/
def State.reset : State := {}

end Sys2Proof.Machine
end

