-- ==== Sys2Proof/Machine/Ops.lean ====
section
/-! DEFINITION. Named operations over the state: tables, clocks, registers of the management window, bytes of memory, host
events, taking a trap and returning from one. -/

namespace Sys2Proof.Machine

/-! ### Fault codes (Table 23.1) -/

namespace Code
def illegalOpcode : Nat := 0x01
def illegalEncoding : Nat := 0x02
def regRange : Nat := 0x03
def misaligned : Nat := 0x04
def pageFault : Nat := 0x05
def protection : Nat := 0x06
def formeRange : Nat := 0x07
def stackRange : Nat := 0x08
def ecc : Nat := 0x09
def clobber : Nat := 0x0A
def countMismatch : Nat := 0x0B
def copyFaulted : Nat := 0x0C
def convergence : Nat := 0x0D
def quadMismatch : Nat := 0x0E
def orphanedSet : Nat := 0x0F
def rejoinBusy : Nat := 0x10
def rejoinNonmember : Nat := 0x11
def uniformRace : Nat := 0x12
def imprintOverwrite : Nat := 0x13
def imprintStale : Nat := 0x14
def waitUnsupported : Nat := 0x15
def privileged : Nat := 0x16
def swTrap : Nat := 0x17
def breakpoint : Nat := 0x18
def tailDrain : Nat := 0x20
def homeLost : Nat := 0x21
def watchdog : Nat := 0x23
end Code

/-! ### Clocks (R41) -/

/-- Clock of a copy engine. -/
def copyClock (region : Nat) : Nat := 192 + region
/-- Clock of a gather engine. -/
def gatherClock (region : Nat) : Nat := 208 + region
/-- Clock of a collective engine. -/
def collClock (die : Nat) : Nat := 224 + die
/-- Clock of a platen. -/
def platenClock (stack : Nat) : Nat := 226 + stack
/-- The port clock. -/
def portClock : Nat := 238

/-- Reads a logical clock. -/
def State.clock (s : State) (k : Nat) : Nat := Tab.getD s.clocks k 0

/-- Raises a logical clock to `t` if `t` is higher: clocks never decrease (R41). -/
def State.raise (s : State) (k t : Nat) : State := { s with clocks := Tab.set 0 k (max (s.clock k) t) s.clocks }

/-- The die of a core (R8). -/
def dieOf (core : Nat) : Nat := core / 96
/-- The device-wide region of a core (R9). -/
def regionOf (core : Nat) : Nat := core / 96 * 8 + core % 96 / 12 / 4 * 4 + core % 12 / 3
/-- The die a stack attaches to (R11). -/
def dieOfStack (stack : Nat) : Nat := stack / 6

/-! ### Teams and threads -/

def State.team? (s : State) (k : Nat) : Option Team := Tab.find k s.teams

def State.setTeam (s : State) (k : Nat) (t : Team) : State := { s with teams := Tab.put k t s.teams }

/-- Changes a resident team. -/
def State.modTeam (s : State) (k : Nat) (f : Team → Team) : State := { s with teams := Tab.modify k f s.teams }

def State.thread? (s : State) (i : Tid) : Option Thread := (s.team? i.team).bind fun t => Tab.find i.n t.threads

/-- Changes a thread of a team. -/
def Team.modThread (t : Team) (n : Nat) (f : Thread → Thread) : Team := { t with threads := Tab.modify n f t.threads }

def Team.modGroup (t : Team) (g : Nat) (f : Group → Group) : Team := { t with groups := Tab.modify g f t.groups }

/-- Changes a thread. -/
def State.modThread (s : State) (i : Tid) (f : Thread → Thread) : State := s.modTeam i.team fun t => t.modThread i.n f

def State.modGroup (s : State) (team g : Nat) (f : Group → Group) : State := s.modTeam team fun t => t.modGroup g f

/-- A near-memory team (R270). -/
def Team.near (t : Team) : Bool := match t.place with | .near .. => true | .core _ => false
/-- The core a team runs on; for a near-memory team, its core within the platen. -/
def Team.core (t : Team) : Nat := match t.place with | .core c => c | .near _ c _ => c
/-- The clock a team's accesses take (R41). -/
def Team.clockKey (t : Team) : Nat := match t.place with | .core c => c | .near st _ _ => platenClock st
/-- The die of a team's core. -/
def Team.die (t : Team) : Nat := match t.place with | .core c => dieOf c | .near st _ _ => dieOfStack st
/-- Lanes of one hardware group: 32, or 16 on a near-memory core (R294, R271). -/
def Team.hwWidth (t : Team) : Nat := if t.near then 16 else 32
/-- W: lanes of a group as software sees it: 16 in split mode and near memory (R135, R307). -/
def Team.width (t : Team) : Nat := if t.near || t.split then 16 else 32
/-- Hardware group of a thread: where its registers are held (R294). -/
def Team.hw (t : Team) (n : Nat) : Nat := n / t.hwWidth
/-- `%groupid` (R136). -/
def Team.gid (t : Team) (n : Nat) : Nat := n / t.width
/-- `%lane` (R136). -/
def Team.lane (t : Team) (n : Nat) : Nat := n % t.width
/-- Lane within the hardware group. -/
def Team.hwLane (t : Team) (n : Nat) : Nat := n % t.hwWidth
/-- The half of a split-mode group; 0 otherwise. -/
def Team.half (t : Team) (n : Nat) : Nat := if t.split && !t.near then n % 32 / 16 else 0
/-- Partition of a thread's group (R295). -/
def Team.part (t : Team) (n : Nat) : Nat := t.hw n % 4

/-- Threads of a group as software numbers it, in lane order. -/
def Team.groupThreads (t : Team) (g : Nat) : List Nat :=
  (List.range t.width).map (fun l => g * t.width + l)

/-- Whether thread `n` is live. -/
def Team.liveAt (t : Team) (n : Nat) : Bool := ((Tab.find n t.threads).map Thread.live).getD false

/-- Live(g): the live threads of a group (R224), in lane order. -/
def Team.liveThreads (t : Team) (g : Nat) : List Nat := (t.groupThreads g).filter t.liveAt

/-- Live(g) as a mask of lanes. -/
def Team.liveMask (t : Team) (g : Nat) : Nat := Bits.maskOf ((t.liveThreads g).map t.lane)

/-- Registers allocated to a thread: b + x (R125). -/
def Team.alloc (t : Team) (n : Nat) : Nat := t.base + ((Tab.find (t.hw n) t.groups).map Group.x).getD 0

/-- Key of one of a thread's rejoin sets in its group's table (R135). -/
def Team.setKey (t : Team) (n j : Nat) : Nat := t.half n * 16 + j

/-- A platen call. -/
def State.call? (s : State) (stack call : Nat) : Option Call :=
  (Tab.find stack s.platens).bind fun p => Tab.find call p.calls

/-- The launch of a team; for a near-memory team, its caller's as it was at issue (R271, R272). -/
def State.launchOf (s : State) (t : Team) : Option Launch :=
  match t.place with
  | .core _ => Tab.find t.launch s.launches
  | .near stack _ call => (s.call? stack call).map Call.caller

/-- Field of a launch record (Table 18.3). -/
def recField (record lo width : Nat) : Nat := Bits.field record lo width

/-- The context of a team (Table 18.3); a near-memory team takes its call's. -/
def State.ctxOf (s : State) (t : Team) : Nat := ((s.launchOf t).map Launch.ctx).getD 0

/-- TRAPVEC of a team's launch (Table 18.3). -/
def State.trapVec (s : State) (t : Team) : Nat := ((s.launchOf t).map fun l => recField l.record 192 64).getD 0

/-- Format slot of a team's launch (R145, Table 18.3). -/
def State.fslot (s : State) (t : Team) (n : Nat) : Nat :=
  ((s.launchOf t).map fun l => recField l.record (1280 + 64 * n) 64).getD 0

/-! ### Management window (R412): plain storage -/

/-- Reset values of the registers that do not reset to 0. DESIGN CHOICE (log 13). -/
def winReset (off : Nat) : Nat :=
  if off = 0 then 0x2001010101010101                                   -- MGMTID (R413)
  else if 0x100400 ≤ off ∧ off < 0x100600 then 32                      -- LEASECFG (Table 3.2)
  else if off = 0x100210 then Config.lgib                              -- STKSPLIT (Table 2.9)
  else if off = 0x100600 then Config.salvSz                            -- SALVCFG (Table 3.6)
  else if off = 0x100800 then 0x3FF                                    -- MODID (R281)
  else if 0x104000 ≤ off ∧ off < 0x104800 ∧ off % 32 = 16 then 4       -- HQCTL SIZE (Table 21.1)
  else if off = 0x104C00 then 2048                                     -- SPAWNCFG (Table 22.2)
  else if off = 0x106200 then 1700 + 1700 * 2 ^ 16                     -- PWRCFG (R418)
  else 0

/-- A register's stored bits. -/
def State.reg (s : State) (off : Nat) : Nat := (Tab.getD s.win off (BitVec.ofNat 64 (winReset off))).toNat

/-- Stores a register's bits. -/
def State.setReg (s : State) (off v : Nat) : State := { s with win := Tab.put off (BitVec.ofNat 64 v) s.win }

/-- Replaces a field of a register. -/
def State.setRegField (s : State) (off lo width v : Nat) : State :=
  s.setReg off (s.reg off - Bits.field (s.reg off) lo width * 2 ^ lo + v % 2 ^ width * 2 ^ lo)

/-- LEASE of a context (R42). -/
def State.lease (s : State) (ctx : Nat) : Nat := s.reg (0x100400 + 8 * ctx) % 2 ^ 11

/-! ### Bytes -/

/-- Reads `n` bytes, the lowest address least significant (R3). -/
def readBytes (m : Memory) : Nat → Nat → Nat
  | _, 0 => 0
  | a, n + 1 => (Tab.getD m a 0).toNat + 256 * readBytes m (a + 1) n

/-- Writes the low `n` bytes of `v` (R3). -/
def writeBytes (m : Memory) : Nat → Nat → Nat → Memory
  | _, 0, _ => m
  | a, n + 1, v => writeBytes (Tab.set 0 a (BitVec.ofNat 8 v) m) (a + 1) n (v / 256)

/-- Copies `n` bytes from `src` at `a` into `dst` at `b`. -/
def copyBytes (src : Memory) (a : Nat) (dst : Memory) (b : Nat) : Nat → Memory
  | 0 => dst
  | n + 1 => Tab.set 0 (b + n) (Tab.getD src (a + n) 0) (copyBytes src a dst b n)

/-- The 128 bytes of a line of memory. -/
def lineOf (m : Memory) (base : Nat) : LineData :=
  (m.filter fun p => base ≤ p.1 && p.1 < base + 128).map fun p => (p.1 - base, p.2)

/-- Replaces the 128 bytes of a line of memory. -/
def putLine (m : Memory) (base : Nat) (d : LineData) : Memory :=
  m.filter (fun p => p.1 < base)
    ++ (List.range 128).filterMap (fun i => if Tab.getD d i 0 = 0 then none else some (base + i, Tab.getD d i 0))
    ++ m.filter (fun p => base + 128 ≤ p.1)

/-- The marks but those of host memory's 8-byte units that `n` bytes overwrite whole (R37). -/
def hostSound (bad : Tab Nat) (pa n : Nat) : Tab Nat :=
  bad.filter fun p => !(decide (2 ^ 58 + (pa + 7) / 8 ≤ p.1) && decide (p.1 < 2 ^ 58 + (pa + n) / 8))

/-- The part's own writes to host memory: records, entries and rings (R30, R344, R377). DEDUCED (log 32). -/
def State.writeHost (s : State) (pa n v : Nat) : State :=
  { s with hostMem := writeBytes s.hostMem pa n v, bad := hostSound s.bad pa n }

/-! ### Fresh names and free values -/

/-- A fresh message or access tag. -/
def State.fresh (s : State) : Nat × State := (s.nextTag, { s with nextTag := s.nextTag + 1 })

/-- A fresh key for a team, job, launch or operation. -/
def State.freshKey (s : State) : Nat × State := (s.nextKey, { s with nextKey := s.nextKey + 1 })

/-- The index of the next free value: it advances a counter (log 3). -/
def State.draw (s : State) : Nat × State := (s.oracle, { s with oracle := s.oracle + 1 })

/-! ### Host events (R377) -/

/-- A host event record before it is written (Table 23.4). -/
structure HostEvent where
  kind : Nat
  code : Nat
  reason : Nat := 0
  launch : Nat := 0
  core : Nat := 0xFF
  part : Nat := 0
  group : Nat := 0
  lane : Nat := 0
  tpc : Nat := 0
  taddr : Nat := 0
  tinfo : Nat := 0
  x : Nat := 0
  y : Nat := 0
  z : Nat := 0

/-- The 512 bits of an event record (Table 23.4). -/
def HostEvent.bits (e : HostEvent) : Nat :=
  1 + e.kind * 2 ^ 8 + e.code % 256 * 2 ^ 16 + e.reason % 256 * 2 ^ 24 + e.launch % 2 ^ 32 * 2 ^ 32
    + e.core % 256 * 2 ^ 64 + e.part % 4 * 2 ^ 72 + e.group % 64 * 2 ^ 74 + e.lane % 32 * 2 ^ 80
    + e.tpc % 2 ^ 64 * 2 ^ 128 + e.taddr % 2 ^ 64 * 2 ^ 192 + e.tinfo % 2 ^ 32 * 2 ^ 256
    + e.x % 2 ^ 32 * 2 ^ 288 + e.y % 2 ^ 32 * 2 ^ 320 + e.z % 2 ^ 32 * 2 ^ 352

/-- EVTCTL's offset. -/
def evtCtl : Nat := 0x105008

/-- Writes an event to the ring and queues MSI-X vector 3, or counts it lost; nothing while EN is 0 (R377). -/
def State.hostEvent (s : State) (e : HostEvent) : State :=
  let ctl := s.reg evtCtl
  if !Bits.bit ctl 31 then s
  else
    let tail := Bits.field ctl 16 12
    if (tail + 1) % 4096 = Bits.field ctl 0 12 then
      s.setRegField evtCtl 32 16 (min 0xFFFF (Bits.field ctl 32 16 + 1))
    else
      let s := s.writeHost (s.reg 0x105000 / 4096 * 4096 + 64 * tail) 64 e.bits
      let s := s.setRegField evtCtl 16 12 ((tail + 1) % 4096)
      { s with port := { s.port with msix := s.port.msix ++ [3] } }

/-- REASON of a record that carries a fault: for PROTECTION its reason code, else 0 (R369). -/
def Trap.reason (t : Trap) : Nat := if t.code = Code.protection then t.info % 256 else 0

/-- Notes a launch's first host-reported fault (R344). DEDUCED (log 35). -/
def State.noteFault (s : State) (launch code reason : Nat) : State :=
  { s with launches := Tab.modify launch (fun l =>
      { l with fault := match l.fault with | some f => some f | none => some (code, reason) }) s.launches }

/-- Something of a launch has moved: the watchdog counts anew (R378). -/
def State.stirLaunch (s : State) (key : Nat) : State :=
  { s with launches := Tab.modify key (fun l => { l with idleSince := s.cycle, warned := false }) s.launches }

/-- A fault that can no longer reach its thread: TAIL_DRAIN_FAULT against the launch, `status` the underlying status word;
REASON is 0, since the code is not PROTECTION (R32, R121, R369, R378). -/
def State.drainFault (s : State) (launch addr status : Nat) : State :=
  let id := ((Tab.find launch s.launches).map Launch.id).getD 0
  let s := s.noteFault launch Code.tailDrain 0
  s.hostEvent { kind := 3, code := Code.tailDrain, launch := id, taddr := addr, tinfo := status }

/-! ### Taking a trap (R374 to R376, R379) -/

/-- Writes a thread's trap record: `%tcause` with COUNT one higher, `%tpc`, `%taddr`, `%tinfo` (R374). -/
def Thread.record (th : Thread) (t : Trap) (tpc : Nat) : Thread :=
  { th with
    tcause := BitVec.ofNat 32 ((th.tcause.toNat / 2 ^ 16 + 1) % 2 ^ 16 * 2 ^ 16 + t.code % 256)
    tpc := BitVec.ofNat 64 tpc
    taddr := BitVec.ofNat 64 t.addr
    tinfo := BitVec.ofNat 32 t.info
    wait := .ready
    age := 0
    urgent := false
    spins := th.spins.map fun x => { x with changed := true }
    linked := none
    launching := none
    release := none }

/-- The virtual address of a fault whose `%taddr` holds one, else 0 (Table 23.1, R265). -/
def Trap.va (t : Trap) : Nat :=
  if t.code ∈ [Code.misaligned, Code.protection, Code.formeRange, Code.stackRange, Code.clobber, Code.copyFaulted,
      Code.waitUnsupported] ∨ (t.code = Code.ecc ∧ t.info ≤ 3) then t.addr else 0

/-- `%tpc` of a fault: NextPC for SW_TRAP and BREAKPOINT, else word 0 of the instruction (R374, R337). -/
def Trap.tpc (t : Trap) (pc next : Nat) : Nat := if t.code = Code.swTrap ∨ t.code = Code.breakpoint then next else pc

/-- Enters the trap vector: handler bit set, program counter TRAPVEC, nothing else changed (R375). -/
def Thread.enter (th : Thread) (t : Trap) (tpc vec : Nat) : Thread :=
  { th.record t tpc with handler := true, pc := BitVec.ofNat 64 vec }

/-- The thread of a stopped team stays at its faulting instruction, or at `%tpc` after a software trap (R376, R379).
DEDUCED (log 34). -/
def Thread.stop (th : Thread) (t : Trap) (tpc : Nat) : Thread := { th.record t tpc with pc := BitVec.ofNat 64 tpc }

/-- The event of a team stopped by a fault: KIND 1 without a vector, KIND 2 nested (R376, Table 23.4). -/
def State.stopEvent (s : State) (i : Tid) (tm : Team) (t : Trap) (tpc kind : Nat) : State :=
  s.hostEvent
    { kind, code := t.code, reason := t.reason, launch := ((s.launchOf tm).map Launch.id).getD 0, core := tm.core
      part := tm.part i.n, group := tm.gid i.n, lane := tm.lane i.n, tpc, taddr := t.addr, tinfo := t.info
      x := tm.x, y := tm.y, z := tm.z }

/-- Ends a platen call at its first fault: status and address recorded, no further team started (R275). -/
def State.callFault (s : State) (stack call : Nat) (t : Trap) : State :=
  { s with platens := Tab.modify stack (fun p =>
      { p with calls := Tab.modify call (fun c =>
          if c.stopping then c
          else { c with
                 stopping := true
                 status := t.code % 256 * 2 ^ 24 + t.reason * 2 ^ 16
                 faultAddr := t.addr }) p.calls }) s.platens }

/-- Writes a predicate; a write to `p7` is discarded (R134). -/
def Thread.setP (th : Thread) (n : Nat) (b : Bool) : Thread :=
  if n < 7 then
    { th with preds := BitVec.ofNat 7 (th.preds.toNat - Bits.field th.preds.toNat n 1 * 2 ^ n + b.toNat * 2 ^ n) }
  else th

/-- Notes that a thread has issued an instruction that will write the registers listed. -/
def Thread.issues (th : Thread) (dsts : List Nat) : Thread :=
  match dsts with
  | [] => th
  | d :: ds => { th with issued := some (th.pc.toNat, ds.foldl max d) }

/-- Threads have issued an instruction that will write the registers listed. -/
def State.noteIssued (s : State) (team : Nat) (ns dsts : List Nat) : State :=
  ns.foldl (fun s n => s.modThread { team, n } fun th => th.issues dsts) s

/-- A thread's record has been read: it enters its device queue with the thread's context, in the place that the thread took
there (R366). -/
def State.placeRecord (s : State) (i : Tid) : State :=
  match s.team? i.team, (s.thread? i).bind Thread.launching with
  | some t, some l =>
    let q := Tab.getD s.devQueues l.queue []
    let ctx := s.ctxOf t
    let bits := (l.got.map fun p => p.2 * 2 ^ (128 * p.1)).foldl (· + ·) 0
    let record := bits - Bits.field bits 8 6 * 2 ^ 8 + ctx * 2 ^ 8
    let d : DevRecord := { record, ctx, comp := l.comp, compPage := l.compPage, time := s.clock t.clockKey }
    let s := { s with devQueues := Tab.put l.queue (q ++ [d]) s.devQueues }
    s.modThread i fun th => { th.setP l.pred true with launching := none }
  | _, _ => s

/-- The threads of an operation go on after its instruction; a `launch` first enqueues the records that they have read (R297,
R366). -/
def State.threadsGoOn (s : State) (op : MemOp) (ns : List Nat) : State :=
  let s := if op.kind == .record then ns.foldl (fun s n => s.placeRecord { team := op.team, n }) s else s
  ns.foldl (fun s n => s.modThread { team := op.team, n } fun th =>
    { th with wait := .ready, pc := BitVec.ofNat 64 op.next }) s

/-- The memory operations of a team that stops: a thread that has an access not yet performed is rewound to its instruction,
the others go on, at once or with their replies (R340, R370, R371). -/
def State.rewindOps (s : State) (k : Nat) : State :=
  s.memops.foldl (fun s (key, op) =>
    if op.team ≠ k then s
    else
      let undone := op.accs.map Access.tid
      let kept := op.threads.filter fun n => !undone.contains n
      let s := undone.foldl (fun s n => s.modThread { team := k, n } fun th =>
        if th.wait == .mem key then { th with wait := .ready, launching := none } else th) s
      if op.replies.isEmpty then ({ s with memops := Tab.del key s.memops } : State).threadsGoOn op kept
      else { s with memops := Tab.put key { op with accs := [], atHome := [], threads := kept } s.memops }) s

/-- Whether a team is stopped (R340, R376, R380). -/
def State.isStopped (s : State) (k : Nat) : Bool := ((s.team? k).map fun t => t.stopped || t.preempt).getD false

/-- Delivers a fault to a thread (R372 to R376). `next` is NextPC of its instruction. On a near-memory core the fault ends
the call (R275). DEDUCED (log 34). DEDUCED (log 35). -/
def State.deliver (s : State) (i : Tid) (t : Trap) (next : Nat) : State :=
  match s.team? i.team with
  | none => s
  | some tm =>
    match Tab.find i.n tm.threads with
    | none => s
    | some th =>
      match tm.place with
      | .near stack _ call =>
        (s.callFault stack call { t with addr := t.va }).modThread i fun th => { th with wait := .replay }
      | .core _ =>
        let tpc := t.tpc th.pc.toNat next
        if tm.stopped then s.modThread i fun th => th.stop t tpc
        else if th.handler || s.trapVec tm == 0 then
          let kind := if th.handler then 2 else 1
          let s := s.stopEvent i tm t tpc kind
          let s := s.noteFault tm.launch t.code t.reason
          (s.modTeam i.team fun tm => { tm.modThread i.n (fun th => th.stop t tpc) with stopped := true }).rewindOps i.team
        else s.modThread i fun th => th.enter t tpc (s.trapVec tm)

/-- Faults detected in one step: thread, fault, NextPC of its instruction. -/
abbrev Faults := List (Tid × Trap × Nat)

/-- Faults in team and lane order. -/
def Faults.inLanes (l : Faults) : Faults :=
  l.foldr (fun e acc =>
    let before := fun (a b : Tid) => decide (a.team < b.team) || (a.team == b.team && decide (a.n < b.n))
    (acc.takeWhile fun a => before a.1 e.1) ++ e :: (acc.dropWhile fun a => before a.1 e.1)) []

/-- Delivers the faults that a step has detected, in ascending lane order (R275, R373); the threads wait no longer. -/
def State.deliverFaults (s : State) (l : Faults) : State :=
  l.inLanes.foldl (fun s (i, t, next) => (s.modThread i fun th => { th with wait := .ready }).deliver i t next) s

/-- Returns from a handler: the thread resumes at `target` with its handler bit clear; the mode is unchanged (R338). -/
def Thread.rte (th : Thread) (target : Nat) : Thread := { th with handler := false, pc := BitVec.ofNat 64 target }

end Sys2Proof.Machine
end

