-- ==== Sys2Proof/Machine/Operands.lean ====
section
/-! DEFINITION. Operand forms (R124, R127, R158, R163, R175), guards (R165), and the sweep of an issue group's threads in
ascending lane order. -/

namespace Sys2Proof.Machine

/-- Why a thread does not complete its instruction now. -/
inductive LaneStop where
  | fault (t : Trap)
  | park (w : Wait)
  deriving DecidableEq, Repr

/-- What a thread's part in an instruction answers. -/
abbrev Lane (α : Type) := Except LaneStop α

/-- A thread's view of its registers while an instruction executes. -/
structure View where
  id : Tid
  team : Team
  th : Thread
  alloc : Nat

/-- The view of a thread. -/
def State.view (s : State) (i : Tid) : Option View :=
  (s.team? i.team).bind fun tm => (Tab.find i.n tm.threads).map fun th => { id := i, team := tm, th, alloc := tm.alloc i.n }

/-- V(t,n) (R124). -/
def Thread.v (th : Thread) (n : Nat) : Word := Tab.getD th.regs n 0

/-- The value of the `w` registers from `v`n, the first least significant (R124). -/
def Thread.vs (th : Thread) (n w : Nat) : Nat := Bits.joinLE 32 ((List.range w).map fun j => (th.v (n + j)).toNat)

/-- Writes one lane register: it is no longer uncorrectable, and it no longer holds the status of an ended job (R37,
R121). -/
def Thread.setV (th : Thread) (n : Nat) (v : Nat) : Thread :=
  { th with
    regs := Tab.set 0 n (BitVec.ofNat 32 v) th.regs, bad := th.bad.filter (· != n), seen := Tab.del n th.seen }

/-- Writes the `w` registers from `v`n (R124, R175). -/
def Thread.setVs (th : Thread) (n v : Nat) : Nat → Thread
  | 0 => th
  | w + 1 => (th.setV n (v % 2 ^ 32)).setVs (n + 1) (v / 2 ^ 32) w

/-- P(t,n): `p7` reads true (R134). -/
def Thread.p (th : Thread) (n : Nat) : Bool := n == 7 || Bits.bit th.preds.toNat n

/-- Guard(t) for the four bits of G (R165, R175). -/
def Thread.guard (th : Thread) (g : BitVec 4) : Bool := th.p (g.toNat % 8) != Bits.bit g.toNat 3

/-- ORs flags into `%fpflags` (R137). -/
def Thread.raiseFlags (th : Thread) (f : Nat) : Thread := { th with fpflags := th.fpflags ||| BitVec.ofNat 5 f }


/-- Raises REG_RANGE for a register number at or above the allocation (R124). -/
def View.inRange (c : View) (n w : Nat) : Lane Unit :=
  if n + w - 1 < c.alloc ∧ n < 1024 then .ok () else .error (.fault { code := Code.regRange, addr := n })

/-- The register an operand field names: the field itself, or the one R127 computes when it is indirect. `word0` is what
`%tinfo` holds when the computed register is misaligned (R169). -/
def View.resolve (c : View) (word0 field idx : Nat) (ind : Bool) (w : Nat) : Lane Nat :=
  if !ind then
    if field < c.alloc then .ok field else .error (.fault { code := Code.regRange, addr := field })
  else if c.alloc ≤ idx then .error (.fault { code := Code.regRange, addr := idx })
  else
    match Tab.find idx c.th.pend with
    | some j => .error (.park (.future j))
    | none =>
      let n := field + (c.th.v idx).toNat % 2 ^ 10
      if c.th.bad.contains idx then .error (.fault { code := Code.ecc, info := 4, addr := idx })
      else if c.alloc ≤ n + w - 1 then .error (.fault { code := Code.regRange, addr := n })
      else if n % w ≠ 0 then .error (.fault { code := Code.illegalEncoding, info := word0, addr := n })
      else .ok n

/-- Checks a destination that starts at the first register listed. -/
def View.dests (c : View) : List Nat → Lane Unit
  | [] => .ok ()
  | d :: ds => c.inRange d (ds.length + 1)

/-- The registers from `v`n, `w` of them. -/
def regSpan (n w : Nat) : List Nat := (List.range w).map (n + ·)

/-- The first of the registers that holds a pending handle blocks its reader or writer (R121). -/
def View.unpended (c : View) (ns : List Nat) : Lane Unit :=
  match ns.findSome? fun n => Tab.find n c.th.pend with
  | some j => .error (.park (.future j))
  | none => .ok ()

/-- A read of an uncorrectable register raises ECC_UNCORRECTABLE (R37). -/
def View.sound (c : View) (ns : List Nat) : Lane Unit :=
  match ns.find? fun n => c.th.bad.contains n with
  | some n => .error (.fault { code := Code.ecc, info := 4, addr := n })
  | none => .ok ()

/-- The observation of ended jobs by the first read of their handles: the core clock rises to each end time (R72, R121). -/
def State.observe (s : State) (i : Tid) (ns : List Nat) : State :=
  match s.view i with
  | none => s
  | some c =>
    match ns.filterMap fun n => Tab.find n c.th.seen with
    | [] => s
    | ts =>
      (ts.foldl (fun s t => s.raise c.team.clockKey t) s).modThread i fun th =>
        { th with seen := ns.foldl (fun t n => Tab.del n t) th.seen }

/-- Neither a source nor a destination is a pending handle, and the sources are sound (R37, R121). -/
def View.ready (c : View) (srcs dsts : List Nat) : Lane Unit := do
  c.unpended srcs
  c.unpended dsts
  c.sound srcs

/-- Whether a register's job has ended while the thread was blocked on a handle at the instruction where it stands; `k`
register n is named 1024 + n. -/
def View.awaited (c : View) (n : Nat) : Bool := c.th.ends.contains (n, c.th.pc.toNat)

/-- The registers whose jobs an instruction observes: its sources, and the destinations that it was blocked on (R72,
R121). -/
def View.observed (c : View) (srcs dsts : List Nat) : List Nat := srcs ++ dsts.filter c.awaited

/-- A thread's instruction takes effect: what it reads, and the destinations that it was blocked on, are observed (R72,
R121). -/
def State.observed (s : State) (i : Tid) (srcs dsts : List Nat) : State :=
  match s.view i with
  | some c => s.observe i (c.observed srcs dsts)
  | none => s

/-- What a thread does before its instruction takes effect: its registers are ready, and its sources and the destinations
that it was blocked on are observed (R37, R72, R121). -/
def State.claimRegs (s : State) (c : View) (srcs dsts : List Nat) : Lane State := do
  c.ready srcs dsts
  return s.observe c.id (c.observed srcs dsts)

/-- A releasing instruction waits until every earlier access of its thread has been performed: until its peer writes have been
acknowledged (R72, R85, R370). DEDUCED (log 67). -/
def View.performed (c : View) : Lane Unit := if c.th.peerOut.isEmpty then .ok () else .error (.park .replay)

/-- Word 0 of an extended instruction, as `%tinfo` receives it (R169). -/
def word0 (o : XOp) (x : XForm) : Nat := (encodeX o x).headD 0

/-- ILLEGAL_ENCODING at execution: `%tinfo` holds word 0 (R169). -/
def badEncoding (o : XOp) (x : XForm) : LaneStop := .fault { code := Code.illegalEncoding, info := word0 o x }

/-- The registers an extended form's operands name: A, B, C and the index register, with their widths. Width 0: unused. -/
structure OpRegs where
  a : Nat := 0
  b : Nat := 0
  c : Nat := 0
  srcs : List Nat := []

/-- Resolves operands A, B and C of widths `wa`, `wb`, `wc` (R127, R175). A literal stands in place of B. -/
def View.operands (c : View) (o : XOp) (x : XForm) (wa wb wc : Nat) : Lane OpRegs := do
  let w0 := word0 o x
  let a ← if wa = 0 then pure 0 else c.resolve w0 x.a.toNat x.c.toNat x.xa wa
  let useB := wb != 0 && x.lit.isNone
  let b ← if useB then c.resolve w0 x.b.toNat x.c.toNat x.xb wb else pure 0
  let r ← if wc = 0 then pure 0 else c.resolve w0 x.c.toNat 0 false wc
  let index := if (x.xa && wa != 0) || (x.xb && useB) then [x.c.toNat] else []
  return { a, b, c := r
           srcs := regSpan a wa ++ (if useB then regSpan b wb else []) ++ regSpan r wc ++ index }

/-- OpB(t): the literal's low bits or the registers (R158, R175). -/
def View.opB (c : View) (x : XForm) (r : OpRegs) (w : Nat) : Nat :=
  match x.lit with
  | some l => l.toNat % 2 ^ (32 * w)
  | none => c.th.vs r.b w

/-- An instruction that computes from operands of `wa`, `wb` and `wc` registers and writes the registers `dsts` through
`put`. -/
def computeLane (o : XOp) (x : XForm) (wa wb wc : Nat) (dsts : List Nat) (put : Thread → Nat → Thread)
    (f : Nat → Nat → Nat → Nat) (s : State) (c : View) : Lane State := do
  c.dests dsts
  let r ← c.operands o x wa wb wc
  let s ← s.claimRegs c r.srcs dsts
  let v := f (c.th.vs r.a wa) (c.opB x r wb) (c.th.vs r.c wc)
  return s.modThread c.id fun th => put th v

/-! ### The threads of the issue group -/

/-- What one thread's part in an instruction does to the state, and its program counter afterwards. -/
abbrev LaneFn := State → View → Lane (State × Nat)

/-- Runs one thread's part: a false guard only moves it to `next` (R165), a fault is delivered, a wait parks it. -/
def runLane (next : Nat) (g : Option (BitVec 4)) (f : LaneFn) (s : State) (i : Tid) : State :=
  match s.view i with
  | none => s
  | some c =>
    if (g.map c.th.guard).getD true then
      match f s c with
      | .ok (s, pc) => s.modThread i fun th => { th with pc := BitVec.ofNat 64 pc }
      | .error (.fault t) => s.deliver i t next
      | .error (.park w) => s.modThread i fun th => { th with wait := w }
    else s.modThread i fun th => { th with pc := BitVec.ofNat 64 next }

/-- Runs threads in the order given, ascending lane (R70, R175). A lane that waits on a pending handle parks alone and the lanes
after it go on. DESIGN CHOICE (log 78). -/
def runLanes (next : Nat) (g : Option (BitVec 4)) (f : LaneFn) (s : State) (team : Nat) (ts : List Nat) : State :=
  ts.foldl (fun s n => runLane next g f s { team, n }) s

/-- An instruction of `words` words over its issue group; `f` also receives NextPC (R175). -/
def execLanes (words : Nat) (g : Option (BitVec 4)) (f : Nat → LaneFn) (s : State) :
    Host.Outcome State Fault Refusal :=
  match s.ig with
  | none => .fault .noIssueGroup
  | some ig => .next (runLanes (ig.pc + 4 * words) g (f (ig.pc + 4 * words)) s ig.team ig.threads)

/-- Threads that an absent line has parked at their instruction have issued it: the registers that it will write are in flight
(R100, R128). -/
def State.noteParked (s : State) (team : Nat) (ns dsts : List Nat) : State :=
  ns.foldl (fun s n => s.modThread { team, n } fun th =>
    match th.wait with
    | .presence .. => th.issues dsts
    | _ => th) s

/-- `execLanes` for an instruction that reads a forme into the registers `dsts` (R100, R128). -/
def execReads (words : Nat) (dsts : List Nat) (f : Nat → LaneFn) (s : State) : Host.Outcome State Fault Refusal :=
  match s.ig with
  | none => .fault .noIssueGroup
  | some ig =>
    let next := ig.pc + 4 * words
    .next ((runLanes next none (f next) s ig.team ig.threads).noteParked ig.team ig.threads dsts)

/-- Keeps an issue group together when some of its threads are to replay the instruction: those that have done their part of it
wait with them (R297). -/
def State.keepGroup (s : State) (team pc next : Nat) (ns : List Nat) : State :=
  let again := ns.filter fun n => ((s.thread? { team, n }).map fun th => th.wait == .replay).getD false
  if again.isEmpty then s
  else
    ns.foldl (fun s n => s.modThread { team, n } fun th =>
      if th.live && th.wait == .ready && th.pc == BitVec.ofNat 64 next then { th with wait := .along pc again } else th) s

/-- Does each thread's part of an instruction in ascending lane order, up to the first that is to replay it: those after that
one replay it too, for their turn has not come (R70, R175, R333). -/
def State.inOrder (f : State → Tid → State) (team : Nat) : List Nat → State → State
  | [], s => s
  | n :: ns, s =>
    let s := f s { team, n }
    if ((s.thread? { team, n }).map Thread.wait) == some .replay then
      ns.foldl (fun s m => s.modThread { team, n := m } fun th => { th with wait := .replay }) s
    else State.inOrder f team ns s

/-- An instruction of which a thread may have to replay its part: lanes keep their order, and the group is kept together (R175,
R297). -/
def execTogether (words : Nat) (g : Option (BitVec 4)) (f : Nat → LaneFn) (s : State) : Host.Outcome State Fault Refusal :=
  match s.ig with
  | none => .fault .noIssueGroup
  | some ig =>
    let next := ig.pc + 4 * words
    .next ((State.inOrder (runLane next g (f next)) ig.team ig.threads s).keepGroup ig.team ig.pc next ig.threads)

/-- An instruction whose every thread goes on at NextPC. -/
def execSeq (words : Nat) (g : Option (BitVec 4)) (f : State → View → Lane State) (s : State) :
    Host.Outcome State Fault Refusal :=
  execLanes words g (fun next s c => (f s c).map fun s => (s, next)) s

end Sys2Proof.Machine
end

