-- ==== Sys2Proof/Machine/Flags.lean ====
section
/-! DEFINITION. Comparison conditions (R205), the bits of `%fpflags` (Table 7.4), and predicate results. -/

namespace Sys2Proof.Machine

/-- Bits of `%fpflags` (Table 7.4). -/
def fNV : Nat := 1
def fDZ : Nat := 2
def fOF : Nat := 4
def fUF : Nat := 8
def fNX : Nat := 16

/-- The conditions of `cmp` (Table 11.5). -/
def cmpHolds (sub : Nat) (a b : Int) : Bool :=
  match sub with
  | 0 => decide (a = b)
  | 1 => decide (a ≠ b)
  | 2 => decide (a < b)
  | 3 => decide (a ≤ b)
  | 4 => decide (a > b)
  | _ => decide (a ≥ b)

/-- The conditions of `waddr` on the masked value and the masked expected value (R189). -/
def waddrHolds (sub w v e : Nat) : Bool :=
  match sub with
  | 0 => v == e
  | 1 => v != e
  | 2 => decide (v < e)
  | 3 => decide (v ≥ e)
  | 4 => decide (Bits.signed w v < Bits.signed w e)
  | _ => decide (Bits.signed w v ≥ Bits.signed w e)

/-- `pget`: bit i is P(t,i), bit 7 reads 1 (R207). -/
def Thread.predBits (th : Thread) : Nat := th.preds.toNat + 2 ^ 7

/-- `pset`: the predicates `p0` to `p6` that the mask names (R207). -/
def Thread.setPreds (th : Thread) (v mask : Nat) : Thread :=
  (List.range 7).foldl (fun th i => if Bits.bit mask i then th.setP i (Bits.bit v i) else th) th

/-- An instruction that writes a predicate from operands. -/
def predLane (o : XOp) (x : XForm) (wa wb : Nat) (f : Nat → Nat → Bool) (s : State) (c : View) : Lane State := do
  let r ← c.operands o x wa wb 0
  let s ← s.claimRegs c r.srcs []
  let v := f (c.th.vs r.a wa) (c.opB x r wb)
  return s.modThread c.id fun th => th.setP x.d.toNat v

end Sys2Proof.Machine
end

