-- ==== Sys2Proof/Machine/Float.lean ====
section
/-! DEFINITION. Number formats and exact arithmetic (spec/08): values as exact rationals, one rounding, flags. -/

namespace Sys2Proof.Machine

/-! ### Formats (Table 8.2) -/

/-- A floating-point format: exponent and fraction bits, bias. -/
structure Fmt where
  eb : Nat
  fb : Nat
  bias : Nat
  deriving DecidableEq, Repr

def fmtF64 : Fmt := { eb := 11, fb := 52, bias := 1023 }
def fmtF32 : Fmt := { eb := 8, fb := 23, bias := 127 }
def fmtF16 : Fmt := { eb := 5, fb := 10, bias := 15 }
def fmtBf16 : Fmt := { eb := 8, fb := 7, bias := 127 }
def fmtE5m2 : Fmt := { eb := 5, fb := 2, bias := 15 }
def fmtE4m3 : Fmt := { eb := 4, fb := 3, bias := 7 }
def fmtE2m1 : Fmt := { eb := 2, fb := 1, bias := 1 }

/-- The format of a type (Table 8.2). -/
def fmtOf : Ty → Fmt
  | .f64 => fmtF64
  | .f16 => fmtF16
  | .bf16 => fmtBf16
  | .e5m2 => fmtE5m2
  | .e4m3 => fmtE4m3
  | .e2m1 | .e2m1s => fmtE2m1
  | _ => fmtF32

/-- Bits of a value without the sign. -/
def Fmt.magBits (f : Fmt) : Nat := f.eb + f.fb
/-- The exponent of the smallest normal is `1 - bias`. -/
def Fmt.emin (f : Fmt) : Int := 1 - (f.bias : Int)
/-- The largest finite magnitude. -/
def Fmt.maxMag (f : Fmt) : Nat :=
  if f = fmtE4m3 then 0x7E else if f = fmtE2m1 then 7 else (2 ^ f.eb - 1) * 2 ^ f.fb - 1
/-- The magnitude of infinity. -/
def Fmt.infMag (f : Fmt) : Nat := (2 ^ f.eb - 1) * 2 ^ f.fb
/-- The canonical NaN (R141). -/
def Fmt.nan (f : Fmt) : Nat :=
  if f = fmtE4m3 then 0x7F else if f = fmtE2m1 then 0 else (2 ^ f.eb - 1) * 2 ^ f.fb + 2 ^ (f.fb - 1)
/-- The sign bit. -/
def Fmt.sign (f : Fmt) (neg : Bool) : Nat := if neg then 2 ^ f.magBits else 0

/-- A value: NaN, an infinity, or the exact rational `n / d` with its sign (zeros are signed). -/
inductive FVal where
  | nan (signalling : Bool)
  | inf (neg : Bool)
  | num (neg : Bool) (n d : Nat)
  deriving DecidableEq, Repr

/-- The value of bits in a format (R140, R141). -/
def Fmt.decode (f : Fmt) (x : Nat) : FVal :=
  let neg := Bits.bit x f.magBits
  let m := x % 2 ^ f.magBits
  let e := m / 2 ^ f.fb
  let fr := m % 2 ^ f.fb
  if f = fmtE4m3 ∧ m = 0x7F then .nan false
  else if f ≠ fmtE4m3 ∧ f ≠ fmtE2m1 ∧ e = 2 ^ f.eb - 1 then
    if fr = 0 then .inf neg else .nan (decide (fr < 2 ^ (f.fb - 1)))
  else
    let sig := if e = 0 then fr else fr + 2 ^ f.fb
    let ex := max e 1                                     -- value: sig × 2^(ex - bias - fb)
    if f.bias + f.fb ≤ ex then .num neg (sig * 2 ^ (ex - f.bias - f.fb)) 1
    else .num neg sig (2 ^ (f.bias + f.fb - ex))

/-- ⌊log2(n / d)⌋ for positive `n` and `d`. -/
def floorLog2 (n d : Nat) : Int :=
  let e : Int := (Nat.log2 n : Int) - Nat.log2 d
  let below := if 0 ≤ e then decide (n < d * 2 ^ e.toNat) else decide (n * 2 ^ (-e).toNat < d)
  if below then e - 1 else e

/-- `n / d ÷ 2^k` as a fraction. -/
def scaleDown (n d : Nat) (k : Int) : Nat × Nat :=
  if 0 ≤ k then (n, d * 2 ^ k.toNat) else (n * 2 ^ (-k).toNat, d)

/-- Rounding modes: 0 `.rn`, 1 `.rz`, 2 `.rp`, 3 `.rm`. Rounds the magnitude `n / d` to an integer. -/
def roundInt (mode : Nat) (neg : Bool) (n d : Nat) : Nat :=
  let q := n / d
  let r := n % d
  let up := match mode with
    | 0 => decide (d < 2 * r) || (decide (2 * r = d) && q % 2 == 1)
    | 1 => false
    | 2 => !neg && r != 0
    | _ => neg && r != 0
  if up then q + 1 else q

/-- Whether a mode rounds a magnitude toward zero (R149). -/
def towardZero (mode : Nat) (neg : Bool) : Bool := mode == 1 || (mode == 3 && !neg) || (mode == 2 && neg)

/-- The result of an overflow, with OF, NX and, for e4m3, NV (R149). -/
def Fmt.overflow (f : Fmt) (mode : Nat) (neg sat : Bool) : Nat × Nat :=
  let fl := fOF ||| fNX
  if f = fmtE2m1 ∨ sat ∨ towardZero mode neg then (f.sign neg + f.maxMag, fl)
  else if f = fmtE4m3 then (f.nan, fl ||| fNV)
  else (f.sign neg + f.infMag, fl)

/-- Round(type, exact value, mode) of a rational, with its flags (R148, R149). -/
def Fmt.round (f : Fmt) (mode : Nat) (sat neg : Bool) (n d : Nat) : Nat × Nat :=
  if n = 0 then (f.sign neg, 0)
  else
    let e := floorLog2 n d
    let ex := max e f.emin
    let (a, b) := scaleDown n d (ex - (f.fb : Int))
    let m := roundInt mode neg a b
    let inexact := a % b != 0
    let mag := (ex + (f.bias : Int) - 1).toNat * 2 ^ f.fb + m
    if f.maxMag < mag then f.overflow mode neg sat
    else
      let tiny :=
        decide (e < f.emin) &&
          (let (a', b') := scaleDown n d (e - (f.fb : Int))
           !(decide (e + 1 = f.emin) && roundInt mode neg a' b' == 2 ^ (f.fb + 1)))
      (f.sign neg + mag, if inexact then (if tiny then fUF ||| fNX else fNX) else 0)

/-- Delivers any value in a format (R141, R148, R149). -/
def Fmt.deliver (f : Fmt) (mode : Nat) (sat : Bool) : FVal → Nat × Nat
  | .nan _ => (f.nan, if f = fmtE2m1 then fNV else 0)
  | .inf neg =>
    if f = fmtE2m1 then (f.sign neg + f.maxMag, fNX)
    else if sat then (f.sign neg + f.maxMag, fNX)
    else if f = fmtE4m3 then (f.nan, fNV)
    else (f.sign neg + f.infMag, 0)
  | .num neg n d => f.round mode sat neg n d

/-- NV of a signalling NaN input (R141). -/
def FVal.nv : FVal → Nat
  | .nan true => fNV
  | _ => 0

def FVal.isNan : FVal → Bool
  | .nan _ => true
  | _ => false

def FVal.neg : FVal → FVal
  | .nan q => .nan q
  | .inf s => .inf (!s)
  | .num s n d => .num (!s) n d

/-- The exact sum; an exact zero sum of unlike zeros or terms is +0 (R148). The second part is the flags. -/
def FVal.add (a b : FVal) : FVal × Nat :=
  match a, b with
  | .nan _, _ | _, .nan _ => (.nan false, a.nv ||| b.nv)
  | .inf s, .inf t => if s = t then (.inf s, 0) else (.nan false, fNV)
  | .inf s, _ => (.inf s, 0)
  | _, .inf t => (.inf t, 0)
  | .num s n d, .num t m c =>
    let p := n * c
    let q := m * d
    if s = t then (.num s (p + q) (d * c), 0)
    else if p = q then (.num false 0 1, 0)
    else if q < p then (.num s (p - q) (d * c), 0)
    else (.num t (q - p) (d * c), 0)

/-- The exact product (R211). -/
def FVal.mul (a b : FVal) : FVal × Nat :=
  match a, b with
  | .nan _, _ | _, .nan _ => (.nan false, a.nv ||| b.nv)
  | .inf s, .inf t => (.inf (s != t), 0)
  | .inf s, .num t m _ => if m = 0 then (.nan false, fNV) else (.inf (s != t), 0)
  | .num s n _, .inf t => if n = 0 then (.nan false, fNV) else (.inf (s != t), 0)
  | .num s n d, .num t m c => (.num (s != t) (n * m) (d * c), 0)

/-- The exact quotient (Table 8.6). -/
def FVal.div (a b : FVal) : FVal × Nat :=
  match a, b with
  | .nan _, _ | _, .nan _ => (.nan false, a.nv ||| b.nv)
  | .inf _, .inf _ => (.nan false, fNV)
  | .inf s, .num t _ _ => (.inf (s != t), 0)
  | .num s _ _, .inf t => (.num (s != t) 0 1, 0)
  | .num s n d, .num t m c =>
    if m = 0 then (if n = 0 then (.nan false, fNV) else (.inf (s != t), fDZ))
    else (.num (s != t) (n * c) (d * m), 0)

/-- Order of two numbers: -1, 0 or 1; −0 equals +0. -/
def FVal.cmp (a b : FVal) : Int :=
  match a, b with
  | .inf s, .inf t => if s = t then 0 else if s then -1 else 1
  | .inf s, _ => if s then -1 else 1
  | _, .inf t => if t then 1 else -1
  | .num s n d, .num t m c =>
    let x : Int := (if s then -1 else 1) * (n * c : Nat)
    let y : Int := (if t then -1 else 1) * (m * d : Nat)
    if x < y then -1 else if x = y then 0 else 1
  | _, _ => 0

/-- Whether the sign is minus. -/
def FVal.minus : FVal → Bool
  | .nan _ => false
  | .inf s => s
  | .num s _ _ => s

/-- The type's bits of a value used as they are, NaN made canonical. -/
def Fmt.canon (f : Fmt) (x : Nat) : Nat := if (f.decode x).isNan then f.nan else x % 2 ^ (f.magBits + 1)

/-! ### The operations of Table 12.1 on bits: result and flags -/

def faddV (f : Fmt) (a b : Nat) : Nat × Nat :=
  let (v, fl) := (f.decode a).add (f.decode b)
  let (r, fl') := f.deliver 0 false v
  (r, fl ||| fl')

def fsubV (f : Fmt) (a b : Nat) : Nat × Nat :=
  let (v, fl) := (f.decode a).add (f.decode b).neg
  let (r, fl') := f.deliver 0 false v
  (r, fl ||| fl')

def fmulV (f : Fmt) (a b : Nat) : Nat × Nat :=
  let (v, fl) := (f.decode a).mul (f.decode b)
  let (r, fl') := f.deliver 0 false v
  (r, fl ||| fl')

/-- `fma`: one rounding of the exact a × b + c; zero times infinity is invalid whatever c holds (R211). -/
def fmaV (f : Fmt) (a b c : Nat) : Nat × Nat :=
  let (p, fl) := (f.decode a).mul (f.decode b)
  let (v, fl') := p.add (f.decode c)
  let (r, fl'') := f.deliver 0 false v
  (r, fl ||| fl' ||| fl'')

def fdivV (f : Fmt) (a b : Nat) : Nat × Nat :=
  let (v, fl) := (f.decode a).div (f.decode b)
  let (r, fl') := f.deliver 0 false v
  (r, fl ||| fl')

/-- minimumNumber (`hi` false) and maximumNumber (R212). -/
def fminmaxV (hi : Bool) (f : Fmt) (a b : Nat) : Nat × Nat :=
  let x := f.decode a
  let y := f.decode b
  let fl := x.nv ||| y.nv
  if x.isNan then (if y.isNan then f.nan else b % 2 ^ (f.magBits + 1), fl)
  else if y.isNan then (a % 2 ^ (f.magBits + 1), fl)
  else
    let c := x.cmp y
    let aLow := decide (c < 0) || (c == 0 && x.minus)
    (if aLow != hi then a % 2 ^ (f.magBits + 1) else b % 2 ^ (f.magBits + 1), fl)

/-- `fabs`, `fneg`, `fsgn`: the sign that `sg` gives from the operands' sign bits; NaN is canonical first (R213). -/
def fsignV (sg : Bool → Bool → Bool) (f : Fmt) (a b : Nat) : Nat × Nat :=
  let sa := Bits.bit a f.magBits
  let sb := Bits.bit b f.magBits
  let nanA := (f.decode a).isNan
  let m := f.canon a % 2 ^ f.magBits
  (f.sign (sg (if nanA then false else sa) sb) + m, (f.decode a).nv ||| (f.decode b).nv)

/-- `frnd` (R214). -/
def frndV (mode : Nat) (f : Fmt) (a : Nat) : Nat × Nat :=
  match f.decode a with
  | .nan q => (f.nan, if q then fNV else 0)
  | .inf s => (f.sign s + f.infMag, 0)
  | .num s n d =>
    let m := roundInt mode s n d
    ((f.round 0 false s m 1).1, if n % d = 0 then 0 else fNX)

/-- Conditions of `fcmp` (Table 12.4): result and flags. -/
def fcmpV (sub : Nat) (f : Fmt) (a b : Nat) : Bool × Nat :=
  let x := f.decode a
  let y := f.decode b
  let un := x.isNan || y.isNan
  let sig := x.nv ||| y.nv
  let c := x.cmp y
  match sub with
  | 0 => (!un && c == 0, sig)
  | 1 => (un || c != 0, sig)
  | 2 => (!un && decide (c < 0), if un then fNV else 0)
  | 3 => (!un && decide (c ≤ 0), if un then fNV else 0)
  | 4 => (!un && decide (c > 0), if un then fNV else 0)
  | 5 => (!un && decide (c ≥ 0), if un then fNV else 0)
  | 6 => (un, sig)
  | _ => (!un, sig)

/-! ### Square roots -/

/-- ⌊√n⌋ for `n < 4^k`, bit by bit. -/
def isqrt : Nat → Nat → Nat → Nat
  | 0, _, r => r
  | k + 1, n, r => if (r + 2 ^ k) * (r + 2 ^ k) ≤ n then isqrt k n (r + 2 ^ k) else isqrt k n r

/-- A rational that rounds as √(n / d) does: its root to 80 bits, with a sticky bit below. -/
def sqrtApprox (n d : Nat) : Nat × Nat :=
  let e := floorLog2 n d
  let k : Int := 80 - e / 2                               -- scale by 4^k: the root keeps about 80 bits
  let (a, b) := scaleDown n d (-2 * k)
  let q := a / b
  let r := isqrt 90 q 0
  let exact := decide (r * r = q) && a % b == 0
  let m := 2 * r + (if exact then 0 else 1)
  if 0 ≤ k then (m, 2 * 2 ^ k.toNat) else (m * 2 ^ (-k).toNat, 2)

/-- `fsqrt` (Table 8.6). -/
def fsqrtV (f : Fmt) (a : Nat) : Nat × Nat :=
  match f.decode a with
  | .nan q => (f.nan, if q then fNV else 0)
  | .inf s => if s then (f.nan, fNV) else (f.infMag, 0)
  | .num s n d =>
    if n = 0 then (f.sign s, 0)
    else if s then (f.nan, fNV)
    else
      let (m, c) := sqrtApprox n d
      f.round 0 false false m c

/-! ### Special functions (R156, R215). A result that is not one of the exact cases is a free choice among the values
within 1 ulp of the exact one, which is computed to 2^-300 here (log 14). -/

/-- Fraction bits of the fixed-point evaluations. -/
def fix : Nat := 320
/-- ln 2 in units of 2^-320. -/
def ln2 : Int :=
  0xb17217f7d1cf79abc9e3b39803f2f6af40f343267298b62d8a0d175b8baafa2be7b876206debac98
/-- π in units of 2^-320. -/
def piFix : Int :=
  0x3243f6a8885a308d313198a2e03707344a4093822299f31d0082efa98ec4e6c89452821e638d01377

/-- Σ zᵏ ÷ k! in fixed point, from term `t` number `k`. -/
def expSeries (z : Int) : Nat → Nat → Int → Int
  | 0, _, _ => 0
  | n + 1, k, t => t + expSeries z n (k + 1) (t * z / 2 ^ fix / (k : Int))

/-- 2^f for a fraction 0 ≤ f < 1 in fixed point. -/
def exp2Fix (f : Int) : Int := expSeries (f * ln2 / 2 ^ fix) 90 1 (2 ^ fix)

/-- Σ z^(2k+1) ÷ (2k+1): atanh in fixed point. -/
def atanhSeries (z2 : Int) : Nat → Nat → Int → Int
  | 0, _, _ => 0
  | n + 1, k, t => t / ((2 * k + 1 : Nat) : Int) + atanhSeries z2 n (k + 1) (t * z2 / 2 ^ fix)

/-- log2 of n / d between 1 and 2, in fixed point. -/
def log2Fix (n d : Nat) : Int :=
  let z := ((n : Int) - d) * 2 ^ fix / ((n : Int) + d)
  2 * atanhSeries (z * z / 2 ^ fix) 110 0 z * 2 ^ fix / ln2

/-- Σ (−1)^k θ^(2k+j) ÷ (2k+j)!: sine for j = 1, cosine for j = 0. -/
def trigSeries (t2 : Int) : Nat → Nat → Int → Int
  | 0, _, _ => 0
  | n + 1, k, t => t + trigSeries t2 n (k + 2) (-(t * t2 / 2 ^ fix) / ((k * (k + 1) : Nat) : Int))

def sinFix (theta : Int) : Int := trigSeries (theta * theta / 2 ^ fix) 70 2 theta
def cosFix (theta : Int) : Int := trigSeries (theta * theta / 2 ^ fix) 70 1 (2 ^ fix)

/-- ulp(y) of n / d as a fraction (R156, R215). -/
def Fmt.ulp (f : Fmt) (n d : Nat) : Nat × Nat := scaleDown 1 1 (-(max (floorLog2 n d) f.emin - (f.fb : Int)))

/-- Whether the value of magnitude `m` is within 1 ulp of n / d. -/
def Fmt.within (f : Fmt) (n d m : Nat) : Bool :=
  match f.decode m with
  | .num _ a b =>
    let (u, v) := f.ulp n d
    let diff := if a * d ≤ n * b then n * b - a * d else a * d - n * b   -- over b × d
    decide (m ≤ f.maxMag) && decide (diff * v < u * (b * d))
  | _ => false

/-- A free value within 1 ulp of the exact n / d, with the flags of an inexact result (R156). -/
def Fmt.near (f : Fmt) (op x : Nat) (neg : Bool) (n d : Nat) : Nat × Nat :=
  let (r, fl) := f.round 1 false false n d
  if Bits.bit fl 2 then (f.sign neg + f.infMag, fOF ||| fNX)
  else
    let cands := [r - 1, r, r + 1].filter (f.within n d)
    let m := cands.getD (Config.specialFn op (f.eb * 64 + f.fb) x % cands.length) r
    (f.sign neg + m, fNX ||| ((f.round 0 false false n d).2 &&& fUF))

/-- An exact case, or a free value within 1 ulp. -/
def Fmt.nearOrExact (f : Fmt) (op x : Nat) (neg : Bool) (n d : Nat) : Nat × Nat :=
  let (r, fl) := f.round 0 false neg n d
  if fl = 0 then (r, 0)
  else if Bits.bit fl 2 then (f.sign neg + f.infMag, fOF ||| fNX)
  else f.near op x neg n d

/-- `frcp` (Table 8.6). -/
def frcpV (f : Fmt) (a : Nat) : Nat × Nat :=
  match f.decode a with
  | .nan q => (f.nan, if q then fNV else 0)
  | .inf s => (f.sign s, 0)
  | .num s n d => if n = 0 then (f.sign s + f.infMag, fDZ) else f.nearOrExact 0x38 a s d n

/-- `frsq` (Table 8.6). -/
def frsqV (f : Fmt) (a : Nat) : Nat × Nat :=
  match f.decode a with
  | .nan q => (f.nan, if q then fNV else 0)
  | .inf s => if s then (f.nan, fNV) else (0, 0)
  | .num s n d =>
    if n = 0 then (f.sign s + f.infMag, fDZ)
    else if s then (f.nan, fNV)
    else
      let (m, c) := sqrtApprox d n
      f.nearOrExact 0x39 a false m c

/-- `fex2` (Table 8.6). -/
def fex2V (f : Fmt) (a : Nat) : Nat × Nat :=
  match f.decode a with
  | .nan q => (f.nan, if q then fNV else 0)
  | .inf s => if s then (0, 0) else (f.infMag, 0)
  | .num s n d =>
    let x : Int := (if s then -1 else 1) * (n : Int)
    let i := x / (d : Int)                                -- ⌊x⌋
    let r := x % (d : Int)
    if 2000 < i then (f.infMag, fOF ||| fNX)
    else if i < -2000 then f.near 0x3C a false 1 (2 ^ 1000)
    else
      let p := if r = 0 then (2 ^ fix : Int) else exp2Fix (r * 2 ^ fix / (d : Int))
      let (u, v) := scaleDown p.toNat (2 ^ fix) (-i)
      if r = 0 then f.nearOrExact 0x3C a false u v else f.near 0x3C a false u v

/-- `flg2` (Table 8.6). -/
def flg2V (f : Fmt) (a : Nat) : Nat × Nat :=
  match f.decode a with
  | .nan q => (f.nan, if q then fNV else 0)
  | .inf s => if s then (f.nan, fNV) else (f.infMag, 0)
  | .num s n d =>
    if n = 0 then (f.sign true + f.infMag, fDZ)
    else if s then (f.nan, fNV)
    else
      let e := floorLog2 n d
      let (u, v) := scaleDown n d e
      if u = v then f.round 0 false (decide (e < 0)) e.natAbs 1
      else
        let y := e * 2 ^ fix + log2Fix u v
        f.near 0x3D a (decide (y < 0)) y.natAbs (2 ^ fix)

/-- `fsinr` (`cos` false) and `fcosr`: the argument in turns, reduced exactly (R156). -/
def fturnV (cos : Bool) (f : Fmt) (a : Nat) : Nat × Nat :=
  match f.decode a with
  | .nan q => (f.nan, if q then fNV else 0)
  | .inf _ => (f.nan, fNV)
  | .num s n d =>
    let q := 4 * n                                        -- |x| in quarter turns is q / d
    if q % d = 0 then
      let k := q / d % 4
      let one := (f.round 0 false false 1 1).1
      if cos then (if k = 0 then one else if k = 2 then f.sign true + one else 0, 0)
      else if k % 2 = 0 then (f.sign s, 0)
      else (f.sign ((k == 3) != s) + one, 0)
    else
      let theta := 2 * piFix * ((n % d * 2 ^ fix / d : Nat) : Int) / 2 ^ fix
      let y := if cos then cosFix theta else (if s then -1 else 1) * sinFix theta
      f.near (if cos then 0x3F else 0x3E) a (decide (y < 0)) y.natAbs (2 ^ fix)

end Sys2Proof.Machine
end

