-- ==== Sys2Proof/Machine/Place.lean ====
section
/-! DEFINITION. Physical location (R23 to R25, R52), the contents of lines, uncorrectable words (R37), messages (R46). -/

namespace Sys2Proof.Machine

/-! ### Regions of the device physical space (R23 to R25) -/

/-- Base of the stack-linear regions. -/
def linearBase : Nat := 0x400000000000
/-- Bytes from one stack-linear base to the next. -/
def linearStride : Nat := 0x1000000000

/-- Whether a device physical address lies in the interleaved region. -/
def isInterleaved (pa : Nat) : Bool := decide (pa < Config.stackCount * Config.interleaved)

/-- The stack in whose stack-linear region an address lies. -/
def linearStack (pa : Nat) : Option Nat :=
  let s := (pa - linearBase) / linearStride
  if linearBase ≤ pa ∧ s < Config.stackCount ∧ (pa - linearBase) % linearStride < Config.stackBytes - Config.interleaved then
    some s
  else none

/-- Whether device memory backs an address (R23). -/
def isBacked (pa : Nat) : Bool := isInterleaved pa || (linearStack pa).isSome

/-- The stack of a backed address (R24). -/
def stackOf (pa : Nat) : Nat := (linearStack pa).getD (pa / 4096 % Config.stackCount)

/-- Bytes 26:17 and 16:7 of the home-slice function (R25). -/
def homeInStack (pa : Nat) : Nat := (Bits.field pa 7 10 ^^^ Bits.field pa 17 10) % 12

/-! ### Lines -/

/-- First number of a host line: lines are numbered pa / 128, host lines from 2^52. -/
def hostLineBase : Nat := 2 ^ 52

/-- The line of a device physical address. -/
def deviceLine (pa : Nat) : Nat := pa / 128
/-- The line of a host physical address. -/
def hostLine (pa : Nat) : Nat := hostLineBase + pa / 128
/-- Whether a line is a host line. -/
def isHostLine (ln : Nat) : Bool := decide (hostLineBase ≤ ln)
/-- The first physical address of a line. -/
def lineBase (ln : Nat) : Nat := if isHostLine ln then (ln - hostLineBase) * 128 else ln * 128

/-- The CXL port as home of host lines (R56). -/
def portHome : Nat := 144

/-- A line's home: a device-wide slice number (R11, R25), or the port. -/
def homeOf (ln : Nat) : Nat :=
  if isHostLine ln then portHome else stackOf (lineBase ln) * 12 + homeInStack (lineBase ln)

/-- A line's set in its home slice (R38). -/
def homeSet (ln : Nat) : Nat := Bits.field (lineBase ln) 7 10 ^^^ Bits.field (lineBase ln) 27 10

/-! ### Uncorrectable words (R37) -/

/-- Arrays of ECC_UNCORRECTABLE (Table 23.1): bits 3:0 of `%tinfo`. -/
def arrHbm : Nat := 1
def arrHome : Nat := 2
def arrSram : Nat := 3
def arrGalley : Nat := 5

/-- The first addresses of the 8-byte units that `n` bytes touch. -/
def unitsOf (pa n : Nat) : List Nat := (List.range ((pa + n + 7) / 8 - pa / 8)).map fun i => pa / 8 * 8 + 8 * i

/-- Whether `n` bytes overwrite the whole word of an array that holds a unit: 64 bytes of HBM, 8 bytes of an L2 or SRAM
slice (Table 2.11). -/
def wordCovered (array pa n u : Nat) : Bool :=
  if array = arrHbm then decide (pa ≤ u / 64 * 64) && decide (u / 64 * 64 + 64 ≤ pa + n)
  else decide (pa ≤ u) && decide (u + 8 ≤ pa + n)

/-- Key in a line's data of the mark of the 8-byte unit at an offset. A copy of a line carries, beside its 128 bytes, a mark
for each unit whose check bits show an uncorrectable error: the array in which it arose (R37). DESIGN CHOICE (log 5). -/
def markKey (u : Nat) : Nat := 128 + u / 8

/-- The mark of a copy's unit. -/
def lineMark (d : LineData) (u : Nat) : Option Nat := (Tab.find (markKey u) d).map BitVec.toNat

/-- The array of the first uncorrectable unit of a copy that a read of `n` bytes meets. -/
def lineBadRead (d : LineData) (off n : Nat) : Option Nat := (unitsOf off n).findSome? fun u => lineMark d u

/-- The array of the first uncorrectable word of a copy that a write of `n` bytes does not overwrite whole (R37). -/
def lineBadWrite (d : LineData) (off n : Nat) : Option Nat :=
  (unitsOf off n).findSome? fun u => (lineMark d u).filter fun a => !wordCovered a off n u

/-- The first uncorrectable word of a copy. -/
def lineBad (d : LineData) : Option Nat := lineBadRead d 0 128

/-- Forgets the marks of units of a copy. -/
def lineSound (d : LineData) (us : List Nat) : LineData := us.foldl (fun d u => Tab.del (markKey u) d) d

/-- The 128 bytes of a copy without its marks. -/
def lineBytes (d : LineData) : LineData := d.filter fun p => p.1 < 128

/-- Bytes `off` to `off + n - 1` of a line. -/
def lineRead (d : LineData) (off n : Nat) : Nat := readBytes d off n
/-- Replaces bytes of a line; a word that they cover whole is sound from then on (R37). -/
def lineWrite (d : LineData) (off n v : Nat) : LineData :=
  writeBytes (lineSound d ((unitsOf off n).filter fun u => (lineMark d u).any fun a => wordCovered a off n u)) off n v

/-- Key of the 8-byte unit of HBM or host memory that holds an address. A 64-byte word of HBM that is uncorrectable is marked
in each of its eight units (Table 2.11). -/
def badMem (host : Bool) (pa : Nat) : Nat := (if host then 2 ^ 58 else 0) + pa / 8
/-- Key of an 8-byte unit of a forme. -/
def badForme (team off : Nat) : Nat := 2 ^ 61 + team * 2 ^ 20 + off / 8
/-- Key of a slug word. -/
def badSlug (team part name word : Nat) : Nat := 2 ^ 62 + ((team * 4 + part) * 16 + name) * 1024 + word

/-- The array of an uncorrectable word, if it is one. DESIGN CHOICE (log 5). -/
def State.badAt (s : State) (key : Nat) : Option Nat := Tab.find key s.bad

/-- The array of the first uncorrectable unit of HBM that a read of `n` bytes meets. -/
def State.badRead (s : State) (pa n : Nat) : Option Nat :=
  (unitsOf pa n).findSome? fun u => s.badAt (badMem false u)

/-- The array of the first uncorrectable word of HBM that a write of `n` bytes does not overwrite whole (R37). -/
def State.badWrite (s : State) (pa n : Nat) : Option Nat :=
  (unitsOf pa n).findSome? fun u => (s.badAt (badMem false u)).filter fun a => !wordCovered a pa n u

/-- Forgets the marks of the words of HBM that `n` bytes overwrite whole (R37). -/
def State.healMem (s : State) (pa n : Nat) : State :=
  { s with bad := (unitsOf pa n).foldl (fun b u =>
      match Tab.find (badMem false u) b with
      | some a => if wordCovered a pa n u then Tab.del (badMem false u) b else b
      | none => b) s.bad }

/-- The marks of a line in the memory that backs it, as a copy carries them. -/
def State.marksOf (s : State) (ln : Nat) : LineData :=
  (List.range 16).filterMap fun i =>
    (s.badAt (badMem (isHostLine ln) (lineBase ln) + i)).map fun a => (markKey (8 * i), BitVec.ofNat 8 a)

/-- A copy's marks go to the memory that backs the line: the check bits are copied unchanged (R37). -/
def State.putMarks (s : State) (ln : Nat) (d : LineData) : State :=
  let key := badMem (isHostLine ln) (lineBase ln)
  { s with bad := (List.range 16).foldl (fun b i =>
      match lineMark d (8 * i) with
      | some a => Tab.put (key + i) a b
      | none => Tab.del (key + i) b) s.bad }

/-- A line as the memory that backs it holds it: its bytes and their marks. -/
def State.backing (s : State) (ln : Nat) : LineData :=
  (if isHostLine ln then lineOf s.hostMem (lineBase ln) else lineOf s.hbm (lineBase ln)) ++ s.marksOf ln

/-- Writes a line, with its marks, to the memory that backs it. -/
def State.putBacking (s : State) (ln : Nat) (d : LineData) : State :=
  (if isHostLine ln then { s with hostMem := putLine s.hostMem (lineBase ln) d }
   else { s with hbm := putLine s.hbm (lineBase ln) d } : State).putMarks ln d

/-- Marks a stored word as uncorrectable: of HBM all eight units of its 64-byte word (Table 2.11); of a forme or a slug the
unit or word of its key. Host memory is no array of the part. -/
def State.markBad (s : State) (key array : Nat) : State :=
  if key < 2 ^ 58 then { s with bad := (List.range 8).foldl (fun b i => Tab.put (key / 8 * 8 + i) arrHbm b) s.bad }
  else if key < 2 ^ 60 then s
  else { s with bad := Tab.put key array s.bad }

/-- Counts an event in the error counters: by array (R36, R37). -/
def State.countError (s : State) (array : Nat) : State :=
  { s with errors := Tab.set 0 array (Tab.getD s.errors array 0 + 1) s.errors }

/-- A write-back or eviction that carries an uncorrectable line is logged (R37). -/
def State.logLine (s : State) (d : LineData) : State :=
  match lineBad d with
  | some a => s.countError a
  | none => s

/-! ### Power (R419) -/

/-- Whether a die has power. -/
def State.hasPower (s : State) (die : Nat) : Bool := Tab.getD s.powered die true
/-- The die of a line's home; the port stays powered. -/
def homeDie (ln : Nat) : Option Nat := if isHostLine ln then none else some (dieOfStack (stackOf (lineBase ln)))
/-- Whether a line's home has power. -/
def State.homePowered (s : State) (ln : Nat) : Bool := ((homeDie ln).map s.hasPower).getD true

/-! ### Homes, regions, messages -/

def State.home (s : State) (h : Nat) : Home := Tab.getD s.homes h {}
def State.modHome (s : State) (h : Nat) (f : Home → Home) : State := { s with homes := Tab.put h (f (s.home h)) s.homes }
def State.region (s : State) (r : Nat) : Region := Tab.getD s.regions r {}
def State.modRegion (s : State) (r : Nat) (f : Region → Region) : State :=
  { s with regions := Tab.put r (f (s.region r)) s.regions }

/-! ### Region slices (R52) -/

/-- A line's slice in every region (R52). -/
def sliceOf (ln : Nat) : Nat := (Bits.field (lineBase ln) 7 9 ^^^ Bits.field (lineBase ln) 16 9) % 12

/-- The core beside a slice of a region: slices are counted in die-local core order (R9, R52). -/
def sliceCore (r i : Nat) : Nat := r / 8 * 96 + r % 8 / 4 * 48 + i / 3 * 12 + r % 4 * 3 + i % 3

/-- Bytes of a core's SRAM slice that forme allocations hold (R91). -/
def State.formeHeld (s : State) (core : Nat) : Nat :=
  ((s.formes.filter fun (_, f) => f.core == core).map fun (_, f) => f.size).sum

/-- Lines that a slice's L1 part holds: 512 KiB less the forme allocations on its core, at least 64 KiB (R52). -/
def State.sliceLines (s : State) (core : Nat) : Nat := max 512 ((524288 - s.formeHeld core) / 128)

/-- Whether two lines fall in one set of one slice; a slice has 256 sets of 16 ways (R13, R54). -/
def sameSet (a b : Nat) : Bool := sliceOf a == sliceOf b && Config.sliceSet a % 256 == Config.sliceSet b % 256

/-- Sends a message under a fresh tag. -/
def State.send (s : State) (m : Msg) : State :=
  { s with net := Tab.put s.nextTag m s.net, nextTag := s.nextTag + 1 }

/-- Classes of messages that keep their order between one sender and one receiver (R46): requests and answers to the home,
forwards to a region, replies to a region, wakes. -/
def MsgKind.cls : MsgKind → Nat
  | .req _ | .wb | .answer _ | .fwdGone => 0
  | .fwdS | .fwdX | .disc _ => 1
  | .data | .renew | .dataX | .grantX | .wbAck | .nack _ => 2
  | .wake .. => 3
  | .retry .. => 4

/-- Whether no earlier message of the same class between the same two is still under way (R46). -/
def State.isNext (s : State) (tag : Nat) (m : Msg) : Bool :=
  m.kind.cls == 4 || s.net.all fun (t, n) =>
    decide (tag ≤ t) || n.kind.cls != m.kind.cls || n.region != m.region || homeOf n.line != homeOf m.line

/-- The message with a tag, if it may arrive now. -/
def State.arriving (s : State) (tag : Nat) : Option Msg :=
  match Tab.find tag s.net with
  | some m => if s.isNext tag m then some m else none
  | none => none

/-- Takes a message out of flight. -/
def State.taken (s : State) (tag : Nat) : State := { s with net := Tab.del tag s.net }

/-- Whether a line lies in a call's ranges. -/
def Call.covers (c : Call) (ln : Nat) : Bool := c.lines.any fun r => decide (r.1 ≤ ln) && decide (ln < r.1 + r.2)

/-- Whether some line of a call's ranges satisfies `p`. -/
def Call.anyLine (c : Call) (p : Nat → Bool) : Bool := c.lines.any fun r => (List.range r.2).any fun k => p (r.1 + k)

/-- Whether a call has passed step 1 and not yet step 5 with a line in its ranges: a reduction packet for it waits
(R276). -/
def State.heldByCall (s : State) (ln : Nat) : Bool :=
  s.platens.any fun (_, p) => p.calls.any fun (_, c) => c.phase != .drain && c.phase != .ret && c.covers ln

/-- Whether some platen call has lent a line and not yet ended the loan (R62). -/
def State.isLent (s : State) (ln : Nat) : Bool :=
  s.platens.any fun (_, p) => p.calls.any fun (_, c) => c.phase == .run && c.covers ln

/-- Whether the wait table watches a line (R61). -/
def State.isWatched (s : State) (ln : Nat) : Bool :=
  !isHostLine ln && (s.home (homeOf ln)).waits.any fun (_, w) => deviceLine w.addr == ln

end Sys2Proof.Machine
end

