-- ==== Sys2Proof/Machine/Forme.lean ====
section
/-! DEFINITION. The forme: window addresses (R17), banks with their times (R66), full/empty words (R96, R97), presence (R99,
R100), tagged words (R106). -/

namespace Sys2Proof.Machine

/-- First address of the forme window (R17). -/
def windowBase : Nat := 0x01FFFFFFFF000000

/-- Whether an address lies in the window. -/
def inWindow (va : Nat) : Bool := decide (windowBase ≤ va) && decide (va < 2 ^ 57)

/-- The window address of an offset of the team at a cluster rank. -/
def windowAddr (rank off : Nat) : Nat := windowBase + rank * 2 ^ 20 + off

/-- The team and offset that a window address names for a cluster (R17). -/
def State.windowAt (s : State) (cluster va : Nat) : Option (Nat × Nat) :=
  let rank := (va - windowBase) / 2 ^ 20
  let off := (va - windowBase) % 2 ^ 20
  match (Tab.find cluster s.clusters).bind fun c => c.teams[rank]? with
  | none => none
  | some k => match Tab.find k s.formes with
    | some f => if inWindow va ∧ rank < 12 ∧ off < f.size then some (k, off) else none
    | none => none

def State.forme (s : State) (k : Nat) : Forme := (Tab.find k s.formes).getD { size := 0, cluster := 0, core := 0 }
def State.modForme (s : State) (k : Nat) (f : Forme → Forme) : State := { s with formes := Tab.modify k f s.formes }

/-- The address by which the team itself is reached in its cluster's window. -/
def State.windowOf (s : State) (k off : Nat) : Nat :=
  let ranks := ((Tab.find (s.forme k).cluster s.clusters).map Cluster.teams).getD []
  windowAddr (ranks.idxOf k) off

/-- A word's full/empty bit, a line's presence state, a word's object tag. -/
def Forme.isFull (f : Forme) (off : Nat) : Bool := Tab.getD f.full (off / 4) false
def Forme.presence (f : Forme) (line : Nat) : Nat := Tab.getD f.pres line 0
def Forme.tagged (f : Forme) (off : Nat) : Bool := Tab.getD f.tag (off / 4) false

/-- A load at the bank: value and new clock (R43, R66). -/
def Forme.load (f : Forme) (off n pts : Nat) : Forme × Nat × Nat :=
  let ln := off / 128
  let pts := max pts (Tab.getD f.wts ln 0)
  ({ f with rts := Tab.set 0 ln (max (Tab.getD f.rts ln 0) pts) f.rts }, readBytes f.data off n, pts)

/-- The times of a write at the bank (R43, R66). -/
def Forme.stamp (f : Forme) (off pts : Nat) : Forme × Nat :=
  let ln := off / 128
  let t := max pts (Tab.getD f.rts ln 0 + 1)
  ({ f with wts := Tab.set 0 ln t f.wts, rts := Tab.set 0 ln t f.rts }, t)

/-- A store at the bank: new clock (R43, R66). -/
def Forme.store (f : Forme) (off n v pts : Nat) : Forme × Nat :=
  let (f, t) := f.stamp off pts
  ({ f with data := writeBytes f.data off n v }, t)

/-- The first tagged word that an access of `n` bytes touches (R106). -/
def Forme.taggedAt (f : Forme) (off n : Nat) : Option Nat :=
  ((List.range ((n + off % 4 + 3) / 4)).map fun i => off / 4 * 4 + 4 * i).find? fun w => f.tagged w

/-- An absent line parks an access, a faulted one raises COPY_FAULTED (R100). -/
def State.presenceCheck (s : State) (k off va : Nat) : Lane Unit :=
  let f := s.forme k
  match f.presence (off / 128) with
  | 1 => .error (.park (.presence k (off / 128) va))
  | 2 => .error (.fault { code := Code.copyFaulted, info := Tab.getD f.cause (off / 128) 0, addr := va })
  | _ => .ok ()

/-- Whether an access of `n` bytes meets an uncorrectable unit that it does not overwrite whole. -/
def State.badUnits (s : State) (k off n : Nat) (whole : Bool) : Bool :=
  !(whole && decide (8 ≤ n)) && (List.range ((n + 7) / 8)).any fun i => (s.badAt (badForme k (off + 8 * i))).isSome

/-- What a thread's access meets at the bank before it is performed: an absent line, a faulted line, a tagged word, an
uncorrectable unit that it does not overwrite whole (checks 6 and 7 of R177). `whole`: a store, which replaces the units it
covers. -/
def State.formeCheck (s : State) (k off n va : Nat) (whole : Bool) : Lane Unit :=
  match s.presenceCheck k off va with
  | .error e => .error e
  | .ok () =>
    match (s.forme k).taggedAt off n with
    | some w => .error (.fault { code := Code.clobber, addr := va + w - off })
    | none =>
      if s.badUnits k off n whole then .error (.fault { code := Code.ecc, info := arrSram, addr := va }) else .ok ()

/-- A store of whole 8-byte units forgets their marks (R37). -/
def State.healForme (s : State) (k off n : Nat) : State :=
  if 8 ≤ n then
    { s with bad := (List.range (n / 8)).foldl (fun b i => Tab.del (badForme k (off + 8 * i)) b) s.bad }
  else s

/-! ### Full/empty words (R96 to R98) -/

/-- Performs a waiter's access: an `ldfe` reads and may empty the word, an `stfe` writes and fills it; the thread goes on. An
uncorrectable unit raises ECC_UNCORRECTABLE in the waiting thread (R37). -/
def State.serveWaiter (s : State) (k : Nat) (w : WordWait) : State :=
  match s.team? w.tid.team with
  | none => s
  | some t =>
    if s.badUnits k w.off 4 false then
      let s := s.modForme k fun f => { f with waiters := f.waiters.erase w }
      let t : Trap := { code := Code.ecc, info := arrSram, addr := s.windowOf k w.off }
      (s.modThread w.tid fun th => { th with wait := .ready }).deliver w.tid t w.next
    else
    let pts := s.clock t.clockKey
    let f := s.forme k
    let f := { f with waiters := f.waiters.erase w }
    let (f, v, pts) :=
      if w.full then
        if w.fe then
          let v := readBytes f.data w.off 4
          let (f, t) := f.stamp w.off pts
          ({ f with full := Tab.set false (w.off / 4) false f.full }, v, t)
        else f.load w.off 4 pts
      else
        let (f, t) := f.store w.off 4 w.value pts
        ({ f with full := Tab.set false (w.off / 4) true f.full }, 0, t)
    let s := (s.modForme k fun _ => f).raise t.clockKey pts
    s.modThread w.tid fun th =>
      let th := if w.full then th.setV w.dreg v else th
      { th with
        wait := .ready, age := 0, pc := BitVec.ofNat 64 w.next
        spins := th.spins.map fun x => { x with changed := true } }

/-- Waiters on a word are served in parking order while the word's state satisfies the first that can go on (R97). -/
def State.serveWord (s : State) (k off : Nat) : Nat → State
  | 0 => s
  | fuel + 1 =>
    let f := s.forme k
    match f.waiters.find? fun w => w.off == off && w.full == f.isFull off with
    | none => s
    | some w => (s.serveWaiter k w).serveWord k off fuel

/-- Sets a word's full/empty bit and serves its waiters. -/
def State.setFull (s : State) (k off : Nat) (b : Bool) : State :=
  let s := s.modForme k fun f => { f with full := Tab.set false (off / 4) b f.full }
  s.serveWord k off ((s.forme k).waiters.length)

/-! ### Presence (R99, R100) -/

/-- Threads parked on an absent line, with the address each accessed, in team and lane order. An `ldfe` or `stfe` that waits on
a full/empty state is not among them and stays parked when its line becomes absent or faulted. DESIGN CHOICE (log 75). -/
def State.parkedAt (s : State) (k line : Nat) : List (Tid × Nat) :=
  s.teams.flatMap fun (tk, t) => t.threads.filterMap fun (n, th) =>
    match th.wait with
    | .presence k' line' va => if k' = k ∧ line' = line then some ({ team := tk, n }, va) else none
    | _ => none

/-- A line leaves the absent state for present: its parked accesses are tried again (R100). -/
def State.linePresent (s : State) (k line : Nat) : State :=
  let s := s.modForme k fun f => { f with pres := Tab.set 0 line 0 f.pres, writer := Tab.del line f.writer }
  (s.parkedAt k line).foldl (fun s (i, _) => s.modThread i fun th => { th with wait := .ready, age := 0 }) s

/-- A line becomes faulted: its parked accesses raise COPY_FAULTED in lane order (R99, R100). -/
def State.lineFaulted (s : State) (k line status : Nat) : State :=
  let parked := s.parkedAt k line
  let s := s.modForme k fun f =>
    { f with
      pres := Tab.set 0 line 2 f.pres, writer := Tab.del line f.writer, cause := Tab.set 0 line status f.cause }
  parked.foldl (fun s (i, va) =>
    (s.modThread i fun th => { th with wait := .ready }).deliver i
      { code := Code.copyFaulted, info := status, addr := va } 0) s

/-- A line becomes absent at a job's issue; that job is now its last writer (R79, R99). -/
def State.lineAbsent (s : State) (k line job : Nat) : State :=
  s.modForme k fun f => { f with pres := Tab.set 0 line 1 f.pres, writer := Tab.put line job f.writer }

end Sys2Proof.Machine
end

