-- ==== Sys2Proof/Machine/Home.lean ====
section
/-! DEFINITION. Home slices and the CXL port as home of host lines: states, directory, queue, grants, recalls, installations (R38 to R62). -/

namespace Sys2Proof.Machine

/-- A line as its home holds it; one that is not resident is in H with the slice's MTS as both times (R40). -/
def State.lineAt (s : State) (ln : Nat) : HomeLine :=
  let h := s.home (homeOf ln)
  (Tab.find ln h.lines).getD { data := s.backing ln, wts := h.mts, rts := h.mts }

/-- Whether a line is resident in its home. -/
def State.isResident (s : State) (ln : Nat) : Bool := Tab.has (s.home (homeOf ln)).lines ln

/-- The state of a line at its home (Table 3.1); L is held in the loan record of the call (R40). -/
def State.lineState (s : State) (ln : Nat) : HState := if s.isLent ln then .l else (s.lineAt ln).state

/-- Stores a line in its home. -/
def State.putLineAt (s : State) (ln : Nat) (l : HomeLine) : State :=
  s.modHome (homeOf ln) fun h => { h with lines := Tab.put ln l h.lines }

/-- A transient state blocks new requests (R39). -/
def HState.transient : HState → Bool
  | .of | .od | .hb | .l => true
  | _ => false

/-- A line's data goes to the memory that backs it; an uncorrectable line is logged (R37). -/
def State.writeBack (s : State) (ln : Nat) (d : LineData) : State := (s.logLine d).putBacking ln d

/-- A line leaves its home: MTS rises to its RTS, dirty data goes to memory (R40). At the port the port clock takes the
place of MTS (R83). -/
def State.leave (s : State) (ln : Nat) : State :=
  match Tab.find ln (s.home (homeOf ln)).lines with
  | none => s
  | some l =>
    let s := if l.dirty then s.writeBack ln l.data else s
    let s := s.modHome (homeOf ln) fun h => { h with lines := Tab.del ln h.lines, mts := max h.mts l.rts }
    if isHostLine ln then s.raise portClock l.rts else s

/-- Sends a back-invalidate snoop and holds the line in HB (R40, R57). `pend`: the request that it serves; a recall, when
the line is then to leave its slice; none, for a write of one of the home's own agents. -/
def State.backInvalidate (s : State) (ln : Nat) (pend : Option HReq) : State :=
  let s := s.putLineAt ln { s.lineAt ln with state := .hb, pend }
  { s with port := { s.port with snoops := s.port.snoops ++ [ln] } }

/-- Whether a request takes the line from its owner. -/
def ReqKind.excl : ReqKind → Bool
  | .gets _ => false
  | _ => true

/-- The directory entry of a line (R50). -/
def Home.entry (h : Home) (ln : Nat) : Option DirEntry := h.dir.find? fun e => e.line == ln

/-- Asks the owner of a line in O or OU for it: a forward, or a discovery broadcast to all 16 slices (R46, R51). -/
def State.forward (s : State) (ln : Nat) (r : HReq) : State :=
  let l := s.lineAt ln
  match (s.home (homeOf ln)).entry ln with
  | some e =>
    let s := s.putLineAt ln { l with state := .of, pend := some r }
    s.send { kind := if r.kind.excl then .fwdX else .fwdS, line := ln, region := e.region, tag := r.tag }
  | none =>
    let s := s.putLineAt ln { l with state := .od, pend := some r }
    (List.range Config.regions).foldl (fun s reg =>
      s.send { kind := .disc r.kind.excl, line := ln, region := reg, tag := r.tag }) s

/-- The home's own request for an owned line (R40, R61, R62). -/
def State.recallReq (s : State) (ln : Nat) : HReq := { kind := .recall, line := ln, region := 0, tag := s.nextTag }

/-- The listed value with the least measure, the first among equals. -/
def leastBy {α : Type} (f : α → Nat) : List α → Option α
  | [] => none
  | a :: as => match leastBy f as with
    | none => some a
    | some b => if f a ≤ f b then some a else some b

/-- Whether a home line is on its way out of its slice: it is being recalled or back-invalidated for its way (R40). -/
def HomeLine.leaving (l : HomeLine) : Bool := (l.pend.map fun r => r.kind == .recall).getD false

/-- The lines on which a home lets an operation run in this step (R55). -/
def State.runningLines (s : State) : List Nat := s.memops.flatMap fun (_, o) => o.atHome

/-- The lines of a home set that the home may replace: those in H, but one on which an operation is let run (R40). -/
def State.choosable (s : State) (set : Tab HomeLine) : Tab HomeLine :=
  set.filter fun (k, l) => l.state == .h && !s.isLent k && !s.runningLines.contains k

/-- The line of a set that R54 replaces first: sticky lines last, then the least recently used. -/
def HomeLine.rank (l : HomeLine) : Nat := (if l.hint = 2 then 2 ^ 80 else 0) + l.used

/-- Makes room for a line in its set: of the lines in H, whether the host holds them or not, the first in the order of R54
leaves, after a back-invalidate if the host holds it; with none, one owned line is recalled; false when the request has to
wait (R40). That HOSTHELD plays no part in the order is DESIGN CHOICE (log 60). -/
def State.ensureWay (s : State) (ln : Nat) : State × Bool :=
  let h := s.home (homeOf ln)
  if isHostLine ln || Tab.has h.lines ln then (s, true)
  else
    let set := h.lines.filter fun (k, _) => homeSet k == homeSet ln
    let busy := set.any fun (_, l) => l.leaving
    if set.length < 16 then (s, true)
    else
      match leastBy (fun p => p.2.rank) (s.choosable set),
        leastBy (fun p => p.2.granted) (set.filter fun (_, l) => l.state == .o),
        leastBy (fun p => p.2.granted) (set.filter fun (_, l) => l.state == .ou) with
      | some v, _, _ =>
        if !v.2.hostHeld then (s.leave v.1, true)
        else if busy then (s, false)
        else (s.backInvalidate v.1 (some (s.recallReq v.1)), false)
      | none, some v, _ => if busy then (s, false) else (s.forward v.1 (s.recallReq v.1), false)
      | none, none, some v => if busy then (s, false) else (s.forward v.1 (s.recallReq v.1), false)
      | none, none, none => (s, false)

/-- Allocates a line that its home is about to serve: it stands in its set from now on (R38, R40). -/
def State.allocate (s : State) (ln : Nat) : State := if s.isResident ln then s else s.putLineAt ln (s.lineAt ln)

/-- Records an access's hint and use: `.str` and `.byp` insert as least recently used; at most 8 lines of a set are
sticky, the oldest beyond that, by use, losing its hint (R54). DESIGN CHOICE (log 60). -/
def State.touchHome (s : State) (ln hint : Nat) : State :=
  let h := s.home (homeOf ln)
  let l := s.lineAt ln
  let used := if hint = 1 ∨ hint = 3 then 0 else h.order + 1
  let s := s.modHome (homeOf ln) fun h => { h with order := h.order + 1 }
  let s := s.putLineAt ln { l with used, hint }
  let sticky := h.lines.filter fun (k, m) => homeSet k == homeSet ln && m.hint == 2 && k != ln
  if hint = 2 ∧ 8 ≤ sticky.length then
    match leastBy (fun p => p.2.used) sticky with
    | some v => s.modHome (homeOf ln) fun h => { h with lines := Tab.modify v.1 (fun l => { l with hint := 0 }) h.lines }
    | none => s
  else s

/-- Room for a directory entry: the least recently allocated entry of a full set whose line is in O is dropped and its line
enters OU; false when every entry belongs to a line in OF (R50). -/
def State.dirRoom (s : State) (ln : Nat) : State × Bool :=
  let h := s.home (homeOf ln)
  if isHostLine ln || decide (h.dir.length < 8) then (s, true)
  else
    let same := h.dir.filter fun e => Config.dirSet e.line % 512 == Config.dirSet ln % 512
    if same.length < 8 then (s, true)
    else
      match leastBy DirEntry.order (same.filter fun e => (s.lineAt e.line).state == .o) with
      | some e =>
        let s := s.modHome (homeOf ln) fun h => { h with dir := h.dir.erase e }
        (s.putLineAt e.line { s.lineAt e.line with state := .ou }, true)
      | none => (s, false)

/-- The region slice that owns a line. -/
def State.ownerOf (s : State) (ln : Nat) : Option Nat :=
  (s.regions.find? fun (_, r) => ((Tab.find ln r.copies).map Copy.owned).getD false).map (·.1)

/-- Takes an owner's data and times into the home, which returns to H without a directory entry (R46, R48). -/
def State.takeBack (s : State) (ln : Nat) (data : LineData) (dirty : Bool) (wts rts : Nat) : State :=
  let l := s.lineAt ln
  let s := s.putLineAt ln { l with state := .h, data, dirty := l.dirty || dirty, wts, rts }
  s.modHome (homeOf ln) fun h => { h with dir := h.dir.filter fun e => e.line != ln }

/-- The owner gives its copy up, or keeps it shared (R46). -/
def Region.surrender (r : Region) (ln : Nat) (keep : Bool) : Region :=
  { r with copies :=
      if keep then Tab.modify ln (fun c => { c with owned := false, dirty := false }) r.copies else Tab.del ln r.copies }

/-- A recall in one step: the owner's answer reaches the home at once. False while the owner cannot be reached.
DEDUCED (log 17). -/
def State.recallNow (s : State) (ln : Nat) (excl : Bool) : State × Bool :=
  match s.ownerOf ln with
  | none => (s, false)
  | some reg =>
    match Tab.find ln (s.region reg).copies with
    | none => (s, false)
    | some c => ((s.takeBack ln c.data c.dirty c.wts c.rts).modRegion reg fun r => r.surrender ln !excl, true)

/-- A host line that is dirty at the port, or that an owner may make dirty without asking: a grant counts from the moment
it is made (R58, R116). DEDUCED (log 43). -/
def HomeLine.owed (l : HomeLine) : Bool := l.dirty || l.state != .h

/-- The port writes a line that it holds back to the host; the line stays at the port, clean (R58). -/
def State.portClean (s : State) (ln : Nat) : State :=
  let l := s.lineAt ln
  (s.writeBack ln l.data).putLineAt ln { l with dirty := false }

/-- The port writes a line of the always-powered store back to the host, which has it from then on (R58). -/
def State.storeClean (s : State) (ln : Nat) (d : LineData) : State :=
  { s.writeBack ln d with port := { s.port with store := Tab.del ln s.port.store } }

/-- At most 32,768 host lines are owned and dirty, those in the always-powered store among them: before one more may be, the
port writes back the least recently granted dirty one; false while none can be reached (R58, R59). A line of the store counts
as granted before every line at the port, and a line on which an atomic is let run counts as one that may be dirty. DEDUCED
(log 43). -/
def State.hostRoom (s : State) (ln : Nat) : State × Bool :=
  let owed := (s.home portHome).lines.filter fun (_, l) => l.owed
  let running := s.runningLines.eraseDups.filter fun k => isHostLine k && k != ln && !Tab.has owed k
  if (s.lineAt ln).owed || decide (owed.length + running.length + s.port.store.length < Config.storeLines) then (s, true)
  else
    match s.port.store with
    | (k, d) :: _ => (s.storeClean k d, true)
    | [] =>
      let dirty := owed.filter fun (k, l) => l.dirty ||
        (((s.ownerOf k).bind fun r => Tab.find k (s.region r).copies).map Copy.dirty).getD false
      let idle := fun (p : Nat × HomeLine) => !p.2.state.transient && !s.runningLines.contains p.1
      match (leastBy (fun p => p.2.granted) (dirty.filter idle)).or (leastBy (fun p => p.2.granted) (owed.filter idle)) with
      | none => (s, false)
      | some (k, l) =>
        let (s, ok) := if l.state == .h then (s, true) else s.recallNow k true
        if ok then (s.portClean k, true) else (s, false)

/-- Has a host line at the port: from the always-powered store first, else it is fetched from the host (R56, R59). -/
def State.haveHostLine (s : State) (ln : Nat) : State × Bool :=
  if !isHostLine ln || s.isResident ln then (s, true)
  else
    match Tab.find ln s.port.store with
    | some d =>
      let t := s.clock portClock
      let s := s.putLineAt ln { data := d, dirty := true, wts := t, rts := t }
      ({ s with port := { s.port with store := Tab.del ln s.port.store } }, true)
    | none =>
      if s.port.fetching.contains ln then (s, false)
      else ({ s with port := { s.port with fetching := s.port.fetching ++ [ln] } }, false)

/-- A reply to a region slice with the line's data and times. -/
def State.reply (s : State) (r : HReq) (kind : MsgKind) : State :=
  let l := s.lineAt r.line
  let whole := match kind with | .data | .dataX => true | _ => false
  s.send
    { kind, line := r.line, region := r.region, tag := r.tag, data := if whole then l.data else [], wts := l.wts
      rts := l.rts, hint := r.hint, op := r.op }

/-- A region's request for a line is no longer outstanding. -/
def Region.unask (g : Region) (ln : Nat) : Region := { g with asked := Tab.del ln g.asked, ways := g.ways.filter (· != ln) }

/-- Lets the memory operation that sent an ATOM run at the home in this step (R55, R61). -/
def State.letRun (s : State) (r : HReq) : State :=
  let s := s.modRegion r.region fun g => g.unask r.line
  { s with memops := Tab.modify r.op (fun o => { o with atHome := r.line :: o.atHome }) s.memops }

/-- A load at the home: the new clock, and the line with its RTS extended if the lease has run out (R43).
DEDUCED (log 17). -/
def State.homeLoad (s : State) (ln pts lease : Nat) : State × Nat :=
  let l := s.lineAt ln
  let rts := if pts ≤ l.rts then l.rts else max l.rts (max (l.wts + lease) (pts + lease))
  (s.putLineAt ln { l with rts }, max pts l.wts)

/-- The fault of a thread in `waddr` that meets an uncorrectable word (R37, R177). -/
def WaitEntry.eccTrap (w : WaitEntry) (array : Nat) : Trap := { code := Code.ecc, info := array, addr := w.va }

/-- Installs a `waddr` on a line in H, evaluated as a load, or answers it at once when the condition holds or the table is full
(R60, R190). -/
def State.installAt (s : State) (w : WaitEntry) (next : Nat) : State :=
  match s.team? w.tid.team with
  | none => s
  | some t =>
    match lineBadRead (s.lineAt (deviceLine w.addr)).data (w.addr % 128) w.size with
    | some arr => s.deliverFaults [(w.tid, w.eccTrap arr, 0)]
    | none =>
      let ln := deviceLine w.addr
      let (s, time) := s.homeLoad ln (s.clock t.clockKey) (s.lease w.ctx)
      let s := s.raise t.clockKey time
      let v := lineRead (s.lineAt ln).data (w.addr % 128) w.size
      let holds := waddrHolds w.cmp (8 * w.size) (v &&& w.mask) (w.expect &&& w.mask)
      let waits := (s.home (homeOf ln)).waits
      if holds || decide (256 ≤ waits.length) then
        s.modThread w.tid fun th => { th.setP w.pred holds with wait := .ready, pc := BitVec.ofNat 64 next }
      else
        let k := Tab.freeKey waits 256 0
        (s.modHome (homeOf ln) fun h => { h with waits := Tab.put k w h.waits }).modThread w.tid fun th =>
          { th with wait := .address (homeOf ln) k }

/-- Whether the thread of an installation still waits for it: one that was stopped and rewound meanwhile issues it again. -/
def State.isInstalling (s : State) (r : HReq) (w : WaitEntry) : Bool :=
  ((s.thread? w.tid).map Thread.wait) == some (.install r.line r.tag)

/-- Serves a request to a line in H (Table 3.3). -/
def State.serveH (s : State) (r : HReq) : State × Bool :=
  let l := s.lineAt r.line
  match r.kind with
  | .gets _ =>
    let s := s.putLineAt r.line { l with rts := max l.rts (max (l.wts + r.lease) (r.pts + r.lease)) }
    let s := s.touchHome r.line r.hint
    (s.reply r (if r.wts = some l.wts then .renew else .data), true)
  | .recall => (s, true)
  | .install w next => (if s.isInstalling r w then s.installAt w next else s, true)
  | .atom =>
    if l.hostHeld then (s.backInvalidate r.line (some r), true)
    else
      let (s, room) := if isHostLine r.line then s.hostRoom r.line else (s, true)
      if room then (s.letRun r, true) else (s, false)
  | .getx | .upg =>
    if s.isWatched r.line then
      if l.hostHeld then (s.backInvalidate r.line (some r), true) else (s.letRun r, true)
    else if l.hostHeld then (s.backInvalidate r.line (some r), true)
    else
      let (s, room) := if isHostLine r.line then s.hostRoom r.line else (s, true)
      let (s, slot) := if room then s.dirRoom r.line else (s, false)
      if !slot then (s, false)
      else
        let renew := r.kind == .upg && r.wts == some l.wts
        let s := s.touchHome r.line r.hint
        let s := s.modHome (homeOf r.line) fun h =>
          { h with order := h.order + 1, dir := h.dir ++ [{ line := r.line, region := r.region, order := h.order + 1 }] }
        let order := (s.home (homeOf r.line)).order
        let s := s.putLineAt r.line { s.lineAt r.line with state := .o, granted := order }
        (s.reply r (if renew then .grantX else .dataX), true)

/-- Serves a request, or answers false: it waits in the line queue (R46, R49, R50). -/
def State.serve (s : State) (r : HReq) : State × Bool :=
  match s.lineState r.line with
  | .of | .od | .hb | .l => (s, false)
  | .o | .ou => (s.forward r.line r, true)
  | .h =>
    let (s, here) := s.haveHostLine r.line
    let (s, way) := if here then s.ensureWay r.line else (s, false)
    if way then (s.allocate r.line).serveH r else (s, false)

/-- A request waits in the 64-entry line queue, or is answered NACK (R49). -/
def State.enqueue (s : State) (r : HReq) : State :=
  if (s.home (homeOf r.line)).queue.length < 64 then
    s.modHome (homeOf r.line) fun h => { h with queue := h.queue ++ [r] }
  else s.send { kind := .nack r, line := r.line, region := r.region, tag := r.tag }

/-- A request arrives: it is served, or waits behind earlier waiters for its line (R49). -/
def State.request (s : State) (r : HReq) : State :=
  if (s.home (homeOf r.line)).queue.any fun q => q.line == r.line then s.enqueue r
  else
    let (s, ok) := s.serve r
    if ok then s else s.enqueue r

/-- The waiting request of a line that has left a transient state is completed (R46, R48, R51, R57). -/
def State.complete (s : State) (ln : Nat) : State :=
  let l := s.lineAt ln
  match l.pend with
  | none => s
  | some r =>
    let s := s.putLineAt ln { l with pend := none }
    match r.kind with
    | .recall => s
    | _ =>
      let (s, ok) := s.serve r
      if ok then s else s.modHome (homeOf ln) fun h => { h with queue := r :: h.queue }

/-- One pass over a home's line queue: each line's first waiter is served if it can be. A line on which an operation is
let run is left until that has run. -/
def State.drainQueue (s : State) (h : Nat) : State × Bool :=
  let busy := s.runningLines
  let r := (s.home h).queue.foldl (fun (acc : State × List Nat × Bool) r =>
    if acc.2.1.contains r.line then acc
    else
      let (s, ok) := acc.1.serve r
      if ok then (s.modHome h fun g => { g with queue := g.queue.erase r }, r.line :: acc.2.1, true)
      else (s, r.line :: acc.2.1, acc.2.2)) (s, busy, false)
  (r.1, r.2.2)

/-- Whether an access by the home's own agents (engine, port, walker, platen) may be performed at the home now. An owned
line is recalled at once; a store first back-invalidates a copy that the host holds (R46, R57). DEDUCED (log 17). -/
def State.homeReady (s : State) (ln : Nat) (excl : Bool) : State × Bool :=
  if !s.homePowered ln || (s.home (homeOf ln)).queue.any fun q => q.line == ln then (s, false)
  else
    match s.lineState ln with
    | .of | .od | .hb | .l => (s, false)
    | .o | .ou => s.recallNow ln excl
    | .h =>
      let (s, here) := s.haveHostLine ln
      let (s, way) := if here then s.ensureWay ln else (s, false)
      if !way then (s, false)
      else if excl && (s.lineAt ln).hostHeld then (s.backInvalidate ln none, false)
      else if excl && isHostLine ln then s.hostRoom ln
      else (s, true)

/-- The wake of an entry whose condition holds on the line as it stands (R60). An uncorrectable word frees the entry, and its
thread raises ECC_UNCORRECTABLE (R37). -/
def State.evalWait (s : State) (ln k : Nat) (w : WaitEntry) : State × Faults :=
  let l := s.lineAt ln
  let v := lineRead l.data (w.addr % 128) w.size
  let bits := 8 * w.size
  let freed := s.modHome (homeOf ln) fun h => { h with waits := Tab.del k h.waits }
  match lineBadRead l.data (w.addr % 128) w.size with
  | some arr => (freed, [(w.tid, w.eccTrap arr, 0)])
  | none =>
    if waddrHolds w.cmp bits (v &&& w.mask) (w.expect &&& w.mask) then
      (freed.send { kind := .wake w.tid w.pred, line := ln, region := 0, wts := l.wts }, [])
    else (s, [])

/-- After a write that changes a line, its home evaluates every wait entry on it in entry order (R60). -/
def State.evalWaits (s : State) (ln : Nat) : State :=
  let (s, faults) := (s.home (homeOf ln)).waits.foldl (fun (acc : State × Faults) (k, w) =>
    if deviceLine w.addr == ln then
      let (s, f) := acc.1.evalWait ln k w
      (s, acc.2 ++ f)
    else acc) (s, [])
  s.deliverFaults faults

/-- A store at the home: times of R43, data, and the wait table's evaluation. Answers the access's time. -/
def State.homeStore (s : State) (ln pts : Nat) (data : LineData) : State × Nat :=
  let l := s.lineAt ln
  let t := max pts (l.rts + 1)
  let s := s.putLineAt ln { l with data, dirty := true, wts := t, rts := t }
  (if isHostLine ln then s else s.evalWaits ln, t)

end Sys2Proof.Machine
end

