-- ==== Sys2Proof/Machine/HostAccess.lean ====
section
/-! DEFINITION. CXL.mem requests of the host at the home slices, in the order in which the port receives them (R37, R57, R67,
R82, R411). -/

namespace Sys2Proof.Machine

/-- A host access that ends in an error response, logged (R37, R419). -/
def State.hostError (s : State) (array : Nat) : State :=
  { s.countError array with port := { s.port with readData := [], readError := true } }

/-- The device physical address behind an address of the host's windows: decoder 0's window on the interleaved region, and
behind it decoder 1's on the stack-linear regions in stack order, each 64 GiB − L bytes; none beyond them (R411).
DESIGN CHOICE (log 63). -/
def hdmAddress (a : Nat) : Option Nat :=
  let linear := Config.stackBytes - Config.interleaved
  let window := Config.stackCount * Config.interleaved
  let o := a - window
  if a < window then some a
  else if o < Config.stackCount * linear then some (linearBase + o / linear * linearStride + o % linear)
  else none

/-- The device physical address of a CXL.mem request: the decoders map it and the link carries CXL.mem (R411, R417). -/
def State.hdmMaps (s : State) (a : Nat) : Option Nat := if s.busy.bootFailed then none else hdmAddress a

/-- Brings a line home for the wait table or for a host write: an owned line is recalled as for an ATOM (R61). -/
def State.waitReady (s : State) (ln : Nat) : State × Bool :=
  match s.lineState ln with
  | .o | .ou =>
    if (s.home (homeOf ln)).queue.any fun q => q.line == ln then (s, false) else s.recallNow ln true
  | _ => s.homeReady ln false

/-- Bytes of a line with the bytes that a host write enables replaced. -/
def patchBytes (d : LineData) (off : Nat) (bs : List (Option Byte)) : LineData :=
  bs.zipIdx.foldl (fun d (b, i) => match b with | some v => Tab.set 0 (off + i) v d | none => d) d

/-- A read within one 64-byte word, performed at the line's home with the port clock, which rises to the line's WTS. The
host may keep a copy: the model takes every CXL.mem read to grant one (R43, R57, R82). DESIGN CHOICE (log 45).
DEDUCED (log 32). -/
def State.hostRead (s : State) (pa len : Nat) : State × Bool :=
  let ln := deviceLine pa
  if !s.homePowered ln then (s.hostError arrHbm, true)
  else
    match s.homeReady ln false with
    | (s, false) => (s, false)
    | (s, true) =>
      match lineBadRead (s.lineAt ln).data (pa % 128) len with
      | some a => (s.hostError a, true)
      | none =>
        let (s, time) := s.homeLoad ln (s.clock portClock) 32
        let l := s.lineAt ln
        let s := (s.putLineAt ln { l with hostHeld := true }).raise portClock time
        let bytes := (List.range len).map fun i => Tab.getD l.data (pa % 128 + i) 0
        ({ s with port := { s.port with readData := bytes, readError := false } }, true)

/-- Whether a write at an offset enables every byte of the uncorrectable word that a unit belongs to (R37). -/
def enables (off : Nat) (bytes : List (Option Byte)) (array u : Nat) : Bool :=
  let lo := if array = arrHbm then u / 64 * 64 else u
  let n := if array = arrHbm then 64 else 8
  decide (off ≤ lo) && (List.range n).all fun i => ((bytes[lo + i - off]?).bind id).isSome

/-- Whether a write at an offset enables a byte of the 8-byte unit at `u`. -/
def touches (off : Nat) (bytes : List (Option Byte)) (u : Nat) : Bool :=
  (List.range 8).any fun i => decide (off ≤ u + i) && ((bytes[u + i - off]?).bind id).isSome

/-- A write at the home at time t = max(port clock, RTS + 1); the port clock rises to t + 1, and watched lines are evaluated
(R57, R60, R82). A write of part of an uncorrectable word completes with an error response. DEDUCED (log 32). -/
def State.hostWrite (s : State) (pa : Nat) (bytes : List (Option Byte)) : State × Bool :=
  let ln := deviceLine pa
  if !s.homePowered ln then (s.hostError arrHbm, true)
  else
    match s.waitReady ln with
    | (s, false) => (s, false)
    | (s, true) =>
      let off := pa % 128
      let d := (s.lineAt ln).data
      let units := (unitsOf off bytes.length).filter fun u => touches off bytes u
      match units.findSome? fun u => (lineMark d u).filter fun a => !enables off bytes a u with
      | some a => (s.hostError a, true)
      | none =>
        let (s, time) := s.homeStore ln (s.clock portClock) (patchBytes (lineSound d units) off bytes)
        (s.raise portClock (time + 1), true)

/-- Performs one request of the host; false while its home cannot serve the line. -/
def State.hostAccess (s : State) : HostReq → State × Bool
  | .read pa len => s.hostRead pa len
  | .write pa bytes => s.hostWrite pa bytes

/-- Performs the port's requests, each after the previous one has been performed (R82). -/
def State.servePort (s : State) : Nat → State
  | 0 => s
  | fuel + 1 =>
    match s.port.requests with
    | [] => s
    | r :: rs =>
      match s.hostAccess r with
      | (s, false) => s
      | (s, true) => ({ s with port := { s.port with requests := rs } } : State).servePort fuel

/-- The port receives a request behind those that wait (R82). -/
def State.receive (s : State) (r : HostReq) : State :=
  ({ s with port := { s.port with requests := s.port.requests ++ [r] } } : State).servePort (s.port.requests.length + 1)

end Sys2Proof.Machine
end

