-- ==== Sys2Proof/Machine/Translate.lean ====
section
/-! DEFINITION. Page tables, translation hardware, pending misses, fault records (R16 to R33). -/

namespace Sys2Proof.Machine

/-! ### Page-table entries (Table 2.2) -/

/-- Bits 51:12 as an address. -/
def ptePfn (pte : Nat) : Nat := Bits.field pte 12 40 * 4096
/-- KIND (Table 2.3). -/
def pteKind (pte : Nat) : Nat := Bits.field pte 7 2

/-- The page size of a leaf at a level (Table 2.1, R20). -/
def leafSize (level pte : Nat) : Nat :=
  match level with
  | 0 => if Bits.bit pte 9 then 0x10000 else 0x1000
  | 1 => 0x200000
  | _ => 0x40000000

/-- Whether a valid leaf at a level is malformed (R19). -/
def leafMalformed (level pte : Nat) : Bool :=
  let align := match level with | 0 => 0x1000 | 1 => 0x200000 | _ => 0x40000000
  decide (3 ≤ level) || Bits.field pte 62 2 != 0 || Bits.field pte 4 2 != 0
    || (pteKind pte != 2 && Bits.field pte 52 10 != 0) || (level != 0 && Bits.bit pte 9)
    || decide (ptePfn pte % align ≠ 0) || (pteKind pte == 2 && decide (575 < Bits.field pte 52 10))

/-- How a walk ends. -/
inductive Walk where
  | leaf (size pte : Nat)
  | absent
  | malformed
  /-- An entry lies on a power-gated die (R419). -/
  | unbacked
  | ecc (array : Nat)
  | wait
  deriving DecidableEq, Repr

/-- A walk from a table of level `n - 1` down. Each read is a device load at the entry's home (R18, R19, R27, R37); the last
component is the time of the reads. -/
def State.walk (s : State) (lease va table time : Nat) : Nat → State × Walk × Nat
  | 0 => (s, .malformed, time)
  | n + 1 =>
    let pa := table + Bits.field va (12 + 9 * n) 9 * 8
    let ln := deviceLine pa
    let (s, ok) := s.homeReady ln false
    if !s.homePowered ln then (s, .unbacked, time)
    else if !ok then (s, .wait, time)
    else
      match lineBadRead (s.lineAt ln).data (pa % 128) 8 with
      | some a => (s, .ecc a, time)
      | none =>
        let (s, time) := s.homeLoad ln time lease
        let pte := lineRead (s.lineAt ln).data (pa % 128) 8
        if !Bits.bit pte 0 then (s, .absent, time)
        else if Bits.bit pte 1 then
          (s, if leafMalformed n pte then .malformed else .leaf (leafSize n pte) pte, time)
        else if n = 0 || !isBacked (ptePfn pte) then (s, .malformed, time)
        else s.walk lease va (ptePfn pte) time n

/-- The walk of a context's table; a root outside device memory is malformed at the level-4 read (R19). A walker has no clock
(R41): its first read takes time 0 as pts, and each later read the time of the one before. DESIGN CHOICE (log 64). -/
def State.walkFrom (s : State) (ctx va : Nat) : State × Walk × Nat :=
  let root := ptePfn (s.reg (0x100000 + 8 * ctx))
  if isBacked root then s.walk (s.lease ctx) va root 0 5 else (s, .malformed, 0)

/-! ### Translation buffers (R26) -/

def dieTlb (die : Nat) : Nat := 192 + die
def platenTlb (stack : Nat) : Nat := 194 + stack
/-- Entries of a TLB. -/
def tlbSize (k : Nat) : Nat := if k < 192 then 256 else if k < 194 then 32768 else 64

/-- The translation a TLB holds for an address. -/
def State.tlbFind (s : State) (k ctx va : Nat) : Option TlbEntry :=
  (Tab.getD s.tlbs k []).find? fun e => e.ctx == ctx && decide (va / e.size * e.size = e.va)

/-- Installs a translation in place of an earlier one of the same page; the oldest leaves a full TLB. -/
def State.tlbFill (s : State) (k : Nat) (e : TlbEntry) : State :=
  let l := (Tab.getD s.tlbs k []).filter (fun f => !(f.ctx == e.ctx && f.va == e.va && f.size == e.size)) ++ [e]
  { s with tlbs := Tab.put k (l.drop (l.length - tlbSize k)) s.tlbs }

/-- The physical address under a held translation (R20). -/
def TlbEntry.pa (e : TlbEntry) (va : Nat) : Nat := ptePfn e.pte / e.size * e.size + va % e.size

/-! ### Accesses -/

/-- Who makes an access and how (R22, R30). `acc`: Table 2.8. -/
structure Asker where
  ctx : Nat
  system : Bool
  die : Nat
  tlb : Nat
  acc : Nat
  eng : Bool := false
  src : Nat
  launch : Nat
  who : Requester
  stack : Option Nat := none

/-- The result of translating an address. -/
inductive Tr where
  | ok (loc : Loc)
  | fault (t : Trap)
  | miss (entry : Nat)
  | full
  deriving DecidableEq, Repr

/-- PROTECTION with a reason (Table 2.4). -/
def protection (reason va : Nat) : Trap := { code := Code.protection, info := reason, addr := va }

/-- Whether a host physical address lies in an I/O aperture (R88, R415). -/
def State.inAperture (s : State) (pa : Nat) : Bool :=
  (List.range 8).any fun n =>
    let b := s.reg (0x106100 + 16 * n)
    let l := s.reg (0x106108 + 16 * n)
    Bits.bit b 0 && decide (Bits.field b 12 40 ≤ pa / 4096) && decide (pa / 4096 ≤ Bits.field l 12 40)

/-- Where a leaf sends an address (Table 2.3). -/
def State.locOf (s : State) (e : TlbEntry) (va : Nat) : Loc :=
  let pa := e.pa va
  match pteKind e.pte with
  | 0 => .device pa
  | 1 => if s.inAperture pa then .io pa else .host pa
  | 2 => .peer (Bits.field e.pte 52 10) pa
  | _ => .platen pa

/-- Checks 3 to 6 of R22 against a leaf. -/
def leafCheck (a : Asker) (e : TlbEntry) (va : Nat) : Option Trap :=
  let write := a.acc == 1 || a.acc == 2 || a.acc == 5
  if Bits.bit e.pte 6 && !a.system then some (protection 4 va)
  else if a.acc == 3 && !Bits.bit e.pte 3 then some (protection 3 va)
  else if write && !Bits.bit e.pte 2 then some (protection 2 va)
  else if pteKind e.pte = 0 ∧ !isBacked (e.pa va) then some (protection 6 va)
  else if pteKind e.pte = 3 ∧ (linearStack (e.pa va)).isNone then some (protection 6 va)
  else none

/-- The checks of R22 on a leaf, and the power of the die that its memory is on (R419). -/
def State.leafStop (s : State) (a : Asker) (e : TlbEntry) (va : Nat) : Option Trap :=
  match leafCheck a e va with
  | some t => some t
  | none =>
    if (pteKind e.pte = 0 ∨ pteKind e.pte = 3) ∧ !s.homePowered (deviceLine (e.pa va)) then some (protection 6 va) else none

/-- Raises a requester's clock to the time of a walk whose translation it uses: its access follows the walker's reads in S
(R27). DEDUCED (log 20). -/
def State.afterWalk (s : State) (r : Requester) (time : Nat) : State :=
  match r with
  | .thread i => match s.team? i.team with
    | some t => s.raise t.clockKey time
    | none => s
  | .job j => { s with jobs := Tab.modify j (fun j => { j with clock := max j.clock time }) s.jobs }
  | .launcher _ => s
  | .call stack _ => s.raise (platenClock stack) time

/-- Joins the pending-miss entry of a page, or takes a free one; which free one is not fixed (R28, log 3). A requester that
joins after the fault record was written raises the entry's own count of waiters; the record in host memory is not written
again (R30, Table 2.8). DESIGN CHOICE (log 46). -/
def State.miss (s : State) (a : Asker) (va : Nat) : State × Tr :=
  let page := va / 4096 * 4096
  match s.misses.find? fun (k, m) => k / 4096 == a.die && m.ctx == a.ctx && m.va == page with
  | some (k, m) =>
    if m.joined.contains a.who then (s, .miss k)
    else ({ s with misses := Tab.put k { m with joined := m.joined ++ [a.who] } s.misses }, .miss k)
  | none =>
    let mine := s.misses.filter fun (k, _) => k / 4096 == a.die
    if 4096 ≤ mine.length then (s, .full)
    else
      let (n, s) := s.draw
      let start := Config.freeNat n % 4096
      let free := (List.range 4096).find? fun i => !Tab.has s.misses (a.die * 4096 + (start + i) % 4096)
      let k := a.die * 4096 + (start + free.getD 0) % 4096
      ({ s with
         misses := Tab.put k
           { ctx := a.ctx, va := page, acc := a.acc, eng := a.eng, src := a.src, launch := a.launch, joined := [a.who]
             stack := a.stack } s.misses }, .miss k)

/-- The translation an asker's hardware holds: its own TLB, else its die's (R26). An entry of a page whose leaf has changed is
used until an event of the agenda drops it or TLBINV completes. DESIGN CHOICE (log 3). -/
def State.held (s : State) (a : Asker) (va : Nat) : State × Option TlbEntry :=
  match s.tlbFind a.tlb a.ctx va with
  | some e => (s, some e)
  | none =>
    if a.stack.isSome then (s, none)
    else
      match s.tlbFind (dieTlb a.die) a.ctx va with
      | some e => (s.tlbFill a.tlb e, some e)
      | none => (s, none)

/-- Translates an address and checks it (R16, R22, R35). An address in the forme window is the caller's to handle. -/
def State.translate (s : State) (a : Asker) (va : Nat) : State × Tr :=
  if 2 ^ 57 ≤ va then (s, .fault (protection 1 va))
  else
    match s.held a va with
    | (s, none) => s.miss a va
    | (s, some e) =>
      match s.leafStop a e va, a.stack with
      | some t, _ => (s, .fault t)
      | none, none => (s.afterWalk a.who e.time, .ok (s.locOf e va))
      | none, some stack =>
        let kind := pteKind e.pte
        if (kind = 0 ∨ kind = 3) ∧ stackOf (e.pa va) = stack then (s.afterWalk a.who e.time, .ok (s.locOf e va))
        else (s, .fault { code := Code.stackRange, addr := va })

/-- The asker for a thread's access. -/
def State.threadAsker (s : State) (i : Tid) (t : Team) (acc : Nat) : Asker :=
  let launch := ((s.launchOf t).map Launch.id).getD 0
  match t.place with
  | .core c =>
    let slot := ((Tab.find (t.hw i.n) t.groups).map Group.slot).getD 0
    { ctx := s.ctxOf t, system := t.system, die := dieOf c, tlb := c, acc, src := c + t.part i.n * 2 ^ 8 + slot * 2 ^ 10
      launch, who := .thread i }
  | .near stack _ _ =>
    { ctx := s.ctxOf t, system := false, die := dieOfStack stack, tlb := platenTlb stack, acc, eng := true
      src := stack + 3 * 2 ^ 4, launch, who := .thread i, stack := some stack }

/-! ### The end of a walk (R28, R30) -/

/-- A fault record (Table 2.8). -/
def faultRecord (m : Miss) (key seq : Nat) : Nat :=
  1 + m.acc % 8 * 2 ^ 8 + m.ctx % 64 * 2 ^ 16 + key / 4096 * 2 ^ 22 + m.eng.toNat * 2 ^ 23 + seq * 2 ^ 32 + m.va * 2 ^ 64
    + m.src % 2 ^ 16 * 2 ^ 128 + m.launch % 2 ^ 32 * 2 ^ 160 + m.joined.length % 2 ^ 32 * 2 ^ 192

/-- Takes an entry off the walks that a thread awaits, its own among them; it is ready, to replay, when none is left. -/
def Thread.walked (th : Thread) (e : Nat) : Thread :=
  match th.wait with
  | .walk own va all =>
    if all.contains e then
      let all := all.erase e
      { th with wait := if all.isEmpty then .ready else .walk (if own = some e then none else own) va all }
    else th
  | _ => th

/-- Parks a thread whose own access joined a page that is not valid; the rest of its issue group goes on (R30). A park is
progress for the spin detector (R357). -/
def Thread.missing (th : Thread) (e : Nat) : Thread :=
  match th.wait with
  | .walk own va _ =>
    if own = some e then
      { th with wait := .walk own va [e], release := none, spins := th.spins.map fun x => { x with changed := true } }
    else th.walked e
  | _ => th

/-- Applies a change to every thread of the module. -/
def State.mapThreads (s : State) (f : Thread → Thread) : State :=
  { s with teams := s.teams.map fun (k, t) => (k, { t with threads := t.threads.map fun (n, th) => (n, f th) }) }

/-- Threads whose own access joined an entry, with the address accessed, in team and lane order. -/
def State.parkedOn (s : State) (e : Nat) : List (Tid × Nat) :=
  s.teams.flatMap fun (k, t) => t.threads.filterMap fun (n, th) =>
    match th.wait with
    | .walk (some e') va _ => if e' = e then some ({ team := k, n }, va) else none
    | _ => none

/-- The address of the kernel descriptor that a platen call reads: 16 bytes before its ENTRY (R386). -/
def State.callDesc (s : State) (stack call : Nat) : Nat :=
  let card := ((s.call? stack call).map Call.card).getD []
  Bits.ofInt 64 (((card.getD 1 0 + card.getD 2 0 * 2 ^ 32 : Nat) : Int) - 16)

/-- The jobs and launcher reads joined to an entry try their line again (R31, R33). -/
def State.unstall (s : State) (m : Miss) (denied : Option Trap) : State :=
  m.joined.foldl (fun s r =>
    match r with
    | .job j => { s with jobs := Tab.modify j (fun j => { j with stalled := false, denied }) s.jobs }
    | .launcher q => { s with replyWait := Tab.put q (if denied.isSome then 2 else 0) s.replyWait }
    | .call stack call => match denied with
      | some t => s.callFault stack call { t with addr := s.callDesc stack call }
      | none => s
    | .thread _ => s) s

/-- Releases an entry with success: every requester replays (R28, R31). -/
def State.releaseMiss (s : State) (e : Nat) (m : Miss) : State :=
  let s := s.unstall m none
  ({ s with misses := Tab.del e s.misses } : State).mapThreads fun th => th.walked e

/-- Releases an entry with a fault to every requester, threads in lane order with the address each accessed (R28, R31,
R37). -/
def State.refuseMiss (s : State) (e : Nat) (m : Miss) (t : Trap) : State :=
  let parked := s.parkedOn e
  let s := s.unstall m (some t)
  let s := { s with misses := Tab.del e s.misses }
  let s := parked.foldl (fun s (i, va) =>
    (s.modThread i fun th => { th with wait := .ready }).deliver i { t with addr := va } 0) s
  s.mapThreads fun th => th.walked e

/-- The TLB that a walk fills for a requester: its platen's, or its die's (R26). -/
def State.tlbOf (s : State) (die : Nat) (r : Requester) : Nat :=
  match r with
  | .call stack _ => platenTlb stack
  | .thread i => match (s.team? i.team).map Team.place with
    | some (.near stack _ _) => platenTlb stack
    | _ => dieTlb die
  | .job _ | .launcher _ => dieTlb die

/-- WALK_COMPLETE: the translation is installed and every requester replays; or a malformed or uncorrectable entry faults;
or a page that is not valid writes a fault record and parks its requesters (R28, R30, R37). The walk's reads precede in S
the accesses it translates (R27). DEDUCED (log 20). An entry with SZ64 set always gives a translation of 64 KiB, which R20
allows and does not ask for. DESIGN CHOICE (log 47). -/
def State.walkEnds (s : State) (e : Nat) (m : Miss) : State :=
  match s.walkFrom m.ctx m.va with
  | (s, .wait, _) => s
  | (s, .leaf size pte, time) =>
    let entry : TlbEntry := { ctx := m.ctx, va := m.va / size * size, size, pte, time }
    let tlbs := (m.joined.map fun r => s.tlbOf (e / 4096) r).eraseDups
    let s := (if tlbs.isEmpty then [dieTlb (e / 4096)] else tlbs).foldl (fun s k => s.tlbFill k entry) s
    (m.joined.foldl (fun s r => s.afterWalk r time) s).releaseMiss e m
  | (s, .malformed, _) => s.refuseMiss e m (protection 5 m.va)
  | (s, .unbacked, _) => s.refuseMiss e m (protection 6 m.va)
  | (s, .ecc a, _) => s.refuseMiss e m { code := Code.ecc, info := a, addr := m.va }
  | (s, .absent, _) =>
    let seq := (Tab.getD s.slotSeq e 0 + 1) % 2 ^ 32
    let s := { s with slotSeq := Tab.set 0 e seq s.slotSeq }
    let base := Bits.field (s.reg 0x100208) 8 44 * 2 ^ 8
    let s := s.writeHost (base + 32 * e) 32 (faultRecord m e seq)
    let s := { s with
      misses := Tab.put e { m with reported := true } s.misses
      port := { s.port with msix := s.port.msix ++ [1] } }
    s.mapThreads fun th => th.missing e

/-- WALK_COMPLETE (R28). DESIGN CHOICE (log 7). DEDUCED (log 20). -/
def execWalkComplete (die entry : Nat) (s : State) : Host.Outcome State Fault Refusal :=
  let e := die * 4096 + entry
  match Tab.find e s.misses with
  | some m => if m.reported then .fault (.notEnabled "WALK_COMPLETE") else .next (s.walkEnds e m)
  | none => .fault (.notEnabled "WALK_COMPLETE")

/-- PENDING_MISS_RETRY: misses held because the table was full are tried again (R28). -/
def execPendingMissRetry (die : Nat) (s : State) : Host.Outcome State Fault Refusal :=
  .next (s.mapThreads fun th => if th.wait == .missFull die then { th with wait := .ready } else th)

/-- FAULT_MSIX_SIGNAL: vector 1 for a record that is visible (R30). -/
def State.signalMsix (s : State) (vector : Nat) : Option State :=
  if s.port.msix.contains vector then
    some { s with port := { s.port with
      msix := s.port.msix.erase vector
      signalled := Tab.set 0 vector (Tab.getD s.port.signalled vector 0 + 1) s.port.signalled } }
  else none

def execFaultMsixSignal (s : State) : Host.Outcome State Fault Refusal :=
  match s.signalMsix 1 with
  | some s => .next s
  | none => .fault (.notEnabled "FAULT_MSIX_SIGNAL")

/-- The entry a reply names: a record outstanding in the slot with that SEQ (R31). -/
def State.answered (s : State) (slot seq : Nat) : Option Miss :=
  match Tab.find slot s.misses with
  | some m => if m.reported && Tab.getD s.slotSeq slot 0 == seq then some m else none
  | none => none

/-- FLTREPLY with CODE RETRY; a reply that names no outstanding record is ignored (R31). -/
def execFltreplyRetry (slot seq : Nat) (s : State) : Host.Outcome State Fault Refusal :=
  match s.answered slot seq with
  | some m => .next (s.releaseMiss slot m)
  | none => .next s

/-- FLTREPLY with CODE FAIL: HOST_DENIED (R31). -/
def execFltreplyFail (slot seq : Nat) (s : State) : Host.Outcome State Fault Refusal :=
  match s.answered slot seq with
  | some m => .next (s.refuseMiss slot m (protection 7 m.va))
  | none => .next s

/-! ### Invalidation (R29) -/

def tlbInv : Nat := 0x100200

/-- Whether a translation is one that a TLBINV value matches (Table 2.7). -/
def tlbinvMatches (v ctx va size : Nat) : Bool :=
  if Bits.bit v 6 then true
  else if ctx != v % 64 then false
  else if Bits.bit v 7 then true
  else
    let span := [0x1000, 0x10000, 0x200000, 0x40000000].getD (Bits.field v 8 2) 0x1000
    let lo := Bits.field v 12 45 * 4096 / span * span
    decide (va < lo + span) && decide (lo < va + size)

/-- A write to TLBINV with BUSY 0 starts an invalidation; with BUSY 1 it is ignored (R29). -/
def State.tlbinvWrite (s : State) (v : Nat) : State :=
  if s.busy.tlbinv.isSome then s
  else
    let kept := Bits.field v 12 45 * 2 ^ 12 + Bits.field v 8 2 * 2 ^ 8 + Bits.field v 6 2 * 2 ^ 6 + v % 2 ^ 6
    { s.setReg tlbInv (kept + 2 ^ 10) with busy := { s.busy with tlbinv := some kept } }

/-- TLBINV_RANGE (R29). -/
def execTlbinvRange (ctx va size : Nat) (s : State) : Host.Outcome State Fault Refusal :=
  .next (s.tlbinvWrite (Bits.field va 12 45 * 2 ^ 12 + size % 4 * 2 ^ 8 + ctx % 64))

/-- TLBINV_WHOLE (R29). -/
def execTlbinvWhole (ctx : Nat) (s : State) : Host.Outcome State Fault Refusal :=
  .next (s.tlbinvWrite (2 ^ 7 + ctx % 64))

/-- TLBINV_ALLCTX (R29). -/
def execTlbinvAllctx (s : State) : Host.Outcome State Fault Refusal := .next (s.tlbinvWrite (2 ^ 6))

/-- Whether a completion entry is still to be written through a translation that a request matches: that of a record being
read, in a device queue, or of a launch (R366). DEDUCED (log 68). -/
def State.entriesMatching (s : State) (v : Nat) : Bool :=
  let uses := fun (ctx : Nat) (page : Nat × Nat) (comp : Option Nat) => comp.isSome && tlbinvMatches v ctx page.1 page.2
  (s.teams.any fun (_, t) => t.threads.any fun (_, th) =>
    (th.launching.map fun l => uses (s.ctxOf t) l.compPage l.comp).getD false) ||
  (s.devQueues.any fun (_, q) => q.any fun d => uses d.ctx d.compPage d.comp) ||
  s.launches.any fun (_, l) => uses l.ctx l.compPage l.comp

/-- Whether a request may match the translation that an access to an address used: the access's page is at most 1 GiB, and one
that lies outside the named range may still overlap it. DEDUCED (log 68). -/
def mayUse (v ctx va : Nat) : Bool := tlbinvMatches v ctx (va / 2 ^ 30 * 2 ^ 30) (2 ^ 30)

/-- Whether an installation of a `waddr` that is on its way to its line, or waits there, used a translation that a request may
match. -/
def State.installMatching (s : State) (v : Nat) : Bool :=
  let uses := fun (r : HReq) => match r.kind with | .install w _ => s.isInstalling r w && mayUse v w.ctx w.va | _ => false
  (s.net.any fun (_, m) => match m.kind with | .req r | .nack r | .retry r _ => uses r | _ => false)
    || s.homes.any fun (_, h) => h.queue.any uses || h.lines.any fun (_, l) => (l.pend.map uses).getD false

/-- Whether an access not yet performed uses a translation that the request matches: one that waits at its site, an
installation of a `waddr`, a peer access or I/O read that has not been answered, a packet of a PUSH job of the context, or a
completion entry to be written. -/
def State.usesMatching (s : State) (v : Nat) : Bool :=
  s.memops.any (fun (_, o) =>
    match s.team? o.team with
    | none => false
    | some t => o.accs.any fun a => match a.loc with | .forme .. => false | _ => mayUse v (s.ctxOf t) a.va) ||
  s.installMatching v ||
  (s.fabric.out.any fun (_, o) => if o.job.isSome then Bits.bit v 6 || o.ctx == v % 64 else mayUse v o.ctx o.va) ||
  s.entriesMatching v

/-- TLBINV_COMPLETE: no TLB holds a matching translation and BUSY reads 0; it waits for accesses that used one (R29). -/
def execTlbinvComplete (s : State) : Host.Outcome State Fault Refusal :=
  match s.busy.tlbinv with
  | none => .fault (.notEnabled "TLBINV_COMPLETE")
  | some v =>
    if s.usesMatching v then .next s
    else
      .next { s.setReg tlbInv v with
        tlbs := s.tlbs.map fun (k, l) => (k, l.filter fun e => !tlbinvMatches v e.ctx e.va e.size)
        busy := { s.busy with tlbinv := none } }

end Sys2Proof.Machine
end

