-- ==== Sys2Proof/Machine/Access.lean ====
section
/-! DEFINITION. Accesses at their sites (R43, R52 to R56, R61, R65 to R71, R85, R88, R274) and the memory operations of issue
groups (R70, R179, R297). -/

namespace Sys2Proof.Machine

/-! ### Values (Tables 10.2, 10.3) -/

/-- Bytes of an access (Table 10.2). -/
def tyBytes (ty : Ty) : Nat := ty.bits / 8

/-- How a loaded value fills its registers: narrow signed types are sign-extended, others zero-extended (Table 10.2). -/
def loadFill (ty : Ty) (v : Nat) : Nat := if ty.isSigned && decide (ty.bits < 32) then Bits.sext ty.bits 32 v else v

/-- The new value of an atomic and its flags (Table 10.3, R187). -/
def atomNew (sub : Nat) (ty : Ty) (old b c : Nat) : Nat × Nat :=
  match sub with
  | 0 => if ty.isF then faddV (fmtOf ty) old b else ((old + b) % 2 ^ ty.bits, 0)
  | 1 =>
    if ty.isF then fminmaxV false (fmtOf ty) old b
    else (if Ty.value ty b < Ty.value ty old then b else old, 0)
  | 2 =>
    if ty.isF then fminmaxV true (fmtOf ty) old b
    else (if Ty.value ty old < Ty.value ty b then b else old, 0)
  | 3 => (old &&& b, 0)
  | 4 => (old ||| b, 0)
  | 5 => (old ^^^ b, 0)
  | 6 => (b, 0)
  | 7 => (if old = c then b else old, 0)
  | 8 => (if old < b then (old + 1) % 2 ^ ty.bits else old, 0)
  | 9 => (if b < old then old - 1 else old, 0)
  | _ => faddV (fmtOf ty) old b

/-- What an access leaves in memory, if it writes, and the flags it raises. -/
def AccKind.write (k : AccKind) (a : Access) (old : Nat) : Option Nat × Nat :=
  match k with
  | .load | .record => (none, 0)
  | .store => (some a.value, 0)
  | .atom sub | .red sub =>
    let m := 2 ^ (8 * a.size)
    let (v, f) := atomNew sub a.ty old (a.value % m) (a.compare % m)
    (some v, f)

/-- Marks that the spin detector's iteration changed something (R357). -/
def Thread.stirred (th : Thread) : Thread := { th with spins := th.spins.map fun x => { x with changed := true } }

/-- An access that writes nothing. -/
def AccKind.isRead (k : AccKind) : Bool := match k with | .load | .record => true | _ => false

/-- What the thread receives when its access has been performed: the loaded value, or an atomic's old value with its flags
(R181, R187). `new` is what was written. -/
def Thread.landed (th : Thread) (k : AccKind) (a : Access) (old : Nat) (new : Option Nat) (flags : Nat) : Thread :=
  match k with
  | .load =>
    let v := loadFill a.ty old
    let w := a.ty.regs
    let th' := th.setVs a.dreg v w
    if th'.regs = th.regs then th' else th'.stirred
  | .store | .red _ => th.stirred
  | .record => { th with launching := th.launching.map fun l => { l with got := Tab.put a.dreg old l.got } }
  | .atom _ =>
    let th := (th.setVs a.dreg old a.ty.regs).raiseFlags flags
    if new = some old then th else th.stirred

/-! ### One access -/

/-- The outcome of trying to perform an access. -/
inductive Perf where
  | done (s : State)
  /-- The line is not at the site: a request of this kind goes to its home. -/
  | need (line : Nat) (kind : ReqKind)
  /-- It waits at its site. -/
  | wait
  | stop (e : LaneStop)

/-- The access is performed: its value reaches the thread and the agent's clock rises to its time. -/
def State.perform (s : State) (k : AccKind) (i : Tid) (t : Team) (a : Access) (old : Nat) (new : Option Nat)
    (flags time : Nat) : State :=
  (s.raise t.clockKey time).modThread i fun th => th.landed k a old new flags

/-- An access at a forme bank (R55, R65, R66, R100, R106). -/
def State.performForme (s : State) (k : AccKind) (i : Tid) (t : Team) (a : Access) (fk off : Nat) : Perf :=
  match s.formeCheck fk off a.size a.va (k == .store) with
  | .error e => .stop e
  | .ok () =>
    let pts := s.clock t.clockKey
    let f := s.forme fk
    let old := readBytes f.data off a.size
    let (new, flags) := k.write a old
    let (f, time) := match new with
      | none => let (f, _, time) := f.load off a.size pts; (f, time)
      | some v => f.store off a.size v pts
    let s := (s.modForme fk fun _ => f)
    let s := if new.isSome then s.healForme fk off a.size else s
    .done (s.perform k i t a old new flags time)

/-! ### Region slices (R52 to R54) -/

/-- Records an access's hint and use in the slice: `.str` inserts as least recently used; at most 8 lines of a set are
sticky, the oldest beyond that, by use, losing its hint (R54). DESIGN CHOICE (log 60). -/
def Region.touch (g : Region) (ln hint : Nat) : Region :=
  let used := if hint = 1 ∨ hint = 3 then 0 else g.order + 1
  let copies := Tab.modify ln (fun c => { c with used, hint }) g.copies
  let sticky := copies.filter fun (k, c) => sameSet k ln && c.hint == 2 && k != ln
  let copies := if hint = 2 ∧ 8 ≤ sticky.length then
      match leastBy (fun p => p.2.used) sticky with
      | some v => Tab.modify v.1 (fun c => { c with hint := 0 }) copies
      | none => copies
    else copies
  { g with order := g.order + 1, copies }

/-- Whether a region slice may give a line up: no request for it and no earlier write-back of it is outstanding. -/
def Region.mayDrop (g : Region) (ln : Nat) : Bool := !Tab.has g.asked ln && !Tab.has g.wbuf ln && !g.ways.contains ln

/-- A region slice gives up a line: a shared copy silently, an owned one by WB; a write-back of an uncorrectable line is
logged (R37, R53). A line with a request outstanding stays. -/
def State.dropCopy (s : State) (r ln : Nat) : State :=
  let g := s.region r
  match Tab.find ln g.copies with
  | none => s
  | some c =>
    if !g.mayDrop ln then s
    else if c.owned then
      let s := (s.logLine c.data).modRegion r fun g => { g with copies := Tab.del ln g.copies, wbuf := Tab.put ln c g.wbuf }
      s.send
        { kind := .wb, line := ln, region := r, tag := s.nextTag, data := c.data, dirty := c.dirty, wts := c.wts
          rts := c.rts, hint := c.hint }
    else s.modRegion r fun g => { g with copies := Tab.del ln g.copies }

/-- The lines of a region's slices, with those that a way is set aside for. -/
def Region.taken (g : Region) : List Nat := Tab.keys g.copies ++ g.ways.filter fun k => !Tab.has g.copies k

/-- The line to be replaced among some: sticky lines last, then the least recently used (R54). -/
def Region.victim (g : Region) (ok : Nat → Bool) : Option Nat :=
  (leastBy (fun (p : Nat × Copy) => (if p.2.hint = 2 then 2 ^ 80 else 0) + p.2.used)
    (g.copies.filter fun (k, _) => ok k && g.mayDrop k)).map (·.1)

/-- The L1 part of a core's slice shrinks to what the formes leave it; a line with a request or a write-back outstanding goes
when that has been answered (R52, R93). -/
def State.fitSlice (s : State) (core : Nat) : State :=
  let r := regionOf core
  let mine := fun k => sliceCore r (sliceOf k) == core
  let extra := ((s.region r).taken.filter mine).length - s.sliceLines core
  (List.range extra).foldl (fun s _ =>
    match (s.region r).victim mine with
    | some v => s.dropCopy r v
    | none => s) s

/-- Sets a way aside for a line: its set has 16, and its slice holds what the formes on its core leave (R52); false while no
line can make room. How the formes take ways from the sets is not fixed: only the total is bounded. DESIGN CHOICE
(log 44). -/
def State.regionRoom (s : State) (r ln : Nat) : State × Bool :=
  if Tab.has (s.region r).copies ln || (s.region r).ways.contains ln then (s, true)
  else
    let core := sliceCore r (sliceOf ln)
    let s := s.fitSlice core
    let g := s.region r
    let keep := fun (s : State) => (s.modRegion r fun g => { g with ways := g.ways ++ [ln] }, true)
    let full := decide (16 ≤ (g.taken.filter (sameSet ln)).length)
    let slice := fun k => sliceOf k == sliceOf ln
    if !full && decide ((g.taken.filter slice).length < s.sliceLines core) then keep s
    else
      match g.victim (if full then sameSet ln else slice) with
      | some v => keep (s.dropCopy r v)
      | none => (s, false)

/-- Whether an operation's access to a line is performed at the line's home: atomics to host lines and of device or system
scope, and `.byp` stores and atomics (R54, R55). -/
def MemOp.atHomeSite (op : MemOp) (ln : Nat) : Bool :=
  (match op.kind with | .atom _ | .red _ => isHostLine ln || decide (2 ≤ op.scope) | _ => false)
    || (op.hint == 3 && !op.kind.isRead)

/-- An access to a line that the region slice may hold, or that its home performs. A `.byp` load takes the value and the
lease of a line its slice does not own from the home (R43, R54, R55, R61). DEDUCED (logs 36, 73). -/
def State.performLine (s : State) (op : MemOp) (i : Tid) (t : Team) (a : Access) (ln off : Nat) : Perf :=
  let pts := s.clock t.clockKey
  let r := regionOf t.core
  let host := isHostLine ln
  let homeSite := op.atHomeSite ln
  let ecc := fun (d : LineData) =>
    (if op.kind == .store then lineBadWrite d off a.size else lineBadRead d off a.size).map fun arr =>
      Perf.stop (.fault { code := Code.ecc, info := arr, addr := a.va })
  let copy := Tab.find ln (s.region r).copies
  let writes := !op.kind.isRead
  let served := op.atHome.contains ln && s.lineState ln == .h && !(s.lineAt ln).hostHeld
  if !writes then
    match copy with
    | some c =>
      if c.owned || (decide (pts ≤ c.rts) && (op.hint != 3 || op.atHome.contains ln)) then
        match ecc c.data with
        | some p => p
        | none =>
          let time := max pts c.wts
          let c := { c with rts := if c.owned then max c.rts time else c.rts }
          let s := s.modRegion r fun g => ({ g with copies := Tab.put ln c g.copies } : Region).touch ln op.hint
          .done (s.perform op.kind i t a (lineRead c.data off a.size) none 0 time)
      else .need ln (.gets (op.hint == 3))
    | none => .need ln (.gets (op.hint == 3))
  else if served then
    match ecc (s.lineAt ln).data with
    | some p => p
    | none =>
      let l := s.lineAt ln
      let old := lineRead l.data off a.size
      let (new, flags) := op.kind.write a old
      let (s, time) := s.homeStore ln pts (lineWrite l.data off a.size (new.getD old))
      let s := s.touchHome ln op.hint
      let s := s.perform op.kind i t a old new flags time
      if host && op.kind == .store && op.hint == 3 then
        let (tag, s) := s.fresh
        .done (({ s with port := { s.port with
          bypStores := Tab.put tag (i, lineBase ln + off, a.size, a.value) s.port.bypStores } } : State).modThread i fun th =>
            { th with hostOut := th.hostOut ++ [tag] })
      else .done s
  else if homeSite then .need ln .atom
  else
    match copy with
    | some c =>
      if c.owned then
        match ecc c.data with
        | some p => p
        | none =>
          let old := lineRead c.data off a.size
          let (new, flags) := op.kind.write a old
          let time := max pts (c.rts + 1)
          let c := { c with
            data := lineWrite c.data off a.size (new.getD old), dirty := true, wts := time, rts := time }
          let s := s.modRegion r fun g => ({ g with copies := Tab.put ln c g.copies } : Region).touch ln op.hint
          .done (s.perform op.kind i t a old new flags time)
      else .need ln .upg
    | none => .need ln .getx

/-- Whether a request is a reduction packet. -/
def isPacket : PeerOp → Bool
  | .red .. => true
  | .load | .store | .atom .. => false

/-- The plane that an inbound request names: only the elements of a collective's packets travel on another than the module's
own (R282). -/
def requestWay (r : PeerRequest) : Option Nat := if isPacket r.op then r.plane else none

/-- The thread whose program order an inbound request keeps (R85): an element of a collective's packet is no thread's
access. -/
def requestSender (r : PeerRequest) : Option (Nat × Nat) := if (requestWay r).isSome then none else some (r.source, r.agent)

/-- Whether two accesses are one thread's. -/
def sameThread (a b : Option (Nat × Nat)) : Bool := a.isSome && a == b

/-- Whether an access received waits behind one received before it: of the same thread, or, for two packets, to the same
address (R85, R284). -/
def behindPeer (req old : PeerRequest) : Bool :=
  sameThread (requestSender req) (requestSender old)
    || (isPacket old.op && isPacket req.op && decide (old.pa < req.pa + req.size) && decide (req.pa < old.pa + old.size))

/-- Whether a reduction packet is queued for a platen-owned line (R274, R279). -/
def Platen.queued (p : Platen) (ln : Nat) : Bool := p.packets.any fun q => q.pa / 128 == ln

/-- Whether an inbound access that waits, and is no packet, does so till the end of a call: for its line, or for an earlier packet
of its thread (R62, R85, R276). -/
def State.awaitsCall (s : State) (req : PeerRequest) (kind : Nat) : Bool :=
  (kind == 0 && s.heldByCall (deviceLine req.pa))
    || s.fabric.homePackets.any fun (_, p) => sameThread p.sender (requestSender req) && s.heldByCall (deviceLine p.pa)

/-- Whether a packet for a platen-owned line has been received and not yet queued (R274, R279). One that its thread's order
keeps till the end of a call has not reached the platen. DEDUCED (log 49). -/
def State.nearing (s : State) (ln : Nat) : Bool :=
  (s.fabric.inbound.foldl (fun (acc : List PeerRequest × Bool) (req, kind) =>
    if acc.1.any (behindPeer req) || (!isPacket req.op && s.awaitsCall req kind) then (req :: acc.1, acc.2)
    else (acc.1, acc.2 || (isPacket req.op && decide (3 ≤ kind) && req.pa / 128 == ln))) ([], false)).2

def State.platen (s : State) (st : Nat) : Platen := Tab.getD s.platens st {}
def State.modPlaten (s : State) (st : Nat) (f : Platen → Platen) : State :=
  { s with platens := Tab.put st (f (s.platen st)) s.platens }

/-- Whether an access to a platen-owned line waits for reduction packets that came before it (R274, R279). -/
def State.packetsFor (s : State) (pa : Nat) : Bool := (s.platen (stackOf pa)).queued (pa / 128) || s.nearing (pa / 128)

/-- Times of a platen-owned line: those kept, else the memory time (R66). -/
def Platen.wtsOf (p : Platen) (ln : Nat) : Nat := Tab.getD p.wts ln p.mem
def Platen.rtsOf (p : Platen) (ln : Nat) : Nat := Tab.getD p.rts ln p.mem

/-- A read of a platen-owned line by an agent of clock `pts`: new clock (R43, R66). -/
def State.platenLoad (s : State) (st ln pts : Nat) : State × Nat :=
  let p := s.platen st
  let time := max pts (p.wtsOf ln)
  (s.modPlaten st fun p =>
    { p with wts := Tab.put ln (p.wtsOf ln) p.wts, rts := Tab.put ln (max (p.rtsOf ln) time) p.rts }, time)

/-- The times of a write of a platen-owned line (R43, R66). -/
def State.platenStamp (s : State) (st ln pts : Nat) : State × Nat :=
  let time := max pts ((s.platen st).rtsOf ln + 1)
  (s.modPlaten st fun p => { p with wts := Tab.put ln time p.wts, rts := Tab.put ln time p.rts }, time)

/-- A main-die access to a platen-owned line (R66, R278). -/
def State.performPlaten (s : State) (k : AccKind) (i : Tid) (t : Team) (a : Access) (pa : Nat) : Perf :=
  let st := stackOf pa
  let ln := pa / 128
  if s.packetsFor pa then .wait
  else
    match if k == .store then s.badWrite pa a.size else s.badRead pa a.size with
    | some arr => .stop (.fault { code := Code.ecc, info := arr, addr := a.va })
    | none =>
      let pts := s.clock t.clockKey
      let old := readBytes s.hbm pa a.size
      let (new, flags) := k.write a old
      match new with
      | none => let (s, time) := s.platenLoad st ln pts; .done (s.perform k i t a old none 0 time)
      | some v =>
        let s := if k == .store then s.healMem pa a.size else s
        let (s, time) := s.platenStamp st ln pts
        .done (({ s with hbm := writeBytes s.hbm pa a.size v } : State).perform k i t a old new flags time)

/-- A near-memory core's access to its stack's DRAM, with the platen clock on lent lines and outside S elsewhere (R80, R81,
R274). -/
def State.performNear (s : State) (k : AccKind) (i : Tid) (t : Team) (a : Access) (pa : Nat) : Perf :=
  if s.packetsFor pa then .wait
  else
    match if k == .store then s.badWrite pa a.size else s.badRead pa a.size with
    | some arr => .stop (.fault { code := Code.ecc, info := arr, addr := a.va })
    | none =>
      let old := readBytes s.hbm pa a.size
      let (new, flags) := k.write a old
      let s := if k == .store then s.healMem pa a.size else s
      let s := match new with
        | none => s
        | some v => { s with hbm := writeBytes s.hbm pa a.size v }
      .done (s.perform k i t a old new flags (s.clock t.clockKey))

/-- MOD of MODID (R281). -/
def State.modId (s : State) : Nat := s.reg 0x100800 % 2 ^ 10

/-- Whether peer traffic to a module can be sent (R282, R285). -/
def State.planeUp (s : State) (module : Nat) : Bool :=
  s.modId != 0x3FF && Tab.getD s.fabric.up (module % 128) false

/-- The operation of a peer request. -/
def AccKind.peerOp (k : AccKind) (ty : Ty) : PeerOp :=
  match k with
  | .load | .record => .load
  | .store => .store
  | .atom sub => .atom sub ty
  | .red sub => .red sub ty

/-- A peer access is sent; a store or reduction completes then, a load or atomic awaits its reply (R85, R188, R284). -/
def State.performPeer (s : State) (key : Nat) (k : AccKind) (i : Tid) (a : Access) (module pa : Nat) : Perf :=
  if !s.planeUp module then .stop (.fault (protection 13 a.va))
  else
    let (tag, s) := s.fresh
    let ctx := ((s.team? i.team).map s.ctxOf).getD 0
    let replied := match k with | .load | .record | .atom _ => true | _ => false
    let out : PeerOut :=
      { tid := i, module, va := a.va, ctx, write := !k.isRead, op := if replied then some key else none
        acc := if replied then some a else none, plane := module % 128 }
    let req : PeerRequest :=
      { op := k.peerOp a.ty, source := s.modId, tag, pa, size := a.size, value := a.value, compare := a.compare
        agent := 1024 * i.team + i.n }
    let s := { s with fabric := { s.fabric with
      out := Tab.put tag out s.fabric.out, sent := s.fabric.sent ++ [(module, req)] } }
    let s := s.modThread i fun th => if k.isRead then th else { th.stirred with peerOut := th.peerOut ++ [tag] }
    .done (if replied then { s with memops := Tab.modify key (fun o => { o with replies := o.replies ++ [tag] }) s.memops }
           else s)

/-- An I/O access is sent over CXL.io; a read awaits its data (R88). -/
def State.performIo (s : State) (key : Nat) (k : AccKind) (i : Tid) (a : Access) (pa : Nat) : Perf :=
  if k.isRead then
    let (tag, s) := s.fresh
    let s := { s with
      port := { s.port with ioReads := Tab.put tag (i, a.size, key) s.port.ioReads }
      memops := Tab.modify key (fun o => { o with replies := o.replies ++ [tag] }) s.memops }
    let s := { s with fabric := { s.fabric with
      out := Tab.put tag
        { tid := i, module := 0, va := a.va, ctx := ((s.team? i.team).map s.ctxOf).getD 0, write := false, op := some key
          acc := some a } s.fabric.out } }
    .done (s.modThread i fun th => { th with ioOut := th.ioOut ++ [tag] })
  else .done (({ s with port := { s.port with ioWrites := s.port.ioWrites ++ [(pa, a.size, a.value)] } } : State).modThread i
      Thread.stirred)

/-- Whether a near-memory team's call has met its first fault: no further access of it is made (R275). -/
def State.callStopped (s : State) (t : Team) : Bool :=
  match t.place with
  | .near stack _ call => ((s.call? stack call).map Call.stopping).getD true
  | .core _ => false

/-- Tries to perform one access of an operation. DESIGN CHOICE (log 40). -/
def State.attempt (s : State) (key : Nat) (op : MemOp) (t : Team) (a : Access) : Perf :=
  let i : Tid := { team := op.team, n := a.tid }
  if t.near then
    if s.callStopped t then .wait else
    match a.loc with
    | .device pa | .platen pa => s.performNear op.kind i t a pa
    | _ => .wait
  else
    match a.loc with
    | .forme fk off => s.performForme op.kind i t a fk off
    | .device pa => s.performLine op i t a (deviceLine pa) (pa % 128)
    | .host pa => s.performLine op i t a (hostLine pa) (pa % 128)
    | .platen pa => s.performPlaten op.kind i t a pa
    | .peer m pa => s.performPeer key op.kind i a m pa
    | .io pa => s.performIo key op.kind i a pa

/-! ### Operations of issue groups -/

/-- Whether the answer to a request leaves a copy in the region slice. -/
def ReqKind.keeps : ReqKind → Bool
  | .gets byp => !byp
  | .getx | .upg => true
  | .atom | .recall | .install .. => false

/-- Sends a request for a line unless the region slice has one outstanding, or no way for its answer (R46, R52). -/
def State.ask (s : State) (key : Nat) (op : MemOp) (t : Team) (ln : Nat) (kind : ReqKind) : State :=
  let r := regionOf t.core
  let (s, room) := if Tab.has (s.region r).asked ln || !kind.keeps then (s, true) else s.regionRoom r ln
  if Tab.has (s.region r).asked ln || !room then s
  else
    let req : HReq :=
      { kind, line := ln, region := r, tag := s.nextTag, pts := s.clock t.clockKey
        wts := if kind == .gets true then none else (Tab.find ln (s.region r).copies).map Copy.wts
        lease := s.lease (s.ctxOf t), hint := op.hint, op := key }
    let s := s.modRegion r fun g => { g with asked := Tab.put ln s.nextTag g.asked }
    s.send { kind := .req req, line := ln, region := r, tag := s.nextTag, op := key }

/-- The registers that an access will write. -/
def AccKind.dests (k : AccKind) (a : Access) : List Nat :=
  match k with
  | .load | .atom _ => regSpan a.dreg a.ty.regs
  | .store | .red _ | .record => []

/-- A thread leaves its operation with a wait of its own or with a fault, which is to be delivered, and none of its accesses left
is made; while it is parked the registers that access `a` of it will write are in flight (R128, R177). -/
def State.dropLane (s : State) (key : Nat) (a : Access) (i : Tid) (next : Nat) (e : LaneStop) : State × Faults :=
  let s := { s with memops := Tab.modify key (fun o =>
    { o with threads := o.threads.erase i.n, accs := o.accs.filter fun a => a.tid != i.n }) s.memops }
  match e with
  | .fault t => (s, [(i, t, next)])
  | .park w =>
    let dsts := ((Tab.find key s.memops).map fun o => o.kind.dests a).getD []
    (s.modThread i fun th => { th.issues dsts with wait := w, launching := none }, [])

/-- The first access of an operation is made. -/
def State.popAccess (s : State) (key : Nat) : State :=
  { s with memops := Tab.modify key (fun o => { o with accs := o.accs.drop 1 }) s.memops }

/-- The 128-byte line of a location at its site. -/
def Loc.line : Loc → Loc
  | .forme k off => .forme k (off / 128)
  | .device pa => .device (pa / 128)
  | .host pa => .host (pa / 128)
  | .io pa => .io (pa / 128)
  | .peer m pa => .peer m (pa / 128)
  | .platen pa => .platen (pa / 128)

/-- A line number that an access touches at a home, none for accesses elsewhere. -/
def Loc.homeLine : Loc → Option Nat
  | .device pa => some (deviceLine pa)
  | .host pa => some (hostLine pa)
  | _ => none

/-- How many of the first accesses are bundled with the first `n`: up to the last one to a line that one of those goes to. -/
def bundleStep (as : List Access) (n : Nat) : Nat :=
  (as.zipIdx.filter fun (b, i) => decide (i < n) || (as.take n).any fun a => a.loc.line == b.loc.line).foldl
    (fun m (_, i) => max m (i + 1)) n

/-- How many of the first accesses are bundled: the fewest that share no line with those after them (R70, R179). -/
def bundleLen (as : List Access) : Nat → Nat → Nat
  | 0, n => n
  | fuel + 1, n => if bundleStep as n = n then n else bundleLen as fuel (bundleStep as n)

/-- The accesses of an atomic or a reduction that have to be performed with the first in one step, when they go to more than
one line: accesses to one line have no other access to it between them (R179), and lanes keep their order (R70). -/
def MemOp.bundle (op : MemOp) : List Access :=
  match op.kind with
  | .atom _ | .red _ =>
    let b := op.accs.take (bundleLen op.accs op.accs.length 1)
    if b.all fun a => some a.loc.line == (b.head?.map fun h => h.loc.line) then [] else b
  | .load | .store | .record => []

/-- Brings the line of a bundled access that its region does not own home at once, to be performed there, as an ATOM would
(R46, R55); false while it cannot come. DEDUCED (log 61). -/
def State.bundleReady (s : State) (key : Nat) (op : MemOp) (t : Team) (a : Access) : State × Bool :=
  match a.loc.homeLine with
  | none => (s, true)
  | some ln =>
    let owned := ((Tab.find ln (s.region (regionOf t.core)).copies).map Copy.owned).getD false
    let runs := op.atHome.contains ln && s.lineState ln == .h && !(s.lineAt ln).hostHeld
    if t.near || runs || (owned && !op.atHomeSite ln) then (s, true)
    else
      match s.homeReady ln true with
      | (s, ok) => ({ s with memops := Tab.modify key (fun o => { o with atHome := ln :: o.atHome }) s.memops }, ok)

/-- Performs the accesses of a bundle in ascending lane order, all of them or, with the line that one waits for, none. -/
def State.sweepBundle (s : State) (key : Nat) : List Access → Except (Option Nat) (State × Faults)
  | [] => .ok (s, [])
  | a :: as =>
    match Tab.find key s.memops with
    | none => .ok (s, [])
    | some op =>
      match s.team? op.team with
      | none => .ok (s, [])
      | some t =>
        if !op.accs.contains a then s.sweepBundle key as
        else
          match s.bundleReady key op t a with
          | (_, false) => .error a.loc.homeLine
          | (s, true) =>
            let op := (Tab.find key s.memops).getD op
            match (s.popAccess key).attempt key op t a with
            | .done s => s.sweepBundle key as
            | .stop e =>
              let (s, f) := s.dropLane key a { team := op.team, n := a.tid } op.next e
              (s.sweepBundle key as).map fun (s, fs) => (s, f ++ fs)
            | .need ln _ => .error (some ln)
            | .wait => .error none

/-- Performs an operation's accesses in ascending lane order up to the first that cannot be performed yet (R69, R70). -/
def State.sweepLanes (s : State) (key : Nat) : Nat → State × Faults
  | 0 => (s, [])
  | fuel + 1 =>
    match Tab.find key s.memops with
    | none => (s, [])
    | some op =>
      match op.accs, s.team? op.team with
      | a :: _, some t =>
        if op.bundle.isEmpty then
          match (s.popAccess key).attempt key op t a with
          | .done s => s.sweepLanes key fuel
          | .stop e =>
            let (s, f) := s.dropLane key a { team := op.team, n := a.tid } op.next e
            let (s, fs) := s.sweepLanes key fuel
            (s, f ++ fs)
          | .need ln kind => (s.ask key op t ln kind, [])
          | .wait => (s, [])
        else
          match s.sweepBundle key op.bundle with
          | .ok (s, f) =>
            let (s, fs) := s.sweepLanes key fuel
            (s, f ++ fs)
          | .error (some ln) => (s.ask key op t ln .atom, [])
          | .error none => (s, [])
      | _, _ => (s, [])

/-- Whether the access that an operation has come to waits at a line in L, an architectural wait: a platen keeps no access of its
own out (R62). -/
def State.waitsLent (s : State) (op : MemOp) : Bool :=
  let head := if op.bundle.isEmpty then op.accs.take 1 else op.bundle
  !((s.team? op.team).map Team.near).getD false && head.any fun a => (a.loc.homeLine.map s.isLent).getD false

/-- Whether a thread of an operation has an access or a reply still to come. -/
def State.owes (s : State) (op : MemOp) (n : Nat) : Bool :=
  op.accs.any (fun a => a.tid == n) || op.replies.any fun tag => ((Tab.find tag s.fabric.out).map fun o => o.tid.n) == some n

/-- While an operation waits at a line in L, those of its threads that have nothing to come go on: they are in no architectural
wait (R296, R297). -/
def State.releaseDone (s : State) (key : Nat) : State :=
  match Tab.find key s.memops with
  | none => s
  | some op =>
    if s.waitsLent op then
      ({ s with memops := Tab.put key { op with threads := op.threads.filter (s.owes op) } s.memops } : State).threadsGoOn op
        (op.threads.filter fun n => !s.owes op n)
    else s

/-- All of an operation is performed: its threads go on (R181, R297). -/
def State.finishOp (s : State) (key : Nat) : State :=
  match Tab.find key s.memops with
  | none => s
  | some op =>
    if op.accs.isEmpty && op.replies.isEmpty then
      ({ s with memops := Tab.del key s.memops } : State).threadsGoOn op op.threads
    else ({ s with memops := Tab.put key { op with atHome := [] } s.memops } : State).releaseDone key

/-- Goes on with an operation as far as it can go; the faults that its threads meet are to be delivered.
DESIGN CHOICE (log 40). -/
def State.sweep (s : State) (key : Nat) : State × Faults :=
  match Tab.find key s.memops with
  | none => (s, [])
  | some op =>
    let (s, fs) := s.sweepLanes key op.accs.length
    (s.finishOp key, fs)

/-- Goes on with several operations, in order of issue. -/
def State.sweepAll (s : State) (keys : List Nat) : State × Faults :=
  keys.foldl (fun acc key =>
    let (s, fs) := acc.1.sweep key
    (s, acc.2 ++ fs)) (s, [])

/-- Starts the memory operation of an issue group; the group's threads wait for it (R297). DESIGN CHOICE (log 40). -/
def State.startOp (s : State) (op : MemOp) : State × Faults :=
  let (key, s) := s.freshKey
  let s := { s with memops := Tab.put key op s.memops }
  (op.threads.foldl (fun s n => s.modThread { team := op.team, n } fun th => { th with wait := .mem key }) s).sweep key

/-- The operations of a region's cores, in order of issue. -/
def State.opsOf (s : State) (r : Nat) : List Nat :=
  Tab.keys (s.memops.filter fun (_, o) => ((s.team? o.team).map fun t => !t.near && regionOf t.core == r).getD false)

/-- Goes on with every operation that waits at a platen. -/
def State.sweepPlaten (s : State) (st : Nat) : State :=
  let mine := s.memops.filter fun (_, o) =>
    o.accs.any fun a => match a.loc with | .platen pa | .device pa => stackOf pa == st | _ => false
  let (s, fs) := s.sweepAll (Tab.keys mine)
  s.deliverFaults fs

/-- Every slice gives up what the formes leave no room for and an outstanding request had kept there (R10, R13, R52). -/
def State.fitSlices (s : State) : State :=
  (Tab.keys s.regions).foldl (fun s r =>
    ((s.region r).taken.map fun ln => sliceCore r (sliceOf ln)).eraseDups.foldl State.fitSlice s) s

/-- Runs the operations that a home lets run, then serves what has waited for them; a request that was served at the home holds
its line in the slice no longer (R49, R55). -/
def State.serveOps (s : State) (h : Nat) : Nat → State × Faults
  | 0 => (s, [])
  | fuel + 1 =>
    let marked := s.memops.filter fun (_, o) => !o.atHome.isEmpty
    if marked.isEmpty then
      let (s, any) := s.drainQueue h
      if any then s.serveOps h fuel else (s, [])
    else
      let regions := (marked.filterMap fun (_, o) => (s.team? o.team).map fun t => regionOf t.core).eraseDups
      let (s, fs) := s.sweepAll (Tab.keys marked)
      let (s, fs) := regions.foldl (fun acc r =>
        let (s, fs) := acc.1.sweepAll (acc.1.opsOf r)
        (s, acc.2 ++ fs)) (s, fs)
      let (s, more) := s.serveOps h fuel
      (s, fs ++ more)

/-- A home serves what it can; then the faults that this has shown are delivered in lane order, and the port's requests are
served (R10, R49, R82, R373). -/
def State.settle (s : State) (h fuel : Nat) : State :=
  let (s, fs) := s.serveOps h fuel
  let s := s.deliverFaults fs
  (s.servePort s.port.requests.length).fitSlices

end Sys2Proof.Machine
end

