-- ==== Sys2Proof/Machine/Coherence.lean ====
section
/-! DEFINITION. The steps of the coherence protocol: requests at homes, forwards at owners, replies at region slices, wakes
(R46 to R61). An agent's step that does not arise is not enabled (log 1). -/

namespace Sys2Proof.Machine

/-- Answers that a step does not arise. -/
def notEnabled (mnemonic : String) : Host.Outcome State Fault Refusal := .fault (.notEnabled mnemonic)

/-! ### At the home -/

/-- A request's arrival at its home (Table 3.3). -/
def homeRequest (name : String) (mine : ReqKind → Bool) (tag : Nat) (s : State) : Host.Outcome State Fault Refusal :=
  match s.arriving tag with
  | some m =>
    match m.kind with
    | .req r => if mine r.kind then .next (((s.taken tag).request r).settle (homeOf m.line) 64) else notEnabled name
    | _ => notEnabled name
  | none => notEnabled name

/-- GETS (R43, R46). -/
def execGets (tag : Nat) (s : State) : Host.Outcome State Fault Refusal :=
  homeRequest "GETS" (fun k => match k with | .gets _ => true | _ => false) tag s

/-- GETX (R46). -/
def execGetx (tag : Nat) (s : State) : Host.Outcome State Fault Refusal := homeRequest "GETX" (· == .getx) tag s

/-- UPG (R46, R47). -/
def execUpg (tag : Nat) (s : State) : Host.Outcome State Fault Refusal := homeRequest "UPG" (· == .upg) tag s

/-- ATOM; the installation of a `waddr` that was answered NACK comes again in the same way (R46, R49, R55, R61). -/
def execAtomRequest (tag : Nat) (s : State) : Host.Outcome State Fault Refusal :=
  homeRequest "ATOM_REQUEST" (fun k => match k with | .atom | .install .. => true | _ => false) tag s

/-- WB: the home takes the data and times; in OF or OD it is the owner's answer (R46, R48). -/
def execWb (tag : Nat) (s : State) : Host.Outcome State Fault Refusal :=
  match s.arriving tag with
  | some m =>
    if m.kind == .wb then
      let s := (s.taken tag).takeBack m.line m.data m.dirty m.wts m.rts
      let s := s.complete m.line
      let s := s.send { kind := .wbAck, line := m.line, region := m.region, tag := m.tag }
      .next (s.settle (homeOf m.line) 64)
    else notEnabled "WB"
  | none => notEnabled "WB"

/-- FORWARD_ANSWER: the data and times come home and the waiting request is completed (R46, R51). -/
def execForwardAnswer (tag : Nat) (s : State) : Host.Outcome State Fault Refusal :=
  match s.arriving tag with
  | some m =>
    match m.kind with
    | .answer _ =>
      let s := (s.taken tag).takeBack m.line m.data m.dirty m.wts m.rts
      .next ((s.complete m.line).settle (homeOf m.line) 64)
    | _ => notEnabled "FORWARD_ANSWER"
  | none => notEnabled "FORWARD_ANSWER"

/-- FWD_GONE is discarded: the write-back before it was the answer (R48). -/
def execFwdGone (tag : Nat) (s : State) : Host.Outcome State Fault Refusal :=
  match s.arriving tag with
  | some m => if m.kind == .fwdGone then .next (s.taken tag) else notEnabled "FWD_GONE"
  | none => notEnabled "FWD_GONE"

/-! ### At the owner -/

/-- Whether a grant of the line to the region is still under way. -/
def State.granting (s : State) (r ln : Nat) : Bool :=
  s.net.any fun (_, m) => m.region == r && m.line == ln && (m.kind == .dataX || m.kind == .grantX)

/-- A region slice meets a forward or a discovery (R46, R48, R51). A forward that overtakes the grant waits for it. -/
def State.meetForward (s : State) (tag : Nat) (m : Msg) (excl disc : Bool) : State :=
  let g := s.region m.region
  if s.granting m.region m.line then s
  else
    let s := s.taken tag
    match (Tab.find m.line g.copies).filter Copy.owned with
    | some c =>
      let s := s.modRegion m.region fun g => g.surrender m.line !excl
      s.send
        { kind := .answer !excl, line := m.line, region := m.region, tag := m.tag, data := c.data, dirty := c.dirty
          wts := c.wts, rts := c.rts, hint := c.hint }
    | none =>
      if Tab.has g.wbuf m.line || !disc then s.send { kind := .fwdGone, line := m.line, region := m.region, tag := m.tag }
      else s

/-- FWD_S: the owner keeps a shared copy (R46). -/
def execFwdS (tag : Nat) (s : State) : Host.Outcome State Fault Refusal :=
  match s.arriving tag with
  | some m => if m.kind == .fwdS then .next (s.meetForward tag m false false) else notEnabled "FWD_S"
  | none => notEnabled "FWD_S"

/-- FWD_X: the owner drops its copy (R46). -/
def execFwdX (tag : Nat) (s : State) : Host.Outcome State Fault Refusal :=
  match s.arriving tag with
  | some m => if m.kind == .fwdX then .next (s.meetForward tag m true false) else notEnabled "FWD_X"
  | none => notEnabled "FWD_X"

/-- DISC: the owner answers as it would a forward, every other slice not at all (R51). -/
def execDisc (tag : Nat) (s : State) : Host.Outcome State Fault Refusal :=
  match s.arriving tag with
  | some m =>
    match m.kind with
    | .disc excl => .next (s.meetForward tag m excl true)
    | _ => notEnabled "DISC"
  | none => notEnabled "DISC"

/-! ### At the requester -/

/-- Forgets the outstanding request that a reply answers. -/
def Region.answered (g : Region) (m : Msg) : Region :=
  if Tab.find m.line g.asked = some m.tag then g.unask m.line else g

/-- A region's operations go on with a line that has come to its slice; then the slice gives up what the formes leave no room
for and an outstanding request had kept there (R10, R52). `before`: faults that the step has shown already. -/
def State.sweepSlice (s : State) (r ln : Nat) (before : Faults := []) : State :=
  let (s, fs) := s.sweepAll (s.opsOf r)
  (s.deliverFaults (before ++ fs)).fitSlice (sliceCore r (sliceOf ln))

/-- A reply's line in the region slice, then the operations that waited for it. -/
def State.meetReply (s : State) (tag : Nat) (m : Msg) (f : Tab Copy → Tab Copy) : State :=
  let s := s.taken tag
  let s := s.modRegion m.region fun g => ({ g.answered m with copies := f g.copies } : Region).touch m.line m.hint
  s.sweepSlice m.region m.line

/-- DATA: a shared copy; a `.byp` load takes its value and lease and keeps none (R43, R54). -/
def execData (tag : Nat) (s : State) : Host.Outcome State Fault Refusal :=
  match s.arriving tag with
  | some m =>
    if m.kind == .data then
      let c : Copy := { owned := false, data := m.data, wts := m.wts, rts := m.rts, hint := m.hint }
      if m.hint = 3 then
        let before := Tab.find m.line (s.region m.region).copies
        let s := (s.taken tag).modRegion m.region fun g => { g.answered m with copies := Tab.put m.line c g.copies }
        let s := { s with memops := Tab.modify m.op (fun o => { o with atHome := m.line :: o.atHome }) s.memops }
        let (s, fs) := s.sweep m.op
        let s := s.modRegion m.region fun g =>
          { g with copies := match before with | some b => Tab.put m.line b g.copies | none => Tab.del m.line g.copies }
        .next (s.sweepSlice m.region m.line fs)
      else .next (s.meetReply tag m (Tab.put m.line c))
    else notEnabled "DATA"
  | none => notEnabled "DATA"

/-- RENEW: the copy's lease runs on (R43, R53). -/
def execRenew (tag : Nat) (s : State) : Host.Outcome State Fault Refusal :=
  match s.arriving tag with
  | some m =>
    if m.kind == .renew then
      .next (s.meetReply tag m (Tab.modify m.line fun c => { c with wts := m.wts, rts := m.rts }))
    else notEnabled "RENEW"
  | none => notEnabled "RENEW"

/-- DATA_X: data and ownership; it replaces a shared copy (R46, R47). -/
def execDataX (tag : Nat) (s : State) : Host.Outcome State Fault Refusal :=
  match s.arriving tag with
  | some m =>
    if m.kind == .dataX then
      let c : Copy := { owned := true, data := m.data, wts := m.wts, rts := m.rts, hint := m.hint }
      .next (s.meetReply tag m (Tab.put m.line c))
    else notEnabled "DATA_X"
  | none => notEnabled "DATA_X"

/-- GRANT_X: ownership of the shared copy (R46). -/
def execGrantX (tag : Nat) (s : State) : Host.Outcome State Fault Refusal :=
  match s.arriving tag with
  | some m =>
    if m.kind == .grantX then
      .next (s.meetReply tag m (Tab.modify m.line fun c => { c with owned := true, wts := m.wts, rts := m.rts }))
    else notEnabled "GRANT_X"
  | none => notEnabled "GRANT_X"

/-- WB_ACK frees the write-back buffer; a copy that it kept may now leave its slice (R48, R52). -/
def execWbAck (tag : Nat) (s : State) : Host.Outcome State Fault Refusal :=
  match s.arriving tag with
  | some m =>
    if m.kind == .wbAck then
      .next (((s.taken tag).modRegion m.region fun g => { g with wbuf := Tab.del m.line g.wbuf }).sweepSlice m.region m.line)
    else notEnabled "WB_ACK"
  | none => notEnabled "WB_ACK"

/-- NACK: the requester will retry after 16 core clocks (R49). -/
def execNack (tag : Nat) (s : State) : Host.Outcome State Fault Refusal :=
  match s.arriving tag with
  | some m =>
    match m.kind with
    | .nack r => .next ((s.taken tag).send { kind := .retry r (s.cycle + 16), line := m.line, region := m.region, tag := m.tag })
    | _ => notEnabled "NACK"
  | none => notEnabled "NACK"

/-- NACK_RETRY (R49). -/
def execNackRetry (tag : Nat) (s : State) : Host.Outcome State Fault Refusal :=
  match s.arriving tag with
  | some m =>
    match m.kind with
    | .retry r due =>
      if due ≤ s.cycle then .next ((s.taken tag).send { kind := .req r, line := m.line, region := m.region, tag := m.tag })
      else notEnabled "NACK_RETRY"
    | _ => notEnabled "NACK_RETRY"
  | none => notEnabled "NACK_RETRY"

/-! ### Wakes and answers -/

/-- A thread parked in `waddr` goes on with its predicate true (R60, R190). -/
def Thread.woken (th : Thread) (pred : Nat) : Thread :=
  match th.wait with
  | .address .. => { th.setP pred true with wait := .ready, age := 0, pc := th.pc + 12 }.stirred
  | _ => th

/-- WAKE: the core's clock rises to the time of the write before `waddr` completes (R60, R72). -/
def execWake (tag : Nat) (s : State) : Host.Outcome State Fault Refusal :=
  match s.arriving tag with
  | some m =>
    match m.kind with
    | .wake i p =>
      let s := s.taken tag
      match s.team? i.team with
      | some t => .next ((s.raise t.clockKey m.wts).modThread i fun th => th.woken p)
      | none => .next s
    | _ => notEnabled "WAKE"
  | none => notEnabled "WAKE"

/-- BACK_INVALIDATE_ANSWER: the host has given the line up; the home leaves HB (R40, R57). -/
def execBackInvalidateAnswer (line : Nat) (s : State) : Host.Outcome State Fault Refusal :=
  if s.port.snoops.contains line then
    let s := { s with port := { s.port with snoops := s.port.snoops.erase line } }
    let l := s.lineAt line
    let s := s.putLineAt line { l with state := .h, hostHeld := false, pend := if l.leaving then none else l.pend }
    let s := if l.leaving then s.leave line else s.complete line
    .next (s.settle (homeOf line) 64)
  else notEnabled "BACK_INVALIDATE_ANSWER"

/-- HOST_LINE_FETCH: the line arrives with WTS the port clock (R56, R83). -/
def execHostLineFetch (line : Nat) (s : State) : Host.Outcome State Fault Refusal :=
  let ln := hostLineBase + line
  if s.port.fetching.contains ln then
    let t := s.clock portClock
    let s := { s with port := { s.port with fetching := s.port.fetching.erase ln } }
    let s := s.putLineAt ln { data := s.backing ln, wts := t, rts := t }
    .next (s.settle portHome 64)
  else notEnabled "HOST_LINE_FETCH"

/-- HOST_SNOOP: the port answers from its line, recalling it from its owner, or from the always-powered store; the line goes
to the host at time max(port clock, RTS + 1) (R56, R59, R84). A link in CXL.io only carries none (R417). That a snoop for
reading gives the line up as well, writes it to host memory and raises the port clock is a DESIGN CHOICE (log 74). -/
def execHostSnoop (line : Nat) (s : State) : Host.Outcome State Fault Refusal :=
  if s.busy.bootFailed then .next s else
  let ln := hostLineBase + line
  let answer := fun (s : State) (d : Option LineData) =>
    { s with port := { s.port with snoopData := d, snoopHit := d.isSome } }
  match Tab.find ln s.port.store with
  | some d =>
    .next (answer ({ s.writeBack ln d with port := { s.port with store := Tab.del ln s.port.store } }) (some d))
  | none =>
    if !s.isResident ln then .next (answer s none)
    else
      match s.lineState ln with
      | .of | .od | .hb | .l => .next s
      | st =>
        let (s, ok) := if st == .h then (s, true) else s.recallNow ln true
        if !ok then .next s
        else
          let l := s.lineAt ln
          let s := s.raise portClock (max (s.clock portClock) (l.rts + 1))
          let s := s.writeBack ln l.data
          let s := s.modHome portHome fun h => { h with lines := Tab.del ln h.lines }
          .next ((answer s (some l.data)).settle portHome 64)

/-! ### Replacement, at the schedule's choice (R40, R53) -/

/-- A region slice replaces a line; a sticky one is kept while an unsticky one remains in its set (R53, R54). -/
def State.replaceCopy (s : State) (r ln : Nat) : State :=
  let g := s.region r
  let sticky := ((Tab.find ln g.copies).map fun c => c.hint == 2).getD false
  if sticky && g.copies.any (fun (k, c) => sameSet k ln && c.hint != 2) then s else s.dropCopy r ln

/-- A home slice gives up a line in H; one that the host holds is back-invalidated first; a sticky one is kept while an
unsticky one that may be chosen remains in its set (R40, R54). -/
def State.dropHome (s : State) (ln : Nat) : State :=
  if isHostLine ln || !s.isResident ln || s.lineState ln != .h then s
  else if (s.lineAt ln).hint == 2 &&
      (s.choosable (s.home (homeOf ln)).lines).any (fun (k, l) => homeSet k == homeSet ln && l.hint != 2) then s
  else if (s.lineAt ln).hostHeld then s.backInvalidate ln (some (s.recallReq ln))
  else s.leave ln

/-- A TLB gives up a translation (R26). -/
def State.dropTranslation (s : State) (k ctx va : Nat) : State :=
  { s with tlbs := Tab.modify k (fun l => l.filter fun e => !(e.ctx == ctx && decide (va / e.size * e.size = e.va))) s.tlbs }

end Sys2Proof.Machine
end

