-- ==== Sys2Proof/Machine/Registers.lean ====
section
/-! DEFINITION. The register pool of a partition (R125, R128 to R130), uniform registers and their single-writer rule
(R132, R133), special registers (R136, R272). -/

namespace Sys2Proof.Machine

/-! ### The register pool -/

/-- The hardware groups that stand on a partition of a core, oldest launch stamp first, the groups of one team in the order of
their numbers: team, group. DESIGN CHOICE (log 62). -/
def State.groupsOn (s : State) (core part : Nat) : List (Nat × Nat × Group) :=
  let all := s.teams.flatMap fun (k, t) =>
    if t.place == .core core then
      (t.groups.filter fun (_, g) => g.part == part && g.held).map fun (gk, g) => (t.stamp, k, gk, g)
    else []
  let sorted := all.foldr (fun e acc => (acc.takeWhile fun a => a.1 < e.1) ++ e :: (acc.dropWhile fun a => a.1 < e.1)) []
  sorted.map fun e => (e.2.1, e.2.2.1, e.2.2.2)

/-- Registers per lane in use on a partition (R125). -/
def State.regsUsed (s : State) (core part : Nat) : Nat :=
  (s.groupsOn core part).foldl (fun n (k, _, g) => n + ((s.team? k).map Team.base).getD 0 + g.x) 0

/-- Live threads of a hardware group. -/
def Team.hwLive (t : Team) (g : Nat) : List Nat :=
  (t.threads.filter fun (n, th) => t.hw n == g && th.live).map (·.1)

/-- Whether a thread waits in `xclaim`. -/
def Thread.claiming (th : Thread) : Bool := match th.wait with | .claim .. => true | _ => false

/-- A group is blocked in `xclaim` when every one of its live threads waits in it; one that has no live thread is not
(R130). DESIGN CHOICE (log 62). -/
def Team.blockedGroup (t : Team) (g : Nat) : Bool :=
  !(t.hwLive g).isEmpty && (t.hwLive g).all fun n => ((Tab.find n t.threads).map Thread.claiming).getD false

/-- Releases the threads of a group that wait on its claim, all with predicate value `ok` (R128). -/
def Team.answerClaim (t : Team) (g : Nat) (ok : Bool) : Team :=
  { t with
    threads := t.threads.map fun (n, th) =>
      match th.wait with
      | .claim p next =>
        if t.hw n == g then (n, { th.setP p ok with wait := .ready, age := 0, pc := BitVec.ofNat 64 next }) else (n, th)
      | _ => (n, th)
    groups := Tab.modify g (fun gr => { gr with claim := none }) t.groups }

/-- Registers of a group at or above a number, outside its blocks, hold nothing: they lose their values and their marks, and
their handles are dropped; one that enters the extended block later reads 0 (R37, R126, R128). -/
def Team.dropAbove (t : Team) (gk lim : Nat) : Team :=
  { t with
    threads := t.threads.map fun (n, th) =>
      if t.hw n == gk then
        (n, { th with
              regs := th.regs.filter fun p => p.1 < lim
              bad := th.bad.filter fun n => n < lim
              pend := th.pend.filter fun p => p.1 < lim
              seen := th.seen.filter fun p => p.1 < lim })
      else (n, th) }

/-- Grants waiting claims in order of launch stamp, those of one team in the order of its groups; the first that does not fit
stops (R129). DESIGN CHOICE (log 62). -/
def State.grantClaims (s : State) (core part : Nat) : Nat → State
  | 0 => s
  | fuel + 1 =>
    match (s.groupsOn core part).find? fun (_, _, g) => g.claim.isSome with
    | none => s
    | some (k, gk, g) =>
      let target := g.claim.getD 0
      if s.regsUsed core part + (target - g.x) ≤ 2048 then
        let s := s.modTeam k fun t =>
          ((t.answerClaim gk true).dropAbove gk (t.base + g.x)).modGroup gk fun g => { g with x := max g.x target }
        s.grantClaims core part fuel
      else s

/-- Refuses every waiting claim of the youngest team when every resident group of the partition is blocked (R130). -/
def State.refuseClaims (s : State) (core part : Nat) : State :=
  let gs := s.groupsOn core part
  if !gs.isEmpty && gs.all fun (k, gk, _) => ((s.team? k).map fun t => t.blockedGroup gk).getD false then
    match gs.getLast? with
    | none => s
    | some (k, _, _) =>
      s.modTeam k fun t => t.groups.foldl (fun t (gk, g) =>
        if g.part == part && g.claim.isSome then t.answerClaim gk false else t) t
  else s

/-- Settles the claims of a partition: grants, the check of R130, and the grants that a refusal allows. -/
def State.settleClaims (s : State) (core part : Nat) : State :=
  ((s.grantClaims core part 64).refuseClaims core part).grantClaims core part 64

/-- `xgive`: the group's extended block shrinks to `target` registers; the released registers lose their values and their
handles are dropped (R126, R128). -/
def State.shrink (s : State) (k gk target : Nat) : State :=
  match s.team? k with
  | none => s
  | some t =>
    let g := (Tab.find gk t.groups).getD {}
    if g.x ≤ target then s
    else
      let s := s.modTeam k fun t => (t.dropAbove gk (t.base + target)).modGroup gk fun g => { g with x := target }
      s.settleClaims t.core g.part

/-- Whether a thread still stands at an instruction that it issued without performing it: a load or atomic that awaits a page
walk, a page or an absent forme line, or an `acrd` or `sysrd` that awaits the matrix array. `lim`: its destination has a
register at or above it. -/
def Thread.issuedTo (th : Thread) (lim : Nat) : Bool :=
  match th.issued with
  | some (pc, r) => th.live && decide (pc = th.pc.toNat) && decide (lim ≤ r)
  | none => false

/-- Whether a write to a register of the group at or above `lim` is still in flight: of a load or atomic not yet performed, of
one whose reply from a peer module or from I/O is awaited, of a parked `ldfe`, or of an instruction issued and to be issued
again (R128). -/
def State.inFlight (s : State) (k gk lim : Nat) : Bool :=
  match s.team? k with
  | none => false
  | some t =>
    let hits := fun (a : Access) => t.hw a.tid == gk && decide (lim ≤ a.dreg + a.ty.regs - 1)
    (s.memops.any fun (_, op) =>
      op.team == k && (match op.kind with | .load | .atom _ => true | _ => false) && op.accs.any hits)
    || (s.fabric.out.any fun (_, o) => o.tid.team == k && (o.acc.map hits).getD false)
    || (s.formes.any fun (_, f) => f.waiters.any fun w =>
      w.full && w.tid.team == k && t.hw w.tid.n == gk && decide (lim ≤ w.dreg))
    || t.threads.any fun (n, th) => t.hw n == gk && th.issuedTo lim

/-! ### Uniform registers -/

/-- A `k` register (R132). -/
def Team.kreg (t : Team) (n : Nat) : Nat := (Tab.getD t.k n 0).toNat

/-- The first of some `k` registers that holds a pending handle blocks its reader or writer (R121, R234). -/
def Team.kReady (t : Team) (ns : List Nat) : Lane Unit :=
  match ns.findSome? fun n => Tab.find n t.kp with
  | some j => .error (.park (.future j))
  | none => .ok ()

/-- A read of an uncorrectable `k` register raises ECC_UNCORRECTABLE (R37). -/
def Team.kSound (t : Team) (ns : List Nat) : Lane Unit :=
  match ns.find? fun n => t.kbad.contains n with
  | some n => .error (.fault { code := Code.ecc, info := 4, addr := n })
  | none => .ok ()

/-- The observation of jobs whose handles `k` registers held (R72). -/
def State.kObserve (s : State) (k : Nat) (ns : List Nat) : State :=
  match s.team? k with
  | none => s
  | some t =>
    match ns.filterMap fun n => Tab.find n t.kseen with
    | [] => s
    | ts =>
      (ts.foldl (fun s x => s.raise t.clockKey x) s).modTeam k fun t =>
        { t with kseen := ns.foldl (fun m n => Tab.del n m) t.kseen }

/-- The single-writer rule: the first of the registers whose record names another group (R133). -/
def Team.kRace (t : Team) (gid : Nat) (ns : List Nat) : Option Nat :=
  ns.find? fun n => match Tab.find n t.kw with | some g => g != gid + 1 | none => false

/-- Sets the writer records of registers that hold none. -/
def Team.kOwn (t : Team) (gid : Nat) (ns : List Nat) : Team :=
  { t with kw := ns.foldl (fun m n => Tab.put n (gid + 1) m) t.kw }

/-- Registers about to be written no longer hold the status of an ended job, nor an uncorrectable word. -/
def Team.kForget (t : Team) (ns : List Nat) : Team :=
  { t with kseen := ns.foldl (fun m n => Tab.del n m) t.kseen, kbad := t.kbad.filter fun n => !ns.contains n }

/-- Writes consecutive `k` registers. -/
def Team.setK (t : Team) (n v : Nat) : Nat → Team
  | 0 => t
  | w + 1 => ({ t with k := Tab.set 0 n (BitVec.ofNat 32 v) t.k } : Team).setK (n + 1) (v / 2 ^ 32) w

/-! ### Special registers (Table 7.2, R272) -/

/-- `%cshape` (Table 7.3). -/
def State.cshape (s : State) (t : Team) : Nat :=
  match Tab.find t.cluster s.clusters with
  | none => 0
  | some c => (c.w - 1) + (c.h - 1) * 4 + t.rank % c.w * 16 + t.rank / c.w * 64

/-- The value of special register `n` for a thread. -/
def State.sreg (s : State) (c : View) (n : Nat) : Nat :=
  let t := c.team
  let near := t.near
  match n with
  | 0 => t.lane c.id.n
  | 1 => if near then 0 else t.gid c.id.n
  | 2 => if near then 0 else t.part c.id.n
  | 3 => t.core
  | 4 => t.die
  | 5 => t.x
  | 6 => t.y
  | 7 => t.z
  | 8 => t.dim
  | 9 => t.grid.1
  | 10 => t.grid.2.1
  | 11 => t.grid.2.2
  | 12 => t.rank
  | 13 => if near then 0 else s.cshape t
  | 14 => if near then 0 else t.gid c.id.n % t.roles
  | 15 => t.depth
  | 16 => ((s.launchOf t).map Launch.id).getD 0
  | 17 => s.clock t.clockKey
  | 18 => if near then s.cycle * 16 / 27 else s.cycle
  | 19 => c.th.fpflags.toNat
  | 20 => c.th.tcause.toNat
  | 21 => c.th.tpc.toNat
  | 22 => c.th.taddr.toNat
  | _ => c.th.tinfo.toNat

end Sys2Proof.Machine
end

