-- ==== Sys2Proof/Machine/Lanes.lean ====
section
/-! DEFINITION. Cross-lane and register-file instructions (spec/13). -/

namespace Sys2Proof.Machine

/-! ### Collectives (R224, R225) -/

/-- One live thread's contribution to a collective. -/
structure Contribution where
  n : Nat
  lane : Nat
  th : Thread
  a : Nat
  b : Nat

/-- A number put into a rising list, once. -/
def insertOnce (g : Nat) : List Nat → List Nat
  | [] => [g]
  | h :: hs => if g < h then g :: h :: hs else if g = h then h :: hs else h :: insertOnce g hs

/-- The groups that have threads in a list, each once, the lowest first (R224, R247). -/
def groupsOf (f : Nat → Nat) (ns : List Nat) : List Nat := ns.foldl (fun acc n => insertOnce (f n) acc) []

/-- Whether an issue group is exactly Live(g) of one group (R224). -/
def Team.converged (t : Team) (ns : List Nat) : Bool :=
  match ns with
  | [] => false
  | n :: _ => ns.all (fun m => t.gid m == t.gid n) && ns == t.liveThreads (t.gid n)

/-- ILLEGAL_CONVERGENCE in every thread of the issue group, group by group in lane order; `%tinfo` is the mask of the
group's lanes present (R224). -/
def State.diverged (s : State) (t : Team) (team : Nat) (ns : List Nat) (next : Nat) : State :=
  (groupsOf t.gid ns).foldl (fun s g =>
    let mine := ns.filter fun n => t.gid n == g
    let mask := Bits.maskOf (mine.map t.lane)
    mine.foldl (fun s n => s.deliver { team, n } { code := Code.convergence, info := mask } next) s) s

/-- A collective: the convergence check, each thread's own checks, then the writes (R224, R225). `check` answers the
registers a thread reads as A and B with the sources and destinations to be ready; `write` gives each thread's registers
from every contribution. -/
def collective (words : Nat) (check : State → View → Lane (Nat × Nat × List Nat × List Nat)) (wa wb : Nat)
    (write : Nat → List Contribution → Contribution → Thread) (s : State) : Host.Outcome State Fault Refusal :=
  match s.ig with
  | none => .fault .noIssueGroup
  | some ig =>
    let next := ig.pc + 4 * words
    match s.team? ig.team with
    | none => .next s
    | some t =>
      if !t.converged ig.threads then .next (s.diverged t ig.team ig.threads next)
      else
        let views := ig.threads.filterMap fun n => s.view { team := ig.team, n }
        let checked := views.map fun c => (c, do
          let (a, b, srcs, dsts) ← check s c
          let _ ← s.claimRegs c srcs dsts
          pure (a, b, srcs, dsts))
        let faults := checked.filterMap fun (c, r) =>
          match r with | .error (.fault f) => some (c, f) | _ => none
        let waits := checked.filterMap fun (_, r) =>
          match r with | .error (.park w) => some w | _ => none
        match faults, waits with
        | [], [] =>
          let s := checked.foldl (fun s (c, r) =>
            match r with | .ok (_, _, srcs, dsts) => s.observe c.id (c.observed srcs dsts) | .error _ => s) s
          let cs := checked.filterMap fun (c, r) =>
            match r with
            | .ok (a, b, _, _) =>
              (s.thread? c.id).map fun th =>
                { n := c.id.n, lane := t.lane c.id.n, th, a := th.vs a wa, b := th.vs b wb }
            | .error _ => none
          .next (cs.foldl (fun s c =>
            s.modThread { team := ig.team, n := c.n } fun _ =>
              { write t.width cs c with pc := BitVec.ofNat 64 next }) s)
        | [], w :: _ => .next (views.foldl (fun s c => s.modThread c.id fun th => { th with wait := w }) s)
        | fs, _ => .next (fs.foldl (fun s (c, f) => s.deliver c.id f next) s)

/-- The registers of a collective's operands A and B and its destination. -/
def laneCheck (o : XOp) (x : XForm) (wa wb : Nat) (dsts : List Nat) (_ : State) (c : View) :
    Lane (Nat × Nat × List Nat × List Nat) := do
  c.dests dsts
  let r ← c.operands o x wa wb 0
  return (r.a, r.b, r.srcs, dsts)

/-- IMM of `shfl` and `perm`: the lane or delta is LIT (R226). -/
def laneImm (x : XForm) : Bool := Bits.bit x.imm.toNat 5

/-- d of R226 and R227. -/
def laneArg (x : XForm) (c : Contribution) : Nat := if laneImm x then x.imm.toNat % 32 else c.b

/-- The source lane of `shfl` (R226). -/
def shflSource (sub w l d : Nat) : Nat :=
  match sub with
  | 0 => d % w
  | 1 => if d ≤ l then l - d else l
  | 2 => if l + d < w then l + d else l
  | _ => l ^^^ (d % w)

/-- `shfl` (R226). -/
def execShfl (x : XForm) (s : State) : Host.Outcome State Fault Refusal :=
  let w := x.ty.regs
  let wb := if laneImm x then 0 else 1
  collective x.words (laneCheck .shfl x w wb (regSpan x.d.toNat w)) w wb
    (fun width cs c =>
      let src := shflSource x.sub.toNat width c.lane (laneArg x c)
      let v := ((cs.find? fun o => o.lane == src).map Contribution.a).getD c.a
      c.th.setVs x.d.toNat v w) s

/-- `perm`: each lane receives the value of the highest-numbered sender that targets it (R227). -/
def execPerm (x : XForm) (s : State) : Host.Outcome State Fault Refusal :=
  let w := x.ty.regs
  let wb := if laneImm x then 0 else 1
  collective x.words (laneCheck .perm x w wb (regSpan x.d.toNat w)) w wb
    (fun width cs c =>
      match (cs.filter fun o => laneArg x o % width == c.lane).getLast? with
      | some o => c.th.setVs x.d.toNat o.a w
      | none => c.th) s

/-- `vote` (R228). -/
def execVote (x : XForm) (s : State) : Host.Outcome State Fault Refusal :=
  let d := x.d.toNat
  let pa := fun (c : Contribution) => c.th.p x.a.toNat
  match x.sub.toNat with
  | 0 => collective x.words (fun _ _ => .ok (0, 0, [], [])) 0 0 (fun _ cs c => c.th.setP d (cs.all pa)) s
  | 1 => collective x.words (fun _ _ => .ok (0, 0, [], [])) 0 0 (fun _ cs c => c.th.setP d (cs.any pa)) s
  | 2 =>
    collective x.words (fun _ c => do c.dests [d]; return (0, 0, [], [d])) 0 0
      (fun _ cs c => c.th.setV d (Bits.maskOf ((cs.filter pa).map Contribution.lane))) s
  | _ =>
    let w := x.ty.regs
    collective x.words (laneCheck .vote x w 0 []) w 0 (fun _ cs c => c.th.setP d (cs.all fun o => o.a == c.a)) s

/-- One combination of `redux` (Table 13.2): value and flags. -/
def reduxStep (sub : Nat) (ty : Ty) (x y : Nat) : Nat × Nat :=
  match sub with
  | 0 => if ty == .f32 then faddV fmtF32 x y else ((x + y) % 2 ^ ty.bits, 0)
  | 1 => if ty == .f32 then fminmaxV false fmtF32 x y else (if Ty.value ty x ≤ Ty.value ty y then x else y, 0)
  | 2 => if ty == .f32 then fminmaxV true fmtF32 x y else (if Ty.value ty x ≤ Ty.value ty y then y else x, 0)
  | 3 => (x &&& y, 0)
  | 4 => (x ||| y, 0)
  | _ => (x ^^^ y, 0)

/-- One level of the fixed tree: positions 2i and 2i + 1 combine (R229). -/
def reduxLevel (sub : Nat) (ty : Ty) : List (Option Nat) → List (Option Nat) × Nat
  | some x :: some y :: rest =>
    let (v, f) := reduxStep sub ty x y
    let (vs, fs) := reduxLevel sub ty rest
    (some v :: vs, f ||| fs)
  | x :: y :: rest =>
    let (vs, fs) := reduxLevel sub ty rest
    ((if x.isSome then x else y) :: vs, fs)
  | l => (l, 0)

/-- The tree over `n` levels: value and flags (R229). -/
def reduxTree (sub : Nat) (ty : Ty) : Nat → List (Option Nat) → Nat × Nat
  | 0, l => ((l.head?.join).getD 0, 0)
  | n + 1, l =>
    let (l', f) := reduxLevel sub ty l
    let (v, f') := reduxTree sub ty n l'
    (v, f ||| f')

/-- `redux` (R229). -/
def execRedux (x : XForm) (s : State) : Host.Outcome State Fault Refusal :=
  let w := x.ty.regs
  collective x.words (laneCheck .redux x w 0 (regSpan x.d.toNat w)) w 0
    (fun width cs c =>
      let slots := (List.range width).map fun l => (cs.find? fun o => o.lane == l).map Contribution.a
      let (v, f) := reduxTree x.sub.toNat x.ty 5 slots
      (c.th.setVs x.d.toNat v w).raiseFlags f) s

/-- `cdet` (R230). -/
def execCdet (x : XForm) (s : State) : Host.Outcome State Fault Refusal :=
  let w := x.ty.regs
  collective x.words (laneCheck .cdet x w 0 [x.d.toNat]) w 0
    (fun _ cs c => c.th.setV x.d.toNat
      (Bits.maskOf ((cs.filter fun o => o.lane < c.lane && o.a == c.a).map Contribution.lane))) s

/-- `match` (R230). -/
def execMatchV (x : XForm) (s : State) : Host.Outcome State Fault Refusal :=
  let w := x.ty.regs
  collective x.words (laneCheck .matchV x w 0 [x.d.toNat]) w 0
    (fun _ cs c => c.th.setV x.d.toNat (Bits.maskOf ((cs.filter fun o => o.a == c.a).map Contribution.lane))) s

/-! ### Register-indexed moves (R231) -/

/-- The register that `vget` and `vput` name, after the checks of R231. -/
def View.indexed (c : View) (o : XOp) (x : XForm) (w : Nat) : Lane Nat := do
  c.dests [x.a.toNat]
  c.unpended [x.a.toNat]
  c.sound [x.a.toNat]
  let n := x.imm.toNat % 2 ^ 10 + (c.th.v x.a.toNat).toNat % 2 ^ 10
  if c.alloc ≤ n + w - 1 then throw (.fault { code := Code.regRange, addr := n })
  if n % w ≠ 0 then throw (.fault { code := Code.illegalEncoding, info := word0 o x, addr := n })
  return n

/-- `vget` (R231). -/
def execVget (x : XForm) (s : State) : Host.Outcome State Fault Refusal :=
  let w := x.ty.regs
  execSeq x.words none (fun s c => do
    c.dests (regSpan x.d.toNat w)
    let n ← c.indexed .vget x w
    let s ← s.claimRegs c (x.a.toNat :: regSpan n w) (regSpan x.d.toNat w)
    return s.modThread c.id fun th => th.setVs x.d.toNat (c.th.vs n w) w) s

/-- `vput` (R231). -/
def execVput (x : XForm) (s : State) : Host.Outcome State Fault Refusal :=
  let w := x.ty.regs
  execSeq x.words none (fun s c => do
    c.dests (regSpan x.b.toNat w)
    let n ← c.indexed .vput x w
    let s ← s.claimRegs c (x.a.toNat :: regSpan x.b.toNat w) (regSpan n w)
    return s.modThread c.id fun th => th.setVs n (c.th.vs x.b.toNat w) w) s

/-! ### Claiming, giving, staging (R128 to R131, R232, R233) -/

/-- T in registers. -/
def claimTarget (x : XForm) : Nat := 64 * (x.imm.toNat % 32)

/-- Moves threads to NextPC with a predicate written. -/
def State.answer (s : State) (team : Nat) (ns : List Nat) (pred : Nat) (ok : Bool) (next : Nat) : State :=
  ns.foldl (fun s n => s.modThread { team, n } fun th => { th.setP pred ok with pc := BitVec.ofNat 64 next }) s

/-- One group's `xclaim`: completes, is refused, or places a claim (R128). -/
def State.claim (s : State) (team gk target pred next : Nat) (ns : List Nat) : State :=
  match s.team? team with
  | none => s
  | some t =>
    let g := (Tab.find gk t.groups).getD {}
    if target ≤ g.x then s.answer team ns pred true next
    else if 1024 < t.base + target then s.answer team ns pred false next
    else
      let s := s.modGroup team gk fun g => { g with claim := some (max target (g.claim.getD 0)) }
      let s := ns.foldl (fun s n => s.modThread { team, n } fun th => { th with wait := .claim pred next }) s
      s.settleClaims t.core g.part

/-- An instruction that acts once for each hardware group of the issue group (R298, R392). -/
def execGroups (words : Nat) (f : Nat → State → Team → Nat → Nat → List Nat → State) (s : State) :
    Host.Outcome State Fault Refusal :=
  match s.ig with
  | none => .fault .noIssueGroup
  | some ig =>
    match s.team? ig.team with
    | none => .next s
    | some t =>
      .next ((groupsOf t.hw ig.threads).foldl (fun s gk =>
        f (ig.pc + 4 * words) s t ig.team gk (ig.threads.filter fun n => t.hw n == gk)) s)

/-- `xclaim` (R128, R232). -/
def execXclaim (x : XForm) (s : State) : Host.Outcome State Fault Refusal :=
  execGroups x.words (fun next s _ team gk ns => s.claim team gk (claimTarget x) x.d.toNat next ns) s

/-- Whether a write to a register that the issue group's `xgive` releases is in flight in some group of it. -/
def State.giveWaits (s : State) (lim : Nat) : Bool :=
  match s.ig with
  | none => false
  | some ig =>
    match s.team? ig.team with
    | none => false
    | some t => (groupsOf t.hw ig.threads).any fun gk => s.inFlight ig.team gk (t.base + lim)

/-- `xgive` (R128, R232). While a write to a released register is in flight the whole issue group stays at the instruction:
timing only (R297). -/
def execXgive (x : XForm) (s : State) : Host.Outcome State Fault Refusal :=
  let waits := s.giveWaits (claimTarget x)
  execGroups x.words (fun next s _ team gk ns =>
    if waits then s
    else
      let s := s.shrink team gk (claimTarget x)
      ns.foldl (fun s n => s.modThread { team, n } fun th => { th with pc := BitVec.ofNat 64 next }) s) s

/-- `stage`: timing only (R131, R233). -/
def execStage (x : XForm) (s : State) : Host.Outcome State Fault Refusal := execSeq x.words none (fun s _ => .ok s) s

/-! ### Uniform and special registers (R234, R235) -/

/-- `kmov` (R234). -/
def execKmov (x : XForm) (s : State) : Host.Outcome State Fault Refusal :=
  let w := x.ty.regs
  let ks := regSpan x.a.toNat w
  execSeq x.words none (fun s c => do
    c.dests (regSpan x.d.toNat w)
    c.team.kReady ks
    c.team.kSound ks
    let s ← s.claimRegs c [] (regSpan x.d.toNat w)
    let s := s.kObserve c.id.team ks
    let v := Bits.joinLE 32 (ks.map c.team.kreg)
    return s.modThread c.id fun th => th.setVs x.d.toNat v w) s

/-- A write of `k` registers by one thread: the single-writer rule, then the write unless a lower lane of the issue group
has made it (R133). -/
def State.kWrite (s : State) (c : View) (ks : List Nat) (mine : Bool) (f : Team → Team) : Lane State := do
  let t := c.team
  let gid := t.gid c.id.n
  match t.kRace gid ks with
  | some n => throw (.fault { code := Code.uniformRace, addr := n })
  | none =>
    let s := s.kObserve c.id.team (ks.filter fun n => c.awaited (1024 + n))
    return s.modTeam c.id.team fun t => if mine then (f (t.kForget ks)).kOwn gid ks else t.kOwn gid ks

/-- `kset` (R133, R234): the lowest lane that does not fault writes. -/
def execKset (x : XForm) (s : State) : Host.Outcome State Fault Refusal :=
  let w := x.ty.regs
  let ks := regSpan x.d.toNat w
  match s.ig with
  | none => .fault .noIssueGroup
  | some ig =>
    let next := ig.pc + 4 * x.words
    let part := fun (first : Bool) (s : State) (c : View) => (do
      let r ← c.operands .kset x w 0 0
      c.team.kReady ks
      let s ← s.claimRegs c r.srcs []
      s.kWrite c ks first fun t => t.setK x.d.toNat (c.th.vs r.a w) w : Lane State)
    .next (ig.threads.foldl (fun (acc : State × Bool) n =>
      match acc.1.view { team := ig.team, n } with
      | none => acc
      | some c =>
        match part acc.2 acc.1 c with
        | .ok s => (s.modThread c.id fun th => { th with pc := BitVec.ofNat 64 next }, false)
        | .error (.fault f) => (acc.1.deliver c.id f next, acc.2)
        | .error (.park w) => (acc.1.modThread c.id fun th => { th with wait := w }, acc.2)) (s, true)).1

/-- Whether a matrix operation of the thread's group is still queued (R250). -/
def State.arrayBusy (s : State) (c : View) : Bool :=
  !c.team.near && (Tab.getD s.matrix (c.team.core * 4 + c.team.part c.id.n) []).any fun m =>
    m.team == c.id.team && m.group == c.team.hw c.id.n

/-- Whether some thread of the issue group has a matrix operation of its group still queued. -/
def State.flagsWait (s : State) : Bool :=
  match s.ig with
  | none => false
  | some ig => ig.threads.any fun n => ((s.view { team := ig.team, n }).map s.arrayBusy).getD false

/-- `sysrd` (R235); a read of `%fpflags` waits, the whole issue group together, for the groups' matrix operations (R250,
R297). -/
def execSysrd (x : XForm) (s : State) : Host.Outcome State Fault Refusal :=
  let w := x.ty.regs
  let waits := x.a == 19 && s.flagsWait
  let s := match s.ig with
    | some ig => if waits then s.noteIssued ig.team ig.threads (regSpan x.d.toNat w) else s
    | none => s
  execSeq x.words none (fun s c => do
    if waits then throw (.park .galley)
    c.dests (regSpan x.d.toNat w)
    let s ← s.claimRegs c [] (regSpan x.d.toNat w)
    let v := s.sreg c x.a.toNat
    return s.modThread c.id fun th =>
      let th := th.setVs x.d.toNat v w
      if Bits.bit x.imm.toNat 0 then { th with fpflags := 0 } else th) s

end Sys2Proof.Machine
end

