-- ==== Sys2Proof/Machine/Rejoin.lean ====
section
/-! DEFINITION. Rejoin sets (spec/19). A group here is what software numbers: a half in split mode (R307). -/

namespace Sys2Proof.Machine

/-- Set `j` of the group of thread `n`. -/
def Team.jset (t : Team) (n j : Nat) : JSet :=
  Tab.getD (((Tab.find (t.hw n) t.groups).map Group.sets).getD []) (t.setKey n j) {}

/-- Replaces set `j` of the group of thread `n`. -/
def Team.setJ (t : Team) (n j : Nat) (v : JSet) : Team :=
  t.modGroup (t.hw n) fun g => { g with sets := Tab.set {} (t.setKey n j) v g.sets }

/-- Makes a parked thread ready at the instruction after its `jwait`; threads that waited at one `jwait` share a release
tag and issue next together (R314). -/
def Thread.rejoined (th : Thread) (tag : Nat) : Thread :=
  match th.wait with
  | .rejoin _ next =>
    { th with
      wait := .ready, age := 0, urgent := false, pc := BitVec.ofNat 64 next, release := some (tag * 2 ^ 64 + next) }
  | _ => th

/-- Release(g, j): when every member has arrived, all arrived lanes become ready in one clock (R309, R314). `n` is a
thread of the group. -/
def State.rejoinRelease (s : State) (team n j : Nat) : State :=
  match s.team? team with
  | none => s
  | some t =>
    let js := t.jset n j
    if js.arr ≠ 0 ∧ js.arr = js.mem then
      let (tag, s) := s.fresh
      s.modTeam team fun t =>
        let t := t.setJ n j { js with arr := 0 }
        (t.groupThreads (t.gid n)).foldl (fun t m =>
          if Bits.bit js.arr (t.lane m) then t.modThread m fun th => th.rejoined tag else t) t
    else s

/-- Whether a thread is parked in `jwait`, and on which set. -/
def Thread.rejoinSet (th : Thread) : Option Nat := match th.wait with | .rejoin j _ => some j | _ => none

/-- ORPHANED_SET when the group of thread `n` has a live thread and every live thread is parked in `jwait` (R320). -/
def State.orphanCheck (s : State) (team n : Nat) : State :=
  match s.team? team with
  | none => s
  | some t =>
    let live := t.liveThreads (t.gid n)
    let sets := live.map fun m => (m, (Tab.find m t.threads).bind Thread.rejoinSet)
    if live.isEmpty || sets.any fun p => p.2.isNone then s
    else
      let s := s.modTeam team fun t =>
        (List.range 16).foldl (fun t j => t.setJ n j { t.jset n j with arr := 0 }) t
      sets.foldl (fun s (m, j) =>
        s.deliver { team, n := m } { code := Code.orphanedSet, info := j.getD 0 } 0) s

/-- Threads of the issue group, by software group. -/
def execHalves (words : Nat) (f : Nat → State → Nat → List Nat → State) (s : State) :
    Host.Outcome State Fault Refusal :=
  match s.ig with
  | none => .fault .noIssueGroup
  | some ig =>
    match s.team? ig.team with
    | none => .next s
    | some t =>
      .next ((groupsOf t.gid ig.threads).foldl (fun s g =>
        f (ig.pc + 4 * words) s ig.team (ig.threads.filter fun n => t.gid n == g)) s)

/-- Moves threads to NextPC. -/
def State.goOn (s : State) (team : Nat) (ns : List Nat) (next : Nat) : State :=
  ns.foldl (fun s n => s.modThread { team, n } fun th => { th with pc := BitVec.ofNat 64 next }) s

/-- Delivers one fault to threads in lane order. -/
def State.deliverAll (s : State) (team : Nat) (ns : List Nat) (f : Trap) (next : Nat) : State :=
  ns.foldl (fun s n => s.deliver { team, n } f next) s

/-- What became of the threads of a group at their register checks: those that passed with what each read, and those that
fault; the rest wait (R309). -/
structure Sieved where
  ok : List (Nat × Nat) := []
  bad : List (Nat × Trap) := []

/-- The register checks of the threads of a group, which come first (R309). -/
def State.sieve (s : State) (team : Nat) (ns : List Nat) (f : State → View → Lane (State × Nat)) : State × Sieved :=
  ns.foldl (fun (acc : State × Sieved) n =>
    match acc.1.view { team, n } with
    | none => acc
    | some c =>
      match f acc.1 c with
      | .ok (s, v) => (s, { acc.2 with ok := acc.2.ok ++ [(n, v)] })
      | .error (.fault t) => (acc.1, { acc.2 with bad := acc.2.bad ++ [(n, t)] })
      | .error (.park w) => (acc.1.modThread c.id fun th => { th with wait := w }, acc.2)) (s, {})

/-- Delivers each thread's own fault, in the order of `ns` (R309). -/
def State.deliverEach (s : State) (team : Nat) (ns : List Nat) (faults : List (Nat × Trap)) (next : Nat) : State :=
  ns.foldl (fun s n =>
    match faults.find? fun p => p.1 == n with
    | some (_, t) => s.deliver { team, n } t next
    | none => s) s

/-- `jinit` and `jrest`: a new member mask, cut to Live(g), or REJOIN_BUSY (R310, R316); the group's faults are delivered
together in ascending lane order (R309). -/
def State.jform (s : State) (team j mask next : Nat) (ns : List Nat) (v : Sieved) : State :=
  match v.ok, s.team? team with
  | (n, _) :: _, some t =>
    let ready := v.ok.map (·.1)
    if (t.jset n j).arr ≠ 0 then
      s.deliverEach team ns (v.bad ++ ready.map fun m => (m, { code := Code.rejoinBusy, info := j })) next
    else
      let mem := mask % 2 ^ t.width &&& t.liveMask (t.gid n)
      ((s.deliverEach team ns v.bad next).modTeam team fun t => t.setJ n j { mem, arr := 0 }).goOn team ready next
  | _, _ => s.deliverEach team ns v.bad next

/-- `jinit` (R310). -/
def execJinit (x : XForm) (s : State) : Host.Outcome State Fault Refusal :=
  execHalves x.words (fun next s team ns =>
    let (s, v) := s.sieve team ns fun s c => do
      let r ← c.operands .jinit x 1 0 0
      let s ← s.claimRegs c r.srcs []
      return (s, c.th.vs r.a 1)
    s.jform team x.d.toNat (v.ok.foldl (fun m p => m ||| p.2) 0) next ns v) s

/-- `jenter` (R311). -/
def execJenter (x : XForm) (s : State) : Host.Outcome State Fault Refusal :=
  execHalves x.words (fun next s team ns =>
    let s := ns.foldl (fun s n => s.modTeam team fun t =>
      let js := t.jset n x.a.toNat
      t.setJ n x.a.toNat { js with mem := js.mem ||| 2 ^ t.lane n }) s
    s.goOn team ns next) s

/-- Clears lanes from both masks of a set. -/
def Team.leaveSet (t : Team) (j : Nat) (ns : List Nat) : Team :=
  ns.foldl (fun t n =>
    let js := t.jset n j
    let b := 2 ^ t.lane n
    t.setJ n j { mem := js.mem - (js.mem &&& b), arr := js.arr - (js.arr &&& b) }) t

/-- `jquit` (R312). -/
def execJquit (x : XForm) (s : State) : Host.Outcome State Fault Refusal :=
  execHalves x.words (fun next s team ns =>
    match ns with
    | [] => s
    | n :: _ =>
      let s := s.modTeam team fun t => t.leaveSet x.a.toNat ns
      let s := s.goOn team ns next
      (s.rejoinRelease team n x.a.toNat).orphanCheck team n) s

/-- Whether a thread has a peer write that has not been acknowledged, so not been performed at its destination (R85, R87).
DEDUCED (log 67). -/
def State.unperformed (s : State) (i : Tid) : Bool := ((s.thread? i).map fun th => !th.peerOut.isEmpty).getD false

/-- `jwait`: the faults of nonmembers, the wait until the members' earlier accesses have been performed, arrival, parking and
release (R313). -/
def State.jwait (s : State) (team j next : Nat) (ns : List Nat) : State :=
  match ns, s.team? team with
  | n :: _, some t =>
    let js := t.jset n j
    let out := ns.filter fun m => !Bits.bit js.mem (t.lane m)
    let us := ns.filter fun m => Bits.bit js.mem (t.lane m)
    let s := s.deliverAll team out { code := Code.rejoinNonmember, info := j } next
    if us.isEmpty then s
    else if us.any fun m => s.unperformed { team, n := m } then
      us.foldl (fun s m => s.modThread { team, n := m } fun th => { th with wait := .replay }) s
    else
      let s := s.modTeam team fun t =>
        us.foldl (fun t m => t.modThread m fun th => { th with wait := .rejoin j next })
          (t.setJ n j { js with arr := js.arr ||| Bits.maskOf (us.map t.lane) })
      (s.rejoinRelease team n j).orphanCheck team n
  | _, _ => s

/-- `jwait`, extended form (R313). -/
def execJwait (x : XForm) (s : State) : Host.Outcome State Fault Refusal :=
  execHalves x.words (fun next s team ns => s.jwait team x.a.toNat next ns) s

/-- `jwait`, base form (R161, R313). -/
def execJwaitBase (set : BitVec 4) (s : State) : Host.Outcome State Fault Refusal :=
  execHalves 1 (fun next s team ns => s.jwait team set.toNat next ns) s

/-- `jread` (R315). -/
def execJread (x : XForm) (s : State) : Host.Outcome State Fault Refusal :=
  execSeq x.words none (fun s c => do
    c.dests [x.d.toNat]
    let s ← s.claimRegs c [] [x.d.toNat]
    let js := c.team.jset c.id.n x.a.toNat
    return s.modThread c.id fun th => th.setV x.d.toNat (if x.sub == 0 then js.mem else js.arr)) s

/-- `jsave` (R316). -/
def execJsave (x : XForm) (s : State) : Host.Outcome State Fault Refusal :=
  execSeq x.words none (fun s c => do
    c.dests (regSpan x.d.toNat 2)
    let s ← s.claimRegs c [] (regSpan x.d.toNat 2)
    let js := c.team.jset c.id.n x.a.toNat
    return s.modThread c.id fun th => th.setVs x.d.toNat (js.mem + js.arr * 2 ^ 32) 2) s

/-- `jrest`: the mask is that of the lowest lane whose register checks passed (R316). -/
def execJrest (x : XForm) (s : State) : Host.Outcome State Fault Refusal :=
  execHalves x.words (fun next s team ns =>
    let (s, v) := s.sieve team ns fun s c => do
      let r ← c.operands .jrest x 2 0 0
      let s ← s.claimRegs c r.srcs []
      return (s, c.th.vs r.a 1)
    s.jform team x.d.toNat ((v.ok.head?.map (·.2)).getD 0) next ns v) s

/-- A thread leaves all sixteen of its group's sets, each released in order if that completes it (R317). -/
def State.leaveSets (s : State) (team n : Nat) : State :=
  (List.range 16).foldl (fun s j =>
    (s.modTeam team fun t => t.leaveSet j [n]).rejoinRelease team n j) s

end Sys2Proof.Machine
end

