-- ==== Sys2Proof/Machine/Control.lean ====
section
/-! DEFINITION. Branches, calls, returns, traps, `rte`, `yield`, `nop` and named barriers (spec/20). -/

namespace Sys2Proof.Machine

/-! ### Branches and calls (R326, R327) -/

/-- NextPC + 4 × sext(offset, 64), for an offset of 22 bits (R326). -/
def branchTarget (next : Nat) (off : BitVec 22) : Nat := Bits.ofInt 64 ((next : Int) + 4 * off.toInt)

/-- A direct transfer; `link` is the pair that receives NextPC (R327). -/
def directLane (off : BitVec 22) (link : Option Nat) (next : Nat) : LaneFn := fun s c =>
  match link with
  | none => .ok (s, branchTarget next off)
  | some d => do
    c.dests (regSpan d 2)
    let s ← s.claimRegs c [] (regSpan d 2)
    return (s.modThread c.id fun th => th.setVs d next 2, branchTarget next off)

/-- An indirect transfer through the pair A, read before the link pair is written (R327). -/
def indirectLane (o : XOp) (x : XForm) (link : Option Nat) (next : Nat) : LaneFn := fun s c => do
  let dsts := (link.map fun d => regSpan d 2).getD []
  c.dests dsts
  let r ← c.operands o x 2 0 0
  let s ← s.claimRegs c r.srcs dsts
  let s := match link with
    | none => s
    | some d => s.modThread c.id fun th => th.setVs d next 2
  return (s, c.th.vs r.a 2)

/-- The fields of a base transfer, in the extended form it equals (R161, Table 9.3). -/
def BJ.toX (f : BJ) : XForm := { XForm.blank .b32 with g := f.g, imm := f.off.signExtend 22 }

/-- `br`, extended form (R327). -/
def execBr (x : XForm) (s : State) : Host.Outcome State Fault Refusal :=
  execLanes x.words (some x.g) (directLane x.imm none) s

/-- `br`, base form (R161, R327). -/
def execBrBase (f : BJ) (s : State) : Host.Outcome State Fault Refusal :=
  execLanes 1 (some f.g) (directLane (BJ.toX f).imm none) s

/-- `brx` (R327). -/
def execBrx (x : XForm) (s : State) : Host.Outcome State Fault Refusal :=
  execLanes x.words (some x.g) (indirectLane .brx x none) s

/-- `call`, extended form (R327). -/
def execCall (x : XForm) (s : State) : Host.Outcome State Fault Refusal :=
  execLanes x.words (some x.g) (directLane x.imm (some x.d.toNat)) s

/-- `call`, base form: links through `v0`:`v1` (R325, R327). -/
def execCallBase (f : BJ) (s : State) : Host.Outcome State Fault Refusal :=
  execLanes 1 (some f.g) (directLane (BJ.toX f).imm (some (BJ.toX f).d.toNat)) s

/-- `calli` (R327). -/
def execCalli (x : XForm) (s : State) : Host.Outcome State Fault Refusal :=
  execLanes x.words (some x.g) (indirectLane .calli x (some x.d.toNat)) s

/-- `ret`, extended form (R327). -/
def execRet (x : XForm) (s : State) : Host.Outcome State Fault Refusal :=
  execLanes x.words none (indirectLane .ret x none) s

/-- `ret`, base form: returns through `v0`:`v1` (R325, R327). -/
def execRetBase (s : State) : Host.Outcome State Fault Refusal :=
  execLanes 1 none (indirectLane .ret (XForm.blank .b32) none) s

/-! ### `yield` and `nop` (R330, R331) -/

/-- `yield`: the threads are not considered for 64 clocks, or until their partition issues another candidate (R330). -/
def execYield (x : XForm) (s : State) : Host.Outcome State Fault Refusal :=
  execSeq x.words none (fun s c => .ok (s.modThread c.id fun th => { th with deferred := some (s.cycle + 64) })) s

/-- `nop`, extended form (R331). -/
def execNop (x : XForm) (s : State) : Host.Outcome State Fault Refusal := execSeq x.words none (fun s _ => .ok s) s

/-- `nop`, base form (R331). -/
def execNopBase (s : State) : Host.Outcome State Fault Refusal := execSeq 1 none (fun s _ => .ok s) s

/-! ### Traps and return (R337, R338) -/

/-- `trap`, extended form: SW_TRAP with the code in `%tinfo` (R337). -/
def execTrap (x : XForm) (s : State) : Host.Outcome State Fault Refusal :=
  execSeq x.words none (fun _ _ => .error (.fault { code := Code.swTrap, info := x.imm.toNat })) s

/-- `trap`, base form: IMM22 is sext(IMM10, 22) (R161, R337). -/
def execTrapBase (code : BitVec 10) (s : State) : Host.Outcome State Fault Refusal :=
  execSeq 1 none (fun _ _ => .error (.fault { code := Code.swTrap, info := (code.signExtend 22).toNat })) s

/-- `brk`: BREAKPOINT (R337). -/
def execBrk (x : XForm) (s : State) : Host.Outcome State Fault Refusal :=
  execSeq x.words none (fun _ _ => .error (.fault { code := Code.breakpoint, info := x.imm.toNat })) s

/-- `rte`: ILLEGAL_ENCODING when the handler bit is clear, else the thread resumes at the address in pair A with the bit
clear (R338). -/
def execRte (x : XForm) (s : State) : Host.Outcome State Fault Refusal :=
  execLanes x.words none (fun _ s c => do
    let r ← c.operands .rte x 2 0 0
    let s ← s.claimRegs c r.srcs []
    if !c.th.handler then throw (badEncoding .rte x)
    let target := c.th.vs r.a 2
    return (s.modThread c.id fun th => th.rte target, target)) s

/-! ### Named barriers (R332 to R336) -/

/-- Barrier `b` of a team. -/
def Team.bar (t : Team) (b : Nat) : Barrier := Tab.getD t.bars b {}

/-- Complete(b): the phase flips, the count restarts, the parked threads are ready after their instruction, and barrier 0
empties the uniform writer records (R333). -/
def Team.barComplete (t : Team) (b : Nat) : Team :=
  { t with
    bars := Tab.set {} b { phase := !(t.bar b).phase } t.bars
    kw := if b = 0 then [] else t.kw
    threads := t.threads.map fun (n, th) =>
      match th.wait with
      | .barrier b' _ =>
        if b' = b then
          (n, { th with wait := .ready, age := 0, pc := th.pc + 12, spins := th.spins.map fun x => { x with changed := true } })
        else (n, th)
      | _ => (n, th) }

/-- BAR of a barrier instruction (Table 20.1). -/
def barNo (x : XForm) : Nat := x.imm.toNat % 2 ^ 10
/-- E of an arrival (Table 20.1). -/
def barE (x : XForm) : Nat := x.imm.toNat / 2 ^ 10 % 2 ^ 11
/-- CREG of an arrival (Table 20.1). -/
def barCreg (x : XForm) : Bool := Bits.bit x.imm.toNat 21

/-- Whether an arrival with count `n` raises BARRIER_COUNT_MISMATCH (R333). -/
def Barrier.mismatch (b : Barrier) (e n : Nat) : Bool := (b.latch.getD e != e) || decide (e < b.count + n)

/-- Counts an arrival on barrier `b`, which completes the phase when it reaches E (R333). -/
def Team.barArrive (t : Team) (b e n : Nat) : Team :=
  let bar := t.bar b
  let t := { t with bars := Tab.set {} b { bar with count := bar.count + n, latch := some e } t.bars }
  if bar.count + n = e then t.barComplete b else t

/-- The arrival of `bar.arrive` and of `bar.sync`, which waits until the thread's earlier accesses have been performed, and the
wait of the latter (R333, R334). -/
def barLane (o : XOp) (x : XForm) (next : Nat) : LaneFn := fun s c => do
  let dsts := if o == .barArrive then [x.d.toNat] else []
  c.dests dsts
  let r ← c.operands o x 0 (if barCreg x then 1 else 0) 0
  let s ← s.claimRegs c r.srcs dsts
  if c.team.nbar ≤ barNo x then throw (badEncoding o x)
  c.performed
  let n := if barCreg x then c.th.vs r.b 1 else 1
  let bar := c.team.bar (barNo x)
  if bar.mismatch (barE x) n then throw (.fault { code := Code.countMismatch, info := barNo x })
  let s := s.modTeam c.id.team fun t => t.barArrive (barNo x) (barE x) n
  if o == .barArrive then
    return (s.modThread c.id fun th => th.setV x.d.toNat bar.phase.toNat, next)
  else if bar.count + n = barE x then return (s, next)
  else return (s.modThread c.id fun th => { th with wait := .barrier (barNo x) bar.phase }, c.th.pc.toNat)

/-- `bar.arrive` (R333). -/
def execBarArrive (x : XForm) (s : State) : Host.Outcome State Fault Refusal :=
  execTogether x.words none (barLane .barArrive x) s

/-- `bar.sync` (R333). -/
def execBarSync (x : XForm) (s : State) : Host.Outcome State Fault Refusal :=
  execTogether x.words none (barLane .barSync x) s

/-- `bar.wait` (R333). -/
def execBarWait (x : XForm) (s : State) : Host.Outcome State Fault Refusal :=
  execLanes x.words none (fun next s c => do
    let r ← c.operands .barWait x 1 0 0
    let s ← s.claimRegs c r.srcs []
    if c.team.nbar ≤ barNo x then throw (badEncoding .barWait x)
    let f := Bits.bit (c.th.vs r.a 1) 0
    if (c.team.bar (barNo x)).phase = f then
      return (s.modThread c.id fun th => { th with wait := .barrier (barNo x) f }, c.th.pc.toNat)
    else return (s, next)) s

end Sys2Proof.Machine
end

