-- ==== Sys2Proof/Machine/Memory.lean ====
section
/-! DEFINITION. Loads, stores, atomics, forme words, prefetch, `waddr` and fences (spec/10). -/

namespace Sys2Proof.Machine

/-! ### Address checks (R177, R178) -/

/-- What a thread asks of memory, before translation, with the registers that it reads. -/
structure MemReq where
  va : Nat
  srcs : List Nat := []
  size : Nat
  ty : Ty
  value : Nat := 0
  compare : Nat := 0
  dreg : Nat := 0

/-- Addr(t) (R175). -/
def View.addr (c : View) (x : XForm) (r : OpRegs) : Nat := Bits.ofInt 64 ((c.th.vs r.a 2 : Int) + x.imm.toInt)

/-- Check 5 for a load, store, atomic or reduction: I/O apertures, and peers on a plane that is down (Table 10.4, R285). -/
def State.destCheck (s : State) (atomic : Bool) (r : MemReq) (l : Loc) : Option Trap :=
  match l with
  | .io _ => if atomic || r.size == 16 then some (protection 10 r.va) else none
  | .peer m _ => if s.planeUp m then none else some (protection 13 r.va)
  | _ => none

/-- Check 5 for `waddr` (R178). DEDUCED (log 38). -/
def waddrCheck (r : MemReq) (l : Loc) : Option Trap :=
  match l with
  | .device _ => none
  | _ => some { code := Code.waitUnsupported, addr := r.va }

/-- Where a thread's access stands after checks 1 to 5. -/
inductive Reach where
  | go (r : MemReq) (l : Loc)
  | skip
  | stop (e : LaneStop)
  | miss (entry va : Nat)
  | full

/-- Checks 1 to 5 of R177 on a thread's address. -/
def State.reach (s : State) (c : View) (acc : Nat) (check : State → MemReq → Loc → Option Trap) (r : MemReq) :
    State × Reach :=
  let va := r.va
  let finish := fun (s : State) (l : Loc) =>
    match check s r l with
    | some t => (s, Reach.stop (.fault t))
    | none => (s, Reach.go r l)
  if 2 ^ 57 ≤ va then (s, .stop (.fault (protection 1 va)))
  else if va % r.size ≠ 0 then (s, .stop (.fault { code := Code.misaligned, addr := va }))
  else if inWindow va then
    match if c.team.near then none else s.windowAt c.team.cluster va with
    | some (k, off) => finish s (.forme k off)
    | none => (s, .stop (.fault { code := Code.formeRange, addr := va }))
  else
    match s.translate (s.threadAsker c.id c.team acc) va with
    | (s, .ok l) => finish s l
    | (s, .fault t) => (s, .stop (.fault t))
    | (s, .miss e) => (s, .miss e va)
    | (s, .full) => (s, .full)

/-- Each thread's standing, in lane order. -/
def State.reachAll (s : State) (team : Nat) (ns : List Nat) (g : Option (BitVec 4)) (acc : Nat)
    (check : State → MemReq → Loc → Option Trap) (f : State → View → Lane MemReq) :
    State × List (Nat × Reach) :=
  ns.foldl (fun (st : State × List (Nat × Reach)) n =>
    match st.1.view { team, n } with
    | none => st
    | some c =>
      if (g.map c.th.guard).getD true then
        match f st.1 c with
        | .error e => (st.1, st.2 ++ [(n, .stop e)])
        | .ok r => let (s, a) := st.1.reach c acc check r; (s, st.2 ++ [(n, a)])
      else (st.1, st.2 ++ [(n, .skip)])) (s, [])

/-- Whether an entry's page has already been reported missing. -/
def State.isReported (s : State) (e : Nat) : Bool := ((Tab.find e s.misses).map Miss.reported).getD false

/-- A thread parks on a page whose fault has been reported: progress for the spin detector (R30, R357). -/
def Thread.parks (th : Thread) (e va : Nat) : Thread := { th.stirred with wait := .walk (some e) va [e], release := none }

/-- What becomes of an issue group whose threads stand as `all` says: faults are delivered, `act` performs the threads that
passed, what they read observed (R72, R121), unless the group waits for page walks or for room in the miss table (R28, R30,
R297). A thread whose own miss holds an entry waits on it; the others of its group wait with it. `dsts` are the registers that
the instruction will write: one that has to wait has issued with them (R128). -/
def State.afterReach (s : State) (ig : IssueGroup) (next : Nat) (all : List (Nat × Reach))
    (act : State → Nat → Nat → List (Nat × MemReq × Loc) → List Nat → State × Faults) (dsts : List Nat := []) :
    Host.Outcome State Fault Refusal :=
  let stops : Faults := all.filterMap fun (n, r) =>
    match r with | .stop (.fault t) => some ({ team := ig.team, n }, t, next) | _ => none
  let s := all.foldl (fun s (n, r) =>
    let i : Tid := { team := ig.team, n }
    match r with
    | .stop (.park w) => s.modThread i fun th => { th with wait := w }
    | .miss e va => if s.isReported e then s.modThread i fun th => (th.issues dsts).parks e va else s
    | _ => s) s
  let walks := (all.filterMap fun (_, r) =>
    match r with | .miss e _ => if s.isReported e then none else some e | _ => none).eraseDups
  let full := all.any fun (_, r) => match r with | .full => true | _ => false
  let die := ((s.team? ig.team).map Team.die).getD 0
  if walks.isEmpty && !full then
    let go := all.filterMap fun (n, r) => match r with | .go q l => some (n, q, l) | _ => none
    let skip := all.filterMap fun (n, r) => match r with | .skip => some n | _ => none
    let s := go.foldl (fun s (n, q, _) => s.observed { team := ig.team, n } q.srcs dsts) s
    let (s, fs) := act s ig.team next go skip
    .next (s.deliverFaults (stops ++ fs))
  else
    let s := all.foldl (fun s (n, r) =>
      let i : Tid := { team := ig.team, n }
      let hold := fun (ds : List Nat) (w : Wait) => s.modThread i fun th => { th.issues ds with wait := w }
      match r with
      | .go .. => hold dsts (if full then .missFull die else .walk none 0 walks)
      | .skip => hold [] (if full then .missFull die else .walk none 0 walks)
      | .full => hold dsts (.missFull die)
      | .miss e va => if s.isReported e then s else hold dsts (.walk (some e) va walks)
      | .stop _ => s) s
    .next (s.deliverFaults stops)

/-- A memory instruction over its issue group: the checks, then `act` (R177). -/
def withAccess (words : Nat) (g : Option (BitVec 4)) (acc : Nat) (check : State → MemReq → Loc → Option Trap)
    (f : State → View → Lane MemReq)
    (act : State → Nat → Nat → List (Nat × MemReq × Loc) → List Nat → State × Faults) (s : State) (dsts : List Nat := []) :
    Host.Outcome State Fault Refusal :=
  match s.ig with
  | none => .fault .noIssueGroup
  | some ig =>
    let (s, all) := s.reachAll ig.team ig.threads g acc check f
    s.afterReach ig (ig.pc + 4 * words) all act dsts

/-- Starts the operation of the threads that passed the checks; the others of the group wait with them (R297). -/
def startAccess (kind : AccKind) (hint scope : Nat) (s : State) (team next : Nat) (go : List (Nat × MemReq × Loc))
    (skip : List Nat) : State × Faults :=
  let accs : List Access := go.map fun (n, r, l) =>
    { tid := n, va := r.va, loc := l, size := r.size, ty := r.ty, value := r.value, compare := r.compare, dreg := r.dreg }
  s.startOp { team, kind, hint, scope, accs, threads := go.map (·.1) ++ skip, next }

/-! ### `ld` and `st` (R180, R181) -/

/-- The extended form of a base load or store: the offset is OFF10 × 4 (R161, R176). -/
def BM.toX (f : BM) : XForm :=
  { XForm.blank .b32 with
    d := f.d.setWidth 10, a := BitVec.ofNat 10 (2 * f.pair.toNat), b := f.d.setWidth 10, imm := f.off.signExtend 22 * 4 }

/-- `ld` over `words` words (R181). -/
def loadOf (words : Nat) (x : XForm) (s : State) : Host.Outcome State Fault Refusal :=
  let w := x.ty.regs
  withAccess words none 0 (fun s => s.destCheck false)
    (fun _ c => do
      c.dests (regSpan x.d.toNat w)
      let r ← c.operands .ld x 2 0 0
      c.ready r.srcs (regSpan x.d.toNat w)
      return { va := c.addr x r, srcs := r.srcs, size := tyBytes x.ty, ty := x.ty, dreg := x.d.toNat })
    (startAccess .load x.h.toNat 0) s (regSpan x.d.toNat w)

/-- `st` over `words` words (R181). -/
def storeOf (words : Nat) (x : XForm) (s : State) : Host.Outcome State Fault Refusal :=
  withAccess words (some x.g) 1 (fun s => s.destCheck false)
    (fun _ c => do
      let r ← c.operands .st x 2 x.ty.regs 0
      c.ready r.srcs []
      return { va := c.addr x r, srcs := r.srcs, size := tyBytes x.ty, ty := x.ty
               value := c.opB x r x.ty.regs % 2 ^ x.ty.bits })
    (startAccess .store x.h.toNat 0) s

/-- `ld`, extended form (R181). -/
def execLd (x : XForm) (s : State) : Host.Outcome State Fault Refusal := loadOf x.words x s
/-- `ld`, base form (R161, R181). -/
def execLdBase (f : BM) (s : State) : Host.Outcome State Fault Refusal := loadOf 1 (BM.toX f) s
/-- `st`, extended form (R181). -/
def execSt (x : XForm) (s : State) : Host.Outcome State Fault Refusal := storeOf x.words x s
/-- `st`, base form (R161, R181). -/
def execStBase (f : BM) (s : State) : Host.Outcome State Fault Refusal := storeOf 1 (BM.toX f) s

/-! ### `atom` and `red` (R186 to R188) -/

/-- `atom` and `red`: `old` tells whether the old value is returned (R187). -/
def atomicOf (o : XOp) (old : Bool) (x : XForm) (s : State) : Host.Outcome State Fault Refusal :=
  let w := x.ty.regs
  let sub := x.sub.toNat
  let dsts := if old then regSpan x.d.toNat w else []
  withAccess x.words (some x.g) 2 (fun s => s.destCheck true)
    (fun _ c => do
      c.dests dsts
      let r ← c.operands o x 2 w (if sub = 7 then w else 0)
      c.ready r.srcs dsts
      return { va := c.addr x r, srcs := r.srcs, size := tyBytes x.ty, ty := x.ty, value := c.opB x r w % 2 ^ x.ty.bits
               compare := c.th.vs r.c w % 2 ^ x.ty.bits, dreg := x.d.toNat })
    (startAccess (if old then .atom sub else .red sub) x.h.toNat x.sc.toNat) s dsts

/-- `atom` (R187). -/
def execAtom (x : XForm) (s : State) : Host.Outcome State Fault Refusal := atomicOf .atom true x s
/-- `red` (R187, R188). -/
def execRed (x : XForm) (s : State) : Host.Outcome State Fault Refusal := atomicOf .red false x s

/-! ### Forme words (R182 to R184) -/

/-- Checks 1 to 3 for an instruction that reaches only the forme window (R177). -/
def State.windowCheck (s : State) (c : View) (va n : Nat) : Lane (Nat × Nat) :=
  if 2 ^ 57 ≤ va then .error (.fault (protection 1 va))
  else if va % n ≠ 0 then .error (.fault { code := Code.misaligned, addr := va })
  else
    match if inWindow va then s.windowAt c.team.cluster va else none with
    | some p => .ok p
    | none => .error (.fault { code := Code.formeRange, addr := va })

/-- An access to one forme word: its address and the checks up to check 7. -/
def State.wordOf (s : State) (o : XOp) (x : XForm) (c : View) (wb : Nat) (dsts : List Nat) (whole : Bool) :
    Lane (State × OpRegs × Nat × Nat) := do
  c.dests dsts
  let r ← c.operands o x 2 wb 0
  let s ← s.claimRegs c r.srcs dsts
  let va := c.addr x r
  let (k, off) ← s.windowCheck c va 4
  s.formeCheck k off 4 va whole
  return (s, r, k, off)

/-- Parks a thread in the bank's waiter table (R95, R97). -/
def State.awaitWord (s : State) (k : Nat) (w : WordWait) : State :=
  (s.modForme k fun f => { f with waiters := f.waiters ++ [w] }).modThread w.tid fun th => { th with wait := .word }

/-- `ldfe.fe` and `ldfe.ff` (R182). -/
def execLdfe (x : XForm) (s : State) : Host.Outcome State Fault Refusal :=
  execReads x.words [x.d.toNat] (fun next s c => do
    let (s, _, k, off) ← s.wordOf .ldfe x c 0 [x.d.toNat] false
    let f := s.forme k
    let fe := x.sub == 0
    if f.isFull off then
      let pts := s.clock c.team.clockKey
      let v := readBytes f.data off 4
      let (f, time) := if fe then f.stamp off pts else let (f, _, t) := f.load off 4 pts; (f, t)
      let s := (s.modForme k fun _ => f).raise c.team.clockKey time
      let s := s.modThread c.id fun th => th.setV x.d.toNat v
      return (if fe then s.setFull k off false else s, next)
    else
      return (s.awaitWord k { off, full := true, fe, tid := c.id, dreg := x.d.toNat, value := 0, next }, c.th.pc.toNat)) s

/-- `stfe` (R182). -/
def execStfe (x : XForm) (s : State) : Host.Outcome State Fault Refusal :=
  execLanes x.words (some x.g) (fun next s c => do
    let (s, r, k, off) ← s.wordOf .stfe x c 1 [] true
    let v := c.opB x r 1
    if (s.forme k).isFull off then
      return (s.awaitWord k { off, full := false, fe := false, tid := c.id, dreg := 0, value := v, next }, c.th.pc.toNat)
    else
      let (f, time) := (s.forme k).store off 4 v (s.clock c.team.clockKey)
      let s := (s.modForme k fun _ => f).raise c.team.clockKey time
      return ((s.modThread c.id Thread.stirred).setFull k off true, next)) s

/-- `feset` (R183). -/
def execFeset (x : XForm) (s : State) : Host.Outcome State Fault Refusal :=
  execLanes x.words none (fun next s c => do
    let (s, _, k, off) ← s.wordOf .feset x c 0 [] false
    let (f, time) := (s.forme k).stamp off (s.clock c.team.clockKey)
    let s := (s.modForme k fun _ => f).raise c.team.clockKey time
    return ((s.modThread c.id Thread.stirred).setFull k off (x.sub == 1), next)) s

/-- `prq` (R101, R184): it neither parks nor raises COPY_FAULTED; checks 1 to 3 and 7 of R177 are made. -/
def execPrq (x : XForm) (s : State) : Host.Outcome State Fault Refusal :=
  execLanes x.words none (fun next s c => do
    c.dests [x.d.toNat]
    let r ← c.operands .prq x 2 0 0
    let s ← s.claimRegs c r.srcs [x.d.toNat]
    let va := c.addr x r
    let (k, off) ← s.windowCheck c va 4
    let f := s.forme k
    if f.tagged off then throw (.fault { code := Code.clobber, addr := va })
    if s.badUnits k off 4 false then throw (.fault { code := Code.ecc, info := arrSram, addr := va })
    let (f', _, time) := f.load off 4 (s.clock c.team.clockKey)
    let s := (s.modForme k fun _ => f').raise c.team.clockKey time
    return (s.modThread c.id fun th => th.setV x.d.toNat (f.presence (off / 128)), next)) s

/-- `pf`: a GETS for a line that the region slice does not hold, when the translation is at hand; nothing otherwise
(R185). -/
def execPf (x : XForm) (s : State) : Host.Outcome State Fault Refusal :=
  execLanes x.words none (fun next s c => do
    let r ← c.operands .pf x 2 0 0
    let s ← s.claimRegs c r.srcs []
    let va := c.addr x r
    let a := s.threadAsker c.id c.team 0
    if decide (2 ^ 57 ≤ va) || inWindow va || x.h == 3 then return (s, next)
    match s.held a va with
    | (s, none) => return (s, next)
    | (s, some e) =>
      if (s.leafStop a e va).isSome then return (s, next)
      let ln := match s.locOf e va with
        | .device pa => some (deviceLine pa)
        | .host pa => some (hostLine pa)
        | _ => none
      match ln with
      | none => return (s, next)
      | some ln =>
        if Tab.has (s.region (regionOf c.team.core)).copies ln then return (s, next)
        let op : MemOp := { team := c.id.team, kind := .load, hint := x.h.toNat, scope := 0, accs := [], threads := [], next := 0 }
        return (s.ask 0 op c.team ln (.gets false), next)) s

/-! ### `waddr` (R60, R61, R189 to R191) -/

/-- A thread's `waddr` asks the home of its line to install it: at once, or in its turn in the line queue, where a line that
is lent keeps it as well (R49, R61, R62, R190). -/
def State.install (s : State) (w : WaitEntry) (next : Nat) : State :=
  let ln := deviceLine w.addr
  let region := ((s.team? w.tid.team).map fun t => regionOf t.core).getD 0
  let (tag, s) := s.fresh
  (s.modThread w.tid fun th => { th with wait := .install ln tag }).request
    { kind := .install w next, line := ln, region, tag }

/-- Whether a thread's `waddr` waits at the home of its line. -/
def Thread.installing (th : Thread) : Bool := match th.wait with | .install .. => true | _ => false

/-- The device line of a location. -/
def Loc.deviceLine? : Loc → Option Nat
  | .device pa => some (deviceLine pa)
  | _ => none

/-- Brings lines home for installations, but those lent to a platen call; whether all are there: a recall under way is timing,
and the whole issue group waits for it (R61, R297). -/
def State.allReady (s : State) (lns : List Nat) : State × Bool :=
  lns.foldl (fun (acc : State × Bool) ln =>
    if acc.1.isLent ln then acc
    else
      let (s, ok) := acc.1.waitReady ln
      (s, acc.2 && ok)) (s, true)

/-- Whether a thread's `waddr` stands in the line queue of its line's home; it was answered NACK otherwise (R49). -/
def State.inQueue (s : State) (i : Tid) : Bool :=
  match (s.thread? i).map Thread.wait with
  | some (.install ln tag) => (s.home (homeOf ln)).queue.any fun q => q.tag == tag
  | _ => false

/-- What the installations of an issue group have come to: the lines of the lanes that wait so far, the last lane that waits at
a home, whether every one of them stands in the home's queue. -/
structure Installs where
  state : State
  lines : List Nat := []
  ahead : Nat := 0
  queued : Bool := true

/-- The next lane's installation, in ascending lane order: it takes its place in the line queue behind lower lanes of the same
line, but waits for a lower lane of another line, or for one that was answered NACK, before it asks at all, so that lanes take
entries in order (R49, R190). -/
def Installs.lane (x : Installs) (w : WaitEntry) (next : Nat) : Installs :=
  let ln := deviceLine w.addr
  if x.queued && x.lines.all (· == ln) then
    let s := x.state.install w next
    if ((s.thread? w.tid).map Thread.installing).getD false then
      { state := s, lines := x.lines ++ [ln], ahead := w.tid.n, queued := s.inQueue w.tid }
    else { x with state := s }
  else
    { x with
      state := x.state.modThread w.tid fun th => { th with wait := .turn (x.lines.headD 0) x.ahead }
      lines := x.lines ++ [ln] }

/-- `waddr` (R190). -/
def execWaddr (x : XForm) (s : State) : Host.Outcome State Fault Refusal :=
  let w := x.ty.regs
  withAccess x.words none 0
    (fun _ => waddrCheck)
    (fun _ c => do
      let r ← c.operands .waddr x 2 w w
      c.ready r.srcs []
      let va := c.addr x r
      if inWindow va && va % tyBytes x.ty == 0 then throw (.fault { code := Code.waitUnsupported, addr := va })
      return { va, srcs := r.srcs, size := tyBytes x.ty, ty := x.ty, value := c.th.vs r.b w, compare := c.th.vs r.c w })
    (fun s team next go _ =>
      match s.allReady (go.filterMap fun e => e.2.2.deviceLine?).eraseDups with
      | (s, false) => (go.foldl (fun s (n, _) => s.modThread { team, n } fun th => { th with wait := .replay }) s, [])
      | (s, true) =>
        ((go.foldl (fun (acc : Installs) (n, r, l) =>
          match l with
          | .device pa =>
            acc.lane
              { addr := pa, size := r.size, mask := r.compare, cmp := x.sub.toNat, expect := r.value, tid := { team, n }
                ctx := ((s.team? team).map s.ctxOf).getD 0, va := r.va, pred := x.d.toNat } next
          | _ => acc) { state := s }).state, [])) s

/-! ### Fences (R87 to R89, R192) -/

/-- Whether a thread's earlier peer writes and `.byp` host stores are all acknowledged (R87). -/
def Thread.settledSys (th : Thread) : Bool := th.peerOut.isEmpty && th.hostOut.isEmpty

/-- One thread's `fence.sys`: it completes, waits, or raises LINK_DOWN for a peer write lost with its plane (R87, R285). -/
def State.fenceSys (s : State) (i : Tid) (next : Nat) : State :=
  match s.thread? i with
  | none => s
  | some th =>
    if th.peerLost then (s.modThread i fun th => { th with peerLost := false, wait := .ready }).deliver i (protection 13 0) next
    else if th.settledSys then s.modThread i fun th => { th with wait := .ready, pc := BitVec.ofNat 64 next }
    else s.modThread i fun th => { th with wait := .fenceSys }

/-- `fence.sys` (R87, R192, R285). -/
def execFenceSys (x : XForm) (s : State) : Host.Outcome State Fault Refusal :=
  match s.ig with
  | none => .fault .noIssueGroup
  | some ig =>
    .next (ig.threads.foldl (fun s n => s.fenceSys { team := ig.team, n } (ig.pc + 4 * x.words)) s)

/-- `fence.io` (R88, R192): I/O writes are sent as they issue. -/
def execFenceIo (x : XForm) (s : State) : Host.Outcome State Fault Refusal :=
  execLanes x.words none (fun next s c =>
    if c.th.ioOut.isEmpty then .ok (s, next)
    else .ok (s.modThread c.id fun th => { th with wait := .fenceIo }, c.th.pc.toNat)) s

/-- Every instruction cache of both dies and of all platens drops its lines (R89). -/
def State.dropCode (s : State) : State :=
  { s with cores := s.cores.map fun (k, c) => (k, { c with icache := [] }), nearCaches := [] }

/-- `fence.code`: once the thread's earlier stores are performed, those to peers acknowledged, every instruction cache drops
its lines and the fence completes (R89, R192). -/
def execFenceCode (x : XForm) (s : State) : Host.Outcome State Fault Refusal :=
  execLanes x.words none (fun next s c =>
    if c.th.peerOut.isEmpty then .ok (s.dropCode, next)
    else .ok (s.modThread c.id fun th => { th with wait := .fenceCode }, c.th.pc.toNat)) s

/-- A thread that waits in a fence goes on when nothing it waits for is outstanding. -/
def State.fenceDone (s : State) (i : Tid) : State :=
  match s.thread? i with
  | none => s
  | some th =>
    match th.wait with
    | .fenceSys => s.fenceSys i (th.pc.toNat + 12)
    | .fenceIo =>
      if th.ioOut.isEmpty then s.modThread i fun th => { th with wait := .ready, pc := th.pc + 12 } else s
    | .fenceCode =>
      if th.peerOut.isEmpty then s.dropCode.modThread i fun th => { th with wait := .ready, pc := th.pc + 12 } else s
    | _ => s

end Sys2Proof.Machine
end

