-- ==== Sys2Proof/Machine/Objects.lean ====
section
/-! DEFINITION. Barrier objects (R102 to R107, R261, R262). -/

namespace Sys2Proof.Machine

/-- A barrier object (Table 5.3). -/
structure Obj where
  phase : Bool := false
  faulted : Bool := false
  parr : Nat := 0
  earr : Nat := 0
  pbyt : Nat := 0
  ebyt : Nat := 0
  deriving DecidableEq, Repr

/-- The object at an offset (Table 5.3). -/
def Forme.obj (f : Forme) (off : Nat) : Obj :=
  let w := fun i => readBytes f.data (off + 4 * i) 4
  { phase := Bits.bit (w 0) 31, faulted := Bits.bit (w 0) 30, parr := w 0 % 2 ^ 16, earr := w 1 % 2 ^ 16, pbyt := w 2
    ebyt := w 3 }

/-- The 128 bits of an object (Table 5.3). -/
def Obj.bits (o : Obj) : Nat :=
  o.parr % 2 ^ 16 + o.faulted.toNat * 2 ^ 30 + o.phase.toNat * 2 ^ 31 + o.earr % 2 ^ 16 * 2 ^ 32
    + o.pbyt % 2 ^ 32 * 2 ^ 64 + o.ebyt % 2 ^ 32 * 2 ^ 96

def State.putObj (s : State) (k off : Nat) (o : Obj) : State :=
  s.modForme k fun f => { f with data := writeBytes f.data off 16 o.bits }

/-- Whether a thread is parked in `bo.wait` on the object (R103). -/
def Thread.awaits (th : Thread) (k off : Nat) : Option Bool :=
  match th.wait with
  | .object k' off' ph => if k' = k ∧ off' = off then some ph else none
  | .link k' off' ph => if k' = k ∧ off' = off then some ph else none
  | _ => none

/-- The threads parked on an object, in team and lane order, with the phase each awaits. -/
def State.objWaiters (s : State) (k off : Nat) : List (Tid × Bool) :=
  s.teams.flatMap fun (tk, t) => t.threads.filterMap fun (n, th) =>
    (th.awaits k off).map fun ph => ({ team := tk, n }, ph)

/-- Whether a job, a platen call or a matrix operation in flight is bound to the object (R103, R123, R245, R265). -/
def State.isBound (s : State) (k off : Nat) : Bool :=
  (s.jobs.any fun (_, j) => j.object == some (k, off))
    || (s.platens.any fun (_, p) => p.calls.any fun (_, c) => c.object == some (k, off))
    || s.matrix.any fun (_, q) => q.any fun m => m.arrive == some (k, off)

/-- A thread parked on an object goes on: past a `bo.wait`, or with the link WAIT of its matrix instruction satisfied. The
observation raises its core's clock (R72, R104). -/
def State.objRelease (s : State) (i : Tid) (time : Nat) : State :=
  match s.team? i.team with
  | none => s
  | some t =>
    (s.raise t.clockKey time).modThread i fun th =>
      match th.wait with
      | .object .. => { th with wait := .ready, age := 0, pc := th.pc + 12 }.stirred
      | .link k off _ => { th with wait := .ready, age := 0, linked := some (k, off, true) }.stirred
      | _ => th

/-- CheckFlip (R103): the flip takes the greatest time of the phase's arrivals and counted lines (R104). -/
def State.checkFlip (s : State) (k off : Nat) : State :=
  let f := s.forme k
  let o := f.obj off
  if o.parr = 0 ∧ o.pbyt = 0 ∧ !o.faulted then
    let time := Tab.getD f.objTime off 0
    let s := s.putObj k off { o with phase := !o.phase, parr := o.earr, pbyt := o.ebyt }
    let s := s.modForme k fun f =>
      { f with flipTime := Tab.set 0 off time f.flipTime, objTime := Tab.del off f.objTime }
    (s.objWaiters k off).foldl (fun s (i, ph) => if ph = o.phase then s.objRelease i time else s) s
  else s

/-- Notes the time of an arrival or a counted line in the object's phase (R104). -/
def State.objNote (s : State) (k off time : Nat) : State :=
  s.modForme k fun f => { f with objTime := Tab.set 0 off (max (Tab.getD f.objTime off 0) time) f.objTime }

/-- FAULTED is set; an object whose words are uncorrectable stays as it is, and the event is logged (R37). DESIGN CHOICE
(log 69). -/
def State.setFaulted (s : State) (k off : Nat) : State :=
  if s.badUnits k off 16 false then s.countError arrSram else s.putObj k off { (s.forme k).obj off with faulted := true }

/-- FAULTED is set, and every thread parked on the object raises COPY_FAULTED in lane order with the cause in `%tinfo`
(R105). -/
def State.objFault (s : State) (k off cause : Nat) : State :=
  let waiters := s.objWaiters k off
  let s := s.setFaulted k off
  let s := s.modForme k fun f => { f with objCause := Tab.set 0 off cause f.objCause }
  waiters.foldl (fun s (i, _) =>
    (s.modThread i fun th => { th with wait := .ready }).deliver i
      { code := Code.copyFaulted, info := cause, addr := s.windowOf k off } 0) s

/-- An arrival that no thread makes: a matrix link or a platen's return. A count beyond PARR sets FAULTED (R105, R245,
R265). On an object with an uncorrectable word it is not counted, and the event is logged (R37). DESIGN CHOICE (log 69). -/
def State.agentArrive (s : State) (k off time : Nat) : State :=
  let o := (s.forme k).obj off
  if !Tab.has s.formes k then s
  else if s.badUnits k off 16 false then s.countError arrSram
  else if o.parr < 1 then s.objFault k off 0x0B000000
  else ((s.putObj k off { o with parr := o.parr - 1 }).objNote k off time).checkFlip k off

/-- A line of `n` bytes has been delivered by a bound job; false when the count exceeds the pending bytes (R103). -/
def State.objLine (s : State) (k off n time : Nat) : State × Bool :=
  let o := (s.forme k).obj off
  if o.pbyt < n then (s.putObj k off { o with faulted := true }, false)
  else (((s.putObj k off { o with pbyt := o.pbyt - n }).objNote k off time).checkFlip k off, true)

/-! ### The instructions (R261, R262) -/

/-- Checks 1 to 3 of R261: the object's forme and offset. -/
def State.objectAt (s : State) (cluster va : Nat) : Lane (Nat × Nat) :=
  if 2 ^ 57 ≤ va then .error (.fault (protection 1 va))
  else if va % 16 ≠ 0 then .error (.fault { code := Code.misaligned, addr := va })
  else
    match if inWindow va then s.windowAt cluster va else none with
    | some (k, off) => .ok (k, off)
    | none => .error (.fault { code := Code.formeRange, addr := va })

/-- BARRIER_OBJECT_CLOBBER on an object. -/
def clobbered (va : Nat) : LaneStop := .fault { code := Code.clobber, addr := va }

/-- A `bo` operation: registers, address checks 1 to 4, then `act` on the object with its clock raised by the access's time
(R66, R103, R261). -/
def boLane (o : XOp) (x : XForm) (wb wc : Nat) (dsts : List Nat) (writes : Bool)
    (act : State → View → Nat → Nat → Nat → Nat → Nat → Nat → Lane (State × Nat)) (next : Nat) : LaneFn := fun s c => do
  c.dests dsts
  let r ← c.operands o x 2 wb wc
  let s ← s.claimRegs c r.srcs dsts
  let va := c.addr x r
  let (k, off) ← s.objectAt c.team.cluster va
  s.presenceCheck k off va
  if s.badUnits k off 16 (o == .boInit) then throw (.fault { code := Code.ecc, info := arrSram, addr := va })
  let pts := s.clock c.team.clockKey
  let (f, time) := if writes then (s.forme k).stamp off pts else
    let (f, _, t) := (s.forme k).load off 16 pts
    (f, t)
  let s := (s.modForme k fun _ => f).raise c.team.clockKey time
  act s c k off va (c.opB x r wb) (c.th.vs r.c wc) next

/-- `bo.init`, which writes the whole object: uncorrectable words of it are sound from then on (R37, R103). -/
def execBoInit (x : XForm) (s : State) : Host.Outcome State Fault Refusal :=
  execLanes x.words none (boLane .boInit x 1 1 [] true fun s _ k off va a e next => do
    if (s.forme k).tagged off && (!(s.objWaiters k off).isEmpty || s.isBound k off) then throw (clobbered va)
    let a := a % 2 ^ 16
    let s := (s.putObj k off { parr := a, earr := a, pbyt := e, ebyt := e }).healForme k off 16
    return (s.modForme k fun f =>
      { f with
        tag := (List.range 4).foldl (fun t i => Tab.put (off / 4 + i) true t) f.tag
        objTime := Tab.del off f.objTime, flipTime := Tab.del off f.flipTime, objCause := Tab.del off f.objCause }, next)) s

/-- `bo.arrive`, which waits until the thread's earlier accesses have been performed (R72, R103). -/
def execBoArrive (x : XForm) (s : State) : Host.Outcome State Fault Refusal :=
  execTogether x.words none (boLane .boArrive x 1 0 [] true fun s c k off va n _ next => do
    if !(s.forme k).tagged off then throw (clobbered va)
    c.performed
    let o := (s.forme k).obj off
    if o.parr < n then throw (.fault { code := Code.countMismatch, addr := va })
    let s := s.putObj k off { o with parr := o.parr - n }
    return ((s.objNote k off (s.clock c.team.clockKey)).checkFlip k off, next)) s

/-- `bo.expect`, a release like `bo.arrive` (R103, R261). -/
def execBoExpect (x : XForm) (s : State) : Host.Outcome State Fault Refusal :=
  execTogether x.words none (boLane .boExpect x 1 0 [] true fun s c k off va n _ next => do
    if !(s.forme k).tagged off then throw (clobbered va)
    c.performed
    let o := (s.forme k).obj off
    if 0xFFFFFFFF < o.pbyt + n then throw (.fault { code := Code.countMismatch, addr := va })
    return (s.putObj k off { o with pbyt := o.pbyt + n }, next)) s

/-- `bo.wait` (R103, R105, R262). DEDUCED (log 38). -/
def execBoWait (x : XForm) (s : State) : Host.Outcome State Fault Refusal :=
  execLanes x.words none (boLane .boWait x 1 0 [] false fun s c k off va b _ next => do
    let f := s.forme k
    if !f.tagged off then throw (clobbered va)
    let o := f.obj off
    if o.faulted then throw (.fault { code := Code.copyFaulted, info := Tab.getD f.objCause off 0, addr := va })
    let ph := Bits.bit b 0
    if o.phase = ph then
      return (s.modThread c.id fun th => { th with wait := .object k off ph }, c.th.pc.toNat)
    else return (s.raise c.team.clockKey (Tab.getD f.flipTime off 0), next)) s

/-- `bo.test` (R262). -/
def execBoTest (x : XForm) (s : State) : Host.Outcome State Fault Refusal :=
  execReads x.words [x.d.toNat] (boLane .boTest x 1 0 [x.d.toNat] false fun s c k off va b _ next => do
    let f := s.forme k
    if !f.tagged off then throw (clobbered va)
    let o := f.obj off
    let v := if o.faulted then 2 else if o.phase != Bits.bit b 0 then 1 else 0
    let s := if v = 1 then s.raise c.team.clockKey (Tab.getD f.flipTime off 0) else s
    return (s.modThread c.id fun th => th.setV x.d.toNat v, next)) s

/-- `bo.free` (R103). -/
def execBoFree (x : XForm) (s : State) : Host.Outcome State Fault Refusal :=
  execLanes x.words none (boLane .boFree x 0 0 [] true fun s _ k off va _ _ next => do
    if !(s.objWaiters k off).isEmpty || s.isBound k off then throw (clobbered va)
    return (s.modForme k fun f =>
      { f with tag := (List.range 4).foldl (fun t i => Tab.del (off / 4 + i) t) f.tag }, next)) s

end Sys2Proof.Machine
end

