-- ==== Sys2Proof/Machine/Cards.lean ====
section
/-! DEFINITION. Job cards, footprints, the scoreboard, and the issue of jobs (R108 to R123, R257 to R260, R287 to R289). -/

namespace Sys2Proof.Machine

/-! ### The card (Table 6.1) -/

/-- Card word `i`. -/
def cardWord (c : List Nat) (i : Nat) : Nat := c.getD i 0
/-- The 64-bit field in words `i` and `i + 1`. -/
def cardAddr (c : List Nat) (i : Nat) : Nat := cardWord c i + cardWord c (i + 1) * 2 ^ 32
def cardFill (c : List Nat) : Bool := Bits.bit (cardWord c 0) 5
def cardCollop (c : List Nat) : Nat := Bits.field (cardWord c 0) 8 8
def cardRows (c : List Nat) : Nat := Bits.field (cardWord c 5) 16 16
def cardBpr (c : List Nat) : Nat := cardWord c 5 % 2 ^ 16
def cardDstr (c : List Nat) : Nat := Bits.field (cardWord c 6) 16 16
def cardSstr (c : List Nat) : Nat := cardWord c 6 % 2 ^ 16
def cardTable (c : List Nat) : Nat := Bits.field (cardWord c 0) 7 25 * 2 ^ 32 + cardWord c 6
def cardText (c : List Nat) : Nat := cardWord c 4
def cardDforme (c : List Nat) : Nat := windowBase + cardWord c 3 % 2 ^ 24
def cardObj (c : List Nat) : Nat := cardWord c 7 % 2 ^ 16
def cardOrank (c : List Nat) : Nat := Bits.field (cardWord c 7) 16 4
def cardHint (c : List Nat) : Nat := Bits.field (cardWord c 7) 20 2
def cardCgrp (c : List Nat) : Nat := Bits.field (cardWord c 7) 22 10

/-- KIND of each kind of job. -/
def JobKind.code : JobKind → Nat
  | .copy => 1 | .gather => 2 | .coll => 3

/-- PUSH (Table 17.5). -/
def isPush (k : JobKind) (c : List Nat) : Bool := k == .coll && cardCollop c == 2

/-- The card word that fails check 1 (R112, R288). FILL is for copies only (Table 6.1): a collective card with it fails.
DEDUCED (log 50). -/
def cardBad (k : JobKind) (c : List Nat) : Option Nat :=
  let w := cardWord c
  if w 0 % 16 ≠ k.code then some 0
  else
    match k with
    | .copy =>
      if w 0 / 64 ≠ 0 then some 0 else if w 7 / 2 ^ 22 ≠ 0 then some 7 else none
    | .gather =>
      if Bits.field (w 0) 5 2 ≠ 0 then some 0
      else if w 3 / 2 ^ 24 ≠ 0 then some 3 else if w 7 / 2 ^ 22 ≠ 0 then some 7 else none
    | .coll =>
      if Bits.field (w 0) 5 3 ≠ 0 ∨ w 0 / 2 ^ 16 ≠ 0 ∨ (cardCollop c ≠ 1 ∧ cardCollop c ≠ 2) then some 0 else none

/-- The bases a card names, with the alignment each needs (check 2). -/
def cardBases (k : JobKind) (c : List Nat) : List (Nat × Nat) :=
  match k with
  | .gather => [(cardAddr c 1, 4), (cardTable c, 16), (cardDforme c, 16)]
  | _ => (if k == .copy && cardFill c then [] else [(cardAddr c 1, 16)]) ++ [(cardAddr c 3, 16)]

/-- Byte spans: start and length. -/
abbrev Spans := List (Nat × Nat)

/-- Rows of BPR bytes at a stride in units of 16 bytes. -/
def rowSpans (base stride rows bpr : Nat) : Spans :=
  if bpr = 0 then [] else (List.range rows).map fun i => (base + i * stride * 16, bpr)

/-- The read footprint in bytes (Table 6.2). -/
def readSpans (k : JobKind) (c : List Nat) : Spans :=
  match k with
  | .gather =>
    if cardRows c = 0 ∨ cardBpr c = 0 then []
    else ([(cardAddr c 1, 4 * cardRows c), (cardTable c, cardText c * cardBpr c)]).filter fun p => p.2 != 0
  | _ =>
    if k == .copy && cardFill c then [] else rowSpans (cardAddr c 1) (cardSstr c) (cardRows c) (cardBpr c)

/-- The write footprint in bytes on this module (Table 6.2, R288). -/
def writeSpans (k : JobKind) (c : List Nat) : Spans :=
  match k with
  | .gather => if cardRows c = 0 ∨ cardBpr c = 0 then [] else [(cardDforme c, cardRows c * cardBpr c)]
  | _ => if isPush k c then [] else rowSpans (cardAddr c 3) (cardDstr c) (cardRows c) (cardBpr c)

/-- Whether a span lies in the forme; FORME_RANGE where it fails R17 or lies in the window only in part (check 5). One
forme's window is contiguous, so a span whose two ends lie in it lies in it whole. `%taddr` is the first byte of the offending
row or span. DESIGN CHOICE (log 72). -/
def State.spanForme (s : State) (cluster : Nat) (p : Nat × Nat) : Except Trap Bool :=
  let hi := p.1 + p.2 - 1
  if hi < windowBase ∨ 2 ^ 57 ≤ p.1 then .ok false
  else
    match s.windowAt cluster p.1, s.windowAt cluster hi with
    | some a, some b => if a.1 = b.1 then .ok true else .error { code := Code.formeRange, addr := p.1 }
    | _, _ => .error { code := Code.formeRange, addr := p.1 }

/-- Check 5 on one footprint. -/
def State.spansCheck (s : State) (cluster : Nat) : Option Bool → Spans → Except Trap Unit
  | _, [] => .ok ()
  | seen, p :: ps =>
    match s.spanForme cluster p with
    | .error t => .error t
    | .ok b =>
      if seen = some (!b) then .error { code := Code.formeRange, addr := p.1 } else s.spansCheck cluster (some b) ps

/-- The object a card binds, after check 6. -/
def State.cardObject (s : State) (cluster : Nat) (c : List Nat) : Except Trap (Option (Nat × Nat)) :=
  if cardObj c = 0 then .ok none
  else
    let va := windowAddr (cardOrank c) (cardObj c * 16)
    match s.windowAt cluster va, s.windowAt cluster (va + 15) with
    | some (k, off), some _ =>
      if (s.forme k).tagged off then .ok (some (k, off)) else .error { code := Code.clobber, addr := va }
    | _, _ => .error { code := Code.formeRange, addr := va }

/-- Checks 1 to 6 of R112 on a card: the bound object. A card with ROWS = 0 or BPR = 0 passes the checks of its footprint, which
is empty; its other fields are checked as written. DEDUCED (log 37). DEDUCED (log 51). Check 2 reports a misaligned base before a
misaligned BPR, and check 5 looks at the rows read before those written. DESIGN CHOICE (log 72). -/
def State.cardCheck (s : State) (cluster : Nat) (k : JobKind) (c : List Nat) : Except Trap (Option (Nat × Nat)) :=
  match cardBad k c with
  | some w => .error { code := Code.illegalEncoding, info := w }
  | none =>
    match (cardBases k c).find? fun p => p.1 % p.2 != 0 with
    | some p => .error { code := Code.misaligned, addr := p.1 }
    | none =>
      if cardBpr c % 16 ≠ 0 then .error { code := Code.misaligned, addr := 0 }
      else if k != .gather && decide (1 < cardRows c) && decide (cardDstr c * 16 < cardBpr c) then
        .error { code := Code.illegalEncoding, info := 6 }
      else
        match (cardBases k c).find? fun p => decide (2 ^ 57 ≤ p.1) with
        | some p => .error (protection 1 p.1)
        | none =>
          match s.spansCheck cluster none (readSpans k c) with
          | .error t => .error t
          | .ok () =>
            match s.spansCheck cluster none (writeSpans k c) with
            | .error t => .error t
            | .ok () => s.cardObject cluster c

/-! ### Edges (R118) -/

/-- Lines of a span: first and last. -/
def spanLines (p : Nat × Nat) : Nat × Nat := (p.1 / 128, (p.1 + p.2 - 1) / 128)

/-- Whether two footprints share a line. -/
def sharesLine (a b : Spans) : Bool :=
  a.any fun p => b.any fun q =>
    decide ((spanLines p).1 ≤ (spanLines q).2) && decide ((spanLines q).1 ≤ (spanLines p).2)

/-- The jobs in flight in a region's scoreboard that a new job waits for (R118). -/
def State.edgesTo (s : State) (region ctx : Nat) (k : JobKind) (c : List Nat) : List Nat :=
  (s.jobs.filter fun (_, a) =>
    a.region == region && a.ctx == ctx &&
      (sharesLine (writeSpans a.kind a.card) (readSpans k c) || sharesLine (readSpans a.kind a.card) (writeSpans k c)
        || sharesLine (writeSpans a.kind a.card) (writeSpans k c))).map (·.1)

/-! ### The delivery plan (R114) -/

/-- A piece of a destination line: from byte `lo` to byte `hi` of the line, taken from the address `src`. -/
structure Piece where
  lo : Nat
  hi : Nat
  src : Nat
  deriving DecidableEq, Repr

/-- The pieces of `len` bytes at `d` taken from `src`, line by line. -/
def piecesOf (d len src : Nat) : List (Nat × Piece) :=
  let first := d / 128
  let last := (d + len - 1) / 128
  (List.range (last - first + 1)).map fun i =>
    let ln := first + i
    let lo := max d (ln * 128)
    let hi := min (d + len) (ln * 128 + 128)
    (ln, { lo := lo % 128, hi := hi - ln * 128, src := src + (lo - d) })

/-- Joins pieces of one line that follow each other: a line is written once (R77, R114). -/
def joinPieces : List (Nat × Piece) → List (Nat × List Piece)
  | [] => []
  | (ln, p) :: rest =>
    match joinPieces rest with
    | (ln', ps) :: tl => if ln = ln' then (ln, p :: ps) :: tl else (ln, [p]) :: (ln', ps) :: tl
    | [] => [(ln, [p])]

/-- The destination lines of a copy or an ALLRED in delivery order, with the source addresses of their bytes. -/
def rowPlan (c : List Nat) : List (Nat × List Piece) :=
  if cardBpr c = 0 then []
  else
    joinPieces ((List.range (cardRows c)).flatMap fun i =>
      piecesOf (cardAddr c 3 + i * cardDstr c * 16) (cardBpr c) (cardAddr c 1 + i * cardSstr c * 16))

/-- The destination lines of a gather; `src` is the offset within the packed elements. -/
def gatherPlan (c : List Nat) : List (Nat × List Piece) :=
  if cardRows c = 0 ∨ cardBpr c = 0 then []
  else joinPieces (piecesOf (cardDforme c) (cardRows c * cardBpr c) 0)

/-- The destination lines of a job in delivery order; none for PUSH. -/
def planOf (k : JobKind) (c : List Nat) : List (Nat × List Piece) :=
  match k with
  | .gather => gatherPlan c
  | _ => if isPush k c then [] else rowPlan c

/-! ### Element groups of a collective (R289) -/

/-- E: elements of the job. -/
def elemCount (c : List Nat) : Nat := cardRows c * cardBpr c / 4
/-- G: element groups. -/
def groupCount (c : List Nat) : Nat := (elemCount c + 31) / 32
/-- The elements of group `i`. -/
def groupElems (c : List Nat) (i : Nat) : List Nat := ((List.range 32).map (32 * i + ·)).filter fun e => e < elemCount c
/-- Byte address of element `e` from a base with a stride in units of 16 bytes. -/
def elemAddr (base stride bpr e : Nat) : Nat := base + e / (bpr / 4) * stride * 16 + 4 * (e % (bpr / 4))

/-- Whether a job has delivered everything (R114, R289, R291). -/
def Job.complete (j : Job) : Bool :=
  if isPush j.kind j.card then decide (groupCount j.card ≤ j.done) else decide ((planOf j.kind j.card).length ≤ j.done)

/-! ### Issue (R259) -/

/-- The engine's clock (R41, R108). -/
def engineClock (k : JobKind) (core : Nat) : Nat :=
  match k with
  | .copy => copyClock (regionOf core)
  | .gather => gatherClock (regionOf core)
  | .coll => collClock (dieOf core)

/-- The forme lines of a write footprint. -/
def State.formeLines (s : State) (cluster : Nat) (k : JobKind) (c : List Nat) : List (Nat × Nat) :=
  ((planOf k c).filter fun p => inWindow (p.1 * 128)).filterMap fun (ln, _) =>
    (s.windowAt cluster (ln * 128)).map fun p => (p.1, p.2 / 128)

/-- CGRPTAB[n] (Table 17.3). -/
def State.cgrp (s : State) (n : Nat) : Nat := s.reg (0x101000 + 8 * n)

/-- Enters a job in the scoreboard: edges, clock, handle, binding, absent lines (R76, R79, R118, R120, R123). A collective
job takes its sequence number, or ends at once when its group is disabled (R287, R288), with no elements to move too. DESIGN
CHOICE (log 77). -/
def State.issueJob (s : State) (c : View) (core : Nat) (k : JobKind) (card : List Nat) (obj : Option (Nat × Nat))
    (dreg : Nat) : State :=
  let (key, s) := s.freshKey
  let pts := s.clock core
  let region := regionOf core
  let refused := k == .coll && (s.modId == 0x3FF || !Bits.bit (s.cgrp (cardCgrp card)) 31)
  let jseq := Tab.getD s.fabric.jseq (cardCgrp card) 0
  let job : Job :=
    { kind := k, card, region, core, tid := c.id, launch := c.team.launch, ctx := s.ctxOf c.team, system := c.team.system
      cluster := c.team.cluster, clock := max (s.clock (engineClock k core)) pts
      edges := s.edgesTo region (s.ctxOf c.team) k card, object := obj, endTime := pts
      ended := if refused then some (Code.protection * 2 ^ 24 + 11 * 2 ^ 16) else none, jseq }
  let s := if k == .coll && !refused then
      { s with fabric := { s.fabric with jseq := Tab.put (cardCgrp card) ((jseq + 1) % 2 ^ 32) s.fabric.jseq } }
    else s
  let s := { s with jobs := Tab.put key job s.jobs }
  let s := s.modThread c.id fun th => { th with pend := Tab.put dreg key th.pend }
  (s.formeLines c.team.cluster k card).foldl (fun s p => s.lineAbsent p.1 p.2 key) s

/-- N: the first of `w` card registers: an indirect one by the checks of R127 in their order, a direct one an encoding check
first (R111, R127, R169, R259, R264). -/
def View.cardReg (c : View) (o : XOp) (x : XForm) (w : Nat) : Lane Nat :=
  let n := x.a.toNat
  if x.xa then c.resolve (word0 o x) n x.c.toNat true w
  else if n % w ≠ 0 then .error (.fault { code := Code.illegalEncoding, info := word0 o x, addr := n })
  else if c.alloc ≤ n + w - 1 then .error (.fault { code := Code.regRange, addr := n })
  else .ok n

end Sys2Proof.Machine
end

