-- ==== Sys2Proof/Machine/Jobs.lean ====
section
/-! DEFINITION. The engines: `cp`, `cpg`, `coll`, the `fut` family, and the steps of jobs (R33, R34, R108 to R123, R259, R260,
R288 to R292). -/

namespace Sys2Proof.Machine

/-! ### `cp`, `cpg`, `coll` (R259) -/

/-- Jobs that hold an entry of a region's scoreboard (R110). -/
def State.scoreboard (s : State) (region : Nat) : Nat := (s.jobs.filter fun (_, j) => j.region == region).length

/-! ### Ends (R99, R105, R120, R121) -/

/-- The element groups whose results are written in full (R289). -/
def Job.groupsDone (j : Job) : Nat :=
  let plan := planOf j.kind j.card
  let pending := (plan.drop j.done).map (·.1)
  ((List.range (groupCount j.card)).filter fun i =>
    (groupElems j.card i).all fun e =>
      !pending.contains (elemAddr (cardAddr j.card 3) (cardDstr j.card) (cardBpr j.card) e / 128)).length

/-- LINES (Table 6.4, R289). -/
def Job.lines (j : Job) : Nat :=
  min 0xFFFF (if j.kind == .coll && !isPush j.kind j.card then j.groupsDone else j.done)

/-- The status of a job that stops early: code, reason, lines (Table 6.4). -/
def Job.statusOf (j : Job) (code reason : Nat) : Nat := code * 2 ^ 24 + reason * 2 ^ 16 + j.lines

/-- The status of a job that completes (R120, log 22). -/
def Job.doneStatus : Nat := 0

/-- Stops a job with a fault at its line (R34). -/
def State.failJob (s : State) (key : Nat) (t : Trap) : State :=
  { s with jobs := Tab.modify key (fun j => { j with ended := some (j.statusOf t.code t.reason), faultAddr := t.addr }) s.jobs }

/-- The lines and the object of a job that faulted or was cancelled: its undelivered lines become faulted, FAULTED is set,
and every thread parked on either raises COPY_FAULTED in lane order (R99, R100, R105). A later `bo.wait` reports the status
of the job that faulted the object last. DESIGN CHOICE (log 52). -/
def State.spoil (s : State) (key : Nat) (j : Job) (status : Nat) : State :=
  let mine := (s.formeLines j.cluster j.kind j.card).filter fun p => Tab.find p.2 (s.forme p.1).writer == some key
  let cause := fun va : Nat => ({ code := Code.copyFaulted, info := status, addr := va } : Trap)
  let onLines : Faults := mine.flatMap fun p => (s.parkedAt p.1 p.2).map fun (i, va) => (i, cause va, 0)
  let onObj : Faults := match j.object with
    | some (k, off) => (s.objWaiters k off).map fun (i, _) => (i, cause (s.windowOf k off), 0)
    | none => []
  let s := mine.foldl (fun s p => s.modForme p.1 fun f =>
    { f with
      pres := Tab.set 0 p.2 2 f.pres, writer := Tab.del p.2 f.writer, cause := Tab.set 0 p.2 status f.cause }) s
  let s := match j.object with
    | some (k, off) =>
      (s.setFaulted k off).modForme k fun f => { f with objCause := Tab.set 0 off status f.objCause }
    | none => s
  s.deliverFaults (onLines ++ onObj)

/-- Whether a register of some thread or a `k` register holds a job's pending mark. -/
def State.isHeld (s : State) (key : Nat) : Bool :=
  s.teams.any fun (_, t) =>
    (t.kp.any fun p => p.2 == key) || t.threads.any fun (_, th) => th.pend.any fun p => p.2 == key

/-- Beside the registers noted, `ends` holds this number for an instruction that was blocked on a handle. -/
def blockMark : Nat := 2048

/-- Whether a thread is blocked on a handle, or was and has not issued the instruction again. -/
def Thread.wasBlocked (th : Thread) : Bool :=
  match th.wait with
  | .future _ => true
  | .ready => th.ends.contains (blockMark, th.pc.toNat)
  | _ => false

/-- Notes the registers whose job ends while the thread is blocked on a handle, this one's or another, or has yet to issue the
blocked instruction again: when that goes on it observes those that it reads or writes (R72, R121). -/
def Thread.ended (th : Thread) (ns : List Nat) : Thread :=
  if th.wasBlocked then
    let pc := th.pc.toNat
    let ns := blockMark :: ns
    { th with ends := (th.ends.filter fun p => p.2 == pc && !ns.contains p.1) ++ ns.map fun n => (n, pc) }
  else th

/-- Writes a job's status to every register that holds its mark, and lets go the threads blocked on it; the first read of
each is the observation (R72, R120, R138, R260). `ks` are the team's `k` registers that hold the mark. -/
def Thread.future (th : Thread) (key status time : Nat) (ks : List Nat) : Thread :=
  let mine := (th.pend.filter fun p => p.2 == key).map (·.1)
  let th := (mine.foldl (fun th n => { th.setV n status with seen := Tab.put n time th.seen }) th).ended
    (mine ++ ks.map (1024 + ·))
  { th with
    pend := th.pend.filter fun p => p.2 != key
    wait := if th.wait == .future key then .ready else th.wait
    age := if th.wait == .future key then 0 else th.age }

def Team.future (t : Team) (key status time : Nat) : Team :=
  let mine := (t.kp.filter fun p => p.2 == key).map (·.1)
  let t := mine.foldl (fun t n => { (t.kForget [n]).setK n status 1 with kseen := Tab.put n time t.kseen }) t
  { t with
    kp := t.kp.filter fun p => p.2 != key
    threads := t.threads.map fun (n, th) => (n, th.future key status time mine) }

/-- Whether a discarded status is reported to the host: a fault, not done, CANCELLED or MOVED (R121). -/
def isFaultStatus (status : Nat) : Bool := decide (0 < status / 2 ^ 24) && decide (status / 2 ^ 24 < 0xFC)

/-- A job loses its edge from one that has ended; its clock rises to that end (R78, R119). -/
def Job.released (b : Job) (key time : Nat) : Job :=
  if b.edges.contains key then { b with edges := b.edges.erase key, clock := max b.clock time } else b

/-- The tag of a collective job's packets (Table 17.4). -/
def State.collTag (s : State) (j : Job) : CollPacket :=
  { collop := cardCollop j.card, group := cardCgrp j.card, pos := s.cgrp (cardCgrp j.card) % 2 ^ 10, jseq := j.jseq }

/-- The abort packets of a job that ended early: one on every plane that is up (R282, R292). -/
def State.abortJob (s : State) (j : Job) : State :=
  let planes := (List.range 128).filter s.planeUp
  { s with fabric := { s.fabric with
      coll := s.fabric.coll ++ planes.map fun plane => { s.collTag j with plane, abort := true } } }

/-- The observation of a job's end by the threads that a pending handle blocks, readers and writers: it takes place as the
wait ends (R72, R121). -/
def State.futureSeen (s : State) (key time : Nat) : State :=
  s.teams.foldl (fun s (_, t) =>
    if t.threads.any fun (_, th) => th.wait == .future key then s.raise t.clockKey time else s) s

/-- Ends a job: its lines and object if it stopped early, its status to its handles or, discarded, to the host, its engine's
clock, the launch's completion time, the jobs that waited for it (R41, R78, R105, R119 to R121, R292, R348). -/
def State.endJob (s : State) (key : Nat) (j : Job) : State :=
  let status := j.ended.getD Job.doneStatus
  let early := decide (0 < status / 2 ^ 24)
  let s : State := if early then s.spoil key j status else s
  let refused := decide (status / 2 ^ 16 = Code.protection * 2 ^ 8 + 11)
  let s : State := if early && j.kind == .coll && !refused then s.abortJob j else s
  let s := s.futureSeen key j.endTime
  let s : State :=
    if !s.isHeld key && isFaultStatus status then s.drainFault j.launch j.faultAddr status else s
  let s : State := { s with
    teams := s.teams.map fun (p : Nat × Team) => (p.1, p.2.future key status j.endTime)
    jobs := (Tab.del key s.jobs).map fun (p : Nat × Job) => (p.1, p.2.released key j.endTime)
    launches := Tab.modify j.launch (fun l => { l with time := max l.time j.endTime }) s.launches }
  (s.raise (engineClock j.kind j.core) j.endTime).stirLaunch j.launch

/-- Ends a job that ended at its issue (R112, R288). -/
def State.endIfDone (s : State) (key : Nat) : State :=
  match Tab.find key s.jobs with
  | some j => if j.ended.isSome || j.complete then s.endJob key j else s
  | none => s

/-- One thread's job, issued after its earlier accesses (R76, R259). A lane whose D or card register is pending waits alone; the
jobs of the lanes after it enter first. DESIGN CHOICE (log 78). -/
def jobLane (o : XOp) (x : XForm) (k : JobKind) (next : Nat) : LaneFn := fun s c => do
  c.dests [x.d.toNat]
  let n ← c.cardReg o x 8
  let s ← s.claimRegs c (regSpan n 8 ++ if x.xa then [x.c.toNat] else []) [x.d.toNat]
  c.performed
  let card := (regSpan n 8).map fun r => (c.th.v r).toNat
  match s.cardCheck c.team.cluster k card with
  | .error t => throw (.fault t)
  | .ok obj =>
    if 64 ≤ s.scoreboard (regionOf c.team.core) then throw (.park .replay)
    let key := s.nextKey
    return ((s.issueJob c c.team.core k card obj x.d.toNat).endIfDone key, next)

/-- `cp` (R110, R259). -/
def execCp (x : XForm) (s : State) : Host.Outcome State Fault Refusal :=
  execTogether x.words (some x.g) (jobLane .cp x .copy) s
/-- `cpg` (R259). -/
def execCpg (x : XForm) (s : State) : Host.Outcome State Fault Refusal :=
  execTogether x.words (some x.g) (jobLane .cpg x .gather) s
/-- `coll` (R259, R288). -/
def execColl (x : XForm) (s : State) : Host.Outcome State Fault Refusal :=
  execTogether x.words (some x.g) (jobLane .coll x .coll) s

/-! ### The `fut` family (R121, R122, R260) -/

/-- The register of a handle operand. -/
def View.handle (c : View) (o : XOp) (x : XForm) : Lane Nat := do
  let r ← c.operands o x 1 0 0
  return r.a

/-- `fut.test` (R260). -/
def execFutTest (x : XForm) (s : State) : Host.Outcome State Fault Refusal :=
  execSeq x.words none (fun s c => do
    let a ← c.handle .futTest x
    let ended := !Tab.has c.th.pend a
    let s := if ended then s.observe c.id [a] else s
    return s.modThread c.id fun th => th.setP x.d.toNat ended) s

/-- Cancels a job: one that has not started is removed, a running one stops at its line boundary (R122). How many lines it
still delivers is left open; it delivers none. DESIGN CHOICE (log 53). -/
def State.cancelJob (s : State) (key : Nat) : State :=
  { s with jobs := Tab.modify key (fun j =>
      { j with ended := some (j.ended.getD (j.statusOf 0xFF 0)) }) s.jobs }

/-- `fut.cancel` (R122, R260). -/
def execFutCancel (x : XForm) (s : State) : Host.Outcome State Fault Refusal :=
  execSeq x.words none (fun s c => do
    let a ← c.handle .futCancel x
    match Tab.find a c.th.pend with
    | some j => return s.cancelJob j
    | none => return s) s

/-- `fut.mov` (R121, R260). -/
def execFutMov (x : XForm) (s : State) : Host.Outcome State Fault Refusal :=
  execSeq x.words none (fun s c => do
    let d := x.d.toNat
    c.dests [d]
    let a ← c.handle .futMov x
    if a = d then return s
    match Tab.find a c.th.pend with
    | some j =>
      return s.modThread c.id fun th =>
        { th.setV a 0xFE000000 with
          pend := Tab.put d j (Tab.del a th.pend), seen := Tab.del d th.seen }
    | none =>
      c.sound [a]
      let s := s.observe c.id [a]
      return s.modThread c.id fun th => { th.setV d (c.th.v a).toNat with pend := Tab.del d th.pend }) s

/-- `fut.shr`: the lowest lane that does not fault publishes (R121, R133, R260). -/
def execFutShr (x : XForm) (s : State) : Host.Outcome State Fault Refusal :=
  let d := x.d.toNat
  match s.ig with
  | none => .fault .noIssueGroup
  | some ig =>
    let next := ig.pc + 4 * x.words
    let blocked := (s.team? ig.team).bind fun t => Tab.find d t.kp
    let part := fun (first : Bool) (s : State) (c : View) => (do
      let a ← c.handle .futShr x
      match blocked with
      | some j => throw (.park (.future j))
      | none =>
        match Tab.find a c.th.pend with
        | some j => s.kWrite c [d] first fun t => { t with kp := Tab.put d j t.kp, kseen := Tab.del d t.kseen }
        | none =>
          c.sound [a]
          let s := s.observe c.id [a]
          s.kWrite c [d] first fun t =>
            { t.setK d (c.th.v a).toNat 1 with kp := Tab.del d t.kp, kseen := Tab.del d t.kseen } : Lane State)
    .next (ig.threads.foldl (fun (acc : State × Bool) n =>
      match acc.1.view { team := ig.team, n } with
      | none => acc
      | some c =>
        match part acc.2 acc.1 c with
        | .ok s => (s.modThread c.id fun th => { th with pc := BitVec.ofNat 64 next }, false)
        | .error (.fault f) => (acc.1.deliver c.id f next, acc.2)
        | .error (.park w) => (acc.1.modThread c.id fun th => { th with wait := w }, acc.2)) (s, true)).1

/-! ### Line accesses (R33, R34, R114 to R117) -/

/-- The asker for a job's line access (R22, R30, R33). -/
def State.jobAsker (s : State) (key : Nat) (j : Job) (acc : Nat) : Asker :=
  let die := dieOf j.core
  { ctx := j.ctx, system := j.system, die, tlb := dieTlb die, acc, eng := true
    src := match j.kind with
      | .copy => j.region
      | .gather => j.region + 2 ^ 4
      | .coll => die + 2 * 2 ^ 4
    launch := ((Tab.find j.launch s.launches).map Launch.id).getD 0, who := .job key }

/-- How a job's attempt at a line ends. -/
inductive LineTry (α : Type) where
  | ok (a : α)
  | fault (t : Trap)
  | hold (s : State)

/-- Where a footprint line is (R116); a page walk stalls the job (R33). -/
def State.lineSite (s : State) (key : Nat) (j : Job) (va acc : Nat) : LineTry (State × Loc) :=
  if inWindow va then
    match s.windowAt j.cluster va with
    | some (k, off) => .ok (s, .forme k off)
    | none => .fault { code := Code.formeRange, addr := va }
  else
    match s.translate (s.jobAsker key j acc) va with
    | (s, .ok (.peer m pa)) => if isPush j.kind j.card && acc = 5 then .ok (s, .peer m pa) else .fault (protection 9 va)
    | (s, .ok (.device pa)) => if isPush j.kind j.card && acc = 5 then .fault (protection 9 va) else .ok (s, .device pa)
    | (s, .ok l) =>
      if j.kind == .coll && (!isPush j.kind j.card || acc = 5) then .fault (protection 9 va)
      else match l with
        | .io _ => .fault (protection 10 va)
        | _ => .ok (s, l)
    | (_, .fault t) => .fault t
    | (s, .miss _) => .hold { s with jobs := Tab.modify key (fun j => { j with stalled := true, stalledAt := va }) s.jobs }
    | (s, .full) => .hold s

/-- Reads a whole line at its site: data and time (R43, R66, R116, R117). HINT is for destination lines (Table 6.1): a source
line is used at its home as by an access without a hint. -/
def State.readLine (s : State) (j : Job) (va : Nat) (l : Loc) : LineTry (State × LineData × Nat) :=
  let atHome := fun (ln : Nat) =>
    match s.homeReady ln false with
    | (s, false) => LineTry.hold s
    | (s, true) =>
      match lineBad (s.lineAt ln).data with
      | some a => .fault { code := Code.ecc, info := a, addr := va }
      | none =>
        let (s, time) := s.homeLoad ln j.clock (s.lease j.ctx)
        .ok (s.touchHome ln 0, (s.lineAt ln).data, time)
  match l with
  | .forme k off =>
    let base := off / 128 * 128
    let f := s.forme k
    if f.presence (off / 128) = 2 then .fault { code := Code.copyFaulted, addr := va }
    else
      match f.taggedAt base 128 with
      | some w => .fault { code := Code.clobber, addr := va / 128 * 128 + w - base }
      | none =>
        if s.badUnits k base 128 false then .fault { code := Code.ecc, info := arrSram, addr := va }
        else
          let (f, _, time) := f.load base 128 j.clock
          .ok (s.modForme k fun _ => f, lineOf f.data base, time)
  | .device pa => atHome (deviceLine pa)
  | .host pa => atHome (hostLine pa)
  | .platen pa =>
    let st := stackOf pa
    if s.packetsFor pa then .hold s
    else
      match s.badRead (pa / 128 * 128) 128 with
      | some a => .fault { code := Code.ecc, info := a, addr := va }
      | none =>
        let (s, time) := s.platenLoad st (pa / 128) j.clock
        .ok (s, lineOf s.hbm (pa / 128 * 128), time)
  | .io _ => .fault (protection 10 va)
  | .peer .. => .fault (protection 9 va)

/-- Bytes of a line with some replaced: each piece `lo`, `hi` with its value. -/
def patch (d : LineData) (ps : List (Nat × Nat × Nat)) : LineData :=
  ps.foldl (fun d p => lineWrite d p.1 (p.2.1 - p.1) p.2.2) d

/-- Whether the pieces cover bytes `lo` to `hi - 1`. -/
def covers (ps : List (Nat × Nat × Nat)) (lo hi : Nat) : Bool :=
  ((List.range (hi - lo)).map (lo + ·)).all fun b => ps.any fun p => decide (p.1 ≤ b) && decide (b < p.2.1)

/-- Whether the pieces replace the whole word of an array that holds the 8-byte unit at `u` of a line (Table 2.11). -/
def replaces (ps : List (Nat × Nat × Nat)) (array u : Nat) : Bool :=
  if array = arrHbm then covers ps (u / 64 * 64) (u / 64 * 64 + 64) else covers ps u (u + 8)

/-- The uncorrectable units of a copy that the pieces touch: offset and array. -/
def badUnder (d : LineData) (ps : List (Nat × Nat × Nat)) : List (Nat × Nat) :=
  (List.range 16).filterMap fun i =>
    if ps.any fun p => decide (p.1 < 8 * i + 8) && decide (8 * i < p.2.1) then (lineMark d (8 * i)).map fun a => (8 * i, a)
    else none

/-- Whether a write touches an uncorrectable word of a copy that it does not replace whole (R37). -/
def badPieces (d : LineData) (ps : List (Nat × Nat × Nat)) : Option Nat :=
  ((badUnder d ps).find? fun p => !replaces ps p.2 p.1).map (·.2)

/-- A copy in which the words that a write replaces whole are no longer marked (R37). -/
def soundPieces (d : LineData) (ps : List (Nat × Nat × Nat)) : LineData :=
  lineSound d (((badUnder d ps).filter fun p => replaces ps p.2 p.1).map (·.1))

/-- Writes footprint bytes of a line at its site, as one access: time (R43, R66, R77, R114, R116). -/
def State.writeLine (s : State) (key : Nat) (j : Job) (va : Nat) (l : Loc) (ps : List (Nat × Nat × Nat)) :
    LineTry (State × Nat) :=
  let atHome := fun (ln : Nat) =>
    match s.homeReady ln true with
    | (s, false) => LineTry.hold s
    | (s, true) =>
      let d := (s.lineAt ln).data
      match badPieces d ps with
      | some a => .fault { code := Code.ecc, info := a, addr := va }
      | none =>
        let (s, time) := s.homeStore ln j.clock (patch (soundPieces d ps) ps)
        .ok (s.touchHome ln (cardHint j.card), time)
  match l with
  | .forme k off =>
    let base := off / 128 * 128
    let f := s.forme k
    match f.taggedAt base 128 with
    | some w => .fault { code := Code.clobber, addr := va / 128 * 128 + w - base }
    | none =>
      let units := (List.range 16).filter fun i =>
        (s.badAt (badForme k (base + 8 * i))).isSome
          && (ps.any fun p => decide (p.1 < 8 * i + 8) && decide (8 * i < p.2.1))
      if units.any fun i => !covers ps (8 * i) (8 * i + 8) then .fault { code := Code.ecc, info := arrSram, addr := va }
      else
        let (f, time) := f.stamp base j.clock
        let f := { f with data := ps.foldl (fun d p => writeBytes d (base + p.1) (p.2.1 - p.1) p.2.2) f.data }
        let s := { s with bad := units.foldl (fun b i => Tab.del (badForme k (base + 8 * i)) b) s.bad }
        let s := s.modForme k fun _ => f
        .ok (if Tab.find (off / 128) f.writer = some key then s.linePresent k (off / 128) else s, time)
  | .device pa => atHome (deviceLine pa)
  | .host pa => atHome (hostLine pa)
  | .platen pa =>
    let st := stackOf pa
    if s.packetsFor pa then .hold s
    else
      let marks := s.marksOf (pa / 128)
      match badPieces marks ps with
      | some a => .fault { code := Code.ecc, info := a, addr := va }
      | none =>
        let s := s.putMarks (pa / 128) (soundPieces marks ps)
        let (s, time) := s.platenStamp st (pa / 128) j.clock
        let base := pa / 128 * 128
        .ok ({ s with hbm := ps.foldl (fun m p => writeBytes m (base + p.1) (p.2.1 - p.1) p.2.2) s.hbm }, time)
  | .io _ => .fault (protection 10 va)
  | .peer .. => .fault (protection 9 va)

/-! ### What a job reads next -/

/-- The lines that hold `n` bytes at an address. -/
def linesOf (a n : Nat) : List Nat := if n = 0 then [] else (List.range ((a + n - 1) / 128 - a / 128 + 1)).map (a / 128 + ·)

/-- Bytes of a job's buffer. -/
def Job.bytes (j : Job) (a : Nat) : Nat → Nat
  | 0 => 0
  | n + 1 => (Tab.getD ((Tab.find (a / 128) j.buf).getD []) (a % 128) 0).toNat + 256 * j.bytes (a + 1) n

/-- The source spans of a destination line of a gather: for each element that the piece covers, its index word, or, once
that is known, its place in the table. An index not less than TEXT is an error (R115). -/
def Job.gatherSpans (j : Job) (p : Piece) : List (Nat × Except Trap (Nat × Nat × Nat)) :=
  let bpr := cardBpr j.card
  let n := p.hi - p.lo
  let first := p.src / bpr
  (List.range ((p.src + n - 1) / bpr - first + 1)).map fun i =>
    let e := first + i
    let lo := max p.src (e * bpr)
    let hi := min (p.src + n) (e * bpr + bpr)
    let idx := j.bytes (cardAddr j.card 1 + 4 * e) 4
    (cardAddr j.card 1 + 4 * e,
      if cardText j.card ≤ idx then .error (protection 8 (cardAddr j.card 1 + 4 * e))
      else .ok (cardTable j.card + idx * bpr + (lo - e * bpr), hi - lo, p.lo + (lo - p.src)))

/-- The first line of a list that the job has not read. -/
def Job.unread (j : Job) (lns : List Nat) : Option Nat := lns.find? fun l => !Tab.has j.buf l

/-- The next line that a gather reads for a destination line: element by element, its index and then its part of the table
(R114, R115). DEDUCED (log 54). -/
def Job.nextGather (j : Job) : List (Nat × Except Trap (Nat × Nat × Nat)) → Except Trap (Option Nat)
  | [] => .ok none
  | (idx, q) :: rest =>
    match j.unread (linesOf idx 4) with
    | some l => .ok (some l)
    | none =>
      match q with
      | .error t => .error t
      | .ok (a, n, _) =>
        match j.unread (linesOf a n) with
        | some l => .ok (some l)
        | none => j.nextGather rest

/-- The line to read next: an error ends the job; none when everything that the next delivery needs has been read. A copy
reads the lines that its next destination line needs, a collective reads its operand before it writes. DESIGN CHOICE
(log 76). -/
def Job.nextRead (j : Job) : Except Trap (Option Nat) :=
  match j.kind with
  | .coll =>
    .ok (j.unread ((readSpans j.kind j.card).flatMap fun p => linesOf p.1 p.2))
  | .copy =>
    if cardFill j.card then .ok none
    else
      match (planOf j.kind j.card)[j.done]? with
      | none => .ok none
      | some (_, ps) => .ok (j.unread (ps.flatMap fun p => linesOf p.src (p.hi - p.lo)))
  | .gather =>
    match (planOf j.kind j.card)[j.done]? with
    | none => .ok none
    | some (_, ps) => j.nextGather (ps.flatMap j.gatherSpans)

/-- The next element group of an ALLRED whose elements have all been read (R289). -/
def Job.groupReady (j : Job) : Option Nat :=
  if j.kind == .coll && !isPush j.kind j.card && decide (j.sent < groupCount j.card) &&
      (groupElems j.card j.sent).all fun e =>
        Tab.has j.buf (elemAddr (cardAddr j.card 1) (cardSstr j.card) (cardBpr j.card) e / 128) then some j.sent
  else none

/-- The values of an element group. -/
def Job.groupVals (j : Job) (i : Nat) : List Word :=
  (groupElems j.card i).map fun e =>
    BitVec.ofNat 32 (j.bytes (elemAddr (cardAddr j.card 1) (cardSstr j.card) (cardBpr j.card) e) 4)

/-- The plane of an element group (R282). -/
def Job.plane (j : Job) (i : Nat) : Nat := (j.jseq + i) % 128

/-- Whether the plane of an element group is up (R282). -/
def State.groupPlane (s : State) (j : Job) (i : Nat) : Bool := s.planeUp (j.plane i)

/-- Sends every element group that has been read whole, also of a group with one member: the switch returns the sum, here the
member's own value (R282, R288, R289, R291). A plane that is down ends the job (R292). -/
def State.sendGroups (s : State) (key : Nat) : Nat → State
  | 0 => s
  | fuel + 1 =>
    match Tab.find key s.jobs with
    | none => s
    | some j =>
      match j.groupReady with
      | none => s
      | some i =>
        if !s.groupPlane j i then s.failJob key (protection 13 (cardAddr j.card 1))
        else
          let p := { s.collTag j with line := i, vals := j.groupVals i, plane := j.plane i }
          ({ s with
             fabric := { s.fabric with coll := s.fabric.coll ++ [p] }
             jobs := Tab.put key { j with sent := i + 1 } s.jobs } : State).sendGroups key fuel

/-- A job that may act on its lines: started, not stalled, not ended. -/
def State.acting (s : State) (key : Nat) : Option Job :=
  match Tab.find key s.jobs with
  | some j => if j.started && !j.stalled && j.ended.isNone then some j else none
  | none => none

/-- Whether a job may start: it has no pending edge (R119). -/
def Job.startable (j : Job) : Bool := j.edges.isEmpty && !j.started && j.ended.isNone

/-- Whether a job of the same engine with PRIO set may start as well (Table 6.1). -/
def State.outranked (s : State) (j : Job) : Bool :=
  !Bits.bit (cardWord j.card 0) 4 && s.jobs.any fun (_, b) =>
    b.startable && Bits.bit (cardWord b.card 0) 4 && engineClock b.kind b.core == engineClock j.kind j.core

/-- JOB_START: a job without a pending edge begins, one with PRIO set ahead of the others (R111, R119). -/
def execJobStart (job : Nat) (s : State) : Host.Outcome State Fault Refusal :=
  match Tab.find job s.jobs with
  | some j =>
    if j.startable && !s.outranked j then
      .next { s with jobs := Tab.put job { j with started := true } s.jobs }
    else notEnabled "JOB_START"
  | none => notEnabled "JOB_START"

/-- ENGINE_LINE_READ: one line of the read footprint at its site, with the job's clock as its translation leaves it (R27,
R114 to R117). -/
def execEngineLineRead (job : Nat) (s : State) : Host.Outcome State Fault Refusal :=
  match s.acting job with
  | none => notEnabled "ENGINE_LINE_READ"
  | some j =>
    match j.denied with
    | some t => .next (s.failJob job { t with addr := j.stalledAt })
    | none =>
      match j.nextRead with
      | .error t => .next (s.failJob job t)
      | .ok none => notEnabled "ENGINE_LINE_READ"
      | .ok (some ln) =>
        match s.lineSite job j (ln * 128) 4 with
        | .fault t => .next (s.failJob job t)
        | .hold s => .next s
        | .ok (s, l) =>
          match s.readLine ((Tab.find job s.jobs).getD j) (ln * 128) l with
          | .fault t => .next (s.failJob job t)
          | .hold s => .next s
          | .ok (s, d, time) =>
            let s := { s with jobs := Tab.modify job (fun j =>
              { j with buf := Tab.put ln d j.buf, clock := time, endTime := max j.endTime time }) s.jobs }
            .next (s.sendGroups job (groupCount j.card + 1))

/-- The bytes that line `ln`, the next of a job, receives: `lo`, `hi`, value; none while something is missing (R289). -/
def Job.nextBytes (j : Job) (ln : Nat) (ps : List Piece) : Option (List (Nat × Nat × Nat)) :=
  match j.kind with
  | .copy => some (ps.map fun p => (p.lo, p.hi, if cardFill j.card then 0 else j.bytes p.src (p.hi - p.lo)))
  | .gather =>
    some (ps.flatMap fun p => (j.gatherSpans p).filterMap fun q =>
      match q.2 with
      | .ok (a, n, lo) => some (lo, lo + n, j.bytes a n)
      | .error _ => none)
  | .coll =>
    let dst := elemAddr (cardAddr j.card 3) (cardDstr j.card) (cardBpr j.card)
    let elems := (List.range (elemCount j.card)).filter fun e => dst e / 128 == ln
    if elems.all fun e => Tab.has j.recvd (e / 32) then
      some (elems.map fun e =>
        (dst e % 128, dst e % 128 + 4, (((Tab.find (e / 32) j.recvd).getD []).getD (e % 32) 0).toNat))
    else none

/-- Where the elements of a PUSH's group go: module and physical address of each (R288, R289). -/
def State.pushDests (s : State) (key : Nat) (j : Job) (elems : List Nat) : LineTry (State × List (Nat × Nat)) :=
  elems.foldl (fun acc e =>
    match acc with
    | .ok (s, dests) =>
      let va := elemAddr (cardAddr j.card 3) (cardDstr j.card) (cardBpr j.card) e
      match s.lineSite key j va 5 with
      | .ok (s, .peer m pa) => .ok (s, dests ++ [(m, pa)])
      | .ok _ => .fault (protection 9 va)
      | .fault t => .fault t
      | .hold s => .hold s
    | x => x) (.ok (s, []))

/-- Sends one element group of a PUSH as one packet on its plane, outstanding until it is acknowledged; the destination
applies each element as a reduction of its own (R284, R287 to R289). -/
def State.pushGroup (s : State) (key : Nat) (j : Job) : State :=
  let i := j.done
  let va := elemAddr (cardAddr j.card 3) (cardDstr j.card) (cardBpr j.card) (32 * i)
  match s.pushDests key j (groupElems j.card i) with
  | .fault t => s.failJob key t
  | .hold s => s
  | .ok (s, dests) =>
    if !s.groupPlane j i then s.failJob key (protection 13 va)
    else
      let p := { s.collTag j with line := i, vals := j.groupVals i, dests, plane := j.plane i }
      let o : PeerOut :=
        { tid := j.tid, module := (dests.headD (0, 0)).1, va, ctx := j.ctx, write := true, plane := j.plane i
          job := some key }
      let (tag, s) := s.fresh
      { s with
        fabric := { s.fabric with coll := s.fabric.coll ++ [p], out := Tab.put tag o s.fabric.out }
        jobs := Tab.modify key (fun j => { j with done := i + 1 }) s.jobs }

/-- A delivered line exceeds the pending bytes of the job's object: the job ends with BARRIER_COUNT_MISMATCH, and the faulted
object carries its status word from now on (R103, R105). -/
def State.overrun (s : State) (key k off : Nat) : State :=
  let s := s.failJob key { code := Code.countMismatch, addr := s.windowOf k off }
  let status := ((Tab.find key s.jobs).bind Job.ended).getD 0
  s.modForme k fun f => { f with objCause := Tab.set 0 off status f.objCause }

/-- ENGINE_LINE_WRITE: the next destination line at its site, its presence and the bound object; for a PUSH, the next
element group (R103, R114, R123, R289). An object with an uncorrectable word ends the job (R34, R37). -/
def execEngineLineWrite (job : Nat) (s : State) : Host.Outcome State Fault Refusal :=
  match s.acting job with
  | none => notEnabled "ENGINE_LINE_WRITE"
  | some j =>
    match j.denied, j.nextRead with
    | some t, _ => .next (s.failJob job { t with addr := j.stalledAt })
    | none, .error t => .next (s.failJob job t)
    | none, .ok (some _) => notEnabled "ENGINE_LINE_WRITE"
    | none, .ok none =>
      if j.complete then notEnabled "ENGINE_LINE_WRITE"
      else if isPush j.kind j.card then .next (s.pushGroup job j)
      else
        match (planOf j.kind j.card)[j.done]? with
        | none => notEnabled "ENGINE_LINE_WRITE"
        | some (ln, ps) =>
          match j.nextBytes ln ps with
          | none => notEnabled "ENGINE_LINE_WRITE"
          | some bs =>
            match s.lineSite job j (ln * 128) 5 with
            | .fault t => .next (s.failJob job t)
            | .hold s => .next s
            | .ok (s, l) =>
              match s.writeLine job ((Tab.find job s.jobs).getD j) (ln * 128) l bs with
              | .fault t => .next (s.failJob job t)
              | .hold s => .next s
              | .ok (s, time) =>
                let s := { s with jobs := Tab.modify job (fun j =>
                  { j with done := j.done + 1, clock := time, endTime := max j.endTime time }) s.jobs }
                match j.object.filter fun p => Tab.has s.formes p.1 with
                | none => .next s
                | some (k, off) =>
                  if s.badUnits k off 16 false then
                    .next (s.failJob job { code := Code.ecc, info := arrSram, addr := s.windowOf k off })
                  else
                    let n := (ps.map fun p => p.hi - p.lo).sum
                    let (s, ok) := s.objLine k off n time
                    .next (if ok then s else s.overrun job k off)

/-- JOB_END (R120). -/
def execJobEnd (job : Nat) (s : State) : Host.Outcome State Fault Refusal :=
  match Tab.find job s.jobs with
  | some j =>
    if j.ended.isSome || (j.started && j.complete) then .next (s.endJob job j) else notEnabled "JOB_END"
  | none => notEnabled "JOB_END"

end Sys2Proof.Machine
end

