-- ==== Sys2Proof/Machine/FloatInstr.lean ====
section
/-! DEFINITION. Floating-point and conversion instructions, format slots and block quantisation (spec/12, R143 to R151). -/

namespace Sys2Proof.Machine

/-! ### Format slots (R145) -/

def slotType (v : Nat) : Nat := v % 256
def slotBlk (v : Nat) : Nat := Bits.field v 8 4
def slotSck (v : Nat) : Nat := Bits.field v 12 4
def slotRnd (v : Nat) : Nat := Bits.field v 17 3
def slotSat (v : Nat) : Bool := Bits.bit v 20
/-- T, the tensor-wide scale, as an exact value. -/
def slotT (v : Nat) : FVal := fmtF32.decode (v / 2 ^ 32)

/-- Whether a slot is well formed: Table 8.4, reserved fields zero, TSCALE positive and finite (R146). -/
def slotWf (v : Nat) : Bool :=
  let combo := (slotType v, slotBlk v, slotSck v, Bits.field v 16 1)
  (combo == (15, 0, 0, 0) || combo == (15, 2, 1, 0) || combo == (15, 1, 1, 0) || combo == (15, 2, 2, 0)
    || combo == (16, 2, 1, 1) || combo == (13, 0, 0, 0) || combo == (14, 0, 0, 0) || combo == (13, 2, 1, 0)
    || combo == (14, 2, 1, 0) || combo == (1, 0, 0, 0) || combo == (9, 0, 0, 0) || combo == (10, 0, 0, 0)
    || combo == (11, 0, 0, 0))
    && Bits.field v 21 11 == 0 && decide (slotRnd v < 4)
    && (match slotT v with | .num false n _ => n != 0 | _ => false)

/-- ILLEGAL_ENCODING of a slot: `%tinfo` holds the slot index (R147). -/
def badSlot (fs : Nat) : LaneStop := .fault { code := Code.illegalEncoding, info := fs }

/-- Whether `fcvt` through a slot accepts it: TYPE is the N side's type and BLK is 0 (R219). -/
def fcvtSlotOk (x : XForm) (v : Nat) : Bool :=
  let n := if x.ty.isN then x.ty.code else x.sub.toNat
  slotType v == n && slotBlk v == 0

/-- Whether `mxq` and `mxdq` accept a slot: TYPE is TY, BLK 2, SCK 1. -/
def mxSlotOk (x : XForm) (v : Nat) : Bool := slotType v == x.ty.code && slotBlk v == 2 && slotSck v == 1

/-! ### Conversion (R217, R218) -/

/-- The exact value of a source operand under its type. -/
def sourceValue (ty : Ty) (a : Nat) : FVal :=
  if ty.isInt then
    let v := Ty.value ty a
    .num (decide (v < 0)) v.natAbs 1
  else (fmtOf ty).decode a

/-- A value into an integer type (R150). DEDUCED (log 39). -/
def toIntV (dst : Ty) (mode : Nat) (v : FVal) : Nat × Nat :=
  let lo : Int := if dst.isSigned then -((2 ^ (dst.bits - 1) : Nat) : Int) else 0
  let hi : Int := if dst.isSigned then ((2 ^ (dst.bits - 1) : Nat) : Int) - 1 else ((2 ^ dst.bits : Nat) : Int) - 1
  match v with
  | .nan _ => (0, fNV)
  | .inf s => (Bits.ofInt (32 * dst.regs) (if s then lo else hi), fNV)
  | .num s n d =>
    let r : Int := (if s then -1 else 1) * (roundInt mode s n d : Nat)
    if r < lo then (Bits.ofInt (32 * dst.regs) lo, fNV)
    else if hi < r then (Bits.ofInt (32 * dst.regs) hi, fNV)
    else (Bits.ofInt (32 * dst.regs) r, if n % d = 0 then 0 else fNX)

/-- `fcvt` (R218): `slot` is the slot's bits when SLOT is 1. -/
def fcvtV (src dst : Ty) (imm slot a : Nat) : Nat × Nat :=
  let x := sourceValue src a
  let useSlot := Bits.bit imm 3
  let rm := imm % 4
  let scaled := if useSlot then (if dst.isN then (x.div (slotT slot)).1 else (x.mul (slotT slot)).1) else x
  let y := if x.isNan then x else scaled
  let mode := if useSlot && dst.isN then slotRnd slot else rm
  let sat := if useSlot then (if dst.isN then slotSat slot else false) else Bits.bit imm 2
  let (r, fl) := if dst.isInt then toIntV dst mode y else (fmtOf dst).deliver mode sat y
  (r, fl ||| x.nv)

/-! ### Block formats (R143, R144) -/

/-- An e8m0 scale times the tensor scale, as a positive fraction (R142). -/
def scaleFrac (s : Nat) (t : FVal) : Nat × Nat :=
  let (tn, td) := match t with | .num _ n d => (n, d) | _ => (1, 1)
  scaleDown tn td (127 - (s : Int))

/-- Multiplies a number by a positive fraction. -/
def FVal.scale (v : FVal) (p : Nat × Nat) : FVal :=
  match v with
  | .num s n d => .num s (n * p.1) (d * p.2)
  | v => v

/-- The decoded value of an element code of an e8m0-scaled block of 32; `spare`: the e4m3 spare of an e2m1s block. -/
def elementV (spare : Option Nat) (scale : Nat) (t : FVal) (code : Nat) : FVal :=
  if scale = 0xFF then .nan false
  else
    match spare with
    | some sp =>
      if code = 8 then
        match fmtE4m3.decode sp with
        | .num s n d => if n = 0 then .num false 0 1 else (FVal.num s n d).scale (scaleFrac scale t)
        | _ => .nan false
      else (fmtE2m1.decode code).scale (scaleFrac scale t)
    | none => (fmtE2m1.decode code).scale (scaleFrac scale t)

/-- |a − b| of two fractions with signs, as a fraction. -/
def distance (a b : FVal) : Nat × Nat :=
  match (a.add b.neg).1 with
  | .num _ n d => (n, d)
  | _ => (0, 1)

/-- Whether fraction `a` is less than fraction `b`. -/
def fracLt (a b : Nat × Nat) : Bool := decide (a.1 * b.2 < b.1 * a.2)

/-- The code nearest `y` among the grid values and the spare, with the ties of R151. -/
def quantise (spare : Option Nat) (y : FVal) : Nat :=
  let grid := [0, 2, 4, 6, 10, 12, 14, 1, 3, 5, 7, 9, 11, 13, 15]            -- even codes first
  let best := grid.foldl
    (fun (b : Nat) c => if fracLt (distance (fmtE2m1.decode c) y) (distance (fmtE2m1.decode b) y) then c else b) 0
  match spare with
  | none => best
  | some sp =>
    match fmtE4m3.decode sp with
    | .num s n d =>
      if fracLt (distance (.num s n d) y) (distance (fmtE2m1.decode best) y) then 8 else best
    | _ => best

/-- The index of the largest magnitude, the lowest on a tie (R151). -/
def largestIndex (xs : List FVal) : Nat :=
  (xs.foldl (fun (acc : Nat × Nat × (Nat × Nat)) v =>
    let (i, m, best) := acc
    let (n, d) := match v with | .num _ n d => (n, d) | _ => (0, 1)
    if fracLt best (n, d) then (i + 1, i, (n, d)) else (i + 1, m, best)) (0, 0, (0, 1))).2.1

/-- A quantised block: codes, SCALE, SPARE, flags. -/
structure Block where
  codes : List Nat
  scale : Nat
  spare : Nat
  flags : Nat

/-- Whether two exact values are equal. -/
def sameValue (a b : FVal) : Bool :=
  match a, b with
  | .num .., .num .. => a.cmp b == 0
  | _, _ => false

/-- `mxq`: 32 f32 values into one block (R151, R220). `withSpare`: e2m1s. A SPARE of zero keeps the sign of the input. DESIGN
CHOICE (log 80). -/
def mxqV (withSpare : Bool) (t : FVal) (xs : List Nat) : Block :=
  let vs := xs.map fmtF32.decode
  if vs.any (fun v => match v with | .num .. => false | _ => true) then
    { codes := vs.map fun _ => 0, scale := 0xFF, spare := 0, flags := fNV }
  else
    let (tn, td) := match t with | .num _ n d => (n, d) | _ => (1, 1)
    let big := vs.getD (largestIndex vs) (.num false 0 1)
    let scale := match big with
      | .num _ n d =>
        if n = 0 then 0 else (min (max (floorLog2 (n * td) (d * tn) - 2 + 127) 0) 254).toNat
      | _ => 0
    let unscale := fun (v : FVal) =>
      match v with
      | .num s n d =>
        let (a, b) := scaleDown (n * td) (d * tn) ((scale : Int) - 127)
        FVal.num s a b
      | v => v
    let (sp, spFl) := fmtE4m3.deliver 0 true (unscale big)
    let spare := if withSpare then some sp else none
    let codes := vs.map fun v => quantise spare (unscale v)
    let tooBig := vs.any fun v => Bits.bit (fmtE2m1.deliver 0 false (unscale v)).2 2
    let exact := (vs.zip codes).all fun (v, c) => sameValue v (elementV spare scale t c)
    { codes, scale
      spare := if withSpare then sp else 0
      flags := (if withSpare then (if Bits.bit spFl 2 then fOF ||| fNX else 0) else (if tooBig then fOF ||| fNX else 0))
        ||| (if exact then 0 else fNX) }

/-! ### Shared forms -/

/-- One, two or three sources in the type, a result with flags (R211). -/
def floatX (o : XOp) (nb nc : Bool) (f : Fmt → Nat → Nat → Nat → Nat × Nat) (x : XForm) (words : Nat) (s : State) :
    Host.Outcome State Fault Refusal :=
  let w := x.ty.regs
  execSeq words none (fun s c => do
    c.dests (regSpan x.d.toNat w)
    let r ← c.operands o x w (if nb then w else 0) (if nc then w else 0)
    let s ← s.claimRegs c r.srcs (regSpan x.d.toNat w)
    let (v, fl) := f (fmtOf x.ty) (c.th.vs r.a w) (if nb then c.opB x r w else 0) (if nc then c.th.vs r.c w else 0)
    return s.modThread c.id fun th => (th.setVs x.d.toNat v w).raiseFlags fl) s

/-! ### Meanings -/

/-- `fadd`, extended form (R211). -/
def execFadd (x : XForm) (s : State) : Host.Outcome State Fault Refusal :=
  floatX .fadd true false (fun f a b _ => faddV f a b) x x.words s
/-- `fadd`, base form: f32 (R161, R211). -/
def execFaddBase (f : B3) (s : State) : Host.Outcome State Fault Refusal :=
  floatX .fadd true false (fun f a b _ => faddV f a b) (f.toX .f32 false) f.words s

/-- `fsub`, extended form (R211). -/
def execFsub (x : XForm) (s : State) : Host.Outcome State Fault Refusal :=
  floatX .fsub true false (fun f a b _ => fsubV f a b) x x.words s
/-- `fsub`, base form: f32 (R161, R211). -/
def execFsubBase (f : B3) (s : State) : Host.Outcome State Fault Refusal :=
  floatX .fsub true false (fun f a b _ => fsubV f a b) (f.toX .f32 false) f.words s

/-- `fmul`, extended form (R211). -/
def execFmul (x : XForm) (s : State) : Host.Outcome State Fault Refusal :=
  floatX .fmul true false (fun f a b _ => fmulV f a b) x x.words s
/-- `fmul`, base form: f32 (R161, R211). -/
def execFmulBase (f : B3) (s : State) : Host.Outcome State Fault Refusal :=
  floatX .fmul true false (fun f a b _ => fmulV f a b) (f.toX .f32 false) f.words s

/-- `fmin`, extended form (R212). -/
def execFmin (x : XForm) (s : State) : Host.Outcome State Fault Refusal :=
  floatX .fmin true false (fun f a b _ => fminmaxV false f a b) x x.words s
/-- `fmin`, base form: f32 (R161, R212). -/
def execFminBase (f : B3) (s : State) : Host.Outcome State Fault Refusal :=
  floatX .fmin true false (fun f a b _ => fminmaxV false f a b) (f.toX .f32 false) f.words s

/-- `fmax`, extended form (R212). -/
def execFmax (x : XForm) (s : State) : Host.Outcome State Fault Refusal :=
  floatX .fmax true false (fun f a b _ => fminmaxV true f a b) x x.words s
/-- `fmax`, base form: f32 (R161, R212). -/
def execFmaxBase (f : B3) (s : State) : Host.Outcome State Fault Refusal :=
  floatX .fmax true false (fun f a b _ => fminmaxV true f a b) (f.toX .f32 false) f.words s

/-- `fma`, extended form (R211). -/
def execFma (x : XForm) (s : State) : Host.Outcome State Fault Refusal := floatX .fma true true fmaV x x.words s
/-- `fma`, base form: f32, the addend is D (R161, R211). -/
def execFmaBase (f : B3) (s : State) : Host.Outcome State Fault Refusal :=
  floatX .fma true true fmaV (f.toX .f32 true) f.words s

/-- `fabs` (R213). -/
def execFabs (x : XForm) (s : State) : Host.Outcome State Fault Refusal :=
  floatX .fabs false false (fun f a _ _ => fsignV (fun _ _ => false) f a 0) x x.words s

/-- `fneg` (R213). -/
def execFneg (x : XForm) (s : State) : Host.Outcome State Fault Refusal :=
  floatX .fneg false false (fun f a _ _ => fsignV (fun a _ => !a) f a 0) x x.words s

/-- `fsgn` (R213). -/
def execFsgn (x : XForm) (s : State) : Host.Outcome State Fault Refusal :=
  floatX .fsgn true false (fun f a b _ => fsignV (fun _ b => b) f a b) x x.words s
/-- `frnd` (R214). -/
def execFrnd (x : XForm) (s : State) : Host.Outcome State Fault Refusal :=
  floatX .frnd false false (fun f a _ _ => frndV x.sub.toNat f a) x x.words s

/-- `frcp` (R215). -/
def execFrcp (x : XForm) (s : State) : Host.Outcome State Fault Refusal :=
  floatX .frcp false false (fun f a _ _ => frcpV f (a % 2 ^ (f.magBits + 1))) x x.words s

/-- `frsq` (R215). -/
def execFrsq (x : XForm) (s : State) : Host.Outcome State Fault Refusal :=
  floatX .frsq false false (fun f a _ _ => frsqV f (a % 2 ^ (f.magBits + 1))) x x.words s

/-- `fsqrt` (R215). -/
def execFsqrt (x : XForm) (s : State) : Host.Outcome State Fault Refusal :=
  floatX .fsqrt false false (fun f a _ _ => fsqrtV f (a % 2 ^ (f.magBits + 1))) x x.words s

/-- `fex2` (R215). -/
def execFex2 (x : XForm) (s : State) : Host.Outcome State Fault Refusal :=
  floatX .fex2 false false (fun f a _ _ => fex2V f (a % 2 ^ (f.magBits + 1))) x x.words s

/-- `flg2` (R215). -/
def execFlg2 (x : XForm) (s : State) : Host.Outcome State Fault Refusal :=
  floatX .flg2 false false (fun f a _ _ => flg2V f (a % 2 ^ (f.magBits + 1))) x x.words s

/-- `fsinr` (R215). -/
def execFsinr (x : XForm) (s : State) : Host.Outcome State Fault Refusal :=
  floatX .fsinr false false (fun f a _ _ => fturnV false f (a % 2 ^ (f.magBits + 1))) x x.words s

/-- `fcosr` (R215). -/
def execFcosr (x : XForm) (s : State) : Host.Outcome State Fault Refusal :=
  floatX .fcosr false false (fun f a _ _ => fturnV true f (a % 2 ^ (f.magBits + 1))) x x.words s

/-- `fdiv` (R215). -/
def execFdiv (x : XForm) (s : State) : Host.Outcome State Fault Refusal :=
  floatX .fdiv true false (fun f a b _ => fdivV f a b) x x.words s

/-- `fcmp` (R216). -/
def execFcmp (x : XForm) (s : State) : Host.Outcome State Fault Refusal :=
  let w := x.ty.regs
  execSeq x.words none (fun s c => do
    let r ← c.operands .fcmp x w w 0
    let s ← s.claimRegs c r.srcs []
    let (v, fl) := fcmpV x.sub.toNat (fmtOf x.ty) (c.th.vs r.a w) (c.opB x r w)
    return s.modThread c.id fun th => (th.setP x.d.toNat v).raiseFlags fl) s

/-- `fcvt` (R217 to R219). -/
def execFcvt (x : XForm) (s : State) : Host.Outcome State Fault Refusal :=
  let src := (Ty.ofCode x.sub.toNat).getD .f32
  let w := x.ty.regs
  execSeq x.words none (fun s c => do
    let slot := s.fslot c.team x.fs.toNat
    if Bits.bit x.imm.toNat 3 && !fcvtSlotOk x slot then throw (badSlot x.fs.toNat)
    c.dests (regSpan x.d.toNat w)
    let r ← c.operands .fcvt x src.regs 0 0
    let s ← s.claimRegs c r.srcs (regSpan x.d.toNat w)
    let (v, fl) := fcvtV src x.ty x.imm.toNat slot (c.th.vs r.a src.regs)
    return s.modThread c.id fun th => (th.setVs x.d.toNat v w).raiseFlags fl) s

/-- The 32 registers from `n` lie in the allocation; the first that does not raises REG_RANGE (R220, R221). -/
def View.block (c : View) (n : Nat) : Lane Unit :=
  if n + 31 < c.alloc then .ok ()
  else .error (.fault { code := Code.regRange, addr := max n c.alloc })

/-- `mxq` (R220). -/
def execMxq (x : XForm) (s : State) : Host.Outcome State Fault Refusal :=
  execSeq x.words none (fun s c => do
    let slot := s.fslot c.team x.fs.toNat
    if !mxSlotOk x slot then throw (badSlot x.fs.toNat)
    let d := x.d.toNat
    let b := x.b.toNat
    c.dests (regSpan d 4)
    c.dests [b]
    let a ← c.resolve (word0 .mxq x) x.a.toNat x.c.toNat x.xa 1
    c.block a
    let s ← s.claimRegs c (regSpan a 32 ++ [b] ++ (if x.xa then [x.c.toNat] else [])) (regSpan d 4)
    let blk := mxqV (x.ty == .e2m1s) (slotT slot) ((regSpan a 32).map fun n => (c.th.v n).toNat)
    let half := blk.scale + 2 ^ 8 * blk.spare
    let old := (c.th.v b).toNat
    let bv := if x.sub == 0 then old / 2 ^ 16 * 2 ^ 16 + half else old % 2 ^ 16 + half * 2 ^ 16
    return s.modThread c.id fun th =>
      ((th.setVs d (Bits.joinLE 4 blk.codes) 4).setV b bv).raiseFlags blk.flags) s

/-- The f32 values of a block's 32 elements, and their flags (R221). -/
def mxdqV (withSpare : Bool) (t : FVal) (elems half : Nat) : List (Nat × Nat) :=
  (Bits.splitLE 4 32 elems).map fun code =>
    match elementV (if withSpare then some (half / 2 ^ 8 % 2 ^ 8) else none) (half % 2 ^ 8) t code with
    | .nan _ => (fmtF32.nan, 0)
    | v => fmtF32.deliver 0 false v

/-- `mxdq` (R221). -/
def execMxdq (x : XForm) (s : State) : Host.Outcome State Fault Refusal :=
  execSeq x.words none (fun s c => do
    let slot := s.fslot c.team x.fs.toNat
    if !mxSlotOk x slot then throw (badSlot x.fs.toNat)
    let d := x.d.toNat
    let a ← c.resolve (word0 .mxdq x) x.a.toNat x.c.toNat x.xa 4
    let b := x.b.toNat
    c.dests [b]
    c.block d
    let s ← s.claimRegs c (regSpan a 4 ++ [b] ++ (if x.xa then [x.c.toNat] else [])) (regSpan d 32)
    let half := if x.sub == 0 then (c.th.v b).toNat % 2 ^ 16 else (c.th.v b).toNat / 2 ^ 16
    let rs := mxdqV (x.ty == .e2m1s) (slotT slot) (c.th.vs a 4) half
    return s.modThread c.id fun th =>
      (th.setVs d (Bits.joinLE 32 (rs.map (·.1))) 32).raiseFlags (rs.foldl (fun f r => f ||| r.2) 0)) s

end Sys2Proof.Machine
end

