-- ==== Sys2Proof/Machine/Matrix.lean ====
section
/-! DEFINITION. Matrix operations and the galley (spec/14, R152 to R155). -/

namespace Sys2Proof.Machine

/-! ### Operand layout (R243, R244, R248) -/

/-- K of an element type (Table 14.2). -/
def matrixK (ty : Ty) : Nat := 512 / ty.bits

/-- Scale registers of a row of A (Table 14.2). -/
def scaleRegsA (slot : Nat) : Nat :=
  if slotBlk slot = 0 then 0
  else if (slotType slot = 15 ∨ slotType slot = 16) ∧ (slotBlk slot = 1 ∨ slotSck slot = 1) then 2 else 1

/-- Registers of one quarter of B (R244). -/
def quarterRegs (slot : Nat) : Nat := if slotBlk slot = 0 then 4 else 5

/-- Kept elements of a block for the density of `mmas` (R248). -/
def keptOf (sub : Nat) : Nat := if sub % 2 = 0 then 16 else 8

/-- Index registers of a compressed row (Table 14.3). -/
def indexRegs (ty : Ty) (kept : Nat) : Nat := Bits.ceilDiv (matrixK ty / 32 * kept * 5) 32

/-- Registers of a row of A as an instruction names it: `kept` elements of each block of 32 (R243, R248). -/
def rowRegs (ty : Ty) (slot kept : Nat) : Nat :=
  if kept = 32 then 16 + scaleRegsA slot else kept / 2 + scaleRegsA slot + indexRegs ty kept

/-- The expanded A: each kept element at its index, the highest slot where several give the same, +0 elsewhere (R248). -/
def expandRow (ty : Ty) (slot kept : Nat) (regs : List Nat) : List Nat :=
  if kept = 32 then regs
  else
    let d := kept / 2
    let n := matrixK ty / 32 * kept
    let codes := Bits.splitLE ty.bits n (Bits.joinLE 32 (regs.take d))
    let idx := Bits.splitLE 5 n (Bits.joinLE 32 (regs.drop (d + scaleRegsA slot)))
    let dense := (List.range (matrixK ty)).map fun k =>
      let b := k / 32
      ((List.range kept).foldl (fun acc j =>
        if idx.getD (b * kept + j) 0 = k % 32 then codes.getD (b * kept + j) 0 else acc) 0)
    Bits.splitLE 32 16 (Bits.joinLE ty.bits dense) ++ (regs.drop d).take (scaleRegsA slot)

/-! ### Arithmetic (R152, R153) -/

/-- The scale bits of each half-block of 16 elements of a row of A: SCALE in the low byte, SPARE above it (Table 14.2). -/
def unitsA (slot : Nat) (regs : List Nat) (h : Nat) : Nat :=
  let r := fun i => regs.getD (16 + i) 0
  let j := h / 2
  if slotBlk slot = 0 then 0
  else if slotBlk slot = 1 then Bits.field (r (h / 4)) (8 * (h % 4)) 8
  else if slotType slot = 13 ∨ slotType slot = 14 then Bits.field (r 0) (16 * j) 8
  else if slotSck slot = 2 then Bits.field (r 0) (8 * j) 8
  else Bits.field (r (j / 2)) (16 * (j % 2)) 16

/-- The scale bits of each half-block of a column of B, from the registers of its four quarters (R244). -/
def unitsB (slot : Nat) (regs : List Nat) (h : Nat) : Nat :=
  let r := fun q => regs.getD (q * 5 + 4) 0
  let j := h / 2
  if slotBlk slot = 0 then 0
  else if slotBlk slot = 1 then Bits.field (r j) (8 * (h % 2)) 8
  else if slotType slot = 13 ∨ slotType slot = 14 then r (2 * j) % 2 ^ 8
  else if slotSck slot = 2 then r j % 2 ^ 8
  else r j % 2 ^ 16

/-- A block scale: e8m0 or e4m3, 1 for a slot without one (R142, R143). -/
def scaleValue (slot u : Nat) : FVal :=
  if slotSck slot = 0 then .num false 1 1
  else if slotSck slot = 2 then fmtE4m3.decode (u % 2 ^ 8)
  else if u % 2 ^ 8 = 0xFF then .nan false
  else
    let p := scaleDown 1 1 (127 - ((u % 2 ^ 8 : Nat) : Int))
    .num false p.1 p.2

/-- An element without its scales (R139, R140, R144). -/
def codeValue (slot u code : Nat) : FVal :=
  match Ty.ofCode (slotType slot) with
  | some .i8 =>
    let v := Bits.signed 8 code
    .num (decide (v < 0)) v.natAbs 1
  | some .e2m1s => if code = 8 then fmtE4m3.decode (u / 2 ^ 8) else fmtE2m1.decode code
  | some ty => (fmtOf ty).decode code
  | none => .nan false

/-- Block `j` of a row or column, none when one of its scales is NaN. `t`: a further factor. -/
def blockOf (slot : Nat) (t : FVal) (units : Nat → Nat) (codes : List Nat) (j : Nat) : Option (List FVal) :=
  if (scaleValue slot (units (2 * j))).isNan || (scaleValue slot (units (2 * j + 1))).isNan then none
  else
    some (((codes.drop (32 * j)).take 32).zipIdx.map fun (code, i) =>
      let u := units ((32 * j + i) / 16)
      (((codeValue slot u code).mul (scaleValue slot u)).1.mul t).1)

def FVal.isZero : FVal → Bool
  | .num _ n _ => n == 0
  | _ => false

/-- The exact sum of numbers whose denominators are powers of two. -/
def exactSum (vs : List FVal) : FVal :=
  let d := vs.foldl (fun d v => match v with | .num _ _ c => max d c | _ => d) 1
  let t : Int := vs.foldl (fun t v =>
    match v with
    | .num s n c => if s then t - (n * (d / c) : Nat) else t + (n * (d / c) : Nat)
    | _ => t) 0
  .num (decide (t < 0)) t.natAbs d

/-- b(j) of R152, with NV for a NaN that no NaN input gives (R153). -/
def blockSum (a b : Option (List FVal)) : FVal × Nat :=
  match a, b with
  | some xs, some ys =>
    let ps := (xs.zip ys).map fun (x, y) => if x.isZero || y.isZero then FVal.num false 0 1 else (x.mul y).1
    let pos := ps.contains (.inf false)
    let neg := ps.contains (.inf true)
    if ps.any FVal.isNan then (.nan false, 0)
    else if pos && neg then (.nan false, fNV)
    else if pos then (.inf false, 0)
    else if neg then (.inf true, 0)
    else (exactSum ps, 0)
  | _, _ => (.nan false, 0)

/-- One addition of the fold in f32: a NaN operand gives the canonical NaN and no flag (R153). -/
def foldAdd (c b : Nat) : Nat × Nat :=
  if (fmtF32.decode c).isNan || (fmtF32.decode b).isNan then (fmtF32.nan, 0) else faddV fmtF32 c b

/-- D(l,c) with its flags: the left fold of the rounded block sums (R152). -/
def dotV (as bs : List (Option (List FVal))) (c : Nat) : Nat × Nat :=
  (as.zip bs).foldl (fun (acc : Nat × Nat) (a, b) =>
    let (v, f) := blockSum a b
    let (r, f') := fmtF32.deliver 0 false v
    let (d, f'') := foldAdd acc.1 r
    (d, acc.2 ||| f ||| f' ||| f'')) (c, 0)

/-- T as a factor of the blocks of A; i8 elements carry no scale, T included (R152, R238). -/
def rowScale (slot : Nat) : FVal := if Ty.ofCode (slotType slot) = some .i8 then .num false 1 1 else slotT slot

/-- The blocks of row `l` of A, T included once (R238, R243). -/
def MatrixOp.rowA (m : MatrixOp) (l : Nat) : List (Option (List FVal)) :=
  let ty := (Ty.ofCode (slotType m.slot)).getD .b32
  let regs := m.a.getD l []
  let codes := Bits.splitLE ty.bits (matrixK ty) (Bits.joinLE 32 (regs.take 16))
  (List.range (matrixK ty / 32)).map (blockOf m.slot (rowScale m.slot) (unitsA m.slot regs) codes)

/-- The blocks of column `c` of B (R244). -/
def MatrixOp.colB (m : MatrixOp) (c : Nat) : List (Option (List FVal)) :=
  let ty := (Ty.ofCode (slotType m.slot)).getD .b32
  let regs := m.b.getD c []
  let n := quarterRegs m.slot
  let data := (List.range 4).flatMap fun q => (regs.drop (q * n)).take 4
  let codes := Bits.splitLE ty.bits (matrixK ty) (Bits.joinLE 32 data)
  (List.range (matrixK ty / 32)).map (blockOf m.slot (.num false 1 1) (unitsB m.slot regs) codes)

/-- A word of a slug (R241). -/
def slugWord (w : Tab Word) (i : Nat) : Nat := (Tab.getD w i 0).toNat

/-- The slug after the operation, and each row's flags (R246, R153). DEDUCED (log 23). -/
def MatrixOp.result (m : MatrixOp) (w : Tab Word) : Tab Word × List Nat :=
  let cols := (List.range 32).map m.colB
  let rows := (List.range 32).map fun l =>
    let ra := m.rowA l
    cols.zipIdx.map fun (cb, c) => dotV ra cb (slugWord w (l * 32 + c))
  ((rows.flatten.zipIdx.filterMap fun (d, i) =>
      if BitVec.ofNat 32 d.1 = 0 then none else some (i, BitVec.ofNat 32 d.1)),
    rows.map fun r => r.foldl (fun f d => f ||| d.2) 0)

/-! ### Slugs (R239, R240, R251 to R253) -/

/-- Key of a bound name. -/
def slugKey (part name : Nat) : Nat := part * 16 + name
/-- The partition of a slug. -/
def slugPart (key : Nat) : Nat := if key < 64 then key / 16 else key % 4

/-- The queue of a partition's array (R359). -/
def State.matrixQueue (s : State) (core part : Nat) : List MatrixOp := Tab.getD s.matrix (core * 4 + part) []

/-- The teams of a core. -/
def State.teamsOn (s : State) (core : Nat) : List (Nat × Team) := s.teams.filter fun (_, t) => t.place == .core core

/-- Slugs of a partition that are not free: those of its teams, and those of retired teams whose operations are still
queued (R253). -/
def State.slugsUsed (s : State) (core part : Nat) : Nat :=
  let held := (s.teamsOn core).map fun (_, t) => (t.slugs.filter fun (k, _) => slugPart k == part).length
  let gone := ((s.matrixQueue core part).filter fun m => (s.team? m.team).isNone).map fun m => (m.team, m.slug)
  held.sum + gone.eraseDups.length

/-- Bound slugs that a team holds on a partition. -/
def Team.slugsOn (t : Team) (part : Nat) : Nat := (t.slugs.filter fun (k, _) => k < 64 && slugPart k == part).length

/-- Names of a request that are not bound. -/
def Team.unbound (t : Team) (part first count : Nat) : List Nat :=
  ((List.range count).map (first + ·)).filter fun n => !Tab.has t.slugs (slugKey part n)

/-- Whether a thread waits in `acalloc`. -/
def Thread.inAcalloc (th : Thread) : Bool := match th.wait with | .slugs .. | .slugTurn => true | _ => false

/-- Answers a group's waiting request: its threads go on with the predicate, those of another range have their turn
(R251). -/
def Team.answerSlugs (t : Team) (g : Nat) (ok : Bool) : Team :=
  { t with
    slugAsk := Tab.del g t.slugAsk
    threads := t.threads.map fun (n, th) =>
      if t.hw n ≠ g then (n, th)
      else match th.wait with
        | .slugs p next => (n, { th.setP p ok with wait := .ready, age := 0, pc := BitVec.ofNat 64 next })
        | .slugTurn => (n, { th with wait := .ready, age := 0 })
        | _ => (n, th) }

/-- The waiting requests of a partition, oldest launch stamp first: stamp, team, group, FIRST, COUNT. -/
def State.slugAsks (s : State) (core part : Nat) : List (Nat × Nat × Nat × Nat × Nat) :=
  let all := (s.teamsOn core).flatMap fun (k, t) => t.slugAsk.filterMap fun (g, f, c) =>
    if g % 4 = part then some (t.stamp, k, g, f, c) else none
  all.foldr (fun e acc => (acc.takeWhile fun a => a.1 < e.1) ++ e :: (acc.dropWhile fun a => a.1 < e.1)) []

/-- Grants the oldest waiting request if all its slugs fit: its names are bound to zeroed slugs (R240, R251). -/
def State.grantSlug (s : State) (core part : Nat) : Option State :=
  match s.slugAsks core part with
  | (_, k, g, first, count) :: _ =>
    match s.team? k with
    | none => none
    | some t =>
      let names := t.unbound part first count
      if s.slugsUsed core part + names.length ≤ 16 then
        let marks := names.flatMap fun n => (List.range 1024).map (badSlug k part n)
        let s : State := { s with bad := s.bad.filter fun p => !marks.contains p.1 }
        some (s.modTeam k fun t =>
          ({ t with slugs := names.foldl (fun m n => Tab.put (slugKey part n) [] m) t.slugs } : Team).answerSlugs g true)
      else none
  | [] => none

/-- Live threads of a team's groups on a partition. -/
def Team.liveOn (t : Team) (part : Nat) : List Thread :=
  (t.threads.filter fun (n, th) => th.live && t.hw n % 4 == part).map (·.2)

/-- Whether every holder of a partition is blocked (R252). -/
def State.slugsStuck (s : State) (core part : Nat) : Bool :=
  let holders := (s.teamsOn core).filter fun (_, t) => t.slugsOn part != 0 && !(t.liveOn part).isEmpty
  !holders.isEmpty && holders.all fun (_, t) => (t.liveOn part).all Thread.inAcalloc

/-- Refuses the waiting requests of the youngest waiting team while every holder is blocked (R252). -/
def State.refuseSlugs (s : State) (core part : Nat) : Nat → State
  | 0 => s
  | fuel + 1 =>
    match (s.slugAsks core part).getLast? with
    | none => s
    | some (_, k, _) =>
      if s.slugsStuck core part then
        (s.modTeam k fun t => t.slugAsk.foldl (fun t (g, _) => if g % 4 = part then t.answerSlugs g false else t) t)
          |>.refuseSlugs core part fuel
      else s

/-- Grants what can be granted; after a request or a grant, the check of R252. DEDUCED (log 25). -/
def State.settleSlugs (s : State) (core part : Nat) (asked : Bool) : Nat → State
  | 0 => s
  | fuel + 1 =>
    match s.grantSlug core part with
    | some s => s.settleSlugs core part true fuel
    | none => if asked then s.refuseSlugs core part 64 else s

/-- Whether an operation queued or in a rendezvous uses a slug. -/
def State.slugBusy (s : State) (core k key : Nat) : Bool :=
  ((s.matrixQueue core (slugPart key)).any fun m => m.team == k && m.slug == key)
    || ((s.team? k).map fun t => t.groups.any fun (_, g) => (g.quad.map fun m => m.slug == key).getD false).getD false

/-- Sends the operations on a slug to its contents under another key. -/
def State.moveSlug (s : State) (core k key key' : Nat) : State :=
  let mv := fun (m : MatrixOp) => if m.team = k ∧ m.slug = key then { m with slug := key' } else m
  let s : State := { s with matrix := Tab.modify (core * 4 + slugPart key) (fun q => q.map mv) s.matrix }
  s.modTeam k fun t =>
    { t with
      slugs := match Tab.find key t.slugs with
        | some w => Tab.put key' w (Tab.del key t.slugs)
        | none => t.slugs
      groups := t.groups.map fun (g, x) => (g, { x with quad := x.quad.map mv }) }

/-- Freed slugs that no queued or waiting operation uses any more return to their partitions (R253). -/
def State.reapSlugs (s : State) (core k : Nat) : State :=
  match ((s.team? k).map fun t => (Tab.keys t.slugs).filter fun key => decide (64 ≤ key) && !s.slugBusy core k key).getD [] with
  | [] => s
  | gone =>
    (gone.map slugPart).foldl (fun s part => s.settleSlugs core part false 64)
      (s.modTeam k fun t => { t with slugs := gone.foldl (fun m key => Tab.del key m) t.slugs })

/-- Unbinds a name; a slug in use returns when its queued operations have completed (R253). -/
def State.freeSlug (s : State) (core k key : Nat) : State :=
  if s.slugBusy core k key then
    let (tag, s) := s.fresh
    s.moveSlug core k key (64 + 4 * tag + slugPart key)
  else s.modTeam k fun t => { t with slugs := Tab.del key t.slugs }

/-! ### Links (R245) -/

/-- WAIT, PH, ARR of a link. -/
def linkWait (x : XForm) : Bool := Bits.bit x.imm.toNat 4
def linkPh (x : XForm) : Bool := Bits.bit x.imm.toNat 5
def linkArr (x : XForm) : Bool := Bits.bit x.imm.toNat 6

/-- The object that a link descriptor names (R245). -/
def State.linkObject (s : State) (t : Team) (d : Nat) : Lane (Nat × Nat) :=
  let va := windowAddr (Bits.field d 16 4) (16 * (d % 2 ^ 16))
  match if d % 2 ^ 16 = 0 then none else s.windowAt t.cluster va with
  | none => .error (.fault { code := Code.formeRange, addr := va })
  | some at' => .ok at'

/-- The `bo` access of a link on an object: presence and sound bits as every thread access (R37, R100), the tags, and the
WAIT, an observation of the flip (R72, R104, R105, R245). DEDUCED (log 38). -/
def State.linkCheck (s : State) (t : Team) (x : XForm) (fk off : Nat) : Lane State := do
  let va := s.windowOf fk off
  s.presenceCheck fk off va
  if s.badUnits fk off 16 false then throw (.fault { code := Code.ecc, info := arrSram, addr := va })
  if !(s.forme fk).tagged off then throw (clobbered va)
  if !linkWait x then return s
  let (f, _, time) := (s.forme fk).load off 16 (s.clock t.clockKey)
  let s := (s.modForme fk fun _ => f).raise t.clockKey time
  let o := f.obj off
  if o.faulted then throw (.fault { code := Code.copyFaulted, info := Tab.getD f.objCause off 0, addr := va })
  if o.phase = linkPh x then throw (.park (.link fk off (linkPh x)))
  return s.raise t.clockKey (Tab.getD f.flipTime off 0)

/-- A link as far as its instruction has come. -/
structure Linked where
  object : Option (Nat × Nat × Bool)    -- what its threads hold on to while the instruction waits
  result : Lane State                   -- the checks and the WAIT

/-- The checks of R245 and the WAIT. The descriptor is read once, at issue: `held` is what the threads of an instruction that
waits hold on to. -/
def State.link (s : State) (k : Nat) (t : Team) (x : XForm) (held : Option (Nat × Nat × Bool)) : Linked :=
  if !linkWait x && !linkArr x then { object := none, result := .ok s }
  else
    match held with
    | some (fk, off, true) => { object := some (fk, off, true), result := .ok s }
    | some (fk, off, false) => { object := some (fk, off, false), result := s.linkCheck t x fk off }
    | none =>
      match (do t.kReady [x.c.toNat]; t.kSound [x.c.toNat]; s.linkObject t (t.kreg x.c.toNat) : Lane (Nat × Nat)) with
      | .error e => { object := none, result := .error e }
      | .ok (fk, off) =>
        { object := some (fk, off, false), result := (s.kObserve k [x.c.toNat]).linkCheck t x fk off }

/-- The arrival of a link, an access in S at the object's bank; an object without its tag discards it (R245). It is performed
whatever the presence state of the object's line. DESIGN CHOICE (log 75). -/
def State.linkArrive (s : State) (clock : Nat) (arr : Option (Nat × Nat)) : State :=
  match arr with
  | none => s
  | some (fk, off) =>
    if Tab.has s.formes fk && (s.forme fk).tagged off then
      let (f, time) := (s.forme fk).stamp off (s.clock clock)
      ((s.modForme fk fun _ => f).raise clock time).agentArrive fk off time
    else s

/-! ### Issue -/

/-- All threads of the issue group wait and issue the instruction again; they hold on to its link. -/
def State.holdAll (s : State) (team : Nat) (ns : List Nat) (w : Wait) (linked : Option (Nat × Nat × Bool)) : State :=
  ns.foldl (fun s n => s.modThread { team, n } fun th => { th with wait := w, linked }) s

/-- The threads complete the instruction. -/
def State.pastLink (s : State) (team : Nat) (ns : List Nat) (next : Nat) : State :=
  ns.foldl (fun s n => s.modThread { team, n } fun th =>
    { th with wait := .ready, linked := none, pc := BitVec.ofNat 64 next }) s

/-- The first register of ranges (start, length) outside the allocation. -/
def View.ranges (c : View) (rs : List (Nat × Nat)) : Option Nat :=
  (rs.find? fun r => decide (c.alloc < r.1 + r.2)).map fun r => max r.1 c.alloc

/-- What an issue group's slug instruction goes on with. -/
structure SlugUse where
  team : Nat
  t : Team
  threads : List Nat
  core : Nat
  part : Nat
  slug : Nat
  slot : Nat
  link : Option (Nat × Nat × Bool)      -- its link, the WAIT satisfied
  arrive : Option (Nat × Nat)           -- the object that it arrives on
  next : Nat

/-- Raises ILLEGAL_OPCODE in every thread: near-memory cores and, unless `halves`, split mode (R242, R273). -/
def State.offUnit (s : State) (t : Team) (ig : IssueGroup) (halves : Bool) (w0 next : Nat) : Option State :=
  if t.near || (t.split && !halves) then
    some (s.deliverAll ig.team ig.threads { code := Code.illegalOpcode, info := w0 } next)
  else none

/-- Whether threads of some groups have accesses that are not performed yet: of an operation in memory, or peer writes that have
not been acknowledged. An arrival of a link follows them (R72, R245). DEDUCED (log 67). -/
def State.groupsUnperformed (s : State) (k : Nat) (t : Team) (gs : List Nat) : Bool :=
  (t.threads.any fun (n, th) => gs.contains (t.hw n) && !th.peerOut.isEmpty)
    || s.memops.any fun (_, o) =>
      o.team == k && (o.threads.any fun n => gs.contains (t.hw n)) && (!o.accs.isEmpty || !o.replies.isEmpty)

/-- A slug instruction up to its access: the checks in the order of R246. `conv`: R242's requirement (0 none, 1 R224, 2 all
32 lanes). `srcs` and `dsts` give the register ranges for a slot. With ARR it waits for its groups' earlier accesses, which its
arrival is to follow (R245). -/
def slugInstr (o : XOp) (x : XForm) (slotOk : Nat → Bool) (conv : Nat) (srcs dsts : Nat → List (Nat × Nat))
    (act : State → SlugUse → State) (s : State) : Host.Outcome State Fault Refusal :=
  match s.ig with
  | none => .fault .noIssueGroup
  | some ig =>
    match s.team? ig.team, ig.threads with
    | some t, n :: _ =>
      let next := ig.pc + 12
      let all := fun (s : State) (f : Trap) => s.deliverAll ig.team ig.threads f next
      match s.offUnit t ig false (word0 o x) next with
      | some s => .next s
      | none =>
        let slot := s.fslot t x.fs.toNat
        let part := t.part n
        let key := slugKey part (x.imm.toNat % 16)
        if !slotOk slot then .next (all s { code := Code.illegalEncoding, info := x.fs.toNat })
        else if conv ≠ 0 && !(t.converged ig.threads && (conv == 1 || ig.threads.length == 32)) then
          .next (s.diverged t ig.team ig.threads next)
        else if !Tab.has t.slugs key then
          .next (all s { code := Code.regRange, addr := 0x1000 + x.imm.toNat % 16 })
        else
          let views := ig.threads.filterMap fun n => s.view { team := ig.team, n }
          let outside := views.findSome? fun c => c.ranges (srcs slot ++ dsts slot)
          match outside with
          | some r => .next (all s { code := Code.regRange, addr := r })
          | none =>
            let held := (views.head?.bind fun c => c.th.linked).filter fun l => views.all fun c => c.th.linked == some l
            let ln := s.link ig.team t x held
            match ln.result with
            | .error (.fault f) => .next (all s f)
            | .error (.park w) => .next (s.holdAll ig.team ig.threads w ln.object)
            | .ok s =>
              let link := ln.object.map fun l => (l.1, l.2.1, true)
              let rs := (srcs slot).flatMap fun r => regSpan r.1 r.2
              let ds := (dsts slot).flatMap fun r => regSpan r.1 r.2
              let bad := views.filterMap fun c =>
                match c.sound rs with | .error (.fault f) => some (c.id, f) | _ => none
              let pend := views.findSome? fun c =>
                match c.unpended (rs ++ ds) with | .error (.park w) => some w | _ => none
              if !bad.isEmpty then .next (bad.foldl (fun s (i, f) => s.deliver i f next) s)
              else
                match pend with
                | some w => .next (s.holdAll ig.team ig.threads w link)
                | none =>
                  if linkArr x && s.groupsUnperformed ig.team t (ig.threads.map t.hw) then
                    .next (s.holdAll ig.team ig.threads .replay link)
                  else
                  let s := views.foldl (fun s c => s.observe c.id (c.observed rs ds)) s
                  let arrive := if linkArr x then link.map fun l => (l.1, l.2.1) else none
                  .next (act s
                    { team := ig.team, t, threads := ig.threads, core := t.core, part, slug := key, slot, link, arrive, next })
    | _, _ => .next s

/-! ### `mma`, `mma.q`, `mmas` (R246 to R248) -/

/-- Queues an operation on its partition's array. -/
def State.pushOp (s : State) (core part : Nat) (m : MatrixOp) : State :=
  { s with matrix := Tab.put (core * 4 + part) (s.matrixQueue core part ++ [m]) s.matrix }

/-- Registers of lanes. -/
def State.laneRegs (s : State) (team : Nat) (ns : List Nat) (r n : Nat) : List (List Nat) :=
  ns.map fun m => match s.thread? { team, n := m } with
    | some th => (regSpan r n).map fun i => (th.v i).toNat
    | none => []

/-- The operation of an issue group, its registers yet to be read. -/
def SlugUse.op (u : SlugUse) (x : XForm) (kept : Nat) : MatrixOp :=
  { team := u.team, group := u.t.hw (u.threads.headD 0), slug := u.slug, slot := u.slot, a := [], b := []
    breg := x.b.toNat, fs := x.fs.toNat, areg := x.a.toNat, kept, ty := x.ty, arrive := u.arrive }

/-- The threads of an operation's group, in lane order. -/
def MatrixOp.lanes (m : MatrixOp) : List Nat := (List.range 32).map (m.group * 32 + ·)

/-- How many registers of each lane an operation reads for A. -/
def MatrixOp.aregs (m : MatrixOp) : Nat := rowRegs m.ty m.slot m.kept

/-- The rows of A, read from the registers of the operation's group. -/
def State.rowsOf (s : State) (m : MatrixOp) : List (List Nat) :=
  (s.laneRegs m.team m.lanes m.areg m.aregs).map (expandRow m.ty m.slot m.kept)

/-- Queues an operation, or waits while the queue holds 4 (R246, R359). -/
def State.queueMma (s : State) (u : SlugUse) (x : XForm) (kept : Nat) : State :=
  if 4 ≤ (s.matrixQueue u.core u.part).length then s.holdAll u.team u.threads .matrix u.link
  else
    let m := u.op x kept
    let b := s.laneRegs u.team u.threads x.b.toNat (4 * quarterRegs u.slot)
    (s.pushOp u.core u.part { m with a := s.rowsOf m, b }).pastLink u.team u.threads u.next

/-- The four members of a quad. -/
def quadMembers (g : Nat) : List Nat := (List.range 4).map (g / 4 * 4 + ·)

/-- Positions of a quad whose group waits in the rendezvous, as a mask (Table 23.1). -/
def Team.quadMask (t : Team) (g : Nat) : Nat :=
  Bits.maskOf (((quadMembers g).filter fun m => ((Tab.find m t.groups).map fun x => x.quad.isSome).getD false).map (· % 4))

/-- Whether a quad exists and every member has a live thread (R247). -/
def Team.quadWhole (t : Team) (g : Nat) : Bool :=
  (quadMembers g).all fun m => Tab.has t.groups m && !(t.hwLive m).isEmpty

/-- Ends a rendezvous with QUAD_MISMATCH in the members that wait, by group and lane (R247). -/
def State.quadMismatch (s : State) (k g : Nat) : State :=
  match s.team? k with
  | none => s
  | some t =>
    let mask := t.quadMask g
    let ms := (quadMembers g).filter fun m => Bits.bit mask (m % 4)
    let s := s.modTeam k fun t => ms.foldl (fun t m =>
      t.modGroup m fun x => { x with quad := none, mmaq := x.mmaq + 1 }) t
    ms.foldl (fun s m => (t.hwLive m).foldl (fun s n =>
      (s.modThread { team := k, n } fun th => { th with wait := .ready }).deliver { team := k, n }
        { code := Code.quadMismatch, info := mask } 0) s) (s.reapSlugs t.core k)

/-- A member's quarters of B, by lane: `n` registers from `r` of each thread. -/
def Team.quarters (t : Team) (m r n : Nat) : List (List Nat) :=
  (List.range 32).map fun c => match Tab.find (m * 32 + c) t.threads with
    | some th => (regSpan r n).map fun i => (th.v i).toNat
    | none => []

/-- Threads of a member whose rows of A or quarters of B, of `n` registers, have an uncorrectable register, with the first one
(R37). -/
def Team.badQuarters (t : Team) (m : MatrixOp) (n : Nat) : List (Nat × Nat) :=
  (t.hwLive m.group).filterMap fun l => ((Tab.find l t.threads).bind fun th =>
    (regSpan m.areg m.aregs ++ regSpan m.breg n).find? fun i => th.bad.contains i).map fun i => (l, i)

/-- A member whose registers cannot be read leaves the rendezvous: the threads that read an uncorrectable register fault, its
others issue the instruction again; its partners go on waiting (R37, R225, R247). -/
def State.quadUnsound (s : State) (k m : Nat) (bad : List (Nat × Nat)) : State :=
  match s.team? k with
  | none => s
  | some t =>
    let s := s.modTeam k fun t => t.modGroup m fun x => { x with quad := none }
    let s := (t.hwLive m).foldl (fun s n => s.modThread { team := k, n } fun th => { th with wait := .ready }) s
    (bad.foldl (fun s (n, r) => s.deliver { team := k, n } { code := Code.ecc, info := 4, addr := r } 0) s).reapSlugs t.core k

/-- The rendezvous when all four have arrived: the same B register and slot, or QUAD_MISMATCH; each member's A and the four
members' quarters of B are read at that moment (R246, R247). It waits while a queue is full (R359). DEDUCED (log 24). -/
def State.quadMeet (s : State) (k g : Nat) : State :=
  match s.team? k with
  | none => s
  | some t =>
    if t.quadMask g ≠ 15 then s
    else
      let ops := (quadMembers g).filterMap fun m => (Tab.find m t.groups).bind Group.quad
      match ops with
      | [] => s
      | o :: _ =>
        if !(ops.all fun p => p.breg == o.breg && p.fs == o.fs) then s.quadMismatch k g
        else if (List.range 4).any fun p => decide (4 ≤ (s.matrixQueue t.core p).length) then s
        else
          let n := quarterRegs (s.fslot t o.fs)
          let unsound := ops.filter fun m => !(t.badQuarters m n).isEmpty
          if !unsound.isEmpty then unsound.foldl (fun s m => s.quadUnsound k m.group (t.badQuarters m n)) s
          else
          let b := (List.range 32).map fun c => (quadMembers g).flatMap fun m => (t.quarters m o.breg n).getD c []
          let s := ops.foldl (fun s p => s.pushOp t.core (p.group % 4) { p with a := s.rowsOf p, b }) s
          let s := s.modTeam k fun t => (quadMembers g).foldl (fun t m =>
            t.modGroup m fun x => { x with quad := none, mmaq := x.mmaq + 1 }) t
          (quadMembers g).foldl (fun s m => (t.hwLive m).foldl (fun s n =>
            s.modThread { team := k, n } fun th =>
              { th with wait := .ready, age := 0, linked := none, pc := th.pc + 12 }) s) s

/-- A member arrives at its rendezvous; A and B are read when all four have come (R246, R247). -/
def State.quadArrive (s : State) (u : SlugUse) (x : XForm) (kept : Nat) : State :=
  let g := u.t.hw (u.threads.headD 0)
  if !u.t.quadWhole g then
    s.deliverAll u.team u.threads { code := Code.quadMismatch, info := u.t.quadMask g ||| 2 ^ (g % 4) } u.next
  else
    let op := u.op x kept
    let s := s.modTeam u.team fun t => t.modGroup g fun x => { x with quad := some op }
    (s.holdAll u.team u.threads .quad u.link).quadMeet u.team g

/-- A group that has lost its last live thread releases the partners that wait for it (R247). -/
def State.quadLost (s : State) (k g : Nat) : State :=
  match s.team? k with
  | none => s
  | some t => if t.quadMask g ≠ 0 && (t.hwLive g).isEmpty then s.quadMismatch k g else s

/-- Whether `mma` and `mmas` accept a slot: TY is its type, and one of the matrix types (R238). -/
def mmaSlotOk (x : XForm) (v : Nat) : Bool := slotType v == x.ty.code && Fields.matrixTys.contains x.ty

/-- An uncorrectable word of a slug that the threads' rows meet raises ECC_UNCORRECTABLE (R37). -/
def State.slugBad (s : State) (u : SlugUse) : Bool :=
  u.threads.any fun n => (List.range 32).any fun c =>
    (s.badAt (badSlug u.team u.part (u.slug % 16) (u.t.lane n * 32 + c))).isSome

/-- A slug access that reads the slug, which meets uncorrectable words first; an `mma` reads C (R37). DEDUCED (log 23). -/
def State.slugSound (s : State) (u : SlugUse) (act : State → SlugUse → State) : State :=
  if s.slugBad u then
    s.deliverAll u.team u.threads { code := Code.ecc, info := arrGalley, addr := 0x1000 + u.slug % 16 } u.next
  else act s u

/-- `mma` and `mmas`: `kept` elements of each block of A, B from the group or from the quad. -/
def mmaOf (o : XOp) (x : XForm) (kept : Nat) (quad : Bool) (s : State) : Host.Outcome State Fault Refusal :=
  slugInstr o x (mmaSlotOk x) 2
    (fun slot => [(x.a.toNat, rowRegs x.ty slot kept), (x.b.toNat, if quad then quarterRegs slot else 4 * quarterRegs slot)])
    (fun _ => [])
    (fun s u => s.slugSound u fun s u => if quad then s.quadArrive u x kept else s.queueMma u x kept) s

/-- `mma` (R246). -/
def execMma (x : XForm) (s : State) : Host.Outcome State Fault Refusal := mmaOf .mma x 32 false s
/-- `mma.q` (R247). DEDUCED (log 24). -/
def execMmaQ (x : XForm) (s : State) : Host.Outcome State Fault Refusal := mmaOf .mmaQ x 32 true s
/-- `mmas` and `mmas.q` (R248). -/
def execMmas (x : XForm) (s : State) : Host.Outcome State Fault Refusal :=
  mmaOf .mmas x (keptOf x.sub.toNat) (decide (2 ≤ x.sub.toNat)) s

/-! ### `acrd`, `acwr`, `aczero`, `acq` (R254, R255) -/

/-- Whether an operation of a group is still queued on a slug (R249). -/
def State.groupQueued (s : State) (u : SlugUse) : Bool :=
  let gs := u.threads.map u.t.hw
  (s.matrixQueue u.core u.part).any fun m => m.team == u.team && m.slug == u.slug && gs.contains m.group

/-- A slug access: it waits for its group's queued operations on the slug, acts, arrives, completes (R249, R254). The
threads of each group are one execution, with an arrival of its own (R242, R298). -/
def slugAccess (f : Tab Word → SlugUse → State → State) (s : State) (u : SlugUse) : State :=
  if s.groupQueued u then s.holdAll u.team u.threads .galley u.link
  else
    let w := ((s.team? u.team).bind fun t => Tab.find u.slug t.slugs).getD []
    ((groupsOf u.t.hw u.threads).foldl (fun s _ => s.linkArrive u.core u.arrive) (f w u s)).pastLink u.team u.threads u.next

/-- A slug access that reads into the registers `dsts`: while it waits, they are in flight (R128). -/
def slugReadTo (dsts : List Nat) (f : Tab Word → SlugUse → State → State) (s : State) (u : SlugUse) : State :=
  if s.groupQueued u then slugAccess f (s.noteIssued u.team u.threads dsts) u else s.slugSound u (slugAccess f)

/-- `acrd` (R254). -/
def execAcrd (x : XForm) (s : State) : Host.Outcome State Fault Refusal :=
  slugInstr .acrd x (fun _ => true) 1 (fun _ => []) (fun _ => [(x.d.toNat, 32)])
    (slugReadTo (regSpan x.d.toNat 32) fun w u s => u.threads.foldl (fun s n => s.modThread { team := u.team, n } fun th =>
      (List.range 32).foldl (fun th c => th.setV (x.d.toNat + c) (slugWord w (u.t.lane n * 32 + c))) th) s) s

/-- Replaces the words of a slug. -/
def State.putSlug (s : State) (k key : Nat) (w : Tab Word) : State :=
  s.modTeam k fun t => { t with slugs := Tab.modify key (fun _ => w) t.slugs }

/-- Forgets the marks of a slug's words that are written (R37). -/
def State.healSlug (s : State) (u : SlugUse) (words : List Nat) : State :=
  { s with bad := words.foldl (fun b i => Tab.del (badSlug u.team u.part (u.slug % 16) i) b) s.bad }

/-- `acwr` (R254). -/
def execAcwr (x : XForm) (s : State) : Host.Outcome State Fault Refusal :=
  slugInstr .acwr x (fun _ => true) 1 (fun _ => [(x.a.toNat, 32)]) (fun _ => [])
    (slugAccess fun w u s =>
      let w := u.threads.foldl (fun w n =>
        match s.thread? { team := u.team, n } with
        | some th => (List.range 32).foldl (fun w c => Tab.set 0 (u.t.lane n * 32 + c) (th.v (x.a.toNat + c)) w) w
        | none => w) w
      (s.putSlug u.team u.slug w).healSlug u
        (u.threads.flatMap fun n => (List.range 32).map fun c => u.t.lane n * 32 + c)) s

/-- `aczero` (R254). -/
def execAczero (x : XForm) (s : State) : Host.Outcome State Fault Refusal :=
  slugInstr .aczero x (fun _ => true) 0 (fun _ => []) (fun _ => [])
    (slugAccess fun _ u s => (s.putSlug u.team u.slug []).healSlug u (List.range 1024)) s

/-- Whether `acq` accepts a slot: BLK 0 and TYPE equal to TY (R238). -/
def acqSlotOk (x : XForm) (v : Nat) : Bool := slotType v == x.ty.code && slotBlk v == 0

/-- One conversion of `acq` (R255). -/
def acqV (ty : Ty) (slot w : Nat) : Nat × Nat :=
  let x := fmtF32.decode w
  let y := if x.isNan then x else (x.div (slotT slot)).1
  let (r, f) := if ty.isInt then toIntV ty (slotRnd slot) y
    else (fmtOf ty).deliver (slotRnd slot) (slotSat slot && ty.isN) y
  (r, f ||| x.nv)

/-- Registers that `acq` writes. -/
def acqRegs (ty : Ty) : Nat := ty.bits

/-- `acq` (R255). -/
def execAcq (x : XForm) (s : State) : Host.Outcome State Fault Refusal :=
  slugInstr .acq x (acqSlotOk x) 1 (fun _ => []) (fun _ => [(x.d.toNat, acqRegs x.ty)])
    (slugReadTo (regSpan x.d.toNat (acqRegs x.ty)) fun w u s => u.threads.foldl (fun s n =>
      s.modThread { team := u.team, n } fun th =>
      let rs := (List.range 32).map fun c => acqV x.ty u.slot (slugWord w (u.t.lane n * 32 + c))
      (th.setVs x.d.toNat (Bits.joinLE x.ty.bits (rs.map (·.1))) (acqRegs x.ty)).raiseFlags
        (rs.foldl (fun f r => f ||| r.2) 0)) s) s

/-! ### `acalloc`, `acfree` (R251 to R253) -/

/-- FIRST and COUNT (Table 14.1). -/
def slugFirst (x : XForm) : Nat := x.imm.toNat % 16
def slugCount (x : XForm) : Nat := x.imm.toNat / 16 % 32

/-- An instruction that acts once for each hardware group of the issue group (R242). -/
def execSlugGroups (o : XOp) (x : XForm) (f : State → Nat → Team → Nat → List Nat → Nat → State) (s : State) :
    Host.Outcome State Fault Refusal :=
  match s.ig with
  | none => .fault .noIssueGroup
  | some ig =>
    match s.team? ig.team with
    | none => .next s
    | some t =>
      match s.offUnit t ig false (word0 o x) (ig.pc + 12) with
      | some s => .next s
      | none =>
        .next ((groupsOf t.hw ig.threads).foldl (fun s g =>
          match s.team? ig.team with
          | some t => f s ig.team t g (ig.threads.filter fun n => t.hw n == g) (ig.pc + 12)
          | none => s) s)

/-- The threads complete with a predicate. -/
def State.answerAll (s : State) (team : Nat) (ns : List Nat) (p next : Nat) (ok : Bool) : State :=
  ns.foldl (fun s n => s.modThread { team, n } fun th => { th.setP p ok with pc := BitVec.ofNat 64 next }) s

/-- `acalloc` (R251). -/
def execAcalloc (x : XForm) (s : State) : Host.Outcome State Fault Refusal :=
  execSlugGroups .acalloc x (fun s team t g ns next =>
    let part := g % 4
    let ask := (slugFirst x, slugCount x)
    let park := fun (s : State) (w : Wait) => ns.foldl (fun s n => s.modThread { team, n } fun th => { th with wait := w }) s
    match Tab.find g t.slugAsk with
    | some a => (park s (if a = ask then .slugs x.d.toNat next else .slugTurn)).settleSlugs t.core part true 64
    | none =>
      let m := (t.unbound part ask.1 ask.2).length
      if m = 0 then s.answerAll team ns x.d.toNat next true
      else if 16 < m + t.slugsOn part then s.answerAll team ns x.d.toNat next false
      else
        let s := s.modTeam team fun t => { t with slugAsk := Tab.put g ask t.slugAsk }
        (park s (.slugs x.d.toNat next)).settleSlugs t.core part true 64) s

/-- `acfree` (R253). -/
def execAcfree (x : XForm) (s : State) : Host.Outcome State Fault Refusal :=
  execSlugGroups .acfree x (fun s team t g ns next =>
    let part := g % 4
    let bound := ((List.range (slugCount x)).map (slugFirst x + ·)).filter fun n => Tab.has t.slugs (slugKey part n)
    let s := bound.foldl (fun s n => s.freeSlug t.core team (slugKey part n)) s
    (s.goOn team ns next).settleSlugs t.core part false 64) s

/-! ### Completion (R246, R249, R250) -/

/-- Threads that wait for a partition's array issue again. -/
def Team.wakeArray (t : Team) (part : Nat) : Team :=
  { t with threads := t.threads.map fun (n, th) =>
      if t.part n == part && (th.wait == .matrix || th.wait == .galley) then (n, { th with wait := .ready }) else (n, th) }

def State.wakeArray (s : State) (core part : Nat) : State :=
  { s with teams := s.teams.map fun (k, t) => if t.place == .core core then (k, t.wakeArray part) else (k, t) }

/-- Performs an operation on its slug: all 1,024 results at once, each row's flags to its lane. -/
def State.applyOp (s : State) (core part : Nat) (m : MatrixOp) : State :=
  match s.team? m.team with
  | none => s
  | some t =>
    let (w, flags) := m.result ((Tab.find m.slug t.slugs).getD [])
    let s := s.modTeam m.team fun t =>
      flags.zipIdx.foldl (fun t (f, l) => t.modThread (m.group * 32 + l) fun th => th.raiseFlags f) t
    if 64 ≤ m.slug ∧ !s.slugBusy core m.team m.slug then
      (s.modTeam m.team fun t => { t with slugs := Tab.del m.slug t.slugs }).settleSlugs core part false 64
    else s.putSlug m.team m.slug w

/-- A partition's oldest queued operation completes. -/
def State.completeOp (s : State) (core part : Nat) : Option State :=
  match s.matrixQueue core part with
  | [] => none
  | m :: rest =>
    let s := { s with matrix := if rest.isEmpty then Tab.del (core * 4 + part) s.matrix
                                else Tab.put (core * 4 + part) rest s.matrix }
    let s := (s.applyOp core part m).linkArrive core m.arrive
    let s := if (s.team? m.team).isNone then s.settleSlugs core part false 64 else s
    let s := s.wakeArray core part
    some ((s.teamsOn core).foldl (fun s (k, t) =>
      ((Tab.keys t.groups).filter fun g => g % 4 == 0).foldl (fun s g => s.quadMeet k g) s) s)

/-- Whether a partition may start a matrix operation: its grant for the window is not used up (R359). -/
def State.hasGrant (s : State) (core part : Nat) : Bool :=
  decide (Tab.getD s.starts (core * 4 + part) 0 < Tab.getD s.grants (dieOf core) 64)

/-- MATRIX_OP_COMPLETE: the oldest queued operation has started under a grant and completes (R246, R249, R250, R359). -/
def execMatrixOpComplete (core part : Nat) (s : State) : Host.Outcome State Fault Refusal :=
  if !s.hasGrant core part then notEnabled "MATRIX_OP_COMPLETE"
  else
    match s.completeOp core part with
    | some s =>
      let n := Tab.getD s.starts (core * 4 + part) 0
      .next { s with starts := Tab.put (core * 4 + part) (n + 1) s.starts }
    | none => notEnabled "MATRIX_OP_COMPLETE"

end Sys2Proof.Machine
end

