-- ==== Sys2Proof/Machine/End.lean ====
section
/-! DEFINITION. The end of threads: `exit`, `tail`, `nret`, and the release of what they hold (R266, R304 to R306, R317, R328,
R329). -/

namespace Sys2Proof.Machine

/-- Stores, atomics and reductions of a thread not yet performed at their destination: peer writes and `.byp` host stores
that await their acknowledgement (R87, R304). -/
def Thread.outstanding (th : Thread) : List Nat := th.peerOut ++ th.hostOut

/-- A thread ends: it leaves its group's sets and Live(g), and drops its handles (R121, R304, R317, R328). -/
def State.endThread (s : State) (i : Tid) : State :=
  (s.leaveSets i.team i.n).modThread i fun th =>
    { th with live := false, wait := .ready, pend := [], seen := [], age := 0, urgent := false, linked := none }

/-- Whether a hardware group holds nothing back: no live thread, nothing outstanding of its ended threads (R304). -/
def Team.groupIdle (t : Team) (g : Nat) : Bool :=
  (t.hwLive g).isEmpty && t.threads.all fun (n, th) => t.hw n != g || th.outstanding.isEmpty

/-- Releases a group's slot and registers when its last live thread has ended and no thread of it is held; waiting claims
are settled (R129, R304, R305). -/
def State.releaseGroup (s : State) (k g : Nat) : State :=
  match s.team? k with
  | none => s
  | some t =>
    if t.groupIdle g && ((Tab.find g t.groups).map Group.held).getD false then
      let s := s.modGroup k g fun gr => { gr with held := false, claim := none }
      if t.near then s else s.settleClaims t.core (g % 4)
    else s

/-- A near-memory team whose threads have all ended gives its place back and is counted (R265, R272). -/
def State.nearDone (s : State) (k : Nat) : State :=
  match s.team? k with
  | none => s
  | some t =>
    match t.place with
    | .core _ => s
    | .near stack _ call =>
      if t.threads.any fun (_, th) => th.live then s
      else
        { s with
          teams := Tab.del k s.teams
          platens := Tab.modify stack (fun p => { p with calls := Tab.modify call (fun c =>
            if c.stopping then c
            else { c with ended := c.ended + 1, returned := s.clock (platenClock stack) }) p.calls }) s.platens }

/-- What follows the end of threads of an issue group: the orphan check of each group, the release of partners in a quad
rendezvous and of idle groups, the end of a near-memory team (R247, R304, R320). -/
def State.afterEnd (s : State) (k : Nat) (ns : List Nat) : State :=
  match s.team? k with
  | none => s
  | some t =>
    let s := (groupsOf t.gid ns).foldl (fun s g =>
      match ns.find? fun n => t.gid n == g with | some n => s.orphanCheck k n | none => s) s
    let s := (groupsOf t.hw ns).foldl (fun s g => (s.quadLost k g).releaseGroup k g) s
    s.nearDone k

/-- The threads of a list end by `exit`: what they have outstanding holds their groups (R304). -/
def State.exitThreads (s : State) (k : Nat) (ns : List Nat) : State :=
  (ns.foldl (fun s n => s.endThread { team := k, n }) s).afterEnd k ns

/-- `exit` (R304, R328); on a near-memory core it acts as `nret` (R266). -/
def exitOf (s : State) : Host.Outcome State Fault Refusal :=
  match s.ig with
  | none => .fault .noIssueGroup
  | some ig => .next (s.exitThreads ig.team ig.threads)

/-- `exit`, extended form. -/
def execExit (_ : XForm) (s : State) : Host.Outcome State Fault Refusal := exitOf s
/-- `exit`, base form. -/
def execExitBase (s : State) : Host.Outcome State Fault Refusal := exitOf s

/-- `nret`: ends near-memory threads; ILLEGAL_OPCODE on a main-die core (R258, R266). -/
def execNret (x : XForm) (s : State) : Host.Outcome State Fault Refusal :=
  match s.ig with
  | none => .fault .noIssueGroup
  | some ig =>
    match s.team? ig.team with
    | none => .next s
    | some t =>
      if t.near then .next (s.exitThreads ig.team ig.threads)
      else .next (s.deliverAll ig.team ig.threads { code := Code.illegalOpcode, info := word0 .nret x } (ig.pc + 12))

/-- Jobs of some threads that have not ended. -/
def State.jobsOf (s : State) (k : Nat) (ns : List Nat) : List Nat :=
  (s.jobs.filter fun (_, j) => j.tid.team == k && ns.contains j.tid.n).map (·.1)

/-- The core's record. -/
def State.core (s : State) (c : Nat) : Core := Tab.getD s.cores c {}
def State.modCore (s : State) (c : Nat) (f : Core → Core) : State := { s with cores := Tab.put c (f (s.core c)) s.cores }

/-- `tail`: the threads with something outstanding take one entry of the core's 16-entry retirement tracker, which frees
their group from it; with no entry free it acts as `exit` (R305, R329). -/
def execTail (x : XForm) (s : State) : Host.Outcome State Fault Refusal :=
  match s.ig with
  | none => .fault .noIssueGroup
  | some ig =>
    match s.team? ig.team with
    | none => .next s
    | some t =>
      if t.near then
        .next (s.deliverAll ig.team ig.threads { code := Code.illegalOpcode, info := word0 .tail x } (ig.pc + 12))
      else
        let tags := ig.threads.flatMap fun n => ((Tab.find n t.threads).map Thread.outstanding).getD []
        let jobs := s.jobsOf ig.team ig.threads
        if tags.isEmpty && jobs.isEmpty then .next (s.exitThreads ig.team ig.threads)
        else if 16 ≤ (s.core t.core).tracker.length then .next (s.exitThreads ig.team ig.threads)
        else
          let e := Tab.freeKey (s.core t.core).tracker 16 0
          let s := s.modCore t.core fun c => { c with tracker := Tab.put e (tags, jobs, t.launch) c.tracker }
          let s := ig.threads.foldl (fun s n => s.modThread { team := ig.team, n } fun th =>
            { th with peerOut := [], hostOut := [] }) s
          .next (s.exitThreads ig.team ig.threads)

/-- GROUP_RELEASE: the accesses of a group's ended threads have been performed (R304). -/
def execGroupRelease (team group : Nat) (s : State) : Host.Outcome State Fault Refusal :=
  match s.team? team with
  | some t =>
    if t.groupIdle group && ((Tab.find group t.groups).map Group.held).getD false then .next (s.releaseGroup team group)
    else notEnabled "GROUP_RELEASE"
  | none => notEnabled "GROUP_RELEASE"

/-- Whether an access is still on its way. -/
def State.underWay (s : State) (tag : Nat) : Bool := Tab.has s.fabric.out tag || Tab.has s.port.bypStores tag

/-- TRACKER_DRAIN_DONE: a tracker entry is freed when its accesses are performed and its jobs have ended (R305). Their times
are in the launch's completion time by then: a job's end time as it ended; a `.byp` store took its time in S as it issued,
which the core's clock at the team's retirement covers; an access to peer memory lies outside S and has none (R85, R348). -/
def execTrackerDrainDone (core entry : Nat) (s : State) : Host.Outcome State Fault Refusal :=
  match Tab.find entry (s.core core).tracker with
  | some (tags, jobs, _) =>
    if tags.all (fun t => !s.underWay t) && jobs.all fun j => !Tab.has s.jobs j then
      .next (s.modCore core fun c => { c with tracker := Tab.del entry c.tracker })
    else notEnabled "TRACKER_DRAIN_DONE"
  | none => notEnabled "TRACKER_DRAIN_DONE"

end Sys2Proof.Machine
end

