-- ==== Sys2Proof/Machine/Platen.lean ====
section
/-! DEFINITION. Platen calls and the platen's reduction unit (R263 to R266, R270 to R279). -/

namespace Sys2Proof.Machine

/-! ### The call card (Table 15.5) -/

def callVer (c : List Nat) : Nat := Bits.field (cardWord c 0) 24 8
def callArgw (c : List Nat) : Nat := Bits.field (cardWord c 0) 16 8
def callTeams (c : List Nat) : Nat := Bits.field (cardWord c 0) 8 8
def callRanges (c : List Nat) : Nat := Bits.field (cardWord c 0) 4 3
def callStack (c : List Nat) : Nat := cardWord c 0 % 16
def callEntry (c : List Nat) : Nat := cardAddr c 1
def callObj (c : List Nat) : Nat := windowAddr (Bits.field (cardWord c 3) 16 4) (16 * (cardWord c 3 % 2 ^ 16))
def rangeBase (c : List Nat) (i : Nat) : Nat := cardAddr c (4 + 3 * i)
def rangeLines (c : List Nat) (i : Nat) : Nat := cardWord c (6 + 3 * i) % 2 ^ 24

/-- The card word that fails check 2 of R264. -/
def callBad (c : List Nat) : Option Nat :=
  let w := cardWord c
  if callVer c ≠ 1 ∨ 11 < callStack c ∨ 64 < callArgw c ∨ callTeams c = 0 ∨ 4 < callRanges c ∨ Bits.bit (w 0) 7 then some 0
  else if w 3 / 2 ^ 20 ≠ 0 then some 3
  else
    (List.range 12).findSome? fun j =>
      let i := j / 3
      if callRanges c ≤ i then (if w (4 + j) ≠ 0 then some (4 + j) else none)
      else if j % 3 = 0 then (if w (4 + j) % 128 ≠ 0 then some (4 + j) else none)
      else if j % 3 = 2 then (if w (4 + j) / 2 ^ 24 ≠ 0 ∨ rangeLines c i = 0 then some (4 + j) else none)
      else none

/-- The addresses of checks 4 and 5: ENTRY, then each range's pages with the number of lines in each. -/
def callAddrs (c : List Nat) : List (Nat × Nat) :=
  (callEntry c, 0) :: (List.range (callRanges c)).flatMap fun i =>
    let a := rangeBase c i
    let e := a + 128 * rangeLines c i
    (List.range ((e - 1) / 4096 - a / 4096 + 1)).map fun p =>
      let lo := max a ((a / 4096 + p) * 4096)
      (lo, (min e ((a / 4096 + p + 1) * 4096) - lo) / 128)

/-- Adds a run of lines to a list of runs. -/
def addRun (rs : List (Nat × Nat)) (first n : Nat) : List (Nat × Nat) :=
  match rs.getLast? with
  | some r => if r.1 + r.2 = first then rs.dropLast ++ [(r.1, r.2 + n)] else rs ++ [(first, n)]
  | none => [(first, n)]

/-- Check 3 of R264: the return object and the record behind it. -/
def State.returnObject (s : State) (cluster : Nat) (c : List Nat) : Lane (Nat × Nat) :=
  let va := callObj c
  match if cardWord c 3 % 2 ^ 16 = 0 then none else s.windowAt cluster va with
  | none => .error (.fault { code := Code.formeRange, addr := va })
  | some (k, off) =>
    let f := s.forme k
    if f.size < off + 32 then .error (.fault { code := Code.formeRange, addr := va + 16 })
    else if (List.range 4).any fun i => !f.tagged (off + 4 * i) then .error (clobbered va)
    else
      match f.taggedAt (off + 16) 16 with
      | some w => .error (clobbered (va + (w - off)))
      | none => .ok (k, off)

/-- What a call reads of its thread: card, argument words, return object, and the registers that hold them. -/
structure CallRead where
  card : List Nat
  args : List Nat
  obj : Nat × Nat
  srcs : List Nat

/-- Checks 1 to 3 of R264, and what the call reads. With ARGW = 0 no register from vB on is read. -/
def State.callCard (s : State) (c : View) (x : XForm) : Lane CallRead := do
  let n ← c.cardReg .ncall x 16
  c.ready (regSpan n 16) []
  let card := (regSpan n 16).map fun r => (c.th.v r).toNat
  let b := x.b.toNat
  let w := callArgw card
  if w ≠ 0 ∧ c.alloc < b + w then throw (.fault { code := Code.regRange, addr := max b c.alloc })
  c.ready (regSpan b w) []
  match callBad card with
  | some i => throw (.fault { code := Code.illegalEncoding, info := i })
  | none =>
    let obj ← s.returnObject c.team.cluster card
    return { card, args := (regSpan b w).map fun r => (c.th.v r).toNat, obj
             srcs := regSpan n 16 ++ regSpan b w ++ if x.xa then [x.c.toNat] else [] }

/-- Check 4 of R264 on one address: ENTRY for fetch, range pages with writes, in user mode (R22). An address in the forme
window has no page and fails check 5. -/
def State.callAddr (s : State) (c : View) (i : Nat) (va : Nat) : State × Tr :=
  if 2 ^ 57 ≤ va then (s, .fault (protection 1 va))
  else if inWindow va then (s, .ok (.forme 0 0))
  else s.translate { s.threadAsker c.id c.team (if i = 0 then 3 else 1) with system := false } va

/-- Check 5 of R264: ENTRY in the stack's stack-linear region, range pages of device kind in the stack.
DEDUCED (log 37). -/
def callSiteOk (stack i : Nat) (l : Loc) : Bool :=
  match l with
  | .device pa => if i = 0 then linearStack pa == some stack else stackOf pa == stack
  | .platen pa => i == 0 && linearStack pa == some stack
  | _ => false

/-- Checks 4 and 5 of R264 over a call's addresses: the range's lines, or where the call stands. -/
def State.callSites (s : State) (c : View) (card : List Nat) : State × Except Reach (List (Nat × Nat)) :=
  let r := (callAddrs card).zipIdx.foldl
    (fun (acc : State × Except Reach (List (Nat × Nat × Loc))) (a, i) =>
      match acc.2 with
      | .error _ => acc
      | .ok ls =>
        match acc.1.callAddr c i a.1 with
        | (s, .ok l) => (s, .ok (ls ++ [(a.1, a.2, l)]))
        | (s, .fault t) => (s, .error (.stop (.fault t)))
        | (s, .miss e) => (s, .error (.miss e a.1))
        | (s, .full) => (s, .error .full)) (s, .ok [])
  match r.2 with
  | .error e => (r.1, .error e)
  | .ok ls =>
    match ls.zipIdx.find? fun (l, i) => !callSiteOk (callStack card) i l.2.2 with
    | some (l, _) => (r.1, .error (.stop (.fault { code := Code.stackRange, addr := l.1 })))
    | none =>
      (r.1, .ok ((ls.drop 1).foldl (fun rs l =>
        match l.2.2 with | .device pa => addRun rs (deviceLine pa) l.2.1 | _ => rs) []))

/-- A call passes check 6 and is sent, after the caller's earlier accesses: card and arguments copied, the object bound (R80,
R264, R265). A call that the caller's own peer writes hold back waits for them (DEDUCED, log 67). -/
def State.sendCall (s : State) (c : View) (card args : List Nat) (obj : Nat × Nat) (lines : List (Nat × Nat)) (next : Nat) :
    State :=
  let st := callStack card
  let waits := fun (_ : Unit) => s.modThread c.id fun th => { th with wait := .replay }
  if 16 ≤ (s.platen st).calls.length || !c.th.peerOut.isEmpty then waits ()
  else
    match s.launchOf c.team with
    | none => waits ()
    | some l =>
      let (key, s) := s.freshKey
      let call : Call :=
        { card, args, launch := c.team.launch, ctx := s.ctxOf c.team, tid := c.id, core := c.team.core, caller := l
          time := s.clock c.team.clockKey, lines, object := some obj }
      (s.modPlaten st fun p => { p with calls := Tab.put key call p.calls }).modThread c.id fun th =>
        { th with pc := BitVec.ofNat 64 next }

/-- `ncall` (R264, R265). -/
def execNcall (x : XForm) (s : State) : Host.Outcome State Fault Refusal :=
  match s.ig with
  | none => .fault .noIssueGroup
  | some ig =>
    let (s, all) := ig.threads.foldl (fun (acc : State × List (Nat × Reach)) n =>
      match acc.1.view { team := ig.team, n } with
      | none => acc
      | some c =>
        match acc.1.callCard c x with
        | .error e => (acc.1, acc.2 ++ [(n, .stop e)])
        | .ok r =>
          match acc.1.callSites c r.card with
          | (s, .error e) => (s, acc.2 ++ [(n, e)])
          | (s, .ok _) =>
            (s, acc.2 ++ [(n, .go { va := callEntry r.card, size := 4, ty := .b32, srcs := r.srcs } (.forme 0 0))])) (s, [])
    s.afterReach ig (ig.pc + 12) all fun s team next go _ =>
      ((State.inOrder (fun s i =>
        match s.view i with
        | none => s
        | some c =>
          match s.callCard c x with
          | .ok r =>
            match s.callSites c r.card with
            | (s, .ok lines) => s.sendCall c r.card r.args r.obj lines next
            | (s, .error _) => s
          | .error _ => s) team (go.map (·.1)) s).keepGroup team ig.pc next (go.map (·.1)), [])

/-! ### The call sequence (R276) -/


def State.modCall (s : State) (stack call : Nat) (f : Call → Call) : State :=
  s.modPlaten stack fun p => { p with calls := Tab.modify call f p.calls }

/-- A call in a phase. -/
def State.callIn (s : State) (stack call : Nat) (ph : CallPhase) : Option Call :=
  (s.call? stack call).bind fun c => if c.phase = ph then some c else none

/-- Whether a packet for a line of a call's ranges has reached the module and is not applied yet: queued, or received behind
an access of its module that waits (R276). -/
def State.rangePackets (s : State) (c : Call) : Bool :=
  (s.fabric.homePackets.any fun (_, p) => c.covers (deviceLine p.pa))
    || s.fabric.inbound.any fun (r, _) => isPacket r.op && c.covers (deviceLine r.pa)

/-- PLATEN_CALL_DRAIN: it waits until the homes have applied the packets that have come for range lines (step 1). -/
def execPlatenCallDrain (stack call : Nat) (s : State) : Host.Outcome State Fault Refusal :=
  match s.callIn stack call .drain with
  | none => notEnabled "PLATEN_CALL_DRAIN"
  | some c =>
    if s.rangePackets c then .next s
    else .next (s.modCall stack call fun c => { c with phase := .writeback })

/-- The lines of a call's ranges that are resident in the stack's home slices. -/
def State.residentRange (s : State) (stack : Nat) (c : Call) : List Nat :=
  (List.range 12).flatMap fun i => (Tab.keys (s.home (stack * 12 + i)).lines).filter c.covers

/-- Recalls, back-invalidates and writes to memory every resident line of a call's ranges, as far as that is possible now;
whether all are done (step 2, R46, R57). -/
def State.flushRange (s : State) (stack : Nat) (c : Call) : State × Bool :=
  (s.residentRange stack c).foldl (fun (acc : State × Bool) ln =>
    let (s, ok) := acc.1.homeReady ln true
    if !ok then (s, false)
    else
      let l := s.lineAt ln
      if l.dirty then ((s.writeBack ln l.data).putLineAt ln { l with dirty := false }, acc.2) else (s, acc.2)) (s, true)

/-- PLATEN_CALL_WRITEBACK (step 2). -/
def execPlatenCallWriteback (stack call : Nat) (s : State) : Host.Outcome State Fault Refusal :=
  match s.callIn stack call .writeback with
  | none => notEnabled "PLATEN_CALL_WRITEBACK"
  | some c =>
    match s.flushRange stack c with
    | (s, true) => .next (s.modCall stack call fun c => { c with phase := .loan })
    | (s, false) => .next s

/-- Whether two lists of runs share a line. -/
def runsMeet (a b : List (Nat × Nat)) : Bool :=
  a.any fun p => b.any fun q => decide (p.1 < q.1 + q.2) && decide (q.1 < p.1 + p.2)

/-- The home slices of a stack that are home to a line of a call's ranges with a property. -/
def Call.slices (c : Call) (stack : Nat) (p : Nat → Bool) : List Nat :=
  ((List.range 12).map (stack * 12 + ·)).filter fun h => c.anyLine fun ln => homeOf ln == h && p ln

/-- One more than the greatest RTS among a call's range lines; a line not resident counts with its slice's MTS (R80). -/
def State.rangeLease (s : State) (stack : Nat) (c : Call) : Nat :=
  let here := (s.residentRange stack c).map fun ln => (s.lineAt ln).rts
  let mts := (c.slices stack fun ln => !s.isResident ln).map fun h => (s.home h).mts
  (here ++ mts).foldl max 0 + 1

/-- PLATEN_CALL_LOAN: it waits for loans that share a line; then every range line enters L and the platen clock is raised
(step 3, R80, R277). A line that has been changed since step 2 is written back again first. Threads that wait beside one whose
line is lent now go on (R296). -/
def execPlatenCallLoan (stack call : Nat) (s : State) : Host.Outcome State Fault Refusal :=
  match s.callIn stack call .loan with
  | none => notEnabled "PLATEN_CALL_LOAN"
  | some c =>
    if (s.platen stack).calls.any fun (_, d) => d.phase == .run && runsMeet c.lines d.lines then .next s
    else
      match s.flushRange stack c with
      | (s, false) => .next s
      | (s, true) =>
        let s := s.raise (platenClock stack) (max c.time (if c.lines.isEmpty then 0 else s.rangeLease stack c))
        let s := s.modCall stack call fun c => { c with phase := .run }
        .next ((Tab.keys s.memops).foldl State.releaseDone s)

/-- The asker of the platen's header read (R271, R35). -/
def callAsker (stack call : Nat) (c : Call) : Asker :=
  { ctx := c.ctx, system := false, die := dieOfStack stack, tlb := platenTlb stack, acc := 3, eng := true
    src := stack + 3 * 2 ^ 4, launch := c.caller.id, who := .call stack call, stack := some stack }

/-- Checks of R271 on a header word. -/
def nearHeaderOk (h argw : Nat) : Bool :=
  let p := Bits.field h 24 8
  let w := Bits.field h 22 2
  let b := Bits.field h 8 8
  decide (1 ≤ p) && decide (p ≤ 3) && (w == 0 || w == 2) && decide (2 ≤ b) && decide (b ≤ 128) && b % 2 == 0
    && decide (argw ≤ 8 * b)

/-- The teams that stand on a near-memory core. -/
def State.nearTeams (s : State) (stack core : Nat) : List Team :=
  (s.teams.filter fun (_, t) => match t.place with | .near st c _ => st == stack && c == core | .core _ => false).map (·.2)

/-- The lowest-numbered near-memory core with a free slot and room for `b` registers (R272). -/
def State.nearRoom (s : State) (stack b : Nat) : Option Nat :=
  (List.range 32).find? fun c =>
    let ts := s.nearTeams stack c
    decide (ts.length < 8) && decide ((ts.map Team.base).sum + b ≤ 2048)

/-- A near-memory team as it starts (R271, R272). -/
def nearTeam (stack core call : Nat) (c : Call) (hdr : Nat) : Team :=
  let thread : Thread :=
    { pc := BitVec.ofNat 64 (callEntry c.card)
      regs := c.args.zipIdx.foldl (fun r (v, i) => Tab.set 0 i (BitVec.ofNat 32 v) r) [] }
  { place := .near stack core call, launch := c.launch, cluster := 0, x := c.started
    grid := (callTeams c.card, 1, 1), dim := 16, base := 8 * Bits.field hdr 8 8, profile := Bits.field hdr 24 8, nbar := 4
    threads := (List.range 16).map fun n => (n, thread)
    groups := [(0, { sets := [(0, { mem := 0xFFFF })] })] }

/-- Places a call's next team on the lowest-numbered core that has room (R272). -/
def State.placeNear (s : State) (stack call : Nat) (c : Call) (hdr : Nat) : State :=
  match s.nearRoom stack (8 * Bits.field hdr 8 8) with
  | none => s
  | some core =>
    let (key, s) := s.freshKey
    (s.setTeam key (nearTeam stack core call c hdr)).modCall stack call fun c => { c with started := c.started + 1 }

/-- Reads and checks the kernel's header, once for a call, before any of its teams starts (R271); packets queued for its line
come first (R274). -/
def State.readHeader (s : State) (stack call : Nat) (c : Call) : State :=
  let va := Bits.ofInt 64 ((callEntry c.card : Int) - 16)
  match s.translate (callAsker stack call c) va with
  | (s, .miss _) | (s, .full) => s
  | (s, .fault t) => s.callFault stack call t
  | (s, .ok l) =>
    match l with
    | .device pa | .platen pa =>
      if linearStack pa ≠ some stack then s.callFault stack call { code := Code.stackRange, addr := va }
      else if s.packetsFor pa then s
      else
        match s.badRead pa 4 with
        | some a => s.callFault stack call { code := Code.ecc, info := a, addr := va }
        | none =>
          let hdr := readBytes s.hbm pa 4
          if nearHeaderOk hdr (callArgw c.card) then s.modCall stack call fun c => { c with hdr := some hdr }
          else s.callFault stack call { code := Code.illegalEncoding, addr := callEntry c.card }
    | _ => s.callFault stack call { code := Code.stackRange, addr := va }

/-- PLATEN_TEAM_PLACE: the header checks, then the next team, oldest call first (R271, R272). -/
def execPlatenTeamPlace (stack call : Nat) (s : State) : Host.Outcome State Fault Refusal :=
  match s.callIn stack call .run with
  | none => notEnabled "PLATEN_TEAM_PLACE"
  | some c =>
    if c.stopping || decide (callTeams c.card ≤ c.started) then notEnabled "PLATEN_TEAM_PLACE"
    else if (s.platen stack).calls.any fun (k, d) =>
      decide (k < call) && d.phase == .run && !d.stopping && decide (d.started < callTeams d.card) then .next s
    else
      let s := if c.hdr.isSome then s else s.readHeader stack call c
      match (s.call? stack call).bind Call.hdr with
      | some hdr => .next (s.placeNear stack call c hdr)
      | none => .next s

/-- The teams of a call. -/
def State.callTeamsOf (s : State) (stack call : Nat) : List Nat :=
  (s.teams.filter fun (_, t) => match t.place with | .near st _ c => st == stack && c == call | .core _ => false).map (·.1)

/-- Everything that a team waits for at an agent is dropped: its memory operations and waiter entries. -/
def State.dropWaits (s : State) (k : Nat) : State :=
  { s with
    memops := s.memops.filter fun (_, o) => o.team != k
    formes := s.formes.map fun (n, f) => (n, { f with waiters := f.waiters.filter fun w => w.tid.team != k })
    homes := s.homes.map fun (n, h) => (n, { h with waits := h.waits.filter fun (_, w) => w.tid.team != k }) }

/-- PLATEN_CALL_FAULT: after its first fault a call's threads are stopped and its teams that have not started are dropped
(R275). -/
def execPlatenCallFault (stack call : Nat) (s : State) : Host.Outcome State Fault Refusal :=
  match s.call? stack call with
  | some c =>
    let ks := s.callTeamsOf stack call
    if c.stopping && !(ks.isEmpty && callTeams c.card == c.started) then
      let s := ks.foldl (fun s k =>
        let s := s.dropWaits k
        { s with teams := Tab.del k s.teams }) s
      let now := s.clock (platenClock stack)
      .next (s.modCall stack call fun c => { c with started := callTeams c.card, returned := now })
    else notEnabled "PLATEN_CALL_FAULT"
  | none => notEnabled "PLATEN_CALL_FAULT"

/-- PLATEN_CALL_INVALIDATE: after the last team each range line leaves its home, the MTS of the slices that are home to one
is raised to the return time, the platen clock as the last team ended, and watched lines are evaluated; the loan has ended
(step 5, R62, R80). -/
def execPlatenCallInvalidate (stack call : Nat) (s : State) : Host.Outcome State Fault Refusal :=
  match s.callIn stack call .run with
  | none => notEnabled "PLATEN_CALL_INVALIDATE"
  | some c =>
    if !(s.callTeamsOf stack call).isEmpty || decide (c.started < callTeams c.card) then notEnabled "PLATEN_CALL_INVALIDATE"
    else
      let lns := s.residentRange stack c
      let s := s.modCall stack call fun c => { c with phase := .ret }
      let s := lns.foldl (fun s ln => s.modHome (homeOf ln) fun h => { h with lines := Tab.del ln h.lines }) s
      let s := (c.slices stack fun _ => true).foldl (fun s h =>
        s.modHome h fun h => { h with mts := max h.mts c.returned }) s
      let watched := (List.range 12).flatMap fun i =>
        (((s.home (stack * 12 + i)).waits.map fun (_, w) => deviceLine w.addr).filter c.covers).eraseDups
      let s := watched.foldl (fun s ln => s.evalWaits ln) s
      .next ((List.range 12).foldl (fun s i => s.settle (stack * 12 + i) 64) s)

/-- The return record (R265). -/
def Call.record (c : Call) : Nat := c.status + c.ended % 2 ^ 16 + c.faultAddr % 2 ^ 64 * 2 ^ 64

/-- PLATEN_CALL_RETURN: the record is written as one access, then the platen arrives on the object (step 6, R265). The record
is written whatever its words and its line have become since the call was issued. DESIGN CHOICE (log 55). -/
def execPlatenCallReturn (stack call : Nat) (s : State) : Host.Outcome State Fault Refusal :=
  match s.callIn stack call .ret with
  | none => notEnabled "PLATEN_CALL_RETURN"
  | some c =>
    let s := (s.modPlaten stack fun p => { p with calls := Tab.del call p.calls }).stirLaunch c.launch
    match c.object with
    | none => .next s
    | some (k, off) =>
      let clk := platenClock stack
      let (f, time) := (s.forme k).store (off + 16) 16 c.record (max (s.clock clk) c.returned)
      let s := ((s.modForme k fun _ => f).raise clk time).healForme k (off + 16) 16
      .next (s.linkArrive clk (some (k, off)))

/-! ### Reduction packets at the platen (R279) -/

/-- Whether a packet of a thread is queued and not yet applied: a later access of that thread, if it is no packet, waits for
it (R85). -/
def State.packetOf (s : State) (sender : Option (Nat × Nat)) : Bool :=
  let mine := fun (p : Packet) => sameThread p.sender sender
  s.fabric.homePackets.any (fun (_, p) => mine p) || s.platens.any fun (_, p) => p.packets.any mine

/-- Whether an earlier packet of the thread that sent a packet is still queued and can be applied: it comes first (R85). One that
a call holds back is passed, as packets for different addresses may be applied in any order (R276, R279). DEDUCED (log 49). -/
def State.earlierPacket (s : State) (p : Packet) : Bool :=
  let before := fun (q : Packet) => sameThread q.sender p.sender && decide (q.seq < p.seq)
  s.fabric.homePackets.any (fun (_, q) => before q && !s.heldByCall (deviceLine q.pa))
    || s.platens.any fun (_, r) => r.packets.any before

/-- Hands an answer to the port for the module that made the request. -/
def State.sendAnswer (s : State) (tag : Nat) (r : PeerReply) : State :=
  { s with fabric := { s.fabric with answers := s.fabric.answers ++ [(tag, r)] } }

/-- Acknowledges a packet to its sender, on the plane that it came on; a plane that is down carries nothing (R282). -/
def State.ackPacket (s : State) (p : Packet) : State :=
  match p.reply with
  | some (_, tag) => if s.planeUp (p.plane.getD s.modId) then s.sendAnswer tag .ack else s
  | none => s

/-- A reduction that meets an uncorrectable word is discarded and logged, as a refused one is (R37, R283). -/
def State.dropPacket (s : State) (array : Nat) : State :=
  { s.countError array with fabric := { s.fabric with refused := s.fabric.refused + 1 } }

/-- A platen gives up the times of a line: the memory time rises to its RTS (R66). -/
def State.dropTimes (s : State) (stack ln : Nat) : State :=
  s.modPlaten stack fun p =>
    if Tab.has p.rts ln then
      { p with wts := Tab.del ln p.wts, rts := Tab.del ln p.rts, mem := max p.mem (p.rtsOf ln) }
    else p

/-- PLATEN_PACKET_APPLY: one queued packet as a read-modify-write at DRAM. The packets for one address are applied in the
order in which they arrived; accesses that waited for them go on. -/
def execPlatenPacketApply (stack index : Nat) (s : State) : Host.Outcome State Fault Refusal :=
  let q := (s.platen stack).packets
  match q[index]? with
  | none => notEnabled "PLATEN_PACKET_APPLY"
  | some p =>
    if s.earlierPacket p || (q.take index).any fun r => decide (r.pa < p.pa + p.size) && decide (p.pa < r.pa + r.size) then
      notEnabled "PLATEN_PACKET_APPLY"
    else
      let s := s.modPlaten stack fun r => { r with packets := q.eraseIdx index }
      match s.badRead p.pa p.size with
      | some a => .next ((s.dropPacket a).sweepPlaten stack)
      | none =>
        let clk := collClock (dieOfStack stack)
        let old := readBytes s.hbm p.pa p.size
        let (v, _) := atomNew p.sub p.ty old p.value p.compare
        let (s, time) := s.platenStamp stack (p.pa / 128) (s.clock clk)
        let s := ({ s with hbm := writeBytes s.hbm p.pa p.size v } : State).raise clk time
        .next ((s.ackPacket p).sweepPlaten stack)

end Sys2Proof.Machine
end

