-- ==== Sys2Proof/Machine/Fabric.lean ====
section
/-! DEFINITION. The fabric: links and planes, inbound and outbound peer traffic, reduction packets, collective results
(R280 to R292). -/

namespace Sys2Proof.Machine

/-! ### Inbound accesses (R85, R281, R283, R284) -/

/-- An access, packet or answer that is discarded is logged in the error counters (R281, R283). -/
def State.logRefused (s : State) : State := { s with fabric := { s.fabric with refused := s.fabric.refused + 1 } }

/-- Whether the plane on which an inbound request came is up: this module's own, or the one that it names (R282). -/
def State.wayUp (s : State) (req : PeerRequest) : Bool := s.planeUp ((requestWay req).getD s.modId)

/-- Sends an answer back to the module that made the request, on the plane that it came on; a plane that is down carries none
(R282). -/
def State.answerPeer (s : State) (req : PeerRequest) (r : PeerReply) : State :=
  if s.wayUp req then s.sendAnswer req.tag r else s

/-- Whether a request is answered when it is refused (R283). -/
def isAnswered : PeerOp → Bool
  | .load | .atom .. => true
  | .store | .red .. => false

/-- A refused request: logged, and answered if it is a load or an atomic (R281, R283). -/
def State.refusePeer (s : State) (req : PeerRequest) (r : PeerReply) : State :=
  if isAnswered req.op then s.logRefused.answerPeer req r else s.logRefused

/-- The value that a request leaves at its address, if it writes, and the answer to it. -/
def peerEffect (req : PeerRequest) (old : Nat) : Option Nat × PeerReply :=
  match req.op with
  | .load => (none, .value old)
  | .store => (some (req.value % 2 ^ (8 * req.size)), .ack)
  | .atom sub ty => (some (atomNew sub ty old req.value req.compare).1, .value old)
  | .red sub ty => (some (atomNew sub ty old req.value req.compare).1, .ack)

/-- A reduction packet of an inbound request. -/
def peerPacket (req : PeerRequest) (sub : Nat) (ty : Ty) : Packet :=
  { pa := req.pa, sub, ty, size := req.size, value := req.value, compare := req.compare, reply := some (req.source, req.tag)
    sender := requestSender req, plane := requestWay req }

/-- An access at a home slice on behalf of another module: its pts is the clock of the collective engine of the die to which
the line's stack attaches (R85). False while it has to wait. A load grants a lease of 32, as to the host: it has no context
of this module, and R42 names no lease for it. DESIGN CHOICE (log 48). -/
def State.peerHome (s : State) (req : PeerRequest) : State × Bool :=
  let ln := deviceLine req.pa
  let clk := collClock (dieOfStack (stackOf req.pa))
  let writes := req.op != .load
  match s.homeReady ln writes with
  | (s, false) => (s, false)
  | (s, true) =>
    let d := (s.lineAt ln).data
    let off := req.pa % 128
    match if req.op == .store then lineBadWrite d off req.size else lineBadRead d off req.size with
    | some a => (s.refusePeer req (.ecc a), true)
    | none =>
      let (new, r) := peerEffect req (lineRead d (req.pa % 128) req.size)
      let (s, time) := match new with
        | none => s.homeLoad ln (s.clock clk) 32
        | some v => s.homeStore ln (s.clock clk) (lineWrite d (req.pa % 128) req.size v)
      ((s.raise clk time).answerPeer req r, true)

/-- An access to a platen-owned line on behalf of another module (R66, R85, R278). -/
def State.peerPlaten (s : State) (req : PeerRequest) : State :=
  let st := stackOf req.pa
  let clk := collClock (dieOfStack st)
  match if req.op == .store then s.badWrite req.pa req.size else s.badRead req.pa req.size with
  | some a => s.refusePeer req (.ecc a)
  | none =>
    let s := if req.op == .store then s.healMem req.pa req.size else s
    let (new, r) := peerEffect req (readBytes s.hbm req.pa req.size)
    let (s, time) := match new with
      | none => s.platenLoad st (req.pa / 128) (s.clock clk)
      | some v =>
        let (s, time) := s.platenStamp st (req.pa / 128) (s.clock clk)
        ({ s with hbm := writeBytes s.hbm req.pa req.size v }, time)
    (s.raise clk time).answerPeer req r

/-- Tries to take one inbound access: it is performed at the site that its page kind selects, queued as a reduction packet,
or refused; false while it has to wait (R281, R283, R284). -/
def State.takePeer (s : State) (req : PeerRequest) (kind : Nat) : State × Bool :=
  if kind = 1 ∨ kind = 2 then (s.refusePeer req (.refusal 9), true)
  else if !isBacked req.pa || !s.homePowered (deviceLine req.pa) then (s.refusePeer req (.refusal 6), true)
  else
    let st := stackOf req.pa
    let seq := s.fabric.arrivals
    let counted := fun (s : State) => ({ s with fabric := { s.fabric with arrivals := seq + 1 } } : State)
    match req.op, decide (kind = 0) with
    | .red sub ty, true =>
      let p := { peerPacket req sub ty with seq }
      (counted { s with fabric := { s.fabric with homePackets := s.fabric.homePackets ++ [(dieOfStack st, p)] } }, true)
    | .red sub ty, false =>
      if 256 ≤ (s.platen st).packets.length then (s, false)
      else
        (counted (s.modPlaten st fun p => { p with packets := p.packets ++ [{ peerPacket req sub ty with seq }] }), true)
    | _, true =>
      if s.packetOf (requestSender req)
          || s.fabric.homePackets.any fun (_, p) => deviceLine p.pa == deviceLine req.pa then (s, false)
      else
        let (s, done) := s.peerHome req
        (if done then s.settle (homeOf (deviceLine req.pa)) 64 else s, done)
    | _, false =>
      if s.packetOf (requestSender req) || (s.platen st).queued (req.pa / 128) then (s, false) else (s.peerPlaten req, true)

/-- One pass over the accesses received and not yet taken: each that no earlier one holds back (R85, R284). -/
def State.takePeers (s : State) : State :=
  (s.fabric.inbound.foldl (fun (acc : State × List PeerRequest) (req, kind) =>
    if acc.2.any (behindPeer req) then (acc.1, req :: acc.2)
    else
      match acc.1.takePeer req kind with
      | (s, true) => ({ s with fabric := { s.fabric with inbound := s.fabric.inbound.erase (req, kind) } }, acc.2)
      | (s, false) => (s, req :: acc.2)) (s, [])).1

/-- PEER_REQUEST_RECEIVE: an inbound access is taken in its turn; it is discarded while the module is not on the fabric, a
load or an atomic answered with a refusal, and a plane that is down carries none (R85, R281 to R284). `kind` is the KIND of
Table 2.3; the request names its thread and, for an element of a collective's packet, its plane. DESIGN CHOICE (log 15).
DEDUCED (log 26). -/
def execPeerRequestReceive (req : PeerRequest) (kind : Nat) (s : State) : Host.Outcome State Fault Refusal :=
  if s.modId = 0x3FF then
    .next (if isAnswered req.op then s.logRefused.sendAnswer req.tag (.refusal 13) else s.logRefused)
  else if !s.wayUp req then notEnabled "PEER_REQUEST_RECEIVE"
  else .next ({ s with fabric := { s.fabric with inbound := s.fabric.inbound ++ [(req, kind)] } } : State).takePeers

/-- Removes the `i`th element that belongs to a die. -/
def dropNth (die : Nat) : List (Nat × Packet) → Nat → List (Nat × Packet)
  | [], _ => []
  | (d, p) :: t, i => if d = die then (if i = 0 then t else (d, p) :: dropNth die t (i - 1)) else (d, p) :: dropNth die t i

/-- REDUCTION_PACKET_APPLY: a home slice applies a queued packet, in arrival order per address and after the earlier ones of
its thread; a line of a call that has passed its drain makes it wait (R85, R276, R284). -/
def execReductionPacketApply (die index : Nat) (s : State) : Host.Outcome State Fault Refusal :=
  let mine := (s.fabric.homePackets.filter fun (d, _) => d == die).map (·.2)
  match mine[index]? with
  | none => notEnabled "REDUCTION_PACKET_APPLY"
  | some p =>
    let ln := deviceLine p.pa
    if s.earlierPacket p || (mine.take index).any fun r => decide (r.pa < p.pa + p.size) && decide (p.pa < r.pa + r.size) then
      notEnabled "REDUCTION_PACKET_APPLY"
    else if s.heldByCall ln then .next s
    else
      match s.homeReady ln true with
      | (s, false) => .next s
      | (s, true) =>
        let s := { s with fabric := { s.fabric with homePackets := dropNth die s.fabric.homePackets index } }
        let d := (s.lineAt ln).data
        match lineBadRead d (p.pa % 128) p.size with
        | some a => .next (s.dropPacket a).takePeers
        | none =>
          let (v, _) := atomNew p.sub p.ty (lineRead d (p.pa % 128) p.size) p.value p.compare
          let clk := collClock (dieOfStack (stackOf p.pa))
          let (s, time) := s.homeStore ln (s.clock clk) (lineWrite d (p.pa % 128) p.size v)
          .next (((s.raise clk time).ackPacket p).settle (homeOf ln) 64).takePeers

/-! ### Answers to this module's accesses (R87, R284, R285) -/

/-- A peer access is no longer outstanding; the thread's fence may complete. -/
def State.peerDone (s : State) (tag : Nat) (o : PeerOut) : State :=
  let s := { s with fabric := { s.fabric with out := Tab.del tag s.fabric.out } }
  (s.modThread o.tid fun th => { th with peerOut := th.peerOut.erase tag }).fenceDone o.tid

/-- An operation no longer awaits a reply. -/
def State.replied (s : State) (op tag : Nat) : State :=
  { s with memops := Tab.modify op (fun m => { m with replies := m.replies.erase tag }) s.memops }

/-- The value of a load or atomic reaches its thread; the flags of an `atom` are raised there (R284). -/
def State.peerValue (s : State) (tag : Nat) (o : PeerOut) (op : Nat) (a : Access) (v : Nat) : State :=
  let s := match Tab.find op s.memops with
    | some m =>
      let (new, flags) := m.kind.write a v
      s.modThread o.tid fun th => th.landed m.kind a v new flags
    | none => s
  ((s.replied op tag).peerDone tag o).finishOp op

/-- A load or atomic ends in a fault of its thread, which is to be delivered. -/
def State.peerFault (s : State) (tag : Nat) (o : PeerOut) (op : Nat) (f : Trap) : State × Faults :=
  let next := ((Tab.find op s.memops).map MemOp.next).getD 0
  let s := (s.replied op tag).peerDone tag o
  let (s, fs) := match o.acc with
    | some a => if Tab.has s.memops op then s.dropLane op a o.tid next (.fault f) else (s, [])
    | none => (s, [])
  (s.finishOp op, fs)

/-- A load or atomic ends in a fault of its thread. -/
def State.peerFaults (s : State) (tag : Nat) (o : PeerOut) (op : Nat) (f : Trap) : State :=
  let (s, fs) := s.peerFault tag o op f
  s.deliverFaults fs

/-- PEER_REPLY_RECEIVE; a module that is not on the fabric receives nothing (R281, R283, R284). DEDUCED (log 26). -/
def execPeerReplyReceive (tag : Nat) (reply : PeerReply) (s : State) : Host.Outcome State Fault Refusal :=
  match Tab.find tag s.fabric.out with
  | none => notEnabled "PEER_REPLY_RECEIVE"
  | some o =>
    match o.op, o.acc, reply with
    | some op, some a, .value v => .next (if s.modId = 0x3FF then s.logRefused else s.peerValue tag o op a v)
    | some op, _, .refusal r =>
      .next (if s.modId = 0x3FF then s.logRefused else s.peerFaults tag o op (protection r o.va))
    | some op, _, .ecc arr =>
      .next (if s.modId = 0x3FF then s.logRefused
        else s.peerFaults tag o op { code := Code.ecc, info := arr, addr := o.va })
    | _, _, _ => notEnabled "PEER_REPLY_RECEIVE"

/-- PEER_ACK_RECEIVE; a module that is not on the fabric receives nothing (R87, R281). DEDUCED (log 26). -/
def execPeerAckReceive (tag : Nat) (s : State) : Host.Outcome State Fault Refusal :=
  match Tab.find tag s.fabric.out with
  | some o =>
    if o.write && o.op.isNone then .next (if s.modId = 0x3FF then s.logRefused else s.peerDone tag o)
    else notEnabled "PEER_ACK_RECEIVE"
  | none => notEnabled "PEER_ACK_RECEIVE"

/-! ### Links (R280, R282, R285) -/

/-- Whether an outstanding access is a live thread's own, not a job's. -/
def State.isThreads (s : State) (o : PeerOut) : Bool := o.job.isNone && ((s.thread? o.tid).map Thread.live).getD false

/-- An access that was outstanding on a plane that has gone down: a write counts as lost, and the thread's next `fence.sys`
raises LINK_DOWN (R285). -/
def State.countLost (s : State) (o : PeerOut) : State :=
  if !o.write then s
  else
    let s := { s with fabric := { s.fabric with lost := s.fabric.lost + 1 } }
    if s.isThreads o then s.modThread o.tid fun th => { th with peerLost := true } else s

/-- A lost access is no longer outstanding: one that awaits its value faults, a fence may complete, and for a thread that has
ended the host is told (R285, R305). DEDUCED (log 26). -/
def State.loseAccess (s : State) (tag : Nat) (o : PeerOut) : State × Faults :=
  let launch := ((s.team? o.tid.team).map Team.launch)
  match o.op with
  | some op => s.peerFault tag o op (protection 13 o.va)
  | none =>
    let told := s.isThreads o || o.job.isSome
    let s := s.peerDone tag o
    if told then (s, [])
    else
      let l := launch.or (((s.cores.flatMap fun (_, c) => c.tracker.map (·.2)).find? fun e => e.1.contains tag).map (·.2.2))
      match l with
      | some l => (s.drainFault l o.va (Code.protection * 2 ^ 24 + 13 * 2 ^ 16), [])
      | none => (s, [])

/-- Element groups of a collective job that were sent on a plane and have no result yet. -/
def Job.awaitsPlane (j : Job) (plane : Nat) : Bool :=
  j.kind == .coll && !isPush j.kind j.card && j.ended.isNone &&
    (List.range j.sent).any fun i => (j.jseq + i) % 128 == plane && !Tab.has j.recvd i

/-- The plane of a port is down: outstanding accesses on it are lost, collective jobs that await a line on it end (R285,
R292). -/
def State.downPlane (s : State) (port : Nat) : State :=
  let s := { s with fabric := { s.fabric with up := Tab.set false port false s.fabric.up } }
  let gone := s.fabric.out.filter fun (t, o) => o.plane == port && !Tab.has s.port.ioReads t
  let s := gone.foldl (fun s (_, o) => s.countLost o) s
  let (s, fs) := gone.foldl (fun (acc : State × Faults) (t, o) =>
    let (s, f) := acc.1.loseAccess t o
    (s, acc.2 ++ f)) (s, [])
  let s := s.deliverFaults fs
  (s.jobs.filter fun (_, j) => j.awaitsPlane port).foldl (fun s (k, j) =>
    s.failJob k (protection 13 (cardAddr j.card 1))) s

/-- LINK_DOWN (R285, R292). -/
def execLinkDown (port : Nat) (s : State) : Host.Outcome State Fault Refusal :=
  if Tab.getD s.fabric.up port false then .next (s.downPlane port) else notEnabled "LINK_DOWN"

/-- LINK_TRAIN: the port's plane comes up, or is held down: the port of a gated die always (R280, R419). -/
def execLinkTrain (port : Nat) (good : Bool) (s : State) : Host.Outcome State Fault Refusal :=
  if port < 128 then
    .next (if good && s.hasPower (port / 64) then
        { s with fabric := { s.fabric with up := Tab.set false port true s.fabric.up } }
      else if Tab.getD s.fabric.up port false then s.downPlane port
      else s)
  else notEnabled "LINK_TRAIN"

/-! ### Collective traffic (R286, R291, R292) -/

/-- A sum of two inputs of the switch in f32, rounded to nearest even; an absent one leaves the other unchanged (R229,
R290). -/
def switchAdd (x y : Option Nat) : Option Nat :=
  match x, y with
  | some x, some y => some (faddV fmtF32 x y).1
  | none, y => y
  | x, none => x

/-- S(n): the sum of one node's eight slots; `v` is what each position sent (R290). -/
def nodeSum (v : Nat → Option Nat) (n : Nat) : Option Nat :=
  let m := fun i => v (8 * n + i)
  switchAdd (switchAdd (switchAdd (m 0) (m 1)) (switchAdd (m 2) (m 3)))
    (switchAdd (switchAdd (m 4) (m 5)) (switchAdd (m 6) (m 7)))

/-- R: the left fold of the node sums in node index (R290). -/
def collSum (gsize : Nat) (v : Nat → Option Nat) : Option Nat :=
  (List.range ((gsize - 1) / 8)).foldl (fun r n => switchAdd r (nodeSum v (n + 1))) (nodeSum v 0)

/-- The summed element group `i` of a job: `vals` holds what positions 0 to GSIZE − 1 sent, position after position; this
module's own share is what it sent itself (R290). -/
def State.groupSum (s : State) (j : Job) (i : Nat) (vals : List Word) : List Word :=
  let g := s.cgrp (cardCgrp j.card)
  let own := j.groupVals i
  let n := own.length
  (List.range n).map fun k =>
    let v := fun p =>
      if Bits.field g 11 10 ≤ p then none
      else some (if p = g % 2 ^ 10 then own.getD k 0 else vals.getD (p * n + k) 0).toNat
    BitVec.ofNat 32 ((collSum (Bits.field g 11 10) v).getD 0)


/-- COLL_RESULT_RECEIVE: the switch's sum of an element group arrives on the group's plane; it is held until its destination
lines are written (R281, R282, R290, R291). -/
def execCollResultReceive (job group : Nat) (vals : List Word) (s : State) : Host.Outcome State Fault Refusal :=
  if s.modId = 0x3FF then .next s.logRefused
  else
    match Tab.find job s.jobs with
    | some j =>
      if j.kind == .coll && decide (group < j.sent) && !Tab.has j.recvd group && j.ended.isNone && s.groupPlane j group then
        .next { s with jobs := Tab.put job { j with recvd := Tab.put group (s.groupSum j group vals) j.recvd } s.jobs }
      else notEnabled "COLL_RESULT_RECEIVE"
    | none => notEnabled "COLL_RESULT_RECEIVE"

/-- Whether an abort concerns a job that has not ended: COLL_ABORT answers element groups that still lack their results, or,
of a PUSH, that are not sent or not acknowledged; COLL_MISMATCH ends every member's job (R292). -/
def State.abortable (s : State) (key : Nat) (j : Job) (mismatch : Bool) : Bool :=
  j.kind == .coll && j.ended.isNone &&
    (mismatch ||
      if isPush j.kind j.card then !j.complete || s.fabric.out.any fun p => p.2.job == some key
      else (List.range (groupCount j.card)).any fun i => !Tab.has j.recvd i)

/-- COLL_ABORT_RECEIVE: the job ends with COLL_ABORT or COLL_MISMATCH; no plane that is down carries one (R281, R282,
R292). -/
def execCollAbortReceive (job : Nat) (mismatch : Bool) (s : State) : Host.Outcome State Fault Refusal :=
  if s.modId = 0x3FF then .next s.logRefused
  else
    match Tab.find job s.jobs with
    | some j =>
      if s.abortable job j mismatch && (List.range 128).any s.planeUp then
        .next (s.failJob job (protection (if mismatch then 14 else 12) 0))
      else notEnabled "COLL_ABORT_RECEIVE"
    | none => notEnabled "COLL_ABORT_RECEIVE"

/-- A write to CGRPTAB[n]: the defined fields are stored; EN set resets the group's sequence counter (R286, R287). -/
def State.writeCgrptab (s : State) (group v : Nat) : State :=
  let s := s.setReg (0x101000 + 8 * group) (v % 2 ^ 10 + Bits.field v 11 10 * 2 ^ 11 + Bits.field v 31 1 * 2 ^ 31)
  if Bits.bit v 31 then { s with fabric := { s.fabric with jseq := Tab.del group s.fabric.jseq } } else s

/-- CGRPTAB_WRITE (R286). -/
def execCgrptabWrite (group : Nat) (value : DWord) (s : State) : Host.Outcome State Fault Refusal :=
  if 1024 ≤ group then notEnabled "CGRPTAB_WRITE" else .next (s.writeCgrptab group value.toNat)

end Sys2Proof.Machine
end

