-- ==== Sys2Proof/Machine/Imprint.lean ====
section
/-! DEFINITION. Launch records (Table 18.3), clusters and their teams (R302), imprints and their consumers (R267 to R269, R349
to R353), the `imp` instructions. -/

namespace Sys2Proof.Machine

/-! ### The launch record (Table 18.3) -/

def recVer (r : Nat) : Nat := recField r 0 8
def recCtx (r : Nat) : Nat := recField r 8 6
def recRoles (r : Nat) : Nat := recField r 14 5 + 1
/-- W of R302. -/
def recW (r : Nat) : Nat := recField r 19 2 + 1
/-- H of R302. -/
def recH (r : Nat) : Nat := recField r 21 2 + 1
def recImpOut (r : Nat) : Bool := Bits.bit r 23
def recNin (r : Nat) : Nat := recField r 24 3
def recDim (r : Nat) : Nat := recField r 32 11
def recNbar (r : Nat) : Nat := recField r 43 11
def recSlugs (r : Nat) : Nat := recField r 54 7
def recForme (r : Nat) : Nat := recField r 64 19
def recNargs (r : Nat) : Nat := recField r 96 7
def recEntry (r : Nat) : Nat := recField r 128 64
def recGridX (r : Nat) : Nat := recField r 256 32
def recGridY (r : Nat) : Nat := recField r 288 32
def recGridZ (r : Nat) : Nat := recField r 320 32
/-- The output imprint space: B, TX, TY, G, N. -/
def recBuf (r : Nat) : Nat := recField r 384 32
def recTx (r : Nat) : Nat := recField r 416 16
def recTy (r : Nat) : Nat := recField r 432 16
def recGen (r : Nat) : Nat := recField r 448 16
def recCons (r : Nat) : Nat := recField r 464 16

/-- A forme size as the part rounds it (R91). -/
def roundForme (n : Nat) : Nat := (n + 1023) / 1024 * 1024

/-! ### Clusters of a launch (R302) -/

/-- Teams of a cluster. -/
def recTeams (r : Nat) : Nat := recW r * recH r
/-- Clusters of a launch. -/
def recClusters (r : Nat) : Nat := recGridX r / recW r * (recGridY r / recH r) * recGridZ r

/-- Coordinates of the team at a rank of the cluster at a linear index, x fastest (R302). -/
def teamAt (r index rank : Nat) : Nat × Nat × Nat :=
  let nx := recGridX r / recW r
  let ny := recGridY r / recH r
  (index % nx * recW r + rank % recW r, index / nx % ny * recH r + rank / recW r, index / (nx * ny))

/-! ### Input tiles (R351) -/

/-- An input tile that a team expects. -/
structure Input where
  buf : Nat
  tx : Nat
  ty : Nat
  gen : Nat
  deriving DecidableEq, Repr

/-- Input `n` of the team at (x, y); a coordinate outside 0 to 65,535 makes it absent (R351). -/
def inputAt (r n x y : Nat) : Option Input :=
  let f := fun lo => recField r (512 + 192 * n + lo) 32
  let cx := Bits.signed 32 (f 32) * x + Bits.signed 32 (f 64)
  let cy := Bits.signed 32 (f 96) * y + Bits.signed 32 (f 128)
  if 0 ≤ cx ∧ cx < 65536 ∧ 0 ≤ cy ∧ cy < 65536 then
    some { buf := f 0, tx := cx.toNat, ty := cy.toNat, gen := recField r (512 + 192 * n + 160) 16 }
  else none

/-- The inputs present for the team at (x, y), in order. -/
def inputsAt (r x y : Nat) : List Input := (List.range (recNin r)).filterMap fun n => inputAt r n x y

/-- Every input of a cluster's teams. -/
def clusterInputs (r index : Nat) : List Input :=
  (List.range (recTeams r)).flatMap fun k => inputsAt r (teamAt r index k).1 (teamAt r index k).2.1

/-! ### Entries (R349, R350) -/

/-- The tile word of R267: x in bits 15:0, y in bits 31:16. -/
def tileWord (tx ty : Nat) : Nat := tx + ty * 2 ^ 16

/-- The entry of a tile: key and fields. -/
def State.imprintAt (s : State) (ctx buf tx ty : Nat) : Option (Nat × Imprint) :=
  s.imprints.find? fun (_, e) => e.ctx == ctx && e.buf == buf && e.tx == tx && e.ty == ty

/-- A generation is newer than `c` (R268). -/
def newerGen (g c : Nat) : Bool :=
  let d := (g + 2 ^ 16 - c) % 2 ^ 16
  decide (1 ≤ d) && decide (d ≤ 32767)

/-- The boundary entries of a buffer's generation. -/
def State.boundaryOf (s : State) (ctx buf gen : Nat) : List (Nat × Boundary) :=
  s.boundaries.filter fun (_, b) => b.ctx == ctx && b.buf == buf && b.gen == gen

/-- The time at which a tile's condition came to hold, if it holds (R268, R351). DEDUCED (log 27). -/
def State.tileReady (s : State) (ctx : Nat) (i : Input) : Option Nat :=
  let a := (s.imprintAt ctx i.buf i.tx i.ty).bind fun (_, e) => if e.posted && e.gen == i.gen then some e.time else none
  let b := ((s.boundaryOf ctx i.buf i.gen).filter fun (_, b) => b.state == 1).map fun (_, b) => b.time
  match a, b with
  | none, [] => none
  | a, b => some ((a.getD 0 :: b).foldl max 0)

/-- The REASON for which an input makes its team stale (R353). -/
def State.inputStale (s : State) (ctx : Nat) (i : Input) : Option Nat :=
  match s.imprintAt ctx i.buf i.tx i.ty with
  | some (_, e) =>
    if e.posted && newerGen e.gen i.gen then some 0
    else if (e.abn && e.pgen == i.gen) || (s.boundaryOf ctx i.buf i.gen).any (fun (_, b) => b.state == 2) then some 1
    else none
  | none => if (s.boundaryOf ctx i.buf i.gen).any fun (_, b) => b.state == 2 then some 1 else none

/-- One team gives up its share of an input: of the entry's OUTST when it is imprinted at that generation, and of the
boundary count. A team that ran counts at a boundary entry that satisfied it; one that never ran at any that it named (R350,
R352). -/
def State.lowerInput (s : State) (ctx : Nat) (ran : Bool) (i : Input) : State :=
  let s := match s.imprintAt ctx i.buf i.tx i.ty with
    | some (k, e) =>
      if e.posted && e.gen == i.gen then { s with imprints := Tab.put k { e with outst := e.outst - 1 } s.imprints } else s
    | none => s
  match (s.boundaryOf ctx i.buf i.gen).find? fun (_, b) => !ran || b.state == 1 with
  | some (k, b) =>
    { s with boundaries :=
        if b.left ≤ 1 then Tab.del k s.boundaries else Tab.put k { b with left := b.left - 1 } s.boundaries }
  | none => s

/-- The teams of a cluster that never run give up their shares (R352). -/
def State.lowerCluster (s : State) (l : Launch) (index : Nat) : State :=
  (clusterInputs l.record index).foldl (fun s i => s.lowerInput l.ctx false i) s

/-! ### What a change of an entry sets going (R268, R353) -/

/-- Threads parked in `imp.wait` whose condition holds go on, each having observed the imprint (R268, R72). -/
def State.wakeImprints (s : State) : State :=
  s.teams.foldl (fun s (k, t) => t.threads.foldl (fun s (n, th) =>
    match th.wait with
    | .imprint buf tile gen =>
      match s.tileReady (s.ctxOf t) { buf, tx := tile % 2 ^ 16, ty := tile / 2 ^ 16, gen } with
      | some time =>
        (s.raise t.clockKey time).modThread { team := k, n } fun th =>
          { th with wait := .ready, age := 0, pc := th.pc + 12 }
      | none => s
    | _ => s) s) s

/-- The teams of a cluster that are stale, in rank order: coordinates, REASON, the input that decides (R353). -/
def State.staleTeams (s : State) (l : Launch) (index : Nat) : List ((Nat × Nat × Nat) × Nat × Input) :=
  (List.range (recTeams l.record)).filterMap fun k =>
    let p := teamAt l.record index k
    (inputsAt l.record p.1 p.2.1).findSome? fun i => (s.inputStale l.ctx i).map fun r => (p, r, i)

/-- Refuses a held cluster if one of its teams is stale: an event for each such team, the whole cluster in SKIP (R353,
R378). DEDUCED (log 28). -/
def State.refuseStale (s : State) (key index : Nat) : State :=
  match Tab.find key s.launches with
  | none => s
  | some l =>
    match s.staleTeams l index with
    | [] => s
    | stale =>
      let s := stale.foldl (fun s (p, r, i) =>
        (s.noteFault key Code.imprintStale r).hostEvent
          { kind := 4, code := Code.imprintStale, reason := r, launch := l.id, taddr := i.buf, tinfo := tileWord i.tx i.ty
            x := p.1, y := p.2.1, z := p.2.2 }) s
      { s with launches := Tab.modify key (fun l =>
          { l with
            waiting := l.waiting.erase index, stale := l.stale ++ [index], skip := l.skip + recTeams l.record }) s.launches }

/-- Keys of the resident launches in order of admission. -/
def State.launchKeys (s : State) : List Nat :=
  let sorted := s.launches.foldr (fun (e : Nat × Launch) acc =>
    (acc.takeWhile fun a => a.2.order < e.2.order) ++ e :: (acc.dropWhile fun a => a.2.order < e.2.order)) []
  sorted.map (·.1)

/-- TEAM_STALE_REFUSAL: the launcher checks every held cluster (R353). -/
def State.staleScan (s : State) : State :=
  s.launchKeys.foldl (fun s k =>
    match Tab.find k s.launches with
    | none => s
    | some l => l.waiting.foldl (fun s i => s.refuseStale k i) s) s

/-- An entry has changed. -/
def State.imprintsChanged (s : State) : State := s.wakeImprints.staleScan

/-! ### The instructions (R267 to R269) -/

/-- `imp.post` by one thread: its predicate, or a fault (R267, R349). -/
def State.post (s : State) (c : View) (tile : Nat) (w0 : Nat) : Lane (State × Bool) :=
  match s.launchOf c.team with
  | none => .error (.fault { code := Code.illegalEncoding, info := w0 })
  | some l =>
    let r := l.record
    let tx := tile % 2 ^ 16
    let ty := tile / 2 ^ 16
    if !recImpOut r || decide (recTx r ≤ tx) || decide (recTy r ≤ ty) then
      .error (.fault { code := Code.illegalEncoding, info := tile })
    else if l.bnd then .ok (s, false)
    else
      match s.imprintAt l.ctx (recBuf r) tx ty with
      | none => .ok (s, false)
      | some (k, e) =>
        if e.posted && e.gen == e.pgen then .ok (s, true)
        else if e.posted && e.outst != 0 then
          .error (.fault { code := Code.imprintOverwrite, info := tile, addr := recBuf r })
        else
          let e := { e with
            posted := true, gen := e.pgen, outst := recCons r, time := s.clock c.team.clockKey }
          .ok (({ s with imprints := Tab.put k e s.imprints } : State).imprintsChanged, true)

/-- Whether a peer write of a thread of a team, one that has ended among them, is still to be acknowledged (R74, R85, R87).
DEDUCED (log 67). -/
def State.teamWrites (s : State) (k : Nat) : Bool := s.fabric.out.any fun (_, o) => o.tid.team == k && o.write && o.job.isNone

/-- `imp.post`, a release for the whole team: it waits until the accesses that the team's threads have completed are performed
(R72, R74, R267). -/
def execImpPost (x : XForm) (s : State) : Host.Outcome State Fault Refusal :=
  execTogether x.words none (fun next s c => do
    let r ← c.operands .impPost x 1 0 0
    let s ← s.claimRegs c r.srcs []
    if s.teamWrites c.id.team then throw (.park .replay)
    let (s, ok) ← s.post c (c.th.vs r.a 1) (word0 .impPost x)
    return (s.modThread c.id fun th => th.setP x.d.toNat ok, next)) s

/-- The tile that `imp.chk` and `imp.wait` name. -/
def View.tile (c : View) (r : OpRegs) : Input :=
  let t := c.th.vs r.b 1
  { buf := c.th.vs r.a 1, tx := t % 2 ^ 16, ty := t / 2 ^ 16, gen := c.th.vs r.c 1 % 2 ^ 16 }

/-- `imp.chk` (R268). -/
def execImpChk (x : XForm) (s : State) : Host.Outcome State Fault Refusal :=
  execSeq x.words none (fun s c => do
    let r ← c.operands .impChk x 1 1 1
    let s ← s.claimRegs c r.srcs []
    let ready := s.tileReady (s.ctxOf c.team) (c.tile r)
    let s := match ready with | some t => s.raise c.team.clockKey t | none => s
    return s.modThread c.id fun th => th.setP x.d.toNat ready.isSome) s

/-- `imp.wait` (R268). -/
def execImpWait (x : XForm) (s : State) : Host.Outcome State Fault Refusal :=
  execLanes x.words none (fun next s c => do
    let r ← c.operands .impWait x 1 1 1
    let s ← s.claimRegs c r.srcs []
    let i := c.tile r
    match s.tileReady (s.ctxOf c.team) i with
    | some t => return (s.raise c.team.clockKey t, next)
    | none =>
      let newer := match s.imprintAt (s.ctxOf c.team) i.buf i.tx i.ty with
        | some (_, e) => e.posted && newerGen e.gen i.gen
        | none => false
      if newer then throw (.fault { code := Code.imprintStale, info := tileWord i.tx i.ty, addr := i.buf })
      return (s.modThread c.id fun th => { th with wait := .imprint i.buf (tileWord i.tx i.ty) i.gen }, c.th.pc.toNat)) s

/-- Retires an entry: it is freed, or returns to STATE 1 while it is bound (R269, R349). DEDUCED (log 27). -/
def State.retireImprint (s : State) (k : Nat) (e : Imprint) : State :=
  { s with imprints :=
      if e.bound then Tab.put k { e with posted := false, outst := 0 } s.imprints else Tab.del k s.imprints }

/-- `imp.clear` (R269). -/
def execImpClear (x : XForm) (s : State) : Host.Outcome State Fault Refusal :=
  execSeq x.words none (fun s c => do
    let r ← c.operands .impClear x 1 1 0
    let s ← s.claimRegs c r.srcs []
    let buf := c.th.vs r.a 1
    let tile := c.th.vs r.b 1
    match s.imprintAt (s.ctxOf c.team) buf (tile % 2 ^ 16) (tile / 2 ^ 16) with
    | none => return s
    | some (k, e) =>
      if e.outst ≠ 0 then throw (.fault { code := Code.imprintOverwrite, info := tile, addr := buf })
      return (s.retireImprint k e).imprintsChanged) s

/-- IMPRINT_ENTRY_RETIRE: the host retires an entry through the management window (R349). DEDUCED (log 27). -/
def execImprintEntryRetire (ctx buf x y : Nat) (s : State) : Host.Outcome State Fault Refusal :=
  match s.imprintAt ctx buf x y with
  | none => .next s
  | some (k, e) => .next (s.retireImprint k e).imprintsChanged

/-! ### Binding (R349) -/

/-- Entries that a die's table holds. -/
def State.imprintsOn (s : State) (die : Nat) : Nat := (s.imprints.filter fun (_, e) => e.die == die).length

/-- The tiles of a grid. -/
def gridTiles (tx ty : Nat) : List (Nat × Nat) := (List.range ty).flatMap fun y => (List.range tx).map fun x => (x, y)

/-- Binds one tile of the space to a launch: its entry, or a new one in state reserved (R349, step 4). -/
def State.bindTile (s : State) (die ctx : Nat) (r id : Nat) (tile : Nat × Nat) : State :=
  match s.imprintAt ctx (recBuf r) tile.1 tile.2 with
  | some (k, e) =>
    { s with imprints := Tab.put k { e with bound := true, pgen := recGen r, abn := false, launch := id } s.imprints }
  | none =>
    let k := Tab.freeKey s.imprints 32768 (die * 32768)
    let e : Imprint := { die, ctx, buf := recBuf r, tx := tile.1, ty := tile.2, pgen := recGen r, bound := true, launch := id }
    { s with imprints := Tab.put k e s.imprints }

/-- IMPRINT_BIND: binds an output space whole, or answers none: the launch runs in boundary mode (R349). -/
def State.bindSpace (s : State) (ctx r id : Nat) : Option State :=
  let tx := recTx r
  let ty := recTy r
  if 32768 < tx * ty then none
  else
    let mine := s.imprints.filter fun (_, e) => e.ctx == ctx && e.buf == recBuf r
    if mine.any fun (_, e) => e.bound then none
    else
      let inside := mine.filter fun (_, e) => decide (e.tx < tx) && decide (e.ty < ty)
      let die := match mine with
        | (_, e) :: _ => e.die
        | [] => if tx * ty ≤ 32768 - s.imprintsOn 0 then 0 else 1
      if 32768 - s.imprintsOn die < tx * ty - inside.length then none
      else some ((gridTiles tx ty).foldl (fun s p => s.bindTile die ctx r id p) s)

end Sys2Proof.Machine
end

