-- ==== Sys2Proof/Machine/Launch.lean ====
section
/-! DEFINITION. Admission, placement, retirement and completion of launches, host and device queues, cancels (R299 to R306,
R341 to R354, R366 to R368, R386 to R388, R414). -/

namespace Sys2Proof.Machine

/-! ### Reading code and descriptors (R89, R386) -/

/-- A line's bytes wherever they are newest: with its owner, on the way home, or at its home. Instruction fetch is outside S
and changes no time (R89). -/
def State.newest (s : State) (ln : Nat) : LineData :=
  let moving := s.net.find? fun (_, m) => m.line == ln && (match m.kind with | .wb | .answer _ => true | _ => false)
  match (s.ownerOf ln).bind fun r => Tab.find ln (s.region r).copies, moving, Tab.find ln s.port.store with
  | some c, _, _ => c.data
  | none, some (_, m), _ => m.data
  | none, none, some d => if s.isResident ln then (s.lineAt ln).data else d
  | none, none, none => (s.lineAt ln).data

/-- `n` bytes of code, within one line, where a translation puts them. Code in a peer's memory or in an I/O aperture has no
stated value: a free one (log 3). No code comes over a plane that is down (R285). -/
def State.fetchRead (s : State) (va : Nat) (l : Loc) (n : Nat) : State × Except Trap Nat :=
  let ecc := fun (bad : Option Nat) (v : Nat) =>
    match bad with
    | some a => Except.error { code := Code.ecc, info := a, addr := va }
    | none => .ok v
  match l with
  | .device pa =>
    let d := s.newest (deviceLine pa)
    (s, ecc (lineBadRead d (pa % 128) n) (lineRead d (pa % 128) n))
  | .host pa =>
    let d := s.newest (hostLine pa)
    (s, ecc (lineBadRead d (pa % 128) n) (lineRead d (pa % 128) n))
  | .platen pa => (s, ecc (s.badRead pa n) (readBytes s.hbm pa n))
  | .forme k off =>
    (s, ecc (if s.badUnits k off n false then some arrSram else none) (readBytes (s.forme k).data off n))
  | .peer m _ =>
    if s.planeUp m then
      let (i, s) := s.draw
      (s, .ok (Config.freeNat i % 2 ^ (8 * n)))
    else (s, .error (protection 13 va))
  | .io _ =>
    let (i, s) := s.draw
    (s, .ok (Config.freeNat i % 2 ^ (8 * n)))

/-- The cluster whose forme window a team's threads reach: none on a near-memory core (R274). -/
def Team.window (t : Team) : Option Nat := if t.near then none else some t.cluster

/-- Where a fetch from an address goes: in the forme window a forme of `cluster`, with no translation; else by translation
for fetch (R17, R89). DEDUCED (log 33). -/
def State.fetchSite (s : State) (cluster : Option Nat) (a : Asker) (va : Nat) : State × Tr :=
  if inWindow va then
    match cluster.bind fun c => s.windowAt c va with
    | some (k, off) => (s, .ok (.forme k off))
    | none => (s, .fault { code := Code.formeRange, addr := va })
  else s.translate a va

/-- Whether an access to a site has to wait for the reduction packets queued for its platen-owned line (R274). -/
def State.packetsWait (s : State) : Loc → Bool
  | .platen pa => s.packetsFor pa
  | _ => false

/-- How a read through translation stands; `busy`: its line waits for packets. -/
inductive DescRead where
  | ok (v : Nat)
  | fault (t : Trap)
  | miss (e : Nat)
  | full
  | busy
  deriving DecidableEq, Repr

/-- The kernel descriptor before an entry, fetched for a thread of `cluster`, or for the launcher, which has none (R386).
DEDUCED (log 29). -/
def State.descriptor (s : State) (cluster : Option Nat) (a : Asker) (entry : Nat) : State × DescRead :=
  let va := Bits.ofInt 64 ((entry : Int) - 16)
  match s.fetchSite cluster a va with
  | (s, .fault t) => (s, .fault t)
  | (s, .miss e) => (s, .miss e)
  | (s, .full) => (s, .full)
  | (s, .ok l) =>
    if s.packetsWait l then (s, .busy) else
    match s.fetchRead va l (if va % 16 = 0 then 16 else 4) with
    | (s, .ok v) => (s, .ok v)
    | (s, .error t) => (s, .fault t)

/-! ### The descriptor and its checks (Tables 24.3 to 24.7) -/

def descHdr (d : Nat) : Nat := d % 2 ^ 32
def descForme (d : Nat) : Nat := Bits.field d 32 19
def descSlugs (d : Nat) : Nat := Bits.field d 64 7
def descNbar (d : Nat) : Nat := Bits.field d 71 11
def descRoles (d : Nat) : Nat := Bits.field d 82 5 + 1
def hdrProfile (h : Nat) : Nat := Bits.field h 24 8
def hdrWidth (h : Nat) : Nat := Bits.field h 22 2
def hdrSplit (h : Nat) : Bool := Bits.bit h 21
def hdrErratum (h : Nat) : Nat := Bits.field h 16 5
def hdrBdiv8 (h : Nat) : Nat := Bits.field h 8 8

/-- The load error of a header, 0 when it is accepted (Table 24.5, Table 24.7). -/
def hdrError (h : Nat) : Nat :=
  let p := hdrProfile h
  let w := hdrWidth h
  let wide := p == 3 && (w == 0 || w == 1)
  let narrow := w == 0 || w == 2
  if h % 2 ^ 8 ≠ 0 ∨ w = 3 then 1
  else if p < 1 ∨ 3 < p then 2
  else if !(if hdrSplit h then narrow else wide) then 3
  else if hdrErratum h ≠ 0 then 4
  else if hdrBdiv8 h % 2 ≠ 0 ∨ hdrBdiv8 h < 2 ∨ 128 < hdrBdiv8 h then 5
  else 0

/-- Whether a team fits an empty core (R300, R301): threads, b, slugs, forme bytes, named barriers. -/
def fitsEmpty (dim b slugs forme nbar : Nat) : Bool :=
  let groups := (dim + 31) / 32
  (List.range 4).all fun p =>
    let n := (groups + 3 - p) / 4
    decide (n ≤ 16) && decide (n * b ≤ 2048) && decide ((slugs + 3 - p) / 4 ≤ 16)
      && decide (roundForme forme ≤ 458752) && decide (nbar ≤ 1024)

/-! ### Checks of a record (R300, R345, Table 21.3) -/

/-- REASON 1: VER, a reserved field, or a field outside its range (Table 18.3). -/
def recMalformed (r : Nat) : Bool :=
  let zero := fun lo w => recField r lo w == 0
  let upTo := fun n lo hi => decide (lo ≤ n) && decide (n ≤ hi)
  let space := fun (n : Nat) => upTo n 1 65535
  !(recVer r == 1 && decide (recW r ≤ 3) && decide (recNin r ≤ 4) && zero 27 5 && upTo (recDim r) 1 1024
    && upTo (recNbar r) 1 1024 && zero 61 3 && decide (recSlugs r ≤ 64) && decide (recForme r ≤ 458752) && zero 83 13
    && decide (recNargs r ≤ 64) && zero 103 25 && zero 185 7 && zero 352 32
    && (if recImpOut r then space (recTx r) && space (recTy r) && space (recCons r) && zero 480 32 else zero 384 128)
    && ((List.range 4).all fun n => if n < recNin r then zero (512 + 192 * n + 176) 16 else zero (512 + 192 * n) 192)
    && zero 1792 256 && zero (2048 + 32 * recNargs r) (2048 - 32 * recNargs r))

/-- REASON 2: the grid (R300). -/
def recGridBad (r : Nat) : Bool :=
  recGridX r == 0 || recGridY r == 0 || recGridZ r == 0 || recGridX r % recW r != 0 || recGridY r % recH r != 0

/-- REASON 3: a declared format slot is malformed; an undeclared one is all zeros (R145, R146). -/
def recSlotBad (r : Nat) : Bool :=
  (List.range 8).any fun n => recField r (1280 + 64 * n) 64 != 0 && !slotWf (recField r (1280 + 64 * n) 64)

/-! ### Queues (R341 to R346) -/

def hqBase (q : Nat) : Nat := 0x104000 + 32 * q
def hqComp (q : Nat) : Nat := 0x104008 + 32 * q
def hqCtl (q : Nat) : Nat := 0x104010 + 32 * q
def hqDb (q : Nat) : Nat := 0x104018 + 32 * q
/-- Slots of a host queue's rings. -/
def State.hqSlots (s : State) (q : Nat) : Nat := 2 ^ (s.reg (hqCtl q) % 2 ^ 5)
def State.hqHead (s : State) (q : Nat) : Nat := Bits.field (s.reg (hqCtl q)) 32 16
def State.hqTail (s : State) (q : Nat) : Nat := s.reg (hqDb q) % 2 ^ 16

/-- The number of the SYSLAUNCH path (R346). -/
def sysQueue : Nat := 80

/-- Priority of a queue (R346, R414). -/
def State.queuePrio (s : State) (q : Nat) : Nat :=
  if q < 64 then Bits.field (s.reg (hqCtl q)) 8 2 else if q < sysQueue then (q - 64) / 4 else 3

/-- Whether a queue is served and has a record at its head. -/
def State.hasHead (s : State) (q : Nat) : Bool :=
  if q < 64 then
    let c := s.reg (hqCtl q)
    Bits.bit c 31 && !Bits.bit c 30 && s.hqHead q != s.hqTail q
  else if q < sysQueue then !(Tab.getD s.devQueues (q - 64) []).isEmpty
  else s.sysRecord.isSome

/-- Whether a queue's head waits for its ORD predecessor (R342). -/
def State.ordWaits (s : State) (q : Nat) : Bool :=
  decide (q < 64) && Bits.bit (s.reg (hqCtl q)) 11 &&
    ((Tab.find q s.running).map fun k => Tab.has s.launches k).getD false

/-- Whether a queue's head waits for the host's reply to a page fault of its descriptor read (R345). -/
def State.replyWaits (s : State) (q : Nat) : Bool :=
  Tab.getD s.replyWait q 0 == 1 && s.misses.any fun (_, m) => m.reported && m.joined.contains (.launcher q)

/-- The heads that may be admitted, highest priority first, then round robin after the queue last admitted (R346). -/
def State.nextHead (s : State) (tried : List Nat) : Option Nat :=
  let qs := (List.range 81).filter fun q => s.hasHead q && !tried.contains q && !s.ordWaits q && !s.replyWaits q
  leastBy (fun q => (3 - s.queuePrio q) * 81 + (q + 80 - s.lastQueue) % 81) qs

/-- Reads 512 bytes of host memory at the port, line by line (R83, R343); none while a line is on its way. The read of a line
with an uncorrectable word is logged, and its stored bits are taken (R37); the lease is 32, since no context is known yet (R42).
DESIGN CHOICE (logs 69, 70). -/
def State.readHostRecord (s : State) (pa : Nat) : State × Option Nat :=
  let first := pa / 128
  let count := (pa + 511) / 128 - first + 1
  let r := (List.range count).foldl (fun (acc : State × Bool × List (Nat × Nat)) i =>
    let ln := hostLineBase + first + i
    let (s, ok) := acc.1.homeReady ln false
    if !ok then (s, false, acc.2.2)
    else
      let (s, t) := (s.logLine (s.lineAt ln).data).homeLoad ln (s.clock portClock) 32
      (s.raise portClock t, acc.2.1, acc.2.2 ++ [(i, lineRead (s.lineAt ln).data 0 128)])) (s, true, [])
  if r.2.1 then
    let all := (r.2.2.map fun p => p.2 * 2 ^ (1024 * p.1)).foldl (· + ·) 0
    (r.1, some (Bits.field all (8 * (pa % 128)) 4096))
  else (r.1, none)

/-- The record at a queue's head, with its context, completion address and launching clock (R343, R366, R414). -/
def State.headRecord (s : State) (q : Nat) : State × Option DevRecord :=
  let host := fun (pa : Nat) =>
    let (s, r) := s.readHostRecord pa
    (s, r.map fun r => ({ record := r, ctx := recCtx r } : DevRecord))
  if q < 64 then host (Bits.field (s.reg (hqBase q)) 12 40 * 2 ^ 12 + s.hqHead q % s.hqSlots q * 512)
  else if q < sysQueue then (s, (Tab.getD s.devQueues (q - 64) []).head?)
  else host (s.sysRecord.getD 0)

/-- The descriptor read of a queue's head is given up: an answer to it concerns no later head (R345, R346). -/
def State.endHeadRead (s : State) (q : Nat) : State :=
  { s with
    replyWait := Tab.del q s.replyWait
    misses := s.misses.map fun (p : Nat × Miss) =>
      (p.1, { p.2 with joined := p.2.joined.filter fun w => w != .launcher q }) }

/-- HEAD passes a record that is admitted or refused (R343). -/
def State.passHead (s : State) (q : Nat) : State :=
  let s := s.endHeadRead q
  if q < 64 then s.setRegField (hqCtl q) 32 16 ((s.hqHead q + 1) % 2 ^ 16)
  else if q < sysQueue then { s with devQueues := Tab.modify (q - 64) (List.drop 1) s.devQueues }
  else { s with sysRecord := none }

/-! ### Completion entries (Table 21.2) -/

/-- The 128 bits of a completion entry. -/
def compEntry (skip reason code id index : Nat) (bnd : Bool) : Nat :=
  min 0xFFFF skip + reason % 2 ^ 8 * 2 ^ 16 + code % 2 ^ 8 * 2 ^ 24 + id % 2 ^ 32 * 2 ^ 32 + index % 2 ^ 16 * 2 ^ 64
    + bnd.toNat * 2 ^ 80

/-- Whether a device record's completion entry can be written now (R366). -/
def State.compReady (s : State) (q : Nat) (comp : Option Nat) : State × Bool :=
  match comp with
  | some pa => if q < 64 ∨ sysQueue ≤ q then (s, true) else s.homeReady (deviceLine pa) true
  | none => (s, true)

/-- One store in S of 16 bytes that the launcher makes at a device address (R366). Where it would overwrite a part of an
uncorrectable word, that word stays and the event is logged; no thread stores, so none faults (R37). DESIGN CHOICE (log 69). -/
def State.entryStore (s : State) (pa time v : Nat) : State :=
  let ln := deviceLine pa
  let d := (s.lineAt ln).data
  match lineBadWrite d (pa % 128) 16 with
  | some a => s.countError a
  | none => (s.homeStore ln time (lineWrite d (pa % 128) 16 v)).1

/-- Writes a completion entry: to the queue's ring or SYSCOMP, with a signal of vector 2, or as one store in S at the
address that the launching thread gave (R344, R366, R414). -/
def State.writeEntry (s : State) (q index : Nat) (comp : Option Nat) (time v : Nat) : State :=
  let signal := fun (s : State) => { s with port := { s.port with msix := s.port.msix ++ [2] } }
  if q < 64 then
    signal (s.writeHost (Bits.field (s.reg (hqComp q)) 12 40 * 2 ^ 12 + index % s.hqSlots q * 16) 16 v)
  else if sysQueue ≤ q then signal (s.writeHost (Bits.field (s.reg 0x106008) 4 48 * 2 ^ 4) 16 v)
  else
    match comp with
    | some pa => s.entryStore pa time v
    | none => s

/-- COMPLETION_MSIX_SIGNAL: vector 2 for an entry that is visible (R344). -/
def execCompletionMsixSignal (s : State) : Host.Outcome State Fault Refusal :=
  match s.signalMsix 2 with
  | some s => .next s
  | none => notEnabled "COMPLETION_MSIX_SIGNAL"

/-! ### Admission (R345, R346) -/

/-- How the checks of a record end. -/
inductive Check where
  | refuse (reason : Nat)
  | pass (hdr : Nat)
  | wait

/-- Whether the launcher may place work on a die: powered, and no gating requested (R419). -/
def State.dieOpen (s : State) (die : Nat) : Bool :=
  Tab.getD s.powered die true && !Bits.bit (s.reg 0x106200) (32 + die)

/-- The asker of the launcher's descriptor read (R345). -/
def State.launcherAsker (s : State) (q ctx : Nat) : Asker :=
  let die := if Tab.getD s.powered 0 true then 0 else 1
  { ctx, system := q == sysQueue, die, tlb := dieTlb die, acc := 3, eng := true, src := die + 3 * 2 ^ 4 + 2 ^ 6
    launch := 0, who := .launcher q }

/-- The checks of a record, in the order REASON 1, 6, 2, 3, 4, 5 (R345). DEDUCED (log 29). -/
def State.checkRecord (s : State) (q : Nat) (d : DevRecord) : State × Check :=
  let r := d.record
  if recMalformed r then (s, .refuse 1)
  else if !Bits.bit (s.reg (0x100000 + 8 * d.ctx)) 0 then (s, .refuse 6)
  else if recGridBad r then (s, .refuse 2)
  else if recSlotBad r then (s, .refuse 3)
  else if Tab.getD s.replyWait q 0 == 2 then (s, .refuse 4)
  else
    match s.descriptor none (s.launcherAsker q d.ctx) (recEntry r) with
    | (s, .fault _) => (s, .refuse 4)
    | (s, .miss _) => ({ s with replyWait := Tab.put q 1 s.replyWait }, .wait)
    | (s, .full) | (s, .busy) => (s, .wait)
    | (s, .ok v) =>
      let h := descHdr v
      if recEntry r % 16 ≠ 0 ∨ hdrError h ≠ 0 then (s, .refuse 4)
      else if !fitsEmpty (recDim r) (8 * hdrBdiv8 h) (recSlugs r) (recForme r) (recNbar r) then (s, .refuse 5)
      else (s, .pass h)

/-- The launch identifier after one (R346). -/
def nextLaunchId (id : Nat) : Nat := if id = 0xFFFFFFFF then 1 else id + 1

/-- The output space of an admitted record: bound entries, or a boundary entry; none when the record has to wait for one
(R349, R350). -/
def State.reserve (s : State) (ctx r id : Nat) : Option (State × Option Nat) :=
  if !recImpOut r then some (s, none)
  else
    match s.bindSpace ctx r id with
    | some s => some (s, none)
    | none =>
      if 1024 ≤ s.boundaries.length then none
      else
        let k := Tab.freeKey s.boundaries 1024 0
        let b : Boundary := { ctx, buf := recBuf r, gen := recGen r, left := recTx r * recTy r * recCons r, launch := id }
        some ({ s with boundaries := Tab.put k b s.boundaries }, some k)

/-- Admits a record that passed its checks; none when it waits for a boundary entry. -/
def State.admitHead (s : State) (q : Nat) (d : DevRecord) (hdr : Nat) : Option State :=
  let r := d.record
  let id := s.launchId
  match s.reserve d.ctx r id with
  | none => none
  | some (s, boundary) =>
    let total := recClusters r
    let ord := decide (q < 64) && Bits.bit (s.reg (hqCtl q)) 11
    let index := if q < 64 then s.hqHead q else 0
    let l : Launch :=
      { id, ctx := d.ctx, record := r, prio := s.queuePrio q, queue := q, index, comp := d.comp, compPage := d.compPage
        system := q == sysQueue, order := s.admitted, base := 8 * hdrBdiv8 hdr, split := hdrSplit hdr
        profile := hdrProfile hdr, next := if recNin r = 0 then 0 else total
        waiting := if recNin r = 0 then [] else List.range total
        after := if ord then Tab.getD s.doneTimes q 0 else 0, boundary, bnd := boundary.isSome, idleSince := s.cycle }
    let (key, s) := s.freshKey
    let s := { s with
      launches := Tab.put key l s.launches, launchId := nextLaunchId id, admitted := s.admitted + 1, lastQueue := q
      running := Tab.put q key s.running }
    let s := s.passHead q
    let s := if 64 ≤ q ∧ q < sysQueue then s.writeEntry q index d.comp d.time (compEntry 0 0 0xFC id index false) else s
    some s.staleScan

/-- Refuses a record (R345). -/
def State.refuse (s : State) (q : Nat) (d : DevRecord) (reason : Nat) : State :=
  let index := if q < 64 then s.hqHead q else 0
  (s.writeEntry q index d.comp d.time (compEntry 0 reason 0xFD 0 index false)).passHead q

/-- Considers heads in order until one is admitted, refused, or waits for timing; a head that waits for a boundary entry is
passed over (R346). -/
def State.consider (s : State) (tried : List Nat) : Nat → State × Bool
  | 0 => (s, false)
  | fuel + 1 =>
    match s.nextHead tried with
    | none => (s, false)
    | some q =>
      match s.headRecord q with
      | (s, none) => (s, true)
      | (s, some d) =>
        match s.compReady q d.comp with
        | (s, false) => (s, true)
        | (s, true) =>
          match s.checkRecord q d with
          | (s, .wait) => (s, true)
          | (s, .refuse reason) => (s.refuse q d reason, true)
          | (s, .pass hdr) =>
            match s.admitHead q d hdr with
            | some s => (s, true)
            | none => s.consider (q :: tried) fuel

/-- LAUNCH_ADMIT (R345, R346). -/
def execLaunchAdmit (s : State) : Host.Outcome State Fault Refusal :=
  if 128 ≤ s.launches.length then notEnabled "LAUNCH_ADMIT"
  else
    match s.consider [] 81 with
    | (s, true) => .next s
    | (_, false) => notEnabled "LAUNCH_ADMIT"

/-! ### Placement (R301 to R303) -/

/-- The place of an allocation in a core's slice: the lowest 1 KiB boundary where it overlaps no other and ends within the
512 KiB; none where the free bytes are in pieces too small (R91). DESIGN CHOICE (log 57). -/
def State.formePlace (s : State) (core size : Nat) : Option Nat :=
  let mine := (s.formes.filter fun (_, f) => f.core == core && f.size != 0).map fun (_, f) => (f.base, f.base + f.size)
  leastBy id ((0 :: mine.map (·.2)).filter fun b =>
    decide (b + size ≤ 524288) && mine.all fun m => decide (b + size ≤ m.1) || decide (m.2 ≤ b))

/-- The formes of a core move together to the low end of its slice, in the order of their places (R91). DESIGN CHOICE
(log 57). -/
def State.packFormes (s : State) (core : Nat) : State :=
  let below := fun (f : Forme) =>
    ((s.formes.filter fun (_, g) => g.core == core && decide (g.base < f.base)).map fun (_, g) => g.size).sum
  { s with formes := s.formes.map fun (p : Nat × Forme) =>
      if p.2.core == core then (p.1, { p.2 with base := below p.2 }) else p }

/-- Whether a core has room: by partition, for groups, registers and slugs; for forme bytes and named barriers (R91,
R301). -/
def State.roomFor (s : State) (core : Nat) (groups regs slugs : Nat → Nat) (forme nbar : Nat) : Bool :=
  let held := ((s.formes.filter fun (_, f) => f.core == core).map fun (_, f) => f.size).sum
  let bars := ((s.teamsOn core).map fun (_, t) => t.nbar).sum
  decide (held + forme ≤ 458752) && decide (bars + nbar ≤ 1024) &&
    (List.range 4).all fun p =>
      decide ((s.groupsOn core p).length + groups p ≤ 16) && decide (s.regsUsed core p + regs p ≤ 2048)
        && decide (s.slugsUsed core p + slugs p ≤ 16)

/-- Whether a core has room for a team (R301). -/
def State.coreFits (s : State) (core dim b slugs forme nbar : Nat) : Bool :=
  let n := fun p => ((dim + 31) / 32 + 3 - p) / 4
  s.roomFor core n (fun p => n p * b) (fun p => (slugs + 3 - p) / 4) (roundForme forme) nbar

/-- The cores of a rectangle in rank order, if it lies in one cluster region of the 192 cores (R8, R302). -/
def rectangle (core w h : Nat) : Option (List Nat) :=
  if core < Config.cores ∧ core % 12 % 3 + w ≤ 3 ∧ core % 96 / 12 % 4 + h ≤ 4 then
    some ((List.range (w * h)).map fun r => core + r / w * 12 + r % w)
  else none

/-- The cores on which a cluster of a launch fits, from its first core (R302, R419). -/
def State.clusterFits (s : State) (l : Launch) (core : Nat) : Option (List Nat) :=
  let r := l.record
  match rectangle core (recW r) (recH r) with
  | none => none
  | some cs =>
    if s.dieOpen (dieOf core) && cs.all fun c =>
        s.coreFits c (recDim r) l.base (recSlugs r) (recForme r) (recNbar r) then some cs
    else none

/-- The next cluster of a launch whose inputs are satisfied (R302, R351). -/
def State.readyCluster (s : State) (l : Launch) : Option Nat :=
  if recNin l.record = 0 then if l.next < recClusters l.record then some l.next else none
  else l.waiting.find? fun i => (clusterInputs l.record i).all fun t => (s.tileReady l.ctx t).isSome

/-- Whether a launch has saved clusters that come before its unplaced ones (R383). -/
def State.savedFirst (s : State) (key : Nat) (l : Launch) : Bool := !l.hold && s.saved.any fun v => v.cluster.launch == key

/-- Keys of the resident launches: higher priority first, then earlier admission (R347). -/
def State.launchOrder (s : State) : List Nat :=
  (List.range 4).flatMap fun i => s.launchKeys.filter fun k =>
    ((Tab.find k s.launches).map fun l => l.prio == 3 - i).getD false

/-- A team's groups in free slots of their partitions (R295, R303): `j0` holds the live lanes of each group or half (R135). -/
def State.freshGroups (s : State) (core dim : Nat) (split : Bool) : Tab Group :=
  (List.range ((dim + 31) / 32)).map fun g =>
    let p := g % 4
    let used := (s.groupsOn core p).map fun e => e.2.2.slot
    let free := (List.range 16).filter fun i => !used.contains i
    let lanes := min 32 (dim - 32 * g)
    let mask := fun n => { mem := 2 ^ n - 1 : JSet }
    let sets := if split then [(0, mask (min 16 lanes))] ++ (if 16 < lanes then [(16, mask (lanes - 16))] else [])
      else [(0, mask lanes)]
    (g, { part := p, slot := free.getD (g / 4) 0, sets })

/-- Slugs bound at team start (R240). -/
def freshSlugs (n : Nat) : Tab (Tab Word) :=
  (List.range n).foldl (fun t i => Tab.put (slugKey (i % 4) (i / 4)) [] t) []

/-- An allocation takes its place in a core's slice, whose L1 part gives up what it no longer has room for (R52, R91); where
the free bytes are in pieces too small for it, the core's formes first move together. DESIGN CHOICE (log 57). -/
def State.allot (s : State) (key core : Nat) (f : Forme) : State :=
  let s := if (s.formePlace core f.size).isSome then s else s.packFormes core
  let base := (s.formePlace core f.size).getD 0
  ({ s with formes := Tab.put key { f with core, base } s.formes } : State).fitSlice core

/-- Makes a team resident with its forme, all of it as R92 lists, its lines' times 0 (R92, R303). DESIGN CHOICE (log 57).
DEDUCED (log 8). -/
def State.seat (s : State) (core : Nat) (t : Team) (entry : Nat) (init : Nat → Tab Word) : State × Nat :=
  let (key, s) := s.freshKey
  let t := { t with
    place := .core core
    threads := (List.range t.dim).map fun n => (n, { pc := BitVec.ofNat 64 entry, regs := init n })
    groups := s.freshGroups core t.dim t.split, slugs := freshSlugs t.nslug }
  ((s.setTeam key t).allot key core { size := t.forme, cluster := t.cluster, core }, key)

/-- Argument words of a record (R132). -/
def argWords (r : Nat) : Tab Word :=
  (List.range (recNargs r)).foldl (fun t i => Tab.set 0 i (BitVec.ofNat 32 (recField r (2048 + 32 * i) 32)) t) []

/-- The team of a launch at a cluster's rank, as it starts (R302, R303). -/
def launchTeam (key cluster index rank stamp core : Nat) (l : Launch) : Team :=
  let r := l.record
  let (x, y, z) := teamAt r index rank
  { place := .core core, launch := key, cluster, rank, x, y, z, grid := (recGridX r, recGridY r, recGridZ r)
    dim := recDim r, stamp, roles := recRoles r, base := l.base, split := l.split, profile := l.profile
    nbar := recNbar r, nslug := recSlugs r, forme := roundForme (recForme r), system := l.system, k := argWords r }

/-- Places a cluster: its teams in rank order with consecutive stamps, each core's clock raised to the ORD predecessor's
completion and to the times of the team's inputs (R302, R348, R351). -/
def State.placeCluster (s : State) (key index : Nat) (l : Launch) (cores : List Nat) : State :=
  let (ck, s) := s.freshKey
  let (s, teams) := cores.zipIdx.foldl (fun (acc : State × List Nat) (core, rank) =>
    let s := acc.1
    let (x, y, _) := teamAt l.record index rank
    let times := (inputsAt l.record x y).filterMap fun i => s.tileReady l.ctx i
    let s := s.raise core (times.foldl max l.after)
    let (s, k) := s.seat core (launchTeam key ck index rank s.stamp core l) (recEntry l.record) fun _ => []
    ({ s with stamp := s.stamp + 1 }, acc.2 ++ [k])) (s, [])
  let c : Cluster := { launch := key, index, w := recW l.record, h := recH l.record, teams }
  { s with
    clusters := Tab.put ck c s.clusters
    launches := Tab.modify key (fun l =>
      { l with next := if recNin l.record = 0 then index + 1 else l.next, waiting := l.waiting.erase index }) s.launches }

/-! ### Retirement (R93, R304, R306) -/

/-- Whether a team's last thread has ended and no group is held (R306). -/
def Team.done (t : Team) : Bool := (t.threads.all fun (_, th) => !th.live) && t.groups.all fun (_, g) => !g.held

/-- The shares that a team of a launch holds in its inputs (R350, R352). -/
def State.teamLowers (s : State) (t : Team) (l : Launch) : State :=
  if t.depth ≠ 0 then s else (inputsAt l.record t.x t.y).foldl (fun s i => s.lowerInput l.ctx true i) s

/-- A team retires: named barriers, `k` registers and slugs go, shares are given up, and the core's clock counts in the
completion time (R306, R348, R352). -/
def State.retire (s : State) (k : Nat) (t : Team) : State :=
  let time := s.clock t.clockKey
  let s := match Tab.find t.launch s.launches with
    | some l => s.teamLowers t l
    | none => s
  let s := { s with
    teams := Tab.del k s.teams
    launches := Tab.modify t.launch (fun l => { l with time := max l.time time }) s.launches }
  (List.range 4).foldl (fun s p => s.settleSlugs t.core p false 64) s

/-- TEAM_RETIRE (R306). -/
def execTeamRetire (team : Nat) (s : State) : Host.Outcome State Fault Refusal :=
  match s.team? team with
  | some t => if !t.near && t.done then .next (s.retire team t) else notEnabled "TEAM_RETIRE"
  | none => notEnabled "TEAM_RETIRE"

/-- Whether a job's footprint touches the forme window (R93). -/
def Job.touchesForme (j : Job) : Bool :=
  (readSpans j.kind j.card ++ writeSpans j.kind j.card).any fun p => inWindow p.1 || inWindow (p.1 + p.2 - 1)

/-- Whether a cluster's teams have retired and no job touches its allocations (R93). -/
def State.formeFree (s : State) (cluster : Nat) (c : Cluster) : Bool :=
  (c.teams.all fun k => !Tab.has s.teams k) && !s.jobs.any fun (_, j) => j.cluster == cluster && j.touchesForme

/-- FORME_RELEASE (R93). -/
def execFormeRelease (cluster : Nat) (s : State) : Host.Outcome State Fault Refusal :=
  match Tab.find cluster s.clusters with
  | some c =>
    if s.formeFree cluster c then
      .next { s with
        clusters := Tab.del cluster s.clusters
        formes := s.formes.filter fun (k, _) => !c.teams.contains k }
    else notEnabled "FORME_RELEASE"
  | none => notEnabled "FORME_RELEASE"

/-! ### Completion (R306, R344, R348 to R350) -/

/-- Whether no cluster of a launch is left to place. -/
def Launch.allPlaced (l : Launch) : Bool := l.waiting.isEmpty && decide (recClusters l.record ≤ l.next)

/-- Whether a launch has completed: nothing placed, saved, in a bin, in a tracker or in flight (R306). -/
def State.launchDone (s : State) (key : Nat) (l : Launch) : Bool :=
  l.allPlaced && !(s.teams.any fun (_, t) => t.launch == key && !t.near) && !(s.saved.any fun v => v.cluster.launch == key)
    && !(s.jobs.any fun (_, j) => j.launch == key)
    && s.cores.all fun (_, c) =>
      !(c.bins.any fun (_, b) => b.launch == key) && !(c.tracker.any fun (_, e) => e.2.2 == key)

/-- The entries of a completed producer: BOUND is cleared, ABN set where it did not post (R349). -/
def releaseEntry (l : Launch) (e : Imprint) : Imprint :=
  if e.bound && e.launch == l.id && e.ctx == l.ctx then { e with bound := false, abn := !e.posted || e.gen != e.pgen } else e

/-- CODE and REASON of a launch (R344). -/
def Launch.code (l : Launch) : Nat × Nat := if l.cancel then (0xFF, 0) else l.fault.getD (0, 0)

/-- The boundary entry of a launch that has completed, or been cancelled (R350). -/
def Boundary.close (l : Launch) (b : Boundary) : Boundary :=
  if b.launch == l.id && b.ctx == l.ctx then { b with state := if l.cancel then 2 else 1, time := l.time } else b

/-- A launch completes: its entries, its boundary entry, the shares of its stale teams, its completion entry, and what waited
for it (R344, R348 to R350, R352). -/
def State.completeLaunch (s : State) (key : Nat) (l : Launch) : State :=
  let s := { s with
    imprints := s.imprints.map fun (k, e) => (k, releaseEntry l e)
    boundaries := match l.boundary with
      | none => s.boundaries
      | some b => Tab.modify b (Boundary.close l) s.boundaries }
  let s := l.stale.foldl (fun s i => s.lowerCluster l i) s
  let s := s.writeEntry l.queue l.index l.comp l.time (compEntry l.skip l.code.2 l.code.1 l.id l.index l.bnd)
  let s := { s with
    launches := Tab.del key s.launches
    doneTimes := if Tab.find l.queue s.running == some key then Tab.put l.queue l.time s.doneTimes else s.doneTimes
    cores := s.cores.map fun (p : Nat × Core) => (p.1, { p.2 with cancelled := p.2.cancelled.erase key }) }
  s.imprintsChanged

/-- LAUNCH_COMPLETE (R306, R348). A completion entry in device memory waits until its home can take it. -/
def execLaunchComplete (launch : Nat) (s : State) : Host.Outcome State Fault Refusal :=
  match Tab.find launch s.launches with
  | none => notEnabled "LAUNCH_COMPLETE"
  | some l =>
    if !s.launchDone launch l then notEnabled "LAUNCH_COMPLETE"
    else
      match s.compReady l.queue l.comp with
      | (s, false) => .next s
      | (s, true) => .next (s.completeLaunch launch l)

/-! ### Host queue registers (R342, R343) -/

/-- A write to HQCTL (R342, Table 21.1). -/
def State.writeHqctl (s : State) (q v : Nat) : State :=
  let c := s.reg (hqCtl q)
  if Bits.bit c 31 then
    if Bits.bit v 31 then s else (s.setRegField (hqCtl q) 31 1 0).endHeadRead q
  else
    let size := if 4 ≤ v % 32 ∧ v % 32 ≤ 12 then v % 32 else 4
    let low := size + Bits.field v 8 2 * 2 ^ 8 + Bits.field v 11 1 * 2 ^ 11
    if Bits.bit v 31 then (s.setReg (hqCtl q) (low + 2 ^ 31)).setReg (hqDb q) 0
    else s.setReg (hqCtl q) (Bits.field c 30 1 * 2 ^ 30 + Bits.field c 32 16 * 2 ^ 32 + low)

/-- HQCTL_ENABLE (R342). -/
def execHqctlEnable (queue : Nat) (value : DWord) (s : State) : Host.Outcome State Fault Refusal :=
  .next (s.writeHqctl queue value.toNat)

/-- HQCTL_DISABLE (R342). -/
def execHqctlDisable (queue : Nat) (value : DWord) (s : State) : Host.Outcome State Fault Refusal :=
  .next (s.writeHqctl queue value.toNat)

/-- HQDB: the doorbell (R343). -/
def State.doorbell (s : State) (q v : Nat) : State :=
  let tail := v % 2 ^ 16
  if s.hqSlots q < (tail + 2 ^ 16 - s.hqHead q) % 2 ^ 16 then s.setRegField (hqCtl q) 30 1 1
  else s.setReg (hqDb q) tail

/-- HQDB (R343). -/
def execHqdb (queue : Nat) (value : DWord) (s : State) : Host.Outcome State Fault Refusal :=
  .next (s.doorbell queue value.toNat)

/-! ### Cancels (R354, R367, R368) -/

/-- A saved team of a cancelled launch counts as retired: what its retirement lowers, and its core's clock, which its area
holds as LCLOCK, in the launch's completion time (R348, R383). -/
def State.retireSaved (s : State) (key : Nat) (v : SavedTeam) : State :=
  match Tab.find key s.launches with
  | some l =>
    let time := readBytes (s.newest (deviceLine v.base)) 16 8
    let s := s.teamLowers v.team l
    { s with launches := Tab.modify key (fun l => { l with time := max l.time time }) s.launches }
  | none => s

/-- Frees the save area of a saved cluster by forgetting it; its teams count as retired (R383). -/
def State.discardSaved (s : State) (key : Nat) : State :=
  let mine := s.saved.filter fun v => v.cluster.launch == key
  let s := mine.foldl (fun s v => v.teams.foldl (fun s t => s.retireSaved key t) s) s
  { s with saved := s.saved.filter fun v => v.cluster.launch != key }

/-- A cancel: the flag is set, unplaced clusters are dropped and counted in SKIP, saved ones discarded (R352, R354, R383). -/
def State.cancelLaunch (s : State) (key : Nat) : State :=
  match Tab.find key s.launches with
  | none => s
  | some l =>
    if l.cancel then s
    else
      let n := recTeams l.record
      let left := recClusters l.record - l.next
      let s := l.waiting.foldl (fun s i => s.lowerCluster l i) s
      let l' : Launch := { l with
        cancel := true, waiting := [], next := recClusters l.record, skip := l.skip + n * (left + l.waiting.length) }
      ({ s with launches := Tab.put key l' s.launches } : State).discardSaved key

/-- The resident launch with an identifier. -/
def State.launchNamed (s : State) (id : Nat) : Option (Nat × Launch) := s.launches.find? fun (_, l) => l.id == id

/-- LCANCEL: a write that names no resident launch is ignored (R354). -/
def execLcancel (launch : Nat) (s : State) : Host.Outcome State Fault Refusal :=
  match s.launchNamed (launch % 2 ^ 32) with
  | some (key, _) => .next (s.cancelLaunch key)
  | none => .next s

/-- The flag reaches a core: its bins of the launch are purged, each counted in SKIP (R368). -/
def State.flagCore (s : State) (key core : Nat) : State :=
  let c := s.core core
  if c.cancelled.contains key then s
  else
    let gone := (c.bins.filter fun (_, b) => b.launch == key).length
    let s := s.modCore core fun c =>
      { c with cancelled := key :: c.cancelled, bins := c.bins.filter fun (_, b) => b.launch != key }
    { s with launches := Tab.modify key (fun l => { l with skip := l.skip + gone }) s.launches }

/-- CANCEL_FLAG_SET (R368). -/
def execCancelFlagSet (launch core : Nat) (s : State) : Host.Outcome State Fault Refusal :=
  match Tab.find launch s.launches with
  | some l =>
    if l.cancel && !(s.core core).cancelled.contains launch then .next (s.flagCore launch core)
    else notEnabled "CANCEL_FLAG_SET"
  | none => notEnabled "CANCEL_FLAG_SET"

end Sys2Proof.Machine
end

