-- ==== Sys2Proof/Machine/Tasks.lean ====
section
/-! DEFINITION. Spawned tasks, launches from the device, `cancq` (R360 to R368). -/

namespace Sys2Proof.Machine

/-! ### `spawn` (R361, R362) -/

/-- TIMER of SPAWNCFG (Table 22.2). -/
def State.spawnTimer (s : State) : Nat := s.reg 0x104C00 % 2 ^ 16

/-- Whether the header or the footprint of a descriptor would be refused (R300, R362, R388). -/
def descRefused (entry d : Nat) : Bool :=
  entry % 16 != 0 || hdrError (descHdr d) != 0 || Bits.field d 51 13 != 0 || Bits.field d 87 41 != 0
    || decide (458752 < descForme d) || decide (64 < descSlugs d) || descNbar d == 0 || decide (1024 < descNbar d)
    || !fitsEmpty 32 (8 * hdrBdiv8 (descHdr d)) (descSlugs d) (descForme d) (descNbar d)

/-- The open bin with a key: launch, entry, depth (R361). -/
def Core.openBin (c : Core) (launch entry depth : Nat) : Option (Nat × Bin) :=
  c.bins.find? fun (_, b) => b.launch == launch && b.entry == entry && b.depth == depth && b.ready.isNone

/-- Appends a task to a bin, which becomes ready when it holds 32 (R361, R362). -/
def State.appendTask (s : State) (core k : Nat) (b : Bin) (t : Task) : State :=
  let tasks := b.tasks ++ [t]
  let (order, s) := s.fresh
  s.modCore core fun c =>
    { c with bins := Tab.put k { b with tasks, ready := if tasks.length = 32 then some order else none } c.bins }

/-- Offers a task with a known descriptor read: whether it was taken, or how the read stands (R362). -/
def State.offer (s : State) (core launch entry depth : Nat) (t : Task) (read : State → State × DescRead) :
    State × Except (Option Reach) Bool :=
  let c := s.core core
  match c.openBin launch entry depth with
  | some (k, b) => (s.appendTask core k b t, .ok true)
  | none =>
    if 32 ≤ c.bins.length then (s, .ok false)
    else
      match read s with
      | (s, .fault f) => (s, .error (some (.stop (.fault f))))
      | (s, .miss e) => (s, .error (some (.miss e (Bits.ofInt 64 ((entry : Int) - 16)))))
      | (s, .full) => (s, .error (some .full))
      | (s, .busy) => (s, .error (some (.stop (.park .replay))))
      | (s, .ok d) =>
        if descRefused entry d then
          (s, .error (some (.stop (.fault { code := Code.illegalEncoding, info := descHdr d, addr := entry }))))
        else
          let k := Tab.freeKey c.bins 32 0
          (s.appendTask core k { launch, entry, depth, due := s.cycle + s.spawnTimer, desc := d } t, .ok true)

/-- A place holder for a thread that goes on. -/
def goesOn : Reach := .go { va := 0, size := 4, ty := .b32 } (.forme 0 0)

/-- Registers A and B of `spawn` and `launch`, with their sources (R360). -/
def View.pairs (c : View) (o : XOp) (x : XForm) : Lane (Nat × Nat × List Nat) := do
  let r ← c.operands o x 2 2 0
  c.ready r.srcs []
  return (c.th.vs r.a 2, c.th.vs r.b 2, r.srcs)

/-- One thread's `spawn` (R362). A fault leaves the thread's clock and registers as they were (R372). -/
def State.spawnLane (s : State) (c : View) (x : XForm) : State × Reach :=
  let answer := fun (s : State) (b : Bool) => (s.modThread c.id fun th => th.setP x.d.toNat b, goesOn)
  match c.pairs .spawn x with
  | .error e => (s, .stop e)
  | .ok (e, arg, srcs) =>
    let core := c.team.core
    let seen := s.observe c.id srcs
    if c.team.depth = 8 ∨ (s.core core).cancelled.contains c.team.launch then answer seen false
    else if 2 ^ 57 ≤ e then (s, .stop (.fault (protection 1 e)))
    else if e % 4 ≠ 0 then (s, .stop (.fault { code := Code.misaligned, addr := e }))
    else
      let task : Task := { arg, clock := seen.clock core, team := c.id.team }
      match seen.offer core c.team.launch e (c.team.depth + 1) task
          (fun s => s.descriptor c.team.window (s.threadAsker c.id c.team 3) e) with
      | (s, .ok b) => answer s b
      | (s', .error r) => ({ s' with teams := s.teams, clocks := s.clocks }, r.getD goesOn)

/-- Whether a thread that offers a task has a peer write still unacknowledged: the offer waits for it (R362). DEDUCED
(log 67). -/
def State.offerWaits (s : State) (i : Tid) : Bool :=
  match s.view i with
  | some c => c.team.depth != 8 && !(s.core c.team.core).cancelled.contains c.team.launch && !c.th.peerOut.isEmpty
  | none => false

/-- Threads are to issue their instruction again (R297). -/
def State.replayAll (s : State) (ig : IssueGroup) : State :=
  ig.threads.foldl (fun s n => s.modThread { team := ig.team, n } fun th => { th with wait := .replay }) s

/-- `spawn` (R362). A thread that waits for a page walk of its descriptor, for packets on its line, or for its own peer writes,
holds its issue group, which then issues again (R297). DEDUCED (log 29). -/
def execSpawn (x : XForm) (s : State) : Host.Outcome State Fault Refusal :=
  match s.ig with
  | none => .fault .noIssueGroup
  | some ig =>
    if ig.threads.any fun n => s.offerWaits { team := ig.team, n } then
      .next (s.replayAll ig)
    else
      let (s', all) := ig.threads.foldl (fun (acc : State × List (Nat × Reach)) n =>
        match acc.1.view { team := ig.team, n } with
        | none => acc
        | some c => let (s, r) := acc.1.spawnLane c x; (s, acc.2 ++ [(n, r)])) (s, [])
      let held := all.any fun (_, r) =>
        match r with | .full => true | .miss e _ => !s'.isReported e | _ => false
      if all.any fun (_, r) => match r with | .stop (.park .replay) => true | _ => false then .next (s.replayAll ig) else
      let s' : State := if held then { s' with cores := s.cores, teams := s.teams, clocks := s.clocks } else s'
      s'.afterReach ig (ig.pc + 12) all fun s team next go _ => (s.goOn team (go.map (·.1)) next, [])

/-- SPAWN_BIN_TIMER: an open bin's timer expires (R361). -/
def execSpawnBinTimer (core bin : Nat) (s : State) : Host.Outcome State Fault Refusal :=
  match Tab.find bin (s.core core).bins with
  | some b =>
    if b.ready.isNone && decide (b.due ≤ s.cycle) then
      let (order, s) := s.fresh
      .next (s.modCore core fun c => { c with bins := Tab.put bin { b with ready := some order } c.bins })
    else notEnabled "SPAWN_BIN_TIMER"
  | none => notEnabled "SPAWN_BIN_TIMER"

/-! ### Child teams (R363, R364) -/

/-- The child team of a bin, as it starts (R364). -/
def childTeam (cluster stamp core : Nat) (b : Bin) : Team :=
  let h := descHdr b.desc
  { place := .core core, launch := b.launch, cluster, dim := b.tasks.length, stamp, depth := b.depth
    roles := descRoles b.desc, base := 8 * hdrBdiv8 h, split := hdrSplit h, profile := hdrProfile h
    nbar := descNbar b.desc, nslug := descSlugs b.desc, forme := roundForme (descForme b.desc) }

/-- Whether a bin's child team fits a core (R363, R419). -/
def State.childFits (s : State) (core : Nat) (b : Bin) : Bool :=
  s.dieOpen (dieOf core) && s.coreFits core b.tasks.length (8 * hdrBdiv8 (descHdr b.desc)) (descSlugs b.desc)
    (descForme b.desc) (descNbar b.desc)

/-- Places a bin's child team: a 1 × 1 cluster, lane i's `v0`:`v1` holding task i's argument, the core's clock raised to the
greatest clock of its tasks (R126, R364). -/
def State.placeChild (s : State) (core : Nat) (b : Bin) : State :=
  let (ck, s) := s.freshKey
  let s := s.raise core ((b.tasks.map Task.clock).foldl max 0)
  let init := fun n =>
    let arg := ((b.tasks[n]?).map Task.arg).getD 0
    Tab.set 0 1 (BitVec.ofNat 32 (arg / 2 ^ 32)) (Tab.set 0 0 (BitVec.ofNat 32 arg) [])
  let (s, k) := s.seat core (childTeam ck s.stamp core b) b.entry init
  { s with
    stamp := s.stamp + 1
    clusters := Tab.put ck { launch := b.launch, index := 0, teams := [k], child := true } s.clusters }

/-- Ready bins of a core. -/
def Core.readyBins (c : Core) : List (Nat × Bin) := c.bins.filter fun (_, b) => b.ready.isSome

/-- The ready bin that a core places next: higher launch priority, then earlier readiness, among those that fit (R363). -/
def State.nextBin (s : State) (core : Nat) : Option (Nat × Bin) :=
  let prio := fun (b : Bin) => ((Tab.find b.launch s.launches).map Launch.prio).getD 0
  let fits := (s.core core).readyBins.filter fun (_, b) => s.childFits core b
  let top := (fits.map fun (_, b) => prio b).foldl max 0
  leastBy (fun p => p.2.ready.getD 0) (fits.filter fun (_, b) => prio b == top)

/-- SPAWN_BIN_PLACE (R363). -/
def execSpawnBinPlace (core bin : Nat) (s : State) : Host.Outcome State Fault Refusal :=
  match s.nextBin core with
  | some (k, b) =>
    if k = bin then
      .next ((s.modCore core fun c => { c with bins := Tab.del bin c.bins }).placeChild core b)
    else notEnabled "SPAWN_BIN_PLACE"
  | none => notEnabled "SPAWN_BIN_PLACE"

/-- An idle core has no resident group and no ready bin (R363). -/
def State.coreIdle (s : State) (core : Nat) : Bool :=
  (List.range 4).all (fun p => (s.groupsOn core p).isEmpty) && (s.core core).readyBins.isEmpty

/-- The victim that an idle core steals from: round robin in die-local order after its previous victim, or after itself
(R363). -/
def State.victimOf (s : State) (core : Nat) : Option Nat :=
  let first := ((s.core core).victim.getD core) % 96
  ((List.range 96).map fun i => core / 96 * 96 + (first + 1 + i) % 96).find? fun v =>
    v != core && !(s.core v).readyBins.isEmpty

/-- SPAWN_BIN_STEAL: the bin with the most tasks, then the earliest ready (R363). -/
def execSpawnBinSteal (core : Nat) (s : State) : Host.Outcome State Fault Refusal :=
  match if s.coreIdle core then s.victimOf core else none with
  | none => notEnabled "SPAWN_BIN_STEAL"
  | some v =>
    let bins := (s.core v).readyBins
    let most := (bins.map fun (_, b) => b.tasks.length).foldl max 0
    match leastBy (fun p => p.2.ready.getD 0) (bins.filter fun (_, b) => b.tasks.length == most) with
    | none => notEnabled "SPAWN_BIN_STEAL"
    | some (k, b) =>
      if s.childFits core b then
        let s := s.modCore v fun c => { c with bins := Tab.del k c.bins }
        .next ((s.modCore core fun c => { c with victim := some v }).placeChild core b)
      else notEnabled "SPAWN_BIN_STEAL"

/-! ### `launch` (R366) -/

/-- Check on the completion address: device kind (R366), and then check 7 of R177. -/
def State.compCheck (s : State) (r : MemReq) (l : Loc) : Option Trap :=
  match s.destCheck false r l, l with
  | some t, _ => some t
  | none, .device pa =>
    (lineBadRead (s.newest (deviceLine pa)) (pa % 128) r.size).map fun arr => { code := Code.ecc, info := arr, addr := r.va }
  | none, _ => some (protection 9 r.va)

/-- The page, address and size, whose translation a thread has just used for an address. -/
def State.pageOf (s : State) (c : View) (va : Nat) : Nat × Nat :=
  let a := s.threadAsker c.id c.team 0
  ((s.tlbFind a.tlb a.ctx va).map fun e => (e.va, e.size)).getD (0, 0)

/-- What one thread's `launch` has found: whether its queue is full, the completion address, the pieces of the record. -/
structure LaunchReq where
  full : Bool := false
  comp : Option Nat := none
  compPage : Nat × Nat := (0, 0)
  pieces : List (Nat × Loc) := []
  srcs : List Nat := []
  deriving DecidableEq, Repr

/-- The pieces of a record: 32 loads of 16 bytes in ascending address order (R366, step 3). -/
def State.recordPieces (s : State) (c : View) (a : Nat) (q : LaunchReq) : State × Reach × LaunchReq :=
  (List.range 32).foldl (fun (acc : State × Reach × LaunchReq) i =>
    match acc.2.1 with
    | .go _ _ =>
      match acc.1.reach c 0 (fun s => s.destCheck false) { va := a + 16 * i, size := 16, ty := .b128 } with
      | (s, .go r l) => (s, .go r l, { acc.2.2 with pieces := acc.2.2.pieces ++ [(a + 16 * i, l)] })
      | (s, r) => (s, r, q)
    | _ => acc) (s, goesOn, q)

/-- Checks 6 and 7 of R177 on the record address: its line in a forme, its words wherever they are newest (R366, step 1). -/
def State.recordStop (s : State) (va : Nat) (l : Loc) : Option LaneStop :=
  let ecc := fun (bad : Option Nat) => bad.map fun arr => LaneStop.fault { code := Code.ecc, info := arr, addr := va }
  match l with
  | .forme k off => match s.formeCheck k off 16 va false with | .error e => some e | .ok () => none
  | .device pa => ecc (lineBadRead (s.newest (deviceLine pa)) (pa % 128) 16)
  | .host pa => ecc (lineBadRead (s.newest (hostLine pa)) (pa % 128) 16)
  | .platen pa => ecc (s.badRead pa 16)
  | .peer .. | .io _ => none

/-- One thread's `launch` as far as its addresses: the checks, then fullness, then the pieces of the record. `held` counts
what the queue holds and the places that records still being read have taken (R366). -/
def State.launchLane (s : State) (c : View) (x : XForm) (held : Nat) : State × Reach × LaunchReq :=
  let req := fun va => ({ va, size := 16, ty := .b128 } : MemReq)
  let stop := fun (t : Trap) => (s, Reach.stop (.fault t), ({} : LaunchReq))
  match c.pairs .launch x with
  | .error e => (s, .stop e, {})
  | .ok (a, b, srcs) =>
    if a % 64 ≠ 0 then stop { code := Code.misaligned, addr := a }
    else if b % 16 ≠ 0 then stop { code := Code.misaligned, addr := b }
    else
      let first := s.reach c 0 (fun s => s.destCheck false) (req a)
      let comp : State × Reach := match first with
        | (s, .go _ l) =>
          match s.recordStop a l with
          | some e => (s, Reach.stop e)
          | none => if b = 0 then (s, goesOn) else s.reach c 0 State.compCheck (req b)
        | r => r
      let dest := match comp.2 with | .go _ (.device pa) => if b = 0 then none else some pa | _ => none
      match comp with
      | (s, .go _ _) =>
        if 64 ≤ held then (s, goesOn, { full := true, srcs }) else s.recordPieces c a { comp := dest, compPage := s.pageOf c b, srcs }
      | (s, r) => (s, r, {})

/-- Records that a device queue holds or that threads are reading for it (R366). DESIGN CHOICE (log 56). -/
def State.queueHolds (s : State) (q : Nat) : Nat :=
  (Tab.getD s.devQueues q []).length + (s.teams.map fun (_, t) =>
    (t.threads.filter fun (_, th) => (th.launching.map Launching.queue) == some q).length).sum

/-- Each thread's `launch`, in ascending lane order: one that goes on takes a place in the queue (R366). -/
def State.launchLanes (s : State) (ig : IssueGroup) (x : XForm) (q : Nat) : State × List (Nat × Reach × LaunchReq) :=
  let before := s.queueHolds q
  ig.threads.foldl (fun (acc : State × List (Nat × Reach × LaunchReq)) n =>
    match acc.1.view { team := ig.team, n } with
    | none => acc
    | some c =>
      let taken := (acc.2.filter fun e => !e.2.2.pieces.isEmpty).length
      let (s, r) := acc.1.launchLane c x (before + taken)
      (s, acc.2 ++ [(n, r)])) (s, [])

/-- `launch`, performed after the thread's earlier accesses: a full queue answers false; otherwise the record is read in 32
loads and enqueued (R366, R370). DEDUCED (log 67). -/
def execLaunch (x : XForm) (s : State) : Host.Outcome State Fault Refusal :=
  match s.ig with
  | none => .fault .noIssueGroup
  | some ig =>
    if ig.threads.any fun n => s.unperformed { team := ig.team, n } then .next (s.replayAll ig) else
    let q := x.imm.toNat % 16
    let (s, all) := s.launchLanes ig x q
    let found := fun (n : Nat) => ((all.find? fun p => p.1 == n).map fun p => p.2.2).getD {}
    s.afterReach ig (ig.pc + 12) (all.map fun (n, r, _) => (n, r)) fun s team next go _ =>
      let s := go.foldl (fun s (n, _, _) =>
        let f := found n
        (s.observe { team, n } f.srcs).modThread { team, n } fun th =>
          if f.full then { th.setP x.d.toNat false with launching := none }
          else { th with launching := some { queue := q, pred := x.d.toNat, comp := f.comp, compPage := f.compPage } }) s
      let accs : List Access := go.flatMap fun (n, _, _) => (found n).pieces.zipIdx.map fun (p, i) =>
        { tid := n, va := p.1, loc := p.2, size := 16, ty := .b128, dreg := i }
      s.startOp { team, kind := .record, hint := 0, scope := 0, accs, threads := go.map (·.1), next }

/-! ### `cancq` (R367) -/

/-- `cancq` (R367). -/
def execCancq (x : XForm) (s : State) : Host.Outcome State Fault Refusal :=
  execSeq x.words none (fun s c =>
    .ok (s.modThread c.id fun th => th.setP x.d.toNat ((s.core c.team.core).cancelled.contains c.team.launch))) s

/-- `cancq.self`: the executing core's flag is set before it completes (R367, R368). -/
def execCancqSelf (x : XForm) (s : State) : Host.Outcome State Fault Refusal :=
  execSeq x.words none (fun s c => .ok ((s.cancelLaunch c.team.launch).flagCore c.team.launch c.team.core)) s

/-- `cancq.id`: a launch of the thread's own context (R367). -/
def execCancqId (x : XForm) (s : State) : Host.Outcome State Fault Refusal :=
  execSeq x.words none (fun s c => do
    let r ← c.operands .cancqId x 1 0 0
    let s ← s.claimRegs c r.srcs []
    match s.launchNamed (c.th.vs r.a 1) with
    | some (key, l) => return if l.ctx = s.ctxOf c.team then s.cancelLaunch key else s
    | none => return s) s

end Sys2Proof.Machine
end

