-- ==== Sys2Proof/Machine/Save.lean ====
section
/-! DEFINITION. The context save area: its layout, what is written into it and what is read back (R382, Tables 23.6 and 23.7,
R191, R241, R336, R365). -/

namespace Sys2Proof.Machine

/-! ### Layout -/

/-- The counts that fix an area's layout. -/
structure SaveShape where
  groups : Nat
  regs : List Nat                       -- b + x of each group
  nbar : Nat
  nslug : Nat
  forme : Nat
  nwait : Nat
  ntask : Nat
  deriving DecidableEq, Repr

/-- A size rounded up to 4 KiB. -/
def pad4k (n : Nat) : Nat := (n + 4095) / 4096 * 4096

/-- Sizes of the sections in order: header, threads, groups, lane registers, uniform, named barriers, forme, galley, wait
entries, spawn tasks (Table 23.7). -/
def SaveShape.sizes (h : SaveShape) : List Nat :=
  [4096, 2048 * h.groups, 128 * h.groups, 128 * h.regs.sum, 512, 8 * h.nbar, h.forme + 32 * (h.forme / 128),
   64 + 4096 * h.nslug, 32 * h.nwait, 32 * h.ntask]

/-- Where section `k` begins; 10 sections make the whole area. -/
def SaveShape.at (h : SaveShape) (k : Nat) : Nat := ((h.sizes.take k).map pad4k).sum

/-- Hardware groups of a team. -/
def Team.groupCount (t : Team) : Nat := (t.dim + 31) / 32

/-- Bound slug names, in order of partition and name: the slug list (Table 23.7). -/
def Team.slugList (t : Team) : List (Nat × Tab Word) := t.slugs.filter fun p => p.1 < 64

/-- The layout of a team's area. -/
def Team.shape (t : Team) (nwait ntask : Nat) : SaveShape :=
  { groups := t.groupCount
    regs := (List.range t.groupCount).map fun g => t.base + ((Tab.find g t.groups).map Group.x).getD 0
    nbar := t.nbar, nslug := t.slugList.length, forme := t.forme, nwait, ntask }

/-! ### Values written -/

/-- A piece of a section: offset, bytes, value. -/
abbrev Field := Nat × Nat × Nat

/-- The 64 bytes of a thread. -/
def Thread.saved (th : Thread) : Nat :=
  let (bw, bar, ph) := match th.wait with | .barrier b p => (1, b, p.toNat) | _ => (0, 0, 0)
  th.pc.toNat + th.preds.toNat * 2 ^ 64 + th.fpflags.toNat * 2 ^ 72 + th.handler.toNat * 2 ^ 77 + th.live.toNat * 2 ^ 78
    + bw * 2 ^ 79 + bar % 2 ^ 10 * 2 ^ 80 + ph * 2 ^ 90 + th.tcause.toNat * 2 ^ 96 + th.tpc.toNat * 2 ^ 128
    + th.taddr.toNat * 2 ^ 192 + th.tinfo.toNat * 2 ^ 256

/-- The fields of a thread as an area gives them. A thread that does not wait on a barrier there keeps what it waits for. -/
def Thread.restored (th : Thread) (v : Nat) : Thread :=
  let wait :=
    if Bits.bit v 79 then .barrier (Bits.field v 80 10) (Bits.bit v 90)
    else match th.wait with | .barrier .. => .ready | w => w
  { th with
    pc := BitVec.ofNat 64 v, preds := BitVec.ofNat 7 (v / 2 ^ 64), fpflags := BitVec.ofNat 5 (v / 2 ^ 72)
    handler := Bits.bit v 77, live := Bits.bit v 78, tcause := BitVec.ofNat 32 (v / 2 ^ 96)
    tpc := BitVec.ofNat 64 (v / 2 ^ 128), taddr := BitVec.ofNat 64 (v / 2 ^ 192), tinfo := BitVec.ofNat 32 (v / 2 ^ 256)
    wait }

/-- The 128 bytes of a hardware group. -/
def Team.savedGroup (t : Team) (g : Nat) (gr : Group) : Nat :=
  let mem := fun k => (Tab.getD gr.sets k {}).mem
  g + g % 4 * 2 ^ 5 + gr.x / 64 * 2 ^ 8 + t.split.toNat * 2 ^ 13 + Bits.maskOf ((t.hwLive g).map (· % 32)) * 2 ^ 32
    + gr.mmaq % 2 ^ 32 * 2 ^ 64
    + ((List.range 16).map fun n =>
        (if t.split then mem n % 2 ^ 16 + mem (16 + n) % 2 ^ 16 * 2 ^ 16 else mem n % 2 ^ 32) * 2 ^ (512 + 32 * n)).sum

/-- A group's count and member masks as an area gives them; arrived masks stay as they are. -/
def Group.restored (gr : Group) (split : Bool) (v : Nat) : Group :=
  let put := fun (sets : Tab JSet) (k m : Nat) => Tab.set {} k { Tab.getD sets k {} with mem := m } sets
  let sets := (List.range 16).foldl (fun sets n =>
    let m := Bits.field v (512 + 32 * n) 32
    if split then put (put sets n (m % 2 ^ 16)) (16 + n) (m / 2 ^ 16) else put sets n m) gr.sets
  { gr with mmaq := Bits.field v 64 32, sets }

/-- Lane registers of a group: register `n` of lane `l` at (32n + l) × 4. -/
def Team.savedLanes (t : Team) (g : Nat) : List Field :=
  (t.hwLive g).flatMap fun m =>
    ((((Tab.find m t.threads).map Thread.regs).getD []).filter fun p => p.1 < t.alloc m).map fun p =>
      ((32 * p.1 + m % 32) * 4, 4, p.2.toNat)

/-- The registers of a lane of a group's `n` registers. -/
def restoredLanes (img : LineData) (base lane n : Nat) : Tab Word :=
  (List.range n).foldl (fun r i =>
    Tab.set 0 i (BitVec.ofNat 32 (readBytes img (base + (32 * i + lane) * 4) 4)) r) []

/-- Uniform registers, then their writer records (R133). -/
def Team.savedUniform (t : Team) : List Field :=
  t.k.map (fun p => (4 * p.1, 4, p.2.toNat)) ++ t.kw.map fun p => (256 + p.1, 1, p.2)

/-- The 8 bytes of a named barrier. -/
def Barrier.saved (b : Barrier) : Nat :=
  b.phase.toNat + b.latch.isSome.toNat * 2 + b.latch.getD 0 % 2 ^ 11 * 2 ^ 2 + b.count % 2 ^ 11 * 2 ^ 13

/-- A named barrier as an area gives it. -/
def Barrier.restored (v : Nat) : Barrier :=
  { phase := Bits.bit v 0, latch := if Bits.bit v 1 then some (Bits.field v 2 11) else none, count := Bits.field v 13 11 }

/-- A bit of each of the 32 words of a line as a mask. -/
def lineMask (t : Tab Bool) (ln : Nat) : Nat :=
  Bits.maskOf ((List.range 32).filter fun i => Tab.getD t (32 * ln + i) false)

/-- Replaces the bits of a line's words. -/
def putLineMask (t : Tab Bool) (ln m : Nat) : Tab Bool :=
  (List.range 32).foldl (fun t i => Tab.set false (32 * ln + i) (Bits.bit m i) t) t

/-- The 32 bytes of tags of a forme line. -/
def Forme.savedTags (f : Forme) (ln : Nat) : Nat :=
  lineMask f.full ln + lineMask f.tag ln * 2 ^ 32 + f.presence ln % 4 * 2 ^ 64
    + Tab.getD f.wts ln 0 % 2 ^ 64 * 2 ^ 128 + Tab.getD f.rts ln 0 % 2 ^ 64 * 2 ^ 192

/-- A forme: its bytes, then its lines' tags. -/
def Forme.saved (f : Forme) : List Field :=
  f.data.map (fun p => (p.1, 1, p.2.toNat)) ++
    (List.range (f.size / 128)).map fun ln => (f.size + 32 * ln, 32, f.savedTags ln)

/-- The tags of a line as an area gives them. Presence bits 11, which never occur (R99), leave the line's state as it was.
DESIGN CHOICE (log 71). -/
def Forme.restoredTags (f : Forme) (ln v : Nat) : Forme :=
  { f with
    full := putLineMask f.full ln (v % 2 ^ 32), tag := putLineMask f.tag ln (Bits.field v 32 32)
    pres := if Bits.field v 64 2 = 3 then f.pres else Tab.set 0 ln (Bits.field v 64 2) f.pres
    wts := Tab.set 0 ln (Bits.field v 128 64) f.wts, rts := Tab.set 0 ln (Bits.field v 192 64) f.rts }

/-- A forme as an image at `base` gives it. -/
def Forme.restored (f : Forme) (img : LineData) (base : Nat) : Forme :=
  (List.range (f.size / 128)).foldl (fun f ln => f.restoredTags ln (readBytes img (base + f.size + 32 * ln) 32))
    { f with data := ((img.filter fun p => base ≤ p.1 && p.1 < base + f.size).map fun p => (p.1 - base, p.2)) }

/-- A galley section of a slug list: which slug each name is bound to, then the slugs' words (R241). -/
def savedGalley (slugs : List (Nat × Tab Word)) : List Field :=
  (List.range 64).map (fun i =>
    let k := slugs.findIdx fun p => p.1 == i
    (i, 1, if k < slugs.length then k else 0xFF)) ++
  slugs.zipIdx.flatMap fun (p, k) => p.2.map fun w => (64 + 4096 * k + 4 * w.1, 4, w.2.toNat)

/-- A slug's words as an image gives them. -/
def restoredSlug (img : LineData) (base : Nat) : Tab Word :=
  (List.range 1024).foldl (fun t w => Tab.set 0 w (BitVec.ofNat 32 (readBytes img (base + 4 * w) 4)) t) []

/-- The bindings and words of a galley section. -/
def restoredGalley (img : LineData) (base nslug : Nat) : Tab (Tab Word) :=
  (List.range 64).foldl (fun t i =>
    let k := readBytes img (base + i) 1
    if k < nslug then Tab.put i (restoredSlug img (base + 64 + 4096 * k)) t else t) []

/-- The 32 bytes of a wait entry. -/
def WaitEntry.saved (w : WaitEntry) : Nat :=
  w.va % 2 ^ 64 + w.mask % 2 ^ 64 * 2 ^ 64 + w.expect % 2 ^ 64 * 2 ^ 128 + w.cmp % 8 * 2 ^ 192
    + (w.size == 8).toNat * 2 ^ 195 + w.pred % 8 * 2 ^ 196 + w.tid.n % 32 * 2 ^ 199 + w.tid.n / 32 % 32 * 2 ^ 204

/-- A wait entry as an area gives it: its address is virtual, and its physical address follows the page it was first installed
on. DESIGN CHOICE (log 84). -/
def WaitEntry.restored (w : WaitEntry) (v : Nat) : WaitEntry :=
  { w with
    va := v % 2 ^ 64, addr := w.addr / 4096 * 4096 + v % 4096, mask := Bits.field v 64 64, expect := Bits.field v 128 64
    cmp := Bits.field v 192 3, size := if Bits.bit v 195 then 8 else 4, pred := Bits.field v 196 3
    tid := { w.tid with n := Bits.field v 204 5 * 32 + Bits.field v 199 5 } }

/-- The 32 bytes of a spawn task, held as a bin of its own. -/
def Bin.saved (b : Bin) : Nat :=
  let t := b.tasks.head?
  b.entry % 2 ^ 64 + (t.map Task.arg).getD 0 % 2 ^ 64 * 2 ^ 64 + (t.map Task.clock).getD 0 % 2 ^ 64 * 2 ^ 128
    + b.depth % 16 * 2 ^ 192

/-- A spawn task as an area gives it. -/
def Bin.restored (b : Bin) (v : Nat) : Bin :=
  { b with
    entry := v % 2 ^ 64, depth := Bits.field v 192 4
    tasks := b.tasks.map fun t => { t with arg := Bits.field v 64 64, clock := Bits.field v 128 64 } }

/-- The header (Table 23.6). -/
def savedHeader (v : SavedTeam) (c : Cluster) (last : Bool) (launch lclock area : Nat) : Nat :=
  let t := v.team
  1 + v.rank % 16 * 2 ^ 8 + (c.w - 1) % 4 * 2 ^ 12 + (c.h - 1) % 4 * 2 ^ 14 + last.toNat * 2 ^ 16 + launch % 2 ^ 32 * 2 ^ 32
    + t.stamp % 2 ^ 64 * 2 ^ 64 + lclock % 2 ^ 64 * 2 ^ 128 + t.x % 2 ^ 32 * 2 ^ 192 + t.y % 2 ^ 32 * 2 ^ 224
    + t.z % 2 ^ 32 * 2 ^ 256 + t.dim % 2 ^ 11 * 2 ^ 288 + t.base % 2 ^ 11 * 2 ^ 299 + t.nbar % 2 ^ 11 * 2 ^ 310
    + t.slugList.length % 2 ^ 7 * 2 ^ 321 + t.forme % 2 ^ 19 * 2 ^ 352 + v.waits.length % 2 ^ 32 * 2 ^ 384
    + v.tasks.length % 2 ^ 32 * 2 ^ 416 + area % 2 ^ 32 * 2 ^ 448

/-- Moves fields by an offset. -/
def shift (off : Nat) (fs : List Field) : List Field := fs.map fun f => (off + f.1, f.2)

/-- The thread and group sections' fields of a team, and its groups' lane registers. -/
def Team.savedThreads (t : Team) : List Field := t.threads.map fun (n, th) => (n * 64, 64, th.saved)
def Team.savedGroups (t : Team) : List Field := t.groups.map fun (g, gr) => (128 * g, 128, t.savedGroup g gr)
def Team.savedBars (t : Team) : List Field :=
  (t.bars.filter fun p => p.1 < t.nbar).map fun (b, v) => (8 * b, 8, v.saved)

/-- The bytes that fields leave. -/
def imageOf (fs : List Field) : LineData := fs.foldl (fun m f => writeBytes m f.1 f.2.1 f.2.2) []

/-- The layout of a saved team's area. -/
def SavedTeam.shape (v : SavedTeam) : SaveShape := v.team.shape v.waits.length v.tasks.length

/-- The whole area of a team. -/
def SavedTeam.image (v : SavedTeam) (c : Cluster) (f : Forme) (last : Bool) (launch lclock : Nat) : LineData :=
  let h := v.shape
  let t := v.team
  let lanes := (List.range h.groups).flatMap fun g => shift (128 * (h.regs.take g).sum) (t.savedLanes g)
  imageOf
    ((0, 4096, savedHeader v c last launch lclock (h.at 10)) ::
      (shift (h.at 1) t.savedThreads ++ shift (h.at 2) t.savedGroups ++ shift (h.at 3) lanes
        ++ shift (h.at 4) t.savedUniform ++ shift (h.at 5) t.savedBars ++ shift (h.at 6) f.saved
        ++ shift (h.at 7) (savedGalley t.slugList)
        ++ shift (h.at 8) (v.waits.zipIdx.map fun (w, i) => (32 * i, 32, w.saved))
        ++ shift (h.at 9) (v.tasks.zipIdx.map fun (b, i) => (32 * i, 32, b.saved))))

/-! ### Values read back -/

/-- Threads, groups and lane registers from an image: `a1`, `a2`, `a3` say where the sections begin. -/
def Team.restoredGroup (t : Team) (img : LineData) (g a1 a2 a3 : Nat) : Team :=
  let t := (t.threads.filter fun p => t.hw p.1 == g).foldl (fun (t : Team) (p : Nat × Thread) =>
    let th := p.2.restored (readBytes img (a1 + p.1 % 32 * 64) 64)
    { t with threads := Tab.put p.1 { th with regs := restoredLanes img a3 (p.1 % 32) (t.alloc p.1) } t.threads }) t
  t.modGroup g fun gr => gr.restored t.split (readBytes img a2 128)

/-- Uniform registers, writer records and named barriers from an image. -/
def Team.restoredUniform (t : Team) (img : LineData) (a4 a5 : Nat) : Team :=
  { t with
    k := (List.range 64).foldl (fun k i => Tab.set 0 i (BitVec.ofNat 32 (readBytes img (a4 + 4 * i) 4)) k) []
    kw := (List.range 64).foldl (fun k i => Tab.set 0 i (readBytes img (a4 + 256 + i) 1) k) []
    bars := (List.range t.nbar).foldl (fun b i => Tab.set {} i (Barrier.restored (readBytes img (a5 + 8 * i) 8)) b) [] }

/-- A saved team as its area gives it. -/
def SavedTeam.read (v : SavedTeam) (img : LineData) : SavedTeam :=
  let h := v.shape
  let t := (List.range h.groups).foldl (fun t g =>
    t.restoredGroup img g (h.at 1 + 2048 * g) (h.at 2 + 128 * g) (h.at 3 + 128 * (h.regs.take g).sum)) v.team
  let t := t.restoredUniform img (h.at 4) (h.at 5)
  { v with
    team := { t with
      slugs := restoredGalley img (h.at 7) h.nslug, stamp := readBytes img 8 8, x := readBytes img 24 4
      y := readBytes img 28 4, z := readBytes img 32 4 }
    waits := v.waits.zipIdx.map fun (w, i) => w.restored (readBytes img (h.at 8 + 32 * i) 32)
    tasks := v.tasks.zipIdx.map fun (b, i) => b.restored (readBytes img (h.at 9 + 32 * i) 32) }

/-! ### The area in memory -/

/-- The bytes of an area wherever they are newest. -/
def State.readArea (s : State) (base bytes : Nat) : LineData :=
  (List.range (bytes / 128)).flatMap fun i =>
    (lineBytes (s.newest (deviceLine base + i))).map fun p => (128 * i + p.1, p.2)

/-- The uncorrectable lines of an area that is read back are logged, and their stored bits are taken (R37). DESIGN CHOICE
(log 69). -/
def State.logArea (s : State) (base bytes : Nat) : State :=
  (List.range (bytes / 128)).foldl (fun s i => s.logLine (s.newest (deviceLine base + i))) s

/-- Writes an area as device stores at the home slices, as far as that is possible now; whether all of it is written. -/
def State.writeArea (s : State) (base bytes pts : Nat) (img : LineData) : State × Bool :=
  (List.range (bytes / 128)).foldl (fun (acc : State × Bool) i =>
    let ln := deviceLine base + i
    match acc.1.homeReady ln true with
    | (s, false) => (s, false)
    | (s, true) => ((s.homeStore ln pts (lineOf img (128 * i))).1, acc.2)) (s, true)

end Sys2Proof.Machine
end

