-- ==== Sys2Proof/Machine/Preempt.lean ====
section
/-! DEFINITION. Placement of clusters, pre-emption, restore, stopped teams, `halt` (R302, R340, R347, R379 to R383). -/

namespace Sys2Proof.Machine

/-! ### Save pools (Table 23.3) -/

def savePool (ctx : Nat) : Nat := 0x105400 + 8 * ctx

/-- What a context's pool already holds: base and size of each run of areas. -/
def State.poolTaken (s : State) (ctx : Nat) : List (Nat × Nat) :=
  let mine := fun key => ((Tab.find key s.launches).map fun (l : Launch) => l.ctx == ctx).getD false
  (s.saved.filter fun v => mine v.cluster.launch).map Saved.area
    ++ s.clusters.filterMap fun (_, c) => if mine c.launch then c.pool else none

/-- The first place in a context's pool for `n` bytes of areas, in ascending address (R382). A pool that device memory does
not back has no room. DEDUCED (log 30). -/
def State.poolPlace (s : State) (ctx n : Nat) : Option Nat :=
  let p := s.reg (savePool ctx)
  let base := Bits.field p 24 28 * 2 ^ 24
  let size := Bits.field p 12 12 * 2 ^ 24
  let taken := s.poolTaken ctx
  let starts := base :: taken.map fun r => r.1 + r.2
  leastBy id (starts.filter fun b =>
    decide (base ≤ b) && decide (b + n ≤ base + size) && isBacked b && isBacked (b + n - 1)
      && taken.all fun r => decide (b + n ≤ r.1) || decide (r.1 + r.2 ≤ b))

/-! ### Stop and rewind (R380, R381) -/

/-- The wait entries of a team, and the spawn tasks that it offered and that still sit in bins, each a bin of its own
(R191, R365). -/
def State.waitsOf (s : State) (k : Nat) : List WaitEntry :=
  s.homes.flatMap fun (_, h) => (h.waits.filter fun (_, w) => w.tid.team == k).map (·.2)
def State.tasksOf (s : State) (k : Nat) : List Bin :=
  s.cores.flatMap fun (_, c) => c.bins.flatMap fun (_, b) =>
    (b.tasks.filter fun t => t.team == k).map fun t => { b with tasks := [t], ready := none }

/-- What a waiting thread is saved as (R381): barrier waits stay, futures are resolved by the drain, an installed `waddr`
keeps its entry until the save; every other wait is rewound to its instruction. -/
def Thread.rewound (th : Thread) : Thread :=
  match th.wait with
  | .ready | .mem _ | .future _ | .barrier .. | .address .. => { th with linked := none }
  | _ => { th with wait := .ready, age := 0, urgent := false, linked := none }

/-- A team's lanes parked in `jwait` are cleared from the arrived masks; its claims, slug requests and quad waits are
withdrawn (R130, R256, R323). -/
def Team.withdraw (t : Team) : Team :=
  { t with
    groups := t.groups.map fun (p : Nat × Group) =>
      (p.1, { p.2 with claim := none, quad := none, sets := p.2.sets.filterMap fun (q : Nat × JSet) =>
        if q.2.mem = 0 then none else some (q.1, { q.2 with arr := 0 }) })
    slugAsk := [] }

/-- Settles what the partitions of a core hold, after a team has given up claims, slugs, registers or a rendezvous: slugs freed
and no longer in use return (R129, R251, R253). -/
def State.settleCore (s : State) (core : Nat) : State :=
  let s := (s.teamsOn core).foldl (fun s (k, _) => s.reapSlugs core k) s
  (List.range 4).foldl (fun s p => (s.settleClaims core p).settleSlugs core p false 64) s

/-- A team's threads no longer wait for forme words. -/
def State.unpark (s : State) (k : Nat) : State :=
  { s with formes := s.formes.map fun (p : Nat × Forme) =>
      (p.1, { p.2 with waiters := p.2.waiters.filter fun w => w.tid.team != k }) }

/-- Steps 1 and 2 for a team: it issues no more, and is rewound (Table 23.5, R381). DEDUCED (log 30). -/
def State.stopTeam (s : State) (k : Nat) : State :=
  let s := (s.modTeam k fun t => { t with preempt := true }).rewindOps k
  let s := (s.unpark k).modTeam k fun t =>
    { t.withdraw with threads := t.threads.map fun (p : Nat × Thread) => (p.1, p.2.rewound) }
  match s.team? k with
  | some t => s.settleCore t.core
  | none => s

/-- The resident teams of a cluster with their ranks. -/
def State.rankTeams (s : State) (c : Cluster) : List (Nat × Nat × Team) :=
  c.teams.zipIdx.filterMap fun (k, r) => (s.team? k).map fun t => (r, k, t)

/-- Bytes of a cluster's areas as it stands. -/
def State.areaNeed (s : State) (c : Cluster) : Nat :=
  ((s.rankTeams c).map fun (_, k, t) => (t.shape (s.waitsOf k).length (s.tasksOf k).length).at 10).sum

/-- Pre-empts a cluster: room in the pool is set aside and its teams stop, or it is passed over and runs on (R380).
DEDUCED (log 30). -/
def State.preemptCluster (s : State) (key : Nat) : State :=
  match Tab.find key s.clusters with
  | none => s
  | some c =>
    if (s.rankTeams c).isEmpty || c.pool.isSome then s
    else
      let n := s.areaNeed c
      match s.poolPlace (((Tab.find c.launch s.launches).map Launch.ctx).getD 0) n with
      | none => { s with busy := { s.busy with left := s.busy.left + 1 } }
      | some base =>
        let s := { s with clusters := Tab.put key { c with pool := some (base, n) } s.clusters }
        c.teams.foldl (fun s k => s.stopTeam k) s

def preemptReg : Nat := 0x105018

/-- A write to PREEMPT (R380, Table 23.3). -/
def State.writePreempt (s : State) (v : Nat) : State :=
  let id := v % 2 ^ 32
  let s := s.setReg preemptReg (v % 2 ^ 33)
  match s.launchNamed id with
  | none => s
  | some (key, l) =>
    let s := { s with launches := Tab.put key { l with hold := Bits.bit v 32 } s.launches }
    if Bits.bit v 33 && s.busy.preempt.isNone then
      let s := { s with busy := { s.busy with preempt := some id, saved := 0, left := 0 } }
      (s.clusters.filter fun (_, c) => c.launch == key).foldl (fun s (k, _) => s.preemptCluster k) s
    else s

/-- PREEMPT_GO (R380). -/
def execPreemptGo (value : DWord) (s : State) : Host.Outcome State Fault Refusal := .next (s.writePreempt value.toNat)

/-- PREEMPT_HOLD (R380). -/
def execPreemptHold (value : DWord) (s : State) : Host.Outcome State Fault Refusal := .next (s.writePreempt value.toNat)

/-! ### Drain, save, release (R382) -/

/-- Whether step 3 has come to its end for a cluster: no access, job, matrix operation or platen call of its teams is under
way. -/
def State.drained (s : State) (key : Nat) (c : Cluster) : Bool :=
  !(s.memops.any fun (_, o) => c.teams.contains o.team) && !(s.jobs.any fun (_, j) => j.cluster == key)
    && !(s.matrix.any fun (_, q) => q.any fun m => c.teams.contains m.team)
    && !(s.platens.any fun (_, p) => p.calls.any fun (_, d) => c.teams.contains d.tid.team)
    && (s.rankTeams c).all fun (_, _, t) => t.threads.all fun (_, th) =>
      th.peerOut.isEmpty && th.hostOut.isEmpty && th.ioOut.isEmpty

/-- A thread with an installed `waddr` is saved at its instruction (R191). -/
def Thread.unwatch (th : Thread) : Thread := match th.wait with | .address .. => { th with wait := .ready } | _ => th

/-- The records of a cluster's teams, their areas consecutive in rank order (R382). -/
def State.savedTeams (s : State) (c : Cluster) (base : Nat) : List SavedTeam :=
  ((s.rankTeams c).foldl (fun (acc : Nat × List SavedTeam) e =>
    let team := { e.2.2 with threads := e.2.2.threads.map fun (p : Nat × Thread) => (p.1, p.2.unwatch), preempt := false }
    let v : SavedTeam :=
      { key := e.2.1, rank := e.1, base := acc.1, team, waits := s.waitsOf e.2.1, tasks := s.tasksOf e.2.1 }
    (acc.1 + v.shape.at 10, acc.2 ++ [v])) (base, [])).2

/-- Takes a team's spawn tasks out of the bins; a bin left empty is freed (R365). -/
def Core.dropTasks (c : Core) (k : Nat) : Core :=
  { c with bins := c.bins.filterMap fun (p : Nat × Bin) =>
      let ts := p.2.tasks.filter fun t => t.team != k
      if ts.isEmpty then none else some (p.1, { p.2 with tasks := ts }) }

/-- Step 5: releases a saved team (Table 23.5). -/
def State.releaseTeam (s : State) (v : SavedTeam) : State :=
  let s := (s.dropWaits v.key)
  ({ s with
     teams := Tab.del v.key s.teams
     cores := s.cores.map fun (p : Nat × Core) => (p.1, p.2.dropTasks v.key) } : State).settleCore v.team.core

/-- Steps 4 and 5: the areas are written, the cluster is released (R382). -/
def State.saveCluster (s : State) (key : Nat) (c : Cluster) (base size : Nat) : State :=
  let vs := s.savedTeams c base
  let id := ((Tab.find c.launch s.launches).map Launch.id).getD 0
  let (s', ok) := vs.foldl (fun (acc : State × Bool) v =>
    let lclock := s.clock v.team.core
    let last := vs.all fun w => decide (w.rank ≤ v.rank)
    let (s', ok) := acc.1.writeArea v.base (v.shape.at 10) lclock (v.image c (s.forme v.key) last id lclock)
    (s', acc.2 && ok)) (s, true)
  if !ok then s'
  else
    let formes := s.formes.filter fun (k, _) => c.teams.contains k
    let sv : Saved := { cluster := { c with pool := none }, key, teams := vs, formes, area := (base, size) }
    let s := vs.foldl (fun s v => s.releaseTeam v) s'
    let s := { s with
      formes := s.formes.filter fun (k, _) => !c.teams.contains k, clusters := Tab.del key s.clusters
      saved := s.saved ++ [sv], busy := { s.busy with saved := s.busy.saved + 1 } }
    if ((Tab.find c.launch s.launches).map Launch.cancel).getD false then s.discardSaved c.launch else s

/-- PREEMPT_SAVE (R382). The step waits while a home cannot take a line of an area. -/
def execPreemptSave (cluster : Nat) (s : State) : Host.Outcome State Fault Refusal :=
  match Tab.find cluster s.clusters with
  | some c =>
    match c.pool with
    | some (base, size) =>
      if s.drained cluster c then .next (s.saveCluster cluster c base size) else notEnabled "PREEMPT_SAVE"
    | none => notEnabled "PREEMPT_SAVE"
  | none => notEnabled "PREEMPT_SAVE"

/-- PREEMPT_DONE: every cluster has been saved or passed over (R380). -/
def execPreemptDone (s : State) : Host.Outcome State Fault Refusal :=
  match s.busy.preempt with
  | none => notEnabled "PREEMPT_DONE"
  | some id =>
    if s.clusters.any fun (_, c) => c.pool.isSome then notEnabled "PREEMPT_DONE"
    else
      let s := { s with busy := { s.busy with preempt := none } }
      .next (s.hostEvent { kind := 7, code := 0, launch := id, tpc := s.busy.saved, taddr := s.busy.left })

/-! ### Placement and restore (R302, R347, R383) -/

/-- Offers saved tasks on a core, with what reads the descriptor of a bin to be opened; whether all of them found a place
(R365). A task whose descriptor cannot be read, or would be refused, is not offered (DEDUCED, log 30). -/
def State.offerAll (s : State) (core : Nat) (k : Nat) (bs : List Bin) (read : Bin → State → State × DescRead) :
    State × Bool :=
  bs.foldl (fun (acc : State × Bool) b =>
    match b.tasks with
    | [] => acc
    | t :: _ =>
      match acc.1.offer core b.launch b.entry b.depth { t with team := k } (read b) with
      | (s, .ok ok) => (s, acc.2 && ok)
      | (s, .error _) => (s, acc.2)) (s, true)

/-- The number under which the reads of a restore stand beside those of the queues' heads. -/
def restoreReader : Nat := 81

/-- Reads a saved task's kernel descriptor for its new core, at e − 16 through its launch's context (R362, R365). -/
def State.restoreRead (s : State) (cluster core : Nat) (b : Bin) : State × DescRead :=
  let l := Tab.find b.launch s.launches
  let a := s.launcherAsker restoreReader ((l.map Launch.ctx).getD 0)
  s.descriptor (some cluster)
    { a with system := (l.map Launch.system).getD false, die := dieOf core, tlb := dieTlb (dieOf core) } b.entry

/-- The teams of a saved cluster as their areas give them now. -/
def State.savedNow (s : State) (v : Saved) : List SavedTeam :=
  v.teams.map fun t => t.read (s.readArea t.base (t.shape.at 10))

/-- Whether every descriptor that a restore reads can be read: false while one waits for a page walk, or for the host's reply
to a page fault. -/
def State.restoreReads (s : State) (v : Saved) (cores : List Nat) : State × Bool :=
  if Tab.getD s.replyWait restoreReader 0 == 2 then (s, true)
  else
    (s.savedNow v).foldl (fun acc t => t.tasks.foldl (fun (acc : State × Bool) b =>
      match acc.1.restoreRead v.key (cores.getD t.rank 0) b with
      | (s, .miss _) | (s, .full) | (s, .busy) => (s, false)
      | (s, _) => (s, acc.2)) acc) (s, true)

/-- Whether a core has room for a saved team (R301). -/
def State.savedFits (s : State) (core : Nat) (v : SavedTeam) : Bool :=
  let held := v.team.groups.filter fun (_, g) => g.held
  let on := fun p => held.filter fun (_, g) => g.part == p
  s.roomFor core (fun p => (on p).length) (fun p => ((on p).map fun (_, g) => v.team.base + g.x).sum)
    (fun p => (v.team.slugList.filter fun q => slugPart q.1 == p).length) v.team.forme v.team.nbar
    && (s.offerAll core v.key v.tasks fun b s => (s, .ok b.desc)).2

/-- The cores on which a saved cluster fits, from its first core (R383, R419). -/
def State.restoreFits (s : State) (v : Saved) (core : Nat) : Option (List Nat) :=
  match rectangle core v.cluster.w v.cluster.h with
  | none => none
  | some cs =>
    if s.dieOpen (dieOf core) && cs.zipIdx.all fun (c, r) =>
        match (s.savedNow v).find? fun t => t.rank == r with
        | some t => s.savedFits c t
        | none =>
          s.roomFor c (fun _ => 0) (fun _ => 0) (fun _ => 0)
            ((((v.cluster.teams[r]?).bind fun k => Tab.find k v.formes).map Forme.size).getD 0) 0
    then some cs else none

/-- What the launcher places next. -/
inductive Placement where
  | fresh (launch index : Nat)
  | saved (i : Nat)
  deriving DecidableEq, Repr

/-- The placement that is made next: launches by priority and admission, a launch's saved clusters before its unplaced ones
(R302, R347, R383). -/
def State.nextPlacement (s : State) : Option Placement :=
  s.launchOrder.findSome? fun k =>
    (Tab.find k s.launches).bind fun l =>
      let anywhere := fun (f : Nat → Bool) => (List.range Config.cores).any f
      if s.savedFirst k l then
        let i := s.saved.findIdx fun v => v.cluster.launch == k
        match s.saved[i]? with
        | some v => if anywhere fun c => (s.restoreFits v c).isSome then some (.saved i) else none
        | none => none
      else
        match s.readyCluster l with
        | some i => if anywhere fun c => (s.clusterFits l c).isSome then some (.fresh k i) else none
        | none => none

/-- CLUSTER_PLACE (R302). -/
def execClusterPlace (launch cluster core : Nat) (s : State) : Host.Outcome State Fault Refusal :=
  match Tab.find launch s.launches with
  | none => notEnabled "CLUSTER_PLACE"
  | some l =>
    match s.clusterFits l core with
    | none => notEnabled "CLUSTER_PLACE"
    | some cores =>
      if s.nextPlacement = some (.fresh launch cluster) then .next (s.placeCluster launch cluster l cores)
      else notEnabled "CLUSTER_PLACE"

/-- Gives a restored team's groups free slots of their partitions on a core (R294, R383). -/
def State.reseat (s : State) (core : Nat) (t : Team) : Tab Group :=
  (t.groups.foldl (fun (acc : Tab Group × List (Nat × Nat)) (e : Nat × Group) =>
    if !e.2.held then (acc.1 ++ [e], acc.2)
    else
      let used := (s.groupsOn core e.2.part).map (fun q => q.2.2.slot)
        ++ (acc.2.filter fun q => q.1 == e.2.part).map (·.2)
      let slot := ((List.range 16).find? fun i => !used.contains i).getD 0
      (acc.1 ++ [(e.1, { e.2 with slot })], (e.2.part, slot) :: acc.2)) ([], [])).1

/-- Threads that wait on a barrier whose phase has flipped go on at once (R336). -/
def Team.barsAgain (t : Team) : Team :=
  { t with threads := t.threads.map fun (p : Nat × Thread) =>
      match p.2.wait with
      | .barrier b ph => if (t.bar b).phase = ph then p else (p.1, { p.2 with wait := .ready, pc := p.2.pc + 12 })
      | _ => p }

/-- Restores a team on a core: its sections, its wait entries, its spawn tasks (R191, R365, R383). -/
def State.restoreTeam (s : State) (cluster : Nat) (v : SavedTeam) (core : Nat) : State :=
  let t := v.team
  let t := ({ t with place := .core core, groups := s.reseat core t } : Team).barsAgain
  let s := s.setTeam v.key t
  let s := v.waits.foldl (fun s w =>
    match s.thread? w.tid with
    | some th => s.install w (th.pc.toNat + 12)
    | none => s) s
  (s.offerAll core v.key v.tasks fun b s => s.restoreRead cluster core b).1

/-- The forme of a rank on its new core, with the bytes and tags that its area gives. -/
def State.restoreForme (s : State) (v : Saved) (images : List (SavedTeam × LineData)) (rank core : Nat) : State :=
  match (v.cluster.teams[rank]?).bind fun k => (Tab.find k v.formes).map fun f => (k, f) with
  | none => s
  | some (k, f) =>
    let f := match images.find? fun p => p.1.rank == rank with
      | some (t, img) => f.restored img (t.shape.at 6)
      | none => f
    s.allot k core f

/-- Restores a cluster: formes, clocks, teams; its areas are freed (R383). -/
def State.restoreCluster (s : State) (i : Nat) (v : Saved) (cores : List Nat) : State :=
  let images := v.teams.map fun t => (t, s.readArea t.base (t.shape.at 10))
  let s := v.teams.foldl (fun s t => s.logArea t.base (t.shape.at 10)) s
  let time := (images.map fun p => readBytes p.2 16 8).foldl max 0
  let s := cores.foldl (fun s c => s.raise c time) s
  let s := cores.zipIdx.foldl (fun s (c, r) => s.restoreForme v images r c) s
  let s := { s with clusters := Tab.put v.key v.cluster s.clusters, saved := s.saved.eraseIdx i }
  (images.foldl (fun s p => s.restoreTeam v.key (p.1.read p.2) (cores.getD p.1.rank 0)) s).endHeadRead restoreReader

/-- CLUSTER_RESTORE (R383). -/
def execClusterRestore (saved core : Nat) (s : State) : Host.Outcome State Fault Refusal :=
  match s.saved[saved]? with
  | none => notEnabled "CLUSTER_RESTORE"
  | some v =>
    match s.restoreFits v core with
    | none => notEnabled "CLUSTER_RESTORE"
    | some cores =>
      if s.nextPlacement = some (.saved saved) then
        match s.restoreReads v cores with
        | (s, true) => .next (s.restoreCluster saved v cores)
        | (s, false) => .next s
      else notEnabled "CLUSTER_RESTORE"

/-! ### `halt` and stopped teams (R340, R379) -/

/-- `halt`: the team stops; the threads that executed it will go on at the instruction after it (R340). PRIVILEGED in user
mode (R169, R324). -/
def execHalt (x : XForm) (s : State) : Host.Outcome State Fault Refusal :=
  match s.ig with
  | none => .fault .noIssueGroup
  | some ig =>
    let next := ig.pc + 12
    match s.team? ig.team with
    | none => .next s
    | some t =>
      if !t.system then
        .next (s.deliverAll ig.team ig.threads { code := Code.privileged, info := word0 .halt x } next)
      else
        .next (((s.goOn ig.team ig.threads next).modTeam ig.team fun t => { t with stopped := true }).rewindOps ig.team)

/-- The stopped team that holds a group slot (R379). -/
def State.stoppedAt (s : State) (core part slot : Nat) : Option (Nat × Team) :=
  s.teams.find? fun (_, t) =>
    t.stopped && t.place == .core core && t.groups.any fun (_, g) => g.held && g.part == part && g.slot == slot

/-- Resume: every thread goes on from its program counter, with waits as they were (R379). -/
def State.resume (s : State) (k : Nat) : State :=
  match s.team? k with
  | some _ => s.modTeam k fun t => { t with stopped := false }
  | none => s

/-- Discard: every thread ends as by `exit`, and no access is performed for the team (R379). -/
def State.discardTeam (s : State) (k : Nat) : State :=
  let s := (s.dropWaits k).modTeam k fun t =>
    { t.withdraw with threads := t.threads.map fun (p : Nat × Thread) => (p.1, { p.2 with wait := .ready }) }
  match s.team? k with
  | none => s
  | some t => (s.exitThreads k ((t.threads.filter fun (_, th) => th.live).map (·.1))).settleCore t.core

/-- A write to TEAMCTL; one that names no stopped team is ignored (R379, Table 23.3). -/
def State.teamctl (s : State) (op core part slot : Nat) : State :=
  match s.stoppedAt core part slot with
  | none => s
  | some (k, _) => if op = 1 then s.resume k else if op = 2 then s.discardTeam k else s

/-- TEAMCTL_RESUME (R379). -/
def execTeamctlResume (core part slot : Nat) (s : State) : Host.Outcome State Fault Refusal :=
  .next (s.teamctl 1 core part slot)

/-- TEAMCTL_DISCARD (R379). -/
def execTeamctlDiscard (core part slot : Nat) (s : State) : Host.Outcome State Fault Refusal :=
  .next (s.teamctl 2 core part slot)

end Sys2Proof.Machine
end

