-- ==== Sys2Proof/Machine/Time.lean ====
section
/-! DEFINITION. What comes about by the passing of clocks: ticks, the clock rebase, grant windows, ages, deferrals, demotions,
replays, the watchdog (R41, R45, R110, R330, R355 to R359, R371, R377, R378). -/

namespace Sys2Proof.Machine

/-! ### Ticks (R41) -/

/-- The clocks of a die's agents: cores, copy and gather engines, the collective engine. -/
def dieClocks (die : Nat) : List Nat :=
  (List.range 96).map (die * 96 + ·) ++ (List.range 8).map (fun r => copyClock (die * 8 + r))
    ++ (List.range 8).map (fun r => gatherClock (die * 8 + r)) ++ [collClock die]

/-- The clocks that tick: those of powered agents; platens and the port keep their power (R41, R419). -/
def State.tickingClocks (s : State) : List Nat :=
  ((List.range 2).filter s.hasPower).flatMap dieClocks ++ (List.range 12).map platenClock ++ [portClock]

/-- CLOCK_TICK: at each multiple of 64 core clocks every running clock rises by one (R41). -/
def execClockTick (s : State) : Host.Outcome State Fault Refusal :=
  if s.ticks < s.cycle / 64 then
    .next (s.tickingClocks.foldl (fun s k => s.raise k (s.clock k + 1)) { s with ticks := s.ticks + 1 })
  else notEnabled "CLOCK_TICK"

/-! ### Rebase (R45) -/

/-- The clock value that starts a rebase. -/
def rebaseAt : Nat := 2 ^ 62 - 2 ^ 20

/-- A time after the rebase. -/
def back (t : Nat) : Nat := t - 2 ^ 61

/-- A table of times after the rebase. -/
def backTab (t : Tab Nat) : Tab Nat := (t.map fun p => (p.1, back p.2)).filter fun p => p.2 != 0

/-- A request names no copy after the rebase: the shared copies are dropped. -/
def HReq.rebased (r : HReq) : HReq := { r with pts := back r.pts, wts := none }
def HomeLine.rebased (l : HomeLine) : HomeLine :=
  { l with wts := back l.wts, rts := back l.rts, pend := l.pend.map HReq.rebased }
def Home.rebased (h : Home) : Home :=
  { h with lines := h.lines.map fun p => (p.1, p.2.rebased), queue := h.queue.map HReq.rebased, mts := back h.mts }
def Copy.rebased (c : Copy) : Copy := { c with wts := back c.wts, rts := back c.rts }
def Region.rebased (g : Region) : Region :=
  { g with
    copies := (g.copies.filter fun p => p.2.owned).map fun p => (p.1, p.2.rebased)
    wbuf := g.wbuf.map fun p => (p.1, p.2.rebased) }
def Msg.rebased (m : Msg) : Msg :=
  { m with
    wts := back m.wts, rts := back m.rts
    kind := match m.kind with
      | .req r => .req r.rebased
      | .nack r => .nack r.rebased
      | .retry r due => .retry r.rebased due
      | k => k }
def Forme.rebased (f : Forme) : Forme :=
  { f with wts := backTab f.wts, rts := backTab f.rts, objTime := backTab f.objTime, flipTime := backTab f.flipTime }
def Platen.rebased (p : Platen) : Platen :=
  { p with
    wts := p.wts.map fun q => (q.1, back q.2), rts := p.rts.map fun q => (q.1, back q.2), mem := back p.mem
    calls := p.calls.map fun (q : Nat × Call) => (q.1, { q.2 with time := back q.2.time, returned := back q.2.returned }) }
def Job.rebased (j : Job) : Job := { j with clock := back j.clock, endTime := back j.endTime }
def Thread.rebased (th : Thread) : Thread := { th with seen := th.seen.map fun q => (q.1, back q.2) }
def Team.rebased (t : Team) : Team :=
  { t with threads := t.threads.map fun p => (p.1, p.2.rebased), kseen := t.kseen.map fun q => (q.1, back q.2) }
def Bin.rebased (b : Bin) : Bin :=
  { b with tasks := b.tasks.map fun (t : Task) => { t with clock := back t.clock } }
def Saved.rebased (v : Saved) : Saved :=
  { v with
    teams := v.teams.map fun (t : SavedTeam) => { t with team := t.team.rebased, tasks := t.tasks.map Bin.rebased }
    formes := v.formes.map fun p => (p.1, p.2.rebased) }

/-- Every time that the part holds, after the rebase (R45). The bytes of save areas are memory and stay as they are. -/
def State.rebased (s : State) : State :=
  { s with
    clocks := backTab s.clocks
    homes := s.homes.map fun p => (p.1, p.2.rebased)
    regions := s.regions.map fun p => (p.1, p.2.rebased)
    net := s.net.map fun p => (p.1, p.2.rebased)
    formes := s.formes.map fun p => (p.1, p.2.rebased)
    tlbs := s.tlbs.map fun (p : Nat × List TlbEntry) =>
      (p.1, p.2.map fun (e : TlbEntry) => { e with time := back e.time })
    platens := s.platens.map fun p => (p.1, p.2.rebased)
    jobs := s.jobs.map fun p => (p.1, p.2.rebased)
    teams := s.teams.map fun p => (p.1, p.2.rebased)
    cores := s.cores.map fun (p : Nat × Core) => (p.1, { p.2 with bins := p.2.bins.map fun q => (q.1, q.2.rebased) })
    launches := s.launches.map fun (p : Nat × Launch) => (p.1, { p.2 with time := back p.2.time, after := back p.2.after })
    doneTimes := backTab s.doneTimes
    devQueues := s.devQueues.map fun (p : Nat × List DevRecord) =>
      (p.1, p.2.map fun (r : DevRecord) => { r with time := back r.time })
    imprints := s.imprints.map fun (p : Nat × Imprint) => (p.1, { p.2 with time := back p.2.time })
    boundaries := s.boundaries.map fun (p : Nat × Boundary) => (p.1, { p.2 with time := back p.2.time })
    saved := s.saved.map Saved.rebased }

/-- Whether some clock, an agent's or a job's own, has come to 2^62 − 2^20 (R41, R45). -/
def State.rebaseDue (s : State) : Bool :=
  (s.clocks.any fun p => decide (rebaseAt ≤ p.2)) || s.jobs.any fun p => decide (rebaseAt ≤ p.2.clock)

/-- CLOCK_REBASE: a clock has come to 2^62 − 2^20, and issue stops (R45). -/
def execClockRebase (s : State) : Host.Outcome State Fault Refusal :=
  if !s.busy.rebase && s.rebaseDue then
    .next { s with busy := { s.busy with rebase := true } }
  else notEnabled "CLOCK_REBASE"

/-- Whether a request waits for a loan to end: its line is lent to a platen call, or every line of its set is, so that none
makes room for it (R40, R62). -/
def State.awaitsLoan (s : State) (r : HReq) : Bool :=
  let set := (s.home (homeOf r.line)).lines.filter fun (k, _) => homeSet k == homeSet r.line
  s.isLent r.line || (!s.isResident r.line && decide (16 ≤ set.length) && set.all fun (k, _) => s.isLent k)

/-- Whether the home line queues are drained, but for requests that wait for loans to end, whose cores have stopped with the
others, and no reply that names a shared copy is under way. DEDUCED (log 59). -/
def State.rebaseReady (s : State) : Bool :=
  (s.homes.all fun (_, h) => h.queue.all s.awaitsLoan) && s.net.all fun (_, m) =>
    match m.kind with | .req _ | .retry .. | .nack _ | .wake .. => true | _ => false

/-- REBASE_COMPLETE (R45). -/
def execRebaseComplete (s : State) : Host.Outcome State Fault Refusal :=
  if s.busy.rebase && s.rebaseReady then .next { s.rebased with busy := { s.busy with rebase := false } }
  else notEnabled "REBASE_COMPLETE"

/-! ### Power windows (R359, R418) -/

/-- POWER_WINDOW: the grants of the next 2,700 core clocks, at least 64 starts for each partition; what the budget allows
beyond that is free (log 3); a throttled die has the minimum (R359, R418). DESIGN CHOICE (log 16). -/
def execPowerWindow (die : Nat) (s : State) : Host.Outcome State Fault Refusal :=
  if s.hasPower die && decide (Tab.getD s.windows die 0 ≤ s.cycle) then
    let (n, s) := s.draw
    let more := if Tab.getD s.throttled die false then 0 else Config.freeNat n
    .next { s with
      grants := Tab.put die (64 + more) s.grants
      starts := s.starts.filter fun p => dieOf (p.1 / 4) != die
      windows := Tab.put die ((s.cycle / 2700 + 1) * 2700) s.windows }
  else notEnabled "POWER_WINDOW"

/-! ### Ages, deferrals, demotions (R330, R356, R357) -/

/-- Whether a thread of a team stands on a partition of a core. -/
def Team.onPart (t : Team) (core part n : Nat) : Bool := t.place == .core core && t.part n == part

/-- AGE_URGENT: threads of a partition whose age has reached 512 become urgent (R356). -/
def execAgeUrgent (core part : Nat) (s : State) : Host.Outcome State Fault Refusal :=
  let old := fun (t : Team) (n : Nat) (th : Thread) => t.onPart core part n && decide (512 ≤ th.age) && !th.urgent
  if s.teams.any fun (_, t) => t.threads.any fun (n, th) => old t n th then
    .next { s with teams := s.teams.map fun (p : Nat × Team) =>
      (p.1, { p.2 with threads := p.2.threads.map fun (q : Nat × Thread) =>
        (q.1, { q.2 with urgent := q.2.urgent || old p.2 q.1 q.2 }) }) }
  else notEnabled "AGE_URGENT"

/-- YIELD_EXPIRE: a deferral ends after 64 clocks (R330). -/
def execYieldExpire (team thread : Nat) (s : State) : Host.Outcome State Fault Refusal :=
  let i : Tid := { team, n := thread }
  match (s.thread? i).bind Thread.deferred with
  | some due =>
    if due ≤ s.cycle then .next (s.modThread i fun th => { th with deferred := none }) else notEnabled "YIELD_EXPIRE"
  | none => notEnabled "YIELD_EXPIRE"

/-- DEMOTION_EXPIRE: a demotion ends after 256 clocks; the thread's loops stay watched (R357). -/
def execDemotionExpire (team thread : Nat) (s : State) : Host.Outcome State Fault Refusal :=
  let i : Tid := { team, n := thread }
  match (s.thread? i).bind Thread.demoted with
  | some due =>
    if due ≤ s.cycle then
      .next (s.modThread i fun th =>
        { th with demoted := none, spins := th.spins.map fun x => { x with demotes := false } })
    else notEnabled "DEMOTION_EXPIRE"
  | none => notEnabled "DEMOTION_EXPIRE"

/-! ### Replay (R110, R264, R371) -/

/-- Whether a thread waits for timing at an instruction that it has issued: to issue again, or for a page walk. -/
def Thread.replaying (th : Thread) : Bool :=
  match th.wait with | .ready | .replay | .missFull _ | .walk .. => true | _ => false

/-- Whether a thread waits for an INSTRUCTION_REPLAY. -/
def Thread.replays (th : Thread) : Bool :=
  match th.wait with | .replay | .matrix | .galley | .turn .. | .along .. => true | _ => false

/-- Whether what a thread waits for has come as far as the thread needs to know: for a lane that takes its turn, the lane
before it has its entry; for one whose group replays, no thread of the group is left at the instruction (R190, R297). -/
def Team.mayReplay (t : Team) (th : Thread) : Bool :=
  match th.wait with
  | .turn _ n => !((Tab.find n t.threads).map Thread.installing).getD false
  | .along pc ns => !(ns.any fun n =>
      ((Tab.find n t.threads).map fun u => u.live && u.pc.toNat == pc && u.replaying).getD false)
  | _ => th.replays

/-- A thread that is ready again. -/
def Thread.awake (th : Thread) : Thread := { th with wait := .ready }

/-- Makes ready a thread and those of its partition that wait for the same at the same address. -/
def Team.awaken (t : Team) (n : Nat) (th : Thread) : Team :=
  let same := fun (p : Nat × Thread) => t.part p.1 == t.part n && p.2.wait == th.wait && p.2.pc == th.pc
  { t with threads := t.threads.map fun p => if same p then (p.1, p.2.awake) else p }

/-- INSTRUCTION_REPLAY: threads whose instruction waits for timing are issued again from the start (R371), or go on after it
when their part of it was done (R297): with the thread named, those of its team on its partition that wait for the same at the
same address, for membership of an issue group never depends on such a wait (R297). -/
def execInstructionReplay (team thread : Nat) (s : State) : Host.Outcome State Fault Refusal :=
  match s.team? team with
  | none => notEnabled "INSTRUCTION_REPLAY"
  | some t =>
    match Tab.find thread t.threads with
    | none => notEnabled "INSTRUCTION_REPLAY"
    | some th =>
      if t.mayReplay th then
        .next (s.setTeam team (t.awaken thread th))
      else notEnabled "INSTRUCTION_REPLAY"

/-! ### Watchdog and events (R377, R378) -/

/-- WATCHDOG: once for a launch idle for LIMIT × 2^20 core clocks (R378). -/
def execWatchdog (launch : Nat) (s : State) : Host.Outcome State Fault Refusal :=
  let limit := s.reg 0x105010 % 2 ^ 16
  match Tab.find launch s.launches with
  | some l =>
    if limit ≠ 0 ∧ !l.warned ∧ l.idleSince + limit * 2 ^ 20 ≤ s.cycle then
      .next (({ s with launches := Tab.put launch { l with warned := true } s.launches } : State).hostEvent
        { kind := 5, code := Code.watchdog, launch := l.id })
    else notEnabled "WATCHDOG"
  | none => notEnabled "WATCHDOG"

/-- EVENT_MSIX_SIGNAL: vector 3 for an event record that is visible (R377). -/
def execEventMsixSignal (s : State) : Host.Outcome State Fault Refusal :=
  match s.signalMsix 3 with
  | some s => .next s
  | none => notEnabled "EVENT_MSIX_SIGNAL"

end Sys2Proof.Machine
end

