-- ==== Sys2Proof/Machine/HostPort.lean ====
section
/-! DEFINITION. What the host does to memory, what its link brings back, the scrubber, attestation (R36, R37, R57, R82, R83,
R87, R88, R411, R417, R419). -/

namespace Sys2Proof.Machine

/-! ### CXL.mem (R57, R82) -/

/-- HOST_MEM_READ: the port takes a read within one 64-byte word, of an address in the host's windows, and performs it in its
turn (R67, R82, R411). -/
def execHostMemRead (pa len : Nat) (s : State) : Host.Outcome State Fault Refusal :=
  match s.hdmMaps pa with
  | some pa => .next (s.receive (.read pa len))
  | none => notEnabled "HOST_MEM_READ"

/-- HOST_MEM_WRITE: the port takes a write within one 64-byte word, of an address in the host's windows, and performs it in
its turn (R67, R82, R411). -/
def execHostMemWrite (pa : Nat) (bytes : List (Option Byte)) (s : State) : Host.Outcome State Fault Refusal :=
  match s.hdmMaps pa with
  | some pa => .next (s.receive (.write pa bytes))
  | none => notEnabled "HOST_MEM_WRITE"

/-! ### The host's own memory (R56, R83) -/

/-- The lines that a run of bytes touches. -/
def hostLinesOf (pa n : Nat) : List Nat := (List.range ((pa + n - 1) / 128 + 1 - pa / 128)).map (pa / 128 + ·)

/-- The host takes a line that the port holds before it writes it; false while the port cannot answer (R56, R417). -/
def State.hostTakes (s : State) (line : Nat) : State × Bool :=
  match execHostSnoop line s with
  | .next s => (s, !s.isResident (hostLineBase + line) && !Tab.has s.port.store (hostLineBase + line))
  | _ => (s, false)

/-- The host writes bytes of its own memory, one line after the other; false while a line is not to be had (R56, R83). -/
def State.hostStore (s : State) (pa : Nat) (bytes : List Byte) : State × Bool :=
  let (s, ok) := (hostLinesOf pa bytes.length).foldl (fun (acc : State × Bool) ln =>
    if acc.1.isResident (hostLineBase + ln) || Tab.has acc.1.port.store (hostLineBase + ln) then
      let (s, ok) := acc.1.hostTakes ln
      (s, acc.2 && ok)
    else acc) (s, true)
  if ok then
    ({ s with
      hostMem := bytes.zipIdx.foldl (fun m (b, i) => Tab.set 0 (pa + i) b m) s.hostMem
      bad := hostSound s.bad pa bytes.length }, true)
  else (s, false)

/-- The bytes of a host line that the port holds, in its line or in the always-powered store, go to host memory. A line that
it no longer holds has taken them there already. -/
def State.portWrites (s : State) (pa size : Nat) : State :=
  let ln := hostLine pa
  match Tab.find ln s.port.store, Tab.find ln (s.home portHome).lines with
  | some d, _ => s.writeHost pa size (lineRead d (pa % 128) size)
  | none, some l => s.writeHost pa size (lineRead l.data (pa % 128) size)
  | none, none => s

/-- HOST_MEMORY_WRITE_DONE: the bytes of a `.byp` store are in host memory, as the port holds them by now, and the store is
acknowledged: an earlier value never replaces a later one (R68, R87). -/
def execHostMemoryWriteDone (tag : Nat) (s : State) : Host.Outcome State Fault Refusal :=
  match Tab.find tag s.port.bypStores with
  | some (i, pa, size, _) =>
    let s := s.portWrites pa size
    let s := { s with port := { s.port with bypStores := Tab.del tag s.port.bypStores } }
    .next ((s.modThread i fun th => { th with hostOut := th.hostOut.erase tag }).fenceDone i)
  | none => notEnabled "HOST_MEMORY_WRITE_DONE"

/-- IO_READ_RETURN: the data of an I/O read reaches its thread (R88). -/
def execIoReadReturn (tag : Nat) (data : Nat) (s : State) : Host.Outcome State Fault Refusal :=
  match Tab.find tag s.port.ioReads, Tab.find tag s.fabric.out with
  | some (i, size, op), some o =>
    let s := { s with port := { s.port with ioReads := Tab.del tag s.port.ioReads } }
    let s := s.modThread i fun th => { th with ioOut := th.ioOut.erase tag }
    match o.acc with
    | some a => .next (s.peerValue tag o op a (data % 2 ^ (8 * size)))
    | none => .next (s.peerDone tag o)
  | _, _ => notEnabled "IO_READ_RETURN"

/-! ### Scrub and attestation (R36, R417) -/

/-- PATROL_SCRUB: reads one 64-byte word of HBM; a corrected word is rewritten unchanged, one that cannot be corrected is
logged without a fault (R36). -/
def execPatrolScrub (pa : Nat) (s : State) : Host.Outcome State Fault Refusal :=
  if !isBacked pa then notEnabled "PATROL_SCRUB"
  else
    match s.badRead (pa / 64 * 64) 64 with
    | some _ => .next (s.countError arrHbm)
    | none => .next s

/-- DOE_REQUEST: taken and answered, even in reset; the spec does not give the answer's contents (R417, log 11). -/
def execDoeRequest (request : Nat) (s : State) : Host.Outcome State Fault Refusal :=
  .next { s with port := { s.port with doe := s.port.doe ++ [Config.doeAnswer request] } }

end Sys2Proof.Machine
end

