-- ==== Sys2Proof/Machine/Integer.lean ====
section
/-! DEFINITION. Integer, address and predicate instructions (spec/11). -/

namespace Sys2Proof.Machine

/-! ### Results (Tables 11.2 and 11.3, R197, R199, R204). `a`, `b` and `c` are operand bits of the type's width. -/

def addV (ty : Ty) (a b : Nat) : Nat := (a + b) % 2 ^ ty.bits
def subV (ty : Ty) (a b : Nat) : Nat := Bits.ofInt ty.bits ((a : Int) - b)
def mulV (ty : Ty) (a b : Nat) : Nat := a * b % 2 ^ ty.bits
def madV (ty : Ty) (a b c : Nat) : Nat := (a * b + c) % 2 ^ ty.bits
/-- Bits 2w−1:w of the exact product, signed for the i types. -/
def mulhiV (ty : Ty) (a b : Nat) : Nat := Bits.ofInt (2 * ty.bits) (Ty.value ty a * Ty.value ty b) / 2 ^ ty.bits
def minV (ty : Ty) (a b : Nat) : Nat := if Ty.value ty a ≤ Ty.value ty b then a else b
def maxV (ty : Ty) (a b : Nat) : Nat := if Ty.value ty a ≤ Ty.value ty b then b else a
def andV (_ : Ty) (a b : Nat) : Nat := a &&& b
def orV (_ : Ty) (a b : Nat) : Nat := a ||| b
def xorV (_ : Ty) (a b : Nat) : Nat := a ^^^ b
def shlV (ty : Ty) (a n : Nat) : Nat := if ty.bits ≤ n then 0 else a * 2 ^ n % 2 ^ ty.bits
def shrV (ty : Ty) (a n : Nat) : Nat := if ty.bits ≤ n then 0 else a / 2 ^ n
def sraV (ty : Ty) (a n : Nat) : Nat := Bits.ofInt ty.bits (Bits.signed ty.bits a / ((2 ^ min n (ty.bits - 1) : Nat) : Int))
def rolV (ty : Ty) (a n : Nat) : Nat :=
  let k := n % ty.bits
  a * 2 ^ k % 2 ^ ty.bits + a / 2 ^ (ty.bits - k)

/-- L of a field descriptor at width `w` (R197). -/
def fieldLen (w b : Nat) : Nat :=
  let pos := Bits.field b 0 8
  let len := Bits.field b 8 8
  if w ≤ pos ∨ len = 0 then 0 else min len (w - pos)

/-- `bfe` (R197). -/
def bfeV (ty : Ty) (a b : Nat) : Nat :=
  let l := fieldLen ty.bits b
  if l = 0 then 0
  else
    let f := Bits.field a (Bits.field b 0 8) l
    if ty.isSigned then Bits.sext l ty.bits f else f

/-- `bfi` (R197). -/
def bfiV (ty : Ty) (a b c : Nat) : Nat :=
  let l := fieldLen ty.bits b
  let pos := Bits.field b 0 8
  if l = 0 then c else c - Bits.field c pos l * 2 ^ pos + a % 2 ^ l * 2 ^ pos

def absV (ty : Ty) (a : Nat) : Nat := if a < 2 ^ (ty.bits - 1) then a else Bits.ofInt ty.bits (-(a : Int))
def negV (ty : Ty) (a : Nat) : Nat := Bits.ofInt ty.bits (-(a : Int))
def notV (ty : Ty) (a : Nat) : Nat := 2 ^ ty.bits - 1 - a

/-- `div`: rounded toward zero, all ones on a zero divisor (R199). -/
def divV (ty : Ty) (a b : Nat) : Nat :=
  if b = 0 then 2 ^ ty.bits - 1 else Bits.ofInt ty.bits ((Ty.value ty a).tdiv (Ty.value ty b))

/-- `rem`: the sign of the dividend (R199). -/
def remV (ty : Ty) (a b : Nat) : Nat :=
  if b = 0 then a else Bits.ofInt ty.bits ((Ty.value ty a).tmod (Ty.value ty b))

/-- `lea` (R200). -/
def leaV (ty : Ty) (sh a b : Nat) : Nat := Bits.ofInt 64 ((a : Int) + Ty.value ty b * ((2 ^ sh : Nat) : Int))

/-- `cvt` (R204): the exact source value, saturated or reduced, as it fills the destination registers. -/
def cvtV (src dst : Ty) (sat : Bool) (a : Nat) : Nat :=
  let v := Ty.value src a
  let lo : Int := if dst.isSigned then -((2 ^ (dst.bits - 1) : Nat) : Int) else 0
  let hi : Int := if dst.isSigned then ((2 ^ (dst.bits - 1) : Nat) : Int) - 1 else ((2 ^ dst.bits : Nat) : Int) - 1
  let r := if sat then min (max v lo) hi else Ty.value dst (Bits.ofInt dst.bits v)
  Bits.ofInt (32 * dst.regs) r

/-- The constant of `ldi` (Table 11.4). -/
def ldiV (ty : Ty) (imm : BitVec 22) (lit : Option DWord) : Nat :=
  match lit with
  | some l => l.toNat % 2 ^ ty.bits
  | none => if ty.isSigned then Bits.sext 22 ty.bits imm.toNat else imm.toNat

/-! ### Shared forms -/

/-- Destination registers of an instruction whose result has `w` registers. -/
def dstRegs (x : XForm) (w : Nat) : List Nat := regSpan x.d.toNat w

/-- Two sources of the type's width (R196, R199). -/
def twoX (o : XOp) (f : Ty → Nat → Nat → Nat) (x : XForm) (words : Nat) (s : State) :
    Host.Outcome State Fault Refusal :=
  let w := x.ty.regs
  execSeq words none (computeLane o x w w 0 (dstRegs x w) (fun th v => th.setVs x.d.toNat v w)
    fun a b _ => f x.ty a b) s

/-- A value and a count or descriptor of one register (R193). -/
def shiftX (o : XOp) (f : Ty → Nat → Nat → Nat) (x : XForm) (words : Nat) (s : State) :
    Host.Outcome State Fault Refusal :=
  let w := x.ty.regs
  execSeq words none (computeLane o x w 1 0 (dstRegs x w) (fun th v => th.setVs x.d.toNat v w)
    fun a b _ => f x.ty a b) s

/-- One source and a result of the type's width. -/
def oneX (o : XOp) (f : Ty → Nat → Nat) (x : XForm) (s : State) : Host.Outcome State Fault Refusal :=
  let w := x.ty.regs
  execSeq x.words none (computeLane o x w 0 0 (dstRegs x w) (fun th v => th.setVs x.d.toNat v w)
    fun a _ _ => f x.ty a) s

/-- One source and a result of one register. -/
def countX (o : XOp) (f : Ty → Nat → Nat) (x : XForm) (s : State) : Host.Outcome State Fault Refusal :=
  execSeq x.words none (computeLane o x x.ty.regs 0 0 (dstRegs x 1) (fun th v => th.setVs x.d.toNat v 1)
    fun a _ _ => f x.ty a) s

/-- `mad` (R196). -/
def madX (x : XForm) (words : Nat) (s : State) : Host.Outcome State Fault Refusal :=
  let w := x.ty.regs
  execSeq words none (computeLane .mad x w w w (dstRegs x w) (fun th v => th.setVs x.d.toNat v w)
    fun a b c => madV x.ty a b c) s

/-- A predicate operation: A and B name predicates (R206). -/
def predX (f : Bool → Bool → Bool) (x : XForm) (s : State) : Host.Outcome State Fault Refusal :=
  execSeq x.words none
    (fun s c => .ok (s.modThread c.id fun th => th.setP x.d.toNat (f (c.th.p x.a.toNat) (c.th.p x.b.toNat)))) s

/-- `ldi` (R203). -/
def ldiX (ty : Ty) (d : Nat) (v words : Nat) (s : State) : Host.Outcome State Fault Refusal :=
  execSeq words none
    (fun s c => do
      c.dests (regSpan d ty.regs)
      let s ← s.claimRegs c [] (regSpan d ty.regs)
      return s.modThread c.id fun th => th.setVs d v ty.regs) s

/-! ### Meanings -/

/-- `add`, extended form (R196). -/
def execAdd (x : XForm) (s : State) : Host.Outcome State Fault Refusal := twoX .add addV x x.words s
/-- `add`, base form B3 (R161, R196). -/
def execAddBase (f : B3) (s : State) : Host.Outcome State Fault Refusal :=
  twoX .add addV (f.toX f.intTy false) f.words s
/-- `add`, base form BI (R161, R196). -/
def execAddImmBase (f : BI) (s : State) : Host.Outcome State Fault Refusal := twoX .add addV (f.toX false) 1 s

/-- `sub`, extended form (R196). -/
def execSub (x : XForm) (s : State) : Host.Outcome State Fault Refusal := twoX .sub subV x x.words s
/-- `sub`, base form B3 (R161, R196). -/
def execSubBase (f : B3) (s : State) : Host.Outcome State Fault Refusal :=
  twoX .sub subV (f.toX f.intTy false) f.words s
/-- `sub`, base form BI (R161, R196). -/
def execSubImmBase (f : BI) (s : State) : Host.Outcome State Fault Refusal := twoX .sub subV (f.toX false) 1 s

/-- `mul`, extended form (R196). -/
def execMul (x : XForm) (s : State) : Host.Outcome State Fault Refusal := twoX .mul mulV x x.words s
/-- `mul`, base form B3 (R161, R196). -/
def execMulBase (f : B3) (s : State) : Host.Outcome State Fault Refusal :=
  twoX .mul mulV (f.toX f.intTy false) f.words s
/-- `mul`, base form BI (R161, R196). -/
def execMulImmBase (f : BI) (s : State) : Host.Outcome State Fault Refusal := twoX .mul mulV (f.toX false) 1 s

/-- `mulhi`, extended form (R196). -/
def execMulhi (x : XForm) (s : State) : Host.Outcome State Fault Refusal := twoX .mulhi mulhiV x x.words s
/-- `mulhi`, base form B3 (R161, R196). -/
def execMulhiBase (f : B3) (s : State) : Host.Outcome State Fault Refusal :=
  twoX .mulhi mulhiV (f.toX f.intTy false) f.words s
/-- `mulhi`, base form BI (R161, R196). -/
def execMulhiImmBase (f : BI) (s : State) : Host.Outcome State Fault Refusal := twoX .mulhi mulhiV (f.toX false) 1 s

/-- `min`, extended form (R196). -/
def execMinI (x : XForm) (s : State) : Host.Outcome State Fault Refusal := twoX .minI minV x x.words s
/-- `min`, base form B3 (R161, R196). -/
def execMinIBase (f : B3) (s : State) : Host.Outcome State Fault Refusal :=
  twoX .minI minV (f.toX f.intTy false) f.words s
/-- `min`, base form BI (R161, R196). -/
def execMinIImmBase (f : BI) (s : State) : Host.Outcome State Fault Refusal := twoX .minI minV (f.toX false) 1 s

/-- `max`, extended form (R196). -/
def execMaxI (x : XForm) (s : State) : Host.Outcome State Fault Refusal := twoX .maxI maxV x x.words s
/-- `max`, base form B3 (R161, R196). -/
def execMaxIBase (f : B3) (s : State) : Host.Outcome State Fault Refusal :=
  twoX .maxI maxV (f.toX f.intTy false) f.words s
/-- `max`, base form BI (R161, R196). -/
def execMaxIImmBase (f : BI) (s : State) : Host.Outcome State Fault Refusal := twoX .maxI maxV (f.toX false) 1 s

/-- `and`, extended form (R196). -/
def execBitAnd (x : XForm) (s : State) : Host.Outcome State Fault Refusal := twoX .bitAnd andV x x.words s
/-- `and`, base form B3 (R161, R196). -/
def execBitAndBase (f : B3) (s : State) : Host.Outcome State Fault Refusal :=
  twoX .bitAnd andV (f.toX f.intTy false) f.words s
/-- `and`, base form BI (R161, R196). -/
def execBitAndImmBase (f : BI) (s : State) : Host.Outcome State Fault Refusal := twoX .bitAnd andV (f.toX false) 1 s

/-- `or`, extended form (R196). -/
def execBitOr (x : XForm) (s : State) : Host.Outcome State Fault Refusal := twoX .bitOr orV x x.words s
/-- `or`, base form B3 (R161, R196). -/
def execBitOrBase (f : B3) (s : State) : Host.Outcome State Fault Refusal :=
  twoX .bitOr orV (f.toX f.intTy false) f.words s
/-- `or`, base form BI (R161, R196). -/
def execBitOrImmBase (f : BI) (s : State) : Host.Outcome State Fault Refusal := twoX .bitOr orV (f.toX false) 1 s

/-- `xor`, extended form (R196). -/
def execBitXor (x : XForm) (s : State) : Host.Outcome State Fault Refusal := twoX .bitXor xorV x x.words s
/-- `xor`, base form B3 (R161, R196). -/
def execBitXorBase (f : B3) (s : State) : Host.Outcome State Fault Refusal :=
  twoX .bitXor xorV (f.toX f.intTy false) f.words s
/-- `xor`, base form BI (R161, R196). -/
def execBitXorImmBase (f : BI) (s : State) : Host.Outcome State Fault Refusal := twoX .bitXor xorV (f.toX false) 1 s

/-- `shl`, extended form (R196). -/
def execShl (x : XForm) (s : State) : Host.Outcome State Fault Refusal := shiftX .shl shlV x x.words s
/-- `shl`, base form B3 (R161, R196). -/
def execShlBase (f : B3) (s : State) : Host.Outcome State Fault Refusal :=
  shiftX .shl shlV (f.toX f.intTy false) f.words s
/-- `shl`, base form BI (R161, R196). -/
def execShlImmBase (f : BI) (s : State) : Host.Outcome State Fault Refusal := shiftX .shl shlV (f.toX false) 1 s

/-- `shr`, extended form (R196). -/
def execShr (x : XForm) (s : State) : Host.Outcome State Fault Refusal := shiftX .shr shrV x x.words s
/-- `shr`, base form B3 (R161, R196). -/
def execShrBase (f : B3) (s : State) : Host.Outcome State Fault Refusal :=
  shiftX .shr shrV (f.toX f.intTy false) f.words s
/-- `shr`, base form BI (R161, R196). -/
def execShrImmBase (f : BI) (s : State) : Host.Outcome State Fault Refusal := shiftX .shr shrV (f.toX false) 1 s

/-- `sra`, extended form (R196). -/
def execSra (x : XForm) (s : State) : Host.Outcome State Fault Refusal := shiftX .sra sraV x x.words s
/-- `sra`, base form B3 (R161, R196). -/
def execSraBase (f : B3) (s : State) : Host.Outcome State Fault Refusal :=
  shiftX .sra sraV (f.toX f.intTy false) f.words s
/-- `sra`, base form BI (R161, R196). -/
def execSraImmBase (f : BI) (s : State) : Host.Outcome State Fault Refusal := shiftX .sra sraV (f.toX false) 1 s

/-- `rol`, extended form (R196). -/
def execRol (x : XForm) (s : State) : Host.Outcome State Fault Refusal := shiftX .rol rolV x x.words s
/-- `rol`, base form B3 (R161, R196). -/
def execRolBase (f : B3) (s : State) : Host.Outcome State Fault Refusal :=
  shiftX .rol rolV (f.toX f.intTy false) f.words s
/-- `rol`, base form BI (R161, R196). -/
def execRolImmBase (f : BI) (s : State) : Host.Outcome State Fault Refusal := shiftX .rol rolV (f.toX false) 1 s

/-- `popc`: number of set bits (R198). -/
def execPopc (x : XForm) (s : State) : Host.Outcome State Fault Refusal := countX .popc (fun ty a => Bits.popcount ty.bits a) x s

/-- `clz`: leading zeros (R198). -/
def execClz (x : XForm) (s : State) : Host.Outcome State Fault Refusal := countX .clz (fun ty a => Bits.leadingZeros ty.bits a) x s

/-- `ctz`: trailing zeros (R198). -/
def execCtz (x : XForm) (s : State) : Host.Outcome State Fault Refusal := countX .ctz (fun ty a => Bits.trailingZeros ty.bits a) x s

/-- `brev`: bit reversal (R198). -/
def execBrev (x : XForm) (s : State) : Host.Outcome State Fault Refusal := oneX .brev (fun ty a => Bits.reverse ty.bits a) x s

/-- `abs`: absolute value (R198). -/
def execAbsI (x : XForm) (s : State) : Host.Outcome State Fault Refusal := oneX .absI (absV) x s

/-- `neg`: negation (R198). -/
def execNegI (x : XForm) (s : State) : Host.Outcome State Fault Refusal := oneX .negI (negV) x s

/-- `not`: complement (R198). -/
def execBitNot (x : XForm) (s : State) : Host.Outcome State Fault Refusal := oneX .bitNot (notV) x s

/-- `div` (R199). -/
def execDiv (x : XForm) (s : State) : Host.Outcome State Fault Refusal := twoX .div divV x x.words s

/-- `rem` (R199). -/
def execRem (x : XForm) (s : State) : Host.Outcome State Fault Refusal := twoX .rem remV x x.words s

/-- `pand` (R206). -/
def execPand (x : XForm) (s : State) : Host.Outcome State Fault Refusal := predX (fun a b => a && b) x s

/-- `por` (R206). -/
def execPor (x : XForm) (s : State) : Host.Outcome State Fault Refusal := predX (fun a b => a || b) x s

/-- `pxor` (R206). -/
def execPxor (x : XForm) (s : State) : Host.Outcome State Fault Refusal := predX (fun a b => a != b) x s

/-- `pandn` (R206). -/
def execPandn (x : XForm) (s : State) : Host.Outcome State Fault Refusal := predX (fun a b => a && !b) x s

/-- `pnot` (R206). -/
def execPnot (x : XForm) (s : State) : Host.Outcome State Fault Refusal := predX (fun a _ => !a) x s

/-- `pmov` (R206). -/
def execPmov (x : XForm) (s : State) : Host.Outcome State Fault Refusal := predX (fun a _ => a) x s

/-- `mad`, extended form (R196). -/
def execMad (x : XForm) (s : State) : Host.Outcome State Fault Refusal := madX x x.words s
/-- `mad`, base form B3: the addend is D (R161, R196). -/
def execMadBase (f : B3) (s : State) : Host.Outcome State Fault Refusal := madX (f.toX f.intTy true) f.words s
/-- `mad`, base form BI (R161, R196). -/
def execMadImmBase (f : BI) (s : State) : Host.Outcome State Fault Refusal := madX (f.toX true) 1 s

/-- `bfe` (R197). -/
def execBfe (x : XForm) (s : State) : Host.Outcome State Fault Refusal := shiftX .bfe bfeV x x.words s

/-- `bfi` (R197). -/
def execBfi (x : XForm) (s : State) : Host.Outcome State Fault Refusal :=
  let w := x.ty.regs
  execSeq x.words none (computeLane .bfi x w 1 w (dstRegs x w) (fun th v => th.setVs x.d.toNat v w)
    fun a b c => bfiV x.ty a b c) s

/-- `lea` (R200). -/
def execLea (x : XForm) (s : State) : Host.Outcome State Fault Refusal :=
  execSeq x.words none (computeLane .lea x 2 x.ty.regs 0 (dstRegs x 2) (fun th v => th.setVs x.d.toNat v 2)
    fun a b _ => leaV x.ty (x.imm.toNat % 8) a b) s

/-- `sel`: the guard chooses; every thread of the issue group writes (R201). -/
def execSel (x : XForm) (s : State) : Host.Outcome State Fault Refusal :=
  let w := x.ty.regs
  execSeq x.words none (fun s c =>
    computeLane .sel x w w 0 (dstRegs x w) (fun th v => th.setVs x.d.toNat v w)
      (fun a b _ => if c.th.guard x.g then a else b) s c) s

/-- `mov`, extended form (R202). -/
def execMov (x : XForm) (s : State) : Host.Outcome State Fault Refusal := oneX .mov (fun _ a => a) x s

/-- `mov`, base form: b32 (R161, R202). -/
def execMovBase (d a : BitVec 6) (s : State) : Host.Outcome State Fault Refusal :=
  let x := { XForm.blank .b32 with d := d.setWidth 10, a := a.setWidth 10 }
  execSeq 1 none (computeLane .mov x 1 0 0 (dstRegs x 1) (fun th v => th.setVs x.d.toNat v 1) fun a _ _ => a) s

/-- `ldi`, extended form (R203). -/
def execLdi (x : XForm) (s : State) : Host.Outcome State Fault Refusal :=
  ldiX x.ty x.d.toNat (ldiV x.ty x.imm x.lit) x.words s

/-- `ldi`, base form: i32, IMM22 := sext(IMM10, 22) (R161, R203). -/
def execLdiBase (d : BitVec 6) (imm : BitVec 10) (lit : Option DWord) (s : State) :
    Host.Outcome State Fault Refusal :=
  ldiX .i32 d.toNat (ldiV .i32 (imm.signExtend 22) lit) (if lit.isSome then 3 else 1) s

/-- `cvt` (R204). -/
def execCvt (x : XForm) (s : State) : Host.Outcome State Fault Refusal :=
  let src := (Ty.ofCode x.sub.toNat).getD .i32
  execSeq x.words none (computeLane .cvt x src.regs 0 0 (dstRegs x x.ty.regs)
    (fun th v => th.setVs x.d.toNat v x.ty.regs) fun a _ _ => cvtV src x.ty (Bits.bit x.imm.toNat 0) a) s

/-- `cmp` (R205). -/
def execCmp (x : XForm) (s : State) : Host.Outcome State Fault Refusal :=
  execSeq x.words none (predLane .cmp x x.ty.regs x.ty.regs
    fun a b => cmpHolds x.sub.toNat (Ty.value x.ty a) (Ty.value x.ty b)) s

/-- `pget` (R207). -/
def execPget (x : XForm) (s : State) : Host.Outcome State Fault Refusal :=
  execSeq x.words none (fun s c => do
    c.dests [x.d.toNat]
    let s ← s.claimRegs c [] [x.d.toNat]
    return s.modThread c.id fun th => th.setV x.d.toNat th.predBits) s

/-- `pset` (R207). -/
def execPset (x : XForm) (s : State) : Host.Outcome State Fault Refusal :=
  execSeq x.words none (computeLane .pset x 1 0 0 [] (fun th v => th.setPreds v x.imm.toNat) fun a _ _ => a) s

end Sys2Proof.Machine
end

