-- ==== Sys2Proof/Machine/Power.lean ====
section
/-! DEFINITION. Resets, secure boot, temperature, power gating, the loss of a die (R58, R59, R63, R64, R378, R416 to R419). -/

namespace Sys2Proof.Machine

/-! ### Newest copies -/

/-- Whether a line's newest bytes differ from the memory that backs it. -/
def State.dirtyLine (s : State) (ln : Nat) : Bool :=
  (s.isResident ln && (s.lineAt ln).dirty)
    || (((s.ownerOf ln).bind fun r => Tab.find ln (s.region r).copies).map Copy.dirty).getD false
    || s.net.any fun (_, m) => m.line == ln && m.dirty

/-- Every line resident in some home, host lines or device lines. -/
def State.residentLines (s : State) (host : Bool) : List Nat :=
  s.homes.flatMap fun (_, h) => (Tab.keys h.lines).filter fun ln => isHostLine ln == host

/-- Copies the dirty host lines that `pick` selects into the host-line store, which keeps their ownership; an uncorrectable
one is logged (R37, R59). -/
def State.fillStore (s : State) (pick : Nat → Bool) : State :=
  let mine := ((s.residentLines true).filter fun ln => pick ln && s.dirtyLine ln).map fun ln => (ln, s.newest ln)
  let s := mine.foldl (fun s p => s.logLine p.2) s
  { s with port := { s.port with store := mine.foldl (fun t p => Tab.put p.1 p.2 t) s.port.store } }

/-- Writes the dirty device lines that `pick` selects to HBM; an uncorrectable one is logged (R37, R416). -/
def State.flushDevice (s : State) (pick : Nat → Bool) : State :=
  ((s.residentLines false).filter fun ln => pick ln && s.dirtyLine ln).foldl (fun s' ln =>
    s'.writeBack ln (s.newest ln)) s

/-! ### Reset (R416, R417) -/

/-- Marks of uncorrectable words of memory; registers, formes and slugs are gone after a reset.
DESIGN CHOICE (log 5). -/
def memoryMarks (b : Tab Nat) : Tab Nat := b.filter fun p => decide (p.1 < 2 ^ 60)

/-- Whether the boot ROM runs an image: its key has the fused hash, its signature is good, its security version is not below
the fused rollback counter (R417). -/
def imageGood (i : Config.Image) : Bool :=
  Config.sha512 i.key == Config.fusedKeyHash && Config.ecdsaGood i.key (Config.sha512 i.bytes) i.signature
    && decide (Config.rollback ≤ i.version)

/-- Whether every firmware image of a reset verifies (R417). DESIGN CHOICE (log 11). -/
def firmwareGood (n : Nat) : Bool := (Config.images n).all imageGood

/-- The module after steps 4 to 7 of either reset: every register at its reset value, every clock 0, nothing resident; what
the arguments hold stays. An image that does not verify leaves the part in reset (R417). The links train by LINK_TRAIN. -/
def State.afterReset (s : State) (win : Tab DWord) (hbm : Memory) (bad : Tab Nat) (store : Tab LineData) : State :=
  { State.reset with
    agenda := s.agenda, oracle := s.oracle, nextTag := s.nextTag, nextKey := s.nextKey, resets := s.resets + 1
    hbm, hostMem := s.hostMem, bad, win
    busy := { State.reset.busy with bootFailed := !firmwareGood (s.resets + 1) }
    port := { State.reset.port with store, signalled := s.port.signalled, doe := s.port.doe } }

/-- What a window register keeps across a warm reset: SALVSZ, and the temperatures that PWRSTAT shows, which have no Reset
value (R63, R416). -/
def State.keptWindow (s : State) : Tab DWord :=
  let salv := s.reg 0x100600 % 2 ^ 4
  [(0x100600, BitVec.ofNat 64 salv), (0x106208, BitVec.ofNat 64 (s.reg 0x106208))]

/-- Steps 1 to 3 of a warm reset (Table 28.4). -/
def State.resetSteps (s : State) : State :=
  let s := (s.fillStore fun _ => true).flushDevice fun _ => true
  { s with
    launches := [], teams := [], clusters := [], saved := [], jobs := [], memops := [], matrix := [], formes := []
    platens := s.platens.map fun (p : Nat × Platen) => (p.1, { p.2 with calls := [], packets := [] })
    homes := s.homes.map fun (p : Nat × Home) => (p.1, ({ mts := p.2.mts } : Home)), regions := [], net := [], ig := none }

/-- A warm reset. A lost die stays lost until a cold reset (R378); core clocks are counted from the cold reset.
DESIGN CHOICE (log 6). DEDUCED (log 31). -/
def State.warmReset (s : State) : State :=
  let r := s.resetSteps
  let s' := s.afterReset s.keptWindow r.hbm (memoryMarks r.bad) r.port.store
  { s' with
    cycle := s.cycle, ticks := s.cycle / 64, errors := r.errors
    busy := { s'.busy with deadDie := s.busy.deadDie, salvaged := s.busy.salvaged } }

/-- TJ of a die (Table 28.5). DESIGN CHOICE (log 13). -/
def State.junction (s : State) (die : Nat) : Nat := Bits.field (s.reg 0x106208) (8 * die) 8

/-- A write of 1 to WARM: ignored while a reset is running, as one that found no good image is; while the module is held after
a trip it needs both dies below 90 °C (R416 to R418). DEDUCED (log 31). -/
def State.askReset (s : State) : State :=
  if s.busy.bootFailed || (s.busy.held && !(decide (s.junction 0 < 90) && decide (s.junction 1 < 90))) then s
  else s.warmReset

/-- WARM_RESET: a write of 1 to WARM (R416). -/
def execWarmReset (s : State) : Host.Outcome State Fault Refusal := .next s.askReset

/-- CXL_HOT_RESET starts a warm reset; it does not lift the hold of a thermal trip (R416, R418). -/
def execCxlHotReset (s : State) : Host.Outcome State Fault Refusal := .next (if s.busy.held then s else s.warmReset)

/-- COLD_RESET: power-on; the host-line store is emptied, nothing but the host's own memory is kept (R416). -/
def execColdReset (s : State) : Host.Outcome State Fault Refusal :=
  .next (s.afterReset [] [] (s.bad.filter fun p => decide (2 ^ 58 ≤ p.1) && decide (p.1 < 2 ^ 60)) [])

/-! ### Temperature (R418) -/

/-- PWRSTAT shows a die's junction temperature. -/
def State.setJunction (s : State) (die temp : Nat) : State := s.setRegField 0x106208 (8 * die) 8 temp

/-- A sensor reads another value: TJ of die 0 or 1 within the range in which nothing follows, or 2 for the coolant inlet.
Values beyond come with the events that they bring. DESIGN CHOICE (log 13). -/
def State.sense (s : State) (sensor temp : Nat) : State :=
  if sensor = 2 then s.setRegField 0x106208 16 8 temp
  else
    let hot := Tab.getD s.throttled sensor false
    if sensor < 2 && (if hot then decide (95 ≤ temp) && decide (temp ≤ 110) else decide (temp ≤ 100)) then
      s.setJunction sensor temp
    else s

/-- THERMAL_THROTTLE: above 100 °C the die's grants fall to the minimum. -/
def execThermalThrottle (die temp : Nat) (s : State) : Host.Outcome State Fault Refusal :=
  if 100 < temp ∧ temp ≤ 110 then
    .next { s.setJunction die temp with
      throttled := Tab.set false die true s.throttled, grants := Tab.put die 64 s.grants }
  else notEnabled "THERMAL_THROTTLE"

/-- THERMAL_RECOVER: below 95 °C throttling ends. -/
def execThermalRecover (die temp : Nat) (s : State) : Host.Outcome State Fault Refusal :=
  if temp < 95 then .next { s.setJunction die temp with throttled := Tab.set false die false s.throttled }
  else notEnabled "THERMAL_RECOVER"

/-- THERMAL_TRIP: above 110 °C, warm-reset steps 1 to 3, viral, and the module is held in reset. -/
def execThermalTrip (die temp : Nat) (s : State) : Host.Outcome State Fault Refusal :=
  if 110 < temp then
    let s := (s.setJunction die temp).resetSteps
    .next { s with busy := { s.busy with held := true }, port := { s.port with viral := true } }
  else notEnabled "THERMAL_TRIP"

/-! ### Power gating (R419) -/

def pwrCfg : Nat := 0x106200

/-- The greatest logical clock of the part. -/
def State.latest (s : State) : Nat := (s.clocks.map (·.2)).foldl max 0

/-- Restores a die's power: its clocks, its slices' MTS and its stacks' platens stand at the greatest clock. -/
def State.ungate (s : State) (die : Nat) : State :=
  let t := s.latest
  let s := (dieClocks die ++ (List.range 6).map fun i => platenClock (die * 6 + i)).foldl (fun s k => s.raise k t) s
  let s := (List.range 72).foldl (fun s i => s.modHome (die * 72 + i) fun h => { h with mts := t }) s
  let s := (List.range 6).foldl (fun s i => s.modPlaten (die * 6 + i) fun p => { p with mem := t }) s
  { s with powered := Tab.set true die true s.powered }

/-- A write to PWRCFG: budgets of at most 1,700 W; a write that leaves both GATE bits set is ignored (Table 28.5, R419). -/
def State.writePwrcfg (s : State) (v : Nat) : State :=
  let gate := Bits.field v 32 2
  if gate = 3 then s
  else
    let bud := fun lo => min 1700 (Bits.field v lo 16)
    let s := s.setReg pwrCfg (bud 0 + bud 16 * 2 ^ 16 + gate * 2 ^ 32)
    (List.range 2).foldl (fun s d => if !Bits.bit gate d && !s.hasPower d then s.ungate d else s) s

/-- POWER_GATE_REQUEST: GATE bit d is set. -/
def execPowerGateRequest (die : Nat) (s : State) : Host.Outcome State Fault Refusal :=
  .next (s.writePwrcfg (s.reg pwrCfg - Bits.field (s.reg pwrCfg) (32 + die) 1 * 2 ^ (32 + die) + 2 ^ (32 + die)))

/-- POWER_UNGATE: GATE bit d is cleared. -/
def execPowerUngate (die : Nat) (s : State) : Host.Outcome State Fault Refusal :=
  .next (s.writePwrcfg (s.reg pwrCfg - Bits.field (s.reg pwrCfg) (32 + die) 1 * 2 ^ (32 + die)))

/-- Whether a die is idle: no team or forme, no job or platen call of its agents (one that a
thread of its cores issued, or that its platens run), no collective traffic, no access of this
module on its ports. -/
def State.dieIdle (s : State) (die : Nat) : Bool :=
  !(s.teams.any fun (_, t) => t.die == die) && !(s.formes.any fun (_, f) => dieOf f.core == die)
    && !(s.jobs.any fun (_, j) => dieOf j.core == die || j.kind == .coll)
    && !(s.platens.any fun (st, p) => (dieOfStack st == die && (!p.calls.isEmpty || !p.packets.isEmpty))
      || p.calls.any fun (_, c) => dieOf c.core == die)
    && !(s.fabric.out.any fun (_, o) => o.plane / 64 == die)
    && !(s.fabric.homePackets.any fun (d, _) => d == die)

/-- Whether no protocol message of a die's regions or homes is under way, and nothing waits at its homes. -/
def State.dieQuiet (s : State) (die : Nat) : Bool :=
  (s.net.all fun (_, m) => m.region / 8 != die && homeDie m.line != some die)
    && s.homes.all fun (h, g) => (h / 72 != die && h != portHome) ||
      (g.queue.isEmpty && g.lines.all fun (_, l) => !l.state.transient)

/-- The owned lines that go home before a die loses power: those whose home is on it, and those its regions hold. -/
def State.gateLines (s : State) (die : Nat) : List Nat :=
  (s.residentLines false).filter fun ln =>
    match s.ownerOf ln with
    | some r => homeDie ln == some die || r / 8 == die
    | none => false

/-- The host lines that leave their owners and the port before a die loses power: every owned, dirty one of the part if the
die is die 0 or holds owned host lines, and every one that the die's regions own (R59, R419). -/
def State.gateHostLines (s : State) (die : Nat) : List Nat :=
  let host := s.residentLines true
  let own := fun ln => ((s.ownerOf ln).map (· / 8)) == some die
  let every := die == 0 || host.any own
  host.filter fun ln => own ln || (every && s.dirtyLine ln)

/-- A host line leaves its owner and the port; a dirty one goes into the host-line store, which keeps its ownership; an
uncorrectable one is logged (R37, R59). The port clock rises to its RTS, as when a line leaves the port for the host.
DESIGN CHOICE (log 65). -/
def State.toStore (s : State) (ln : Nat) : State :=
  let s := (s.recallNow ln true).1
  let l := s.lineAt ln
  let s : State := if l.dirty then
      let s := s.logLine l.data
      { s with port := { s.port with store := Tab.put ln l.data s.port.store } }
    else s
  (s.modHome portHome fun h => { h with lines := Tab.del ln h.lines }).raise portClock l.rts

/-- Takes the power from an idle die: its caches and tables, the spawn bins, trackers and cancel flags of its cores among them,
are lost (R419, steps 2 and 3). DEDUCED (log 31). -/
def State.gate (s : State) (die : Nat) : State :=
  let s := (s.gateLines die).foldl (fun s ln => (s.recallNow ln true).1) s
  let s := s.flushDevice fun ln => homeDie ln == some die
  let s := (s.gateHostLines die).foldl State.toStore s
  { s with
    homes := s.homes.map fun (p : Nat × Home) => if p.1 < 144 && p.1 / 72 == die then (p.1, ({ mts := p.2.mts } : Home)) else p
    regions := s.regions.filter fun p => p.1 / 8 != die
    tlbs := s.tlbs.filter fun p => if p.1 < 192 then dieOf p.1 != die else p.1 != dieTlb die
    misses := s.misses.filter fun p => p.1 / 4096 != die
    imprints := s.imprints.filter fun p => p.2.die != die
    cores := s.cores.filter fun p => dieOf p.1 != die
    fabric := { s.fabric with up := s.fabric.up.filter fun p => p.1 / 64 != die }
    powered := Tab.set true die false s.powered }

/-- POWER_GATE_COMPLETE: an idle die writes back its lines and loses power. It waits for protocol messages under way. -/
def execPowerGateComplete (die : Nat) (s : State) : Host.Outcome State Fault Refusal :=
  if Bits.bit (s.reg pwrCfg) (32 + die) && s.hasPower die && s.dieIdle die then
    .next (if s.dieQuiet die then s.gate die else s)
  else notEnabled "POWER_GATE_COMPLETE"

/-! ### Loss of a die (R63, R64) -/

/-- DIE_LOSS_DETECT: the surviving die stops issue (R63, step 1); a gated die has not failed (R419). What die f held is
lost. -/
def execDieLossDetect (die : Nat) (s : State) : Host.Outcome State Fault Refusal :=
  if s.busy.deadDie.isNone && s.hasPower die then
    .next { s with
      busy := { s.busy with deadDie := some die, salvaged := false }
      regions := s.regions.filter fun p => p.1 / 8 != die
      homes := s.homes.filter fun p => p.1 == portHome || p.1 / 72 != die
      net := s.net.filter fun p => p.2.region / 8 != die && homeDie p.2.line != some die }
  else notEnabled "DIE_LOSS_DETECT"

/-- The survivor's records: owned, dirty lines of its regions whose home stack attaches to the lost die, with their region,
in index order of the region slices, within a slice by address (R63, step 3). DESIGN CHOICE (log 58). -/
def State.salvageLines (s : State) (lost : Nat) : List (Nat × Nat × Copy) :=
  (s.regions.filter fun p => p.1 / 8 != lost).flatMap fun (r, g) =>
    (List.range 12).flatMap fun i =>
      (g.copies.filter fun (ln, c) => c.owned && c.dirty && homeDie ln == some lost && sliceOf ln == i).map
        fun (ln, c) => (r, ln, c)

/-- The first byte of a stack's salvage area, if it has one (Table 3.6). -/
def State.salvageBase (s : State) (stack : Nat) : Option Nat :=
  let size := s.reg 0x100600 % 2 ^ 4 * 2 ^ 24
  let linear := Config.stackBytes - Config.interleaved
  if size = 0 ∨ linear < size then none else some (linearBase + stack * linearStride + linear - size)

/-- A salvage record (Table 3.7). -/
def salvageRecord (r ln : Nat) (c : Copy) : Nat :=
  lineBase ln + 2 ^ 64 + (lineBad c.data).isSome.toNat * 2 ^ 65 + r % 8 * 2 ^ 72 + lineRead c.data 0 128 * 2 ^ 128

/-- Writes the survivor's salvage areas (R64). -/
def State.salvage (s : State) (lost : Nat) : State :=
  let first := (1 - lost) * 6
  let records := (s.salvageLines lost).zipIdx
  (List.range 6).foldl (fun s k =>
    match s.salvageBase (first + k) with
    | none => s
    | some base =>
      let mine := records.filter fun e => e.2 % 6 == k
      let hbm := writeBytes s.hbm base 64 (1 + mine.length * 2 ^ 64 + lost * 2 ^ 128)
      let hbm := mine.foldl (fun m e =>
        writeBytes m (base + 64 + 144 * (e.2 / 6)) 144 (salvageRecord e.1.1 e.1.2.1 e.1.2.2)) hbm
      { s.healMem base (64 + 144 * mine.length) with hbm }) s

/-- Ends every resident launch with CODE HOME_LOST, where a completion entry can still be written: with die 0 the host link
is lost, and an entry in the lost die's memory is lost with it (R63, R378). -/
def State.endLaunches (s : State) (lost : Nat) : State :=
  let s := s.launchKeys.foldl (fun s k =>
    match Tab.find k s.launches with
    | none => s
    | some l =>
      let device := decide (64 ≤ l.queue) && decide (l.queue < sysQueue)
      let able := if device then (l.comp.map fun pa => homeDie (deviceLine pa) != some lost).getD false else lost != 0
      if able then
        s.writeEntry l.queue l.index l.comp l.time (compEntry l.skip 0 Code.homeLost l.id l.index l.bnd)
      else s) s
  { s with launches := [] }

/-- Whether a line can no longer leave its transient state: a platen call whose cores have stopped holds it, its owner was on
the lost die, or it awaits the host and the host link went with die 0. -/
def State.stuckLine (s : State) (lost ln : Nat) : Bool :=
  let st := s.lineState ln
  s.isLent ln || (if st == .hb then lost == 0 else st.transient && (s.ownerOf ln).isNone)

/-- Whether a line can no longer get a way in its home's set: the one recall that its set may have under way never ends, or
every line of the set is stuck (R40). -/
def State.wayStuck (s : State) (lost ln : Nat) : Bool :=
  let set := (s.home (homeOf ln)).lines.filter fun (k, _) => homeSet k == homeSet ln
  !s.isResident ln && decide (16 ≤ set.length) && ((s.choosable set).all fun (_, l) => l.hostHeld)
    && ((set.any fun (k, l) => l.leaving && s.stuckLine lost k) || set.all fun (k, _) => s.stuckLine lost k)

/-- Whether a line can no longer get a directory entry: every entry of its set belongs to a stuck line (R50). -/
def State.dirStuck (s : State) (lost ln : Nat) : Bool :=
  let same := (s.home (homeOf ln)).dir.filter fun e => Config.dirSet e.line % 512 == Config.dirSet ln % 512
  decide (8 ≤ same.length) && same.all fun e => s.stuckLine lost e.line

/-- Whether a request can no longer be completed. -/
def State.neverServed (s : State) (lost : Nat) (r : HReq) : Bool :=
  s.stuckLine lost r.line || s.wayStuck lost r.line
    || ((r.kind == .getx || r.kind == .upg) && s.lineState r.line == .h && s.dirStuck lost r.line)

/-- Whether a request, or an earlier waiter for its line, can no longer be completed. -/
def State.isLost (s : State) (lost : Nat) (r : HReq) : Bool :=
  s.neverServed lost r
    || (s.home (homeOf r.line)).queue.any fun q => q.line == r.line && s.neverServed lost q

/-- Whether requests to the survivor's own home slices are complete, but those that no longer can be: those under way, those
answered NACK, those that wait in a line queue, those that a transient line holds (R63, step 2). -/
def State.survivorQuiet (s : State) (lost : Nat) : Bool :=
  (s.net.all fun (_, m) => homeDie m.line != some (1 - lost) ||
    match m.kind with
    | .wake .. => true
    | .retry r _ => s.isLost lost r
    | _ => false)
    && s.homes.all fun (h, g) => h == portHome ||
      (g.queue.all (s.isLost lost) && g.lines.all fun (_, l) => (l.pend.filter fun r => r.kind != .recall).all (s.isLost lost))

/-- SALVAGE_DONE: the salvage areas are written, DONE is set, and HOME_LOST is raised: through viral and the event ring when
die 1 is lost, posted to the module controller when die 0 is, for the host link went with it (R63, R64, R378). It waits for
the survivor's requests. -/
def execSalvageDone (s : State) : Host.Outcome State Fault Refusal :=
  match s.busy.deadDie with
  | none => notEnabled "SALVAGE_DONE"
  | some lost =>
    if s.busy.salvaged then notEnabled "SALVAGE_DONE"
    else if !s.survivorQuiet lost then .next s
    else
      let s := (s.salvage lost).setRegField 0x100600 4 1 1
      let s := { s with busy := { s.busy with salvaged := true } }
      let s : State := if lost = 0 then { s with port := { s.port with posted := s.port.posted ++ [(Code.homeLost, lost)] } }
        else ({ s with port := { s.port with viral := true } } : State).hostEvent
          { kind := 6, code := Code.homeLost, tinfo := lost }
      .next (s.endLaunches lost)

end Sys2Proof.Machine
end

