-- ==== Sys2Proof/Machine/Readback.lean ====
section
/-! DEFINITION. State readback: what the aperture shows of each space, and what a write through it does (R420, R421, Table
28.6). Where the spec lists a space's fields without their widths the model lays them out itself (DESIGN CHOICE, log 18). -/

namespace Sys2Proof.Machine

/-- A field of STSEL. -/
def State.stSpace (s : State) : Nat := Bits.field (s.reg 0x106400) 56 8
def State.stIndex (s : State) : Nat := Bits.field (s.reg 0x106400) 24 32
def State.stPage (s : State) : Nat := s.reg 0x106400 % 2 ^ 24

/-- Teams of a core in the order of their stamps: team slots (DESIGN CHOICE, log 18). -/
def State.teamSlots (s : State) (core : Nat) : List (Nat × Team) :=
  (s.teams.filter fun p => p.2.place == .core core).mergeSort fun a b => decide (a.2.stamp ≤ b.2.stamp)

/-- The team and group that hold a group slot. -/
def State.slotHolder (s : State) (core part slot : Nat) : Option (Nat × Team × Nat) :=
  s.teams.findSome? fun (k, t) =>
    if t.place == .core core then
      (t.groups.find? fun p => p.2.held && p.2.part == part && p.2.slot == slot).map fun p => (k, t, p.1)
    else none

/-- An imprint table entry as Table 21.4 lays it out. -/
def Imprint.image (e : Imprint) : Nat :=
  e.buf % 2 ^ 32 + e.tx % 2 ^ 16 * 2 ^ 32 + e.ty % 2 ^ 16 * 2 ^ 48 + e.gen % 2 ^ 16 * 2 ^ 64 + e.pgen % 2 ^ 16 * 2 ^ 80
    + e.outst % 2 ^ 16 * 2 ^ 96 + e.ctx % 2 ^ 6 * 2 ^ 112 + (if e.posted then 2 else 1) * 2 ^ 118
    + e.bound.toNat * 2 ^ 120 + e.abn.toNat * 2 ^ 121 + e.time % 2 ^ 64 * 2 ^ 128 + e.launch % 2 ^ 32 * 2 ^ 192

/-- A home line's state as Table 3.1 orders it, from 0. -/
def HState.number : HState → Nat
  | .h => 0 | .o => 1 | .ou => 2 | .of => 3 | .od => 4 | .hb => 5 | .l => 6

/-- Fields of equal records of `n` bytes, laid one after another. -/
def laidOut {α : Type} (n : Nat) (f : α → List Field) (l : List α) : List Field :=
  l.zipIdx.flatMap fun p => shift (n * p.2) (f p.1)

/-- Eight bytes of what fields leave. -/
def shown (fs : List Field) (b : Nat) : Nat :=
  readBytes (imageOf (fs.filter fun f => decide (f.1 < b + 8) && decide (b < f.1 + f.2.1))) b 8

/-- A wait entry of a home slice in 48 bytes: as a save area lays it out, its physical address, its thread's context, core,
group slot with its partition, and lane (R60; DESIGN CHOICE, log 18). -/
def State.waitFields (s : State) (w : WaitEntry) : List Field :=
  let t := s.team? w.tid.team
  let slot := ((t.bind fun t => Tab.find (t.hw w.tid.n) t.groups).map Group.slot).getD 0
  [(0, 32, w.saved), (32, 8, w.addr), (40, 1, w.ctx), (41, 1, (t.map Team.core).getD 0),
    (42, 1, slot + 16 * (t.map fun t => t.part w.tid.n).getD 0), (43, 1, (t.map fun t => t.lane w.tid.n).getD 0)]

/-- Space 5: a home slice's ways by set, each in 168 bytes; then its directory entries in 16 bytes, its wait table in 48 bytes
an entry, and MTS (R38, R60; DESIGN CHOICE, log 18). -/
def State.homeFields (s : State) (n : Nat) : List Field :=
  let h := s.home n
  let line := fun (p : Nat × HomeLine) =>
    [(0, 8, lineBase p.1), (8, 1, (s.lineState p.1).number), (16, 8, p.2.wts), (24, 8, p.2.rts), (32, 1, p.2.hint),
      (33, 1, p.2.hostHeld.toNat)] ++ (lineBytes p.2.data).map fun d => (40 + d.1, 1, d.2.toNat)
  let entry := fun (d : DirEntry) => [(0, 8, lineBase d.line), (8, 8, d.region)]
  let ways := 168 * 16 * 1024
  (h.lines.flatMap fun p =>
      let way := (h.lines.takeWhile fun q => q.1 != p.1).filter fun q => homeSet q.1 == homeSet p.1
      shift (168 * (16 * homeSet p.1 + way.length)) (line p))
    ++ shift ways (laidOut 16 entry h.dir)
    ++ shift (ways + 16 * 4096) (laidOut 48 (fun w => s.waitFields w.2) h.waits)
    ++ [(ways + 16 * 4096 + 48 * 256, 8, h.mts)]

/-- An entry of the boundary table, in 32 bytes (R350). -/
def Boundary.fields (b : Boundary) : List Field :=
  [(0, 4, b.buf), (4, 2, b.gen), (6, 1, b.ctx), (7, 1, b.state), (8, 8, b.time), (16, 8, b.left), (24, 8, b.launch)]

/-- A translation of a die's TLB, in 32 bytes (R26). -/
def TlbEntry.fields (e : TlbEntry) : List Field := [(0, 8, e.ctx), (8, 8, e.va), (16, 8, e.size), (24, 8, e.pte)]

/-- Space 6: a die's imprint entries as Table 21.4 lays them out, in their order of allocation; then the boundary table, the
pending misses as fault records, and the die's TLB, 32 bytes an entry (R28, R30, R349, R350; DESIGN CHOICE, log 18). -/
def State.launcherFields (s : State) (die : Nat) : List Field :=
  let mine := s.imprints.filter fun p => p.2.die == die
  laidOut 32 (fun p => [(0, 32, Imprint.image p.2)]) mine
    ++ shift 0x100000 (laidOut 32 (fun p => Boundary.fields p.2) s.boundaries)
    ++ shift 0x108000 ((s.misses.filter fun p => p.1 / 4096 == die).flatMap fun (e, m) =>
        [(32 * (e % 4096), 32, faultRecord m e (Tab.getD s.slotSeq e 0))])
    ++ shift 0x128000 (laidOut 32 TlbEntry.fields (Tab.getD s.tlbs (dieTlb die) []))

/-- Bytes of a bin as space 7 shows it: its launch, entry, depth and count of tasks, then the tasks as save areas lay them
out (DESIGN CHOICE, log 18). -/
def binEntry : Nat := 32 + 32 * 32

/-- The identifier of a launch; 0 for one that is no longer resident. -/
def State.idOfLaunch (s : State) (key : Nat) : Nat := ((Tab.find key s.launches).map Launch.id).getD 0

/-- Space 7: a core's spawn bins, then its retirement tracker: launch identifier, operations and jobs of each entry (R305, R361;
DESIGN CHOICE, log 18). -/
def State.coreFields (s : State) (n : Nat) : List Field :=
  let c := s.core n
  let bin := fun (b : Bin) =>
    [(0, 8, s.idOfLaunch b.launch), (8, 8, b.entry), (16, 8, b.depth), (24, 8, b.tasks.length)]
      ++ shift 32 (laidOut 32 (fun t => [(0, 32, Bin.saved { b with tasks := [t] })]) b.tasks)
  (c.bins.flatMap fun p => shift (binEntry * p.1) (bin p.2))
    ++ shift (binEntry * 32) (c.tracker.flatMap fun (e, ops, jobs, launch) =>
        [(24 * e, 8, s.idOfLaunch launch), (24 * e + 8, 8, ops.length), (24 * e + 16, 8, jobs.length)])

/-- Bytes of an entry of the host-line store as space 10 shows it: the line's address, then its data (DESIGN CHOICE, log 18). -/
def storeEntry : Nat := 136

/-- Eight bytes of the host-line store, then of the error counters: by array, accesses lost, packets refused (R36, R281,
R285; DESIGN CHOICE, log 18). -/
def State.storeSpace (s : State) (b : Nat) : Nat :=
  let counters := Config.storeLines * storeEntry
  if b < counters then
    match s.port.store[b / storeEntry]? with
    | some (ln, d) => if b % storeEntry = 0 then lineBase ln else readBytes d (b % storeEntry - 8) 8
    | none => 0
  else
    let i := (b - counters) / 8
    if i < 16 then Tab.getD s.errors i 0
    else if i = 16 then s.fabric.lost
    else if i = 17 then s.fabric.refused
    else 0

/-- Space 1: thread, group and lane-register sections of one group, each on a 4 KiB boundary (DESIGN CHOICE, log 18). -/
def Team.groupImage (t : Team) (g : Nat) : LineData :=
  imageOf
    (((t.threads.filter fun p => t.hw p.1 == g).map fun p => (p.1 % 32 * 64, 64, p.2.saved))
      ++ [(0x1000, 128, ((Tab.find g t.groups).map (t.savedGroup g)).getD 0)] ++ shift 0x2000 (t.savedLanes g))

/-- Space 2: the save header of a team as it stands, the uniform and the named-barrier sections, each on a 4 KiB boundary
(DESIGN CHOICE, log 18). -/
def State.teamImage (s : State) (k : Nat) (t : Team) : LineData :=
  let c := (Tab.find t.cluster s.clusters).getD { launch := t.launch, index := 0, teams := [k] }
  let v : SavedTeam := { key := k, rank := t.rank, base := 0, team := t, waits := s.waitsOf k, tasks := s.tasksOf k }
  let id := ((Tab.find t.launch s.launches).map Launch.id).getD 0
  let last := (s.rankTeams c).all fun p => decide (p.1 ≤ t.rank)
  imageOf ([(0, 64, savedHeader v c last id (s.clock t.core) (v.shape.at 10))] ++ shift 0x1000 t.savedUniform
    ++ shift 0x2000 t.savedBars)

/-- Slugs of a core's partition, by stamp of their team and by name. -/
def State.partSlugs (s : State) (core part : Nat) : List (Nat × Nat × Tab Word) :=
  (s.teamSlots core).flatMap fun p => (p.2.slugList.filter fun q => q.1 / 16 == part).map fun q => (p.1, q.1, q.2)

/-- The forme of a core that holds a byte of its slice. -/
def State.formeAt (s : State) (core b : Nat) : Option (Nat × Forme) :=
  s.formes.find? fun p => p.2.core == core && decide (p.2.base ≤ b) && decide (b < p.2.base + p.2.size)

/-- The device physical address of a byte of a stack (Table 2.5). -/
def stackAddress (stack off : Nat) : Nat :=
  if off < Config.interleaved then (off / 4096 * Config.stackCount + stack) * 4096 + off % 4096
  else linearBase + stack * linearStride + (off - Config.interleaved)

/-- Word `w` of a group's lane-register section is written: the register of its lane is no longer uncorrectable (R37). -/
def Team.soundWord (t : Team) (g w : Nat) : Team :=
  match Tab.find (g * 32 + w % 32) t.threads with
  | some th => { t with threads := Tab.put (g * 32 + w % 32) { th with bad := th.bad.filter (· != w / 32) } t.threads }
  | none => t

/-- Whether a team is stopped or halted, so that writes to what it holds take effect; a team being pre-empted is neither (R421,
R340, R379). -/
def State.isHalted (s : State) (k : Nat) : Bool := ((s.team? k).map Team.stopped).getD false

/-- A group's entry as 128 bytes give it: beside the count and the member masks its extended block, split mode and live mask; its
number and its partition follow from its place. Registers that leave the extended block lose their values (R126). The extended
block is stored as written, also where it breaks the bounds of R125. DESIGN CHOICE (log 79). -/
def Team.regrouped (t : Team) (g v : Nat) : Team :=
  let x := 64 * Bits.field v 8 5
  let t := (t.modGroup g fun gr => { gr.restored t.split v with x }).dropAbove g (t.base + x)
  { t with
    split := Bits.bit v 13
    threads := t.threads.map fun (p : Nat × Thread) =>
      if t.hw p.1 == g then (p.1, { p.2 with live := Bits.bit v (32 + p.1 % 32) }) else p }

/-- Space 1: writes 8 bytes of a stopped team's group. -/
def State.writeGroupSpace (s : State) (index b v : Nat) : State :=
  match s.slotHolder (index / 64) (index % 64 / 16) (index % 16) with
  | none => s
  | some (k, t, g) =>
    if s.isHalted k then
      let img := writeBytes (t.groupImage g) b 8 v
      let t := if 0x1000 ≤ b ∧ b < 0x1080 then t.regrouped g (readBytes img 0x1000 128) else t.restoredGroup img g 0 0x1000 0x2000
      let t := if 0x2000 ≤ b then (t.soundWord g ((b - 0x2000) / 4)).soundWord g ((b - 0x2000) / 4 + 1) else t
      s.setTeam k t
    else s

/-- A team as a save header gives it; the clock, the cluster's shape and what follows from other structures aside. Registers
beyond what is then allocated lose their values (R126). BASE is stored as written, also where it breaks the bounds of R125.
DESIGN CHOICE (log 79). -/
def Team.headed (t : Team) (h : Nat) : Team :=
  let t : Team := { t with
    rank := Bits.field h 8 4, stamp := Bits.field h 64 64, x := Bits.field h 192 32, y := Bits.field h 224 32
    z := Bits.field h 256 32, dim := Bits.field h 288 11, base := Bits.field h 299 11, nbar := Bits.field h 310 11 }
  t.groups.foldl (fun t g => t.dropAbove g.1 (t.base + g.2.x)) t

/-- Space 2: writes 8 bytes of a stopped team's own sections. Of the header, LAUNCH, LAST, NSLUG, FORME, NWAIT, NTASK and AREA
follow from other structures and store nothing; LCLOCK raises the core's clock, which never decreases (R41;
DESIGN CHOICE, log 18). -/
def State.writeTeamSpace (s : State) (index b v : Nat) : State :=
  match (s.teamSlots (index / 64))[index % 64]? with
  | none => s
  | some (k, t) =>
    if s.isHalted k then
      let img := writeBytes (s.teamImage k t) b 8 v
      if b < 64 then
        let h := readBytes img 0 64
        let s := { s with clusters := Tab.modify t.cluster (fun c =>
          { c with w := Bits.field h 12 2 + 1, h := Bits.field h 14 2 + 1 }) s.clusters }
        (s.raise t.core (Bits.field h 128 64)).setTeam k (t.headed h)
      else s.setTeam k (t.restoredUniform img 0x1000 0x2000)
    else s

/-- Space 3: writes 8 bytes of a slice's forme of a stopped team, or of its tags. It is no access: a thread of another team of
the cluster that waits there for a word or a line stays parked, until an access or a job changes the state again.
DESIGN CHOICE (log 66). -/
def State.writeFormeSpace (s : State) (core b v : Nat) : State :=
  let tags := decide (0x80000 ≤ b)
  let first := if tags then (b - 0x80000) / 32 * 128 else b
  match s.formeAt core first with
  | none => s
  | some (k, f) =>
    if s.isHalted k then
      let off := first - f.base
      let f' : Forme :=
        if tags then
          let old := f.savedTags (off / 128)
          let at' := b % 32 * 8
          f.restoredTags (off / 128) (old - Bits.field old at' 64 * 2 ^ at' + v * 2 ^ at')
        else { f with data := writeBytes f.data off 8 v }
      { s with
        formes := Tab.put k f' s.formes
        bad := if tags then s.bad else Tab.del (badForme k off) s.bad }
    else s

/-- The slug list index that a binding byte of a partition's galley section shows. -/
def boundTo (slugs : List (Nat × Nat × Tab Word)) (name : Nat) : Nat :=
  let i := slugs.findIdx fun p => p.2.1 == name
  if i < slugs.length then i else 0xFF

/-- Space 4, binding bytes: each name of the partition whose byte changes is bound to the slug of that index in the list, which
gives up its own name, or freed; of stopped teams only. Marks of uncorrectable words go with their slug (DESIGN CHOICE,
log 18). -/
def State.rebindSlugs (s : State) (core part b v : Nat) : State :=
  let slugs := s.partSlugs core part
  let own := fun (i : Nat) => (slugs[i]?).filter fun p => s.isHalted p.1
  let changed := ((List.range 8).map fun j => (b + j, Bits.field v (8 * j) 8)).filter fun p =>
    p.1 / 16 == part && p.2 != boundTo slugs p.1
  let moved : List (Nat × Nat × Nat × Nat) := changed.filterMap fun (name, i) =>
    (own i).map fun p => (name, p.1, p.2.1, 64 + 4 * (s.nextTag + name) + part)
  let marks : List (Nat × Nat × Nat) := moved.flatMap fun (name, k, old, _) =>
    let first := badSlug k part (old % 16) 0
    (s.bad.filter fun p => decide (first ≤ p.1) && decide (p.1 < first + 1024)).map fun p =>
      (p.1, p.1 - first + badSlug k part (name % 16) 0, p.2)
  let bad := marks.foldl (fun b (m : Nat × Nat × Nat) => Tab.put m.2.1 m.2.2 b)
    (marks.foldl (fun b (m : Nat × Nat × Nat) => Tab.del m.1 b) s.bad)
  let s : State := { s with nextTag := s.nextTag + 64, bad }
  let s := moved.foldl (fun (s : State) (_, k, old, kept) => s.moveSlug core k old kept) s
  let s := changed.foldl (fun (s : State) (name, _) =>
    match own (boundTo slugs name) with
    | some p => s.freeSlug core p.1 name
    | none => s) s
  (moved.foldl (fun (s : State) (name, k, _, kept) => s.moveSlug core k kept name) s).settleSlugs core part false 64

/-- Space 4: writes 8 bytes of the names' bindings, or of a stopped team's slug. -/
def State.writeGalleySpace (s : State) (core part b v : Nat) : State :=
  if b < 64 then s.rebindSlugs core part b v
  else
    match (s.partSlugs core part)[(b - 64) / 4096]? with
    | none => s
    | some (k, name, words) =>
      if s.isHalted k then
        let w := (b - 64) % 4096 / 4
        let words := Tab.set 0 (w + 1) (BitVec.ofNat 32 (v / 2 ^ 32)) (Tab.set 0 w (BitVec.ofNat 32 v) words)
        let s := s.modTeam k fun t => { t with slugs := Tab.put name words t.slugs }
        let mark := fun i => badSlug k (name / 16) (name % 16) (w + i)
        { s with bad := Tab.del (mark 1) (Tab.del (mark 0) s.bad) }
      else s

/-- Space 9: writes 8 bytes of HBM, outside S and past the caches, unless the stack's die is gated (R419, R421). -/
def State.writeHbmSpace (s : State) (stack b v : Nat) : State :=
  if stack < Config.stackCount && decide (b < Config.stackBytes) && s.hasPower (dieOfStack stack) then
    { s with hbm := writeBytes s.hbm (stackAddress stack b) 8 v }
  else s

/-- The head of a bin with one of its words replaced; an identifier that names no resident launch is not taken, and the count of
its tasks follows from them. -/
def State.headBin (s : State) (bin : Bin) (w v : Nat) : Bin :=
  match w with
  | 0 => { bin with launch := ((s.launchNamed v).map (·.1)).getD bin.launch }
  | 1 => { bin with entry := v }
  | 2 => { bin with depth := v }
  | _ => bin

/-- Space 7: writes 8 bytes of a task that a stopped team offered, its argument or its clock, or of the head of a bin that holds
tasks of stopped teams alone. A task has its bin's entry and depth, and the retirement tracker holds nothing of a team that
is stopped (DESIGN CHOICE, log 18). -/
def State.writeBinSpace (s : State) (core b v : Nat) : State :=
  let key := b / binEntry
  match Tab.find key (s.core core).bins with
  | none => s
  | some bin =>
    let put := fun (bin : Bin) => s.modCore core fun c => { c with bins := Tab.put key bin c.bins }
    let i := (b % binEntry - 32) / 32
    if b % binEntry < 32 then
      if bin.tasks.all fun t => s.isHalted t.team then put (s.headBin bin (b % binEntry / 8) v) else s
    else
      match bin.tasks[i]? with
      | none => s
      | some t =>
        if s.isHalted t.team then
          let one : Bin := { bin with tasks := [t] }
          let img := writeBytes (imageOf [(0, 32, one.saved)]) (b % binEntry % 32) 8 v
          let ts := (one.restored (readBytes img 0 32)).tasks
          put { bin with tasks := bin.tasks.take i ++ ts ++ bin.tasks.drop (i + 1) }
        else s

/-- A write into the aperture (R421). -/
def State.writeReadback (s : State) (off v : Nat) : State :=
  let b := s.stPage * 2 ^ 24 + off % 2 ^ 24
  let n := s.stIndex
  match s.stSpace with
  | 1 => s.writeGroupSpace n b v
  | 2 => s.writeTeamSpace n b v
  | 3 => s.writeFormeSpace n b v
  | 4 => if n < 768 then s.writeGalleySpace (n / 4) (n % 4) b v else s
  | 7 => s.writeBinSpace n b v
  | 9 => s.writeHbmSpace n b v
  | _ => s

/-- STATE_READBACK_WRITE (R421). -/
def execStateReadbackWrite (offset : Nat) (value : DWord) (s : State) : Host.Outcome State Fault Refusal :=
  .next (if offset % 8 = 0 then s.writeReadback offset value.toNat else s)

/-! ### Reads -/

/-- Eight bytes of the unit that STSEL names; a space or unit that does not exist reads 0 (R420). -/
def State.readReadback (s : State) (off : Nat) : Nat :=
  let b := s.stPage * 2 ^ 24 + off % 2 ^ 24
  let n := s.stIndex
  match s.stSpace with
  | 1 =>
    match s.slotHolder (n / 64) (n % 64 / 16) (n % 16) with
    | some (_, t, g) => readBytes (t.groupImage g) b 8
    | none => 0
  | 2 =>
    match (s.teamSlots (n / 64))[n % 64]? with
    | some (k, t) => readBytes (s.teamImage k t) b 8
    | none => 0
  | 3 =>
    let tags := decide (0x80000 ≤ b)
    let first := if tags then (b - 0x80000) / 32 * 128 else b
    match s.formeAt n first with
    | some (_, f) =>
      if tags then Bits.field (f.savedTags ((first - f.base) / 128)) (b % 32 * 8) 64
      else readBytes f.data (first - f.base) 8
    | none => 0
  | 4 => if n < 768 then readBytes (imageOf (savedGalley ((s.partSlugs (n / 4) (n % 4)).map fun p => p.2))) b 8 else 0
  | 5 => if n < portHome then shown (s.homeFields n) b else 0
  | 6 => if n < 2 then shown (s.launcherFields n) b else 0
  | 7 => if n < 192 then shown (s.coreFields n) b else 0
  | 8 => if n = 0 ∧ b / 8 ≤ portClock then s.clock (b / 8) else 0
  | 9 => if n < Config.stackCount ∧ b < Config.stackBytes ∧ s.hasPower (dieOfStack n) then
      readBytes s.hbm (stackAddress n b) 8 else 0
  | 10 => if n = 0 then s.storeSpace b else 0
  | _ => 0

end Sys2Proof.Machine
end

