-- ==== Sys2Proof/Machine/Manage.lean ====
section
/-! DEFINITION. The management window: what a write to each register does, `syswr`, instruction cache invalidation,
SYSLAUNCH, and what a read of the window returns (R339, R395, R412 to R415). -/

namespace Sys2Proof.Machine

/-! ### Instruction caches (R395) -/

def codeInv : Nat := 0x105800

/-- A write to CODEINV: GO starts the dropping unless one runs (R395). -/
def State.writeCodeinv (s : State) (v : Nat) : State :=
  if Bits.bit v 0 then { s with busy := { s.busy with codeinv := true } } else s

/-- CODEINV_GO (R395). -/
def execCodeinvGo (s : State) : Host.Outcome State Fault Refusal := .next (s.writeCodeinv 1)

/-- CODEINV_COMPLETE: no instruction cache of a die or a platen holds a line, and BUSY reads 0 (R395). -/
def execCodeinvComplete (s : State) : Host.Outcome State Fault Refusal :=
  if s.busy.codeinv then
    .next { s with
      cores := s.cores.map fun (p : Nat × Core) => (p.1, { p.2 with icache := [] })
      nearCaches := [], busy := { s.busy with codeinv := false } }
  else notEnabled "CODEINV_COMPLETE"

/-! ### SYSLAUNCH (R414) -/

def sysLaunch : Nat := 0x106000

/-- A write to SYSLAUNCH: GO submits the record at ADDR; with BUSY 1 a write of GO is ignored (R414). -/
def State.writeSyslaunch (s : State) (v : Nat) : State :=
  let addr := Bits.field v 6 46 * 2 ^ 6
  if Bits.bit v 0 then
    if s.sysRecord.isSome then s else { s.setReg sysLaunch addr with sysRecord := some addr }
  else s.setReg sysLaunch addr

/-- SYSLAUNCH (R414). -/
def execSyslaunch (value : DWord) (s : State) : Host.Outcome State Fault Refusal := .next (s.writeSyslaunch value.toNat)

/-! ### Registers (R412) -/

/-- A write to FLTREPLY (Table 2.10): codes 2 and 3 are RETRY (R31). -/
def State.writeFltreply (s : State) (v : Nat) : State :=
  let slot := v % 2 ^ 13
  match s.answered slot (Bits.field v 32 32) with
  | some m => if Bits.field v 13 2 = 1 then s.refuseMiss slot m (protection 7 m.va) else s.releaseMiss slot m
  | none => s

/-- A write to a register of host queue `q` (Table 21.1, R342). -/
def State.writeQueue (s : State) (off q v : Nat) : State :=
  let ring := fun (r : Nat) => if Bits.bit (s.reg (hqCtl q)) 31 then s else s.setReg r (Bits.field v 12 40 * 2 ^ 12)
  match off % 32 with
  | 0 => ring (hqBase q)
  | 8 => ring (hqComp q)
  | 16 => s.writeHqctl q v
  | _ => s.doorbell q v

/-- The value that a write of `v` leaves in a register that only stores, or `none` where the offset names no such register.
`old` is what it holds; read-only bits and reserved fields are unaffected (R5). -/
def storedValue (off old v : Nat) : Option Nat :=
  let page := Bits.field v 12 40 * 2 ^ 12
  if 0x100000 ≤ off ∧ off < 0x100200 then some (page + v % 2)                                    -- CTXROOT
  else if off = 0x100208 then some (Bits.field v 8 44 * 2 ^ 8)                                   -- FLTBASE
  else if 0x100400 ≤ off ∧ off < 0x100600 then some (min 1024 (max 8 (v % 2 ^ 11)))              -- LEASECFG
  else if off = 0x100600 then some (Bits.field old 4 1 * 2 ^ 4 + v % 2 ^ 4)                      -- SALVCFG
  else if off = 0x100800 then some (if v % 2 ^ 10 < 576 then v % 2 ^ 10 else 0x3FF)              -- MODID
  else if off = 0x104C00 then some (max 64 (v % 2 ^ 16))                                         -- SPAWNCFG
  else if off = 0x105000 then some page                                                          -- EVTBASE
  else if off = 0x105008 then
    some (Bits.field old 32 16 * 2 ^ 32 + Bits.field v 31 1 * 2 ^ 31 + Bits.field old 16 12 * 2 ^ 16 + v % 2 ^ 12)
  else if off = 0x105010 then some (v % 2 ^ 16)                                                  -- WDOGCFG
  else if 0x105400 ≤ off ∧ off < 0x105600 then some page                                         -- SAVEPOOL
  else if off = 0x106008 then some (Bits.field v 4 48 * 2 ^ 4)                                   -- SYSCOMP
  else if 0x106100 ≤ off ∧ off < 0x106180 then some (if off % 16 = 0 then page + v % 2 else page) -- IOAP
  else if off = 0x106400 then some (v % 2 ^ 64)                                                  -- STSEL
  else none

/-- A write of `v` to the window at `off`: the register's own effect, or its stored value; else ignored (R412). -/
def State.writeReg (s : State) (off v : Nat) : State :=
  if off % 8 ≠ 0 ∨ 0x2000000 ≤ off then s
  else if 0x1000000 ≤ off then s.writeReadback off v
  else if off = 0x100200 then s.tlbinvWrite v
  else if off = 0x100218 then s.writeFltreply v
  else if 0x101000 ≤ off ∧ off < 0x103000 then s.writeCgrptab ((off - 0x101000) / 8) v
  else if 0x104000 ≤ off ∧ off < 0x104800 then s.writeQueue off ((off - 0x104000) / 32) v
  else if off = 0x104800 then
    match s.launchNamed (v % 2 ^ 32) with
    | some (key, _) => s.cancelLaunch key
    | none => s
  else if off = 0x105018 then s.writePreempt v
  else if off = 0x105020 then s.teamctl (Bits.field v 14 2) (v % 2 ^ 8) (Bits.field v 8 2) (Bits.field v 10 4)
  else if off = codeInv then s.writeCodeinv v
  else if off = sysLaunch then s.writeSyslaunch v
  else if off = 0x106010 then if Bits.bit v 0 then s.askReset else s
  else if off = pwrCfg then s.writePwrcfg v
  else
    match storedValue off (s.reg off) v with
    | some x => s.setReg off x
    | none => s

/-- A write of `size` bytes to the window: any size but 8 is ignored (R412). -/
def State.windowWrite (s : State) (off size v : Nat) : State := if size = 8 then s.writeReg off v else s

/-- REGISTER_WRITE, an access of 8 bytes (R412). -/
def execRegisterWrite (offset : Nat) (value : DWord) (s : State) : Host.Outcome State Fault Refusal :=
  .next (s.windowWrite offset 8 value.toNat)

/-- `syswr`: writes pair A to the register at byte offset zext(IMM22) × 8 (R339). PRIVILEGED in user mode (R324). -/
def execSyswr (x : XForm) (s : State) : Host.Outcome State Fault Refusal :=
  execSeq x.words none (fun s c =>
    if !c.team.system then .error (.fault { code := Code.privileged, info := word0 .syswr x })
    else do
      let r ← c.operands .syswr x 2 0 0
      let s ← s.claimRegs c r.srcs []
      return s.windowWrite (8 * x.imm.toNat) 8 (c.th.vs r.a 2)) s

/-! ### Reads -/

/-- Bits of a register that live outside its stored value: BUSY of CODEINV and SYSLAUNCH, HLCNT, GATED, THROT and PREEMPT's
BUSY. -/
def State.shownBits (s : State) (off : Nat) : Nat :=
  if off = codeInv then s.busy.codeinv.toNat * 2
  else if off = sysLaunch then s.sysRecord.isSome.toNat * 2
  else if off = 0x106010 then s.port.store.length % 2 ^ 16 * 2 ^ 16
  else if off = 0x106208 then
    (!s.hasPower 0).toNat * 2 ^ 26 + (!s.hasPower 1).toNat * 2 ^ 27
      + (Tab.getD s.throttled 0 false).toNat * 2 ^ 24 + (Tab.getD s.throttled 1 false).toNat * 2 ^ 25
  else if off = preemptReg then s.busy.preempt.isSome.toNat * 2 ^ 34
  else 0

/-- What an aligned 8-byte read of the window returns; an offset that names no register reads 0 (R412). It changes no
state (R421). -/
def State.windowRead (s : State) (off : Nat) : Nat :=
  if off % 8 ≠ 0 ∨ 0x2000000 ≤ off then 0
  else if 0x1000000 ≤ off then s.readReadback off
  else s.reg off + s.shownBits off

/-- What a read of `size` bytes of the window returns: 0 for any size but 8 (R412). -/
def State.windowLoad (s : State) (off size : Nat) : Nat := if size = 8 then s.windowRead off else 0

end Sys2Proof.Machine
end

