-- ==== Sys2Proof/Machine/Dispatch.lean ====
section
/-! DEFINITION. One arm per constructor of `Instr`: each is one direct call of its meaning. -/

namespace Sys2Proof.Machine

/-- What an instruction, or an agent's step, does (spec/opcode_table.json). -/
def exec (i : Instr) (s : State) : Host.Outcome State Fault Refusal :=
  match i with
  | .add x => Sys2Proof.Machine.execAdd x s
  | .addBase f => Sys2Proof.Machine.execAddBase f s
  | .addImmBase f => Sys2Proof.Machine.execAddImmBase f s
  | .sub x => Sys2Proof.Machine.execSub x s
  | .subBase f => Sys2Proof.Machine.execSubBase f s
  | .subImmBase f => Sys2Proof.Machine.execSubImmBase f s
  | .mul x => Sys2Proof.Machine.execMul x s
  | .mulBase f => Sys2Proof.Machine.execMulBase f s
  | .mulImmBase f => Sys2Proof.Machine.execMulImmBase f s
  | .mulhi x => Sys2Proof.Machine.execMulhi x s
  | .mulhiBase f => Sys2Proof.Machine.execMulhiBase f s
  | .mulhiImmBase f => Sys2Proof.Machine.execMulhiImmBase f s
  | .mad x => Sys2Proof.Machine.execMad x s
  | .madBase f => Sys2Proof.Machine.execMadBase f s
  | .madImmBase f => Sys2Proof.Machine.execMadImmBase f s
  | .minI x => Sys2Proof.Machine.execMinI x s
  | .minIBase f => Sys2Proof.Machine.execMinIBase f s
  | .minIImmBase f => Sys2Proof.Machine.execMinIImmBase f s
  | .maxI x => Sys2Proof.Machine.execMaxI x s
  | .maxIBase f => Sys2Proof.Machine.execMaxIBase f s
  | .maxIImmBase f => Sys2Proof.Machine.execMaxIImmBase f s
  | .bitAnd x => Sys2Proof.Machine.execBitAnd x s
  | .bitAndBase f => Sys2Proof.Machine.execBitAndBase f s
  | .bitAndImmBase f => Sys2Proof.Machine.execBitAndImmBase f s
  | .bitOr x => Sys2Proof.Machine.execBitOr x s
  | .bitOrBase f => Sys2Proof.Machine.execBitOrBase f s
  | .bitOrImmBase f => Sys2Proof.Machine.execBitOrImmBase f s
  | .bitXor x => Sys2Proof.Machine.execBitXor x s
  | .bitXorBase f => Sys2Proof.Machine.execBitXorBase f s
  | .bitXorImmBase f => Sys2Proof.Machine.execBitXorImmBase f s
  | .shl x => Sys2Proof.Machine.execShl x s
  | .shlBase f => Sys2Proof.Machine.execShlBase f s
  | .shlImmBase f => Sys2Proof.Machine.execShlImmBase f s
  | .shr x => Sys2Proof.Machine.execShr x s
  | .shrBase f => Sys2Proof.Machine.execShrBase f s
  | .shrImmBase f => Sys2Proof.Machine.execShrImmBase f s
  | .sra x => Sys2Proof.Machine.execSra x s
  | .sraBase f => Sys2Proof.Machine.execSraBase f s
  | .sraImmBase f => Sys2Proof.Machine.execSraImmBase f s
  | .rol x => Sys2Proof.Machine.execRol x s
  | .rolBase f => Sys2Proof.Machine.execRolBase f s
  | .rolImmBase f => Sys2Proof.Machine.execRolImmBase f s
  | .bfe x => Sys2Proof.Machine.execBfe x s
  | .bfi x => Sys2Proof.Machine.execBfi x s
  | .popc x => Sys2Proof.Machine.execPopc x s
  | .clz x => Sys2Proof.Machine.execClz x s
  | .ctz x => Sys2Proof.Machine.execCtz x s
  | .brev x => Sys2Proof.Machine.execBrev x s
  | .absI x => Sys2Proof.Machine.execAbsI x s
  | .negI x => Sys2Proof.Machine.execNegI x s
  | .bitNot x => Sys2Proof.Machine.execBitNot x s
  | .div x => Sys2Proof.Machine.execDiv x s
  | .rem x => Sys2Proof.Machine.execRem x s
  | .lea x => Sys2Proof.Machine.execLea x s
  | .sel x => Sys2Proof.Machine.execSel x s
  | .mov x => Sys2Proof.Machine.execMov x s
  | .movBase d a => Sys2Proof.Machine.execMovBase d a s
  | .ldi x => Sys2Proof.Machine.execLdi x s
  | .ldiBase d imm lit => Sys2Proof.Machine.execLdiBase d imm lit s
  | .cvt x => Sys2Proof.Machine.execCvt x s
  | .cmp x => Sys2Proof.Machine.execCmp x s
  | .pand x => Sys2Proof.Machine.execPand x s
  | .por x => Sys2Proof.Machine.execPor x s
  | .pxor x => Sys2Proof.Machine.execPxor x s
  | .pandn x => Sys2Proof.Machine.execPandn x s
  | .pnot x => Sys2Proof.Machine.execPnot x s
  | .pmov x => Sys2Proof.Machine.execPmov x s
  | .pget x => Sys2Proof.Machine.execPget x s
  | .pset x => Sys2Proof.Machine.execPset x s
  | .fadd x => Sys2Proof.Machine.execFadd x s
  | .faddBase f => Sys2Proof.Machine.execFaddBase f s
  | .fsub x => Sys2Proof.Machine.execFsub x s
  | .fsubBase f => Sys2Proof.Machine.execFsubBase f s
  | .fmul x => Sys2Proof.Machine.execFmul x s
  | .fmulBase f => Sys2Proof.Machine.execFmulBase f s
  | .fma x => Sys2Proof.Machine.execFma x s
  | .fmaBase f => Sys2Proof.Machine.execFmaBase f s
  | .fmin x => Sys2Proof.Machine.execFmin x s
  | .fminBase f => Sys2Proof.Machine.execFminBase f s
  | .fmax x => Sys2Proof.Machine.execFmax x s
  | .fmaxBase f => Sys2Proof.Machine.execFmaxBase f s
  | .fabs x => Sys2Proof.Machine.execFabs x s
  | .fneg x => Sys2Proof.Machine.execFneg x s
  | .fsgn x => Sys2Proof.Machine.execFsgn x s
  | .frnd x => Sys2Proof.Machine.execFrnd x s
  | .frcp x => Sys2Proof.Machine.execFrcp x s
  | .frsq x => Sys2Proof.Machine.execFrsq x s
  | .fsqrt x => Sys2Proof.Machine.execFsqrt x s
  | .fdiv x => Sys2Proof.Machine.execFdiv x s
  | .fex2 x => Sys2Proof.Machine.execFex2 x s
  | .flg2 x => Sys2Proof.Machine.execFlg2 x s
  | .fsinr x => Sys2Proof.Machine.execFsinr x s
  | .fcosr x => Sys2Proof.Machine.execFcosr x s
  | .fcmp x => Sys2Proof.Machine.execFcmp x s
  | .fcvt x => Sys2Proof.Machine.execFcvt x s
  | .mxq x => Sys2Proof.Machine.execMxq x s
  | .mxdq x => Sys2Proof.Machine.execMxdq x s
  | .shfl x => Sys2Proof.Machine.execShfl x s
  | .perm x => Sys2Proof.Machine.execPerm x s
  | .vote x => Sys2Proof.Machine.execVote x s
  | .redux x => Sys2Proof.Machine.execRedux x s
  | .cdet x => Sys2Proof.Machine.execCdet x s
  | .matchV x => Sys2Proof.Machine.execMatchV x s
  | .vget x => Sys2Proof.Machine.execVget x s
  | .vput x => Sys2Proof.Machine.execVput x s
  | .xclaim x => Sys2Proof.Machine.execXclaim x s
  | .xgive x => Sys2Proof.Machine.execXgive x s
  | .stage x => Sys2Proof.Machine.execStage x s
  | .kmov x => Sys2Proof.Machine.execKmov x s
  | .kset x => Sys2Proof.Machine.execKset x s
  | .sysrd x => Sys2Proof.Machine.execSysrd x s
  | .ld x => Sys2Proof.Machine.execLd x s
  | .ldBase f => Sys2Proof.Machine.execLdBase f s
  | .st x => Sys2Proof.Machine.execSt x s
  | .stBase f => Sys2Proof.Machine.execStBase f s
  | .ldfe x => Sys2Proof.Machine.execLdfe x s
  | .stfe x => Sys2Proof.Machine.execStfe x s
  | .feset x => Sys2Proof.Machine.execFeset x s
  | .pf x => Sys2Proof.Machine.execPf x s
  | .prq x => Sys2Proof.Machine.execPrq x s
  | .atom x => Sys2Proof.Machine.execAtom x s
  | .red x => Sys2Proof.Machine.execRed x s
  | .waddr x => Sys2Proof.Machine.execWaddr x s
  | .fenceSys x => Sys2Proof.Machine.execFenceSys x s
  | .fenceIo x => Sys2Proof.Machine.execFenceIo x s
  | .fenceCode x => Sys2Proof.Machine.execFenceCode x s
  | .mma x => Sys2Proof.Machine.execMma x s
  | .mmaQ x => Sys2Proof.Machine.execMmaQ x s
  | .mmas x => Sys2Proof.Machine.execMmas x s
  | .acalloc x => Sys2Proof.Machine.execAcalloc x s
  | .acfree x => Sys2Proof.Machine.execAcfree x s
  | .acrd x => Sys2Proof.Machine.execAcrd x s
  | .acwr x => Sys2Proof.Machine.execAcwr x s
  | .aczero x => Sys2Proof.Machine.execAczero x s
  | .acq x => Sys2Proof.Machine.execAcq x s
  | .matrixOpComplete core part => Sys2Proof.Machine.execMatrixOpComplete core part s
  | .cp x => Sys2Proof.Machine.execCp x s
  | .cpg x => Sys2Proof.Machine.execCpg x s
  | .coll x => Sys2Proof.Machine.execColl x s
  | .futTest x => Sys2Proof.Machine.execFutTest x s
  | .futCancel x => Sys2Proof.Machine.execFutCancel x s
  | .futMov x => Sys2Proof.Machine.execFutMov x s
  | .futShr x => Sys2Proof.Machine.execFutShr x s
  | .boInit x => Sys2Proof.Machine.execBoInit x s
  | .boArrive x => Sys2Proof.Machine.execBoArrive x s
  | .boExpect x => Sys2Proof.Machine.execBoExpect x s
  | .boWait x => Sys2Proof.Machine.execBoWait x s
  | .boTest x => Sys2Proof.Machine.execBoTest x s
  | .boFree x => Sys2Proof.Machine.execBoFree x s
  | .ncall x => Sys2Proof.Machine.execNcall x s
  | .nret x => Sys2Proof.Machine.execNret x s
  | .impPost x => Sys2Proof.Machine.execImpPost x s
  | .impChk x => Sys2Proof.Machine.execImpChk x s
  | .impWait x => Sys2Proof.Machine.execImpWait x s
  | .impClear x => Sys2Proof.Machine.execImpClear x s
  | .br x => Sys2Proof.Machine.execBr x s
  | .brBase f => Sys2Proof.Machine.execBrBase f s
  | .brx x => Sys2Proof.Machine.execBrx x s
  | .call x => Sys2Proof.Machine.execCall x s
  | .callBase f => Sys2Proof.Machine.execCallBase f s
  | .calli x => Sys2Proof.Machine.execCalli x s
  | .ret x => Sys2Proof.Machine.execRet x s
  | .retBase => Sys2Proof.Machine.execRetBase s
  | .exit x => Sys2Proof.Machine.execExit x s
  | .exitBase => Sys2Proof.Machine.execExitBase s
  | .tail x => Sys2Proof.Machine.execTail x s
  | .yield x => Sys2Proof.Machine.execYield x s
  | .nop x => Sys2Proof.Machine.execNop x s
  | .nopBase => Sys2Proof.Machine.execNopBase s
  | .barArrive x => Sys2Proof.Machine.execBarArrive x s
  | .barWait x => Sys2Proof.Machine.execBarWait x s
  | .barSync x => Sys2Proof.Machine.execBarSync x s
  | .trap x => Sys2Proof.Machine.execTrap x s
  | .trapBase code => Sys2Proof.Machine.execTrapBase code s
  | .rte x => Sys2Proof.Machine.execRte x s
  | .syswr x => Sys2Proof.Machine.execSyswr x s
  | .brk x => Sys2Proof.Machine.execBrk x s
  | .halt x => Sys2Proof.Machine.execHalt x s
  | .jinit x => Sys2Proof.Machine.execJinit x s
  | .jenter x => Sys2Proof.Machine.execJenter x s
  | .jquit x => Sys2Proof.Machine.execJquit x s
  | .jwait x => Sys2Proof.Machine.execJwait x s
  | .jwaitBase set => Sys2Proof.Machine.execJwaitBase set s
  | .jread x => Sys2Proof.Machine.execJread x s
  | .jsave x => Sys2Proof.Machine.execJsave x s
  | .jrest x => Sys2Proof.Machine.execJrest x s
  | .spawn x => Sys2Proof.Machine.execSpawn x s
  | .cancq x => Sys2Proof.Machine.execCancq x s
  | .cancqSelf x => Sys2Proof.Machine.execCancqSelf x s
  | .cancqId x => Sys2Proof.Machine.execCancqId x s
  | .launch x => Sys2Proof.Machine.execLaunch x s
  | .instructionReplay team thread => Sys2Proof.Machine.execInstructionReplay team thread s
  | .pendingMissRetry die => Sys2Proof.Machine.execPendingMissRetry die s
  | .walkComplete die entry => Sys2Proof.Machine.execWalkComplete die entry s
  | .faultMsixSignal => Sys2Proof.Machine.execFaultMsixSignal s
  | .fltreplyRetry slot seq => Sys2Proof.Machine.execFltreplyRetry slot seq s
  | .fltreplyFail slot seq => Sys2Proof.Machine.execFltreplyFail slot seq s
  | .tlbinvRange ctx va size => Sys2Proof.Machine.execTlbinvRange ctx va size s
  | .tlbinvWhole ctx => Sys2Proof.Machine.execTlbinvWhole ctx s
  | .tlbinvAllctx => Sys2Proof.Machine.execTlbinvAllctx s
  | .tlbinvComplete => Sys2Proof.Machine.execTlbinvComplete s
  | .patrolScrub pa => Sys2Proof.Machine.execPatrolScrub pa s
  | .clockTick => Sys2Proof.Machine.execClockTick s
  | .clockRebase => Sys2Proof.Machine.execClockRebase s
  | .rebaseComplete => Sys2Proof.Machine.execRebaseComplete s
  | .gets tag => Sys2Proof.Machine.execGets tag s
  | .getx tag => Sys2Proof.Machine.execGetx tag s
  | .upg tag => Sys2Proof.Machine.execUpg tag s
  | .wb tag => Sys2Proof.Machine.execWb tag s
  | .atomRequest tag => Sys2Proof.Machine.execAtomRequest tag s
  | .fwdS tag => Sys2Proof.Machine.execFwdS tag s
  | .fwdX tag => Sys2Proof.Machine.execFwdX tag s
  | .forwardAnswer tag => Sys2Proof.Machine.execForwardAnswer tag s
  | .fwdGone tag => Sys2Proof.Machine.execFwdGone tag s
  | .disc tag => Sys2Proof.Machine.execDisc tag s
  | .data tag => Sys2Proof.Machine.execData tag s
  | .renew tag => Sys2Proof.Machine.execRenew tag s
  | .dataX tag => Sys2Proof.Machine.execDataX tag s
  | .grantX tag => Sys2Proof.Machine.execGrantX tag s
  | .wbAck tag => Sys2Proof.Machine.execWbAck tag s
  | .nack tag => Sys2Proof.Machine.execNack tag s
  | .nackRetry tag => Sys2Proof.Machine.execNackRetry tag s
  | .backInvalidateAnswer line => Sys2Proof.Machine.execBackInvalidateAnswer line s
  | .hostSnoop line => Sys2Proof.Machine.execHostSnoop line s
  | .hostMemRead pa len => Sys2Proof.Machine.execHostMemRead pa len s
  | .hostMemWrite pa bytes => Sys2Proof.Machine.execHostMemWrite pa bytes s
  | .hostLineFetch line => Sys2Proof.Machine.execHostLineFetch line s
  | .wake tag => Sys2Proof.Machine.execWake tag s
  | .dieLossDetect die => Sys2Proof.Machine.execDieLossDetect die s
  | .salvageDone => Sys2Proof.Machine.execSalvageDone s
  | .formeRelease cluster => Sys2Proof.Machine.execFormeRelease cluster s
  | .jobStart job => Sys2Proof.Machine.execJobStart job s
  | .engineLineRead job => Sys2Proof.Machine.execEngineLineRead job s
  | .engineLineWrite job => Sys2Proof.Machine.execEngineLineWrite job s
  | .jobEnd job => Sys2Proof.Machine.execJobEnd job s
  | .platenCallDrain stack call => Sys2Proof.Machine.execPlatenCallDrain stack call s
  | .platenCallWriteback stack call => Sys2Proof.Machine.execPlatenCallWriteback stack call s
  | .platenCallLoan stack call => Sys2Proof.Machine.execPlatenCallLoan stack call s
  | .platenTeamPlace stack call => Sys2Proof.Machine.execPlatenTeamPlace stack call s
  | .platenCallFault stack call => Sys2Proof.Machine.execPlatenCallFault stack call s
  | .platenCallInvalidate stack call => Sys2Proof.Machine.execPlatenCallInvalidate stack call s
  | .platenCallReturn stack call => Sys2Proof.Machine.execPlatenCallReturn stack call s
  | .platenPacketApply stack index => Sys2Proof.Machine.execPlatenPacketApply stack index s
  | .linkTrain port good => Sys2Proof.Machine.execLinkTrain port good s
  | .linkDown port => Sys2Proof.Machine.execLinkDown port s
  | .peerRequestReceive req kind => Sys2Proof.Machine.execPeerRequestReceive req kind s
  | .peerReplyReceive tag reply => Sys2Proof.Machine.execPeerReplyReceive tag reply s
  | .peerAckReceive tag => Sys2Proof.Machine.execPeerAckReceive tag s
  | .reductionPacketApply die index => Sys2Proof.Machine.execReductionPacketApply die index s
  | .collResultReceive job group vals => Sys2Proof.Machine.execCollResultReceive job group vals s
  | .collAbortReceive job mismatch => Sys2Proof.Machine.execCollAbortReceive job mismatch s
  | .cgrptabWrite group value => Sys2Proof.Machine.execCgrptabWrite group value s
  | .clusterPlace launch cluster core => Sys2Proof.Machine.execClusterPlace launch cluster core s
  | .groupRelease team group => Sys2Proof.Machine.execGroupRelease team group s
  | .trackerDrainDone core entry => Sys2Proof.Machine.execTrackerDrainDone core entry s
  | .teamRetire team => Sys2Proof.Machine.execTeamRetire team s
  | .launchComplete launch => Sys2Proof.Machine.execLaunchComplete launch s
  | .hqdb queue value => Sys2Proof.Machine.execHqdb queue value s
  | .hqctlEnable queue value => Sys2Proof.Machine.execHqctlEnable queue value s
  | .hqctlDisable queue value => Sys2Proof.Machine.execHqctlDisable queue value s
  | .launchAdmit => Sys2Proof.Machine.execLaunchAdmit s
  | .completionMsixSignal => Sys2Proof.Machine.execCompletionMsixSignal s
  | .lcancel launch => Sys2Proof.Machine.execLcancel launch s
  | .cancelFlagSet launch core => Sys2Proof.Machine.execCancelFlagSet launch core s
  | .ageUrgent core part => Sys2Proof.Machine.execAgeUrgent core part s
  | .yieldExpire team thread => Sys2Proof.Machine.execYieldExpire team thread s
  | .demotionExpire team thread => Sys2Proof.Machine.execDemotionExpire team thread s
  | .powerWindow die => Sys2Proof.Machine.execPowerWindow die s
  | .spawnBinTimer core bin => Sys2Proof.Machine.execSpawnBinTimer core bin s
  | .spawnBinPlace core bin => Sys2Proof.Machine.execSpawnBinPlace core bin s
  | .spawnBinSteal core => Sys2Proof.Machine.execSpawnBinSteal core s
  | .eventMsixSignal => Sys2Proof.Machine.execEventMsixSignal s
  | .watchdog launch => Sys2Proof.Machine.execWatchdog launch s
  | .preemptGo value => Sys2Proof.Machine.execPreemptGo value s
  | .preemptHold value => Sys2Proof.Machine.execPreemptHold value s
  | .preemptSave cluster => Sys2Proof.Machine.execPreemptSave cluster s
  | .preemptDone => Sys2Proof.Machine.execPreemptDone s
  | .clusterRestore saved core => Sys2Proof.Machine.execClusterRestore saved core s
  | .teamctlResume core part slot => Sys2Proof.Machine.execTeamctlResume core part slot s
  | .teamctlDiscard core part slot => Sys2Proof.Machine.execTeamctlDiscard core part slot s
  | .codeinvGo => Sys2Proof.Machine.execCodeinvGo s
  | .codeinvComplete => Sys2Proof.Machine.execCodeinvComplete s
  | .syslaunch value => Sys2Proof.Machine.execSyslaunch value s
  | .warmReset => Sys2Proof.Machine.execWarmReset s
  | .cxlHotReset => Sys2Proof.Machine.execCxlHotReset s
  | .coldReset => Sys2Proof.Machine.execColdReset s
  | .thermalThrottle die temp => Sys2Proof.Machine.execThermalThrottle die temp s
  | .thermalRecover die temp => Sys2Proof.Machine.execThermalRecover die temp s
  | .thermalTrip die temp => Sys2Proof.Machine.execThermalTrip die temp s
  | .powerGateRequest die => Sys2Proof.Machine.execPowerGateRequest die s
  | .powerGateComplete die => Sys2Proof.Machine.execPowerGateComplete die s
  | .powerUngate die => Sys2Proof.Machine.execPowerUngate die s
  | .stateReadbackWrite offset value => Sys2Proof.Machine.execStateReadbackWrite offset value s
  | .registerWrite offset value => Sys2Proof.Machine.execRegisterWrite offset value s
  | .ioReadReturn tag data => Sys2Proof.Machine.execIoReadReturn tag data s
  | .hostMemoryWriteDone tag => Sys2Proof.Machine.execHostMemoryWriteDone tag s
  | .doeRequest request => Sys2Proof.Machine.execDoeRequest request s
  | .imprintEntryRetire ctx buf x y => Sys2Proof.Machine.execImprintEntryRetire ctx buf x y s

end Sys2Proof.Machine
end

