-- ==== Sys2Proof/Machine/Issue.lean ====
section
/-! DEFINITION. Issue: candidates and their choice, fetch through the instruction caches, the checks of an instruction that
need its team, the spin detector (R89, R159, R169, R272 to R274, R296, R314, R355 to R357, R389, R392). -/

namespace Sys2Proof.Machine

/-! ### Candidates (R296, R314) -/

/-- Threads of one team that can issue together. -/
structure Candidate where
  team : Nat
  pc : Nat
  release : Option Nat := none          -- threads that one `jwait` released (R314)
  threads : List Nat                    -- ascending lane
  late : List Nat := []                 -- those of them that wait for timing, and the others with them (R297)
  deriving DecidableEq, Repr

/-- Whether a thread is ready and not deferred by `yield`: it could issue by itself (R330, R355). -/
def Thread.issuable (th : Thread) : Bool := th.live && th.wait == .ready && th.deferred.isNone


/-- The address at which a thread joins a candidate, and whether it is held there by timing alone (R296, R297, R356): by a
load's data, a page walk, a full unit, a replay, a fence or a `yield`. None for a thread in an architectural wait, parked on a page
fault, or ended. -/
def State.standing (s : State) (n : Nat) (th : Thread) : Option (Nat × Bool) :=
  if !th.live then none
  else
    match th.wait with
    | .ready => some (th.pc.toNat, th.deferred.isSome)
    | .mem key =>
      match Tab.find key s.memops with
      | some op => if s.waitsLent op && s.owes op n then none else some (op.next, true)
      | none => none
    | .walk own _ _ =>
      if (own.map fun e => ((Tab.find e s.misses).map Miss.reported).getD false).getD false then none
      else some (th.pc.toNat, true)
    | .turn ln _ => if s.isLent ln then none else some (th.pc.toNat, true)
    | .missFull _ | .replay | .matrix | .galley | .along .. => some (th.pc.toNat, true)
    | .fenceSys | .fenceIo | .fenceCode => some (th.pc.toNat + 12, true)
    | _ => none

/-- Puts a thread among those of a candidate, in ascending lane order (R175). -/
def Team.byLane (t : Team) (n : Nat) (ns : List Nat) : List Nat :=
  (ns.takeWhile fun m => t.hwLane m < t.hwLane n) ++ n :: ns.dropWhile fun m => t.hwLane m < t.hwLane n

/-- Adds a thread that stands at `pc` to the candidates of its team: with the threads at its address, unless one of them
stands on its lane (R296); threads of one release by themselves (R314). -/
def joinCandidates (t : Team) (k n pc : Nat) (held : Bool) (release : Option Nat) : List Candidate → List Candidate
  | [] => [{ team := k, pc, release, threads := [n], late := if held then [n] else [] }]
  | c :: cs =>
    if c.release == release && c.pc == pc then
      if c.threads.any fun m => t.hwLane m == t.hwLane n then c :: cs
      else { c with threads := t.byLane n c.threads, late := if held then n :: c.late else c.late } :: cs
    else c :: joinCandidates t k n pc held release cs

/-- The candidates of a team on a partition, before the halves of a split group part at a collective. Of several groups on one
lane the lowest `%groupid` joins. -/
def State.standingOf (s : State) (t : Team) (k part : Nat) : List Candidate :=
  t.threads.foldl (fun cs p =>
    if t.part p.1 == part then
      match s.standing p.1 p.2 with
      | some (pc, held) => joinCandidates t k p.1 pc held p.2.release cs
      | none => cs
    else cs) []

/-- Where the teams of an issue slot stand: a core's partition, or from core 192 on the near-memory cores by stack. -/
def Team.issuesOn (t : Team) (core : Nat) : Bool :=
  match t.place with
  | .core c => c == core
  | .near st c _ => 192 + 32 * st + c == core

/-- Whether a team may issue: neither stopped nor of a call that ends (R275, R340). -/
def State.mayIssue (s : State) (t : Team) : Bool :=
  !t.stopped && !t.preempt &&
    match t.place with
    | .core _ => true
    | .near st _ c => ((s.call? st c).map fun d => !d.stopping && d.phase == .run).getD false

/-! ### The order of candidates (R272, R355, R356) -/

/-- The comparison keys of a candidate, in order; the least goes first. The first thread in the order of `%groupid` and
`%lane` is the lowest-numbered. A near-memory core puts an urgent thread first as well, so that every thread issues within
1,024 platen clocks (R272). DEDUCED (log 41). -/
def State.issueKeys (s : State) (c : Candidate) : List Nat :=
  match s.team? c.team with
  | none => []
  | some t =>
    let ths := c.threads.filterMap fun n => Tab.find n t.threads
    let first := c.threads.foldl min (c.threads.headD 0)
    let urgent := ths.any fun th => th.urgent || decide (512 ≤ th.age)
    let age := (ths.map Thread.age).foldl max 0
    let haste := [if urgent then 0 else 1, if urgent then 2 ^ 64 - age else 0]
    match t.place with
    | .near _ _ call => haste ++ [call, t.x, c.pc, first]
    | .core _ =>
      let prio := ((s.launchOf t).map Launch.prio).getD 0
      haste ++ [(ths.all fun th => th.demoted.isSome).toNat, 3 - prio, t.stamp, 1024 - c.threads.length, c.pc, first]

/-- Lexicographic order of keys. -/
def keysLt : List Nat → List Nat → Bool
  | a :: as, b :: bs => decide (a < b) || (a == b && keysLt as bs)
  | _, _ => false

/-! ### Checks that need the team (R169, R273, R389, R392) -/

/-- The profile that an OP belongs to (Table 24.6). -/
def opProfile (op : Nat) : Nat :=
  let within := fun (l : List (Nat × Nat)) => l.any fun r => decide (r.1 ≤ op) && decide (op ≤ r.2)
  if within [(0x41, 0x42), (0x80, 0x87), (0x95, 0x97)] then 3
  else if within [(0x56, 0x5A), (0x62, 0x65), (0x68, 0x68), (0x90, 0x94), (0xA6, 0xA6), (0xB1, 0xB3)] then 2
  else 1

/-- The OPs of a near-memory core (Table 16.1). -/
def opNear (op : Nat) : Bool :=
  [(0x02, 0x26), (0x28, 0x2B), (0x30, 0x40), (0x50, 0x55), (0x5C, 0x5C), (0x60, 0x61), (0x66, 0x66), (0x96, 0x96),
    (0xA0, 0xA5), (0xA7, 0xAF), (0xB0, 0xB0), (0xB8, 0xB8), (0xBB, 0xBB)].any fun r => decide (r.1 ≤ op) && decide (op ≤ r.2)

/-- Check 1 of R169 on word 0: reserved, above the team's profile, not on a near-memory core, `nret` on a main-die core (R258),
or a matrix instruction in split mode (R242), which is made here, ahead of the other checks. DESIGN CHOICE (log 83). -/
def Team.opIllegal (t : Team) (w0 : Nat) : Bool :=
  let op := wordOp w0
  opReserved op || decide (t.profile < opProfile op) || (if t.near then !opNear op else op == 0x96)
    || (t.split && decide (0x80 ≤ op) && decide (op ≤ 0x87))

/-- A type code of 13 to 16 in TY, or in the SUB of `fcvt` (R389). -/
def typeHigh (o : XOp) (x : XForm) : Bool :=
  let high := fun (n : Nat) => decide (13 ≤ n) && decide (n ≤ 16)
  high x.ty.code || (o == .fcvt && high x.sub.toNat)

/-- Whether an instruction does not accept the slot that it names (R147). DEDUCED (log 21). -/
def slotRefused (o : XOp) (x : XForm) (slot : Nat) : Bool :=
  match o with
  | .fcvt => Bits.bit x.imm.toNat 3 && !fcvtSlotOk x slot
  | .mxq | .mxdq => !mxSlotOk x slot
  | .mma | .mmaQ | .mmas => !mmaSlotOk x slot
  | .acq => !acqSlotOk x slot
  | _ => false

/-- The OPs whose TY is checked against their slot, a TY that differs failing the slot check (R238). -/
def typeBySlot (op : Nat) : Bool := op == 0x80 || op == 0x81 || op == 0x87

/-- What step 3 of R169 says with the team known. DEDUCED (log 21). -/
def State.stepThree (s : State) (t : Team) (w0 : Nat) (o : XOp) (x : XForm) : Option Trap :=
  if typeHigh o x && decide (t.profile < 3) then some { code := Code.illegalEncoding, info := w0 }
  else if slotRefused o x (s.fslot t x.fs.toNat) then some { code := Code.illegalEncoding, info := x.fs.toNat }
  else none

/-- The instruction that words are for a team, or the fault of R169. DEDUCED (log 21). -/
def State.recognise (s : State) (t : Team) (ws : List Nat) : Except Trap Instr :=
  let w0 := ws.getD 0 0
  let fieldsOf : Option (XOp × XForm) :=
    match XOp.ofOp (wordOp w0) (wordSub w0), fieldsX w0 (ws.getD 1 0) (ws.getD 2 0) none with
    | some o, some x => some (o, x)
    | _, _ => none
  match decode ws with
  | .ok (i, _) =>
    match i.toX with
    | some (o, x) => match s.stepThree t w0 o x with | some f => .error f | none => .ok i
    | none => .ok i
  | .error e =>
    let plain : Trap := { code := Code.illegalEncoding, info := w0, addr := e.taddr }
    if (4 ≤ e.step ∨ (e.step = 3 ∧ typeBySlot (wordOp w0))) ∧ wordLen w0 % 2 = 1 then
      match fieldsOf.bind fun p => s.stepThree t w0 p.1 p.2 with
      | some f => .error f
      | none => .error plain
    else .error plain

/-! ### Fetch (R89, R159) -/

/-- How a fetch ends. -/
inductive Fetched (α : Type) where
  | ok (v : α)
  | stop (t : Trap)
  | wait (va : Nat)

/-- The instruction cache that serves a team: a core's, or its platen's. -/
def State.codeCache (s : State) (t : Team) : Tab LineData :=
  match t.place with
  | .core c => (s.core c).icache
  | .near st _ _ => Tab.getD s.nearCaches st []

def State.setCodeCache (s : State) (t : Team) (c : Tab LineData) : State :=
  match t.place with
  | .core k => s.modCore k fun g => { g with icache := c }
  | .near st _ _ => { s with nearCaches := Tab.put st c s.nearCaches }

/-- A word of code at its site: from the cache, which takes the line if it has none and every word of it is sound. A
near-memory core reads its stack's DRAM, and packets queued for a platen-owned line come before its fetch (R274).
DEDUCED (log 33). The words of one cached line are old together or new together. DESIGN CHOICE (log 82). -/
def State.codeWord (s : State) (t : Team) (va : Nat) (l : Loc) : State × Fetched Nat :=
  let l := match l with | .device pa => if t.near then Loc.platen pa else l | _ => l
  let read := match s.fetchRead va l 4 with
    | (s, .ok v) => (s, Fetched.ok v)
    | (s, .error f) => (s, .stop f)
  let cached := fun (ln pa : Nat) (line : LineData) =>
    match Tab.find ln (s.codeCache t) with
    | some d => (s, Fetched.ok (lineRead d (pa % 128) 4))
    | none =>
      if s.packetsWait l then (s, .wait va)
      else if (lineBad line).isSome then read
      else (s.setCodeCache t (Tab.put ln line (s.codeCache t)), .ok (lineRead line (pa % 128) 4))
  match l with
  | .device pa => cached (deviceLine pa) pa (s.newest (deviceLine pa))
  | .host pa => cached (hostLine pa) pa (s.newest (hostLine pa))
  | .platen pa => cached (deviceLine pa) pa (s.backing (deviceLine pa))
  | .forme .. | .peer .. | .io _ => read

/-- Fetches one word for a thread (R17, R22, R274). DEDUCED (log 33). -/
def State.fetchWord (s : State) (t : Team) (i : Tid) (va : Nat) : State × Fetched Nat :=
  match s.fetchSite t.window (s.threadAsker i t 3) va with
  | (s, .fault f) => (s, .stop f)
  | (s, .miss _) | (s, .full) => (s, .wait va)
  | (s, .ok l) =>
    let inside := match t.place, l with
      | .near st _ _, .device pa | .near st _ _, .platen pa => linearStack pa == some st
      | _, _ => true
    if inside then s.codeWord t va l else (s, .stop { code := Code.stackRange, addr := va })

/-- Fetches `n` words from an address. -/
def State.fetchWords (s : State) (t : Team) (i : Tid) (va : Nat) : Nat → State × Fetched (List Nat)
  | 0 => (s, .ok [])
  | n + 1 =>
    match s.fetchWord t i va with
    | (s, .stop f) => (s, .stop f)
    | (s, .wait va) => (s, .wait va)
    | (s, .ok w) =>
      match s.fetchWords t i (va + 4) n with
      | (s, .ok ws) => (s, .ok (w :: ws))
      | (s, .stop f) => (s, .stop f)
      | (s, .wait va) => (s, .wait va)

/-- Fetches the instruction at an address: word 0 and check 1, then the words that LEN names, then the other checks (R159,
R169). -/
def State.fetch (s : State) (t : Team) (i : Tid) (pc : Nat) : State × Fetched Instr :=
  if pc % 4 ≠ 0 then (s, .stop { code := Code.misaligned, addr := pc })
  else
    match s.fetchWord t i pc with
    | (s, .stop f) => (s, .stop f)
    | (s, .wait va) => (s, .wait va)
    | (s, .ok w0) =>
      if t.opIllegal w0 then (s, .stop { code := Code.illegalOpcode, info := w0 })
      else
        match s.fetchWords t i (pc + 4) (lenWords (wordLen w0) - 1) with
        | (s, .stop f) => (s, .stop f)
        | (s, .wait va) => (s, .wait va)
        | (s, .ok ws) =>
          match s.recognise t (w0 :: ws) with
          | .ok i => (s, .ok i)
          | .error f => (s, .stop f)

/-- The threads of an issue group wait for the translation of a code page; each has joined the walk, or parks on a page whose
fault has been reported (R28, R30). -/
def State.fetchWait (s : State) (k : Nat) (t : Team) (ts : List Nat) (va : Nat) : State :=
  ts.foldl (fun s n =>
    let i : Tid := { team := k, n }
    match s.translate (s.threadAsker i t 3) va with
    | (s, .miss e) =>
      s.modThread i fun th => if s.isReported e then th.parks e va else { th with wait := .walk (some e) va [e] }
    | (s, .full) => s.modThread i fun th => { th with wait := .missFull t.die }
    | (s, _) => s) s

/-! ### The choice (R224, R296, R355) -/

/-- Whether an instruction is a collective: in split mode the two halves of a group do not merge at it (R224, R296). -/
def isCollective : Instr → Bool
  | .shfl _ | .perm _ | .vote _ | .redux _ | .cdet _ | .matchV _ => true
  | _ => false

/-- The candidates that a candidate stands for: at a collective in split mode one for each half, each with the threads of its
own that wait. The instruction is looked up without effect. DEDUCED (log 41). -/
def State.halves (s : State) (t : Team) (c : Candidate) : List Candidate :=
  if !t.split then [c]
  else
    match (s.fetch t { team := c.team, n := c.threads.headD 0 } c.pc).2 with
    | .ok i =>
      if isCollective i then
        let part := fun (h : Nat) (ns : List Nat) => ns.filter fun n => t.half n == h
        ([0, 1].map fun h => { c with threads := part h c.threads, late := part h c.late }).filter fun d => !d.threads.isEmpty
      else [c]
    | _ => [c]

/-- The candidates of an issue slot. -/
def State.candidates (s : State) (core part : Nat) : List Candidate :=
  s.teams.flatMap fun p =>
    if p.2.issuesOn core && s.mayIssue p.2 then (s.standingOf p.2 p.1 part).flatMap (s.halves p.2) else []

/-- The candidate that an issue slot takes, of those whose threads are all eligible (R355). -/
def State.choose (s : State) (core part : Nat) : Option Candidate :=
  ((s.candidates core part).filter fun c => c.late.isEmpty).foldl (fun best c =>
    match best with
    | none => some c
    | some b => if keysLt (s.issueKeys c) (s.issueKeys b) then some c else some b) none

/-! ### The spin detector (R357) -/

/-- Marks a watched thread if a lane, predicate or `k` register of its own has changed. -/
def Thread.noteSpin (old t : Team) (n : Nat) (th : Thread) : Thread :=
  match Tab.find n old.threads with
  | none => th
  | some th' => if th.regs != th'.regs || th.preds != th'.preds || t.k != old.k then th.stirred else th

/-- Marks the watched threads whose registers a step from `s` has changed. DEDUCED (log 42). -/
def State.noteSpins (s' s : State) : State :=
  if s'.teams.any fun p => p.2.threads.any fun q => !q.2.spins.isEmpty then
    { s' with
      teams := s'.teams.map fun (p : Nat × Team) =>
        match s.team? p.1 with
        | none => p
        | some old => (p.1, { p.2 with threads := p.2.threads.map fun q => (q.1, q.2.noteSpin old p.2 q.1) }) }
  else s'

/-- Whether an instruction is `br` or `brx`. -/
def isBranch : Instr → Bool
  | .br _ | .brBase _ | .brx _ => true
  | _ => false

/-- A loop after its thread has executed the instruction at `pc` and gone on at `at'`: a further iteration, one instruction
more of this one, or none when the thread has left the loop or the loop is longer than 16 instructions. -/
def Spin.next (x : Spin) (pc at' : Nat) (branch taken : Bool) : Option Spin :=
  if taken && pc == x.branch && at' == x.target then
    let idle := if x.changed then 0 else min 2 (x.idle + 1)
    some { branch := x.branch, target := x.target, idle, demotes := x.demotes || decide (2 ≤ idle) }
  else if (branch && pc == x.branch) || (taken && (decide (at' < x.target) || decide (x.branch < at')))
      || decide (15 ≤ x.count) then none
  else some { x with count := x.count + 1 }

/-- Whether an iteration that ends now demotes the thread: the second in succession without a change (R357). -/
def Spin.demoting (x : Spin) (pc at' : Nat) (taken : Bool) : Bool :=
  taken && pc == x.branch && at' == x.target && !x.changed && decide (1 ≤ x.idle)

/-- Whether a thread is to issue its instruction again, having waited for timing. -/
def Thread.again (th : Thread) : Bool :=
  match th.wait with
  | .walk .. | .missFull _ | .replay | .matrix | .galley | .turn .. => true
  | _ => false

/-- Whether a thread has not executed the instruction that it issued: it is to issue it again, having waited for timing or in an
architectural wait. -/
def Thread.undone (th : Thread) : Bool :=
  th.again || match th.wait with | .future _ | .presence .. | .link .. | .slugTurn => true | _ => false

/-- The watch on a thread that has executed the instruction at `pc`; `len` is its length in bytes. A backward branch begins a
loop, inside those already watched; a demotion ends when the thread leaves the loop that brought it. A thread that has yet to
execute the instruction is watched when it does. DEDUCED (log 42). -/
def Thread.watch (th : Thread) (pc len : Nat) (branch : Bool) (now : Nat) : Thread :=
  if th.undone then th else
  let at' := th.pc.toNat
  let taken := branch && at' != pc + len
  let kept := if th.live then th.spins.filterMap fun x => x.next pc at' branch taken else []
  let known := kept.any fun x => x.branch == pc && x.target == at'
  let spins := if taken && decide (at' ≤ pc) && !known && th.live then { branch := pc, target := at' } :: kept else kept
  let left := th.spins.any Spin.demotes && !kept.any Spin.demotes
  { th with
    spins
    demoted :=
      if th.spins.any fun x => x.demoting pc at' taken then some (now + 256)
      else if left then none else th.demoted }

/-! ### Issue -/

/-- Whether cores issue at all: not during a rebase, in reset, or after the loss of a die (R45, R63, R417, R418). -/
def State.issuing (s : State) : Bool :=
  !s.busy.rebase && !s.busy.held && !s.busy.bootFailed && s.busy.deadDie.isNone

/-- The age and deferral of a slot's thread after a clock of the slot: the threads of the candidate that issues start again
at 0, the others that could have issued grow older; deferrals end when another candidate issues (R330, R356). -/
def Thread.booked (th : Thread) (own ready issued : Bool) : Thread :=
  if own then { th with age := 0, urgent := false }
  else if th.issuable then (if ready then { th with age := th.age + 1 } else th)
  else if issued then { th with deferred := none } else th

/-- A team on a slot that issues a candidate, if it issues one. -/
def Team.booked (t : Team) (k part : Nat) (may : Bool) (c : Option Candidate) : Team :=
  let own := fun (n : Nat) => (c.map fun c => k == c.team && c.threads.contains n).getD false
  { t with
    threads := t.threads.map fun q => if t.part q.1 == part then (q.1, q.2.booked (own q.1) may c.isSome) else q }

/-- The teams on a slot that issues a candidate, if it issues one. -/
def State.bookIssue (s : State) (core part : Nat) (c : Option Candidate) : State :=
  { s with
    teams := s.teams.map fun p => if p.2.issuesOn core then (p.1, p.2.booked p.1 part (s.mayIssue p.2) c) else p }

/-- The instruction's length in bytes. -/
def codeBytes (i : Instr) : Nat := 4 * (encode i).length

/-- After an instruction of a candidate: no issue group is formed, the threads that executed it are watched, their earlier wait
at it is over (R121, R128), and those that one earlier `jwait` released have issued together, unless they issue it again (R314). -/
def State.afterIssue (s' s : State) (c : Candidate) (len : Nat) (branch : Bool) : State :=
  let s' := ({ s' with ig := none } : State).noteSpins s
  c.threads.foldl (fun s n => s.modThread { team := c.team, n } fun th =>
    let th := th.watch c.pc len branch s.cycle
    let th := if th.undone then th else { th with issued := none, ends := [] }
    if th.again || th.release != c.release then th else { th with release := none }) s'

/-- Fetches and executes the instruction of a candidate. -/
def State.runCandidate (s : State) (c : Candidate) : Host.Outcome State Fault Refusal :=
  match s.team? c.team with
  | none => .next s
  | some t =>
    match s.fetch t { team := c.team, n := c.threads.headD 0 } c.pc with
    | (s, .stop f) => .next (s.deliverAll c.team c.threads f c.pc)
    | (s, .wait va) => .next (s.fetchWait c.team t c.threads va)
    | (s, .ok i) =>
      match exec i { s with ig := some { team := c.team, threads := c.threads, pc := c.pc } } with
      | .next s' => .next (s'.afterIssue s c (codeBytes i) (isBranch i))
      | .fault f => .fault f
      | .refused r => .refused r

/-- One clock of an issue slot: it issues the candidate it chooses, if it has one (R296, R355). -/
def State.issueAt (s : State) (core part : Nat) : Host.Outcome State Fault Refusal :=
  let s := { s with cycle := s.cycle + 1 }
  if !s.issuing then .next s
  else
    match s.choose core part with
    | none => .next (s.bookIssue core part none)
    | some c =>
      let launch := ((s.team? c.team).map Team.launch).getD 0
      ((s.bookIssue core part (some c)).stirLaunch launch).runCandidate c

end Sys2Proof.Machine
end

