-- ==== Sys2Proof/Machine/Schedule.lean ====
section
/-! DEFINITION. Which agent moves next (log 1): the steps that arise in a state, one entry of the agenda, and what happens
when the agenda is empty. -/

namespace Sys2Proof.Machine

/-! ### Steps that arise -/

/-- A step of an agent: the meaning that `exec` gives it. -/
abbrev Move := State → Host.Outcome State Fault Refusal

/-- The step that a message in flight gives (Table 3.3). -/
def arrivalOf (tag : Nat) (m : Msg) : Move :=
  match m.kind with
  | .req r =>
    match r.kind with
    | .gets _ | .recall => execGets tag
    | .getx => execGetx tag
    | .upg => execUpg tag
    | .atom | .install .. => execAtomRequest tag
  | .wb => execWb tag
  | .fwdS => execFwdS tag
  | .fwdX => execFwdX tag
  | .disc _ => execDisc tag
  | .answer _ => execForwardAnswer tag
  | .fwdGone => execFwdGone tag
  | .data => execData tag
  | .renew => execRenew tag
  | .dataX => execDataX tag
  | .grantX => execGrantX tag
  | .wbAck => execWbAck tag
  | .nack _ => execNack tag
  | .retry .. => execNackRetry tag
  | .wake .. => execWake tag

/-- Steps of threads: replays, deferrals, demotions. -/
def Thread.due (team n : Nat) (th : Thread) : List Move :=
  (if th.replays then [execInstructionReplay team n] else [])
    ++ (if th.deferred.isSome then [execYieldExpire team n] else [])
    ++ (if th.demoted.isSome then [execDemotionExpire team n] else [])

/-- Steps of memory: translation, messages, the CXL port. -/
def State.memoryEvents (s : State) : List Move :=
  (s.net.map fun p => arrivalOf p.1 p.2) ++ (s.misses.map fun p => execWalkComplete (p.1 / 4096) (p.1 % 4096))
    ++ [execPendingMissRetry 0, execPendingMissRetry 1, execTlbinvComplete]
    ++ (s.port.fetching.map fun ln => execHostLineFetch (ln - hostLineBase)) ++ s.port.snoops.map execBackInvalidateAnswer
    ++ s.port.bypStores.map fun p => execHostMemoryWriteDone p.1

/-- Steps of jobs, platens, matrix arrays and the fabric. -/
def State.engineEvents (s : State) : List Move :=
  (s.jobs.flatMap fun p => [execJobStart p.1, execEngineLineRead p.1, execEngineLineWrite p.1, execJobEnd p.1])
    ++ (s.platens.flatMap fun p => p.2.calls.flatMap fun c =>
      [execPlatenCallDrain p.1 c.1, execPlatenCallWriteback p.1 c.1, execPlatenCallLoan p.1 c.1,
        execPlatenTeamPlace p.1 c.1, execPlatenCallFault p.1 c.1, execPlatenCallInvalidate p.1 c.1,
        execPlatenCallReturn p.1 c.1])
    ++ (s.platens.flatMap fun p => (List.range p.2.packets.length).map fun i => execPlatenPacketApply p.1 i)
    ++ ((List.range s.fabric.homePackets.length).flatMap fun i =>
      [execReductionPacketApply 0 i, execReductionPacketApply 1 i])
    ++ (if s.fabric.inbound.isEmpty then [] else [fun s => .next ((List.range 12).foldl State.sweepPlaten s.takePeers)])
    ++ (if s.port.requests.isEmpty then [] else [fun s => .next (s.servePort s.port.requests.length)])
    ++ s.matrix.map fun p => execMatrixOpComplete (p.1 / 4) (p.1 % 4)

/-- Steps of the launcher and of the spawn units. -/
def State.launchEvents (s : State) : List Move :=
  (match s.nextPlacement with
    | some (.fresh l i) => (List.range Config.cores).map fun c => execClusterPlace l i c
    | some (.saved i) => (List.range Config.cores).map fun c => execClusterRestore i c
    | none => [])
    ++ execLaunchAdmit :: (s.launches.map fun p => execLaunchComplete p.1)
    ++ (s.launches.flatMap fun p =>
      if p.2.cancel then (s.cores.map fun c => execCancelFlagSet p.1 c.1) else [])
    ++ (s.teams.flatMap fun p => execTeamRetire p.1 :: p.2.groups.map fun g => execGroupRelease p.1 g.1)
    ++ (s.clusters.flatMap fun p => [execFormeRelease p.1, execPreemptSave p.1])
    ++ (s.cores.flatMap fun c => (c.2.tracker.map fun e => execTrackerDrainDone c.1 e.1)
      ++ c.2.bins.flatMap fun b => [execSpawnBinTimer c.1 b.1, execSpawnBinPlace c.1 b.1])
    ++ if s.cores.any fun c => !c.2.readyBins.isEmpty then (List.range Config.cores).map execSpawnBinSteal else []

/-- Steps that time and the module controller bring. -/
def State.timedEvents (s : State) : List Move :=
  [execClockTick, execClockRebase, execRebaseComplete, execPowerWindow 0, execPowerWindow 1, execFaultMsixSignal,
    execCompletionMsixSignal, execEventMsixSignal, execCodeinvComplete, execPreemptDone, execSalvageDone,
    execPowerGateComplete 0, execPowerGateComplete 1]
    ++ (s.launches.map fun p => execWatchdog p.1)
    ++ (s.teams.flatMap fun p => p.2.threads.flatMap fun q => q.2.due p.1 q.1)
    ++ s.teams.flatMap fun p => (List.range 4).map fun i => execAgeUrgent p.2.core i

/-- The part's own steps that may arise. What comes from the host, another module or the environment is in the agenda. -/
def State.events (s : State) : List Move := s.memoryEvents ++ s.engineEvents ++ s.launchEvents ++ s.timedEvents

/-- A list begun at its `n`th element. -/
def rotate {α : Type} (n : Nat) (l : List α) : List α := l.drop (n % l.length) ++ l.take (n % l.length)

/-- The first of the steps that changes the state. -/
def State.firstMove (s : State) : List Move → Option State
  | [] => none
  | f :: fs =>
    match f s with
    | .next s' => if s' = s then s.firstMove fs else some s'
    | _ => s.firstMove fs

/-- The issue slots on which a team stands. -/
def State.slots (s : State) : List (Nat × Nat) :=
  (s.teams.flatMap fun p =>
    match p.2.place with
    | .core c => (List.range 4).map fun i => (c, i)
    | .near st c _ => [(192 + 32 * st + c, 0)]).eraseDups

/-- The module with no entry in the agenda: a step that arises, or an issue slot's clock, in turn; a clock passes. -/
def State.idle (s : State) : Host.Outcome State Fault Refusal :=
  let later := fun (s : State) => ({ s with cycle := s.cycle + 1 } : State)
  let event := (s.firstMove (rotate (s.cycle / 2) s.events)).map fun s' => s'.noteSpins s
  let slot := (rotate (s.cycle / 2) s.slots).find? fun p => s.issuing && (s.choose p.1 p.2).isSome
  if s.busy.held || s.busy.bootFailed then .next (later s)
  else if s.cycle % 2 = 0 then
    match event, slot with
    | some s', _ => .next (later s')
    | none, some p => s.issueAt p.1 p.2
    | none, none => .next (later s)
  else
    match slot, event with
    | some p, _ => s.issueAt p.1 p.2
    | none, some s' => .next (later s')
    | none, none => .next (later s)

/-! ### Entries of the agenda -/

/-- What reaches a module that is held in reset: resets, temperatures, the host's snoops and DOE requests (R59, R417,
R418). -/
def reachesReset : Instr → Bool
  | .warmReset | .cxlHotReset | .coldReset | .doeRequest _ | .hostSnoop _ | .thermalThrottle .. | .thermalRecover ..
  | .thermalTrip .. => true
  | .registerWrite off _ => off == 0x106010
  | _ => false

/-- An agent's step, or an event from outside; its effect on a thread's registers ends a spin (R357). -/
def State.event (s : State) (i : Instr) : Host.Outcome State Fault Refusal :=
  if (s.busy.held || s.busy.bootFailed) && !reachesReset i then .next s
  else
    match exec i s with
    | .next s' => .next (s'.noteSpins s)
    | .fault f => .fault f
    | .refused r => .refused r

/-- An instruction cache replaces a line: a core's, or from 192 on a platen's (R89). -/
def State.replaceCode (s : State) (k ln : Nat) : State :=
  if k < 192 then s.modCore k fun c => { c with icache := Tab.del ln c.icache }
  else { s with nearCaches := Tab.modify (k - 192) (Tab.del ln) s.nearCaches }

/-- A stored lane register becomes uncorrectable; a number above the allocation is stored nowhere (R37, R126). -/
def State.upsetReg (s : State) (i : Tid) (n : Nat) : State :=
  match s.team? i.team with
  | some t => if n < t.alloc i.n then s.modThread i fun th => { th with bad := n :: th.bad } else s
  | none => s

/-- An 8-byte unit of a region slice's copy of a line, or of its home's, becomes uncorrectable (R37). -/
def State.upsetLine (s : State) (region : Option Nat) (ln unit : Nat) : State :=
  let mark := fun (a : Nat) (d : LineData) => Tab.put (markKey (8 * (unit % 16))) (BitVec.ofNat 8 a) d
  match region with
  | some r =>
    s.modRegion r fun g => { g with copies := Tab.modify ln (fun c => { c with data := mark arrSram c.data }) g.copies }
  | none =>
    s.modHome (homeOf ln) fun h => { h with lines := Tab.modify ln (fun l => { l with data := mark arrHome l.data }) h.lines }

/-- One entry of the agenda; `s` is the state with that entry taken off. -/
def State.turn (s : State) : Turn → Host.Outcome State Fault Refusal
  | .event i => s.event i
  | .issue core part => s.issueAt core part
  | .clocks n => .next { s with cycle := s.cycle + n }
  | .dropCopy region line => .next (s.replaceCopy region line)
  | .dropHome line => .next (s.dropHome line)
  | .dropTranslation tlb ctx va => .next (s.dropTranslation tlb ctx va)
  | .dropCode core line => .next (s.replaceCode core line)
  | .upset key array => .next (s.markBad key array)
  | .upsetLine region line unit => .next (s.upsetLine region line unit)
  | .upsetReg tid n => .next (s.upsetReg tid n)
  | .upsetK team n => .next (if n < 64 then s.modTeam team fun t => { t with kbad := n :: t.kbad } else s)
  | .temperature sensor temp => .next (s.sense sensor temp)
  | .window off size value => .next (s.windowWrite off size value)
  | .corrected array => .next (s.countError array)
  | .dropTimes stack line => .next (s.dropTimes stack line)
  | .hostStore pa bytes =>
    match s.hostStore pa bytes with
    | (s, true) => .next s
    | (s', false) =>
      match s'.idle with
      | .next s'' => .next { s'' with agenda := .hostStore pa bytes :: s''.agenda }
      | o => o

/-! ### A word placed for the next step -/

/-- A launch that holds one team, for a word that the host places (log 19). -/
def placedLaunch : Launch := { id := 1, ctx := 0, record := 0, next := 1, system := true }

/-- A team of one thread in system mode on core 0, its 64 registers at 0. -/
def placedTeam (launch cluster stamp : Nat) : Team :=
  { place := .core 0, launch, cluster, dim := 1, grid := (1, 1, 1), stamp, base := 64, system := true
    threads := [(0, {})], groups := [(0, { sets := [(0, { mem := 1 })] })] }

/-- The leaf that maps page 0 for reading, writing and fetching (Table 2.2). -/
def placedLeaf : TlbEntry := { ctx := 0, va := 0, size := 4096, pte := 0xF }

/-- The words of an instruction of `nbits` bits, at device address 0, for a thread of a new team at virtual address 0; the
next step is that thread's issue (log 19). -/
def State.placeWord (s : State) (nbits w : Nat) : State :=
  let l := s.nextKey
  let bytes := Bits.joinLE 32 (tableWords nbits w)
  { s with
    nextKey := l + 3, stamp := s.stamp + 1, hbm := writeBytes s.hbm 0 20 bytes
    launches := Tab.put l placedLaunch s.launches
    clusters := Tab.put (l + 1) { launch := l, index := 0, teams := [l + 2] } s.clusters
    teams := Tab.put (l + 2) (placedTeam l (l + 1) s.stamp) s.teams
    tlbs := Tab.put 0 (placedLeaf :: Tab.getD s.tlbs 0 []) s.tlbs
    agenda := .issue 0 0 :: s.agenda }

end Sys2Proof.Machine
end

