-- ==== Sys2Proof/WellFormed.lean ====
section
/-! DEFINITION. Which instructions the encoding admits (checks 2 to 5 of R169, Tables 9.2 to 9.6). -/

namespace Sys2Proof

/-- A literal in place of operand B leaves field B zero (R158). -/
def B3.litOk (f : B3) : Bool := f.lit.isNone || f.b == 0

/-- Whether a base form has its M bit only where Table 9.3 allows it, and a literal only with B zero. -/
def B3.wf (typed : Bool) (f : B3) : Bool := f.litOk && (typed || !f.u)

/-- What checks 3 to 5 of R169 ask of an extended form. -/
def XForm.wf (o : XOp) (x : XForm) : Bool := (o.refuse x).isNone && (XOp.ofOp o.opcode x.sub.toNat == some o)

/-- What the part can be told of: the numbers an agent's step names are in range (R8 to R12, Table 1.1). -/
def Instr.eventWf : Instr → Bool
  | .matrixOpComplete c p | .ageUrgent c p => decide (c < 192) && decide (p < 4)
  | .pendingMissRetry d | .dieLossDetect d | .powerWindow d | .powerGateRequest d | .powerGateComplete d
  | .powerUngate d | .thermalThrottle d _ | .thermalRecover d _ | .thermalTrip d _ | .reductionPacketApply d _ =>
    decide (d < 2)
  | .walkComplete d e => decide (d < 2) && decide (e < 4096)
  | .fltreplyRetry n _ | .fltreplyFail n _ => decide (n < 8192)
  | .tlbinvRange c _ z => decide (c < 64) && decide (z < 4)
  | .tlbinvWhole c => decide (c < 64)
  | .hostMemRead pa len => decide (0 < len) && decide (pa % 64 + len ≤ 64)
  | .hostMemWrite pa bs => decide (pa % 64 + bs.length ≤ 64)
  | .platenCallDrain n _ | .platenCallWriteback n _ | .platenCallLoan n _ | .platenTeamPlace n _
  | .platenCallFault n _ | .platenCallInvalidate n _ | .platenCallReturn n _ | .platenPacketApply n _ => decide (n < 12)
  | .linkTrain p _ | .linkDown p => decide (p < 128)
  | .cgrptabWrite g _ => decide (g < 1024)
  | .hqdb q _ | .hqctlEnable q _ | .hqctlDisable q _ => decide (q < 64)
  | .clusterPlace _ _ c | .trackerDrainDone c _ | .cancelFlagSet _ c | .spawnBinTimer c _ | .spawnBinPlace c _
  | .spawnBinSteal c | .clusterRestore _ c => decide (c < 192)
  | .teamctlResume c p z | .teamctlDiscard c p z => decide (c < 192) && decide (p < 4) && decide (z < 16)
  | _ => true

/-- The well-formed instructions. -/
def Instr.wf (i : Instr) : Bool :=
  match i.toX with
  | some (o, x) => x.wf o
  | none =>
    match i with
    | .mulhiBase f | .minIBase f | .maxIBase f => f.wf true
    | .addBase f | .subBase f | .mulBase f | .madBase f | .bitAndBase f | .bitOrBase f | .bitXorBase f | .shlBase f
    | .shrBase f | .sraBase f | .rolBase f | .faddBase f | .fsubBase f | .fmulBase f | .fmaBase f | .fminBase f
    | .fmaxBase f => f.wf false
    | .ldiBase _ imm lit => lit.isNone || imm == 0
    | _ => i.eventWf

end Sys2Proof
end

