-- ==== Sys2Proof/Safety.lean ====
section
/-! DEFINITION. What counts as a safe run: every step answers a next state, and the memories keep their canonical form. -/

namespace Sys2Proof.Machine

/-- Both memories are in canonical form. -/
def State.canonical (s : State) : Bool := Memory.wf s.hbm && Memory.wf s.hostMem

/-- The state after `n` steps, if every one of them answers a next state. -/
def State.after (s : State) : Nat → Option State
  | 0 => some s
  | n + 1 =>
    match step s with
    | .next t => t.after n
    | _ => none

/-- A run of any length stays free of faults and refusals and keeps the memories canonical. -/
def Safe (s : State) : Prop := ∀ n, ∃ t, s.after n = some t ∧ t.canonical = true

end Sys2Proof.Machine
end

