-- ==== Sys2Proof/Certificates/Slice0/Obligations.lean ====
section
/-! DEFINITION. The statements for the provers, family by family, with the vocabulary they share. -/

namespace Sys2Proof.Claims

open Sys2Proof.Machine

/-! ### Vocabulary: issue groups -/

/-- The view a thread of team `k` has of its registers while an instruction executes. -/
def viewOf (k : Nat) (t : Team) (n : Nat) (th : Thread) : View := { id := { team := k, n }, team := t, th, alloc := t.alloc n }

/-- An issue group is formed: its threads belong to one resident team, each of them once. -/
def Formed (s : State) (ig : IssueGroup) (t : Team) : Prop :=
  s.ig = some ig ∧ s.team? ig.team = some t ∧ ig.threads.Nodup ∧
    ∀ n ∈ ig.threads, ∃ th, Tab.find n t.threads = some th

/-- Every thread of the group satisfies `p`. -/
def Each (ig : IssueGroup) (t : Team) (p : View → Prop) : Prop :=
  ∀ n ∈ ig.threads, ∀ th, Tab.find n t.threads = some th → p (viewOf ig.team t n th)

/-- A team without its threads. -/
def shell (t : Team) : Team := { t with threads := [] }

/-- `s'` is `s` but for the threads of the group: each becomes what `eff` says. Every other thread, every other field of
every team and everything else of the module, all of memory included, is unchanged. -/
def OnlyThreads (s s' : State) (ig : IssueGroup) (t : Team) (eff : View → Thread) : Prop :=
  (∀ n ∈ ig.threads, ∀ th, Tab.find n t.threads = some th →
    s'.thread? { team := ig.team, n } = some (eff (viewOf ig.team t n th))) ∧
  (∀ i : Tid, ¬(i.team = ig.team ∧ i.n ∈ ig.threads) → s'.thread? i = s.thread? i) ∧
  (∀ k, (s'.team? k).map shell = (s.team? k).map shell) ∧
  { s' with teams := s.teams } = s

/-- NextPC: the address after an instruction of `words` words. -/
def nextPc (ig : IssueGroup) (words : Nat) : Nat := ig.pc + 4 * words

/-- A thread that goes on at an address. -/
def Thread.at (th : Thread) (pc : Nat) : Thread := { th with pc := BitVec.ofNat 64 pc }

/-- No register listed holds a pending handle or a status not yet observed. -/
def Settled (c : View) (ns : List Nat) : Prop := ∀ n ∈ ns, Tab.find n c.th.pend = none ∧ Tab.find n c.th.seen = none

/-- No register listed holds a pending handle, nor a status not yet observed for which the thread was blocked here. -/
def Unheld (c : View) (ns : List Nat) : Prop :=
  ∀ n ∈ ns, Tab.find n c.th.pend = none ∧ (c.awaited n = true → Tab.find n c.th.seen = none)

/-- No register listed is uncorrectable. -/
def Sound (c : View) (ns : List Nat) : Prop := ∀ n ∈ ns, n ∉ c.th.bad

/-- The registers that the operand fields name. -/
def regsOf (c : View) (o : XOp) (x : XForm) (wa wb wc : Nat) : OpRegs :=
  match c.operands o x wa wb wc with
  | .ok r => r
  | .error _ => {}

/-- A thread can use its operands and destinations: they lie in its allocation and are aligned, no handle is pending in
them, no source holds a status not yet observed, and none is uncorrectable. -/
def Usable (o : XOp) (x : XForm) (wa wb wc : Nat) (dsts : List Nat) (_ : State) (c : View) : Prop :=
  c.dests dsts = .ok () ∧ (∃ r, c.operands o x wa wb wc = .ok r) ∧
    Settled c (regsOf c o x wa wb wc).srcs ∧ Unheld c dsts ∧ Sound c (regsOf c o x wa wb wc).srcs

/-- In every state whose issue group's threads all satisfy `ok`, instruction `i` of `words` words completes, and does
nothing but give each thread the registers of `eff` and the address of the next instruction. -/
def Completes (i : Instr) (words : Nat) (ok : State → View → Prop) (eff : State → View → Thread) : Prop :=
  ∀ s ig t, Formed s ig t → Each ig t (ok s) →
    ∃ s', exec i s = .next s' ∧ OnlyThreads s s' ig t fun c => Thread.at (eff s c) (nextPc ig words)

/-- Completion of an instruction that computes from operands A, B and C of `wa`, `wb` and `wc` registers. -/
def Computes (i : Instr) (o : XOp) (x : XForm) (words wa wb wc : Nat) (dsts : List Nat)
    (eff : State → View → Nat → Nat → Nat → Thread) : Prop :=
  Completes i words (Usable o x wa wb wc dsts) fun s c =>
    let r := regsOf c o x wa wb wc
    eff s c (c.th.vs r.a wa) (c.opB x r wb) (c.th.vs r.c wc)

/-- The destination registers D of a result of `w` registers. -/
def destOf (x : XForm) (w : Nat) : List Nat := regSpan x.d.toNat w

/-- Writes a result of the type's width to D. -/
def put (x : XForm) (c : View) (v : Nat) : Thread := c.th.setVs x.d.toNat v x.ty.regs

/-! ### Integer instructions -/

/-- Two sources and a result of the type's width. -/
def Binary (i : Instr) (o : XOp) (x : XForm) (words : Nat) (f : Nat → Nat → Nat) : Prop :=
  Computes i o x words x.ty.regs x.ty.regs 0 (destOf x x.ty.regs) fun _ c a b _ => put x c (f a b)

/-- A value and a count or descriptor of one register. -/
def Shift (i : Instr) (o : XOp) (x : XForm) (words : Nat) (f : Nat → Nat → Nat) : Prop :=
  Computes i o x words x.ty.regs 1 0 (destOf x x.ty.regs) fun _ c a b _ => put x c (f a b)

/-- One source, a result of the type's width. -/
def Unary (i : Instr) (o : XOp) (x : XForm) (f : Nat → Nat) : Prop :=
  Computes i o x x.words x.ty.regs 0 0 (destOf x x.ty.regs) fun _ c a _ _ => put x c (f a)

/-- One source, a result of one register. -/
def Counting (i : Instr) (o : XOp) (x : XForm) (f : Nat → Nat) : Prop :=
  Computes i o x x.words x.ty.regs 0 0 (destOf x 1) fun _ c a _ _ => c.th.setVs x.d.toNat (f a) 1

/-- A two-source instruction in its extended form, base form B3 and base form BI. -/
def BinaryForms (ext : XForm → Instr) (b3 : B3 → Instr) (bi : BI → Instr) (o : XOp) (f : Ty → Nat → Nat → Nat) : Prop :=
  (∀ x, Binary (ext x) o x x.words (f x.ty)) ∧
  (∀ g : B3, Binary (b3 g) o (g.toX g.intTy false) g.words (f g.intTy)) ∧
  (∀ g : BI, Binary (bi g) o (g.toX false) 1 (f .i32))

/-- A shift in its three forms. -/
def ShiftForms (ext : XForm → Instr) (b3 : B3 → Instr) (bi : BI → Instr) (o : XOp) (f : Ty → Nat → Nat → Nat) : Prop :=
  (∀ x, Shift (ext x) o x x.words (f x.ty)) ∧
  (∀ g : B3, Shift (b3 g) o (g.toX g.intTy false) g.words (f g.intTy)) ∧
  (∀ g : BI, Shift (bi g) o (g.toX false) 1 (f .i32))

/-- The low bits of an exact integer, as wide as the type. -/
def wrap (ty : Ty) (v : Int) : Nat := Bits.ofInt ty.bits v

end Sys2Proof.Claims

open Sys2Proof Sys2Proof.Machine Sys2Proof.Claims

/-! ### Integer and predicate instructions -/

/-- R196: the sums, differences, products and minima of integers, in every form; the exact result modulo 2^w, and its high
half for `mulhi`. Nothing but the destination and the program counter changes. -/
def Sys2Proof.Claims.IntegerArithmetic : Prop :=
  BinaryForms .add .addBase .addImmBase .add (fun ty a b => wrap ty (a + b)) ∧
  BinaryForms .sub .subBase .subImmBase .sub (fun ty a b => wrap ty ((a : Int) - b)) ∧
  BinaryForms .mul .mulBase .mulImmBase .mul (fun ty a b => wrap ty (a * b)) ∧
  BinaryForms .mulhi .mulhiBase .mulhiImmBase .mulhi
    (fun ty a b => Bits.ofInt (2 * ty.bits) (Ty.value ty a * Ty.value ty b) / 2 ^ ty.bits) ∧
  BinaryForms .minI .minIBase .minIImmBase .minI (fun ty a b => if Ty.value ty a ≤ Ty.value ty b then a else b) ∧
  BinaryForms .maxI .maxIBase .maxIImmBase .maxI (fun ty a b => if Ty.value ty a ≤ Ty.value ty b then b else a)

/-- R196: `mad` adds an addend to the product; in the base forms the addend is the destination (R161). -/
def Sys2Proof.Claims.MultiplyAdd : Prop :=
  let mad := fun (i : Instr) (x : XForm) (words : Nat) =>
    Computes i .mad x words x.ty.regs x.ty.regs x.ty.regs (destOf x x.ty.regs)
      fun _ c a b e => put x c (wrap x.ty (a * b + e))
  (∀ x, mad (.mad x) x x.words) ∧ (∀ g : B3, mad (.madBase g) (g.toX g.intTy true) g.words) ∧
    (∀ g : BI, mad (.madImmBase g) (g.toX true) 1)

/-- R196: the arithmetic of integers, `mad` among it. -/
def Obligations.SumsAndProducts : Prop := IntegerArithmetic ∧ MultiplyAdd

/-- R197 to R201: logic, shifts, bit fields, counting, division and address computation. -/
def Obligations.IntegerLogic : Prop :=
  BinaryForms .bitAnd .bitAndBase .bitAndImmBase .bitAnd (fun _ a b => a &&& b) ∧
  BinaryForms .bitOr .bitOrBase .bitOrImmBase .bitOr (fun _ a b => a ||| b) ∧
  BinaryForms .bitXor .bitXorBase .bitXorImmBase .bitXor (fun _ a b => a ^^^ b) ∧
  ShiftForms .shl .shlBase .shlImmBase .shl (fun ty a n => wrap ty (a * 2 ^ n)) ∧
  ShiftForms .shr .shrBase .shrImmBase .shr (fun ty a n => if ty.bits ≤ n then 0 else a / 2 ^ n) ∧
  ShiftForms .sra .sraBase .sraImmBase .sra
    (fun ty a n => wrap ty (Bits.signed ty.bits a / ((2 ^ min n (ty.bits - 1) : Nat) : Int))) ∧
  ShiftForms .rol .rolBase .rolImmBase .rol
    (fun ty a n => a * 2 ^ (n % ty.bits) % 2 ^ ty.bits + a / 2 ^ (ty.bits - n % ty.bits)) ∧
  (∀ x, Shift (.bfe x) .bfe x x.words (bfeV x.ty)) ∧
  (∀ x, Computes (.bfi x) .bfi x x.words x.ty.regs 1 x.ty.regs (destOf x x.ty.regs)
    fun _ c a b e => put x c (bfiV x.ty a b e)) ∧
  (∀ x, Counting (.popc x) .popc x (Bits.popcount x.ty.bits)) ∧
  (∀ x, Counting (.clz x) .clz x (Bits.leadingZeros x.ty.bits)) ∧
  (∀ x, Counting (.ctz x) .ctz x (Bits.trailingZeros x.ty.bits)) ∧
  (∀ x, Unary (.brev x) .brev x (Bits.reverse x.ty.bits)) ∧
  (∀ x, Unary (.absI x) .absI x fun a => if a < 2 ^ (x.ty.bits - 1) then a else wrap x.ty (-(a : Int))) ∧
  (∀ x, Unary (.negI x) .negI x fun a => wrap x.ty (-(a : Int))) ∧
  (∀ x, Unary (.bitNot x) .bitNot x fun a => 2 ^ x.ty.bits - 1 - a) ∧
  (∀ x, Binary (.div x) .div x x.words fun a b =>
    if b = 0 then 2 ^ x.ty.bits - 1 else wrap x.ty ((Ty.value x.ty a).tdiv (Ty.value x.ty b))) ∧
  (∀ x, Binary (.rem x) .rem x x.words fun a b =>
    if b = 0 then a else wrap x.ty ((Ty.value x.ty a).tmod (Ty.value x.ty b))) ∧
  (∀ x, Computes (.lea x) .lea x x.words 2 x.ty.regs 0 (destOf x 2)
    fun _ c a b _ => c.th.setVs x.d.toNat (Bits.ofInt 64 (a + Ty.value x.ty b * ((2 ^ (x.imm.toNat % 8) : Nat) : Int))) 2)

/-- R201 to R204: `sel` takes A where its guard holds and B elsewhere, in every thread of the issue group; `mov` copies,
`ldi` loads its constant, `cvt` converts. -/
def Obligations.Moves : Prop :=
  (∀ x, Computes (.sel x) .sel x x.words x.ty.regs x.ty.regs 0 (destOf x x.ty.regs)
    fun _ c a b _ => put x c (if c.th.guard x.g then a else b)) ∧
  (∀ x, Unary (.mov x) .mov x fun a => a) ∧
  (∀ d a : BitVec 6,
    let x := { XForm.blank .b32 with d := d.setWidth 10, a := a.setWidth 10 }
    Computes (.movBase d a) .mov x 1 1 0 0 (destOf x 1) fun _ c a _ _ => put x c a) ∧
  (∀ x, Computes (.ldi x) .ldi x x.words 0 0 0 (destOf x x.ty.regs) fun _ c _ _ _ => put x c (ldiV x.ty x.imm x.lit)) ∧
  (∀ (d : BitVec 6) (imm : BitVec 10) (lit : Option DWord),
    let x := { XForm.blank .i32 with d := d.setWidth 10 }
    Computes (.ldiBase d imm lit) .ldi x (if lit.isSome then 3 else 1) 0 0 0 (destOf x 1)
      fun _ c _ _ _ => put x c (ldiV .i32 (imm.signExtend 22) lit)) ∧
  (∀ x, Computes (.cvt x) .cvt x x.words ((Ty.ofCode x.sub.toNat).getD .i32).regs 0 0 (destOf x x.ty.regs)
    fun _ c a _ _ => put x c (cvtV ((Ty.ofCode x.sub.toNat).getD .i32) x.ty (Bits.bit x.imm.toNat 0) a))

/-- R205, R206: comparisons and operations on predicates. A write to `p7` changes nothing (R134). -/
def Obligations.Predicates : Prop :=
  (∀ x, Computes (.cmp x) .cmp x x.words x.ty.regs x.ty.regs 0 [] fun _ c a b _ =>
    c.th.setP x.d.toNat (cmpHolds x.sub.toNat (Ty.value x.ty a) (Ty.value x.ty b))) ∧
  (∀ x,
    let pred := fun (i : Instr) (f : Bool → Bool → Bool) =>
      Completes i x.words (fun _ _ => True) fun _ c =>
        c.th.setP x.d.toNat (f (c.th.p x.a.toNat) (c.th.p x.b.toNat))
    pred (.pand x) (fun a b => a && b) ∧ pred (.por x) (fun a b => a || b) ∧ pred (.pxor x) (fun a b => a != b) ∧
      pred (.pandn x) (fun a b => a && !b) ∧ pred (.pnot x) (fun a _ => !a) ∧ pred (.pmov x) fun a _ => a)

/-- R207: `pget` writes to D the value whose bit i is P(t,i) for i = 0 to 7, so that bit 7 reads 1, and whose bits 31:8 read 0.
`pset` sets P(t,i) to bit i of OpA(t) for each i from 0 to 6 whose mask bit is 1; the others keep their values, and mask
bit 7 is ignored. -/
def Obligations.PredicateMasks : Prop :=
  (∀ x, ∃ eff : View → Thread, Completes (.pget x) x.words (Usable .pget x 0 0 0 (destOf x 1)) (fun _ => eff) ∧
    ∀ c, (∀ i, i < 32 → ((eff c).v x.d.toNat).getLsbD i = (decide (i < 8) && c.th.p i)) ∧
      eff c = c.th.setV x.d.toNat ((eff c).v x.d.toNat).toNat) ∧
  (∀ x, ∃ eff : View → Thread, Completes (.pset x) x.words (Usable .pset x 1 0 0 []) (fun _ => eff) ∧
    ∀ c, let a := c.th.vs (regsOf c .pset x 1 0 0).a 1
      (∀ i, i < 7 → (eff c).p i = if Bits.bit x.imm.toNat i then Bits.bit a i else c.th.p i) ∧
      { eff c with preds := c.th.preds } = c.th)

/-! ### Floating point -/

namespace Sys2Proof.Claims

/-- A float instruction: result and flags of `f`, the flags ORed into `%fpflags`. -/
def Floats (i : Instr) (o : XOp) (x : XForm) (words : Nat) (nb nc : Bool) (f : Fmt → Nat → Nat → Nat → Nat × Nat) : Prop :=
  let w := x.ty.regs
  Computes i o x words w (if nb then w else 0) (if nc then w else 0) (destOf x w) fun _ c a b e =>
    let r := f (fmtOf x.ty) a (if nb then b else 0) (if nc then e else 0)
    (put x c r.1).raiseFlags r.2

/-- A float instruction of one source in the type's width. -/
def FloatUnary (i : Instr) (o : XOp) (x : XForm) (f : Fmt → Nat → Nat × Nat) : Prop :=
  Floats i o x x.words false false fun fm a _ _ => f fm (a % 2 ^ (fm.magBits + 1))

end Sys2Proof.Claims

/-- R211 to R215: each float instruction writes the result that the chapter's function of its operands gives and raises
exactly that function's flags. -/
def Obligations.FloatResults : Prop :=
  (∀ x, Floats (.fadd x) .fadd x x.words true false fun f a b _ => faddV f a b) ∧
  (∀ g : B3, Floats (.faddBase g) .fadd (g.toX .f32 false) g.words true false fun f a b _ => faddV f a b) ∧
  (∀ x, Floats (.fsub x) .fsub x x.words true false fun f a b _ => fsubV f a b) ∧
  (∀ g : B3, Floats (.fsubBase g) .fsub (g.toX .f32 false) g.words true false fun f a b _ => fsubV f a b) ∧
  (∀ x, Floats (.fmul x) .fmul x x.words true false fun f a b _ => fmulV f a b) ∧
  (∀ g : B3, Floats (.fmulBase g) .fmul (g.toX .f32 false) g.words true false fun f a b _ => fmulV f a b) ∧
  (∀ x, Floats (.fma x) .fma x x.words true true fmaV) ∧
  (∀ g : B3, Floats (.fmaBase g) .fma (g.toX .f32 true) g.words true true fmaV) ∧
  (∀ x, Floats (.fmin x) .fmin x x.words true false fun f a b _ => fminmaxV false f a b) ∧
  (∀ g : B3, Floats (.fminBase g) .fmin (g.toX .f32 false) g.words true false fun f a b _ => fminmaxV false f a b) ∧
  (∀ x, Floats (.fmax x) .fmax x x.words true false fun f a b _ => fminmaxV true f a b) ∧
  (∀ g : B3, Floats (.fmaxBase g) .fmax (g.toX .f32 false) g.words true false fun f a b _ => fminmaxV true f a b) ∧
  (∀ x, Floats (.fabs x) .fabs x x.words false false fun f a _ _ => fsignV (fun _ _ => false) f a 0) ∧
  (∀ x, Floats (.fneg x) .fneg x x.words false false fun f a _ _ => fsignV (fun a _ => !a) f a 0) ∧
  (∀ x, Floats (.fsgn x) .fsgn x x.words true false fun f a b _ => fsignV (fun _ b => b) f a b) ∧
  (∀ x, Floats (.frnd x) .frnd x x.words false false fun f a _ _ => frndV x.sub.toNat f a) ∧
  (∀ x, FloatUnary (.frcp x) .frcp x frcpV) ∧ (∀ x, FloatUnary (.frsq x) .frsq x frsqV) ∧
  (∀ x, FloatUnary (.fsqrt x) .fsqrt x fsqrtV) ∧ (∀ x, FloatUnary (.fex2 x) .fex2 x fex2V) ∧
  (∀ x, FloatUnary (.flg2 x) .flg2 x flg2V) ∧ (∀ x, FloatUnary (.fsinr x) .fsinr x (fturnV false)) ∧
  (∀ x, FloatUnary (.fcosr x) .fcosr x (fturnV true)) ∧
  (∀ x, Floats (.fdiv x) .fdiv x x.words true false fun f a b _ => fdivV f a b)

/-- R216 to R221: comparison, conversion (through a slot that the instruction accepts, where it names one) and the block
conversions. -/
def Obligations.FloatConversions : Prop :=
  (∀ x, Computes (.fcmp x) .fcmp x x.words x.ty.regs x.ty.regs 0 [] fun _ c a b _ =>
    let r := fcmpV x.sub.toNat (fmtOf x.ty) a b
    (c.th.setP x.d.toNat r.1).raiseFlags r.2) ∧
  (∀ x,
    let src := (Ty.ofCode x.sub.toNat).getD .f32
    Completes (.fcvt x) x.words
      (fun s c => (Bits.bit x.imm.toNat 3 = true → fcvtSlotOk x (s.fslot c.team x.fs.toNat) = true) ∧
        Usable .fcvt x src.regs 0 0 (destOf x x.ty.regs) s c)
      fun s c =>
        let r := regsOf c .fcvt x src.regs 0 0
        let v := fcvtV src x.ty x.imm.toNat (s.fslot c.team x.fs.toNat) (c.th.vs r.a src.regs)
        (put x c v.1).raiseFlags v.2) ∧
  (∀ x,
    Completes (.mxq x) x.words
      (fun s c => mxSlotOk x (s.fslot c.team x.fs.toNat) = true ∧ c.dests [x.b.toNat] = .ok () ∧
        c.dests (destOf x 4) = .ok () ∧
        ∃ a, c.resolve (word0 .mxq x) x.a.toNat x.c.toNat x.xa 1 = .ok a ∧ c.block a = .ok () ∧
          Settled c (regSpan a 32 ++ [x.b.toNat] ++ if x.xa then [x.c.toNat] else []) ∧ Unheld c (destOf x 4) ∧
          Sound c (regSpan a 32 ++ [x.b.toNat] ++ if x.xa then [x.c.toNat] else []))
      fun s c =>
        let a := match c.resolve (word0 .mxq x) x.a.toNat x.c.toNat x.xa 1 with | .ok a => a | .error _ => 0
        let k := mxqV (x.ty == .e2m1s) (slotT (s.fslot c.team x.fs.toNat)) ((regSpan a 32).map fun n => (c.th.v n).toNat)
        let half := k.scale + 2 ^ 8 * k.spare
        let old := (c.th.v x.b.toNat).toNat
        let b := if x.sub = 0 then old / 2 ^ 16 * 2 ^ 16 + half else old % 2 ^ 16 + half * 2 ^ 16
        ((c.th.setVs x.d.toNat (Bits.joinLE 4 k.codes) 4).setV x.b.toNat b).raiseFlags k.flags) ∧
  (∀ x,
    Completes (.mxdq x) x.words
      (fun s c => mxSlotOk x (s.fslot c.team x.fs.toNat) = true ∧ c.dests [x.b.toNat] = .ok () ∧
        c.block x.d.toNat = .ok () ∧
        ∃ a, c.resolve (word0 .mxdq x) x.a.toNat x.c.toNat x.xa 4 = .ok a ∧
          Settled c (regSpan a 4 ++ [x.b.toNat] ++ if x.xa then [x.c.toNat] else []) ∧ Unheld c (destOf x 32) ∧
          Sound c (regSpan a 4 ++ [x.b.toNat] ++ if x.xa then [x.c.toNat] else []))
      fun s c =>
        let a := match c.resolve (word0 .mxdq x) x.a.toNat x.c.toNat x.xa 4 with | .ok a => a | .error _ => 0
        let b := (c.th.v x.b.toNat).toNat
        let r := mxdqV (x.ty == .e2m1s) (slotT (s.fslot c.team x.fs.toNat)) (c.th.vs a 4)
          (if x.sub = 0 then b % 2 ^ 16 else b / 2 ^ 16)
        (c.th.setVs x.d.toNat (Bits.joinLE 32 (r.map (·.1))) 32).raiseFlags (r.foldl (fun f v => f ||| v.2) 0))

/-! ### Cross-lane and register-file instructions -/

namespace Sys2Proof.Claims

/-- What a thread contributes to a collective: its lane and its operands. -/
def contribOf (t : Team) (o : XOp) (x : XForm) (wa wb : Nat) (c : View) : Contribution :=
  let r := regsOf c o x wa wb 0
  { n := c.id.n, lane := t.lane c.id.n, th := c.th, a := c.th.vs r.a wa, b := c.th.vs r.b wb }

/-- The contributions of an issue group, in lane order. -/
def contribs (ig : IssueGroup) (t : Team) (o : XOp) (x : XForm) (wa wb : Nat) : List Contribution :=
  ig.threads.filterMap fun n => (Tab.find n t.threads).map fun th => contribOf t o x wa wb (viewOf ig.team t n th)

/-- Completion of a collective whose issue group is exactly the live threads of one group: every thread's registers become
what `write` makes of all contributions. -/
def Collects (i : Instr) (o : XOp) (x : XForm) (wa wb : Nat) (dsts : List Nat)
    (write : Nat → List Contribution → Contribution → Thread) : Prop :=
  ∀ s ig t, Formed s ig t → t.converged ig.threads = true → Each ig t (Usable o x wa wb 0 dsts s) →
    ∃ s', exec i s = .next s' ∧ OnlyThreads s s' ig t fun c =>
      Thread.at (write t.width (contribs ig t o x wa wb) (contribOf t o x wa wb c)) (nextPc ig x.words)

/-- A collective's issue group is not the live threads of one group, and the launch has a trap vector: every thread enters it
with ILLEGAL_CONVERGENCE and the mask of its group's lanes present; no register or predicate changes. -/
def Diverges (i : Instr) : Prop :=
  ∀ s ig t, Formed s ig t → t.converged ig.threads = false → t.near = false → t.stopped = false → s.trapVec t ≠ 0 →
    (∀ n th, Tab.find n t.threads = some th → th.handler = false) →
    ∃ s', exec i s = .next s' ∧ ∀ n ∈ ig.threads, ∃ th th', Tab.find n t.threads = some th ∧
      s'.thread? { team := ig.team, n } = some th' ∧ th'.regs = th.regs ∧ th'.preds = th.preds ∧ th'.handler = true ∧
      th'.pc = BitVec.ofNat 64 (s.trapVec t) ∧ th'.tcause.toNat % 256 = Code.convergence ∧
      th'.tinfo = BitVec.ofNat 32 (Bits.maskOf ((ig.threads.filter fun m => t.gid m == t.gid n).map t.lane))

/-- Everything but team `k` is unchanged. -/
def OnlyTeam (s s' : State) (k : Nat) : Prop :=
  (∀ j, j ≠ k → s'.team? j = s.team? j) ∧ { s' with teams := s.teams } = s

/-- Threads of a team: those of the list became what `eff` says, the others are unchanged. -/
def ThreadsOf (t t' : Team) (ns : List Nat) (eff : Nat → Thread → Thread) : Prop :=
  (∀ n ∈ ns, Tab.find n t'.threads = (Tab.find n t.threads).map (eff n)) ∧
  (∀ n, n ∉ ns → Tab.find n t'.threads = Tab.find n t.threads)

end Sys2Proof.Claims

/-- R224 to R230: the collectives of a converged group. `redux` follows its fixed tree over lanes. -/
def Sys2Proof.Claims.Collectives : Prop :=
  (∀ x,
    let w := x.ty.regs
    let wb := if laneImm x then 0 else 1
    Collects (.shfl x) .shfl x w wb (destOf x w) (fun width cs c =>
      let d := laneArg x c
      let src :=
        if x.sub = 0 then d % width
        else if x.sub = 1 then (if d ≤ c.lane then c.lane - d else c.lane)
        else if x.sub = 2 then (if c.lane + d < width then c.lane + d else c.lane)
        else c.lane ^^^ (d % width)
      c.th.setVs x.d.toNat (((cs.find? fun o => o.lane == src).map Contribution.a).getD c.a) w) ∧
    Collects (.perm x) .perm x w wb (destOf x w) (fun width cs c =>
      match (cs.filter fun o => laneArg x o % width == c.lane).getLast? with
      | some o => c.th.setVs x.d.toNat o.a w
      | none => c.th) ∧
    Collects (.redux x) .redux x w 0 (destOf x w) (fun width cs c =>
      let slots := (List.range width).map fun l => (cs.find? fun o => o.lane == l).map Contribution.a
      let r := reduxTree x.sub.toNat x.ty 5 slots
      (c.th.setVs x.d.toNat r.1 w).raiseFlags r.2) ∧
    Collects (.cdet x) .cdet x w 0 [x.d.toNat] (fun _ cs c =>
      c.th.setV x.d.toNat (Bits.maskOf ((cs.filter fun o => o.lane < c.lane && o.a == c.a).map Contribution.lane))) ∧
    Collects (.matchV x) .matchV x w 0 [x.d.toNat] fun _ cs c =>
      c.th.setV x.d.toNat (Bits.maskOf ((cs.filter fun o => o.a == c.a).map Contribution.lane))) ∧
  (∀ x : XForm,
    let pa := fun (c : Contribution) => c.th.p x.a.toNat
    (x.sub.toNat = 0 → Collects (.vote x) .vote x 0 0 [] fun _ cs c => c.th.setP x.d.toNat (cs.all pa)) ∧
    (x.sub.toNat = 1 → Collects (.vote x) .vote x 0 0 [] fun _ cs c => c.th.setP x.d.toNat (cs.any pa)) ∧
    (x.sub.toNat = 2 → Collects (.vote x) .vote x 0 0 [x.d.toNat] fun _ cs c =>
      c.th.setV x.d.toNat (Bits.maskOf ((cs.filter pa).map Contribution.lane))) ∧
    (3 ≤ x.sub.toNat → Collects (.vote x) .vote x x.ty.regs 0 [] fun _ cs c =>
      c.th.setP x.d.toNat (cs.all fun o => o.a == c.a)))

/-- R224: a collective that does not find exactly the live threads of one group raises ILLEGAL_CONVERGENCE in every thread
and writes no register. -/
def Sys2Proof.Claims.CollectiveConvergence : Prop :=
  ∀ x, Diverges (.shfl x) ∧ Diverges (.perm x) ∧ Diverges (.vote x) ∧ Diverges (.redux x) ∧ Diverges (.cdet x) ∧
    Diverges (.matchV x)

/-- R224 to R230: the collectives of a converged group, and the fault of a group that is not. -/
def Obligations.CrossLane : Prop := Collectives ∧ CollectiveConvergence

/-- R231 to R235: register-indexed moves, staging, uniform and special registers. `kset` writes the lowest lane's value and
records its group as the writer. -/
def Sys2Proof.Claims.RegisterMoves : Prop :=
  (∀ x,
    let w := x.ty.regs
    let n := fun (c : View) => x.imm.toNat % 2 ^ 10 + (c.th.v x.a.toNat).toNat % 2 ^ 10
    let named := fun (dst : List Nat) (src : View → List Nat) (all : View → List Nat) (s : State) (c : View) =>
      c.dests [x.a.toNat] = .ok () ∧ c.dests dst = .ok () ∧ n c + w - 1 < c.alloc ∧ n c % w = 0 ∧
        Settled c (all c) ∧ Sound c (src c)
    Completes (.vget x) x.words
      (named (destOf x w) (fun c => x.a.toNat :: regSpan (n c) w) fun c => x.a.toNat :: regSpan (n c) w ++ destOf x w)
      (fun _ c => c.th.setVs x.d.toNat (c.th.vs (n c) w) w) ∧
    Completes (.vput x) x.words
      (named (regSpan x.b.toNat w) (fun _ => x.a.toNat :: regSpan x.b.toNat w)
        fun c => x.a.toNat :: regSpan x.b.toNat w ++ regSpan (n c) w)
      (fun _ c => c.th.setVs (n c) (c.th.vs x.b.toNat w) w)) ∧
  (∀ x,
    let ks := regSpan x.a.toNat x.ty.regs
    Completes (.kmov x) x.words
      (fun s c => Usable .kmov x 0 0 0 (destOf x x.ty.regs) s c ∧
        ∀ k ∈ ks, Tab.find k c.team.kp = none ∧ Tab.find k c.team.kseen = none ∧ k ∉ c.team.kbad)
      fun _ c => put x c (Bits.joinLE 32 (ks.map c.team.kreg))) ∧
  (∀ x s ig t n th rest,
    let w := x.ty.regs
    let ks := regSpan x.d.toNat w
    Formed s ig t → ig.threads = n :: rest → Tab.find n t.threads = some th →
    (∀ m ∈ ig.threads, t.gid m = t.gid n) → (∀ k ∈ ks, Tab.find k t.kp = none) → t.kRace (t.gid n) ks = none →
    Each ig t (fun c => Usable .kset x w 0 0 [] s c ∧
      ∀ k ∈ ks, c.awaited (1024 + k) = true → Tab.find k t.kseen = none) →
    ∃ s' t', exec (.kset x) s = .next s' ∧ OnlyTeam s s' ig.team ∧ s'.team? ig.team = some t' ∧
      (let c := viewOf ig.team t n th
       let t'' := ((t.kForget ks).setK x.d.toNat (c.th.vs (regsOf c .kset x w 0 0).a w) w).kOwn (t.gid n) ks
       { t' with threads := [] } = { t'' with threads := [] }) ∧
      ThreadsOf t t' ig.threads fun _ th => Thread.at th (nextPc ig x.words)) ∧
  (∀ x, Completes (.sysrd x) x.words
    (fun s c => Usable .sysrd x 0 0 0 (destOf x x.ty.regs) s c ∧ (x.a = 19 → s.arrayBusy c = false))
    fun s c =>
      let th := put x c (s.sreg c x.a.toNat)
      if Bits.bit x.imm.toNat 0 then { th with fpflags := 0 } else th)

/-- R233: `stage` raises no fault for any range, and changes nothing but the program counter. -/
def Sys2Proof.Claims.StageIsTimingOnly : Prop := ∀ x, Completes (.stage x) x.words (fun _ _ => True) fun _ c => c.th

/-- R231 to R235: moves between register files, and `stage`. -/
def Obligations.RegistersAndStaging : Prop := RegisterMoves ∧ StageIsTimingOnly

/-- R331: `nop` does nothing beyond advancing each thread to NextPC, in both forms; its base word is 0x2BC0_0000. -/
def Obligations.NopOnlyAdvances : Prop :=
  (∀ x, Completes (.nop x) x.words (fun _ _ => True) fun _ c => c.th) ∧
  Completes .nopBase 1 (fun _ _ => True) (fun _ c => c.th) ∧ encode .nopBase = [0x2BC00000]

/-- No claim waits anywhere. -/
def Sys2Proof.Claims.NoClaims (s : State) : Prop := ∀ p ∈ s.teams, ∀ q ∈ p.2.groups, q.2.claim = none

/-- R126, R128, R232: an `xclaim` of no more than the group already holds is answered true at once, one beyond 1,024 registers
false at once; one that the pool can satisfy while no other claim waits is granted: the registers that enter the block read 0. -/
def Sys2Proof.Claims.ClaimAnswers : Prop :=
  ∀ x s ig t gk g, Formed s ig t → ig.threads ≠ [] → (∀ n ∈ ig.threads, t.hw n = gk) → Tab.find gk t.groups = some g →
    let answered := fun (ok : Bool) (s' : State) =>
      OnlyThreads s s' ig t fun c => Thread.at (c.th.setP x.d.toNat ok) (nextPc ig x.words)
    (claimTarget x ≤ g.x → ∃ s', exec (.xclaim x) s = .next s' ∧ answered true s') ∧
    (g.x < claimTarget x → 1024 < t.base + claimTarget x → ∃ s', exec (.xclaim x) s = .next s' ∧ answered false s') ∧
    (∀ core, g.x < claimTarget x → t.base + claimTarget x ≤ 1024 → t.place = .core core → g.held = true → NoClaims s →
      Tab.sorted s.teams = true → Tab.sorted t.groups = true →
      s.regsUsed core g.part + (claimTarget x - g.x) ≤ 2048 →
      ∃ s', exec (.xclaim x) s = .next s' ∧
        (∀ n ∈ ig.threads, ∀ th, Tab.find n t.threads = some th → ∃ th', s'.thread? { team := ig.team, n } = some th' ∧
          th'.regs = th.regs.filter (fun p => decide (p.1 < t.base + g.x)) ∧
          th'.preds = (th.setP x.d.toNat true).preds ∧ th'.wait = .ready ∧
          th'.pc = BitVec.ofNat 64 (nextPc ig x.words)) ∧
        ∃ t', s'.team? ig.team = some t' ∧ (Tab.find gk t'.groups).map Group.x = some (claimTarget x))

/-- R126, R128: `xgive` to no less than the group holds changes nothing; below that, the group's extended block shrinks to
the target and the released registers lose their values and their handles. -/
def Sys2Proof.Claims.GiveReleases : Prop :=
  ∀ x s ig t gk g, Formed s ig t → ig.threads ≠ [] → (∀ n ∈ ig.threads, t.hw n = gk) → Tab.find gk t.groups = some g →
    s.inFlight ig.team gk (t.base + claimTarget x) = false →
    (g.x ≤ claimTarget x → ∃ s', exec (.xgive x) s = .next s' ∧
      OnlyThreads s s' ig t fun c => Thread.at c.th (nextPc ig x.words)) ∧
    (claimTarget x < g.x → NoClaims s →
      ∃ s', exec (.xgive x) s = .next s' ∧ (∀ n ∈ ig.threads, ∀ th, Tab.find n t.threads = some th →
        ∃ th', s'.thread? { team := ig.team, n } = some th' ∧ th'.pc = BitVec.ofNat 64 (nextPc ig x.words) ∧
          th'.regs = th.regs.filter (fun p => decide (p.1 < t.base + claimTarget x)) ∧
          th'.pend = th.pend.filter fun p => decide (p.1 < t.base + claimTarget x)) ∧
        ∃ t', s'.team? ig.team = some t' ∧ (Tab.find gk t'.groups).map Group.x = some (claimTarget x))

/-- R126, R128: `xclaim` and `xgive`. -/
def Obligations.RegisterPool : Prop := ClaimAnswers ∧ GiveReleases

/-! ### Control flow, traps, named barriers, rejoin sets -/

namespace Sys2Proof.Claims

/-- In every state whose issue group's threads all satisfy `ok`, instruction `i` completes, and does nothing but turn each
thread into what `eff` says. -/
def Goes (i : Instr) (ok : State → View → Prop) (eff : State → IssueGroup → View → Thread) : Prop :=
  ∀ s ig t, Formed s ig t → Each ig t (ok s) → ∃ s', exec i s = .next s' ∧ OnlyThreads s s' ig t (eff s ig)

/-- A direct transfer of `words` words: guard, offset in words, link pair. -/
def Direct (i : Instr) (words : Nat) (g : BitVec 4) (off : BitVec 22) (link : Option Nat) : Prop :=
  let span := (link.map fun d => regSpan d 2).getD []
  Goes i (fun _ c => c.th.guard g = true → c.dests span = .ok () ∧ Unheld c span) fun _ ig c =>
    if c.th.guard g then
      { (match link with | some d => c.th.setVs d (nextPc ig words) 2 | none => c.th) with
        pc := BitVec.ofInt 64 ((nextPc ig words : Int) + 4 * off.toInt) }
    else Thread.at c.th (nextPc ig words)

/-- An indirect transfer through pair A of `x`; the target is read before the link pair is written. -/
def Indirect (i : Instr) (o : XOp) (x : XForm) (words : Nat) (g : Option (BitVec 4)) (link : Option Nat) : Prop :=
  let span := (link.map fun d => regSpan d 2).getD []
  let taken := fun (c : View) => (g.map c.th.guard).getD true
  Goes i (fun s c => taken c = true → Usable o x 2 0 0 span s c) fun _ ig c =>
    if taken c then
      { (match link with | some d => c.th.setVs d (nextPc ig words) 2 | none => c.th) with
        pc := BitVec.ofNat 64 (c.th.vs (regsOf c o x 2 0 0).a 2) }
    else Thread.at c.th (nextPc ig words)

/-- What entering the trap vector does to a thread: the trap record, the handler bit and the program counter are written;
registers, predicates, flags and handles stay. -/
def Trapped (th th' : Thread) (vec tpc : Nat) (tr : Trap) : Prop :=
  th'.handler = true ∧ th'.pc = BitVec.ofNat 64 vec ∧
    th'.tcause.toNat = (th.tcause.toNat / 2 ^ 16 + 1) % 2 ^ 16 * 2 ^ 16 + tr.code % 256 ∧
    th'.tpc = BitVec.ofNat 64 tpc ∧ th'.taddr = BitVec.ofNat 64 tr.addr ∧ th'.tinfo = BitVec.ofNat 32 tr.info ∧
    th'.regs = th.regs ∧ th'.preds = th.preds ∧ th'.fpflags = th.fpflags ∧ th'.live = th.live ∧ th'.pend = th.pend

/-- A team on a main-die core that is not stopped and has a trap vector; no thread of the group is in a handler. -/
def CanTrap (s : State) (ig : IssueGroup) (t : Team) : Prop :=
  t.near = false ∧ t.stopped = false ∧ s.trapVec t ≠ 0 ∧ Each ig t fun c => c.th.handler = false

/-- `s'` is `s` but for the threads of the group, each of which relates to its view before by `p`. -/
def Touches (s s' : State) (ig : IssueGroup) (t : Team) (p : View → Thread → Prop) : Prop :=
  (∀ n ∈ ig.threads, ∀ th, Tab.find n t.threads = some th →
    ∃ th', s'.thread? { team := ig.team, n } = some th' ∧ p (viewOf ig.team t n th) th') ∧
  (∀ i : Tid, ¬(i.team = ig.team ∧ i.n ∈ ig.threads) → s'.thread? i = s.thread? i) ∧
  (∀ k, (s'.team? k).map shell = (s.team? k).map shell) ∧ { s' with teams := s.teams } = s

/-- Every thread of the group has entered the trap vector with its trap; nothing else has changed. -/
def Enters (s s' : State) (ig : IssueGroup) (t : Team) (tpc : View → Nat) (tr : View → Trap) : Prop :=
  Touches s s' ig t fun c th' => Trapped c.th th' (s.trapVec t) (tpc c) (tr c)

/-- Instruction `i` traps in every thread of a group that satisfies `bad`, precisely: `%tpc` is the thread's own program
counter. -/
def Faults (i : Instr) (bad : State → Team → View → Prop) (tr : View → Trap) : Prop :=
  ∀ s ig t, Formed s ig t → CanTrap s ig t → Each ig t (bad s t) →
    ∃ s', exec i s = .next s' ∧ Enters s s' ig t (fun c => c.th.pc.toNat) tr

end Sys2Proof.Claims

/-- R326, R327: branches, calls and returns. A thread whose guard is false goes to NextPC and writes nothing. -/
def Sys2Proof.Claims.ControlTransfers : Prop :=
  (∀ x, Direct (.br x) x.words x.g x.imm none) ∧ (∀ f, Direct (.brBase f) 1 f.g (f.off.signExtend 22) none) ∧
  (∀ x, Direct (.call x) x.words x.g x.imm (some x.d.toNat)) ∧
  (∀ f, Direct (.callBase f) 1 f.g (f.off.signExtend 22) (some 0)) ∧
  (∀ x, Indirect (.brx x) .brx x x.words (some x.g) none) ∧
  (∀ x, Indirect (.calli x) .calli x x.words (some x.g) (some x.d.toNat)) ∧
  (∀ x, Indirect (.ret x) .ret x x.words none none) ∧
  Indirect .retBase .ret (XForm.blank .b32) 1 none none

/-- R330: `yield` moves each thread to NextPC, not to be considered for 64 clocks. -/
def Sys2Proof.Claims.YieldDefers : Prop :=
  ∀ x, Completes (.yield x) x.words (fun _ _ => True) fun s c => { c.th with deferred := some (s.cycle + 64) }

/-- R326, R327, R330: branches, calls, returns and `yield`. -/
def Obligations.ControlFlow : Prop := ControlTransfers ∧ YieldDefers

/-- R337, R374, R375: `trap` and `brk` enter the trap vector in every thread, with the code in `%tinfo`, NextPC in `%tpc` and
0 in `%taddr`; the base `trap` sign-extends its code to 22 bits. -/
def Sys2Proof.Claims.SoftwareTraps : Prop :=
  let enters := fun (i : Instr) (words : Nat) (code info : Nat) =>
    ∀ s ig t, Formed s ig t → CanTrap s ig t →
      ∃ s', exec i s = .next s' ∧ Enters s s' ig t (fun _ => nextPc ig words) fun _ => { code, info }
  (∀ x, enters (.trap x) x.words 0x17 x.imm.toNat) ∧ (∀ c, enters (.trapBase c) 1 0x17 (c.signExtend 22).toNat) ∧
    (∀ x, enters (.brk x) x.words 0x18 x.imm.toNat)

/-- R376: a trap in a launch without a trap vector stops the team and is the launch's first host-reported fault, if none
came before; the thread stays at NextPC with its registers as they were, outside any handler. -/
def Sys2Proof.Claims.TrapWithoutVectorStops : Prop :=
  ∀ x s ig t n rest l, Formed s ig t → ig.threads = n :: rest → t.near = false → t.stopped = false → s.trapVec t = 0 →
    (∃ th, Tab.find n t.threads = some th ∧ th.handler = false) → (∀ p ∈ s.memops, p.2.team ≠ ig.team) →
    Tab.find t.launch s.launches = some l →
    ∃ s' t', exec (.trap x) s = .next s' ∧ s'.team? ig.team = some t' ∧ t'.stopped = true ∧
      (∃ l', Tab.find t.launch s'.launches = some l' ∧ l'.fault = some (l.fault.getD (0x17, 0))) ∧
      ∃ th th', Tab.find n t.threads = some th ∧ Tab.find n t'.threads = some th' ∧ th'.handler = false ∧
        th'.regs = th.regs ∧ th'.preds = th.preds ∧ th'.pc = BitVec.ofNat 64 (nextPc ig x.words) ∧ th'.tpc = th'.pc ∧
        th'.tinfo = BitVec.ofNat 32 x.imm.toNat ∧ th'.tcause.toNat % 256 = 0x17

/-- R337, R374 to R376: software traps, with and without a trap vector. That the first of several threads is the one reported
where there is no vector is the model's reading (log 34). -/
def Obligations.Traps : Prop := SoftwareTraps ∧ TrapWithoutVectorStops

/-- R338: `rte` in a handler resumes the thread at the address in pair A with the handler bit clear; outside a handler it
raises ILLEGAL_ENCODING with word 0 in `%tinfo`. -/
def Obligations.ReturnFromHandler : Prop :=
  ∀ x, Goes (.rte x) (fun s c => Usable .rte x 2 0 0 [] s c ∧ c.th.handler = true) (fun _ _ c =>
      { c.th with handler := false, pc := BitVec.ofNat 64 (c.th.vs (regsOf c .rte x 2 0 0).a 2) }) ∧
    Faults (.rte x) (fun s _ c => Usable .rte x 2 0 0 [] s c ∧ c.th.handler = false)
      fun _ => { code := 0x02, info := word0 .rte x }

namespace Sys2Proof.Claims

/-- The count with which a thread arrives: 1, or the value of B. -/
def arrivals (o : XOp) (x : XForm) (c : View) : Nat :=
  if barCreg x then c.th.vs (regsOf c o x 0 1 0).b 1 else 1

/-- The sum of the counts with which threads arrive. -/
def arrivalSum (o : XOp) (x : XForm) (k : Nat) (t : Team) (ns : List Nat) : Nat :=
  ns.foldl (fun sum n => sum + ((Tab.find n t.threads).map fun th => arrivals o x (viewOf k t n th)).getD 0) 0

/-- A thread that the completion of a phase releases: ready after its instruction. -/
def Released (th : Thread) : Thread :=
  { th with wait := .ready, age := 0, pc := th.pc + 12, spins := th.spins.map fun w => { w with changed := true } }

/-- The threads of an issue group arrive on barrier BAR, with counts that reach E at the last of them or not at all, and
each becomes what `eff` makes of it (whether the phase completes, whether it is the last): the count, the latch, the phase
when the phase completes, and the threads that the completion releases. -/
def Arrival (o : XOp) (x : XForm) (i : Instr) (dsts : List Nat)
    (eff : Bool → Bool → Barrier → Nat → Thread → Thread) : Prop :=
  ∀ s ig t last, Formed s ig t → ig.threads.getLast? = some last →
    (Each ig t fun c => c.th.wait = .ready ∧ c.th.peerOut = []) →
    let b := barNo x
    let bar := t.bar b
    let count := bar.count + arrivalSum o x ig.team t ig.threads
    Each ig t (Usable o x 0 (if barCreg x then 1 else 0) 0 dsts s) → b < t.nbar → bar.latch.getD (barE x) = barE x →
    (ig.threads.dropLast ≠ [] → bar.count + arrivalSum o x ig.team t ig.threads.dropLast < barE x) → count ≤ barE x →
    let done : Bool := decide (count = barE x)
    ∃ s' t', exec i s = .next s' ∧ OnlyTeam s s' ig.team ∧ s'.team? ig.team = some t' ∧
      t'.bar b = (if done then { phase := !bar.phase } else { phase := bar.phase, count, latch := some (barE x) }) ∧
      (∀ j, j ≠ b → t'.bar j = t.bar j) ∧
      (∀ n ∈ ig.threads, ∀ th, Tab.find n t.threads = some th →
        Tab.find n t'.threads = some (eff done (n == last) bar (nextPc ig x.words) th)) ∧
      (∀ m, m ∉ ig.threads → Tab.find m t'.threads = (Tab.find m t.threads).map fun o =>
        match o.wait with
        | .barrier b' _ => if done && b' == b then Released o else o
        | _ => o) ∧
      t'.kw = (if done && b == 0 then [] else t.kw) ∧
      { t' with threads := [], bars := [], kw := [] } = { t with threads := [], bars := [], kw := [] }

end Sys2Proof.Claims

/-- R333: arrivals that the barrier admits are counted, and complete the phase when COUNT reaches E. `bar.arrive` writes the
phase it arrived in and goes on; `bar.sync` goes on only where it completes the phase, and parks otherwise. -/
def Sys2Proof.Claims.BarrierArrivals : Prop :=
  (∀ x, Arrival .barArrive x (.barArrive x) [x.d.toNat] fun _ _ bar next th =>
    Thread.at (th.setV x.d.toNat bar.phase.toNat) next) ∧
  (∀ x, Arrival .barSync x (.barSync x) [] fun done last bar next th =>
    if done && last then Thread.at th next
    else if done then Released th
    else { th with wait := .barrier (barNo x) bar.phase })

/-- R333: `bar.wait` goes on where PHASE differs from the phase bit in A, and parks where it equals it. -/
def Sys2Proof.Claims.BarrierWait : Prop :=
  ∀ x,
    let f := fun (c : View) => Bits.bit (c.th.vs (regsOf c .barWait x 1 0 0).a 1) 0
    Goes (.barWait x) (fun s c => Usable .barWait x 1 0 0 [] s c ∧ barNo x < c.team.nbar) fun _ ig c =>
      if (c.team.bar (barNo x)).phase = f c then { c.th with wait := .barrier (barNo x) (f c) }
      else Thread.at c.th (nextPc ig x.words)

/-- R332, R333: a barrier instruction of a team without that barrier raises ILLEGAL_ENCODING; an arrival that names another E
than the latched one, or that would pass E, raises BARRIER_COUNT_MISMATCH and leaves the barrier unchanged. -/
def Sys2Proof.Claims.BarrierFaults : Prop :=
  ∀ x,
    let wb := if barCreg x then 1 else 0
    let absent := fun (o : XOp) (wa wb : Nat) (dsts : List Nat) (s : State) (t : Team) (c : View) =>
      Usable o x wa wb 0 dsts s c ∧ t.nbar ≤ barNo x
    let excess := fun (o : XOp) (dsts : List Nat) (s : State) (t : Team) (c : View) =>
      Usable o x 0 wb 0 dsts s c ∧ barNo x < t.nbar ∧ c.th.peerOut = [] ∧
        ((∃ e, (t.bar (barNo x)).latch = some e ∧ e ≠ barE x) ∨ barE x < (t.bar (barNo x)).count + arrivals o x c)
    Faults (.barArrive x) (absent .barArrive 0 wb [x.d.toNat]) (fun _ => { code := 0x02, info := word0 .barArrive x }) ∧
    Faults (.barSync x) (absent .barSync 0 wb []) (fun _ => { code := 0x02, info := word0 .barSync x }) ∧
    Faults (.barWait x) (absent .barWait 1 0 []) (fun _ => { code := 0x02, info := word0 .barWait x }) ∧
    Faults (.barArrive x) (excess .barArrive [x.d.toNat]) (fun _ => { code := 0x0B, info := barNo x }) ∧
    Faults (.barSync x) (excess .barSync []) fun _ => { code := 0x0B, info := barNo x }

/-- R334: an arrival waits until its thread's peer writes have been acknowledged: a thread with one outstanding counts nothing
and is to issue its instruction again. -/
def Sys2Proof.Claims.ArrivalsWait : Prop :=
  ∀ x,
    let waits := fun (i : Instr) (o : XOp) (dsts : List Nat) =>
      ∀ s ig t n th, Formed s ig t → ig.threads = [n] → Tab.find n t.threads = some th → th.peerOut ≠ [] →
        Usable o x 0 (if barCreg x then 1 else 0) 0 dsts s (viewOf ig.team t n th) → barNo x < t.nbar →
        ∃ s', exec i s = .next s' ∧ OnlyThreads s s' ig t fun c => { c.th with wait := .replay }
    waits (.barArrive x) .barArrive [x.d.toNat] ∧ waits (.barSync x) .barSync []

/-- R332 to R334: the named barriers. That an outstanding peer write is an access not yet performed is the model's reading
(log 67). -/
def Obligations.NamedBarriers : Prop := BarrierArrivals ∧ BarrierWait ∧ BarrierFaults ∧ ArrivalsWait

namespace Sys2Proof.Claims

/-- The threads of an issue group belong to one group as software numbers it, whose record is in the team (R309: with
threads of several groups each group acts on its own sets). -/
def OneGroup (ig : IssueGroup) (t : Team) (n : Nat) : Prop :=
  n ∈ ig.threads ∧ (∀ m ∈ ig.threads, t.gid m = t.gid n) ∧ Tab.has t.groups (t.hw n) = true

/-- Set `j` of the group of thread `n` became `v`; no other set, no other part of a group's record and no other part of the
team but its threads has changed, and nothing else of the module but the counter of names. -/
def SetBecame (s s' : State) (k : Nat) (t t' : Team) (n j : Nat) (v : JSet) : Prop :=
  s'.team? k = some t' ∧ (∀ i, i ≠ k → s'.team? i = s.team? i) ∧
    { s' with teams := s.teams, nextTag := s.nextTag } = s ∧
    (∀ m i, i < 16 → t'.jset m i = if t.gid m = t.gid n ∧ i = j then v else t.jset m i) ∧
    (∀ g, (Tab.find g t'.groups).map (fun r => { r with sets := [] }) =
      (Tab.find g t.groups).map fun r => { r with sets := [] }) ∧
    { t' with threads := [], groups := [] } = { t with threads := [], groups := [] }

/-- The lanes of an issue group as a mask. -/
def laneMask (ig : IssueGroup) (t : Team) : Nat := Bits.maskOf (ig.threads.map t.lane)

/-- The lanes of a mask that another mask does not hold. -/
def without (m lanes : Nat) : Nat := m - (m &&& lanes)

/-- An executing thread is live and not waiting, as every thread of an issue group is (R296). -/
def Running (c : View) : Prop := c.th.live = true ∧ c.th.wait = .ready

end Sys2Proof.Claims

/-- R310, R316: `jinit` and `jrest` replace the masks of a set without waiters: the OR of the threads' masks, or the lowest
lane's, cut to the group's live lanes. On a set with waiters they raise REJOIN_BUSY in every thread. -/
def Sys2Proof.Claims.RejoinSetsFormed : Prop :=
  let forms := fun (i : Instr) (o : XOp) (x : XForm) (w : Nat) (mask : List Nat → Nat) =>
    (∀ s ig t n, Formed s ig t → ig.threads.head? = some n → OneGroup ig t n → x.d.toNat < 16 →
      (t.jset n x.d.toNat).arr = 0 → Each ig t (Usable o x w 0 0 [] s) →
      ∃ s' t', exec i s = .next s' ∧
        SetBecame s s' ig.team t t' n x.d.toNat
          { mem := mask (ig.threads.filterMap fun m => (Tab.find m t.threads).map fun th =>
              let c := viewOf ig.team t m th
              c.th.vs (regsOf c o x w 0 0).a 1) % 2 ^ t.width &&& t.liveMask (t.gid n), arr := 0 } ∧
        ThreadsOf t t' ig.threads fun _ th => Thread.at th (nextPc ig x.words)) ∧
    (∀ n, Faults i (fun s t c => Usable o x w 0 0 [] s c ∧ t.gid c.id.n = t.gid n ∧ (t.jset n x.d.toNat).arr ≠ 0)
      fun _ => { code := 0x10, info := x.d.toNat })
  (∀ x, forms (.jinit x) .jinit x 1 fun vs => vs.foldl (· ||| ·) 0) ∧
    (∀ x, forms (.jrest x) .jrest x 2 fun vs => vs.headD 0)

/-- R311: `jenter` adds the executing lanes to the member mask and leaves the arrived mask. -/
def Sys2Proof.Claims.RejoinEnter : Prop :=
  ∀ x s ig t n, Formed s ig t → OneGroup ig t n → x.a.toNat < 16 →
    ∃ s' t', exec (.jenter x) s = .next s' ∧
      SetBecame s s' ig.team t t' n x.a.toNat
        { mem := (t.jset n x.a.toNat).mem ||| laneMask ig t, arr := (t.jset n x.a.toNat).arr } ∧
      ThreadsOf t t' ig.threads fun _ th => Thread.at th (nextPc ig x.words)

/-- R312, R309: `jquit` takes the executing lanes out of both masks. Where every member that is left has arrived, they are
released: ready, at the instruction after their own `jwait`. -/
def Sys2Proof.Claims.RejoinQuit : Prop :=
  ∀ x s ig t n, Formed s ig t → OneGroup ig t n → x.a.toNat < 16 → Each ig t Running →
    let js := t.jset n x.a.toNat
    let mem := without js.mem (laneMask ig t)
    let arr := without js.arr (laneMask ig t)
    let go : Bool := arr != 0 && arr == mem
    ∃ s' t', exec (.jquit x) s = .next s' ∧
      SetBecame s s' ig.team t t' n x.a.toNat { mem, arr := if go then 0 else arr } ∧
      (∀ m ∈ ig.threads, Tab.find m t'.threads = (Tab.find m t.threads).map fun th => Thread.at th (nextPc ig x.words)) ∧
      (∀ m th, m ∉ ig.threads → Tab.find m t.threads = some th →
        (go = false ∨ t.gid m ≠ t.gid n ∨ Bits.bit arr (t.lane m) = false → Tab.find m t'.threads = some th) ∧
        (∀ k next, go = true → t.gid m = t.gid n → Bits.bit arr (t.lane m) = true → th.wait = .rejoin k next →
          ∃ th', Tab.find m t'.threads = some th' ∧ th'.wait = .ready ∧ th'.pc = BitVec.ofNat 64 next ∧
            th'.regs = th.regs ∧ th'.preds = th.preds ∧ th'.live = th.live))

/-- R313: `jwait` by members of the set. The arrival that completes the set lets the arriving threads go on, together with
those parked on it; any other arrival parks, while some other live thread of the group is not parked. -/
def Sys2Proof.Claims.RejoinWait : Prop :=
  let waits := fun (i : Instr) (words j : Nat) =>
    ∀ s ig t n, Formed s ig t → OneGroup ig t n → j < 16 → (Each ig t fun c => Running c ∧ c.th.peerOut = []) →
      let js := t.jset n j
      let arr := js.arr ||| laneMask ig t
      (∀ m ∈ ig.threads, Bits.bit js.mem (t.lane m) = true) →
      (arr = js.mem → ∃ s' t', exec i s = .next s' ∧ SetBecame s s' ig.team t t' n j { mem := js.mem, arr := 0 } ∧
        (∀ m ∈ ig.threads, ∀ th, Tab.find m t.threads = some th → ∃ th', Tab.find m t'.threads = some th' ∧
          th'.wait = .ready ∧ th'.pc = BitVec.ofNat 64 (nextPc ig words) ∧ th'.regs = th.regs ∧ th'.preds = th.preds) ∧
        (∀ m th k next, m ∉ ig.threads → Tab.find m t.threads = some th → t.gid m = t.gid n →
          Bits.bit js.arr (t.lane m) = true → th.wait = .rejoin k next →
          ∃ th', Tab.find m t'.threads = some th' ∧ th'.wait = .ready ∧ th'.pc = BitVec.ofNat 64 next ∧
            th'.regs = th.regs)) ∧
      (arr ≠ js.mem →
        (∃ m th, m ∉ ig.threads ∧ Tab.find m t.threads = some th ∧ t.gid m = t.gid n ∧ th.live = true ∧
          th.rejoinSet = none) →
        ∃ s' t', exec i s = .next s' ∧ SetBecame s s' ig.team t t' n j { mem := js.mem, arr } ∧
          ThreadsOf t t' ig.threads fun _ th => { th with wait := .rejoin j (nextPc ig words) })
  (∀ x, waits (.jwait x) x.words x.a.toNat) ∧ (∀ j : BitVec 4, waits (.jwaitBase j) 1 j.toNat)

/-- R313: members of the set arrive only when each of them has no peer write that has not been acknowledged; till then they
stay at the `jwait`, to issue it again, and the set is as it was. -/
def Sys2Proof.Claims.RejoinWaitsForAccesses : Prop :=
  let waits := fun (i : Instr) (j : Nat) =>
    ∀ s ig t n, Formed s ig t → OneGroup ig t n → (∀ m ∈ ig.threads, Bits.bit (t.jset n j).mem (t.lane m) = true) →
      (∃ m ∈ ig.threads, ∃ th, Tab.find m t.threads = some th ∧ th.peerOut ≠ []) →
      ∃ s', exec i s = .next s' ∧ OnlyThreads s s' ig t fun c => { c.th with wait := .replay }
  (∀ x, waits (.jwait x) x.a.toNat) ∧ (∀ j : BitVec 4, waits (.jwaitBase j) j.toNat)

/-- R313: `jwait` by threads that are no members raises REJOIN_NONMEMBER with the set number in `%tinfo`, and changes no
set. -/
def Sys2Proof.Claims.RejoinNonmember : Prop :=
  let refuses := fun (i : Instr) (j : Nat) =>
    ∀ n, Faults i (fun _ t c => t.gid c.id.n = t.gid n ∧ Bits.bit (t.jset n j).mem (t.lane c.id.n) = false)
      fun _ => { code := 0x11, info := j }
  (∀ x, refuses (.jwait x) x.a.toNat) ∧ (∀ j : BitVec 4, refuses (.jwaitBase j) j.toNat)

/-- R320: when the last live threads of a group that are not parked in `jwait` park on a set that does not fill, no set can
release: every live thread of the group enters the trap vector with ORPHANED_SET, the set it waits on in `%tinfo` and its
`jwait` in `%tpc`, and every arrived mask of the group becomes 0 while the member masks stay. -/
def Sys2Proof.Claims.RejoinOrphans : Prop :=
  let orphans := fun (i : Instr) (words j : Nat) =>
    ∀ s ig t n, Formed s ig t → OneGroup ig t n → j < 16 → CanTrap s ig t → Tab.sorted t.threads = true →
      (Each ig t fun c => Running c ∧ c.th.peerOut = []) →
      (∀ m ∈ ig.threads, Bits.bit (t.jset n j).mem (t.lane m) = true) →
      (t.jset n j).arr ||| laneMask ig t ≠ (t.jset n j).mem →
      (∀ m th, m ∉ ig.threads → Tab.find m t.threads = some th → t.gid m = t.gid n → th.live = true →
        th.rejoinSet.isSome = true ∧ th.handler = false) →
      ∃ s' t', exec i s = .next s' ∧ OnlyTeam s s' ig.team ∧ s'.team? ig.team = some t' ∧
        (∀ k, k < 16 → t'.jset n k = { mem := (t.jset n k).mem, arr := 0 }) ∧
        (∀ m ∈ ig.threads, ∀ th, Tab.find m t.threads = some th → ∃ th', Tab.find m t'.threads = some th' ∧
          Trapped th th' (s.trapVec t) th.pc.toNat { code := 0x0F, info := j }) ∧
        ∀ m th k next, m ∉ ig.threads → Tab.find m t.threads = some th → t.gid m = t.gid n → th.live = true →
          th.wait = .rejoin k next → ∃ th', Tab.find m t'.threads = some th' ∧
            Trapped th th' (s.trapVec t) th.pc.toNat { code := 0x0F, info := k }
  (∀ x, orphans (.jwait x) x.words x.a.toNat) ∧ (∀ j : BitVec 4, orphans (.jwaitBase j) 1 j.toNat)

/-- R312, R313, R320: instructions that may release a rejoin set, and the group that none can release. That an outstanding
peer write is an access not yet performed is the model's reading (log 67). -/
def Obligations.RejoinReleases : Prop :=
  RejoinQuit ∧ RejoinWait ∧ RejoinWaitsForAccesses ∧ RejoinNonmember ∧ RejoinOrphans

/-- R315, R316: `jread` writes the member or the arrived mask, `jsave` both. -/
def Sys2Proof.Claims.RejoinSetsRead : Prop :=
  (∀ x, Completes (.jread x) x.words (fun _ c => c.dests [x.d.toNat] = .ok () ∧ Unheld c [x.d.toNat]) fun _ c =>
    let js := c.team.jset c.id.n x.a.toNat
    c.th.setV x.d.toNat (if x.sub = 0 then js.mem else js.arr)) ∧
  (∀ x, Completes (.jsave x) x.words
    (fun _ c => c.dests (regSpan x.d.toNat 2) = .ok () ∧ Unheld c (regSpan x.d.toNat 2)) fun _ c =>
      let js := c.team.jset c.id.n x.a.toNat
      c.th.setVs x.d.toNat (js.mem + js.arr * 2 ^ 32) 2)

/-- R310, R311, R315, R316: instructions that form, join and read rejoin sets. -/
def Obligations.RejoinMasks : Prop := RejoinSetsFormed ∧ RejoinEnter ∧ RejoinSetsRead

/-! ### Memory -/

namespace Sys2Proof.Claims

/-- A thread of a main-die team executes alone; its team runs, and the next key names no memory operation. -/
def Alone (s : State) (ig : IssueGroup) (t : Team) (n : Nat) (th : Thread) : Prop :=
  Formed s ig t ∧ ig.threads = [n] ∧ Tab.find n t.threads = some th ∧ t.near = false ∧ t.stopped = false ∧
    t.preempt = false ∧ Tab.find s.nextKey s.memops = none

/-- A thread that goes on after a memory instruction: new registers and flags, everything else software sees as before. -/
def Resumed (th th' : Thread) (regs : Tab Word) (flags : BitVec 5) (pc : Nat) : Prop :=
  th'.regs = regs ∧ th'.fpflags = flags ∧ th'.pc = BitVec.ofNat 64 pc ∧ th'.wait = .ready ∧ th'.preds = th.preds ∧
    th'.live = th.live ∧ th'.handler = th.handler ∧ th'.tcause = th.tcause ∧ th'.tpc = th.tpc ∧ th'.taddr = th.taddr ∧
    th'.tinfo = th.tinfo ∧ th'.pend = th.pend

/-- No clock but one's own has changed, and that has not fallen (R41). -/
def Raised (s : State) (clocks : Tab Nat) (own : Nat) : Prop :=
  (∀ j, j ≠ own → Tab.getD clocks j 0 = s.clock j) ∧ s.clock own ≤ Tab.getD clocks own 0

/-- Bytes after a store of the low `n` bytes of `v` at `off`: those stored, least significant first, and all others as
before. -/
def Stored (d d' : Tab Byte) (off n v : Nat) : Prop :=
  ∀ a, Tab.getD d' a 0 = if off ≤ a ∧ a < off + n then BitVec.ofNat 8 (v / 256 ^ (a - off)) else Tab.getD d a 0

/-- The address of a memory instruction. -/
def addrOf (c : View) (o : XOp) (x : XForm) (wb wc : Nat) : Nat := c.addr x (regsOf c o x 2 wb wc)

/-- An aligned address in the forme window that names offset `off` of forme `k`, where nothing stops an access of `n` bytes:
its lines are present and its words neither tagged nor uncorrectable. -/
def FormeSite (s : State) (c : View) (va n : Nat) (whole : Bool) (k off : Nat) (f : Forme) : Prop :=
  va < 2 ^ 57 ∧ va % n = 0 ∧ inWindow va = true ∧ s.windowAt c.team.cluster va = some (k, off) ∧
    s.formeCheck k off n va whole = .ok () ∧ Tab.find k s.formes = some f

/-- An access to forme `k`, which becomes `f'`, by a thread that `p` describes afterwards. -/
def AtForme (s s' : State) (ig : IssueGroup) (t : Team) (k : Nat) (f' : Forme) (p : View → Thread → Prop) : Prop :=
  ∃ clocks bad, Raised s clocks t.core ∧ (∀ a, Tab.find a bad = none ∨ Tab.find a bad = Tab.find a s.bad) ∧
    Touches { s with formes := Tab.put k f' s.formes, clocks, bad, nextKey := s.nextKey + 1 } s' ig t p

/-- A load from the forme window. -/
def LoadsForme (i : Instr) (x : XForm) (words : Nat) : Prop :=
  ∀ s ig t n th k off f, Alone s ig t n th →
    let c := viewOf ig.team t n th
    Usable .ld x 2 0 0 (destOf x x.ty.regs) s c → FormeSite s c (addrOf c .ld x 0 0) (x.ty.bits / 8) false k off f →
    ∃ s' f', exec i s = .next s' ∧ { f' with rts := f.rts } = f ∧ AtForme s s' ig t k f' fun c th' =>
      Resumed c.th th' (put x c (loadFill x.ty (readBytes f.data off (x.ty.bits / 8)))).regs c.th.fpflags (nextPc ig words)

/-- A store to the forme window. -/
def StoresForme (i : Instr) (x : XForm) (words : Nat) : Prop :=
  ∀ s ig t n th k off f, Alone s ig t n th →
    let c := viewOf ig.team t n th
    let w := x.ty.regs
    Usable .st x 2 w 0 [] s c → c.th.guard x.g = true →
    FormeSite s c (addrOf c .st x w 0) (x.ty.bits / 8) true k off f →
    ∃ s' f', exec i s = .next s' ∧ { f' with data := f.data, wts := f.wts, rts := f.rts } = f ∧
      Stored f.data f'.data off (x.ty.bits / 8) (c.opB x (regsOf c .st x 2 w 0) w % 2 ^ x.ty.bits) ∧
      AtForme s s' ig t k f' fun c th' => Resumed c.th th' c.th.regs c.th.fpflags (nextPc ig words)

/-- An atomic or a reduction in the forme window: the new value and the flags are those of `atomNew`; only an atomic returns
the old value and raises the flags. -/
def AtomicForme (i : Instr) (o : XOp) (x : XForm) (old : Bool) : Prop :=
  ∀ s ig t n th k off f, Alone s ig t n th →
    let c := viewOf ig.team t n th
    let w := x.ty.regs
    let wc := if x.sub.toNat = 7 then w else 0
    let r := regsOf c o x 2 w wc
    let before := readBytes f.data off (x.ty.bits / 8)
    let v := atomNew x.sub.toNat x.ty before (c.opB x r w % 2 ^ x.ty.bits) (c.th.vs r.c w % 2 ^ x.ty.bits)
    (∃ b, x.ty.bits = 8 * b) → Usable o x 2 w wc (if old then destOf x w else []) s c → c.th.guard x.g = true →
    FormeSite s c (addrOf c o x w wc) (x.ty.bits / 8) false k off f →
    ∃ s' f', exec i s = .next s' ∧ { f' with data := f.data, wts := f.wts, rts := f.rts } = f ∧
      Stored f.data f'.data off (x.ty.bits / 8) v.1 ∧
      AtForme s s' ig t k f' fun c th' =>
        Resumed c.th th' (if old then (put x c before).regs else c.th.regs)
          (if old then c.th.fpflags ||| BitVec.ofNat 5 v.2 else c.th.fpflags) (nextPc ig x.words)

/-- An access goes to a line of device or host memory, offset `off` in it. -/
def LineSite (s : State) (c : View) (acc va n ln off : Nat) : Prop :=
  va < 2 ^ 57 ∧ va % n = 0 ∧ inWindow va = false ∧
    ∃ pa, off = pa % 128 ∧
      ((ln = deviceLine pa ∧ s.translate (s.threadAsker c.id c.team acc) va = (s, .ok (.device pa))) ∨
        (ln = hostLine pa ∧ s.translate (s.threadAsker c.id c.team acc) va = (s, .ok (.host pa))))

/-- An access to a line that the core's region slice holds, whose copy becomes `cp'`. Of every other copy of the region no
more than its hint changes (R54). -/
def AtCopy (s s' : State) (ig : IssueGroup) (t : Team) (ln : Nat) (cp' : Copy) (p : View → Thread → Prop) : Prop :=
  let r := regionOf t.core
  ∃ clocks g, Raised s clocks t.core ∧ Tab.find ln g.copies = some cp' ∧
    (∀ k, k ≠ ln → (Tab.find k g.copies).map (fun c => { c with hint := 0 }) =
      (Tab.find k (s.region r).copies).map fun c => { c with hint := 0 }) ∧
    { g with copies := (s.region r).copies, order := (s.region r).order } = s.region r ∧
    Touches { s with regions := Tab.put r g s.regions, clocks, nextKey := s.nextKey + 1 } s' ig t p

end Sys2Proof.Claims

/-- R181, R187: loads, stores, atomics and reductions in the forme window. A narrow signed load
sign-extends, any other narrow load zero-extends; a store or an atomic changes the bytes of its width and no other. -/
def Obligations.FormeAccesses : Prop :=
  (∀ x, LoadsForme (.ld x) x x.words) ∧ (∀ f, LoadsForme (.ldBase f) (BM.toX f) 1) ∧
  (∀ x, StoresForme (.st x) x x.words) ∧ (∀ f, StoresForme (.stBase f) (BM.toX f) 1) ∧
  (∀ x, AtomicForme (.atom x) .atom x true) ∧ (∀ x, AtomicForme (.red x) .red x false)

/-- R43, R52, R53, R181: a load of a line that the region slice owns, or shares under a lease that has not run out, takes its
value from there and changes no data. That a `.byp` load of a line that the slice owns is answered there is the model's
reading (log 36). -/
def Sys2Proof.Claims.LoadFromRegionCopy : Prop :=
  ∀ x s ig t n th ln off cp, Alone s ig t n th →
    let c := viewOf ig.team t n th
    Usable .ld x 2 0 0 (destOf x x.ty.regs) s c →
    LineSite s c 0 (addrOf c .ld x 0 0) (x.ty.bits / 8) ln off →
    Tab.find ln (s.region (regionOf t.core)).copies = some cp → lineBadRead cp.data off (x.ty.bits / 8) = none →
    (cp.owned = true ∨ (s.clock t.core ≤ cp.rts ∧ x.h ≠ 3)) →
    ∃ s' cp', exec (.ld x) s = .next s' ∧ { cp' with rts := cp.rts, hint := cp.hint, used := cp.used } = cp ∧
      AtCopy s s' ig t ln cp' fun c th' =>
        Resumed c.th th' (put x c (loadFill x.ty (lineRead cp.data off (x.ty.bits / 8)))).regs c.th.fpflags
          (nextPc ig x.words)

/-- R43, R47, R52, R181: a store to a line that the region slice owns changes its bytes there, at a time above the line's
RTS. -/
def Sys2Proof.Claims.StoreToOwnedLine : Prop :=
  ∀ x s ig t n th ln off cp, Alone s ig t n th →
    let c := viewOf ig.team t n th
    let w := x.ty.regs
    Usable .st x 2 w 0 [] s c → c.th.guard x.g = true → x.h ≠ 3 →
    LineSite s c 1 (addrOf c .st x w 0) (x.ty.bits / 8) ln off →
    Tab.find ln (s.region (regionOf t.core)).copies = some cp → cp.owned = true →
    lineBadRead cp.data off (x.ty.bits / 8) = none →
    ∃ s' cp', exec (.st x) s = .next s' ∧ cp'.owned = true ∧ cp'.dirty = true ∧
      cp'.wts = max (s.clock t.core) (cp.rts + 1) ∧ cp'.rts = cp'.wts ∧
      Stored cp.data cp'.data off (x.ty.bits / 8) (c.opB x (regsOf c .st x 2 w 0) w % 2 ^ x.ty.bits) ∧
      AtCopy s s' ig t ln cp' fun c th' => Resumed c.th th' c.th.regs c.th.fpflags (nextPc ig x.words)

/-- R43, R47, R52, R53, R181: accesses to a line that the core's region slice holds. That a `.byp` load of a line that the slice
owns is answered there, and not at the line's home, is the model's reading of R43 (log 36). -/
def Obligations.CopiesOfLines : Prop := LoadFromRegionCopy ∧ StoreToOwnedLine

/-- R46, R52, R53: a load of a line that the region slice does not hold, and has not asked for, sends GETS to the line's home
once its slice has a way for it, and waits; nothing of memory changes. -/
def Obligations.LoadMissAsksHome : Prop :=
  ∀ x s ig t n th ln off, Alone s ig t n th →
    let c := viewOf ig.team t n th
    let r := regionOf t.core
    Usable .ld x 2 0 0 (destOf x x.ty.regs) s c →
    LineSite s c 0 (addrOf c .ld x 0 0) (x.ty.bits / 8) ln off →
    Tab.find ln (s.region r).copies = none → Tab.has (s.region r).asked ln = false →
    (x.h ≠ 3 → (s.regionRoom r ln).2 = true) →
    ∃ s' q tag, exec (.ld x) s = .next s' ∧
      Tab.find tag s'.net = some { kind := .req q, line := ln, region := r, tag, op := s.nextKey } ∧ s.nextTag ≤ tag ∧
      q.kind = .gets (x.h == 3) ∧ q.line = ln ∧ q.region = r ∧ q.pts = s.clock t.core ∧
      (s'.thread? { team := ig.team, n }).map (fun u => (u.wait, u.regs, u.pc)) = some (.mem s.nextKey, th.regs, th.pc) ∧
      s'.hbm = s.hbm ∧ s'.hostMem = s.hostMem ∧ s'.homes = s.homes ∧ s'.formes = s.formes

namespace Sys2Proof.Claims

/-- An access by one thread, whose guard holds, to an address that no access reaches traps: above 57 bits (PROTECTION,
reason 1), misaligned for its size, in the forme window but in no team's forme. -/
def Unreachable (i : Instr) (o : XOp) (x : XForm) (wb wc : Nat) (dsts : List Nat) (guarded : Bool) : Prop :=
  let va := fun (c : View) => addrOf c o x wb wc
  let n := x.ty.bits / 8
  let faults := fun (bad : State → View → Prop) (code info : Nat) =>
    ∀ s ig t, Formed s ig t → CanTrap s ig t → t.preempt = false → ig.threads.length = 1 →
      Tab.find s.nextKey s.memops = none →
      Each ig t (fun c => Usable o x 2 wb wc dsts s c ∧ (guarded = true → c.th.guard x.g = true) ∧ bad s c) →
      ∃ s', exec i s = .next s' ∧
        Touches { s with nextKey := s.nextKey + 1 } s' ig t fun c th' =>
          Trapped c.th th' (s.trapVec t) c.th.pc.toNat { code, info, addr := va c }
  faults (fun _ c => 2 ^ 57 ≤ va c) 0x06 1 ∧
  faults (fun _ c => va c < 2 ^ 57 ∧ va c % n ≠ 0) 0x04 0 ∧
  faults (fun s c => va c < 2 ^ 57 ∧ va c % n = 0 ∧ inWindow (va c) = true ∧ s.windowAt c.team.cluster (va c) = none)
    0x07 0

end Sys2Proof.Claims

/-- R165, R177: loads and stores in both forms, atomics and reductions trap at the addresses that no access reaches. -/
def Sys2Proof.Claims.AddressFaults : Prop :=
  (∀ x, Unreachable (.ld x) .ld x 0 0 (destOf x x.ty.regs) false) ∧
  (∀ f, let x := BM.toX f; Unreachable (.ldBase f) .ld x 0 0 (destOf x x.ty.regs) false) ∧
  (∀ x, Unreachable (.st x) .st x x.ty.regs 0 [] true) ∧
  (∀ f, let x := BM.toX f; Unreachable (.stBase f) .st x x.ty.regs 0 [] true) ∧
  (∀ x, let wc := if x.sub.toNat = 7 then x.ty.regs else 0
    Unreachable (.atom x) .atom x x.ty.regs wc (destOf x x.ty.regs) true ∧
    Unreachable (.red x) .red x x.ty.regs wc [] true)

/-- R165: a store, an atomic or a reduction whose guard is false only moves its thread to NextPC. -/
def Sys2Proof.Claims.GuardedAccessSkipped : Prop :=
  let skips := fun (i : Instr) (words : Nat) (g : BitVec 4) =>
    ∀ s ig t n th, Alone s ig t n th → th.guard g = false → ∃ s', exec i s = .next s' ∧
      Touches { s with nextKey := s.nextKey + 1 } s' ig t fun c th' =>
        Resumed c.th th' c.th.regs c.th.fpflags (nextPc ig words)
  ∀ x, skips (.st x) x.words x.g ∧ skips (.atom x) x.words x.g ∧ skips (.red x) x.words x.g

/-- R165, R177: accesses that are not made. -/
def Obligations.AccessChecks : Prop := AddressFaults ∧ GuardedAccessSkipped

namespace Sys2Proof.Claims

/-- A word of the forme window that one thread reaches: nothing stops the access, and no thread is parked on the word. -/
def WordSite (s : State) (ig : IssueGroup) (t : Team) (n : Nat) (th : Thread) (va : Nat) (whole : Bool) (k off : Nat)
    (f : Forme) : Prop :=
  Formed s ig t ∧ ig.threads = [n] ∧ Tab.find n t.threads = some th ∧ th.wait = .ready ∧
    FormeSite s (viewOf ig.team t n th) va 4 whole k off f ∧ ∀ w ∈ f.waiters, w.off ≠ off

/-- What a full/empty instruction does to its word: contents, times and the word's bit; every other bit stays. -/
def WordBecame (s s' : State) (ig : IssueGroup) (t : Team) (k off : Nat) (f : Forme) (full : Bool) (v : Option Nat)
    (p : View → Thread → Prop) : Prop :=
  ∃ f' clocks, Raised s clocks t.clockKey ∧
    { f' with data := f.data, full := f.full, wts := f.wts, rts := f.rts } = f ∧
    (∀ a, f'.isFull a = if a / 4 = off / 4 then full else f.isFull a) ∧
    (match v with | some v => Stored f.data f'.data off 4 v | none => f'.data = f.data) ∧
    Touches { s with formes := Tab.put k f' s.formes, clocks } s' ig t p

/-- The thread is parked on its word, last in the bank's waiter table, and has done nothing else. -/
def WordParked (s s' : State) (ig : IssueGroup) (t : Team) (k : Nat) (f : Forme) (w : WordWait) : Prop :=
  Touches { s with formes := Tab.put k { f with waiters := f.waiters ++ [w] } s.formes } s' ig t fun c th' =>
    th' = { c.th with wait := .word }

end Sys2Proof.Claims

/-- R96, R97, R182, R183: `ldfe` takes a full word (emptying it with `.fe`), `stfe` fills an empty one, each parking where the
word is in the other state; `feset` sets the bit. -/
def Obligations.FullEmptyWords : Prop :=
  (∀ x s ig t n th k off f,
    let c := viewOf ig.team t n th
    Usable .ldfe x 2 0 0 [x.d.toNat] s c → WordSite s ig t n th (addrOf c .ldfe x 0 0) false k off f →
    ∃ s', exec (.ldfe x) s = .next s' ∧
      (f.isFull off = true → WordBecame s s' ig t k off f (x.sub != 0) none fun c th' =>
        Resumed c.th th' (c.th.setV x.d.toNat (readBytes f.data off 4)).regs c.th.fpflags (nextPc ig x.words)) ∧
      (f.isFull off = false → WordParked s s' ig t k f
        { off, full := true, fe := x.sub == 0, tid := c.id, dreg := x.d.toNat, value := 0, next := nextPc ig x.words })) ∧
  (∀ x s ig t n th k off f,
    let c := viewOf ig.team t n th
    let v := c.opB x (regsOf c .stfe x 2 1 0) 1
    Usable .stfe x 2 1 0 [] s c → th.guard x.g = true →
    WordSite s ig t n th (addrOf c .stfe x 1 0) true k off f →
    ∃ s', exec (.stfe x) s = .next s' ∧
      (f.isFull off = false → WordBecame s s' ig t k off f true (some v) fun c th' =>
        Resumed c.th th' c.th.regs c.th.fpflags (nextPc ig x.words)) ∧
      (f.isFull off = true → WordParked s s' ig t k f
        { off, full := false, fe := false, tid := c.id, dreg := 0, value := v, next := nextPc ig x.words })) ∧
  (∀ x s ig t n th k off f,
    let c := viewOf ig.team t n th
    Usable .feset x 2 0 0 [] s c → WordSite s ig t n th (addrOf c .feset x 0 0) false k off f →
    ∃ s', exec (.feset x) s = .next s' ∧ WordBecame s s' ig t k off f (x.sub == 1) none fun c th' =>
      Resumed c.th th' c.th.regs c.th.fpflags (nextPc ig x.words))

namespace Sys2Proof.Claims

/-- A thread's `prq` names an aligned word of a forme that is neither tagged nor uncorrectable; its line may be absent or
faulted. -/
def PrqSite (x : XForm) (s : State) (c : View) : Prop :=
  let va := addrOf c .prq x 0 0
  va < 2 ^ 57 ∧ va % 4 = 0 ∧ inWindow va = true ∧ ∃ k off, s.windowAt c.team.cluster va = some (k, off) ∧
    (s.forme k).tagged off = false ∧ s.badUnits k off 4 false = false

/-- The presence state of the line that a thread's `prq` names. -/
def prqState (x : XForm) (s : State) (c : View) : Nat :=
  match s.windowAt c.team.cluster (addrOf c .prq x 0 0) with
  | some (k, off) => (s.forme k).presence (off / 128)
  | none => 0

end Sys2Proof.Claims

/-- R101, R184: `prq` writes the presence state of the line that holds each thread's word, even where it is absent or
faulted. Of the formes no more than the lines' RTS changes. -/
def Sys2Proof.Claims.PresenceQuery : Prop :=
  ∀ x s ig t, Formed s ig t →
    (Each ig t fun c => c.th.wait = .ready ∧ Usable .prq x 2 0 0 [x.d.toNat] s c ∧ PrqSite x s c) →
    ∃ s' formes clocks, exec (.prq x) s = .next s' ∧ Raised s clocks t.clockKey ∧
      (∀ k, (Tab.find k formes).map (fun f => { f with rts := [] }) =
        (Tab.find k s.formes).map fun f => { f with rts := [] }) ∧
      Touches { s with formes, clocks } s' ig t fun c th' =>
        Resumed c.th th' (c.th.setV x.d.toNat (prqState x s c)).regs c.th.fpflags (nextPc ig x.words)

/-- R185: `pf` goes on at every address, without fault or wait. It changes no register and no memory: at most it brings a
translation nearer, makes room in the region slice, by giving up copies, and sends its request. -/
def Sys2Proof.Claims.PrefetchNeverFaults : Prop :=
  ∀ x s ig t, Formed s ig t → t.near = false → Each ig t (Usable .pf x 2 0 0 [] s) →
    ∃ s' tlbs regions net nextTag errors, exec (.pf x) s = .next s' ∧
      (∀ r ln c, Tab.find ln (s'.region r).copies = some c → Tab.find ln (s.region r).copies = some c) ∧
      Touches { s with tlbs, regions, net, nextTag, errors } s' ig t fun c th' => th' = Thread.at c.th (nextPc ig x.words)

/-- R101, R184, R185: `prq` and `pf`. -/
def Obligations.PresenceAndPrefetch : Prop := PresenceQuery ∧ PrefetchNeverFaults

/-- R60, R190: `waddr` on a line that its home holds answers true where its condition holds, false where the wait table is
full, and otherwise parks with an entry of its address, mask and comparison. -/
def Obligations.WaitOnAddress : Prop :=
  ∀ x s ig t n th pa l, Formed s ig t → ig.threads = [n] → Tab.find n t.threads = some th → t.near = false →
    let c := viewOf ig.team t n th
    let w := x.ty.regs
    let r := regsOf c .waddr x 2 w w
    let va := addrOf c .waddr x w w
    let size := x.ty.bits / 8
    let ln := deviceLine pa
    let h := homeOf ln
    let waits := (s.home h).waits
    let holds := waddrHolds x.sub.toNat (8 * size) (lineRead l.data (pa % 128) size &&& c.th.vs r.c w)
      (c.th.vs r.b w &&& c.th.vs r.c w)
    let goesOn := fun (ok : Bool) (s' : State) => ∃ homes clocks nextTag, Raised s clocks t.core ∧
      (∀ m, (s'.lineAt m).data = (s.lineAt m).data) ∧ (s'.home h).waits = waits ∧
      Touches { s with homes, clocks, nextTag } s' ig t fun c th' =>
        th' = { c.th.setP x.d.toNat ok with wait := .ready, pc := BitVec.ofNat 64 (nextPc ig x.words) }
    Usable .waddr x 2 w w [] s c → va < 2 ^ 57 → va % size = 0 → inWindow va = false →
    s.translate (s.threadAsker c.id t 0) va = (s, .ok (.device pa)) → isHostLine ln = false →
    s.homePowered ln = true → (∀ q ∈ (s.home h).queue, q.line ≠ ln) → s.lineState ln = .h →
    Tab.find ln (s.home h).lines = some l → lineBadRead l.data (pa % 128) size = none →
    ∃ s', exec (.waddr x) s = .next s' ∧
      (holds = true → goesOn true s') ∧ (holds = false → 256 ≤ waits.length → goesOn false s') ∧
      (holds = false → waits.length < 256 →
        ∃ e, Tab.find e waits = none ∧ (s'.home h).waits = Tab.put e
          { addr := pa, size, mask := c.th.vs r.c w, cmp := x.sub.toNat, expect := c.th.vs r.b w, tid := c.id
            ctx := s.ctxOf t, va, pred := x.d.toNat } waits ∧
        s'.thread? { team := ig.team, n } = some { th with wait := .address h e })

/-- R87, R88, R89, R192, R285: `fence.sys` goes on where nothing it waits for is outstanding, waits where something is, and
raises PROTECTION with reason 13 where a peer write was lost; `fence.io` goes on or waits; `fence.code` empties every
instruction cache once the thread's peer writes are acknowledged, and waits till then. None of them writes a register. -/
def Obligations.Fences : Prop :=
  (∀ x, Goes (.fenceSys x) (fun _ c => c.th.peerLost = false) fun _ ig c =>
    if c.th.peerOut = [] ∧ c.th.hostOut = [] then Thread.at { c.th with wait := .ready } (nextPc ig x.words)
    else { c.th with wait := .fenceSys }) ∧
  (∀ x s ig t, Formed s ig t → CanTrap s ig t → (Each ig t fun c => c.th.peerLost = true) →
    ∃ s', exec (.fenceSys x) s = .next s' ∧
      Enters s s' ig t (fun c => c.th.pc.toNat) fun _ => { code := 0x06, info := 13 }) ∧
  (∀ x, Goes (.fenceIo x) (fun _ _ => True) fun _ ig c =>
    if c.th.ioOut = [] then Thread.at c.th (nextPc ig x.words) else { c.th with wait := .fenceIo }) ∧
  (∀ x s ig t, Formed s ig t → ig.threads ≠ [] → (Each ig t fun c => c.th.peerOut = []) →
    ∃ s', exec (.fenceCode x) s = .next s' ∧
      OnlyThreads { s with cores := s.cores.map fun p => (p.1, { p.2 with icache := [] }), nearCaches := [] } s' ig t
        fun c => Thread.at c.th (nextPc ig x.words)) ∧
  (∀ x, Goes (.fenceCode x) (fun _ c => c.th.peerOut ≠ []) fun _ _ c => { c.th with wait := .fenceCode })

/-! ### The end of threads, privilege -/

namespace Sys2Proof.Claims

/-- A thread that has ended. -/
def Ended (th : Thread) : Thread :=
  { th with live := false, wait := .ready, pend := [], seen := [], age := 0, urgent := false, linked := none }

/-- The rejoin sets of a group in which threads end hold no arrived lane, so that none is released. -/
def NoneArrived (ig : IssueGroup) (t : Team) : Prop := ∀ n ∈ ig.threads, ∀ j, j < 16 → (t.jset n j).arr = 0

/-- Every group of the issue group keeps a live thread that is not parked in `jwait`. -/
def GroupsLiveOn (ig : IssueGroup) (t : Team) : Prop :=
  ∀ n ∈ ig.threads, ∃ m th, m ∉ ig.threads ∧ Tab.find m t.threads = some th ∧ t.gid m = t.gid n ∧ th.live = true ∧
    th.rejoinSet = none

/-- Lanes of an issue group that belong to the group of thread `m`. -/
def lanesWith (ig : IssueGroup) (t : Team) (m : Nat) : Nat :=
  Bits.maskOf ((ig.threads.filter fun n => t.gid n == t.gid m).map t.lane)

/-- The threads of the group have ended and left all sixteen sets; the rest of the team, and of the module, stays. -/
def ThreadsLeft (s s' : State) (ig : IssueGroup) (t : Team) (ended : Thread → Thread) : Prop :=
  OnlyTeam s s' ig.team ∧ ∃ t', s'.team? ig.team = some t' ∧ ThreadsOf t t' ig.threads (fun _ th => ended th) ∧
    (∀ m j, j < 16 → t'.jset m j = { mem := without (t.jset m j).mem (lanesWith ig t m), arr := (t.jset m j).arr }) ∧
    { t' with threads := [], groups := [] } = { t with threads := [], groups := [] }

/-- Threads of a group that lives on end. -/
def EndsThreads (i : Instr) (ok : State → IssueGroup → Team → Prop) : Prop :=
  ∀ s ig t, Formed s ig t → NoneArrived ig t → GroupsLiveOn ig t → ok s ig t →
    ∃ s', exec i s = .next s' ∧ ThreadsLeft s s' ig t Ended

end Sys2Proof.Claims

/-- R266, R304, R305, R317, R328, R329: `exit`, `nret` on a near-memory core, and `tail` with nothing outstanding end their
threads, which leave Live(g) and all sixteen sets and drop their handles; registers are left as they are. -/
def Sys2Proof.Claims.ThreadsEnd : Prop :=
  (∀ x, EndsThreads (.exit x) fun _ _ _ => True) ∧ EndsThreads .exitBase (fun _ _ _ => True) ∧
  (∀ x, EndsThreads (.nret x) fun _ _ t => t.near = true) ∧
  (∀ x, EndsThreads (.tail x) fun s ig t => t.near = false ∧ (Each ig t fun c => c.th.outstanding = []) ∧
    ∀ p ∈ s.jobs, ¬(p.2.tid.team = ig.team ∧ p.2.tid.n ∈ ig.threads))

/-- R304, R305, R329: `tail` with something outstanding takes an entry of the core's tracker, while it has fewer than 16; the
ended threads then hold nothing outstanding. -/
def Sys2Proof.Claims.TailUsesTracker : Prop :=
  ∀ x s ig t, Formed s ig t → NoneArrived ig t → GroupsLiveOn ig t → t.near = false →
    (∃ n ∈ ig.threads, ∃ th, Tab.find n t.threads = some th ∧ th.outstanding ≠ []) → (s.core t.core).tracker.length < 16 →
    ∃ s' e jobs, exec (.tail x) s = .next s' ∧ Tab.find e (s.core t.core).tracker = none ∧
      (s'.core t.core).tracker = Tab.put e
        (ig.threads.flatMap fun n => ((Tab.find n t.threads).map Thread.outstanding).getD [], jobs, t.launch)
        (s.core t.core).tracker ∧
      ThreadsLeft { s with cores := s'.cores } s' ig t fun th => Ended { th with peerOut := [], hostOut := [] }

/-- The masks of set `j` of a thread's group without the thread's lane: whether they are those of a set that releases. -/
def Sys2Proof.Claims.completes (t : Team) (n j : Nat) : Bool :=
  let arr := without (t.jset n j).arr (2 ^ t.lane n)
  arr != 0 && arr == without (t.jset n j).mem (2 ^ t.lane n)

/-- R317: a thread that ends leaves its group's sets in order, and each that this completes is released: its arrived mask
becomes 0, and the threads parked on it are ready at the instruction after their own `jwait`. -/
def Sys2Proof.Claims.LeavingReleases : Prop :=
  let releases := fun (i : Instr) (ok : State → IssueGroup → Team → Thread → Prop) =>
    ∀ s ig t n th j, Formed s ig t → ig.threads = [n] → OneGroup ig t n → Tab.find n t.threads = some th →
      Running (viewOf ig.team t n th) → ok s ig t th → j < 16 → completes t n j = true →
      Tab.sorted t.threads = true → (∀ p ∈ t.groups, p.2.quad = none) →
      (∃ m u k next, m ≠ n ∧ Tab.find m t.threads = some u ∧ t.gid m = t.gid n ∧ u.live = true ∧
        u.wait = .rejoin k next ∧ Bits.bit (without (t.jset n j).arr (2 ^ t.lane n)) (t.lane m) = true) →
      ∃ s' t', exec i s = .next s' ∧ OnlyTeam s s' ig.team ∧ s'.team? ig.team = some t' ∧
        (∀ k, k < 16 → t'.jset n k =
          { mem := without (t.jset n k).mem (2 ^ t.lane n)
            arr := if completes t n k then 0 else without (t.jset n k).arr (2 ^ t.lane n) }) ∧
        Tab.find n t'.threads = some (Ended th) ∧
        ∀ m u k next, m ≠ n → Tab.find m t.threads = some u → t.gid m = t.gid n → u.wait = .rejoin k next →
          Bits.bit (without (t.jset n j).arr (2 ^ t.lane n)) (t.lane m) = true →
          ∃ u', Tab.find m t'.threads = some u' ∧ u'.wait = .ready ∧ u'.pc = BitVec.ofNat 64 next ∧ u'.regs = u.regs
  (∀ x, releases (.exit x) fun _ _ _ _ => True) ∧ releases .exitBase (fun _ _ _ _ => True) ∧
    (∀ x, releases (.nret x) fun _ _ t _ => t.near = true) ∧
    (∀ x, releases (.tail x) fun s ig t th => t.near = false ∧ th.outstanding = [] ∧ s.jobsOf ig.team ig.threads = [])

/-- R320: when the last live thread of a group that is not parked in `jwait` ends, and its leaving completes no set, every live
thread of the group enters the trap vector with ORPHANED_SET, precisely at its `jwait`. -/
def Sys2Proof.Claims.LeavingOrphans : Prop :=
  let orphans := fun (i : Instr) (ok : State → IssueGroup → Thread → Prop) =>
    ∀ s ig t n th, Formed s ig t → ig.threads = [n] → OneGroup ig t n → Tab.find n t.threads = some th →
      CanTrap s ig t → ok s ig th → (∀ j, j < 16 → completes t n j = false) → Tab.sorted t.threads = true →
      (∀ p ∈ t.groups, p.2.quad = none) →
      (∀ m u, m ≠ n → Tab.find m t.threads = some u → t.gid m = t.gid n → u.live = true →
        u.rejoinSet.isSome = true ∧ u.handler = false) →
      ∃ s' t', exec i s = .next s' ∧ s'.team? ig.team = some t' ∧
        ∀ m u k next, m ≠ n → Tab.find m t.threads = some u → t.gid m = t.gid n → u.live = true →
          u.wait = .rejoin k next → (k < 16 → (t'.jset n k).arr = 0) ∧ ∃ u', Tab.find m t'.threads = some u' ∧
            Trapped u u' (s.trapVec t) u.pc.toNat { code := 0x0F, info := k }
  (∀ x, orphans (.exit x) fun _ _ _ => True) ∧ orphans .exitBase (fun _ _ _ => True) ∧
    (∀ x, orphans (.tail x) fun s ig th => th.outstanding = [] ∧ s.jobsOf ig.team ig.threads = [])

/-- R304: `exit` of the last live threads of a main-die group with nothing outstanding releases the group's slot and
registers. -/
def Sys2Proof.Claims.LastExitReleasesGroup : Prop :=
  ∀ x s ig t g, Formed s ig t → ig.threads ≠ [] → NoneArrived ig t → t.near = false → NoClaims s →
    (∀ n ∈ ig.threads, t.hw n = g) → (∀ p ∈ t.threads, t.hw p.1 = g → p.2.outstanding = [] ∧
      (p.2.live = true → p.1 ∈ ig.threads)) →
    Tab.sorted t.threads = true → Tab.has t.groups g = true → (∀ p ∈ t.groups, p.2.quad = none) →
    ∃ s' t' r, exec (.exit x) s = .next s' ∧ s'.team? ig.team = some t' ∧ Tab.find g t'.groups = some r ∧ r.held = false ∧
      ∀ n ∈ ig.threads, Tab.find n t'.threads = (Tab.find n t.threads).map Ended

/-- R265, R266: `nret` of the last live threads of a near-memory team removes the team and counts it in its call. -/
def Sys2Proof.Claims.LastNretEndsNearTeam : Prop :=
  ∀ x s ig t stack core call c, Formed s ig t → ig.threads ≠ [] → NoneArrived ig t → t.place = .near stack core call →
    (∀ p ∈ t.threads, p.2.live = true → p.1 ∈ ig.threads) → Tab.sorted t.threads = true →
    (∀ p ∈ t.groups, p.2.quad = none) → s.call? stack call = some c → c.stopping = false →
    ∃ s', exec (.nret x) s = .next s' ∧ s'.team? ig.team = none ∧
      s'.call? stack call = some { c with ended := c.ended + 1, returned := s.clock (platenClock stack) }

/-- R265, R266, R304, R305, R317, R320, R328, R329: `exit`, `tail` and `nret` in a group that lives on, the sets that their
threads' leaving releases or orphans, and the last threads of a group and of a near-memory team. -/
def Obligations.EndOfThreads : Prop :=
  ThreadsEnd ∧ TailUsesTracker ∧ LeavingReleases ∧ LeavingOrphans ∧ LastExitReleasesGroup ∧ LastNretEndsNearTeam

/-- R324, R340: in system mode `halt` stops its team, with its own threads at the instruction after it. -/
def Sys2Proof.Claims.HaltStopsTeam : Prop :=
  ∀ x s ig t, Formed s ig t → t.system = true → (∀ p ∈ s.memops, p.2.team ≠ ig.team) →
    ∃ s', exec (.halt x) s = .next s' ∧ OnlyTeam s s' ig.team ∧ ∃ t', s'.team? ig.team = some t' ∧
      { t' with threads := [] } = { t with threads := [], stopped := true } ∧
      ThreadsOf t t' ig.threads fun _ th => Thread.at th (nextPc ig 3)

/-- R42, R339, R412: in system mode `syswr` to LEASECFG[n] stores the lease, held between 8 and 1,024, and to MGMTID, which is
read-only, changes nothing; it writes no register of the thread. A register write of the host has the same effect. -/
def Obligations.WindowWrites : Prop :=
  (∀ x s ig t n th, Formed s ig t → ig.threads = [n] → Tab.find n t.threads = some th → t.system = true →
    let c := viewOf ig.team t n th
    let v := c.th.vs (regsOf c .syswr x 2 0 0).a 2
    let off := 8 * x.imm.toNat
    Usable .syswr x 2 0 0 [] s c →
    (0x100400 ≤ off ∧ off < 0x100600 → ∃ s', exec (.syswr x) s = .next s' ∧
      OnlyThreads { s with win := Tab.put off (BitVec.ofNat 64 (min 1024 (max 8 (v % 2 ^ 11)))) s.win } s' ig t
        fun c => Thread.at c.th (nextPc ig x.words)) ∧
    (off = 0 → ∃ s', exec (.syswr x) s = .next s' ∧ OnlyThreads s s' ig t fun c => Thread.at c.th (nextPc ig x.words))) ∧
  (∀ (s : State) off (v : DWord), off % 8 = 0 → 0x100400 ≤ off → off < 0x100600 →
    exec (.registerWrite off v) s =
      .next { s with win := Tab.put off (BitVec.ofNat 64 (min 1024 (max 8 (v.toNat % 2 ^ 11)))) s.win }) ∧
  (∀ s v, exec (.registerWrite 0 v) s = .next s)

/-- R169, R258, R324, R329: `halt` and `syswr` raise PRIVILEGED in user mode; `nret` raises ILLEGAL_OPCODE on a main-die core.
`%tinfo` holds word 0. -/
def Sys2Proof.Claims.ModeFaults : Prop :=
  ∀ x, Faults (.halt x) (fun _ t _ => t.system = false) (fun _ => { code := 0x16, info := word0 .halt x }) ∧
    Faults (.syswr x) (fun _ t _ => t.system = false) (fun _ => { code := 0x16, info := word0 .syswr x }) ∧
    Faults (.nret x) (fun _ _ _ => True) fun _ => { code := 0x01, info := word0 .nret x }

/-- R169, R258, R324, R340: `halt`, and the modes and cores that may not execute an instruction. -/
def Obligations.Privilege : Prop := HaltStopsTeam ∧ ModeFaults

/-! ### Barrier objects, jobs, futures -/

namespace Sys2Proof.Claims

/-- One thread reaches a barrier object: its address is aligned and in a forme, its line present and sound. -/
def ObjSite (s : State) (ig : IssueGroup) (t : Team) (n : Nat) (th : Thread) (va k off : Nat) (f : Forme) : Prop :=
  Formed s ig t ∧ ig.threads = [n] ∧ Tab.find n t.threads = some th ∧ th.wait = .ready ∧ va < 2 ^ 57 ∧ va % 16 = 0 ∧
    inWindow va = true ∧ s.windowAt t.cluster va = some (k, off) ∧ s.presenceCheck k off va = .ok () ∧
    s.badUnits k off 16 false = false ∧ Tab.find k s.formes = some f

/-- The object at `off` became `o` (its 16 bytes and no other), its four words are tagged as `tag` says where it says so, and
the thread goes on. Times of the bank and of the object may rise. -/
def ObjBecame (s s' : State) (ig : IssueGroup) (t : Team) (k off : Nat) (f : Forme) (o : Obj) (tag : Option Bool)
    (p : View → Thread → Prop) : Prop :=
  ∃ f' clocks, Raised s clocks t.clockKey ∧ f'.obj off = o ∧
    (∀ a, a < off ∨ off + 16 ≤ a → Tab.getD f'.data a 0 = Tab.getD f.data a 0) ∧
    (∀ a, f'.tagged a = if off / 16 = a / 16 then tag.getD (f.tagged a) else f.tagged a) ∧
    { f' with
      data := f.data, tag := f.tag, wts := f.wts, rts := f.rts, objTime := f.objTime, flipTime := f.flipTime
      objCause := f.objCause } = f ∧
    Touches { s with formes := Tab.put k f' s.formes, clocks } s' ig t p

/-- The object after an arrival of `n`: the phase flips when nothing is pending and it is not faulted (R103). -/
def arrived (o : Obj) (n : Nat) : Obj :=
  if o.parr = n ∧ o.pbyt = 0 ∧ o.faulted = false then { o with phase := !o.phase, parr := o.earr, pbyt := o.ebyt }
  else { o with parr := o.parr - n }

end Sys2Proof.Claims

/-- R103, R261, R262: the operations on a barrier object, each with its effect on PHASE, PARR and PBYT. A `bo.arrive` or a
`bo.expect` waits, to be issued again, while its thread has a peer write that has not been acknowledged: that such a write is an
access not yet performed is the model's reading (log 67). -/
def Obligations.BarrierObjects : Prop :=
  ∀ x s ig t n th k off f,
    let c := viewOf ig.team t n th
    let site := fun (o : XOp) (wb wc : Nat) (dsts : List Nat) =>
      Usable o x 2 wb wc dsts s c ∧ ObjSite s ig t n th (addrOf c o x wb wc) k off f
    let b := fun (o : XOp) (wc : Nat) => c.opB x (regsOf c o x 2 1 wc) 1
    let free := s.objWaiters k off = [] ∧ s.isBound k off = false
    let old := f.obj off
    let goes := fun (regs : Thread → Tab Word) (c : View) (th' : Thread) =>
      Resumed c.th th' (regs c.th) c.th.fpflags (nextPc ig x.words)
    (site .boInit 1 1 [] → free →
      let a := b .boInit 1 % 2 ^ 16
      let e := c.th.vs (regsOf c .boInit x 2 1 1).c 1
      ∃ s', exec (.boInit x) s = .next s' ∧
        ObjBecame s s' ig t k off f { parr := a, earr := a, pbyt := e, ebyt := e } (some true) (goes Thread.regs)) ∧
    (site .boArrive 1 0 [] → s.objWaiters k off = [] → f.tagged off = true → th.peerOut = [] → b .boArrive 0 ≤ old.parr →
      ∃ s', exec (.boArrive x) s = .next s' ∧
        ObjBecame s s' ig t k off f (arrived old (b .boArrive 0)) none (goes Thread.regs)) ∧
    (site .boArrive 1 0 [] → f.tagged off = true → th.peerOut ≠ [] →
      ∃ s', exec (.boArrive x) s = .next s' ∧ OnlyThreads s s' ig t fun c => { c.th with wait := .replay }) ∧
    (site .boExpect 1 0 [] → f.tagged off = true → th.peerOut = [] → old.pbyt + b .boExpect 0 ≤ 0xFFFFFFFF →
      ∃ s', exec (.boExpect x) s = .next s' ∧
        ObjBecame s s' ig t k off f { old with pbyt := old.pbyt + b .boExpect 0 } none (goes Thread.regs)) ∧
    (site .boExpect 1 0 [] → f.tagged off = true → th.peerOut ≠ [] →
      ∃ s', exec (.boExpect x) s = .next s' ∧ OnlyThreads s s' ig t fun c => { c.th with wait := .replay }) ∧
    (site .boWait 1 0 [] → f.tagged off = true → old.faulted = false →
      ∃ s', exec (.boWait x) s = .next s' ∧ ObjBecame s s' ig t k off f old none fun c th' =>
        if old.phase = Bits.bit (b .boWait 0) 0 then th' = { c.th with wait := .object k off old.phase }
        else goes Thread.regs c th') ∧
    (site .boTest 1 0 [x.d.toNat] → f.tagged off = true →
      ∃ s', exec (.boTest x) s = .next s' ∧ ObjBecame s s' ig t k off f old none
        (goes fun th => (th.setV x.d.toNat
          (if old.faulted then 2 else if old.phase != Bits.bit (b .boTest 0) 0 then 1 else 0)).regs)) ∧
    (site .boFree 0 0 [] → free →
      ∃ s', exec (.boFree x) s = .next s' ∧ ObjBecame s s' ig t k off f old (some false) (goes Thread.regs))

namespace Sys2Proof.Claims

/-- One thread, whose peer writes have been acknowledged, issues a job whose card passes the checks, with room in the scoreboard
and something to deliver: a job with its edges stands under the next key, D holds its pending handle, the forme lines of its write footprint are absent, and no
byte of memory has changed. -/
def IssuesJob (i : Instr) (o : XOp) (x : XForm) (kind : JobKind) (ok : State → List Nat → Prop) : Prop :=
  ∀ s ig t n th reg obj, Formed s ig t → ig.threads = [n] → Tab.find n t.threads = some th → t.near = false →
    let c := viewOf ig.team t n th
    let card := (regSpan reg 8).map fun r => (c.th.v r).toNat
    let srcs := regSpan reg 8 ++ if x.xa then [x.c.toNat] else []
    let lines := s.formeLines t.cluster kind card
    c.th.guard x.g = true → c.dests [x.d.toNat] = .ok () → c.cardReg o x 8 = .ok reg →
    Settled c srcs → Unheld c [x.d.toNat] → Sound c srcs → th.peerOut = [] → s.cardCheck t.cluster kind card = .ok obj →
    s.scoreboard (regionOf t.core) < 64 → ok s card →
    ∃ s' job, exec i s = .next s' ∧ Tab.find s.nextKey s'.jobs = some job ∧ job.kind = kind ∧ job.card = card ∧
      job.object = obj ∧ job.started = false ∧ job.ended = none ∧ job.done = 0 ∧
      job.edges = s.edgesTo (regionOf t.core) (s.ctxOf t) kind card ∧
      (∀ p ∈ lines, Tab.has s.formes p.1 = true → (s'.forme p.1).presence p.2 = 1) ∧
      (∀ k, (s'.forme k).data = (s.forme k).data) ∧ s'.hbm = s.hbm ∧ s'.hostMem = s.hostMem ∧ s'.homes = s.homes ∧
      s'.thread? { team := ig.team, n } =
        some { th with pend := Tab.put x.d.toNat s.nextKey th.pend, pc := BitVec.ofNat 64 (nextPc ig x.words) }

end Sys2Proof.Claims

/-- R76, R79, R110, R112, R118, R259: `cp`, `cpg` and `coll` issue their job and go on. That a peer write of the thread that has
not been acknowledged keeps the job from entering is the model's reading of R76 (log 67). -/
def Obligations.JobIssue : Prop :=
  (∀ x, IssuesJob (.cp x) .cp x .copy fun _ card => planOf .copy card ≠ []) ∧
  (∀ x, IssuesJob (.cpg x) .cpg x .gather fun _ card => planOf .gather card ≠ []) ∧
  (∀ x, IssuesJob (.coll x) .coll x .coll fun s card =>
    (if isPush .coll card then 0 < groupCount card else planOf .coll card ≠ []) ∧ s.modId ≠ 0x3FF ∧ Bits.bit (s.cgrp (cardCgrp card)) 31 = true)

/-- R121, R122, R260: `fut.test` answers whether the handle's job has ended, `fut.cancel` marks a pending job cancelled and
does nothing to a status, `fut.mov` moves a pending handle (leaving MOVED behind) or copies a status. -/
def Sys2Proof.Claims.Futures : Prop :=
  ∀ x,
    let a := fun (o : XOp) (c : View) => (regsOf c o x 1 0 0).a
    let named := fun (o : XOp) (c : View) => (∃ r, c.operands o x 1 0 0 = .ok r) ∧ Tab.find (a o c) c.th.seen = none
    Completes (.futTest x) x.words (fun _ => named .futTest)
      (fun _ c => c.th.setP x.d.toNat (Tab.find (a .futTest c) c.th.pend).isNone) ∧
    Completes (.futCancel x) x.words (fun _ c => named .futCancel c ∧ Tab.find (a .futCancel c) c.th.pend = none)
      (fun _ c => c.th) ∧
    (∀ s ig t n th j jb, Formed s ig t → ig.threads = [n] → Tab.find n t.threads = some th →
      let c := viewOf ig.team t n th
      named .futCancel c → Tab.find (a .futCancel c) c.th.pend = some j → Tab.find j s.jobs = some jb →
      ∃ s', exec (.futCancel x) s = .next s' ∧
        OnlyThreads { s with jobs := Tab.put j { jb with ended := some (jb.ended.getD (0xFF000000 + jb.lines)) } s.jobs }
          s' ig t fun c => Thread.at c.th (nextPc ig x.words)) ∧
    Completes (.futMov x) x.words
      (fun s c => named .futMov c ∧ c.dests [x.d.toNat] = .ok () ∧ Sound c [a .futMov c])
      fun _ c =>
        if a .futMov c = x.d.toNat then c.th
        else match Tab.find (a .futMov c) c.th.pend with
          | some j => { c.th.setV (a .futMov c) 0xFE000000 with
                        pend := Tab.put x.d.toNat j (Tab.del (a .futMov c) c.th.pend)
                        seen := Tab.del x.d.toNat c.th.seen }
          | none => { c.th.setV x.d.toNat (c.th.v (a .futMov c)).toNat with
                      pend := Tab.del x.d.toNat c.th.pend, seen := Tab.del x.d.toNat c.th.seen }

/-- R121, R133, R260: `fut.shr` publishes the lowest lane's handle, pending or ended, in a `k` register that its group may
write, and records the group as the writer. -/
def Sys2Proof.Claims.FutureShared : Prop :=
  ∀ x s ig t n th rest,
    let d := x.d.toNat
    let c := viewOf ig.team t n th
    let a := (regsOf c .futShr x 1 0 0).a
    Formed s ig t → ig.threads = n :: rest → Tab.find n t.threads = some th → (∀ m ∈ ig.threads, t.gid m = t.gid n) →
    Tab.find d t.kp = none → t.kRace (t.gid n) [d] = none →
    Each ig t (fun c => (c.awaited (1024 + d) = true → Tab.find d t.kseen = none) ∧
      (∃ r, c.operands .futShr x 1 0 0 = .ok r) ∧
      Tab.find (regsOf c .futShr x 1 0 0).a c.th.seen = none ∧ Sound c [(regsOf c .futShr x 1 0 0).a]) →
    ∃ s' t', exec (.futShr x) s = .next s' ∧ OnlyTeam s s' ig.team ∧ s'.team? ig.team = some t' ∧
      Tab.find d t'.kp = Tab.find a th.pend ∧ Tab.find d t'.kw = some (t.gid n + 1) ∧
      (Tab.find a th.pend = none → t'.kreg d = (th.v a).toNat) ∧
      (∀ k, k ≠ d → t'.kreg k = t.kreg k ∧ Tab.find k t'.kp = Tab.find k t.kp ∧ Tab.find k t'.kw = Tab.find k t.kw) ∧
      ThreadsOf t t' ig.threads (fun _ th => Thread.at th (nextPc ig x.words)) ∧
      { t' with threads := [], k := [], kw := [], kp := [], kseen := [], kbad := [] } =
        { t with threads := [], k := [], kw := [], kp := [], kseen := [], kbad := [] }

/-- R121, R122, R133, R260: the `fut` family. That a running job delivers no line after its cancel, so that LINES is what it had
delivered by then, is the model's choice (log 53). -/
def Obligations.FutureHandles : Prop := Futures ∧ FutureShared

/-! ### The galley and the matrix unit -/

namespace Sys2Proof.Claims

/-- An issue group uses a slug that its partition holds under the name in IMM, through no link: it runs on a main-die core
outside split mode, converged where `conv` asks for it, its register ranges allocated, without handles and sound. -/
def GalleySite (x : XForm) (conv : Bool) (srcs dsts : List Nat) (s : State) (ig : IssueGroup) (t : Team) (n : Nat)
    (w : Tab Word) : Prop :=
  Formed s ig t ∧ ig.threads.head? = some n ∧ t.near = false ∧ t.split = false ∧
    (conv = true → t.converged ig.threads = true) ∧ linkWait x = false ∧ linkArr x = false ∧
    Tab.find (slugKey (t.part n) (x.imm.toNat % 16)) t.slugs = some w ∧
    Each ig t fun c => (∀ r ∈ srcs ++ dsts, r < c.alloc) ∧ Settled c (srcs ++ dsts) ∧ Sound c srcs

/-- The rows of the threads' lanes in the slug named by IMM hold no uncorrectable word. -/
def SlugSound (x : XForm) (s : State) (ig : IssueGroup) (t : Team) (n : Nat) : Prop :=
  ∀ m ∈ ig.threads, ∀ c, c < 32 →
    s.badAt (badSlug ig.team (t.part n) (slugKey (t.part n) (x.imm.toNat % 16) % 16) (t.lane m * 32 + c)) = none

/-- The slug named by IMM became `w`; no other slug and nothing else of the team but its threads has changed. -/
def SlugBecame (s s' : State) (k : Nat) (t t' : Team) (key : Nat) (w : Tab Word) : Prop :=
  s'.team? k = some t' ∧ (∀ i, i ≠ k → s'.team? i = s.team? i) ∧ Tab.find key t'.slugs = some w ∧
    (∀ i, i ≠ key → Tab.find i t'.slugs = Tab.find i t.slugs) ∧
    { t' with threads := [], slugs := [] } = { t with threads := [], slugs := [] } ∧
    { s' with teams := s.teams, bad := s.bad } = s

end Sys2Proof.Claims

/-- R254, R255: `acrd` reads a row of a slug into 32 registers of its lane, `acwr` writes a row, `aczero` clears the slug, and
`acq` converts a row through its slot. None of them waits while no operation is queued on the partition. -/
def Obligations.GalleyAccesses : Prop :=
  ∀ x s ig t n w,
    let key := slugKey (t.part n) (x.imm.toNat % 16)
    let slot := s.fslot t x.fs.toNat
    let done := fun (th th' : Thread) => th'.pc = BitVec.ofNat 64 (nextPc ig 3) ∧ th'.wait = .ready ∧
      th'.preds = th.preds ∧ th'.live = th.live ∧ th'.pend = th.pend
    s.matrixQueue t.core (t.part n) = [] →
    (GalleySite x true [] (regSpan x.d.toNat 32) s ig t n w →
      SlugSound x s ig t n →
      ∃ s', exec (.acrd x) s = .next s' ∧ Touches s s' ig t fun c th' => done c.th th' ∧ th'.fpflags = c.th.fpflags ∧
        ∀ r, th'.v r =
          if x.d.toNat ≤ r ∧ r < x.d.toNat + 32 then BitVec.ofNat 32 (slugWord w (t.lane c.id.n * 32 + (r - x.d.toNat)))
          else c.th.v r) ∧
    (GalleySite x true (regSpan x.a.toNat 32) [] s ig t n w →
      ∃ s' t' w', exec (.acwr x) s = .next s' ∧ SlugBecame s s' ig.team t t' key w' ∧
        (∀ m ∈ ig.threads, ∀ th, Tab.find m t.threads = some th → ∀ c, c < 32 →
          slugWord w' (t.lane m * 32 + c) = (th.v (x.a.toNat + c)).toNat) ∧
        (∀ i, (∀ m ∈ ig.threads, i / 32 ≠ t.lane m) → slugWord w' i = slugWord w i) ∧
        ∀ m ∈ ig.threads, ∀ th, Tab.find m t.threads = some th → ∃ th', Tab.find m t'.threads = some th' ∧ done th th' ∧
          th'.regs = th.regs) ∧
    (GalleySite x false [] [] s ig t n w →
      ∃ s' t', exec (.aczero x) s = .next s' ∧ SlugBecame s s' ig.team t t' key [] ∧
        ∀ m ∈ ig.threads, ∀ th, Tab.find m t.threads = some th → ∃ th', Tab.find m t'.threads = some th' ∧ done th th' ∧
          th'.regs = th.regs) ∧
    (GalleySite x true [] (regSpan x.d.toNat (acqRegs x.ty)) s ig t n w → acqSlotOk x slot = true →
      SlugSound x s ig t n →
      ∃ s', exec (.acq x) s = .next s' ∧ Touches s s' ig t fun c th' =>
        let rs := (List.range 32).map fun i => acqV x.ty slot (slugWord w (t.lane c.id.n * 32 + i))
        done c.th th' ∧
          th'.regs = (c.th.setVs x.d.toNat (Bits.joinLE x.ty.bits (rs.map Prod.fst)) (acqRegs x.ty)).regs ∧
          th'.fpflags = (c.th.raiseFlags (rs.foldl (fun f r => f ||| r.2) 0)).fpflags)

namespace Sys2Proof.Claims

/-- The registers `r` to `r + n - 1` of every thread of an issue group, in lane order. -/
def groupRegs (ig : IssueGroup) (t : Team) (r n : Nat) : List (List Nat) :=
  ig.threads.map fun m => match Tab.find m t.threads with
    | some th => (regSpan r n).map fun i => (th.v i).toNat
    | none => []

/-- A matrix instruction of a whole group is queued with the registers it read, and its threads go on; its slug and its
registers keep their values until it completes. With four operations queued its threads wait instead. -/
def QueuesMatrix (i : Instr) (x : XForm) (kept : Nat) : Prop :=
  ∀ s ig t n w,
    let slot := s.fslot t x.fs.toNat
    let part := t.part n
    let rows := rowRegs x.ty slot kept
    let cols := 4 * quarterRegs slot
    let q := s.matrixQueue t.core part
    GalleySite x true (regSpan x.a.toNat rows ++ regSpan x.b.toNat cols) [] s ig t n w → ig.threads.length = 32 →
    mmaSlotOk x slot = true → SlugSound x s ig t n →
    (q.length < 4 → ∃ s' m, exec i s = .next s' ∧ m.team = ig.team ∧ m.group = t.hw n ∧
      m.slug = slugKey part (x.imm.toNat % 16) ∧ m.slot = slot ∧ m.arrive = none ∧
      m.a = (groupRegs ig t x.a.toNat rows).map (expandRow x.ty slot kept) ∧ m.b = groupRegs ig t x.b.toNat cols ∧
      OnlyThreads { s with matrix := Tab.put (t.core * 4 + part) (q ++ [m]) s.matrix } s' ig t fun c =>
        { Thread.at c.th (nextPc ig 3) with wait := .ready, linked := none }) ∧
    (4 ≤ q.length → ∃ s', exec i s = .next s' ∧ OnlyThreads s s' ig t fun c => { c.th with wait := .matrix, linked := none })

/-- The registers `r` to `r + n - 1` of thread `m` of a team. -/
def threadRegs (t : Team) (m r n : Nat) : List Nat :=
  match Tab.find m t.threads with
  | some th => (regSpan r n).map fun i => (th.v i).toNat
  | none => []

/-- A quad's last member arrives at its rendezvous: four operations are queued, one on each partition, each with its own member's
rows of A and the four members' quarters of B, as their registers hold them at that moment, and every member's threads go on. -/
def CompletesQuad (i : Instr) (x : XForm) (kept : Nat) : Prop :=
  ∀ s ig t n w g,
    let slot := s.fslot t x.fs.toNat
    let rows := rowRegs x.ty slot kept
    GalleySite x true (regSpan x.a.toNat rows ++ regSpan x.b.toNat (quarterRegs slot)) [] s ig t n w →
    ig.threads.length = 32 → mmaSlotOk x slot = true → SlugSound x s ig t n → t.hw n = g → t.quadWhole g = true → Tab.sorted t.threads = true →
    (∀ p, p < 4 → (s.matrixQueue t.core p).length < 4) →
    (∀ m ∈ quadMembers g, m ≠ g → ∃ gr o, Tab.find m t.groups = some gr ∧ gr.quad = some o ∧ o.group = m ∧
      o.breg = x.b.toNat ∧ o.fs = x.fs.toNat ∧
      ∀ i th, t.hw i = m → Tab.find i t.threads = some th → ∀ r ∈ regSpan o.areg o.aregs, r ∉ th.bad) →
    (∀ m th, t.hw m ∈ quadMembers g → Tab.find m t.threads = some th →
      ∀ r ∈ regSpan x.b.toNat (quarterRegs slot), r ∉ th.bad) →
    ∃ s', exec i s = .next s' ∧
      (∀ m ∈ quadMembers g, ∃ op, s'.matrixQueue t.core (m % 4) = s.matrixQueue t.core (m % 4) ++ [op] ∧ op.group = m ∧
        (m = g → op.a = (groupRegs ig t x.a.toNat rows).map (expandRow x.ty slot kept)) ∧
        (∀ o, m ≠ g → (Tab.find m t.groups).bind Group.quad = some o → op.a = s.rowsOf o) ∧
        op.b = (List.range 32).map fun c => (quadMembers g).flatMap fun q =>
          threadRegs t (q * 32 + c) x.b.toNat (quarterRegs slot)) ∧
      ∀ m ∈ ig.threads, ∀ th, Tab.find m t.threads = some th → ∃ th', s'.thread? { team := ig.team, n := m } = some th' ∧
        th'.wait = .ready ∧ th'.pc = th.pc + 12 ∧ th'.regs = th.regs

end Sys2Proof.Claims

/-- R246, R248, R359: `mma` and `mmas` of a group alone. -/
def Sys2Proof.Claims.MatrixQueued : Prop :=
  (∀ x, QueuesMatrix (.mma x) x 32) ∧ ∀ x, x.sub.toNat < 2 → QueuesMatrix (.mmas x) x (keptOf x.sub.toNat)

/-- R247, R248: `mma.q` and `mmas.q` at the fourth arrival of a quad. -/
def Sys2Proof.Claims.QuadRendezvous : Prop :=
  (∀ x, CompletesQuad (.mmaQ x) x 32) ∧ ∀ x, 2 ≤ x.sub.toNat → CompletesQuad (.mmas x) x (keptOf x.sub.toNat)

/-- R246 to R248, R359: the matrix instructions. -/
def Obligations.MatrixIssue : Prop := MatrixQueued ∧ QuadRendezvous

/-- R246, R249, R359: the oldest operation of a partition that has a grant completes: each of the 1,024 words of its slug
becomes D(l,c), and the start is counted. -/
def Obligations.MatrixOperationCompletes : Prop :=
  ∀ core part s m t w, s.hasGrant core part = true → s.matrixQueue core part = [m] → s.team? m.team = some t →
    Tab.find m.slug t.slugs = some w → m.slug < 64 → m.arrive = none →
    (∀ p ∈ s.teams, ∀ q ∈ p.2.groups, q.2.quad = none) →
    ∃ s' t' w', exec (.matrixOpComplete core part) s = .next s' ∧ s'.matrixQueue core part = [] ∧
      s'.team? m.team = some t' ∧ Tab.find m.slug t'.slugs = some w' ∧
      (∀ l c, l < 32 → c < 32 →
        slugWord w' (l * 32 + c) = (dotV (m.rowA l) (m.colB c) (slugWord w (l * 32 + c))).1 % 2 ^ 32) ∧
      (∀ k, k ≠ m.slug → Tab.find k t'.slugs = Tab.find k t.slugs) ∧
      Tab.getD s'.starts (core * 4 + part) 0 = Tab.getD s.starts (core * 4 + part) 0 + 1 ∧
      s'.hbm = s.hbm ∧ s'.hostMem = s.hostMem ∧ s'.formes = s.formes

/-- R251, R253: `acalloc` of names that are all bound answers true, of more than the partition's sixteen false; one that fits
while no request waits binds zeroed slugs and answers true. `acfree` unbinds names that no operation uses. -/
def Obligations.GalleyAllocation : Prop :=
  ∀ x s ig t g n, Formed s ig t → n ∈ ig.threads → (∀ m ∈ ig.threads, t.hw m = g) → t.near = false → t.split = false →
    (∀ p ∈ s.teams, p.2.slugAsk = []) → Tab.sorted s.teams = true →
    let part := g % 4
    let names := (List.range (slugCount x)).map (slugFirst x + ·)
    let m := (t.unbound part (slugFirst x) (slugCount x)).length
    let answered := fun (ok : Bool) (s' : State) => ∀ k ∈ ig.threads, ∀ th, Tab.find k t.threads = some th →
      ∃ th', s'.thread? { team := ig.team, n := k } = some th' ∧ th'.preds = (th.setP x.d.toNat ok).preds ∧
        th'.pc = BitVec.ofNat 64 (nextPc ig 3) ∧ th'.regs = th.regs
    (m = 0 → ∃ s', exec (.acalloc x) s = .next s' ∧ answered true s' ∧ OnlyTeam s s' ig.team) ∧
    (16 < m + t.slugsOn part → m ≠ 0 → ∃ s', exec (.acalloc x) s = .next s' ∧ answered false s' ∧ OnlyTeam s s' ig.team) ∧
    (m ≠ 0 → m + t.slugsOn part ≤ 16 → s.slugsUsed t.core part + m ≤ 16 →
      ∃ s' t', exec (.acalloc x) s = .next s' ∧ answered true s' ∧ s'.team? ig.team = some t' ∧ t'.slugAsk = [] ∧
        ∀ k, Tab.find k t'.slugs =
          if k ∈ names.map (slugKey part) then some ((Tab.find k t.slugs).getD []) else Tab.find k t.slugs) ∧
    ((∀ k ∈ names, s.slugBusy t.core ig.team (slugKey part k) = false) →
      ∃ s' t', exec (.acfree x) s = .next s' ∧ s'.team? ig.team = some t' ∧
        (∀ k, Tab.find k t'.slugs = if k ∈ names.map (slugKey part) then none else Tab.find k t.slugs) ∧
        ∀ k ∈ ig.threads, Tab.find k t'.threads =
          (Tab.find k t.threads).map fun th => Thread.at th (nextPc ig 3))

/-! ### Platen calls, imprints, spawned tasks, device launches -/

/-- R264, R265, R276: an `ncall` that passes its checks, with one of the platen's 16 entries free, copies card and arguments
into an entry in the drain phase, binds the return object, and lets the thread go on; nothing in memory changes. It waits, to be
issued again, while the thread has a peer write that has not been acknowledged: that such a write is an access not yet performed is
the model's reading (log 67). -/
def Obligations.PlatenCallSent : Prop :=
  ∀ x s ig t n th r lines l, Formed s ig t → ig.threads = [n] → Tab.find n t.threads = some th →
    let c := viewOf ig.team t n th
    let st := callStack r.card
    s.callCard c x = .ok r → s.callSites c r.card = (s, .ok lines) → (∀ m ∈ r.srcs, Tab.find m th.seen = none) →
    (th.peerOut ≠ [] → ∃ s', exec (.ncall x) s = .next s' ∧ OnlyThreads s s' ig t fun c => { c.th with wait := .replay }) ∧
    (th.peerOut = [] → (s.platen st).calls.length < 16 → s.launchOf t = some l →
    ∃ s' call, exec (.ncall x) s = .next s' ∧ call.card = r.card ∧ call.args = r.args ∧ call.object = some r.obj ∧
      call.lines = lines ∧ call.phase = .drain ∧ call.started = 0 ∧ call.status = 0 ∧ call.time = s.clock t.clockKey ∧
      call.caller = l ∧ call.ctx = s.ctxOf t ∧
      OnlyThreads { s with
        platens := Tab.put st { s.platen st with calls := Tab.put s.nextKey call (s.platen st).calls } s.platens
        nextKey := s.nextKey + 1 } s' ig t fun c => Thread.at c.th (nextPc ig 3))

/-- R267, R349: `imp.post` of a tile of its launch's output space. A reserved entry becomes imprinted at the bound generation
with the launch's consumer count, at the core's clock; an entry already imprinted at it, and a tile without an entry, only
answer. While a peer write of the team has not been acknowledged, it waits to be issued again. -/
def Sys2Proof.Claims.ImprintPosted : Prop :=
  ∀ x s ig t n th l, Formed s ig t → ig.threads = [n] → Tab.find n t.threads = some th → th.wait = .ready →
    let c := viewOf ig.team t n th
    let tile := c.th.vs (regsOf c .impPost x 1 0 0).a 1
    let tx := tile % 2 ^ 16
    let ty := tile / 2 ^ 16
    let r := l.record
    let answers := fun (ok : Bool) (s' : State) =>
      OnlyThreads s s' ig t fun c => Thread.at (c.th.setP x.d.toNat ok) (nextPc ig x.words)
    Usable .impPost x 1 0 0 [] s c →
    (s.teamWrites ig.team = true → ∃ s', exec (.impPost x) s = .next s' ∧
      OnlyThreads s s' ig t fun c => { c.th with wait := .replay }) ∧
    (s.teamWrites ig.team = false → s.launchOf t = some l → recImpOut r = true → tx < recTx r → ty < recTy r →
    (l.bnd = true ∨ s.imprintAt l.ctx (recBuf r) tx ty = none →
      ∃ s', exec (.impPost x) s = .next s' ∧ answers false s') ∧
    (∀ k e, l.bnd = false → s.imprintAt l.ctx (recBuf r) tx ty = some (k, e) →
      (e.posted = true ∧ e.gen = e.pgen → ∃ s', exec (.impPost x) s = .next s' ∧ answers true s') ∧
      (e.posted = false ∨ (e.outst = 0 ∧ e.gen ≠ e.pgen) →
        ∃ s' th', exec (.impPost x) s = .next s' ∧
          Tab.find k s'.imprints =
            some { e with posted := true, gen := e.pgen, outst := recCons r, time := s.clock t.clockKey } ∧
          (∀ j, j ≠ k → Tab.find j s'.imprints = Tab.find j s.imprints) ∧
          s'.thread? { team := ig.team, n } = some th' ∧ th'.preds = (th.setP x.d.toNat true).preds ∧
          th'.pc = BitVec.ofNat 64 (nextPc ig x.words) ∧ th'.regs = th.regs ∧ s'.hbm = s.hbm ∧ s'.formes = s.formes)))

/-- R268, R269: `imp.chk` answers whether the tile's condition holds, `imp.wait` goes on where it holds and parks where it may
still come to hold, `imp.clear` retires an entry with no consumer outstanding. -/
def Sys2Proof.Claims.ImprintConsumed : Prop :=
  ∀ x s ig t n th, Formed s ig t → ig.threads = [n] → Tab.find n t.threads = some th → th.wait = .ready →
    let c := viewOf ig.team t n th
    let tileOf := fun (o : XOp) => c.tile (regsOf c o x 1 1 1)
    let ready := fun (o : XOp) => s.tileReady (s.ctxOf t) (tileOf o)
    let buf := c.th.vs (regsOf c .impClear x 1 1 0).a 1
    let tile := c.th.vs (regsOf c .impClear x 1 1 0).b 1
    let observed := fun (s' : State) (eff : Thread → Thread) => ∃ clocks, Raised s clocks t.clockKey ∧
      OnlyThreads { s with clocks } s' ig t fun c => Thread.at (eff c.th) (nextPc ig x.words)
    (Usable .impChk x 1 1 1 [] s c → ∃ s', exec (.impChk x) s = .next s' ∧
      observed s' fun th => th.setP x.d.toNat (ready .impChk).isSome) ∧
    (Usable .impWait x 1 1 1 [] s c → (ready .impWait).isSome = true →
      ∃ s', exec (.impWait x) s = .next s' ∧ observed s' fun th => th) ∧
    (Usable .impWait x 1 1 1 [] s c → ready .impWait = none →
      let i := tileOf .impWait
      s.imprintAt (s.ctxOf t) i.buf i.tx i.ty = none →
      ∃ s', exec (.impWait x) s = .next s' ∧
        OnlyThreads s s' ig t fun c => { c.th with wait := .imprint i.buf (tileWord i.tx i.ty) i.gen }) ∧
    (Usable .impClear x 1 1 0 [] s c → s.imprintAt (s.ctxOf t) buf (tile % 2 ^ 16) (tile / 2 ^ 16) = none →
      ∃ s', exec (.impClear x) s = .next s' ∧ OnlyThreads s s' ig t fun c => Thread.at c.th (nextPc ig x.words)) ∧
    (∀ k e, Usable .impClear x 1 1 0 [] s c →
      s.imprintAt (s.ctxOf t) buf (tile % 2 ^ 16) (tile / 2 ^ 16) = some (k, e) → e.outst = 0 →
      ∃ s', exec (.impClear x) s = .next s' ∧
        Tab.find k s'.imprints = (if e.bound then some { e with posted := false, outst := 0 } else none) ∧
        (s'.thread? { team := ig.team, n }).map (fun u => (u.pc, u.regs, u.preds)) =
          some (BitVec.ofNat 64 (nextPc ig x.words), th.regs, th.preds))

/-- R349: the host retires an entry of the imprint table: a bound one returns to its bound state, another is freed; one that
is not there is ignored. -/
def Sys2Proof.Claims.HostRetiresImprint : Prop :=
  ∀ s ctx buf x y,
    (s.imprintAt ctx buf x y = none → exec (.imprintEntryRetire ctx buf x y) s = .next s) ∧
    (∀ k e, s.imprintAt ctx buf x y = some (k, e) → ∃ s', exec (.imprintEntryRetire ctx buf x y) s = .next s' ∧
      Tab.find k s'.imprints = (if e.bound then some { e with posted := false, outst := 0 } else none) ∧
      s'.hbm = s.hbm)

/-- R267 to R269, R349: the `imp` instructions, and the host's retirement of an entry, which looks at no OUTST by the model's
reading (log 27). That an outstanding peer write is an access not yet performed is its reading too (log 67). -/
def Obligations.Imprints : Prop := ImprintPosted ∧ ImprintConsumed ∧ HostRetiresImprint

/-- R361, R362: `spawn` adds its task to the open bin of its launch, entry and depth, which is ready at 32 tasks; at depth 8,
in a cancelled launch, or with no bin free it answers false and adds nothing; a first task opens a bin whose timer runs. An
offer waits, to be issued again, while a peer write of its thread has not been acknowledged: that such a write is an access
not yet performed is the model's reading (log 67). -/
def Obligations.SpawnOffers : Prop :=
  ∀ x s ig t n th, Formed s ig t → ig.threads = [n] → Tab.find n t.threads = some th → t.near = false →
    let c := viewOf ig.team t n th
    let entry := c.th.vs (regsOf c .spawn x 2 2 0).a 2
    let core := s.core t.core
    let task : Task := { arg := c.th.vs (regsOf c .spawn x 2 2 0).b 2, clock := s.clock t.core, team := ig.team }
    let refused := t.depth = 8 ∨ core.cancelled.contains t.launch = true
    let answers := fun (ok : Bool) (base s' : State) =>
      OnlyThreads base s' ig t fun c => Thread.at (c.th.setP x.d.toNat ok) (nextPc ig 3)
    let binned := fun (k : Nat) (b : Bin) =>
      { s with cores := Tab.put t.core { core with bins := Tab.put k b core.bins } s.cores, nextTag := s.nextTag + 1 }
    Usable .spawn x 2 2 0 [] s c →
    (refused → ∃ s', exec (.spawn x) s = .next s' ∧ answers false s s') ∧
    (¬refused → th.peerOut ≠ [] → ∃ s', exec (.spawn x) s = .next s' ∧
      OnlyThreads s s' ig t fun c => { c.th with wait := .replay }) ∧
    (¬refused → entry < 2 ^ 57 → entry % 4 = 0 → th.peerOut = [] →
      (∀ k b, core.openBin t.launch entry (t.depth + 1) = some (k, b) →
        ∃ s', exec (.spawn x) s = .next s' ∧
          answers true (binned k { b with
            tasks := b.tasks ++ [task], ready := if b.tasks.length = 31 then some s.nextTag else none }) s') ∧
      (core.openBin t.launch entry (t.depth + 1) = none → 32 ≤ core.bins.length →
        ∃ s', exec (.spawn x) s = .next s' ∧ answers false s s') ∧
      (∀ d, core.openBin t.launch entry (t.depth + 1) = none → core.bins.length < 32 →
        s.descriptor t.window (s.threadAsker c.id t 3) entry = (s, .ok d) → descRefused entry d = false →
        ∃ s' k, exec (.spawn x) s = .next s' ∧ Tab.find k core.bins = none ∧
          answers true (binned k
            { launch := t.launch, entry, depth := t.depth + 1, tasks := [task], due := s.cycle + s.spawnTimer
              ready := none, desc := d }) s'))

/-- R354, R367, R368: `cancq` reads the core's cancel flag of its launch; `cancq.self` cancels the launch, and the core's own
flag is set before it completes; `cancq.id` cancels a launch of its own context and no other. -/
def Obligations.Cancels : Prop :=
  (∀ x, Completes (.cancq x) x.words (fun _ _ => True) fun s c =>
    c.th.setP x.d.toNat ((s.core c.team.core).cancelled.contains c.team.launch)) ∧
  (∀ x s ig t l, Formed s ig t → ig.threads ≠ [] → Tab.find t.launch s.launches = some l →
    ∃ s' l', exec (.cancqSelf x) s = .next s' ∧ Tab.find t.launch s'.launches = some l' ∧ l'.cancel = true ∧
      (l.cancel = false → l'.waiting = [] ∧ l'.next = recClusters l.record) ∧
      (s'.core t.core).cancelled.contains t.launch = true ∧
      OnlyThreads { s with
        launches := s'.launches, imprints := s'.imprints, boundaries := s'.boundaries, saved := s'.saved, cores := s'.cores }
        s' ig t fun c => Thread.at c.th (nextPc ig x.words)) ∧
  (∀ x s ig t n th, Formed s ig t → ig.threads = [n] → Tab.find n t.threads = some th →
    let c := viewOf ig.team t n th
    Usable .cancqId x 1 0 0 [] s c →
    ∃ s', exec (.cancqId x) s = .next s' ∧
      OnlyThreads { s with
        launches := s'.launches, imprints := s'.imprints, boundaries := s'.boundaries, saved := s'.saved }
        s' ig t (fun c => Thread.at c.th (nextPc ig x.words)) ∧
      match s.launchNamed (c.th.vs (regsOf c .cancqId x 1 0 0).a 1) with
      | none => s'.launches = s.launches
      | some (k, l) =>
        if l.ctx = s.ctxOf t then (Tab.find k s'.launches).map Launch.cancel = some true else s'.launches = s.launches)

/-- R366: `launch` answers false where its queue holds 64 records, reading nothing. Otherwise a record that lies in a forme is
read in 32 loads, enters the queue with the thread's own context in CTX and its completion address, and the answer is true.
That a record being read has its place in the queue already is the model's choice (log 56), that an unacknowledged peer write of the
thread keeps it waiting its reading (log 67). -/
def Obligations.DeviceLaunch : Prop :=
  ∀ x s ig t n th r loc q, Alone s ig t n th →
    let c := viewOf ig.team t n th
    let queue := x.imm.toNat % 16
    let held := Tab.getD s.devQueues queue []
    th.launching = none → s.launchLane c x (s.queueHolds queue) = (s, .go r loc, q) →
    (∀ m ∈ q.srcs, Tab.find m th.seen = none) → th.peerOut = [] →
    (64 ≤ s.queueHolds queue → ∃ s', exec (.launch x) s = .next s' ∧
      Touches { s with nextKey := s.nextKey + 1 } s' ig t fun c th' =>
        th'.preds = (c.th.setP x.d.toNat false).preds ∧ th'.pc = BitVec.ofNat 64 (nextPc ig 3) ∧ th'.regs = c.th.regs) ∧
    (∀ a k off f, s.queueHolds queue < 64 → s.ctxOf t < 64 →
      q.pieces = ((List.range 32).map fun i => (a + 16 * i, Loc.forme k (off + 16 * i))) → Tab.find k s.formes = some f →
      (∀ i, i < 32 → s.formeCheck k (off + 16 * i) 16 (a + 16 * i) false = .ok ()) →
      ∃ s' d, exec (.launch x) s = .next s' ∧ Tab.getD s'.devQueues queue [] = held ++ [d] ∧ d.ctx = s.ctxOf t ∧ d.comp = q.comp ∧
        Bits.field d.record 8 6 = s.ctxOf t ∧
        (∀ j, j < 512 → j ≠ 1 → Bits.field d.record (8 * j) 8 = (Tab.getD f.data (off + j) 0).toNat) ∧
        (s'.forme k).data = f.data ∧ s'.hbm = s.hbm ∧ s'.hostMem = s.hostMem ∧
        ∃ th', s'.thread? { team := ig.team, n } = some th' ∧ th'.preds = (th.setP x.d.toNat true).preds ∧
          th'.pc = BitVec.ofNat 64 (nextPc ig 3) ∧ th'.regs = th.regs ∧ th'.wait = .ready)

/-! ### Coherence between regions and homes -/

namespace Sys2Proof.Claims

/-- Nothing waits at a home: no request in its line queue or at the port, no operation let run there. -/
def HomeQuiet (s : State) (h : Nat) : Prop :=
  (s.home h).queue = [] ∧ s.port.requests = [] ∧ ∀ p ∈ s.memops, p.2.atHome = []

/-- A line stands resident in its home in H, held by no one else, and nothing waits there: nothing hinders the next
request. -/
def HomeFree (s : State) (ln : Nat) (l : HomeLine) : Prop :=
  isHostLine ln = false ∧ s.isLent ln = false ∧ HomeQuiet s (homeOf ln) ∧
    Tab.find ln (s.home (homeOf ln)).lines = some l ∧ l.state = .h ∧ l.hostHeld = false

/-- No word of a copy of a line is marked uncorrectable (R37). -/
def NoMarks (d : LineData) : Prop := ∀ u, lineMark d u = none

/-- A request of a kind that arrives now. -/
def Arrives (s : State) (tag : Nat) (m : Msg) (r : HReq) : Prop :=
  s.arriving tag = some m ∧ m.kind = .req r ∧ r.line = m.line ∧ tag ≠ s.nextTag

/-- The next message sent. -/
def Sent (s s' : State) (m : Msg) : Prop := Tab.find s.nextTag s'.net = some m

end Sys2Proof.Claims

/-- R43, R46, R50, R55: a request that meets its line in H. GETS extends the lease and is answered DATA, or RENEW where the
requester's copy is current; GETX and UPG make the requester the owner; ATOM lets its operation run at the home. -/
def Obligations.RequestsAtHome : Prop :=
  ∀ s tag m r l, Arrives s tag m r → HomeFree s r.line l →
    let ln := r.line
    let rts := max l.rts (max (l.wts + r.lease) (r.pts + r.lease))
    (∀ byp, r.kind = .gets byp →
      let same : Bool := r.wts == some l.wts
      ∃ s', exec (.gets tag) s = .next s' ∧ (s'.lineAt ln).rts = rts ∧ (s'.lineAt ln).wts = l.wts ∧
        (s'.lineAt ln).data = l.data ∧ (s'.lineAt ln).state = .h ∧ s'.hbm = s.hbm ∧ s'.teams = s.teams ∧
        Sent s s'
          { kind := if same then .renew else .data, line := ln, region := r.region, tag := r.tag
            data := if same then [] else l.data, wts := l.wts, rts, hint := r.hint, op := r.op }) ∧
    (s.isWatched ln = false → (s.home (homeOf ln)).dir.length < 8 →
      let owns := fun (i : Instr) (grant : Bool) =>
        ∃ s', exec i s = .next s' ∧ (s'.lineAt ln).state = .o ∧ (s'.lineAt ln).data = l.data ∧ s'.hbm = s.hbm ∧
          s'.teams = s.teams ∧ (∃ e ∈ (s'.home (homeOf ln)).dir, e.line = ln ∧ e.region = r.region) ∧
          Sent s s'
            { kind := if grant then .grantX else .dataX, line := ln, region := r.region, tag := r.tag
              data := if grant then [] else l.data, wts := l.wts, rts := l.rts, hint := r.hint, op := r.op }
      (r.kind = .getx → owns (.getx tag) false) ∧ (r.kind = .upg → owns (.upg tag) (r.wts == some l.wts))) ∧
    (∀ op a t th sub pa, r.kind = .atom → s.memops = [(r.op, op)] → op.kind = .red sub → op.accs = [a] →
      op.threads = [a.tid] → op.replies = [] → a.loc = .device pa → deviceLine pa = ln → s.team? op.team = some t →
      t.near = false → Tab.find a.tid t.threads = some th → NoMarks l.data → pa % 128 + a.size ≤ 128 →
      ∃ s' th', exec (.atomRequest tag) s = .next s' ∧ s'.memops = [] ∧
        (s'.lineAt ln).data = lineWrite l.data (pa % 128) a.size
          (atomNew sub a.ty (lineRead l.data (pa % 128) a.size) (a.value % 2 ^ (8 * a.size)) (a.compare % 2 ^ (8 * a.size))).1 ∧
        (s'.lineAt ln).wts = max (s.clock t.core) (l.rts + 1) ∧ (s'.lineAt ln).rts = (s'.lineAt ln).wts ∧
        s'.thread? { team := op.team, n := a.tid } = some th' ∧ th'.wait = .ready ∧ th'.pc = BitVec.ofNat 64 op.next ∧
        th'.regs = th.regs)

/-- R46, R48, R51: data that comes home. WB leaves the line in H with the owner's data and times and is acknowledged; an
owner's answer completes the GETS that waited for it; FWD_GONE is discarded. -/
def Obligations.DataComesHome : Prop :=
  ∀ s tag m, s.arriving tag = some m → tag ≠ s.nextTag → isHostLine m.line = false → s.isLent m.line = false →
    HomeQuiet s (homeOf m.line) →
    let l := s.lineAt m.line
    let home := fun (s' : State) =>
      (s'.lineAt m.line).data = m.data ∧ (s'.lineAt m.line).wts = m.wts ∧
        (s'.lineAt m.line).dirty = (l.dirty || m.dirty) ∧ (s'.lineAt m.line).state = .h ∧
        ∀ e ∈ (s'.home (homeOf m.line)).dir, e.line ≠ m.line
    (m.kind = .wb → l.pend = none → ∃ s', exec (.wb tag) s = .next s' ∧ home s' ∧ (s'.lineAt m.line).rts = m.rts ∧
      Sent s s' { kind := .wbAck, line := m.line, region := m.region, tag := m.tag }) ∧
    (∀ keeps r byp, m.kind = .answer keeps → l.pend = some r → r.line = m.line → r.kind = .gets byp →
      r.wts ≠ some m.wts →
      ∃ s', exec (.forwardAnswer tag) s = .next s' ∧ home s' ∧ (s'.lineAt m.line).pend = none ∧
        Sent s s'
          { kind := .data, line := m.line, region := r.region, tag := r.tag, data := m.data, wts := m.wts
            rts := max m.rts (max (m.wts + r.lease) (r.pts + r.lease)), hint := r.hint, op := r.op }) ∧
    (m.kind = .fwdGone → exec (.fwdGone tag) s = .next { s with net := Tab.del tag s.net })

/-- R46, R48, R51: an owner that a forward or a discovery reaches answers with the line's data and times; after FWD_S it keeps
a clean shared copy, after FWD_X none. A slice that does not own the line answers FWD_GONE to a forward, and nothing to a
discovery. -/
def Obligations.OwnersAnswer : Prop :=
  ∀ s tag m, s.arriving tag = some m → tag ≠ s.nextTag → s.granting m.region m.line = false →
    let copies := (s.region m.region).copies
    let answered := fun (i : Instr) (keeps : Bool) =>
      (∀ c, Tab.find m.line copies = some c → c.owned = true →
        ∃ s', exec i s = .next s' ∧
          Tab.find m.line (s'.region m.region).copies =
            (if keeps then some { c with owned := false, dirty := false } else none) ∧
          (∀ k, k ≠ m.line → Tab.find k (s'.region m.region).copies = Tab.find k copies) ∧ s'.homes = s.homes ∧
          Sent s s'
            { kind := .answer keeps, line := m.line, region := m.region, tag := m.tag, data := c.data, dirty := c.dirty
              wts := c.wts, rts := c.rts, hint := c.hint })
    let gone := fun (i : Instr) =>
      Tab.find m.line copies = none →
        ∃ s', exec i s = .next s' ∧ s'.regions = s.regions ∧ s'.homes = s.homes ∧
          Sent s s' { kind := .fwdGone, line := m.line, region := m.region, tag := m.tag }
    (m.kind = .fwdS → answered (.fwdS tag) true ∧ gone (.fwdS tag)) ∧
    (m.kind = .fwdX → answered (.fwdX tag) false ∧ gone (.fwdX tag)) ∧
    (∀ excl, m.kind = .disc excl → answered (.disc tag) (!excl) ∧
      (Tab.find m.line copies = none → Tab.has (s.region m.region).wbuf m.line = false →
        exec (.disc tag) s = .next { s with net := Tab.del tag s.net }))

/-- R43, R46 to R49, R53, R60: replies at a region slice, refusals and wakes. The reply's line enters its slice or changes
there and its request is answered; only then do the operations that waited go on, and the slice gives up what it has no room
for (R10). A `.byp` DATA leaves no copy. -/
def Obligations.RepliesAtRegion : Prop :=
  ∀ s tag m, s.arriving tag = some m →
    let old := (s.region m.region).copies
    let keeps := fun (c : Copy) => { c with hint := 0 }
    let quiet := fun (s' : State) => Tab.find tag s'.net = none ∧ (∀ r, r ≠ m.region → s'.region r = s.region r) ∧
      { s' with regions := s.regions, net := s.net } = s
    let becomes := fun (i : Instr) (c : Option Copy) =>
      Tab.find m.line (s.region m.region).asked = some m.tag →
        ∃ s', exec i s = .next (s'.sweepSlice m.region m.line) ∧
          (Tab.find m.line (s'.region m.region).copies).map (fun c => { c with used := 0 }) =
            c.map (fun c => { c with used := 0, hint := m.hint }) ∧
          Tab.find m.line (s'.region m.region).asked = none ∧ quiet s' ∧
          ∀ k, k ≠ m.line → (Tab.find k (s'.region m.region).copies).map keeps = (Tab.find k old).map keeps
    (m.kind = .data → m.hint ≠ 3 → becomes (.data tag) (some { owned := false, data := m.data, wts := m.wts, rts := m.rts })) ∧
    (m.kind = .data → m.hint = 3 → s.memops = [] → Tab.find m.line (s.region m.region).asked = some m.tag →
      ∃ s', exec (.data tag) s = .next (s'.sweepSlice m.region m.line) ∧
        Tab.find m.line (s'.region m.region).asked = none ∧ quiet s' ∧ ∀ k, Tab.find k (s'.region m.region).copies = Tab.find k old) ∧
    (m.kind = .dataX → becomes (.dataX tag) (some { owned := true, data := m.data, wts := m.wts, rts := m.rts })) ∧
    (m.kind = .renew → becomes (.renew tag)
      ((Tab.find m.line old).map fun c => { c with wts := m.wts, rts := m.rts })) ∧
    (m.kind = .grantX → becomes (.grantX tag)
      ((Tab.find m.line old).map fun c => { c with owned := true, wts := m.wts, rts := m.rts })) ∧
    (m.kind = .wbAck → ∃ s', exec (.wbAck tag) s = .next (s'.sweepSlice m.region m.line) ∧
      Tab.find m.line (s'.region m.region).wbuf = none ∧ (s'.region m.region).copies = old ∧ quiet s') ∧
    (∀ r, m.kind = .nack r → tag ≠ s.nextTag → ∃ s', exec (.nack tag) s = .next s' ∧ s'.regions = s.regions ∧
      Sent s s' { kind := .retry r (s.cycle + 16), line := m.line, region := m.region, tag := m.tag }) ∧
    (∀ r due, m.kind = .retry r due → due ≤ s.cycle → tag ≠ s.nextTag →
      ∃ s', exec (.nackRetry tag) s = .next s' ∧ s'.regions = s.regions ∧
        Sent s s' { kind := .req r, line := m.line, region := m.region, tag := m.tag }) ∧
    (∀ i p t th h e, m.kind = .wake i p → s.team? i.team = some t → Tab.find i.n t.threads = some th →
      th.wait = .address h e →
      ∃ s' th', exec (.wake tag) s = .next s' ∧ s'.thread? i = some th' ∧ th'.wait = .ready ∧ th'.pc = th.pc + 12 ∧
        th'.preds = (th.setP p true).preds ∧ th'.regs = th.regs ∧ m.wts ≤ s'.clock t.clockKey ∧ s'.hbm = s.hbm)

/-- R40, R56, R57, R59, R83, R84: lines that pass between the part and the host. A back-invalidate answer lets a dirty line that
is to leave its slice go to memory, and leaves another where it is, no longer held by the host; a fetched host line enters the port at the port clock; a host snoop is answered from the always-powered store or
from the port's line, which then leaves. -/
def Obligations.HostLines : Prop :=
  (∀ s ln l, s.port.snoops.contains ln = true → isHostLine ln = false → s.isLent ln = false →
    Tab.find ln (s.home (homeOf ln)).lines = some l → HomeQuiet s (homeOf ln) →
    (l.leaving = true → l.dirty = true →
      ∃ s', exec (.backInvalidateAnswer ln) s = .next s' ∧ s'.isResident ln = false ∧
        (∀ i, i < 128 → Tab.getD s'.hbm (lineBase ln + i) 0 = Tab.getD l.data i 0) ∧
        (∀ a, a < lineBase ln ∨ lineBase ln + 128 ≤ a → Tab.getD s'.hbm a 0 = Tab.getD s.hbm a 0) ∧
        l.rts ≤ (s'.home (homeOf ln)).mts ∧ s'.hostMem = s.hostMem ∧ s'.teams = s.teams) ∧
    (l.pend = none → ∃ s', exec (.backInvalidateAnswer ln) s = .next s' ∧
      Tab.find ln (s'.home (homeOf ln)).lines = some { l with state := .h, hostHeld := false } ∧
      { s' with
        homes := s.homes, port := s.port, regions := s.regions, net := s.net, nextTag := s.nextTag
        errors := s.errors } = s)) ∧
  (∀ s line, let ln := hostLineBase + line
    s.port.fetching.contains ln = true → HomeQuiet s portHome →
    ∃ s' d, exec (.hostLineFetch line) s = .next s' ∧
      Tab.find ln (s'.home portHome).lines =
        some { data := d, wts := s.clock portClock, rts := s.clock portClock } ∧
      (∀ i, i < 128 → Tab.getD d i 0 = Tab.getD s.hostMem (line * 128 + i) 0) ∧
      (∀ i, i < 16 → lineMark d (8 * i) = (s.badAt (badMem true (line * 128 + 8 * i))).map (· % 256)) ∧
      s'.hostMem = s.hostMem ∧ s'.hbm = s.hbm) ∧
  (∀ s line, let ln := hostLineBase + line
    s.busy.bootFailed = false →
    (∀ d, Tab.find ln s.port.store = some d → ∃ s', exec (.hostSnoop line) s = .next s' ∧
      s'.port.snoopData = some d ∧ s'.port.snoopHit = true ∧ Tab.find ln s'.port.store = none ∧
      ∀ i, i < 128 → Tab.getD s'.hostMem (line * 128 + i) 0 = Tab.getD d i 0) ∧
    (Tab.find ln s.port.store = none → s.isResident ln = false → ∃ s', exec (.hostSnoop line) s = .next s' ∧
      s'.port.snoopData = none ∧ s'.port.snoopHit = false ∧ s'.homes = s.homes ∧ s'.hostMem = s.hostMem) ∧
    (∀ l, Tab.find ln s.port.store = none → Tab.find ln (s.home portHome).lines = some l → l.state = .h →
      s.isLent ln = false → HomeQuiet s portHome →
      ∃ s', exec (.hostSnoop line) s = .next s' ∧ s'.port.snoopData = some l.data ∧ s'.port.snoopHit = true ∧
        s'.isResident ln = false ∧ s'.clock portClock = max (s.clock portClock) (l.rts + 1) ∧
        ∀ i, i < 128 → Tab.getD s'.hostMem (line * 128 + i) 0 = Tab.getD l.data i 0)) ∧
  (∀ s line, s.busy.bootFailed = true → exec (.hostSnoop line) s = .next s)

/-! ### The host's accesses, translation, time -/

/-- R36, R41, R43, R57, R60, R82, R87, R88, R411, R417: what the host and its link do to memory. An address of an HDM window
is the device address that its decoder gives: decoder 0's as it stands, decoder 1's the twelve stack-linear regions in stack
order. A read is performed at the home
at the port clock and leaves the host holding the line; a write changes the bytes enabled and no other, one above the line's
RTS; the bytes of a `.byp` store reach host memory as the
port holds them by then; an I/O read reaches its thread; a scrub changes no data. That every read grants the host a copy is
the model's choice (log 45), and so is the window's place in the address that the event names (log 63); what a DOE answer
holds is its own free value (log 11). -/
def Obligations.HostPort : Prop :=
  (∀ (s : State) a, s.busy.bootFailed = false →
    let lower := Config.stackCount * Config.interleaved
    let region := Config.stackBytes - Config.interleaved
    (a < lower → s.hdmMaps a = some a) ∧
    (∀ stack o, stack < Config.stackCount → o < region → a = lower + stack * region + o →
      s.hdmMaps a = some (linearBase + stack * linearStride + o)) ∧
    (lower + Config.stackCount * region ≤ a → s.hdmMaps a = none)) ∧
  (∀ s a pa len l, let ln := deviceLine pa
    s.hdmMaps a = some pa → s.homePowered ln = true → HomeFree s ln l → lineBadRead l.data (pa % 128) len = none →
    l.wts ≤ l.rts →
    ∃ s', exec (.hostMemRead a len) s = .next s' ∧
      s'.port.readData = (List.range len).map (fun i => Tab.getD l.data (pa % 128 + i) 0) ∧ s'.port.readError = false ∧
      (s'.lineAt ln).hostHeld = true ∧ (s'.lineAt ln).data = l.data ∧ s'.hbm = s.hbm ∧ s'.teams = s.teams ∧
      s'.clock portClock = max (s.clock portClock) l.wts ∧ s'.clock portClock ≤ (s'.lineAt ln).rts) ∧
  (∀ s a pa bytes l, let ln := deviceLine pa
    s.hdmMaps a = some pa → s.homePowered ln = true → HomeFree s ln l →
    NoMarks l.data → pa % 128 + bytes.length ≤ 128 →
    ∃ s', exec (.hostMemWrite a bytes) s = .next s' ∧
      (∀ i, Tab.getD (s'.lineAt ln).data i 0 =
        match if pa % 128 ≤ i then (bytes[i - pa % 128]?).join else none with
        | some v => v
        | none => Tab.getD l.data i 0) ∧
      (s'.lineAt ln).wts = max (s.clock portClock) (l.rts + 1) ∧ (s'.lineAt ln).rts = (s'.lineAt ln).wts ∧
      s'.clock portClock = (s'.lineAt ln).wts + 1 ∧ s'.hbm = s.hbm ∧ s'.teams = s.teams) ∧
  (∀ s tag i pa size v th, Tab.find tag s.port.bypStores = some (i, pa, size, v) → s.thread? i = some th →
    let ln := hostLine pa
    let held := (Tab.find ln s.port.store).or ((Tab.find ln (s.home portHome).lines).map HomeLine.data)
    ∃ s', exec (.hostMemoryWriteDone tag) s = .next s' ∧
      (∀ d, held = some d → Stored s.hostMem s'.hostMem pa size (lineRead d (pa % 128) size)) ∧
      (held = none → s'.hostMem = s.hostMem) ∧ Tab.find tag s'.port.bypStores = none ∧ s'.hbm = s.hbm ∧
      (th.wait ≠ .fenceSys → th.wait ≠ .fenceIo → th.wait ≠ .fenceCode →
        s'.thread? i = some { th with hostOut := th.hostOut.erase tag }) ∧
      (th.wait = .fenceSys → th.peerLost = false → th.peerOut = [] → th.hostOut = [tag] →
        s'.thread? i = some { th with hostOut := [], wait := .ready, pc := BitVec.ofNat 64 (th.pc.toNat + 12) })) ∧
  (∀ s tag data i size op o a m th, Tab.find tag s.port.ioReads = some (i, size, op) → Tab.find tag s.fabric.out = some o →
    o.tid = i → o.acc = some a → Tab.find op s.memops = some m → m.kind = .load → m.accs = [] → m.replies = [tag] →
    m.team = i.team → m.threads = [i.n] → s.thread? i = some th → th.wait = .mem op →
    ∃ s' th', exec (.ioReadReturn tag data) s = .next s' ∧ Tab.find tag s'.port.ioReads = none ∧
      Tab.find tag s'.fabric.out = none ∧ Tab.find op s'.memops = none ∧ s'.thread? i = some th' ∧
      th'.ioOut = th.ioOut.erase tag ∧
      Resumed th th' (th.setVs a.dreg (loadFill a.ty (data % 2 ^ (8 * size))) a.ty.regs).regs th.fpflags m.next) ∧
  (∀ s pa, isBacked pa = true →
    (s.badRead (pa / 64 * 64) 64 = none → exec (.patrolScrub pa) s = .next s) ∧
    (∀ a, s.badRead (pa / 64 * 64) 64 = some a → ∃ s', exec (.patrolScrub pa) s = .next s' ∧
      Tab.getD s'.errors arrHbm 0 = Tab.getD s.errors arrHbm 0 + 1 ∧ { s' with errors := s.errors } = s)) ∧
  (∀ s r, ∃ answer, exec (.doeRequest r) s = .next { s with port := { s.port with doe := s.port.doe ++ [answer] } })

namespace Sys2Proof.Claims

/-- Threads that wait for entry `e` alone are ready to replay, and the entry is free. -/
def Replays (s s' : State) (e : Nat) : Prop :=
  Tab.find e s'.misses = none ∧ s'.hbm = s.hbm ∧ s'.hostMem = s.hostMem ∧
    ∀ (i : Tid) th own va, s.thread? i = some th → th.wait = .walk own va [e] → s'.thread? i = some { th with wait := .ready }

/-- The one thread whose own access joined entry `e` has entered the trap vector, with the address it accessed; the entry is
free. -/
def Denied (s s' : State) (e code info : Nat) : Prop :=
  Tab.find e s'.misses = none ∧ s'.hbm = s.hbm ∧
    ∀ (i : Tid) va t th, s.parkedOn e = [(i, va)] → s.team? i.team = some t → t.near = false → t.stopped = false →
      s.trapVec t ≠ 0 → Tab.find i.n t.threads = some th → th.handler = false →
      s'.hostMem = s.hostMem ∧
        ∃ th', s'.thread? i = some th' ∧ Trapped th th' (s.trapVec t) th.pc.toNat { code, info, addr := va }

/-- MSI-X vector `v` is signalled once. -/
def Signals (i : Instr) (v : Nat) : Prop :=
  ∀ s, s.port.msix.contains v = true → ∃ s', exec i s = .next s' ∧ s'.port.msix = s.port.msix.erase v ∧
    Tab.getD s'.port.signalled v 0 = Tab.getD s.port.signalled v 0 + 1 ∧
    { s' with port := { s'.port with msix := s.port.msix, signalled := s.port.signalled } } = s

end Sys2Proof.Claims

/-- R28, R30, R31: a walk's end. A leaf is installed and every requester replays; a malformed entry denies (PROTECTION, 5);
a page that is not valid writes a fault record with the slot's next SEQ, queues MSI-X vector 1 and parks its requesters until
the host's reply: RETRY lets them replay, FAIL denies (PROTECTION, 7), and a reply to no outstanding record is ignored. -/
def Sys2Proof.Claims.WalksAndReplies : Prop :=
  (∀ s die entry m s1 time, let e := die * 4096 + entry
    let i := Instr.walkComplete die entry
    Tab.find e s.misses = some m → m.reported = false →
    (∀ size pte, s.walkFrom m.ctx m.va = (s1, .leaf size pte, time) → ∃ s', exec i s = .next s' ∧ Replays s1 s' e ∧
      let entry : TlbEntry := { ctx := m.ctx, va := m.va / size * size, size, pte, time }
      (∀ r ∈ m.joined, entry ∈ Tab.getD s'.tlbs (s1.tlbOf (e / 4096) r) []) ∧
      (m.joined = [] → entry ∈ Tab.getD s'.tlbs (dieTlb (e / 4096)) [])) ∧
    (s.walkFrom m.ctx m.va = (s1, .malformed, time) → ∃ s', exec i s = .next s' ∧ Denied s1 s' e 0x06 5) ∧
    (s.walkFrom m.ctx m.va = (s1, .absent, time) → ∃ s', exec i s = .next s' ∧
      let seq := (Tab.getD s1.slotSeq e 0 + 1) % 2 ^ 32
      Tab.find e s'.misses = some { m with reported := true } ∧ Tab.getD s'.slotSeq e 0 = seq ∧
        Stored s1.hostMem s'.hostMem (Bits.field (s1.reg 0x100208) 8 44 * 2 ^ 8 + 32 * e) 32 (faultRecord m e seq) ∧
        s'.port.msix = s1.port.msix ++ [1] ∧
        ∀ j th va all, s1.thread? j = some th → th.wait = .walk (some e) va all →
          s'.thread? j = some { th with
            wait := .walk (some e) va [e], release := none, spins := th.spins.map fun x => { x with changed := true } })) ∧
  Signals .faultMsixSignal 1 ∧
  (∀ s slot seq,
    (∀ m, Tab.find slot s.misses = some m → m.reported = true → Tab.getD s.slotSeq slot 0 = seq →
      (∃ s', exec (.fltreplyRetry slot seq) s = .next s' ∧ Replays s s' slot) ∧
      ∃ s', exec (.fltreplyFail slot seq) s = .next s' ∧ Denied s s' slot 0x06 7) ∧
    (Tab.find slot s.misses = none ∨ Tab.getD s.slotSeq slot 0 ≠ seq →
      exec (.fltreplyRetry slot seq) s = .next s ∧ exec (.fltreplyFail slot seq) s = .next s))

/-- R28, R29, R297, R371: misses held for want of an entry and instructions that wait only for timing are tried again, the
latter by all threads of a partition that wait for the same at the same address; TLBINV holds
its request with BUSY until no TLB and no access uses a translation it names. -/
def Sys2Proof.Claims.RetriesAndInvalidation : Prop :=
  (∀ s die, ∃ s', exec (.pendingMissRetry die) s = .next s' ∧ (∀ i, s'.thread? i = (s.thread? i).map fun th =>
      if th.wait = .missFull die then { th with wait := .ready } else th) ∧
    (∀ k, (s'.team? k).map shell = (s.team? k).map shell) ∧ { s' with teams := s.teams } = s) ∧
  (∀ s team n t th, s.team? team = some t → Tab.find n t.threads = some th →
    (th.wait = .replay ∨ th.wait = .matrix ∨ th.wait = .galley ∨
      t.mayReplay th = true ∧ ((∃ ln m, th.wait = .turn ln m) ∨ ∃ pc ns, th.wait = .along pc ns)) →
    ∃ s', exec (.instructionReplay team n) s = .next s' ∧ OnlyTeam s s' team ∧
      (∀ m u, Tab.find m t.threads = some u → s'.thread? { team, n := m } =
        some (if t.part m = t.part n ∧ u.wait = th.wait ∧ u.pc = th.pc then { u with wait := .ready } else u)) ∧
      (s'.team? team).map shell = some (shell t)) ∧
  (∀ s ctx va size,
    let starts := fun (i : Instr) (v : Nat) =>
      (∀ b, s.busy.tlbinv = some b → exec i s = .next s) ∧
      (s.busy.tlbinv = none → ∃ s', exec i s = .next s' ∧ s'.busy.tlbinv = some v ∧ s'.reg 0x100200 = v + 2 ^ 10 ∧
        { s' with win := s.win, busy := s.busy } = s)
    starts (.tlbinvRange ctx va size) (Bits.field va 12 45 * 2 ^ 12 + size % 4 * 2 ^ 8 + ctx % 64) ∧
    starts (.tlbinvWhole ctx) (2 ^ 7 + ctx % 64) ∧ starts .tlbinvAllctx (2 ^ 6)) ∧
  (∀ s v, s.busy.tlbinv = some v → s.usesMatching v = false → ∃ s', exec .tlbinvComplete s = .next s' ∧
    s'.busy.tlbinv = none ∧ s'.reg 0x100200 = v % 2 ^ 64 ∧
    (∀ k e, e ∈ Tab.getD s'.tlbs k [] ↔ e ∈ Tab.getD s.tlbs k [] ∧ tlbinvMatches v e.ctx e.va e.size = false) ∧
    { s' with win := s.win, busy := s.busy, tlbs := s.tlbs } = s)

/-- R28 to R31, R371: walks, fault records and replies, retries, invalidation. That a translation keeps the time of its walk
(log 20), and that the threads of a partition that wait for the same at one address are tried together (log 41), are the
model's readings. -/
def Obligations.PageWalks : Prop := WalksAndReplies ∧ RetriesAndInvalidation

namespace Sys2Proof.Claims

/-- A table of times after the rebase. -/
def Lowered (t t' : Tab Nat) : Prop := Tab.sorted t = true → ∀ k, Tab.getD t' k 0 = Tab.getD t k 0 - 2 ^ 61

/-- `s'` is `s` with the times of homes, region slices, formes and platens 2^61 lower, shared copies dropped, data kept. -/
def MemoryRebased (s s' : State) : Prop :=
  (∀ h, (s'.home h).mts = (s.home h).mts - 2 ^ 61) ∧
  (∀ h ln l, Tab.find ln (s.home h).lines = some l → ∃ l', Tab.find ln (s'.home h).lines = some l' ∧
    l'.wts = l.wts - 2 ^ 61 ∧ l'.rts = l.rts - 2 ^ 61 ∧ l'.data = l.data ∧ l'.state = l.state) ∧
  (∀ r ln c, Tab.find ln (s'.region r).copies = some c → c.owned = true) ∧
  (∀ r ln c, Tab.find ln (s.region r).copies = some c → c.owned = true →
    Tab.find ln (s'.region r).copies = some { c with wts := c.wts - 2 ^ 61, rts := c.rts - 2 ^ 61 }) ∧
  (∀ k f, Tab.find k s.formes = some f → ∃ f', Tab.find k s'.formes = some f' ∧ f'.data = f.data ∧ f'.full = f.full ∧
    Lowered f.wts f'.wts ∧ Lowered f.rts f'.rts ∧ Lowered f.objTime f'.objTime ∧ Lowered f.flipTime f'.flipTime) ∧
  (∀ k p, Tab.find k s.platens = some p → ∃ p', Tab.find k s'.platens = some p' ∧ p'.mem = p.mem - 2 ^ 61 ∧
    (∀ ln, Tab.find ln p'.wts = (Tab.find ln p.wts).map (· - 2 ^ 61)) ∧
    (∀ ln, Tab.find ln p'.rts = (Tab.find ln p.rts).map (· - 2 ^ 61)) ∧
    ∀ c, Tab.find c p'.calls = (Tab.find c p.calls).map fun c =>
      { c with time := c.time - 2 ^ 61, returned := c.returned - 2 ^ 61 }) ∧
  s'.hbm = s.hbm ∧ s'.hostMem = s.hostMem

/-- `s'` is `s` with the times that agents, launches, imprints and translations hold 2^61 lower, all else about them kept. -/
def AgentsRebased (s s' : State) : Prop :=
  Lowered s.clocks s'.clocks ∧ Lowered s.doneTimes s'.doneTimes ∧
  (∀ k, Tab.find k s'.jobs =
    (Tab.find k s.jobs).map fun j => { j with clock := j.clock - 2 ^ 61, endTime := j.endTime - 2 ^ 61 }) ∧
  (∀ k, Tab.find k s'.launches =
    (Tab.find k s.launches).map fun l => { l with time := l.time - 2 ^ 61, after := l.after - 2 ^ 61 }) ∧
  (∀ k, Tab.find k s'.imprints = (Tab.find k s.imprints).map fun e => { e with time := e.time - 2 ^ 61 }) ∧
  (∀ k, Tab.find k s'.boundaries = (Tab.find k s.boundaries).map fun b => { b with time := b.time - 2 ^ 61 }) ∧
  (∀ k, Tab.getD s'.tlbs k [] = (Tab.getD s.tlbs k []).map fun (e : TlbEntry) => { e with time := e.time - 2 ^ 61 }) ∧
  (∀ q, Tab.getD s'.devQueues q [] =
    (Tab.getD s.devQueues q []).map fun (r : DevRecord) => { r with time := r.time - 2 ^ 61 }) ∧
  ∀ i, s'.thread? i = (s.thread? i).map fun th => { th with seen := th.seen.map fun q => (q.1, q.2 - 2 ^ 61) }

end Sys2Proof.Claims

/-- R41, R45, R330, R356 to R359, R377, R378: a tick raises every running clock by one; the rebase lowers every time by 2^61,
drops shared copies and keeps owned data; a power window grants each partition at least 64 starts; threads become urgent at
age 512; deferrals and demotions end; the watchdog warns once. -/
def Obligations.PassingTime : Prop :=
  (∀ s, s.ticks < s.cycle / 64 → ∃ s', exec .clockTick s = .next s' ∧
    (∀ k, s'.clock k = if k ∈ s.tickingClocks then s.clock k + 1 else s.clock k) ∧ s'.ticks = s.ticks + 1 ∧
    { s' with clocks := s.clocks, ticks := s.ticks } = s) ∧
  (∀ s k, s.busy.rebase = false → 2 ^ 62 - 2 ^ 20 ≤ s.clock k →
    exec .clockRebase s = .next { s with busy := { s.busy with rebase := true } }) ∧
  (∀ s, s.busy.rebase = true → s.rebaseReady = true →
    ∃ s', exec .rebaseComplete s = .next s' ∧ s'.busy = { s.busy with rebase := false } ∧ MemoryRebased s s' ∧
      AgentsRebased s s') ∧
  (∀ s die, s.hasPower die = true → Tab.getD s.windows die 0 ≤ s.cycle → ∃ s', exec (.powerWindow die) s = .next s' ∧
    64 ≤ Tab.getD s'.grants die 0 ∧ (Tab.getD s.throttled die false = true → Tab.getD s'.grants die 0 = 64) ∧
    (∀ k, dieOf (k / 4) = die → Tab.getD s'.starts k 0 = 0) ∧
    Tab.getD s'.windows die 0 = (s.cycle / 2700 + 1) * 2700 ∧ s'.teams = s.teams) ∧
  (∀ (s : State) core part (i : Tid) t th, s.team? i.team = some t → Tab.find i.n t.threads = some th → t.place = .core core →
    t.part i.n = part → 512 ≤ th.age → th.urgent = false →
    ∃ s', exec (.ageUrgent core part) s = .next s' ∧ (∀ (j : Tid) tj u, s.team? j.team = some tj → s.thread? j = some u →
        s'.thread? j = some { u with
          urgent := u.urgent || (decide (tj.place = .core core) && decide (tj.part j.n = part) && decide (512 ≤ u.age)) }) ∧
      (∀ k, (s'.team? k).map shell = (s.team? k).map shell) ∧ { s' with teams := s.teams } = s) ∧
  (∀ s team n th due, s.thread? { team, n } = some th → due ≤ s.cycle →
    let becomes := fun (i : Instr) (th' : Thread) => ∃ s', exec i s = .next s' ∧
      s'.thread? { team, n } = some th' ∧ (∀ j : Tid, j ≠ { team, n } → s'.thread? j = s.thread? j) ∧
      { s' with teams := s.teams } = s
    (th.deferred = some due → becomes (.yieldExpire team n) { th with deferred := none }) ∧
    (th.demoted = some due → becomes (.demotionExpire team n) { th with
      demoted := none, spins := th.spins.map fun x => { x with demotes := false } })) ∧
  (∀ s k l, let limit := s.reg 0x105010 % 2 ^ 16
    Tab.find k s.launches = some l → limit ≠ 0 → l.warned = false → l.idleSince + limit * 2 ^ 20 ≤ s.cycle →
    ∃ s', exec (.watchdog k) s = .next s' ∧ Tab.find k s'.launches = some { l with warned := true } ∧
      s'.teams = s.teams ∧ s'.hbm = s.hbm ∧
      (Bits.bit (s.reg 0x105008) 31 = false → s'.hostMem = s.hostMem) ∧
      (Bits.bit (s.reg 0x105008) 31 = true →
        (Bits.field (s.reg 0x105008) 16 12 + 1) % 4096 ≠ Bits.field (s.reg 0x105008) 0 12 →
        s'.port.msix = s.port.msix ++ [3] ∧
          Stored s.hostMem s'.hostMem (s.reg 0x105000 / 4096 * 4096 + 64 * Bits.field (s.reg 0x105008) 16 12) 64
            (HostEvent.bits { kind := 5, code := 0x23, launch := l.id }))) ∧
  Signals .eventMsixSignal 3

/-! ### Jobs at their engines -/

/-- R73, R103, R111, R114 to R120: a job without edges starts, where none of its engine goes before it; a copy reads a source line at its home and writes a destination line
there, its bytes and no other; at its end its status is in every register that held its handle, and no job waits for it; one
that stopped early leaves the forme lines it did not deliver faulted. -/
def Obligations.JobRuns : Prop :=
  (∀ s k j, Tab.find k s.jobs = some j → j.edges = [] → j.started = false → j.ended = none → s.outranked j = false →
    exec (.jobStart k) s = .next { s with jobs := Tab.put k { j with started := true } s.jobs }) ∧
  (∀ s k j ln pa l, s.acting k = some j → j.kind = .copy → j.denied = none → j.nextRead = .ok (some ln) →
    s.lineSite k j (ln * 128) 4 = .ok (s, .device pa) → HomeFree s (deviceLine pa) l →
    s.homePowered (deviceLine pa) = true → lineBad l.data = none → l.wts ≤ l.rts →
    ∃ s', exec (.engineLineRead k) s = .next s' ∧
      Tab.find k s'.jobs = some { j with
        buf := Tab.put ln l.data j.buf, clock := max j.clock l.wts, endTime := max j.endTime (max j.clock l.wts) } ∧
      (s'.lineAt (deviceLine pa)).data = l.data ∧ (s'.lineAt (deviceLine pa)).wts = l.wts ∧
      max j.clock l.wts ≤ (s'.lineAt (deviceLine pa)).rts ∧ s'.hbm = s.hbm ∧ s'.teams = s.teams) ∧
  (∀ s k j ln ps bs, s.acting k = some j → j.kind = .copy → j.denied = none → j.nextRead = .ok none →
    j.complete = false → (planOf j.kind j.card)[j.done]? = some (ln, ps) → j.nextBytes ln ps = some bs → j.object = none →
    let wrote := fun (s' : State) (time : Nat) => exec (.engineLineWrite k) s = .next s' ∧ s'.hbm = s.hbm ∧
      Tab.find k s'.jobs = some { j with done := j.done + 1, clock := time, endTime := max j.endTime time }
    (∀ pa l, s.lineSite k j (ln * 128) 5 = .ok (s, .device pa) → HomeFree s (deviceLine pa) l →
      s.homePowered (deviceLine pa) = true → NoMarks l.data → (∀ p ∈ bs, p.2.1 ≤ 128) →
      ∃ s', wrote s' (max j.clock (l.rts + 1)) ∧ s'.teams = s.teams ∧
        (s'.lineAt (deviceLine pa)).data = patch l.data bs ∧
        (∀ b, (∀ p ∈ bs, b < p.1 ∨ p.2.1 ≤ b) → Tab.getD (s'.lineAt (deviceLine pa)).data b 0 = Tab.getD l.data b 0) ∧
        (s'.lineAt (deviceLine pa)).wts = max j.clock (l.rts + 1)) ∧
    (∀ f off fm, s.lineSite k j (ln * 128) 5 = .ok (s, .forme f off) → Tab.find f s.formes = some fm → s.bad = [] →
      fm.taggedAt (off / 128 * 128) 128 = none → Tab.find (off / 128) fm.writer = some k →
      ∃ s' time, wrote s' time ∧ j.clock ≤ time ∧ (s'.forme f).presence (off / 128) = 0 ∧
        ∀ a, a < off / 128 * 128 ∨ off / 128 * 128 + 128 ≤ a → (∀ p ∈ bs, p.2.1 ≤ 128) →
          Tab.getD (s'.forme f).data a 0 = Tab.getD fm.data a 0)) ∧
  (∀ s k j, Tab.find k s.jobs = some j →
    let ends := fun (status : Nat) (s' : State) => exec (.jobEnd k) s = .next s' ∧ Tab.find k s'.jobs = none ∧
      (∀ m b, m ≠ k → Tab.find m s.jobs = some b → ∃ b', Tab.find m s'.jobs = some b' ∧ b'.edges = b.edges.erase k) ∧
      s'.hbm = s.hbm ∧ (∀ l, Tab.find j.launch s.launches = some l →
        (Tab.find j.launch s'.launches).map Launch.time = some (max l.time j.endTime)) ∧
      ∀ i th, s.thread? i = some th → Tab.sorted th.pend = true → ∃ th', s'.thread? i = some th' ∧
        ∀ n, Tab.find n th.pend = some k → Tab.find n th'.pend = none ∧ th'.v n = BitVec.ofNat 32 status
    (j.kind ≠ .coll → j.started = true → j.complete = true → j.ended = none →
      ∃ s', ends 0 s' ∧ s'.formes = s.formes ∧ s'.hostMem = s.hostMem ∧
        ∀ i th, s.thread? i = some th → th.wait = .future k → (s'.thread? i).map Thread.wait = some .ready) ∧
    (∀ status, j.kind ≠ .coll → j.ended = some status → 2 ^ 24 ≤ status → j.object = none →
      ∃ s', ends status s' ∧ ∀ p ∈ s.formeLines j.cluster j.kind j.card,
        Tab.find p.2 (s.forme p.1).writer = some k → (s'.forme p.1).presence p.2 = 2))

/-! ### Platen calls and the fabric -/

/-- R62, R80, R264, R265, R271, R272, R275 to R279: a call's steps. Packets for its lines come first; a dirty range line is
written to memory; the loan raises the platen clock above the lines' times; a team of sixteen threads starts at ENTRY with
the argument words, the header read once; a fault drops the call's teams; after the last team no range line stands at home and
its slice's MTS is at least the return time; the return writes the
record and arrives on the object. That the record is written whatever the tags of its words and whether or not its line is
present is the model's choice (log 55). A queued packet changes its word in memory. -/
def Obligations.PlatenCalls : Prop :=
  ∀ s stack call c,
    let callOf := fun (s' : State) => s'.call? stack call
    let clk := platenClock stack
    (s.callIn stack call .drain = some c →
      let waiting := (∃ p ∈ s.fabric.homePackets, c.covers (deviceLine p.2.pa) = true) ∨
        ∃ p ∈ s.fabric.inbound, (∃ sub ty, p.1.op = .red sub ty) ∧ c.covers (deviceLine p.1.pa) = true
      (waiting → exec (.platenCallDrain stack call) s = .next s) ∧
      (¬waiting →
        ∃ s', exec (.platenCallDrain stack call) s = .next s' ∧ callOf s' = some { c with phase := .writeback } ∧
          { s' with platens := s.platens } = s)) ∧
    (∀ ln l, s.callIn stack call .writeback = some c → s.residentRange stack c = [ln] → HomeFree s ln l →
      s.homePowered ln = true →
      ∃ s', exec (.platenCallWriteback stack call) s = .next s' ∧ callOf s' = some { c with phase := .loan } ∧
        (s'.lineAt ln).dirty = false ∧ (s'.lineAt ln).data = l.data ∧
        (∀ i, i < 128 → Tab.getD s'.hbm (lineBase ln + i) 0 =
          if l.dirty then Tab.getD l.data i 0 else Tab.getD s.hbm (lineBase ln + i) 0) ∧
        ∀ a, a < lineBase ln ∨ lineBase ln + 128 ≤ a → Tab.getD s'.hbm a 0 = Tab.getD s.hbm a 0) ∧
    (s.callIn stack call .loan = some c → s.flushRange stack c = (s, true) → c.lines ≠ [] →
      (∀ p ∈ (s.platen stack).calls, p.2.phase = .run → runsMeet c.lines p.2.lines = false) →
      ∃ s', exec (.platenCallLoan stack call) s = .next s' ∧ callOf s' = some { c with phase := .run } ∧
        (∀ ln, c.covers ln = true → s'.isLent ln = true) ∧ c.time ≤ s'.clock clk ∧ s.clock clk ≤ s'.clock clk ∧
        (∀ ln ∈ s.residentRange stack c, (s.lineAt ln).rts < s'.clock clk) ∧
        (∀ ln, c.covers ln = true → s.isResident ln = false → homeOf ln / 12 = stack →
          (s.home (homeOf ln)).mts < s'.clock clk) ∧
        s'.hbm = s.hbm ∧ s'.homes = s.homes ∧ (s.memops = [] → { s' with platens := s.platens, clocks := s.clocks } = s)) ∧
    (∀ hdr core, let va := Bits.ofInt 64 ((callEntry c.card : Int) - 16)
      let isRead := ∃ pa, (s.translate (callAsker stack call c) va = (s, .ok (.platen pa)) ∨
        s.translate (callAsker stack call c) va = (s, .ok (.device pa))) ∧ linearStack pa = some stack ∧
        s.packetsFor pa = false ∧ s.badRead pa 4 = none ∧ readBytes s.hbm pa 4 = hdr ∧
        nearHeaderOk hdr (callArgw c.card) = true
      s.callIn stack call .run = some c → c.stopping = false → c.started < callTeams c.card →
      (∀ p ∈ (s.platen stack).calls, p.1 < call → p.2.phase ≠ .run) → c.hdr = some hdr ∨ (c.hdr = none ∧ isRead) →
      s.nearRoom stack (8 * Bits.field hdr 8 8) = some core →
      ∃ s' t, exec (.platenTeamPlace stack call) s = .next s' ∧
        callOf s' = some { c with started := c.started + 1, hdr := some hdr } ∧
        s'.team? s.nextKey = some t ∧ t.place = .near stack core call ∧ t.x = c.started ∧ t.y = 0 ∧ t.z = 0 ∧ t.dim = 16 ∧
        t.base = 8 * Bits.field hdr 8 8 ∧ t.system = false ∧ s'.hbm = s.hbm ∧
        ∀ n, n < 16 → ∃ th, Tab.find n t.threads = some th ∧ th.pc = BitVec.ofNat 64 (callEntry c.card) ∧
          th.live = true ∧ th.wait = .ready ∧ th.preds = 0 ∧ th.fpflags = 0 ∧
          ∀ i, th.v i = BitVec.ofNat 32 ((c.args[i]?).getD 0)) ∧
    (callOf s = some c → c.stopping = true → c.started < callTeams c.card → Tab.sorted s.teams = true →
      ∃ s', exec (.platenCallFault stack call) s = .next s' ∧
        callOf s' = some { c with started := callTeams c.card, returned := s.clock clk } ∧
        ∀ k t, s.team? k = some t → s'.team? k =
          match t.place with
          | .near st _ d => if st = stack ∧ d = call then none else some t
          | .core _ => some t) ∧
    (s.callIn stack call .run = some c → s.callTeamsOf stack call = [] → callTeams c.card ≤ c.started →
      (∀ i, i < 12 → HomeQuiet s (stack * 12 + i) ∧ (s.home (stack * 12 + i)).waits = []) →
      ∃ s', exec (.platenCallInvalidate stack call) s = .next s' ∧ callOf s' = some { c with phase := .ret } ∧
        (∀ ln, c.covers ln = true → homeOf ln / 12 = stack → s'.isResident ln = false) ∧
        (∀ ln, c.covers ln = true → homeOf ln / 12 = stack → c.returned ≤ (s'.home (homeOf ln)).mts) ∧
        s'.hbm = s.hbm ∧ s'.teams = s.teams) ∧
    (∀ k off f, s.callIn stack call .ret = some c → c.object = some (k, off) → Tab.find k s.formes = some f →
      f.tagged off = true → s.objWaiters k off = [] → 1 ≤ (f.obj off).parr → s.badUnits k off 16 false = false →
      ∃ s', exec (.platenCallReturn stack call) s = .next s' ∧ callOf s' = none ∧
        (s'.forme k).obj off = arrived (f.obj off) 1 ∧
        (∀ i, i < 16 → Tab.getD (s'.forme k).data (off + 16 + i) 0 = BitVec.ofNat 8 (c.record / 256 ^ i)) ∧
        ∀ a, a < off ∨ off + 32 ≤ a → Tab.getD (s'.forme k).data a 0 = Tab.getD f.data a 0) ∧
    (∀ index p, (s.platen stack).packets[index]? = some p →
      (∀ r ∈ (s.platen stack).packets.take index, r.pa + r.size ≤ p.pa ∨ p.pa + p.size ≤ r.pa) → s.memops = [] →
      s.earlierPacket p = false → s.badRead p.pa p.size = none →
      ∃ s', exec (.platenPacketApply stack index) s = .next s' ∧
        (s'.platen stack).packets = (s.platen stack).packets.eraseIdx index ∧ s'.teams = s.teams ∧
        Stored s.hbm s'.hbm p.pa p.size (atomNew p.sub p.ty (readBytes s.hbm p.pa p.size) p.value p.compare).1)

/-- R280, R282, R285, R292, R419: a port of a powered die trains or is held down; a plane that goes down loses the writes
outstanding on it, to be told at the thread's next `fence.sys`, and ends the collective jobs that await it. A training that
fails on an up plane takes the plane down in the same way. -/
def Sys2Proof.Claims.Links : Prop :=
  (∀ (s : State) port good, port < 128 →
    (good = true → s.hasPower (port / 64) = true → ∃ s', exec (.linkTrain port good) s = .next s' ∧
      (∀ p, Tab.getD s'.fabric.up p false = (p == port || Tab.getD s.fabric.up p false)) ∧
      { s' with fabric := { s'.fabric with up := s.fabric.up } } = s) ∧
    (good = false ∨ s.hasPower (port / 64) = false →
      (Tab.getD s.fabric.up port false = false → exec (.linkTrain port good) s = .next s) ∧
      (Tab.getD s.fabric.up port false = true → exec (.linkTrain port good) s = exec (.linkDown port) s))) ∧
  (∀ s port tag o th, Tab.getD s.fabric.up port false = true → s.fabric.out = [(tag, o)] → o.plane = port →
    o.write = true → o.op = none → o.job = none → Tab.has s.port.ioReads tag = false → s.thread? o.tid = some th → th.live = true →
    th.wait = .ready → (∀ p ∈ s.jobs, p.2.awaitsPlane port = false) →
    ∃ s', exec (.linkDown port) s = .next s' ∧ Tab.getD s'.fabric.up port false = false ∧ s'.fabric.out = [] ∧
      s'.fabric.lost = s.fabric.lost + 1 ∧ s'.hbm = s.hbm ∧ s'.jobs = s.jobs ∧
      s'.thread? o.tid = some { th with peerLost := true, peerOut := th.peerOut.erase tag }) ∧
  (∀ s port k j, Tab.getD s.fabric.up port false = true → s.fabric.out = [] → s.jobs = [(k, j)] →
    j.awaitsPlane port = true →
    ∃ s', exec (.linkDown port) s = .next s' ∧ (∃ j', Tab.find k s'.jobs = some j' ∧
      j'.ended = some (0x06 * 2 ^ 24 + 13 * 2 ^ 16 + j.lines)) ∧ s'.teams = s.teams ∧ s'.hbm = s.hbm)

/-- R85, R281 to R284: inbound peer accesses. A module without an identifier refuses all (PROTECTION, 13), counting each
and answering loads and atomics; while no earlier access waits, one of device kind takes place at its home, a reduction waits as a packet of its
die or of its platen, in order of arrival. -/
def Sys2Proof.Claims.InboundPeers : Prop :=
  ∀ s req,
    let answers := fun (s' : State) (r : PeerReply) => s'.fabric.answers = s.fabric.answers ++ [(req.tag, r)]
    let ln := deviceLine req.pa
    (∀ kind, s.modId = 0x3FF → ∃ s', exec (.peerRequestReceive req kind) s = .next s' ∧
      s'.fabric.refused = s.fabric.refused + 1 ∧ s'.hbm = s.hbm ∧ s'.homes = s.homes ∧ s'.teams = s.teams ∧
      (isAnswered req.op = true → answers s' (.refusal 13)) ∧
      (isAnswered req.op = false → s'.fabric.answers = s.fabric.answers)) ∧
    (s.wayUp req = true → s.fabric.inbound = [] → isBacked req.pa = true → s.homePowered ln = true →
      let packet := fun (sub : Nat) (ty : Ty) => { peerPacket req sub ty with seq := s.fabric.arrivals }
      (∀ sub ty, req.op = .red sub ty →
        (∃ s', exec (.peerRequestReceive req 0) s = .next s' ∧ s'.fabric.homePackets =
          s.fabric.homePackets ++ [(dieOfStack (stackOf req.pa), packet sub ty)] ∧ s'.hbm = s.hbm ∧
          s'.homes = s.homes) ∧
        ((s.platen (stackOf req.pa)).packets.length < 256 →
          ∃ s', exec (.peerRequestReceive req 3) s = .next s' ∧ (s'.platen (stackOf req.pa)).packets =
            (s.platen (stackOf req.pa)).packets ++ [packet sub ty] ∧ s'.hbm = s.hbm ∧ s'.homes = s.homes)) ∧
      (∀ l, (∀ sub ty, req.op ≠ .red sub ty) → (∀ p ∈ s.fabric.homePackets, deviceLine p.2.pa ≠ ln) → HomeFree s ln l →
        s.packetOf (requestSender req) = false → NoMarks l.data → req.pa % 128 + req.size ≤ 128 →
        let eff := peerEffect req (lineRead l.data (req.pa % 128) req.size)
        ∃ s', exec (.peerRequestReceive req 0) s = .next s' ∧ answers s' eff.2 ∧ s'.hbm = s.hbm ∧ s'.teams = s.teams ∧
          (s'.lineAt ln).data = (match eff.1 with
            | some v => lineWrite l.data (req.pa % 128) req.size v
            | none => l.data) ∧
          (eff.1.isSome = true → (s'.lineAt ln).wts =
            max (s.clock (collClock (dieOfStack (stackOf req.pa)))) (l.rts + 1))))

/-- R87, R283 to R285: a peer's value, refusal or acknowledgement reaches the thread that waits for it. -/
def Sys2Proof.Claims.PeerAnswers : Prop :=
  ∀ s tag o th, Tab.find tag s.fabric.out = some o → s.thread? o.tid = some th → s.modId ≠ 0x3FF →
    (∀ op a m v, o.op = some op → o.acc = some a → Tab.find op s.memops = some m → m.accs = [] → m.replies = [tag] →
      m.team = o.tid.team → m.threads = [o.tid.n] → th.wait = .mem op →
      (m.kind = .load → ∃ s' th', exec (.peerReplyReceive tag (.value v)) s = .next s' ∧ Tab.find tag s'.fabric.out = none ∧
        Tab.find op s'.memops = none ∧ s'.thread? o.tid = some th' ∧
        Resumed th th' (th.setVs a.dreg (loadFill a.ty v) a.ty.regs).regs th.fpflags m.next) ∧
      (∀ t r, s.team? o.tid.team = some t → t.near = false → t.stopped = false → s.trapVec t ≠ 0 → th.handler = false →
        ∃ s' th', exec (.peerReplyReceive tag (.refusal r)) s = .next s' ∧ Tab.find tag s'.fabric.out = none ∧
          Tab.find op s'.memops = none ∧ s'.thread? o.tid = some th' ∧
          Trapped th th' (s.trapVec t) th.pc.toNat { code := 0x06, info := r, addr := o.va })) ∧
    (o.write = true → o.op = none → ∃ s', exec (.peerAckReceive tag) s = .next s' ∧ Tab.find tag s'.fabric.out = none ∧
      (th.wait ≠ .fenceSys → th.wait ≠ .fenceIo → th.wait ≠ .fenceCode →
        s'.thread? o.tid = some { th with peerOut := th.peerOut.erase tag }) ∧
      (th.wait = .fenceSys → th.peerLost = false → th.peerOut = [tag] → th.hostOut = [] →
        s'.thread? o.tid = some { th with peerOut := [], wait := .ready, pc := BitVec.ofNat 64 (th.pc.toNat + 12) }))

/-- R284, R286, R287, R291, R292: a queued reduction packet is applied at its home and acknowledged; a collective job keeps
each summed element group and ends with COLL_ABORT (12) or COLL_MISMATCH (14); a reduction group's register keeps its
defined fields, and EN resets its sequence number. -/
def Sys2Proof.Claims.Reductions : Prop :=
  (∀ s die index p l src tag,
    let mine := fun (s : State) => (s.fabric.homePackets.filter fun q => q.1 == die).map (·.2)
    let ln := deviceLine p.pa
    let v := (atomNew p.sub p.ty (lineRead l.data (p.pa % 128) p.size) p.value p.compare).1
    (mine s)[index]? = some p → (∀ r ∈ (mine s).take index, r.pa + r.size ≤ p.pa ∨ p.pa + p.size ≤ r.pa) →
    p.reply = some (src, tag) → HomeFree s ln l → s.homePowered ln = true → s.earlierPacket p = false →
    s.heldByCall ln = false → NoMarks l.data → p.pa % 128 + p.size ≤ 128 → s.fabric.inbound = [] →
    s.planeUp (p.plane.getD s.modId) = true →
    ∃ s', exec (.reductionPacketApply die index) s = .next s' ∧
      (s'.lineAt ln).data = lineWrite l.data (p.pa % 128) p.size v ∧
      (s'.lineAt ln).wts = max (s.clock (collClock (dieOfStack (stackOf p.pa)))) (l.rts + 1) ∧
      mine s' = (mine s).eraseIdx index ∧ s'.fabric.answers = s.fabric.answers ++ [(tag, .ack)] ∧ s'.hbm = s.hbm ∧
      s'.teams = s.teams) ∧
  (∀ s job j, Tab.find job s.jobs = some j → j.kind = .coll → j.ended = none → s.modId ≠ 0x3FF →
    (∀ g vals, g < j.sent → Tab.find g j.recvd = none → s.groupPlane j g = true →
      ∃ s', exec (.collResultReceive job g vals) s = .next s' ∧
        Tab.find job s'.jobs = some { j with recvd := Tab.put g (s.groupSum j g vals) j.recvd } ∧ { s' with jobs := s.jobs } = s) ∧
    (∀ mismatch n, s.abortable job j mismatch = true → n < 128 → s.planeUp n = true → ∃ s', exec (.collAbortReceive job mismatch) s = .next s' ∧
      Tab.find job s'.jobs = some { j with
        ended := some (0x06 * 2 ^ 24 + (if mismatch then 14 else 12) * 2 ^ 16 + j.lines), faultAddr := 0 } ∧
      { s' with jobs := s.jobs } = s)) ∧
  (∀ (s : State) g (v : DWord), g < 1024 → ∃ s', exec (.cgrptabWrite g v) s = .next s' ∧
    s'.reg (0x101000 + 8 * g) = v.toNat % 2 ^ 10 + Bits.field v.toNat 11 10 * 2 ^ 11 + Bits.field v.toNat 31 1 * 2 ^ 31 ∧
    (∀ h, Tab.find h s'.fabric.jseq = if h = g ∧ Bits.bit v.toNat 31 = true then none else Tab.find h s.fabric.jseq) ∧
    s'.teams = s.teams ∧ s'.hbm = s.hbm)

/-- R85, R87, R280 to R287, R291, R292: links, peer traffic, reductions. That the KIND of the page and the other members' values
arrive with their events, that a request names its thread and, for an element of a collective's packet, its plane (log 15), and
that the accesses of one thread are taken in order of arrival (log 49), are the model's. -/
def Obligations.FabricTraffic : Prop := Links ∧ InboundPeers ∧ PeerAnswers ∧ Reductions

/-! ### Launches -/

namespace Sys2Proof.Claims

/-- A team as it starts on a core: `dim` live threads, ready at `entry`, with the registers `init` and everything else zero;
its forme is zero-filled and has the size given. R303 does not list the handler bit: that it is clear is the model's reading
(log 8). -/
def Starts (s : State) (key core entry dim forme : Nat) (init : Nat → Nat → Word) (t : Team) : Prop :=
  s.team? key = some t ∧ t.place = .core core ∧ t.dim = dim ∧ t.stopped = false ∧
    (∀ n, n < dim → ∃ th, Tab.find n t.threads = some th ∧ th.pc = BitVec.ofNat 64 entry ∧ th.live = true ∧
      th.wait = .ready ∧ th.preds = 0 ∧ th.fpflags = 0 ∧ th.handler = false ∧ th.pend = [] ∧ ∀ i, th.v i = init n i) ∧
    (∀ n, dim ≤ n → Tab.find n t.threads = none) ∧
    ∃ f, Tab.find key s.formes = some f ∧ f.size = forme ∧ f.core = core ∧ f.data = [] ∧ f.full = [] ∧ f.tag = []

end Sys2Proof.Claims

/-- R342 to R346: queue registers, doorbell, and the launcher's choice of a queue's head. Enabling a queue clears HEAD, TAIL
and ERR; disabling it gives its head's descriptor read up; a doorbell beyond the ring sets ERR and reads nothing; a record that passes its checks becomes a launch under the
next identifier, one that fails is answered at once, and HEAD passes either. -/
def Sys2Proof.Claims.HostQueues : Prop :=
  (∀ (s : State) q (v : DWord), q < 64 →
    let on := fun (s : State) => Bits.bit (s.reg (0x104010 + 32 * q)) 31
    (on s = false → Bits.bit v.toNat 31 = true → ∃ s', exec (.hqctlEnable q v) s = .next s' ∧ on s' = true ∧
      Bits.bit (s'.reg (0x104010 + 32 * q)) 30 = false ∧ s'.hqHead q = 0 ∧ s'.hqTail q = 0 ∧
      s'.reg (0x104010 + 32 * q) % 32 = (if 4 ≤ v.toNat % 32 ∧ v.toNat % 32 ≤ 12 then v.toNat % 32 else 4) ∧
      Bits.field (s'.reg (0x104010 + 32 * q)) 8 2 = Bits.field v.toNat 8 2 ∧ { s' with win := s.win } = s) ∧
    (on s = true → Bits.bit v.toNat 31 = true → exec (.hqctlEnable q v) s = .next s) ∧
    (on s = true → Bits.bit v.toNat 31 = false → ∃ s', exec (.hqctlDisable q v) s = .next s' ∧ on s' = false ∧
      s'.hqHead q = s.hqHead q ∧ s'.hqTail q = s.hqTail q ∧ Tab.find q s'.replyWait = none ∧
      (∀ k, Tab.find k s'.misses =
        (Tab.find k s.misses).map fun m => { m with joined := m.joined.filter fun w => w != .launcher q }) ∧
      { s' with win := s.win, replyWait := s.replyWait, misses := s.misses } = s) ∧
    (let tail := v.toNat % 2 ^ 16
     let beyond := s.hqSlots q < (tail + 2 ^ 16 - s.hqHead q) % 2 ^ 16
     ∃ s', exec (.hqdb q v) s = .next s' ∧ s'.hqHead q = s.hqHead q ∧ { s' with win := s.win } = s ∧
      (beyond → s'.hqTail q = s.hqTail q ∧ Bits.bit (s'.reg (0x104010 + 32 * q)) 30 = true) ∧
      (¬beyond → s'.hqTail q = tail))) ∧
  (∀ s s1 s2 q d hdr reason, s.launches.length < 128 → s.nextHead [] = some q → q < 64 →
    s.headRecord q = (s1, some d) →
    (s1.checkRecord q d = (s2, .pass hdr) → recImpOut d.record = false → recNin d.record = 0 →
      ∃ s' l, exec .launchAdmit s = .next s' ∧ Tab.find s2.nextKey s'.launches = some l ∧ l.id = s2.launchId ∧
        l.ctx = d.ctx ∧ l.record = d.record ∧ l.prio = s2.queuePrio q ∧ l.queue = q ∧ l.index = s2.hqHead q ∧
        l.system = false ∧ l.base = 8 * hdrBdiv8 hdr ∧ l.split = hdrSplit hdr ∧ l.profile = hdrProfile hdr ∧ l.next = 0 ∧
        l.cancel = false ∧ l.hold = false ∧ l.fault = none ∧
        s'.launchId = (if s2.launchId = 0xFFFFFFFF then 1 else s2.launchId + 1) ∧
        s'.hqHead q = (s2.hqHead q + 1) % 2 ^ 16 ∧ s'.hbm = s2.hbm ∧ s'.teams = s2.teams) ∧
    (s1.checkRecord q d = (s2, .refuse reason) →
      ∃ s', exec .launchAdmit s = .next s' ∧ s'.launches = s2.launches ∧ s'.hqHead q = (s2.hqHead q + 1) % 2 ^ 16 ∧
        Stored s2.hostMem s'.hostMem (Bits.field (s2.reg (0x104008 + 32 * q)) 12 40 * 2 ^ 12 + s2.hqHead q % s2.hqSlots q * 16)
          16 (compEntry 0 reason 0xFD 0 (s2.hqHead q) false) ∧
        s'.port.msix = s2.port.msix ++ [2] ∧ s'.teams = s2.teams)) ∧
  Signals .completionMsixSignal 2

/-- R92, R93, R302 to R306, R348: the life of a launch without input or output tiles. A cluster's teams start on its cores with
consecutive stamps; groups, tracker entries, teams and formes are released; the launch completes with its entry. -/
def Sys2Proof.Claims.LaunchLife : Prop :=
  (∀ s launch cluster core l cores, Tab.find launch s.launches = some l → recNin l.record = 0 →
    s.clusterFits l core = some cores → s.nextPlacement = some (.fresh launch cluster) →
    ∃ s', exec (.clusterPlace launch cluster core) s = .next s' ∧
      (∀ r c, cores[r]? = some c → ∃ t,
        Starts s' (s.nextKey + 1 + r) c (recEntry l.record) (recDim l.record) (roundForme (recForme l.record))
          (fun _ _ => 0) t ∧
        t.launch = launch ∧ t.rank = r ∧ t.stamp = s.stamp + r ∧ (t.x, t.y, t.z) = teamAt l.record cluster r ∧
        t.base = l.base ∧ t.system = l.system ∧ (∀ i, i < recNargs l.record →
          Tab.getD t.k i 0 = BitVec.ofNat 32 (recField l.record (2048 + 32 * i) 32)) ∧ l.after ≤ s'.clock c) ∧
      Tab.find s.nextKey s'.clusters = some
        { launch, index := cluster, w := recW l.record, h := recH l.record
          teams := (List.range cores.length).map fun r => s.nextKey + 1 + r } ∧
      (Tab.find launch s'.launches).map Launch.next = some (cluster + 1) ∧
      s'.hbm = s.hbm ∧ s'.hostMem = s.hostMem) ∧
  (∀ s team g t gr, s.team? team = some t → t.groupIdle g = true → Tab.find g t.groups = some gr → gr.held = true →
    NoClaims s → ∃ s' t', exec (.groupRelease team g) s = .next s' ∧ OnlyTeam s s' team ∧ s'.team? team = some t' ∧
      Tab.find g t'.groups = some { gr with held := false, claim := none } ∧ t'.threads = t.threads) ∧
  (∀ s core e tags jobs launch, Tab.find e (s.core core).tracker = some (tags, jobs, launch) →
    (∀ t ∈ tags, s.underWay t = false) → (∀ j ∈ jobs, Tab.find j s.jobs = none) →
    ∃ s', exec (.trackerDrainDone core e) s = .next s' ∧ Tab.find e (s'.core core).tracker = none ∧
      (∀ k, k ≠ e → Tab.find k (s'.core core).tracker = Tab.find k (s.core core).tracker) ∧
      { s' with cores := s.cores } = s) ∧
  (∀ s k t l, s.team? k = some t → t.near = false → t.done = true → Tab.find t.launch s.launches = some l →
    recNin l.record = 0 → ∃ s', exec (.teamRetire k) s = .next s' ∧ s'.team? k = none ∧
      Tab.find t.launch s'.launches = some { l with time := max l.time (s.clock t.clockKey) } ∧ s'.formes = s.formes ∧
      s'.hbm = s.hbm ∧ s'.hostMem = s.hostMem) ∧
  (∀ s k c, Tab.find k s.clusters = some c → s.formeFree k c = true → ∃ s', exec (.formeRelease k) s = .next s' ∧
    Tab.find k s'.clusters = none ∧
    (∀ f, Tab.find f s'.formes = if f ∈ c.teams then none else Tab.find f s.formes) ∧
    { s' with clusters := s.clusters, formes := s.formes } = s) ∧
  (∀ s k l, Tab.find k s.launches = some l → s.launchDone k l = true → l.queue < 64 → l.stale = [] →
    (∀ p ∈ s.launches, p.2.waiting = []) →
    ∃ s', exec (.launchComplete k) s = .next s' ∧ Tab.find k s'.launches = none ∧
      (Tab.find l.queue s.running = some k → Tab.find l.queue s'.doneTimes = some l.time) ∧
      Stored s.hostMem s'.hostMem
        (Bits.field (s.reg (0x104008 + 32 * l.queue)) 12 40 * 2 ^ 12 + l.index % s.hqSlots l.queue * 16) 16
        (compEntry l.skip l.code.2 l.code.1 l.id l.index l.bnd) ∧
      s'.port.msix = s.port.msix ++ [2] ∧ s'.hbm = s.hbm)

/-- R354, R368: LCANCEL drops the clusters not yet placed and counts their teams in SKIP, and does nothing where it names no
resident launch; the flag, reaching a core, purges the launch's bins there, each counted in SKIP. -/
def Sys2Proof.Claims.HostCancels : Prop :=
  (∀ s id, s.launchNamed (id % 2 ^ 32) = none → exec (.lcancel id) s = .next s) ∧
  (∀ s id k l, s.launchNamed (id % 2 ^ 32) = some (k, l) → Tab.find k s.launches = some l → l.cancel = false →
    l.waiting = [] → (∀ v ∈ s.saved, v.cluster.launch ≠ k) →
    ∃ s', exec (.lcancel id) s = .next s' ∧ Tab.find k s'.launches = some { l with
        cancel := true, next := recClusters l.record
        skip := l.skip + recTeams l.record * (recClusters l.record - l.next) } ∧
      s'.teams = s.teams ∧ s'.hbm = s.hbm ∧ s'.hostMem = s.hostMem) ∧
  (∀ s k l core, Tab.find k s.launches = some l → l.cancel = true → (s.core core).cancelled.contains k = false →
    ∃ s', exec (.cancelFlagSet k core) s = .next s' ∧ (s'.core core).cancelled.contains k = true ∧
      (∀ b, Tab.find b (s'.core core).bins ≠ none → ((Tab.find b (s'.core core).bins).map Bin.launch) ≠ some k) ∧
      Tab.find k s'.launches = some { l with
        skip := l.skip + ((s.core core).bins.filter fun p => p.2.launch == k).length } ∧
      { s' with cores := s.cores, launches := s.launches } = s)

/-- R92, R93, R302 to R306, R342 to R348, R354, R368: queues, launches, cancels. That a started thread's handler bit is clear
is the model's reading (log 8). -/
def Obligations.LauncherRuns : Prop := HostQueues ∧ LaunchLife ∧ HostCancels

/-- R126, R361 to R364: a bin's timer makes it ready; the bin a core places next, its own or one it steals, becomes a child
team whose lane i holds task i's argument in `v0`:`v1`, on a core whose clock is no lower than its tasks'. That the handler
bits of its threads are clear is the model's reading (log 8). -/
def Obligations.ChildTeams : Prop :=
  (∀ s core k b, Tab.find k (s.core core).bins = some b → b.ready = none → b.due ≤ s.cycle →
    ∃ s', exec (.spawnBinTimer core k) s = .next s' ∧
      Tab.find k (s'.core core).bins = some { b with ready := some s.nextTag } ∧
      { s' with cores := s.cores, nextTag := s.nextTag } = s) ∧
  (∀ s core b,
    let placed := fun (s' : State) => (∃ t,
        Starts s' (s.nextKey + 1) core b.entry b.tasks.length (roundForme (descForme b.desc)) (fun n i =>
          let arg := ((b.tasks[n]?).map Task.arg).getD 0
          if i = 0 then BitVec.ofNat 32 arg else if i = 1 then BitVec.ofNat 32 (arg / 2 ^ 32) else 0) t ∧
        t.launch = b.launch ∧ t.depth = b.depth ∧ t.stamp = s.stamp ∧ t.base = 8 * hdrBdiv8 (descHdr b.desc)) ∧
      (∀ task ∈ b.tasks, task.clock ≤ s'.clock core) ∧ s'.hbm = s.hbm ∧ s'.hostMem = s.hostMem
    (∀ k, s.nextBin core = some (k, b) → ∃ s', exec (.spawnBinPlace core k) s = .next s' ∧ placed s' ∧
      Tab.find k (s'.core core).bins = none) ∧
    (∀ v k, s.coreIdle core = true → s.victimOf core = some v → s.childFits core b = true →
      (let bins := (s.core v).readyBins
       let most := (bins.map fun p => p.2.tasks.length).foldl max 0
       leastBy (fun p => p.2.ready.getD 0) (bins.filter fun p => p.2.tasks.length == most) = some (k, b)) →
      ∃ s', exec (.spawnBinSteal core) s = .next s' ∧ placed s' ∧ Tab.find k (s'.core v).bins = none ∧
        (s'.core core).victim = some v))

/-! ### Pre-emption and stopped teams -/

/-- R379 to R383, R395, R414: PREEMPT's hold flag; its GO, which sets room aside for a cluster and stops its teams with their
registers, or passes the cluster over; the save into the areas, which releases the cluster; the end; the restore; a stopped
team resumed or discarded; CODEINV; SYSLAUNCH. When room is set aside and what clock the save takes are the model's reading
(log 30). -/
def Obligations.Preemption : Prop :=
  (∀ s (v : DWord), s.launchNamed (v.toNat % 2 ^ 32) = none →
    ∃ s', exec (.preemptGo v) s = .next s' ∧ { s' with win := s.win } = s) ∧
  (∀ s (v : DWord) k l, s.launchNamed (v.toNat % 2 ^ 32) = some (k, l) → Bits.bit v.toNat 33 = false →
    ∃ s', exec (.preemptHold v) s = .next s' ∧
      Tab.find k s'.launches = some { l with hold := Bits.bit v.toNat 32 } ∧
      { s' with win := s.win, launches := s.launches } = s) ∧
  (∀ s (v : DWord) k l ck c, s.launchNamed (v.toNat % 2 ^ 32) = some (k, l) → Tab.find k s.launches = some l →
    Bits.bit v.toNat 33 = true → s.busy.preempt = none → s.clusters = [(ck, c)] → c.launch = k → c.pool = none → s.rankTeams c ≠ [] →
    (s.poolPlace l.ctx (s.areaNeed c) = none → ∃ s', exec (.preemptGo v) s = .next s' ∧ s'.teams = s.teams ∧
      s'.busy.preempt = some (v.toNat % 2 ^ 32) ∧ s'.busy.left = 1 ∧ s'.clusters = s.clusters) ∧
    (∀ base, s.poolPlace l.ctx (s.areaNeed c) = some base → ∃ s', exec (.preemptGo v) s = .next s' ∧
      s'.busy.preempt = some (v.toNat % 2 ^ 32) ∧ s'.busy.left = 0 ∧
      Tab.find ck s'.clusters = some { c with pool := some (base, s.areaNeed c) } ∧ s'.hbm = s.hbm ∧
      ∀ n ∈ c.teams, ∀ t, s.team? n = some t → ∃ t', s'.team? n = some t' ∧ t'.preempt = true ∧
        ∀ m th, Tab.find m t.threads = some th → (Tab.find m t'.threads).map Thread.regs = some th.regs)) ∧
  (∀ s key c base size v l, Tab.find key s.clusters = some c → c.pool = some (base, size) → s.drained key c = true →
    s.savedTeams c base = [v] → Tab.find c.launch s.launches = some l → l.cancel = false →
    (∀ i, i < v.shape.at 10 / 128 → s.homePowered (deviceLine v.base + i) = true ∧
      ∃ h, HomeFree s (deviceLine v.base + i) h) →
    ∃ s', exec (.preemptSave key) s = .next s' ∧ Tab.find key s'.clusters = none ∧ s'.team? v.key = none ∧
      s'.busy.saved = s.busy.saved + 1 ∧
      (∀ i, i < v.shape.at 10 / 128 → (s'.lineAt (deviceLine v.base + i)).data =
        lineOf (v.image c (s.forme v.key) true l.id (s.clock v.team.core)) (128 * i)) ∧
      ∃ sv, s'.saved = s.saved ++ [sv] ∧ sv.cluster = { c with pool := none } ∧ sv.key = key ∧ sv.teams = [v] ∧
        sv.area = (base, size)) ∧
  (∀ s id, s.busy.preempt = some id → (∀ p ∈ s.clusters, p.2.pool = none) →
    ∃ s', exec .preemptDone s = .next s' ∧ s'.busy.preempt = none ∧ s'.teams = s.teams ∧ s'.saved = s.saved ∧
      s'.hbm = s.hbm) ∧
  (∀ s i v cores st c, s.saved[i]? = some v → s.restoreFits v c = some cores → s.nextPlacement = some (.saved i) →
    v.teams = [st] → st.waits = [] → st.tasks = [] → st.rank < cores.length →
    let back := (st.read (s.readArea st.base (st.shape.at 10))).team
    ∃ s' t, exec (.clusterRestore i c) s = .next s' ∧ s'.saved = s.saved.eraseIdx i ∧
      Tab.find v.key s'.clusters = some v.cluster ∧ s'.team? st.key = some t ∧ t.place = .core (cores.getD st.rank 0) ∧
      t.dim = back.dim ∧ t.k = back.k ∧ t.bars = back.bars ∧ t.slugs = back.slugs ∧ t.launch = back.launch ∧
      (∀ n th, Tab.find n back.threads = some th → (∀ b ph, th.wait ≠ .barrier b ph) → Tab.find n t.threads = some th) ∧
      s'.hbm = s.hbm ∧ s'.hostMem = s.hostMem) ∧
  (∀ s core part slot,
    (s.stoppedAt core part slot = none →
      exec (.teamctlResume core part slot) s = .next s ∧ exec (.teamctlDiscard core part slot) s = .next s) ∧
    (∀ k t, s.stoppedAt core part slot = some (k, t) → s.team? k = some t →
      (∃ s', exec (.teamctlResume core part slot) s = .next s' ∧ s'.team? k = some { t with stopped := false } ∧
        { s' with teams := s.teams } = s ∧ ∀ j, j ≠ k → s'.team? j = s.team? j) ∧
      ∃ s' t', exec (.teamctlDiscard core part slot) s = .next s' ∧ s'.team? k = some t' ∧
        (∀ n th, Tab.find n t'.threads = some th → th.live = false) ∧ s'.hbm = s.hbm)) ∧
  (∀ s, exec .codeinvGo s = .next { s with busy := { s.busy with codeinv := true } }) ∧
  (∀ s, s.busy.codeinv = true → ∃ s', exec .codeinvComplete s = .next s' ∧ s'.busy.codeinv = false ∧
    (∀ p ∈ s'.cores, p.2.icache = []) ∧ s'.nearCaches = [] ∧ s'.teams = s.teams ∧ s'.hbm = s.hbm) ∧
  (∀ s (v : DWord), Bits.bit v.toNat 0 = true →
    (s.sysRecord.isSome = true → exec (.syslaunch v) s = .next s) ∧
    (s.sysRecord = none → ∃ s', exec (.syslaunch v) s = .next s' ∧
      s'.sysRecord = some (Bits.field v.toNat 6 46 * 2 ^ 6) ∧ { s' with win := s.win, sysRecord := none } = s))

/-! ### Resets, temperature, power, readback -/

namespace Sys2Proof.Claims

/-- Nothing is resident and every logical clock is 0. -/
def Emptied (s' : State) : Prop :=
  s'.teams = [] ∧ s'.launches = [] ∧ s'.clusters = [] ∧ s'.jobs = [] ∧ s'.formes = [] ∧ s'.homes = [] ∧ s'.regions = [] ∧
    s'.tlbs = [] ∧ s'.imprints = [] ∧ ∀ k, s'.clock k = 0

end Sys2Proof.Claims

/-- R58, R59, R416, R418: a warm reset empties the part, keeps HBM with the dirty lines written back, and keeps SALVSZ and the
temperatures shown; a CXL hot reset does the same. A warm reset is ignored while the part is in reset. A cold reset leaves
every register at its reset value and HBM without contents (which then reads 0, the model's choice, log 4). The values of
STKSPLIT after either reset (log 12) and of PWRSTAT's temperatures after a cold one (log 13) are the model's choices too.
Temperatures throttle, recover and trip. -/
def Sys2Proof.Claims.Resets : Prop :=
  (∀ s, s.busy.held = false → s.busy.bootFailed = false → ∃ s', exec .warmReset s = .next s' ∧ exec .cxlHotReset s = .next s' ∧ Emptied s' ∧
    (∀ off, off ≠ 0x100600 → off ≠ 0x106208 → s'.reg off = winReset off % 2 ^ 64) ∧
    s'.reg 0x100600 = s.reg 0x100600 % 2 ^ 4 ∧ s'.reg 0x106208 = s.reg 0x106208 ∧ s'.hostMem = s.hostMem ∧
    (s.residentLines false = [] → s'.hbm = s.hbm) ∧
    ∀ ln, s.residentLines false = [ln] → s.dirtyLine ln = true → isHostLine ln = false →
      (∀ i, i < 128 → Tab.getD s'.hbm (lineBase ln + i) 0 = Tab.getD (s.newest ln) i 0) ∧
      ∀ a, a < lineBase ln ∨ lineBase ln + 128 ≤ a → Tab.getD s'.hbm a 0 = Tab.getD s.hbm a 0) ∧
  (∀ s, s.busy.bootFailed = true → exec .warmReset s = .next s) ∧
  (∀ s, s.busy.held = true → exec .cxlHotReset s = .next s ∧
    (90 ≤ s.junction 0 ∨ 90 ≤ s.junction 1 → exec .warmReset s = .next s)) ∧
  (∀ s, ∃ s', exec .coldReset s = .next s' ∧ Emptied s' ∧ (∀ off, s'.reg off = winReset off % 2 ^ 64) ∧ s'.hbm = [] ∧
    s'.hostMem = s.hostMem ∧ s'.port.store = [] ∧ s'.cycle = 0 ∧ s'.busy.held = false) ∧
  (∀ (s : State) die temp,
    (100 < temp → temp ≤ 110 → ∃ s', exec (.thermalThrottle die temp) s = .next s' ∧ Tab.getD s'.throttled die false = true ∧
      Tab.getD s'.grants die 0 = 64 ∧ s'.teams = s.teams ∧ s'.hbm = s.hbm) ∧
    (temp < 95 → ∃ s', exec (.thermalRecover die temp) s = .next s' ∧ Tab.getD s'.throttled die false = false ∧
      s'.teams = s.teams ∧ s'.hbm = s.hbm) ∧
    (110 < temp → ∃ s', exec (.thermalTrip die temp) s = .next s' ∧ s'.busy.held = true ∧ s'.port.viral = true ∧
      s'.teams = [] ∧ s'.launches = [] ∧ s'.hostMem = s.hostMem))

/-- R63, R64, R378, R419: a GATE bit closes a die to placement; the gated die loses power with no line of its homes resident,
and comes back with its clocks at the part's greatest. The loss of a die drops what it held; the survivor's dirty lines of
the lost die's memory go to the salvage areas. -/
def Sys2Proof.Claims.GatingAndLoss : Prop :=
  (∀ s die, die < 2 → s.hasPower 0 = true → s.hasPower 1 = true →
    (Bits.field (s.reg 0x106200) 32 2 = 0 → ∃ s', exec (.powerGateRequest die) s = .next s' ∧ s'.dieOpen die = false ∧
      s'.dieOpen (1 - die) = s.dieOpen (1 - die) ∧ { s' with win := s.win } = s) ∧
    (Bits.bit (s.reg 0x106200) (33 - die) = true → exec (.powerGateRequest die) s = .next s)) ∧
  (∀ s die, die < 2 → Bits.bit (s.reg 0x106200) (32 + die) = true → s.hasPower die = true → s.dieIdle die = true →
    (s.dieQuiet die = false → exec (.powerGateComplete die) s = .next s) ∧
    (s.dieQuiet die = true → ∃ s', exec (.powerGateComplete die) s = .next s' ∧ s'.hasPower die = false ∧
      (∀ ln, homeDie ln = some die → s'.isResident ln = false) ∧ s'.teams = s.teams ∧ s'.hostMem = s.hostMem)) ∧
  (∀ s die, die < 2 → Bits.field (s.reg 0x106200) 32 2 = 2 ^ die → s.hasPower die = false →
    ∃ s', exec (.powerUngate die) s = .next s' ∧ s'.hasPower die = true ∧ s'.dieOpen die = true ∧
      (∀ k ∈ dieClocks die, s.latest ≤ s'.clock k) ∧ (∀ i, i < 72 → (s'.home (die * 72 + i)).mts = s.latest) ∧ s'.hbm = s.hbm ∧ s'.teams = s.teams) ∧
  (∀ s die, s.busy.deadDie = none → s.hasPower die = true → ∃ s', exec (.dieLossDetect die) s = .next s' ∧
    s'.busy.deadDie = some die ∧ s'.issuing = false ∧ (∀ p ∈ s'.regions, p.1 / 8 ≠ die) ∧
    (∀ p ∈ s'.homes, p.1 = 144 ∨ p.1 / 72 ≠ die) ∧ s'.hbm = s.hbm ∧ s'.teams = s.teams) ∧
  (∀ s lost, lost < 2 → s.busy.deadDie = some lost → s.busy.salvaged = false →
    (s.survivorQuiet lost = false → exec .salvageDone s = .next s) ∧
    (s.survivorQuiet lost = true → ∃ s', exec .salvageDone s = .next s' ∧ s'.launches = [] ∧ s'.busy.salvaged = true ∧
      Bits.bit (s'.reg 0x100600) 4 = true ∧
      (lost = 1 → s'.port.viral = true) ∧ (lost = 0 → s'.port.posted = s.port.posted ++ [(0x21, 0)]) ∧
      ∀ r ln c base, s.salvageLines lost = [(r, ln, c)] → s.salvageBase ((1 - lost) * 6) = some base →
        (∀ p ∈ s.launches, p.2.queue < 64) →
        readBytes s'.hbm base 24 = 1 + 2 ^ 64 + lost * 2 ^ 128 ∧
        readBytes s'.hbm (base + 64) 144 = salvageRecord r ln c % 2 ^ 1152))

/-- R421: through the readback aperture the host writes eight bytes of a stack; no write through it changes the forme of a
team that is not stopped, or such a team itself, unless a thread of it waits for slugs, which a binding byte of a stopped team
may free. -/
def Sys2Proof.Claims.Readback : Prop :=
  (∀ s off (v : DWord), ∃ s', exec (.stateReadbackWrite off v) s = .next s' ∧ s'.hostMem = s.hostMem ∧ s'.win = s.win ∧
    ∀ k, (∀ t, s.team? k = some t → t.stopped = false) → Tab.find k s'.formes = Tab.find k s.formes ∧
      (Tab.sorted s.teams = true → (∀ t, s.team? k = some t → t.slugAsk = []) → s'.team? k = s.team? k)) ∧
  (∀ s off (v : DWord), off % 8 = 0 → s.stSpace = 9 → s.stIndex < 12 → s.hasPower (dieOfStack s.stIndex) = true →
    let b := s.stPage * 2 ^ 24 + off % 2 ^ 24
    b < Config.stackBytes → ∃ s', exec (.stateReadbackWrite off v) s = .next s' ∧
      Stored s.hbm s'.hbm (stackAddress s.stIndex b) 8 v.toNat ∧ { s' with hbm := s.hbm } = s)

/-- R58, R59, R63, R64, R378, R416 to R419, R421: resets, temperature, power, the loss of a die, readback. What a warm reset
keeps of temperatures, and when a thermal hold ends, are the model's reading (log 31). The register values for which the spec
gives none are its choices: STKSPLIT = 48 (log 12), and the temperatures 0 that PWRSTAT shows after a cold reset (log 13). -/
def Obligations.ResetsAndPower : Prop := Resets ∧ GatingAndLoss ∧ Readback

/-! ### The step, the encoding, the invariant, the reset -/

/-- R89, R159, R169, R296, R355: an issue slot executes, for the candidate it chooses, the instruction whose words stand at
the candidate's program counter, and nothing else: the step is `exec` of that instruction for those threads, after the
candidate has been booked; the spin detector then changes no register, no program counter and no memory. An entry of the
agenda that names an event is `exec` of that event. -/
def Obligations.StepRunsTheDecodedInstruction : Prop :=
  (∀ s core part rest c t i ws, s.agenda = .issue core part :: rest →
    let s0 : State := { s with agenda := rest, cycle := s.cycle + 1 }
    let b := (s0.bookIssue core part (some c)).stirLaunch (((s0.team? c.team).map Team.launch).getD 0)
    let w0 := ws.headD 0
    s0.issuing = true → s0.choose core part = some c → b.team? c.team = some t → c.pc % 4 = 0 →
    ws.length = lenWords (wordLen w0) →
    (∀ k, k < ws.length →
      b.fetchWord t { team := c.team, n := c.threads.headD 0 } (c.pc + 4 * k) = (b, .ok (ws.getD k 0))) →
    t.opIllegal w0 = false → decode ws = .ok (i, ws.length) →
    (∀ o x, i.toX = some (o, x) → b.stepThree t w0 o x = none) →
    match exec i { b with ig := some { team := c.team, threads := c.threads, pc := c.pc } } with
    | .next s' => ∃ s'', step s = .next s'' ∧ s''.ig = none ∧
        (∀ j, (s''.thread? j).map (fun th => (th.pc, th.regs, th.preds, th.wait, th.live)) =
          (s'.thread? j).map fun th => (th.pc, th.regs, th.preds, th.wait, th.live)) ∧
        { s'' with teams := s'.teams, ig := s'.ig } = s'
    | .fault f => step s = .fault f
    | .refused r => step s = .refused r) ∧
  (∀ (s : State) (t : Team) i va pa d, t.near = false → inWindow va = false →
    s.translate (s.threadAsker i t 3) va = (s, .ok (.device pa)) →
    Tab.find (deviceLine pa) (s.core t.core).icache = some d →
    s.fetchWord t i va = (s, .ok (lineRead d (pa % 128) 4))) ∧
  (∀ s i rest s', s.agenda = .event i :: rest → s.busy.held = false → s.busy.bootFailed = false →
    exec i { s with agenda := rest } = .next s' →
    ∃ s'', step s = .next s'' ∧ { s'' with teams := s'.teams } = s' ∧
      ∀ j, (s''.thread? j).map (fun th => (th.pc, th.regs, th.preds, th.wait, th.live)) =
        (s'.thread? j).map fun th => (th.pc, th.regs, th.preds, th.wait, th.live))

/-- Tables 9.8, 19.6, 20.3, R331: words that the spec prints, and the instructions they are. -/
def Obligations.PrintedWordsDecode : Prop :=
  decode [0x2BC00000] = .ok (.nopBase, 1) ∧ decode [0x29000000] = .ok (.retBase, 1) ∧
  decode [0x29400000] = .ok (.exitBase, 1) ∧ decode [0x2E000005] = .ok (.trapBase 5, 1) ∧
  decode [0x28040005] = .ok (.brBase { g := 1, off := 5 }, 1) ∧
  decode [0x289C0064] = .ok (.callBase { g := 7, off := 100 }, 1) ∧
  decode [0x2AC00C00] = .ok (.jwaitBase 3, 1)

/-- R158 to R169: decoding the words of a well-formed instruction, whatever words follow, gives the instruction back with its
length: every operand, type, literal and option is in its words. -/
def Obligations.DecodeAndEncodeAgree : Prop :=
  ∀ i : Instr, (i.toX.isSome = true ∨ (encodeBaseForm i).isSome = true) → i.wf = true →
    ∀ rest, decode (encode i ++ rest) = .ok (i, (encode i).length)

/-- Both memories keep their canonical form (addresses strictly rising, no byte listed that reads as an unlisted one) in
every step from every state in which they have it. -/
def Obligations.StepsKeepMemoriesCanonical : Prop :=
  ∀ s s', s.canonical = true → step s = .next s' → s'.canonical = true

/-- R41, R412, R413, R416 and the reset columns of Tables 3.2, 17.1, 21.1, 22.2 and 28.5: what a reset leaves. Nothing is
resident, every clock is 0, MGMTID, LEASECFG, MODID, SPAWNCFG and PWRCFG hold the values that the spec gives, and the
memories are in canonical form. Neither die is throttled and no hold stands (R416, R418). That memory of the host and of the
stacks then reads as bytes of 0 and lists nothing (log 4), and that the first stamp is 1 (log 9), are the model's choices. -/
def Obligations.ResetState : Prop :=
  State.reset.canonical = true ∧ Emptied State.reset ∧ State.reset.reg 0 = 0x2001010101010101 ∧
  (∀ n, n < 64 → State.reset.reg (0x100400 + 8 * n) = 32) ∧ State.reset.reg 0x100800 = 0x3FF ∧
  (∀ q, q < 64 → State.reset.reg (0x104010 + 32 * q) = 4) ∧ State.reset.reg 0x104C00 = 2048 ∧
  State.reset.reg 0x106200 = 1700 + 1700 * 2 ^ 16 ∧ State.reset.hbm = [] ∧ State.reset.hostMem = [] ∧
  State.reset.hasPower 0 = true ∧ State.reset.hasPower 1 = true ∧ State.reset.stamp = 1 ∧
  (∀ die, Tab.getD State.reset.throttled die false = false) ∧ State.reset.busy.held = false
end

