-- ==== Sys2Proof/Laws/Bits.lean ====
section
/-! SUPPORT. Laws of bit fields, masks and joined words. -/

namespace Sys2Proof

theorem Bits.field_lt (x lo w : Nat) : Bits.field x lo w < 2 ^ w := Nat.mod_lt _ (Nat.two_pow_pos w)

/-- A bit of the machine's vocabulary is a bit of the number. -/
theorem Bits.bit_eq_testBit (x i : Nat) : Bits.bit x i = x.testBit i := by
  rw [Nat.testBit_eq_decide_div_mod_eq]; rfl

theorem Bits.ofInt_lt (w : Nat) (v : Int) : Bits.ofInt w v < 2 ^ w := by
  have h := Int.emod_lt_of_pos v (by exact_mod_cast Nat.two_pow_pos w : (0 : Int) < ((2 ^ w : Nat) : Int))
  have h0 := Int.emod_nonneg v (by exact_mod_cast (Nat.two_pow_pos w).ne' : ((2 ^ w : Nat) : Int) ≠ 0)
  unfold Bits.ofInt
  omega

/-- A sum of words never leaves the width. -/
theorem Bits.joinLE_lt (w : Nat) (xs : List Nat) : Bits.joinLE w xs < 2 ^ (w * xs.length) := by
  induction xs with
  | nil => simp [Bits.joinLE]
  | cons x xs ih =>
    have hx := Nat.mod_lt x (Nat.two_pow_pos w)
    rw [Bits.joinLE, List.length_cons, Nat.mul_succ, Nat.add_comm (w * xs.length), Nat.pow_add]
    have h1 : 2 ^ w * Bits.joinLE w xs + 2 ^ w ≤ 2 ^ w * 2 ^ (w * xs.length) := by
      rw [← Nat.mul_succ]; exact Nat.mul_le_mul_left _ ih
    omega

theorem Bits.length_splitLE (w n x : Nat) : (Bits.splitLE w n x).length = n := by
  induction n generalizing x with
  | zero => rfl
  | succ n ih => simp [Bits.splitLE, ih]

/-- Joining the pieces of a number gives its low bits back. -/
theorem Bits.joinLE_splitLE (w n x : Nat) : Bits.joinLE w (Bits.splitLE w n x) = x % 2 ^ (w * n) := by
  induction n generalizing x with
  | zero => simp [Bits.splitLE, Bits.joinLE, Nat.mod_one]
  | succ n ih =>
    rw [Bits.splitLE, Bits.joinLE, ih, Nat.mod_mod, Nat.mul_succ, Nat.add_comm (w * n), Nat.pow_add, Nat.mod_mul]

/-- Cutting joined words gives each word's low bits back. -/
theorem Bits.splitLE_joinLE (w : Nat) (xs : List Nat) :
    Bits.splitLE w xs.length (Bits.joinLE w xs) = xs.map (· % 2 ^ w) := by
  induction xs with
  | nil => rfl
  | cons x xs ih =>
    have hx := Nat.mod_lt x (Nat.two_pow_pos w)
    rw [List.length_cons, Bits.splitLE, Bits.joinLE, List.map_cons, Nat.add_mul_mod_self_left, Nat.mod_mod,
      Nat.add_mul_div_left _ _ (Nat.two_pow_pos w), Nat.div_eq_of_lt hx, Nat.zero_add, ih]

/-- Bit `l` of a mask is set for exactly the lanes listed. -/
theorem Bits.bit_maskOf (ls : List Nat) (l : Nat) : Bits.bit (Bits.maskOf ls) l = decide (l ∈ ls) := by
  have key : ∀ (ls : List Nat) (m : Nat),
      (ls.foldl (fun m l => m ||| 2 ^ l) m).testBit l = (m.testBit l || decide (l ∈ ls)) := by
    intro ls
    induction ls with
    | nil => intro m; simp
    | cons k ls ih =>
      intro m
      rw [List.foldl_cons, ih, Nat.testBit_or, Nat.testBit_two_pow]
      by_cases h : k = l
      · subst h; simp
      · simp [h, Ne.symm h]
  rw [Bits.bit_eq_testBit, Bits.maskOf, key]
  simp

end Sys2Proof
end

