-- ==== Sys2Proof/Laws/State.lean ====
section
/-! SUPPORT. What every named update leaves of every field: one lemma per field per update, each by unfolding alone. -/

namespace Sys2Proof.Machine

variable (s : State) (th : Thread) (t : Team)

/-! `State.raise` -/

@[simp] theorem State.raise_cycle (k t : Nat) : (s.raise k t).cycle = s.cycle := rfl
@[simp] theorem State.raise_ticks (k t : Nat) : (s.raise k t).ticks = s.ticks := rfl
@[simp] theorem State.raise_clocks (k t : Nat) : (s.raise k t).clocks = Tab.set 0 k (max (s.clock k) t) s.clocks := rfl
@[simp] theorem State.raise_agenda (k t : Nat) : (s.raise k t).agenda = s.agenda := rfl
@[simp] theorem State.raise_ig (k t : Nat) : (s.raise k t).ig = s.ig := rfl
@[simp] theorem State.raise_oracle (k t : Nat) : (s.raise k t).oracle = s.oracle := rfl
@[simp] theorem State.raise_nextTag (k t : Nat) : (s.raise k t).nextTag = s.nextTag := rfl
@[simp] theorem State.raise_nextKey (k t : Nat) : (s.raise k t).nextKey = s.nextKey := rfl
@[simp] theorem State.raise_hbm (k t : Nat) : (s.raise k t).hbm = s.hbm := rfl
@[simp] theorem State.raise_hostMem (k t : Nat) : (s.raise k t).hostMem = s.hostMem := rfl
@[simp] theorem State.raise_bad (k t : Nat) : (s.raise k t).bad = s.bad := rfl
@[simp] theorem State.raise_homes (k t : Nat) : (s.raise k t).homes = s.homes := rfl
@[simp] theorem State.raise_regions (k t : Nat) : (s.raise k t).regions = s.regions := rfl
@[simp] theorem State.raise_net (k t : Nat) : (s.raise k t).net = s.net := rfl
@[simp] theorem State.raise_memops (k t : Nat) : (s.raise k t).memops = s.memops := rfl
@[simp] theorem State.raise_tlbs (k t : Nat) : (s.raise k t).tlbs = s.tlbs := rfl
@[simp] theorem State.raise_misses (k t : Nat) : (s.raise k t).misses = s.misses := rfl
@[simp] theorem State.raise_slotSeq (k t : Nat) : (s.raise k t).slotSeq = s.slotSeq := rfl
@[simp] theorem State.raise_formes (k t : Nat) : (s.raise k t).formes = s.formes := rfl
@[simp] theorem State.raise_errors (k t : Nat) : (s.raise k t).errors = s.errors := rfl
@[simp] theorem State.raise_nearCaches (k t : Nat) : (s.raise k t).nearCaches = s.nearCaches := rfl
@[simp] theorem State.raise_cores (k t : Nat) : (s.raise k t).cores = s.cores := rfl
@[simp] theorem State.raise_teams (k t : Nat) : (s.raise k t).teams = s.teams := rfl
@[simp] theorem State.raise_clusters (k t : Nat) : (s.raise k t).clusters = s.clusters := rfl
@[simp] theorem State.raise_launches (k t : Nat) : (s.raise k t).launches = s.launches := rfl
@[simp] theorem State.raise_matrix (k t : Nat) : (s.raise k t).matrix = s.matrix := rfl
@[simp] theorem State.raise_grants (k t : Nat) : (s.raise k t).grants = s.grants := rfl
@[simp] theorem State.raise_starts (k t : Nat) : (s.raise k t).starts = s.starts := rfl
@[simp] theorem State.raise_windows (k t : Nat) : (s.raise k t).windows = s.windows := rfl
@[simp] theorem State.raise_jobs (k t : Nat) : (s.raise k t).jobs = s.jobs := rfl
@[simp] theorem State.raise_platens (k t : Nat) : (s.raise k t).platens = s.platens := rfl
@[simp] theorem State.raise_fabric (k t : Nat) : (s.raise k t).fabric = s.fabric := rfl
@[simp] theorem State.raise_stamp (k t : Nat) : (s.raise k t).stamp = s.stamp := rfl
@[simp] theorem State.raise_launchId (k t : Nat) : (s.raise k t).launchId = s.launchId := rfl
@[simp] theorem State.raise_admitted (k t : Nat) : (s.raise k t).admitted = s.admitted := rfl
@[simp] theorem State.raise_lastQueue (k t : Nat) : (s.raise k t).lastQueue = s.lastQueue := rfl
@[simp] theorem State.raise_devQueues (k t : Nat) : (s.raise k t).devQueues = s.devQueues := rfl
@[simp] theorem State.raise_sysRecord (k t : Nat) : (s.raise k t).sysRecord = s.sysRecord := rfl
@[simp] theorem State.raise_running (k t : Nat) : (s.raise k t).running = s.running := rfl
@[simp] theorem State.raise_doneTimes (k t : Nat) : (s.raise k t).doneTimes = s.doneTimes := rfl
@[simp] theorem State.raise_replyWait (k t : Nat) : (s.raise k t).replyWait = s.replyWait := rfl
@[simp] theorem State.raise_imprints (k t : Nat) : (s.raise k t).imprints = s.imprints := rfl
@[simp] theorem State.raise_boundaries (k t : Nat) : (s.raise k t).boundaries = s.boundaries := rfl
@[simp] theorem State.raise_saved (k t : Nat) : (s.raise k t).saved = s.saved := rfl
@[simp] theorem State.raise_win (k t : Nat) : (s.raise k t).win = s.win := rfl
@[simp] theorem State.raise_busy (k t : Nat) : (s.raise k t).busy = s.busy := rfl
@[simp] theorem State.raise_port (k t : Nat) : (s.raise k t).port = s.port := rfl
@[simp] theorem State.raise_powered (k t : Nat) : (s.raise k t).powered = s.powered := rfl
@[simp] theorem State.raise_throttled (k t : Nat) : (s.raise k t).throttled = s.throttled := rfl
@[simp] theorem State.raise_resets (k t : Nat) : (s.raise k t).resets = s.resets := rfl

/-! `State.setTeam` -/

@[simp] theorem State.setTeam_cycle (k : Nat) (t : Team) : (s.setTeam k t).cycle = s.cycle := rfl
@[simp] theorem State.setTeam_ticks (k : Nat) (t : Team) : (s.setTeam k t).ticks = s.ticks := rfl
@[simp] theorem State.setTeam_clocks (k : Nat) (t : Team) : (s.setTeam k t).clocks = s.clocks := rfl
@[simp] theorem State.setTeam_agenda (k : Nat) (t : Team) : (s.setTeam k t).agenda = s.agenda := rfl
@[simp] theorem State.setTeam_ig (k : Nat) (t : Team) : (s.setTeam k t).ig = s.ig := rfl
@[simp] theorem State.setTeam_oracle (k : Nat) (t : Team) : (s.setTeam k t).oracle = s.oracle := rfl
@[simp] theorem State.setTeam_nextTag (k : Nat) (t : Team) : (s.setTeam k t).nextTag = s.nextTag := rfl
@[simp] theorem State.setTeam_nextKey (k : Nat) (t : Team) : (s.setTeam k t).nextKey = s.nextKey := rfl
@[simp] theorem State.setTeam_hbm (k : Nat) (t : Team) : (s.setTeam k t).hbm = s.hbm := rfl
@[simp] theorem State.setTeam_hostMem (k : Nat) (t : Team) : (s.setTeam k t).hostMem = s.hostMem := rfl
@[simp] theorem State.setTeam_bad (k : Nat) (t : Team) : (s.setTeam k t).bad = s.bad := rfl
@[simp] theorem State.setTeam_homes (k : Nat) (t : Team) : (s.setTeam k t).homes = s.homes := rfl
@[simp] theorem State.setTeam_regions (k : Nat) (t : Team) : (s.setTeam k t).regions = s.regions := rfl
@[simp] theorem State.setTeam_net (k : Nat) (t : Team) : (s.setTeam k t).net = s.net := rfl
@[simp] theorem State.setTeam_memops (k : Nat) (t : Team) : (s.setTeam k t).memops = s.memops := rfl
@[simp] theorem State.setTeam_tlbs (k : Nat) (t : Team) : (s.setTeam k t).tlbs = s.tlbs := rfl
@[simp] theorem State.setTeam_misses (k : Nat) (t : Team) : (s.setTeam k t).misses = s.misses := rfl
@[simp] theorem State.setTeam_slotSeq (k : Nat) (t : Team) : (s.setTeam k t).slotSeq = s.slotSeq := rfl
@[simp] theorem State.setTeam_formes (k : Nat) (t : Team) : (s.setTeam k t).formes = s.formes := rfl
@[simp] theorem State.setTeam_errors (k : Nat) (t : Team) : (s.setTeam k t).errors = s.errors := rfl
@[simp] theorem State.setTeam_nearCaches (k : Nat) (t : Team) : (s.setTeam k t).nearCaches = s.nearCaches := rfl
@[simp] theorem State.setTeam_cores (k : Nat) (t : Team) : (s.setTeam k t).cores = s.cores := rfl
@[simp] theorem State.setTeam_teams (k : Nat) (t : Team) : (s.setTeam k t).teams = Tab.put k t s.teams := rfl
@[simp] theorem State.setTeam_clusters (k : Nat) (t : Team) : (s.setTeam k t).clusters = s.clusters := rfl
@[simp] theorem State.setTeam_launches (k : Nat) (t : Team) : (s.setTeam k t).launches = s.launches := rfl
@[simp] theorem State.setTeam_matrix (k : Nat) (t : Team) : (s.setTeam k t).matrix = s.matrix := rfl
@[simp] theorem State.setTeam_grants (k : Nat) (t : Team) : (s.setTeam k t).grants = s.grants := rfl
@[simp] theorem State.setTeam_starts (k : Nat) (t : Team) : (s.setTeam k t).starts = s.starts := rfl
@[simp] theorem State.setTeam_windows (k : Nat) (t : Team) : (s.setTeam k t).windows = s.windows := rfl
@[simp] theorem State.setTeam_jobs (k : Nat) (t : Team) : (s.setTeam k t).jobs = s.jobs := rfl
@[simp] theorem State.setTeam_platens (k : Nat) (t : Team) : (s.setTeam k t).platens = s.platens := rfl
@[simp] theorem State.setTeam_fabric (k : Nat) (t : Team) : (s.setTeam k t).fabric = s.fabric := rfl
@[simp] theorem State.setTeam_stamp (k : Nat) (t : Team) : (s.setTeam k t).stamp = s.stamp := rfl
@[simp] theorem State.setTeam_launchId (k : Nat) (t : Team) : (s.setTeam k t).launchId = s.launchId := rfl
@[simp] theorem State.setTeam_admitted (k : Nat) (t : Team) : (s.setTeam k t).admitted = s.admitted := rfl
@[simp] theorem State.setTeam_lastQueue (k : Nat) (t : Team) : (s.setTeam k t).lastQueue = s.lastQueue := rfl
@[simp] theorem State.setTeam_devQueues (k : Nat) (t : Team) : (s.setTeam k t).devQueues = s.devQueues := rfl
@[simp] theorem State.setTeam_sysRecord (k : Nat) (t : Team) : (s.setTeam k t).sysRecord = s.sysRecord := rfl
@[simp] theorem State.setTeam_running (k : Nat) (t : Team) : (s.setTeam k t).running = s.running := rfl
@[simp] theorem State.setTeam_doneTimes (k : Nat) (t : Team) : (s.setTeam k t).doneTimes = s.doneTimes := rfl
@[simp] theorem State.setTeam_replyWait (k : Nat) (t : Team) : (s.setTeam k t).replyWait = s.replyWait := rfl
@[simp] theorem State.setTeam_imprints (k : Nat) (t : Team) : (s.setTeam k t).imprints = s.imprints := rfl
@[simp] theorem State.setTeam_boundaries (k : Nat) (t : Team) : (s.setTeam k t).boundaries = s.boundaries := rfl
@[simp] theorem State.setTeam_saved (k : Nat) (t : Team) : (s.setTeam k t).saved = s.saved := rfl
@[simp] theorem State.setTeam_win (k : Nat) (t : Team) : (s.setTeam k t).win = s.win := rfl
@[simp] theorem State.setTeam_busy (k : Nat) (t : Team) : (s.setTeam k t).busy = s.busy := rfl
@[simp] theorem State.setTeam_port (k : Nat) (t : Team) : (s.setTeam k t).port = s.port := rfl
@[simp] theorem State.setTeam_powered (k : Nat) (t : Team) : (s.setTeam k t).powered = s.powered := rfl
@[simp] theorem State.setTeam_throttled (k : Nat) (t : Team) : (s.setTeam k t).throttled = s.throttled := rfl
@[simp] theorem State.setTeam_resets (k : Nat) (t : Team) : (s.setTeam k t).resets = s.resets := rfl

/-! `State.modTeam` -/

@[simp] theorem State.modTeam_cycle (k : Nat) (f : Team → Team) : (s.modTeam k f).cycle = s.cycle := rfl
@[simp] theorem State.modTeam_ticks (k : Nat) (f : Team → Team) : (s.modTeam k f).ticks = s.ticks := rfl
@[simp] theorem State.modTeam_clocks (k : Nat) (f : Team → Team) : (s.modTeam k f).clocks = s.clocks := rfl
@[simp] theorem State.modTeam_agenda (k : Nat) (f : Team → Team) : (s.modTeam k f).agenda = s.agenda := rfl
@[simp] theorem State.modTeam_ig (k : Nat) (f : Team → Team) : (s.modTeam k f).ig = s.ig := rfl
@[simp] theorem State.modTeam_oracle (k : Nat) (f : Team → Team) : (s.modTeam k f).oracle = s.oracle := rfl
@[simp] theorem State.modTeam_nextTag (k : Nat) (f : Team → Team) : (s.modTeam k f).nextTag = s.nextTag := rfl
@[simp] theorem State.modTeam_nextKey (k : Nat) (f : Team → Team) : (s.modTeam k f).nextKey = s.nextKey := rfl
@[simp] theorem State.modTeam_hbm (k : Nat) (f : Team → Team) : (s.modTeam k f).hbm = s.hbm := rfl
@[simp] theorem State.modTeam_hostMem (k : Nat) (f : Team → Team) : (s.modTeam k f).hostMem = s.hostMem := rfl
@[simp] theorem State.modTeam_bad (k : Nat) (f : Team → Team) : (s.modTeam k f).bad = s.bad := rfl
@[simp] theorem State.modTeam_homes (k : Nat) (f : Team → Team) : (s.modTeam k f).homes = s.homes := rfl
@[simp] theorem State.modTeam_regions (k : Nat) (f : Team → Team) : (s.modTeam k f).regions = s.regions := rfl
@[simp] theorem State.modTeam_net (k : Nat) (f : Team → Team) : (s.modTeam k f).net = s.net := rfl
@[simp] theorem State.modTeam_memops (k : Nat) (f : Team → Team) : (s.modTeam k f).memops = s.memops := rfl
@[simp] theorem State.modTeam_tlbs (k : Nat) (f : Team → Team) : (s.modTeam k f).tlbs = s.tlbs := rfl
@[simp] theorem State.modTeam_misses (k : Nat) (f : Team → Team) : (s.modTeam k f).misses = s.misses := rfl
@[simp] theorem State.modTeam_slotSeq (k : Nat) (f : Team → Team) : (s.modTeam k f).slotSeq = s.slotSeq := rfl
@[simp] theorem State.modTeam_formes (k : Nat) (f : Team → Team) : (s.modTeam k f).formes = s.formes := rfl
@[simp] theorem State.modTeam_errors (k : Nat) (f : Team → Team) : (s.modTeam k f).errors = s.errors := rfl
@[simp] theorem State.modTeam_nearCaches (k : Nat) (f : Team → Team) : (s.modTeam k f).nearCaches = s.nearCaches := rfl
@[simp] theorem State.modTeam_cores (k : Nat) (f : Team → Team) : (s.modTeam k f).cores = s.cores := rfl
@[simp] theorem State.modTeam_teams (k : Nat) (f : Team → Team) : (s.modTeam k f).teams = Tab.modify k f s.teams := rfl
@[simp] theorem State.modTeam_clusters (k : Nat) (f : Team → Team) : (s.modTeam k f).clusters = s.clusters := rfl
@[simp] theorem State.modTeam_launches (k : Nat) (f : Team → Team) : (s.modTeam k f).launches = s.launches := rfl
@[simp] theorem State.modTeam_matrix (k : Nat) (f : Team → Team) : (s.modTeam k f).matrix = s.matrix := rfl
@[simp] theorem State.modTeam_grants (k : Nat) (f : Team → Team) : (s.modTeam k f).grants = s.grants := rfl
@[simp] theorem State.modTeam_starts (k : Nat) (f : Team → Team) : (s.modTeam k f).starts = s.starts := rfl
@[simp] theorem State.modTeam_windows (k : Nat) (f : Team → Team) : (s.modTeam k f).windows = s.windows := rfl
@[simp] theorem State.modTeam_jobs (k : Nat) (f : Team → Team) : (s.modTeam k f).jobs = s.jobs := rfl
@[simp] theorem State.modTeam_platens (k : Nat) (f : Team → Team) : (s.modTeam k f).platens = s.platens := rfl
@[simp] theorem State.modTeam_fabric (k : Nat) (f : Team → Team) : (s.modTeam k f).fabric = s.fabric := rfl
@[simp] theorem State.modTeam_stamp (k : Nat) (f : Team → Team) : (s.modTeam k f).stamp = s.stamp := rfl
@[simp] theorem State.modTeam_launchId (k : Nat) (f : Team → Team) : (s.modTeam k f).launchId = s.launchId := rfl
@[simp] theorem State.modTeam_admitted (k : Nat) (f : Team → Team) : (s.modTeam k f).admitted = s.admitted := rfl
@[simp] theorem State.modTeam_lastQueue (k : Nat) (f : Team → Team) : (s.modTeam k f).lastQueue = s.lastQueue := rfl
@[simp] theorem State.modTeam_devQueues (k : Nat) (f : Team → Team) : (s.modTeam k f).devQueues = s.devQueues := rfl
@[simp] theorem State.modTeam_sysRecord (k : Nat) (f : Team → Team) : (s.modTeam k f).sysRecord = s.sysRecord := rfl
@[simp] theorem State.modTeam_running (k : Nat) (f : Team → Team) : (s.modTeam k f).running = s.running := rfl
@[simp] theorem State.modTeam_doneTimes (k : Nat) (f : Team → Team) : (s.modTeam k f).doneTimes = s.doneTimes := rfl
@[simp] theorem State.modTeam_replyWait (k : Nat) (f : Team → Team) : (s.modTeam k f).replyWait = s.replyWait := rfl
@[simp] theorem State.modTeam_imprints (k : Nat) (f : Team → Team) : (s.modTeam k f).imprints = s.imprints := rfl
@[simp] theorem State.modTeam_boundaries (k : Nat) (f : Team → Team) : (s.modTeam k f).boundaries = s.boundaries := rfl
@[simp] theorem State.modTeam_saved (k : Nat) (f : Team → Team) : (s.modTeam k f).saved = s.saved := rfl
@[simp] theorem State.modTeam_win (k : Nat) (f : Team → Team) : (s.modTeam k f).win = s.win := rfl
@[simp] theorem State.modTeam_busy (k : Nat) (f : Team → Team) : (s.modTeam k f).busy = s.busy := rfl
@[simp] theorem State.modTeam_port (k : Nat) (f : Team → Team) : (s.modTeam k f).port = s.port := rfl
@[simp] theorem State.modTeam_powered (k : Nat) (f : Team → Team) : (s.modTeam k f).powered = s.powered := rfl
@[simp] theorem State.modTeam_throttled (k : Nat) (f : Team → Team) : (s.modTeam k f).throttled = s.throttled := rfl
@[simp] theorem State.modTeam_resets (k : Nat) (f : Team → Team) : (s.modTeam k f).resets = s.resets := rfl

/-! `State.modThread` -/

@[simp] theorem State.modThread_cycle (i : Tid) (f : Thread → Thread) : (s.modThread i f).cycle = s.cycle := rfl
@[simp] theorem State.modThread_ticks (i : Tid) (f : Thread → Thread) : (s.modThread i f).ticks = s.ticks := rfl
@[simp] theorem State.modThread_clocks (i : Tid) (f : Thread → Thread) : (s.modThread i f).clocks = s.clocks := rfl
@[simp] theorem State.modThread_agenda (i : Tid) (f : Thread → Thread) : (s.modThread i f).agenda = s.agenda := rfl
@[simp] theorem State.modThread_ig (i : Tid) (f : Thread → Thread) : (s.modThread i f).ig = s.ig := rfl
@[simp] theorem State.modThread_oracle (i : Tid) (f : Thread → Thread) : (s.modThread i f).oracle = s.oracle := rfl
@[simp] theorem State.modThread_nextTag (i : Tid) (f : Thread → Thread) : (s.modThread i f).nextTag = s.nextTag := rfl
@[simp] theorem State.modThread_nextKey (i : Tid) (f : Thread → Thread) : (s.modThread i f).nextKey = s.nextKey := rfl
@[simp] theorem State.modThread_hbm (i : Tid) (f : Thread → Thread) : (s.modThread i f).hbm = s.hbm := rfl
@[simp] theorem State.modThread_hostMem (i : Tid) (f : Thread → Thread) : (s.modThread i f).hostMem = s.hostMem := rfl
@[simp] theorem State.modThread_bad (i : Tid) (f : Thread → Thread) : (s.modThread i f).bad = s.bad := rfl
@[simp] theorem State.modThread_homes (i : Tid) (f : Thread → Thread) : (s.modThread i f).homes = s.homes := rfl
@[simp] theorem State.modThread_regions (i : Tid) (f : Thread → Thread) : (s.modThread i f).regions = s.regions := rfl
@[simp] theorem State.modThread_net (i : Tid) (f : Thread → Thread) : (s.modThread i f).net = s.net := rfl
@[simp] theorem State.modThread_memops (i : Tid) (f : Thread → Thread) : (s.modThread i f).memops = s.memops := rfl
@[simp] theorem State.modThread_tlbs (i : Tid) (f : Thread → Thread) : (s.modThread i f).tlbs = s.tlbs := rfl
@[simp] theorem State.modThread_misses (i : Tid) (f : Thread → Thread) : (s.modThread i f).misses = s.misses := rfl
@[simp] theorem State.modThread_slotSeq (i : Tid) (f : Thread → Thread) : (s.modThread i f).slotSeq = s.slotSeq := rfl
@[simp] theorem State.modThread_formes (i : Tid) (f : Thread → Thread) : (s.modThread i f).formes = s.formes := rfl
@[simp] theorem State.modThread_errors (i : Tid) (f : Thread → Thread) : (s.modThread i f).errors = s.errors := rfl
@[simp] theorem State.modThread_nearCaches (i : Tid) (f : Thread → Thread) : (s.modThread i f).nearCaches = s.nearCaches := rfl
@[simp] theorem State.modThread_cores (i : Tid) (f : Thread → Thread) : (s.modThread i f).cores = s.cores := rfl
@[simp] theorem State.modThread_teams (i : Tid) (f : Thread → Thread) : (s.modThread i f).teams = Tab.modify i.team (fun t => t.modThread i.n f) s.teams := rfl
@[simp] theorem State.modThread_clusters (i : Tid) (f : Thread → Thread) : (s.modThread i f).clusters = s.clusters := rfl
@[simp] theorem State.modThread_launches (i : Tid) (f : Thread → Thread) : (s.modThread i f).launches = s.launches := rfl
@[simp] theorem State.modThread_matrix (i : Tid) (f : Thread → Thread) : (s.modThread i f).matrix = s.matrix := rfl
@[simp] theorem State.modThread_grants (i : Tid) (f : Thread → Thread) : (s.modThread i f).grants = s.grants := rfl
@[simp] theorem State.modThread_starts (i : Tid) (f : Thread → Thread) : (s.modThread i f).starts = s.starts := rfl
@[simp] theorem State.modThread_windows (i : Tid) (f : Thread → Thread) : (s.modThread i f).windows = s.windows := rfl
@[simp] theorem State.modThread_jobs (i : Tid) (f : Thread → Thread) : (s.modThread i f).jobs = s.jobs := rfl
@[simp] theorem State.modThread_platens (i : Tid) (f : Thread → Thread) : (s.modThread i f).platens = s.platens := rfl
@[simp] theorem State.modThread_fabric (i : Tid) (f : Thread → Thread) : (s.modThread i f).fabric = s.fabric := rfl
@[simp] theorem State.modThread_stamp (i : Tid) (f : Thread → Thread) : (s.modThread i f).stamp = s.stamp := rfl
@[simp] theorem State.modThread_launchId (i : Tid) (f : Thread → Thread) : (s.modThread i f).launchId = s.launchId := rfl
@[simp] theorem State.modThread_admitted (i : Tid) (f : Thread → Thread) : (s.modThread i f).admitted = s.admitted := rfl
@[simp] theorem State.modThread_lastQueue (i : Tid) (f : Thread → Thread) : (s.modThread i f).lastQueue = s.lastQueue := rfl
@[simp] theorem State.modThread_devQueues (i : Tid) (f : Thread → Thread) : (s.modThread i f).devQueues = s.devQueues := rfl
@[simp] theorem State.modThread_sysRecord (i : Tid) (f : Thread → Thread) : (s.modThread i f).sysRecord = s.sysRecord := rfl
@[simp] theorem State.modThread_running (i : Tid) (f : Thread → Thread) : (s.modThread i f).running = s.running := rfl
@[simp] theorem State.modThread_doneTimes (i : Tid) (f : Thread → Thread) : (s.modThread i f).doneTimes = s.doneTimes := rfl
@[simp] theorem State.modThread_replyWait (i : Tid) (f : Thread → Thread) : (s.modThread i f).replyWait = s.replyWait := rfl
@[simp] theorem State.modThread_imprints (i : Tid) (f : Thread → Thread) : (s.modThread i f).imprints = s.imprints := rfl
@[simp] theorem State.modThread_boundaries (i : Tid) (f : Thread → Thread) : (s.modThread i f).boundaries = s.boundaries := rfl
@[simp] theorem State.modThread_saved (i : Tid) (f : Thread → Thread) : (s.modThread i f).saved = s.saved := rfl
@[simp] theorem State.modThread_win (i : Tid) (f : Thread → Thread) : (s.modThread i f).win = s.win := rfl
@[simp] theorem State.modThread_busy (i : Tid) (f : Thread → Thread) : (s.modThread i f).busy = s.busy := rfl
@[simp] theorem State.modThread_port (i : Tid) (f : Thread → Thread) : (s.modThread i f).port = s.port := rfl
@[simp] theorem State.modThread_powered (i : Tid) (f : Thread → Thread) : (s.modThread i f).powered = s.powered := rfl
@[simp] theorem State.modThread_throttled (i : Tid) (f : Thread → Thread) : (s.modThread i f).throttled = s.throttled := rfl
@[simp] theorem State.modThread_resets (i : Tid) (f : Thread → Thread) : (s.modThread i f).resets = s.resets := rfl

/-! `State.modGroup` -/

@[simp] theorem State.modGroup_cycle (k g : Nat) (f : Group → Group) : (s.modGroup k g f).cycle = s.cycle := rfl
@[simp] theorem State.modGroup_ticks (k g : Nat) (f : Group → Group) : (s.modGroup k g f).ticks = s.ticks := rfl
@[simp] theorem State.modGroup_clocks (k g : Nat) (f : Group → Group) : (s.modGroup k g f).clocks = s.clocks := rfl
@[simp] theorem State.modGroup_agenda (k g : Nat) (f : Group → Group) : (s.modGroup k g f).agenda = s.agenda := rfl
@[simp] theorem State.modGroup_ig (k g : Nat) (f : Group → Group) : (s.modGroup k g f).ig = s.ig := rfl
@[simp] theorem State.modGroup_oracle (k g : Nat) (f : Group → Group) : (s.modGroup k g f).oracle = s.oracle := rfl
@[simp] theorem State.modGroup_nextTag (k g : Nat) (f : Group → Group) : (s.modGroup k g f).nextTag = s.nextTag := rfl
@[simp] theorem State.modGroup_nextKey (k g : Nat) (f : Group → Group) : (s.modGroup k g f).nextKey = s.nextKey := rfl
@[simp] theorem State.modGroup_hbm (k g : Nat) (f : Group → Group) : (s.modGroup k g f).hbm = s.hbm := rfl
@[simp] theorem State.modGroup_hostMem (k g : Nat) (f : Group → Group) : (s.modGroup k g f).hostMem = s.hostMem := rfl
@[simp] theorem State.modGroup_bad (k g : Nat) (f : Group → Group) : (s.modGroup k g f).bad = s.bad := rfl
@[simp] theorem State.modGroup_homes (k g : Nat) (f : Group → Group) : (s.modGroup k g f).homes = s.homes := rfl
@[simp] theorem State.modGroup_regions (k g : Nat) (f : Group → Group) : (s.modGroup k g f).regions = s.regions := rfl
@[simp] theorem State.modGroup_net (k g : Nat) (f : Group → Group) : (s.modGroup k g f).net = s.net := rfl
@[simp] theorem State.modGroup_memops (k g : Nat) (f : Group → Group) : (s.modGroup k g f).memops = s.memops := rfl
@[simp] theorem State.modGroup_tlbs (k g : Nat) (f : Group → Group) : (s.modGroup k g f).tlbs = s.tlbs := rfl
@[simp] theorem State.modGroup_misses (k g : Nat) (f : Group → Group) : (s.modGroup k g f).misses = s.misses := rfl
@[simp] theorem State.modGroup_slotSeq (k g : Nat) (f : Group → Group) : (s.modGroup k g f).slotSeq = s.slotSeq := rfl
@[simp] theorem State.modGroup_formes (k g : Nat) (f : Group → Group) : (s.modGroup k g f).formes = s.formes := rfl
@[simp] theorem State.modGroup_errors (k g : Nat) (f : Group → Group) : (s.modGroup k g f).errors = s.errors := rfl
@[simp] theorem State.modGroup_nearCaches (k g : Nat) (f : Group → Group) : (s.modGroup k g f).nearCaches = s.nearCaches := rfl
@[simp] theorem State.modGroup_cores (k g : Nat) (f : Group → Group) : (s.modGroup k g f).cores = s.cores := rfl
@[simp] theorem State.modGroup_teams (k g : Nat) (f : Group → Group) : (s.modGroup k g f).teams = Tab.modify k (fun t => t.modGroup g f) s.teams := rfl
@[simp] theorem State.modGroup_clusters (k g : Nat) (f : Group → Group) : (s.modGroup k g f).clusters = s.clusters := rfl
@[simp] theorem State.modGroup_launches (k g : Nat) (f : Group → Group) : (s.modGroup k g f).launches = s.launches := rfl
@[simp] theorem State.modGroup_matrix (k g : Nat) (f : Group → Group) : (s.modGroup k g f).matrix = s.matrix := rfl
@[simp] theorem State.modGroup_grants (k g : Nat) (f : Group → Group) : (s.modGroup k g f).grants = s.grants := rfl
@[simp] theorem State.modGroup_starts (k g : Nat) (f : Group → Group) : (s.modGroup k g f).starts = s.starts := rfl
@[simp] theorem State.modGroup_windows (k g : Nat) (f : Group → Group) : (s.modGroup k g f).windows = s.windows := rfl
@[simp] theorem State.modGroup_jobs (k g : Nat) (f : Group → Group) : (s.modGroup k g f).jobs = s.jobs := rfl
@[simp] theorem State.modGroup_platens (k g : Nat) (f : Group → Group) : (s.modGroup k g f).platens = s.platens := rfl
@[simp] theorem State.modGroup_fabric (k g : Nat) (f : Group → Group) : (s.modGroup k g f).fabric = s.fabric := rfl
@[simp] theorem State.modGroup_stamp (k g : Nat) (f : Group → Group) : (s.modGroup k g f).stamp = s.stamp := rfl
@[simp] theorem State.modGroup_launchId (k g : Nat) (f : Group → Group) : (s.modGroup k g f).launchId = s.launchId := rfl
@[simp] theorem State.modGroup_admitted (k g : Nat) (f : Group → Group) : (s.modGroup k g f).admitted = s.admitted := rfl
@[simp] theorem State.modGroup_lastQueue (k g : Nat) (f : Group → Group) : (s.modGroup k g f).lastQueue = s.lastQueue := rfl
@[simp] theorem State.modGroup_devQueues (k g : Nat) (f : Group → Group) : (s.modGroup k g f).devQueues = s.devQueues := rfl
@[simp] theorem State.modGroup_sysRecord (k g : Nat) (f : Group → Group) : (s.modGroup k g f).sysRecord = s.sysRecord := rfl
@[simp] theorem State.modGroup_running (k g : Nat) (f : Group → Group) : (s.modGroup k g f).running = s.running := rfl
@[simp] theorem State.modGroup_doneTimes (k g : Nat) (f : Group → Group) : (s.modGroup k g f).doneTimes = s.doneTimes := rfl
@[simp] theorem State.modGroup_replyWait (k g : Nat) (f : Group → Group) : (s.modGroup k g f).replyWait = s.replyWait := rfl
@[simp] theorem State.modGroup_imprints (k g : Nat) (f : Group → Group) : (s.modGroup k g f).imprints = s.imprints := rfl
@[simp] theorem State.modGroup_boundaries (k g : Nat) (f : Group → Group) : (s.modGroup k g f).boundaries = s.boundaries := rfl
@[simp] theorem State.modGroup_saved (k g : Nat) (f : Group → Group) : (s.modGroup k g f).saved = s.saved := rfl
@[simp] theorem State.modGroup_win (k g : Nat) (f : Group → Group) : (s.modGroup k g f).win = s.win := rfl
@[simp] theorem State.modGroup_busy (k g : Nat) (f : Group → Group) : (s.modGroup k g f).busy = s.busy := rfl
@[simp] theorem State.modGroup_port (k g : Nat) (f : Group → Group) : (s.modGroup k g f).port = s.port := rfl
@[simp] theorem State.modGroup_powered (k g : Nat) (f : Group → Group) : (s.modGroup k g f).powered = s.powered := rfl
@[simp] theorem State.modGroup_throttled (k g : Nat) (f : Group → Group) : (s.modGroup k g f).throttled = s.throttled := rfl
@[simp] theorem State.modGroup_resets (k g : Nat) (f : Group → Group) : (s.modGroup k g f).resets = s.resets := rfl

/-! `State.setReg` -/

@[simp] theorem State.setReg_cycle (off v : Nat) : (s.setReg off v).cycle = s.cycle := rfl
@[simp] theorem State.setReg_ticks (off v : Nat) : (s.setReg off v).ticks = s.ticks := rfl
@[simp] theorem State.setReg_clocks (off v : Nat) : (s.setReg off v).clocks = s.clocks := rfl
@[simp] theorem State.setReg_agenda (off v : Nat) : (s.setReg off v).agenda = s.agenda := rfl
@[simp] theorem State.setReg_ig (off v : Nat) : (s.setReg off v).ig = s.ig := rfl
@[simp] theorem State.setReg_oracle (off v : Nat) : (s.setReg off v).oracle = s.oracle := rfl
@[simp] theorem State.setReg_nextTag (off v : Nat) : (s.setReg off v).nextTag = s.nextTag := rfl
@[simp] theorem State.setReg_nextKey (off v : Nat) : (s.setReg off v).nextKey = s.nextKey := rfl
@[simp] theorem State.setReg_hbm (off v : Nat) : (s.setReg off v).hbm = s.hbm := rfl
@[simp] theorem State.setReg_hostMem (off v : Nat) : (s.setReg off v).hostMem = s.hostMem := rfl
@[simp] theorem State.setReg_bad (off v : Nat) : (s.setReg off v).bad = s.bad := rfl
@[simp] theorem State.setReg_homes (off v : Nat) : (s.setReg off v).homes = s.homes := rfl
@[simp] theorem State.setReg_regions (off v : Nat) : (s.setReg off v).regions = s.regions := rfl
@[simp] theorem State.setReg_net (off v : Nat) : (s.setReg off v).net = s.net := rfl
@[simp] theorem State.setReg_memops (off v : Nat) : (s.setReg off v).memops = s.memops := rfl
@[simp] theorem State.setReg_tlbs (off v : Nat) : (s.setReg off v).tlbs = s.tlbs := rfl
@[simp] theorem State.setReg_misses (off v : Nat) : (s.setReg off v).misses = s.misses := rfl
@[simp] theorem State.setReg_slotSeq (off v : Nat) : (s.setReg off v).slotSeq = s.slotSeq := rfl
@[simp] theorem State.setReg_formes (off v : Nat) : (s.setReg off v).formes = s.formes := rfl
@[simp] theorem State.setReg_errors (off v : Nat) : (s.setReg off v).errors = s.errors := rfl
@[simp] theorem State.setReg_nearCaches (off v : Nat) : (s.setReg off v).nearCaches = s.nearCaches := rfl
@[simp] theorem State.setReg_cores (off v : Nat) : (s.setReg off v).cores = s.cores := rfl
@[simp] theorem State.setReg_teams (off v : Nat) : (s.setReg off v).teams = s.teams := rfl
@[simp] theorem State.setReg_clusters (off v : Nat) : (s.setReg off v).clusters = s.clusters := rfl
@[simp] theorem State.setReg_launches (off v : Nat) : (s.setReg off v).launches = s.launches := rfl
@[simp] theorem State.setReg_matrix (off v : Nat) : (s.setReg off v).matrix = s.matrix := rfl
@[simp] theorem State.setReg_grants (off v : Nat) : (s.setReg off v).grants = s.grants := rfl
@[simp] theorem State.setReg_starts (off v : Nat) : (s.setReg off v).starts = s.starts := rfl
@[simp] theorem State.setReg_windows (off v : Nat) : (s.setReg off v).windows = s.windows := rfl
@[simp] theorem State.setReg_jobs (off v : Nat) : (s.setReg off v).jobs = s.jobs := rfl
@[simp] theorem State.setReg_platens (off v : Nat) : (s.setReg off v).platens = s.platens := rfl
@[simp] theorem State.setReg_fabric (off v : Nat) : (s.setReg off v).fabric = s.fabric := rfl
@[simp] theorem State.setReg_stamp (off v : Nat) : (s.setReg off v).stamp = s.stamp := rfl
@[simp] theorem State.setReg_launchId (off v : Nat) : (s.setReg off v).launchId = s.launchId := rfl
@[simp] theorem State.setReg_admitted (off v : Nat) : (s.setReg off v).admitted = s.admitted := rfl
@[simp] theorem State.setReg_lastQueue (off v : Nat) : (s.setReg off v).lastQueue = s.lastQueue := rfl
@[simp] theorem State.setReg_devQueues (off v : Nat) : (s.setReg off v).devQueues = s.devQueues := rfl
@[simp] theorem State.setReg_sysRecord (off v : Nat) : (s.setReg off v).sysRecord = s.sysRecord := rfl
@[simp] theorem State.setReg_running (off v : Nat) : (s.setReg off v).running = s.running := rfl
@[simp] theorem State.setReg_doneTimes (off v : Nat) : (s.setReg off v).doneTimes = s.doneTimes := rfl
@[simp] theorem State.setReg_replyWait (off v : Nat) : (s.setReg off v).replyWait = s.replyWait := rfl
@[simp] theorem State.setReg_imprints (off v : Nat) : (s.setReg off v).imprints = s.imprints := rfl
@[simp] theorem State.setReg_boundaries (off v : Nat) : (s.setReg off v).boundaries = s.boundaries := rfl
@[simp] theorem State.setReg_saved (off v : Nat) : (s.setReg off v).saved = s.saved := rfl
@[simp] theorem State.setReg_win (off v : Nat) : (s.setReg off v).win = Tab.put off (BitVec.ofNat 64 v) s.win := rfl
@[simp] theorem State.setReg_busy (off v : Nat) : (s.setReg off v).busy = s.busy := rfl
@[simp] theorem State.setReg_port (off v : Nat) : (s.setReg off v).port = s.port := rfl
@[simp] theorem State.setReg_powered (off v : Nat) : (s.setReg off v).powered = s.powered := rfl
@[simp] theorem State.setReg_throttled (off v : Nat) : (s.setReg off v).throttled = s.throttled := rfl
@[simp] theorem State.setReg_resets (off v : Nat) : (s.setReg off v).resets = s.resets := rfl

/-! `State.writeHost` -/

@[simp] theorem State.writeHost_cycle (pa n v : Nat) : (s.writeHost pa n v).cycle = s.cycle := rfl
@[simp] theorem State.writeHost_ticks (pa n v : Nat) : (s.writeHost pa n v).ticks = s.ticks := rfl
@[simp] theorem State.writeHost_clocks (pa n v : Nat) : (s.writeHost pa n v).clocks = s.clocks := rfl
@[simp] theorem State.writeHost_agenda (pa n v : Nat) : (s.writeHost pa n v).agenda = s.agenda := rfl
@[simp] theorem State.writeHost_ig (pa n v : Nat) : (s.writeHost pa n v).ig = s.ig := rfl
@[simp] theorem State.writeHost_oracle (pa n v : Nat) : (s.writeHost pa n v).oracle = s.oracle := rfl
@[simp] theorem State.writeHost_nextTag (pa n v : Nat) : (s.writeHost pa n v).nextTag = s.nextTag := rfl
@[simp] theorem State.writeHost_nextKey (pa n v : Nat) : (s.writeHost pa n v).nextKey = s.nextKey := rfl
@[simp] theorem State.writeHost_hbm (pa n v : Nat) : (s.writeHost pa n v).hbm = s.hbm := rfl
@[simp] theorem State.writeHost_hostMem (pa n v : Nat) : (s.writeHost pa n v).hostMem = writeBytes s.hostMem pa n v := rfl
@[simp] theorem State.writeHost_bad (pa n v : Nat) : (s.writeHost pa n v).bad = hostSound s.bad pa n := rfl
@[simp] theorem State.writeHost_homes (pa n v : Nat) : (s.writeHost pa n v).homes = s.homes := rfl
@[simp] theorem State.writeHost_regions (pa n v : Nat) : (s.writeHost pa n v).regions = s.regions := rfl
@[simp] theorem State.writeHost_net (pa n v : Nat) : (s.writeHost pa n v).net = s.net := rfl
@[simp] theorem State.writeHost_memops (pa n v : Nat) : (s.writeHost pa n v).memops = s.memops := rfl
@[simp] theorem State.writeHost_tlbs (pa n v : Nat) : (s.writeHost pa n v).tlbs = s.tlbs := rfl
@[simp] theorem State.writeHost_misses (pa n v : Nat) : (s.writeHost pa n v).misses = s.misses := rfl
@[simp] theorem State.writeHost_slotSeq (pa n v : Nat) : (s.writeHost pa n v).slotSeq = s.slotSeq := rfl
@[simp] theorem State.writeHost_formes (pa n v : Nat) : (s.writeHost pa n v).formes = s.formes := rfl
@[simp] theorem State.writeHost_errors (pa n v : Nat) : (s.writeHost pa n v).errors = s.errors := rfl
@[simp] theorem State.writeHost_nearCaches (pa n v : Nat) : (s.writeHost pa n v).nearCaches = s.nearCaches := rfl
@[simp] theorem State.writeHost_cores (pa n v : Nat) : (s.writeHost pa n v).cores = s.cores := rfl
@[simp] theorem State.writeHost_teams (pa n v : Nat) : (s.writeHost pa n v).teams = s.teams := rfl
@[simp] theorem State.writeHost_clusters (pa n v : Nat) : (s.writeHost pa n v).clusters = s.clusters := rfl
@[simp] theorem State.writeHost_launches (pa n v : Nat) : (s.writeHost pa n v).launches = s.launches := rfl
@[simp] theorem State.writeHost_matrix (pa n v : Nat) : (s.writeHost pa n v).matrix = s.matrix := rfl
@[simp] theorem State.writeHost_grants (pa n v : Nat) : (s.writeHost pa n v).grants = s.grants := rfl
@[simp] theorem State.writeHost_starts (pa n v : Nat) : (s.writeHost pa n v).starts = s.starts := rfl
@[simp] theorem State.writeHost_windows (pa n v : Nat) : (s.writeHost pa n v).windows = s.windows := rfl
@[simp] theorem State.writeHost_jobs (pa n v : Nat) : (s.writeHost pa n v).jobs = s.jobs := rfl
@[simp] theorem State.writeHost_platens (pa n v : Nat) : (s.writeHost pa n v).platens = s.platens := rfl
@[simp] theorem State.writeHost_fabric (pa n v : Nat) : (s.writeHost pa n v).fabric = s.fabric := rfl
@[simp] theorem State.writeHost_stamp (pa n v : Nat) : (s.writeHost pa n v).stamp = s.stamp := rfl
@[simp] theorem State.writeHost_launchId (pa n v : Nat) : (s.writeHost pa n v).launchId = s.launchId := rfl
@[simp] theorem State.writeHost_admitted (pa n v : Nat) : (s.writeHost pa n v).admitted = s.admitted := rfl
@[simp] theorem State.writeHost_lastQueue (pa n v : Nat) : (s.writeHost pa n v).lastQueue = s.lastQueue := rfl
@[simp] theorem State.writeHost_devQueues (pa n v : Nat) : (s.writeHost pa n v).devQueues = s.devQueues := rfl
@[simp] theorem State.writeHost_sysRecord (pa n v : Nat) : (s.writeHost pa n v).sysRecord = s.sysRecord := rfl
@[simp] theorem State.writeHost_running (pa n v : Nat) : (s.writeHost pa n v).running = s.running := rfl
@[simp] theorem State.writeHost_doneTimes (pa n v : Nat) : (s.writeHost pa n v).doneTimes = s.doneTimes := rfl
@[simp] theorem State.writeHost_replyWait (pa n v : Nat) : (s.writeHost pa n v).replyWait = s.replyWait := rfl
@[simp] theorem State.writeHost_imprints (pa n v : Nat) : (s.writeHost pa n v).imprints = s.imprints := rfl
@[simp] theorem State.writeHost_boundaries (pa n v : Nat) : (s.writeHost pa n v).boundaries = s.boundaries := rfl
@[simp] theorem State.writeHost_saved (pa n v : Nat) : (s.writeHost pa n v).saved = s.saved := rfl
@[simp] theorem State.writeHost_win (pa n v : Nat) : (s.writeHost pa n v).win = s.win := rfl
@[simp] theorem State.writeHost_busy (pa n v : Nat) : (s.writeHost pa n v).busy = s.busy := rfl
@[simp] theorem State.writeHost_port (pa n v : Nat) : (s.writeHost pa n v).port = s.port := rfl
@[simp] theorem State.writeHost_powered (pa n v : Nat) : (s.writeHost pa n v).powered = s.powered := rfl
@[simp] theorem State.writeHost_throttled (pa n v : Nat) : (s.writeHost pa n v).throttled = s.throttled := rfl
@[simp] theorem State.writeHost_resets (pa n v : Nat) : (s.writeHost pa n v).resets = s.resets := rfl

/-! `State.modCore` -/

@[simp] theorem State.modCore_cycle (c : Nat) (f : Core → Core) : (s.modCore c f).cycle = s.cycle := rfl
@[simp] theorem State.modCore_ticks (c : Nat) (f : Core → Core) : (s.modCore c f).ticks = s.ticks := rfl
@[simp] theorem State.modCore_clocks (c : Nat) (f : Core → Core) : (s.modCore c f).clocks = s.clocks := rfl
@[simp] theorem State.modCore_agenda (c : Nat) (f : Core → Core) : (s.modCore c f).agenda = s.agenda := rfl
@[simp] theorem State.modCore_ig (c : Nat) (f : Core → Core) : (s.modCore c f).ig = s.ig := rfl
@[simp] theorem State.modCore_oracle (c : Nat) (f : Core → Core) : (s.modCore c f).oracle = s.oracle := rfl
@[simp] theorem State.modCore_nextTag (c : Nat) (f : Core → Core) : (s.modCore c f).nextTag = s.nextTag := rfl
@[simp] theorem State.modCore_nextKey (c : Nat) (f : Core → Core) : (s.modCore c f).nextKey = s.nextKey := rfl
@[simp] theorem State.modCore_hbm (c : Nat) (f : Core → Core) : (s.modCore c f).hbm = s.hbm := rfl
@[simp] theorem State.modCore_hostMem (c : Nat) (f : Core → Core) : (s.modCore c f).hostMem = s.hostMem := rfl
@[simp] theorem State.modCore_bad (c : Nat) (f : Core → Core) : (s.modCore c f).bad = s.bad := rfl
@[simp] theorem State.modCore_homes (c : Nat) (f : Core → Core) : (s.modCore c f).homes = s.homes := rfl
@[simp] theorem State.modCore_regions (c : Nat) (f : Core → Core) : (s.modCore c f).regions = s.regions := rfl
@[simp] theorem State.modCore_net (c : Nat) (f : Core → Core) : (s.modCore c f).net = s.net := rfl
@[simp] theorem State.modCore_memops (c : Nat) (f : Core → Core) : (s.modCore c f).memops = s.memops := rfl
@[simp] theorem State.modCore_tlbs (c : Nat) (f : Core → Core) : (s.modCore c f).tlbs = s.tlbs := rfl
@[simp] theorem State.modCore_misses (c : Nat) (f : Core → Core) : (s.modCore c f).misses = s.misses := rfl
@[simp] theorem State.modCore_slotSeq (c : Nat) (f : Core → Core) : (s.modCore c f).slotSeq = s.slotSeq := rfl
@[simp] theorem State.modCore_formes (c : Nat) (f : Core → Core) : (s.modCore c f).formes = s.formes := rfl
@[simp] theorem State.modCore_errors (c : Nat) (f : Core → Core) : (s.modCore c f).errors = s.errors := rfl
@[simp] theorem State.modCore_nearCaches (c : Nat) (f : Core → Core) : (s.modCore c f).nearCaches = s.nearCaches := rfl
@[simp] theorem State.modCore_cores (c : Nat) (f : Core → Core) : (s.modCore c f).cores = Tab.put c (f (s.core c)) s.cores := rfl
@[simp] theorem State.modCore_teams (c : Nat) (f : Core → Core) : (s.modCore c f).teams = s.teams := rfl
@[simp] theorem State.modCore_clusters (c : Nat) (f : Core → Core) : (s.modCore c f).clusters = s.clusters := rfl
@[simp] theorem State.modCore_launches (c : Nat) (f : Core → Core) : (s.modCore c f).launches = s.launches := rfl
@[simp] theorem State.modCore_matrix (c : Nat) (f : Core → Core) : (s.modCore c f).matrix = s.matrix := rfl
@[simp] theorem State.modCore_grants (c : Nat) (f : Core → Core) : (s.modCore c f).grants = s.grants := rfl
@[simp] theorem State.modCore_starts (c : Nat) (f : Core → Core) : (s.modCore c f).starts = s.starts := rfl
@[simp] theorem State.modCore_windows (c : Nat) (f : Core → Core) : (s.modCore c f).windows = s.windows := rfl
@[simp] theorem State.modCore_jobs (c : Nat) (f : Core → Core) : (s.modCore c f).jobs = s.jobs := rfl
@[simp] theorem State.modCore_platens (c : Nat) (f : Core → Core) : (s.modCore c f).platens = s.platens := rfl
@[simp] theorem State.modCore_fabric (c : Nat) (f : Core → Core) : (s.modCore c f).fabric = s.fabric := rfl
@[simp] theorem State.modCore_stamp (c : Nat) (f : Core → Core) : (s.modCore c f).stamp = s.stamp := rfl
@[simp] theorem State.modCore_launchId (c : Nat) (f : Core → Core) : (s.modCore c f).launchId = s.launchId := rfl
@[simp] theorem State.modCore_admitted (c : Nat) (f : Core → Core) : (s.modCore c f).admitted = s.admitted := rfl
@[simp] theorem State.modCore_lastQueue (c : Nat) (f : Core → Core) : (s.modCore c f).lastQueue = s.lastQueue := rfl
@[simp] theorem State.modCore_devQueues (c : Nat) (f : Core → Core) : (s.modCore c f).devQueues = s.devQueues := rfl
@[simp] theorem State.modCore_sysRecord (c : Nat) (f : Core → Core) : (s.modCore c f).sysRecord = s.sysRecord := rfl
@[simp] theorem State.modCore_running (c : Nat) (f : Core → Core) : (s.modCore c f).running = s.running := rfl
@[simp] theorem State.modCore_doneTimes (c : Nat) (f : Core → Core) : (s.modCore c f).doneTimes = s.doneTimes := rfl
@[simp] theorem State.modCore_replyWait (c : Nat) (f : Core → Core) : (s.modCore c f).replyWait = s.replyWait := rfl
@[simp] theorem State.modCore_imprints (c : Nat) (f : Core → Core) : (s.modCore c f).imprints = s.imprints := rfl
@[simp] theorem State.modCore_boundaries (c : Nat) (f : Core → Core) : (s.modCore c f).boundaries = s.boundaries := rfl
@[simp] theorem State.modCore_saved (c : Nat) (f : Core → Core) : (s.modCore c f).saved = s.saved := rfl
@[simp] theorem State.modCore_win (c : Nat) (f : Core → Core) : (s.modCore c f).win = s.win := rfl
@[simp] theorem State.modCore_busy (c : Nat) (f : Core → Core) : (s.modCore c f).busy = s.busy := rfl
@[simp] theorem State.modCore_port (c : Nat) (f : Core → Core) : (s.modCore c f).port = s.port := rfl
@[simp] theorem State.modCore_powered (c : Nat) (f : Core → Core) : (s.modCore c f).powered = s.powered := rfl
@[simp] theorem State.modCore_throttled (c : Nat) (f : Core → Core) : (s.modCore c f).throttled = s.throttled := rfl
@[simp] theorem State.modCore_resets (c : Nat) (f : Core → Core) : (s.modCore c f).resets = s.resets := rfl

/-! `State.modForme` -/

@[simp] theorem State.modForme_cycle (k : Nat) (f : Forme → Forme) : (s.modForme k f).cycle = s.cycle := rfl
@[simp] theorem State.modForme_ticks (k : Nat) (f : Forme → Forme) : (s.modForme k f).ticks = s.ticks := rfl
@[simp] theorem State.modForme_clocks (k : Nat) (f : Forme → Forme) : (s.modForme k f).clocks = s.clocks := rfl
@[simp] theorem State.modForme_agenda (k : Nat) (f : Forme → Forme) : (s.modForme k f).agenda = s.agenda := rfl
@[simp] theorem State.modForme_ig (k : Nat) (f : Forme → Forme) : (s.modForme k f).ig = s.ig := rfl
@[simp] theorem State.modForme_oracle (k : Nat) (f : Forme → Forme) : (s.modForme k f).oracle = s.oracle := rfl
@[simp] theorem State.modForme_nextTag (k : Nat) (f : Forme → Forme) : (s.modForme k f).nextTag = s.nextTag := rfl
@[simp] theorem State.modForme_nextKey (k : Nat) (f : Forme → Forme) : (s.modForme k f).nextKey = s.nextKey := rfl
@[simp] theorem State.modForme_hbm (k : Nat) (f : Forme → Forme) : (s.modForme k f).hbm = s.hbm := rfl
@[simp] theorem State.modForme_hostMem (k : Nat) (f : Forme → Forme) : (s.modForme k f).hostMem = s.hostMem := rfl
@[simp] theorem State.modForme_bad (k : Nat) (f : Forme → Forme) : (s.modForme k f).bad = s.bad := rfl
@[simp] theorem State.modForme_homes (k : Nat) (f : Forme → Forme) : (s.modForme k f).homes = s.homes := rfl
@[simp] theorem State.modForme_regions (k : Nat) (f : Forme → Forme) : (s.modForme k f).regions = s.regions := rfl
@[simp] theorem State.modForme_net (k : Nat) (f : Forme → Forme) : (s.modForme k f).net = s.net := rfl
@[simp] theorem State.modForme_memops (k : Nat) (f : Forme → Forme) : (s.modForme k f).memops = s.memops := rfl
@[simp] theorem State.modForme_tlbs (k : Nat) (f : Forme → Forme) : (s.modForme k f).tlbs = s.tlbs := rfl
@[simp] theorem State.modForme_misses (k : Nat) (f : Forme → Forme) : (s.modForme k f).misses = s.misses := rfl
@[simp] theorem State.modForme_slotSeq (k : Nat) (f : Forme → Forme) : (s.modForme k f).slotSeq = s.slotSeq := rfl
@[simp] theorem State.modForme_formes (k : Nat) (f : Forme → Forme) : (s.modForme k f).formes = Tab.modify k f s.formes := rfl
@[simp] theorem State.modForme_errors (k : Nat) (f : Forme → Forme) : (s.modForme k f).errors = s.errors := rfl
@[simp] theorem State.modForme_nearCaches (k : Nat) (f : Forme → Forme) : (s.modForme k f).nearCaches = s.nearCaches := rfl
@[simp] theorem State.modForme_cores (k : Nat) (f : Forme → Forme) : (s.modForme k f).cores = s.cores := rfl
@[simp] theorem State.modForme_teams (k : Nat) (f : Forme → Forme) : (s.modForme k f).teams = s.teams := rfl
@[simp] theorem State.modForme_clusters (k : Nat) (f : Forme → Forme) : (s.modForme k f).clusters = s.clusters := rfl
@[simp] theorem State.modForme_launches (k : Nat) (f : Forme → Forme) : (s.modForme k f).launches = s.launches := rfl
@[simp] theorem State.modForme_matrix (k : Nat) (f : Forme → Forme) : (s.modForme k f).matrix = s.matrix := rfl
@[simp] theorem State.modForme_grants (k : Nat) (f : Forme → Forme) : (s.modForme k f).grants = s.grants := rfl
@[simp] theorem State.modForme_starts (k : Nat) (f : Forme → Forme) : (s.modForme k f).starts = s.starts := rfl
@[simp] theorem State.modForme_windows (k : Nat) (f : Forme → Forme) : (s.modForme k f).windows = s.windows := rfl
@[simp] theorem State.modForme_jobs (k : Nat) (f : Forme → Forme) : (s.modForme k f).jobs = s.jobs := rfl
@[simp] theorem State.modForme_platens (k : Nat) (f : Forme → Forme) : (s.modForme k f).platens = s.platens := rfl
@[simp] theorem State.modForme_fabric (k : Nat) (f : Forme → Forme) : (s.modForme k f).fabric = s.fabric := rfl
@[simp] theorem State.modForme_stamp (k : Nat) (f : Forme → Forme) : (s.modForme k f).stamp = s.stamp := rfl
@[simp] theorem State.modForme_launchId (k : Nat) (f : Forme → Forme) : (s.modForme k f).launchId = s.launchId := rfl
@[simp] theorem State.modForme_admitted (k : Nat) (f : Forme → Forme) : (s.modForme k f).admitted = s.admitted := rfl
@[simp] theorem State.modForme_lastQueue (k : Nat) (f : Forme → Forme) : (s.modForme k f).lastQueue = s.lastQueue := rfl
@[simp] theorem State.modForme_devQueues (k : Nat) (f : Forme → Forme) : (s.modForme k f).devQueues = s.devQueues := rfl
@[simp] theorem State.modForme_sysRecord (k : Nat) (f : Forme → Forme) : (s.modForme k f).sysRecord = s.sysRecord := rfl
@[simp] theorem State.modForme_running (k : Nat) (f : Forme → Forme) : (s.modForme k f).running = s.running := rfl
@[simp] theorem State.modForme_doneTimes (k : Nat) (f : Forme → Forme) : (s.modForme k f).doneTimes = s.doneTimes := rfl
@[simp] theorem State.modForme_replyWait (k : Nat) (f : Forme → Forme) : (s.modForme k f).replyWait = s.replyWait := rfl
@[simp] theorem State.modForme_imprints (k : Nat) (f : Forme → Forme) : (s.modForme k f).imprints = s.imprints := rfl
@[simp] theorem State.modForme_boundaries (k : Nat) (f : Forme → Forme) : (s.modForme k f).boundaries = s.boundaries := rfl
@[simp] theorem State.modForme_saved (k : Nat) (f : Forme → Forme) : (s.modForme k f).saved = s.saved := rfl
@[simp] theorem State.modForme_win (k : Nat) (f : Forme → Forme) : (s.modForme k f).win = s.win := rfl
@[simp] theorem State.modForme_busy (k : Nat) (f : Forme → Forme) : (s.modForme k f).busy = s.busy := rfl
@[simp] theorem State.modForme_port (k : Nat) (f : Forme → Forme) : (s.modForme k f).port = s.port := rfl
@[simp] theorem State.modForme_powered (k : Nat) (f : Forme → Forme) : (s.modForme k f).powered = s.powered := rfl
@[simp] theorem State.modForme_throttled (k : Nat) (f : Forme → Forme) : (s.modForme k f).throttled = s.throttled := rfl
@[simp] theorem State.modForme_resets (k : Nat) (f : Forme → Forme) : (s.modForme k f).resets = s.resets := rfl

/-! `State.modHome` -/

@[simp] theorem State.modHome_cycle (h : Nat) (f : Home → Home) : (s.modHome h f).cycle = s.cycle := rfl
@[simp] theorem State.modHome_ticks (h : Nat) (f : Home → Home) : (s.modHome h f).ticks = s.ticks := rfl
@[simp] theorem State.modHome_clocks (h : Nat) (f : Home → Home) : (s.modHome h f).clocks = s.clocks := rfl
@[simp] theorem State.modHome_agenda (h : Nat) (f : Home → Home) : (s.modHome h f).agenda = s.agenda := rfl
@[simp] theorem State.modHome_ig (h : Nat) (f : Home → Home) : (s.modHome h f).ig = s.ig := rfl
@[simp] theorem State.modHome_oracle (h : Nat) (f : Home → Home) : (s.modHome h f).oracle = s.oracle := rfl
@[simp] theorem State.modHome_nextTag (h : Nat) (f : Home → Home) : (s.modHome h f).nextTag = s.nextTag := rfl
@[simp] theorem State.modHome_nextKey (h : Nat) (f : Home → Home) : (s.modHome h f).nextKey = s.nextKey := rfl
@[simp] theorem State.modHome_hbm (h : Nat) (f : Home → Home) : (s.modHome h f).hbm = s.hbm := rfl
@[simp] theorem State.modHome_hostMem (h : Nat) (f : Home → Home) : (s.modHome h f).hostMem = s.hostMem := rfl
@[simp] theorem State.modHome_bad (h : Nat) (f : Home → Home) : (s.modHome h f).bad = s.bad := rfl
@[simp] theorem State.modHome_homes (h : Nat) (f : Home → Home) : (s.modHome h f).homes = Tab.put h (f (s.home h)) s.homes := rfl
@[simp] theorem State.modHome_regions (h : Nat) (f : Home → Home) : (s.modHome h f).regions = s.regions := rfl
@[simp] theorem State.modHome_net (h : Nat) (f : Home → Home) : (s.modHome h f).net = s.net := rfl
@[simp] theorem State.modHome_memops (h : Nat) (f : Home → Home) : (s.modHome h f).memops = s.memops := rfl
@[simp] theorem State.modHome_tlbs (h : Nat) (f : Home → Home) : (s.modHome h f).tlbs = s.tlbs := rfl
@[simp] theorem State.modHome_misses (h : Nat) (f : Home → Home) : (s.modHome h f).misses = s.misses := rfl
@[simp] theorem State.modHome_slotSeq (h : Nat) (f : Home → Home) : (s.modHome h f).slotSeq = s.slotSeq := rfl
@[simp] theorem State.modHome_formes (h : Nat) (f : Home → Home) : (s.modHome h f).formes = s.formes := rfl
@[simp] theorem State.modHome_errors (h : Nat) (f : Home → Home) : (s.modHome h f).errors = s.errors := rfl
@[simp] theorem State.modHome_nearCaches (h : Nat) (f : Home → Home) : (s.modHome h f).nearCaches = s.nearCaches := rfl
@[simp] theorem State.modHome_cores (h : Nat) (f : Home → Home) : (s.modHome h f).cores = s.cores := rfl
@[simp] theorem State.modHome_teams (h : Nat) (f : Home → Home) : (s.modHome h f).teams = s.teams := rfl
@[simp] theorem State.modHome_clusters (h : Nat) (f : Home → Home) : (s.modHome h f).clusters = s.clusters := rfl
@[simp] theorem State.modHome_launches (h : Nat) (f : Home → Home) : (s.modHome h f).launches = s.launches := rfl
@[simp] theorem State.modHome_matrix (h : Nat) (f : Home → Home) : (s.modHome h f).matrix = s.matrix := rfl
@[simp] theorem State.modHome_grants (h : Nat) (f : Home → Home) : (s.modHome h f).grants = s.grants := rfl
@[simp] theorem State.modHome_starts (h : Nat) (f : Home → Home) : (s.modHome h f).starts = s.starts := rfl
@[simp] theorem State.modHome_windows (h : Nat) (f : Home → Home) : (s.modHome h f).windows = s.windows := rfl
@[simp] theorem State.modHome_jobs (h : Nat) (f : Home → Home) : (s.modHome h f).jobs = s.jobs := rfl
@[simp] theorem State.modHome_platens (h : Nat) (f : Home → Home) : (s.modHome h f).platens = s.platens := rfl
@[simp] theorem State.modHome_fabric (h : Nat) (f : Home → Home) : (s.modHome h f).fabric = s.fabric := rfl
@[simp] theorem State.modHome_stamp (h : Nat) (f : Home → Home) : (s.modHome h f).stamp = s.stamp := rfl
@[simp] theorem State.modHome_launchId (h : Nat) (f : Home → Home) : (s.modHome h f).launchId = s.launchId := rfl
@[simp] theorem State.modHome_admitted (h : Nat) (f : Home → Home) : (s.modHome h f).admitted = s.admitted := rfl
@[simp] theorem State.modHome_lastQueue (h : Nat) (f : Home → Home) : (s.modHome h f).lastQueue = s.lastQueue := rfl
@[simp] theorem State.modHome_devQueues (h : Nat) (f : Home → Home) : (s.modHome h f).devQueues = s.devQueues := rfl
@[simp] theorem State.modHome_sysRecord (h : Nat) (f : Home → Home) : (s.modHome h f).sysRecord = s.sysRecord := rfl
@[simp] theorem State.modHome_running (h : Nat) (f : Home → Home) : (s.modHome h f).running = s.running := rfl
@[simp] theorem State.modHome_doneTimes (h : Nat) (f : Home → Home) : (s.modHome h f).doneTimes = s.doneTimes := rfl
@[simp] theorem State.modHome_replyWait (h : Nat) (f : Home → Home) : (s.modHome h f).replyWait = s.replyWait := rfl
@[simp] theorem State.modHome_imprints (h : Nat) (f : Home → Home) : (s.modHome h f).imprints = s.imprints := rfl
@[simp] theorem State.modHome_boundaries (h : Nat) (f : Home → Home) : (s.modHome h f).boundaries = s.boundaries := rfl
@[simp] theorem State.modHome_saved (h : Nat) (f : Home → Home) : (s.modHome h f).saved = s.saved := rfl
@[simp] theorem State.modHome_win (h : Nat) (f : Home → Home) : (s.modHome h f).win = s.win := rfl
@[simp] theorem State.modHome_busy (h : Nat) (f : Home → Home) : (s.modHome h f).busy = s.busy := rfl
@[simp] theorem State.modHome_port (h : Nat) (f : Home → Home) : (s.modHome h f).port = s.port := rfl
@[simp] theorem State.modHome_powered (h : Nat) (f : Home → Home) : (s.modHome h f).powered = s.powered := rfl
@[simp] theorem State.modHome_throttled (h : Nat) (f : Home → Home) : (s.modHome h f).throttled = s.throttled := rfl
@[simp] theorem State.modHome_resets (h : Nat) (f : Home → Home) : (s.modHome h f).resets = s.resets := rfl

/-! `State.modRegion` -/

@[simp] theorem State.modRegion_cycle (r : Nat) (f : Region → Region) : (s.modRegion r f).cycle = s.cycle := rfl
@[simp] theorem State.modRegion_ticks (r : Nat) (f : Region → Region) : (s.modRegion r f).ticks = s.ticks := rfl
@[simp] theorem State.modRegion_clocks (r : Nat) (f : Region → Region) : (s.modRegion r f).clocks = s.clocks := rfl
@[simp] theorem State.modRegion_agenda (r : Nat) (f : Region → Region) : (s.modRegion r f).agenda = s.agenda := rfl
@[simp] theorem State.modRegion_ig (r : Nat) (f : Region → Region) : (s.modRegion r f).ig = s.ig := rfl
@[simp] theorem State.modRegion_oracle (r : Nat) (f : Region → Region) : (s.modRegion r f).oracle = s.oracle := rfl
@[simp] theorem State.modRegion_nextTag (r : Nat) (f : Region → Region) : (s.modRegion r f).nextTag = s.nextTag := rfl
@[simp] theorem State.modRegion_nextKey (r : Nat) (f : Region → Region) : (s.modRegion r f).nextKey = s.nextKey := rfl
@[simp] theorem State.modRegion_hbm (r : Nat) (f : Region → Region) : (s.modRegion r f).hbm = s.hbm := rfl
@[simp] theorem State.modRegion_hostMem (r : Nat) (f : Region → Region) : (s.modRegion r f).hostMem = s.hostMem := rfl
@[simp] theorem State.modRegion_bad (r : Nat) (f : Region → Region) : (s.modRegion r f).bad = s.bad := rfl
@[simp] theorem State.modRegion_homes (r : Nat) (f : Region → Region) : (s.modRegion r f).homes = s.homes := rfl
@[simp] theorem State.modRegion_regions (r : Nat) (f : Region → Region) : (s.modRegion r f).regions = Tab.put r (f (s.region r)) s.regions := rfl
@[simp] theorem State.modRegion_net (r : Nat) (f : Region → Region) : (s.modRegion r f).net = s.net := rfl
@[simp] theorem State.modRegion_memops (r : Nat) (f : Region → Region) : (s.modRegion r f).memops = s.memops := rfl
@[simp] theorem State.modRegion_tlbs (r : Nat) (f : Region → Region) : (s.modRegion r f).tlbs = s.tlbs := rfl
@[simp] theorem State.modRegion_misses (r : Nat) (f : Region → Region) : (s.modRegion r f).misses = s.misses := rfl
@[simp] theorem State.modRegion_slotSeq (r : Nat) (f : Region → Region) : (s.modRegion r f).slotSeq = s.slotSeq := rfl
@[simp] theorem State.modRegion_formes (r : Nat) (f : Region → Region) : (s.modRegion r f).formes = s.formes := rfl
@[simp] theorem State.modRegion_errors (r : Nat) (f : Region → Region) : (s.modRegion r f).errors = s.errors := rfl
@[simp] theorem State.modRegion_nearCaches (r : Nat) (f : Region → Region) : (s.modRegion r f).nearCaches = s.nearCaches := rfl
@[simp] theorem State.modRegion_cores (r : Nat) (f : Region → Region) : (s.modRegion r f).cores = s.cores := rfl
@[simp] theorem State.modRegion_teams (r : Nat) (f : Region → Region) : (s.modRegion r f).teams = s.teams := rfl
@[simp] theorem State.modRegion_clusters (r : Nat) (f : Region → Region) : (s.modRegion r f).clusters = s.clusters := rfl
@[simp] theorem State.modRegion_launches (r : Nat) (f : Region → Region) : (s.modRegion r f).launches = s.launches := rfl
@[simp] theorem State.modRegion_matrix (r : Nat) (f : Region → Region) : (s.modRegion r f).matrix = s.matrix := rfl
@[simp] theorem State.modRegion_grants (r : Nat) (f : Region → Region) : (s.modRegion r f).grants = s.grants := rfl
@[simp] theorem State.modRegion_starts (r : Nat) (f : Region → Region) : (s.modRegion r f).starts = s.starts := rfl
@[simp] theorem State.modRegion_windows (r : Nat) (f : Region → Region) : (s.modRegion r f).windows = s.windows := rfl
@[simp] theorem State.modRegion_jobs (r : Nat) (f : Region → Region) : (s.modRegion r f).jobs = s.jobs := rfl
@[simp] theorem State.modRegion_platens (r : Nat) (f : Region → Region) : (s.modRegion r f).platens = s.platens := rfl
@[simp] theorem State.modRegion_fabric (r : Nat) (f : Region → Region) : (s.modRegion r f).fabric = s.fabric := rfl
@[simp] theorem State.modRegion_stamp (r : Nat) (f : Region → Region) : (s.modRegion r f).stamp = s.stamp := rfl
@[simp] theorem State.modRegion_launchId (r : Nat) (f : Region → Region) : (s.modRegion r f).launchId = s.launchId := rfl
@[simp] theorem State.modRegion_admitted (r : Nat) (f : Region → Region) : (s.modRegion r f).admitted = s.admitted := rfl
@[simp] theorem State.modRegion_lastQueue (r : Nat) (f : Region → Region) : (s.modRegion r f).lastQueue = s.lastQueue := rfl
@[simp] theorem State.modRegion_devQueues (r : Nat) (f : Region → Region) : (s.modRegion r f).devQueues = s.devQueues := rfl
@[simp] theorem State.modRegion_sysRecord (r : Nat) (f : Region → Region) : (s.modRegion r f).sysRecord = s.sysRecord := rfl
@[simp] theorem State.modRegion_running (r : Nat) (f : Region → Region) : (s.modRegion r f).running = s.running := rfl
@[simp] theorem State.modRegion_doneTimes (r : Nat) (f : Region → Region) : (s.modRegion r f).doneTimes = s.doneTimes := rfl
@[simp] theorem State.modRegion_replyWait (r : Nat) (f : Region → Region) : (s.modRegion r f).replyWait = s.replyWait := rfl
@[simp] theorem State.modRegion_imprints (r : Nat) (f : Region → Region) : (s.modRegion r f).imprints = s.imprints := rfl
@[simp] theorem State.modRegion_boundaries (r : Nat) (f : Region → Region) : (s.modRegion r f).boundaries = s.boundaries := rfl
@[simp] theorem State.modRegion_saved (r : Nat) (f : Region → Region) : (s.modRegion r f).saved = s.saved := rfl
@[simp] theorem State.modRegion_win (r : Nat) (f : Region → Region) : (s.modRegion r f).win = s.win := rfl
@[simp] theorem State.modRegion_busy (r : Nat) (f : Region → Region) : (s.modRegion r f).busy = s.busy := rfl
@[simp] theorem State.modRegion_port (r : Nat) (f : Region → Region) : (s.modRegion r f).port = s.port := rfl
@[simp] theorem State.modRegion_powered (r : Nat) (f : Region → Region) : (s.modRegion r f).powered = s.powered := rfl
@[simp] theorem State.modRegion_throttled (r : Nat) (f : Region → Region) : (s.modRegion r f).throttled = s.throttled := rfl
@[simp] theorem State.modRegion_resets (r : Nat) (f : Region → Region) : (s.modRegion r f).resets = s.resets := rfl

/-! `State.taken` -/

@[simp] theorem State.taken_cycle (t : Nat) : (s.taken t).cycle = s.cycle := rfl
@[simp] theorem State.taken_ticks (t : Nat) : (s.taken t).ticks = s.ticks := rfl
@[simp] theorem State.taken_clocks (t : Nat) : (s.taken t).clocks = s.clocks := rfl
@[simp] theorem State.taken_agenda (t : Nat) : (s.taken t).agenda = s.agenda := rfl
@[simp] theorem State.taken_ig (t : Nat) : (s.taken t).ig = s.ig := rfl
@[simp] theorem State.taken_oracle (t : Nat) : (s.taken t).oracle = s.oracle := rfl
@[simp] theorem State.taken_nextTag (t : Nat) : (s.taken t).nextTag = s.nextTag := rfl
@[simp] theorem State.taken_nextKey (t : Nat) : (s.taken t).nextKey = s.nextKey := rfl
@[simp] theorem State.taken_hbm (t : Nat) : (s.taken t).hbm = s.hbm := rfl
@[simp] theorem State.taken_hostMem (t : Nat) : (s.taken t).hostMem = s.hostMem := rfl
@[simp] theorem State.taken_bad (t : Nat) : (s.taken t).bad = s.bad := rfl
@[simp] theorem State.taken_homes (t : Nat) : (s.taken t).homes = s.homes := rfl
@[simp] theorem State.taken_regions (t : Nat) : (s.taken t).regions = s.regions := rfl
@[simp] theorem State.taken_net (t : Nat) : (s.taken t).net = Tab.del t s.net := rfl
@[simp] theorem State.taken_memops (t : Nat) : (s.taken t).memops = s.memops := rfl
@[simp] theorem State.taken_tlbs (t : Nat) : (s.taken t).tlbs = s.tlbs := rfl
@[simp] theorem State.taken_misses (t : Nat) : (s.taken t).misses = s.misses := rfl
@[simp] theorem State.taken_slotSeq (t : Nat) : (s.taken t).slotSeq = s.slotSeq := rfl
@[simp] theorem State.taken_formes (t : Nat) : (s.taken t).formes = s.formes := rfl
@[simp] theorem State.taken_errors (t : Nat) : (s.taken t).errors = s.errors := rfl
@[simp] theorem State.taken_nearCaches (t : Nat) : (s.taken t).nearCaches = s.nearCaches := rfl
@[simp] theorem State.taken_cores (t : Nat) : (s.taken t).cores = s.cores := rfl
@[simp] theorem State.taken_teams (t : Nat) : (s.taken t).teams = s.teams := rfl
@[simp] theorem State.taken_clusters (t : Nat) : (s.taken t).clusters = s.clusters := rfl
@[simp] theorem State.taken_launches (t : Nat) : (s.taken t).launches = s.launches := rfl
@[simp] theorem State.taken_matrix (t : Nat) : (s.taken t).matrix = s.matrix := rfl
@[simp] theorem State.taken_grants (t : Nat) : (s.taken t).grants = s.grants := rfl
@[simp] theorem State.taken_starts (t : Nat) : (s.taken t).starts = s.starts := rfl
@[simp] theorem State.taken_windows (t : Nat) : (s.taken t).windows = s.windows := rfl
@[simp] theorem State.taken_jobs (t : Nat) : (s.taken t).jobs = s.jobs := rfl
@[simp] theorem State.taken_platens (t : Nat) : (s.taken t).platens = s.platens := rfl
@[simp] theorem State.taken_fabric (t : Nat) : (s.taken t).fabric = s.fabric := rfl
@[simp] theorem State.taken_stamp (t : Nat) : (s.taken t).stamp = s.stamp := rfl
@[simp] theorem State.taken_launchId (t : Nat) : (s.taken t).launchId = s.launchId := rfl
@[simp] theorem State.taken_admitted (t : Nat) : (s.taken t).admitted = s.admitted := rfl
@[simp] theorem State.taken_lastQueue (t : Nat) : (s.taken t).lastQueue = s.lastQueue := rfl
@[simp] theorem State.taken_devQueues (t : Nat) : (s.taken t).devQueues = s.devQueues := rfl
@[simp] theorem State.taken_sysRecord (t : Nat) : (s.taken t).sysRecord = s.sysRecord := rfl
@[simp] theorem State.taken_running (t : Nat) : (s.taken t).running = s.running := rfl
@[simp] theorem State.taken_doneTimes (t : Nat) : (s.taken t).doneTimes = s.doneTimes := rfl
@[simp] theorem State.taken_replyWait (t : Nat) : (s.taken t).replyWait = s.replyWait := rfl
@[simp] theorem State.taken_imprints (t : Nat) : (s.taken t).imprints = s.imprints := rfl
@[simp] theorem State.taken_boundaries (t : Nat) : (s.taken t).boundaries = s.boundaries := rfl
@[simp] theorem State.taken_saved (t : Nat) : (s.taken t).saved = s.saved := rfl
@[simp] theorem State.taken_win (t : Nat) : (s.taken t).win = s.win := rfl
@[simp] theorem State.taken_busy (t : Nat) : (s.taken t).busy = s.busy := rfl
@[simp] theorem State.taken_port (t : Nat) : (s.taken t).port = s.port := rfl
@[simp] theorem State.taken_powered (t : Nat) : (s.taken t).powered = s.powered := rfl
@[simp] theorem State.taken_throttled (t : Nat) : (s.taken t).throttled = s.throttled := rfl
@[simp] theorem State.taken_resets (t : Nat) : (s.taken t).resets = s.resets := rfl

/-! `State.fresh` -/

@[simp] theorem State.fresh_cycle : s.fresh.2.cycle = s.cycle := rfl
@[simp] theorem State.fresh_ticks : s.fresh.2.ticks = s.ticks := rfl
@[simp] theorem State.fresh_clocks : s.fresh.2.clocks = s.clocks := rfl
@[simp] theorem State.fresh_agenda : s.fresh.2.agenda = s.agenda := rfl
@[simp] theorem State.fresh_ig : s.fresh.2.ig = s.ig := rfl
@[simp] theorem State.fresh_oracle : s.fresh.2.oracle = s.oracle := rfl
@[simp] theorem State.fresh_nextTag : s.fresh.2.nextTag = s.nextTag + 1 := rfl
@[simp] theorem State.fresh_nextKey : s.fresh.2.nextKey = s.nextKey := rfl
@[simp] theorem State.fresh_hbm : s.fresh.2.hbm = s.hbm := rfl
@[simp] theorem State.fresh_hostMem : s.fresh.2.hostMem = s.hostMem := rfl
@[simp] theorem State.fresh_bad : s.fresh.2.bad = s.bad := rfl
@[simp] theorem State.fresh_homes : s.fresh.2.homes = s.homes := rfl
@[simp] theorem State.fresh_regions : s.fresh.2.regions = s.regions := rfl
@[simp] theorem State.fresh_net : s.fresh.2.net = s.net := rfl
@[simp] theorem State.fresh_memops : s.fresh.2.memops = s.memops := rfl
@[simp] theorem State.fresh_tlbs : s.fresh.2.tlbs = s.tlbs := rfl
@[simp] theorem State.fresh_misses : s.fresh.2.misses = s.misses := rfl
@[simp] theorem State.fresh_slotSeq : s.fresh.2.slotSeq = s.slotSeq := rfl
@[simp] theorem State.fresh_formes : s.fresh.2.formes = s.formes := rfl
@[simp] theorem State.fresh_errors : s.fresh.2.errors = s.errors := rfl
@[simp] theorem State.fresh_nearCaches : s.fresh.2.nearCaches = s.nearCaches := rfl
@[simp] theorem State.fresh_cores : s.fresh.2.cores = s.cores := rfl
@[simp] theorem State.fresh_teams : s.fresh.2.teams = s.teams := rfl
@[simp] theorem State.fresh_clusters : s.fresh.2.clusters = s.clusters := rfl
@[simp] theorem State.fresh_launches : s.fresh.2.launches = s.launches := rfl
@[simp] theorem State.fresh_matrix : s.fresh.2.matrix = s.matrix := rfl
@[simp] theorem State.fresh_grants : s.fresh.2.grants = s.grants := rfl
@[simp] theorem State.fresh_starts : s.fresh.2.starts = s.starts := rfl
@[simp] theorem State.fresh_windows : s.fresh.2.windows = s.windows := rfl
@[simp] theorem State.fresh_jobs : s.fresh.2.jobs = s.jobs := rfl
@[simp] theorem State.fresh_platens : s.fresh.2.platens = s.platens := rfl
@[simp] theorem State.fresh_fabric : s.fresh.2.fabric = s.fabric := rfl
@[simp] theorem State.fresh_stamp : s.fresh.2.stamp = s.stamp := rfl
@[simp] theorem State.fresh_launchId : s.fresh.2.launchId = s.launchId := rfl
@[simp] theorem State.fresh_admitted : s.fresh.2.admitted = s.admitted := rfl
@[simp] theorem State.fresh_lastQueue : s.fresh.2.lastQueue = s.lastQueue := rfl
@[simp] theorem State.fresh_devQueues : s.fresh.2.devQueues = s.devQueues := rfl
@[simp] theorem State.fresh_sysRecord : s.fresh.2.sysRecord = s.sysRecord := rfl
@[simp] theorem State.fresh_running : s.fresh.2.running = s.running := rfl
@[simp] theorem State.fresh_doneTimes : s.fresh.2.doneTimes = s.doneTimes := rfl
@[simp] theorem State.fresh_replyWait : s.fresh.2.replyWait = s.replyWait := rfl
@[simp] theorem State.fresh_imprints : s.fresh.2.imprints = s.imprints := rfl
@[simp] theorem State.fresh_boundaries : s.fresh.2.boundaries = s.boundaries := rfl
@[simp] theorem State.fresh_saved : s.fresh.2.saved = s.saved := rfl
@[simp] theorem State.fresh_win : s.fresh.2.win = s.win := rfl
@[simp] theorem State.fresh_busy : s.fresh.2.busy = s.busy := rfl
@[simp] theorem State.fresh_port : s.fresh.2.port = s.port := rfl
@[simp] theorem State.fresh_powered : s.fresh.2.powered = s.powered := rfl
@[simp] theorem State.fresh_throttled : s.fresh.2.throttled = s.throttled := rfl
@[simp] theorem State.fresh_resets : s.fresh.2.resets = s.resets := rfl

/-! `State.freshKey` -/

@[simp] theorem State.freshKey_cycle : s.freshKey.2.cycle = s.cycle := rfl
@[simp] theorem State.freshKey_ticks : s.freshKey.2.ticks = s.ticks := rfl
@[simp] theorem State.freshKey_clocks : s.freshKey.2.clocks = s.clocks := rfl
@[simp] theorem State.freshKey_agenda : s.freshKey.2.agenda = s.agenda := rfl
@[simp] theorem State.freshKey_ig : s.freshKey.2.ig = s.ig := rfl
@[simp] theorem State.freshKey_oracle : s.freshKey.2.oracle = s.oracle := rfl
@[simp] theorem State.freshKey_nextTag : s.freshKey.2.nextTag = s.nextTag := rfl
@[simp] theorem State.freshKey_nextKey : s.freshKey.2.nextKey = s.nextKey + 1 := rfl
@[simp] theorem State.freshKey_hbm : s.freshKey.2.hbm = s.hbm := rfl
@[simp] theorem State.freshKey_hostMem : s.freshKey.2.hostMem = s.hostMem := rfl
@[simp] theorem State.freshKey_bad : s.freshKey.2.bad = s.bad := rfl
@[simp] theorem State.freshKey_homes : s.freshKey.2.homes = s.homes := rfl
@[simp] theorem State.freshKey_regions : s.freshKey.2.regions = s.regions := rfl
@[simp] theorem State.freshKey_net : s.freshKey.2.net = s.net := rfl
@[simp] theorem State.freshKey_memops : s.freshKey.2.memops = s.memops := rfl
@[simp] theorem State.freshKey_tlbs : s.freshKey.2.tlbs = s.tlbs := rfl
@[simp] theorem State.freshKey_misses : s.freshKey.2.misses = s.misses := rfl
@[simp] theorem State.freshKey_slotSeq : s.freshKey.2.slotSeq = s.slotSeq := rfl
@[simp] theorem State.freshKey_formes : s.freshKey.2.formes = s.formes := rfl
@[simp] theorem State.freshKey_errors : s.freshKey.2.errors = s.errors := rfl
@[simp] theorem State.freshKey_nearCaches : s.freshKey.2.nearCaches = s.nearCaches := rfl
@[simp] theorem State.freshKey_cores : s.freshKey.2.cores = s.cores := rfl
@[simp] theorem State.freshKey_teams : s.freshKey.2.teams = s.teams := rfl
@[simp] theorem State.freshKey_clusters : s.freshKey.2.clusters = s.clusters := rfl
@[simp] theorem State.freshKey_launches : s.freshKey.2.launches = s.launches := rfl
@[simp] theorem State.freshKey_matrix : s.freshKey.2.matrix = s.matrix := rfl
@[simp] theorem State.freshKey_grants : s.freshKey.2.grants = s.grants := rfl
@[simp] theorem State.freshKey_starts : s.freshKey.2.starts = s.starts := rfl
@[simp] theorem State.freshKey_windows : s.freshKey.2.windows = s.windows := rfl
@[simp] theorem State.freshKey_jobs : s.freshKey.2.jobs = s.jobs := rfl
@[simp] theorem State.freshKey_platens : s.freshKey.2.platens = s.platens := rfl
@[simp] theorem State.freshKey_fabric : s.freshKey.2.fabric = s.fabric := rfl
@[simp] theorem State.freshKey_stamp : s.freshKey.2.stamp = s.stamp := rfl
@[simp] theorem State.freshKey_launchId : s.freshKey.2.launchId = s.launchId := rfl
@[simp] theorem State.freshKey_admitted : s.freshKey.2.admitted = s.admitted := rfl
@[simp] theorem State.freshKey_lastQueue : s.freshKey.2.lastQueue = s.lastQueue := rfl
@[simp] theorem State.freshKey_devQueues : s.freshKey.2.devQueues = s.devQueues := rfl
@[simp] theorem State.freshKey_sysRecord : s.freshKey.2.sysRecord = s.sysRecord := rfl
@[simp] theorem State.freshKey_running : s.freshKey.2.running = s.running := rfl
@[simp] theorem State.freshKey_doneTimes : s.freshKey.2.doneTimes = s.doneTimes := rfl
@[simp] theorem State.freshKey_replyWait : s.freshKey.2.replyWait = s.replyWait := rfl
@[simp] theorem State.freshKey_imprints : s.freshKey.2.imprints = s.imprints := rfl
@[simp] theorem State.freshKey_boundaries : s.freshKey.2.boundaries = s.boundaries := rfl
@[simp] theorem State.freshKey_saved : s.freshKey.2.saved = s.saved := rfl
@[simp] theorem State.freshKey_win : s.freshKey.2.win = s.win := rfl
@[simp] theorem State.freshKey_busy : s.freshKey.2.busy = s.busy := rfl
@[simp] theorem State.freshKey_port : s.freshKey.2.port = s.port := rfl
@[simp] theorem State.freshKey_powered : s.freshKey.2.powered = s.powered := rfl
@[simp] theorem State.freshKey_throttled : s.freshKey.2.throttled = s.throttled := rfl
@[simp] theorem State.freshKey_resets : s.freshKey.2.resets = s.resets := rfl

/-! `State.draw` -/

@[simp] theorem State.draw_cycle : s.draw.2.cycle = s.cycle := rfl
@[simp] theorem State.draw_ticks : s.draw.2.ticks = s.ticks := rfl
@[simp] theorem State.draw_clocks : s.draw.2.clocks = s.clocks := rfl
@[simp] theorem State.draw_agenda : s.draw.2.agenda = s.agenda := rfl
@[simp] theorem State.draw_ig : s.draw.2.ig = s.ig := rfl
@[simp] theorem State.draw_oracle : s.draw.2.oracle = s.oracle + 1 := rfl
@[simp] theorem State.draw_nextTag : s.draw.2.nextTag = s.nextTag := rfl
@[simp] theorem State.draw_nextKey : s.draw.2.nextKey = s.nextKey := rfl
@[simp] theorem State.draw_hbm : s.draw.2.hbm = s.hbm := rfl
@[simp] theorem State.draw_hostMem : s.draw.2.hostMem = s.hostMem := rfl
@[simp] theorem State.draw_bad : s.draw.2.bad = s.bad := rfl
@[simp] theorem State.draw_homes : s.draw.2.homes = s.homes := rfl
@[simp] theorem State.draw_regions : s.draw.2.regions = s.regions := rfl
@[simp] theorem State.draw_net : s.draw.2.net = s.net := rfl
@[simp] theorem State.draw_memops : s.draw.2.memops = s.memops := rfl
@[simp] theorem State.draw_tlbs : s.draw.2.tlbs = s.tlbs := rfl
@[simp] theorem State.draw_misses : s.draw.2.misses = s.misses := rfl
@[simp] theorem State.draw_slotSeq : s.draw.2.slotSeq = s.slotSeq := rfl
@[simp] theorem State.draw_formes : s.draw.2.formes = s.formes := rfl
@[simp] theorem State.draw_errors : s.draw.2.errors = s.errors := rfl
@[simp] theorem State.draw_nearCaches : s.draw.2.nearCaches = s.nearCaches := rfl
@[simp] theorem State.draw_cores : s.draw.2.cores = s.cores := rfl
@[simp] theorem State.draw_teams : s.draw.2.teams = s.teams := rfl
@[simp] theorem State.draw_clusters : s.draw.2.clusters = s.clusters := rfl
@[simp] theorem State.draw_launches : s.draw.2.launches = s.launches := rfl
@[simp] theorem State.draw_matrix : s.draw.2.matrix = s.matrix := rfl
@[simp] theorem State.draw_grants : s.draw.2.grants = s.grants := rfl
@[simp] theorem State.draw_starts : s.draw.2.starts = s.starts := rfl
@[simp] theorem State.draw_windows : s.draw.2.windows = s.windows := rfl
@[simp] theorem State.draw_jobs : s.draw.2.jobs = s.jobs := rfl
@[simp] theorem State.draw_platens : s.draw.2.platens = s.platens := rfl
@[simp] theorem State.draw_fabric : s.draw.2.fabric = s.fabric := rfl
@[simp] theorem State.draw_stamp : s.draw.2.stamp = s.stamp := rfl
@[simp] theorem State.draw_launchId : s.draw.2.launchId = s.launchId := rfl
@[simp] theorem State.draw_admitted : s.draw.2.admitted = s.admitted := rfl
@[simp] theorem State.draw_lastQueue : s.draw.2.lastQueue = s.lastQueue := rfl
@[simp] theorem State.draw_devQueues : s.draw.2.devQueues = s.devQueues := rfl
@[simp] theorem State.draw_sysRecord : s.draw.2.sysRecord = s.sysRecord := rfl
@[simp] theorem State.draw_running : s.draw.2.running = s.running := rfl
@[simp] theorem State.draw_doneTimes : s.draw.2.doneTimes = s.doneTimes := rfl
@[simp] theorem State.draw_replyWait : s.draw.2.replyWait = s.replyWait := rfl
@[simp] theorem State.draw_imprints : s.draw.2.imprints = s.imprints := rfl
@[simp] theorem State.draw_boundaries : s.draw.2.boundaries = s.boundaries := rfl
@[simp] theorem State.draw_saved : s.draw.2.saved = s.saved := rfl
@[simp] theorem State.draw_win : s.draw.2.win = s.win := rfl
@[simp] theorem State.draw_busy : s.draw.2.busy = s.busy := rfl
@[simp] theorem State.draw_port : s.draw.2.port = s.port := rfl
@[simp] theorem State.draw_powered : s.draw.2.powered = s.powered := rfl
@[simp] theorem State.draw_throttled : s.draw.2.throttled = s.throttled := rfl
@[simp] theorem State.draw_resets : s.draw.2.resets = s.resets := rfl

/-! `State.send` -/

@[simp] theorem State.send_cycle (m : Msg) : (s.send m).cycle = s.cycle := rfl
@[simp] theorem State.send_ticks (m : Msg) : (s.send m).ticks = s.ticks := rfl
@[simp] theorem State.send_clocks (m : Msg) : (s.send m).clocks = s.clocks := rfl
@[simp] theorem State.send_agenda (m : Msg) : (s.send m).agenda = s.agenda := rfl
@[simp] theorem State.send_ig (m : Msg) : (s.send m).ig = s.ig := rfl
@[simp] theorem State.send_oracle (m : Msg) : (s.send m).oracle = s.oracle := rfl
@[simp] theorem State.send_nextTag (m : Msg) : (s.send m).nextTag = s.nextTag + 1 := rfl
@[simp] theorem State.send_nextKey (m : Msg) : (s.send m).nextKey = s.nextKey := rfl
@[simp] theorem State.send_hbm (m : Msg) : (s.send m).hbm = s.hbm := rfl
@[simp] theorem State.send_hostMem (m : Msg) : (s.send m).hostMem = s.hostMem := rfl
@[simp] theorem State.send_bad (m : Msg) : (s.send m).bad = s.bad := rfl
@[simp] theorem State.send_homes (m : Msg) : (s.send m).homes = s.homes := rfl
@[simp] theorem State.send_regions (m : Msg) : (s.send m).regions = s.regions := rfl
@[simp] theorem State.send_net (m : Msg) : (s.send m).net = Tab.put s.nextTag m s.net := rfl
@[simp] theorem State.send_memops (m : Msg) : (s.send m).memops = s.memops := rfl
@[simp] theorem State.send_tlbs (m : Msg) : (s.send m).tlbs = s.tlbs := rfl
@[simp] theorem State.send_misses (m : Msg) : (s.send m).misses = s.misses := rfl
@[simp] theorem State.send_slotSeq (m : Msg) : (s.send m).slotSeq = s.slotSeq := rfl
@[simp] theorem State.send_formes (m : Msg) : (s.send m).formes = s.formes := rfl
@[simp] theorem State.send_errors (m : Msg) : (s.send m).errors = s.errors := rfl
@[simp] theorem State.send_nearCaches (m : Msg) : (s.send m).nearCaches = s.nearCaches := rfl
@[simp] theorem State.send_cores (m : Msg) : (s.send m).cores = s.cores := rfl
@[simp] theorem State.send_teams (m : Msg) : (s.send m).teams = s.teams := rfl
@[simp] theorem State.send_clusters (m : Msg) : (s.send m).clusters = s.clusters := rfl
@[simp] theorem State.send_launches (m : Msg) : (s.send m).launches = s.launches := rfl
@[simp] theorem State.send_matrix (m : Msg) : (s.send m).matrix = s.matrix := rfl
@[simp] theorem State.send_grants (m : Msg) : (s.send m).grants = s.grants := rfl
@[simp] theorem State.send_starts (m : Msg) : (s.send m).starts = s.starts := rfl
@[simp] theorem State.send_windows (m : Msg) : (s.send m).windows = s.windows := rfl
@[simp] theorem State.send_jobs (m : Msg) : (s.send m).jobs = s.jobs := rfl
@[simp] theorem State.send_platens (m : Msg) : (s.send m).platens = s.platens := rfl
@[simp] theorem State.send_fabric (m : Msg) : (s.send m).fabric = s.fabric := rfl
@[simp] theorem State.send_stamp (m : Msg) : (s.send m).stamp = s.stamp := rfl
@[simp] theorem State.send_launchId (m : Msg) : (s.send m).launchId = s.launchId := rfl
@[simp] theorem State.send_admitted (m : Msg) : (s.send m).admitted = s.admitted := rfl
@[simp] theorem State.send_lastQueue (m : Msg) : (s.send m).lastQueue = s.lastQueue := rfl
@[simp] theorem State.send_devQueues (m : Msg) : (s.send m).devQueues = s.devQueues := rfl
@[simp] theorem State.send_sysRecord (m : Msg) : (s.send m).sysRecord = s.sysRecord := rfl
@[simp] theorem State.send_running (m : Msg) : (s.send m).running = s.running := rfl
@[simp] theorem State.send_doneTimes (m : Msg) : (s.send m).doneTimes = s.doneTimes := rfl
@[simp] theorem State.send_replyWait (m : Msg) : (s.send m).replyWait = s.replyWait := rfl
@[simp] theorem State.send_imprints (m : Msg) : (s.send m).imprints = s.imprints := rfl
@[simp] theorem State.send_boundaries (m : Msg) : (s.send m).boundaries = s.boundaries := rfl
@[simp] theorem State.send_saved (m : Msg) : (s.send m).saved = s.saved := rfl
@[simp] theorem State.send_win (m : Msg) : (s.send m).win = s.win := rfl
@[simp] theorem State.send_busy (m : Msg) : (s.send m).busy = s.busy := rfl
@[simp] theorem State.send_port (m : Msg) : (s.send m).port = s.port := rfl
@[simp] theorem State.send_powered (m : Msg) : (s.send m).powered = s.powered := rfl
@[simp] theorem State.send_throttled (m : Msg) : (s.send m).throttled = s.throttled := rfl
@[simp] theorem State.send_resets (m : Msg) : (s.send m).resets = s.resets := rfl

/-! Threads -/

@[simp] theorem Thread.setV_pc (n v : Nat) : (th.setV n v).pc = th.pc := rfl
@[simp] theorem Thread.setV_regs (n v : Nat) : (th.setV n v).regs = Tab.set 0 n (BitVec.ofNat 32 v) th.regs := rfl
@[simp] theorem Thread.setV_preds (n v : Nat) : (th.setV n v).preds = th.preds := rfl
@[simp] theorem Thread.setV_fpflags (n v : Nat) : (th.setV n v).fpflags = th.fpflags := rfl
@[simp] theorem Thread.setV_live (n v : Nat) : (th.setV n v).live = th.live := rfl
@[simp] theorem Thread.setV_wait (n v : Nat) : (th.setV n v).wait = th.wait := rfl
@[simp] theorem Thread.setV_handler (n v : Nat) : (th.setV n v).handler = th.handler := rfl
@[simp] theorem Thread.setV_tcause (n v : Nat) : (th.setV n v).tcause = th.tcause := rfl
@[simp] theorem Thread.setV_tpc (n v : Nat) : (th.setV n v).tpc = th.tpc := rfl
@[simp] theorem Thread.setV_taddr (n v : Nat) : (th.setV n v).taddr = th.taddr := rfl
@[simp] theorem Thread.setV_tinfo (n v : Nat) : (th.setV n v).tinfo = th.tinfo := rfl
@[simp] theorem Thread.setV_pend (n v : Nat) : (th.setV n v).pend = th.pend := rfl
@[simp] theorem Thread.setV_ends (n v : Nat) : (th.setV n v).ends = th.ends := rfl
@[simp] theorem Thread.setV_issued (n v : Nat) : (th.setV n v).issued = th.issued := rfl
@[simp] theorem Thread.setV_age (n v : Nat) : (th.setV n v).age = th.age := rfl
@[simp] theorem Thread.setV_urgent (n v : Nat) : (th.setV n v).urgent = th.urgent := rfl
@[simp] theorem Thread.setV_deferred (n v : Nat) : (th.setV n v).deferred = th.deferred := rfl
@[simp] theorem Thread.setV_demoted (n v : Nat) : (th.setV n v).demoted = th.demoted := rfl
@[simp] theorem Thread.setV_spins (n v : Nat) : (th.setV n v).spins = th.spins := rfl
@[simp] theorem Thread.setV_release (n v : Nat) : (th.setV n v).release = th.release := rfl
@[simp] theorem Thread.setV_peerOut (n v : Nat) : (th.setV n v).peerOut = th.peerOut := rfl
@[simp] theorem Thread.setV_peerLost (n v : Nat) : (th.setV n v).peerLost = th.peerLost := rfl
@[simp] theorem Thread.setV_hostOut (n v : Nat) : (th.setV n v).hostOut = th.hostOut := rfl
@[simp] theorem Thread.setV_ioOut (n v : Nat) : (th.setV n v).ioOut = th.ioOut := rfl
@[simp] theorem Thread.setV_linked (n v : Nat) : (th.setV n v).linked = th.linked := rfl
@[simp] theorem Thread.setV_launching (n v : Nat) : (th.setV n v).launching = th.launching := rfl

@[simp] theorem Thread.raiseFlags_pc (f : Nat) : (th.raiseFlags f).pc = th.pc := rfl
@[simp] theorem Thread.raiseFlags_regs (f : Nat) : (th.raiseFlags f).regs = th.regs := rfl
@[simp] theorem Thread.raiseFlags_preds (f : Nat) : (th.raiseFlags f).preds = th.preds := rfl
@[simp] theorem Thread.raiseFlags_fpflags (f : Nat) : (th.raiseFlags f).fpflags = th.fpflags ||| BitVec.ofNat 5 f := rfl
@[simp] theorem Thread.raiseFlags_live (f : Nat) : (th.raiseFlags f).live = th.live := rfl
@[simp] theorem Thread.raiseFlags_wait (f : Nat) : (th.raiseFlags f).wait = th.wait := rfl
@[simp] theorem Thread.raiseFlags_handler (f : Nat) : (th.raiseFlags f).handler = th.handler := rfl
@[simp] theorem Thread.raiseFlags_tcause (f : Nat) : (th.raiseFlags f).tcause = th.tcause := rfl
@[simp] theorem Thread.raiseFlags_tpc (f : Nat) : (th.raiseFlags f).tpc = th.tpc := rfl
@[simp] theorem Thread.raiseFlags_taddr (f : Nat) : (th.raiseFlags f).taddr = th.taddr := rfl
@[simp] theorem Thread.raiseFlags_tinfo (f : Nat) : (th.raiseFlags f).tinfo = th.tinfo := rfl
@[simp] theorem Thread.raiseFlags_bad (f : Nat) : (th.raiseFlags f).bad = th.bad := rfl
@[simp] theorem Thread.raiseFlags_pend (f : Nat) : (th.raiseFlags f).pend = th.pend := rfl
@[simp] theorem Thread.raiseFlags_seen (f : Nat) : (th.raiseFlags f).seen = th.seen := rfl
@[simp] theorem Thread.raiseFlags_ends (f : Nat) : (th.raiseFlags f).ends = th.ends := rfl
@[simp] theorem Thread.raiseFlags_issued (f : Nat) : (th.raiseFlags f).issued = th.issued := rfl
@[simp] theorem Thread.raiseFlags_age (f : Nat) : (th.raiseFlags f).age = th.age := rfl
@[simp] theorem Thread.raiseFlags_urgent (f : Nat) : (th.raiseFlags f).urgent = th.urgent := rfl
@[simp] theorem Thread.raiseFlags_deferred (f : Nat) : (th.raiseFlags f).deferred = th.deferred := rfl
@[simp] theorem Thread.raiseFlags_demoted (f : Nat) : (th.raiseFlags f).demoted = th.demoted := rfl
@[simp] theorem Thread.raiseFlags_spins (f : Nat) : (th.raiseFlags f).spins = th.spins := rfl
@[simp] theorem Thread.raiseFlags_release (f : Nat) : (th.raiseFlags f).release = th.release := rfl
@[simp] theorem Thread.raiseFlags_peerOut (f : Nat) : (th.raiseFlags f).peerOut = th.peerOut := rfl
@[simp] theorem Thread.raiseFlags_peerLost (f : Nat) : (th.raiseFlags f).peerLost = th.peerLost := rfl
@[simp] theorem Thread.raiseFlags_hostOut (f : Nat) : (th.raiseFlags f).hostOut = th.hostOut := rfl
@[simp] theorem Thread.raiseFlags_ioOut (f : Nat) : (th.raiseFlags f).ioOut = th.ioOut := rfl
@[simp] theorem Thread.raiseFlags_linked (f : Nat) : (th.raiseFlags f).linked = th.linked := rfl
@[simp] theorem Thread.raiseFlags_launching (f : Nat) : (th.raiseFlags f).launching = th.launching := rfl

@[simp] theorem Thread.rte_pc (pc : Nat) : (th.rte pc).pc = BitVec.ofNat 64 pc := rfl
@[simp] theorem Thread.rte_regs (pc : Nat) : (th.rte pc).regs = th.regs := rfl
@[simp] theorem Thread.rte_preds (pc : Nat) : (th.rte pc).preds = th.preds := rfl
@[simp] theorem Thread.rte_fpflags (pc : Nat) : (th.rte pc).fpflags = th.fpflags := rfl
@[simp] theorem Thread.rte_live (pc : Nat) : (th.rte pc).live = th.live := rfl
@[simp] theorem Thread.rte_wait (pc : Nat) : (th.rte pc).wait = th.wait := rfl
@[simp] theorem Thread.rte_handler (pc : Nat) : (th.rte pc).handler = false := rfl
@[simp] theorem Thread.rte_tcause (pc : Nat) : (th.rte pc).tcause = th.tcause := rfl
@[simp] theorem Thread.rte_tpc (pc : Nat) : (th.rte pc).tpc = th.tpc := rfl
@[simp] theorem Thread.rte_taddr (pc : Nat) : (th.rte pc).taddr = th.taddr := rfl
@[simp] theorem Thread.rte_tinfo (pc : Nat) : (th.rte pc).tinfo = th.tinfo := rfl
@[simp] theorem Thread.rte_bad (pc : Nat) : (th.rte pc).bad = th.bad := rfl
@[simp] theorem Thread.rte_pend (pc : Nat) : (th.rte pc).pend = th.pend := rfl
@[simp] theorem Thread.rte_seen (pc : Nat) : (th.rte pc).seen = th.seen := rfl
@[simp] theorem Thread.rte_ends (pc : Nat) : (th.rte pc).ends = th.ends := rfl
@[simp] theorem Thread.rte_issued (pc : Nat) : (th.rte pc).issued = th.issued := rfl
@[simp] theorem Thread.rte_age (pc : Nat) : (th.rte pc).age = th.age := rfl
@[simp] theorem Thread.rte_urgent (pc : Nat) : (th.rte pc).urgent = th.urgent := rfl
@[simp] theorem Thread.rte_deferred (pc : Nat) : (th.rte pc).deferred = th.deferred := rfl
@[simp] theorem Thread.rte_demoted (pc : Nat) : (th.rte pc).demoted = th.demoted := rfl
@[simp] theorem Thread.rte_spins (pc : Nat) : (th.rte pc).spins = th.spins := rfl
@[simp] theorem Thread.rte_release (pc : Nat) : (th.rte pc).release = th.release := rfl
@[simp] theorem Thread.rte_peerOut (pc : Nat) : (th.rte pc).peerOut = th.peerOut := rfl
@[simp] theorem Thread.rte_peerLost (pc : Nat) : (th.rte pc).peerLost = th.peerLost := rfl
@[simp] theorem Thread.rte_hostOut (pc : Nat) : (th.rte pc).hostOut = th.hostOut := rfl
@[simp] theorem Thread.rte_ioOut (pc : Nat) : (th.rte pc).ioOut = th.ioOut := rfl
@[simp] theorem Thread.rte_linked (pc : Nat) : (th.rte pc).linked = th.linked := rfl
@[simp] theorem Thread.rte_launching (pc : Nat) : (th.rte pc).launching = th.launching := rfl

@[simp] theorem Thread.record_pc (x : Trap) (tpc : Nat) : (th.record x tpc).pc = th.pc := rfl
@[simp] theorem Thread.record_regs (x : Trap) (tpc : Nat) : (th.record x tpc).regs = th.regs := rfl
@[simp] theorem Thread.record_preds (x : Trap) (tpc : Nat) : (th.record x tpc).preds = th.preds := rfl
@[simp] theorem Thread.record_fpflags (x : Trap) (tpc : Nat) : (th.record x tpc).fpflags = th.fpflags := rfl
@[simp] theorem Thread.record_live (x : Trap) (tpc : Nat) : (th.record x tpc).live = th.live := rfl
@[simp] theorem Thread.record_wait (x : Trap) (tpc : Nat) : (th.record x tpc).wait = .ready := rfl
@[simp] theorem Thread.record_handler (x : Trap) (tpc : Nat) : (th.record x tpc).handler = th.handler := rfl
@[simp] theorem Thread.record_tpc (x : Trap) (tpc : Nat) : (th.record x tpc).tpc = BitVec.ofNat 64 tpc := rfl
@[simp] theorem Thread.record_taddr (x : Trap) (tpc : Nat) : (th.record x tpc).taddr = BitVec.ofNat 64 x.addr := rfl
@[simp] theorem Thread.record_tinfo (x : Trap) (tpc : Nat) : (th.record x tpc).tinfo = BitVec.ofNat 32 x.info := rfl
@[simp] theorem Thread.record_bad (x : Trap) (tpc : Nat) : (th.record x tpc).bad = th.bad := rfl
@[simp] theorem Thread.record_pend (x : Trap) (tpc : Nat) : (th.record x tpc).pend = th.pend := rfl
@[simp] theorem Thread.record_seen (x : Trap) (tpc : Nat) : (th.record x tpc).seen = th.seen := rfl
@[simp] theorem Thread.record_ends (x : Trap) (tpc : Nat) : (th.record x tpc).ends = th.ends := rfl
@[simp] theorem Thread.record_issued (x : Trap) (tpc : Nat) : (th.record x tpc).issued = th.issued := rfl
@[simp] theorem Thread.record_age (x : Trap) (tpc : Nat) : (th.record x tpc).age = 0 := rfl
@[simp] theorem Thread.record_urgent (x : Trap) (tpc : Nat) : (th.record x tpc).urgent = false := rfl
@[simp] theorem Thread.record_deferred (x : Trap) (tpc : Nat) : (th.record x tpc).deferred = th.deferred := rfl
@[simp] theorem Thread.record_demoted (x : Trap) (tpc : Nat) : (th.record x tpc).demoted = th.demoted := rfl
@[simp] theorem Thread.record_spins (x : Trap) (tpc : Nat) : (th.record x tpc).spins = th.spins.map fun x => { x with changed := true } := rfl
@[simp] theorem Thread.record_release (x : Trap) (tpc : Nat) : (th.record x tpc).release = none := rfl
@[simp] theorem Thread.record_peerOut (x : Trap) (tpc : Nat) : (th.record x tpc).peerOut = th.peerOut := rfl
@[simp] theorem Thread.record_peerLost (x : Trap) (tpc : Nat) : (th.record x tpc).peerLost = th.peerLost := rfl
@[simp] theorem Thread.record_hostOut (x : Trap) (tpc : Nat) : (th.record x tpc).hostOut = th.hostOut := rfl
@[simp] theorem Thread.record_ioOut (x : Trap) (tpc : Nat) : (th.record x tpc).ioOut = th.ioOut := rfl
@[simp] theorem Thread.record_linked (x : Trap) (tpc : Nat) : (th.record x tpc).linked = none := rfl
@[simp] theorem Thread.record_launching (x : Trap) (tpc : Nat) : (th.record x tpc).launching = none := rfl

@[simp] theorem Thread.enter_pc (x : Trap) (tpc vec : Nat) : (th.enter x tpc vec).pc = BitVec.ofNat 64 vec := rfl
@[simp] theorem Thread.enter_regs (x : Trap) (tpc vec : Nat) : (th.enter x tpc vec).regs = th.regs := rfl
@[simp] theorem Thread.enter_preds (x : Trap) (tpc vec : Nat) : (th.enter x tpc vec).preds = th.preds := rfl
@[simp] theorem Thread.enter_fpflags (x : Trap) (tpc vec : Nat) : (th.enter x tpc vec).fpflags = th.fpflags := rfl
@[simp] theorem Thread.enter_live (x : Trap) (tpc vec : Nat) : (th.enter x tpc vec).live = th.live := rfl
@[simp] theorem Thread.enter_wait (x : Trap) (tpc vec : Nat) : (th.enter x tpc vec).wait = .ready := rfl
@[simp] theorem Thread.enter_handler (x : Trap) (tpc vec : Nat) : (th.enter x tpc vec).handler = true := rfl
@[simp] theorem Thread.enter_tpc (x : Trap) (tpc vec : Nat) : (th.enter x tpc vec).tpc = BitVec.ofNat 64 tpc := rfl
@[simp] theorem Thread.enter_taddr (x : Trap) (tpc vec : Nat) : (th.enter x tpc vec).taddr = BitVec.ofNat 64 x.addr := rfl
@[simp] theorem Thread.enter_tinfo (x : Trap) (tpc vec : Nat) : (th.enter x tpc vec).tinfo = BitVec.ofNat 32 x.info := rfl
@[simp] theorem Thread.enter_bad (x : Trap) (tpc vec : Nat) : (th.enter x tpc vec).bad = th.bad := rfl
@[simp] theorem Thread.enter_pend (x : Trap) (tpc vec : Nat) : (th.enter x tpc vec).pend = th.pend := rfl
@[simp] theorem Thread.enter_seen (x : Trap) (tpc vec : Nat) : (th.enter x tpc vec).seen = th.seen := rfl
@[simp] theorem Thread.enter_ends (x : Trap) (tpc vec : Nat) : (th.enter x tpc vec).ends = th.ends := rfl
@[simp] theorem Thread.enter_issued (x : Trap) (tpc vec : Nat) : (th.enter x tpc vec).issued = th.issued := rfl
@[simp] theorem Thread.enter_age (x : Trap) (tpc vec : Nat) : (th.enter x tpc vec).age = 0 := rfl
@[simp] theorem Thread.enter_urgent (x : Trap) (tpc vec : Nat) : (th.enter x tpc vec).urgent = false := rfl
@[simp] theorem Thread.enter_deferred (x : Trap) (tpc vec : Nat) : (th.enter x tpc vec).deferred = th.deferred := rfl
@[simp] theorem Thread.enter_demoted (x : Trap) (tpc vec : Nat) : (th.enter x tpc vec).demoted = th.demoted := rfl
@[simp] theorem Thread.enter_spins (x : Trap) (tpc vec : Nat) : (th.enter x tpc vec).spins = th.spins.map fun x => { x with changed := true } := rfl
@[simp] theorem Thread.enter_release (x : Trap) (tpc vec : Nat) : (th.enter x tpc vec).release = none := rfl
@[simp] theorem Thread.enter_peerOut (x : Trap) (tpc vec : Nat) : (th.enter x tpc vec).peerOut = th.peerOut := rfl
@[simp] theorem Thread.enter_peerLost (x : Trap) (tpc vec : Nat) : (th.enter x tpc vec).peerLost = th.peerLost := rfl
@[simp] theorem Thread.enter_hostOut (x : Trap) (tpc vec : Nat) : (th.enter x tpc vec).hostOut = th.hostOut := rfl
@[simp] theorem Thread.enter_ioOut (x : Trap) (tpc vec : Nat) : (th.enter x tpc vec).ioOut = th.ioOut := rfl
@[simp] theorem Thread.enter_linked (x : Trap) (tpc vec : Nat) : (th.enter x tpc vec).linked = none := rfl
@[simp] theorem Thread.enter_launching (x : Trap) (tpc vec : Nat) : (th.enter x tpc vec).launching = none := rfl

/-! Teams -/

@[simp] theorem Team.modThread_place (n : Nat) (f : Thread → Thread) : (t.modThread n f).place = t.place := rfl
@[simp] theorem Team.modThread_launch (n : Nat) (f : Thread → Thread) : (t.modThread n f).launch = t.launch := rfl
@[simp] theorem Team.modThread_cluster (n : Nat) (f : Thread → Thread) : (t.modThread n f).cluster = t.cluster := rfl
@[simp] theorem Team.modThread_rank (n : Nat) (f : Thread → Thread) : (t.modThread n f).rank = t.rank := rfl
@[simp] theorem Team.modThread_x (n : Nat) (f : Thread → Thread) : (t.modThread n f).x = t.x := rfl
@[simp] theorem Team.modThread_y (n : Nat) (f : Thread → Thread) : (t.modThread n f).y = t.y := rfl
@[simp] theorem Team.modThread_z (n : Nat) (f : Thread → Thread) : (t.modThread n f).z = t.z := rfl
@[simp] theorem Team.modThread_grid (n : Nat) (f : Thread → Thread) : (t.modThread n f).grid = t.grid := rfl
@[simp] theorem Team.modThread_dim (n : Nat) (f : Thread → Thread) : (t.modThread n f).dim = t.dim := rfl
@[simp] theorem Team.modThread_stamp (n : Nat) (f : Thread → Thread) : (t.modThread n f).stamp = t.stamp := rfl
@[simp] theorem Team.modThread_depth (n : Nat) (f : Thread → Thread) : (t.modThread n f).depth = t.depth := rfl
@[simp] theorem Team.modThread_roles (n : Nat) (f : Thread → Thread) : (t.modThread n f).roles = t.roles := rfl
@[simp] theorem Team.modThread_base (n : Nat) (f : Thread → Thread) : (t.modThread n f).base = t.base := rfl
@[simp] theorem Team.modThread_split (n : Nat) (f : Thread → Thread) : (t.modThread n f).split = t.split := rfl
@[simp] theorem Team.modThread_profile (n : Nat) (f : Thread → Thread) : (t.modThread n f).profile = t.profile := rfl
@[simp] theorem Team.modThread_nbar (n : Nat) (f : Thread → Thread) : (t.modThread n f).nbar = t.nbar := rfl
@[simp] theorem Team.modThread_nslug (n : Nat) (f : Thread → Thread) : (t.modThread n f).nslug = t.nslug := rfl
@[simp] theorem Team.modThread_forme (n : Nat) (f : Thread → Thread) : (t.modThread n f).forme = t.forme := rfl
@[simp] theorem Team.modThread_system (n : Nat) (f : Thread → Thread) : (t.modThread n f).system = t.system := rfl
@[simp] theorem Team.modThread_stopped (n : Nat) (f : Thread → Thread) : (t.modThread n f).stopped = t.stopped := rfl
@[simp] theorem Team.modThread_preempt (n : Nat) (f : Thread → Thread) : (t.modThread n f).preempt = t.preempt := rfl
@[simp] theorem Team.modThread_threads (n : Nat) (f : Thread → Thread) : (t.modThread n f).threads = Tab.modify n f t.threads := rfl
@[simp] theorem Team.modThread_groups (n : Nat) (f : Thread → Thread) : (t.modThread n f).groups = t.groups := rfl
@[simp] theorem Team.modThread_k (n : Nat) (f : Thread → Thread) : (t.modThread n f).k = t.k := rfl
@[simp] theorem Team.modThread_kw (n : Nat) (f : Thread → Thread) : (t.modThread n f).kw = t.kw := rfl
@[simp] theorem Team.modThread_kp (n : Nat) (f : Thread → Thread) : (t.modThread n f).kp = t.kp := rfl
@[simp] theorem Team.modThread_kseen (n : Nat) (f : Thread → Thread) : (t.modThread n f).kseen = t.kseen := rfl
@[simp] theorem Team.modThread_kbad (n : Nat) (f : Thread → Thread) : (t.modThread n f).kbad = t.kbad := rfl
@[simp] theorem Team.modThread_bars (n : Nat) (f : Thread → Thread) : (t.modThread n f).bars = t.bars := rfl
@[simp] theorem Team.modThread_slugs (n : Nat) (f : Thread → Thread) : (t.modThread n f).slugs = t.slugs := rfl
@[simp] theorem Team.modThread_slugAsk (n : Nat) (f : Thread → Thread) : (t.modThread n f).slugAsk = t.slugAsk := rfl

@[simp] theorem Team.modGroup_place (g : Nat) (f : Group → Group) : (t.modGroup g f).place = t.place := rfl
@[simp] theorem Team.modGroup_launch (g : Nat) (f : Group → Group) : (t.modGroup g f).launch = t.launch := rfl
@[simp] theorem Team.modGroup_cluster (g : Nat) (f : Group → Group) : (t.modGroup g f).cluster = t.cluster := rfl
@[simp] theorem Team.modGroup_rank (g : Nat) (f : Group → Group) : (t.modGroup g f).rank = t.rank := rfl
@[simp] theorem Team.modGroup_x (g : Nat) (f : Group → Group) : (t.modGroup g f).x = t.x := rfl
@[simp] theorem Team.modGroup_y (g : Nat) (f : Group → Group) : (t.modGroup g f).y = t.y := rfl
@[simp] theorem Team.modGroup_z (g : Nat) (f : Group → Group) : (t.modGroup g f).z = t.z := rfl
@[simp] theorem Team.modGroup_grid (g : Nat) (f : Group → Group) : (t.modGroup g f).grid = t.grid := rfl
@[simp] theorem Team.modGroup_dim (g : Nat) (f : Group → Group) : (t.modGroup g f).dim = t.dim := rfl
@[simp] theorem Team.modGroup_stamp (g : Nat) (f : Group → Group) : (t.modGroup g f).stamp = t.stamp := rfl
@[simp] theorem Team.modGroup_depth (g : Nat) (f : Group → Group) : (t.modGroup g f).depth = t.depth := rfl
@[simp] theorem Team.modGroup_roles (g : Nat) (f : Group → Group) : (t.modGroup g f).roles = t.roles := rfl
@[simp] theorem Team.modGroup_base (g : Nat) (f : Group → Group) : (t.modGroup g f).base = t.base := rfl
@[simp] theorem Team.modGroup_split (g : Nat) (f : Group → Group) : (t.modGroup g f).split = t.split := rfl
@[simp] theorem Team.modGroup_profile (g : Nat) (f : Group → Group) : (t.modGroup g f).profile = t.profile := rfl
@[simp] theorem Team.modGroup_nbar (g : Nat) (f : Group → Group) : (t.modGroup g f).nbar = t.nbar := rfl
@[simp] theorem Team.modGroup_nslug (g : Nat) (f : Group → Group) : (t.modGroup g f).nslug = t.nslug := rfl
@[simp] theorem Team.modGroup_forme (g : Nat) (f : Group → Group) : (t.modGroup g f).forme = t.forme := rfl
@[simp] theorem Team.modGroup_system (g : Nat) (f : Group → Group) : (t.modGroup g f).system = t.system := rfl
@[simp] theorem Team.modGroup_stopped (g : Nat) (f : Group → Group) : (t.modGroup g f).stopped = t.stopped := rfl
@[simp] theorem Team.modGroup_preempt (g : Nat) (f : Group → Group) : (t.modGroup g f).preempt = t.preempt := rfl
@[simp] theorem Team.modGroup_threads (g : Nat) (f : Group → Group) : (t.modGroup g f).threads = t.threads := rfl
@[simp] theorem Team.modGroup_groups (g : Nat) (f : Group → Group) : (t.modGroup g f).groups = Tab.modify g f t.groups := rfl
@[simp] theorem Team.modGroup_k (g : Nat) (f : Group → Group) : (t.modGroup g f).k = t.k := rfl
@[simp] theorem Team.modGroup_kw (g : Nat) (f : Group → Group) : (t.modGroup g f).kw = t.kw := rfl
@[simp] theorem Team.modGroup_kp (g : Nat) (f : Group → Group) : (t.modGroup g f).kp = t.kp := rfl
@[simp] theorem Team.modGroup_kseen (g : Nat) (f : Group → Group) : (t.modGroup g f).kseen = t.kseen := rfl
@[simp] theorem Team.modGroup_kbad (g : Nat) (f : Group → Group) : (t.modGroup g f).kbad = t.kbad := rfl
@[simp] theorem Team.modGroup_bars (g : Nat) (f : Group → Group) : (t.modGroup g f).bars = t.bars := rfl
@[simp] theorem Team.modGroup_slugs (g : Nat) (f : Group → Group) : (t.modGroup g f).slugs = t.slugs := rfl
@[simp] theorem Team.modGroup_slugAsk (g : Nat) (f : Group → Group) : (t.modGroup g f).slugAsk = t.slugAsk := rfl

end Sys2Proof.Machine
end

