-- ==== Sys2Proof/Laws/Tab.lean ====
section
/-! SUPPORT. Laws of keyed tables: reading after every update, and the canonical form kept by every update. -/

namespace Sys2Proof

variable {α : Type}

/-! ### Reading after an update; none of these asks that the keys rise -/

@[simp] theorem Tab.find_nil (k : Nat) : Tab.find k ([] : Tab α) = none := rfl

@[simp] theorem Tab.find_cons (k j : Nat) (v : α) (t : Tab α) :
    Tab.find k ((j, v) :: t) = if k = j then some v else Tab.find k t := rfl

theorem Tab.find_put (k j : Nat) (v : α) (t : Tab α) :
    Tab.find j (Tab.put k v t) = if j = k then some v else Tab.find j t := by
  induction t with
  | nil => rfl
  | cons p t ih =>
    obtain ⟨a, w⟩ := p
    simp only [Tab.put]
    split
    · rfl
    · split
      · subst a; by_cases h : j = k <;> simp [h]
      · simp only [Tab.find_cons, ih]
        by_cases h : j = a
        · subst j; simp; omega
        · simp [h]

@[simp] theorem Tab.find_put_same (k : Nat) (v : α) (t : Tab α) : Tab.find k (Tab.put k v t) = some v := by
  simp [Tab.find_put]

theorem Tab.find_put_other {k j : Nat} (h : j ≠ k) (v : α) (t : Tab α) :
    Tab.find j (Tab.put k v t) = Tab.find j t := by
  simp [Tab.find_put, h]

theorem Tab.find_del (k j : Nat) (t : Tab α) : Tab.find j (Tab.del k t) = if j = k then none else Tab.find j t := by
  induction t with
  | nil => simp [Tab.del]
  | cons p t ih =>
    obtain ⟨a, w⟩ := p
    by_cases h : a = k
    · subst a
      have : Tab.del k ((k, w) :: t) = Tab.del k t := by simp [Tab.del]
      rw [this, ih]
      by_cases hj : j = k <;> simp [hj]
    · have : Tab.del k ((a, w) :: t) = (a, w) :: Tab.del k t := by simp [Tab.del, h]
      rw [this, Tab.find_cons, ih, Tab.find_cons]
      by_cases hj : j = a
      · subst j; simp [h]
      · simp [hj]

@[simp] theorem Tab.find_del_same (k : Nat) (t : Tab α) : Tab.find k (Tab.del k t) = none := by simp [Tab.find_del]

theorem Tab.find_del_other {k j : Nat} (h : j ≠ k) (t : Tab α) : Tab.find j (Tab.del k t) = Tab.find j t := by
  simp [Tab.find_del, h]

theorem Tab.find_modify (k j : Nat) (f : α → α) (t : Tab α) :
    Tab.find j (Tab.modify k f t) = if j = k then (Tab.find j t).map f else Tab.find j t := by
  unfold Tab.modify
  split
  · rename_i v h
    rw [Tab.find_put]
    by_cases hj : j = k
    · subst j; simp [h]
    · simp [hj]
  · rename_i h
    by_cases hj : j = k
    · subst j; simp [h]
    · simp [hj]

@[simp] theorem Tab.find_modify_same (k : Nat) (f : α → α) (t : Tab α) :
    Tab.find k (Tab.modify k f t) = (Tab.find k t).map f := by simp [Tab.find_modify]

theorem Tab.find_modify_other {k j : Nat} (h : j ≠ k) (f : α → α) (t : Tab α) :
    Tab.find j (Tab.modify k f t) = Tab.find j t := by simp [Tab.find_modify, h]

@[simp] theorem Tab.getD_nil (k : Nat) (d : α) : Tab.getD ([] : Tab α) k d = d := rfl

theorem Tab.getD_put (k j : Nat) (v d : α) (t : Tab α) :
    Tab.getD (Tab.put k v t) j d = if j = k then v else Tab.getD t j d := by
  simp only [Tab.getD, Tab.find_put]; split <;> rfl

theorem Tab.getD_del (k j : Nat) (d : α) (t : Tab α) :
    Tab.getD (Tab.del k t) j d = if j = k then d else Tab.getD t j d := by
  simp only [Tab.getD, Tab.find_del]; split <;> rfl

theorem Tab.getD_set [DecidableEq α] (d : α) (k j : Nat) (v : α) (t : Tab α) :
    Tab.getD (Tab.set d k v t) j d = if j = k then v else Tab.getD t j d := by
  unfold Tab.set
  split
  · rename_i h; subst v; exact Tab.getD_del k j d t
  · exact Tab.getD_put k j v d t

@[simp] theorem Tab.getD_set_same [DecidableEq α] (d : α) (k : Nat) (v : α) (t : Tab α) :
    Tab.getD (Tab.set d k v t) k d = v := by simp [Tab.getD_set]

theorem Tab.getD_set_other [DecidableEq α] (d : α) {k j : Nat} (h : j ≠ k) (v : α) (t : Tab α) :
    Tab.getD (Tab.set d k v t) j d = Tab.getD t j d := by simp [Tab.getD_set, h]

/-- A table's `map` over its values maps what is found. -/
theorem Tab.find_map_val {β : Type} (f : Nat → α → β) (k : Nat) (t : Tab α) :
    Tab.find k (t.map fun p => (p.1, f p.1 p.2)) = (Tab.find k t).map (f k) := by
  induction t with
  | nil => rfl
  | cons p t ih =>
    obtain ⟨a, w⟩ := p
    simp only [List.map_cons, Tab.find_cons, ih]
    split
    · subst a; rfl
    · rfl

/-- A `filter` on the keys keeps what is found at the keys that pass. -/
theorem Tab.find_filter_key (p : Nat → Bool) (k : Nat) (t : Tab α) :
    Tab.find k (t.filter fun e => p e.1) = if p k then Tab.find k t else none := by
  induction t with
  | nil => simp
  | cons e t ih =>
    obtain ⟨a, w⟩ := e
    rw [List.filter_cons]
    by_cases ha : p a = true
    · simp only [ha, if_true, Tab.find_cons, ih]
      by_cases hk : k = a
      · subst k; simp [ha]
      · simp [hk]
    · simp only [ha, Tab.find_cons]
      by_cases hk : k = a
      · subst k; simp [ih, ha]
      · simp [hk, ih]

/-! ### The canonical form as a statement about lists -/

/-- `Tab.sorted` says that the keys strictly rise. -/
theorem Tab.sorted_iff (t : Tab α) : Tab.sorted t = true ↔ t.Pairwise fun p q => p.1 < q.1 := by
  induction t with
  | nil => simp [Tab.sorted]
  | cons p t ih =>
    cases t with
    | nil => simp [Tab.sorted]
    | cons q t =>
      obtain ⟨a, v⟩ := p
      obtain ⟨b, w⟩ := q
      simp only [Tab.sorted, Bool.and_eq_true, decide_eq_true_eq, ih]
      constructor
      · rintro ⟨hab, hp⟩
        refine List.pairwise_cons.2 ⟨?_, hp⟩
        intro e he
        rcases List.mem_cons.1 he with rfl | he
        · exact hab
        · exact Nat.lt_trans hab ((List.pairwise_cons.1 hp).1 e he)
      · intro h
        exact ⟨(List.pairwise_cons.1 h).1 (b, w) (by simp), (List.pairwise_cons.1 h).2⟩

theorem Tab.wf_iff [DecidableEq α] (d : α) (t : Tab α) :
    Tab.wf d t = true ↔ (t.Pairwise fun p q => p.1 < q.1) ∧ ∀ p ∈ t, p.2 ≠ d := by
  simp [Tab.wf, Tab.sorted_iff]

theorem Tab.mem_put {k : Nat} {v : α} {t : Tab α} {p : Nat × α} (h : p ∈ Tab.put k v t) : p = (k, v) ∨ p ∈ t := by
  induction t with
  | nil => simpa [Tab.put] using h
  | cons q t ih =>
    obtain ⟨a, w⟩ := q
    simp only [Tab.put] at h
    split at h
    · simpa using h
    · split at h
      · rcases List.mem_cons.1 h with rfl | h
        · exact .inl rfl
        · exact .inr (List.mem_cons_of_mem _ h)
      · rcases List.mem_cons.1 h with rfl | h
        · exact .inr (by simp)
        · rcases ih h with h | h
          · exact .inl h
          · exact .inr (List.mem_cons_of_mem _ h)

/-- `put` keeps the keys rising. -/
theorem Tab.pairwise_put (k : Nat) (v : α) (t : Tab α) (h : t.Pairwise fun p q => p.1 < q.1) :
    (Tab.put k v t).Pairwise fun p q => p.1 < q.1 := by
  induction t with
  | nil => simp [Tab.put]
  | cons q t ih =>
    obtain ⟨a, w⟩ := q
    have hc := List.pairwise_cons.1 h
    simp only [Tab.put]
    split
    · rename_i hk
      refine List.pairwise_cons.2 ⟨?_, h⟩
      intro e he
      rcases List.mem_cons.1 he with rfl | he
      · exact hk
      · exact Nat.lt_trans hk (hc.1 e he)
    · split
      · rename_i hk; subst a
        exact List.pairwise_cons.2 ⟨hc.1, hc.2⟩
      · refine List.pairwise_cons.2 ⟨?_, ih hc.2⟩
        intro e he
        rcases Tab.mem_put he with rfl | he
        · show a < k; omega
        · exact hc.1 e he

theorem Tab.pairwise_filter (f : Nat × α → Bool) (t : Tab α) (h : t.Pairwise fun p q => p.1 < q.1) :
    (t.filter f).Pairwise fun p q => p.1 < q.1 := List.Pairwise.filter f h

/-! ### Every update keeps the form -/

theorem Tab.sorted_put (k : Nat) (v : α) (t : Tab α) (h : Tab.sorted t = true) : Tab.sorted (Tab.put k v t) = true :=
  (Tab.sorted_iff _).2 (Tab.pairwise_put k v t ((Tab.sorted_iff t).1 h))

theorem Tab.sorted_del (k : Nat) (t : Tab α) (h : Tab.sorted t = true) : Tab.sorted (Tab.del k t) = true :=
  (Tab.sorted_iff _).2 (Tab.pairwise_filter _ t ((Tab.sorted_iff t).1 h))

theorem Tab.sorted_modify (k : Nat) (f : α → α) (t : Tab α) (h : Tab.sorted t = true) :
    Tab.sorted (Tab.modify k f t) = true := by
  unfold Tab.modify
  split
  · exact Tab.sorted_put _ _ _ h
  · exact h

theorem Tab.wf_del [DecidableEq α] (d : α) (k : Nat) (t : Tab α) (h : Tab.wf d t = true) :
    Tab.wf d (Tab.del k t) = true := by
  rw [Tab.wf_iff] at *
  exact ⟨Tab.pairwise_filter _ t h.1, fun p hp => h.2 p (List.mem_of_mem_filter hp)⟩

theorem Tab.wf_put [DecidableEq α] (d : α) (k : Nat) (v : α) (t : Tab α) (hv : v ≠ d) (h : Tab.wf d t = true) :
    Tab.wf d (Tab.put k v t) = true := by
  rw [Tab.wf_iff] at *
  refine ⟨Tab.pairwise_put k v t h.1, fun p hp => ?_⟩
  rcases Tab.mem_put hp with rfl | hp
  · exact hv
  · exact h.2 p hp

/-- `set` keeps the canonical form: it lists nothing that equals the default. -/
theorem Tab.wf_set [DecidableEq α] (d : α) (k : Nat) (v : α) (t : Tab α) (h : Tab.wf d t = true) :
    Tab.wf d (Tab.set d k v t) = true := by
  unfold Tab.set
  split
  · exact Tab.wf_del d k t h
  · rename_i hv; exact Tab.wf_put d k v t hv h

/-- Every part of a table in canonical form is in canonical form. -/
theorem Tab.wf_filter [DecidableEq α] (d : α) (f : Nat × α → Bool) (t : Tab α) (h : Tab.wf d t = true) :
    Tab.wf d (t.filter f) = true := by
  rw [Tab.wf_iff] at *
  exact ⟨Tab.pairwise_filter f t h.1, fun p hp => h.2 p (List.mem_of_mem_filter hp)⟩

/-- Found entries are members, and in a table with rising keys members are found. -/
theorem Tab.mem_of_find {k : Nat} {v : α} {t : Tab α} (h : Tab.find k t = some v) : (k, v) ∈ t := by
  induction t with
  | nil => simp at h
  | cons p t ih =>
    obtain ⟨a, w⟩ := p
    rw [Tab.find_cons] at h
    split at h
    · rename_i hk; cases h; subst a; simp
    · exact List.mem_cons_of_mem _ (ih h)

theorem Tab.find_of_mem {k : Nat} {v : α} {t : Tab α} (hs : Tab.sorted t = true) (h : (k, v) ∈ t) :
    Tab.find k t = some v := by
  rw [Tab.sorted_iff] at hs
  induction t with
  | nil => simp at h
  | cons p t ih =>
    obtain ⟨a, w⟩ := p
    have hc := List.pairwise_cons.1 hs
    rcases List.mem_cons.1 h with h | h
    · cases h; simp
    · have : a < k := hc.1 (k, v) h
      rw [Tab.find_cons, if_neg (by omega)]
      exact ih hc.2 h

/-- Two tables in canonical form that read alike are the same data. -/
theorem Tab.ext_of_wf [DecidableEq α] (d : α) {t u : Tab α} (ht : Tab.wf d t = true) (hu : Tab.wf d u = true)
    (h : ∀ k, Tab.getD t k d = Tab.getD u k d) : t = u := by
  rw [Tab.wf_iff] at ht hu
  have mem : ∀ {t u : Tab α}, (t.Pairwise fun p q => p.1 < q.1) → (∀ p ∈ t, p.2 ≠ d) →
      (∀ k, Tab.getD t k d = Tab.getD u k d) → ∀ p ∈ t, p ∈ u := by
    intro t u ht hd h p hp
    obtain ⟨k, v⟩ := p
    have hf := Tab.find_of_mem ((Tab.sorted_iff t).2 ht) hp
    have hk := h k
    simp only [Tab.getD, hf, Option.getD_some] at hk
    cases hu : Tab.find k u with
    | none => rw [hu] at hk; exact absurd hk (hd _ hp)
    | some w => rw [hu] at hk; simp only [Option.getD_some] at hk; subst hk; exact Tab.mem_of_find hu
  have nd : ∀ {t : Tab α}, (t.Pairwise fun p q => p.1 < q.1) → t.Nodup := fun h =>
    h.imp fun hpq e => by subst e; exact Nat.lt_irrefl _ hpq
  have perm : t.Perm u := (List.perm_ext_iff_of_nodup (nd ht.1) (nd hu.1)).2 fun p =>
    ⟨mem ht.1 ht.2 h p, mem hu.1 hu.2 (fun k => (h k).symm) p⟩
  exact perm.eq_of_pairwise (fun a b _ _ hab hba => absurd hba (Nat.lt_asymm hab)) ht.1 hu.1

end Sys2Proof
end

