-- ==== Sys2Proof/Laws/Threads.lean ====
section
/-! SUPPORT. Laws of threads: reading teams and threads after an update, registers and predicates, the sweep of an issue
group, taking a trap and returning from one. -/

namespace Sys2Proof.Machine

/-! ### Tables that are updated twice -/

theorem put_put {α : Type} (k : Nat) (v w : α) (t : Tab α) : Tab.put k v (Tab.put k w t) = Tab.put k v t := by
  induction t with
  | nil => simp [Tab.put]
  | cons p t ih =>
    obtain ⟨a, u⟩ := p
    simp only [Tab.put]
    split
    · simp [Tab.put]
    · split
      · simp [Tab.put]
      · rename_i h1 h2
        simp [Tab.put, h1, h2, ih]

theorem modify_modify {α : Type} (k : Nat) (f g : α → α) (t : Tab α) :
    Tab.modify k g (Tab.modify k f t) = Tab.modify k (fun v => g (f v)) t := by
  have h := Tab.find_modify_same k f t
  unfold Tab.modify at *
  cases ht : Tab.find k t with
  | none => simp [ht]
  | some v => simp [put_put]

/-! ### Teams and threads after an update -/

theorem team?_setTeam (s : State) (k j : Nat) (t : Team) :
    (s.setTeam k t).team? j = if j = k then some t else s.team? j := Tab.find_put k j t s.teams

theorem team?_modTeam (s : State) (k j : Nat) (f : Team → Team) :
    (s.modTeam k f).team? j = if j = k then (s.team? j).map f else s.team? j := Tab.find_modify k j f s.teams

/-- A changed thread is changed, every other is as it was. -/
theorem thread?_modThread (s : State) (i j : Tid) (f : Thread → Thread) :
    (s.modThread i f).thread? j = if j = i then (s.thread? j).map f else s.thread? j := by
  obtain ⟨it, inn⟩ := i
  obtain ⟨jt, jn⟩ := j
  simp only [State.thread?, State.modThread, team?_modTeam, Tid.mk.injEq]
  by_cases ht : jt = it
  · subst ht
    cases s.team? jt with
    | none => simp
    | some t =>
      simp only [if_true, Option.map_some, Option.bind_some, Team.modThread_threads, Tab.find_modify, true_and]
  · simp [ht]

@[simp] theorem thread?_modThread_same (s : State) (i : Tid) (f : Thread → Thread) :
    (s.modThread i f).thread? i = (s.thread? i).map f := by simp [thread?_modThread]

theorem thread?_modThread_other (s : State) {i j : Tid} (h : j ≠ i) (f : Thread → Thread) :
    (s.modThread i f).thread? j = s.thread? j := by simp [thread?_modThread, h]

/-- A changed thread leaves its team's other fields and every other team. -/
theorem team?_modThread (s : State) (i : Tid) (k : Nat) (f : Thread → Thread) :
    (s.modThread i f).team? k = if k = i.team then (s.team? k).map (fun t => t.modThread i.n f) else s.team? k :=
  team?_modTeam s i.team k _

theorem body_modThread (s : State) (i : Tid) (k : Nat) (f : Thread → Thread) :
    ((s.modThread i f).team? k).map (fun t => { t with threads := [] }) =
      (s.team? k).map fun t => { t with threads := [] } := by
  rw [team?_modThread]
  split
  · cases s.team? k <;> rfl
  · rfl

/-- Two changes of one thread are one. -/
theorem modThread_modThread (s : State) (i : Tid) (f g : Thread → Thread) :
    (s.modThread i f).modThread i g = s.modThread i fun th => g (f th) := by
  simp only [State.modThread, State.modTeam, Team.modThread, modify_modify]

theorem view_eq (s : State) (i : Tid) (t : Team) (th : Thread) (ht : s.team? i.team = some t)
    (hth : Tab.find i.n t.threads = some th) :
    s.view i = some { id := i, team := t, th, alloc := t.alloc i.n } := by
  simp [State.view, ht, hth]

/-! ### Clocks and registers of the management window -/

theorem clock_raise (s : State) (k t j : Nat) :
    (s.raise k t).clock j = if j = k then max (s.clock k) t else s.clock j := Tab.getD_set 0 k j _ s.clocks

/-- No clock falls when one is raised (R41). -/
theorem clock_le_raise (s : State) (k t j : Nat) : s.clock j ≤ (s.raise k t).clock j := by
  rw [clock_raise]; split
  · subst j; omega
  · exact Nat.le_refl _

theorem reg_setReg (s : State) (off v o : Nat) :
    (s.setReg off v).reg o = if o = off then v % 2 ^ 64 else s.reg o := by
  simp only [State.reg, State.setReg, Tab.getD_put]
  split
  · simp
  · rfl

/-! ### Lane registers and predicates -/

theorem v_setV (th : Thread) (n v m : Nat) : (th.setV n v).v m = if m = n then BitVec.ofNat 32 v else th.v m :=
  Tab.getD_set 0 n m _ th.regs

/-- Registers after a result of `w` registers is written (R124). -/
theorem v_setVs (th : Thread) (n v w m : Nat) :
    (th.setVs n v w).v m = if n ≤ m ∧ m < n + w then BitVec.ofNat 32 (v / 2 ^ (32 * (m - n))) else th.v m := by
  induction w generalizing th n v with
  | zero => rw [if_neg (by omega)]; rfl
  | succ w ih =>
    rw [Thread.setVs, ih, v_setV]
    by_cases h : n + 1 ≤ m ∧ m < n + 1 + w
    · rw [if_pos h, if_pos (by omega), Nat.div_div_eq_div_mul, ← Nat.pow_add,
        show 32 + 32 * (m - (n + 1)) = 32 * (m - n) by omega]
    · rw [if_neg h]
      by_cases hm : m = n
      · subst hm
        rw [if_pos rfl, if_pos (by omega), Nat.sub_self]
        simp only [Nat.mul_zero, Nat.pow_zero, Nat.div_one]
        apply BitVec.eq_of_toNat_eq
        simp
      · rw [if_neg hm, if_neg (by omega)]

/-- A result writes registers, whose words are then sound and hold no unread status, and nothing else. -/
theorem setVs_rest (th : Thread) (n v w : Nat) :
    { th.setVs n v w with regs := th.regs, bad := th.bad, seen := th.seen } = th := by
  induction w generalizing th n v with
  | zero => rfl
  | succ w ih =>
    have := ih (th.setV n (v % 2 ^ 32)) (n + 1) (v / 2 ^ 32)
    simp only [Thread.setVs]
    exact congrArg (fun x : Thread => { x with regs := th.regs, bad := th.bad, seen := th.seen }) this

/-- A predicate write changes predicates and nothing else; `p7` discards it (R134). -/
theorem setP_rest (th : Thread) (n : Nat) (b : Bool) : { th.setP n b with preds := th.preds } = th := by
  unfold Thread.setP; split <;> rfl

theorem setP_p7 (th : Thread) (b : Bool) : th.setP 7 b = th := rfl

/-- `p7` reads true (R134). -/
theorem p_p7 (th : Thread) : th.p 7 = true := rfl

/-! ### What a thread does before its instruction takes effect -/

/-- No handle in a source or a destination, no status to observe, no source uncorrectable: nothing happens before the
effect. -/
theorem claimRegs_settled (s : State) (c : View) (srcs dsts : List Nat) (ht : s.thread? c.id = some c.th)
    (hp : ∀ n ∈ srcs ++ dsts, Tab.find n c.th.pend = none)
    (hs : ∀ n ∈ c.observed srcs dsts, Tab.find n c.th.seen = none)
    (hb : ∀ n ∈ srcs, n ∉ c.th.bad) : s.claimRegs c srcs dsts = .ok s := by
  have h1 : ∀ ns, (∀ n ∈ ns, Tab.find n c.th.pend = none) → c.unpended ns = .ok () := by
    intro ns h
    have : (ns.findSome? fun n => Tab.find n c.th.pend) = none := by simpa using h
    simp [View.unpended, this]
  have h2 : c.sound srcs = .ok () := by
    have : (srcs.find? fun n => c.th.bad.contains n) = none := by
      simp only [List.find?_eq_none]
      intro n hn; simp [hb n hn]
    simp only [View.sound, this]
  have h3 : s.observe c.id (c.observed srcs dsts) = s := by
    unfold State.observe
    cases hv : s.view c.id with
    | none => rfl
    | some d =>
      have hd : d.th = c.th := by
        unfold State.view at hv
        unfold State.thread? at ht
        cases hteam : s.team? c.id.team with
        | none => simp [hteam] at hv
        | some t =>
          simp only [hteam, Option.bind_some] at hv ht
          rw [ht] at hv
          simp only [Option.map_some, Option.some.injEq] at hv
          rw [← hv]
      have : ((c.observed srcs dsts).filterMap fun n => Tab.find n d.th.seen) = [] := by
        rw [hd, List.filterMap_eq_nil_iff]
        intro n hn; exact hs n hn
      simp [this]
  unfold State.claimRegs View.ready
  rw [h1 srcs fun n hn => hp n (by simp [hn]), h1 dsts fun n hn => hp n (by simp [hn]), h2, h3]
  rfl

/-! ### The sweep of an issue group -/

/-- Everything but threads is the same in two states. -/
def SameBut (s s' : State) : Prop :=
  (∀ k, (s'.team? k).map (fun t => { t with threads := [] }) = (s.team? k).map fun t => { t with threads := [] }) ∧
    { s' with teams := s.teams } = s

theorem SameBut.same (s : State) : SameBut s s := ⟨fun _ => rfl, rfl⟩

theorem SameBut.modThread {s s' : State} (h : SameBut s s') (i : Tid) (f : Thread → Thread) :
    SameBut s (s'.modThread i f) :=
  ⟨fun k => (body_modThread s' i k f).trans (h.1 k), h.2⟩

/-- One thread's part in an instruction: its effect and its program counter (R165, R175). -/
theorem runLane_ok (next : Nat) (g : Option (BitVec 4)) (f : LaneFn) (s : State) (i : Tid) (c : View) (s' : State) (pc : Nat)
    (hv : s.view i = some c) (hg : (g.map c.th.guard).getD true = true) (hf : f s c = .ok (s', pc)) :
    runLane next g f s i = s'.modThread i fun th => { th with pc := BitVec.ofNat 64 pc } := by
  simp [runLane, hv, hg, hf]

theorem runLane_skip (next : Nat) (g : Option (BitVec 4)) (f : LaneFn) (s : State) (i : Tid) (c : View)
    (hv : s.view i = some c) (hg : (g.map c.th.guard).getD true = false) :
    runLane next g f s i = s.modThread i fun th => { th with pc := BitVec.ofNat 64 next } := by
  simp [runLane, hv, hg]

theorem runLane_fault (next : Nat) (g : Option (BitVec 4)) (f : LaneFn) (s : State) (i : Tid) (c : View) (t : Trap)
    (hv : s.view i = some c) (hg : (g.map c.th.guard).getD true = true) (hf : f s c = .error (.fault t)) :
    runLane next g f s i = s.deliver i t next := by
  simp [runLane, hv, hg, hf]

theorem runLane_park (next : Nat) (g : Option (BitVec 4)) (f : LaneFn) (s : State) (i : Tid) (c : View) (w : Wait)
    (hv : s.view i = some c) (hg : (g.map c.th.guard).getD true = true) (hf : f s c = .error (.park w)) :
    runLane next g f s i = s.modThread i fun th => { th with wait := w } := by
  simp [runLane, hv, hg, hf]

/-- A sweep in which every thread's part changes that thread alone changes the threads of the group, each once, and nothing
else. -/
theorem runLanes_each (next : Nat) (g : Option (BitVec 4)) (f : LaneFn) (s : State) (k : Nat) (ts : List Nat)
    (eff : Nat → Thread → Thread) (hn : ts.Nodup)
    (hstep : ∀ s1 n, n ∈ ts → SameBut s s1 → s1.thread? { team := k, n } = s.thread? { team := k, n } →
      runLane next g f s1 { team := k, n } = s1.modThread { team := k, n } (eff n)) :
    let s' := runLanes next g f s k ts
    (∀ n ∈ ts, s'.thread? { team := k, n } = (s.thread? { team := k, n }).map (eff n)) ∧
      (∀ i : Tid, ¬(i.team = k ∧ i.n ∈ ts) → s'.thread? i = s.thread? i) ∧ SameBut s s' := by
  have key : ∀ (ts : List Nat) (s1 : State), ts.Nodup → SameBut s s1 →
      (∀ n ∈ ts, s1.thread? { team := k, n } = s.thread? { team := k, n }) →
      (∀ s1 n, n ∈ ts → SameBut s s1 → s1.thread? { team := k, n } = s.thread? { team := k, n } →
        runLane next g f s1 { team := k, n } = s1.modThread { team := k, n } (eff n)) →
      (∀ n ∈ ts, (runLanes next g f s1 k ts).thread? { team := k, n } = (s.thread? { team := k, n }).map (eff n)) ∧
        (∀ i : Tid, ¬(i.team = k ∧ i.n ∈ ts) → (runLanes next g f s1 k ts).thread? i = s1.thread? i) ∧
        SameBut s (runLanes next g f s1 k ts) := by
    intro ts
    induction ts with
    | nil => intro s1 _ hs _ _; exact ⟨by simp, fun _ _ => rfl, hs⟩
    | cons m ts ih =>
      intro s1 hnd hs heq hst
      have hnd := List.nodup_cons.1 hnd
      have h1 := hst s1 m (by simp) hs (heq m (by simp))
      have hs2 := hs.modThread { team := k, n := m } (eff m)
      have hother : ∀ n ∈ ts, (s1.modThread { team := k, n := m } (eff m)).thread? { team := k, n } =
          s.thread? { team := k, n } := by
        intro n hn
        rw [thread?_modThread_other _ (by simp only [ne_eq, Tid.mk.injEq, true_and]; intro e; exact hnd.1 (e ▸ hn))]
        exact heq n (by simp [hn])
      obtain ⟨a, b, d⟩ := ih _ hnd.2 hs2 hother fun s2 n hn => hst s2 n (by simp [hn])
      have hr : runLanes next g f s1 k (m :: ts) = runLanes next g f (s1.modThread { team := k, n := m } (eff m)) k ts := by
        simp only [runLanes, List.foldl_cons]; rw [h1]
      rw [hr]
      refine ⟨?_, ?_, d⟩
      · intro n hn
        rcases List.mem_cons.1 hn with e | hn
        · subst e
          rw [b _ (by simpa using hnd.1), thread?_modThread_same, heq n (by simp)]
        · exact a n hn
      · intro i hi
        rw [b i (fun h => hi ⟨h.1, by simp [h.2]⟩), thread?_modThread_other]
        rintro e; subst e; exact hi ⟨rfl, by simp⟩
  exact key ts s hn (SameBut.same s) (fun _ _ => rfl) hstep

/-- An instruction over its issue group answers a next state. -/
theorem execLanes_next (words : Nat) (g : Option (BitVec 4)) (f : Nat → LaneFn) (s : State) (ig : IssueGroup)
    (h : s.ig = some ig) :
    execLanes words g f s = .next (runLanes (ig.pc + 4 * words) g (f (ig.pc + 4 * words)) s ig.team ig.threads) := by
  simp [execLanes, h]

/-! ### Taking a trap and returning from one -/

/-- With a trap vector, outside a handler: the thread enters it (R375). -/
theorem deliver_enter (s : State) (i : Tid) (x : Trap) (next core : Nat) (t : Team) (th : Thread)
    (ht : s.team? i.team = some t) (hth : Tab.find i.n t.threads = some th) (hp : t.place = .core core)
    (hs : t.stopped = false) (hh : th.handler = false) (hv : s.trapVec t ≠ 0) :
    s.deliver i x next = s.modThread i fun th' => th'.enter x (x.tpc th.pc.toNat next) (s.trapVec t) := by
  simp [State.deliver, ht, hth, hp, hs, hh, hv]

/-- On a near-memory core a fault ends the call, and the thread replays until the call's teams are dropped (R275). -/
theorem deliver_near (s : State) (i : Tid) (x : Trap) (next stack core call : Nat) (t : Team) (th : Thread)
    (ht : s.team? i.team = some t) (hth : Tab.find i.n t.threads = some th) (hp : t.place = .near stack core call) :
    s.deliver i x next = (s.callFault stack call { x with addr := x.va }).modThread i fun th => { th with wait := .replay } := by
  simp [State.deliver, ht, hth, hp]

/-- In a team that has stopped, the thread keeps its record and its program counter (R376). -/
theorem deliver_stopped (s : State) (i : Tid) (x : Trap) (next core : Nat) (t : Team) (th : Thread)
    (ht : s.team? i.team = some t) (hth : Tab.find i.n t.threads = some th) (hp : t.place = .core core)
    (hs : t.stopped = true) :
    s.deliver i x next = s.modThread i fun th' => th'.stop x (x.tpc th.pc.toNat next) := by
  simp [State.deliver, ht, hth, hp, hs]

/-- In a handler, or with no vector, the team stops (R376, R379). -/
theorem deliver_stops (s : State) (i : Tid) (x : Trap) (next core : Nat) (t : Team) (th : Thread)
    (ht : s.team? i.team = some t) (hth : Tab.find i.n t.threads = some th) (hp : t.place = .core core)
    (hs : t.stopped = false) (hv : th.handler = true ∨ s.trapVec t = 0) :
    s.deliver i x next =
      let tpc := x.tpc th.pc.toNat next
      let s' := (s.stopEvent i t x tpc (if th.handler then 2 else 1)).noteFault t.launch x.code x.reason
      (s'.modTeam i.team fun t => { t.modThread i.n (fun th => th.stop x tpc) with stopped := true }).rewindOps i.team := by
  rcases hv with hv | hv <;> simp [State.deliver, ht, hth, hp, hs, hv]

/-- `%tcause` after a trap: COUNT one higher modulo 2^16, the code in its low byte (R374). -/
theorem enter_tcause (th : Thread) (x : Trap) (tpc vec : Nat) :
    (th.enter x tpc vec).tcause.toNat = (th.tcause.toNat / 2 ^ 16 + 1) % 2 ^ 16 * 2 ^ 16 + x.code % 256 := by
  simp only [Thread.enter, Thread.record, BitVec.toNat_ofNat]
  omega

/-- A return to the address that the trap saved resumes the thread where it was, outside the handler, with its registers,
predicates and flags (R338). -/
theorem rte_enter (th : Thread) (x : Trap) (vec : Nat) :
    let th' := (th.enter x th.pc.toNat vec).rte (th.enter x th.pc.toNat vec).tpc.toNat
    th'.pc = th.pc ∧ th'.handler = false ∧ th'.regs = th.regs ∧ th'.preds = th.preds ∧ th'.fpflags = th.fpflags := by
  simp

end Sys2Proof.Machine
end

