-- ==== Sys2Proof/Laws/Completes.lean ====
section
/-! SUPPORT. From one lane to the whole issue group: what has to be known of a lane function for its instruction to
complete, and the same for the shared shapes of the integer operations. -/

namespace Sys2Proof.Laws.Completes

open Sys2Proof Sys2Proof.Machine Sys2Proof.Claims

/-- What a lane of a formed issue sees. -/
theorem formed_view {s : State} {ig : IssueGroup} {t : Team} {n : Nat} {th : Thread} (hf : Formed s ig t)
   (_hn : n ∈ ig.threads) (hth : Tab.find n t.threads = some th) : s.view {team := ig.team, n} = some (viewOf ig.team t n th) := by
  simp [State.view, hf.2.1, hth, viewOf]

/-- An instruction of words in sequence whose lane changes its own thread, and only it, completes: the lane function need be
known only at states that agree with the first but for threads. -/
theorem completes_of (i : Instr) (words : Nat) (ok : State → View → Prop) (eff : State → View → Thread)
   (f : State → View → Lane State)
   (he : exec i = fun s => execSeq words none f s)
   (hstep : ∀ s ig t n th s1, Formed s ig t → n ∈ ig.threads → Tab.find n t.threads = some th → Each ig t (ok s) →
      ok s (viewOf ig.team t n th) → SameBut s s1 →
      ∀ t1, s1.team? ig.team = some t1 → Tab.find n t1.threads = some th → {t1 with threads := t.threads} = t →
      ∃ g, f s1 (viewOf ig.team t1 n th) = .ok (s1.modThread {team:=ig.team,n} g) ∧
        g th = eff s (viewOf ig.team t n th)) :
   Completes i words ok eff := by
  intro s ig t hf he'
  have hx : exec i s = .next (runLanes (ig.pc + 4 * words) none (fun s c => (f s c).map fun s => (s, ig.pc + 4 * words)) s ig.team ig.threads) := by
    rw [he]; simp [execSeq, execLanes, hf.1]
  refine ⟨_, hx, ?_⟩
  have := runLanes_each (ig.pc + 4 * words) none (fun s c => (f s c).map fun s => (s, ig.pc + 4 * words)) s ig.team ig.threads
    (fun n _ => Thread.at (((Tab.find n t.threads).map fun th => eff s (viewOf ig.team t n th)).getD {}) (nextPc ig words)) hf.2.2.1 ?_
  · obtain ⟨a, b, d⟩ := this
    refine ⟨?_, b, d.1, d.2⟩
    intro n hn th hth
    rw [a n hn]
    simp [State.thread?, hf.2.1, hth]
  · intro s1 n hn hs ht
    obtain ⟨th, hth⟩ := hf.2.2.2 n hn
    have ht' : s1.thread? {team := ig.team, n} = some th := by rw [ht]; simp [State.thread?, hf.2.1, hth]
    have hteam := hs.1 ig.team
    rw [hf.2.1] at hteam
    obtain ⟨t1, h1, h2⟩ : ∃ t1, s1.team? ig.team = some t1 ∧ ({t1 with threads := []} : Team) = {t with threads := []} := by
      cases h : s1.team? ig.team with
      | none => simp [h] at hteam
      | some t1 => rw [h] at hteam; exact ⟨t1, rfl, by simpa using hteam⟩
    have hth1 : Tab.find n t1.threads = some th := by simpa [State.thread?, h1] using ht'
    have heq : {t1 with threads := t.threads} = t := by
      have e : ({t1 with threads := t.threads} : Team) = { ({t1 with threads := []}:Team) with threads := t.threads} := rfl
      rw [e, h2]
    obtain ⟨g, hg, hge⟩ := hstep s ig t n th s1 hf hn hth he' (he' n hn th hth) hs t1 h1 hth1 heq
    have hv : s1.view {team := ig.team, n} = some (viewOf ig.team t1 n th) := by simp [State.view, h1, hth1, viewOf]
    rw [runLane_ok _ _ _ _ _ _ _ _ hv rfl (by rw [hg]; rfl)]
    rw [modThread_modThread]
    simp only [State.modThread, State.modTeam, Tab.modify]
    have : Tab.find ig.team s1.teams = some t1 := h1
    simp only [this, Team.modThread, Tab.modify, hth1, hth]
    simp [hge, Thread.at, nextPc]

/-- Operands depend on the thread and on its allotted registers. -/
theorem operands_team (c c' : View) (o x wa wb wc) (h : c.th = c'.th) (ha : c.alloc = c'.alloc) : c.operands o x wa wb wc = c'.operands o x wa wb wc := by
  simp only [View.operands, View.resolve, h, ha]

/-- Destination registers depend on the registers allotted to the thread. -/
theorem dests_team (c c' : View) (l) (ha : c.alloc = c'.alloc) : c.dests l = c'.dests l := by
  cases l <;> simp [View.dests, View.inRange, ha]

/-- An instruction whose lane is `computeLane` computes what the function of its operands gives. -/
theorem computes_of (i : Instr) (o : XOp) (x : XForm) (words wa wb wc : Nat) (dsts : List Nat)
    (eff : State → View → Nat → Nat → Nat → Thread) (put : Thread → Nat → Thread) (f : Thread → Nat → Nat → Nat → Nat)
    (he : exec i = fun s => execSeq words none (fun s c => computeLane o x wa wb wc dsts put (f c.th) s c) s)
    (hf : ∀ s c a b e, eff s c a b e = put c.th (f c.th a b e)) :
    Computes i o x words wa wb wc dsts eff := by
  refine completes_of i words _ _ _ he ?_
  intro s ig t n th s1 hfm hn hth hall hok hs t1 ht1 hth1 heq
  obtain ⟨hd, ⟨r, hr⟩, hset, hdst, hsnd⟩ := hok
  have hal : (viewOf ig.team t1 n th).alloc = (viewOf ig.team t n th).alloc := by
    rw [← heq]; rfl
  have hop := operands_team (viewOf ig.team t1 n th) (viewOf ig.team t n th) o x wa wb wc rfl hal
  have hreg : regsOf (viewOf ig.team t n th) o x wa wb wc = r := by simp [regsOf, hr]
  rw [hreg] at hset hsnd

  refine ⟨fun th0 => put th0 (f th ((viewOf ig.team t1 n th).th.vs r.a wa) ((viewOf ig.team t1 n th).opB x r wb) ((viewOf ig.team t1 n th).th.vs r.c wc)), ?_, ?_⟩
  · unfold computeLane
    rw [dests_team _ _ dsts hal, hd, hop, hr]
    have hc := claimRegs_settled s1 (viewOf ig.team t1 n th) r.srcs dsts (by simp [State.thread?, viewOf, ht1, hth1])
      (fun m hm => (List.mem_append.1 hm).elim (fun h => (hset m h).1) (fun h => (hdst m h).1))
      (fun m hm => (List.mem_append.1 hm).elim (fun h => (hset m h).2)
        (fun h => (hdst m (List.mem_filter.1 h).1).2 (List.mem_filter.1 h).2)) hsnd
    simp only [bind, Except.bind, hc]
    rfl
  · show _ = eff s (viewOf ig.team t n th) _ _ _
    rw [hf s (viewOf ig.team t n th) _ _ _, hreg]; rfl

/-- The two-source operations (R196). -/
theorem binary_of (i o x words) (f : Nat → Nat → Nat) (g : Ty → Nat → Nat → Nat) (he : exec i = twoX o g x words)
   (h : ∀ a b, g x.ty a b = f a b) : Binary i o x words f := by
  refine computes_of i o x words _ _ _ _ _ (fun th v => th.setVs x.d.toNat v x.ty.regs) (fun _ a b _ => g x.ty a b) ?_ ?_
  · rw [he]; rfl
  · intro s c a b e; simp [put, h]

/-- The three forms of a two-source operation (R161, R196). -/
theorem binaryForms_of (e3 : XForm → Instr) (b3 : B3 → Instr) (bi : BI → Instr) (o : XOp) (f : Ty → Nat → Nat → Nat) (g : Ty → Nat → Nat → Nat)
  (h1 : ∀ x, exec (e3 x) = twoX o g x x.words) (h2 : ∀ f, exec (b3 f) = twoX o g (f.toX f.intTy false) f.words)
  (h3 : ∀ f, exec (bi f) = twoX o g (f.toX false) 1) (h : ∀ ty a b, g ty a b = f ty a b) : BinaryForms e3 b3 bi o f := by
  refine ⟨fun x => binary_of _ _ _ _ _ g (h1 x) (h _), fun x => binary_of _ _ _ _ _ g (h2 x) ?_, fun x => binary_of _ _ _ _ _ g (h3 x) ?_⟩
  · intro a b; rw [h]; rfl
  · intro a b; rw [h]; rfl

/-- Reduction modulo 2^w of a number that is not negative. -/
theorem wrap_nat (ty : Ty) (a : Nat) : wrap ty (a : Int) = a % 2 ^ ty.bits := by
  unfold wrap Bits.ofInt; omega

/-- The shifts. -/
theorem shift_of (i o x words) (f : Nat → Nat → Nat) (g : Ty → Nat → Nat → Nat) (he : exec i = shiftX o g x words)
   (h : ∀ a b, g x.ty a b = f a b) : Claims.Shift i o x words f := by
  refine computes_of i o x words _ _ _ _ _ (fun th v => th.setVs x.d.toNat v x.ty.regs) (fun _ a b _ => g x.ty a b) ?_ ?_
  · rw [he]; rfl
  · intro s c a b e; simp [put, h]

/-- The three forms of a shift (R161). -/
theorem shiftForms_of (e3 : XForm → Instr) (b3 : B3 → Instr) (bi : BI → Instr) (o : XOp) (f : Ty → Nat → Nat → Nat) (g : Ty → Nat → Nat → Nat)
  (h1 : ∀ x, exec (e3 x) = shiftX o g x x.words) (h2 : ∀ f, exec (b3 f) = shiftX o g (f.toX f.intTy false) f.words)
  (h3 : ∀ f, exec (bi f) = shiftX o g (f.toX false) 1) (h : ∀ ty a b, g ty a b = f ty a b) : ShiftForms e3 b3 bi o f := by
  refine ⟨fun x => shift_of _ _ _ _ _ g (h1 x) (h _), fun x => shift_of _ _ _ _ _ g (h2 x) ?_, fun x => shift_of _ _ _ _ _ g (h3 x) ?_⟩
  · intro a b; rw [h]; rfl
  · intro a b; rw [h]; rfl

/-- The one-source operations. -/
theorem unary_of (i o x) (f : Nat → Nat) (g : Ty → Nat → Nat) (he : exec i = oneX o g x)
   (h : ∀ a, g x.ty a = f a) : Unary i o x f := by
  refine computes_of i o x x.words _ _ _ _ _ (fun th v => th.setVs x.d.toNat v x.ty.regs) (fun _ a _ _ => g x.ty a) ?_ ?_
  · rw [he]; rfl
  · intro s c a b e; simp [put, h]

/-- The counts, whose result has one register. -/
theorem counting_of (i o x) (f : Nat → Nat) (g : Ty → Nat → Nat) (he : exec i = countX o g x)
   (h : ∀ a, g x.ty a = f a) : Counting i o x f := by
  refine computes_of i o x x.words _ _ _ _ _ (fun th v => th.setVs x.d.toNat v 1) (fun _ a _ _ => g x.ty a) ?_ ?_
  · rw [he]; rfl
  · intro s c a b e; simp [h]

end Sys2Proof.Laws.Completes
end

