-- ==== Sys2Proof/Laws/Memory.lean ====
section
/-! SUPPORT. Laws of memory: reading after every write, and the canonical form kept by every write. -/

namespace Sys2Proof.Machine

/-! ### Bytes -/

/-- One byte after a write: those written, least significant first, and all others as before. -/
theorem getD_writeBytes (m : Memory) (a n v j : Nat) :
    Tab.getD (writeBytes m a n v) j 0 =
      if a ≤ j ∧ j < a + n then BitVec.ofNat 8 (v / 256 ^ (j - a)) else Tab.getD m j 0 := by
  induction n generalizing m a v with
  | zero => rw [if_neg (by omega)]; rfl
  | succ n ih =>
    rw [writeBytes, ih]
    by_cases h : a + 1 ≤ j ∧ j < a + 1 + n
    · rw [if_pos h, if_pos (by omega), Nat.div_div_eq_div_mul, ← Nat.pow_succ',
        show (j - (a + 1)).succ = j - a by omega]
    · rw [if_neg h, Tab.getD_set]
      by_cases hj : j = a
      · subst hj; simp
      · rw [if_neg hj, if_neg (by omega)]

/-- Reads depend only on the bytes read. -/
theorem readBytes_congr {m m' : Memory} {a a' n : Nat}
    (h : ∀ i, i < n → Tab.getD m (a + i) 0 = Tab.getD m' (a' + i) 0) : readBytes m a n = readBytes m' a' n := by
  induction n generalizing a a' with
  | zero => rfl
  | succ n ih =>
    rw [readBytes, readBytes, show Tab.getD m a 0 = Tab.getD m' a' 0 from h 0 (by omega),
      ih (a := a + 1) (a' := a' + 1) fun i hi => by
        simpa [Nat.add_assoc, Nat.add_comm 1 i] using h (i + 1) (by omega)]

theorem readBytes_lt (m : Memory) (a n : Nat) : readBytes m a n < 256 ^ n := by
  induction n generalizing a with
  | zero => simp [readBytes]
  | succ n ih =>
    have := ih (a + 1)
    have hb := (Tab.getD m a 0).isLt
    rw [readBytes, Nat.pow_succ]
    omega

/-- A read of what was just written gives its low bytes. -/
theorem readBytes_writeBytes (m : Memory) (a n v : Nat) : readBytes (writeBytes m a n v) a n = v % 256 ^ n := by
  have key : ∀ (n a v : Nat) (m : Memory), (∀ i, i < n → Tab.getD m (a + i) 0 = BitVec.ofNat 8 (v / 256 ^ i)) →
      readBytes m a n = v % 256 ^ n := by
    intro n
    induction n with
    | zero => intro a v m _; simp [readBytes, Nat.mod_one]
    | succ n ih =>
      intro a v m h
      have h0 := h 0 (by omega)
      simp only [Nat.add_zero, Nat.pow_zero, Nat.div_one] at h0
      rw [readBytes, h0, ih (a + 1) (v / 256) m]
      · rw [BitVec.toNat_ofNat, show 2 ^ 8 = 256 from rfl, Nat.pow_succ', Nat.mod_mul]
      · intro i hi
        have := h (i + 1) (by omega)
        rw [Nat.add_assoc, Nat.add_comm 1 i, this, Nat.div_div_eq_div_mul, ← Nat.pow_succ']
  refine key n a v _ fun i hi => ?_
  rw [getD_writeBytes, if_pos (by omega), show a + i - a = i by omega]

/-- A read apart from what was written is as before. -/
theorem readBytes_writeBytes_apart (m : Memory) {a n v b k : Nat} (h : b + k ≤ a ∨ a + n ≤ b) :
    readBytes (writeBytes m a n v) b k = readBytes m b k :=
  readBytes_congr fun i hi => by rw [getD_writeBytes, if_neg (by omega)]

theorem getD_copyBytes (src : Memory) (a : Nat) (dst : Memory) (b n j : Nat) :
    Tab.getD (copyBytes src a dst b n) j 0 =
      if b ≤ j ∧ j < b + n then Tab.getD src (a + (j - b)) 0 else Tab.getD dst j 0 := by
  induction n with
  | zero => rw [if_neg (by omega)]; rfl
  | succ n ih =>
    rw [copyBytes, Tab.getD_set, ih]
    by_cases hj : j = b + n
    · subst hj; simp
    · rw [if_neg hj]
      by_cases h : b ≤ j ∧ j < b + n
      · rw [if_pos h, if_pos (by omega)]
      · rw [if_neg h, if_neg (by omega)]

/-- The bytes of a line of memory. -/
theorem getD_lineOf (m : Memory) (base i : Nat) :
    Tab.getD (lineOf m base) i 0 = if i < 128 then Tab.getD m (base + i) 0 else 0 := by
  induction m with
  | nil => simp [lineOf]
  | cons p m ih =>
    obtain ⟨a, v⟩ := p
    by_cases hp : base ≤ a ∧ a < base + 128
    · have : lineOf ((a, v) :: m) base = (a - base, v) :: lineOf m base := by simp [lineOf, hp]
      rw [this]
      simp only [Tab.getD, Tab.find_cons] at ih ⊢
      by_cases hi : i = a - base
      · rw [if_pos hi, if_pos (by omega), if_pos (by omega)]
      · rw [if_neg hi, ih]
        by_cases h : i < 128
        · rw [if_pos h, if_pos h, if_neg (by omega)]
        · rw [if_neg h, if_neg h]
    · have : lineOf ((a, v) :: m) base = lineOf m base := by
        simp only [lineOf, List.filter_cons]
        rw [if_neg (by simpa using hp)]
      rw [this, ih]
      simp only [Tab.getD, Tab.find_cons]
      by_cases h : i < 128
      · rw [if_pos h, if_pos h, if_neg (by omega)]
      · rw [if_neg h, if_neg h]

/-- Reading through a list of key and value pairs joined to another. -/
theorem find_append (k : Nat) (t u : Memory) : Tab.find k (t ++ u) = (Tab.find k t).or (Tab.find k u) := by
  induction t with
  | nil => rfl
  | cons p t ih =>
    obtain ⟨a, v⟩ := p
    simp only [List.cons_append, Tab.find_cons, ih]
    split <;> rfl

/-- The entries of a line as they are written back, read at a key. -/
theorem find_lineEntries (base k : Nat) (d : LineData) (is : List Nat) :
    Tab.find k (is.filterMap fun i => if Tab.getD d i 0 = 0 then none else some (base + i, Tab.getD d i 0)) =
      if base ≤ k ∧ k - base ∈ is ∧ Tab.getD d (k - base) 0 ≠ 0 then some (Tab.getD d (k - base) 0) else none := by
  induction is with
  | nil => simp
  | cons i is ih =>
    rw [List.filterMap_cons]
    by_cases h0 : Tab.getD d i 0 = 0
    · rw [if_pos h0, ih]
      refine if_congr ⟨fun h => ⟨h.1, List.mem_cons_of_mem _ h.2.1, h.2.2⟩, fun h => ⟨h.1, ?_, h.2.2⟩⟩ rfl rfl
      rcases List.mem_cons.1 h.2.1 with e | e
      · exact absurd (e ▸ h0) h.2.2
      · exact e
    · rw [if_neg h0, Tab.find_cons, ih]
      by_cases hk : k = base + i
      · subst hk
        rw [if_pos rfl, if_pos ⟨by omega, by simp, by rwa [Nat.add_sub_cancel_left]⟩, Nat.add_sub_cancel_left]
      · rw [if_neg hk]
        refine if_congr ⟨fun h => ⟨h.1, List.mem_cons_of_mem _ h.2.1, h.2.2⟩, fun h => ⟨h.1, ?_, h.2.2⟩⟩ rfl rfl
        rcases List.mem_cons.1 h.2.1 with e | e
        · have := h.1; omega
        · exact e

/-- One byte after a line has been written whole. -/
theorem getD_putLine (m : Memory) (base : Nat) (d : LineData) (j : Nat) :
    Tab.getD (putLine m base d) j 0 =
      if base ≤ j ∧ j < base + 128 then Tab.getD d (j - base) 0 else Tab.getD m j 0 := by
  have h1 := Tab.find_filter_key (fun a => decide (a < base)) j m
  have h2 := Tab.find_filter_key (fun a => decide (base + 128 ≤ a)) j m
  have h3 := find_lineEntries base j d (List.range 128)
  rw [Tab.getD, putLine, find_append, find_append, h1, h2, h3]
  simp only [List.mem_range, decide_eq_true_eq]
  by_cases hlo : j < base
  · rw [if_pos hlo, if_neg (by omega), if_neg (by omega), if_neg (by omega)]; simp [Tab.getD]
  · rw [if_neg hlo]
    by_cases hhi : base + 128 ≤ j
    · rw [if_pos hhi, if_neg (by omega), if_neg (by omega)]; simp [Tab.getD]
    · rw [if_neg hhi, if_pos (by omega : base ≤ j ∧ j < base + 128)]
      by_cases hz : Tab.getD d (j - base) 0 = 0
      · rw [if_neg fun h => h.2.2 hz, hz]; rfl
      · rw [if_pos ⟨by omega, by omega, hz⟩]; rfl

/-! ### The canonical form -/

theorem writeBytes_wf (m : Memory) (a n v : Nat) (h : Memory.wf m = true) : Memory.wf (writeBytes m a n v) = true := by
  induction n generalizing m a v with
  | zero => exact h
  | succ n ih => exact ih _ _ _ (Tab.wf_set 0 a _ m h)

theorem copyBytes_wf (src : Memory) (a : Nat) (dst : Memory) (b n : Nat) (h : Memory.wf dst = true) :
    Memory.wf (copyBytes src a dst b n) = true := by
  induction n with
  | zero => exact h
  | succ n ih => exact Tab.wf_set 0 _ _ _ ih

/-- Keeping the entries that pass a test keeps the form. -/
theorem filter_wf (m : Memory) (f : Nat × Byte → Bool) (h : Memory.wf m = true) : Memory.wf (m.filter f) = true :=
  Tab.wf_filter 0 f m h

theorem putLine_wf (m : Memory) (base : Nat) (d : LineData) (h : Memory.wf m = true) :
    Memory.wf (putLine m base d) = true := by
  have hm := (Tab.wf_iff 0 m).1 h
  refine (Tab.wf_iff 0 _).2 ⟨?_, ?_⟩
  · unfold putLine
    have mid : ((List.range 128).filterMap fun i =>
        if Tab.getD d i 0 = 0 then none else some (base + i, Tab.getD d i 0)).Pairwise fun p q => p.1 < q.1 := by
      refine List.pairwise_filterMap.2 ((List.pairwise_lt_range (n := 128)).imp ?_)
      intro i j hij p hp q hq
      split at hp <;> split at hq <;> simp only [Option.some.injEq, reduceCtorEq] at hp hq
      subst hp; subst hq; simpa using hij
    refine List.pairwise_append.2 ⟨List.pairwise_append.2 ⟨hm.1.filter _, mid, ?_⟩, hm.1.filter _, ?_⟩
    · intro p hp q hq
      have hp := (List.mem_filter.1 hp).2
      obtain ⟨i, -, hi⟩ := List.mem_filterMap.1 hq
      split at hi <;> simp only [Option.some.injEq, reduceCtorEq] at hi
      subst hi
      simp only [decide_eq_true_eq] at hp
      show p.1 < base + i
      omega
    · intro p hp q hq
      have hq := (List.mem_filter.1 hq).2
      simp only [decide_eq_true_eq] at hq
      rcases List.mem_append.1 hp with hp | hp
      · have hp := (List.mem_filter.1 hp).2
        simp only [decide_eq_true_eq] at hp
        omega
      · obtain ⟨i, hi, hp⟩ := List.mem_filterMap.1 hp
        split at hp <;> simp only [Option.some.injEq, reduceCtorEq] at hp
        subst hp
        have := List.mem_range.1 hi
        show base + i < q.1
        omega
  · intro p hp
    rcases List.mem_append.1 hp with hp | hp
    · rcases List.mem_append.1 hp with hp | hp
      · exact hm.2 p (List.mem_of_mem_filter hp)
      · obtain ⟨i, -, hp⟩ := List.mem_filterMap.1 hp
        split at hp <;> simp only [Option.some.injEq, reduceCtorEq] at hp
        subst hp; assumption
    · exact hm.2 p (List.mem_of_mem_filter hp)

/-- Writing any number of bytes one after another keeps the form. -/
theorem foldl_set_wf {β : Type} (f : Memory → β → Nat × Byte) (bs : List β) (m : Memory) (h : Memory.wf m = true) :
    Memory.wf (bs.foldl (fun m b => Tab.set 0 (f m b).1 (f m b).2 m) m) = true := by
  induction bs generalizing m with
  | nil => exact h
  | cons b bs ih => exact ih _ (Tab.wf_set 0 _ _ m h)

/-- Any writes of bytes, one after another, keep the form. -/
theorem foldl_writeBytes_wf {β : Type} (f : β → Nat × Nat × Nat) (bs : List β) (m : Memory) (h : Memory.wf m = true) :
    Memory.wf (bs.foldl (fun m b => writeBytes m (f b).1 (f b).2.1 (f b).2.2) m) = true := by
  induction bs generalizing m with
  | nil => exact h
  | cons b bs ih => exact ih _ (writeBytes_wf m _ _ _ h)

/-! ### States -/

theorem canonical_iff (s : State) : s.canonical = true ↔ Memory.wf s.hbm = true ∧ Memory.wf s.hostMem = true := by
  simp [State.canonical]

/-- What leaves both memories alone keeps them canonical. -/
theorem canonical_of_eq {s s' : State} (h : s.canonical = true) (hb : s'.hbm = s.hbm) (hh : s'.hostMem = s.hostMem) :
    s'.canonical = true := by
  rw [canonical_iff] at *; rw [hb, hh]; exact h

theorem canonical_writeHost (s : State) (pa n v : Nat) (h : s.canonical = true) :
    (s.writeHost pa n v).canonical = true := by
  rw [canonical_iff] at *; exact ⟨h.1, writeBytes_wf _ _ _ _ h.2⟩

theorem canonical_putBacking (s : State) (ln : Nat) (d : LineData) (h : s.canonical = true) :
    (s.putBacking ln d).canonical = true := by
  rw [canonical_iff] at *
  unfold State.putBacking
  split
  · exact ⟨h.1, putLine_wf _ _ _ h.2⟩
  · exact ⟨putLine_wf _ _ _ h.1, h.2⟩

/-- The bytes that the host stores in its own memory. -/
theorem hostBytes_wf (pa : Nat) (bytes : List (Byte × Nat)) (m : Memory) (h : Memory.wf m = true) :
    Memory.wf (bytes.foldl (fun m (b, i) => Tab.set 0 (pa + i) b m) m) = true :=
  foldl_set_wf (fun _ p => (pa + p.2, p.1)) bytes m h

end Sys2Proof.Machine
end

