-- ==== Sys2Proof/Laws/Frames.lean ====
section
/-! SUPPORT. What the shared operations leave of memory: device memory is untouched by a fault, an event or a sweep whose
threads leave it, and the memories stay canonical. -/

namespace Sys2Proof.Machine

/-- Device memory is the same and host memory keeps its form. -/
def KeepsMemory (s s' : State) : Prop :=
  s'.hbm = s.hbm ∧ (Memory.wf s.hostMem = true → Memory.wf s'.hostMem = true)

theorem KeepsMemory.same {s s' : State} (hb : s'.hbm = s.hbm) (hh : s'.hostMem = s.hostMem) : KeepsMemory s s' :=
  ⟨hb, fun h => by rw [hh]; exact h⟩

theorem KeepsMemory.refl (s : State) : KeepsMemory s s := .same rfl rfl

theorem KeepsMemory.trans {s t u : State} (h : KeepsMemory s t) (h' : KeepsMemory t u) : KeepsMemory s u :=
  ⟨h'.1.trans h.1, fun w => h'.2 (h.2 w)⟩

theorem KeepsMemory.canonical {s s' : State} (h : KeepsMemory s s') (hc : s.canonical = true) : s'.canonical = true := by
  rw [canonical_iff] at *; exact ⟨h.1 ▸ hc.1, h.2 hc.2⟩

theorem KeepsMemory.modThread {s s' : State} (h : KeepsMemory s s') (i : Tid) (f : Thread → Thread) :
    KeepsMemory s (s'.modThread i f) := h

theorem KeepsMemory.modTeam {s s' : State} (h : KeepsMemory s s') (k : Nat) (f : Team → Team) :
    KeepsMemory s (s'.modTeam k f) := h

theorem keepsMemory_modThread (s : State) (i : Tid) (f : Thread → Thread) : KeepsMemory s (s.modThread i f) := .same rfl rfl

theorem keepsMemory_modTeam (s : State) (k : Nat) (f : Team → Team) : KeepsMemory s (s.modTeam k f) := .same rfl rfl

theorem keepsMemory_raise (s : State) (k t : Nat) : KeepsMemory s (s.raise k t) := .same rfl rfl

theorem keepsMemory_setRegField (s : State) (off lo w v : Nat) : KeepsMemory s (s.setRegField off lo w v) := .same rfl rfl

theorem keepsMemory_withPort (s : State) (p : Port) : KeepsMemory s { s with port := p } := .same rfl rfl

theorem keepsMemory_withMemops (s : State) (m : Tab MemOp) : KeepsMemory s { s with memops := m } := .same rfl rfl

/-- A fold of steps that keep memory keeps it. -/
theorem KeepsMemory.foldl {β : Type} {f : State → β → State} (hf : ∀ s b, KeepsMemory s (f s b)) (bs : List β) (s : State) :
    KeepsMemory s (bs.foldl f s) := by
  induction bs generalizing s with
  | nil => exact .refl s
  | cons b bs ih => exact (hf s b).trans (ih _)

theorem keepsMemory_writeHost (s : State) (pa n v : Nat) : KeepsMemory s (s.writeHost pa n v) :=
  ⟨rfl, fun h => writeBytes_wf _ _ _ _ h⟩

/-- A host event writes its record to the ring and nothing else of memory (R377). -/
theorem keepsMemory_hostEvent (s : State) (e : HostEvent) : KeepsMemory s (s.hostEvent e) := by
  unfold State.hostEvent
  simp only
  split
  · exact .refl s
  · split
    · exact keepsMemory_setRegField _ _ _ _ _
    · exact ((keepsMemory_writeHost _ _ _ _).trans (keepsMemory_setRegField _ _ _ _ _)).trans (keepsMemory_withPort _ _)

theorem keepsMemory_stopEvent (s : State) (i : Tid) (t : Team) (x : Trap) (tpc kind : Nat) :
    KeepsMemory s (s.stopEvent i t x tpc kind) := keepsMemory_hostEvent s _

theorem keepsMemory_noteFault (s : State) (k c r : Nat) : KeepsMemory s (s.noteFault k c r) := .same rfl rfl

theorem keepsMemory_stirLaunch (s : State) (k : Nat) : KeepsMemory s (s.stirLaunch k) := .same rfl rfl

theorem keepsMemory_callFault (s : State) (st k : Nat) (x : Trap) : KeepsMemory s (s.callFault st k x) := .same rfl rfl

theorem keepsMemory_drainFault (s : State) (k addr status : Nat) : KeepsMemory s (s.drainFault k addr status) :=
  (keepsMemory_noteFault s _ _ _).trans (keepsMemory_hostEvent _ _)

theorem keepsMemory_placeRecord (s : State) (i : Tid) : KeepsMemory s (s.placeRecord i) := by
  unfold State.placeRecord
  split
  · exact .trans (.same rfl rfl) (keepsMemory_modThread _ _ _)
  · exact .refl s

theorem keepsMemory_threadsGoOn (s : State) (op : MemOp) (ns : List Nat) : KeepsMemory s (s.threadsGoOn op ns) := by
  unfold State.threadsGoOn
  refine .trans ?_ (KeepsMemory.foldl (fun s n => keepsMemory_modThread _ _ _) _ _)
  split
  · exact KeepsMemory.foldl (fun s n => keepsMemory_placeRecord _ _) _ _
  · exact .refl s

theorem keepsMemory_rewindOps (s : State) (k : Nat) : KeepsMemory s (s.rewindOps k) := by
  unfold State.rewindOps
  refine KeepsMemory.foldl (fun s p => ?_) _ _
  obtain ⟨key, op⟩ := p
  simp only
  split
  · exact .refl s
  · have h1 := KeepsMemory.foldl (f := fun s n => s.modThread { team := k, n } fun th =>
      if th.wait == .mem key then { th with wait := .ready, launching := none } else th)
      (fun s n => keepsMemory_modThread _ _ _) (op.accs.map Access.tid) s
    split
    · exact (h1.trans (keepsMemory_withMemops _ _)).trans (keepsMemory_threadsGoOn _ _ _)
    · exact h1.trans (keepsMemory_withMemops _ _)

/-- A fault delivered to a thread writes at most its event record (R372 to R376). -/
theorem keepsMemory_deliver (s : State) (i : Tid) (x : Trap) (next : Nat) : KeepsMemory s (s.deliver i x next) := by
  unfold State.deliver
  split
  · exact .refl s
  · split
    · exact .refl s
    · split
      · exact (keepsMemory_callFault _ _ _ _).trans (keepsMemory_modThread _ _ _)
      · simp only
        split
        · exact keepsMemory_modThread _ _ _
        · split
          · exact (((keepsMemory_stopEvent s _ _ _ _ _).trans (keepsMemory_noteFault _ _ _ _)).trans
              (keepsMemory_modTeam _ _ _)).trans (keepsMemory_rewindOps _ _)
          · exact keepsMemory_modThread _ _ _

theorem keepsMemory_observe (s : State) (i : Tid) (ns : List Nat) : KeepsMemory s (s.observe i ns) := by
  unfold State.observe
  split
  · exact .refl s
  · split
    · exact .refl s
    · exact (KeepsMemory.foldl (fun s t => keepsMemory_raise _ _ _) _ _).trans (keepsMemory_modThread _ _ _)


theorem keepsMemory_claimRegs (s s' : State) (c : View) (srcs dsts : List Nat) (h : s.claimRegs c srcs dsts = .ok s') :
    KeepsMemory s s' := by
  unfold State.claimRegs at h
  cases hr : c.ready srcs dsts with
  | error e => rw [hr] at h; cases h
  | ok =>
    rw [hr] at h
    cases h
    exact keepsMemory_observe s _ _

/-- A sweep whose threads keep memory keeps it. -/
theorem keepsMemory_runLanes (next : Nat) (g : Option (BitVec 4)) (f : LaneFn) (s : State) (k : Nat) (ts : List Nat)
    (hf : ∀ s c s' pc, f s c = .ok (s', pc) → KeepsMemory s s') : KeepsMemory s (runLanes next g f s k ts) := by
  refine KeepsMemory.foldl (fun s n => ?_) ts s
  unfold runLane
  split
  · exact .refl s
  · split
    · split
      · rename_i h; exact (hf _ _ _ _ h).trans (keepsMemory_modThread _ _ _)
      · exact keepsMemory_deliver _ _ _ _
      · exact .same rfl rfl
    · exact .same rfl rfl

/-- An instruction whose threads keep memory keeps it. -/
theorem keepsMemory_execLanes (words : Nat) (g : Option (BitVec 4)) (f : Nat → LaneFn) (s s' : State)
    (hf : ∀ next s c s' pc, f next s c = .ok (s', pc) → KeepsMemory s s') (h : execLanes words g f s = .next s') :
    KeepsMemory s s' := by
  unfold execLanes at h
  split at h
  · cases h
  · cases h; exact keepsMemory_runLanes _ _ _ _ _ _ (hf _)

theorem keepsMemory_execSeq (words : Nat) (g : Option (BitVec 4)) (f : State → View → Lane State) (s s' : State)
    (hf : ∀ s c s', f s c = .ok s' → KeepsMemory s s') (h : execSeq words g f s = .next s') : KeepsMemory s s' := by
  refine keepsMemory_execLanes words g _ s s' (fun next s c s' pc h => ?_) h
  cases hx : f s c with
  | error e => rw [hx] at h; cases h
  | ok t => rw [hx] at h; cases h; exact hf s c _ hx

/-- An instruction that computes registers keeps memory. -/
theorem keepsMemory_computeLane (o : XOp) (x : XForm) (wa wb wc : Nat) (dsts : List Nat) (put : Thread → Nat → Thread)
    (f : Nat → Nat → Nat → Nat) (s s' : State) (c : View) (h : computeLane o x wa wb wc dsts put f s c = .ok s') :
    KeepsMemory s s' := by
  unfold computeLane at h
  cases h1 : c.dests dsts with
  | error e => rw [h1] at h; cases h
  | ok =>
    cases h2 : c.operands o x wa wb wc with
    | error e => rw [h1, h2] at h; cases h
    | ok r =>
      cases h3 : s.claimRegs c r.srcs dsts with
      | error e => simp only [h1, h2, bind, Except.bind, h3] at h; cases h
      | ok u =>
        simp only [h1, h2, bind, Except.bind, h3, pure, Except.pure, Except.ok.injEq] at h
        subst h
        exact (keepsMemory_claimRegs s u c _ _ h3).trans (keepsMemory_modThread _ _ _)

end Sys2Proof.Machine
end

