-- ==== Sys2Proof/Laws/Lines.lean ====
section
/-! SUPPORT. Laws of homes, regions, messages, formes and rejoin sets: reading each after an update of it. -/

namespace Sys2Proof.Machine

theorem home_modHome (s : State) (h j : Nat) (f : Home → Home) :
    (s.modHome h f).home j = if j = h then f (s.home h) else s.home j := by
  simp only [State.home, State.modHome_homes, Tab.getD_put]

theorem region_modRegion (s : State) (r j : Nat) (f : Region → Region) :
    (s.modRegion r f).region j = if j = r then f (s.region r) else s.region j := by
  simp only [State.region, State.modRegion_regions, Tab.getD_put]

theorem core_modCore (s : State) (c j : Nat) (f : Core → Core) :
    (s.modCore c f).core j = if j = c then f (s.core c) else s.core j := by
  simp only [State.core, State.modCore_cores, Tab.getD_put]

theorem find_modForme (s : State) (k j : Nat) (f : Forme → Forme) :
    Tab.find j (s.modForme k f).formes = if j = k then (Tab.find j s.formes).map f else Tab.find j s.formes :=
  Tab.find_modify k j f s.formes

/-- A message sent is in flight under the tag taken; every other message stays. -/
theorem find_send (s : State) (m : Msg) (t : Nat) :
    Tab.find t (s.send m).net = if t = s.nextTag then some m else Tab.find t s.net := Tab.find_put _ _ _ _

theorem find_taken (s : State) (t u : Nat) :
    Tab.find u (s.taken t).net = if u = t then none else Tab.find u s.net := Tab.find_del _ _ _

/-- The line stored at its home is read back; every other line is as it was. -/
theorem lineAt_putLineAt (s : State) (ln m : Nat) (l : HomeLine) :
    (s.putLineAt ln l).lineAt m = if m = ln then l else s.lineAt m := by
  by_cases h : m = ln
  · subst h
    simp [State.lineAt, State.putLineAt, home_modHome]
  · rw [if_neg h]
    simp only [State.lineAt, State.putLineAt, home_modHome]
    by_cases hh : homeOf m = homeOf ln
    · simp only [hh, if_true, Tab.find_put, if_neg h]; rfl
    · simp only [hh, if_false]; rfl

theorem isResident_putLineAt (s : State) (ln m : Nat) (l : HomeLine) :
    (s.putLineAt ln l).isResident m = (decide (m = ln) || s.isResident m) := by
  by_cases h : m = ln
  · subst h; simp [State.isResident, State.putLineAt, home_modHome, Tab.has]
  · simp only [State.isResident, State.putLineAt, home_modHome, Tab.has]
    by_cases hh : homeOf m = homeOf ln
    · simp [hh, Tab.find_put, h]
    · simp [hh, h]

/-- Data that comes home leaves the line in H with the owner's data and times, without a directory entry (R46, R48). -/
theorem lineAt_takeBack (s : State) (ln : Nat) (data : LineData) (dirty : Bool) (wts rts : Nat) :
    (s.takeBack ln data dirty wts rts).lineAt ln =
      { s.lineAt ln with state := .h, data, dirty := (s.lineAt ln).dirty || dirty, wts, rts } := by
  have h := lineAt_putLineAt s ln ln
    { s.lineAt ln with state := .h, data, dirty := (s.lineAt ln).dirty || dirty, wts, rts }
  rw [if_pos rfl] at h
  rw [← h]
  simp only [State.takeBack, State.lineAt, home_modHome, if_true]
  simp only [State.putLineAt, home_modHome, if_true, Tab.find_put_same, Option.getD_some]

theorem dir_takeBack (s : State) (ln : Nat) (data : LineData) (dirty : Bool) (wts rts : Nat) :
    ∀ e ∈ ((s.takeBack ln data dirty wts rts).home (homeOf ln)).dir, e.line ≠ ln := by
  intro e he
  simp only [State.takeBack, home_modHome, if_true] at he
  have := (List.mem_filter.1 he).2
  simpa using this

/-- A load at the home raises RTS and changes neither data nor WTS (R43). -/
theorem homeLoad_line (s : State) (ln pts lease : Nat) :
    let l := s.lineAt ln
    let l' := (s.homeLoad ln pts lease).1.lineAt ln
    l'.data = l.data ∧ l'.wts = l.wts ∧ l.rts ≤ l'.rts ∧ (s.homeLoad ln pts lease).2 = max pts l.wts := by
  simp only [State.homeLoad, lineAt_putLineAt, if_true, and_true, true_and]
  split <;> omega

/-- A store at the bank takes a time above the line's RTS and changes the bytes stored (R43, R66). -/
theorem forme_store (f : Forme) (off n v pts : Nat) :
    (f.store off n v pts).2 = max pts (Tab.getD f.rts (off / 128) 0 + 1) ∧
      (f.store off n v pts).1.data = writeBytes f.data off n v ∧
      { (f.store off n v pts).1 with data := f.data, wts := f.wts, rts := f.rts } = f := ⟨rfl, rfl, rfl⟩

/-- A load at the bank reads its bytes and raises RTS alone (R43, R66). -/
theorem forme_load (f : Forme) (off n pts : Nat) :
    (f.load off n pts).2 = (readBytes f.data off n, max pts (Tab.getD f.wts (off / 128) 0)) ∧
      { (f.load off n pts).1 with rts := f.rts } = f := ⟨rfl, rfl⟩

/-- A forme outside which nothing stops an access. -/
theorem formeCheck_ok (s : State) (k off n va : Nat) (whole : Bool) (hp : (s.forme k).presence (off / 128) = 0)
    (ht : (s.forme k).taggedAt off n = none) (hb : s.badUnits k off n whole = false) :
    s.formeCheck k off n va whole = .ok () := by
  simp [State.formeCheck, State.presenceCheck, hp, ht, hb]

/-- A rejoin set replaced is read back by every thread of its group; every other set is as it was. -/
theorem jset_setJ_same (t : Team) (n j : Nat) (v : JSet) (h : Tab.has t.groups (t.hw n) = true) :
    (t.setJ n j v).jset n j = v := by
  obtain ⟨g, hg⟩ := Option.isSome_iff_exists.1 h
  have hw : (t.setJ n j v).hw n = t.hw n := rfl
  have hk : (t.setJ n j v).setKey n j = t.setKey n j := rfl
  simp only [Team.jset, hw, hk]
  simp [Team.setJ, hg]

theorem jset_setJ_other (t : Team) (n j m i : Nat) (v : JSet)
    (h : t.hw m ≠ t.hw n ∨ t.setKey m i ≠ t.setKey n j) : (t.setJ n j v).jset m i = t.jset m i := by
  have hw : (t.setJ n j v).hw m = t.hw m := rfl
  have hk : (t.setJ n j v).setKey m i = t.setKey m i := rfl
  simp only [Team.jset, hw, hk]
  simp only [Team.setJ, Team.modGroup_groups, Tab.find_modify]
  by_cases hg : t.hw m = t.hw n
  · rw [if_pos hg]
    have hne := h.resolve_left (by simp [hg])
    cases Tab.find (t.hw m) t.groups with
    | none => rfl
    | some g => simp [Tab.getD_set_other _ hne]
  · rw [if_neg hg]

end Sys2Proof.Machine
end

