-- ==== Sys2Proof/Tests/Kit.lean ====
section
/-! SUPPORT. The small states on which the tests and witnesses rest, and checks that decide the hypotheses of the
statements. -/

namespace Sys2Proof.Tests

open Sys2Proof.Machine Sys2Proof.Claims

/-! ### States -/

/-- A launch in context 0 whose TRAPVEC is 0x2000. -/
def launch1 : Launch := { id := 7, ctx := 0, record := 0x2000 * 2 ^ 192 }

/-- A team of `n` threads in user mode on core 0, with 64 registers, two barriers and a forme of 1,024 bytes. -/
def teamOf (n : Nat) : Team :=
  { place := .core 0, launch := 1, cluster := 2, dim := n, grid := (1, 1, 1), base := 64, nbar := 2, nslug := 2
    forme := 1024, threads := (List.range n).map fun i => (i, {}), groups := [(0, {})] }

/-- The module with one resident team, whose issue group is at address 0. -/
def withTeam (t : Team) (ts : List Nat) : State :=
  { ig := some { team := 3, threads := ts, pc := 0 }, nextKey := 10, teams := [(3, t)], launches := [(1, launch1)]
    clusters := [(2, { launch := 1, index := 0, teams := [3] })]
    formes := [(3, { size := 1024, cluster := 2, core := 0 })]
    tlbs := [(0, [{ ctx := 0, va := 0, size := 4096, pte := 0xF }])] }

/-- One thread, alone in its team. -/
def solo : State := withTeam (teamOf 1) [0]

/-- Two threads, both in the issue group. -/
def pair : State := withTeam (teamOf 2) [0, 1]

/-- The issue group of `withTeam`. -/
def igOf (ts : List Nat) : IssueGroup := { team := 3, threads := ts, pc := 0 }

/-- One thread with registers of its own. -/
def soloRegs (rs : Tab Word) : Team := { teamOf 1 with threads := [(0, { regs := rs })] }

/-- One thread with a forme-window address in `v2`:`v3`, 0x01FF_FFFF_FF00_0000 and `off`. -/
def formeRegs (off : Nat) : Tab Word := [(2, BitVec.ofNat 32 (0xFF000000 + off)), (3, 0x01FFFFFF)]

/-- An instruction's operands: D = `v8`, A = `v2`, B = `v4`, C = `v6`, no guard. -/
def form (ty : Ty) : XForm := { XForm.blank ty with d := 8, a := 2, b := 4, c := 6 }

/-! ### Checks that decide hypotheses -/

def formedB (s : State) (ig : IssueGroup) (t : Team) : Bool :=
  decide (s.ig = some ig) && decide (s.team? ig.team = some t) && decide ig.threads.Nodup &&
    ig.threads.all fun n => (Tab.find n t.threads).isSome

theorem formed_of {s : State} {ig : IssueGroup} {t : Team} (h : formedB s ig t = true) : Formed s ig t := by
  simp only [formedB, Bool.and_eq_true, decide_eq_true_eq, List.all_eq_true, Option.isSome_iff_exists] at h
  exact ⟨h.1.1.1, h.1.1.2, h.1.2, h.2⟩

/-- A check over the views of an issue group's threads. -/
def eachB (ig : IssueGroup) (t : Team) (p : View → Bool) : Bool :=
  ig.threads.all fun n => match Tab.find n t.threads with
    | some th => p (viewOf ig.team t n th)
    | none => true

theorem each_of {ig : IssueGroup} {t : Team} {P : View → Prop} {p : View → Bool} (hp : ∀ c, p c = true → P c)
    (h : eachB ig t p = true) : Each ig t P := by
  intro n hn th hth
  have := List.all_eq_true.1 h n hn
  simp only [hth] at this
  exact hp _ this

theorem each_one {t : Team} {th : Thread} {P : View → Prop} (ht : Tab.find 0 t.threads = some th) (h : P (viewOf 3 t 0 th)) :
    Each (igOf [0]) t P := by
  intro n hn th' hth
  have hn : n = 0 := by simpa [igOf] using hn
  subst hn
  rw [ht] at hth
  cases hth
  exact h

def settledB (c : View) (ns : List Nat) : Bool :=
  ns.all fun n => (Tab.find n c.th.pend).isNone && (Tab.find n c.th.seen).isNone

theorem settled_of {c : View} {ns : List Nat} (h : settledB c ns = true) : Settled c ns := by
  simpa [settledB, Settled, List.all_eq_true] using h

def unheldB (c : View) (ns : List Nat) : Bool :=
  ns.all fun n => (Tab.find n c.th.pend).isNone && (!c.awaited n || (Tab.find n c.th.seen).isNone)

theorem unheld_of {c : View} {ns : List Nat} (h : unheldB c ns = true) : Unheld c ns := by
  simp only [unheldB, List.all_eq_true, Bool.and_eq_true, Bool.or_eq_true, Option.isNone_iff_eq_none] at h
  exact fun n hn => ⟨(h n hn).1, fun ha => (h n hn).2.resolve_left (by simp [ha])⟩

def soundB (c : View) (ns : List Nat) : Bool := ns.all fun n => decide (n ∉ c.th.bad)

theorem sound_of {c : View} {ns : List Nat} (h : soundB c ns = true) : Sound c ns := by
  simpa [soundB, Sound, List.all_eq_true] using h

def okB {α : Type} (l : Lane α) : Bool := match l with | .ok _ => true | .error _ => false

theorem ok_of {α : Type} {l : Lane α} (h : okB l = true) : ∃ r, l = .ok r := by
  cases l with
  | ok r => exact ⟨r, rfl⟩
  | error e => cases h

theorem unit_of {l : Lane Unit} (h : okB l = true) : l = .ok () := by
  obtain ⟨r, hr⟩ := ok_of h; exact hr

def usableB (o : XOp) (x : XForm) (wa wb wc : Nat) (dsts : List Nat) (_ : State) (c : View) : Bool :=
  okB (c.dests dsts) && okB (c.operands o x wa wb wc) && settledB c (regsOf c o x wa wb wc).srcs && unheldB c dsts &&
    soundB c (regsOf c o x wa wb wc).srcs

theorem usable_of {o : XOp} {x : XForm} {wa wb wc : Nat} {dsts : List Nat} {s : State} {c : View}
    (h : usableB o x wa wb wc dsts s c = true) : Usable o x wa wb wc dsts s c := by
  simp only [usableB, Bool.and_eq_true] at h
  exact ⟨unit_of h.1.1.1.1, ok_of h.1.1.1.2, settled_of h.1.1.2, unheld_of h.1.2, sound_of h.2⟩

/-- The operands that one row of a statement names: operation, form, widths of A, B and C, destinations. -/
structure Row where
  o : XOp
  x : XForm
  wa : Nat := 0
  wb : Nat := 0
  wc : Nat := 0
  dsts : List Nat := []

/-- Hypotheses that all rows of a family meet in one state. -/
def Row.Meets (r : Row) (s : State) (ig : IssueGroup) (t : Team) : Prop :=
  Formed s ig t ∧ Each ig t (Usable r.o r.x r.wa r.wb r.wc r.dsts s)

theorem rows_of {rs : List Row} {s : State} {ig : IssueGroup} {t : Team} (hf : formedB s ig t = true)
    (h : (rs.all fun r => eachB ig t (usableB r.o r.x r.wa r.wb r.wc r.dsts s)) = true) :
    ∀ r ∈ rs, r.Meets s ig t :=
  fun r hr => ⟨formed_of hf, each_of (fun _ hc => usable_of hc) (List.all_eq_true.1 h r hr)⟩

def canTrapB (s : State) (ig : IssueGroup) (t : Team) : Bool :=
  !t.near && !t.stopped && decide (s.trapVec t ≠ 0) && eachB ig t fun c => !c.th.handler

theorem canTrap_of {s : State} {ig : IssueGroup} {t : Team} (h : canTrapB s ig t = true) : CanTrap s ig t := by
  simp only [canTrapB, Bool.and_eq_true, Bool.not_eq_true', decide_eq_true_eq] at h
  exact ⟨h.1.1.1, h.1.1.2, h.1.2, each_of (fun _ hc => by simpa using hc) h.2⟩

def aloneB (s : State) (t : Team) (th : Thread) : Bool :=
  formedB s (igOf [0]) t && decide (Tab.find 0 t.threads = some th) && !t.near && !t.stopped && !t.preempt &&
    (Tab.find s.nextKey s.memops).isNone

theorem alone_of {s : State} {t : Team} {th : Thread} (h : aloneB s t th = true) : Alone s (igOf [0]) t 0 th := by
  simp only [aloneB, Bool.and_eq_true, Bool.not_eq_true', decide_eq_true_eq, Option.isNone_iff_eq_none] at h
  exact ⟨formed_of h.1.1.1.1.1, rfl, h.1.1.1.1.2, h.1.1.1.2, h.1.1.2, h.1.2, h.2⟩

def formeSiteB (s : State) (c : View) (va n : Nat) (whole : Bool) (k off : Nat) (f : Forme) : Bool :=
  decide (va < 2 ^ 57) && decide (va % n = 0) && inWindow va && decide (s.windowAt c.team.cluster va = some (k, off)) &&
    okB (s.formeCheck k off n va whole) && decide (Tab.find k s.formes = some f)

theorem formeSite_of {s : State} {c : View} {va n : Nat} {whole : Bool} {k off : Nat} {f : Forme}
    (h : formeSiteB s c va n whole k off f = true) : FormeSite s c va n whole k off f := by
  simp only [formeSiteB, Bool.and_eq_true, decide_eq_true_eq] at h
  exact ⟨h.1.1.1.1.1, h.1.1.1.1.2, h.1.1.1.2, h.1.1.2, unit_of h.1.2, h.2⟩

end Sys2Proof.Tests
end

