-- ==== Sys2Proof/Tests/Memory.lean ====
section
/-! SUPPORT. Witnesses for the statements about memory, barrier objects, fences, the end of threads and privilege. -/

namespace Sys2Proof.Tests

open Sys2Proof.Machine Sys2Proof.Claims

/-- One thread with an address in the forme window, at offset `off`. -/
def formeTeam (off : Nat) : Team := soloRegs (formeRegs off)

def atForme (off : Nat) : State := withTeam (formeTeam off) [0]

def formeThread (off : Nat) : Thread := { regs := formeRegs off }

/-- The view of the one thread of a team. -/
def soloView (t : Team) (th : Thread) : View := viewOf 3 t 0 th

def forme3 : Forme := { size := 1024, cluster := 2, core := 0 }

/-- At the first and at the last word of the forme. -/
theorem witness_FormeAccesses : ∀ off ∈ [0, 1020],
    let s := atForme off
    let t := formeTeam off
    let c := soloView t (formeThread off)
    Alone s (igOf [0]) t 0 (formeThread off) ∧ c.th.guard (form .b32).g = true ∧
      Usable .ld (form .b32) 2 0 0 [8] s c ∧ FormeSite s c (addrOf c .ld (form .b32) 0 0) 4 false 3 off forme3 ∧
      Usable .st (form .b32) 2 1 0 [] s c ∧ FormeSite s c (addrOf c .st (form .b32) 1 0) 4 true 3 off forme3 ∧
      Usable .atom (form .n32) 2 1 0 [8] s c ∧ FormeSite s c (addrOf c .atom (form .n32) 1 0) 4 false 3 off forme3 ∧
      Usable .red (form .n32) 2 1 0 [] s c ∧ FormeSite s c (addrOf c .red (form .n32) 1 0) 4 false 3 off forme3 := by
  intro off h
  simp only [List.mem_cons, List.not_mem_nil, or_false] at h
  rcases h with rfl | rfl <;>
    exact ⟨alone_of (by decide), rfl, usable_of (by decide), formeSite_of (by decide), usable_of (by decide),
      formeSite_of (by decide), usable_of (by decide), formeSite_of (by decide), usable_of (by decide),
      formeSite_of (by decide)⟩

/-- One thread with the device address `va` in `v2`:`v3`. -/
def devTeam (va : Nat) : Team := soloRegs [(2, BitVec.ofNat 32 va)]

def devThread (va : Nat) : Thread := { regs := [(2, BitVec.ofNat 32 va)] }

/-- The region slice holds line 0: owned, or shared until time 5. -/
def holding (owned : Bool) : State :=
  { withTeam (devTeam 0x7C) [0] with regions := [(0, { copies := [(0, { owned, data := [(0x7C, 9)], rts := 5 })] })] }

theorem witness_CopiesOfLines : ∀ owned ∈ [true, false],
    let s := holding owned
    let t := devTeam 0x7C
    let c := soloView t (devThread 0x7C)
    Alone s (igOf [0]) t 0 (devThread 0x7C) ∧ Usable .ld (form .b32) 2 0 0 [8] s c ∧
      LineSite s c 0 (addrOf c .ld (form .b32) 0 0) 4 0 0x7C ∧
      Tab.find 0 (s.region (regionOf t.core)).copies = some { owned, data := [(0x7C, 9)], rts := 5 } ∧
      lineBadRead [(0x7C, 9)] 0x7C 4 = none ∧
      s.clock t.core ≤ 5 ∧ (form .b32).h ≠ 3 ∧ Usable .st (form .b32) 2 1 0 [] s c ∧ c.th.guard (form .b32).g = true ∧
      LineSite s c 1 (addrOf c .st (form .b32) 1 0) 4 0 0x7C := by
  intro owned h
  simp only [List.mem_cons, List.not_mem_nil, or_false] at h
  rcases h with rfl | rfl <;>
    exact ⟨alone_of (by decide), usable_of (by decide),
      ⟨by decide, by decide, by decide, 0x7C, rfl, .inl ⟨by decide, by rfl⟩⟩, by decide, by decide, by decide, by decide,
      usable_of (by decide), rfl, ⟨by decide, by decide, by decide, 0x7C, rfl, .inl ⟨by decide, by rfl⟩⟩⟩

theorem witness_LoadMissAsksHome :
    let s := withTeam (devTeam 0x80) [0]
    let t := devTeam 0x80
    let c := soloView t (devThread 0x80)
    Alone s (igOf [0]) t 0 (devThread 0x80) ∧ Usable .ld (form .b32) 2 0 0 [8] s c ∧
      LineSite s c 0 (addrOf c .ld (form .b32) 0 0) 4 1 0 ∧ Tab.find 1 (s.region (regionOf t.core)).copies = none ∧
      Tab.has (s.region (regionOf t.core)).asked 1 = false ∧ (s.regionRoom (regionOf t.core) 1).2 = true :=
  ⟨alone_of (by decide), usable_of (by decide),
    ⟨by decide, by decide, by decide, 0x80, by decide, .inl ⟨by decide, by rfl⟩⟩, by decide, by decide,
    by decide +kernel⟩

/-- A load and a store in both forms, an atomic and a reduction, each at the address in `v2`:`v3`. -/
def accessRows : List Row :=
  let base := BM.toX { d := 4, pair := 1, off := 0 }
  [{ o := .ld, x := form .b32, dsts := [8] }, { o := .ld, x := base, dsts := [4] },
   { o := .st, x := form .b32, wb := 1 }, { o := .st, x := base, wb := 1 },
   { o := .atom, x := { form .b32 with sub := 7 }, wb := 1, wc := 1, dsts := [8] }, { o := .red, x := form .b32, wb := 1 }]

def accessRowB (s : State) (va : Nat) (c : View) : Bool :=
  accessRows.all fun r =>
    usableB r.o r.x 2 r.wb r.wc r.dsts s c && c.th.guard r.x.g && decide (addrOf c r.o r.x r.wb r.wc = va)

theorem accessRows_of {s : State} {va : Nat} {c : View} (h : accessRowB s va c = true) :
    ∀ r ∈ accessRows, Usable r.o r.x 2 r.wb r.wc r.dsts s c ∧ c.th.guard r.x.g = true ∧ addrOf c r.o r.x r.wb r.wc = va := by
  intro r hr
  have h := List.all_eq_true.1 h r hr
  simp only [Bool.and_eq_true, decide_eq_true_eq] at h
  exact ⟨usable_of h.1.1, h.1.2, h.2⟩

/-- An address of 58 bits, a misaligned one, one in the window beyond the team's forme, and a false guard. -/
theorem witness_AccessChecks :
    (∀ p ∈ [(soloRegs [(3, 0x2000000)], 2 ^ 57), (devTeam 2, 2), (formeTeam 1024, windowBase + 1024)],
      let s := withTeam p.1 [0]
      Formed s (igOf [0]) p.1 ∧ CanTrap s (igOf [0]) p.1 ∧ p.1.preempt = false ∧ Tab.find s.nextKey s.memops = none ∧
        Each (igOf [0]) p.1 fun c => ∀ r ∈ accessRows,
          Usable r.o r.x 2 r.wb r.wc r.dsts s c ∧ c.th.guard r.x.g = true ∧ addrOf c r.o r.x r.wb r.wc = p.2) ∧
    (2 % ((form .b32).ty.bits / 8) ≠ 0 ∧ inWindow (windowBase + 1024) = true ∧
      (atForme 1024).windowAt 2 (windowBase + 1024) = none) ∧
    (Alone solo (igOf [0]) (teamOf 1) 0 {} ∧ ({} : Thread).guard 0 = false) := by
  refine ⟨fun p hp => ?_, ⟨by decide, by decide, by decide⟩, alone_of (by decide), rfl⟩
  simp only [List.mem_cons, List.not_mem_nil, or_false] at hp
  rcases hp with rfl | rfl | rfl <;>
    exact ⟨formed_of (by decide), canTrap_of (by decide), rfl, by decide, each_one rfl (accessRows_of (by decide))⟩

/-- A full word and an empty one, at the last word of the forme. -/
theorem witness_FullEmptyWords : ∀ b ∈ [true, false],
    let f : Forme := { forme3 with full := if b then [(255, true)] else [] }
    let s := { atForme 1020 with formes := [(3, f)] }
    let t := formeTeam 1020
    let th := formeThread 1020
    let c := soloView t th
    f.isFull 1020 = b ∧ Usable .ldfe (form .b32) 2 0 0 [8] s c ∧ Usable .stfe (form .b32) 2 1 0 [] s c ∧
      Usable .feset (form .b32) 2 0 0 [] s c ∧ th.guard (form .b32).g = true ∧
      WordSite s (igOf [0]) t 0 th (addrOf c .ldfe (form .b32) 0 0) false 3 1020 f ∧
      WordSite s (igOf [0]) t 0 th (addrOf c .stfe (form .b32) 1 0) true 3 1020 f ∧
      WordSite s (igOf [0]) t 0 th (addrOf c .feset (form .b32) 0 0) false 3 1020 f := by
  intro b h
  simp only [List.mem_cons, List.not_mem_nil, or_false] at h
  rcases h with rfl | rfl <;>
    exact ⟨by decide, usable_of (by decide), usable_of (by decide), usable_of (by decide), rfl,
      ⟨formed_of (by decide), rfl, rfl, rfl, formeSite_of (by decide), by decide⟩,
      ⟨formed_of (by decide), rfl, rfl, rfl, formeSite_of (by decide), by decide⟩,
      ⟨formed_of (by decide), rfl, rfl, rfl, formeSite_of (by decide), by decide⟩⟩

/-- Two threads of `prq` at the last word of the forme. -/
def prqTeam : Team := { teamOf 2 with threads := [(0, formeThread 1020), (1, formeThread 1020)] }

/-- An absent line, and any address at all. -/
theorem witness_PresenceAndPrefetch :
    (let f : Forme := { forme3 with pres := [(7, 1)] }
     let s := { withTeam prqTeam [0, 1] with formes := [(3, f)] }
     Formed s (igOf [0, 1]) prqTeam ∧
       Each (igOf [0, 1]) prqTeam fun c =>
         c.th.wait = .ready ∧ Usable .prq (form .b32) 2 0 0 [8] s c ∧ PrqSite (form .b32) s c) ∧
    (Formed pair (igOf [0, 1]) (teamOf 2) ∧ (teamOf 2).near = false ∧
      Each (igOf [0, 1]) (teamOf 2) (Usable .pf (form .b32) 2 0 0 [] pair)) := by
  refine ⟨⟨formed_of (by decide), fun n hn th hth => ?_⟩, formed_of (by decide), rfl,
    each_of (fun _ hc => usable_of hc) (by decide)⟩
  have hn : n = 0 ∨ n = 1 := by simpa [igOf] using hn
  rcases hn with rfl | rfl <;> cases hth <;>
    exact ⟨rfl, usable_of (by decide), by decide, by decide, by decide, 3, 1020, by decide, by decide, by decide⟩

/-- A home that holds line 0, where the condition holds (0 = 0), where it does not, and where the table is full. -/
def watched (full : Bool) : State :=
  { withTeam (devTeam 0x7C) [0] with
    homes := [(0, {
      lines := [(0, {})]
      waits := if full then (List.range 256).map fun i =>
        (i, { addr := 0x40, size := 4, mask := 0, cmp := 1, expect := 0, tid := { team := 9, n := 0 }, ctx := 0, va := 0
              pred := 0 }) else [] })] }

theorem witness_WaitOnAddress : ∀ full ∈ [false, true],
    let s := watched full
    let t := devTeam 0x7C
    let c := soloView t (devThread 0x7C)
    let r := regsOf c .waddr (form .n32) 2 1 1
    Formed s (igOf [0]) t ∧ Usable .waddr (form .n32) 2 1 1 [] s c ∧ addrOf c .waddr (form .n32) 1 1 = 0x7C ∧
      s.translate (s.threadAsker c.id t 0) 0x7C = (s, .ok (.device 0x7C)) ∧ s.homePowered 0 = true ∧
      (∀ q ∈ (s.home 0).queue, q.line ≠ 0) ∧ homeOf (deviceLine 0x7C) = 0 ∧ s.lineState 0 = .h ∧
      Tab.find 0 (s.home 0).lines = some {} ∧ lineBadRead [] 0x7C 4 = none ∧
      ((s.home 0).waits.length = if full then 256 else 0) ∧
      waddrHolds 0 32 (lineRead [] 0x7C 4 &&& c.th.vs r.c 1) (c.th.vs r.b 1 &&& c.th.vs r.c 1) = true ∧
      waddrHolds 1 32 (lineRead [] 0x7C 4 &&& c.th.vs r.c 1) (c.th.vs r.b 1 &&& c.th.vs r.c 1) = false := by
  intro full h
  simp only [List.mem_cons, List.not_mem_nil, or_false] at h
  rcases h with rfl | rfl <;>
    exact ⟨formed_of (by decide +kernel), usable_of (by decide), by decide, by rfl, by decide, by decide, by decide, by decide,
      by decide, by decide, by decide +kernel, by decide, by decide⟩

theorem witness_Fences :
    (Formed solo (igOf [0]) (teamOf 1) ∧ Each (igOf [0]) (teamOf 1) fun c =>
      c.th.peerLost = false ∧ c.th.peerOut = [] ∧ c.th.hostOut = [] ∧ c.th.ioOut = []) ∧
    (let t := { teamOf 1 with threads := [(0, { peerLost := true })] }
     Formed (withTeam t [0]) (igOf [0]) t ∧ CanTrap (withTeam t [0]) (igOf [0]) t ∧
       Each (igOf [0]) t fun c => c.th.peerLost = true) ∧
    (let t := { teamOf 1 with threads := [(0, { peerOut := [4] })] }
     Formed (withTeam t [0]) (igOf [0]) t ∧ Each (igOf [0]) t fun c => c.th.peerLost = false ∧ c.th.peerOut ≠ []) ∧
    (igOf [0]).threads ≠ [] :=
  ⟨⟨formed_of (by decide), each_one rfl ⟨rfl, rfl, rfl, rfl⟩⟩,
    ⟨formed_of (by decide), canTrap_of (by decide), each_one rfl rfl⟩,
    ⟨formed_of (by decide), each_one rfl ⟨rfl, by decide⟩⟩, by decide⟩

/-- Thread 0 of two ends and its group lives on; with something outstanding; the only thread of a group; the only thread of
a near-memory team. -/
theorem witness_EndOfThreads :
    (let s := withTeam (teamOf 2) [0]
     Formed s (igOf [0]) (teamOf 2) ∧ NoneArrived (igOf [0]) (teamOf 2) ∧ GroupsLiveOn (igOf [0]) (teamOf 2) ∧
       (teamOf 2).near = false ∧ (Each (igOf [0]) (teamOf 2) fun c => c.th.outstanding = []) ∧ s.jobs = []) ∧
    (let t := { teamOf 2 with threads := [(0, { peerOut := [4] }), (1, {})] }
     let s := withTeam t [0]
     Formed s (igOf [0]) t ∧ NoneArrived (igOf [0]) t ∧ GroupsLiveOn (igOf [0]) t ∧
       Tab.find 0 t.threads = some { peerOut := [4] } ∧ ({ peerOut := [4] } : Thread).outstanding ≠ [] ∧
       (s.core 0).tracker.length < 16) ∧
    (Formed solo (igOf [0]) (teamOf 1) ∧ NoneArrived (igOf [0]) (teamOf 1) ∧ NoClaims solo ∧
      (∀ p ∈ (teamOf 1).threads, p.2.outstanding = [] ∧ p.1 ∈ (igOf [0]).threads) ∧ Tab.sorted (teamOf 1).threads = true ∧
      Tab.has (teamOf 1).groups 0 = true ∧ ∀ p ∈ (teamOf 1).groups, p.2.quad = none) ∧
    (let t := { teamOf 1 with place := .near 0 0 5 }
     let c : Call := { card := [], args := [], launch := 1, ctx := 0, tid := { team := 8, n := 0 }, core := 0
                       caller := launch1, time := 0, phase := .run }
     let s := { withTeam t [0] with platens := [(0, { calls := [(5, c)] })] }
     Formed s (igOf [0]) t ∧ NoneArrived (igOf [0]) t ∧ (∀ p ∈ t.threads, p.1 ∈ (igOf [0]).threads) ∧
       Tab.sorted t.threads = true ∧ (∀ p ∈ t.groups, p.2.quad = none) ∧ s.call? 0 5 = some c ∧ c.stopping = false) := by
  have none : ∀ (t : Team), t.groups = [(0, {})] → NoneArrived (igOf [0]) t := by
    intro t ht n _ j _
    simp only [Team.jset, ht, Tab.find]
    split <;> rfl
  refine ⟨⟨formed_of (by decide), none _ rfl, ?_, rfl, each_one rfl rfl, rfl⟩,
    ⟨formed_of (by decide), none _ rfl, ?_, rfl, by decide, by decide⟩,
    ⟨formed_of (by decide), none _ rfl, by simp [NoClaims, solo, withTeam, teamOf], by decide, by decide, by decide,
      by decide⟩,
    formed_of (by decide), none _ rfl, by decide, by decide, by decide, rfl, rfl⟩
  all_goals
    intro n hn
    have hn : n = 0 := by simpa [igOf] using hn
    subst hn
    exact ⟨1, {}, by decide, rfl, rfl, rfl, rfl⟩

theorem witness_Privilege :
    (let t := { teamOf 1 with system := true }
     Formed (withTeam t [0]) (igOf [0]) t ∧ t.system = true ∧ ∀ p ∈ (withTeam t [0]).memops, p.2.team ≠ 3) ∧
    (Formed solo (igOf [0]) (teamOf 1) ∧ CanTrap solo (igOf [0]) (teamOf 1) ∧ (teamOf 1).system = false) :=
  ⟨⟨formed_of (by decide), rfl, by decide⟩, formed_of (by decide), canTrap_of (by decide), rfl⟩

/-- LEASECFG[0] and LEASECFG[63], the ends of the range, and MGMTID. -/
theorem witness_WindowWrites :
    (let t := { teamOf 1 with system := true }
     Formed (withTeam t [0]) (igOf [0]) t ∧ Usable .syswr (form .b64) 2 0 0 [] (withTeam t [0]) (viewOf 3 t 0 {})) ∧
    ∀ off ∈ [0x100400, 0x1005F8], off % 8 = 0 ∧ 0x100400 ≤ off ∧ off < 0x100600 ∧
      8 * ({ form .b64 with imm := BitVec.ofNat 22 (off / 8) } : XForm).imm.toNat = off :=
  ⟨⟨formed_of (by decide), usable_of (by decide)⟩, by decide⟩

/-- A tagged object with one arrival pending at the last offset of the forme, and an untagged place. -/
theorem witness_BarrierObjects : ∀ tag ∈ [false, true],
    let f : Forme := { forme3 with
      tag := if tag then [(252, true), (253, true), (254, true), (255, true)] else []
      data := if tag then writeBytes [] 1008 16 (Obj.bits { parr := 1, earr := 1 }) else [] }
    let s := { atForme 1008 with formes := [(3, f)] }
    let t := formeTeam 1008
    let th := formeThread 1008
    let c := soloView t th
    Usable .boInit (form .b32) 2 1 1 [] s c ∧ Usable .boArrive (form .b32) 2 1 0 [] s c ∧
      Usable .boExpect (form .b32) 2 1 0 [] s c ∧ Usable .boWait (form .b32) 2 1 0 [] s c ∧
      Usable .boTest (form .b32) 2 1 0 [8] s c ∧ Usable .boFree (form .b32) 2 0 0 [] s c ∧
      ObjSite s (igOf [0]) t 0 th (addrOf c .boArrive (form .b32) 1 0) 3 1008 f ∧
      addrOf c .boInit (form .b32) 1 1 = addrOf c .boArrive (form .b32) 1 0 ∧ s.objWaiters 3 1008 = [] ∧
      s.isBound 3 1008 = false ∧ f.tagged 1008 = tag ∧
      (let x := { form .b32 with b := 0, lit := some 1 }
       Usable .boArrive x 2 1 0 [] s c ∧ c.opB x (regsOf c .boArrive x 2 1 0) 1 ≤ if tag then (f.obj 1008).parr else 1) ∧
      (f.obj 1008).faulted = false := by
  intro tag h
  simp only [List.mem_cons, List.not_mem_nil, or_false] at h
  rcases h with rfl | rfl <;>
    exact ⟨usable_of (by decide), usable_of (by decide), usable_of (by decide), usable_of (by decide), usable_of (by decide),
      usable_of (by decide),
      ⟨formed_of (by decide), rfl, rfl, rfl, by decide, by decide, by decide, by decide, unit_of (by decide), by decide, rfl⟩,
      by decide, by decide, by decide, by decide, ⟨usable_of (by decide), by decide⟩, by decide⟩

end Sys2Proof.Tests
end

