-- ==== Sys2Proof/Tests/Units.lean ====
section
/-! SUPPORT. Witnesses for the statements about jobs, futures, the galley, platen calls, imprints, spawned tasks and device
launches. -/

namespace Sys2Proof.Tests

open Sys2Proof.Machine Sys2Proof.Claims

/-- One thread with a card in the registers from `v16`. -/
def cardTeam (card : List Nat) : Team := soloRegs (card.zipIdx.map fun p => (16 + p.2, BitVec.ofNat 32 p.1))

def cardThread (card : List Nat) : Thread := { regs := card.zipIdx.map fun p => (16 + p.2, BitVec.ofNat 32 p.1) }

/-- A copy of one row of 16 bytes, a gather of one row into the forme, and a collective that reduces one row. -/
def cards : List (JobKind × List Nat) :=
  [(.copy, [1, 0, 0, 0x100, 0, 0x10010, 0x10001, 0]),
   (.gather, [2, 0x100, 0, 0, 1, 0x10010, 0x200, 0]),
   (.coll, [0x103, 0, 0, 0x100, 0, 0x10010, 0x10001, 0]),
   (.coll, [0x203, 0, 0, 0x100, 0, 0x10010, 0x10001, 0])]

/-- A module with identifier 1 and reduction group 0 enabled. -/
def onFabric (t : Team) : State := { withTeam t [0] with win := [(0x100800, 1), (0x101000, 0x80000000)] }

theorem witness_JobIssue : ∀ p ∈ cards,
    let t := cardTeam p.2
    let s := onFabric t
    let c := soloView t (cardThread p.2)
    let x := { form .b32 with a := 16 }
    Formed s (igOf [0]) t ∧ c.th.guard x.g = true ∧ c.dests [8] = .ok () ∧ c.cardReg .cp x 8 = .ok 16 ∧
      c.cardReg .cpg x 8 = .ok 16 ∧ c.cardReg .coll x 8 = .ok 16 ∧ Settled c (regSpan 16 8) ∧ Unheld c [8] ∧
      Sound c (regSpan 16 8) ∧ ((regSpan 16 8).map fun r => (c.th.v r).toNat) = p.2 ∧
      s.cardCheck 2 p.1 p.2 = .ok none ∧ s.scoreboard (regionOf 0) < 64 ∧
      (if isPush p.1 p.2 then 0 < groupCount p.2 else planOf p.1 p.2 ≠ []) ∧ s.modId ≠ 0x3FF ∧
      Bits.bit (s.cgrp (cardCgrp p.2)) 31 = true ∧ (cardThread p.2).peerOut = [] := by
  intro p h
  simp only [cards, List.mem_cons, List.not_mem_nil, or_false] at h
  rcases h with rfl | rfl | rfl | rfl <;>
    exact ⟨formed_of (by decide), rfl, rfl, rfl, rfl, rfl, settled_of (by decide), unheld_of (by decide),
      sound_of (by decide), by decide, by rfl, by decide, by decide, by decide, by decide, rfl⟩

/-- A handle pending in `v2`. -/
def handled : Team := { teamOf 1 with threads := [(0, { pend := [(2, 4)] })] }

def job4 : Job :=
  { kind := .copy, card := [1, 0, 0, 0x100, 0, 0x10010, 0x10001, 0], region := 0, core := 0, tid := { team := 3, n := 0 }
    launch := 1, ctx := 0, system := false, cluster := 2, clock := 0 }

theorem witness_FutureHandles :
    (Formed solo (igOf [0]) (teamOf 1) ∧ Each (igOf [0]) (teamOf 1) fun c =>
      (∃ r, c.operands .futTest (form .b32) 1 0 0 = .ok r) ∧ Tab.find 2 c.th.seen = none ∧ Tab.find 2 c.th.pend = none ∧
        c.dests [8] = .ok () ∧ Sound c [2]) ∧
    (let s := { withTeam handled [0] with jobs := [(4, job4)] }
     let c := soloView handled { pend := [(2, 4)] }
     Formed s (igOf [0]) handled ∧ (∃ r, c.operands .futCancel (form .b32) 1 0 0 = .ok r) ∧
       (regsOf c .futCancel (form .b32) 1 0 0).a = 2 ∧ Tab.find 2 c.th.pend = some 4 ∧ Tab.find 4 s.jobs = some job4 ∧
       Tab.find 8 handled.kp = none ∧ handled.kRace (handled.gid 0) [8] = none ∧ Sound c [2]) :=
  ⟨⟨formed_of (by decide), each_one rfl ⟨ok_of (by decide), rfl, rfl, rfl, sound_of (by decide)⟩⟩,
    formed_of (by decide), ok_of (by decide), by decide, rfl, rfl, by decide, by decide, sound_of (by decide)⟩

/-- A team of `n` threads whose partitions hold slug 0. -/
def slugTeam (n : Nat) : Team :=
  { teamOf n with
    groups := (List.range ((n + 31) / 32)).map fun g => (g, { part := g % 4 })
    slugs := (List.range ((n + 31) / 32)).map fun g => (slugKey g 0, []) }

def galleyB (x : XForm) (conv : Bool) (srcs dsts : List Nat) (s : State) (ts : List Nat) (t : Team) (n : Nat)
    (w : Tab Word) : Bool :=
  formedB s (igOf ts) t && decide (ts.head? = some n) && !t.near && !t.split && (!conv || t.converged ts) &&
    !linkWait x && !linkArr x && decide (Tab.find (slugKey (t.part n) (x.imm.toNat % 16)) t.slugs = some w) &&
    eachB (igOf ts) t fun c => (srcs ++ dsts).all (fun r => decide (r < c.alloc)) && settledB c (srcs ++ dsts) && soundB c srcs

theorem galley_of {x : XForm} {conv : Bool} {srcs dsts : List Nat} {s : State} {ts : List Nat} {t : Team} {n : Nat}
    {w : Tab Word} (h : galleyB x conv srcs dsts s ts t n w = true) : GalleySite x conv srcs dsts s (igOf ts) t n w := by
  simp only [galleyB, Bool.and_eq_true, Bool.not_eq_true', Bool.or_eq_true, decide_eq_true_eq] at h
  obtain ⟨⟨⟨⟨⟨⟨⟨⟨h1, h2⟩, h3⟩, h4⟩, h5⟩, h6⟩, h7⟩, h8⟩, h9⟩ := h
  refine ⟨formed_of h1, h2, h3, h4, fun hc => by simpa [hc, igOf] using h5, h6, h7, h8, each_of (fun c hc => ?_) h9⟩
  simp only [Bool.and_eq_true, List.all_eq_true, decide_eq_true_eq] at hc
  exact ⟨hc.1.1, settled_of hc.1.2, sound_of hc.2⟩

theorem slugSound_of {x : XForm} {s : State} {ig : IssueGroup} {t : Team} {n : Nat} (h : s.bad = []) :
    SlugSound x s ig t n := fun _ _ _ _ => by rw [State.badAt, h]; rfl

/-- A slot 0 with the type given and no blocks, beside the team. -/
def slotState (t : Team) (ts : List Nat) (ty : Ty) : State :=
  { withTeam t ts with
    launches := [(1, { launch1 with record := launch1.record + (ty.code + 0x3F800000 * 2 ^ 32) * 2 ^ 1280 })] }

theorem witness_GalleyAccesses :
    let t := slugTeam 2
    let s := slotState t [0, 1] .e4m3
    let x := { form .e4m3 with d := 32, a := 32, imm := 0 }
    s.matrixQueue t.core (t.part 0) = [] ∧ GalleySite x true [] (regSpan 32 32) s (igOf [0, 1]) t 0 [] ∧
      GalleySite x true (regSpan 32 32) [] s (igOf [0, 1]) t 0 [] ∧ GalleySite x false [] [] s (igOf [0, 1]) t 0 [] ∧
      GalleySite x true [] (regSpan 32 (acqRegs x.ty)) s (igOf [0, 1]) t 0 [] ∧ acqSlotOk x (s.fslot t 0) = true ∧
      SlugSound x s (igOf [0, 1]) t 0 :=
  ⟨by decide, galley_of (by decide), galley_of (by decide), galley_of (by decide), galley_of (by decide),
    by decide +kernel, slugSound_of rfl⟩

/-- A full group of 32, with its queue empty and with four operations queued; the first group of a quad of 128 whose other
three wait. -/
def queued : MatrixOp := { team := 3, group := 0, slug := 0, slot := 0, a := [], b := [] }

def quadTeam : Team :=
  { slugTeam 128 with
    groups := [(0, {})] ++ [1, 2, 3].map fun g =>
      (g, { part := g, quad := some { queued with group := g, slug := slugKey g 0, breg := 48 } }) }

theorem witness_MatrixIssue :
    (let t := slugTeam 32
     let s := slotState t (List.range 32) .e4m3
     let x := { form .e4m3 with a := 0, b := 48, imm := 0 }
     GalleySite x true (regSpan 0 (rowRegs x.ty (s.fslot t 0) 32) ++ regSpan 48 (4 * quarterRegs (s.fslot t 0))) [] s
         (igOf (List.range 32)) t 0 [] ∧
       GalleySite x true (regSpan 0 (rowRegs x.ty (s.fslot t 0) 16) ++ regSpan 48 (4 * quarterRegs (s.fslot t 0))) [] s
         (igOf (List.range 32)) t 0 [] ∧
       mmaSlotOk x (s.fslot t 0) = true ∧ SlugSound x s (igOf (List.range 32)) t 0 ∧ (s.matrixQueue t.core 0).length = 0 ∧
       (({ s with matrix := [(0, List.replicate 4 queued)] } : State).matrixQueue t.core 0).length = 4) ∧
    (let t := quadTeam
     let s := slotState t (List.range 32) .e4m3
     let x := { form .e4m3 with a := 0, b := 48, imm := 0 }
     GalleySite x true (regSpan 0 (rowRegs x.ty (s.fslot t 0) 32) ++ regSpan 48 (quarterRegs (s.fslot t 0))) [] s
         (igOf (List.range 32)) t 0 [] ∧
       SlugSound x s (igOf (List.range 32)) t 0 ∧ t.quadWhole 0 = true ∧ Tab.sorted t.threads = true ∧
       (∀ p ∈ t.threads, p.2.bad = []) ∧ (∀ p, p < 4 → (s.matrixQueue t.core p).length < 4) ∧
       ∀ m ∈ quadMembers 0, m ≠ 0 → ∃ gr o, Tab.find m t.groups = some gr ∧ gr.quad = some o ∧ o.group = m ∧
         o.breg = x.b.toNat ∧ o.fs = x.fs.toNat) := by
  refine ⟨⟨galley_of (by decide +kernel), galley_of (by decide +kernel), by decide +kernel, slugSound_of rfl, by decide, by decide⟩,
    galley_of (by decide +kernel), slugSound_of rfl, by decide +kernel, by decide +kernel, by decide +kernel, by decide,
    fun m hm h0 => ?_⟩
  have hm : m = 0 ∨ m = 1 ∨ m = 2 ∨ m = 3 := by
    have : m < 4 := by simpa [quadMembers] using hm
    omega
  rcases hm with rfl | rfl | rfl | rfl
  · exact absurd rfl h0
  all_goals exact ⟨_, _, rfl, rfl, rfl, rfl, rfl⟩

theorem witness_MatrixOperationCompletes :
    let s := { slotState (slugTeam 32) [] .e4m3 with matrix := [(0, [queued])] }
    s.hasGrant 0 0 = true ∧ s.matrixQueue 0 0 = [queued] ∧ s.team? 3 = some (slugTeam 32) ∧
      Tab.find 0 (slugTeam 32).slugs = some [] ∧ ∀ p ∈ s.teams, ∀ q ∈ p.2.groups, q.2.quad = none :=
  ⟨by decide, rfl, rfl, rfl, by decide⟩

/-- Names all bound, a request beyond the partition's sixteen, and one that takes all that is left. -/
theorem witness_GalleyAllocation :
    let t := slugTeam 2
    let s := withTeam t [0, 1]
    let x := fun (first count : Nat) => ({ form .b32 with imm := BitVec.ofNat 22 (first + 16 * count) } : XForm)
    Formed s (igOf [0, 1]) t ∧ (∀ p ∈ s.teams, p.2.slugAsk = []) ∧ Tab.sorted s.teams = true ∧
      (t.unbound 0 (slugFirst (x 0 1)) (slugCount (x 0 1))).length = 0 ∧
      16 < (t.unbound 0 (slugFirst (x 1 16)) (slugCount (x 1 16))).length + t.slugsOn 0 ∧
      (t.unbound 0 (slugFirst (x 1 15)) (slugCount (x 1 15))).length + t.slugsOn 0 = 16 ∧
      s.slugsUsed 0 0 + (t.unbound 0 (slugFirst (x 1 15)) (slugCount (x 1 15))).length = 16 ∧
      s.slugBusy t.core 3 (slugKey 0 0) = false :=
  ⟨formed_of (by decide), by decide, by decide, by decide, by decide, by decide, by decide, by decide⟩

/-- A call of one team on stack 0 for line 0, entered at 0x1000 in stack-linear memory, that returns to offset 16. -/
def callCard : List Nat := [0x01000110, 0x1000, 0, 1, 0, 0, 1, 0, 0, 0, 0, 0, 0, 0, 0, 0]

def callState : State :=
  { withTeam (cardTeam callCard) [0] with
    formes := [(3, { forme3 with tag := [(4, true), (5, true), (6, true), (7, true)] })]
    tlbs := [(0, [{ ctx := 0, va := 0, size := 4096, pte := 0xF },
      { ctx := 0, va := 0x1000, size := 4096, pte := 0x40000000000F }])] }

theorem witness_PlatenCallSent :
    let t := cardTeam callCard
    let c := soloView t (cardThread callCard)
    let x := { form .b32 with a := 16 }
    Formed callState (igOf [0]) t ∧
      callState.callCard c x = .ok { card := callCard, args := [], obj := (3, 16), srcs := regSpan 16 16 } ∧
      callState.callSites c callCard = (callState, .ok [(0, 1)]) ∧
      (∀ m ∈ regSpan 16 16, Tab.find m (cardThread callCard).seen = none) ∧
      (callState.platen (callStack callCard)).calls.length < 16 ∧ callState.launchOf t = some launch1 ∧
      (cardThread callCard).peerOut = [] ∧
      (let th := { cardThread callCard with peerOut := [4] }
       let t := { cardTeam callCard with threads := [(0, th)] }
       let s := { callState with teams := (withTeam t [0]).teams }
       Formed s (igOf [0]) t ∧ th.peerOut ≠ [] ∧
         s.callCard (soloView t th) x = .ok { card := callCard, args := [], obj := (3, 16), srcs := regSpan 16 16 } ∧
         s.callSites (soloView t th) callCard = (s, .ok [(0, 1)])) :=
  ⟨formed_of (by decide), by rfl, by rfl, by decide, by decide, rfl, rfl, formed_of (by decide), by decide, by rfl, by rfl⟩

/-- A launch with output tiles 0 to 3 of buffer 5 in each direction, one consumer. -/
def tiled : Launch := { launch1 with record := launch1.record + 2 ^ 23 + 5 * 2 ^ 384 + 4 * 2 ^ 416 + 4 * 2 ^ 432 + 2 ^ 464 }

def imprintState (es : Tab Imprint) : State := { solo with launches := [(1, tiled)], imprints := es }

def entry (posted : Bool) (gen outst : Nat) : Imprint :=
  { die := 0, ctx := 0, buf := 5, tx := 0, ty := 0, gen, pgen := 2, outst, posted, bound := true }

theorem witness_Imprints :
    (let s := imprintState []
     let c := soloView (teamOf 1) {}
     Formed s (igOf [0]) (teamOf 1) ∧ Usable .impPost (form .b32) 1 0 0 [] s c ∧ s.launchOf (teamOf 1) = some tiled ∧
       recImpOut tiled.record = true ∧ 0 < recTx tiled.record ∧ 0 < recTy tiled.record ∧
       s.imprintAt 0 (recBuf tiled.record) 0 0 = none ∧ s.teamWrites 3 = false) ∧
    (∀ p ∈ [(true, 2, 0), (false, 0, 0), (true, 1, 0)],
      (imprintState [(9, entry p.1 p.2.1 p.2.2)]).imprintAt 0 (recBuf tiled.record) 0 0 = some (9, entry p.1 p.2.1 p.2.2)) ∧
    (let s := { solo with imprints := [(9, { entry true 0 0 with buf := 0 })] }
     let c := soloView (teamOf 1) {}
     Usable .impChk (form .b32) 1 1 1 [] s c ∧ Usable .impWait (form .b32) 1 1 1 [] s c ∧
       Usable .impClear (form .b32) 1 1 0 [] s c ∧
       (s.tileReady 0 (c.tile (regsOf c .impWait (form .b32) 1 1 1))).isSome = true ∧
       (s.imprintAt 0 0 0 0).isSome = true ∧
       solo.tileReady 0 (c.tile (regsOf c .impWait (form .b32) 1 1 1)) = none ∧ solo.imprintAt 0 0 0 0 = none) :=
  ⟨⟨formed_of (by decide +kernel), usable_of (by decide), by decide +kernel, by decide +kernel, by decide +kernel,
      by decide +kernel, by decide +kernel, by decide⟩,
    by decide +kernel, usable_of (by decide), usable_of (by decide), usable_of (by decide), by decide, by decide, by decide,
    by decide⟩

/-- An entry at 0x1000 in `v2`:`v3`, whose descriptor stands below it. -/
def spawnState (bins : Tab Bin) : State :=
  { withTeam (devTeam 0x1000) [0] with
    hbm := writeBytes [] 0xFF0 16 (0x03000800 + 2 ^ 71), cores := if bins = [] then [] else [(0, { bins })] }

def bin1 : Bin := { launch := 1, entry := 0x1000, depth := 1, tasks := List.replicate 31 { arg := 0, clock := 0, team := 3 } }

/-- Depth 8, no bin, a bin of 31 tasks, and no bin free. -/
theorem witness_SpawnOffers :
    (let t := { devTeam 0x1000 with depth := 8 }
     Formed (withTeam t [0]) (igOf [0]) t ∧ t.depth = 8) ∧
    (∀ bins ∈ [[], [(1, bin1)], (List.range 32).map fun i => (i, { bin1 with depth := 2 })],
      let s := spawnState bins
      let c := soloView (devTeam 0x1000) (devThread 0x1000)
      Formed s (igOf [0]) (devTeam 0x1000) ∧ Usable .spawn (form .b32) 2 2 0 [] s c ∧
        c.th.vs (regsOf c .spawn (form .b32) 2 2 0).a 2 = 0x1000 ∧ (s.core 0).cancelled.contains 1 = false ∧
        (devThread 0x1000).peerOut = [] ∧ (s.core 0).bins = bins) ∧
    ((spawnState [(1, bin1)]).core 0).openBin 1 0x1000 1 = some (1, bin1) ∧
    ((spawnState ((List.range 32).map fun i => (i, { bin1 with depth := 2 }))).core 0).openBin 1 0x1000 1 = none ∧
    (spawnState []).descriptor (devTeam 0x1000).window
        ((spawnState []).threadAsker { team := 3, n := 0 } (devTeam 0x1000) 3) 0x1000 =
      (spawnState [], .ok (0x03000800 + 2 ^ 71)) ∧
    descRefused 0x1000 (0x03000800 + 2 ^ 71) = false :=
  ⟨⟨formed_of (by decide), rfl⟩, fun bins h => by
    simp only [List.mem_cons, List.not_mem_nil, or_false] at h
    rcases h with rfl | rfl | rfl <;>
      exact ⟨formed_of (by decide +kernel), usable_of (by decide +kernel), by decide +kernel, by decide +kernel,
        rfl, by decide +kernel⟩, by decide +kernel, by decide +kernel, by decide +kernel, by decide +kernel⟩

/-- A thread with a peer write that has not been acknowledged, at `imp.post`, at `spawn`, at `bo.arrive` and
at `bo.expect`. -/
theorem witness_PeerWriteOutstanding :
    let th : Thread := { formeThread 1008 with peerOut := [4] }
    let t := { formeTeam 1008 with threads := [(0, th)] }
    let f : Forme := { forme3 with tag := [(252, true), (253, true), (254, true), (255, true)] }
    let out : PeerOut := { tid := { team := 3, n := 0 }, module := 1, va := 0x80, write := true }
    let s := { withTeam t [0] with formes := [(3, f)], fabric := { out := [(4, out)] } }
    let c := soloView t th
    th.peerOut ≠ [] ∧ th.wait = .ready ∧ Usable .impPost (form .b32) 1 0 0 [] s c ∧ Usable .spawn (form .b32) 2 2 0 [] s c ∧
      t.depth ≠ 8 ∧ (s.core t.core).cancelled.contains t.launch = false ∧ Usable .boArrive (form .b32) 2 1 0 [] s c ∧
      ObjSite s (igOf [0]) t 0 th (addrOf c .boArrive (form .b32) 1 0) 3 1008 f ∧ f.tagged 1008 = true ∧
      Usable .boExpect (form .b32) 2 1 0 [] s c ∧
      addrOf c .boExpect (form .b32) 1 0 = addrOf c .boArrive (form .b32) 1 0 ∧ s.teamWrites 3 = true :=
  ⟨by decide, rfl, usable_of (by decide), usable_of (by decide), by decide, by decide, usable_of (by decide),
    ⟨formed_of (by decide), rfl, rfl, rfl, by decide, by decide, by decide, by decide, unit_of (by decide), by decide, rfl⟩,
    by decide, usable_of (by decide), by decide, by decide⟩

theorem witness_Cancels :
    Formed solo (igOf [0]) (teamOf 1) ∧ Tab.find 1 solo.launches = some launch1 ∧ launch1.cancel = false ∧
      Usable .cancqId (form .b32) 1 0 0 [] (withTeam (devTeam 7) [0]) (soloView (devTeam 7) (devThread 7)) ∧
      (withTeam (devTeam 7) [0]).launchNamed 7 = some (1, launch1) ∧ solo.launchNamed 0 = none :=
  ⟨formed_of (by decide), rfl, rfl, usable_of (by decide), by decide +kernel, by decide +kernel⟩

/-- A record at offset 512, the last place where all its 512 bytes lie in the forme; and a queue of 64. -/
theorem witness_DeviceLaunch :
    let t := formeTeam 512
    let th := formeThread 512
    let c := soloView t th
    let full := { atForme 512 with devQueues := [(0, List.replicate 64 { record := 0, ctx := 0 })] }
    Alone (atForme 512) (igOf [0]) t 0 th ∧ th.launching = none ∧ th.peerOut = [] ∧ (atForme 512).ctxOf t < 64 ∧
      (atForme 512).queueHolds 0 = 0 ∧
      (∃ r loc q, (atForme 512).launchLane c (form .b32) 0 = (atForme 512, .go r loc, q) ∧
        q.pieces = ((List.range 32).map fun i => (windowBase + 512 + 16 * i, Loc.forme 3 (512 + 16 * i))) ∧
        ∀ m ∈ q.srcs, Tab.find m th.seen = none) ∧
      (∀ i, i < 32 → okB ((atForme 512).formeCheck 3 (512 + 16 * i) 16 (windowBase + 512 + 16 * i) false) = true) ∧
      Alone full (igOf [0]) t 0 th ∧ full.queueHolds 0 = 64 ∧
      ∃ r loc q, full.launchLane c (form .b32) 64 = (full, .go r loc, q) ∧ ∀ m ∈ q.srcs, Tab.find m th.seen = none :=
  ⟨alone_of (by decide), rfl, rfl, by decide +kernel, by decide +kernel,
    ⟨_, _, _, by rfl, by decide +kernel, by decide +kernel⟩, by decide +kernel, alone_of (by decide +kernel),
    by decide +kernel, _, _, _, by rfl, by decide +kernel⟩

end Sys2Proof.Tests
end

