-- ==== Sys2Proof/Tests/Agents.lean ====
section
/-! SUPPORT. Witnesses for the statements about coherence, the host, translation, time, jobs and platen calls. -/

namespace Sys2Proof.Tests

open Sys2Proof.Machine Sys2Proof.Claims

/-! ### Coherence -/

def homeQuietB (s : State) (h : Nat) : Bool :=
  decide ((s.home h).queue = []) && decide (s.port.requests = []) && s.memops.all fun p => decide (p.2.atHome = [])

theorem homeQuiet_of {s : State} {h : Nat} (q : homeQuietB s h = true) : HomeQuiet s h := by
  simpa [homeQuietB, HomeQuiet, and_assoc] using q

def homeFreeB (s : State) (ln : Nat) (l : HomeLine) : Bool :=
  !isHostLine ln && !s.isLent ln && homeQuietB s (homeOf ln) &&
    decide (Tab.find ln (s.home (homeOf ln)).lines = some l) && decide (l.state = .h) && !l.hostHeld

theorem homeFree_of {s : State} {ln : Nat} {l : HomeLine} (h : homeFreeB s ln l = true) : HomeFree s ln l := by
  simp only [homeFreeB, Bool.and_eq_true, Bool.not_eq_true', decide_eq_true_eq] at h
  exact ⟨h.1.1.1.1.1, h.1.1.1.1.2, homeQuiet_of h.1.1.1.2, h.1.1.2, h.1.2, h.2⟩

/-- Line 0, resident in its home, and one message about it. -/
def held0 : HomeLine := { data := [(0, 5)], wts := 2, rts := 4 }

theorem noMarks_of {d : LineData} (h : (d.all fun p => decide (p.1 < 128)) = true) : NoMarks d := by
  intro u
  induction d with
  | nil => rfl
  | cons p t ih =>
    simp only [List.all_cons, Bool.and_eq_true, decide_eq_true_eq] at h
    have hne : markKey u ≠ p.1 := by unfold markKey; omega
    simpa [lineMark, Tab.find, hne] using ih h.2

def inFlight (m : Msg) (l : HomeLine := held0) (dir : List DirEntry := []) : State :=
  { nextTag := 9, net := [(5, m)], homes := [(0, { lines := [(0, l)], dir })] }

def reqOf (k : ReqKind) : HReq := { kind := k, line := 0, region := 2, tag := 4, op := 10 }

def msgOf (k : MsgKind) : Msg := { kind := k, line := 0, region := 2, tag := 4 }

/-- Each kind of request; the directory one short of full. -/
theorem witness_RequestsAtHome :
    (∀ k ∈ [.gets false, .getx, .upg],
      let dir := (List.range 7).map fun i => ({ line := 12 + i, region := 0, order := i } : DirEntry)
      let s := inFlight (msgOf (.req (reqOf k))) held0 dir
      Arrives s 5 (msgOf (.req (reqOf k))) (reqOf k) ∧ HomeFree s 0 held0 ∧ s.isWatched 0 = false ∧
        (s.home (homeOf 0)).dir.length < 8) ∧
    (let a : Access := { tid := 0, va := 0, loc := .device 0, size := 4, ty := .n32 }
     let op : MemOp := { team := 3, kind := .red 0, hint := 0, scope := 0, accs := [a], threads := [0], next := 12 }
     let s := { inFlight (msgOf (.req (reqOf .atom))) with memops := [(10, op)], teams := [(3, teamOf 1)] }
     Arrives s 5 (msgOf (.req (reqOf .atom))) (reqOf .atom) ∧ HomeFree s 0 held0 ∧ op.replies = [] ∧ deviceLine 0 = 0 ∧
       s.team? 3 = some (teamOf 1) ∧ NoMarks held0.data ∧ 0 % 128 + 4 ≤ 128) := by
  refine ⟨fun k h => ?_, ⟨by decide, rfl, rfl, by decide⟩, homeFree_of (by decide), rfl, by decide, rfl, noMarks_of (by decide), by decide⟩
  simp only [List.mem_cons, List.not_mem_nil, or_false] at h
  rcases h with rfl | rfl | rfl <;>
    exact ⟨⟨by decide, rfl, rfl, by decide⟩, homeFree_of (by decide), by decide, by decide⟩

theorem witness_DataComesHome :
    (∀ p ∈ [(MsgKind.wb, { held0 with state := .o }), (.answer true, { held0 with state := .of, pend := some (reqOf (.gets false)) }),
        (.fwdGone, held0)],
      let s := inFlight (msgOf p.1) p.2
      s.arriving 5 = some (msgOf p.1) ∧ 5 ≠ s.nextTag ∧ isHostLine 0 = false ∧ s.isLent 0 = false ∧
        homeQuietB s (homeOf 0) = true ∧ (p.1 = .wb → (s.lineAt 0).pend = none) ∧
        (p.1 = .answer true → (s.lineAt 0).pend = some (reqOf (.gets false)))) ∧
    (reqOf (.gets false)).wts ≠ some 0 := ⟨by decide, by decide⟩

/-- The owner, and a slice without the line. -/
theorem witness_OwnersAnswer : ∀ p ∈ [MsgKind.fwdS, .fwdX, .disc true].flatMap fun k => [(k, true), (k, false)],
    let c : Copy := { owned := true, data := [(0, 7)], dirty := true, wts := 3, rts := 3 }
    let s := { inFlight (msgOf p.1) with regions := if p.2 then [(2, { copies := [(0, c)] })] else [] }
    s.arriving 5 = some (msgOf p.1) ∧ 5 ≠ s.nextTag ∧ s.granting 2 0 = false ∧
      Tab.find 0 (s.region 2).copies = (if p.2 then some c else none) ∧ Tab.has (s.region 2).wbuf 0 = false := by
  decide

theorem witness_RepliesAtRegion :
    (∀ k ∈ [.data, .dataX, .renew, .grantX, .wbAck, .nack (reqOf .getx), .retry (reqOf .getx) 16],
      let s := { inFlight (msgOf k) with cycle := 16, regions := [(2, { asked := [(0, 4)] })] }
      s.arriving 5 = some (msgOf k) ∧ s.memops = [] ∧ Tab.find 0 (s.region 2).asked = some 4 ∧ 5 ≠ s.nextTag ∧
        16 ≤ s.cycle) ∧
    (let t := { teamOf 1 with threads := [(0, { wait := .address 0 1 })] }
     let m := msgOf (.wake { team := 3, n := 0 } 1)
     let s := { withTeam t [0] with net := [(5, m)] }
     s.arriving 5 = some m ∧ s.team? 3 = some t ∧ Tab.find 0 t.threads = some { wait := .address 0 1 }) := by
  decide

/-- A dirty line that is to leave and one that is to stay; host line 1 on its way, in the store, resident, and nowhere. -/
theorem witness_HostLines :
    (∀ leaving ∈ [true, false],
      let l : HomeLine :=
        { held0 with dirty := true, state := .hb, pend := if leaving then some { reqOf .getx with kind := .recall } else none }
      let s : State := { homes := [(0, { lines := [(0, l)] })], port := { snoops := [0] } }
      s.port.snoops.contains 0 = true ∧ isHostLine 0 = false ∧ s.isLent 0 = false ∧
        Tab.find 0 (s.home (homeOf 0)).lines = some l ∧ homeQuietB s (homeOf 0) = true ∧ l.leaving = leaving ∧
        (leaving = false → l.pend = none)) ∧
    (let ln := hostLineBase + 1
     (({ port := { fetching := [ln] } } : State).port.fetching.contains ln = true) ∧
       homeQuietB { port := { fetching := [ln] } } portHome = true ∧
       Tab.find ln ({ port := { store := [(ln, [])] } } : State).port.store = some [] ∧
       (let s : State := { homes := [(144, { lines := [(ln, held0)] })] }
        Tab.find ln s.port.store = none ∧ Tab.find ln (s.home portHome).lines = some held0 ∧ held0.state = .h ∧
          s.isLent ln = false ∧ homeQuietB s portHome = true) ∧
       ({} : State).isResident ln = false ∧ ({} : State).busy.bootFailed = false ∧
       ({ busy := { bootFailed := true } } : State).busy.bootFailed = true) := by decide

/-! ### The host, translation, time -/

theorem witness_HostPort :
    (let s : State := { homes := [(0, { lines := [(0, held0)] })] }
     s.hdmMaps 0 = some 0 ∧ s.homePowered 0 = true ∧ HomeFree s 0 held0 ∧ lineBadRead held0.data 0 4 = none ∧
       held0.wts ≤ held0.rts ∧ NoMarks held0.data) ∧
    (let lower := Config.stackCount * Config.interleaved
     let region := Config.stackBytes - Config.interleaved
     let s : State := { homes := [(homeOf (deviceLine linearBase), { lines := [(deviceLine linearBase, held0)] })] }
     0 < region ∧ s.hdmMaps lower = some linearBase ∧ s.hdmMaps (lower - 1) = some (lower - 1) ∧
       s.hdmMaps (lower + Config.stackCount * region) = none ∧ s.homePowered (deviceLine linearBase) = true ∧
       HomeFree s (deviceLine linearBase) held0) ∧
    (∀ w ∈ [.ready, .fenceSys], ∀ held ∈ [true, false],
      let th : Thread := { hostOut := [4], wait := w }
      let s := { withTeam { teamOf 1 with threads := [(0, th)] } [] with
        port := { bypStores := [(4, ({ team := 3, n := 0 }, 0x80, 4, 7))]
                  store := if held then [(hostLineBase + 1, [(0, 7)])] else [] } }
      Tab.find 4 s.port.bypStores = some ({ team := 3, n := 0 }, 0x80, 4, 7) ∧ s.thread? { team := 3, n := 0 } = some th ∧
        th.peerLost = false ∧ th.peerOut = [] ∧
        (Tab.find (hostLine 0x80) s.port.store).or ((Tab.find (hostLine 0x80) (s.home portHome).lines).map HomeLine.data) =
          (if held then some [(0, 7)] else none)) ∧
    (let i : Tid := { team := 3, n := 0 }
     let a : Access := { tid := 0, va := 0, loc := .io 0, size := 4, ty := .b32, dreg := 8 }
     let o : PeerOut := { tid := i, module := 0, va := 0, write := false, op := some 10, acc := some a }
     let m : MemOp := { team := 3, kind := .load, hint := 0, scope := 0, accs := [], replies := [4], threads := [0], next := 12 }
     let th : Thread := { wait := .mem 10, ioOut := [4] }
     let s := { withTeam { teamOf 1 with threads := [(0, th)] } [] with
       port := { ioReads := [(4, (i, 4, 10))] }, fabric := { out := [(4, o)] }, memops := [(10, m)] }
     Tab.find 4 s.port.ioReads = some (i, 4, 10) ∧ Tab.find 4 s.fabric.out = some o ∧ Tab.find 10 s.memops = some m ∧
       s.thread? i = some th) ∧
    isBacked 0 = true ∧ (({ bad := [(badMem false 8, arrHbm)] } : State).badRead (8 / 64 * 64) 64 = some arrHbm) ∧
    (({} : State).badRead (8 / 64 * 64) 64 = none) :=
  ⟨⟨by decide, by decide, homeFree_of (by decide), by decide, by decide, noMarks_of (by decide)⟩,
    ⟨by decide, by decide, by decide, by decide, by decide, homeFree_of (by decide)⟩, by decide, by decide, by decide,
    by decide, by decide⟩

/-- A pending miss of thread 0 of team 3. -/
def miss5 : Miss :=
  { ctx := 0, va := 0x1000, acc := 0, eng := false, src := 0, launch := 7, joined := [.thread { team := 3, n := 0 }] }

/-- A pending miss at entry 5 of die 0 in context 0, whose table stands at device address 0; a thread has joined it. -/
def missState (hbm : Memory) : State :=
  { withTeam { teamOf 1 with threads := [(0, { wait := .walk (some 5) 0x1000 [5] })] } [] with hbm, misses := [(5, miss5)] }

/-- A leaf of 1 GiB through two tables, an entry that is a leaf at the root level, and an empty table. -/
theorem witness_PageWalks :
    (missState (writeBytes (writeBytes (writeBytes [] 0 8 0x1001) 0x1000 8 0x2001) 0x2000 8 0xF)).walkFrom 0 0x1000
      |>.2.1 = .leaf 0x40000000 0xF ∧
    ((missState (writeBytes [] 0 8 3)).walkFrom 0 0x1000).2.1 = .malformed ∧
    ((missState []).walkFrom 0 0x1000).2.1 = .absent ∧
    Tab.find 5 (missState []).misses = some miss5 ∧ miss5.reported = false ∧
    (let s := ((missState (writeBytes [] 0 8 3)).walkFrom 0 0x1000).1
     s.thread? { team := 3, n := 0 } = some { wait := .walk (some 5) 0x1000 [5] } ∧
       s.parkedOn 5 = [({ team := 3, n := 0 }, 0x1000)] ∧ s.trapVec (teamOf 1) ≠ 0) ∧
    (let m : Miss := { miss5 with reported := true }
     let s := { solo with misses := [(8191, m)], slotSeq := [(8191, 0xFFFFFFFF)], port := { msix := [1, 2, 3] } }
     Tab.find 8191 s.misses = some m ∧ Tab.getD s.slotSeq 8191 0 = 0xFFFFFFFF ∧ Tab.getD s.slotSeq 8191 0 ≠ 0 ∧
       s.port.msix.contains 1 = true ∧ s.port.msix.contains 2 = true ∧ s.port.msix.contains 3 = true) ∧
    (∀ w ∈ [.replay, .matrix, .galley, .turn 3 0, .along 4 [1]],
      let t := { teamOf 2 with threads := [(0, { wait := w }), (1, { wait := w })] }
      (withTeam t []).team? 3 = some t ∧ Tab.find 0 t.threads = some { wait := w } ∧ t.part 1 = t.part 0 ∧
        t.mayReplay { wait := w } = true) ∧
    (({ busy := { tlbinv := some 64 } } : State).busy.tlbinv = some 64 ∧ solo.usesMatching 64 = false) := by
  decide +kernel

theorem witness_PassingTime :
    (({ cycle := 64 } : State).ticks < ({ cycle := 64 } : State).cycle / 64) ∧
    (2 ^ 62 - 2 ^ 20 ≤ ({ clocks := [(0, 2 ^ 62 - 2 ^ 20)] } : State).clock 0) ∧
    (let s : State := { busy := { rebase := true }, clocks := [(0, 2 ^ 62)] }
     s.rebaseReady = true ∧ Tab.sorted s.clocks = true) ∧
    (solo.hasPower 1 = true ∧ Tab.getD solo.windows 1 0 ≤ solo.cycle) ∧
    (let th : Thread := { age := 512, deferred := some 0, demoted := some 0 }
     let t := { teamOf 1 with threads := [(0, th)] }
     let s := withTeam t []
     s.team? 3 = some t ∧ Tab.find 0 t.threads = some th ∧ t.place = .core 0 ∧ t.part 0 = 0 ∧ th.urgent = false ∧
       s.thread? { team := 3, n := 0 } = some th ∧ 0 ≤ s.cycle) ∧
    (let s := { solo with cycle := 2 ^ 20, win := [(0x105008, 0x80000000), (0x105010, 1)] }
     Tab.find 1 s.launches = some launch1 ∧ s.reg 0x105010 % 2 ^ 16 ≠ 0 ∧
       launch1.idleSince + s.reg 0x105010 % 2 ^ 16 * 2 ^ 20 ≤ s.cycle ∧ Bits.bit (s.reg 0x105008) 31 = true ∧
       (Bits.field (s.reg 0x105008) 16 12 + 1) % 4096 ≠ Bits.field (s.reg 0x105008) 0 12) := by
  decide +kernel

/-! ### Jobs -/

/-- The module with page 0 in every translation buffer that the witnesses use, and page 0x1000 in the platen's, which leads
to stack-linear memory. -/
def mapped : State :=
  let page : TlbEntry := { ctx := 0, va := 0, size := 4096, pte := 0xF }
  { solo with tlbs := [(0, [page]), (192, [page]), (194, [page, { page with va := 0x1000, pte := 0x40000000000F }])] }

/-- A running copy of 16 bytes from line 0 to line 2, with and without its source line read. -/
def jobState (buf : Bool) : State :=
  { mapped with
    jobs := [(4, { job4 with started := true, buf := if buf then [(0, [(0, 5)])] else [] })]
    homes := [(0, { lines := [(0, held0)] }), (homeOf 2, { lines := [(2, held0)] })] }

/-- The same with a destination in the forme, whose line 0 is absent under the job. -/
def jobForme : Job :=
  { job4 with started := true, card := [1, 0, 0, 0xFF000000, 0x01FFFFFF, 0x10010, 0x10001, 0], buf := [(0, [(0, 5)])] }

/-- The running job with its source line read. -/
def job4Read : Job := { job4 with started := true, buf := [(0, [(0, 5)])] }

/-- The line and the bytes that a job writes next. -/
def nextWrite (j : Job) : Option (Nat × List (Nat × Nat × Nat)) :=
  ((planOf j.kind j.card)[j.done]?).bind fun p => (j.nextBytes p.1 p.2).map fun bs => (p.1, bs)

theorem nextWrite_some {j : Job} {ln : Nat} {bs : List (Nat × Nat × Nat)} (h : nextWrite j = some (ln, bs)) :
    ∃ ps, (planOf j.kind j.card)[j.done]? = some (ln, ps) ∧ j.nextBytes ln ps = some bs := by
  cases hp : (planOf j.kind j.card)[j.done]? with
  | none => simp [nextWrite, hp] at h
  | some p =>
    simp only [nextWrite, hp, Option.bind_some, Option.map_eq_some_iff, Prod.mk.injEq] at h
    obtain ⟨b, hb, rfl, rfl⟩ := h
    exact ⟨p.2, rfl, hb⟩

theorem job4Read_next : nextWrite job4Read = some (2, [(0, 16, 5)]) := by decide +kernel

theorem witness_JobRuns :
    (let s := { solo with jobs := [(4, job4)] }
     Tab.find 4 s.jobs = some job4 ∧ job4.edges = [] ∧ job4.started = false ∧ job4.ended = none ∧
       s.outranked job4 = false) ∧
    (let s := jobState false
     let j : Job := { job4 with started := true }
     s.acting 4 = some j ∧ j.nextRead = .ok (some 0) ∧ s.lineSite 4 j 0 4 = .ok (s, .device 0) ∧ HomeFree s 0 held0 ∧
     s.homePowered 0 = true ∧ lineBad held0.data = none ∧ held0.wts ≤ held0.rts) ∧
    (let s := jobState true
     let j := job4Read
     s.acting 4 = some j ∧ j.nextRead = .ok none ∧ j.complete = false ∧
       (∃ ps, (planOf j.kind j.card)[j.done]? = some (2, ps) ∧ j.nextBytes 2 ps = some [(0, 16, 5)]) ∧
       NoMarks held0.data ∧ (∀ p ∈ [((0 : Nat), (16 : Nat), (5 : Nat))], p.2.1 ≤ 128) ∧ j.object = none ∧
       s.lineSite 4 j 0x100 5 = .ok (s, .device 0x100) ∧ HomeFree s 2 held0 ∧ s.homePowered 2 = true) ∧
    (let f : Forme := { forme3 with pres := [(0, 1)], writer := [(0, 4)] }
     let s := { solo with jobs := [(4, jobForme)], formes := [(3, f)] }
     s.acting 4 = some jobForme ∧ s.lineSite 4 jobForme windowBase 5 = .ok (s, .forme 3 0) ∧ s.bad = [] ∧
       f.taggedAt 0 128 = none ∧ Tab.find 0 f.writer = some 4) ∧
    (({ job4 with started := true, done := 1 } : Job).complete = true ∧
      ({ job4 with ended := some 0xFF000000 } : Job).ended = some 0xFF000000 ∧ (2 ^ 24 : Nat) ≤ 0xFF000000) :=
  ⟨⟨rfl, rfl, rfl, rfl, by decide⟩,
    ⟨by decide, by rfl, by rfl, homeFree_of (by decide), by decide, by decide, by decide⟩,
    ⟨by decide, by rfl, by decide, nextWrite_some job4Read_next, noMarks_of (by decide), by decide, rfl, by rfl,
      homeFree_of (by decide), by decide⟩,
    ⟨by decide, by rfl, rfl, by decide, by decide⟩, by decide, rfl, by decide⟩

end Sys2Proof.Tests
end

