-- ==== Sys2Proof/Tests/Traffic.lean ====
section
/-! SUPPORT. Witnesses for the statements about platen calls and the fabric. -/

namespace Sys2Proof.Tests

open Sys2Proof.Machine Sys2Proof.Claims

/-! ### Platen calls -/

/-- A call of one team on stack 0 with line 0 in its range. -/
def call1 (p : CallPhase) : Call :=
  { card := callCard, args := [], launch := 1, ctx := 0, tid := { team := 3, n := 0 }, core := 0, caller := launch1
    time := 6, phase := p, lines := [(0, 1)], object := some (3, 16) }

/-- The call as number 5, its range line resident and dirty. -/
def callRun (c : Call) : State :=
  { solo with
    platens := [(0, { calls := [(5, c)] })], homes := [(0, { lines := [(0, { held0 with dirty := true })] })] }

/-- A header of profile 3 for teams of 16 lanes and 16 registers. -/
def nearHdr : Nat := 0x03000000 + 2 ^ 23 + 2 * 2 ^ 8

/-- The call with its header in stack-linear memory, 16 bytes below ENTRY. -/
def callPlace : State :=
  { callRun (call1 .run) with
    hbm := writeBytes [] 0x400000000FF0 4 nearHdr
    tlbs := [(194, [{ ctx := 0, va := 0, size := 4096, pte := 0x40000000018F }])] }

/-- A packet that adds 2 to the word at `pa`. -/
def addPacket (pa : Nat) : Packet := { pa, sub := 0, ty := .n32, size := 4, value := 2 }

/-- A packet for the byte at `pa`, taken or not yet taken. -/
def callDrain (pa : Nat) (taken : Bool) : State :=
  { callRun (call1 .drain) with
    fabric := if taken then { homePackets := [(0, addPacket pa)] }
      else { inbound := [({ source := 1, tag := 6, op := .red 0 .n32, pa, size := 4, value := 2, compare := 0 }, 0)] } }

theorem witness_PlatenCalls :
    (∀ pa ∈ [0, 0x1000], ∀ taken ∈ [true, false],
      (callDrain pa taken).callIn 0 5 .drain = some (call1 .drain) ∧
        (call1 .drain).covers (deviceLine pa) = (pa == 0)) ∧
    (let s := callRun (call1 .writeback)
     s.callIn 0 5 .writeback = some (call1 .writeback) ∧ s.residentRange 0 (call1 .writeback) = [0] ∧
       HomeFree s 0 { held0 with dirty := true } ∧ s.homePowered 0 = true) ∧
    (let s := { callRun (call1 .loan) with homes := [(0, { lines := [(0, held0)] })] }
     s.callIn 0 5 .loan = some (call1 .loan) ∧ s.flushRange 0 (call1 .loan) = (s, true) ∧ (call1 .loan).lines ≠ [] ∧
       s.memops = [] ∧ ∀ p ∈ (s.platen 0).calls, p.2.phase = .run → runsMeet (call1 .loan).lines p.2.lines = false) ∧
    (let s := callPlace
     let c := call1 .run
     s.callIn 0 5 .run = some c ∧ c.stopping = false ∧ c.started < callTeams c.card ∧
       (∀ p ∈ (s.platen 0).calls, p.1 < 5 → p.2.phase ≠ .run) ∧ c.hdr = none ∧
       s.translate (callAsker 0 5 c) 0xFF0 = (s, .ok (.platen 0x400000000FF0)) ∧ linearStack 0x400000000FF0 = some 0 ∧
       Bits.ofInt 64 ((callEntry c.card : Int) - 16) = 0xFF0 ∧ s.packetsFor 0x400000000FF0 = false ∧
       s.badRead 0x400000000FF0 4 = none ∧
       readBytes s.hbm 0x400000000FF0 4 = nearHdr ∧ nearHeaderOk nearHdr (callArgw c.card) = true ∧
       s.nearRoom 0 (8 * Bits.field nearHdr 8 8) = some 0) ∧
    (let c := { call1 .run with hdr := some nearHdr }
     (callRun c).callIn 0 5 .run = some c ∧ c.hdr = some nearHdr ∧ (callRun c).nearRoom 0 16 = some 0) ∧
    (let c := { call1 .run with stopping := true }
     (callRun c).call? 0 5 = some c ∧ c.started < callTeams c.card ∧ Tab.sorted (callRun c).teams = true) ∧
    (let c := { call1 .run with started := 1 }
     let s := callRun c
     s.callIn 0 5 .run = some c ∧ s.callTeamsOf 0 5 = [] ∧ callTeams c.card ≤ c.started ∧
       ∀ i, i < 12 → homeQuietB s (0 * 12 + i) = true ∧ (s.home (0 * 12 + i)).waits = []) ∧
    (let f : Forme := { forme3 with tag := [(4, true)], data := [(16, 1), (18, 1)] }
     let s := { callRun (call1 .ret) with formes := [(3, f)] }
     s.callIn 0 5 .ret = some (call1 .ret) ∧ Tab.find 3 s.formes = some f ∧ f.tagged 16 = true ∧ s.objWaiters 3 16 = [] ∧
       1 ≤ (f.obj 16).parr ∧ s.badUnits 3 16 16 false = false) ∧
    (let s : State := { platens := [(0, { packets := [addPacket 8, addPacket 12] })] }
     (s.platen 0).packets[1]? = some (addPacket 12) ∧
       (∀ r ∈ (s.platen 0).packets.take 1, r.pa + r.size ≤ 12 ∨ 12 + 4 ≤ r.pa) ∧ s.memops = [] ∧
       s.earlierPacket (addPacket 12) = false ∧ s.badRead 12 4 = none) := by
  refine ⟨by decide, ⟨by decide, by decide, homeFree_of (by decide), by decide⟩, ⟨by decide, by rfl, by decide, rfl, by decide⟩,
    ⟨by decide, rfl, by decide, by decide, rfl, by rfl, by decide, by decide, by decide, by decide, by decide +kernel,
      by decide +kernel, by decide +kernel⟩, by decide +kernel, by decide, by decide, by decide, by decide⟩

/-! ### The fabric -/

/-- A store outstanding on plane 2. -/
def storeOut : PeerOut := { tid := { team := 3, n := 0 }, module := 1, va := 0x80, write := true, plane := 2 }

/-- A load of `v8` outstanding on plane 2 for memory operation 10. -/
def loadOut : PeerOut :=
  { storeOut with
    write := false, op := some 10
    acc := some { tid := 0, va := 0x80, loc := .peer 1 0x80, size := 4, ty := .b32, dreg := 8 } }

/-- Module 1 with one access outstanding, and its thread. -/
def outState (o : PeerOut) (th : Thread) : State :=
  { withTeam { teamOf 1 with threads := [(0, th)] } [] with
    win := [(0x100800, 1)]
    fabric := { up := [(2, true)], out := [(4, o)] }
    memops := if o.write then [] else
      [(10, { team := 3, kind := .load, hint := 0, scope := 0, accs := [], replies := [4], threads := [0], next := 12 })] }

theorem witness_Links :
    (({} : State).hasPower (2 / 64) = true ∧ Tab.getD ({} : State).fabric.up 2 false = false ∧
      ({ powered := [(0, false)] } : State).hasPower (63 / 64) = false) ∧
    (let s := outState storeOut { peerOut := [4] }
     Tab.getD s.fabric.up 2 false = true ∧ s.fabric.out = [(4, storeOut)] ∧ Tab.has s.port.ioReads 4 = false ∧
       s.thread? { team := 3, n := 0 } = some { peerOut := [4] } ∧ s.jobs = [] ∧ storeOut.op = none ∧ storeOut.job = none) ∧
    (let j : Job := { job4 with kind := .coll, card := [0, 0, 0, 0, 0, 0, 0x20000, 0], started := true, sent := 1 }
     let s : State := { fabric := { up := [(0, true)] }, jobs := [(4, j)] }
     Tab.getD s.fabric.up 0 false = true ∧ j.awaitsPlane 0 = true) := by decide

/-- A load, a store and a reduction from module 1, and a reduction that came on plane 2. -/
def peerReqs : List PeerRequest :=
  ([.load, .store, .red 0 .n32].map fun op => { source := 1, tag := 6, op, pa := 4, size := 4, value := 2, compare := 0 }) ++
  [{ source := 1, tag := 6, op := .red 0 .n32, pa := 4, size := 4, value := 2, compare := 0, plane := some 2 }]

theorem witness_InboundPeers :
    (({} : State).modId = 0x3FF) ∧
    (∀ req ∈ peerReqs,
      let s : State :=
        { win := [(0x100800, 1)], homes := [(0, { lines := [(0, held0)] })], fabric := { up := [(1, true), (2, true)] } }
      s.wayUp req = true ∧ s.fabric.inbound = [] ∧ isBacked req.pa = true ∧
        s.homePowered (deviceLine req.pa) = true ∧ (s.platen (stackOf req.pa)).packets.length < 256 ∧
        (∀ p ∈ s.fabric.homePackets, deviceLine p.2.pa ≠ 0) ∧ homeFreeB s 0 held0 = true ∧
        s.packetOf (requestSender req) = false ∧ req.pa % 128 + req.size ≤ 128) ∧
    NoMarks held0.data := ⟨by decide, by decide, noMarks_of (by decide)⟩

theorem witness_PeerAnswers :
    (let s := outState loadOut { wait := .mem 10 }
     s.modId ≠ 0x3FF ∧
       Tab.find 4 s.fabric.out = some loadOut ∧ s.thread? { team := 3, n := 0 } = some { wait := .mem 10 } ∧
       (∃ m, Tab.find 10 s.memops = some m ∧ m.accs = [] ∧ m.replies = [4] ∧ m.team = 3 ∧ m.threads = [0] ∧ m.kind = .load) ∧
       ∃ t, s.team? 3 = some t ∧ t.near = false ∧ t.stopped = false ∧ s.trapVec t ≠ 0) ∧
    (∀ w ∈ [.ready, .fenceSys],
      let th : Thread := { wait := w, peerOut := [4] }
      let s := outState storeOut th
      Tab.find 4 s.fabric.out = some storeOut ∧ s.thread? { team := 3, n := 0 } = some th ∧ th.peerLost = false ∧
        th.hostOut = []) :=
  ⟨⟨by decide, by decide, by decide, ⟨_, rfl, by decide⟩, ⟨_, rfl, by decide⟩⟩, by decide⟩

theorem witness_Reductions :
    (let p : Packet := { addPacket 4 with reply := some (1, 6) }
     let s : State :=
       { win := [(0x100800, 1)], homes := [(0, { lines := [(0, held0)] })]
         fabric := { up := [(1, true)], homePackets := [(0, p)] } }
     (((s.fabric.homePackets.filter fun q => q.1 == 0).map (·.2))[0]? = some p) ∧ HomeFree s 0 held0 ∧
       s.homePowered 0 = true ∧ s.earlierPacket p = false ∧ s.heldByCall 0 = false ∧ NoMarks held0.data ∧
       4 % 128 + 4 ≤ 128 ∧ s.fabric.inbound = [] ∧ s.planeUp (p.plane.getD s.modId) = true) ∧
    (let j : Job := { job4 with kind := .coll, started := true, sent := 2 }
     let s : State := { win := [(0x100800, 1)], fabric := { up := [(1, true)] }, jobs := [(4, j)] }
     Tab.find 4 s.jobs = some j ∧ j.kind = .coll ∧ j.ended = none ∧ s.modId ≠ 0x3FF ∧ 1 < j.sent ∧
       Tab.find 1 j.recvd = none ∧ s.groupPlane j 1 = true ∧ s.abortable 4 j true = true ∧ s.abortable 4 j false = true ∧
       s.planeUp 1 = true) :=
  ⟨⟨by decide, homeFree_of (by decide), by decide, by decide, by decide, noMarks_of (by decide), by decide, rfl, by decide⟩,
    by decide⟩

end Sys2Proof.Tests
end

