-- ==== Sys2Proof/Tests/Launches.lean ====
section
/-! SUPPORT. Witnesses for the statements about launches, child teams, pre-emption, resets, the step and the encoding. -/

namespace Sys2Proof.Tests

open Sys2Proof.Machine Sys2Proof.Claims

/-! ### Launches -/

/-- A record of version 1: a grid of one team of four threads, entered at 0x110. -/
def record1 : Nat := 1 + 4 * 2 ^ 32 + 2 ^ 43 + 0x110 * 2 ^ 128 + 2 ^ 256 + 2 ^ 288 + 2 ^ 320

/-- Host queue 5 enabled, 16 slots, HEAD 0, TAIL 1, its ring at host address 0 with the lines of `r` at the port; the
descriptor of `record1` stands at 0x100. -/
def ringOf (r : Nat) : State :=
  { mapped with
    launches := []
    win := [(0x100000, 1), (0x1040B0, 4 + 2 ^ 31), (0x1040B8, 1)]
    hbm := writeBytes [] 0x100 4 0x03000200
    homes := [(144, { lines := (List.range 4).map fun i =>
      (hostLineBase + i, { data := lineOf (writeBytes [] 0 512 r) (128 * i) }) })] }

/-- What the launcher finds at the head of queue 5: none while the record cannot be read, else the reason of a refusal or 0,
and whether it has neither outputs nor inputs. -/
def headCheck (s : State) : Option (Nat × Bool) :=
  match s.headRecord 5 with
  | (s1, some d) => match (s1.checkRecord 5 d).2 with
    | .pass _ => some (0, !recImpOut d.record && recNin d.record == 0)
    | .refuse n => some (n, false)
    | .wait => none
  | _ => none

theorem witness_HostQueues :
    (∀ on ∈ [true, false],
      let s : State := { win := [(0x104010, if on then 2 ^ 31 else 0)] }
      Bits.bit (s.reg 0x104010) 31 = on) ∧
    (({ win := [(0x104010, 4)] } : State).hqSlots 0 < (17 + 2 ^ 16 - ({ win := [(0x104010, 4)] } : State).hqHead 0) % 2 ^ 16) ∧
    (∀ p ∈ [(record1, 0, true), (record1 + 2 ^ 62, 1, false)],
      (ringOf p.1).launches.length < 128 ∧ (ringOf p.1).nextHead [] = some 5 ∧ headCheck (ringOf p.1) = some p.2) := by
  decide +kernel

/-- A launch of `record1`. -/
def life : Launch := { launch1 with record := record1 }

theorem witness_LaunchLife :
    (let s := { solo with launches := [(1, life)], teams := [], clusters := [] }
     Tab.find 1 s.launches = some life ∧ recNin life.record = 0 ∧ s.clusterFits life 0 = some [0] ∧
       s.nextPlacement = some (.fresh 1 0)) ∧
    (let t := { teamOf 1 with threads := [(0, { live := false })], groups := [(0, { held := true })] }
     let s := withTeam t []
     s.team? 3 = some t ∧ t.groupIdle 0 = true ∧ Tab.find 0 t.groups = some { held := true } ∧
       s.teams.all (fun p => p.2.groups.all fun g => g.2.claim.isNone) = true) ∧
    (let s := { solo with cores := [(0, { tracker := [(2, [9], [8], 1)] })] }
     Tab.find 2 (s.core 0).tracker = some ([9], [8], 1) ∧ s.underWay 9 = false ∧ Tab.find 8 s.jobs = none ∧
       Tab.find 1 s.launches = some launch1) ∧
    (let t := { teamOf 1 with threads := [(0, { live := false })], groups := [(0, { held := false })] }
     let s := withTeam t []
     s.team? 3 = some t ∧ t.near = false ∧ t.done = true ∧ Tab.find t.launch s.launches = some launch1 ∧
       recNin launch1.record = 0) ∧
    (let s := { solo with teams := [] }
     Tab.find 2 s.clusters = some { launch := 1, index := 0, teams := [3] } ∧
       s.formeFree 2 { launch := 1, index := 0, teams := [3] } = true) ∧
    (let l := { life with next := 1 }
     let s : State := { launches := [(1, l)], running := [(l.queue, 1)] }
     Tab.find 1 s.launches = some l ∧ s.launchDone 1 l = true ∧ l.queue < 64 ∧ l.stale = [] ∧ l.waiting = [] ∧
       Tab.find l.queue s.running = some 1) := by
  decide +kernel

theorem witness_HostCancels :
    (solo.launchNamed 8 = none) ∧
    (solo.launchNamed 7 = some (1, launch1) ∧ Tab.find 1 solo.launches = some launch1 ∧ launch1.cancel = false ∧
      launch1.waiting = [] ∧ solo.saved = []) ∧
    (let s := { solo with launches := [(1, { launch1 with cancel := true })] }
     Tab.find 1 s.launches = some { launch1 with cancel := true } ∧ (s.core 0).cancelled.contains 1 = false) := by
  decide

/-! ### Child teams -/

/-- A bin of two tasks; its descriptor asks for 16 registers, one barrier and 128 bytes of forme. -/
def taskBin : Bin :=
  { launch := 1, entry := 0x110, depth := 1, tasks := [{ arg := 5, clock := 3, team := 3 }, { arg := 6, clock := 4, team := 3 }]
    ready := some 2, desc := 0x03000200 + 128 * 2 ^ 32 + 2 ^ 71 }

theorem witness_ChildTeams :
    (let b := { taskBin with ready := none, due := 64 }
     let s : State := { cycle := 64, cores := [(0, { bins := [(4, b)] })] }
     Tab.find 4 (s.core 0).bins = some b ∧ b.ready = none ∧ b.due ≤ s.cycle) ∧
    (let s := { solo with cores := [(0, { bins := [(4, taskBin)] })] }
     s.nextBin 0 = some (4, taskBin)) ∧
    (let s := { solo with cores := [(5, { bins := [(4, taskBin)] })] }
     s.coreIdle 1 = true ∧ s.victimOf 1 = some 5 ∧ s.childFits 1 taskBin = true ∧
       leastBy (fun p => p.2.ready.getD 0) ((s.core 5).readyBins.filter fun p => p.2.tasks.length == 2) = some (4, taskBin)) := by
  decide +kernel

/-! ### Pre-emption -/

/-- PREEMPT with GO for launch 7. -/
def goWord : DWord := 7 + 2 ^ 33

/-- The save pool of context 0: 16 MiB from device address 2^24. -/
def pooled : State := { solo with win := [(savePool 0, 2 ^ 12 + 2 ^ 24)] }

/-- The cluster of `solo`. -/
def cluster1 : Cluster := { launch := 1, index := 0, teams := [3] }

/-- The cluster stopped, with room for its one area at 2^24, each line of which is resident in its home. -/
def saving : State :=
  let s := { pooled with clusters := [(2, { cluster1 with pool := some (2 ^ 24, 36864) })] }
  (List.range 288).foldl (fun s i => s.putLineAt (2 ^ 17 + i) held0) s

/-- The record of the team that is saved. -/
def saved1 : SavedTeam := { key := 3, rank := 0, base := 2 ^ 24, team := teamOf 1 }

/-- The cluster saved, with the launch resident. -/
def restoring : State :=
  { pooled with
    teams := [], clusters := [], formes := []
    saved := [{ cluster := cluster1, key := 2, teams := [saved1], formes := [(3, { size := 1024, cluster := 2, core := 0 })]
                area := (2 ^ 24, 36864) }] }

theorem saving_free : (List.range (saved1.shape.at 10 / 128)).all (fun i =>
    saving.homePowered (deviceLine saved1.base + i) && homeFreeB saving (deviceLine saved1.base + i) held0) = true := by
  decide +kernel

theorem witness_Preemption :
    (solo.launchNamed 8 = none) ∧
    (pooled.launchNamed (goWord.toNat % 2 ^ 32) = some (1, launch1) ∧ Bits.bit goWord.toNat 33 = true ∧
      pooled.busy.preempt = none ∧ pooled.clusters = [(2, cluster1)] ∧ cluster1.launch = 1 ∧ cluster1.pool = none ∧
      pooled.rankTeams cluster1 ≠ [] ∧ pooled.poolPlace 0 (pooled.areaNeed cluster1) = some (2 ^ 24) ∧
      solo.poolPlace 0 (solo.areaNeed cluster1) = none ∧ Bits.bit (goWord - 2 ^ 33).toNat 33 = false) ∧
    (let c := { cluster1 with pool := some (2 ^ 24, 36864) }
     Tab.find 2 saving.clusters = some c ∧ saving.drained 2 c = true ∧ saving.savedTeams c (2 ^ 24) = [saved1] ∧
       Tab.find c.launch saving.launches = some launch1 ∧ launch1.cancel = false ∧
       ∀ i, i < saved1.shape.at 10 / 128 → saving.homePowered (deviceLine saved1.base + i) = true ∧
         HomeFree saving (deviceLine saved1.base + i) held0) ∧
    (({ busy := { preempt := some 7 } } : State).busy.preempt = some 7) ∧
    (let s := restoring
     (s.saved[0]?).map (fun v => (s.restoreFits v 5, v.teams)) = some (some [5], [saved1]) ∧
       s.nextPlacement = some (.saved 0) ∧ saved1.waits = [] ∧ saved1.tasks = [] ∧ saved1.rank < 1) ∧
    (let t := { teamOf 1 with stopped := true }
     let s := withTeam t []
     s.stoppedAt 0 0 0 = some (3, t) ∧ s.team? 3 = some t ∧ s.stoppedAt 0 0 1 = none) ∧
    (({ busy := { codeinv := true } } : State).busy.codeinv = true ∧ Bits.bit ((0x1001 : DWord)).toNat 0 = true) := by
  refine ⟨by decide, ⟨by decide +kernel, by decide +kernel, by decide, by decide, by decide, by decide, by decide, by decide +kernel, by decide +kernel,
    by decide +kernel⟩, ⟨by decide +kernel, by decide +kernel, by decide +kernel, by decide +kernel, by decide, fun i hi => ?_⟩,
    rfl, ⟨by decide +kernel, by decide +kernel, rfl, rfl, by decide⟩, by decide +kernel, by decide +kernel⟩
  have h := List.all_eq_true.1 saving_free i (List.mem_range.2 hi)
  rw [Bool.and_eq_true] at h
  exact ⟨h.1, homeFree_of h.2⟩

/-! ### Resets, power, readback -/

/-- Nothing resident: one line of device memory, dirty, in its home. -/
def dirty0 : State := { homes := [(0, { lines := [(0, { held0 with dirty := true })] })] }

/-- PWRCFG with the gate bits `g`. -/
def gateState (g : Nat) : State := { win := [(0x106200, 1700 + 1700 * 2 ^ 16 + g * 2 ^ 32)] }

/-- Die 0 gated. -/
def gated0 : State := (gateState 1).gate 0

/-- The loss of die 1, with a line of it owned by region 2 of die 0. -/
def lostDie : State :=
  let c : Copy := { owned := true, data := [(0, 7)], dirty := true, wts := 3, rts := 3 }
  { win := [(0x100600, 1)], busy := { deadDie := some 1 }, regions := [(2, { copies := [(6 * 32, c)] })] }

theorem witness_Resets :
    (dirty0.busy.held = false ∧ dirty0.busy.bootFailed = false ∧ dirty0.residentLines false = [0] ∧ dirty0.dirtyLine 0 = true ∧ isHostLine 0 = false ∧
      ({} : State).residentLines false = []) ∧
    (let s : State := { win := [(0x106208, 90)], busy := { held := true } }
     s.busy.held = true ∧ 90 ≤ s.junction 0) ∧
    ({ busy := { bootFailed := true } } : State).busy.bootFailed = true := by decide

theorem witness_GatingAndLoss :
    ((gateState 0).hasPower 0 = true ∧ (gateState 0).hasPower 1 = true ∧ Bits.field ((gateState 0).reg 0x106200) 32 2 = 0 ∧
      Bits.bit ((gateState 2).reg 0x106200) 33 = true) ∧
    (∀ quiet ∈ [true, false],
      let s := { gateState 1 with net := if quiet then [] else [(5, msgOf .wb)] }
      Bits.bit (s.reg 0x106200) 32 = true ∧ s.hasPower 0 = true ∧ s.dieIdle 0 = true ∧ s.dieQuiet 0 = quiet) ∧
    (Bits.field (gated0.reg 0x106200) 32 2 = 2 ^ 0 ∧ gated0.hasPower 0 = false) ∧
    (({} : State).busy.deadDie = none ∧ ({} : State).hasPower 1 = true) ∧
    (lostDie.busy.deadDie = some 1 ∧ lostDie.busy.salvaged = false ∧ lostDie.survivorQuiet 1 = true ∧
      ({ lostDie with net := [(5, msgOf .wb)] } : State).survivorQuiet 1 = false ∧
      (lostDie.salvageLines 1).map (fun e => (e.1, e.2.1)) = [(2, 192)] ∧ (lostDie.salvageBase 0).isSome = true ∧
      (∀ p ∈ lostDie.launches, p.2.queue < 64) ∧
      ({ busy := { deadDie := some 0 } } : State).survivorQuiet 0 = true) := by
  decide +kernel

theorem witness_Readback :
    (let s : State := { win := [(0x106400, 9 * 2 ^ 56)] }
     8 % 8 = 0 ∧ s.stSpace = 9 ∧ s.stIndex < 12 ∧ s.hasPower (dieOfStack s.stIndex) = true ∧
       s.stPage * 2 ^ 24 + 8 % 2 ^ 24 < Config.stackBytes) ∧
    solo.team? 3 = some (teamOf 1) ∧ (teamOf 1).stopped = false ∧ (teamOf 1).slugAsk = [] ∧ Tab.sorted solo.teams = true := by
  decide

/-! ### The step, the encoding, the invariant -/

/-- One thread at program counter 0, where a `nop` stands in the instruction cache of its core. -/
def running : State :=
  { solo with ig := none, agenda := [.issue 0 0], cores := [(0, { icache := [(0, lineOf (writeBytes [] 0 4 0x2BC00000) 0)] })] }

/-- The team as the slot chooses it. -/
def chosen : Option (Candidate × State × Team) :=
  (running.choose 0 0).bind fun c =>
    let b := (({ running with agenda := [], cycle := 1 } : State).bookIssue 0 0 c).stirLaunch 1
    (b.team? c.team).map fun t => (c, b, t)

theorem witness_StepRunsTheDecodedInstruction :
    (running.agenda = [.issue 0 0] ∧ running.issuing = true ∧
      chosen.all (fun p =>
        let (c, b, t) := p
        decide (c.pc = 0) && decide (c.threads = [0]) && decide (t.launch = 1) && !t.opIllegal 0x2BC00000 &&
          (match b.fetchWord t { team := c.team, n := 0 } 0 with | (s, .ok w) => decide (s = b) && w == 0x2BC00000 | _ => false)) = true ∧ chosen.isSome = true ∧
      lenWords (wordLen 0x2BC00000) = 1 ∧ decode [0x2BC00000] = .ok (.nopBase, 1) ∧ Instr.nopBase.toX = none) ∧
    (({ cycle := 64, agenda := [.event .clockTick] } : State).busy.held = false ∧
      (match exec .clockTick { cycle := 64 } with | .next _ => true | _ => false) = true) := by
  decide +kernel

theorem witness_DecodeAndEncodeAgree :
    (let i := Instr.add { form .n32 with c := 0 }
     i.toX.isSome = true ∧ i.wf = true) ∧
    (let i := Instr.brBase { g := 1, off := 5 }
     (encodeBaseForm i).isSome = true ∧ i.wf = true) := by decide

/-- A step from the reset state, and one that runs an instruction. -/
theorem witness_StepsKeepMemoriesCanonical :
    State.reset.canonical = true ∧
    (match step { State.reset with agenda := [.hostStore 0x80 [7, 0]] } with | .next s => s.hostMem == [(0x80, 7)] | _ => false) =
      true := by decide +kernel

end Sys2Proof.Tests
end

