-- ==== Sys2Proof/Tests/Registers.lean ====
section
/-! SUPPORT. Witnesses: states and operands that meet the hypotheses of the statements about registers, control, rejoin
sets and barriers. -/

namespace Sys2Proof.Tests

open Sys2Proof.Machine Sys2Proof.Claims

/-- A row of an instruction with two sources in the type's width. -/
def row2 (ty : Ty) (o : XOp) : Row :=
  { o, x := form ty, wa := ty.regs, wb := ty.regs, dsts := destOf (form ty) ty.regs }

def row1 (ty : Ty) (o : XOp) : Row := { o, x := form ty, wa := ty.regs, dsts := destOf (form ty) ty.regs }

/-- An indirect source at the last register of the allocation, and a literal in place of B. -/
def edges : List Row :=
  [{ o := .add, x := { form .i32 with a := 63, b := 0, lit := some 5, d := 63 }, wa := 1, wb := 1, dsts := [63] },
   { o := .add, x := { form .i32 with a := 60, xa := true, c := 1 }, wa := 1, wb := 1, dsts := [8] }]

theorem witness_SumsAndProducts : ∀ r ∈ edges ++ ([.i32, .n32, .i64].flatMap fun ty =>
    [.add, .sub, .mul, .mulhi, .minI, .maxI].map (row2 ty) ++ [{ row2 ty .mad with wc := ty.regs }]),
    r.Meets solo (igOf [0]) (teamOf 1) := rows_of (by decide) (by decide)

theorem witness_IntegerLogic : ∀ r ∈ ([.i32, .n64].flatMap fun ty =>
    [.bitAnd, .bitOr, .bitXor, .div, .rem].map (row2 ty) ++
    ([.shl, .shr, .sra, .rol, .bfe].map fun o => { row2 ty o with wb := 1 }) ++ [{ row2 ty .bfi with wb := 1, wc := ty.regs }] ++
    ([.popc, .clz, .ctz].map fun o => { row1 ty o with dsts := [8] }) ++ [.brev, .absI, .negI, .bitNot].map (row1 ty) ++
    [{ o := .lea, x := form ty, wa := 2, wb := ty.regs, dsts := regSpan 8 2 }]),
    r.Meets solo (igOf [0]) (teamOf 1) := rows_of (by decide) (by decide)

theorem witness_Moves : ∀ r ∈ [row2 .i64 .sel, row1 .b64 .mov, row1 .b32 .mov, row1 .i32 .cvt,
    { o := .ldi, x := form .n32, dsts := [8] }], r.Meets solo (igOf [0]) (teamOf 1) := rows_of (by decide) (by decide)

theorem witness_Predicates : ∀ r ∈ [{ row2 .n64 .cmp with dsts := [] }, { row2 .i32 .cmp with dsts := [] }],
    r.Meets solo (igOf [0]) (teamOf 1) := rows_of (by decide) (by decide)

theorem witness_PredicateMasks : ∀ r ∈ [({ o := .pget, x := form .b32, dsts := [8] } : Row),
    { o := .pset, x := form .b32, wa := 1 }], r.Meets pair (igOf [0, 1]) (teamOf 2) := rows_of (by decide) (by decide)

theorem witness_FloatResults : ∀ r ∈ ([.f32, .f64].flatMap fun ty =>
    [.fadd, .fsub, .fmul, .fmin, .fmax, .fsgn, .fdiv].map (row2 ty) ++ [{ row2 ty .fma with wc := ty.regs }] ++
    [.fabs, .fneg, .frnd, .frcp, .frsq, .fsqrt, .fex2, .flg2, .fsinr, .fcosr].map (row1 ty)),
    r.Meets solo (igOf [0]) (teamOf 1) := rows_of (by decide) (by decide)

/-- A block in the registers from `v32`, its codes from `v8`, scale and spare in `v4`; slot 0 names E2M1 blocks. -/
def blockForm (ty : Ty) : XForm := { form ty with a := 32 }

/-- `solo` with a format slot 0. -/
def slotted (v : Nat) : State := { solo with launches := [(1, { launch1 with record := launch1.record + v * 2 ^ 1280 })] }

/-- TYPE `ty`, BLK `blk`, SCK `sck`, TSCALE 1. -/
def slotOf (ty : Ty) (blk sck : Nat) : Nat := ty.code + blk * 2 ^ 8 + sck * 2 ^ 12 + 0x3F800000 * 2 ^ 32

theorem witness_FloatConversions :
    (∀ r ∈ [{ row2 .f32 .fcmp with dsts := [] }, row1 .f32 .fcvt], r.Meets solo (igOf [0]) (teamOf 1)) ∧
    (let s := slotted (slotOf .e4m3 0 0)
     let x := { form .e4m3 with imm := 8, sub := 11 }
     Formed s (igOf [0]) (teamOf 1) ∧ Each (igOf [0]) (teamOf 1) fun c =>
       (Bits.bit x.imm.toNat 3 = true → fcvtSlotOk x (s.fslot c.team x.fs.toNat) = true) ∧
         Usable .fcvt x 1 0 0 (destOf x x.ty.regs) s c) ∧
    (let s := slotted (slotOf .e2m1s 2 1)
     let x := blockForm .e2m1s
     Formed s (igOf [0]) (teamOf 1) ∧ Each (igOf [0]) (teamOf 1) fun c =>
       mxSlotOk x (s.fslot c.team x.fs.toNat) = true ∧ c.dests [x.b.toNat] = .ok () ∧ c.dests (destOf x 4) = .ok () ∧
         ∃ a, c.resolve (word0 .mxq x) x.a.toNat x.c.toNat x.xa 1 = .ok a ∧ c.block a = .ok () ∧
          Settled c (regSpan a 32 ++ [x.b.toNat] ++ if x.xa then [x.c.toNat] else []) ∧ Unheld c (destOf x 4) ∧
          Sound c (regSpan a 32 ++ [x.b.toNat] ++ if x.xa then [x.c.toNat] else [])) ∧
    (let s := slotted (slotOf .e2m1s 2 1)
     let x := { form .e2m1s with d := 32, a := 8 }
     Formed s (igOf [0]) (teamOf 1) ∧ Each (igOf [0]) (teamOf 1) fun c =>
       mxSlotOk x (s.fslot c.team x.fs.toNat) = true ∧ c.dests [x.b.toNat] = .ok () ∧ c.block x.d.toNat = .ok () ∧
         ∃ a, c.resolve (word0 .mxdq x) x.a.toNat x.c.toNat x.xa 4 = .ok a ∧
          Settled c (regSpan a 4 ++ [x.b.toNat] ++ if x.xa then [x.c.toNat] else []) ∧ Unheld c (destOf x 32) ∧
          Sound c (regSpan a 4 ++ [x.b.toNat] ++ if x.xa then [x.c.toNat] else [])) :=
  ⟨rows_of (by decide) (by decide),
    ⟨formed_of (by decide), each_one rfl ⟨fun _ => by decide +kernel, usable_of (by decide)⟩⟩,
    ⟨formed_of (by decide),
      each_one rfl ⟨by decide +kernel, rfl, rfl, 32, rfl, rfl, settled_of (by decide), unheld_of (by decide),
        sound_of (by decide)⟩⟩,
    ⟨formed_of (by decide), each_one rfl ⟨by decide +kernel, rfl, rfl, 8, rfl, settled_of (by decide),
      unheld_of (by decide), sound_of (by decide)⟩⟩⟩

theorem witness_CrossLane :
    (∀ r ∈ [{ row1 .i32 .shfl with wb := 1 }, { row1 .f64 .shfl with x := { form .f64 with lit := some 1 } },
      { row1 .i32 .perm with wb := 1 }, row1 .f32 .redux, { row1 .i64 .cdet with dsts := [8] },
      { row1 .i64 .matchV with dsts := [8] }, { o := .vote, x := form .b32, dsts := [8] },
      { row1 .b32 .vote with dsts := [] }], r.Meets pair (igOf [0, 1]) (teamOf 2)) ∧
    (teamOf 2).converged (igOf [0, 1]).threads = true ∧
    (Formed (withTeam (teamOf 2) [0]) (igOf [0]) (teamOf 2) ∧ (teamOf 2).converged (igOf [0]).threads = false ∧
      (teamOf 2).near = false ∧ (teamOf 2).stopped = false ∧ (withTeam (teamOf 2) [0]).trapVec (teamOf 2) ≠ 0 ∧
      ∀ p ∈ (teamOf 2).threads, p.2.handler = false) :=
  ⟨rows_of (by decide) (by decide), by decide, formed_of (by decide), by decide, rfl, rfl, by decide, by decide⟩

theorem witness_RegistersAndStaging :
    (∀ r ∈ [({ o := .kmov, x := form .b64, dsts := regSpan 8 2 } : Row), { o := .sysrd, x := form .n64, dsts := regSpan 8 2 },
      { o := .kset, x := form .b32, wa := 1 }], r.Meets solo (igOf [0]) (teamOf 1)) ∧
    (let x := { form .i64 with imm := 62 }
     Formed solo (igOf [0]) (teamOf 1) ∧ Each (igOf [0]) (teamOf 1) fun c =>
       c.dests [x.a.toNat] = .ok () ∧ c.dests (destOf x 2) = .ok () ∧ 62 + 2 - 1 < c.alloc ∧
         x.imm.toNat % 2 ^ 10 + (c.th.v x.a.toNat).toNat % 2 ^ 10 = 62 ∧
         Settled c (x.a.toNat :: regSpan 62 2 ++ destOf x 2) ∧ Sound c (x.a.toNat :: regSpan 62 2)) ∧
    (teamOf 1).kRace 0 [8, 9] = none ∧ (∀ k ∈ [8, 9], Tab.find k (teamOf 1).kp = none) :=
  ⟨rows_of (by decide) (by decide),
    ⟨formed_of (by decide),
      each_one rfl ⟨rfl, rfl, by decide, by decide, settled_of (by decide), sound_of (by decide)⟩⟩,
    by decide, by decide⟩

/-- Every thread of a team with the groups given, in one issue group. -/
def grouped (g : Group) : Team := { teamOf 1 with groups := [(0, g)] }

/-- At the boundaries: a claim of what is held, one register block beyond 1,024, and one that fills the partition's pool
exactly (the claimant's own 64 × 32 registers and 960 more are 1,024, of 2,048). -/
theorem witness_RegisterPool :
    (Formed solo (igOf [0]) (teamOf 1) ∧ (∀ n ∈ (igOf [0]).threads, (teamOf 1).hw n = 0) ∧
      Tab.find 0 (teamOf 1).groups = some {}) ∧
    claimTarget (form .b32) ≤ 0 ∧ 1024 < 64 + claimTarget { form .b32 with imm := 16 } ∧
    (0 < claimTarget { form .b32 with imm := 15 } ∧ 64 + claimTarget { form .b32 with imm := 15 } ≤ 1024 ∧
      NoClaims solo ∧ Tab.sorted solo.teams = true ∧ Tab.sorted (teamOf 1).groups = true ∧
      solo.regsUsed 0 0 + (claimTarget { form .b32 with imm := 15 } - 0) ≤ 2048) ∧
    solo.inFlight 3 0 (64 + claimTarget (form .b32)) = false ∧
    (let t := grouped { x := 64 }
     let s := withTeam t [0]
     Formed s (igOf [0]) t ∧ Tab.find 0 t.groups = some { x := 64 } ∧ claimTarget (form .b32) < 64 ∧ NoClaims s ∧
       s.inFlight 3 0 (64 + claimTarget (form .b32)) = false) :=
  ⟨⟨formed_of (by decide), by decide, rfl⟩, by decide, by decide,
    ⟨by decide, by decide, by simp [NoClaims, solo, withTeam, teamOf], by decide, by decide, by decide⟩, by decide,
    formed_of (by decide), rfl, by decide, by simp [NoClaims, withTeam, grouped, teamOf], by decide⟩

theorem witness_ControlFlow :
    (∀ r ∈ [({ o := .brx, x := form .b32, wa := 2 } : Row), { o := .calli, x := form .b32, wa := 2, dsts := regSpan 8 2 },
      { o := .ret, x := form .b32, wa := 2 }], r.Meets solo (igOf [0]) (teamOf 1)) ∧
    (Formed solo (igOf [0]) (teamOf 1) ∧ Each (igOf [0]) (teamOf 1) fun c =>
      c.th.guard 7 = true ∧ c.th.guard 0 = false ∧ c.dests (regSpan 62 2) = .ok () ∧ Unheld c (regSpan 62 2)) :=
  ⟨rows_of (by decide) (by decide), formed_of (by decide), each_one rfl ⟨rfl, rfl, rfl, unheld_of (by decide)⟩⟩

theorem witness_Traps :
    (Formed solo (igOf [0]) (teamOf 1) ∧ CanTrap solo (igOf [0]) (teamOf 1)) ∧
    (let s := { solo with launches := [(1, { launch1 with record := 0 })] }
     Formed s (igOf [0]) (teamOf 1) ∧ s.trapVec (teamOf 1) = 0 ∧ (∀ p ∈ s.memops, p.2.team ≠ 3) ∧
       Tab.find 1 s.launches = some { launch1 with record := 0 }) :=
  ⟨⟨formed_of (by decide), canTrap_of (by decide)⟩, formed_of (by decide), by decide, by decide, rfl⟩

theorem witness_ReturnFromHandler :
    (let t := { teamOf 1 with threads := [(0, { handler := true })] }
     let s := withTeam t [0]
     Formed s (igOf [0]) t ∧ Each (igOf [0]) t fun c => Usable .rte (form .b32) 2 0 0 [] s c ∧ c.th.handler = true) ∧
    (Formed solo (igOf [0]) (teamOf 1) ∧ CanTrap solo (igOf [0]) (teamOf 1) ∧
      Each (igOf [0]) (teamOf 1) fun c => Usable .rte (form .b32) 2 0 0 [] solo c ∧ c.th.handler = false) :=
  ⟨⟨formed_of (by decide), each_one rfl ⟨usable_of (by decide), rfl⟩⟩,
    formed_of (by decide), canTrap_of (by decide), each_one rfl ⟨usable_of (by decide), rfl⟩⟩

/-- A barrier instruction on barrier `b` with E = `e`. -/
def barForm (b e : Nat) : XForm := { form .b32 with imm := BitVec.ofNat 22 (b + 1024 * e) }

/-- Two threads that arrive: they complete the phase at the last of them, do not complete it, and arrive with counts from
registers on a barrier that holds the greatest E. -/
theorem witness_NamedBarriers :
    (∀ x ∈ [barForm 1 2, barForm 1 3, { barForm 0 2047 with imm := 0x3FFC00 }],
      let bar := (teamOf 2).bar (barNo x)
      Formed pair (igOf [0, 1]) (teamOf 2) ∧ (igOf [0, 1]).threads.getLast? = some 1 ∧
        (Each (igOf [0, 1]) (teamOf 2) fun c => c.th.wait = .ready ∧ c.th.peerOut = []) ∧
        barNo x < (teamOf 2).nbar ∧ bar.latch.getD (barE x) = barE x ∧
        (∀ o ∈ [XOp.barArrive, .barSync], bar.count + arrivalSum o x 3 (teamOf 2) [0] < barE x ∧
          bar.count + arrivalSum o x 3 (teamOf 2) [0, 1] ≤ barE x) ∧
        Each (igOf [0, 1]) (teamOf 2) (Usable .barArrive x 0 (if barCreg x then 1 else 0) 0 [8] pair) ∧
        Each (igOf [0, 1]) (teamOf 2) (Usable .barSync x 0 (if barCreg x then 1 else 0) 0 [] pair) ∧
        Each (igOf [0, 1]) (teamOf 2) (Usable .barWait x 1 0 0 [] pair)) ∧
    (0 + arrivalSum .barArrive (barForm 1 2) 3 (teamOf 2) [0, 1] = barE (barForm 1 2)) ∧
    (Formed solo (igOf [0]) (teamOf 1) ∧ CanTrap solo (igOf [0]) (teamOf 1) ∧ (teamOf 1).nbar ≤ barNo (barForm 2 1)) ∧
    (let t := { teamOf 1 with bars := [(0, { latch := some 2, count := 1 })] }
     Formed (withTeam t [0]) (igOf [0]) t ∧ CanTrap (withTeam t [0]) (igOf [0]) t ∧ (t.bar 0).latch = some 2 ∧
       2 ≠ barE (barForm 0 3)) ∧
    barE (barForm 0 0) < ((teamOf 1).bar 0).count + arrivals .barArrive (barForm 0 0) (viewOf 3 (teamOf 1) 0 {}) := by
  refine ⟨fun x hx => ?_, by decide, ⟨formed_of (by decide), canTrap_of (by decide), by decide⟩,
    ⟨formed_of (by decide), canTrap_of (by decide), by decide, by decide⟩, by decide⟩
  have all : ([barForm 1 2, barForm 1 3, { barForm 0 2047 with imm := 0x3FFC00 }].all fun x =>
      decide (barNo x < (teamOf 2).nbar) &&
      decide (((teamOf 2).bar (barNo x)).latch.getD (barE x) = barE x) &&
      decide (∀ o ∈ [XOp.barArrive, .barSync],
        ((teamOf 2).bar (barNo x)).count + arrivalSum o x 3 (teamOf 2) [0] < barE x ∧
          ((teamOf 2).bar (barNo x)).count + arrivalSum o x 3 (teamOf 2) [0, 1] ≤ barE x) &&
      eachB (igOf [0, 1]) (teamOf 2) (usableB .barArrive x 0 (if barCreg x then 1 else 0) 0 [8] pair) &&
      eachB (igOf [0, 1]) (teamOf 2) (usableB .barSync x 0 (if barCreg x then 1 else 0) 0 [] pair) &&
      eachB (igOf [0, 1]) (teamOf 2) (usableB .barWait x 1 0 0 [] pair)) = true := by decide
  have h := List.all_eq_true.1 all x hx
  simp only [Bool.and_eq_true, decide_eq_true_eq] at h
  exact ⟨formed_of (by decide), rfl,
    each_of (p := fun c => decide (c.th.wait = .ready ∧ c.th.peerOut = [])) (fun _ hc => of_decide_eq_true hc) (by decide), h.1.1.1.1.1, h.1.1.1.1.2, h.1.1.1.2, each_of (fun _ hc => usable_of hc) h.1.1.2,
    each_of (fun _ hc => usable_of hc) h.1.2, each_of (fun _ hc => usable_of hc) h.2⟩

/-- A thread with a peer write that has not been acknowledged, at an arrival on barrier 1. -/
theorem witness_ArrivalsWait :
    let th : Thread := { peerOut := [4] }
    let t := { teamOf 1 with threads := [(0, th)] }
    let s := withTeam t [0]
    Formed s (igOf [0]) t ∧ Tab.find 0 t.threads = some th ∧ th.peerOut ≠ [] ∧ barNo (barForm 1 2) < t.nbar ∧
      ∀ o ∈ [XOp.barArrive, .barSync], Usable o (barForm 1 2) 0 0 0 [8] s (viewOf 3 t 0 th) := by
  refine ⟨formed_of (by decide), rfl, by decide, by decide, fun o ho => usable_of ?_⟩
  simp only [List.mem_cons, List.not_mem_nil, or_false] at ho
  rcases ho with rfl | rfl <;> decide

/-- A team of `n` threads whose set 3 has the masks given; the threads listed are parked on it. -/
def joined (n mem arr : Nat) (parked : List Nat) : Team :=
  { teamOf n with
    threads := (List.range n).map fun i => (i, if parked.contains i then { wait := .rejoin 3 0x40 } else {})
    groups := [(0, { sets := [(3, { mem, arr })] })] }

def set3 : XForm := { form .b32 with d := 3, a := 3 }

/-- A set without waiters, and the last set, 15; a set with a waiter. -/
theorem witness_RejoinMasks :
    (∀ x ∈ [set3, { form .b32 with d := 15, a := 15 }], Formed pair (igOf [0, 1]) (teamOf 2) ∧
      (igOf [0, 1]).threads.head? = some 0 ∧ OneGroup (igOf [0, 1]) (teamOf 2) 0 ∧ x.d.toNat < 16 ∧
      ((teamOf 2).jset 0 x.d.toNat).arr = 0) ∧
    (∀ r ∈ [({ o := .jinit, x := { set3 with a := 8 }, wa := 1 } : Row), { o := .jrest, x := { set3 with a := 8 }, wa := 2 },
      { o := .jread, x := { set3 with d := 8 }, dsts := [8] }, { o := .jsave, x := { set3 with d := 8 }, dsts := [8, 9] }],
      r.Meets pair (igOf [0, 1]) (teamOf 2)) ∧
    (let t := joined 2 3 2 [1]
     let s := withTeam t [0]
     Formed s (igOf [0]) t ∧ CanTrap s (igOf [0]) t ∧ Each (igOf [0]) t fun c =>
       Usable .jinit { set3 with a := 8 } 1 0 0 [] s c ∧ t.gid c.id.n = t.gid 0 ∧ (t.jset 0 3).arr ≠ 0) := by
  refine ⟨fun x hx => ?_, rows_of (by decide) (by decide), formed_of (by decide), canTrap_of (by decide),
    each_one rfl ⟨usable_of (by decide), rfl, by decide⟩⟩
  simp only [List.mem_cons, List.not_mem_nil, or_false] at hx
  rcases hx with rfl | rfl <;>
    exact ⟨formed_of (by decide), rfl, ⟨by decide, by decide, by decide⟩, by decide, by decide⟩

/-- `jquit` that completes a set with a parked waiter, and one that does not; `jwait` that completes, and one that parks; a
thread that is no member. -/
theorem witness_RejoinReleases :
    (let t := joined 2 3 2 [1]
     Formed (withTeam t [0]) (igOf [0]) t ∧ OneGroup (igOf [0]) t 0 ∧
       (Each (igOf [0]) t fun c => Running c ∧ c.th.peerOut = []) ∧
       (without (t.jset 0 3).arr (laneMask (igOf [0]) t) != 0 &&
         without (t.jset 0 3).arr (laneMask (igOf [0]) t) == without (t.jset 0 3).mem (laneMask (igOf [0]) t)) = true ∧
       (t.jset 0 3).arr ||| laneMask (igOf [0]) t = (t.jset 0 3).mem ∧
       (∀ m ∈ (igOf [0]).threads, Bits.bit (t.jset 0 3).mem (t.lane m) = true) ∧
       Tab.find 1 t.threads = some { wait := .rejoin 3 0x40 }) ∧
    (let t := joined 2 3 0 []
     Formed (withTeam t [0]) (igOf [0]) t ∧ (t.jset 0 3).arr ||| laneMask (igOf [0]) t ≠ (t.jset 0 3).mem ∧
       (without (t.jset 0 3).arr (laneMask (igOf [0]) t) != 0) = false ∧
       1 ∉ (igOf [0]).threads ∧ Tab.find 1 t.threads = some {} ∧ t.gid 1 = t.gid 0) ∧
    (let t := joined 2 2 0 []
     Formed (withTeam t [0]) (igOf [0]) t ∧ CanTrap (withTeam t [0]) (igOf [0]) t ∧ Each (igOf [0]) t fun c =>
       t.gid c.id.n = t.gid 0 ∧ Bits.bit (t.jset 0 3).mem (t.lane c.id.n) = false) :=
  ⟨⟨formed_of (by decide), ⟨by decide, by decide, by decide⟩, each_one rfl ⟨⟨rfl, rfl⟩, rfl⟩, by decide, by decide,
      by decide, rfl⟩,
    ⟨formed_of (by decide), by decide, by decide, by decide, rfl, rfl⟩,
    formed_of (by decide), canTrap_of (by decide), each_one rfl ⟨rfl, by decide⟩⟩

/-- Two members of set 3, one of which has a peer write that has not been acknowledged. -/
theorem witness_RejoinWaitsForAccesses :
    let t := { joined 2 3 0 [] with threads := [(0, { peerOut := [4] }), (1, {})] }
    Formed (withTeam t [0, 1]) (igOf [0, 1]) t ∧ OneGroup (igOf [0, 1]) t 0 ∧
      (∀ m ∈ (igOf [0, 1]).threads, Bits.bit (t.jset 0 3).mem (t.lane m) = true) ∧
      ∃ m ∈ (igOf [0, 1]).threads, ∃ th, Tab.find m t.threads = some th ∧ th.peerOut ≠ [] :=
  ⟨formed_of (by decide), ⟨by decide, by decide, by decide⟩, by decide, 0, by decide, _, rfl, by decide⟩

/-- A set with a member that is no longer live: the other live thread is parked on it when thread 0 arrives, or ends. -/
theorem witness_RejoinOrphans :
    let t := joined 2 7 2 [1]
    let s := withTeam t [0]
    Formed s (igOf [0]) t ∧ OneGroup (igOf [0]) t 0 ∧ CanTrap s (igOf [0]) t ∧ Tab.sorted t.threads = true ∧
      (Each (igOf [0]) t fun c => Running c ∧ c.th.peerOut = []) ∧
      (∀ m ∈ (igOf [0]).threads, Bits.bit (t.jset 0 3).mem (t.lane m) = true) ∧
      (t.jset 0 3).arr ||| laneMask (igOf [0]) t ≠ (t.jset 0 3).mem ∧
      Tab.find 1 t.threads = some { wait := .rejoin 3 0x40 } ∧ t.gid 1 = t.gid 0 ∧
      (∀ j, j < 16 → completes t 0 j = false) ∧ (∀ p ∈ t.groups, p.2.quad = none) ∧
      ({} : Thread).outstanding = [] ∧ s.jobsOf 3 [0] = [] :=
  ⟨formed_of (by decide), ⟨by decide, by decide, by decide⟩, canTrap_of (by decide), by decide,
    each_one rfl ⟨⟨rfl, rfl⟩, rfl⟩, by decide, by decide, rfl, rfl, by decide, by decide, by decide, by decide⟩

/-- Thread 0 ends: set 3 lacks only its arrival, and thread 1 is parked on it; on a core and on a near-memory core. -/
theorem witness_LeavingReleases :
    ∀ p ∈ [Place.core 0, .near 0 0 5],
      let t := { joined 2 3 2 [1] with place := p }
      let s := withTeam t [0]
      Formed s (igOf [0]) t ∧ OneGroup (igOf [0]) t 0 ∧ Tab.find 0 t.threads = some {} ∧ completes t 0 3 = true ∧
        Tab.sorted t.threads = true ∧ (∀ p ∈ t.groups, p.2.quad = none) ∧
        Tab.find 1 t.threads = some { wait := .rejoin 3 0x40 } ∧ t.gid 1 = t.gid 0 ∧
        Bits.bit (without (t.jset 0 3).arr (2 ^ t.lane 0)) (t.lane 1) = true ∧ s.jobsOf 3 [0] = [] := by
  intro p hp
  simp only [List.mem_cons, List.not_mem_nil, or_false] at hp
  rcases hp with rfl | rfl <;>
    exact ⟨formed_of (by decide), ⟨by decide, by decide, by decide⟩, rfl, by decide, by decide, by decide, rfl, rfl,
      by decide, by decide⟩

end Sys2Proof.Tests
end

