-- ==== Sys2Proof/Tests/Slice0.lean ====
section
/-! SUPPORT. Words that the spec prints or that its encoding tables give, ill-formed terms, and single steps on the spec's own
worked values. -/

namespace Sys2Proof.Tests

open Sys2Proof.Machine Sys2Proof.Claims

/-! ### Words and the instructions that they are -/

/-- Whether each list of words decodes to its instruction, to the last word. -/
def decodesTo (l : List (List Nat × Instr)) : Bool := l.all fun p => decide (decode p.1 = .ok (p.2, p.1.length))

/-- An extended form with no field set but the guard `p7`. -/
def xf (ty : Ty) : XForm := XForm.blank ty

/-- Tables 9.8, 11.8, 20.3: base forms. -/
theorem test_decode_base : decodesTo
    [([0x00851870], .addBase { d := 5, a := 6, b := 7, u := false, lit := none }),
     ([0x00C51BFD], .addImmBase { d := 5, a := 6, imm := -3 }),
     ([0x80851800, 0x000186A0, 0], .addBase { d := 5, a := 6, b := 0, u := false, lit := some 100000 }),
     ([0x02031051], .mulhiBase { d := 3, a := 4, b := 5, u := true, lit := none }),
     ([0x05C20805], .shlImmBase { d := 2, a := 2, imm := 5 }),
     ([0x094703FF], .ldiBase 7 (-1) none),
     ([0x18082804], .ldBase { d := 8, pair := 5, off := 4 }),
     ([0x281FFFFD], .brBase { g := 7, off := -3 }),
     ([0x28040005], .brBase { g := 1, off := 5 }),
     ([0x289C0064], .callBase { g := 7, off := 100 }),
     ([0x29000000], .retBase), ([0x29400000], .exitBase), ([0x2E000005], .trapBase 5), ([0x2BC00000], .nopBase)] = true := by
  decide +kernel

/-- Table 11.8: integer and predicate instructions. -/
theorem test_decode_integer : decodesTo
    [([0x40802B80, 0x0A00C016, 0x00C00000], .add { xf .i32 with d := 40, a := 12, b := 5, xa := true, c := 3 }),
     ([0x41003B80, 0x0280C038, 0], .sub { xf .i64 with d := 10, a := 12, b := 14 }),
     ([0x48403380, 0x01807020, 0], .div { xf .n32 with d := 6, a := 7, b := 8 }),
     ([0x48008B80, 0x00402000, 0], .popc { xf .b64 with d := 1, a := 2 }),
     ([0x48802B80, 0x05014014, 2], .lea { xf .i32 with d := 20, a := 20, b := 5, imm := 2 }),
     ([0x48C00580, 0x0240A02C, 0], .sel { xf .b32 with g := 11, d := 9, a := 10, b := 11 }),
     ([0xC9408B80, 0x02000000, 0, 0x89ABCDEF, 0x01234567], .ldi { xf .b64 with d := 8, lit := some 0x0123456789ABCDEF }),
     ([0x49850B80, 0x00C04000, 1], .cvt { xf .i8 with sub := 5, d := 3, a := 4, imm := 1 }),
     ([0x4A022B80, 0x00804014, 0], .cmp { xf .i32 with sub := 2, d := 2, a := 4, b := 5 }),
     ([0x4A830380, 0x0040200C, 0], .pandn { xf .b32 with sub := 3, d := 1, a := 2, b := 3 })] = true := by decide +kernel

/-- Table 12.7: floating-point instructions. -/
theorem test_decode_float : decodesTo
    [([0x0C010830], .faddBase { d := 1, a := 2, b := 3, u := false, lit := none }),
     ([0x0CC41460], .fmaBase { d := 4, a := 5, b := 6, u := false, lit := none }),
     ([0x8C010800, 0x3FC00000, 0], .faddBase { d := 1, a := 2, b := 0, u := false, lit := some 0x3FC00000 }),
     ([0x4CC06380, 0x0200A030, 0x03800000], .fma { xf .f64 with d := 8, a := 10, b := 12, c := 14 }),
     ([0xCD825B80, 0x00C04000, 0, 0x80000000, 0], .fsgn { xf .f32 with sub := 2, d := 3, a := 4, lit := some 0x80000000 }),
     ([0x4DC35B80, 0x00803000, 0], .frnd { xf .f32 with sub := 3, d := 2, a := 3 }),
     ([0x4F805B80, 0x01406000, 0], .fsinr { xf .f32 with d := 5, a := 6 }),
     ([0x4A425B80, 0x0040200C, 0], .fcmp { xf .f32 with sub := 2, d := 1, a := 2, b := 3 }),
     ([0x500B5380, 0x00803000, 1], .fcvt { xf .bf16 with sub := 11, d := 2, a := 3, imm := 1 }),
     ([0x500B6B84, 0x00803000, 8], .fcvt { xf .e4m3 with sub := 11, fs := 1, d := 2, a := 3, imm := 8 }),
     ([0x50408388, 0x0A0000B0, 0], .mxq { xf .e2m1s with fs := 2, d := 40, a := 0, b := 44 }),
     ([0x50818388, 0x000280B0, 0], .mxdq { xf .e2m1s with sub := 1, fs := 2, d := 0, a := 40, b := 44 })] = true := by
  decide +kernel

/-- Table 13.5: lanes and registers. -/
theorem test_decode_lanes : decodesTo
    [([0x54030380, 0x00C04000, 0x21], .shfl { xf .b32 with sub := 3, d := 3, a := 4, imm := 0x21 }),
     ([0x54020380, 0x00C04014, 0], .shfl { xf .b32 with sub := 2, d := 3, a := 4, b := 5 }),
     ([0x54820380, 0x01C02000, 0], .vote { xf .b32 with sub := 2, d := 7, a := 2 }),
     ([0x54C05B80, 0x01807000, 0], .redux { xf .f32 with d := 6, a := 7 }),
     ([0x55000380, 0x02408000, 0], .cdet { xf .b32 with d := 9, a := 8 }),
     ([0x55800380, 0x01C14000, 3], .vget { xf .b32 with d := 7, a := 20, imm := 3 }),
     ([0x55C00380, 0x0001401C, 3], .vput { xf .b32 with a := 20, b := 7, imm := 3 }),
     ([0x56000380, 0x00400000, 4], .xclaim { xf .b32 with d := 1, imm := 4 }),
     ([0x56C10380, 0x00C0A000, 0], .kset { xf .b32 with sub := 1, d := 3, a := 10 }),
     ([0x57000380, 0x00813000, 1], .sysrd { xf .b32 with d := 2, a := 19, imm := 1 }),
     ([0x57008B80, 0x01011000, 0], .sysrd { xf .b64 with d := 4, a := 17 })] = true := by decide +kernel

/-- Tables 9.8 and 10.7: memory. -/
theorem test_decode_memory : decodesTo
    [([0x58001B80, 0x0240A000, 6], .ld { xf .i16 with d := 9, a := 10, imm := 6 }),
     ([0x58408980, 0x00014030, 8], .st { xf .b64 with g := 3, a := 20, b := 12, imm := 8 }),
     ([0x58800380, 0x00C08000, 4], .ldfe { xf .b32 with d := 3, a := 8, imm := 4 }),
     ([0x59870380, 0x00804018, 0x01C00000], .atom { xf .b32 with sub := 7, d := 2, a := 4, b := 6, c := 7 }),
     ([0xD9C02B82, 0x00004000, 0, 0x000F4240, 0], .red { xf .i32 with sc := 2, a := 4, lit := some 1000000 }),
     ([0x59C05D02, 0x00004018, 0x20], .red { xf .f32 with g := 10, sc := 2, a := 4, b := 6, imm := 32 }),
     ([0x5A000380, 0x0040800C, 0x00800000], .waddr { xf .b32 with d := 1, a := 8, b := 3, c := 2 }),
     ([0x5A420380, 0, 0], .fenceCode { xf .b32 with sub := 2 })] = true := by decide +kernel

/-- Table 14.5: the matrix array. -/
theorem test_decode_matrix : decodesTo
    [([0x60008388, 0x00000080, 0], .mma { xf .e2m1s with fs := 2, b := 32 }),
     ([0x60018388, 0x00000050, 0x01000073], .mmaQ { xf .e2m1s with sub := 1, fs := 2, b := 20, c := 4, imm := 0x73 }),
     ([0x60005380, 0x00008078, 5], .mma { xf .bf16 with a := 8, b := 30, imm := 5 }),
     ([0x60408388, 0x000000A0, 1], .mmas { xf .e2m1s with fs := 2, b := 40, imm := 1 }),
     ([0x60800380, 0x00800000, 0x34], .acalloc { xf .b32 with d := 2, imm := 0x34 }),
     ([0x60C00380, 0, 0x34], .acfree { xf .b32 with imm := 0x34 }),
     ([0x61000380, 0x10000000, 3], .acrd { xf .b32 with d := 64, imm := 3 }),
     ([0x61400380, 0x00040000, 3], .acwr { xf .b32 with a := 64, imm := 3 }),
     ([0x61800380, 0, 3], .aczero { xf .b32 with imm := 3 }),
     ([0x61C05384, 0x18000000, 3], .acq { xf .bf16 with fs := 1, d := 96, imm := 3 })] = true := by decide +kernel

/-- Table 15.6: engines, barrier objects, calls, imprints. -/
theorem test_decode_engines : decodesTo
    [([0x64000180, 0x04008000, 0], .cp { xf .b32 with g := 3, d := 16, a := 8 }),
     ([0x64400380, 0x04008000, 0], .cpg { xf .b32 with d := 16, a := 8 }),
     ([0x64800380, 0x04008000, 0], .coll { xf .b32 with d := 16, a := 8 }),
     ([0x64C00380, 0x00410000, 0], .futTest { xf .b32 with d := 1, a := 16 }),
     ([0x64C30380, 0x01410000, 0], .futShr { xf .b32 with sub := 3, d := 5, a := 16 }),
     ([0x65000380, 0x00004018, 0x01C00100], .boInit { xf .b32 with a := 4, b := 6, c := 7, imm := 0x100 }),
     ([0x65030380, 0x00004020, 0x100], .boWait { xf .b32 with sub := 3, a := 4, b := 8, imm := 0x100 }),
     ([0x65400380, 0x000200C0, 0], .ncall { xf .b32 with a := 32, b := 48 }),
     ([0x65800380, 0, 0], .nret (xf .b32)),
     ([0x65C10380, 0x0040A02C, 0x03000000], .impChk { xf .b32 with sub := 1, d := 1, a := 10, b := 11, c := 12 })] = true := by
  decide +kernel

/-- Tables 19.6, 20.3, 22.4: control, barriers, rejoin sets, system instructions, tasks. -/
theorem test_decode_control : decodesTo
    [([0x6A000380, 0x00408000, 0], .jinit { xf .b32 with d := 1, a := 8 }),
     ([0x6A000380, 0x00804002, 0x00C00000], .jinit { xf .b32 with d := 2, a := 4, xa := true, c := 3 }),
     ([0x2AC00C00], .jwaitBase 3),
     ([0x6B010380, 0x01402000, 0], .jread { xf .b32 with sub := 1, d := 5, a := 2 }),
     ([0x6B408B80, 0x05008000, 0], .jsave { xf .b64 with d := 20, a := 8 }),
     ([0x68000500, 0, 0x00030D40], .br { xf .b32 with g := 10, imm := 200000 }),
     ([0x68800380, 0x05000000, 0x003FFFD8], .call { xf .b32 with d := 20, imm := -40 }),
     ([0x6C020380, 0, 0x00040000], .barSync { xf .b32 with sub := 2, imm := 0x40000 }),
     ([0x6C000380, 0x0240001C, 0x00210003], .barArrive { xf .b32 with d := 9, b := 7, imm := 0x210003 }),
     ([0x6E400380, 0x00004000, 0], .rte { xf .b32 with a := 4 }),
     ([0x6E808B80, 0x00006000, 0x00020001], .syswr { xf .b64 with a := 6, imm := 0x20001 }),
     ([0x6F000380, 0, 0], .halt (xf .b32)),
     ([0x6C408B80, 0x00408028, 0], .spawn { xf .b64 with d := 1, a := 8, b := 10 }),
     ([0x6C820380, 0x00006000, 0], .cancqId { xf .b32 with sub := 2, a := 6 }),
     ([0x6CC00380, 0x00C14058, 5], .launch { xf .b32 with d := 3, a := 20, b := 22, imm := 5 })] = true := by decide +kernel

/-- Tables 9.9, 10.8, 11.9, 12.8, 13.6, 14.6, 15.7, 19.7, 20.4, 22.5: words that are no instruction, and the step of R169 that
refuses them. -/
theorem test_decode_refuses : ([([0], 1), ([0x08000000], 2), ([0x00851871], 5), ([0x4C005800, 0, 0], 4), ([0xEF000000, 0, 0, 0, 0], 2),
      ([0x58007B80, 0, 0], 3), ([0x58001B00, 0, 0], 4), ([0xD9879380, 0x00804018, 0, 0, 0], 2), ([0x5A060380, 0, 0], 3),
      ([0x5A430380, 0, 0], 3), ([0x48078B80, 0x00402000, 0], 3), ([0x49850B80, 0x00C04000, 2], 5),
      ([0x4A022B80, 0x02404014, 0], 5), ([0x49405B80, 0x01C00000, 0], 5), ([0x02872051], 5), ([0x4E006380, 0x00803000, 0], 3),
      ([0x500D7380, 0x00803000, 0], 3), ([0x500B5384, 0x00803000, 1], 5), ([0x50408388, 0x0A0000A8, 0], 5),
      ([0x54030380, 0x00C04014, 0x21], 5), ([0x57000380, 0x00811000, 0], 5), ([0x600083A8, 0x80, 0], 3),
      ([0x60800380, 0x00800000, 0x3E], 5), ([0x64C00180, 0x00410000, 0], 4), ([0x65000380, 0x00004019, 0x01C00100], 5),
      ([0x2AC04000], 5), ([0x6AC00380, 0x00001002, 0], 5), ([0x6B400380, 0x05008000, 0], 3), ([0x29410000], 5),
      ([0x6C020380, 0, 0], 5), ([0x6C010380, 0x00009000, 0x00040003], 5), ([0x6CC00380, 0x00C14058, 0x10], 5),
      ([0x2C400000], 2)] : List (List Nat × Nat)).all (fun p =>
    match decode p.1 with | .ok _ => false | .error e => e.step == p.2) = true := by decide +kernel

/-- Tables 15.7, 19.7, 20.4 and 22.5 with R124: a register that is not aligned is named; a job card is checked as the job issues (R111). -/
theorem test_decode_misaligned :
    decode [0x64000380, 0x0400C000, 0] = .ok (.cp { xf .b32 with d := 16, a := 12 }, 3) ∧
    decode [0x6B408B80, 0x05408000, 0] = .error { step := 5, taddr := 21 } ∧
    decode [0x68400380, 0x00009000, 0] = .error { step := 5, taddr := 9 } ∧
    decode [0x6C408B80, 0x00409028, 0] = .error { step := 5, taddr := 9 } := by decide +kernel

/-! ### Ill-formed terms -/

/-- One term for each check of an instruction's form, and one well-formed neighbour. -/
theorem test_wf_refuses :
    ([.addBase { d := 1, a := 2, b := 3, u := false, lit := some 5 },          -- a literal beside operand B
      .addBase { d := 1, a := 2, b := 3, u := true, lit := none },             -- M set where no type is chosen
      .ldiBase 1 3 (some 5),                                                   -- a literal beside IMM10
      .add { xf .f32 with d := 1 },                                            -- a type outside the entry's
      .add { xf .i32 with d := 1, sub := 1 },                                  -- a SUB that is not the entry's
      .add { xf .i32 with d := 1, g := 3 },                                    -- a guard on an unguarded entry
      .add { xf .i32 with d := 1, imm := 1 },                                  -- a reserved field
      .add { xf .i64 with d := 1 },                                            -- an odd register for a pair
      .popc { xf .b32 with lit := some 1 },                                    -- a literal where there is none
      .pand { xf .b32 with d := 8 },                                           -- predicate 8
      .barSync { xf .b32 with sub := 2 },                                      -- an expected count of 0
      .hqdb 64 0, .walkComplete 2 0, .walkComplete 0 4096, .linkTrain 128 true, .clusterPlace 0 0 192,
      .matrixOpComplete 0 4, .teamctlResume 0 0 16, .hostMemRead 32 64, .hostMemWrite 63 [none, none], .cgrptabWrite 1024 0,
      .platenCallDrain 12 0, .fltreplyRetry 8192 0, .tlbinvWhole 64, .tlbinvRange 0 0 4, .powerGateRequest 2] :
      List Instr).all (fun i => !i.wf) = true ∧
    Instr.wf (.add { xf .i32 with d := 1 }) = true ∧ Instr.wf (.hqdb 63 0) = true ∧
    Instr.wf (.addBase { d := 1, a := 2, b := 3, u := false, lit := none }) = true := by decide +kernel

/-! ### Single steps -/

/-- Lane registers `n` of the first `k` lanes after an instruction; 0 where it gives no next state. -/
def lanesAfter (i : Instr) (s : State) (n k : Nat) : List Nat :=
  match exec i s with
  | .next s' => (List.range k).map fun m => ((s'.thread? { team := 3, n := m }).map fun th => (th.v n).toNat).getD 0
  | _ => []

/-- `n` lanes whose registers are those of a list for each lane. -/
def lanesOf (rs : List (Tab Word)) : State :=
  withTeam { teamOf rs.length with threads := rs.zipIdx.map fun p => (p.2, { regs := p.1 }) } (List.range rs.length)

/-- Table 11.6. -/
theorem test_division :
    let s := lanesOf [[(4, 7)], [(4, 0xFFFFFFF9), (5, 2)], [(4, 0x80000000), (5, 0xFFFFFFFF)]]
    let x := fun ty => { xf ty with d := 6, a := 4, b := 5 }
    lanesAfter (.div (x .i32)) s 6 3 = [0xFFFFFFFF, 0xFFFFFFFD, 0x80000000] ∧
    lanesAfter (.rem { x .i32 with sub := 1 }) s 6 3 = [7, 0xFFFFFFFF, 0] ∧
    lanesAfter (.div (x .n32)) s 6 3 = [0xFFFFFFFF, 0x7FFFFFFC, 0] := by decide +kernel

/-- Table 11.7. -/
theorem test_shifts_and_fields :
    let s := fun (f : Word) => lanesOf [[(4, 0xC0000F00), (5, f), (7, 0xFFFFFFFF), (8, 0x80000001), (9, 33), (10, 5)]]
    let sh := { xf .b32 with d := 6, a := 8, b := 9 }
    let fld := fun ty => { xf ty with d := 6, a := 4, b := 5 }
    lanesAfter (.shl sh) (s 0) 6 1 = [0] ∧ lanesAfter (.shr sh) (s 0) 6 1 = [0] ∧
    lanesAfter (.sra sh) (s 0) 6 1 = [0xFFFFFFFF] ∧ lanesAfter (.rol sh) (s 0) 6 1 = [3] ∧
    lanesAfter (.bfe (fld .n32)) (s 0x0408) 6 1 = [15] ∧ lanesAfter (.bfe (fld .i32)) (s 0x0408) 6 1 = [0xFFFFFFFF] ∧
    lanesAfter (.bfe (fld .n32)) (s 0x081E) 6 1 = [3] ∧
    lanesAfter (.bfi { fld .b32 with a := 10, c := 7 }) (s 0x0304) 6 1 = [0xFFFFFFDF] := by decide +kernel

/-- Table 12.6: `.rn`, saturating, and toward zero. -/
theorem test_narrow_conversion :
    let s := lanesOf [[(3, 0x43960000)], [(3, 0x43E10000)], [(3, 0x43EB0000)], [(3, 0x3A83126F)], [(3, 0x80000000)],
      [(3, 0x7FA00000)]]
    let x := fun m => Instr.fcvt { xf .e4m3 with sub := 11, d := 2, a := 3, imm := m }
    lanesAfter (x 0) s 2 6 = [0x79, 0x7E, 0x7F, 0x01, 0x80, 0x7F] ∧
    lanesAfter (x 4) s 2 6 = [0x79, 0x7E, 0x7E, 0x01, 0x80, 0x7F] ∧
    lanesAfter (x 1) s 2 6 = [0x79, 0x7E, 0x7E, 0x00, 0x80, 0x7F] := by decide +kernel

/-- Table 13.3. -/
theorem test_collectives :
    let s := lanesOf (([(3, 0x3F800000), (5, 0x40000000), (3, 0x40400000), (3, 0x40800000), (7, 0x40A00000), (5, 0x40C00000),
      (1, 0x40E00000), (7, 0x41000000)] : List (Word × Word)).zipIdx.map fun p =>
        (4, p.1.1) :: (6, p.1.2) :: if p.2 = 0 then [(13, 9)] else [])
    let x := { xf .b32 with d := 9, a := 4 }
    lanesAfter (.cdet x) s 9 8 = [0, 0, 1, 5, 0, 2, 0, 0x10] ∧
    lanesAfter (.matchV { x with sub := 0 }) s 9 8 = [0xD, 0x22, 0xD, 0xD, 0x90, 0x22, 0x40, 0x90] ∧
    lanesAfter (.redux { xf .f32 with d := 11, a := 6 }) s 11 8 = List.replicate 8 0x42100000 ∧
    lanesAfter (.shfl { xf .b32 with d := 12, a := 6, b := 13 }) s 12 8 = List.replicate 8 0x3F800000 := by decide +kernel

/-- R207: what `pget` reads of no predicate set. -/
theorem test_predicates_read : lanesAfter (.pget { xf .b32 with d := 5 }) solo 5 1 = [0x80] := by decide

end Sys2Proof.Tests
end

/-! Predicates as a mask (R207): what writing one predicate changes, what `pset` leaves of each predicate and what `pget`
reads, and from these the statement about both instructions. -/

namespace Sys2Proof.Proofs.PredicateMasks

open Sys2Proof Sys2Proof.Machine Sys2Proof.Claims Sys2Proof.Laws.Completes

/-! ### One bit of a number -/

/-- Exchanging bit `n` leaves the bits below it and the bits above it where they are. -/
theorem replaceBit_eq (v n : Nat) (b : Bool) :
    v - Bits.field v n 1 * 2 ^ n + b.toNat * 2 ^ n = 2 ^ n * Nat.bit b (v / 2 ^ (n + 1)) + v % 2 ^ n := by
  have hlow : 2 ^ n * (v / 2 ^ n) + v % 2 ^ n = v := Nat.div_add_mod v (2 ^ n)
  have hhigh : 2 * (v / 2 ^ (n + 1)) + v / 2 ^ n % 2 = v / 2 ^ n := by
    rw [Nat.pow_succ, ← Nat.div_div_eq_div_mul, Nat.div_add_mod]
  have hsplit : v = 2 ^ n * (2 * (v / 2 ^ (n + 1))) + v / 2 ^ n % 2 * 2 ^ n + v % 2 ^ n := by
    rw [Nat.mul_comm (v / 2 ^ n % 2), ← Nat.mul_add, hhigh, hlow]
  have hbit : 2 ^ n * Nat.bit b (v / 2 ^ (n + 1)) = 2 ^ n * (2 * (v / 2 ^ (n + 1))) + b.toNat * 2 ^ n := by
    rw [Nat.bit_val, Nat.mul_add, Nat.mul_comm b.toNat]
  rw [hbit, Bits.field, Nat.pow_one]
  omega

theorem testBit_replaceBit (v n i : Nat) (b : Bool) :
    (v - Bits.field v n 1 * 2 ^ n + b.toNat * 2 ^ n).testBit i = if i = n then b else v.testBit i := by
  rw [replaceBit_eq, Nat.testBit_two_pow_mul_add _ (Nat.mod_lt v (Nat.two_pow_pos n))]
  rcases Nat.lt_trichotomy i n with hlt | rfl | hgt
  · simp [hlt, hlt.ne, Nat.testBit_mod_two_pow]
  · simp
  · obtain ⟨j, rfl⟩ := Nat.exists_eq_add_of_lt hgt
    rw [if_neg (by omega), if_neg (by omega), show n + j + 1 - n = j + 1 by omega, Nat.testBit_bit_succ,
      Nat.testBit_div_two_pow]
    congr 1
    omega

/-! ### Predicates -/

/-- `p0` to `p6` are the bits of the predicate register (R134). -/
theorem p_eq_testBit (th : Thread) {i : Nat} (h : i < 7) : th.p i = th.preds.toNat.testBit i := by
  simp [Thread.p, h.ne, Bits.bit_eq_testBit]

theorem p_setP (th : Thread) {n i : Nat} (b : Bool) (hn : n < 7) (hi : i < 7) :
    (th.setP n b).p i = if i = n then b else th.p i := by
  rw [p_eq_testBit _ hi, p_eq_testBit _ hi, Thread.setP, if_pos hn, BitVec.toNat_ofNat, Nat.testBit_mod_two_pow,
    testBit_replaceBit]
  simp [hi]

/-- The writes of `pset` for the predicates listed (R207). -/
def setListed (v mask : Nat) (ns : List Nat) (th : Thread) : Thread :=
  ns.foldl (fun th i => if Bits.bit mask i then th.setP i (Bits.bit v i) else th) th

theorem setPreds_eq_setListed (th : Thread) (v mask : Nat) : th.setPreds v mask = setListed v mask (List.range 7) th := rfl

theorem p_setListed (v mask : Nat) {i : Nat} (hi : i < 7) (ns : List Nat) (hns : ∀ n ∈ ns, n < 7) (th : Thread) :
    (setListed v mask ns th).p i = if i ∈ ns ∧ Bits.bit mask i then Bits.bit v i else th.p i := by
  induction ns generalizing th with
  | nil => simp [setListed]
  | cons n ns ih =>
    have hn : n < 7 := hns n List.mem_cons_self
    have hrest := ih fun m hm => hns m (List.mem_cons_of_mem n hm)
    rw [setListed, List.foldl_cons, ← setListed, hrest]
    by_cases hm : Bits.bit mask n
    · rw [if_pos hm, p_setP th _ hn hi]
      by_cases hin : i = n
      · subst hin; simp [hm]
      · simp [hin]
    · rw [if_neg hm]
      by_cases hin : i = n
      · subst hin; simp [hm]
      · simp [hin]

/-- `pset` changes predicates and nothing else. -/
theorem setListed_rest (v mask : Nat) (ns : List Nat) (th : Thread) :
    { setListed v mask ns th with preds := th.preds } = th := by
  induction ns generalizing th with
  | nil => rfl
  | cons n ns ih =>
    rw [setListed, List.foldl_cons, ← setListed]
    split
    · have hrest := congrArg (fun u : Thread => { u with preds := th.preds }) (ih (th.setP n (Bits.bit v n)))
      exact hrest.trans (setP_rest th n _)
    · exact ih th

theorem p_setPreds (th : Thread) (v mask : Nat) {i : Nat} (hi : i < 7) :
    (th.setPreds v mask).p i = if Bits.bit mask i then Bits.bit v i else th.p i := by
  rw [setPreds_eq_setListed, p_setListed v mask hi _ fun n => List.mem_range.1]
  simp [hi]

/-- The mask that `pget` reads: bit i is P(t,i) for the eight predicates, and nothing stands above them (R207). -/
theorem testBit_predBits (th : Thread) (i : Nat) : th.predBits.testBit i = (decide (i < 8) && th.p i) := by
  rw [Thread.predBits, Nat.add_comm, ← Nat.mul_one (2 ^ 7), Nat.testBit_two_pow_mul_add _ th.preds.isLt]
  rcases Nat.lt_trichotomy i 7 with hlt | rfl | hgt
  · rw [if_pos hlt, p_eq_testBit th hlt]
    simp [show i < 8 by omega]
  · rw [p_p7]
    rfl
  · obtain ⟨j, rfl⟩ := Nat.exists_eq_add_of_lt hgt
    rw [if_neg (by omega), show 7 + j + 1 - 7 = j + 1 by omega, Nat.testBit_add_one]
    simp

theorem predBits_lt (th : Thread) : th.predBits < 2 ^ 32 := by
  have := th.preds.isLt
  unfold Thread.predBits
  omega

/-! ### The instructions -/

theorem operands_none (c : View) (o : XOp) (x : XForm) : c.operands o x 0 0 0 = .ok {} := by
  simp [View.operands, regSpan, pure, bind, Except.pure, Except.bind]

/-- `pget` computes from no operand: it writes the mask of the thread's own predicates to D. -/
theorem exec_pget (x : XForm) : exec (.pget x) = fun s => execSeq x.words none
    (computeLane .pget x 0 0 0 (destOf x 1) (fun th _ => th.setV x.d.toNat th.predBits) fun _ _ _ => 0) s := by
  have hlane : computeLane .pget x 0 0 0 (destOf x 1) (fun th _ => th.setV x.d.toNat th.predBits) (fun _ _ _ => 0) =
      fun s c => do
        c.dests [x.d.toNat]
        let s ← s.claimRegs c [] [x.d.toNat]
        return s.modThread c.id fun th => th.setV x.d.toNat th.predBits := by
    funext s c
    rw [computeLane, operands_none]
    rfl
  rw [hlane]
  rfl

/-- What `pget` leaves of a thread (R207). -/
def pgetEffect (x : XForm) (c : View) : Thread := c.th.setV x.d.toNat c.th.predBits

/-- What `pset` leaves of a thread (R207). -/
def psetEffect (x : XForm) (c : View) : Thread := c.th.setPreds (c.th.vs (regsOf c .pset x 1 0 0).a 1) x.imm.toNat

theorem pget_completes (x : XForm) :
    Completes (.pget x) x.words (Usable .pget x 0 0 0 (destOf x 1)) fun _ => pgetEffect x :=
  computes_of (.pget x) .pget x x.words 0 0 0 (destOf x 1) (fun _ c _ _ _ => pgetEffect x c) _ (fun _ _ _ _ => 0)
    (exec_pget x) fun _ _ _ _ _ => rfl

theorem pset_completes (x : XForm) :
    Completes (.pset x) x.words (Usable .pset x 1 0 0 []) fun _ => psetEffect x :=
  computes_of (.pset x) .pset x x.words 1 0 0 [] (fun _ c a _ _ => c.th.setPreds a x.imm.toNat) _ (fun _ a _ _ => a)
    rfl fun _ _ _ _ _ => rfl

/-- The register that `pget` writes holds the mask. -/
theorem v_pgetEffect (x : XForm) (c : View) : (pgetEffect x c).v x.d.toNat = BitVec.ofNat 32 c.th.predBits := by
  rw [pgetEffect, v_setV, if_pos rfl]

/-- Settles O5: both instructions complete with the effects above, whose bits and predicates are those of R207. -/
theorem predicateMasks : Obligations.PredicateMasks := by
  unfold Obligations.PredicateMasks
  refine ⟨fun x => ⟨pgetEffect x, pget_completes x, fun c => ⟨fun i hi => ?bits, ?register⟩⟩,
    fun x => ⟨psetEffect x, pset_completes x, fun c => ⟨fun i hi => ?preds, ?rest⟩⟩⟩
  case bits => rw [v_pgetEffect, BitVec.getLsbD_ofNat, testBit_predBits, decide_eq_true hi, Bool.true_and]
  case register => rw [v_pgetEffect, BitVec.toNat_ofNat, Nat.mod_eq_of_lt (predBits_lt c.th), pgetEffect]
  case preds => exact p_setPreds c.th _ _ hi
  case rest => exact setListed_rest _ _ _ c.th

end Sys2Proof.Proofs.PredicateMasks

/-! `nop` (R331): what becomes of an issue group when the lanes of its instruction leave the state alone, and from it the
statement about both forms. -/

namespace Sys2Proof.Proofs.NopOnlyAdvances

open Sys2Proof Sys2Proof.Machine Sys2Proof.Claims

/-- An unguarded lane that leaves the state alone only moves its thread to NextPC (R175). -/
theorem runLane_unchanging {next : Nat} {s : State} {i : Tid} {th : Thread} (hth : s.thread? i = some th) :
    runLane next none (fun s _ => .ok (s, next)) s i = s.modThread i fun th => Thread.at th next := by
  obtain ⟨t, hteam, hfind⟩ := Option.bind_eq_some_iff.1 hth
  exact runLane_ok next none _ s i _ s next (view_eq s i t th hteam hfind) rfl rfl

/-- An instruction whose lanes leave the state alone completes for every thread, whatever its registers hold. It goes by
`runLanes_each`, not by `completes_of`: that asks for a lane written as a change of its thread, and to change a thread into
itself is the identity only where the tables are sorted. -/
theorem completes_unchanging (i : Instr) (words : Nat) (he : exec i = execSeq words none fun s _ => .ok s) :
    Completes i words (fun _ _ => True) fun _ c => c.th := by
  intro s ig t ⟨hig, hteam, hnodup, hlisted⟩ _
  have hthread : ∀ n, s.thread? { team := ig.team, n } = Tab.find n t.threads := fun n => by
    simp [State.thread?, hteam]
  obtain ⟨hgroup, hothers, hbodies, hrest⟩ :=
    runLanes_each (nextPc ig words) none (fun s _ => .ok (s, nextPc ig words)) s ig.team ig.threads
      (fun _ th => Thread.at th (nextPc ig words)) hnodup fun s1 n hn _ hsame => by
        obtain ⟨th, hth⟩ := hlisted n hn
        exact runLane_unchanging (hsame.trans ((hthread n).trans hth))
  refine ⟨_, he ▸ execLanes_next words none _ s ig hig, fun n hn th hth => ?_, hothers, hbodies, hrest⟩
  have hmoved := hgroup n hn
  rw [hthread, hth] at hmoved
  exact hmoved

theorem nop_completes (x : XForm) : Completes (.nop x) x.words (fun _ _ => True) fun _ c => c.th :=
  completes_unchanging (.nop x) x.words rfl

theorem nopBase_completes : Completes .nopBase 1 (fun _ _ => True) fun _ c => c.th :=
  completes_unchanging .nopBase 1 rfl

/-- Opcode 0xAF over 22 bits that are 0 (R331). -/
theorem encode_nopBase : encode .nopBase = [0x2BC00000] := rfl

/-- Settles O10: the lanes of both forms leave the state alone. -/
theorem nopOnlyAdvances : Obligations.NopOnlyAdvances := by
  unfold Obligations.NopOnlyAdvances
  exact ⟨nop_completes, nopBase_completes, encode_nopBase⟩

end Sys2Proof.Proofs.NopOnlyAdvances

/-! Decoding and encoding (R157 to R169): the fields that the decoder reads from packed words are those that the encoder
packed, every operation is found again by its OP and SUB, and from these the round trip. -/

namespace Sys2Proof.Proofs.DecodeEncode

open Sys2Proof

/-! ### Words of the extended form -/

/-- Word 0 of the extended form (Table 9.4). -/
def headX (len op : Nat) (x : XForm) : Nat :=
  len * 2 ^ 30 + op * 2 ^ 22 + x.sub.toNat * 2 ^ 16 + x.ty.code * 2 ^ 11 + x.g.toNat * 2 ^ 7 + x.h.toNat * 2 ^ 5
    + x.fs.toNat * 2 ^ 2 + x.sc.toNat

/-- Word 1 of the extended form (Table 9.4). -/
def registersX (x : XForm) : Nat :=
  x.d.toNat * 2 ^ 22 + x.a.toNat * 2 ^ 12 + x.b.toNat * 2 ^ 2 + x.xa.toNat * 2 + x.xb.toNat

/-- Word 2 of the extended form (Table 9.4). -/
def immediateX (x : XForm) : Nat := x.c.toNat * 2 ^ 22 + x.imm.toNat

/-- The LEN field of an extended form (Table 9.1). -/
def lenX (x : XForm) : Nat := if x.lit.isSome then 3 else 1

theorem encodeX_eq (o : XOp) (x : XForm) :
    encodeX o x = [headX (lenX x) o.opcode x, registersX x, immediateX x] ++ (x.lit.map litWords).getD [] := rfl

theorem code_lt (ty : Ty) : ty.code < 32 := by cases ty <;> decide

theorem ofCode_code (ty : Ty) : Ty.ofCode ty.code = some ty := by cases ty <;> rfl

theorem opcode_lt (o : XOp) : o.opcode < 256 := by cases o <;> decide

section
variable (x : XForm) {len op : Nat} (hop : op < 256) (hlen : len < 4)
include hop

theorem wordLen_headX (hlen : len < 4) : wordLen (headX len op x) = len := by
  have := code_lt x.ty
  simp only [wordLen, Bits.field, headX]
  omega

theorem wordOp_headX : wordOp (headX len op x) = op := by
  have := code_lt x.ty
  simp only [wordOp, Bits.field, headX]
  omega

end

theorem wordSub_headX (x : XForm) (len op : Nat) : wordSub (headX len op x) = x.sub.toNat := by
  have := code_lt x.ty
  simp only [wordSub, Bits.field, headX]
  omega


/-- Whether word 0 carries the fields of an extended form. -/
def IsHead (w0 : Nat) (x : XForm) : Prop :=
  Bits.field w0 11 5 = x.ty.code ∧ Bits.field w0 16 6 = x.sub.toNat ∧ Bits.field w0 7 4 = x.g.toNat ∧
    Bits.field w0 5 2 = x.h.toNat ∧ Bits.field w0 2 3 = x.fs.toNat ∧ Bits.field w0 0 2 = x.sc.toNat

/-- Whether word 1 carries them. -/
def IsRegisters (w1 : Nat) (x : XForm) : Prop :=
  Bits.field w1 22 10 = x.d.toNat ∧ Bits.field w1 12 10 = x.a.toNat ∧ Bits.field w1 2 10 = x.b.toNat ∧
    Bits.bit w1 1 = x.xa ∧ Bits.bit w1 0 = x.xb

/-- Whether word 2 carries them. -/
def IsImmediate (w2 : Nat) (x : XForm) : Prop :=
  Bits.field w2 22 10 = x.c.toNat ∧ Bits.field w2 0 22 = x.imm.toNat

theorem isHead_headX (x : XForm) (len op : Nat) : IsHead (headX len op x) x := by
  have hty := code_lt x.ty
  simp only [IsHead, Bits.field, headX]
  refine ⟨?_, ?_, ?_, ?_, ?_, ?_⟩ <;> omega

theorem bit_of_mod {v n : Nat} {b : Bool} (h : v / 2 ^ n % 2 = b.toNat) : Bits.bit v n = b := by
  rw [Bits.bit, h]
  cases b <;> rfl

theorem isRegisters_registersX (x : XForm) : IsRegisters (registersX x) x := by
  have hxa := x.xa.toNat_lt
  have hxb := x.xb.toNat_lt
  refine ⟨?_, ?_, ?_, bit_of_mod ?_, bit_of_mod ?_⟩ <;> simp only [Bits.field, registersX] <;> omega

theorem isImmediate_immediateX (x : XForm) : IsImmediate (immediateX x) x := by
  constructor <;> simp only [Bits.field, immediateX] <;> omega

/-- Words that carry the fields of a form are read as that form. -/
theorem fieldsX_of {w0 w1 w2 : Nat} {x : XForm} (h0 : IsHead w0 x) (h1 : IsRegisters w1 x) (h2 : IsImmediate w2 x) :
    fieldsX w0 w1 w2 x.lit = some x := by
  obtain ⟨hcode, hsub, hg, hh, hfs, hsc⟩ := h0
  obtain ⟨hd, ha, hb, hxa, hxb⟩ := h1
  obtain ⟨hc, himm⟩ := h2
  simp only [fieldsX, hcode, ofCode_code, hsub, hg, hh, hfs, hsc, hd, ha, hb, hxa, hxb, hc, himm,
    BitVec.ofNat_toNat, BitVec.setWidth_eq]

/-- The fields that the decoder reads are those that the encoder packed. -/
theorem fieldsX_encode (x : XForm) (len op : Nat) :
    fieldsX (headX len op x) (registersX x) (immediateX x) x.lit = some x :=
  fieldsX_of (isHead_headX x len op) (isRegisters_registersX x) (isImmediate_immediateX x)

/-! ### Operations -/

theorem opReserved_opcode (o : XOp) : opReserved o.opcode = false := by cases o <;> rfl

/-- Without a literal the length of the extended form is admitted for every operation (Table 9.6). -/
theorem lenAllowed_one (o : XOp) (sub : Nat) : lenAllowed o.opcode sub 1 = true := by
  cases o <;> simp [lenAllowed, XOp.opcode, oddInt, evenInt]

/-- The operations whose operand B may be a literal (Table 9.6). -/
def takesLiteral : XOp → Bool
  | .add | .sub | .mul | .mulhi | .mad | .minI | .maxI | .bitAnd | .bitOr | .bitXor | .shl | .shr | .sra | .rol | .bfe | .bfi
  | .div | .rem | .lea | .sel | .ldi | .cmp | .fadd | .fsub | .fmul | .fma | .fmin | .fmax | .fsgn | .fdiv | .fcmp | .atom
  | .red => true
  | _ => false

theorem use_lit (o : XOp) (sub : Nat) : (o.use sub).lit = takesLiteral o := by
  cases o <;> simp only [XOp.use] <;> (try split_ifs) <;> rfl

/-- With a literal it is admitted where the operation takes one (Table 9.6). -/
theorem lenAllowed_three (o : XOp) (sub : Nat) (hlit : takesLiteral o = true) (hsub : o.subOk sub = true) :
    lenAllowed o.opcode sub 3 = true := by
  cases o <;> simp_all [lenAllowed, XOp.opcode, oddInt, evenInt, takesLiteral, XOp.subOk]

theorem lenAllowed_lenX {o : XOp} {x : XForm} (hlit : o.litOk x = true) (hsub : o.subOk x.sub.toNat = true) :
    lenAllowed o.opcode x.sub.toNat (lenX x) = true := by
  unfold lenX
  cases hl : x.lit with
  | none => exact lenAllowed_one o _
  | some l =>
    have htakes : (o.use x.sub.toNat).lit = true := by
      simp only [XOp.litOk, hl, Bool.and_eq_true] at hlit
      exact hlit.1
    exact lenAllowed_three o _ (use_lit o _ ▸ htakes) hsub

/-- A form that no check refuses has an admitted literal and SUB (checks 2 and 3 of R169). -/
theorem ok_of_refuse {o : XOp} {x : XForm} (h : o.refuse x = none) : o.litOk x = true ∧ o.subOk x.sub.toNat = true := by
  simp only [XOp.refuse] at h
  split at h
  · cases h
  next hlit =>
    split at h
    · cases h
    next hfields =>
      simp only [Bool.not_eq_true', Bool.not_eq_false, Bool.or_eq_true, not_or] at hlit hfields
      exact ⟨hlit, hfields.1.1.1.1⟩

theorem literalOf_litWords (l : DWord) : literalOf (l.toNat % 2 ^ 32) (l.toNat / 2 ^ 32) = l := by
  rw [literalOf, Nat.mod_mod, Nat.mod_add_div, BitVec.ofNat_toNat, BitVec.setWidth_eq]

/-- The instruction of an extended form is the one that has it. -/
theorem ofX_of_toX {i : Instr} {o : XOp} {x : XForm} (h : i.toX = some (o, x)) : Instr.ofX o x = i := by
  cases i <;> simp only [Instr.toX, Option.some.injEq, Prod.mk.injEq, reduceCtorEq] at h <;> obtain ⟨rfl, rfl⟩ := h <;> rfl

theorem lenWords_lenX (o : XOp) (x : XForm) : lenWords (lenX x) = (encodeX o x).length := by
  cases hl : x.lit <;> simp [lenX, encodeX, hl, lenWords, litWords]

/-- The words of an extended form that no check refuses decode to its instruction. -/
theorem decode_encodeX (o : XOp) (x : XForm) (hwf : x.wf o = true) (rest : List Nat) :
    decode (encodeX o x ++ rest) = .ok (Instr.ofX o x, (encodeX o x).length) := by
  obtain ⟨hnone, hop⟩ : o.refuse x = none ∧ XOp.ofOp o.opcode x.sub.toNat = some o := by simpa [XForm.wf] using hwf
  obtain ⟨hlit, hsub⟩ := ok_of_refuse hnone
  have hlen : lenX x = 1 ∨ lenX x = 3 := by unfold lenX; split <;> simp
  have hfields : fieldsX (headX (lenX x) o.opcode x) (registersX x) (immediateX x)
      (if lenX x = 3 then some (literalOf ((encodeX o x ++ rest).getD 3 0) ((encodeX o x ++ rest).getD 4 0)) else none) =
        some x := by
    rw [← fieldsX_encode x (lenX x) o.opcode]
    congr 1
    cases hl : x.lit with
    | none => simp [lenX, hl]
    | some l => simpa [lenX, hl, encodeX, litWords] using literalOf_litWords l
  have h0 : (encodeX o x ++ rest).getD 0 0 = headX (lenX x) o.opcode x := rfl
  have h1 : (encodeX o x ++ rest).getD 1 0 = registersX x := rfl
  have h2 : (encodeX o x ++ rest).getD 2 0 = immediateX x := rfl
  have hlen4 : lenX x < 4 := by omega
  simp only [decode, h0, h1, h2, hfields, wordOp_headX x (opcode_lt o), wordLen_headX x (opcode_lt o) hlen4, wordSub_headX,
    opReserved_opcode, lenAllowed_lenX hlit hsub, hop, hnone, lenWords_lenX o x]
  rw [if_neg (by simp), if_neg (by simp), if_neg (by omega)]

/-! ### Base forms -/

/-- Word 0 of a base form (Table 9.1). -/
def headBase (op low : Nat) (lit : Option DWord) : Nat := (if lit.isSome then 2 else 0) * 2 ^ 30 + op * 2 ^ 22 + low

section
variable {op low : Nat} (lit : Option DWord) (hop : op < 256) (hlow : low < 2 ^ 22)
include hop hlow

theorem wordOp_headBase : wordOp (headBase op low lit) = op := by
  simp only [wordOp, Bits.field, headBase]
  omega

theorem wordLen_headBase : wordLen (headBase op low lit) = if lit.isSome then 2 else 0 := by
  simp only [wordLen, Bits.field, headBase]
  split <;> omega

end

/-- The low 22 bits of a base form's word 0 are the fields of its layout. -/
theorem field_headBase (op low : Nat) (lit : Option DWord) {lo w : Nat} (h : lo + w ≤ 22) :
    Bits.field (headBase op low lit) lo w = Bits.field low lo w := by
  obtain ⟨k, hk⟩ := Nat.exists_eq_add_of_le h
  have hhead : headBase op low lit = low + 2 ^ lo * (2 ^ w * (2 ^ k * ((if lit.isSome then 2 else 0) * 2 ^ 8 + op))) := by
    rw [← Nat.mul_assoc, ← Nat.mul_assoc, ← Nat.pow_add, ← Nat.pow_add, ← hk, headBase]
    ring
  rw [Bits.field, Bits.field, hhead, Nat.add_mul_div_left _ _ (Nat.two_pow_pos lo), Nat.add_mul_mod_self_left]

/-- Where word 0 decodes as a base form, so do the words. -/
theorem decode_encodeBase {op low : Nat} {lit : Option DWord} {i : Instr} (hop : op < 256) (hlow : low < 2 ^ 22)
    (hres : opReserved op = false) (hlen : ∀ sub, lenAllowed op sub (if lit.isSome then 2 else 0) = true)
    (hi : decodeBase (headBase op low lit) lit = some i) (rest : List Nat) :
    decode (encodeBase op low lit ++ rest) = .ok (i, (encodeBase op low lit).length) := by
  have hwords : (if (if lit.isSome then 2 else 0) = 2 then
      some (literalOf ((encodeBase op low lit ++ rest).getD 1 0) ((encodeBase op low lit ++ rest).getD 2 0)) else none) =
        lit := by
    cases lit with
    | none => rfl
    | some l => simpa [encodeBase, litWords] using literalOf_litWords l
  have h0 : (encodeBase op low lit ++ rest).getD 0 0 = headBase op low lit := rfl
  have hcount : lenWords (if lit.isSome then 2 else 0) = (encodeBase op low lit).length := by cases lit <;> rfl
  have hbase : (if lit.isSome then 2 else 0) = 0 ∨ (if lit.isSome then 2 else 0) = 2 := by split <;> simp
  simp only [decode, h0, hwords, wordOp_headBase lit hop hlow, wordLen_headBase lit hop hlow, hres, hlen, hi, hcount,
    if_pos hbase]
  rfl


/-! #### Layouts (Table 9.2) -/

section
variable (op : Nat) (lit : Option DWord) (d a b : BitVec 6)

theorem packB3_lt {m : Nat} (hm : m < 16) : packB3 d a b m < 2 ^ 22 := by
  unfold packB3
  omega

theorem packBI_lt (imm : BitVec 10) : packBI d a imm < 2 ^ 22 := by
  unfold packBI
  omega

theorem ofNat_eq_of_field {n v : Nat} {x : BitVec n} (h : v = x.toNat) : BitVec.ofNat n v = x := by
  rw [h, BitVec.ofNat_toNat, BitVec.setWidth_eq]

theorem fields_packB3 {m : Nat} (hm : m < 16) :
    baseD (headBase op (packB3 d a b m) lit) = d ∧ baseA (headBase op (packB3 d a b m) lit) = a ∧
      baseB (headBase op (packB3 d a b m) lit) = b ∧ baseM (headBase op (packB3 d a b m) lit) = m := by
  refine ⟨ofNat_eq_of_field ?_, ofNat_eq_of_field ?_, ofNat_eq_of_field ?_, ?_⟩
  case refine_4 => rw [baseM, field_headBase _ _ _ (by decide), packB3, Bits.field]; omega
  all_goals
    rw [field_headBase _ _ _ (by decide), packB3, Bits.field]
    omega

theorem fields_packBI (imm : BitVec 10) :
    baseD (headBase op (packBI d a imm) lit) = d ∧ baseA (headBase op (packBI d a imm) lit) = a ∧
      baseImm (headBase op (packBI d a imm) lit) = imm := by
  refine ⟨ofNat_eq_of_field ?_, ofNat_eq_of_field ?_, ofNat_eq_of_field ?_⟩
  all_goals
    rw [field_headBase _ _ _ (by decide), packBI, Bits.field]
    omega

end

/-- A base form of layout B3 of an even integer OP. -/
theorem decode_intB3 {op : Nat} {f : B3} {i : Instr} (heven : evenInt op = true) (hi : intB3 ((op - 2) / 2) f = some i)
    (hwf : f.wf (typedB3 ((op - 2) / 2)) = true) (rest : List Nat) :
    decode (encodeB3 op f ++ rest) = .ok (i, (encodeB3 op f).length) := by
  obtain ⟨hlit, htyped⟩ : f.litOk = true ∧ (typedB3 ((op - 2) / 2) || !f.u) = true := by simpa [B3.wf] using hwf
  obtain ⟨⟨hmod, hlo⟩, hhi⟩ : (op % 2 = 0 ∧ 2 ≤ op) ∧ op ≤ 28 := by simpa [evenInt] using heven
  have hu := f.u.toNat_lt
  have hlow := packB3_lt f.d f.a f.b (m := f.u.toNat) (by omega)
  obtain ⟨hd, ha, hb, hm⟩ := fields_packB3 op f.lit f.d f.a f.b (m := f.u.toNat) (by omega)
  refine decode_encodeBase (by omega) hlow ?_ ?_ ?_ rest
  · simp [opReserved, hlo, show op ≤ 38 by omega]
  · intro sub
    have hodd : oddInt op = false := by simp [oddInt, hmod]
    rw [lenAllowed, hodd, heven]
    cases f.lit <;> rfl
  · have hM : (f.u.toNat == 0 || (f.u.toNat == 1 && typedB3 ((op - 2) / 2))) = true := by
      cases hfu : f.u <;> simp_all
    have hB3 : ({ d := f.d, a := f.a, b := f.b, u := f.u.toNat == 1, lit := f.lit } : B3) = f := by
      cases f with | mk d a b u lit => cases u <;> rfl
    have hlit' : (f.lit.isNone || f.b == 0) = true := hlit
    simp only [decodeBase, wordOp_headBase f.lit (show op < 256 by omega) hlow, hd, ha, hb, hm, heven, hlit', hM, hB3, hi,
      if_true, Bool.and_self]

/-- A base form of layout BI of an odd integer OP. -/
theorem decode_intBI {op : Nat} {f : BI} {i : Instr} (hodd : oddInt op = true) (hi : intBI ((op - 3) / 2) f = some i)
    (rest : List Nat) : decode (encodeBI op f ++ rest) = .ok (i, (encodeBI op f).length) := by
  obtain ⟨⟨hmod, hlo⟩, hhi⟩ : (op % 2 = 1 ∧ 3 ≤ op) ∧ op ≤ 29 := by simpa [oddInt] using hodd
  have hlow := packBI_lt f.d f.a f.imm
  obtain ⟨hd, ha, himm⟩ := fields_packBI op none f.d f.a f.imm
  refine decode_encodeBase (by omega) hlow ?_ ?_ ?_ rest
  · simp [opReserved, show 2 ≤ op by omega, show op ≤ 38 by omega]
  · intro sub
    rw [lenAllowed, hodd]
    rfl
  · have heven : evenInt op = false := by simp [evenInt, hmod]
    simp only [decodeBase, wordOp_headBase none (show op < 256 by omega) hlow, hd, ha, himm, hodd, heven, hi, if_true,
      Bool.false_eq_true, if_false]

/-- A base form of layout B3 of a float OP. -/
theorem decode_floatB3 {op : Nat} {f : B3} {i : Instr} (hlo : 0x30 ≤ op) (hhi : op ≤ 0x35)
    (hi : floatB3 (op - 0x30) f = some i) (hwf : f.wf false = true) (rest : List Nat) :
    decode (encodeB3 op f ++ rest) = .ok (i, (encodeB3 op f).length) := by
  obtain ⟨hlit, hu⟩ : f.litOk = true ∧ f.u = false := by simpa [B3.wf] using hwf
  have hlow := packB3_lt f.d f.a f.b (m := 0) (by decide)
  obtain ⟨hd, ha, hb, hm⟩ := fields_packB3 op f.lit f.d f.a f.b (m := 0) (by decide)
  have heven : evenInt op = false := by simp [evenInt, show ¬op ≤ 28 by omega]
  have hodd : oddInt op = false := by simp [oddInt, show ¬op ≤ 29 by omega]
  rw [encodeB3, show f.u.toNat = 0 by rw [hu]; rfl]
  refine decode_encodeBase (by omega) hlow ?_ ?_ ?_ rest
  · simp [opReserved, hlo, show op ≤ 66 by omega]
  · intro sub
    cases f.lit <;> simp [lenAllowed, hodd, heven, hlo, hhi]
  · have hB3 : ({ d := f.d, a := f.a, b := f.b, u := false, lit := f.lit } : B3) = f := by rw [← hu]
    have hlit' : (f.lit.isNone || f.b == 0) = true := hlit
    simp only [decodeBase, wordOp_headBase f.lit (show op < 256 by omega) hlow, hd, ha, hb, hm, heven, hodd, hlit', hB3,
      hi, show op ≠ 0x24 by omega, show op ≠ 0x25 by omega, hlo, hhi, if_true, and_self, Bool.false_eq_true, if_false,
      beq_self_eq_true, Bool.and_self]

/-- A base form of layout BM: the address register is the even one of its pair. -/
theorem decode_encodeBM {op : Nat} {f : BM} {i : Instr} (hop : op = 0x60 ∨ op = 0x61)
    (hi : i = if op = 0x60 then .ldBase f else .stBase f) (rest : List Nat) :
    decode (encodeBM op f ++ rest) = .ok (i, (encodeBM op f).length) := by
  have hlow := packBI_lt f.d (BitVec.ofNat 6 (2 * f.pair.toNat)) f.off
  obtain ⟨hd, ha, himm⟩ := fields_packBI op none f.d (BitVec.ofNat 6 (2 * f.pair.toNat)) f.off
  have hpair : (BitVec.ofNat 6 (2 * f.pair.toNat)).toNat = 2 * f.pair.toNat := by
    rw [BitVec.toNat_ofNat]
    omega
  refine decode_encodeBase (by omega) hlow ?_ ?_ ?_ rest
  · rcases hop with rfl | rfl <;> rfl
  · intro sub
    rcases hop with rfl | rfl <;> rfl
  · have hword := wordOp_headBase none (show op < 256 by omega) hlow
    rcases hop with rfl | rfl <;> simp [decodeBase, hword, hd, ha, himm, hpair, hi, evenInt, oddInt]

/-- A base form of layout BJ. -/
theorem decode_encodeBJ {op : Nat} {f : BJ} {i : Instr} (hop : op = 0xA0 ∨ op = 0xA2)
    (hi : i = if op = 0xA0 then .brBase f else .callBase f) (rest : List Nat) :
    decode (encodeBJ op f ++ rest) = .ok (i, (encodeBJ op f).length) := by
  have hlow : packBJ f < 2 ^ 22 := by
    unfold packBJ
    omega
  have hg : BitVec.ofNat 4 (Bits.field (headBase op (packBJ f) none) 18 4) = f.g := ofNat_eq_of_field (by
    rw [field_headBase _ _ _ (by decide), packBJ, Bits.field]
    omega)
  have hoff : BitVec.ofNat 18 (Bits.field (headBase op (packBJ f) none) 0 18) = f.off := ofNat_eq_of_field (by
    rw [field_headBase _ _ _ (by decide), packBJ, Bits.field]
    omega)
  refine decode_encodeBase (by omega) hlow ?_ ?_ ?_ rest
  · rcases hop with rfl | rfl <;> rfl
  · intro sub
    rcases hop with rfl | rfl <;> rfl
  · have hword := wordOp_headBase none (show op < 256 by omega) hlow
    rcases hop with rfl | rfl <;> simp [decodeBase, hword, hg, hoff, hi, evenInt, oddInt]

/-- A base form without operands (R161). -/
theorem decode_bare {op : Nat} {i : Instr} (hop : op < 256) (hres : opReserved op = false)
    (hlen : ∀ sub, lenAllowed op sub 0 = true) (hi : decodeBase (headBase op 0 none) none = some i) (rest : List Nat) :
    decode (encodeBase op 0 none ++ rest) = .ok (i, (encodeBase op 0 none).length) :=
  decode_encodeBase (lit := none) hop (by decide) hres hlen hi rest

theorem decode_movBase (d a : BitVec 6) (rest : List Nat) :
    decode (encode (.movBase d a) ++ rest) = .ok (.movBase d a, (encode (.movBase d a)).length) := by
  have hlow := packB3_lt d a 0 (m := 0) (by decide)
  obtain ⟨hd, ha, hb, hm⟩ := fields_packB3 0x24 none d a 0 (m := 0) (by decide)
  refine decode_encodeBase (by decide) hlow rfl (fun _ => rfl) ?_ rest
  simp only [decodeBase, wordOp_headBase none (show 0x24 < 256 by decide) hlow, hd, ha, hb, hm]
  rfl

theorem decode_ldiBase (d : BitVec 6) (imm : BitVec 10) (lit : Option DWord) (hwf : (lit.isNone || imm == 0) = true)
    (rest : List Nat) :
    decode (encode (.ldiBase d imm lit) ++ rest) = .ok (.ldiBase d imm lit, (encode (.ldiBase d imm lit)).length) := by
  have hlow := packBI_lt d 0 imm
  obtain ⟨hd, ha, himm⟩ := fields_packBI 0x25 lit d 0 imm
  have hlit : lit.isNone ∨ imm = 0 := by simpa using hwf
  refine decode_encodeBase (by decide) hlow rfl (fun _ => by cases lit <;> rfl) ?_ rest
  simp only [decodeBase, wordOp_headBase lit (show 0x25 < 256 by decide) hlow, hd, ha, himm, hlit]
  rfl

theorem decode_jwaitBase (j : BitVec 4) (rest : List Nat) :
    decode (encode (.jwaitBase j) ++ rest) = .ok (.jwaitBase j, (encode (.jwaitBase j)).length) := by
  have hlow := packB3_lt 0 (j.setWidth 6) 0 (m := 0) (by decide)
  obtain ⟨hd, ha, hb, hm⟩ := fields_packB3 0xAB none 0 (j.setWidth 6) 0 (m := 0) (by decide)
  have hj : (j.setWidth 6).toNat = j.toNat := by
    rw [BitVec.toNat_setWidth]
    omega
  have hfits : j.toNat ≤ 15 := by omega
  refine decode_encodeBase (by decide) hlow rfl (fun _ => rfl) ?_ rest
  simp only [decodeBase, wordOp_headBase none (show 0xAB < 256 by decide) hlow, hd, ha, hb, hm, hj]
  simp [evenInt, oddInt, hfits]

theorem decode_trapBase (code : BitVec 10) (rest : List Nat) :
    decode (encode (.trapBase code) ++ rest) = .ok (.trapBase code, (encode (.trapBase code)).length) := by
  have hlow := packBI_lt 0 0 code
  obtain ⟨hd, ha, himm⟩ := fields_packBI 0xB8 none 0 0 code
  refine decode_encodeBase (by decide) hlow rfl (fun _ => rfl) ?_ rest
  simp only [decodeBase, wordOp_headBase none (show 0xB8 < 256 by decide) hlow, hd, ha, himm]
  rfl

/-- The words of a well-formed base form decode to it. -/
theorem decode_encode_base (i : Instr) (hbase : (encodeBaseForm i).isSome = true) (hwf : i.wf = true)
    (rest : List Nat) : decode (encode i ++ rest) = .ok (i, (encode i).length) := by
  cases i
  case addBase f => exact decode_intB3 (op := 0x02) rfl rfl hwf rest
  case subBase f => exact decode_intB3 (op := 0x04) rfl rfl hwf rest
  case mulBase f => exact decode_intB3 (op := 0x06) rfl rfl hwf rest
  case mulhiBase f => exact decode_intB3 (op := 0x08) rfl rfl hwf rest
  case madBase f => exact decode_intB3 (op := 0x0A) rfl rfl hwf rest
  case minIBase f => exact decode_intB3 (op := 0x0C) rfl rfl hwf rest
  case maxIBase f => exact decode_intB3 (op := 0x0E) rfl rfl hwf rest
  case bitAndBase f => exact decode_intB3 (op := 0x10) rfl rfl hwf rest
  case bitOrBase f => exact decode_intB3 (op := 0x12) rfl rfl hwf rest
  case bitXorBase f => exact decode_intB3 (op := 0x14) rfl rfl hwf rest
  case shlBase f => exact decode_intB3 (op := 0x16) rfl rfl hwf rest
  case shrBase f => exact decode_intB3 (op := 0x18) rfl rfl hwf rest
  case sraBase f => exact decode_intB3 (op := 0x1A) rfl rfl hwf rest
  case rolBase f => exact decode_intB3 (op := 0x1C) rfl rfl hwf rest
  case addImmBase f => exact decode_intBI (op := 0x03) rfl rfl rest
  case subImmBase f => exact decode_intBI (op := 0x05) rfl rfl rest
  case mulImmBase f => exact decode_intBI (op := 0x07) rfl rfl rest
  case mulhiImmBase f => exact decode_intBI (op := 0x09) rfl rfl rest
  case madImmBase f => exact decode_intBI (op := 0x0B) rfl rfl rest
  case minIImmBase f => exact decode_intBI (op := 0x0D) rfl rfl rest
  case maxIImmBase f => exact decode_intBI (op := 0x0F) rfl rfl rest
  case bitAndImmBase f => exact decode_intBI (op := 0x11) rfl rfl rest
  case bitOrImmBase f => exact decode_intBI (op := 0x13) rfl rfl rest
  case bitXorImmBase f => exact decode_intBI (op := 0x15) rfl rfl rest
  case shlImmBase f => exact decode_intBI (op := 0x17) rfl rfl rest
  case shrImmBase f => exact decode_intBI (op := 0x19) rfl rfl rest
  case sraImmBase f => exact decode_intBI (op := 0x1B) rfl rfl rest
  case rolImmBase f => exact decode_intBI (op := 0x1D) rfl rfl rest
  case movBase d a => exact decode_movBase d a rest
  case ldiBase d imm lit => exact decode_ldiBase d imm lit hwf rest
  case faddBase f => exact decode_floatB3 (op := 0x30) (by decide) (by decide) rfl hwf rest
  case fsubBase f => exact decode_floatB3 (op := 0x31) (by decide) (by decide) rfl hwf rest
  case fmulBase f => exact decode_floatB3 (op := 0x32) (by decide) (by decide) rfl hwf rest
  case fmaBase f => exact decode_floatB3 (op := 0x33) (by decide) (by decide) rfl hwf rest
  case fminBase f => exact decode_floatB3 (op := 0x34) (by decide) (by decide) rfl hwf rest
  case fmaxBase f => exact decode_floatB3 (op := 0x35) (by decide) (by decide) rfl hwf rest
  case ldBase f => exact decode_encodeBM (op := 0x60) (.inl rfl) rfl rest
  case stBase f => exact decode_encodeBM (op := 0x61) (.inr rfl) rfl rest
  case brBase f => exact decode_encodeBJ (op := 0xA0) (.inl rfl) rfl rest
  case callBase f => exact decode_encodeBJ (op := 0xA2) (.inr rfl) rfl rest
  case retBase => exact decode_bare (op := 0xA4) (by decide) rfl (fun _ => rfl) rfl rest
  case exitBase => exact decode_bare (op := 0xA5) (by decide) rfl (fun _ => rfl) rfl rest
  case nopBase => exact decode_bare (op := 0xAF) (by decide) rfl (fun _ => rfl) rfl rest
  case jwaitBase j => exact decode_jwaitBase j rest
  case trapBase code => exact decode_trapBase code rest
  all_goals cases hbase

theorem encode_of_toX {i : Instr} {o : XOp} {x : XForm} (h : i.toX = some (o, x)) : encode i = encodeX o x := by
  rw [encode, h]

/-- Settles O58: an extended form is read back field by field (`decode_encodeX`), a base form by its layout
(`decode_encode_base`). -/
theorem decodeAndEncodeAgree : Obligations.DecodeAndEncodeAgree := by
  unfold Obligations.DecodeAndEncodeAgree
  intro i hwords hwf rest
  cases hx : i.toX with
  | none => exact decode_encode_base i (hwords.resolve_left (by simp [hx])) hwf rest
  | some p =>
    obtain ⟨o, x⟩ := p
    have hform : x.wf o = true := by simpa [Instr.wf, hx] using hwf
    rw [encode_of_toX hx, decode_encodeX o x hform rest, ofX_of_toX hx]

end Sys2Proof.Proofs.DecodeEncode

/-! Integer and predicate instructions (spec/11): the model's results against the statements' arithmetic, and the statements
about sums and products, logic, moves and predicates. -/

namespace Sys2Proof.Proofs.IntegerInstructions

open Sys2Proof Sys2Proof.Machine Sys2Proof.Claims Sys2Proof.Laws.Completes

/-! ### Results -/

theorem wrap_add (ty : Ty) (a b : Nat) : addV ty a b = wrap ty (a + b) := by
  rw [addV, ← wrap_nat]
  push_cast
  rfl

theorem wrap_mul (ty : Ty) (a b : Nat) : mulV ty a b = wrap ty (a * b) := by
  rw [mulV, ← wrap_nat]
  push_cast
  rfl

theorem wrap_mad (ty : Ty) (a b c : Nat) : madV ty a b c = wrap ty (a * b + c) := by
  rw [madV, ← wrap_nat]
  push_cast
  rfl

/-- A count of the type's width or more shifts everything out: 2^w divides the product. -/
theorem wrap_shl (ty : Ty) (a n : Nat) : shlV ty a n = wrap ty (a * 2 ^ n) := by
  have hwrap : wrap ty (a * 2 ^ n) = a * 2 ^ n % 2 ^ ty.bits := by
    rw [← wrap_nat]
    push_cast
    rfl
  rw [hwrap, shlV]
  split
  next h => exact (Nat.mod_eq_zero_of_dvd (Dvd.dvd.mul_left (Nat.pow_dvd_pow 2 h) a)).symm
  next => rfl

/-! ### Sums and products -/

theorem mad_of (i : Instr) (x : XForm) (words : Nat) (he : exec i = madX x words) :
    Computes i .mad x words x.ty.regs x.ty.regs x.ty.regs (destOf x x.ty.regs)
      fun _ c a b e => put x c (wrap x.ty (a * b + e)) :=
  computes_of i .mad x words _ _ _ _ _ (fun th v => th.setVs x.d.toNat v x.ty.regs) (fun _ a b e => madV x.ty a b e)
    (he.trans rfl) fun _ _ _ _ _ => by rw [wrap_mad]; rfl

theorem integerArithmetic : IntegerArithmetic :=
  ⟨binaryForms_of _ _ _ _ _ addV (fun _ => rfl) (fun _ => rfl) (fun _ => rfl) wrap_add,
    binaryForms_of _ _ _ _ _ subV (fun _ => rfl) (fun _ => rfl) (fun _ => rfl) fun _ _ _ => rfl,
    binaryForms_of _ _ _ _ _ mulV (fun _ => rfl) (fun _ => rfl) (fun _ => rfl) wrap_mul,
    binaryForms_of _ _ _ _ _ mulhiV (fun _ => rfl) (fun _ => rfl) (fun _ => rfl) fun _ _ _ => rfl,
    binaryForms_of _ _ _ _ _ minV (fun _ => rfl) (fun _ => rfl) (fun _ => rfl) fun _ _ _ => rfl,
    binaryForms_of _ _ _ _ _ maxV (fun _ => rfl) (fun _ => rfl) (fun _ => rfl) fun _ _ _ => rfl⟩

theorem multiplyAdd : MultiplyAdd :=
  ⟨fun x => mad_of _ x _ rfl, fun g => mad_of _ (g.toX g.intTy true) _ rfl, fun g => mad_of _ (g.toX true) _ rfl⟩

/-- Settles O1: every form runs the operation on its extended equivalent; the results agree modulo 2^w. -/
theorem sumsAndProducts : Obligations.SumsAndProducts := by
  unfold Obligations.SumsAndProducts
  exact ⟨integerArithmetic, multiplyAdd⟩

/-! ### Logic, shifts, fields, counts, division -/

theorem bfi_computes (x : XForm) :
    Computes (.bfi x) .bfi x x.words x.ty.regs 1 x.ty.regs (destOf x x.ty.regs)
      fun _ c a b e => put x c (bfiV x.ty a b e) :=
  computes_of _ .bfi x x.words _ _ _ _ _ (fun th v => th.setVs x.d.toNat v x.ty.regs) (fun _ a b e => bfiV x.ty a b e) rfl
    fun _ _ _ _ _ => rfl

theorem lea_computes (x : XForm) :
    Computes (.lea x) .lea x x.words 2 x.ty.regs 0 (destOf x 2) fun _ c a b _ =>
      c.th.setVs x.d.toNat (Bits.ofInt 64 (a + Ty.value x.ty b * ((2 ^ (x.imm.toNat % 8) : Nat) : Int))) 2 :=
  computes_of _ .lea x x.words _ _ _ _ _ (fun th v => th.setVs x.d.toNat v 2)
    (fun _ a b _ => leaV x.ty (x.imm.toNat % 8) a b) rfl fun _ _ _ _ _ => rfl

/-- Settles O2: every form runs its operation on its extended equivalent. -/
theorem integerLogic : Obligations.IntegerLogic := by
  unfold Obligations.IntegerLogic
  refine ⟨?and, ?or, ?xor, ?shl, ?shr, ?sra, ?rol, ?bfe, bfi_computes, ?popc, ?clz, ?ctz, ?brev, ?abs, ?neg, ?not, ?div, ?rem,
    lea_computes⟩
  case and => exact binaryForms_of _ _ _ _ _ andV (fun _ => rfl) (fun _ => rfl) (fun _ => rfl) fun _ _ _ => rfl
  case or => exact binaryForms_of _ _ _ _ _ orV (fun _ => rfl) (fun _ => rfl) (fun _ => rfl) fun _ _ _ => rfl
  case xor => exact binaryForms_of _ _ _ _ _ xorV (fun _ => rfl) (fun _ => rfl) (fun _ => rfl) fun _ _ _ => rfl
  case shl => exact shiftForms_of _ _ _ _ _ shlV (fun _ => rfl) (fun _ => rfl) (fun _ => rfl) wrap_shl
  case shr => exact shiftForms_of _ _ _ _ _ shrV (fun _ => rfl) (fun _ => rfl) (fun _ => rfl) fun _ _ _ => rfl
  case sra => exact shiftForms_of _ _ _ _ _ sraV (fun _ => rfl) (fun _ => rfl) (fun _ => rfl) fun _ _ _ => rfl
  case rol => exact shiftForms_of _ _ _ _ _ rolV (fun _ => rfl) (fun _ => rfl) (fun _ => rfl) fun _ _ _ => rfl
  case bfe => exact fun x => shift_of _ _ _ _ _ bfeV rfl fun _ _ => rfl
  case popc => exact fun x => counting_of _ _ _ _ (fun ty a => Bits.popcount ty.bits a) rfl fun _ => rfl
  case clz => exact fun x => counting_of _ _ _ _ (fun ty a => Bits.leadingZeros ty.bits a) rfl fun _ => rfl
  case ctz => exact fun x => counting_of _ _ _ _ (fun ty a => Bits.trailingZeros ty.bits a) rfl fun _ => rfl
  case brev => exact fun x => unary_of _ _ _ _ (fun ty a => Bits.reverse ty.bits a) rfl fun _ => rfl
  case abs => exact fun x => unary_of _ _ _ _ absV rfl fun _ => rfl
  case neg => exact fun x => unary_of _ _ _ _ negV rfl fun _ => rfl
  case not => exact fun x => unary_of _ _ _ _ notV rfl fun _ => rfl
  case div => exact fun x => binary_of _ _ _ _ _ divV rfl fun _ _ => rfl
  case rem => exact fun x => binary_of _ _ _ _ _ remV rfl fun _ _ => rfl

/-! ### Moves -/

/-- `ldi` computes from no operand. -/
theorem ldi_of (i : Instr) (x : XForm) (v words : Nat) (he : exec i = ldiX x.ty x.d.toNat v words) :
    Computes i .ldi x words 0 0 0 (destOf x x.ty.regs) fun _ c _ _ _ => put x c v := by
  refine computes_of i .ldi x words 0 0 0 _ _ (fun th v => th.setVs x.d.toNat v x.ty.regs) (fun _ _ _ _ => v) ?_
    fun _ _ _ _ _ => rfl
  have hlane : computeLane .ldi x 0 0 0 (destOf x x.ty.regs) (fun th v => th.setVs x.d.toNat v x.ty.regs) (fun _ _ _ => v) =
      fun s c => do
        c.dests (regSpan x.d.toNat x.ty.regs)
        let s ← s.claimRegs c [] (regSpan x.d.toNat x.ty.regs)
        return s.modThread c.id fun th => th.setVs x.d.toNat v x.ty.regs := by
    funext s c
    simp only [computeLane, PredicateMasks.operands_none]
    rfl
  rw [hlane]
  exact he

/-- Settles O3. -/
theorem moves : Obligations.Moves := by
  unfold Obligations.Moves
  refine ⟨fun x => ?sel, fun x => ?mov, fun d a => ?movBase, fun x => ?ldi, fun d imm lit => ?ldiBase, fun x => ?cvt⟩
  case sel =>
    exact computes_of _ .sel x x.words _ _ _ _ _ (fun th v => th.setVs x.d.toNat v x.ty.regs)
      (fun th a b _ => if th.guard x.g then a else b) rfl fun _ _ _ _ _ => rfl
  case mov => exact unary_of _ _ _ _ (fun _ a => a) rfl fun _ => rfl
  case movBase =>
    exact computes_of _ .mov _ 1 _ _ _ _ _
      (fun th v => th.setVs ({ XForm.blank .b32 with d := d.setWidth 10 } : XForm).d.toNat v 1) (fun _ a _ _ => a) rfl
      fun _ _ _ _ _ => rfl
  case ldi => exact ldi_of _ x _ _ rfl
  case ldiBase =>
    refine ldi_of _ { XForm.blank .i32 with d := d.setWidth 10 } _ _ ?_
    have hd : (d.setWidth 10).toNat = d.toNat := BitVec.toNat_setWidth_of_le (by decide)
    show execLdiBase d imm lit = _
    rw [hd]
    rfl
  case cvt =>
    exact computes_of _ .cvt x x.words _ _ _ _ _ (fun th v => th.setVs x.d.toNat v x.ty.regs)
      (fun _ a _ _ => cvtV ((Ty.ofCode x.sub.toNat).getD .i32) x.ty (Bits.bit x.imm.toNat 0) a) rfl fun _ _ _ _ _ => rfl

/-! ### Predicates -/

/-- An instruction that writes a predicate from operands. -/
theorem predicate_of (i : Instr) (o : XOp) (x : XForm) (wa wb : Nat) (f : Nat → Nat → Bool)
    (he : exec i = execSeq x.words none (predLane o x wa wb f)) :
    Computes i o x x.words wa wb 0 [] fun _ c a b _ => c.th.setP x.d.toNat (f a b) := by
  refine computes_of i o x x.words wa wb 0 [] _ (fun th v => th.setP x.d.toNat (v == 1)) (fun _ a b _ => (f a b).toNat) ?_
    fun _ c a b _ => ?_
  · rw [he]
    have hlane : predLane o x wa wb f = computeLane o x wa wb 0 [] (fun th v => th.setP x.d.toNat (v == 1))
        (fun a b _ => (f a b).toNat) := by
      funext s c
      have hbit : ∀ b : Bool, (b.toNat == 1) = b := by decide
      simp only [predLane, computeLane, View.dests, hbit]
      rfl
    rw [hlane]
  · cases f a b <;> rfl

/-- A predicate operation changes its own predicate, whatever the registers hold. -/
theorem predX_completes (i : Instr) (x : XForm) (f : Bool → Bool → Bool) (he : exec i = predX f x) :
    Completes i x.words (fun _ _ => True) fun _ c => c.th.setP x.d.toNat (f (c.th.p x.a.toNat) (c.th.p x.b.toNat)) :=
  completes_of i x.words _ _
    (fun s c => .ok (s.modThread c.id fun th => th.setP x.d.toNat (f (c.th.p x.a.toNat) (c.th.p x.b.toNat))))
    (he.trans rfl) fun _ _ _ _ _ _ _ _ _ _ _ _ _ _ _ _ => ⟨_, rfl, rfl⟩

/-- Settles O4. -/
theorem predicates : Obligations.Predicates := by
  unfold Obligations.Predicates
  refine ⟨fun x => predicate_of _ _ x _ _ (fun a b => cmpHolds x.sub.toNat (Ty.value x.ty a) (Ty.value x.ty b)) rfl,
    fun x => ⟨?and, ?or, ?xor, ?andn, ?not, ?mov⟩⟩
  case and => exact predX_completes _ x (fun a b => a && b) rfl
  case or => exact predX_completes _ x (fun a b => a || b) rfl
  case xor => exact predX_completes _ x (fun a b => a != b) rfl
  case andn => exact predX_completes _ x (fun a b => a && !b) rfl
  case not => exact predX_completes _ x (fun a _ => !a) rfl
  case mov => exact predX_completes _ x (fun a _ => a) rfl

end Sys2Proof.Proofs.IntegerInstructions

/-! What a lane sees in the middle of a sweep: the state differs from the first in threads alone, so the lane reads its own
thread, its team's other fields and everything else as they were; and the shape of an instruction whose lanes claim registers
and change their own thread. -/

namespace Sys2Proof.Proofs.Lanes

open Sys2Proof Sys2Proof.Machine Sys2Proof.Claims Sys2Proof.Laws.Completes

/-- The view `c1` that a lane has in `s1`, in the middle of a sweep, against its view `c` in the first state `s`. -/
structure Agrees (s : State) (c : View) (s1 : State) (c1 : View) : Prop where
  id : c1.id = c.id
  th : c1.th = c.th
  alloc : c1.alloc = c.alloc
  team : { c1.team with threads := c.team.threads } = c.team
  teamAt : s1.team? c1.id.team = some c1.team
  thread : s1.thread? c1.id = some c1.th
  others : SameBut s s1

section
variable {s s1 : State} {c c1 : View} (h : Agrees s c s1 c1)
include h

theorem operands_agrees (o : XOp) (x : XForm) (wa wb wc : Nat) : c1.operands o x wa wb wc = c.operands o x wa wb wc :=
  operands_team c1 c o x wa wb wc h.th h.alloc

theorem dests_agrees (ds : List Nat) : c1.dests ds = c.dests ds := dests_team c1 c ds h.alloc

theorem resolve_agrees (w0 field idx : Nat) (ind : Bool) (w : Nat) :
    c1.resolve w0 field idx ind w = c.resolve w0 field idx ind w := by simp only [View.resolve, h.th, h.alloc]

theorem block_agrees (n : Nat) : c1.block n = c.block n := by simp only [View.block, h.alloc]

theorem fslot_agrees (n : Nat) : s1.fslot c1.team n = s.fslot c.team n := by
  have hplace : c1.team.place = c.team.place := (congrArg Team.place h.team :)
  have hlaunch : c1.team.launch = c.team.launch := (congrArg Team.launch h.team :)
  have hlaunches : s1.launches = s.launches := (congrArg State.launches h.others.2 :)
  have hplatens : s1.platens = s.platens := (congrArg State.platens h.others.2 :)
  simp only [State.fslot, State.launchOf, State.call?, hplace, hlaunch, hlaunches, hplatens]

/-- Registers that hold no handle and no unread status, the sources of them sound, are claimed without any effect. -/
theorem claimRegs_agrees {srcs dsts : List Nat} (hset : Settled c srcs) (hdst : Unheld c dsts) (hsound : Sound c srcs) :
    s1.claimRegs c1 srcs dsts = .ok s1 := by
  refine claimRegs_settled s1 c1 srcs dsts h.thread (fun m hm => ?pending) (fun m hm => ?seen) fun m hm => ?sound
  case pending =>
    rw [h.th]
    exact (List.mem_append.1 hm).elim (fun hs => (hset m hs).1) fun hd => (hdst m hd).1
  case seen =>
    have hawaited : c1.awaited m = c.awaited m := by simp only [View.awaited, h.th]
    rw [h.th]
    refine (List.mem_append.1 hm).elim (fun hs => (hset m hs).2) fun hd => ?_
    obtain ⟨hmem, hwait⟩ := List.mem_filter.1 hd
    exact (hdst m hmem).2 (hawaited ▸ hwait)
  case sound =>
    rw [h.th]
    exact hsound m hm

end

/-- An instruction whose lane, wherever it stands in the sweep, changes its own thread as `eff` says completes. -/
theorem completes_of_lane (i : Instr) (words : Nat) (ok : State → View → Prop) (eff : State → View → Thread)
    (f : State → View → Lane State) (he : exec i = fun s => execSeq words none f s)
    (hlane : ∀ s c s1 c1, Agrees s c s1 c1 → ok s c →
      ∃ g, f s1 c1 = .ok (s1.modThread c1.id g) ∧ g c1.th = eff s c) : Completes i words ok eff := by
  refine completes_of i words ok eff f he fun s ig t n th s1 _ _ _ _ hok hsame t1 hteam hth hagree => ?_
  have hview : Agrees s (viewOf ig.team t n th) s1 (viewOf ig.team t1 n th) :=
    { id := rfl, th := rfl
      alloc := by rw [← hagree]; rfl
      team := hagree, teamAt := hteam
      thread := by simp [viewOf, State.thread?, hteam, hth]
      others := hsame }
  exact hlane _ _ _ _ hview hok

/-- The operand fields of a usable instruction name the registers `regsOf`. -/
theorem operands_of_usable {o : XOp} {x : XForm} {wa wb wc : Nat} {dsts : List Nat} {s : State} {c : View}
    (h : Usable o x wa wb wc dsts s c) : c.operands o x wa wb wc = .ok (regsOf c o x wa wb wc) := by
  obtain ⟨_, ⟨r, hr⟩, _⟩ := h
  rw [regsOf, hr]

section
variable {s s1 : State} {c c1 : View} (h : Agrees s c s1 c1) {o : XOp} {x : XForm} {wa wb wc : Nat} {dsts : List Nat}
  (hu : Usable o x wa wb wc dsts s c)
include h hu

theorem operands_usable : c1.operands o x wa wb wc = .ok (regsOf c o x wa wb wc) :=
  (operands_agrees h o x wa wb wc).trans (operands_of_usable hu)

theorem dests_usable : c1.dests dsts = .ok () := (dests_agrees h dsts).trans hu.1

theorem claimRegs_usable : s1.claimRegs c1 (regsOf c o x wa wb wc).srcs dsts = .ok s1 := by
  obtain ⟨_, _, hset, hdst, hsound⟩ := hu
  exact claimRegs_agrees h hset hdst hsound

end

end Sys2Proof.Proofs.Lanes

/-! Floating-point and conversion instructions (spec/12): each lane checks its slot where it has one, claims its registers and
writes its result and flags. -/

namespace Sys2Proof.Proofs.FloatInstructions

open Sys2Proof Sys2Proof.Machine Sys2Proof.Claims Sys2Proof.Proofs.Lanes

/-- The shared form of the float instructions (R211). -/
theorem floats_of (i : Instr) (o : XOp) (x : XForm) (words : Nat) (nb nc : Bool) (f : Fmt → Nat → Nat → Nat → Nat × Nat)
    (he : exec i = floatX o nb nc f x words) : Floats i o x words nb nc f := by
  refine completes_of_lane i words _ _ _ (he.trans rfl) fun s c s1 c1 h hu => ?_
  have hdests : c1.dests (regSpan x.d.toNat x.ty.regs) = .ok () := dests_usable h hu
  have hclaim : ∀ ns, ns = (regsOf c o x _ _ _).srcs → s1.claimRegs c1 ns (regSpan x.d.toNat x.ty.regs) = .ok s1 :=
    fun _ e => e ▸ claimRegs_usable h hu
  simp only [hdests, operands_usable h hu, hclaim _ rfl, bind, Except.bind]
  refine ⟨_, rfl, ?_⟩
  cases nb <;> cases nc <;> simp only [h.th, View.opB] <;> rfl

/-- Settles O6: every form runs `floatX` with the chapter's function. -/
theorem floatResults : Obligations.FloatResults := by
  unfold Obligations.FloatResults
  refine ⟨?_, ?_, ?_, ?_, ?_, ?_, ?_, ?_, ?_, ?_, ?_, ?_, ?_, ?_, ?_, ?_, ?_, ?_, ?_, ?_, ?_, ?_, ?_, ?_⟩ <;>
    exact fun _ => floats_of _ _ _ _ _ _ _ rfl

/-! ### Comparison and conversion -/

theorem fcmp_computes (x : XForm) :
    Computes (.fcmp x) .fcmp x x.words x.ty.regs x.ty.regs 0 [] fun _ c a b _ =>
      let r := fcmpV x.sub.toNat (fmtOf x.ty) a b
      (c.th.setP x.d.toNat r.1).raiseFlags r.2 := by
  refine completes_of_lane (.fcmp x) x.words _ _ _ rfl fun s c s1 c1 h hu => ?_
  simp only [operands_usable h hu, claimRegs_usable h hu, bind, Except.bind]
  exact ⟨_, rfl, by simp only [h.th, View.opB]⟩

theorem fcvt_completes (x : XForm) :
    let src := (Ty.ofCode x.sub.toNat).getD .f32
    Completes (.fcvt x) x.words
      (fun s c => (Bits.bit x.imm.toNat 3 = true → fcvtSlotOk x (s.fslot c.team x.fs.toNat) = true) ∧
        Usable .fcvt x src.regs 0 0 (destOf x x.ty.regs) s c)
      fun s c =>
        let r := regsOf c .fcvt x src.regs 0 0
        let v := fcvtV src x.ty x.imm.toNat (s.fslot c.team x.fs.toNat) (c.th.vs r.a src.regs)
        (put x c v.1).raiseFlags v.2 := by
  refine completes_of_lane (.fcvt x) x.words _ _ _ rfl fun s c s1 c1 h ⟨hslot, hu⟩ => ?_
  have hdests : c1.dests (regSpan x.d.toNat x.ty.regs) = .ok () := dests_usable h hu
  have hclaim : ∀ ns, ns = (regsOf c .fcvt x _ 0 0).srcs → s1.claimRegs c1 ns (regSpan x.d.toNat x.ty.regs) = .ok s1 :=
    fun _ e => e ▸ claimRegs_usable h hu
  have hrefused : (Bits.bit x.imm.toNat 3 && !fcvtSlotOk x (s.fslot c.team x.fs.toNat)) = false := by
    cases hbit : Bits.bit x.imm.toNat 3 with
    | false => rfl
    | true => simp [hslot hbit]
  simp only [fslot_agrees h, hrefused, hdests, operands_usable h hu, hclaim _ rfl, bind, Except.bind]
  exact ⟨_, rfl, by simp only [h.th]; rfl⟩

/-- Settles O7: comparison and conversion claim their operands, the block conversions their blocks. -/
theorem floatConversions : Obligations.FloatConversions := by
  unfold Obligations.FloatConversions
  refine ⟨fcmp_computes, fcvt_completes, fun x => ?mxq, fun x => ?mxdq⟩
  case mxq =>
    refine completes_of_lane (.mxq x) x.words _ _ _ rfl fun s c s1 c1 h ⟨hslot, hb, hd, a, ha, hblock, hset, hdst, hsnd⟩ => ?_
    have hdests : c1.dests (regSpan x.d.toNat 4) = .ok () := (dests_agrees h _).trans hd
    have hclaim : s1.claimRegs c1 (regSpan a 32 ++ [x.b.toNat] ++ if x.xa then [x.c.toNat] else []) (regSpan x.d.toNat 4) =
        .ok s1 := claimRegs_agrees h hset hdst hsnd
    simp only [fslot_agrees h, hslot, hdests, (dests_agrees h _).trans hb, (resolve_agrees h _ _ _ _ _).trans ha,
      (block_agrees h a).trans hblock, hclaim, bind, Except.bind]
    refine ⟨_, rfl, ?_⟩
    simp only [h.th, ha, beq_iff_eq]
  case mxdq =>
    refine completes_of_lane (.mxdq x) x.words _ _ _ rfl fun s c s1 c1 h ⟨hslot, hb, hblock, a, ha, hset, hdst, hsnd⟩ => ?_
    have hclaim : s1.claimRegs c1 (regSpan a 4 ++ [x.b.toNat] ++ if x.xa then [x.c.toNat] else []) (regSpan x.d.toNat 32) =
        .ok s1 := claimRegs_agrees h hset hdst hsnd
    simp only [fslot_agrees h, hslot, (dests_agrees h _).trans hb, (resolve_agrees h _ _ _ _ _).trans ha,
      (block_agrees h _).trans hblock, hclaim, bind, Except.bind]
    refine ⟨_, rfl, ?_⟩
    simp only [h.th, ha, beq_iff_eq]

end Sys2Proof.Proofs.FloatInstructions

/-! Sweeps of a list of threads that are not `runLanes`: each thread of the list is changed once, in its turn, and nothing
else; and the groups of an issue group, each once. -/

namespace Sys2Proof.Proofs.Sweeps

open Sys2Proof Sys2Proof.Machine Sys2Proof.Claims

/-- The threads `ts` of team `k` have become what `eff` says; every other thread and everything else are as they were. -/
def Swept (s s' : State) (k : Nat) (ts : List Nat) (eff : Nat → Thread → Thread) : Prop :=
  (∀ n ∈ ts, s'.thread? { team := k, n } = (s.thread? { team := k, n }).map (eff n)) ∧
    (∀ i : Tid, ¬(i.team = k ∧ i.n ∈ ts) → s'.thread? i = s.thread? i) ∧ SameBut s s'

theorem sameBut_trans {s s' s'' : State} (h : SameBut s s') (h' : SameBut s' s'') : SameBut s s'' :=
  ⟨fun k => (h'.1 k).trans (h.1 k), (congrArg (fun u : State => { u with teams := s.teams }) h'.2).trans h.2⟩

/-- A step that changes one thread of a list, whatever the steps before it did to the others, sweeps the list. -/
theorem foldl_sweeps (F : State → Nat → State) (k : Nat) (eff : Nat → Thread → Thread) (ts : List Nat) :
    ∀ s, ts.Nodup → (∀ s1 n, n ∈ ts → SameBut s s1 → s1.thread? { team := k, n } = s.thread? { team := k, n } →
      F s1 n = s1.modThread { team := k, n } (eff n)) → Swept s (ts.foldl F s) k ts eff := by
  induction ts with
  | nil => exact fun s _ _ => ⟨by simp, fun _ _ => rfl, SameBut.same s⟩
  | cons m ts ih =>
    intro s hnodup hstep
    obtain ⟨hm, hnodup⟩ := List.nodup_cons.1 hnodup
    have hfirst := hstep s m List.mem_cons_self (SameBut.same s) rfl
    have hsame : SameBut s (F s m) := hfirst ▸ (SameBut.same s).modThread _ _
    have hrest : ∀ n, n ≠ m → (F s m).thread? { team := k, n } = s.thread? { team := k, n } := fun n hne => by
      rw [hfirst, thread?_modThread_other _ (by simpa using hne)]
    have hne : ∀ n ∈ ts, n ≠ m := fun n hn e => hm (e ▸ hn)
    obtain ⟨hin, hout, hbut⟩ := ih (F s m) hnodup fun s1 n hn hs1 ht => hstep s1 n (List.mem_cons_of_mem m hn)
      (sameBut_trans hsame hs1) (ht.trans (hrest n (hne n hn)))
    refine ⟨fun n hn => ?_, fun i hi => ?_, sameBut_trans hsame hbut⟩
    · rcases List.mem_cons.1 hn with rfl | hn
      · rw [List.foldl_cons, hout _ (by simpa using hm), hfirst, thread?_modThread_same]
      · exact (hin n hn).trans (by rw [hrest n (hne n hn)])
    · rw [List.foldl_cons, hout i fun h => hi ⟨h.1, List.mem_cons_of_mem m h.2⟩, hfirst, thread?_modThread_other]
      rintro rfl
      exact hi ⟨rfl, List.mem_cons_self⟩

theorem foldl_modThread (k : Nat) (eff : Nat → Thread → Thread) (ts : List Nat) (s : State) (h : ts.Nodup) :
    Swept s (ts.foldl (fun s n => s.modThread { team := k, n } (eff n)) s) k ts eff :=
  foldl_sweeps _ k eff ts s h fun _ _ _ _ _ => rfl

theorem thread?_of_find {s : State} {k n : Nat} {t : Team} {th : Thread} (ht : s.team? k = some t)
    (hth : Tab.find n t.threads = some th) : s.thread? { team := k, n } = some th := by
  simp [State.thread?, ht, hth]

/-- A sweep of a formed issue group changes its threads alone. -/
theorem onlyThreads_of_swept {s s' : State} {ig : IssueGroup} {t : Team} {eff : View → Thread} {e : Nat → Thread → Thread}
    (hf : Formed s ig t) (h : Swept s s' ig.team ig.threads e)
    (he : ∀ n ∈ ig.threads, ∀ th, Tab.find n t.threads = some th → e n th = eff (viewOf ig.team t n th)) :
    OnlyThreads s s' ig t eff := by
  obtain ⟨hin, hout, hbut⟩ := h
  obtain ⟨_, hteam, _, _⟩ := hf
  refine ⟨fun n hn th hth => ?_, hout, hbut.1, hbut.2⟩
  rw [hin n hn, thread?_of_find hteam hth, Option.map_some, he n hn th hth]

/-- In a state that differs in threads alone, a team is there with its other fields. -/
theorem team?_of_sameBut {s s1 : State} {k : Nat} {t : Team} (h : SameBut s s1) (ht : s.team? k = some t) :
    ∃ t1, s1.team? k = some t1 ∧ { t1 with threads := t.threads } = t := by
  have hk := h.1 k
  rw [ht] at hk
  cases h1 : s1.team? k with
  | none => simp [h1] at hk
  | some t1 =>
    rw [h1, Option.map_some, Option.map_some, Option.some.injEq] at hk
    exact ⟨t1, rfl, congrArg (fun u : Team => { u with threads := t.threads }) hk⟩

theorem foldl_unchanged {α β : Type} {F : α → β → α} {a : α} (l : List β) (h : ∀ b ∈ l, F a b = a) : l.foldl F a = a := by
  induction l with
  | nil => rfl
  | cons b l ih => rw [List.foldl_cons, h b List.mem_cons_self, ih fun c hc => h c (List.mem_cons_of_mem b hc)]

/-! ### Groups -/

theorem mem_insertOnce (g h : Nat) (l : List Nat) : h ∈ insertOnce g l ↔ h = g ∨ h ∈ l := by
  induction l with
  | nil => simp [insertOnce]
  | cons a l ih =>
    rw [insertOnce]
    split
    · simp
    · split
      next hga => subst hga; simp
      next => simp [ih]; tauto

theorem sorted_insertOnce (g : Nat) (l : List Nat) (hl : l.Pairwise (· < ·)) : (insertOnce g l).Pairwise (· < ·) := by
  induction l with
  | nil => simp [insertOnce]
  | cons a l ih =>
    obtain ⟨hlow, hl'⟩ := List.pairwise_cons.1 hl
    rw [insertOnce]
    split
    next hlt =>
      refine List.pairwise_cons.2 ⟨fun b hb => ?_, hl⟩
      rcases List.mem_cons.1 hb with rfl | hb
      · exact hlt
      · exact hlt.trans (hlow b hb)
    next hge =>
      split
      · exact hl
      next hne =>
        refine List.pairwise_cons.2 ⟨fun b hb => ?_, ih hl'⟩
        rcases (mem_insertOnce g b l).1 hb with rfl | hb
        · omega
        · exact hlow b hb

theorem groupsOf_spec (f : Nat → Nat) (ns : List Nat) :
    (groupsOf f ns).Pairwise (· < ·) ∧ ∀ g, g ∈ groupsOf f ns ↔ ∃ n ∈ ns, f n = g := by
  suffices h : ∀ acc : List Nat, acc.Pairwise (· < ·) →
      (ns.foldl (fun acc n => insertOnce (f n) acc) acc).Pairwise (· < ·) ∧
        ∀ g, g ∈ ns.foldl (fun acc n => insertOnce (f n) acc) acc ↔ g ∈ acc ∨ ∃ n ∈ ns, f n = g by
    simpa [groupsOf] using h [] List.Pairwise.nil
  induction ns with
  | nil => simp
  | cons n ns ih =>
    intro acc hacc
    obtain ⟨hs, hm⟩ := ih _ (sorted_insertOnce (f n) acc hacc)
    refine ⟨hs, fun g => ?_⟩
    rw [List.foldl_cons, hm, mem_insertOnce]
    simp only [List.mem_cons, exists_eq_or_imp, or_assoc, eq_comm (a := g)]
    tauto

theorem mem_groupsOf {f : Nat → Nat} {ns : List Nat} {g : Nat} : g ∈ groupsOf f ns ↔ ∃ n ∈ ns, f n = g :=
  (groupsOf_spec f ns).2 g

theorem nodup_groupsOf (f : Nat → Nat) (ns : List Nat) : (groupsOf f ns).Nodup :=
  (groupsOf_spec f ns).1.imp Nat.ne_of_lt

/-- The threads of a list, group by group. -/
def byGroup (f : Nat → Nat) (ns : List Nat) : List Nat := (groupsOf f ns).flatMap fun g => ns.filter fun n => f n == g

theorem mem_byGroup {f : Nat → Nat} {ns : List Nat} {n : Nat} : n ∈ byGroup f ns ↔ n ∈ ns := by
  simp only [byGroup, List.mem_flatMap, mem_groupsOf, List.mem_filter, beq_iff_eq]
  constructor
  · rintro ⟨_, _, hn, _⟩
    exact hn
  · exact fun hn => ⟨f n, ⟨n, hn, rfl⟩, hn, rfl⟩

theorem nodup_byGroup (f : Nat → Nat) {ns : List Nat} (h : ns.Nodup) : (byGroup f ns).Nodup := by
  refine List.nodup_flatMap.2 ⟨fun g _ => h.filter _, (nodup_groupsOf f ns).imp fun {g g'} hne => ?_⟩
  intro n hn hn'
  have hg := (List.mem_filter.1 hn).2
  have hg' := (List.mem_filter.1 hn').2
  rw [beq_iff_eq] at hg hg'
  exact hne (hg.symm.trans hg')

end Sys2Proof.Proofs.Sweeps

/-! Collectives (R224 to R230): what a converged group's collective does, the trap of one that is not converged, and from
these the statement about each instruction. -/

namespace Sys2Proof.Proofs.Collectives

open Sys2Proof Sys2Proof.Machine Sys2Proof.Claims Sys2Proof.Proofs.Lanes Sys2Proof.Proofs.Sweeps

/-! ### A converged group -/

/-- What a thread listed at `n` is; every thread of a formed group is listed. -/
def threadAt (t : Team) (n : Nat) : Thread := (Tab.find n t.threads).getD {}

/-- Whether the check of a collective passes in a thread: it contributes what the statement says. -/
def Contributes (s : State) (check : State → View → Lane (Nat × Nat × List Nat × List Nat)) (wa wb : Nat) (t : Team) (o : XOp)
    (x : XForm) (c : View) : Prop :=
  ∃ a b srcs dsts, check s c = .ok (a, b, srcs, dsts) ∧ s.claimRegs c srcs dsts = .ok s ∧
    ({ n := c.id.n, lane := t.lane c.id.n, th := c.th, a := c.th.vs a wa, b := c.th.vs b wb } : Contribution) =
      contribOf t o x wa wb c

/-- Registers that are claimed without effect are observed without effect. -/
theorem observe_of_claimRegs {s : State} {c : View} {srcs dsts : List Nat} (h : s.claimRegs c srcs dsts = .ok s) :
    s.observe c.id (c.observed srcs dsts) = s := by
  unfold State.claimRegs at h
  cases hr : c.ready srcs dsts with
  | error e => rw [hr] at h; cases h
  | ok => rw [hr] at h; exact Except.ok.inj h

/-- A collective of a converged group in which every thread's check passes. -/
theorem collective_converged {s : State} {ig : IssueGroup} {t : Team} {words wa wb : Nat} {o : XOp} {x : XForm}
    {check : State → View → Lane (Nat × Nat × List Nat × List Nat)} (write : Nat → List Contribution → Contribution → Thread)
    (hf : Formed s ig t) (hconv : t.converged ig.threads = true) (hc : Each ig t (Contributes s check wa wb t o x)) :
    ∃ s', collective words check wa wb write s = .next s' ∧ OnlyThreads s s' ig t fun c =>
      Thread.at (write t.width (contribs ig t o x wa wb) (contribOf t o x wa wb c)) (nextPc ig words) := by
  obtain ⟨hig, hteam, hnodup, hlisted⟩ := id hf
  let V := fun n => viewOf ig.team t n (threadAt t n)
  let R := fun c => (do
    let (a, b, srcs, dsts) ← check s c
    let _ ← s.claimRegs c srcs dsts
    pure (a, b, srcs, dsts) : Lane (Nat × Nat × List Nat × List Nat))
  have hfind : ∀ n ∈ ig.threads, Tab.find n t.threads = some (threadAt t n) := fun n hn => by
    obtain ⟨th, hth⟩ := hlisted n hn
    rw [threadAt, hth, Option.getD_some]
  have hviews : (ig.threads.filterMap fun n => s.view { team := ig.team, n }) = ig.threads.map V := by
    rw [← List.filterMap_eq_map]
    exact List.filterMap_congr fun n hn => view_eq s _ t _ hteam (hfind n hn)
  have hpass : ∀ n ∈ ig.threads, ∃ a b srcs dsts, R (V n) = .ok (a, b, srcs, dsts) ∧
      s.observe (V n).id ((V n).observed srcs dsts) = s ∧
      ({ n, lane := t.lane n, th := threadAt t n, a := (threadAt t n).vs a wa, b := (threadAt t n).vs b wb } : Contribution) =
        contribOf t o x wa wb (V n) := fun n hn => by
    obtain ⟨a, b, srcs, dsts, hcheck, hclaim, heq⟩ := hc n hn _ (hfind n hn)
    exact ⟨a, b, srcs, dsts, by simp only [R, V, hcheck, bind, Except.bind, hclaim]; rfl, observe_of_claimRegs hclaim, heq⟩
  have hcontribs : contribs ig t o x wa wb = ig.threads.map fun n => contribOf t o x wa wb (V n) := by
    rw [contribs, ← List.filterMap_eq_map]
    exact List.filterMap_congr fun n hn => by rw [hfind n hn]; rfl
  have hR : ∀ c : View, (do
      let (a, b, srcs, dsts) ← check s c
      let _ ← s.claimRegs c srcs dsts
      pure (a, b, srcs, dsts) : Lane (Nat × Nat × List Nat × List Nat)) = R c := fun _ => rfl
  have hok : ∀ n ∈ ig.threads, ∃ r, R (V n) = .ok r := fun n hn => by
    obtain ⟨a, b, srcs, dsts, hr, _⟩ := hpass n hn
    exact ⟨_, hr⟩
  unfold collective
  simp only [hig, hteam, hconv, hviews, List.map_map, List.filterMap_map, Bool.not_true, Bool.false_eq_true, if_false, hR]
  rw [List.filterMap_eq_nil_iff.2 (fun n hn => by obtain ⟨r, hr⟩ := hok n hn; simp [hr]),
    List.filterMap_eq_nil_iff.2 (fun n hn => by obtain ⟨r, hr⟩ := hok n hn; simp [hr])]
  refine ⟨_, rfl, ?_⟩
  rw [List.foldl_map, foldl_unchanged ig.threads fun n hn => by
    obtain ⟨a, b, srcs, dsts, hr, hobs, _⟩ := hpass n hn
    simp only [Function.comp_apply, hr, hobs]]
  have hcs : ∀ f : Nat → Option Contribution, (∀ n ∈ ig.threads, f n = some (contribOf t o x wa wb (V n))) →
      ig.threads.filterMap f = contribs ig t o x wa wb := fun f hf => by
    rw [hcontribs, ← List.filterMap_eq_map]
    exact List.filterMap_congr fun n hn => by rw [hf n hn]; rfl
  rw [hcs _ fun n hn => by
    obtain ⟨a, b, srcs, dsts, hr, _, heq⟩ := hpass n hn
    have hth : s.thread? (V n).id = some (threadAt t n) := thread?_of_find hteam (hfind n hn)
    simp only [Function.comp_apply, hr, hth, Option.map_some]
    exact congrArg some heq]
  rw [hcontribs, List.foldl_map]
  exact onlyThreads_of_swept hf (foldl_modThread ig.team (fun n _ => Thread.at (write t.width
    (ig.threads.map fun n => contribOf t o x wa wb (V n)) (contribOf t o x wa wb (V n))) (nextPc ig words)) _ s hnodup)
    fun n hn th hth => by simp only [V, threadAt, hth, Option.getD_some]

/-- The collectives that read A and B and write the registers listed. -/
theorem collects_of (i : Instr) (o : XOp) (x : XForm) (wa wb : Nat) (dsts : List Nat)
    (write : Nat → List Contribution → Contribution → Thread)
    (he : exec i = collective x.words (laneCheck o x wa wb dsts) wa wb write) : Collects i o x wa wb dsts write := by
  intro s ig t hf hconv hall
  rw [he]
  refine collective_converged write hf hconv fun n hn th hth => ?_
  obtain ⟨hdests, ⟨r, hr⟩, hset, hdst, hsnd⟩ := hall n hn th hth
  have hregs : regsOf (viewOf ig.team t n th) o x wa wb 0 = r := by rw [regsOf, hr]
  rw [hregs] at hset hsnd
  have hagree : Agrees s (viewOf ig.team t n th) s (viewOf ig.team t n th) :=
    { id := rfl, th := rfl, alloc := rfl, team := rfl, teamAt := hf.2.1, thread := thread?_of_find hf.2.1 hth
      others := SameBut.same s }
  refine ⟨r.a, r.b, r.srcs, dsts, ?_, claimRegs_agrees hagree hset hdst hsnd, ?_⟩
  · simp only [laneCheck, hdests, hr, bind, Except.bind]
    rfl
  · simp only [contribOf, hregs]

/-- `vote` of a predicate reads no register. -/
theorem collects_predicate (i : Instr) (o : XOp) (x : XForm) (dsts : List Nat)
    (check : State → View → Lane (Nat × Nat × List Nat × List Nat))
    (hcheck : ∀ s c, c.dests dsts = .ok () → check s c = .ok (0, 0, [], dsts))
    (write : Nat → List Contribution → Contribution → Thread)
    (he : exec i = collective x.words check 0 0 write) : Collects i o x 0 0 dsts write := by
  intro s ig t hf hconv hall
  rw [he]
  refine collective_converged write hf hconv fun n hn th hth => ?_
  obtain ⟨hdests, _, _, hdst, _⟩ := hall n hn th hth
  have hagree : Agrees s (viewOf ig.team t n th) s (viewOf ig.team t n th) :=
    { id := rfl, th := rfl, alloc := rfl, team := rfl, teamAt := hf.2.1, thread := thread?_of_find hf.2.1 hth
      others := SameBut.same s }
  refine ⟨0, 0, [], dsts, hcheck _ _ hdests, claimRegs_agrees hagree ?_ hdst ?_, rfl⟩ <;> exact fun n hn => nomatch hn

theorem shfl_collects (x : XForm) :
    let w := x.ty.regs
    let wb := if laneImm x then 0 else 1
    Collects (.shfl x) .shfl x w wb (destOf x w) fun width cs c =>
      let d := laneArg x c
      let src :=
        if x.sub = 0 then d % width
        else if x.sub = 1 then (if d ≤ c.lane then c.lane - d else c.lane)
        else if x.sub = 2 then (if c.lane + d < width then c.lane + d else c.lane)
        else c.lane ^^^ (d % width)
      c.th.setVs x.d.toNat (((cs.find? fun o => o.lane == src).map Contribution.a).getD c.a) w := by
  have hsource : ∀ width l d, shflSource x.sub.toNat width l d =
      if x.sub = 0 then d % width else if x.sub = 1 then (if d ≤ l then l - d else l)
      else if x.sub = 2 then (if l + d < width then l + d else l) else l ^^^ (d % width) := fun width l d => by
    unfold shflSource
    split <;> simp_all [← BitVec.toNat_inj]
  simp only [← hsource]
  exact collects_of _ _ _ _ _ _ _ rfl

/-- R224 to R230. -/
theorem collectives : Claims.Collectives := by
  refine ⟨fun x => ⟨shfl_collects x, ?perm, ?redux, ?cdet, ?matchV⟩, fun x => ⟨?all, ?any, ?mask, ?same⟩⟩
  case perm => exact collects_of _ _ _ _ _ _ _ rfl
  case redux => exact collects_of _ _ _ _ _ _ _ rfl
  case cdet => exact collects_of _ _ _ _ _ _ _ rfl
  case matchV => exact collects_of _ _ _ _ _ _ _ rfl
  case all =>
    intro h
    refine collects_predicate _ _ _ [] (fun _ _ => .ok (0, 0, [], [])) (fun _ _ _ => rfl) _ (funext fun s => ?_)
    exact (show exec (.vote x) s = execVote x s from rfl).trans (by rw [execVote, h]; rfl)
  case any =>
    intro h
    refine collects_predicate _ _ _ [] (fun _ _ => .ok (0, 0, [], [])) (fun _ _ _ => rfl) _ (funext fun s => ?_)
    exact (show exec (.vote x) s = execVote x s from rfl).trans (by rw [execVote, h]; rfl)
  case mask =>
    intro h
    refine collects_predicate _ _ _ [x.d.toNat] (fun _ c => do c.dests [x.d.toNat]; return (0, 0, [], [x.d.toNat]))
      (fun _ c hd => by rw [hd]; rfl) _ (funext fun s => ?_)
    exact (show exec (.vote x) s = execVote x s from rfl).trans (by rw [execVote, h]; rfl)
  case same =>
    intro h
    refine collects_of _ _ _ _ _ _ _ (funext fun s => ?_)
    refine (show exec (.vote x) s = execVote x s from rfl).trans ?_
    rw [execVote]
    split <;> first | omega | rfl

/-! ### A group that is not converged -/

/-- The trap of thread `n`: the mask of its group's lanes present (R224). -/
def divergence (t : Team) (ns : List Nat) (n : Nat) : Trap :=
  { code := Code.convergence, info := Bits.maskOf ((ns.filter fun m => t.gid m == t.gid n).map t.lane) }

/-- What ILLEGAL_CONVERGENCE leaves of thread `n` (R224, R375). -/
def divergedThread (s : State) (t : Team) (ns : List Nat) (next n : Nat) (th : Thread) : Thread :=
  th.enter (divergence t ns n) ((divergence t ns n).tpc (threadAt t n).pc.toNat next) (s.trapVec t)

theorem core_of_not_near {t : Team} (h : t.near = false) : ∃ core, t.place = .core core := by
  unfold Team.near at h
  split at h
  · cases h
  next core hplace => exact ⟨core, hplace⟩

theorem trapVec_of_agree {s s1 : State} {t t1 : Team} (h : SameBut s s1) (ht : { t1 with threads := t.threads } = t) :
    s1.trapVec t1 = s.trapVec t := by
  have hplace : t1.place = t.place := (congrArg Team.place ht :)
  have hlaunch : t1.launch = t.launch := (congrArg Team.launch ht :)
  have hlaunches : s1.launches = s.launches := (congrArg State.launches h.2 :)
  have hplatens : s1.platens = s.platens := (congrArg State.platens h.2 :)
  simp only [State.trapVec, State.launchOf, State.call?, hplace, hlaunch, hlaunches, hplatens]

/-- A fault of a thread of a team on a core that is not stopped, outside a handler, with a vector, wherever it stands in the
sweep. -/
theorem deliver_enters {s s1 : State} {k n next : Nat} {t : Team} {th : Thread} (x : Trap) (hteam : s.team? k = some t)
    (hth : Tab.find n t.threads = some th) (hnear : t.near = false) (hstop : t.stopped = false) (hvec : s.trapVec t ≠ 0)
    (hhandler : th.handler = false) (hsame : SameBut s s1)
    (hthread : s1.thread? { team := k, n } = s.thread? { team := k, n }) :
    s1.deliver { team := k, n } x next =
      s1.modThread { team := k, n } fun th' => th'.enter x (x.tpc th.pc.toNat next) (s.trapVec t) := by
  obtain ⟨t1, hteam1, hagree⟩ := team?_of_sameBut hsame hteam
  obtain ⟨core, hplace⟩ := core_of_not_near hnear
  have hth1 : Tab.find n t1.threads = some th := by
    have h := hthread.trans (thread?_of_find hteam hth)
    simpa [State.thread?, hteam1] using h
  rw [← trapVec_of_agree hsame hagree]
  refine deliver_enter s1 _ x next core t1 th hteam1 hth1 ?_ ?_ hhandler ?_
  · exact (congrArg Team.place hagree :).trans hplace
  · exact (congrArg Team.stopped hagree :).trans hstop
  · rwa [trapVec_of_agree hsame hagree]

/-- Every thread takes the trap once, group by group. -/
theorem diverged_swept {s : State} {t : Team} {k next : Nat} {ns : List Nat} (hteam : s.team? k = some t) (hnodup : ns.Nodup)
    (hlisted : ∀ n ∈ ns, ∃ th, Tab.find n t.threads = some th) (hnear : t.near = false) (hstop : t.stopped = false)
    (hvec : s.trapVec t ≠ 0) (hhandler : ∀ n th, Tab.find n t.threads = some th → th.handler = false) :
    Swept s (s.diverged t k ns next) k (byGroup t.gid ns) (divergedThread s t ns next) := by
  have hfold : s.diverged t k ns next = (byGroup t.gid ns).foldl 
      (fun s n => s.deliver { team := k, n } (divergence t ns n) next) s := by
    rw [byGroup, List.foldl_flatMap]
    unfold State.diverged
    refine congrFun (congrFun (congrArg List.foldl (funext fun s => funext fun g => ?_)) s) _
    refine List.foldl_ext _ _ _ fun s n hn => ?_
    rw [divergence, beq_iff_eq.1 (List.mem_filter.1 hn).2]
  rw [hfold]
  refine foldl_sweeps _ k _ _ s (nodup_byGroup _ hnodup) fun s1 n hn hsame hthread => ?_
  obtain ⟨th, hth⟩ := hlisted n (mem_byGroup.1 hn)
  rw [deliver_enters _ hteam hth hnear hstop hvec (hhandler n th hth) hsame hthread]
  refine congrArg (s1.modThread _) (funext fun th' => ?_)
  simp only [divergedThread, threadAt, hth, Option.getD_some]

theorem diverges_of {i : Instr} {words wa wb : Nat} {check : State → View → Lane (Nat × Nat × List Nat × List Nat)}
    {write : Nat → List Contribution → Contribution → Thread} (he : ∀ s, exec i s = collective words check wa wb write s) :
    Diverges i := by
  intro s ig t hf hconv hnear hstop hvec hhandler
  obtain ⟨hig, hteam, hnodup, hlisted⟩ := hf
  refine ⟨s.diverged t ig.team ig.threads (ig.pc + 4 * words), ?_, fun n hn => ?_⟩
  · simp [he, collective, hig, hteam, hconv]
  · obtain ⟨th, hth⟩ := hlisted n hn
    obtain ⟨hin, _, _⟩ := diverged_swept (next := ig.pc + 4 * words) hteam hnodup hlisted hnear hstop hvec hhandler
    have hthread := hin n (mem_byGroup.2 hn)
    rw [thread?_of_find hteam hth, Option.map_some] at hthread
    refine ⟨th, _, hth, hthread, rfl, rfl, rfl, rfl, ?_, rfl⟩
    have hcode : (divergence t ig.threads n).code = 0x0D := rfl
    rw [divergedThread, enter_tcause, hcode]
    show _ = 0x0D
    omega

/-- A meaning that is a collective. -/
def IsCollective (meaning : State → Host.Outcome State Fault Refusal) : Prop :=
  ∃ words check wa wb write, ∀ s, meaning s = collective words check wa wb write s

theorem diverges_of_isCollective {i : Instr} {meaning : State → Host.Outcome State Fault Refusal} (he : exec i = meaning)
    (h : IsCollective meaning) : Diverges i := by
  obtain ⟨words, check, wa, wb, write, hmeaning⟩ := h
  exact diverges_of (he ▸ hmeaning)

theorem isCollective_vote (x : XForm) : IsCollective (execVote x) := by
  unfold execVote IsCollective
  simp only
  split <;> exact ⟨_, _, _, _, _, fun _ => rfl⟩

theorem collectiveConvergence : CollectiveConvergence := by
  intro x
  refine ⟨diverges_of_isCollective (meaning := execShfl x) rfl ?shfl,
    diverges_of_isCollective (meaning := execPerm x) rfl ?perm, diverges_of_isCollective rfl (isCollective_vote x),
    diverges_of_isCollective (meaning := execRedux x) rfl ?redux,
    diverges_of_isCollective (meaning := execCdet x) rfl ?cdet,
    diverges_of_isCollective (meaning := execMatchV x) rfl ?matchV⟩
  case shfl => unfold execShfl; exact ⟨_, _, _, _, _, fun _ => rfl⟩
  case perm => unfold execPerm; exact ⟨_, _, _, _, _, fun _ => rfl⟩
  case redux => unfold execRedux; exact ⟨_, _, _, _, _, fun _ => rfl⟩
  case cdet => unfold execCdet; exact ⟨_, _, _, _, _, fun _ => rfl⟩
  case matchV => unfold execMatchV; exact ⟨_, _, _, _, _, fun _ => rfl⟩

/-- Settles O8: a converged group's contributions are gathered and written (`collective_converged`); where the group is not
converged, each of its threads takes the trap once (`diverged_swept`). -/
theorem crossLane : Obligations.CrossLane := by
  unfold Obligations.CrossLane
  exact ⟨collectives, collectiveConvergence⟩

end Sys2Proof.Proofs.Collectives

/-! The sweep of an issue group lane by lane: what `runLane` makes of a lane's answer, and from the lanes of an instruction
what the instruction does to its threads. -/

namespace Sys2Proof.Proofs.Issue

open Sys2Proof Sys2Proof.Machine Sys2Proof.Claims Sys2Proof.Proofs.Lanes Sys2Proof.Proofs.Sweeps

/-- Changes of a thread that agree on the thread as it is are one change. -/
theorem modThread_congr {s : State} {i : Tid} {th : Thread} {f g : Thread → Thread} (hth : s.thread? i = some th)
    (h : f th = g th) : s.modThread i f = s.modThread i g := by
  obtain ⟨t, hteam, hfind⟩ := Option.bind_eq_some_iff.1 hth
  have hteam' : Tab.find i.team s.teams = some t := hteam
  simp only [State.modThread, State.modTeam, Tab.modify, hteam', Team.modThread, hfind, h]

/-- What one lane of a sweep makes of its thread, wherever it stands in the sweep. -/
def LaneDoes (F : State → Tid → State) (s : State) (c : View) (th' : Thread) : Prop :=
  ∀ s1 c1, Agrees s c s1 c1 → s1.view c1.id = some c1 → ∃ g, F s1 c1.id = s1.modThread c1.id g ∧ g c.th = th'

/-- Lanes of listed threads, each of which changes its own thread, sweep their list. -/
theorem foldl_laneDoes {F : State → Tid → State} {s : State} {k : Nat} {t : Team} {ns : List Nat} {eff : View → Thread}
    (hteam : s.team? k = some t) (hnodup : ns.Nodup) (hlisted : ∀ n ∈ ns, ∃ th, Tab.find n t.threads = some th)
    (h : ∀ n ∈ ns, ∀ th, Tab.find n t.threads = some th → LaneDoes F s (viewOf k t n th) (eff (viewOf k t n th))) :
    Swept s (ns.foldl (fun s n => F s { team := k, n }) s) k ns
      fun n _ => eff (viewOf k t n (Collectives.threadAt t n)) := by
  refine foldl_sweeps (fun s n => F s { team := k, n }) k _ _ s hnodup fun s1 n hn hsame hthread => ?_
  obtain ⟨th, hth⟩ := hlisted n hn
  obtain ⟨t1, hteam1, hagree⟩ := team?_of_sameBut hsame hteam
  have hth1 := hthread.trans (thread?_of_find hteam hth)
  have hfind1 : Tab.find n t1.threads = some th := by simpa [State.thread?, hteam1] using hth1
  have hview : Agrees s (viewOf k t n th) s1 (viewOf k t1 n th) :=
    { id := rfl, th := rfl, alloc := by rw [← hagree]; rfl, team := hagree, teamAt := hteam1, thread := hth1
      others := hsame }
  obtain ⟨g, hF, hg⟩ := h n hn th hth s1 _ hview (view_eq s1 _ t1 th hteam1 hfind1)
  refine hF.trans (modThread_congr hth1 ?_)
  rw [Collectives.threadAt, hth, Option.getD_some]
  exact hg

theorem swept_of_laneDoes {F : State → Tid → State} {s : State} {ig : IssueGroup} {t : Team} {eff : View → Thread}
    (hf : Formed s ig t) (h : Each ig t fun c => LaneDoes F s c (eff c)) :
    OnlyThreads s (ig.threads.foldl (fun s n => F s { team := ig.team, n }) s) ig t eff := by
  obtain ⟨_, hteam, hnodup, hlisted⟩ := id hf
  exact onlyThreads_of_swept hf (foldl_laneDoes hteam hnodup hlisted h)
    fun n _ th hth => by rw [Collectives.threadAt, hth, Option.getD_some]

/-! ### The answers of a lane -/

section
variable {next : Nat} {g : Option (BitVec 4)} {f : LaneFn} {s : State} {c : View}

theorem laneDoes_ok {th' : Thread} {pc : Nat} (hg : (g.map c.th.guard).getD true = true)
    (hf : ∀ s1 c1, Agrees s c s1 c1 → ∃ e, f s1 c1 = .ok (s1.modThread c1.id e, pc) ∧ e c.th = th') :
    LaneDoes (runLane next g f) s c { th' with pc := BitVec.ofNat 64 pc } := by
  intro s1 c1 h hview
  obtain ⟨e, he, hth⟩ := hf s1 c1 h
  rw [runLane_ok next g f s1 c1.id c1 _ pc hview (by rw [h.th]; exact hg) he, modThread_modThread]
  exact ⟨_, rfl, by rw [hth]⟩

theorem laneDoes_skip (hg : (g.map c.th.guard).getD true = false) :
    LaneDoes (runLane next g f) s c { c.th with pc := BitVec.ofNat 64 next } := by
  intro s1 c1 h hview
  rw [runLane_skip next g f s1 c1.id c1 hview (by rw [h.th]; exact hg)]
  exact ⟨_, rfl, rfl⟩

theorem laneDoes_park {w : Wait} (hg : (g.map c.th.guard).getD true = true)
    (hf : ∀ s1 c1, Agrees s c s1 c1 → f s1 c1 = .error (.park w)) :
    LaneDoes (runLane next g f) s c { c.th with wait := w } := by
  intro s1 c1 h hview
  rw [runLane_park next g f s1 c1.id c1 w hview (by rw [h.th]; exact hg) (hf s1 c1 h)]
  exact ⟨_, rfl, rfl⟩

/-- A fault of a team that has a trap vector, outside a handler (R375). -/
theorem laneDoes_fault {x : Trap} (hg : (g.map c.th.guard).getD true = true) (hnear : c.team.near = false)
    (hstop : c.team.stopped = false) (hvec : s.trapVec c.team ≠ 0) (hhandler : c.th.handler = false)
    (hf : ∀ s1 c1, Agrees s c s1 c1 → f s1 c1 = .error (.fault x)) :
    LaneDoes (runLane next g f) s c (c.th.enter x (x.tpc c.th.pc.toNat next) (s.trapVec c.team)) := by
  intro s1 c1 h hview
  obtain ⟨core, hplace⟩ := Collectives.core_of_not_near hnear
  have hv := Collectives.trapVec_of_agree h.others h.team
  obtain ⟨t1, hteam1, hrest⟩ := Option.bind_eq_some_iff.1 hview
  obtain ⟨th1, hth1, hc1⟩ := Option.map_eq_some_iff.1 hrest
  have ht1 : t1 = c1.team := congrArg View.team hc1
  have hth : th1 = c1.th := congrArg View.th hc1
  subst ht1
  rw [runLane_fault next g f s1 c1.id c1 x hview (by rw [h.th]; exact hg) (hf s1 c1 h)]
  refine ⟨_, deliver_enter s1 c1.id x next core c1.team c1.th hteam1 (hth ▸ hth1) ?_ ?_ ?_ ?_, ?_⟩
  · exact (congrArg Team.place h.team :).trans hplace
  · exact (congrArg Team.stopped h.team :).trans hstop
  · rw [h.th]; exact hhandler
  · rw [hv]; exact hvec
  · rw [hv, h.th]

end

/-! ### Instructions -/

/-- An instruction over its lanes, in a given state. -/
theorem execLanes_does {words : Nat} {g : Option (BitVec 4)} {f : Nat → LaneFn} {s : State} {ig : IssueGroup} {t : Team}
    {eff : View → Thread} (hf : Formed s ig t)
    (h : Each ig t fun c => LaneDoes (runLane (nextPc ig words) g (f (nextPc ig words))) s c (eff c)) :
    ∃ s', execLanes words g f s = .next s' ∧ OnlyThreads s s' ig t eff :=
  ⟨_, execLanes_next words g f s ig hf.1, swept_of_laneDoes hf h⟩

/-- An instruction whose every thread goes on at NextPC, in a given state. -/
theorem execSeq_does {words : Nat} {f : State → View → Lane State} {s : State} {ig : IssueGroup} {t : Team}
    {eff : View → Thread} (hf : Formed s ig t)
    (h : Each ig t fun c => ∀ s1 c1, Agrees s c s1 c1 → ∃ e, f s1 c1 = .ok (s1.modThread c1.id e) ∧ e c.th = eff c) :
    ∃ s', execSeq words none f s = .next s' ∧ OnlyThreads s s' ig t fun c => Thread.at (eff c) (nextPc ig words) := by
  refine execLanes_does hf fun n hn th hth => laneDoes_ok rfl fun s1 c1 hag => ?_
  obtain ⟨e, he, heff⟩ := h n hn th hth s1 c1 hag
  exact ⟨e, by rw [he]; rfl, heff⟩

end Sys2Proof.Proofs.Issue

/-! Moves between register files (R231 to R235): the register that `vget` and `vput` compute, `k` registers and their writer
records, special registers, and from these the statement. -/

namespace Sys2Proof.Proofs.RegisterFiles

open Sys2Proof Sys2Proof.Machine Sys2Proof.Claims Sys2Proof.Proofs.Lanes Sys2Proof.Proofs.Sweeps Sys2Proof.Proofs.Issue

/-! ### Indexed moves -/

/-- The register that `vget` and `vput` compute (R231). -/
def indexOf (x : XForm) (c : View) : Nat := x.imm.toNat % 2 ^ 10 + (c.th.v x.a.toNat).toNat % 2 ^ 10

theorem unpended_settled {c : View} {ns : List Nat} (h : Settled c ns) : c.unpended ns = .ok () := by
  have hnone : (ns.findSome? fun n => Tab.find n c.th.pend) = none := List.findSome?_eq_none_iff.2 fun n hn => (h n hn).1
  rw [View.unpended, hnone]

theorem sound_sound {c : View} {ns : List Nat} (h : Sound c ns) : c.sound ns = .ok () := by
  have hnone : (ns.find? fun n => c.th.bad.contains n) = none := List.find?_eq_none.2 fun n hn => by simpa using h n hn
  rw [View.sound, hnone]

theorem indexed_ok {c : View} (o : XOp) {x : XForm} {w : Nat} (hdest : c.dests [x.a.toNat] = .ok ())
    (hset : Settled c [x.a.toNat]) (hsnd : Sound c [x.a.toNat]) (hin : indexOf x c + w - 1 < c.alloc)
    (hal : indexOf x c % w = 0) : c.indexed o x w = .ok (indexOf x c) := by
  have hlow : ¬c.alloc ≤ indexOf x c + w - 1 := by omega
  unfold View.indexed
  simp only [hdest, unpended_settled hset, sound_sound hsnd, bind, Except.bind]
  rw [← indexOf, if_neg hlow, if_neg (by simpa using hal)]
  rfl

theorem indexed_agrees {s s1 : State} {c c1 : View} (h : Agrees s c s1 c1) (o : XOp) (x : XForm) (w : Nat) :
    c1.indexed o x w = c.indexed o x w := by
  simp only [View.indexed, View.unpended, View.sound, dests_agrees h, h.th, h.alloc]

theorem settled_of_subset {c : View} {ns ms : List Nat} (h : Settled c ms) (hs : ns ⊆ ms) : Settled c ns :=
  fun n hn => h n (hs hn)

theorem unheld_of_settled {c : View} {ns : List Nat} (h : Settled c ns) : Unheld c ns := fun n hn => ⟨(h n hn).1, fun _ => (h n hn).2⟩

theorem indexedMoves (x : XForm) :
    let w := x.ty.regs
    let n := fun (c : View) => x.imm.toNat % 2 ^ 10 + (c.th.v x.a.toNat).toNat % 2 ^ 10
    let named := fun (dst : List Nat) (src : View → List Nat) (all : View → List Nat) (_ : State) (c : View) =>
      c.dests [x.a.toNat] = .ok () ∧ c.dests dst = .ok () ∧ n c + w - 1 < c.alloc ∧ n c % w = 0 ∧
        Settled c (all c) ∧ Sound c (src c)
    Completes (.vget x) x.words
      (named (destOf x w) (fun c => x.a.toNat :: regSpan (n c) w) fun c => x.a.toNat :: regSpan (n c) w ++ destOf x w)
      (fun _ c => c.th.setVs x.d.toNat (c.th.vs (n c) w) w) ∧
    Completes (.vput x) x.words
      (named (regSpan x.b.toNat w) (fun _ => x.a.toNat :: regSpan x.b.toNat w)
        fun c => x.a.toNat :: regSpan x.b.toNat w ++ regSpan (n c) w)
      (fun _ c => c.th.setVs (n c) (c.th.vs x.b.toNat w) w) := by
  constructor
  case left =>
    refine completes_of_lane (.vget x) x.words _ _ _ rfl fun s c s1 c1 h ⟨hidx, hdst, hin, hal, hset, hsnd⟩ => ?_
    have hn := indexed_ok .vget hidx (settled_of_subset hset (by simp)) (fun n hn => hsnd n (by simp_all)) hin hal
    have hclaim := claimRegs_agrees h (settled_of_subset hset (List.subset_append_left _ _))
      (unheld_of_settled (settled_of_subset hset (List.subset_append_right _ _))) hsnd
    have hdests : c1.dests (regSpan x.d.toNat x.ty.regs) = .ok () := (dests_agrees h _).trans hdst
    have hclaim' : s1.claimRegs c1 (x.a.toNat :: regSpan (indexOf x c) x.ty.regs) (regSpan x.d.toNat x.ty.regs) = .ok s1 :=
      hclaim
    simp only [hdests, indexed_agrees h, hn, hclaim', bind, Except.bind]
    exact ⟨_, rfl, by simp only [h.th, indexOf]⟩
  case right =>
    refine completes_of_lane (.vput x) x.words _ _ _ rfl fun s c s1 c1 h ⟨hidx, hdst, hin, hal, hset, hsnd⟩ => ?_
    have hn := indexed_ok .vput hidx (settled_of_subset hset (by simp)) (fun n hn => hsnd n (by simp_all)) hin hal
    have hclaim := claimRegs_agrees h (settled_of_subset hset (List.subset_append_left _ _))
      (unheld_of_settled (settled_of_subset hset (List.subset_append_right _ _))) hsnd
    have hclaim' : s1.claimRegs c1 (x.a.toNat :: regSpan x.b.toNat x.ty.regs) (regSpan (indexOf x c) x.ty.regs) = .ok s1 :=
      hclaim
    simp only [(dests_agrees h _).trans hdst, indexed_agrees h, hn, hclaim', bind, Except.bind]
    exact ⟨_, rfl, by simp only [h.th, indexOf]⟩

/-! ### Special registers -/

theorem sreg_agrees {s s1 : State} {c c1 : View} (h : Agrees s c s1 c1) (n : Nat) : s1.sreg c1 n = s.sreg c n := by
  have hs : s1 = { s with teams := s1.teams } := (congrArg (fun u : State => { u with teams := s1.teams }) h.others.2 :)
  have ht : c1.team = { c.team with threads := c1.team.threads } :=
    (congrArg (fun u : Team => { u with threads := c1.team.threads }) h.team :)
  rw [hs]
  unfold State.sreg
  rw [ht, h.th, h.id]
  rfl

theorem flagsWait_false {s : State} {ig : IssueGroup} {t : Team} (hf : Formed s ig t)
    (h : Each ig t fun c => s.arrayBusy c = false) : s.flagsWait = false := by
  obtain ⟨hig, hteam, _, hlisted⟩ := hf
  simp only [State.flagsWait, hig, List.any_eq_false]
  intro n hn
  obtain ⟨th, hth⟩ := hlisted n hn
  rw [view_eq s _ t th hteam hth, Option.map_some, Option.getD_some, Bool.not_eq_true]
  exact h n hn th hth

theorem sysrd_completes (x : XForm) : Completes (.sysrd x) x.words
    (fun s c => Usable .sysrd x 0 0 0 (destOf x x.ty.regs) s c ∧ (x.a = 19 → s.arrayBusy c = false))
    fun s c =>
      let th := put x c (s.sreg c x.a.toNat)
      if Bits.bit x.imm.toNat 0 then { th with fpflags := 0 } else th := by
  intro s ig t hf hall
  have hwaits : (x.a == 19 && s.flagsWait) = false := by
    rw [Bool.and_eq_false_iff, beq_eq_false_iff_ne]
    by_cases ha : x.a = 19
    · exact .inr (flagsWait_false hf fun n hn th hth => (hall n hn th hth).2 ha)
    · exact .inl ha
  have he : exec (.sysrd x) s = execSeq x.words none (fun s c => do
      c.dests (regSpan x.d.toNat x.ty.regs)
      let s ← s.claimRegs c [] (regSpan x.d.toNat x.ty.regs)
      let v := s.sreg c x.a.toNat
      return s.modThread c.id fun th =>
        let th := th.setVs x.d.toNat v x.ty.regs
        if Bits.bit x.imm.toNat 0 then { th with fpflags := 0 } else th) s := by
    show execSysrd x s = _
    simp only [execSysrd, hwaits, Bool.false_eq_true, if_false, hf.1]
  rw [he]
  refine execSeq_does hf fun n hn th hth s1 c1 h => ?_
  obtain ⟨hu, _⟩ := hall n hn th hth
  have hdests : c1.dests (regSpan x.d.toNat x.ty.regs) = .ok () := dests_usable h hu
  have hclaim : s1.claimRegs c1 [] (regSpan x.d.toNat x.ty.regs) = .ok s1 :=
    claimRegs_agrees h (fun _ hm => nomatch hm) hu.2.2.2.1 fun _ hm => nomatch hm
  simp only [hdests, hclaim, bind, Except.bind]
  refine ⟨_, rfl, ?_⟩
  simp only [sreg_agrees h]
  rfl

/-! ### `k` registers -/

/-- `k` registers that hold no handle, no unread status and no uncorrectable word. -/
def Steady (t : Team) (ks : List Nat) : Prop :=
  ∀ k ∈ ks, Tab.find k t.kp = none ∧ Tab.find k t.kseen = none ∧ k ∉ t.kbad

theorem kReady_ok {t : Team} {ks : List Nat} (h : ∀ k ∈ ks, Tab.find k t.kp = none) : t.kReady ks = .ok () := by
  rw [Team.kReady, List.findSome?_eq_none_iff.2 h]

theorem kSound_ok {t : Team} {ks : List Nat} (h : ∀ k ∈ ks, k ∉ t.kbad) : t.kSound ks = .ok () := by
  have hnone : (ks.find? fun n => t.kbad.contains n) = none := List.find?_eq_none.2 fun k hk => by simpa using h k hk
  rw [Team.kSound, hnone]

/-- Registers of which no job's end is unread are observed without effect. -/
theorem kObserve_ok {s : State} {k : Nat} {t : Team} {ks : List Nat} (ht : s.team? k = some t)
    (h : ∀ n ∈ ks, Tab.find n t.kseen = none) : s.kObserve k ks = s := by
  rw [State.kObserve, ht]
  simp only [List.filterMap_eq_nil_iff.2 h]

theorem kmov_completes (x : XForm) :
    let ks := regSpan x.a.toNat x.ty.regs
    Completes (.kmov x) x.words
      (fun s c => Usable .kmov x 0 0 0 (destOf x x.ty.regs) s c ∧
        ∀ k ∈ ks, Tab.find k c.team.kp = none ∧ Tab.find k c.team.kseen = none ∧ k ∉ c.team.kbad)
      fun _ c => put x c (Bits.joinLE 32 (ks.map c.team.kreg)) := by
  refine completes_of_lane (.kmov x) x.words _ _ _ rfl fun s c s1 c1 h ⟨hu, hsteady⟩ => ?_
  have hdests : c1.dests (regSpan x.d.toNat x.ty.regs) = .ok () := dests_usable h hu
  have hclaim : s1.claimRegs c1 [] (regSpan x.d.toNat x.ty.regs) = .ok s1 :=
    claimRegs_agrees h (fun _ hm => nomatch hm) hu.2.2.2.1 fun _ hm => nomatch hm
  have hkp : c1.team.kp = c.team.kp := (congrArg Team.kp h.team :)
  have hkseen : c1.team.kseen = c.team.kseen := (congrArg Team.kseen h.team :)
  have hkbad : c1.team.kbad = c.team.kbad := (congrArg Team.kbad h.team :)
  have hk : c1.team.k = c.team.k := (congrArg Team.k h.team :)
  have hwatched : ∀ k ∈ regSpan x.a.toNat x.ty.regs, Tab.find k c1.team.kseen = none := fun k hk => by
    rw [hkseen]; exact (hsteady k hk).2.1
  simp only [hdests, hclaim, kReady_ok (t := c1.team) fun k hk => hkp ▸ (hsteady k hk).1,
    kSound_ok (t := c1.team) fun k hk => hkbad ▸ (hsteady k hk).2.2, kObserve_ok h.teamAt hwatched, bind, Except.bind]
  refine ⟨_, rfl, ?_⟩
  have hkreg : c1.team.kreg = c.team.kreg := by funext n; simp only [Team.kreg, hk]
  rw [hkreg, h.th]
  rfl

/-! #### Writer records -/

/-- What is put a second time is already there, whatever was put at another key in between. -/
theorem put_stays {α : Type} {k j : Nat} {v w : α} (t : Tab α) (hne : j ≠ k) (h : Tab.put k v t = t) :
    Tab.put k v (Tab.put j w t) = Tab.put j w t := by
  induction t with
  | nil => cases h
  | cons p t ih =>
    obtain ⟨a, u⟩ := p
    by_cases hka : k < a
    · rw [Tab.put, if_pos hka] at h
      exact absurd (congrArg List.length h) (by simp)
    · by_cases hk : k = a
      · subst hk
        rw [Tab.put, if_neg hka, if_pos rfl, List.cons.injEq] at h
        rw [Tab.put]
        split
        next hj => simp [Tab.put, h.1, show ¬k < j by omega, hne.symm]
        next hj => simp [Tab.put, h.1]
      · rw [Tab.put, if_neg hka, if_neg hk, List.cons.injEq] at h
        rw [Tab.put]
        split
        next hj => simp [Tab.put, show ¬k < j by omega, hne.symm, hka, hk, h.2]
        next hj =>
          split
          next hja => simp [Tab.put, show ¬k < j by omega, hne.symm, h.2]
          next => simp [Tab.put, hka, hk, ih h.2]

theorem foldl_put_stays {α : Type} {k : Nat} {v : α} (ks : List Nat) (t : Tab α) (h : k ∈ ks ∨ Tab.put k v t = t) :
    Tab.put k v (ks.foldl (fun m n => Tab.put n v m) t) = ks.foldl (fun m n => Tab.put n v m) t := by
  induction ks generalizing t with
  | nil => simpa using h
  | cons a ks ih =>
    refine ih (Tab.put a v t) ?_
    by_cases hka : k = a
    · exact .inr (hka ▸ put_put a v v t)
    · rcases h with h | h
      · exact .inl ((List.mem_cons.1 h).resolve_left hka)
      · exact .inr (put_stays t (Ne.symm hka) h)

/-- The records of a group that has written stay as they are when its next thread writes them. -/
theorem kOwn_kOwn (t : Team) (gid : Nat) (ks : List Nat) : (t.kOwn gid ks).kOwn gid ks = t.kOwn gid ks := by
  simp only [Team.kOwn]
  rw [foldl_unchanged (F := fun (m : Tab Nat) n => Tab.put n (gid + 1) m) ks fun k hk => foldl_put_stays ks t.kw (.inl hk)]

theorem find_foldl_put {α : Type} {k : Nat} {v : α} (ks : List Nat) (t : Tab α) :
    Tab.find k (ks.foldl (fun m n => Tab.put n v m) t) = if k ∈ ks then some v else Tab.find k t := by
  induction ks generalizing t with
  | nil => simp
  | cons a ks ih =>
    rw [List.foldl_cons, ih, Tab.find_put]
    by_cases hk : k ∈ ks <;> by_cases ha : k = a <;> simp [hk, ha]

theorem find_foldl_del {α : Type} {k : Nat} (ks : List Nat) (t : Tab α) :
    Tab.find k (ks.foldl (fun m n => Tab.del n m) t) = if k ∈ ks then none else Tab.find k t := by
  induction ks generalizing t with
  | nil => simp
  | cons a ks ih =>
    rw [List.foldl_cons, ih, Tab.find_del]
    by_cases hk : k ∈ ks <;> by_cases ha : k = a <;> simp [hk, ha]

/-- A group's own records raise no race (R133). -/
theorem kRace_kOwn (t : Team) (gid : Nat) (ks : List Nat) : (t.kOwn gid ks).kRace gid ks = none := by
  refine List.find?_eq_none.2 fun k hk => ?_
  simp only [Team.kOwn, find_foldl_put, if_pos hk]
  simp

/-! #### `kset` -/

/-- One thread's part in `kset`: the lowest lane writes the registers (R133, R234). -/
def ksetLane (x : XForm) (first : Bool) (s : State) (c : View) : Lane State := do
  let r ← c.operands .kset x x.ty.regs 0 0
  c.team.kReady (regSpan x.d.toNat x.ty.regs)
  let s ← s.claimRegs c r.srcs []
  s.kWrite c (regSpan x.d.toNat x.ty.regs) first fun t => t.setK x.d.toNat (c.th.vs r.a x.ty.regs) x.ty.regs

/-- One thread's turn in the sweep of `kset`. -/
def ksetTurn (x : XForm) (team next : Nat) (acc : State × Bool) (n : Nat) : State × Bool :=
  match acc.1.view { team, n } with
  | none => acc
  | some c =>
    match ksetLane x acc.2 acc.1 c with
    | .ok s => (s.modThread c.id fun th => { th with pc := BitVec.ofNat 64 next }, false)
    | .error (.fault f) => (acc.1.deliver c.id f next, acc.2)
    | .error (.park w) => (acc.1.modThread c.id fun th => { th with wait := w }, acc.2)

theorem exec_kset {x : XForm} {s : State} {ig : IssueGroup} (h : s.ig = some ig) :
    exec (.kset x) s = .next (ig.threads.foldl (ksetTurn x ig.team (nextPc ig x.words)) (s, true)).1 := by
  show execKset x s = _
  unfold execKset
  rw [h]
  rfl

/-- In the middle of the sweep: the team's fields are those of `u`, and the threads done have gone on. -/
def KsetDone (s : State) (k next : Nat) (t u : Team) (done : List Nat) (s1 : State) : Prop :=
  ∃ t1, s1.team? k = some t1 ∧ { t1 with threads := [] } = { u with threads := [] } ∧
    ThreadsOf t t1 done (fun _ th => Thread.at th next) ∧ OnlyTeam s s1 k

/-- A thread's turn: it changes its team by `f` and goes on. -/
theorem ksetDone_turn {s s1 : State} {k next n : Nat} {t u : Team} {done : List Nat} {t1 : Team} {f : Team → Team}
    (hteam : s1.team? k = some t1) (hthreads : ThreadsOf t t1 done fun _ th => Thread.at th next) (honly : OnlyTeam s s1 k)
    (hn : n ∉ done) (hf : { f t1 with threads := [] } = { u with threads := [] }) (hsame : (f t1).threads = t1.threads) :
    KsetDone s k next t u (n :: done)
      ((s1.modTeam k f).modThread { team := k, n } fun th => { th with pc := BitVec.ofNat 64 next }) := by
  obtain ⟨hin, hout⟩ := hthreads
  refine ⟨(f t1).modThread n fun th => Thread.at th next, ?_, ?_, ⟨fun m hm => ?_, fun m hm => ?_⟩, fun j hj => ?_, honly.2⟩
  · rw [team?_modThread, if_pos rfl, team?_modTeam, if_pos rfl, hteam]
    rfl
  · exact hf
  · rw [Team.modThread, Tab.find_modify, hsame]
    rcases List.mem_cons.1 hm with rfl | hm
    · rw [if_pos rfl, hout m hn]
    · rw [if_neg fun e : m = n => hn (e ▸ hm), hin m hm]
  · rw [Team.modThread, Tab.find_modify, hsame, if_neg fun e : m = n => hm (e ▸ List.mem_cons_self),
      hout m fun h => hm (List.mem_cons_of_mem n h)]
  · rw [team?_modThread, if_neg hj, team?_modTeam, if_neg hj, honly.1 j hj]

/-- A thread whose registers are ready writes, or owns, the `k` registers. -/
theorem ksetLane_ok {x : XForm} {first : Bool} {s1 : State} {k n : Nat} {t t1 : Team} {th : Thread}
    (hteam : s1.team? k = some t1) (hth : Tab.find n t1.threads = some th) (halloc : t1.alloc n = t.alloc n)
    (hgid : t1.gid n = t.gid n) (hu : ∀ s, Usable .kset x x.ty.regs 0 0 [] s (viewOf k t n th))
    (hkp : ∀ r ∈ regSpan x.d.toNat x.ty.regs, Tab.find r t1.kp = none)
    (hrace : t1.kRace (t.gid n) (regSpan x.d.toNat x.ty.regs) = none)
    (hseen : ∀ r ∈ regSpan x.d.toNat x.ty.regs, (viewOf k t n th).awaited (1024 + r) = true → Tab.find r t1.kseen = none) :
    ksetLane x first s1 (viewOf k t1 n th) = .ok (s1.modTeam k fun u =>
      if first then ((u.kForget (regSpan x.d.toNat x.ty.regs)).setK x.d.toNat
        (th.vs (regsOf (viewOf k t n th) .kset x x.ty.regs 0 0).a x.ty.regs) x.ty.regs).kOwn (t.gid n)
          (regSpan x.d.toNat x.ty.regs)
      else u.kOwn (t.gid n) (regSpan x.d.toNat x.ty.regs)) := by
  have hops : (viewOf k t1 n th).operands .kset x x.ty.regs 0 0 =
      .ok (regsOf (viewOf k t n th) .kset x x.ty.regs 0 0) :=
    (Laws.Completes.operands_team (viewOf k t1 n th) (viewOf k t n th) _ _ _ _ _ rfl halloc).trans (operands_of_usable (hu s1))
  obtain ⟨_, _, hset, hdst, hsnd⟩ := hu s1
  have hclaim : s1.claimRegs (viewOf k t1 n th) (regsOf (viewOf k t n th) .kset x x.ty.regs 0 0).srcs [] = .ok s1 :=
    claimRegs_settled s1 _ _ _ (thread?_of_find hteam hth) (fun m hm => (hset m (by simpa using hm)).1)
      (fun m hm => (hset m (by simpa [View.observed] using hm)).2) hsnd
  have hobs : s1.kObserve k ((regSpan x.d.toNat x.ty.regs).filter fun r => (viewOf k t1 n th).awaited (1024 + r)) = s1 :=
    kObserve_ok hteam fun r hr => hseen r (List.mem_filter.1 hr).1 (List.mem_filter.1 hr).2
  unfold ksetLane
  simp only [hops, kReady_ok (t := (viewOf k t1 n th).team) hkp, hclaim, bind, Except.bind]
  unfold State.kWrite
  have hrace' : (viewOf k t1 n th).team.kRace ((viewOf k t1 n th).team.gid (viewOf k t1 n th).id.n)
      (regSpan x.d.toNat x.ty.regs) = none := by
    show t1.kRace (t1.gid n) _ = none
    rw [hgid, hrace]
  simp only [hrace']
  show Except.ok ((s1.kObserve k _).modTeam k _) = _
  rw [hobs]
  show Except.ok (s1.modTeam k fun u => if first then (Team.kOwn _ (t1.gid n) _) else u.kOwn (t1.gid n) _) = _
  rw [hgid]
  rfl

theorem setK_rest (t : Team) (n v w : Nat) : { t.setK n v w with k := t.k } = t := by
  induction w generalizing t n v with
  | zero => rfl
  | succ w ih =>
    exact congrArg (fun u : Team => { u with k := t.k }) (ih { t with k := Tab.set 0 n (BitVec.ofNat 32 v) t.k } (n + 1) _)

/-- The team's fields after the lowest lane has written `v` (R133, R234). -/
def ksetTeam (x : XForm) (t : Team) (gid v : Nat) : Team :=
  ((t.kForget (regSpan x.d.toNat x.ty.regs)).setK x.d.toNat v x.ty.regs).kOwn gid (regSpan x.d.toNat x.ty.regs)

/-- Besides the registers, their records and their marks it is the team before. -/
theorem ksetTeam_rest (x : XForm) (t : Team) (gid v : Nat) :
    { ksetTeam x t gid v with k := t.k, kw := t.kw, kseen := t.kseen, kbad := t.kbad } = t :=
  congrArg (fun u : Team => { u with k := t.k, kw := t.kw, kseen := t.kseen, kbad := t.kbad })
    (setK_rest (t.kForget (regSpan x.d.toNat x.ty.regs)) x.d.toNat v x.ty.regs)

theorem ksetTeam_kseen (x : XForm) (t : Team) (gid v : Nat) :
    (ksetTeam x t gid v).kseen = (t.kForget (regSpan x.d.toNat x.ty.regs)).kseen :=
  (congrArg Team.kseen (setK_rest (t.kForget (regSpan x.d.toNat x.ty.regs)) x.d.toNat v x.ty.regs) :)

theorem threads_setK (t : Team) (n v w : Nat) : (t.setK n v w).threads = t.threads :=
  (congrArg Team.threads (setK_rest t n v w) :)

section
variable {x : XForm} {s : State} {ig : IssueGroup} {t : Team} {n : Nat} {th : Thread} (hf : Formed s ig t)
  (hgroup : ∀ m ∈ ig.threads, t.gid m = t.gid n) (hkp : ∀ r ∈ regSpan x.d.toNat x.ty.regs, Tab.find r t.kp = none)
  (hall : Each ig t fun c => Usable .kset x x.ty.regs 0 0 [] s c ∧
    ∀ r ∈ regSpan x.d.toNat x.ty.regs, c.awaited (1024 + r) = true → Tab.find r t.kseen = none)
include hf hgroup hkp hall

omit hgroup in
/-- The lowest lane's turn. -/
theorem kset_first (hn : n ∈ ig.threads) (hth : Tab.find n t.threads = some th)
    (hrace : t.kRace (t.gid n) (regSpan x.d.toNat x.ty.regs) = none) :
    let v := th.vs (regsOf (viewOf ig.team t n th) .kset x x.ty.regs 0 0).a x.ty.regs
    ∃ s1, ksetTurn x ig.team (nextPc ig x.words) (s, true) n = (s1, false) ∧
      KsetDone s ig.team (nextPc ig x.words) t (ksetTeam x t (t.gid n) v) [n] s1 := by
  obtain ⟨_, hteam, _, _⟩ := hf
  obtain ⟨hu, hseen⟩ := hall n hn th hth
  have hview : s.view { team := ig.team, n } = some (viewOf ig.team t n th) := view_eq s _ t th hteam hth
  have hlane := ksetLane_ok (first := true) hteam hth rfl rfl (fun _ => hu) hkp hrace hseen
  refine ⟨_, by simp only [ksetTurn, hview, hlane]; rfl, ?_⟩
  refine ksetDone_turn hteam ⟨by simp, fun _ _ => rfl⟩ ⟨fun _ _ => rfl, rfl⟩ (by simp) rfl ?_
  exact threads_setK (t.kForget (regSpan x.d.toNat x.ty.regs)) _ _ _

/-- A later lane's turn. -/
theorem kset_later {m v : Nat} {done : List Nat} {s1 : State} (hm : m ∈ ig.threads) (hnew : m ∉ done)
    (hdone : KsetDone s ig.team (nextPc ig x.words) t (ksetTeam x t (t.gid n) v) done s1) :
    ∃ s2, ksetTurn x ig.team (nextPc ig x.words) (s1, false) m = (s2, false) ∧
      KsetDone s ig.team (nextPc ig x.words) t (ksetTeam x t (t.gid n) v) (m :: done) s2 := by
  obtain ⟨t1, hteam1, hsame, hthreads, honly⟩ := hdone
  obtain ⟨th, hth⟩ := hf.2.2.2 m hm
  obtain ⟨hu, _⟩ := hall m hm th hth
  have hth1 : Tab.find m t1.threads = some th := (hthreads.2 m hnew).trans hth
  have hrest := ksetTeam_rest x t (t.gid n) v
  have ht1 : { t1 with k := t.k, kw := t.kw, kseen := t.kseen, kbad := t.kbad, threads := t.threads } = t := by
    have h := congrArg (fun u : Team => { u with k := t.k, kw := t.kw, kseen := t.kseen, kbad := t.kbad, threads := t.threads })
      hsame
    exact h.trans (congrArg (fun u : Team => { u with threads := t.threads }) hrest)
  have hkw : t1.kw = (ksetTeam x t (t.gid n) v).kw := (congrArg Team.kw hsame :)
  have hkseen : t1.kseen = (ksetTeam x t (t.gid n) v).kseen := (congrArg Team.kseen hsame :)
  have hkp1 : t1.kp = t.kp := (congrArg Team.kp ht1 :)
  have hgid : t1.gid m = t.gid m := (congrArg (Team.gid · m) ht1 :)
  have halloc : t1.alloc m = t.alloc m := (congrArg (Team.alloc · m) ht1 :)
  have hview : s1.view { team := ig.team, n := m } = some (viewOf ig.team t1 m th) := view_eq s1 _ t1 th hteam1 hth1
  have hrace : t1.kRace (t.gid m) (regSpan x.d.toNat x.ty.regs) = none := by
    rw [hgroup m hm, ← kRace_kOwn ((t.kForget (regSpan x.d.toNat x.ty.regs)).setK x.d.toNat v x.ty.regs) (t.gid n)
      (regSpan x.d.toNat x.ty.regs)]
    simp only [Team.kRace, hkw, ksetTeam]
  have hlane := ksetLane_ok (first := false) hteam1 hth1 halloc hgid (fun _ => hu) (hkp1 ▸ hkp) hrace fun r hr _ => by
    rw [hkseen, ksetTeam_kseen, Team.kForget, find_foldl_del, if_pos hr]
  refine ⟨_, by simp only [ksetTurn, hview, hlane]; rfl, ?_⟩
  refine ksetDone_turn hteam1 hthreads honly hnew ?_ rfl
  rw [hgroup m hm]
  have howned := congrArg (fun u : Team => u.kOwn (t.gid n) (regSpan x.d.toNat x.ty.regs)) hsame
  refine howned.trans ?_
  exact congrArg (fun u : Team => { u with threads := [] }) (kOwn_kOwn _ _ _)

/-- The turns after the first. -/
theorem kset_rest {v : Nat} (ms : List Nat) : ∀ (done : List Nat) (s1 : State), (∀ m ∈ ms, m ∈ ig.threads) → ms.Nodup →
    (∀ m ∈ ms, m ∉ done) → KsetDone s ig.team (nextPc ig x.words) t (ksetTeam x t (t.gid n) v) done s1 →
    KsetDone s ig.team (nextPc ig x.words) t (ksetTeam x t (t.gid n) v) (ms.reverse ++ done)
      (ms.foldl (ksetTurn x ig.team (nextPc ig x.words)) (s1, false)).1 := by
  induction ms with
  | nil => exact fun _ _ _ _ _ h => h
  | cons m ms ih =>
    intro done s1 hin hnodup hnew hdone
    obtain ⟨hm, hnodup⟩ := List.nodup_cons.1 hnodup
    obtain ⟨s2, hturn, hdone2⟩ := kset_later hf hgroup hkp hall (hin m List.mem_cons_self) (hnew m List.mem_cons_self) hdone
    rw [List.foldl_cons, hturn, List.reverse_cons, List.append_assoc]
    refine ih (m :: done) s2 (fun a ha => hin a (List.mem_cons_of_mem m ha)) hnodup (fun a ha hmem => ?_) hdone2
    rcases List.mem_cons.1 hmem with rfl | hmem
    · exact hm ha
    · exact hnew a (List.mem_cons_of_mem m ha) hmem

end

theorem kset_writes (x : XForm) (s : State) (ig : IssueGroup) (t : Team) (n : Nat) (th : Thread) (rest : List Nat)
    (hf : Formed s ig t) (hthreads : ig.threads = n :: rest) (hth : Tab.find n t.threads = some th)
    (hgroup : ∀ m ∈ ig.threads, t.gid m = t.gid n) (hkp : ∀ r ∈ regSpan x.d.toNat x.ty.regs, Tab.find r t.kp = none)
    (hrace : t.kRace (t.gid n) (regSpan x.d.toNat x.ty.regs) = none)
    (hall : Each ig t fun c => Usable .kset x x.ty.regs 0 0 [] s c ∧
      ∀ r ∈ regSpan x.d.toNat x.ty.regs, c.awaited (1024 + r) = true → Tab.find r t.kseen = none) :
    ∃ s' t', exec (.kset x) s = .next s' ∧ OnlyTeam s s' ig.team ∧ s'.team? ig.team = some t' ∧
      { t' with threads := [] } = { ksetTeam x t (t.gid n)
        (th.vs (regsOf (viewOf ig.team t n th) .kset x x.ty.regs 0 0).a x.ty.regs) with threads := [] } ∧
      ThreadsOf t t' ig.threads fun _ th => Thread.at th (nextPc ig x.words) := by
  obtain ⟨hfresh, hnodup⟩ := List.nodup_cons.1 (hthreads ▸ hf.2.2.1)
  obtain ⟨s1, hturn, hfirst⟩ := kset_first hf hkp hall (by simp [hthreads]) hth hrace
  obtain ⟨t', hteam, hfields, hdone, honly⟩ := kset_rest hf hgroup hkp hall rest [n] s1 (fun m hm => by simp [hthreads, hm])
    hnodup (fun m hm => by rintro h; exact hfresh (List.mem_singleton.1 h ▸ hm)) hfirst
  refine ⟨_, t', by rw [exec_kset hf.1, hthreads, List.foldl_cons, hturn], honly, hteam, hfields, ?_⟩
  have hmem : ∀ m, m ∈ ig.threads ↔ m ∈ rest.reverse ++ [n] := fun m => by simp [hthreads, or_comm]
  exact ⟨fun m hm => hdone.1 m ((hmem m).1 hm), fun m hm => hdone.2 m fun h => hm ((hmem m).2 h)⟩

/-- Settles O9: a lane claims its registers and moves them; `kset`'s lowest lane writes for its group (`kset_writes`). -/
theorem registersAndStaging : Obligations.RegistersAndStaging := by
  unfold Obligations.RegistersAndStaging
  refine ⟨⟨indexedMoves, kmov_completes, kset_writes, sysrd_completes⟩, fun x => ?_⟩
  exact NopOnlyAdvances.completes_unchanging (.stage x) x.words rfl

end Sys2Proof.Proofs.RegisterFiles

/-! Claiming and giving registers (R128 to R130, R232): the groups that stand on a partition, what settling the partition does
where no claim waits and where one does, and from these the statement about `xclaim` and `xgive`. -/

namespace Sys2Proof.Proofs.RegisterPool

open Sys2Proof Sys2Proof.Machine Sys2Proof.Claims Sys2Proof.Proofs.Sweeps

/-! ### One group -/

theorem groupsOf_single {f : Nat → Nat} {ns : List Nat} {g : Nat} (hne : ns ≠ []) (h : ∀ n ∈ ns, f n = g) :
    groupsOf f ns = [g] := by
  obtain ⟨m, hm⟩ := List.exists_mem_of_ne_nil ns hne
  have hmem : ∀ a, a ∈ groupsOf f ns ↔ a = g := fun a => by
    rw [mem_groupsOf]
    constructor
    · rintro ⟨n, hn, rfl⟩
      exact h n hn
    · rintro rfl
      exact ⟨m, hm, h m hm⟩
  refine List.Perm.eq_singleton ((List.perm_ext_iff_of_nodup (nodup_groupsOf f ns) (List.nodup_singleton g)).2 fun a => ?_)
  rw [hmem, List.mem_singleton]

theorem filter_single {f : Nat → Nat} {ns : List Nat} {g : Nat} (h : ∀ n ∈ ns, f n = g) :
    (ns.filter fun n => f n == g) = ns := List.filter_eq_self.2 fun n hn => beq_iff_eq.2 (h n hn)

/-- An instruction of one hardware group acts once. -/
theorem execGroups_single {words : Nat} {f : Nat → State → Team → Nat → Nat → List Nat → State} {s : State} {ig : IssueGroup}
    {t : Team} {gk : Nat} (hig : s.ig = some ig) (hteam : s.team? ig.team = some t) (hne : ig.threads ≠ [])
    (hhw : ∀ n ∈ ig.threads, t.hw n = gk) :
    execGroups words f s = .next (f (nextPc ig words) s t ig.team gk ig.threads) := by
  simp only [execGroups, hig, hteam, groupsOf_single hne hhw, List.foldl_cons, List.foldl_nil, filter_single hhw]
  rfl

/-! ### Tables in order -/

theorem modify_eq_map {α : Type} (k : Nat) (f : α → α) (t : Tab α) (h : Tab.sorted t = true) :
    Tab.modify k f t = t.map fun p => if p.1 = k then (p.1, f p.2) else p := by
  rw [Tab.sorted_iff] at h
  induction t with
  | nil => rfl
  | cons p t ih =>
    obtain ⟨a, v⟩ := p
    obtain ⟨hlow, hrest⟩ := List.pairwise_cons.1 h
    have hsame : k ≤ a → (t.map fun p => if p.1 = k then (p.1, f p.2) else p) = t := fun hk =>
      (List.map_congr_left fun q hq => if_neg (by have := hlow q hq; simp only at this; omega)).trans (List.map_id t)
    have ih := ih hrest
    unfold Tab.modify at ih ⊢
    rw [Tab.find_cons, List.map_cons]
    by_cases hk : k = a
    · subst hk
      simp [Tab.put, hsame (Nat.le_refl k)]
    · rw [if_neg hk, if_neg (Ne.symm hk)]
      cases hf : Tab.find k t with
      | none =>
        rw [hf] at ih
        rw [← ih]
      | some u =>
        rw [hf] at ih
        have hlt : ¬k < a := fun hlt => by
          have := hlow _ (Tab.mem_of_find hf)
          simp only at this
          omega
        simp only [Tab.put, if_neg hlt, if_neg hk]
        rw [← ih]

/-! ### The groups on a partition -/

/-- Whether a listed team's group stands on a partition. -/
def standing (core part : Nat) (p : Nat × Team) : List (Nat × Nat × Nat × Group) :=
  if p.2.place == .core core then
    (p.2.groups.filter fun q => q.2.part == part && q.2.held).map fun q => (p.2.stamp, p.1, q.1, q.2)
  else []

/-- One group put among others, by launch stamp. -/
def insertStamp (e : Nat × Nat × Nat × Group) (acc : List (Nat × Nat × Nat × Group)) : List (Nat × Nat × Nat × Group) :=
  (acc.takeWhile fun a => a.1 < e.1) ++ e :: (acc.dropWhile fun a => a.1 < e.1)

theorem groupsOn_eq (s : State) (core part : Nat) :
    s.groupsOn core part = ((s.teams.flatMap (standing core part)).foldr insertStamp []).map (·.2) := rfl

theorem insertStamp_perm (e : Nat × Nat × Nat × Group) (acc : List (Nat × Nat × Nat × Group)) :
    (insertStamp e acc).Perm (e :: acc) := by
  refine List.perm_middle.trans (List.Perm.cons e ?_)
  rw [List.takeWhile_append_dropWhile]

theorem foldr_insertStamp_perm (l : List (Nat × Nat × Nat × Group)) : (l.foldr insertStamp []).Perm l := by
  induction l with
  | nil => rfl
  | cons e l ih => exact (insertStamp_perm e _).trans (List.Perm.cons e ih)

/-- The groups on a partition in the order of their tables. -/
theorem groupsOn_perm (s : State) (core part : Nat) :
    (s.groupsOn core part).Perm ((s.teams.flatMap (standing core part)).map (·.2)) :=
  (foldr_insertStamp_perm _).map _

theorem mem_groupsOn {s : State} {core part k gk : Nat} {g : Group} :
    (k, gk, g) ∈ s.groupsOn core part ↔
      ∃ t, (k, t) ∈ s.teams ∧ t.place = .core core ∧ (gk, g) ∈ t.groups ∧ g.part = part ∧ g.held = true := by
  rw [(groupsOn_perm s core part).mem_iff]
  simp only [List.mem_map, List.mem_flatMap, standing]
  constructor
  · rintro ⟨⟨st, k', gk', g'⟩, ⟨⟨k'', t⟩, ht, he⟩, heq⟩
    split at he
    next hplace =>
      obtain ⟨⟨a, b⟩, hq, hqe⟩ := List.mem_map.1 he
      obtain ⟨hmem, hok⟩ := List.mem_filter.1 hq
      simp only [Prod.mk.injEq] at hqe heq
      obtain ⟨-, rfl, rfl, rfl⟩ := hqe
      obtain ⟨rfl, rfl, rfl⟩ := heq
      rw [Bool.and_eq_true, beq_iff_eq] at hok
      exact ⟨t, ht, beq_iff_eq.1 hplace, hmem, hok⟩
    next => cases he
  · rintro ⟨t, ht, hplace, hg, hpart, hheld⟩
    refine ⟨(t.stamp, k, gk, g), ⟨(k, t), ht, ?_⟩, rfl⟩
    rw [if_pos (beq_iff_eq.2 hplace)]
    exact List.mem_map.2 ⟨(gk, g), List.mem_filter.2 ⟨hg, by simp [hpart, hheld]⟩, rfl⟩

/-! ### Where no claim waits -/

theorem grantClaims_noClaims {s : State} (h : NoClaims s) (core part fuel : Nat) : s.grantClaims core part fuel = s := by
  cases fuel with
  | zero => rfl
  | succ fuel =>
    have hnone : ((s.groupsOn core part).find? fun (_, _, g) => g.claim.isSome) = none := by
      refine List.find?_eq_none.2 fun ⟨k, gk, g⟩ he => ?_
      obtain ⟨t, ht, _, hg, _⟩ := mem_groupsOn.1 he
      have hclaim : g.claim = none := h _ ht _ hg
      simp [hclaim]
    rw [State.grantClaims, hnone]

/-- Without a claim the check of R130 refuses nobody. -/
theorem refuseClaims_noClaims {s : State} (h : NoClaims s) (core part : Nat) :
    s.refuseClaims core part = s ∨ ∃ k, ∃ f : Team → Team, s.refuseClaims core part = s.modTeam k f ∧
      ∀ t, s.team? k = some t → f t = t := by
  unfold State.refuseClaims
  simp only
  split
  · split
    · exact .inl rfl
    next k gk g _ =>
      refine .inr ⟨k, _, rfl, fun t ht => ?_⟩
      refine foldl_unchanged t.groups fun q hq => ?_
      simp [h _ (Tab.mem_of_find ht) q hq]
  · exact .inl rfl

/-- A change of a team that has no effect on it is none. -/
theorem team?_modTeam_id {s : State} {k : Nat} {f : Team → Team} (hf : ∀ t, s.team? k = some t → f t = t) (j : Nat) :
    (s.modTeam k f).team? j = s.team? j := by
  rw [team?_modTeam]
  split
  next h =>
    subst h
    cases ht : s.team? j with
    | none => rfl
    | some t => rw [Option.map_some, hf t ht]
  next => rfl

theorem noClaims_modTeam_keeps {s : State} {k : Nat} {f : Team → Team} (h : NoClaims s)
    (hf : ∀ t, s.team? k = some t → ∀ q ∈ (f t).groups, q.2.claim = none) : NoClaims (s.modTeam k f) := by
  intro p hp
  unfold State.modTeam Tab.modify at hp
  simp only at hp
  split at hp
  next t ht =>
    rcases Tab.mem_put hp with rfl | hp
    · exact hf t ht
    · exact h p hp
  next => exact h p hp

/-- Settling a partition where no claim waits changes no team. -/
theorem settleClaims_noClaims {s : State} (h : NoClaims s) (core part : Nat) (k : Nat) :
    (s.settleClaims core part).team? k = s.team? k := by
  rw [State.settleClaims, grantClaims_noClaims h]
  rcases refuseClaims_noClaims h core part with hr | ⟨j, f, hr, hf⟩
  · rw [hr, grantClaims_noClaims h]
  · have hkeeps : NoClaims (s.modTeam j f) := noClaims_modTeam_keeps h fun t ht => by
      rw [hf t ht]
      exact h _ (Tab.mem_of_find ht)
    rw [hr, grantClaims_noClaims hkeeps, team?_modTeam_id hf]

/-! ### `xgive` -/

theorem thread?_of_team? {s : State} {k n : Nat} {t : Team} (h : s.team? k = some t) :
    s.thread? { team := k, n } = Tab.find n t.threads := by simp [State.thread?, h]

/-- A thread whose registers at or above `lim` have left its group's blocks. -/
def dropped (lim : Nat) (th : Thread) : Thread :=
  { th with
    regs := th.regs.filter fun p => p.1 < lim, bad := th.bad.filter fun n => n < lim
    pend := th.pend.filter fun p => p.1 < lim, seen := th.seen.filter fun p => p.1 < lim }

theorem find_dropAbove (t : Team) (gk lim n : Nat) :
    Tab.find n (t.dropAbove gk lim).threads =
      (Tab.find n t.threads).map fun th => if t.hw n == gk then dropped lim th else th := by
  refine Eq.trans (congrArg (Tab.find n) (List.map_congr_left fun p _ => ?_))
    (Tab.find_map_val (fun n th => if t.hw n == gk then dropped lim th else th) n t.threads)
  obtain ⟨m, th⟩ := p
  simp only
  split <;> rfl

/-- `xgive` of a group of which nothing in flight will write a released register (R128). -/
theorem exec_xgive {x : XForm} {s : State} {ig : IssueGroup} {t : Team} {gk : Nat} (hig : s.ig = some ig)
    (hteam : s.team? ig.team = some t) (hne : ig.threads ≠ []) (hhw : ∀ n ∈ ig.threads, t.hw n = gk)
    (hflight : s.inFlight ig.team gk (t.base + claimTarget x) = false) :
    exec (.xgive x) s = .next (ig.threads.foldl (fun s n => s.modThread { team := ig.team, n } fun th =>
      Thread.at th (nextPc ig x.words)) (s.shrink ig.team gk (claimTarget x))) := by
  have hwaits : s.giveWaits (claimTarget x) = false := by
    simp [State.giveWaits, hig, hteam, groupsOf_single hne hhw, hflight]
  show execXgive x s = _
  unfold execXgive
  simp only [hwaits, Bool.false_eq_true, if_false]
  exact execGroups_single hig hteam hne hhw

theorem give_nothing {x : XForm} {s : State} {ig : IssueGroup} {t : Team} {gk : Nat} {g : Group} (hf : Formed s ig t)
    (hg : Tab.find gk t.groups = some g) (hle : g.x ≤ claimTarget x)
    (he : exec (.xgive x) s = .next (ig.threads.foldl (fun s n => s.modThread { team := ig.team, n } fun th =>
      Thread.at th (nextPc ig x.words)) (s.shrink ig.team gk (claimTarget x)))) :
    ∃ s', exec (.xgive x) s = .next s' ∧ OnlyThreads s s' ig t fun c => Thread.at c.th (nextPc ig x.words) := by
  have hshrink : s.shrink ig.team gk (claimTarget x) = s := by simp [State.shrink, hf.2.1, hg, hle]
  rw [hshrink] at he
  exact ⟨_, he, onlyThreads_of_swept hf (foldl_modThread ig.team (fun _ th => Thread.at th _) _ s hf.2.2.1)
    fun _ _ _ _ => rfl⟩

theorem giveReleases : GiveReleases := by
  intro x s ig t gk g hf hne hhw hg hflight
  obtain ⟨hig, hteam, hnodup, _⟩ := id hf
  have he := exec_xgive hig hteam hne hhw hflight
  refine ⟨fun hle => give_nothing hf hg hle he, fun hlt hno => ⟨_, he, ?_⟩⟩
  let t1 := (t.dropAbove gk (t.base + claimTarget x)).modGroup gk fun g => { g with x := claimTarget x }
  have hshrink : (s.shrink ig.team gk (claimTarget x)).team? ig.team = some t1 := by
    have hle : ¬g.x ≤ claimTarget x := by omega
    simp only [State.shrink, hteam, hg, Option.getD_some, hle, if_false]
    rw [settleClaims_noClaims (noClaims_modTeam_keeps hno fun u hu q hq => ?_), team?_modTeam, if_pos rfl, hteam]
    · rfl
    · unfold Team.modGroup Tab.modify at hq
      simp only at hq
      split at hq
      next g' hg' =>
        rcases Tab.mem_put hq with rfl | hq
        · exact (hno _ (Tab.mem_of_find hu) (gk, g') (Tab.mem_of_find hg') :)
        · exact hno _ (Tab.mem_of_find hu) _ hq
      next => exact hno _ (Tab.mem_of_find hu) _ hq
  obtain ⟨hin, _, hbut⟩ := foldl_modThread ig.team (fun _ th => Thread.at th (nextPc ig x.words)) ig.threads
    (s.shrink ig.team gk (claimTarget x)) hnodup
  refine ⟨fun n hn th hth => ?_, ?_⟩
  · refine ⟨Thread.at (dropped (t.base + claimTarget x) th) (nextPc ig x.words), (hin n hn).trans ?_, rfl, rfl, rfl⟩
    rw [thread?_of_team? hshrink]
    show ((Tab.find n (t.dropAbove gk (t.base + claimTarget x)).threads).map _) = _
    rw [find_dropAbove, hth, Option.map_some, if_pos (beq_iff_eq.2 (hhw n hn))]
    rfl
  · obtain ⟨t', hteam', hagree⟩ := team?_of_sameBut hbut hshrink
    refine ⟨t', hteam', ?_⟩
    have hgroups : t'.groups = t1.groups := (congrArg Team.groups hagree :)
    rw [hgroups]
    show ((Tab.find gk (Tab.modify gk _ t.groups)).map Group.x) = _
    rw [Tab.find_modify_same, hg]
    rfl

/-! ### `xclaim` -/

/-- The registers that a listed team's groups use on a partition (R125). -/
def usedBy (core part : Nat) (p : Nat × Team) : Nat :=
  ((standing core part p).map fun e => p.2.base + e.2.2.2.x).sum

theorem regsUsed_eq (s : State) (core part : Nat) (hs : Tab.sorted s.teams = true) :
    s.regsUsed core part = (s.teams.map (usedBy core part)).sum := by
  have hfold : ∀ (l : List (Nat × Nat × Group)) (n : Nat) (w : Nat × Nat × Group → Nat),
      l.foldl (fun n e => n + w e) n = n + (l.map w).sum := by
    intro l
    induction l with
    | nil => simp
    | cons e l ih =>
      intro n w
      rw [List.foldl_cons, ih, List.map_cons, List.sum_cons]
      omega
  have hsum : s.regsUsed core part =
      ((s.groupsOn core part).map fun e => ((s.team? e.1).map Team.base).getD 0 + e.2.2.x).sum := by
    refine Eq.trans ?_ ((hfold (s.groupsOn core part) 0 _).trans (Nat.zero_add _))
    exact congrArg (fun F => List.foldl F 0 (s.groupsOn core part)) (funext fun n => funext fun e => Nat.add_assoc n _ _)
  rw [hsum, ((groupsOn_perm s core part).map _).sum_eq, List.map_map, List.map_flatMap, List.flatMap_def,
    List.sum_flatten, List.map_map]
  refine congrArg List.sum (List.map_congr_left fun p hp => congrArg List.sum (List.map_congr_left fun e he => ?_))
  have hkey : e.2.1 = p.1 := by
    unfold standing at he
    split at he
    · obtain ⟨q, _, rfl⟩ := List.mem_map.1 he
      rfl
    · cases he
  have hbase : s.team? e.2.1 = some p.2 := hkey ▸ Tab.find_of_mem hs hp
  simp only [Function.comp_apply, hbase, Option.map_some, Option.getD_some]

/-- What of a group decides where it stands and what it uses. -/
def footing (q : Nat × Group) : Nat × Nat × Bool × Nat := (q.1, q.2.part, q.2.held, q.2.x)

theorem usedBy_congr {core part k : Nat} {t u : Team} (hplace : u.place = t.place) (hbase : u.base = t.base)
    (hgroups : u.groups.map footing = t.groups.map footing) : usedBy core part (k, u) = usedBy core part (k, t) := by
  have hused : ∀ v : Team, usedBy core part (k, v) = if v.place == .core core then
      (((v.groups.map footing).filter fun a => a.2.1 == part && a.2.2.1).map fun a => v.base + a.2.2.2).sum else 0 := by
    intro v
    unfold usedBy standing
    simp only
    split
    · rw [List.map_map, List.filter_map, List.map_map]
      rfl
    · rfl
  rw [hused, hused, hplace, hbase, hgroups]

theorem regsUsed_modTeam {s : State} {k : Nat} {f : Team → Team} (core part : Nat) (hs : Tab.sorted s.teams = true)
    (hf : ∀ t, s.team? k = some t →
      (f t).place = t.place ∧ (f t).base = t.base ∧ (f t).groups.map footing = t.groups.map footing) :
    (s.modTeam k f).regsUsed core part = s.regsUsed core part := by
  rw [regsUsed_eq _ _ _ (Tab.sorted_modify k f s.teams hs), regsUsed_eq _ _ _ hs]
  show ((Tab.modify k f s.teams).map _).sum = _
  rw [modify_eq_map k f s.teams hs, List.map_map]
  refine congrArg List.sum (List.map_congr_left fun p hp => ?_)
  rw [Function.comp_apply]
  split
  next hk =>
    obtain ⟨hplace, hbase, hgroups⟩ := hf p.2 (hk ▸ Tab.find_of_mem hs hp)
    exact usedBy_congr hplace hbase hgroups
  next => rfl

theorem footing_modify {gk : Nat} {f : Group → Group} {groups : Tab Group} (hs : Tab.sorted groups = true)
    (hf : ∀ g, footing (gk, f g) = footing (gk, g)) : (Tab.modify gk f groups).map footing = groups.map footing := by
  rw [modify_eq_map gk f groups hs, List.map_map]
  refine List.map_congr_left fun q _ => ?_
  rw [Function.comp_apply]
  split
  next hk =>
    subst hk
    exact hf q.2
  next => rfl

/-- A sweep of a team's threads leaves the registers in use as they are. -/
theorem regsUsed_sweep (core part k : Nat) (e : Nat → Thread → Thread) (ns : List Nat) (s : State)
    (hs : Tab.sorted s.teams = true) :
    Tab.sorted (ns.foldl (fun s n => s.modThread { team := k, n } (e n)) s).teams = true ∧
      (ns.foldl (fun s n => s.modThread { team := k, n } (e n)) s).regsUsed core part = s.regsUsed core part := by
  induction ns generalizing s with
  | nil => exact ⟨hs, rfl⟩
  | cons n ns ih =>
    obtain ⟨hsort, hused⟩ := ih (s.modThread { team := k, n } (e n)) (Tab.sorted_modify _ _ _ hs)
    exact ⟨hsort, hused.trans (regsUsed_modTeam core part hs fun t _ => ⟨rfl, rfl, rfl⟩)⟩

/-- One claim waits: that of group `gk` of team `k`. -/
structure OneClaim (s : State) (k gk : Nat) (t : Team) (g : Group) : Prop where
  sorted : Tab.sorted s.teams = true
  team : s.team? k = some t
  sortedGroups : Tab.sorted t.groups = true
  group : Tab.find gk t.groups = some g
  others : ∀ p ∈ s.teams, p.1 ≠ k → ∀ q ∈ p.2.groups, q.2.claim = none
  rest : ∀ q ∈ t.groups, q.1 ≠ gk → q.2.claim = none

/-- What a grant makes of its team (R129). -/
def granted (gk target lim : Nat) (t : Team) : Team :=
  ((t.answerClaim gk true).dropAbove gk lim).modGroup gk fun g => { g with x := max g.x target }

/-- The one claim is granted where the pool has the registers. -/
theorem settleClaims_oneClaim {s : State} {k gk core target : Nat} {t : Team} {g : Group} (h : OneClaim s k gk t g)
    (hplace : t.place = .core core) (hheld : g.held = true) (hclaim : g.claim = some target)
    (hfits : s.regsUsed core g.part + (target - g.x) ≤ 2048) (j : Nat) :
    (s.settleClaims core g.part).team? j =
      (s.modTeam k fun u => granted gk target (u.base + g.x) u).team? j := by
  have hfind : ((s.groupsOn core g.part).find? fun (_, _, g) => g.claim.isSome) = some (k, gk, g) := by
    have hmem : (k, gk, g) ∈ s.groupsOn core g.part :=
      mem_groupsOn.2 ⟨t, Tab.mem_of_find h.team, hplace, Tab.mem_of_find h.group, rfl, hheld⟩
    cases hres : (s.groupsOn core g.part).find? fun (_, _, g) => g.claim.isSome with
    | none => exact absurd (List.find?_eq_none.1 hres _ hmem) (by simp [hclaim])
    | some e =>
      obtain ⟨k', gk', g'⟩ := e
      have hsome : g'.claim.isSome = true := by simpa using List.find?_some hres
      obtain ⟨t', ht', _, hg', _⟩ := mem_groupsOn.1 (List.mem_of_find?_eq_some hres)
      have hk : k' = k := by_contra fun hne => by
        have hnone : g'.claim = none := h.others _ ht' hne _ hg'
        simp [hnone] at hsome
      subst hk
      obtain rfl : t' = t := Option.some.inj ((Tab.find_of_mem h.sorted ht').symm.trans h.team)
      have hgk : gk' = gk := by_contra fun hne => by
        have hnone : g'.claim = none := h.rest _ hg' hne
        simp [hnone] at hsome
      subst hgk
      obtain rfl : g' = g := Option.some.inj ((Tab.find_of_mem h.sortedGroups hg').symm.trans h.group)
      rfl
  have hno : NoClaims (s.modTeam k fun u => granted gk target (u.base + g.x) u) := by
    intro p hp q hq
    have hp' : p ∈ Tab.modify k (fun u => granted gk target (u.base + g.x) u) s.teams := hp
    rw [modify_eq_map k _ s.teams h.sorted] at hp'
    obtain ⟨p0, hp0, rfl⟩ := List.mem_map.1 hp'
    split at hq
    next hk =>
      obtain rfl : p0.2 = t := Option.some.inj ((Tab.find_of_mem h.sorted (hk ▸ hp0)).symm.trans h.team)
      have hgroups : (granted gk target (p0.2.base + g.x) p0.2).groups =
          Tab.modify gk (fun g => { g with claim := none, x := max g.x target }) p0.2.groups :=
        modify_modify gk _ _ p0.2.groups
      have hq' : q ∈ (granted gk target (p0.2.base + g.x) p0.2).groups := hq
      rw [hgroups, modify_eq_map gk _ _ h.sortedGroups] at hq'
      obtain ⟨q0, hq0, rfl⟩ := List.mem_map.1 hq'
      split
      next => rfl
      next hne => exact h.rest q0 hq0 hne
    next hne => exact h.others p0 hp0 hne q hq
  have hgrant : s.grantClaims core g.part 64 = s.modTeam k fun u => granted gk target (u.base + g.x) u := by
    rw [State.grantClaims, hfind]
    simp only [hclaim, Option.getD_some, if_pos hfits]
    exact grantClaims_noClaims hno core g.part 63
  rw [State.settleClaims, hgrant, ← settleClaims_noClaims hno core g.part j, State.settleClaims, grantClaims_noClaims hno]

theorem find_answerClaim (t : Team) (gk n : Nat) (ok : Bool) :
    Tab.find n (t.answerClaim gk ok).threads = (Tab.find n t.threads).map fun th => match th.wait with
      | .claim p next =>
        if t.hw n == gk then { th.setP p ok with wait := .ready, age := 0, pc := BitVec.ofNat 64 next } else th
      | _ => th := by
  refine Eq.trans (congrArg (Tab.find n) (List.map_congr_left fun p _ => ?_)) (Tab.find_map_val (fun n th => match th.wait with
      | .claim p next =>
        if t.hw n == gk then { th.setP p ok with wait := .ready, age := 0, pc := BitVec.ofNat 64 next } else th
      | _ => th) n t.threads)
  obtain ⟨m, th⟩ := p
  cases hw : th.wait <;> simp only [hw]
  split <;> rfl

/-- A group placed its claim: `claim` is set, and the threads `ns` wait in it. -/
def claimed (s : State) (k gk target pred next : Nat) (ns : List Nat) : State :=
  ns.foldl (fun s n => s.modThread { team := k, n } fun th => { th with wait := .claim pred next })
    (s.modGroup k gk fun g => { g with claim := some (max target (g.claim.getD 0)) })

theorem exec_xclaim {x : XForm} {s : State} {ig : IssueGroup} {t : Team} {gk : Nat} (hig : s.ig = some ig)
    (hteam : s.team? ig.team = some t) (hne : ig.threads ≠ []) (hhw : ∀ n ∈ ig.threads, t.hw n = gk) :
    exec (.xclaim x) s =
      .next (s.claim ig.team gk (claimTarget x) x.d.toNat (nextPc ig x.words) ig.threads) :=
  execGroups_single (f := fun next s _ team gk ns => s.claim team gk (claimTarget x) x.d.toNat next ns) hig hteam hne hhw

theorem claim_answered {x : XForm} {s : State} {ig : IssueGroup} {t : Team} (hf : Formed s ig t) (ok : Bool) :
    OnlyThreads s (s.answer ig.team ig.threads x.d.toNat ok (nextPc ig x.words)) ig t
      fun c => Thread.at (c.th.setP x.d.toNat ok) (nextPc ig x.words) :=
  onlyThreads_of_swept hf (foldl_modThread ig.team
    (fun _ th => { th.setP x.d.toNat ok with pc := BitVec.ofNat 64 (nextPc ig x.words) }) _ s hf.2.2.1) fun _ _ _ _ => rfl

/-- A claim placed where none waits is the one claim; the group stands where it stood and uses what it used. -/
theorem oneClaim_claimed {s : State} {k gk target pred next : Nat} {t : Team} {g : Group} {ns : List Nat}
    (hteam : s.team? k = some t) (hnodup : ns.Nodup) (hg : Tab.find gk t.groups = some g) (hno : NoClaims s)
    (hs : Tab.sorted s.teams = true) (hsg : Tab.sorted t.groups = true) (core part : Nat) :
    ∃ t2, OneClaim (claimed s k gk target pred next ns) k gk t2 { g with claim := some target } ∧
      t2.place = t.place ∧ t2.base = t.base ∧ t2.groups = Tab.put gk { g with claim := some target } t.groups ∧ (∀ n, t2.hw n = t.hw n) ∧
      (claimed s k gk target pred next ns).regsUsed core part = s.regsUsed core part := by
  let claim : Group → Group := fun g => { g with claim := some (max target (g.claim.getD 0)) }
  have hnone : g.claim = none := hno _ (Tab.mem_of_find hteam) (gk, g) (Tab.mem_of_find hg)
  have hteam1 : (s.modGroup k gk claim).team? k = some (t.modGroup gk claim) := by
    show (s.modTeam k _).team? k = _
    rw [team?_modTeam, if_pos rfl, hteam]
    rfl
  obtain ⟨-, -, hbut⟩ := foldl_modThread k (fun _ th => { th with wait := .claim pred next }) ns
    (s.modGroup k gk claim) hnodup
  obtain ⟨t2, hteam2, hagree⟩ := team?_of_sameBut hbut hteam1
  have hput : t2.groups = Tab.put gk { g with claim := some target } t.groups := by
    refine (congrArg Team.groups hagree :).trans ?_
    show Tab.modify gk claim t.groups = _
    simp only [Tab.modify, hg, claim, hnone, Option.getD_none, Nat.max_zero]
  obtain ⟨hsort, hused⟩ := regsUsed_sweep core part k (fun _ th => { th with wait := .claim pred next }) ns
    (s.modGroup k gk claim) (Tab.sorted_modify _ _ _ hs)
  have hmodify : t2.groups = Tab.modify gk claim t.groups := (congrArg Team.groups hagree :)
  refine ⟨t2, ⟨hsort, hteam2, ?_, ?_, fun p hp hk q hq => ?_, fun q hq hk => ?_⟩, (congrArg Team.place hagree :),
    (congrArg Team.base hagree :), hput, fun n => (congrArg (Team.hw · n) hagree :), hused.trans (regsUsed_modTeam core part hs fun u hu => ?_)⟩
  · rw [hmodify]
    exact Tab.sorted_modify _ _ _ hsg
  · rw [hput, Tab.find_put_same]
  · have hbody := hbut.1 p.1
    rw [show State.team? _ p.1 = some p.2 from Tab.find_of_mem hsort hp, State.modGroup, team?_modTeam, if_neg hk] at hbody
    cases hu : s.team? p.1 with
    | none =>
      rw [hu] at hbody
      cases hbody
    | some u =>
      rw [hu] at hbody
      have hgroups : p.2.groups = u.groups := (congrArg Team.groups (Option.some.inj hbody) :)
      exact hno _ (Tab.mem_of_find hu) q (hgroups ▸ hq)
  · rw [hput] at hq
    rcases Tab.mem_put hq with rfl | hq
    · exact absurd rfl hk
    · exact hno _ (Tab.mem_of_find hteam) q hq
  · obtain rfl : u = t := Option.some.inj (hu.symm.trans hteam)
    exact ⟨rfl, rfl, footing_modify hsg fun _ => rfl⟩

theorem claimAnswers : ClaimAnswers := by
  intro x s ig t gk g hf hne hhw hg
  obtain ⟨hig, hteam, hnodup, _⟩ := id hf
  have he := exec_xclaim (x := x) hig hteam hne hhw
  refine ⟨fun hle => ?_, fun hlt hover => ?_, fun core hlt hfit hplace hheld hno hs hsg hpool => ⟨_, he, ?_⟩⟩
  · simp only [State.claim, hteam, hg, Option.getD_some, hle, if_true] at he
    exact ⟨_, he, claim_answered hf true⟩
  · have hle : ¬claimTarget x ≤ g.x := by omega
    simp only [State.claim, hteam, hg, Option.getD_some, hle, hover, if_true, if_false] at he
    exact ⟨_, he, claim_answered hf false⟩
  · let s2 := claimed s ig.team gk (claimTarget x) x.d.toNat (nextPc ig x.words) ig.threads
    have hclaim : s.claim ig.team gk (claimTarget x) x.d.toNat (nextPc ig x.words) ig.threads =
        s2.settleClaims core g.part := by
      have hle : ¬claimTarget x ≤ g.x := by omega
      have hover : ¬1024 < t.base + claimTarget x := by omega
      have hcore : t.core = core := by simp [Team.core, hplace]
      simp only [State.claim, hteam, hg, Option.getD_some, hle, hover, if_false, hcore]
      rfl
    obtain ⟨t2, hone, hplace2, hbase2, hgroups2, hw2, hused⟩ := oneClaim_claimed (target := claimTarget x) (pred := x.d.toNat)
      (next := nextPc ig x.words) hteam hnodup hg hno hs hsg core g.part
    have hsettled := settleClaims_oneClaim hone (hplace2.trans hplace) hheld rfl (hused.symm ▸ hpool) ig.team
    have hteam' : (s2.settleClaims core g.part).team? ig.team =
        some (granted gk (claimTarget x) (t2.base + g.x) t2) := by
      rw [hsettled, team?_modTeam, if_pos rfl, hone.team]
      rfl
    obtain ⟨hin, _, _⟩ := foldl_modThread ig.team (fun _ th => { th with wait := .claim x.d.toNat (nextPc ig x.words) })
      ig.threads (s.modGroup ig.team gk fun g => { g with claim := some (max (claimTarget x) (g.claim.getD 0)) }) hnodup
    rw [hclaim]
    refine ⟨fun n hn th hth => ?_, _, hteam', ?_⟩
    · have hhw2 : (t2.hw n == gk) = true := by rw [hw2, hhw n hn, beq_self_eq_true]
      have hwaits : Tab.find n t2.threads = some { th with wait := .claim x.d.toNat (nextPc ig x.words) } := by
        have hfind := hin n hn
        rw [show State.thread? (s.modGroup ig.team gk fun g => { g with claim := some (max (claimTarget x) (g.claim.getD 0)) })
          { team := ig.team, n } = some th from by
            simp only [State.thread?, State.modGroup, team?_modTeam, if_pos, hteam, Option.map_some]
            exact hth] at hfind
        rw [← thread?_of_team? hone.team]
        exact hfind
      let w : Thread := { th with wait := .claim x.d.toNat (nextPc ig x.words) }
      have hafter : Tab.find n (granted gk (claimTarget x) (t2.base + g.x) t2).threads =
          some (dropped (t2.base + g.x)
            { w.setP x.d.toNat true with wait := .ready, age := 0, pc := BitVec.ofNat 64 (nextPc ig x.words) }) := by
        show Tab.find n ((t2.answerClaim gk true).dropAbove gk (t2.base + g.x)).threads = _
        rw [find_dropAbove, find_answerClaim, hwaits]
        simp only [Option.map_some, hhw2, if_true, w]
        rw [if_pos (by exact hhw2)]
      have hregs : (w.setP x.d.toNat true).regs = th.regs := by
        rw [Thread.setP]
        split <;> rfl
      have hpreds : (w.setP x.d.toNat true).preds = (th.setP x.d.toNat true).preds := by
        unfold Thread.setP
        split <;> rfl
      exact ⟨_, (thread?_of_team? hteam').trans hafter, hbase2 ▸ hregs ▸ rfl, hpreds, rfl, rfl⟩
    · have hgroups : (granted gk (claimTarget x) (t2.base + g.x) t2).groups =
          Tab.modify gk (fun g => { g with claim := none, x := max g.x (claimTarget x) }) t2.groups :=
        modify_modify gk _ _ t2.groups
      rw [hgroups, Tab.find_modify_same, hone.group]
      show some (max g.x (claimTarget x)) = _
      rw [Nat.max_eq_right (by omega)]

/-- Settles O11: with no other claim waiting, settling the partition after an `xclaim` grants that one claim, and after an
`xgive` changes nothing. -/
theorem registerPool : Obligations.RegisterPool := ⟨claimAnswers, giveReleases⟩

end Sys2Proof.Proofs.RegisterPool

/-! Branches, calls and returns (R326, R327), `yield` (R330), software traps (R337, R374 to R376) and `rte` (R338): from the
answer of each lane to what the instruction does to its issue group, and from these the three statements. -/

namespace Sys2Proof.Proofs.Issue

open Sys2Proof Sys2Proof.Machine Sys2Proof.Claims Sys2Proof.Proofs.Lanes Sys2Proof.Proofs.Sweeps

/-! ### An instruction from its lanes -/

/-- A lane that only goes on. -/
theorem laneDoes_goesOn {next : Nat} {g : Option (BitVec 4)} {f : LaneFn} {s : State} {c : View} {pc : Nat}
    (hg : (g.map c.th.guard).getD true = true) (hf : ∀ s1 c1, Agrees s c s1 c1 → f s1 c1 = .ok (s1, pc)) :
    LaneDoes (runLane next g f) s c { c.th with pc := BitVec.ofNat 64 pc } := by
  intro s1 c1 h hview
  exact ⟨_, runLane_ok next g f s1 c1.id c1 s1 pc hview (by rw [h.th]; exact hg) (hf s1 c1 h), rfl⟩

/-- An instruction of which every usable thread does its part goes on as its lanes do. -/
theorem goes_of_lanes {i : Instr} {words : Nat} {g : Option (BitVec 4)} {f : Nat → LaneFn} {ok : State → View → Prop}
    {eff : State → IssueGroup → View → Thread} (hexec : ∀ s, exec i s = execLanes words g f s)
    (h : ∀ s ig c, ok s c → LaneDoes (runLane (nextPc ig words) g (f (nextPc ig words))) s c (eff s ig c)) :
    Goes i ok eff := fun s ig _t hf hall => by
  rw [hexec]
  exact execLanes_does hf fun n hn th hth => h s ig _ (hall n hn th hth)

/-- What taking a trap makes of a thread. -/
theorem trapped_enter (th : Thread) (x : Trap) (tpc vec : Nat) : Trapped th (th.enter x tpc vec) vec tpc x :=
  ⟨rfl, rfl, enter_tcause th x tpc vec, rfl, rfl, rfl, rfl, rfl, rfl, rfl, rfl⟩

theorem enters_of_onlyThreads {s s' : State} {ig : IssueGroup} {t : Team} {tpc : View → Nat} {tr : View → Trap}
    (h : OnlyThreads s s' ig t fun c => c.th.enter (tr c) (tpc c) (s.trapVec t)) : Enters s s' ig t tpc tr := by
  obtain ⟨hin, hrest⟩ := h
  exact ⟨fun n hn th hth => ⟨_, hin n hn th hth, trapped_enter _ _ _ _⟩, hrest⟩

/-- An instruction whose every thread faults in a team that can trap. -/
theorem enters_of_lanes {words : Nat} {g : Option (BitVec 4)} {f : Nat → LaneFn} {s : State} {ig : IssueGroup} {t : Team}
    {tr : View → Trap} (hf : Formed s ig t) (hcan : CanTrap s ig t)
    (h : Each ig t fun c => (g.map c.th.guard).getD true = true ∧
      ∀ s1 c1, Agrees s c s1 c1 → f (nextPc ig words) s1 c1 = .error (.fault (tr c))) :
    ∃ s', execLanes words g f s = .next s' ∧
      Enters s s' ig t (fun c => (tr c).tpc c.th.pc.toNat (nextPc ig words)) tr := by
  obtain ⟨hnear, hstop, hvec, hhandler⟩ := hcan
  obtain ⟨s', he, hdoes⟩ := execLanes_does (words := words) (g := g) (f := f) hf
    (eff := fun c => c.th.enter (tr c) ((tr c).tpc c.th.pc.toNat (nextPc ig words)) (s.trapVec t)) fun n hn th hth => by
      obtain ⟨hg, hfault⟩ := h n hn th hth
      exact laneDoes_fault hg hnear hstop hvec (hhandler n hn th hth) hfault
  exact ⟨s', he, enters_of_onlyThreads hdoes⟩

/-- A trap that is not a software trap leaves the thread's own address in `%tpc` (R374). -/
theorem tpc_precise {x : Trap} (h : x.code ≠ 0x17 ∧ x.code ≠ 0x18) (pc next : Nat) : x.tpc pc next = pc :=
  if_neg fun hc => hc.elim h.1 h.2

/-- An instruction that faults precisely. -/
theorem faults_of_lanes {i : Instr} {words : Nat} {g : Option (BitVec 4)} {f : Nat → LaneFn}
    {bad : State → Team → View → Prop} {tr : View → Trap} (hexec : ∀ s, exec i s = execLanes words g f s)
    (hcode : ∀ c, (tr c).code ≠ 0x17 ∧ (tr c).code ≠ 0x18)
    (h : ∀ s c next, bad s c.team c → (g.map c.th.guard).getD true = true ∧
      ∀ s1 c1, Agrees s c s1 c1 → f next s1 c1 = .error (.fault (tr c))) : Faults i bad tr := by
  intro s ig t hf hcan hall
  obtain ⟨s', he, henter⟩ := enters_of_lanes (words := words) (g := g) (f := f) (tr := tr) hf hcan fun n hn th hth =>
    h s (viewOf ig.team t n th) _ (hall n hn th hth)
  simp only [tpc_precise (hcode _)] at henter
  exact ⟨s', (hexec s).trans he, henter⟩

end Sys2Proof.Proofs.Issue

namespace Sys2Proof.Proofs.ControlFlow

open Sys2Proof Sys2Proof.Machine Sys2Proof.Claims Sys2Proof.Proofs.Lanes Sys2Proof.Proofs.Issue

/-! ### Branches, calls, returns -/

theorem ofNat_branchTarget (next : Nat) (off : BitVec 22) :
    BitVec.ofNat 64 (branchTarget next off) = BitVec.ofInt 64 ((next : Int) + 4 * off.toInt) := by
  apply BitVec.eq_of_toNat_eq
  rw [BitVec.toNat_ofNat, BitVec.toNat_ofInt, branchTarget, Bits.ofInt]
  exact Nat.mod_eq_of_lt (by omega)

theorem claimRegs_none {s s1 : State} {c c1 : View} (h : Agrees s c s1 c1) {dsts : List Nat} (hu : Unheld c dsts) :
    s1.claimRegs c1 [] dsts = .ok s1 :=
  claimRegs_agrees h (fun _ hm => nomatch hm) hu fun _ hm => nomatch hm

theorem direct_of {i : Instr} {words : Nat} {g : BitVec 4} {off : BitVec 22} {link : Option Nat}
    (hexec : ∀ s, exec i s = execLanes words (some g) (directLane off link) s) : Direct i words g off link := by
  refine goes_of_lanes hexec fun s ig c hok => ?_
  cases hg : c.th.guard g with
  | false => exact laneDoes_skip hg
  | true =>
    obtain ⟨hd, hu⟩ := hok hg
    rw [if_pos rfl, ← ofNat_branchTarget]
    cases link with
    | none => exact laneDoes_goesOn hg fun _ _ _ => rfl
    | some d =>
      refine laneDoes_ok hg fun s1 c1 h => ?_
      have hd' : c1.dests (regSpan d 2) = .ok () := (dests_agrees h _).trans hd
      have hclaim : s1.claimRegs c1 [] (regSpan d 2) = .ok s1 := claimRegs_none h hu
      simp only [directLane, hd', hclaim, bind, Except.bind]
      exact ⟨_, rfl, rfl⟩

theorem indirect_of {i : Instr} {o : XOp} {x : XForm} {words : Nat} {g : Option (BitVec 4)} {link : Option Nat}
    (hexec : ∀ s, exec i s = execLanes words g (indirectLane o x link) s) : Indirect i o x words g link := by
  refine goes_of_lanes hexec fun s ig c hok => ?_
  cases hg : (g.map c.th.guard).getD true with
  | false =>
    simp only [Bool.false_eq_true, if_false, hg]
    exact laneDoes_skip hg
  | true =>
    have hu := hok hg
    simp only [if_true, hg]
    cases link with
    | none =>
      refine laneDoes_goesOn hg fun s1 c1 h => ?_
      have hd : c1.dests ((Option.map (fun d => regSpan d 2) none).getD []) = .ok () := dests_usable h hu
      have hclaim : s1.claimRegs c1 (regsOf c o x 2 0 0).srcs ((Option.map (fun d => regSpan d 2) none).getD []) = .ok s1 :=
        claimRegs_usable h hu
      simp only [indirectLane, hd, operands_usable h hu, hclaim, bind, Except.bind, h.th]
      rfl
    | some d =>
      refine laneDoes_ok hg fun s1 c1 h => ?_
      have hd : c1.dests ((Option.map (fun d => regSpan d 2) (some d)).getD []) = .ok () := dests_usable h hu
      have hclaim : s1.claimRegs c1 (regsOf c o x 2 0 0).srcs ((Option.map (fun d => regSpan d 2) (some d)).getD []) = .ok s1 :=
        claimRegs_usable h hu
      simp only [indirectLane, hd, operands_usable h hu, hclaim, bind, Except.bind, h.th]
      exact ⟨_, rfl, rfl⟩

theorem controlTransfers : ControlTransfers :=
  ⟨fun _ => direct_of fun _ => rfl, fun _ => direct_of fun _ => rfl, fun _ => direct_of fun _ => rfl,
    fun _ => direct_of fun _ => rfl, fun _ => indirect_of fun _ => rfl, fun _ => indirect_of fun _ => rfl,
    fun _ => indirect_of fun _ => rfl, indirect_of fun _ => rfl⟩

theorem yieldDefers : YieldDefers := by
  intro x s ig t hf _
  refine execSeq_does hf fun n hn th hth s1 c1 h => ⟨_, rfl, ?_⟩
  have hcycle : s1.cycle = s.cycle := (congrArg State.cycle h.others.2 :)
  rw [hcycle]

/-- Settles O12: every lane answers its target, and the link pair is claimed and written before it. -/
theorem controlFlow : Obligations.ControlFlow := ⟨controlTransfers, yieldDefers⟩

end Sys2Proof.Proofs.ControlFlow

/-! Software traps (R337, R374 to R376) and the return from a handler (R338). -/

namespace Sys2Proof.Proofs.SoftwareTraps

open Sys2Proof Sys2Proof.Machine Sys2Proof.Claims Sys2Proof.Proofs.Lanes Sys2Proof.Proofs.Sweeps Sys2Proof.Proofs.Issue

/-- An instruction that raises one software trap in every thread. -/
theorem traps_of {i : Instr} {words : Nat} {f : State → View → Lane State} {x : Trap}
    (hexec : ∀ s, exec i s = execSeq words none f s) (hcode : x.code = 0x17 ∨ x.code = 0x18)
    (hf : ∀ s c, f s c = .error (.fault x)) (s : State) (ig : IssueGroup) (t : Team) (hformed : Formed s ig t)
    (hcan : CanTrap s ig t) : ∃ s', exec i s = .next s' ∧ Enters s s' ig t (fun _ => nextPc ig words) fun _ => x := by
  obtain ⟨s', he, henter⟩ := enters_of_lanes (words := words) (g := none) (tr := fun _ => x)
    (f := fun next s c => do return (← f s c, next)) hformed hcan fun _ _ _ _ => ⟨rfl, fun s1 c1 _ => by simp only [hf]; rfl⟩
  have htpc : ∀ c : View, x.tpc c.th.pc.toNat (nextPc ig words) = nextPc ig words := fun _ => if_pos hcode
  simp only [htpc] at henter
  exact ⟨s', (hexec s).trans he, henter⟩

theorem softwareTraps : SoftwareTraps :=
  ⟨fun _ => traps_of (fun _ => rfl) (.inl rfl) fun _ _ => rfl, fun _ => traps_of (fun _ => rfl) (.inl rfl) fun _ _ => rfl,
    fun _ => traps_of (fun _ => rfl) (.inr rfl) fun _ _ => rfl⟩

/-! ### Without a trap vector -/

/-- The teams, the launches and the memory operations are the same. -/
def KeepsRuns (s s' : State) : Prop := s'.teams = s.teams ∧ s'.launches = s.launches ∧ s'.memops = s.memops

theorem KeepsRuns.refl (s : State) : KeepsRuns s s := ⟨rfl, rfl, rfl⟩

theorem KeepsRuns.trans {s t u : State} (h : KeepsRuns s t) (h' : KeepsRuns t u) : KeepsRuns s u :=
  ⟨h'.1.trans h.1, h'.2.1.trans h.2.1, h'.2.2.trans h.2.2⟩

theorem keepsRuns_setRegField (s : State) (off lo w v : Nat) : KeepsRuns s (s.setRegField off lo w v) := ⟨rfl, rfl, rfl⟩

theorem keepsRuns_writeHost (s : State) (pa n v : Nat) : KeepsRuns s (s.writeHost pa n v) := ⟨rfl, rfl, rfl⟩

theorem keepsRuns_withPort (s : State) (p : Port) : KeepsRuns s { s with port := p } := ⟨rfl, rfl, rfl⟩

theorem keepsRuns_hostEvent (s : State) (e : HostEvent) : KeepsRuns s (s.hostEvent e) := by
  unfold State.hostEvent
  simp only
  split
  · exact .refl s
  · split
    · exact keepsRuns_setRegField _ _ _ _ _
    · exact ((keepsRuns_writeHost _ _ _ _).trans (keepsRuns_setRegField _ _ _ _ _)).trans (keepsRuns_withPort _ _)

/-- A team without memory operations has none to rewind. -/
theorem rewindOps_none {s : State} {k : Nat} (h : ∀ p ∈ s.memops, p.2.team ≠ k) : s.rewindOps k = s :=
  foldl_unchanged s.memops fun p hp => if_pos (h p hp)

/-- The first fault of a launch that has none is the one noted (R376). -/
theorem fault_noteFault {s : State} {k code reason : Nat} {l : Launch} (h : Tab.find k s.launches = some l) :
    ∃ l', Tab.find k (s.noteFault k code reason).launches = some l' ∧ l'.fault = some (l.fault.getD (code, reason)) := by
  refine ⟨{ l with fault := match l.fault with | some f => some f | none => some (code, reason) }, ?_, ?_⟩
  · show Tab.find k (Tab.modify k _ s.launches) = _
    rw [Tab.find_modify_same, h]
    rfl
  · simp only
    cases l.fault <;> rfl

/-- The thread that stops its team (R376). -/
theorem deliver_stopsTeam {s : State} {k n : Nat} {x : Trap} {next : Nat} {t : Team} {th : Thread} {l : Launch}
    (hteam : s.team? k = some t) (hth : Tab.find n t.threads = some th) (hnear : t.near = false) (hstop : t.stopped = false)
    (hvec : s.trapVec t = 0) (hops : ∀ p ∈ s.memops, p.2.team ≠ k) (hl : Tab.find t.launch s.launches = some l) :
    ∃ s1, s.deliver { team := k, n } x next = s1 ∧
      s1.team? k = some { t.modThread n (fun th' => th'.stop x (x.tpc th.pc.toNat next)) with stopped := true } ∧
      ∃ l', Tab.find t.launch s1.launches = some l' ∧ l'.fault = some (l.fault.getD (x.code, x.reason)) := by
  obtain ⟨core, hplace⟩ := Collectives.core_of_not_near hnear
  obtain ⟨hteams, hlaunches, hmemops⟩ := keepsRuns_hostEvent s
    { kind := if th.handler then 2 else 1, code := x.code, reason := x.reason
      launch := ((s.launchOf t).map Launch.id).getD 0, core := t.core, part := t.part n, group := t.gid n, lane := t.lane n
      tpc := x.tpc th.pc.toNat next, taddr := x.addr, tinfo := x.info, x := t.x, y := t.y, z := t.z }
  let s0 := (s.stopEvent { team := k, n } t x (x.tpc th.pc.toNat next) (if th.handler then 2 else 1)).noteFault t.launch
    x.code x.reason
  let stop : Team → Team := fun u =>
    { u.modThread n (fun th' => th'.stop x (x.tpc th.pc.toNat next)) with stopped := true }
  have hrewind : (s0.modTeam k stop).rewindOps k = s0.modTeam k stop := rewindOps_none fun p hp => hops p (hmemops ▸ hp)
  have hteam0 : s0.team? k = some t := (congrArg (Tab.find k) hteams).trans hteam
  refine ⟨s0.modTeam k stop, ?_, ?_, fault_noteFault ((congrArg (Tab.find t.launch) hlaunches).trans hl)⟩
  · exact (deliver_stops s { team := k, n } x next core t th hteam hth hplace hstop (.inr hvec)).trans hrewind
  · rw [team?_modTeam, if_pos rfl, hteam0]
    rfl

/-- The threads after it in the group, in a team that has stopped, change themselves alone. -/
theorem runLanes_stopped {next : Nat} {f : LaneFn} {x : Trap} {s : State} {k : Nat} {t : Team} {ns : List Nat}
    (hf : ∀ s c, f s c = .error (.fault x)) (hteam : s.team? k = some t) (hnear : t.near = false) (hstop : t.stopped = true)
    (hnodup : ns.Nodup) (hlisted : ∀ n ∈ ns, ∃ th, Tab.find n t.threads = some th) :
    SameBut s (runLanes next none f s k ns) ∧
      ∀ m, m ∉ ns → (runLanes next none f s k ns).thread? { team := k, n := m } = s.thread? { team := k, n := m } := by
  obtain ⟨core, hplace⟩ := Collectives.core_of_not_near hnear
  obtain ⟨_, hout, hbut⟩ := runLanes_each next none f s k ns (fun n th' =>
      th'.stop x (x.tpc (Collectives.threadAt t n).pc.toNat next)) hnodup fun s1 n hn hsame hthread => by
    obtain ⟨th, hth⟩ := hlisted n hn
    obtain ⟨t1, hteam1, hagree⟩ := team?_of_sameBut hsame hteam
    have hth1 : Tab.find n t1.threads = some th := by
      have := hthread.trans (thread?_of_find hteam hth)
      simpa [State.thread?, hteam1] using this
    rw [runLane_fault next none f s1 _ _ x (view_eq s1 { team := k, n } t1 th hteam1 hth1) rfl (hf _ _),
      deliver_stopped s1 _ x next core t1 th hteam1 hth1 ((congrArg Team.place hagree :).trans hplace)
        ((congrArg Team.stopped hagree :).trans hstop), Collectives.threadAt, hth, Option.getD_some]
  exact ⟨hbut, fun m hm => hout _ fun h => hm h.2⟩

theorem trapWithoutVectorStops : TrapWithoutVectorStops := by
  intro x s ig t n rest l hf hns hnear hstop hvec ⟨th, hth, hhandler⟩ hops hl
  obtain ⟨hig, hteam, hnodup, hlisted⟩ := id hf
  let tr : Trap := { code := Code.swTrap, info := x.imm.toNat }
  let next := nextPc ig x.words
  let f : LaneFn := fun s c => do return (← (fun _ _ => .error (.fault tr) : State → View → Lane State) s c, next)
  have hfault : ∀ s c, f s c = .error (.fault tr) := fun _ _ => rfl
  obtain ⟨s1, hdeliver, hteam1, l', hl', hlf⟩ := deliver_stopsTeam (x := tr) (next := next) hteam hth hnear hstop hvec hops hl
  have hrun : exec (.trap x) s = .next (runLanes next none f s1 ig.team rest) := by
    have hfirst : runLane next none f s { team := ig.team, n } = s1 :=
      (runLane_fault next none f s _ _ tr (view_eq s { team := ig.team, n } t th hteam hth) rfl rfl).trans hdeliver
    refine (execLanes_next x.words none (fun next s c => do
      return (← (fun _ _ => .error (.fault tr) : State → View → Lane State) s c, next)) s ig hig).trans ?_
    rw [hns, ← hfirst]
    rfl
  obtain ⟨hnot, hnodup'⟩ := List.nodup_cons.1 (hns ▸ hnodup)
  obtain ⟨hbut, hout⟩ := runLanes_stopped (next := next) hfault hteam1 hnear rfl hnodup' fun m hm => by
    obtain ⟨th', hth'⟩ := hlisted m (hns ▸ List.mem_cons_of_mem n hm)
    have hne : m ≠ n := fun h => hnot (h ▸ hm)
    exact ⟨th', (Tab.find_modify_other hne _ _).trans hth'⟩
  obtain ⟨t', hteam', hagree⟩ := team?_of_sameBut hbut hteam1
  have hthread : Tab.find n t'.threads = some (th.stop tr next) := by
    have hsame := hout n hnot
    rw [RegisterPool.thread?_of_team? hteam', RegisterPool.thread?_of_team? hteam1] at hsame
    rw [hsame]
    refine (Tab.find_modify_same _ _ _).trans ?_
    rw [hth]
    rfl
  refine ⟨_, t', hrun, hteam', (congrArg Team.stopped hagree :), ⟨l', ?_, hlf⟩, th, _, hth, hthread, hhandler, rfl, rfl, rfl,
    rfl, rfl, ?_⟩
  · exact (congrArg (fun u : State => Tab.find t.launch u.launches) hbut.2 :).trans hl'
  · show ((th.enter tr next 0).tcause.toNat) % 256 = 0x17
    rw [enter_tcause]
    show (_ * 2 ^ 16 + 0x17 % 256) % 256 = 0x17
    omega

/-- Settles O13: with a vector every lane's trap enters it; without one the first lane's trap stops the team, and those after
it find it stopped. -/
theorem traps : Obligations.Traps := ⟨softwareTraps, trapWithoutVectorStops⟩

theorem exec_rte (x : XForm) (s : State) : exec (.rte x) s = execLanes x.words none (fun _ s c => do
    let r ← c.operands .rte x 2 0 0
    let s ← s.claimRegs c r.srcs []
    if !c.th.handler then throw (badEncoding .rte x)
    let target := c.th.vs r.a 2
    return (s.modThread c.id fun th => th.rte target, target)) s := rfl

/-- Settles O14: `rte` tests the handler bit of its own thread after its operands. -/
theorem returnFromHandler : Obligations.ReturnFromHandler := by
  intro x
  constructor
  · refine goes_of_lanes (exec_rte x) fun s ig c ⟨hu, hhandler⟩ => ?_
    refine laneDoes_ok (th' := c.th.rte (c.th.vs (regsOf c .rte x 2 0 0).a 2)) rfl fun s1 c1 h => ?_
    have hclaim : s1.claimRegs c1 (regsOf c .rte x 2 0 0).srcs [] = .ok s1 := claimRegs_usable h hu
    simp only [operands_usable h hu, hclaim, bind, Except.bind, h.th, hhandler]
    exact ⟨_, rfl, rfl⟩
  · refine faults_of_lanes (exec_rte x) (fun _ => ⟨by show (2 : Nat) ≠ _; decide, by show (2 : Nat) ≠ _; decide⟩)
      fun s c next ⟨hu, hhandler⟩ => ⟨rfl, fun s1 c1 h => ?_⟩
    have hclaim : s1.claimRegs c1 (regsOf c .rte x 2 0 0).srcs [] = .ok s1 := claimRegs_usable h hu
    simp only [operands_usable h hu, hclaim, bind, Except.bind, h.th, hhandler]
    rfl

end Sys2Proof.Proofs.SoftwareTraps

/-! The step (R89, R159, R169, R296, R355): what the spin detector and the end of an issue leave as they are, what a fetch
reads, and from these that a step is `exec` of the decoded instruction; then the words that the spec prints, and the reset. -/

namespace Sys2Proof.Proofs.Steps

open Sys2Proof Sys2Proof.Machine Sys2Proof.Claims

/-! ### What an issue leaves after its instruction -/

/-- What of a thread an instruction's meaning decides, against the marks of the spin detector and of the issue slot. -/
def execution (th : Thread) : DWord × Tab Word × BitVec 7 × Wait × Bool := (th.pc, th.regs, th.preds, th.wait, th.live)

/-- The threads of `s'` execute as those of `s`, and nothing but threads has changed. -/
def SameRun (s s' : State) : Prop :=
  (∀ j, (s'.thread? j).map execution = (s.thread? j).map execution) ∧ { s' with teams := s.teams } = s

theorem SameRun.refl (s : State) : SameRun s s := ⟨fun _ => rfl, rfl⟩

theorem SameRun.trans {s t u : State} (h : SameRun s t) (h' : SameRun t u) : SameRun s u :=
  ⟨fun j => (h'.1 j).trans (h.1 j), (congrArg (fun x : State => { x with teams := s.teams }) h'.2 :).trans h.2⟩

theorem sameRun_modThread (s : State) (i : Tid) {f : Thread → Thread} (hf : ∀ th, execution (f th) = execution th) :
    SameRun s (s.modThread i f) := by
  refine ⟨fun j => ?_, rfl⟩
  by_cases h : j = i
  · subst h
    rw [thread?_modThread_same, Option.map_map]
    exact congrArg (fun g => Option.map g (s.thread? j)) (funext hf)
  · rw [thread?_modThread_other _ h]

theorem execution_noteSpin (old t : Team) (n : Nat) (th : Thread) : execution (th.noteSpin old t n) = execution th := by
  unfold Thread.noteSpin
  split
  · rfl
  · split <;> rfl

/-- A team whose threads are marked against what it was. -/
def spun (old : Option Team) (t : Team) : Team :=
  match old with
  | none => t
  | some old => { t with threads := t.threads.map fun (q : Nat × Thread) => (q.1, q.2.noteSpin old t q.1) }

theorem find_spun (old : Option Team) (t : Team) (n : Nat) :
    (Tab.find n (spun old t).threads).map execution = (Tab.find n t.threads).map execution := by
  cases old with
  | none => rfl
  | some old =>
    refine (congrArg (Option.map execution) (Tab.find_map_val (fun n th => th.noteSpin old t n) n t.threads)).trans ?_
    rw [Option.map_map]
    exact congrArg (fun g => Option.map g (Tab.find n t.threads)) (funext fun th => execution_noteSpin old t n th)

theorem noteSpins_eq (s s' : State) :
    s'.noteSpins s = s' ∨ s'.noteSpins s = { s' with teams := s'.teams.map fun p => (p.1, spun (s.team? p.1) p.2) } := by
  unfold State.noteSpins
  split
  · refine .inr (congrArg (fun ts => ({ s' with teams := ts } : State)) (List.map_congr_left fun p _ => ?_))
    cases s.team? p.1 <;> rfl
  · exact .inl rfl

/-- The spin detector marks threads alone. -/
theorem sameRun_noteSpins (s s' : State) : SameRun s' (s'.noteSpins s) := by
  rcases noteSpins_eq s s' with h | h
  · rw [h]
    exact .refl s'
  · rw [h]
    refine ⟨fun j => ?_, rfl⟩
    have hteam := Tab.find_map_val (fun k t => spun (s.team? k) t) j.team s'.teams
    have hthread : State.thread? { s' with teams := s'.teams.map fun p => (p.1, spun (s.team? p.1) p.2) } j =
        ((Tab.find j.team s'.teams).map (spun (s.team? j.team))).bind fun t => Tab.find j.n t.threads :=
      congrArg (fun o : Option Team => o.bind fun t => Tab.find j.n t.threads) hteam
    rw [hthread]
    show _ = Option.map execution ((Tab.find j.team s'.teams).bind fun t => Tab.find j.n t.threads)
    cases Tab.find j.team s'.teams with
    | none => rfl
    | some t => exact find_spun _ t j.n

theorem execution_watch (th : Thread) (pc len : Nat) (branch : Bool) (now : Nat) :
    execution (th.watch pc len branch now) = execution th := by
  unfold Thread.watch
  split <;> rfl

theorem sameRun_foldl {f : State → Nat → State} (hf : ∀ s n, SameRun s (f s n)) (ns : List Nat) (s : State) :
    SameRun s (ns.foldl f s) := by
  induction ns generalizing s with
  | nil => exact .refl s
  | cons n ns ih => exact (hf s n).trans (ih _)

/-- After an instruction no issue group is formed, and its threads are as the instruction left them. -/
theorem sameRun_afterIssue (s' s : State) (c : Candidate) (len : Nat) (branch : Bool) :
    SameRun { s' with ig := none } (s'.afterIssue s c len branch) := by
  refine (sameRun_noteSpins s { s' with ig := none }).trans (sameRun_foldl (fun s1 n => sameRun_modThread s1 _ fun th => ?_) _ _)
  have hwatch := execution_watch th c.pc len branch s1.cycle
  generalize th.watch c.pc len branch s1.cycle = w at hwatch
  simp only
  split <;> split <;> exact hwatch

/-! ### The fetch -/

theorem fetchWords_ok {s : State} {t : Team} {i : Tid} {ws : List Nat} :
    ∀ {va : Nat}, (∀ k, k < ws.length → s.fetchWord t i (va + 4 * k) = (s, .ok (ws.getD k 0))) →
      s.fetchWords t i va ws.length = (s, .ok ws) := by
  induction ws with
  | nil => exact fun _ => rfl
  | cons w ws ih =>
    intro va h
    have hw : s.fetchWord t i va = (s, .ok w) := h 0 (Nat.succ_pos _)
    have hws : s.fetchWords t i (va + 4) ws.length = (s, .ok ws) := ih fun k hk => by
      have := h (k + 1) (Nat.succ_lt_succ hk)
      rw [show va + 4 + 4 * k = va + 4 * (k + 1) by omega]
      exact this
    simp only [List.length_cons, State.fetchWords, hw, hws]

theorem recognise_ok {s : State} {t : Team} {ws : List Nat} {i : Instr} (hdec : decode ws = .ok (i, ws.length))
    (h : ∀ o x, i.toX = some (o, x) → s.stepThree t (ws.headD 0) o x = none) : s.recognise t ws = .ok i := by
  have hhead : ws.getD 0 0 = ws.headD 0 := by cases ws <;> rfl
  unfold State.recognise
  rw [hdec, hhead]
  cases hx : i.toX with
  | none => simp only [hx]
  | some p =>
    obtain ⟨o, x⟩ := p
    simp only [hx, h o x hx]

theorem fetch_ok {s : State} {t : Team} {i : Tid} {pc : Nat} {ws : List Nat} {instr : Instr} (hpc : pc % 4 = 0)
    (hlen : ws.length = lenWords (wordLen (ws.headD 0)))
    (hws : ∀ k, k < ws.length → s.fetchWord t i (pc + 4 * k) = (s, .ok (ws.getD k 0)))
    (hop : t.opIllegal (ws.headD 0) = false) (hdec : decode ws = .ok (instr, ws.length))
    (h : ∀ o x, instr.toX = some (o, x) → s.stepThree t (ws.headD 0) o x = none) : s.fetch t i pc = (s, .ok instr) := by
  cases ws with
  | nil =>
    unfold lenWords at hlen
    simp only [List.length_nil] at hlen
    split at hlen
    · omega
    · split at hlen <;> omega
  | cons w ws =>
    have hw : s.fetchWord t i pc = (s, .ok w) := hws 0 (Nat.succ_pos _)
    have hrest : s.fetchWords t i (pc + 4) ws.length = (s, .ok ws) := fetchWords_ok fun k hk => by
      rw [show pc + 4 + 4 * k = pc + 4 * (k + 1) by omega]
      exact hws (k + 1) (Nat.succ_lt_succ hk)
    have hcount : lenWords (wordLen w) - 1 = ws.length := by
      have : ws.length + 1 = lenWords (wordLen w) := hlen
      omega
    have hop' : t.opIllegal w = false := hop
    have hrec : s.recognise t (w :: ws) = .ok instr := recognise_ok hdec h
    simp only [State.fetch, hpc, ne_eq, not_true_eq_false, if_false, hw, hop', Bool.false_eq_true, hcount, hrest, hrec]

/-- A word of a line that the instruction cache holds is read from there. -/
theorem fetchWord_cached {s : State} {t : Team} {i : Tid} {va pa : Nat} {d : LineData} (hnear : t.near = false)
    (hva : inWindow va = false) (htr : s.translate (s.threadAsker i t 3) va = (s, .ok (.device pa)))
    (hline : Tab.find (deviceLine pa) (s.core t.core).icache = some d) :
    s.fetchWord t i va = (s, .ok (lineRead d (pa % 128) 4)) := by
  obtain ⟨core, hplace⟩ := Collectives.core_of_not_near hnear
  have hsite : s.fetchSite t.window (s.threadAsker i t 3) va = (s, .ok (.device pa)) := by
    simp only [State.fetchSite, hva, Bool.false_eq_true, if_false, htr]
  have hcache : Tab.find (deviceLine pa) (s.codeCache t) = some d := by
    simp only [State.codeCache, hplace]
    simpa only [Team.core, hplace] using hline
  simp only [State.fetchWord, hsite, hplace, if_true, State.codeWord, hnear, Bool.false_eq_true, if_false, hcache]

/-! ### The step -/

theorem step_issue {s : State} {core part : Nat} {rest : List Turn} {c : Candidate} {t : Team} {i : Instr} {b : State}
    (hag : s.agenda = .issue core part :: rest)
    (hb : b = (({ s with agenda := rest, cycle := s.cycle + 1 } : State).bookIssue core part (some c)).stirLaunch
      (((({ s with agenda := rest, cycle := s.cycle + 1 } : State).team? c.team).map Team.launch).getD 0))
    (hissue : ({ s with agenda := rest, cycle := s.cycle + 1 } : State).issuing = true)
    (hchoose : ({ s with agenda := rest, cycle := s.cycle + 1 } : State).choose core part = some c)
    (hteam : b.team? c.team = some t)
    (hfetch : b.fetch t { team := c.team, n := c.threads.headD 0 } c.pc = (b, .ok i)) :
    step s = match exec i { b with ig := some { team := c.team, threads := c.threads, pc := c.pc } } with
      | .next s' => .next (s'.afterIssue b c (codeBytes i) (isBranch i))
      | .fault f => .fault f
      | .refused r => .refused r := by
  subst hb
  simp only [step, hag, State.turn, State.issueAt, hissue, Bool.not_true, Bool.false_eq_true, if_false, hchoose]
  simp only [State.runCandidate, hteam, hfetch] <;> rfl

theorem step_event {s : State} {i : Instr} {rest : List Turn} {s' : State} (hag : s.agenda = .event i :: rest)
    (hheld : s.busy.held = false) (hboot : s.busy.bootFailed = false) (he : exec i { s with agenda := rest } = .next s') :
    step s = .next (s'.noteSpins { s with agenda := rest }) := by
  simp only [step, hag, State.turn, State.event, hheld, hboot, Bool.or_self, Bool.false_and, Bool.false_eq_true, if_false, he]

/-- Settles O56: an issue slot's step is the fetch of the candidate's words and `exec` of what they decode to, and the spin
detector marks threads alone. -/
theorem stepRunsTheDecodedInstruction : Obligations.StepRunsTheDecodedInstruction := by
  refine ⟨?issue, fun s t i va pa d => fetchWord_cached, ?event⟩
  case issue =>
    intro s core part rest c t i ws hag s0 b w0 hissue hchoose hteam hpc hlen hws hop hdec hthree
    have hstep := step_issue hag rfl hissue hchoose hteam (fetch_ok hpc hlen hws hop hdec hthree)
    generalize exec i { b with ig := some { team := c.team, threads := c.threads, pc := c.pc } } = o at hstep ⊢
    cases o with
    | next s' =>
      obtain ⟨hthreads, hrest⟩ := sameRun_afterIssue s' b c (codeBytes i) (isBranch i)
      exact ⟨_, hstep, (congrArg State.ig hrest :), hthreads, (congrArg (fun x : State => { x with ig := s'.ig }) hrest :)⟩
    | fault f => exact hstep
    | refused r => exact hstep
  case event =>
    intro s i rest s' hag hheld hboot he
    obtain ⟨hthreads, hrest⟩ := sameRun_noteSpins { s with agenda := rest } s'
    exact ⟨_, step_event hag hheld hboot he, hrest, hthreads⟩

/-- Settles O57: each word is the encoding that its fields give, and the decoder reads them back. -/
theorem printedWordsDecode : Obligations.PrintedWordsDecode := by
  refine ⟨?_, ?_, ?_, ?_, ?_, ?_, ?_⟩ <;> decide

/-! ### The reset -/

/-- A register that nothing has written reads its reset value. -/
theorem reg_reset (off : Nat) : State.reset.reg off = winReset off % 2 ^ 64 := BitVec.toNat_ofNat _ _

theorem winReset_lease {n : Nat} (h : n < 64) : winReset (0x100400 + 8 * n) = 32 := by
  unfold winReset
  rw [if_neg (by omega), if_pos (by omega)]

theorem winReset_hqctl {q : Nat} (h : q < 64) : winReset (0x104010 + 32 * q) = 4 := by
  unfold winReset
  rw [if_neg (by omega), if_neg (by omega), if_neg (by omega), if_neg (by omega), if_neg (by omega), if_pos (by omega)]

/-- Settles O60: the reset state lists nothing, so every register reads its reset value and every clock 0. -/
theorem resetState : Obligations.ResetState :=
  ⟨rfl, ⟨rfl, rfl, rfl, rfl, rfl, rfl, rfl, rfl, rfl, fun _ => rfl⟩, by rw [reg_reset]; decide,
    fun n h => by rw [reg_reset, winReset_lease h]; rfl, by rw [reg_reset]; decide,
    fun q h => by rw [reg_reset, winReset_hqctl h]; rfl, by rw [reg_reset]; decide, by rw [reg_reset]; decide, rfl, rfl, rfl, rfl,
    rfl, fun _ => rfl, rfl⟩

end Sys2Proof.Proofs.Steps

/-! The management window and the modes (R42, R169, R258, R324, R329, R339, R412): the leases that `syswr` and the host write,
and an issue group without threads, which `halt` does not ask for its mode. -/

namespace Sys2Proof.Proofs.Lanes

open Sys2Proof Sys2Proof.Machine Sys2Proof.Claims Sys2Proof.Proofs.Sweeps

/-- The first lane of a sweep sees the state as it is. -/
theorem agrees_first {s : State} {ig : IssueGroup} {t : Team} {n : Nat} {th : Thread} (hf : Formed s ig t)
    (hth : Tab.find n t.threads = some th) : Agrees s (viewOf ig.team t n th) s (viewOf ig.team t n th) :=
  { id := rfl, th := rfl, alloc := rfl, team := rfl, teamAt := hf.2.1, thread := thread?_of_find hf.2.1 hth
    others := SameBut.same s }

/-- An instruction of one thread whose lane answers a state. -/
theorem execSeq_single {words : Nat} {f : State → View → Lane State} {s s1 : State} {ig : IssueGroup} {t : Team} {n : Nat}
    {th : Thread} (hf : Formed s ig t) (hone : ig.threads = [n]) (hth : Tab.find n t.threads = some th)
    (h : f s (viewOf ig.team t n th) = .ok s1) : execSeq words none f s =
      .next (s1.modThread { team := ig.team, n } fun th => Thread.at th (nextPc ig words)) := by
  obtain ⟨hig, hteam, _⟩ := id hf
  refine (execLanes_next words none (fun next s c => do return (← f s c, next)) s ig hig).trans
    (congrArg Host.Outcome.next ?_)
  rw [hone]
  exact runLane_ok (nextPc ig words) none (fun s c => do return (← f s c, nextPc ig words)) s { team := ig.team, n }
    (viewOf ig.team t n th) s1 (nextPc ig words) (view_eq s { team := ig.team, n } t th hteam hth) rfl (by rw [h]; rfl)

end Sys2Proof.Proofs.Lanes

namespace Sys2Proof.Proofs.Window

open Sys2Proof Sys2Proof.Machine Sys2Proof.Claims Sys2Proof.Proofs.Lanes Sys2Proof.Proofs.Sweeps Sys2Proof.Proofs.Issue

/-! ### LEASECFG and MGMTID -/

/-- The state with a lease written: 8 to 1,024 (R42). -/
def leased (s : State) (off v : Nat) : State :=
  { s with win := Tab.put off (BitVec.ofNat 64 (min 1024 (max 8 (v % 2 ^ 11)))) s.win }

theorem writeReg_lease {s : State} {off v : Nat} (hal : off % 8 = 0) (hlo : 0x100400 ≤ off) (hhi : off < 0x100600) :
    s.writeReg off v = leased s off v := by
  have hstored : storedValue off (s.reg off) v = some (min 1024 (max 8 (v % 2 ^ 11))) := by
    unfold storedValue
    simp only
    rw [if_neg (by omega), if_neg (by omega), if_pos ⟨hlo, hhi⟩]
  unfold State.writeReg codeInv sysLaunch pwrCfg
  rw [if_neg (by omega), if_neg (by omega), if_neg (by omega), if_neg (by omega), if_neg (by omega), if_neg (by omega),
    if_neg (by omega), if_neg (by omega), if_neg (by omega), if_neg (by omega), if_neg (by omega), if_neg (by omega),
    if_neg (by omega)]
  simp only [hstored]
  rfl

theorem writeReg_mgmtid (s : State) (v : Nat) : s.writeReg 0 v = s := by
  have hstored : storedValue 0 (s.reg 0) v = none := rfl
  unfold State.writeReg codeInv sysLaunch pwrCfg
  simp [hstored]

/-! ### `syswr` -/

/-- `syswr` of one thread in system mode: its register write, and the thread goes on. -/
theorem exec_syswr {x : XForm} {s : State} {ig : IssueGroup} {t : Team} {n : Nat} {th : Thread} (hf : Formed s ig t)
    (hone : ig.threads = [n]) (hth : Tab.find n t.threads = some th) (hsys : t.system = true)
    (hu : Usable .syswr x 2 0 0 [] s (viewOf ig.team t n th)) :
    exec (.syswr x) s = .next ((s.writeReg (8 * x.imm.toNat) (th.vs (regsOf (viewOf ig.team t n th) .syswr x 2 0 0).a 2)).modThread
      { team := ig.team, n } fun th => Thread.at th (nextPc ig x.words)) := by
  have hclaim : s.claimRegs (viewOf ig.team t n th) (regsOf (viewOf ig.team t n th) .syswr x 2 0 0).srcs [] = .ok s :=
    claimRegs_usable (agrees_first hf hth) hu
  have hmode : (viewOf ig.team t n th).team.system = true := hsys
  refine execSeq_single (f := fun s c => if !c.team.system then _ else _) hf hone hth ?_
  simp only [hmode, Bool.not_true, Bool.false_eq_true, if_false, operands_of_usable hu, hclaim, bind, Except.bind]
  rfl

/-- One thread that goes on, of a state in which the group is formed. -/
theorem onlyThreads_goesOn {s : State} {ig : IssueGroup} {t : Team} {n : Nat} (hf : Formed s ig t) (hone : ig.threads = [n])
    (next : Nat) : OnlyThreads s (s.modThread { team := ig.team, n } fun th => Thread.at th next) ig t
      fun c => Thread.at c.th next := by
  have hswept := foldl_modThread ig.team (fun _ th => Thread.at th next) ig.threads s hf.2.2.1
  rw [hone] at hswept
  exact onlyThreads_of_swept hf (hone ▸ hswept) fun _ _ _ _ => rfl

/-- Settles O27: the register's offset falls past every register with an effect of its own, and a lease is stored within its
bounds. -/
theorem windowWrites : Obligations.WindowWrites := by
  refine ⟨?_, fun s off v hal hlo hhi => ?_, fun s v => ?_⟩
  · intro x s ig t n th hf hone hth hsys c v off hu
    have he := exec_syswr hf hone hth hsys hu
    refine ⟨fun ⟨hlo, hhi⟩ => ⟨_, he, ?_⟩, fun hoff => ⟨_, he, ?_⟩⟩
    · rw [writeReg_lease (Nat.mul_mod_right 8 _) hlo hhi]
      exact onlyThreads_goesOn (s := leased s off v) hf hone _
    · rw [show 8 * x.imm.toNat = 0 from hoff, writeReg_mgmtid]
      exact onlyThreads_goesOn hf hone _
  · exact congrArg Host.Outcome.next (writeReg_lease hal hlo hhi)
  · exact congrArg Host.Outcome.next (writeReg_mgmtid s v.toNat)

/-! ### `halt` of an issue group without threads -/

/-- A team in system mode, whose launch has a trap vector, and an issue group of it without a thread. -/
def idleTeam : Team := { place := .core 0, launch := 0, cluster := 0, dim := 1, system := true }

/-- The state that holds `idleTeam` and its issue group. -/
def idleState : State :=
  { teams := [(0, idleTeam)], launches := [(0, { id := 0, ctx := 0, record := 2 ^ 192 })]
    ig := some { team := 0, threads := [], pc := 0 } }

theorem canTrap_idleState : CanTrap idleState { team := 0, threads := [], pc := 0 } idleTeam :=
  ⟨rfl, rfl, by decide, fun _ hn => nomatch hn⟩

/-- Refutes O28: the user mode of the team is premised of the group's threads alone, so an issue group without threads meets
the premise in system mode, where `halt` stops the team instead of trapping. -/
theorem not_privilege : ¬ Obligations.Privilege := by
  intro ⟨_, hfaults⟩
  obtain ⟨hhalt, _, _⟩ := hfaults (XForm.blank .b32)
  obtain ⟨s', he, _, _, hshell, _⟩ := hhalt idleState { team := 0, threads := [], pc := 0 } idleTeam
    ⟨rfl, rfl, List.nodup_nil, fun _ hn => nomatch hn⟩ canTrap_idleState fun _ hn => nomatch hn
  have hrun : exec (.halt (XForm.blank .b32)) idleState =
      .next (idleState.modTeam 0 fun t => { t with stopped := true }) := rfl
  obtain rfl : _ = s' := Host.Outcome.next.inj (hrun.symm.trans he)
  have hstopped : true = false := (congrArg (fun o : Option Team => (o.map Team.stopped).getD false) (hshell 0) :)
  exact absurd hstopped (by decide)

end Sys2Proof.Proofs.Window

/-! Named barriers (R332 to R334): an issue group whose lanes keep their order, the arrivals of its threads one after the other,
the completion of the phase by the last of them, and from these the statement. -/

namespace Sys2Proof.Proofs.Together

open Sys2Proof Sys2Proof.Machine Sys2Proof.Claims Sys2Proof.Proofs.Lanes Sys2Proof.Proofs.Sweeps Sys2Proof.Proofs.Issue

/-! ### Lanes in order -/

/-- Lanes none of which is to be replayed are swept like any other. -/
theorem inOrder_eq_foldl {F : State → Tid → State} {k : Nat} {ts : List Nat} :
    ∀ s, (∀ pre n post, ts = pre ++ n :: post →
      (((pre ++ [n]).foldl (fun s n => F s { team := k, n }) s).thread? { team := k, n }).map Thread.wait ≠ some .replay) →
      State.inOrder F k ts s = ts.foldl (fun s n => F s { team := k, n }) s := by
  induction ts with
  | nil => exact fun _ _ => rfl
  | cons n ts ih =>
    intro s h
    have hfirst : ((F s { team := k, n }).thread? { team := k, n }).map Thread.wait ≠ some .replay := h [] n ts rfl
    rw [State.inOrder, if_neg (by simpa using hfirst), List.foldl_cons]
    exact ih _ fun pre m post hts => h (n :: pre) m post (by rw [hts, List.cons_append])

/-- Lanes of which none but the last may be replayed, with what is known after each of them. -/
theorem inOrder_snoc {F : State → Tid → State} {k : Nat} {P : List Nat → State → Prop} {all : List Nat} {last : Nat}
    (hstep : ∀ pre n post s, all = pre ++ n :: post → P pre s → P (pre ++ [n]) (F s { team := k, n }) ∧
      ((F s { team := k, n }).thread? { team := k, n }).map Thread.wait ≠ some .replay) :
    ∀ pre post s, all = pre ++ post → P pre s →
      ∃ s1, P all s1 ∧ State.inOrder F k (post ++ [last]) s = F s1 { team := k, n := last } := by
  intro pre post
  induction post generalizing pre with
  | nil =>
    intro s hall hp
    rw [List.append_nil] at hall
    refine ⟨s, hall ▸ hp, ?_⟩
    simp only [List.nil_append, State.inOrder, List.foldl_nil, ite_self]
  | cons n post ih =>
    intro s hall hp
    obtain ⟨hp', hwait⟩ := hstep pre n post s hall hp
    obtain ⟨s1, hdone, he⟩ := ih (pre ++ [n]) _ (by rw [hall]; simp) hp'
    refine ⟨s1, hdone, ?_⟩
    rw [List.cons_append, State.inOrder, if_neg (by simpa using hwait)]
    exact he

/-- A group none of whose threads is to replay the instruction is not kept. -/
theorem keepGroup_none {s : State} {k pc next : Nat} {ns : List Nat}
    (h : ∀ n ∈ ns, (s.thread? { team := k, n }).map Thread.wait ≠ some .replay) : s.keepGroup k pc next ns = s := by
  have hnone : (ns.filter fun n => ((s.thread? { team := k, n }).map fun th => th.wait == .replay).getD false) = [] := by
    refine List.filter_eq_nil_iff.2 fun n hn => ?_
    have hwait := h n hn
    cases hth : s.thread? { team := k, n } with
    | none => simp
    | some th => simpa [hth] using hwait
  simp only [State.keepGroup, hnone, List.isEmpty_nil, if_true]

theorem execTogether_next {words : Nat} {g : Option (BitVec 4)} {f : Nat → LaneFn} {s : State} {ig : IssueGroup}
    (hig : s.ig = some ig) : execTogether words g f s =
      .next ((State.inOrder (runLane (nextPc ig words) g (f (nextPc ig words))) ig.team ig.threads s).keepGroup ig.team ig.pc
        (nextPc ig words) ig.threads) := by simp only [execTogether, hig, nextPc]

/-- An instruction of which no thread replays its part acts on its lanes like any other. -/
theorem execTogether_does {words : Nat} {g : Option (BitVec 4)} {f : Nat → LaneFn} {s : State} {ig : IssueGroup} {t : Team}
    {eff : View → Thread} (hf : Formed s ig t)
    (h : Each ig t fun c => LaneDoes (runLane (nextPc ig words) g (f (nextPc ig words))) s c (eff c))
    (hwait : Each ig t fun c => (eff c).wait ≠ .replay) :
    ∃ s', execTogether words g f s = .next s' ∧ OnlyThreads s s' ig t eff := by
  obtain ⟨hig, hteam, hnodup, hlisted⟩ := id hf
  let F := runLane (nextPc ig words) g (f (nextPc ig words))
  have hprefix : ∀ pre : List Nat, pre.Nodup → (∀ n ∈ pre, n ∈ ig.threads) → ∀ n ∈ pre,
      ((pre.foldl (fun s n => F s { team := ig.team, n }) s).thread? { team := ig.team, n }).map Thread.wait ≠
        some .replay := by
    intro pre hpre hsub n hn
    obtain ⟨hin, -, -⟩ := foldl_laneDoes hteam hpre (fun m hm => hlisted m (hsub m hm)) fun m hm => h m (hsub m hm)
    obtain ⟨th, hth⟩ := hlisted n (hsub n hn)
    have hat : Collectives.threadAt t n = th := by rw [Collectives.threadAt, hth, Option.getD_some]
    rw [hin n hn, thread?_of_find hteam hth, Option.map_some, Option.map_some]
    simp only [hat]
    exact fun he => hwait n (hsub n hn) th hth (Option.some.inj he)
  refine ⟨_, execTogether_next hig, ?_⟩
  rw [inOrder_eq_foldl s fun pre n post hts => hprefix _ ?_ ?_ n (by simp),
    keepGroup_none fun n hn => hprefix _ hnodup (fun _ h => h) n hn]
  · exact swept_of_laneDoes hf h
  · exact hnodup.sublist (by rw [hts]; simp)
  · intro m hm
    rw [hts]
    simp at hm ⊢
    tauto

/-- An instruction whose lanes keep their order and every one of which faults precisely. -/
theorem faults_of_together {i : Instr} {words : Nat} {f : Nat → LaneFn} {bad : State → Team → View → Prop} {tr : View → Trap}
    (hexec : ∀ s, exec i s = execTogether words none f s) (hcode : ∀ c, (tr c).code ≠ 0x17 ∧ (tr c).code ≠ 0x18)
    (h : ∀ s c next, bad s c.team c → ∀ s1 c1, Agrees s c s1 c1 → f next s1 c1 = .error (.fault (tr c))) : Faults i bad tr := by
  intro s ig t hf ⟨hnear, hstop, hvec, hhandler⟩ hall
  obtain ⟨s', he, hdoes⟩ := execTogether_does (words := words) (g := none) (f := f) hf
    (eff := fun c => c.th.enter (tr c) ((tr c).tpc c.th.pc.toNat (nextPc ig words)) (s.trapVec t))
    (fun n hn th hth => laneDoes_fault rfl hnear hstop hvec (hhandler n hn th hth) (h s _ _ (hall n hn th hth)))
    fun n hn th hth => fun hc => nomatch hc
  have henter := enters_of_onlyThreads hdoes
  simp only [tpc_precise (hcode _)] at henter
  exact ⟨s', (hexec s).trans he, henter⟩

/-- One thread that is to replay its part. -/
theorem replays_of_together {words : Nat} {f : Nat → LaneFn} {s : State} {ig : IssueGroup} {t : Team} {n : Nat} {th : Thread}
    (hf : Formed s ig t) (hone : ig.threads = [n]) (hth : Tab.find n t.threads = some th)
    (h : f (nextPc ig words) s (viewOf ig.team t n th) = .error (.park .replay)) :
    ∃ s', execTogether words none f s = .next s' ∧ OnlyThreads s s' ig t fun c => { c.th with wait := .replay } := by
  obtain ⟨hig, hteam, _⟩ := id hf
  have hthread := thread?_of_find hteam hth
  have hpark := runLane_park (nextPc ig words) none (f (nextPc ig words)) s { team := ig.team, n } _ .replay
    (view_eq s { team := ig.team, n } t th hteam hth) rfl h
  let s1 := s.modThread { team := ig.team, n } fun th => { th with wait := .replay }
  have hthread1 : s1.thread? { team := ig.team, n } = some { th with wait := .replay } := by
    rw [thread?_modThread_same, hthread, Option.map_some]
  have hkeep : s1.keepGroup ig.team ig.pc (nextPc ig words) [n] = s1 := by
    have hagain : ([n].filter fun m => ((s1.thread? { team := ig.team, n := m }).map fun th => th.wait == .replay).getD false) =
        [n] := by simp [hthread1]
    unfold State.keepGroup
    simp only [hagain, List.isEmpty_cons, Bool.false_eq_true, if_false, List.foldl_cons, List.foldl_nil]
    refine (modThread_modThread s _ _ _).trans (modThread_congr hthread ?_)
    simp
  refine ⟨s1, ?_, ?_⟩
  · rw [execTogether_next hig, hone]
    simp only [State.inOrder, List.foldl_nil, ite_self, hpark]
    exact congrArg Host.Outcome.next hkeep
  · have hswept := foldl_modThread ig.team (fun _ th => ({ th with wait := .replay } : Thread)) ig.threads s hf.2.2.1
    rw [hone] at hswept
    exact onlyThreads_of_swept hf (hone ▸ hswept) fun _ _ _ _ => rfl

end Sys2Proof.Proofs.Together

namespace Sys2Proof.Proofs.NamedBarriers

open Sys2Proof Sys2Proof.Machine Sys2Proof.Claims Sys2Proof.Proofs.Lanes Sys2Proof.Proofs.Sweeps Sys2Proof.Proofs.Issue
  Sys2Proof.Proofs.Together

/-! ### The lane of an arrival -/

/-- The destinations of an arrival. -/
def arriveDsts (o : XOp) (x : XForm) : List Nat := if o == .barArrive then [x.d.toNat] else []

/-- The registers that an arrival's count takes. -/
def countRegs (x : XForm) : Nat := if barCreg x then 1 else 0

/-- What an arrival makes of its thread; `done`: it completes the phase. -/
def arrived (o : XOp) (x : XForm) (phase done : Bool) (next : Nat) (th : Thread) : Thread :=
  if o == .barArrive then Thread.at (th.setV x.d.toNat phase.toNat) next
  else if done then Thread.at th next
  else { th with wait := .barrier (barNo x) phase }

/-- A lane sees its own thread as it was, whatever its team has become. -/
structure Sees (c : View) (s1 : State) (c1 : View) : Prop where
  id : c1.id = c.id
  th : c1.th = c.th
  alloc : c1.alloc = c.alloc
  thread : s1.thread? c1.id = some c1.th

section
variable {o : XOp} {x : XForm} {wa wb wc : Nat} {dsts : List Nat} {s s1 : State} {c c1 : View}

theorem Sees.operands (h : Sees c s1 c1) (hu : Usable o x wa wb wc dsts s c) :
    c1.operands o x wa wb wc = .ok (regsOf c o x wa wb wc) :=
  (Laws.Completes.operands_team c1 c o x wa wb wc h.th h.alloc).trans (operands_of_usable hu)

theorem Sees.dests (h : Sees c s1 c1) (hu : Usable o x wa wb wc dsts s c) : c1.dests dsts = .ok () :=
  (Laws.Completes.dests_team c1 c dsts h.alloc).trans hu.1

theorem Sees.claimRegs (h : Sees c s1 c1) (hu : Usable o x wa wb wc dsts s c) :
    s1.claimRegs c1 (regsOf c o x wa wb wc).srcs dsts = .ok s1 := by
  obtain ⟨_, _, hset, hdst, hsound⟩ := hu
  refine claimRegs_settled s1 c1 _ dsts h.thread (fun m hm => ?pending) (fun m hm => ?seen) fun m hm => ?sound
  case pending =>
    rw [h.th]
    exact (List.mem_append.1 hm).elim (fun hs => (hset m hs).1) fun hd => (hdst m hd).1
  case seen =>
    have hawaited : c1.awaited m = c.awaited m := by simp only [View.awaited, h.th]
    rw [h.th]
    refine (List.mem_append.1 hm).elim (fun hs => (hset m hs).2) fun hd => ?_
    obtain ⟨hmem, hwait⟩ := List.mem_filter.1 hd
    exact (hdst m hmem).2 (hawaited ▸ hwait)
  case sound =>
    rw [h.th]
    exact hsound m hm

end

/-- What a sound arrival answers. -/
theorem barLane_eq {o : XOp} {x : XForm} {next : Nat} {s s1 : State} {c c1 : View} (h : Sees c s1 c1)
    (hu : Usable o x 0 (countRegs x) 0 (arriveDsts o x) s c) (hnbar : barNo x < c1.team.nbar) (hperf : c.th.peerOut = [])
    (hfit : (c1.team.bar (barNo x)).mismatch (barE x) (arrivals o x c) = false) :
    let bar := c1.team.bar (barNo x)
    let s2 := s1.modTeam c1.id.team fun t => t.barArrive (barNo x) (barE x) (arrivals o x c)
    barLane o x next s1 c1 = .ok (
      if o == .barArrive then (s2.modThread c1.id fun th => th.setV x.d.toNat bar.phase.toNat, next)
      else if bar.count + arrivals o x c = barE x then (s2, next)
      else (s2.modThread c1.id fun th => { th with wait := .barrier (barNo x) bar.phase }, c.th.pc.toNat)) := by
  have hdests := h.dests hu
  have hclaim := h.claimRegs hu
  have hops := h.operands hu
  have hcount : (if barCreg x = true then c.th.vs (regsOf c o x 0 (countRegs x) 0).b 1 else 1) = arrivals o x c := by
    unfold arrivals countRegs
    split <;> rfl
  unfold countRegs at hops hclaim hcount
  unfold arriveDsts at hdests hclaim
  have hperf' : c1.performed = .ok () := by simp [View.performed, h.th, hperf]
  simp only [barLane, hdests, hops, hclaim, if_neg (Nat.not_le.2 hnbar), hperf', bind, Except.bind, h.th, hcount, hfit,
    Bool.false_eq_true, if_false]
  split
  · rfl
  · split <;> rfl

theorem modTeam_modThread (s : State) (i : Tid) (f : Team → Team) (g : Thread → Thread) :
    (s.modTeam i.team f).modThread i g = s.modTeam i.team fun t => (f t).modThread i.n g := by
  simp only [State.modThread, State.modTeam, modify_modify]

/-- A sound arrival is counted in its team, and its thread goes on or parks. -/
theorem runLane_arrives {o : XOp} {x : XForm} {next : Nat} {s s1 : State} {c c1 : View} (h : Sees c s1 c1)
    (hview : s1.view c1.id = some c1) (hu : Usable o x 0 (countRegs x) 0 (arriveDsts o x) s c)
    (hnbar : barNo x < c1.team.nbar) (hperf : c.th.peerOut = [])
    (hfit : (c1.team.bar (barNo x)).mismatch (barE x) (arrivals o x c) = false) :
    ∃ g, runLane next none (barLane o x next) s1 c1.id = s1.modTeam c1.id.team (fun t =>
        (t.barArrive (barNo x) (barE x) (arrivals o x c)).modThread c1.id.n g) ∧
      g c.th = arrived o x (c1.team.bar (barNo x)).phase
        (decide ((c1.team.bar (barNo x)).count + arrivals o x c = barE x)) next c.th := by
  have hlane := barLane_eq (next := next) h hu hnbar hperf hfit
  simp only at hlane
  generalize arrivals o x c = n at hlane ⊢
  unfold arrived
  by_cases ho : (o == .barArrive) = true
  · rw [if_pos ho] at hlane ⊢
    exact ⟨_, (runLane_ok next none _ s1 c1.id c1 _ _ hview rfl hlane).trans
      ((modThread_modThread _ _ _ _).trans (modTeam_modThread _ _ _ _)), rfl⟩
  · rw [if_neg ho] at hlane ⊢
    by_cases hdone : (c1.team.bar (barNo x)).count + n = barE x
    · rw [if_pos hdone] at hlane
      rw [if_pos (decide_eq_true hdone)]
      exact ⟨_, (runLane_ok next none _ s1 c1.id c1 _ _ hview rfl hlane).trans (modTeam_modThread _ _ _ _), rfl⟩
    · rw [if_neg hdone] at hlane
      rw [if_neg (by simpa using hdone)]
      refine ⟨_, (runLane_ok next none _ s1 c1.id c1 _ _ hview rfl hlane).trans
        ((modThread_modThread _ _ _ _).trans (modTeam_modThread _ _ _ _)), ?_⟩
      simp

/-! ### The barrier of a team -/

/-- What the end of a phase makes of a thread. -/
def freed (done : Bool) (b : Nat) (th : Thread) : Thread :=
  match th.wait with
  | .barrier b' _ => if done && b' == b then Released th else th
  | _ => th

theorem freed_false (b : Nat) (th : Thread) : freed false b th = th := by
  unfold freed
  split <;> simp

theorem freed_ready {done : Bool} {b : Nat} {th : Thread} (h : th.wait = .ready) : freed done b th = th := by
  unfold freed
  rw [h]

section
variable (t : Team) (b e n : Nat)

/-- Whether an arrival completes the phase. -/
def completes (t : Team) (b e n : Nat) : Bool := decide ((t.bar b).count + n = e)

theorem barComplete_threads (m : Nat) :
    Tab.find m (t.barComplete b).threads = (Tab.find m t.threads).map (freed true b) := by
  refine Eq.trans (congrArg (Tab.find m) (List.map_congr_left fun p _ => ?_))
    (Tab.find_map_val (fun _ th => freed true b th) m t.threads)
  obtain ⟨i, th⟩ := p
  unfold freed
  cases hw : th.wait <;> simp only [hw]
  next b' ph =>
    by_cases hb : b' = b
    · simp [hb, Released]
    · simp [hb]

theorem barArrive_threads (m : Nat) :
    Tab.find m (t.barArrive b e n).threads = (Tab.find m t.threads).map (freed (completes t b e n) b) := by
  unfold Team.barArrive completes
  simp only
  split
  next h => rw [barComplete_threads, decide_eq_true h]
  next h =>
    rw [decide_eq_false h, show freed false b = id from funext (freed_false b)]
    simp

theorem barArrive_bar : (t.barArrive b e n).bar b = if completes t b e n then { phase := !(t.bar b).phase }
    else { phase := (t.bar b).phase, count := (t.bar b).count + n, latch := some e } := by
  unfold Team.barArrive completes
  simp only [decide_eq_true_eq]
  split
  · simp [Team.barComplete, Team.bar]
  · simp [Team.bar]

theorem barArrive_bar_other {j : Nat} (h : j ≠ b) : (t.barArrive b e n).bar j = t.bar j := by
  unfold Team.barArrive
  simp only
  split
  · simp only [Team.barComplete, Team.bar, Tab.getD_set_other _ h]
  · simp only [Team.bar, Tab.getD_set_other _ h]

theorem barArrive_kw : (t.barArrive b e n).kw = if completes t b e n && b == 0 then [] else t.kw := by
  unfold Team.barArrive completes
  simp only
  split
  next h => simp [Team.barComplete, h]
  next h => simp [h]

theorem barArrive_body : { t.barArrive b e n with threads := [], bars := [], kw := [] } =
    { t with threads := [], bars := [], kw := [] } := by
  unfold Team.barArrive
  simp only
  split <;> rfl

end

/-! ### Sums of arrivals -/

/-- The count with which a listed thread arrives. -/
def countOf (o : XOp) (x : XForm) (k : Nat) (t : Team) (n : Nat) : Nat :=
  ((Tab.find n t.threads).map fun th => arrivals o x (viewOf k t n th)).getD 0

theorem arrivalSum_append (o : XOp) (x : XForm) (k : Nat) (t : Team) (ns ms : List Nat) :
    arrivalSum o x k t (ns ++ ms) = arrivalSum o x k t ns + (ms.map (countOf o x k t)).sum := by
  have hfold : ∀ (ms : List Nat) (a : Nat), ms.foldl (fun sum n => sum + countOf o x k t n) a =
      a + (ms.map (countOf o x k t)).sum := by
    intro ms
    induction ms with
    | nil => simp
    | cons m ms ih =>
      intro a
      rw [List.foldl_cons, ih, List.map_cons, List.sum_cons]
      omega
  rw [arrivalSum, List.foldl_append]
  exact hfold ms _

theorem arrivalSum_snoc (o : XOp) (x : XForm) (k : Nat) (t : Team) (ns : List Nat) (n : Nat) {th : Thread}
    (hth : Tab.find n t.threads = some th) :
    arrivalSum o x k t (ns ++ [n]) = arrivalSum o x k t ns + arrivals o x (viewOf k t n th) := by
  rw [arrivalSum_append]
  simp [countOf, hth]

/-! ### The arrivals of an issue group -/

theorem onlyTeam_modTeam {s s1 : State} {k : Nat} (h : OnlyTeam s s1 k) (f : Team → Team) : OnlyTeam s (s1.modTeam k f) k := by
  refine ⟨fun j hj => ?_, h.2⟩
  rw [team?_modTeam, if_neg hj]
  exact h.1 j hj

/-- The threads `pre` have arrived, and the phase is not complete. -/
structure Arriving (o : XOp) (x : XForm) (next k : Nat) (t : Team) (s : State) (pre : List Nat) (s1 : State) (t1 : Team) :
    Prop where
  only : OnlyTeam s s1 k
  team : s1.team? k = some t1
  phase : (t1.bar (barNo x)).phase = (t.bar (barNo x)).phase
  count : (t1.bar (barNo x)).count = (t.bar (barNo x)).count + arrivalSum o x k t pre
  latch : (t1.bar (barNo x)).latch.getD (barE x) = barE x
  bars : ∀ j, j ≠ barNo x → t1.bar j = t.bar j
  here : ∀ n ∈ pre, ∀ th, Tab.find n t.threads = some th →
    Tab.find n t1.threads = some (arrived o x (t.bar (barNo x)).phase false next th)
  rest : ∀ m, m ∉ pre → Tab.find m t1.threads = Tab.find m t.threads
  kw : t1.kw = t.kw
  body : { t1 with threads := [], bars := [], kw := [] } = { t with threads := [], bars := [], kw := [] }

section
variable {o : XOp} {x : XForm} {next k : Nat} {t : Team} {s s1 : State} {pre : List Nat} {t1 : Team} {n : Nat} {th : Thread}

/-- One more thread arrives: its team afterwards. -/
theorem Arriving.arrives (h : Arriving o x next k t s pre s1 t1) (hn : n ∉ pre) (hth : Tab.find n t.threads = some th)
    (hready : th.peerOut = []) (hu : Usable o x 0 (countRegs x) 0 (arriveDsts o x) s (viewOf k t n th))
    (hnbar : barNo x < t.nbar)
    (hfits : (t.bar (barNo x)).count + arrivalSum o x k t (pre ++ [n]) ≤ barE x) :
    ∃ g, OnlyTeam s (runLane next none (barLane o x next) s1 { team := k, n }) k ∧
      (runLane next none (barLane o x next) s1 { team := k, n }).team? k =
        some ((t1.barArrive (barNo x) (barE x) (arrivals o x (viewOf k t n th))).modThread n g) ∧
      completes t1 (barNo x) (barE x) (arrivals o x (viewOf k t n th)) =
        decide ((t.bar (barNo x)).count + arrivalSum o x k t (pre ++ [n]) = barE x) ∧
      g th = arrived o x (t.bar (barNo x)).phase
        (decide ((t.bar (barNo x)).count + arrivalSum o x k t (pre ++ [n]) = barE x)) next th := by
  have hth1 : Tab.find n t1.threads = some th := (h.rest n hn).trans hth
  have hsees : Sees (viewOf k t n th) s1 (viewOf k t1 n th) :=
    { id := rfl, th := rfl, alloc := (congrArg (Team.alloc · n) h.body :), thread := thread?_of_find h.team hth1 }
  have hsum : (t1.bar (barNo x)).count + arrivals o x (viewOf k t n th) =
      (t.bar (barNo x)).count + arrivalSum o x k t (pre ++ [n]) := by
    rw [h.count, arrivalSum_snoc o x k t pre n hth]
    omega
  have hfit : (t1.bar (barNo x)).mismatch (barE x) (arrivals o x (viewOf k t n th)) = false := by
    simp only [Barrier.mismatch, h.latch, hsum, bne_self_eq_false, Bool.false_or, decide_eq_false_iff_not]
    omega
  obtain ⟨g, hrun, hg⟩ := runLane_arrives (next := next) hsees (view_eq s1 { team := k, n } t1 th h.team hth1) hu
    ((congrArg Team.nbar h.body :).symm ▸ hnbar) hready hfit
  have hrun' : runLane next none (barLane o x next) s1 { team := k, n } = s1.modTeam k fun u =>
      (u.barArrive (barNo x) (barE x) (arrivals o x (viewOf k t n th))).modThread n g := hrun
  refine ⟨g, ?_, ?_, ?_, ?_⟩
  · rw [hrun']
    exact onlyTeam_modTeam h.only _
  · rw [hrun', team?_modTeam, if_pos rfl, h.team]
    rfl
  · rw [completes, hsum]
  · rw [← hsum, ← h.phase]
    exact hg

/-- A thread that arrives without completing the phase. -/
theorem Arriving.snoc (h : Arriving o x next k t s pre s1 t1) (hn : n ∉ pre) (hth : Tab.find n t.threads = some th)
    (hready : th.peerOut = []) (hu : Usable o x 0 (countRegs x) 0 (arriveDsts o x) s (viewOf k t n th))
    (hnbar : barNo x < t.nbar) (hfits : (t.bar (barNo x)).count + arrivalSum o x k t (pre ++ [n]) < barE x) :
    ∃ t2, Arriving o x next k t s (pre ++ [n]) (runLane next none (barLane o x next) s1 { team := k, n }) t2 := by
  obtain ⟨g, honly, hteam, hcomp, hg⟩ := h.arrives hn hth hready hu hnbar (Nat.le_of_lt hfits)
  rw [decide_eq_false (Nat.ne_of_lt hfits)] at hcomp hg
  let t2 := (t1.barArrive (barNo x) (barE x) (arrivals o x (viewOf k t n th))).modThread n g
  have hbar : t2.bar (barNo x) = { phase := (t1.bar (barNo x)).phase
                                   count := (t1.bar (barNo x)).count + arrivals o x (viewOf k t n th)
                                   latch := some (barE x) } := by
    refine (barArrive_bar t1 (barNo x) (barE x) _).trans ?_
    rw [hcomp]
    rfl
  have hthreads : ∀ m, Tab.find m t2.threads =
      if m = n then some (arrived o x (t.bar (barNo x)).phase false next th) else Tab.find m t1.threads := by
    intro m
    refine (Tab.find_modify n m g _).trans ?_
    rw [barArrive_threads, hcomp, show freed false (barNo x) = id from funext (freed_false _)]
    split
    next hm => rw [hm, h.rest n hn, hth, Option.map_some, Option.map_some, id, hg]
    next => exact Option.map_id_apply
  refine ⟨t2, honly, hteam, ?_, ?_, ?_, fun j hj => ?_, fun m hm th' hth' => ?_, fun m hm => ?_, ?_, ?_⟩
  · rw [hbar, h.phase]
  · rw [hbar, h.count, arrivalSum_snoc o x k t pre n hth]
    exact Nat.add_assoc _ _ _
  · rw [hbar]
    rfl
  · exact (barArrive_bar_other t1 (barNo x) (barE x) _ hj).trans (h.bars j hj)
  · rw [hthreads]
    split
    next he =>
      subst he
      rw [Option.some.inj (hth'.symm.trans hth)]
    next he => exact h.here m (by simpa [he] using hm) th' hth'
  · rw [hthreads, if_neg fun he => hm (by simp [he])]
    exact h.rest m fun hp => hm (by simp [hp])
  · refine (barArrive_kw t1 (barNo x) (barE x) _).trans ?_
    rw [hcomp, Bool.false_and, if_neg (by decide), h.kw]
  · exact (barArrive_body t1 (barNo x) (barE x) _).trans h.body

end

/-- What a thread of the group is after all have arrived. -/
def afterArrivals (o : XOp) (x : XForm) (phase done last : Bool) (next : Nat) (th : Thread) : Thread :=
  if last then arrived o x phase done next th else freed done (barNo x) (arrived o x phase false next th)

theorem arrived_wait (o : XOp) (x : XForm) (phase done : Bool) (next : Nat) {th : Thread} (h : th.wait = .ready) :
    (arrived o x phase done next th).wait = .ready ∨ (arrived o x phase done next th).wait = .barrier (barNo x) phase := by
  unfold arrived
  split
  · exact .inl h
  · split
    · exact .inl h
    · exact .inr rfl

theorem arrived_not_replay (o : XOp) (x : XForm) (phase done : Bool) (next : Nat) {th : Thread} (h : th.wait = .ready) :
    some (arrived o x phase done next th).wait ≠ some .replay := by
  rcases arrived_wait o x phase done next h with hw | hw <;> rw [hw] <;> exact fun hc => nomatch hc

theorem afterArrivals_wait (o : XOp) (x : XForm) (phase done last : Bool) (next : Nat) {th : Thread} (h : th.wait = .ready) :
    (afterArrivals o x phase done last next th).wait ≠ .replay := by
  unfold afterArrivals
  split
  · exact fun hc => arrived_not_replay o x phase done next h (congrArg some hc)
  · rcases arrived_wait o x phase false next h with hw | hw
    · rw [freed_ready hw, hw]
      exact fun hc => nomatch hc
    · unfold freed
      rw [hw]
      simp only
      split
      · exact fun hc => nomatch hc
      · rw [hw]
        exact fun hc => nomatch hc

/-- The arrivals of an issue group, the last of which may complete the phase. -/
theorem arrival_of {o : XOp} {x : XForm} {i : Instr} (hexec : ∀ s, exec i s = execTogether x.words none (barLane o x) s)
    {eff : Bool → Bool → Barrier → Nat → Thread → Thread}
    (heff : ∀ done last bar next th, th.wait = .ready →
      afterArrivals o x bar.phase done last next th = eff done last bar next th) :
    Arrival o x i (arriveDsts o x) eff := by
  intro s ig t last hf hlast hready b bar count hu hnbar hlatch hbefore hcount done
  obtain ⟨hig, hteam, hnodup, hlisted⟩ := id hf
  let next := nextPc ig x.words
  obtain ⟨init, hts⟩ : ∃ init, ig.threads = init ++ [last] := ⟨_, (List.dropLast_append_getLast? last hlast).symm⟩
  have hdrop : ig.threads.dropLast = init := by rw [hts, List.dropLast_concat]
  rw [hdrop] at hbefore
  have hnot : last ∉ init := fun h => (List.nodup_append.1 (hts ▸ hnodup)).2.2 last h last (by simp) rfl
  have hstart : Arriving o x next ig.team t s [] s t :=
    { only := ⟨fun _ _ => rfl, rfl⟩, team := hteam, phase := rfl, count := rfl, latch := hlatch, bars := fun _ _ => rfl
      here := fun _ h => (nomatch h), rest := fun _ _ => rfl, kw := rfl, body := rfl }
  obtain ⟨s1, ⟨t1, harr⟩, horder⟩ := inOrder_snoc (F := runLane next none (barLane o x next)) (k := ig.team) (last := last)
    (P := fun pre s1 => ∃ t1, Arriving o x next ig.team t s pre s1 t1) (all := init)
    (fun pre n post s1 hall ⟨t1, h⟩ => by
      have hmem : n ∈ ig.threads := by rw [hts, hall]; simp
      have hn : n ∉ pre := fun hp => (List.nodup_append.1 (hall ▸ (List.nodup_append.1 (hts ▸ hnodup)).1)).2.2 n hp n
        (by simp) rfl
      obtain ⟨th, hth⟩ := hlisted n hmem
      obtain ⟨hwait, hperf⟩ := hready n hmem th hth
      have hless : arrivalSum o x ig.team t (pre ++ [n]) ≤ arrivalSum o x ig.team t init := by
        rw [hall, show pre ++ n :: post = (pre ++ [n]) ++ post by simp, arrivalSum_append o x ig.team t (pre ++ [n]) post]
        exact Nat.le_add_right _ _
      have hinit : init ≠ [] := by rw [hall]; simp
      have hfits : (t.bar (barNo x)).count + arrivalSum o x ig.team t (pre ++ [n]) < barE x :=
        Nat.lt_of_le_of_lt (Nat.add_le_add_left hless _) (hbefore hinit)
      obtain ⟨t2, h2⟩ := h.snoc hn hth hperf (hu n hmem th hth) hnbar hfits
      refine ⟨⟨t2, h2⟩, ?_⟩
      rw [thread?_of_find h2.team (h2.here n (by simp) th hth), Option.map_some]
      exact arrived_not_replay o x _ false next hwait)
    [] init s rfl ⟨t, hstart⟩
  have hmem : last ∈ ig.threads := by rw [hts]; simp
  obtain ⟨thl, hthl⟩ := hlisted last hmem
  obtain ⟨hwaitl, hperfl⟩ : thl.wait = .ready ∧ thl.peerOut = [] := hready last hmem thl hthl
  obtain ⟨g, honly, hteam2, hcomp, hg⟩ := harr.arrives hnot hthl hperfl (hu last hmem thl hthl) hnbar (hts ▸ hcount)
  have hdone : decide ((t.bar (barNo x)).count + arrivalSum o x ig.team t (init ++ [last]) = barE x) = done := by rw [← hts]
  rw [hdone] at hcomp hg
  let s2 := runLane next none (barLane o x next) s1 { team := ig.team, n := last }
  let t2 := (t1.barArrive (barNo x) (barE x) (arrivals o x (viewOf ig.team t last thl))).modThread last g
  have hthreads : ∀ m, Tab.find m t2.threads = if m = last then some (arrived o x bar.phase done next thl)
      else (Tab.find m t1.threads).map (freed done (barNo x)) := by
    intro m
    refine (Tab.find_modify last m g _).trans ?_
    rw [barArrive_threads, hcomp]
    split
    next hm => rw [hm, harr.rest last hnot, hthl, Option.map_some, Option.map_some, freed_ready hwaitl, hg]
    next => rfl
  have hgroup : ∀ n ∈ ig.threads, ∀ th, Tab.find n t.threads = some th →
      Tab.find n t2.threads = some (afterArrivals o x bar.phase done (n == last) next th) := by
    intro n hn th hth
    rw [hthreads, afterArrivals]
    by_cases he : n = last
    · subst he
      rw [if_pos rfl, if_pos (beq_self_eq_true n), Option.some.inj (hth.symm.trans hthl)]
    · have hn' : n ∈ init := by
        rw [hts] at hn
        simpa [he] using hn
      rw [if_neg he, if_neg (by simpa using he), harr.here n hn' th hth, Option.map_some]
  refine ⟨s2, t2, ?_, honly, hteam2, ?_, fun j hj => ?_, fun n hn th hth => ?_, fun m hm => ?_, ?_, ?_⟩
  · rw [hexec, execTogether_next hig]
    rw [hts]
    show Host.Outcome.next (State.keepGroup (State.inOrder (runLane next none (barLane o x next)) ig.team (init ++ [last]) s)
      _ _ _ _) = _
    rw [horder, ← hts]
    rw [keepGroup_none fun n hn => ?_]
    obtain ⟨th, hth⟩ := hlisted n hn
    rw [thread?_of_find hteam2 (hgroup n hn th hth), Option.map_some]
    exact fun hc => afterArrivals_wait o x _ _ _ _ (hready n hn th hth).1 (Option.some.inj hc)
  · refine (barArrive_bar t1 (barNo x) (barE x) _).trans ?_
    rw [hcomp, harr.phase, harr.count, Nat.add_assoc, ← arrivalSum_snoc o x ig.team t init last hthl, ← hts]
  · exact (barArrive_bar_other t1 (barNo x) (barE x) _ hj).trans (harr.bars j hj)
  · exact (hgroup n hn th hth).trans (congrArg some (heff done (n == last) bar next th (hready n hn th hth).1))
  · rw [hthreads, if_neg fun he : m = last => hm (he ▸ hmem), harr.rest m fun hp => hm (by rw [hts]; simp [hp])]
    rfl
  · refine (barArrive_kw t1 (barNo x) (barE x) _).trans ?_
    rw [hcomp, harr.kw]
  · exact (barArrive_body t1 (barNo x) (barE x) _).trans harr.body

theorem barrierArrivals : BarrierArrivals := by
  refine ⟨fun x => arrival_of (o := .barArrive) (fun _ => rfl) fun done last bar next th hw => ?_,
    fun x => arrival_of (o := .barSync) (fun _ => rfl) fun done last bar next th hw => ?_⟩
  · cases last with
    | true => rfl
    | false => exact freed_ready hw
  · cases last with
    | true => cases done <;> rfl
    | false =>
      cases done with
      | true =>
        show freed true (barNo x) { th with wait := .barrier (barNo x) bar.phase } = _
        simp [freed, Released]
      | false => exact (freed_false (barNo x) { th with wait := .barrier (barNo x) bar.phase } :)

/-! ### `bar.wait` -/

theorem exec_barWait (x : XForm) (s : State) : exec (.barWait x) s = execLanes x.words none (fun next s c => do
    let r ← c.operands .barWait x 1 0 0
    let s ← s.claimRegs c r.srcs []
    if c.team.nbar ≤ barNo x then throw (badEncoding .barWait x)
    let f := Bits.bit (c.th.vs r.a 1) 0
    if (c.team.bar (barNo x)).phase = f then
      return (s.modThread c.id fun th => { th with wait := .barrier (barNo x) f }, c.th.pc.toNat)
    else return (s, next)) s := rfl

theorem bar_agrees {s s1 : State} {c c1 : View} (h : Agrees s c s1 c1) (b : Nat) : c1.team.bar b = c.team.bar b :=
  (congrArg (Team.bar · b) h.team :)

theorem nbar_agrees {s s1 : State} {c c1 : View} (h : Agrees s c s1 c1) : c1.team.nbar = c.team.nbar :=
  (congrArg Team.nbar h.team :)

theorem barrierWait : BarrierWait := by
  intro x f
  refine goes_of_lanes (exec_barWait x) fun s ig c ⟨hu, hnbar⟩ => ?_
  have hclaim : ∀ s1 c1, Agrees s c s1 c1 → s1.claimRegs c1 (regsOf c .barWait x 1 0 0).srcs [] = .ok s1 := fun _ _ h =>
    claimRegs_usable h hu
  split
  next hph =>
    rw [show ({ c.th with wait := .barrier (barNo x) (f c) } : Thread) =
      { ({ c.th with wait := .barrier (barNo x) (f c) } : Thread) with pc := BitVec.ofNat 64 c.th.pc.toNat } by simp]
    refine laneDoes_ok rfl fun s1 c1 h => ?_
    have hph' : (c1.team.bar (barNo x)).phase = Bits.bit (c.th.vs (regsOf c .barWait x 1 0 0).a 1) 0 := by
      rw [bar_agrees h]
      exact hph
    simp only [operands_usable h hu, hclaim s1 c1 h, bind, Except.bind, nbar_agrees h, if_neg (Nat.not_le.2 hnbar), h.th,
      if_pos hph']
    exact ⟨_, rfl, rfl⟩
  next hph =>
    refine laneDoes_goesOn rfl fun s1 c1 h => ?_
    have hph' : ¬(c1.team.bar (barNo x)).phase = Bits.bit (c.th.vs (regsOf c .barWait x 1 0 0).a 1) 0 := by
      rw [bar_agrees h]
      exact hph
    simp only [operands_usable h hu, hclaim s1 c1 h, bind, Except.bind, nbar_agrees h, if_neg (Nat.not_le.2 hnbar), h.th,
      if_neg hph']
    rfl

/-! ### Faults and waits -/

section
variable {o : XOp} {x : XForm} {next : Nat} {s s1 : State} {c c1 : View} (h : Agrees s c s1 c1)
  (hu : Usable o x 0 (if barCreg x then 1 else 0) 0 (arriveDsts o x) s c)
include h hu

/-- A barrier that the team does not have (R332). -/
theorem barLane_absent (hnbar : c.team.nbar ≤ barNo x) : barLane o x next s1 c1 = .error (badEncoding o x) := by
  have hdests := dests_usable h hu
  have hclaim := claimRegs_usable h hu
  unfold arriveDsts at hdests hclaim
  simp only [barLane, hdests, operands_usable h hu, hclaim, bind, Except.bind, nbar_agrees h, if_pos hnbar]
  rfl

/-- An arrival that the barrier turns away (R333). -/
theorem barLane_excess (hnbar : barNo x < c.team.nbar) (hperf : c.th.peerOut = [])
    (hmis : (c.team.bar (barNo x)).mismatch (barE x) (arrivals o x c) = true) :
    barLane o x next s1 c1 = .error (.fault { code := Code.countMismatch, info := barNo x }) := by
  have hdests := dests_usable h hu
  have hclaim := claimRegs_usable h hu
  unfold arriveDsts at hdests hclaim
  have hcount : (if barCreg x = true then c.th.vs (regsOf c o x 0 (if barCreg x = true then 1 else 0) 0).b 1 else 1) =
      arrivals o x c := by
    unfold arrivals
    split <;> rfl
  have hperf' : c1.performed = .ok () := by simp [View.performed, h.th, hperf]
  have hmis' : (c1.team.bar (barNo x)).mismatch (barE x) (arrivals o x c) = true := by rwa [bar_agrees h]
  simp only [barLane, hdests, operands_usable h hu, hclaim, bind, Except.bind, nbar_agrees h, if_neg (Nat.not_le.2 hnbar),
    hperf', h.th, hcount, hmis', if_true]
  rfl

/-- An arrival with a peer write outstanding (R334). -/
theorem barLane_waits (hnbar : barNo x < c.team.nbar) (hperf : c.th.peerOut ≠ []) :
    barLane o x next s1 c1 = .error (.park .replay) := by
  have hdests := dests_usable h hu
  have hclaim := claimRegs_usable h hu
  unfold arriveDsts at hdests hclaim
  have hperf' : c1.performed = .error (.park .replay) := by simp [View.performed, h.th, hperf]
  simp only [barLane, hdests, operands_usable h hu, hclaim, bind, Except.bind, nbar_agrees h, if_neg (Nat.not_le.2 hnbar),
    hperf']

end

theorem mismatch_of {b : Barrier} {e n : Nat} (h : (∃ e', b.latch = some e' ∧ e' ≠ e) ∨ e < b.count + n) :
    b.mismatch e n = true := by
  unfold Barrier.mismatch
  rcases h with ⟨e', hl, hne⟩ | hover
  · simp [hl, hne]
  · simp [hover]

theorem barrierFaults : BarrierFaults := by
  intro x wb absent excess
  have hpair : ∀ n : Nat, n = 0x02 ∨ n = 0x0B → n ≠ 0x17 ∧ n ≠ 0x18 := by omega
  have habsent : ∀ (o : XOp) (i : Instr), (∀ s, exec i s = execTogether x.words none (barLane o x) s) →
      Faults i (absent o 0 wb (arriveDsts o x)) fun _ => { code := 0x02, info := word0 o x } := fun o i hexec =>
    faults_of_together hexec (fun _ => hpair _ (.inl rfl)) fun s c next ⟨hu, hnbar⟩ s1 c1 h => barLane_absent h hu hnbar
  have hexcess : ∀ (o : XOp) (i : Instr), (∀ s, exec i s = execTogether x.words none (barLane o x) s) →
      Faults i (excess o (arriveDsts o x)) fun _ => { code := 0x0B, info := barNo x } := fun o i hexec =>
    faults_of_together hexec (fun _ => hpair _ (.inr rfl)) fun s c next ⟨hu, hnbar, hperf, hbad⟩ s1 c1 h =>
      barLane_excess h hu hnbar hperf (mismatch_of hbad)
  refine ⟨habsent .barArrive _ fun _ => rfl, habsent .barSync _ fun _ => rfl, ?_, hexcess .barArrive _ fun _ => rfl,
    hexcess .barSync _ fun _ => rfl⟩
  refine faults_of_lanes (exec_barWait x) (fun _ => hpair _ (.inl rfl)) fun s c next ⟨hu, hnbar⟩ => ⟨rfl, fun s1 c1 h => ?_⟩
  have hclaim : s1.claimRegs c1 (regsOf c .barWait x 1 0 0).srcs [] = .ok s1 := claimRegs_usable h hu
  simp only [operands_usable h hu, hclaim, bind, Except.bind, nbar_agrees h, if_pos hnbar]
  rfl

theorem arrivalsWait : ArrivalsWait := by
  intro x waits
  have hwaits : ∀ (i : Instr) (o : XOp), (∀ s, exec i s = execTogether x.words none (barLane o x) s) →
      waits i o (arriveDsts o x) := by
    intro i o hexec s ig t n th hf hone hth hperf hu hnbar
    obtain ⟨s', he, hdoes⟩ := replays_of_together (words := x.words) hf hone hth
      (barLane_waits (agrees_first hf hth) hu hnbar hperf)
    exact ⟨s', (hexec s).trans he, hdoes⟩
  exact ⟨hwaits (.barArrive x) .barArrive fun _ => rfl, hwaits (.barSync x) .barSync fun _ => rfl⟩

/-- Settles O15: the arrivals of a group are counted one after the other, and none but the last can complete the phase. -/
theorem namedBarriers : Obligations.NamedBarriers := ⟨barrierArrivals, barrierWait, barrierFaults, arrivalsWait⟩

end Sys2Proof.Proofs.NamedBarriers

/-! Rejoin sets (R309 to R317): steps that act on one team, sets and threads of a group, and from these the statement about the
instructions that form, join and read sets. -/

namespace Sys2Proof.Proofs.OneTeam

open Sys2Proof Sys2Proof.Machine Sys2Proof.Claims Sys2Proof.Proofs.Sweeps

/-! ### Steps that act on one team -/

/-- Team `k` has become what `F` makes of it, and nothing else has changed. -/
def Acts (s s' : State) (k : Nat) (F : Team → Team) : Prop := OnlyTeam s s' k ∧ s'.team? k = (s.team? k).map F

theorem acts_refl (s : State) (k : Nat) : Acts s s k id := ⟨⟨fun _ _ => rfl, rfl⟩, by simp⟩

theorem acts_modTeam (s : State) (k : Nat) (F : Team → Team) : Acts s (s.modTeam k F) k F :=
  ⟨⟨fun j hj => by rw [team?_modTeam, if_neg hj], rfl⟩, by rw [team?_modTeam, if_pos rfl]⟩

theorem Acts.trans {s s' s'' : State} {k : Nat} {F G : Team → Team} (h : Acts s s' k F) (h' : Acts s' s'' k G) :
    Acts s s'' k (G ∘ F) :=
  ⟨⟨fun j hj => (h'.1.1 j hj).trans (h.1.1 j hj), (congrArg (fun u : State => { u with teams := s.teams }) h'.1.2 :).trans h.1.2⟩,
    by rw [h'.2, h.2, Option.map_map]⟩

theorem acts_foldl {α : Type} (k : Nat) {f : State → α → State} {F : α → Team → Team} (hf : ∀ s a, Acts s (f s a) k (F a))
    (l : List α) (s : State) : Acts s (l.foldl f s) k fun t => l.foldl (fun t a => F a t) t := by
  induction l generalizing s with
  | nil => exact acts_refl s k
  | cons a l ih => exact (hf s a).trans (ih (f s a))

theorem Acts.team {s s' : State} {k : Nat} {F : Team → Team} (h : Acts s s' k F) {t : Team} (ht : s.team? k = some t) :
    s'.team? k = some (F t) := by rw [h.2, ht, Option.map_some]

/-! ### Threads of a team, changed one after the other -/

/-- The threads `ns` changed by `f`. -/
def Team.sweep (f : Nat → Thread → Thread) (ns : List Nat) (t : Team) : Team := ns.foldl (fun t n => t.modThread n (f n)) t

theorem acts_sweep (s : State) (k : Nat) (f : Nat → Thread → Thread) (ns : List Nat) :
    Acts s (ns.foldl (fun s n => s.modThread { team := k, n } (f n)) s) k (Team.sweep f ns) :=
  acts_foldl k (fun s n => acts_modTeam s k fun t => t.modThread n (f n)) ns s

theorem sweep_body (f : Nat → Thread → Thread) (ns : List Nat) (t : Team) :
    { Team.sweep f ns t with threads := t.threads } = t := by
  induction ns generalizing t with
  | nil => rfl
  | cons n ns ih => exact (congrArg (fun u : Team => { u with threads := t.threads }) (ih (t.modThread n (f n))) :)

theorem find_sweep (f : Nat → Thread → Thread) {ns : List Nat} (hnodup : ns.Nodup) (t : Team) (m : Nat) :
    Tab.find m (Team.sweep f ns t).threads = if m ∈ ns then (Tab.find m t.threads).map (f m) else Tab.find m t.threads := by
  induction ns generalizing t with
  | nil => rfl
  | cons n ns ih =>
    obtain ⟨hn, hnodup⟩ := List.nodup_cons.1 hnodup
    refine (ih hnodup (t.modThread n (f n))).trans ?_
    rw [Team.modThread_threads, Tab.find_modify]
    by_cases hm : m = n
    · subst hm
      rw [if_neg hn, if_pos rfl, if_pos List.mem_cons_self]
    · simp [hm]

theorem threadsOf_sweep (f : Nat → Thread → Thread) {ns : List Nat} (hnodup : ns.Nodup) (t : Team) :
    ThreadsOf t (Team.sweep f ns t) ns f :=
  ⟨fun n hn => by rw [find_sweep f hnodup, if_pos hn], fun n hn => by rw [find_sweep f hnodup, if_neg hn]⟩

/-! ### One fault for a list of threads -/

/-- A fault of a team that has a trap vector, outside a handler (R375). -/
theorem laneDoes_deliver {x : Trap} {next : Nat} {s : State} {c : View} (hnear : c.team.near = false)
    (hstop : c.team.stopped = false) (hvec : s.trapVec c.team ≠ 0) (hhandler : c.th.handler = false) :
    Issue.LaneDoes (fun s i => s.deliver i x next) s c (c.th.enter x (x.tpc c.th.pc.toNat next) (s.trapVec c.team)) := by
  intro s1 c1 h hview
  have hdoes := Issue.laneDoes_fault (next := next) (g := none) (f := fun _ _ => .error (.fault x)) rfl hnear hstop hvec
    hhandler (fun _ _ _ => rfl) s1 c1 h hview
  rwa [runLane_fault next none _ s1 c1.id c1 x hview rfl rfl] at hdoes

theorem deliverAll_enters {s : State} {ig : IssueGroup} {t : Team} (hf : Formed s ig t) (hcan : CanTrap s ig t) {x : Trap}
    (hcode : x.code ≠ 0x17 ∧ x.code ≠ 0x18) (next : Nat) :
    Enters s (s.deliverAll ig.team ig.threads x next) ig t (fun c => c.th.pc.toNat) fun _ => x := by
  obtain ⟨hnear, hstop, hvec, hhandler⟩ := hcan
  have henter := Issue.enters_of_onlyThreads (tpc := fun c => x.tpc c.th.pc.toNat next) (tr := fun _ => x)
    (Issue.swept_of_laneDoes hf fun n hn th hth =>
      laneDoes_deliver (x := x) (next := next) hnear hstop hvec (hhandler n hn th hth))
  simp only [Issue.tpc_precise hcode] at henter
  exact henter

end Sys2Proof.Proofs.OneTeam

namespace Sys2Proof.Proofs.Rejoin

open Sys2Proof Sys2Proof.Machine Sys2Proof.Claims Sys2Proof.Proofs.Lanes Sys2Proof.Proofs.Sweeps Sys2Proof.Proofs.Issue
  Sys2Proof.Proofs.OneTeam

/-! ### Groups as software numbers them -/

section
variable {t : Team} {m n : Nat}

theorem width_pos (t : Team) : 0 < t.width := by
  unfold Team.width
  split <;> decide

theorem mem_groupThreads {g : Nat} : m ∈ t.groupThreads g ↔ t.gid m = g := by
  have hw := width_pos t
  simp only [Team.groupThreads, List.mem_map, List.mem_range, Team.gid]
  constructor
  · rintro ⟨l, hl, rfl⟩
    rw [Nat.mul_comm, Nat.mul_add_div hw, Nat.div_eq_of_lt hl, Nat.add_zero]
  · rintro rfl
    exact ⟨m % t.width, Nat.mod_lt _ hw, Nat.div_add_mod' m t.width⟩

theorem nodup_groupThreads (t : Team) (g : Nat) : (t.groupThreads g).Nodup :=
  List.nodup_range.map fun a b h => by simpa using h

/-- Two threads of one group have different lanes. -/
theorem lane_inj (hg : t.gid m = t.gid n) (hl : t.lane m = t.lane n) : m = n := by
  unfold Team.gid at hg
  unfold Team.lane at hl
  rw [← Nat.div_add_mod m t.width, ← Nat.div_add_mod n t.width, hg, hl]

/-- The threads of one group share their hardware group and their half, and no others do. -/
theorem gid_iff : t.gid m = t.gid n ↔ t.hw m = t.hw n ∧ t.half m = t.half n := by
  unfold Team.gid Team.hw Team.half Team.width Team.hwWidth
  cases t.near with
  | true => simp
  | false =>
    cases t.split with
    | true =>
      simp
      omega
    | false => simp

end

/-! ### A set of a group -/

/-- Set `j` of the group of `n` became `v`; the group records and the team are as they were but for that, and for threads. -/
def SetOf (t t' : Team) (n j : Nat) (v : JSet) : Prop :=
  (∀ m i, i < 16 → t'.jset m i = if t.gid m = t.gid n ∧ i = j then v else t.jset m i) ∧
    (∀ g, (Tab.find g t'.groups).map (fun r => { r with sets := [] }) =
      (Tab.find g t.groups).map fun r => { r with sets := [] }) ∧
    { t' with threads := [], groups := [] } = { t with threads := [], groups := [] }

theorem setJ_body (t : Team) (n j : Nat) (v : JSet) :
    (∀ g, (Tab.find g (t.setJ n j v).groups).map (fun r => { r with sets := [] }) =
      (Tab.find g t.groups).map fun r => { r with sets := [] }) ∧
    { t.setJ n j v with threads := [], groups := [] } = { t with threads := [], groups := [] } := by
  refine ⟨fun g => ?_, rfl⟩
  rw [Team.setJ, Team.modGroup_groups, Tab.find_modify]
  split
  · rw [Option.map_map]
    rfl
  · rfl

theorem jset_congr {t : Team} {m n : Nat} (h : t.gid m = t.gid n) (j : Nat) : t.jset m j = t.jset n j := by
  obtain ⟨hhw, hhalf⟩ := gid_iff.1 h
  simp only [Team.jset, Team.setKey, hhw, hhalf]

theorem setOf_setJ {t : Team} {n j : Nat} (v : JSet) (hg : Tab.has t.groups (t.hw n) = true) (hj : j < 16) :
    SetOf t (t.setJ n j v) n j v := by
  refine ⟨fun m i hi => ?_, setJ_body t n j v⟩
  split
  next h =>
    obtain ⟨hgid, rfl⟩ := h
    exact (jset_congr (t := t.setJ n i v) hgid i).trans (jset_setJ_same t n i v hg)
  next h =>
    refine jset_setJ_other t n j m i v ?_
    by_cases hhw : t.hw m = t.hw n
    · refine .inr fun hkey => h ?_
      unfold Team.setKey at hkey
      exact ⟨gid_iff.2 ⟨hhw, by omega⟩, by omega⟩
    · exact .inl hhw

/-- A set replaced once more. -/
theorem SetOf.setJ {t t1 : Team} {n m j : Nat} {v : JSet} (h : SetOf t t1 n j v) (hm : t.gid m = t.gid n) (w : JSet)
    (hg : Tab.has t.groups (t.hw n) = true) (hj : j < 16) : SetOf t (t1.setJ m j w) n j w := by
  obtain ⟨hsets, hgroups, hbody⟩ := h
  obtain ⟨hhw, -⟩ := gid_iff.1 hm
  have hgid : ∀ a b, t1.gid a = t1.gid b ↔ t.gid a = t.gid b := fun a b => by
    have he : ∀ a, t1.gid a = t.gid a := fun a => (congrArg (Team.gid · a) hbody :)
    rw [he, he]
  have hg1 : Tab.has t1.groups (t1.hw m) = true := by
    have he : t1.hw m = t.hw m := (congrArg (Team.hw · m) hbody :)
    rw [he, hhw]
    have hsome := congrArg Option.isSome (hgroups (t.hw n))
    rw [Option.isSome_map, Option.isSome_map] at hsome
    exact hsome.trans hg
  obtain ⟨hsets', hgroups', hbody'⟩ := setOf_setJ w hg1 hj
  refine ⟨fun a i hi => ?_, fun g => (hgroups' g).trans (hgroups g), hbody'.trans hbody⟩
  rw [hsets' a i hi]
  by_cases hc : t.gid a = t.gid n ∧ i = j
  · rw [if_pos hc, if_pos ⟨(hgid a m).2 (hc.1.trans hm.symm), hc.2⟩]
  · rw [if_neg hc, if_neg fun h => hc ⟨((hgid a m).1 h.1).trans hm, h.2⟩, hsets a i hi, if_neg hc]

/-- A change of threads alone. -/
theorem SetOf.threads {t t1 t2 : Team} {n j : Nat} {v : JSet} (h : SetOf t t1 n j v)
    (hthreads : { t2 with threads := t1.threads } = t1) : SetOf t t2 n j v := by
  obtain ⟨hsets, hgroups, hbody⟩ := h
  have hg : t2.groups = t1.groups := (congrArg Team.groups hthreads :)
  refine ⟨fun m i hi => ((congrArg (Team.jset · m i) hthreads :) : t2.jset m i = t1.jset m i).trans (hsets m i hi),
    fun g => by rw [hg]; exact hgroups g, ?_⟩
  exact (congrArg (fun u : Team => { u with threads := [], groups := [] }) hthreads :).trans hbody

theorem SetOf.sweep {t t1 : Team} {n j : Nat} {v : JSet} (h : SetOf t t1 n j v) (f : Nat → Thread → Thread) (ns : List Nat) :
    SetOf t (Team.sweep f ns t1) n j v := h.threads (sweep_body f ns t1)

theorem SetOf.becomes {s s' : State} {k n j : Nat} {t : Team} {v : JSet} {F : Team → Team} (ht : s.team? k = some t)
    (h : Acts s s' k F) (hset : SetOf t (F t) n j v) : SetBecame s s' k t (F t) n j v := by
  obtain ⟨hsets, hgroups, hbody⟩ := hset
  exact ⟨h.team ht, h.1.1, (congrArg (fun u : State => { u with nextTag := s.nextTag }) h.1.2 :), hsets, hgroups, hbody⟩

theorem acts_goOn (s : State) (k : Nat) (ns : List Nat) (next : Nat) :
    Acts s (s.goOn k ns next) k (Team.sweep (fun _ th => Thread.at th next) ns) := acts_sweep s k _ ns

/-- An instruction of threads of one group acts once. -/
theorem execHalves_single {words : Nat} {f : Nat → State → Nat → List Nat → State} {s : State} {ig : IssueGroup} {t : Team}
    {g : Nat} (hig : s.ig = some ig) (hteam : s.team? ig.team = some t) (hne : ig.threads ≠ [])
    (hgid : ∀ n ∈ ig.threads, t.gid n = g) :
    execHalves words f s = .next (f (nextPc ig words) s ig.team ig.threads) := by
  simp only [execHalves, hig, hteam, RegisterPool.groupsOf_single hne hgid, List.foldl_cons, List.foldl_nil,
    RegisterPool.filter_single hgid]
  rfl

/-- The threads of a formed group that are of one software group. -/
theorem OneGroup.exec {words : Nat} {f : Nat → State → Nat → List Nat → State} {s : State} {ig : IssueGroup} {t : Team}
    {n : Nat} (hf : Formed s ig t) (h : OneGroup ig t n) :
    execHalves words f s = .next (f (nextPc ig words) s ig.team ig.threads) := by
  obtain ⟨hn, hgid, _⟩ := h
  exact execHalves_single hf.1 hf.2.1 (List.ne_nil_of_mem hn) hgid

/-! ### Forming a set -/

/-- The threads of a list all pass their register checks, which change nothing. -/
theorem sieve_ok {s : State} {k : Nat} {f : State → View → Lane (State × Nat)} {val : Nat → Nat} {ns : List Nat}
    (h : ∀ n ∈ ns, ∃ c, s.view { team := k, n } = some c ∧ f s c = .ok (s, val n)) :
    s.sieve k ns f = (s, { ok := ns.map fun n => (n, val n) }) := by
  suffices key : ∀ (ns : List Nat) (acc : List (Nat × Nat)),
      (∀ n ∈ ns, ∃ c, s.view { team := k, n } = some c ∧ f s c = .ok (s, val n)) →
      ns.foldl (fun (acc : State × Sieved) n =>
        match acc.1.view { team := k, n } with
        | none => acc
        | some c =>
          match f acc.1 c with
          | .ok (s, v) => (s, { acc.2 with ok := acc.2.ok ++ [(n, v)] })
          | .error (.fault t) => (acc.1, { acc.2 with bad := acc.2.bad ++ [(n, t)] })
          | .error (.park w) => (acc.1.modThread c.id fun th => { th with wait := w }, acc.2)) (s, { ok := acc }) =
        (s, { ok := acc ++ ns.map fun n => (n, val n) }) from key ns [] h
  intro ns
  induction ns with
  | nil => simp
  | cons n ns ih =>
    intro acc h
    obtain ⟨c, hview, hf⟩ := h n List.mem_cons_self
    rw [List.foldl_cons]
    simp only [hview, hf]
    rw [ih _ fun m hm => h m (List.mem_cons_of_mem n hm)]
    simp

theorem deliverEach_none (s : State) (k : Nat) (ns : List Nat) (next : Nat) : s.deliverEach k ns [] next = s :=
  foldl_unchanged ns fun _ _ => rfl

/-- Every thread of the list takes the one fault. -/
theorem deliverEach_all (s : State) (k : Nat) (x : Trap) (next : Nat) (ns : List Nat) :
    s.deliverEach k ns (ns.map fun m => (m, x)) next = s.deliverAll k ns x next := by
  have hfind : ∀ n ∈ ns, ((ns.map fun m => (m, x)).find? fun p => p.1 == n) = some (n, x) := by
    intro n hn
    induction ns with
    | nil => cases hn
    | cons m ns ih =>
      rw [List.map_cons, List.find?_cons]
      by_cases hm : m = n
      · subst hm
        simp
      · rw [show (((m, x) : Nat × Trap).1 == n) = false by simpa using hm]
        exact ih (List.mem_of_ne_of_mem (Ne.symm hm) hn)
  unfold State.deliverEach State.deliverAll
  exact List.foldl_ext _ _ s fun s' n hn => by rw [hfind n hn]

/-- The value that a thread of the group reads. -/
def valueOf (k : Nat) (t : Team) (g : View → Nat) (n : Nat) : Nat := ((Tab.find n t.threads).map fun th => g (viewOf k t n th)).getD 0

theorem filterMap_valueOf {k : Nat} {t : Team} (g : View → Nat) {ns : List Nat}
    (h : ∀ n ∈ ns, ∃ th, Tab.find n t.threads = some th) :
    (ns.filterMap fun n => (Tab.find n t.threads).map fun th => g (viewOf k t n th)) = ns.map (valueOf k t g) := by
  induction ns with
  | nil => rfl
  | cons n ns ih =>
    obtain ⟨th, hth⟩ := h n List.mem_cons_self
    rw [List.filterMap_cons, hth, List.map_cons, ih fun m hm => h m (List.mem_cons_of_mem n hm)]
    simp [valueOf, hth]

/-- A set without waiters is formed (R310, R316). -/
theorem jform_forms {s : State} {ig : IssueGroup} {t : Team} {n j mask next : Nat} {v : Sieved} {val : Nat → Nat}
    (hteam : s.team? ig.team = some t) (hhead : ig.threads.head? = some n)
    (hv : v = { ok := ig.threads.map fun n => (n, val n) }) (harr : (t.jset n j).arr = 0) :
    s.jform ig.team j mask next ig.threads v = (s.modTeam ig.team fun u =>
      u.setJ n j { mem := mask % 2 ^ t.width &&& t.liveMask (t.gid n), arr := 0 }).goOn ig.team ig.threads next := by
  obtain ⟨rest, hts⟩ : ∃ rest, ig.threads = n :: rest := List.head?_eq_some_iff.1 hhead
  have hready : (ig.threads.map fun n => (n, val n)).map (·.1) = ig.threads := by
    rw [List.map_map]
    exact List.map_id _
  subst hv
  unfold State.jform
  simp only [hready, deliverEach_none]
  rw [hts]
  simp only [List.map_cons, hteam, harr, ne_eq, not_true_eq_false, if_false]

/-- On a set with waiters every thread faults (R310). -/
theorem jform_busy {s : State} {ig : IssueGroup} {t : Team} {n j mask next : Nat} {v : Sieved} {val : Nat → Nat}
    (hteam : s.team? ig.team = some t) (hgid : ∀ m ∈ ig.threads, t.gid m = t.gid n)
    (hv : v = { ok := ig.threads.map fun n => (n, val n) }) (harr : (t.jset n j).arr ≠ 0) :
    s.jform ig.team j mask next ig.threads v =
      s.deliverAll ig.team ig.threads { code := Code.rejoinBusy, info := j } next := by
  subst hv
  have hready : (ig.threads.map fun n => (n, val n)).map (·.1) = ig.threads := by
    rw [List.map_map]
    exact List.map_id _
  unfold State.jform
  simp only [hready, deliverEach_none, List.nil_append, deliverEach_all]
  cases hts : ig.threads with
  | nil => rfl
  | cons m rest =>
    have hbusy : (t.jset m j).arr ≠ 0 := by
      rw [jset_congr (hgid m (by simp [hts]))]
      exact harr
    simp only [List.map_cons, hteam, if_pos hbusy]

/-- The register checks of `jinit` and `jrest`. -/
def readsMask (o : XOp) (x : XForm) (w : Nat) (s : State) (c : View) : Lane (State × Nat) := do
  let r ← c.operands o x w 0 0
  let s ← s.claimRegs c r.srcs []
  return (s, c.th.vs r.a 1)

theorem sieve_readsMask {o : XOp} {x : XForm} {w : Nat} {s : State} {ig : IssueGroup} {t : Team} (hf : Formed s ig t)
    (hu : Each ig t (Usable o x w 0 0 [] s)) : s.sieve ig.team ig.threads (readsMask o x w) =
      (s, { ok := ig.threads.map fun n => (n, valueOf ig.team t (fun c => c.th.vs (regsOf c o x w 0 0).a 1) n) }) := by
  refine sieve_ok fun n hn => ?_
  obtain ⟨th, hth⟩ := hf.2.2.2 n hn
  have hu := hu n hn th hth
  have hclaim : s.claimRegs (viewOf ig.team t n th) (regsOf (viewOf ig.team t n th) o x w 0 0).srcs [] = .ok s :=
    claimRegs_usable (agrees_first hf hth) hu
  refine ⟨_, view_eq s { team := ig.team, n } t th hf.2.1 hth, ?_⟩
  have hval : valueOf ig.team t (fun c => c.th.vs (regsOf c o x w 0 0).a 1) n =
      th.vs (regsOf (viewOf ig.team t n th) o x w 0 0).a 1 := by rw [valueOf, hth]; rfl
  rw [hval]
  simp only [readsMask]
  show (do
    let r ← (viewOf ig.team t n th).operands o x w 0 0
    let s ← s.claimRegs (viewOf ig.team t n th) r.srcs []
    return (s, (viewOf ig.team t n th).th.vs r.a 1) : Lane (State × Nat)) = _
  simp only [operands_of_usable hu, hclaim, bind, Except.bind]
  rfl

/-- An instruction that forms a set from the masks of its threads. -/
def formsSet (o : XOp) (x : XForm) (w : Nat) (mask : List (Nat × Nat) → Nat) (s : State) : Host.Outcome State Fault Refusal :=
  execHalves x.words (fun next s k ns =>
    let (s, v) := s.sieve k ns (readsMask o x w)
    s.jform k x.d.toNat (mask v.ok) next ns v) s

section
variable {o : XOp} {x : XForm} {w : Nat} {i : Instr} {mask : List (Nat × Nat) → Nat}
  (hexec : ∀ s, exec i s = formsSet o x w mask s)
include hexec

theorem forms_set {mask' : List Nat → Nat} (hmask : ∀ (ns : List Nat) (f : Nat → Nat),
      mask (ns.map fun n => (n, f n)) = mask' (ns.map f)) {s : State} {ig : IssueGroup} {t : Team} {n : Nat}
    (hf : Formed s ig t) (hhead : ig.threads.head? = some n) (hone : OneGroup ig t n) (hj : x.d.toNat < 16)
    (harr : (t.jset n x.d.toNat).arr = 0) (hu : Each ig t (Usable o x w 0 0 [] s)) :
    ∃ s' t', exec i s = .next s' ∧
      SetBecame s s' ig.team t t' n x.d.toNat
        { mem := mask' (ig.threads.filterMap fun m => (Tab.find m t.threads).map fun th =>
            let c := viewOf ig.team t m th
            c.th.vs (regsOf c o x w 0 0).a 1) % 2 ^ t.width &&& t.liveMask (t.gid n), arr := 0 } ∧
      ThreadsOf t t' ig.threads fun _ th => Thread.at th (nextPc ig x.words) := by
  let v : JSet :=
    { mem := mask' (ig.threads.map (valueOf ig.team t fun c => c.th.vs (regsOf c o x w 0 0).a 1)) % 2 ^ t.width &&&
        t.liveMask (t.gid n), arr := 0 }
  have hrun : exec i s = .next ((s.modTeam ig.team fun u => u.setJ n x.d.toNat v).goOn ig.team ig.threads
      (nextPc ig x.words)) := by
    rw [hexec, formsSet, OneGroup.exec hf hone]
    simp only [sieve_readsMask hf hu]
    rw [jform_forms hf.2.1 hhead rfl harr, hmask]
  have hacts := (acts_modTeam s ig.team fun u => u.setJ n x.d.toNat v).trans
    (acts_goOn (s.modTeam ig.team fun u => u.setJ n x.d.toNat v) ig.team ig.threads (nextPc ig x.words))
  refine ⟨_, _, hrun, ?_, threadsOf_sweep _ hf.2.2.1 (t.setJ n x.d.toNat v)⟩
  have hvals := filterMap_valueOf (k := ig.team) (fun c => c.th.vs (regsOf c o x w 0 0).a 1) hf.2.2.2
  simp only [hvals]
  exact SetOf.becomes hf.2.1 hacts ((setOf_setJ v hone.2.2 hj).sweep _ _)

theorem forms_busy (n : Nat) :
    Faults i (fun s t c => Usable o x w 0 0 [] s c ∧ t.gid c.id.n = t.gid n ∧ (t.jset n x.d.toNat).arr ≠ 0)
      fun _ => { code := 0x10, info := x.d.toNat } := by
  intro s ig t hf hcan hbad
  rw [hexec, formsSet]
  by_cases hne : ig.threads = []
  · refine ⟨s, by simp [execHalves, hf.1, hf.2.1, hne, groupsOf], ?_⟩
    exact ⟨by simp [hne], fun _ _ => rfl, fun _ => rfl, rfl⟩
  · obtain ⟨m, hm⟩ := List.exists_mem_of_ne_nil _ hne
    obtain ⟨th, hth⟩ := hf.2.2.2 m hm
    have hgid : ∀ m ∈ ig.threads, t.gid m = t.gid n := fun m hm => by
      obtain ⟨th, hth⟩ := hf.2.2.2 m hm
      exact (hbad m hm th hth).2.1
    rw [execHalves_single hf.1 hf.2.1 hne hgid]
    simp only [sieve_readsMask hf fun m hm th hth => (hbad m hm th hth).1]
    rw [jform_busy hf.2.1 hgid rfl (hbad m hm th hth).2.2]
    exact ⟨_, rfl, deliverAll_enters hf hcan ⟨show (0x10 : Nat) ≠ 0x17 by decide, show (0x10 : Nat) ≠ 0x18 by decide⟩ _⟩

end

theorem rejoinSetsFormed : RejoinSetsFormed := by
  have hor : ∀ (ns : List Nat) (f : Nat → Nat) (a : Nat),
      (ns.map fun n => (n, f n)).foldl (fun m p => m ||| p.2) a = (ns.map f).foldl (· ||| ·) a := by
    intro ns f
    induction ns with
    | nil => exact fun _ => rfl
    | cons n ns ih => exact fun a => ih _
  have hinit : ∀ x s, exec (.jinit x) s = formsSet .jinit x 1 (fun ok => ok.foldl (fun m p => m ||| p.2) 0) s := fun _ _ => rfl
  have hrest : ∀ x s, exec (.jrest x) s = formsSet .jrest x 2 (fun ok => (ok.head?.map (·.2)).getD 0) s := fun _ _ => rfl
  refine ⟨fun x => ⟨fun s ig t n => forms_set (hinit x) (fun ns f => hor ns f 0), forms_busy (hinit x)⟩,
    fun x => ⟨fun s ig t n => forms_set (hrest x) (mask' := fun vs => vs.headD 0) fun ns f => ?_, forms_busy (hrest x)⟩⟩
  cases ns <;> rfl

/-! ### Joining a set -/

theorem foldl_or_lanes (ls : List Nat) (a : Nat) : ls.foldl (fun m l => m ||| 2 ^ l) a = a ||| Bits.maskOf ls := by
  have key : ∀ (ls : List Nat) (a b : Nat),
      ls.foldl (fun m l => m ||| 2 ^ l) (a ||| b) = a ||| ls.foldl (fun m l => m ||| 2 ^ l) b := by
    intro ls
    induction ls with
    | nil => exact fun _ _ => rfl
    | cons l ls ih =>
      intro a b
      rw [List.foldl_cons, List.foldl_cons, Nat.or_assoc, ih]
  have h := key ls a 0
  rwa [Nat.or_zero] at h

theorem rejoinEnter : RejoinEnter := by
  intro x s ig t n hf hone hj
  obtain ⟨hn, hgid, hg⟩ := id hone
  let join : Nat → Team → Team := fun m u => u.setJ m x.a.toNat { u.jset m x.a.toNat with mem := (u.jset m x.a.toNat).mem ||| 2 ^ u.lane m }
  have hjoin : ∀ (ns : List Nat) (u : Team) (v : JSet), (∀ m ∈ ns, t.gid m = t.gid n) → SetOf t u n x.a.toNat v →
      SetOf t (ns.foldl (fun u m => join m u) u) n x.a.toNat
        { mem := (ns.map t.lane).foldl (fun a l => a ||| 2 ^ l) v.mem, arr := v.arr } := by
    intro ns
    induction ns with
    | nil => exact fun u v _ h => h
    | cons m ns ih =>
      intro u v hns h
      have hm := hns m List.mem_cons_self
      have hset : u.jset m x.a.toNat = v := by
        rw [h.1 m x.a.toNat hj, if_pos ⟨hm, rfl⟩]
      have hlane : u.lane m = t.lane m := (congrArg (Team.lane · m) h.2.2 :)
      rw [List.foldl_cons, List.map_cons, List.foldl_cons]
      refine ih (join m u) { mem := v.mem ||| 2 ^ t.lane m, arr := v.arr } (fun a ha => hns a (List.mem_cons_of_mem m ha)) ?_
      simp only [join, hset, hlane]
      exact h.setJ hm _ hg hj
  have hset : SetOf t (ig.threads.foldl (fun u m => join m u) t) n x.a.toNat
      { mem := (t.jset n x.a.toNat).mem ||| laneMask ig t, arr := (t.jset n x.a.toNat).arr } := by
    have hfold := hjoin ig.threads t (t.jset n x.a.toNat) hgid ⟨fun m i _ => ?_, fun _ => rfl, rfl⟩
    · rwa [foldl_or_lanes] at hfold
    · split
      next h => rw [h.2, jset_congr h.1]
      next => rfl
  have hacts := (acts_foldl ig.team (f := fun s m => s.modTeam ig.team (join m)) (F := join)
    (fun s m => acts_modTeam s ig.team (join m)) ig.threads s).trans (acts_goOn _ ig.team ig.threads (nextPc ig x.words))
  have hrun : exec (.jenter x) s = .next ((ig.threads.foldl (fun s m => s.modTeam ig.team (join m)) s).goOn ig.team ig.threads
      (nextPc ig x.words)) := OneGroup.exec (words := x.words)
    (f := fun next s team ns => (ns.foldl (fun (s : State) m => s.modTeam team (join m)) s).goOn team ns next) hf hone
  refine ⟨_, _, hrun, SetOf.becomes hf.2.1 hacts (hset.sweep _ _), ?_⟩
  obtain ⟨hin, hout⟩ := threadsOf_sweep (fun _ th => Thread.at th (nextPc ig x.words)) hf.2.2.1
    (ig.threads.foldl (fun u m => join m u) t)
  have hthreads : (ig.threads.foldl (fun u m => join m u) t).threads = t.threads := by
    have key : ∀ (ns : List Nat) (u : Team), (ns.foldl (fun u m => join m u) u).threads = u.threads := by
      intro ns
      induction ns with
      | nil => exact fun _ => rfl
      | cons m ns ih => exact fun u => ih (join m u)
    exact key ig.threads t
  rw [hthreads] at hin hout
  exact ⟨hin, hout⟩

/-! ### Reading a set -/

theorem jset_agrees {s s1 : State} {c c1 : View} (h : Agrees s c s1 c1) (j : Nat) :
    c1.team.jset c1.id.n j = c.team.jset c.id.n j := by
  rw [h.id]
  exact (congrArg (Team.jset · c.id.n j) h.team :)

theorem rejoinSetsRead : RejoinSetsRead := by
  constructor
  · refine fun x => completes_of_lane (.jread x) x.words _ _ _ rfl fun s c s1 c1 h ⟨hd, hu⟩ => ?_
    simp only [(dests_agrees h _).trans hd, ControlFlow.claimRegs_none h hu, bind, Except.bind]
    refine ⟨_, rfl, ?_⟩
    simp only [jset_agrees h, h.th, beq_iff_eq]
  · refine fun x => completes_of_lane (.jsave x) x.words _ _ _ rfl fun s c s1 c1 h ⟨hd, hu⟩ => ?_
    simp only [(dests_agrees h _).trans hd, ControlFlow.claimRegs_none h hu, bind, Except.bind]
    refine ⟨_, rfl, ?_⟩
    simp only [jset_agrees h, h.th]

/-- Settles O17: the threads of one group act once, on the set that all of them name. -/
theorem rejoinMasks : Obligations.RejoinMasks := ⟨rejoinSetsFormed, rejoinEnter, rejoinSetsRead⟩

end Sys2Proof.Proofs.Rejoin

/-! Releases of rejoin sets (R312, R313, R320): masks without the lanes that leave, the threads that a release lets go on, the
group whose threads all wait, and from these the statement. -/

namespace Sys2Proof.Proofs.OneTeam

open Sys2Proof Sys2Proof.Machine Sys2Proof.Claims Sys2Proof.Proofs.Sweeps

/-- A sweep of one team's threads leaves the other teams alone. -/
theorem foldl_onlyTeam (F : State → Nat → State) (k : Nat) (eff : Nat → Thread → Thread) (ts : List Nat) :
    ∀ s, ts.Nodup → (∀ s1 n, n ∈ ts → SameBut s s1 → s1.thread? { team := k, n } = s.thread? { team := k, n } →
      F s1 n = s1.modThread { team := k, n } (eff n)) → OnlyTeam s (ts.foldl F s) k := by
  induction ts with
  | nil => exact fun s _ _ => ⟨fun _ _ => rfl, rfl⟩
  | cons m ts ih =>
    intro s hnodup hstep
    obtain ⟨hm, hnodup⟩ := List.nodup_cons.1 hnodup
    have hfirst := hstep s m List.mem_cons_self (SameBut.same s) rfl
    have hsame : SameBut s (F s m) := hfirst ▸ (SameBut.same s).modThread _ _
    obtain ⟨hteams, hrest⟩ := ih (F s m) hnodup fun s1 n hn hs1 ht => hstep s1 n (List.mem_cons_of_mem m hn)
      (sameBut_trans hsame hs1) (ht.trans (by
        rw [hfirst, thread?_modThread_other _ (by simpa using fun e : n = m => hm (e ▸ hn))]))
    have hone := (acts_modTeam s k fun t => t.modThread m (eff m)).1
    rw [show s.modTeam k (fun t => t.modThread m (eff m)) = F s m from hfirst.symm] at hone
    exact ⟨fun j hj => (hteams j hj).trans (hone.1 j hj), (congrArg (fun u : State => { u with teams := s.teams }) hrest).trans hone.2⟩

/-- Team `k` has become what `F` makes of it, and nothing else has changed but the counter of names. -/
def ActsNaming (s s' : State) (k : Nat) (F : Team → Team) : Prop :=
  (∀ j, j ≠ k → s'.team? j = s.team? j) ∧ { s' with teams := s.teams, nextTag := s.nextTag } = s ∧
    s'.team? k = (s.team? k).map F

theorem Acts.naming {s s' : State} {k : Nat} {F : Team → Team} (h : Acts s s' k F) : ActsNaming s s' k F :=
  ⟨h.1.1, (congrArg (fun u : State => { u with nextTag := s.nextTag }) h.1.2 :), h.2⟩

theorem ActsNaming.trans {s s' s'' : State} {k : Nat} {F G : Team → Team} (h : ActsNaming s s' k F)
    (h' : ActsNaming s' s'' k G) : ActsNaming s s'' k (G ∘ F) := by
  obtain ⟨hothers, hrest, hteam⟩ := h
  obtain ⟨hothers', hrest', hteam'⟩ := h'
  exact ⟨fun j hj => (hothers' j hj).trans (hothers j hj),
    (congrArg (fun u : State => { u with teams := s.teams, nextTag := s.nextTag }) hrest' :).trans hrest,
    by rw [hteam', hteam, Option.map_map]⟩

end Sys2Proof.Proofs.OneTeam

namespace Sys2Proof.Proofs.Rejoin

open Sys2Proof Sys2Proof.Machine Sys2Proof.Claims Sys2Proof.Proofs.Lanes Sys2Proof.Proofs.Sweeps Sys2Proof.Proofs.Issue
  Sys2Proof.Proofs.OneTeam

/-! ### Masks -/

theorem testBit_without (m b i : Nat) : (without m b).testBit i = (m.testBit i && !b.testBit i) := by
  unfold without
  induction i generalizing m b with
  | zero =>
    have hle : m &&& b ≤ m := Nat.and_le_left
    have hmod : (m &&& b) % 2 = 1 ↔ m % 2 = 1 ∧ b % 2 = 1 := Nat.and_mod_two_eq_one
    simp only [Nat.testBit_zero]
    by_cases hm : m % 2 = 1 <;> by_cases hb : b % 2 = 1 <;> simp [hm, hb] <;> omega
  | succ i ih =>
    have hle : m &&& b ≤ m := Nat.and_le_left
    have hmod : (m &&& b) % 2 = 1 → m % 2 = 1 := fun h => (Nat.and_mod_two_eq_one.1 h).1
    have hdiv : (m - (m &&& b)) / 2 = m / 2 - (m / 2 &&& b / 2) := by
      rw [← Nat.and_div_two]
      omega
    rw [Nat.testBit_succ, hdiv, ih, Nat.testBit_succ, Nat.testBit_succ]

theorem without_without (m a b : Nat) : without (without m a) b = without m (a ||| b) :=
  Nat.eq_of_testBit_eq fun i => by
    simp only [testBit_without, Nat.testBit_or]
    cases m.testBit i <;> simp

theorem bit_without (m b i : Nat) : Bits.bit (without m b) i = (Bits.bit m i && !Bits.bit b i) := by
  simp only [Bits.bit_eq_testBit, testBit_without]

theorem bit_or (a b i : Nat) : Bits.bit (a ||| b) i = (Bits.bit a i || Bits.bit b i) := by
  simp only [Bits.bit_eq_testBit, Nat.testBit_or]

theorem bit_laneMask {ig : IssueGroup} {t : Team} {m : Nat} (h : m ∈ ig.threads) : Bits.bit (laneMask ig t) (t.lane m) = true := by
  rw [laneMask, Bits.bit_maskOf, decide_eq_true_eq]
  exact List.mem_map_of_mem h

theorem ne_zero_of_bit {a i : Nat} (h : Bits.bit a i = true) : a ≠ 0 := by
  rintro rfl
  simp [Bits.bit_eq_testBit] at h

/-! ### Release and orphans -/

/-- What the release of a set makes of its team: the arrived threads go on (R314). -/
def released (n j : Nat) (js : JSet) (tag : Nat) (t : Team) : Team :=
  Team.sweep (fun _ th => th.rejoined tag) ((t.groupThreads (t.gid n)).filter fun m => Bits.bit js.arr (t.lane m))
    (t.setJ n j { js with arr := 0 })

theorem foldl_rejoined {t u : Team} (arr tag : Nat) (ns : List Nat) (h : ∀ m, u.lane m = t.lane m) :
    ns.foldl (fun t m => if Bits.bit arr (t.lane m) then t.modThread m fun th => th.rejoined tag else t) u =
      Team.sweep (fun _ th => th.rejoined tag) (ns.filter fun m => Bits.bit arr (t.lane m)) u := by
  induction ns generalizing u with
  | nil => rfl
  | cons m ns ih =>
    rw [List.foldl_cons, h]
    by_cases hb : Bits.bit arr (t.lane m) = true
    · rw [if_pos hb, List.filter_cons_of_pos (by simpa using hb)]
      exact ih (u := u.modThread m fun th => th.rejoined tag) h
    · rw [if_neg hb, List.filter_cons_of_neg (by simpa using hb), ih h]

/-- A set that is not complete releases nothing. -/
theorem rejoinRelease_none {s : State} {k n j : Nat} {t : Team} (hteam : s.team? k = some t)
    (h : ¬((t.jset n j).arr ≠ 0 ∧ (t.jset n j).arr = (t.jset n j).mem)) : s.rejoinRelease k n j = s := by
  simp only [State.rejoinRelease, hteam, if_neg h]

theorem acts_rejoinRelease {s : State} {k n j : Nat} {t : Team} (hteam : s.team? k = some t)
    (h : (t.jset n j).arr ≠ 0 ∧ (t.jset n j).arr = (t.jset n j).mem) :
    ActsNaming s (s.rejoinRelease k n j) k fun _ => released n j (t.jset n j) s.nextTag t := by
  have hfold := foldl_rejoined (t := t) (u := t.setJ n j { t.jset n j with arr := 0 }) (t.jset n j).arr s.nextTag
    (t.groupThreads (t.gid n)) fun _ => rfl
  have heq : s.rejoinRelease k n j = ({ s with nextTag := s.nextTag + 1 } : State).modTeam k fun t0 =>
      let t1 := t0.setJ n j { t.jset n j with arr := 0 }
      (t1.groupThreads (t1.gid n)).foldl (fun t1 m =>
        if Bits.bit (t.jset n j).arr (t1.lane m) then t1.modThread m fun th => th.rejoined s.nextTag else t1) t1 := by
    simp only [State.rejoinRelease, hteam, if_pos h, State.fresh]
  rw [heq]
  refine ⟨fun i hi => by rw [team?_modTeam, if_neg hi]; rfl, rfl, ?_⟩
  rw [team?_modTeam, if_pos rfl]
  show (s.team? k).map _ = (s.team? k).map _
  rw [hteam, Option.map_some, Option.map_some]
  exact congrArg some hfold

theorem nodup_arrived (t : Team) (n arr : Nat) :
    ((t.groupThreads (t.gid n)).filter fun m => Bits.bit arr (t.lane m)).Nodup := (nodup_groupThreads t _).filter _

/-- The threads after a release: those that had arrived go on, the others are as they were. -/
theorem find_released (n j : Nat) (js : JSet) (tag : Nat) (t : Team) (m : Nat) :
    Tab.find m (released n j js tag t).threads =
      if t.gid m = t.gid n ∧ Bits.bit js.arr (t.lane m) = true then (Tab.find m t.threads).map fun th => th.rejoined tag
      else Tab.find m t.threads := by
  refine (find_sweep _ (nodup_arrived t n js.arr) _ m).trans ?_
  simp only [List.mem_filter, mem_groupThreads]
  rfl

theorem mem_liveThreads {t : Team} {m g : Nat} : m ∈ t.liveThreads g ↔ t.gid m = g ∧ t.liveAt m = true := by
  rw [Team.liveThreads, List.mem_filter, mem_groupThreads]

/-- A group with a live thread outside every `jwait` is no orphan. -/
theorem orphanCheck_none {s : State} {k n m : Nat} {t : Team} {th : Thread} (hteam : s.team? k = some t)
    (hgid : t.gid m = t.gid n) (hth : Tab.find m t.threads = some th) (hlive : th.live = true)
    (hset : th.rejoinSet = none) : s.orphanCheck k n = s := by
  have hmem : m ∈ t.liveThreads (t.gid n) := mem_liveThreads.2 ⟨hgid, by simp [Team.liveAt, hth, hlive]⟩
  have hany : ((t.liveThreads (t.gid n)).map fun m => (m, (Tab.find m t.threads).bind Thread.rejoinSet)).any
      (fun p => p.2.isNone) = true := by
    refine List.any_eq_true.2 ⟨_, List.mem_map_of_mem hmem, ?_⟩
    simp [hth, hset]
  simp only [State.orphanCheck, hteam, hany, Bool.or_true, if_true]

/-! ### `jquit` -/

/-- Lanes that leave a set are in neither mask afterwards (R312). -/
theorem setOf_leaveSet {t : Team} {n j : Nat} {ns : List Nat} (hgid : ∀ m ∈ ns, t.gid m = t.gid n)
    (hg : Tab.has t.groups (t.hw n) = true) (hj : j < 16) :
    SetOf t (t.leaveSet j ns) n j { mem := without (t.jset n j).mem (Bits.maskOf (ns.map t.lane))
                                    arr := without (t.jset n j).arr (Bits.maskOf (ns.map t.lane)) } := by
  have key : ∀ (ns : List Nat) (u : Team) (mem arr mask : Nat), (∀ m ∈ ns, t.gid m = t.gid n) →
      SetOf t u n j { mem := without mem mask, arr := without arr mask } →
      SetOf t (u.leaveSet j ns) n j
        { mem := without mem ((ns.map t.lane).foldl (fun a l => a ||| 2 ^ l) mask)
          arr := without arr ((ns.map t.lane).foldl (fun a l => a ||| 2 ^ l) mask) } := by
    intro ns
    induction ns with
    | nil => exact fun _ _ _ _ _ h => h
    | cons m ns ih =>
      intro u mem arr mask hns h
      have hm := hns m List.mem_cons_self
      have hset : u.jset m j = { mem := without mem mask, arr := without arr mask } := by
        rw [h.1 m j hj, if_pos ⟨hm, rfl⟩]
      have hlane : u.lane m = t.lane m := (congrArg (Team.lane · m) h.2.2 :)
      rw [List.map_cons, List.foldl_cons]
      refine ih _ mem arr (mask ||| 2 ^ t.lane m) (fun a ha => hns a (List.mem_cons_of_mem m ha)) ?_
      simp only [hset, hlane]
      rw [← without_without, ← without_without]
      exact h.setJ hm _ hg hj
  have hzero : ∀ a : Nat, without a 0 = a := fun a => by simp [without]
  refine key ns t (t.jset n j).mem (t.jset n j).arr 0 hgid ⟨fun m i _ => ?_, fun _ => rfl, rfl⟩
  rw [hzero, hzero]
  split
  next h => rw [h.2, jset_congr h.1]
  next => rfl

theorem leaveSet_threads (t : Team) (j : Nat) (ns : List Nat) : (t.leaveSet j ns).threads = t.threads := by
  induction ns generalizing t with
  | nil => rfl
  | cons m ns ih => exact ih _

/-- A release of a set of the group, whatever else has become of the team. -/
theorem setOf_released {t u : Team} {n m j : Nat} {v : JSet} (h : SetOf t u n j v) (hm : t.gid m = t.gid n) (tag : Nat)
    (hg : Tab.has t.groups (t.hw n) = true) (hj : j < 16) :
    SetOf t (released m j v tag u) n j { v with arr := 0 } := (h.setJ hm _ hg hj).sweep _ _

theorem SetOf.becomesNaming {s s' : State} {k n j : Nat} {t : Team} {v : JSet} {F : Team → Team} (ht : s.team? k = some t)
    (h : ActsNaming s s' k F) (hset : SetOf t (F t) n j v) : SetBecame s s' k t (F t) n j v := by
  obtain ⟨hothers, hrest, hteam⟩ := h
  obtain ⟨hsets, hgroups, hbody⟩ := hset
  exact ⟨by rw [hteam, ht, Option.map_some], hothers, hrest, hsets, hgroups, hbody⟩

theorem rejoinQuit : RejoinQuit := by
  intro x s ig t n hf hone hj hrun js mem arr go
  obtain ⟨hn, hgid, hg⟩ := id hone
  obtain ⟨a, rest, hts⟩ := List.exists_cons_of_ne_nil (List.ne_nil_of_mem hn)
  have ha : a ∈ ig.threads := by simp [hts]
  obtain ⟨tha, htha⟩ := hf.2.2.2 a ha
  obtain ⟨hlive, hready⟩ : tha.live = true ∧ tha.wait = .ready := hrun a ha tha htha
  let j := x.a.toNat
  let next := nextPc ig x.words
  let left : Team → Team := fun u => Team.sweep (fun _ th => Thread.at th next) ig.threads (u.leaveSet j ig.threads)
  let s1 := (s.modTeam ig.team fun u => u.leaveSet j ig.threads).goOn ig.team ig.threads next
  have hexec : exec (.jquit x) s = .next ((s1.rejoinRelease ig.team a j).orphanCheck ig.team a) := by
    refine (OneGroup.exec (words := x.words) (f := fun next (s : State) team ns =>
      match ns with
      | [] => s
      | n :: _ => (((s.modTeam team fun t => t.leaveSet j ns).goOn team ns next).rejoinRelease team n j).orphanCheck team n)
      hf hone).trans ?_
    simp only [hts, s1, next]
  have hleft : Acts s s1 ig.team left := (acts_modTeam s ig.team _).trans (acts_goOn _ ig.team ig.threads next)
  have hset : SetOf t (left t) n j { mem, arr } := (setOf_leaveSet hgid hg hj).sweep _ _
  have hthreads : ∀ m, Tab.find m (left t).threads =
      if m ∈ ig.threads then (Tab.find m t.threads).map fun th => Thread.at th next else Tab.find m t.threads := by
    intro m
    refine (find_sweep (fun _ th => Thread.at th next) hf.2.2.1 (t.leaveSet j ig.threads) m).trans ?_
    rw [leaveSet_threads]
  have hteam1 : s1.team? ig.team = some (left t) := hleft.team hf.2.1
  have hjset : (left t).jset a j = { mem, arr } := by rw [hset.1 a j hj, if_pos ⟨hgid a ha, rfl⟩]
  have hbit : ∀ m ∈ ig.threads, Bits.bit arr (t.lane m) = false := fun m hm => by
    rw [show Bits.bit arr (t.lane m) = _ from bit_without _ _ _, bit_laneMask hm, Bool.not_true, Bool.and_false]
  have hgo : go = true ↔ arr ≠ 0 ∧ arr = mem := by simp [go]
  have hgid' : ∀ m, (left t).gid m = t.gid m := fun m => (congrArg (Team.gid · m) hset.2.2 :)
  have hlane' : ∀ m, (left t).lane m = t.lane m := fun m => (congrArg (Team.lane · m) hset.2.2 :)
  by_cases hcomplete : arr ≠ 0 ∧ arr = mem
  · have hrel := acts_rejoinRelease (j := j) hteam1 (by rw [hjset]; exact hcomplete)
    rw [hjset] at hrel
    let t2 := released a j { mem, arr } s1.nextTag (left t)
    have hteam2 : (s1.rejoinRelease ig.team a j).team? ig.team = some t2 := by rw [hrel.2.2, hteam1, Option.map_some]
    have hfind : ∀ m, Tab.find m t2.threads = if t.gid m = t.gid n ∧ Bits.bit arr (t.lane m) = true
        then (Tab.find m (left t).threads).map fun th => th.rejoined s1.nextTag else Tab.find m (left t).threads := by
      intro m
      rw [find_released, hgid', hgid', hlane', hgid a ha]
    have hselfa : Tab.find a t2.threads = some (Thread.at tha next) := by
      rw [hfind, if_neg fun h => by simp [hbit a ha] at h, hthreads, if_pos ha, htha, Option.map_some]
    have horphan : (s1.rejoinRelease ig.team a j).orphanCheck ig.team a = s1.rejoinRelease ig.team a j :=
      orphanCheck_none hteam2 rfl hselfa hlive (by simp [Thread.rejoinSet, Thread.at, hready])
    refine ⟨_, t2, horphan ▸ hexec, ?_, fun m hm => ?_, fun m th hm hth => ⟨fun hno => ?_, fun k nx _ hmg hmb hw => ?_⟩⟩
    · have := SetOf.becomesNaming hf.2.1 (hleft.naming.trans hrel) (setOf_released hset (hgid a ha) s1.nextTag hg hj)
      rw [if_pos (hgo.2 hcomplete)]
      exact this
    · rw [hfind, if_neg fun h => by simp [hbit m hm] at h, hthreads, if_pos hm]
    · have hcond : ¬(t.gid m = t.gid n ∧ Bits.bit arr (t.lane m) = true) := by
        rintro ⟨h1, h2⟩
        rcases hno with h | h | h
        · rw [hgo.2 hcomplete] at h
          cases h
        · exact h h1
        · rw [h2] at h
          cases h
      rw [hfind, if_neg hcond, hthreads, if_neg hm, hth]
    · refine ⟨th.rejoined s1.nextTag, ?_, ?_⟩
      · rw [hfind, if_pos ⟨hmg, hmb⟩, hthreads, if_neg hm, hth, Option.map_some]
      · rw [Thread.rejoined, hw]
        exact ⟨rfl, rfl, rfl, rfl, rfl⟩
  · have hrel : s1.rejoinRelease ig.team a j = s1 := rejoinRelease_none hteam1 (by rw [hjset]; exact hcomplete)
    have hselfa : Tab.find a (left t).threads = some (Thread.at tha next) := by
      rw [hthreads, if_pos ha, htha, Option.map_some]
    have horphan : s1.orphanCheck ig.team a = s1 :=
      orphanCheck_none hteam1 rfl hselfa hlive (by simp [Thread.rejoinSet, Thread.at, hready])
    rw [hrel, horphan] at hexec
    have hno : go = false := Bool.eq_false_iff.2 fun h => hcomplete (hgo.1 h)
    refine ⟨s1, left t, hexec, ?_, fun m hm => by rw [hthreads, if_pos hm], fun m th hm hth =>
      ⟨fun _ => by rw [hthreads, if_neg hm, hth], fun _ _ h => by rw [hno] at h; cases h⟩⟩
    rw [hno]
    exact SetOf.becomes hf.2.1 hleft hset

/-! ### `jwait` -/

/-- A thread parked in `jwait`. -/
def waiting (j next : Nat) (th : Thread) : Thread := { th with wait := .rejoin j next }

/-- What the arrival of the threads `ns` at set `j` makes of their team. -/
def parked (t : Team) (a j next : Nat) (ns : List Nat) (u : Team) : Team :=
  Team.sweep (fun _ => waiting j next) ns
    (u.setJ a j { t.jset a j with arr := (t.jset a j).arr ||| Bits.maskOf (ns.map u.lane) })

section
variable {s : State} {ig : IssueGroup} {t : Team} {n j next : Nat}

/-- Members of a set with no access outstanding arrive (R313). -/
theorem jwait_arrives {a : Nat} {rest : List Nat} (hf : Formed s ig t) (hts : ig.threads = a :: rest)
    (hmem : ∀ m ∈ ig.threads, Bits.bit (t.jset a j).mem (t.lane m) = true)
    (hperf : ∀ m ∈ ig.threads, s.unperformed { team := ig.team, n := m } = false) :
    s.jwait ig.team j next ig.threads = ((s.modTeam ig.team (parked t a j next ig.threads)).rejoinRelease ig.team a j).orphanCheck
      ig.team a := by
  have hout : (ig.threads.filter fun m => !Bits.bit (t.jset a j).mem (t.lane m)) = [] :=
    List.filter_eq_nil_iff.2 fun m hm => by simp [hmem m hm]
  have hus : (ig.threads.filter fun m => Bits.bit (t.jset a j).mem (t.lane m)) = ig.threads :=
    List.filter_eq_self.2 hmem
  have hdone : (ig.threads.any fun m => s.unperformed { team := ig.team, n := m }) = false :=
    List.any_eq_false.2 fun m hm => by simp [hperf m hm]
  rw [hts] at hout hus hdone ⊢
  simp only [State.jwait, hf.2.1, hout, hus, State.deliverAll, List.foldl_nil, hdone, List.isEmpty_cons, Bool.false_eq_true,
    if_false]
  rfl

theorem unperformed_of {m : Nat} {th : Thread} (hteam : s.team? ig.team = some t) (hth : Tab.find m t.threads = some th) :
    s.unperformed { team := ig.team, n := m } = !th.peerOut.isEmpty := by
  rw [State.unperformed, thread?_of_find hteam hth]
  rfl

theorem find_parked {a : Nat} {ns : List Nat} (hnodup : ns.Nodup) (u : Team) (m : Nat) :
    Tab.find m (parked t a j next ns u).threads =
      if m ∈ ns then (Tab.find m u.threads).map (waiting j next) else Tab.find m u.threads :=
  find_sweep _ hnodup _ m

theorem setOf_parked {a : Nat} {ns : List Nat} (ha : t.gid a = t.gid n) (hg : Tab.has t.groups (t.hw n) = true) (hj : j < 16) :
    SetOf t (parked t a j next ns t) n j
      { mem := (t.jset n j).mem, arr := (t.jset n j).arr ||| Bits.maskOf (ns.map t.lane) } := by
  have hself : SetOf t t n j (t.jset n j) := ⟨fun m i _ => by
    split
    next h => rw [h.2, jset_congr h.1]
    next => rfl, fun _ => rfl, rfl⟩
  unfold parked
  rw [jset_congr ha]
  exact (hself.setJ ha _ hg hj).sweep _ _

end

/-- The two forms of `jwait`. -/
theorem jwait_forms {P : Instr → Nat → Nat → Prop}
    (h : ∀ i words j, (∀ s, exec i s = execHalves words (fun next s team ns => s.jwait team j next ns) s) → P i words j) :
    (∀ x, P (.jwait x) x.words x.a.toNat) ∧ ∀ j : BitVec 4, P (.jwaitBase j) 1 j.toNat :=
  ⟨fun _ => h _ _ _ fun _ => rfl, fun _ => h _ _ _ fun _ => rfl⟩

theorem rejoinWait : RejoinWait := by
  unfold RejoinWait
  intro waits
  refine jwait_forms (P := waits) ?_
  intro i words j hexec s ig t n hf hone hj hrun js arr hmem
  obtain ⟨hn, hgid, hg⟩ := id hone
  obtain ⟨a, rest, hts⟩ := List.exists_cons_of_ne_nil (List.ne_nil_of_mem hn)
  have ha : a ∈ ig.threads := by simp [hts]
  obtain ⟨tha, htha⟩ := hf.2.2.2 a ha
  obtain ⟨⟨hlive, hready⟩, -⟩ : (tha.live = true ∧ tha.wait = .ready) ∧ tha.peerOut = [] := hrun a ha tha htha
  let next := nextPc ig words
  let s1 := s.modTeam ig.team (parked t a j next ig.threads)
  have hjs : t.jset a j = js := jset_congr (hgid a ha) j
  have he : exec i s = .next ((s1.rejoinRelease ig.team a j).orphanCheck ig.team a) := by
    rw [hexec, OneGroup.exec hf hone]
    refine congrArg Host.Outcome.next (jwait_arrives hf hts (hjs.symm ▸ hmem) fun m hm => ?_)
    obtain ⟨th, hth⟩ := hf.2.2.2 m hm
    rw [unperformed_of hf.2.1 hth, (show th.peerOut = [] from (hrun m hm th hth).2)]
    rfl
  have hparked : Acts s s1 ig.team (parked t a j next ig.threads) := acts_modTeam s ig.team _
  let t1 := parked t a j next ig.threads t
  have hteam1 : s1.team? ig.team = some t1 := hparked.team hf.2.1
  have hset : SetOf t t1 n j { mem := js.mem, arr } := setOf_parked (hgid a ha) hg hj
  have hjset : t1.jset a j = { mem := js.mem, arr } := by rw [hset.1 a j hj, if_pos ⟨hgid a ha, rfl⟩]
  have hfind1 : ∀ m, Tab.find m t1.threads =
      if m ∈ ig.threads then (Tab.find m t.threads).map (waiting j next) else Tab.find m t.threads := find_parked hf.2.2.1 t
  have hgid' : ∀ m, t1.gid m = t.gid m := fun m => (congrArg (Team.gid · m) hset.2.2 :)
  have hlane' : ∀ m, t1.lane m = t.lane m := fun m => (congrArg (Team.lane · m) hset.2.2 :)
  have hbit : ∀ m ∈ ig.threads, Bits.bit arr (t.lane m) = true := fun m hm => by
    rw [show Bits.bit arr (t.lane m) = _ from bit_or _ _ _, bit_laneMask hm, Bool.or_true]
  refine ⟨fun hfull => ?_, fun hless ⟨m, th, hm, hth, hmg, hmlive, hmset⟩ => ?_⟩
  · have hrel := acts_rejoinRelease (j := j) hteam1 (by rw [hjset]; exact ⟨ne_zero_of_bit (hbit a ha), hfull⟩)
    rw [hjset] at hrel
    let t2 := released a j { mem := js.mem, arr } s1.nextTag t1
    have hteam2 : (s1.rejoinRelease ig.team a j).team? ig.team = some t2 := by rw [hrel.2.2, hteam1, Option.map_some]
    have hfind : ∀ m, Tab.find m t2.threads = if t.gid m = t.gid n ∧ Bits.bit arr (t.lane m) = true
        then (Tab.find m t1.threads).map fun th => th.rejoined s1.nextTag else Tab.find m t1.threads := by
      intro m
      rw [find_released, hgid', hgid', hlane', hgid a ha]
    have hself : ∀ m ∈ ig.threads, ∀ th, Tab.find m t.threads = some th →
        Tab.find m t2.threads = some ((waiting j next th).rejoined s1.nextTag) := fun m hm th hth => by
      rw [hfind, if_pos ⟨hgid m hm, hbit m hm⟩, hfind1, if_pos hm, hth, Option.map_some, Option.map_some]
    have horphan : (s1.rejoinRelease ig.team a j).orphanCheck ig.team a = s1.rejoinRelease ig.team a j :=
      orphanCheck_none hteam2 rfl (hself a ha tha htha) hlive rfl
    refine ⟨_, t2, horphan ▸ he, ?_, fun m hm th hth => ⟨_, hself m hm th hth, rfl, rfl, rfl, rfl⟩,
      fun m th k nx hm hth hmg hmb hw => ⟨th.rejoined s1.nextTag, ?_, ?_⟩⟩
    · exact SetOf.becomesNaming hf.2.1 (hparked.naming.trans hrel) (setOf_released hset (hgid a ha) s1.nextTag hg hj)
    · rw [hfind, if_pos ⟨hmg, by rw [show Bits.bit arr (t.lane m) = _ from bit_or _ _ _, hmb, Bool.true_or]⟩, hfind1,
        if_neg hm, hth, Option.map_some]
    · rw [Thread.rejoined, hw]
      exact ⟨rfl, rfl, rfl⟩
  · have hrel : s1.rejoinRelease ig.team a j = s1 := rejoinRelease_none hteam1 (by rw [hjset]; exact fun h => hless h.2)
    have horphan : s1.orphanCheck ig.team a = s1 := by
      refine orphanCheck_none (m := m) hteam1 ?_ (by rw [hfind1, if_neg hm]; exact hth) hmlive hmset
      rw [hgid', hgid', hgid a ha, hmg]
    rw [hrel, horphan] at he
    exact ⟨s1, t1, he, SetOf.becomes hf.2.1 hparked hset, fun m hm => by rw [hfind1, if_pos hm]; rfl,
      fun m hm => by rw [hfind1, if_neg hm]⟩

theorem rejoinWaitsForAccesses : RejoinWaitsForAccesses := by
  refine jwait_forms (P := fun i _ j => ∀ s ig t n, Formed s ig t → OneGroup ig t n →
      (∀ m ∈ ig.threads, Bits.bit (t.jset n j).mem (t.lane m) = true) →
      (∃ m ∈ ig.threads, ∃ th, Tab.find m t.threads = some th ∧ th.peerOut ≠ []) →
      ∃ s', exec i s = .next s' ∧ OnlyThreads s s' ig t fun c => { c.th with wait := .replay })
    fun i words j hexec s ig t n hf hone hmem ⟨m, hm, th, hth, hout⟩ => ?_
  obtain ⟨hn, hgid, -⟩ := id hone
  obtain ⟨a, rest, hts⟩ := List.exists_cons_of_ne_nil (List.ne_nil_of_mem hn)
  have hjs : t.jset a j = t.jset n j := jset_congr (hgid a (by simp [hts])) j
  have hnone : (ig.threads.filter fun m => !Bits.bit (t.jset a j).mem (t.lane m)) = [] :=
    List.filter_eq_nil_iff.2 fun m hm => by simp [hjs, hmem m hm]
  have hus : (ig.threads.filter fun m => Bits.bit (t.jset a j).mem (t.lane m)) = ig.threads :=
    List.filter_eq_self.2 fun m hm => by rw [hjs]; exact hmem m hm
  have hany : (ig.threads.any fun m => s.unperformed { team := ig.team, n := m }) = true :=
    List.any_eq_true.2 ⟨m, hm, by rw [unperformed_of hf.2.1 hth]; simpa using hout⟩
  refine ⟨_, ?_, onlyThreads_of_swept hf (foldl_modThread ig.team (fun _ th => { th with wait := .replay }) ig.threads s
    hf.2.2.1) fun _ _ _ _ => rfl⟩
  rw [hexec, OneGroup.exec hf hone]
  refine congrArg Host.Outcome.next ?_
  rw [hts] at hnone hus hany ⊢
  simp only [State.jwait, hf.2.1, hnone, hus, State.deliverAll, List.foldl_nil, hany, List.isEmpty_cons, Bool.false_eq_true,
    if_false, if_true]

theorem rejoinNonmember : RejoinNonmember := by
  refine jwait_forms (P := fun i _ j => ∀ n, Faults i (fun _ t c => t.gid c.id.n = t.gid n ∧
      Bits.bit (t.jset n j).mem (t.lane c.id.n) = false) fun _ => { code := 0x11, info := j })
    fun i words j hexec n s ig t hf hcan hbad => ?_
  rw [hexec]
  cases hts : ig.threads with
  | nil =>
    refine ⟨s, by simp [execHalves, hf.1, hf.2.1, hts, groupsOf], ?_⟩
    exact ⟨by simp [hts], fun _ _ => rfl, fun _ => rfl, rfl⟩
  | cons a rest =>
    have hall : ∀ m ∈ ig.threads, t.gid m = t.gid n ∧ Bits.bit (t.jset n j).mem (t.lane m) = false := fun m hm => by
      obtain ⟨th, hth⟩ := hf.2.2.2 m hm
      exact hbad m hm th hth
    have hjs : t.jset a j = t.jset n j := jset_congr (hall a (by simp [hts])).1 j
    have hout : (ig.threads.filter fun m => !Bits.bit (t.jset a j).mem (t.lane m)) = ig.threads :=
      List.filter_eq_self.2 fun m hm => by simp [hjs, (hall m hm).2]
    have hus : (ig.threads.filter fun m => Bits.bit (t.jset a j).mem (t.lane m)) = [] :=
      List.filter_eq_nil_iff.2 fun m hm => by simp [hjs, (hall m hm).2]
    rw [execHalves_single hf.1 hf.2.1 (by simp [hts]) fun m hm => (hall m hm).1]
    refine ⟨_, rfl, ?_⟩
    have hwait : s.jwait ig.team j (nextPc ig words) ig.threads =
        s.deliverAll ig.team ig.threads { code := Code.rejoinNonmember, info := j } (nextPc ig words) := by
      rw [hts] at hout hus ⊢
      simp only [State.jwait, hf.2.1, hout, hus, List.isEmpty_nil, if_true]
    rw [hwait]
    exact deliverAll_enters hf hcan ⟨show (0x11 : Nat) ≠ 0x17 by decide, show (0x11 : Nat) ≠ 0x18 by decide⟩ _

/-! ### Orphans -/

/-- The arrived masks of the first `b` sets of the group of `a` cleared (R320). -/
def clearArrived (a b : Nat) (t : Team) : Team :=
  (List.range b).foldl (fun t j => t.setJ a j { t.jset a j with arr := 0 }) t

theorem clearArrived_spec {t : Team} {a b : Nat} (hg : Tab.has t.groups (t.hw a) = true) (hb : b ≤ 16) :
    { clearArrived a b t with groups := t.groups } = t ∧ Tab.has (clearArrived a b t).groups (t.hw a) = true ∧
      ∀ i, i < 16 → (clearArrived a b t).jset a i = if i < b then { t.jset a i with arr := 0 } else t.jset a i := by
  induction b with
  | zero => exact ⟨rfl, hg, fun i _ => rfl⟩
  | succ b ih =>
    obtain ⟨hbody, hhas, hsets⟩ := ih (Nat.le_of_succ_le hb)
    have hstep : clearArrived a (b + 1) t =
        (clearArrived a b t).setJ a b { (clearArrived a b t).jset a b with arr := 0 } := by
      rw [clearArrived, List.range_succ, List.foldl_append]
      rfl
    have hhw : (clearArrived a b t).hw a = t.hw a := (congrArg (Team.hw · a) hbody :)
    obtain ⟨hset, hgroups, hrest⟩ := setOf_setJ (j := b) { (clearArrived a b t).jset a b with arr := 0 } (hhw.symm ▸ hhas) hb
    refine ⟨?_, ?_, fun i hi => ?_⟩
    · rw [hstep]
      exact hbody
    · have hsome := congrArg Option.isSome (hgroups (t.hw a))
      rw [Option.isSome_map, Option.isSome_map] at hsome
      rw [hstep]
      exact hsome.trans hhas
    · rw [hstep, hset a i hi]
      by_cases hib : i = b
      · subst hib
        rw [if_pos ⟨rfl, rfl⟩, hsets i hi, if_neg (Nat.lt_irrefl i), if_pos (Nat.lt_succ_self i)]
      · rw [if_neg fun h => hib h.2, hsets i hi]
        by_cases hlt : i < b
        · rw [if_pos hlt, if_pos (Nat.lt_succ_of_lt hlt)]
        · rw [if_neg hlt, if_neg fun h => hib (Nat.le_antisymm (Nat.le_of_lt_succ h) (Nat.not_lt.1 hlt))]

/-- The fault of an orphaned thread: the set that it waits on (R320). -/
def orphaned (t : Team) (m : Nat) : Trap :=
  { code := Code.orphanedSet, info := ((Tab.find m t.threads).bind Thread.rejoinSet).getD 0 }

/-- A group whose live threads are all parked is orphaned. -/
theorem orphanCheck_all {s : State} {k a : Nat} {t : Team} (hteam : s.team? k = some t)
    (hsome : t.liveThreads (t.gid a) ≠ [])
    (hall : ∀ m ∈ t.liveThreads (t.gid a), ((Tab.find m t.threads).bind Thread.rejoinSet).isSome = true) :
    s.orphanCheck k a = (t.liveThreads (t.gid a)).foldl (fun s m => s.deliver { team := k, n := m } (orphaned t m) 0)
      (s.modTeam k (clearArrived a 16)) := by
  have hany : ((t.liveThreads (t.gid a)).map fun m => (m, (Tab.find m t.threads).bind Thread.rejoinSet)).any
      (fun p => p.2.isNone) = false := by
    refine List.any_eq_false.2 fun p hp => ?_
    obtain ⟨m, hm, rfl⟩ := List.mem_map.1 hp
    rw [Option.isNone_eq_false_iff.2 (hall m hm)]
    exact Bool.false_ne_true
  have hempty : (t.liveThreads (t.gid a)).isEmpty = false := by simpa using hsome
  simp only [State.orphanCheck, hteam, hany, hempty, Bool.or_false, Bool.false_eq_true, if_false, List.foldl_map]
  rfl

theorem trapVec_of_place {s s1 : State} {t t1 : Team} (h : { s1 with teams := s.teams } = s) (hplace : t1.place = t.place)
    (hlaunch : t1.launch = t.launch) : s1.trapVec t1 = s.trapVec t := by
  have hlaunches : s1.launches = s.launches := (congrArg State.launches h :)
  have hplatens : s1.platens = s.platens := (congrArg State.platens h :)
  simp only [State.trapVec, State.launchOf, State.call?, hplace, hlaunch, hlaunches, hplatens]

/-- Faults of listed threads of one team that can trap, each its own. -/
theorem deliver_each {s : State} {k : Nat} {t : Team} {ns : List Nat} (x : Nat → Trap) (next : Nat) (hteam : s.team? k = some t)
    (hnodup : ns.Nodup) (hnear : t.near = false) (hstop : t.stopped = false) (hvec : s.trapVec t ≠ 0)
    (hcode : ∀ n, (x n).code ≠ 0x17 ∧ (x n).code ≠ 0x18)
    (hlisted : ∀ n ∈ ns, ∃ th, Tab.find n t.threads = some th ∧ th.handler = false) :
    let s' := ns.foldl (fun s n => s.deliver { team := k, n } (x n) next) s
    OnlyTeam s s' k ∧ Swept s s' k ns fun n th => th.enter (x n) (Collectives.threadAt t n).pc.toNat (s.trapVec t) := by
  have hstep : ∀ s1 n, n ∈ ns → SameBut s s1 → s1.thread? { team := k, n } = s.thread? { team := k, n } →
      s1.deliver { team := k, n } (x n) next =
        s1.modThread { team := k, n } fun th => th.enter (x n) (Collectives.threadAt t n).pc.toNat (s.trapVec t) := by
    intro s1 n hn hsame hthread
    obtain ⟨th, hth, hhandler⟩ := hlisted n hn
    rw [Collectives.deliver_enters (x n) hteam hth hnear hstop hvec hhandler hsame hthread, Issue.tpc_precise (hcode n),
      Collectives.threadAt, hth, Option.getD_some]
  exact ⟨foldl_onlyTeam _ k _ ns s hnodup hstep, foldl_sweeps _ k _ ns s hnodup hstep⟩

/-- An orphaned group: its sets are emptied and its live threads enter the trap vector. -/
theorem orphanCheck_enters {s : State} {k a : Nat} {t : Team} (hteam : s.team? k = some t)
    (hg : Tab.has t.groups (t.hw a) = true) (hnear : t.near = false) (hstop : t.stopped = false) (hvec : s.trapVec t ≠ 0)
    (hsome : t.liveThreads (t.gid a) ≠ [])
    (hwait : ∀ m ∈ t.liveThreads (t.gid a), ∃ th, Tab.find m t.threads = some th ∧ th.handler = false ∧
      th.rejoinSet.isSome = true) :
    ∃ t', OnlyTeam s (s.orphanCheck k a) k ∧ (s.orphanCheck k a).team? k = some t' ∧
      (∀ m, t'.gid m = t.gid m) ∧ (∀ i, i < 16 → t'.jset a i = { t.jset a i with arr := 0 }) ∧
      ∀ m ∈ t.liveThreads (t.gid a), ∀ th, Tab.find m t.threads = some th → Tab.find m t'.threads =
        some (th.enter { code := 0x0F, info := th.rejoinSet.getD 0 } th.pc.toNat (s.trapVec t)) := by
  let s2 := s.modTeam k (clearArrived a 16)
  obtain ⟨t2, ht2⟩ : ∃ t2, t2 = clearArrived a 16 t := ⟨_, rfl⟩
  obtain ⟨hbody, -, hsets⟩ := clearArrived_spec (b := 16) hg (le_refl _)
  rw [← ht2] at hbody hsets
  have hcleared : Acts s s2 k (clearArrived a 16) := acts_modTeam s k _
  have hteam2 : s2.team? k = some t2 := ht2 ▸ hcleared.team hteam
  have hplace : t2.place = t.place := (congrArg Team.place hbody :)
  have hthreads : t2.threads = t.threads := (congrArg Team.threads hbody :)
  have hvec2 : s2.trapVec t2 = s.trapVec t := trapVec_of_place hcleared.1.2 hplace (congrArg Team.launch hbody :)
  obtain ⟨honly, hin, -, hsame⟩ := deliver_each (orphaned t) 0 hteam2 ((nodup_groupThreads t (t.gid a)).filter t.liveAt)
    (by rw [Team.near, hplace]; exact hnear) ((congrArg Team.stopped hbody :).trans hstop) (hvec2.symm ▸ hvec)
    (fun _ => ⟨show (0x0F : Nat) ≠ 0x17 by decide, show (0x0F : Nat) ≠ 0x18 by decide⟩)
    fun m hm => by
      obtain ⟨th, hth, hhand, -⟩ := hwait m hm
      exact ⟨th, by rw [hthreads, hth], hhand⟩
  obtain ⟨t', hteam', hbody'⟩ := team?_of_sameBut hsame hteam2
  rw [orphanCheck_all hteam hsome fun m hm => by
    obtain ⟨th, hth, -, hset⟩ := hwait m hm
    rw [hth]
    exact hset]
  refine ⟨t', ?_, hteam', fun m => (congrArg (Team.gid · m) hbody' :).trans (congrArg (Team.gid · m) hbody :),
    fun i hi => ?_, fun m hm th hth => ?_⟩
  · exact ⟨fun b hb => (honly.1 b hb).trans (hcleared.1.1 b hb),
      (congrArg (fun u : State => { u with teams := s.teams }) honly.2 :).trans hcleared.1.2⟩
  · rw [show t'.jset a i = t2.jset a i from (congrArg (Team.jset · a i) hbody' :), hsets i hi, if_pos hi]
  · have hfind2 : Tab.find m t2.threads = some th := hthreads ▸ hth
    have h := hin m hm
    rw [thread?_of_find hteam2 hfind2, State.thread?, hteam'] at h
    simp only [Option.map_some, Option.bind_some, hvec2, Collectives.threadAt, hfind2, orphaned, hth, Option.getD_some] at h
    exact h

theorem rejoinOrphans : RejoinOrphans := by
  unfold RejoinOrphans
  intro orphans
  refine jwait_forms (P := orphans) ?_
  intro i words j hexec s ig t n hf hone hj hcan _ hrun hmem hless hothers
  obtain ⟨hn, hgid, hg⟩ := id hone
  obtain ⟨hnear, hstop, hvec, hhandler⟩ := hcan
  obtain ⟨a, rest, hts⟩ := List.exists_cons_of_ne_nil (List.ne_nil_of_mem hn)
  have ha : a ∈ ig.threads := by simp [hts]
  let next := nextPc ig words
  let s1 := s.modTeam ig.team (parked t a j next ig.threads)
  obtain ⟨t1, ht1⟩ : ∃ t1, t1 = parked t a j next ig.threads t := ⟨_, rfl⟩
  have hjs : ∀ i, t.jset a i = t.jset n i := jset_congr (hgid a ha)
  have hmine : ∀ m ∈ ig.threads, ∀ th, Tab.find m t.threads = some th → th.live = true ∧ th.handler = false :=
    fun m hm th hth => ⟨(hrun m hm th hth).1.1, hhandler m hm th hth⟩
  have hparked : Acts s s1 ig.team (parked t a j next ig.threads) := acts_modTeam s ig.team _
  have hteam1 : s1.team? ig.team = some t1 := ht1 ▸ hparked.team hf.2.1
  obtain ⟨hsets1, hgroups1, hbody1⟩ : SetOf t t1 n j _ := ht1 ▸ setOf_parked (hgid a ha) hg hj
  have hgid1 : ∀ m, t1.gid m = t.gid m := fun m => (congrArg (Team.gid · m) hbody1 :)
  have hfind1 : ∀ m, Tab.find m t1.threads =
      if m ∈ ig.threads then (Tab.find m t.threads).map (waiting j next) else Tab.find m t.threads :=
    ht1 ▸ find_parked hf.2.2.1 t
  have hplace : t1.place = t.place := (congrArg Team.place hbody1 :)
  have hvec1 : s1.trapVec t1 = s.trapVec t := trapVec_of_place hparked.1.2 hplace (congrArg Team.launch hbody1 :)
  have hlive : ∀ m, m ∈ t1.liveThreads (t1.gid a) ↔
      t.gid m = t.gid n ∧ ∃ th, Tab.find m t.threads = some th ∧ th.live = true := by
    intro m
    rw [mem_liveThreads, hgid1, hgid1, hgid a ha, Team.liveAt, hfind1]
    refine and_congr_right fun _ => ?_
    cases Tab.find m t.threads <;> split <;> simp [waiting]
  have hwait : ∀ m ∈ t1.liveThreads (t1.gid a), ∃ th, Tab.find m t1.threads = some th ∧ th.handler = false ∧
      th.rejoinSet.isSome = true := by
    intro m hm
    obtain ⟨hmg, th, hth, hthlive⟩ := (hlive m).1 hm
    by_cases hin : m ∈ ig.threads
    · exact ⟨waiting j next th, by rw [hfind1, if_pos hin, hth, Option.map_some], (hmine m hin th hth).2, rfl⟩
    · obtain ⟨hset, hhand⟩ := hothers m th hin hth hmg hthlive
      exact ⟨th, by rw [hfind1, if_neg hin, hth], hhand, hset⟩
  have hlivea : a ∈ t1.liveThreads (t1.gid a) := by
    obtain ⟨th, hth⟩ := hf.2.2.2 a ha
    exact (hlive a).2 ⟨hgid a ha, th, hth, (hmine a ha th hth).1⟩
  have hhas1 : Tab.has t1.groups (t1.hw a) = true := by
    have hhw : t1.hw a = t.hw n := (congrArg (Team.hw · a) hbody1 :).trans (gid_iff.1 (hgid a ha)).1
    have hsome := congrArg Option.isSome (hgroups1 (t.hw n))
    rw [Option.isSome_map, Option.isSome_map] at hsome
    rw [hhw]
    exact hsome.trans hg
  have hnot : s1.rejoinRelease ig.team a j = s1 := by
    refine rejoinRelease_none hteam1 fun h => hless ?_
    have hset := hsets1 a j hj
    rw [if_pos ⟨hgid a ha, rfl⟩] at hset
    rw [hset] at h
    exact h.2
  have hexec' : exec i s = .next (s1.orphanCheck ig.team a) := by
    rw [hexec, OneGroup.exec hf hone]
    refine congrArg Host.Outcome.next ((jwait_arrives hf hts ((hjs j).symm ▸ hmem) fun m hm => ?_).trans (by rw [hnot]))
    obtain ⟨th, hth⟩ := hf.2.2.2 m hm
    rw [unperformed_of hf.2.1 hth, (show th.peerOut = [] from (hrun m hm th hth).2)]
    rfl
  obtain ⟨t', honly, hteam', hgid', hsets', htraps⟩ := orphanCheck_enters hteam1 hhas1 (by rw [Team.near, hplace]; exact hnear)
    ((congrArg Team.stopped hbody1 :).trans hstop) (hvec1.symm ▸ hvec) (List.ne_nil_of_mem hlivea) hwait
  rw [hvec1] at htraps
  refine ⟨_, t', hexec', ?_, hteam', fun k hk => ?_, fun m hm th hth => ?_, fun m th k nx hm hth hmg hthlive hw => ?_⟩
  · exact ⟨fun b hb => (honly.1 b hb).trans (hparked.1.1 b hb),
      (congrArg (fun u : State => { u with teams := s.teams }) honly.2 :).trans hparked.1.2⟩
  · rw [jset_congr (m := n) (n := a) (by rw [hgid', hgid', hgid1, hgid1, hgid a ha]), hsets' k hk, hsets1 a k hk]
    split
    next h => rw [h.2]
    next => rw [hjs]
  · refine ⟨_, htraps m ((hlive m).2 ⟨hgid m hm, th, hth, (hmine m hm th hth).1⟩) (waiting j next th) ?_,
      trapped_enter _ _ _ _⟩
    rw [hfind1, if_pos hm, hth, Option.map_some]
  · refine ⟨_, htraps m ((hlive m).2 ⟨hmg, th, hth, hthlive⟩) th (by rw [hfind1, if_neg hm, hth]), ?_⟩
    rw [show th.rejoinSet = some k by rw [Thread.rejoinSet, hw]]
    exact trapped_enter _ _ _ _

/-- Settles O16: arrivals and departures complete a set, whose arrived threads go on, or leave a group without a thread that
could complete one, whose live threads then fault. -/
theorem rejoinReleases : Obligations.RejoinReleases :=
  ⟨rejoinQuit, rejoinWait, rejoinWaitsForAccesses, rejoinNonmember, rejoinOrphans⟩

end Sys2Proof.Proofs.Rejoin

/-! Fences (R87 to R89, R192, R285): what each makes of one thread, wherever it stands in its issue group, and from these the
statement. -/

namespace Sys2Proof.Proofs.Fences

open Sys2Proof Sys2Proof.Machine Sys2Proof.Claims Sys2Proof.Proofs.Lanes Sys2Proof.Proofs.Sweeps Sys2Proof.Proofs.Issue

/-! ### `fence.sys` -/

theorem exec_fenceSys {s : State} {ig : IssueGroup} (x : XForm) (h : s.ig = some ig) :
    exec (.fenceSys x) s = .next (ig.threads.foldl (fun s n => s.fenceSys { team := ig.team, n } (nextPc ig x.words)) s) := by
  show execFenceSys x s = _
  rw [execFenceSys, h]
  rfl

theorem fenceSys_lost {s : State} {i : Tid} {th : Thread} (next : Nat) (h : s.thread? i = some th) (hlost : th.peerLost = true) :
    s.fenceSys i next =
      (s.modThread i fun th => { th with peerLost := false, wait := .ready }).deliver i (protection 13 0) next := by
  simp only [State.fenceSys, h, hlost, if_true]

theorem fenceSys_whole {s : State} {i : Tid} {th : Thread} (next : Nat) (h : s.thread? i = some th)
    (hlost : th.peerLost = false) : s.fenceSys i next = s.modThread i fun th =>
      if th.peerOut = [] ∧ th.hostOut = [] then Thread.at { th with wait := .ready } next else { th with wait := .fenceSys } := by
  have hset : th.settledSys = true ↔ th.peerOut = [] ∧ th.hostOut = [] := by simp [Thread.settledSys]
  rw [State.fenceSys, h]
  by_cases hdone : th.peerOut = [] ∧ th.hostOut = []
  · simp only [hlost, hset.2 hdone, Bool.false_eq_true, if_false, if_true]
    exact modThread_congr h (if_pos hdone).symm
  · simp only [hlost, mt hset.1 hdone, Bool.false_eq_true, if_false]
    exact modThread_congr h (if_neg hdone).symm

/-- A thread that goes on or waits at a `fence.sys`. -/
theorem fenceSys_goes (x : XForm) : Goes (.fenceSys x) (fun _ c => c.th.peerLost = false) fun _ ig c =>
    if c.th.peerOut = [] ∧ c.th.hostOut = [] then Thread.at { c.th with wait := .ready } (nextPc ig x.words)
    else { c.th with wait := .fenceSys } := by
  intro s ig t hf hall
  refine ⟨_, exec_fenceSys x hf.1, swept_of_laneDoes (F := fun s i => s.fenceSys i (nextPc ig x.words)) hf fun n hn th hth => ?_⟩
  intro s1 c1 h _
  refine ⟨_, fenceSys_whole _ h.thread (by rw [h.th]; exact hall n hn th hth), rfl⟩

/-- The view of a thread that the instruction has changed once already. -/
def changed (e : Thread → Thread) (c : View) : View := { c with th := e c.th, team := c.team.modThread c.id.n e }

theorem agrees_changed {s s1 : State} {c c1 : View} (h : Agrees s c s1 c1) (e : Thread → Thread) :
    Agrees s { c with th := e c.th } (s1.modThread c1.id e) (changed e c1) where
  id := h.id
  th := congrArg e h.th
  alloc := h.alloc
  team := h.team
  teamAt := by
    refine (team?_modThread s1 c1.id c1.id.team e).trans ?_
    rw [if_pos rfl, h.teamAt]
    rfl
  thread := by
    rw [show (changed e c1).id = c1.id from rfl, thread?_modThread_same, h.thread]
    rfl
  others := sameBut_trans h.others ((SameBut.same s1).modThread _ _)

theorem view_changed {s1 : State} {c1 : View} (hteam : s1.team? c1.id.team = some c1.team)
    (hview : s1.view c1.id = some c1) (e : Thread → Thread) :
    (s1.modThread c1.id e).view (changed e c1).id = some (changed e c1) := by
  obtain ⟨t, ht, hrest⟩ := Option.bind_eq_some_iff.1 hview
  obtain ⟨th, hth, hc1⟩ := Option.map_eq_some_iff.1 hrest
  obtain rfl : t = c1.team := congrArg View.team hc1
  obtain rfl : th = c1.th := congrArg View.th hc1
  have halloc : c1.alloc = c1.team.alloc c1.id.n := (congrArg View.alloc hc1).symm
  refine (view_eq _ c1.id (c1.team.modThread c1.id.n e) (e c1.th) ?_ ?_).trans ?_
  · rw [team?_modThread, if_pos rfl, hteam, Option.map_some]
  · rw [Team.modThread_threads, Tab.find_modify, if_pos rfl, hth, Option.map_some]
  · rw [changed, halloc]
    rfl

/-- What a `fence.sys` makes of a thread with a lost peer write. -/
def lostThread (s : State) (c : View) : Thread :=
  ({ c.th with peerLost := false, wait := .ready } : Thread).enter (protection 13 0) c.th.pc.toNat (s.trapVec c.team)

/-- A thread that a `fence.sys` tells of a lost peer write. -/
theorem laneDoes_lost {s : State} {c : View} (next : Nat) (hlost : c.th.peerLost = true) (hnear : c.team.near = false)
    (hstop : c.team.stopped = false) (hvec : s.trapVec c.team ≠ 0) (hhandler : c.th.handler = false) :
    LaneDoes (fun s i => s.fenceSys i next) s c
      (lostThread s c) := by
  intro s1 c1 h hview
  let told : Thread → Thread := fun th => { th with peerLost := false, wait := .ready }
  obtain ⟨g, hg, hth⟩ := OneTeam.laneDoes_deliver (x := protection 13 0) (next := next) (c := { c with th := told c.th }) hnear
    hstop hvec hhandler _ _ (agrees_changed h told) (view_changed h.teamAt hview told)
  refine ⟨g ∘ told, ?_, hth.trans ?_⟩
  · refine (fenceSys_lost next h.thread (by rw [h.th]; exact hlost)).trans (hg.trans ?_)
    exact modThread_modThread s1 c1.id told g
  · rw [tpc_precise ⟨show (6 : Nat) ≠ 0x17 by decide, show (6 : Nat) ≠ 0x18 by decide⟩]
    rfl

theorem fenceSys_faults (x : XForm) (s : State) (ig : IssueGroup) (t : Team) (hf : Formed s ig t) (hcan : CanTrap s ig t)
    (hall : Each ig t fun c => c.th.peerLost = true) : ∃ s', exec (.fenceSys x) s = .next s' ∧
      Enters s s' ig t (fun c => c.th.pc.toNat) fun _ => { code := 0x06, info := 13 } := by
  obtain ⟨hnear, hstop, hvec, hhandler⟩ := hcan
  obtain ⟨hin, hrest⟩ := swept_of_laneDoes (F := fun s i => s.fenceSys i (nextPc ig x.words)) (eff := fun c => lostThread s c)
    hf fun n hn th hth =>
    laneDoes_lost (nextPc ig x.words) (hall n hn th hth) hnear hstop hvec (hhandler n hn th hth)
  exact ⟨_, exec_fenceSys x hf.1, fun n hn th hth => ⟨_, hin n hn th hth, trapped_enter _ _ _ _⟩, hrest⟩

/-! ### `fence.io` and `fence.code` -/

/-- One lane of `fence.io`. -/
def ioLane (next : Nat) : LaneFn := fun s c =>
  if c.th.ioOut.isEmpty then .ok (s, next)
  else .ok (s.modThread c.id fun th => { th with wait := .fenceIo }, c.th.pc.toNat)

theorem fenceIo_goes (x : XForm) : Goes (.fenceIo x) (fun _ _ => True) fun _ ig c =>
    if c.th.ioOut = [] then Thread.at c.th (nextPc ig x.words) else { c.th with wait := .fenceIo } := by
  refine goes_of_lanes (words := x.words) (g := none) (f := ioLane) (fun _ => rfl) fun s ig c _ => ?_
  by_cases hio : c.th.ioOut = []
  · rw [if_pos hio]
    exact laneDoes_goesOn rfl fun s1 c1 h => if_pos (by rw [h.th, hio]; rfl)
  · rw [if_neg hio]
    have hdoes := laneDoes_ok (next := nextPc ig x.words) (g := none) (c := c) (s := s) (pc := c.th.pc.toNat)
      (th' := { c.th with wait := .fenceIo }) (f := ioLane (nextPc ig x.words)) rfl fun s1 c1 h =>
      ⟨_, by rw [ioLane, if_neg (by rw [h.th, List.isEmpty_iff]; exact hio), h.th], rfl⟩
    simpa only [BitVec.ofNat_toNat, BitVec.setWidth_eq] using hdoes

/-- One lane of `fence.code`. -/
def codeLane (next : Nat) : LaneFn := fun s c =>
  if c.th.peerOut.isEmpty then .ok (s.dropCode, next)
  else .ok (s.modThread c.id fun th => { th with wait := .fenceCode }, c.th.pc.toNat)

theorem codeLane_goesOn {next : Nat} {s1 : State} {c1 : View} (h : c1.th.peerOut = []) :
    codeLane next s1 c1 = .ok (s1.dropCode, next) := if_pos (by rw [h]; rfl)

theorem codeLane_waits {next : Nat} {s1 : State} {c1 : View} (h : c1.th.peerOut ≠ []) :
    codeLane next s1 c1 = .ok (s1.modThread c1.id fun th => { th with wait := .fenceCode }, c1.th.pc.toNat) :=
  if_neg (by rwa [List.isEmpty_iff])

theorem fenceCode_waits (x : XForm) : Goes (.fenceCode x) (fun _ c => c.th.peerOut ≠ []) fun _ _ c =>
    { c.th with wait := .fenceCode } := by
  refine goes_of_lanes (words := x.words) (g := none) (f := codeLane) (fun _ => rfl) fun s ig c hout => ?_
  have hdoes := laneDoes_ok (next := nextPc ig x.words) (g := none) (c := c) (s := s) (pc := c.th.pc.toNat)
    (th' := { c.th with wait := .fenceCode }) (f := codeLane (nextPc ig x.words)) rfl fun s1 c1 h =>
    ⟨_, by rw [codeLane_waits (by rw [h.th]; exact hout), h.th], rfl⟩
  simpa only [BitVec.ofNat_toNat, BitVec.setWidth_eq] using hdoes

theorem dropCode_dropCode (s : State) : s.dropCode.dropCode = s.dropCode := by
  simp only [State.dropCode, List.map_map]
  rfl

/-- Where the caches are empty already, `fence.code` only goes on. -/
theorem dropCode_of_sameBut {s s1 : State} (h : SameBut s.dropCode s1) : s1.dropCode = s1 := by
  have hcores : s1.cores = s.dropCode.cores := (congrArg State.cores h.2 :)
  have hnear : s1.nearCaches = [] := (congrArg State.nearCaches h.2 :)
  have hdrop : s1.cores.map (fun (k, c) => (k, { c with icache := [] })) = s1.cores := by
    rw [hcores]
    exact congrArg State.cores (dropCode_dropCode s)
  rw [State.dropCode, hdrop, ← hnear]

theorem fenceCode_drops (x : XForm) (s : State) (ig : IssueGroup) (t : Team) (hf : Formed s ig t) (hsome : ig.threads ≠ [])
    (hall : Each ig t fun c => c.th.peerOut = []) : ∃ s', exec (.fenceCode x) s = .next s' ∧
      OnlyThreads { s with cores := s.cores.map fun p => (p.1, { p.2 with icache := [] }), nearCaches := [] } s' ig t
        fun c => Thread.at c.th (nextPc ig x.words) := by
  obtain ⟨hig, hteam, hnodup, hlisted⟩ := id hf
  have hf' : Formed s.dropCode ig t := ⟨hig, hteam, hnodup, hlisted⟩
  obtain ⟨n, rest, hts⟩ := List.exists_cons_of_ne_nil hsome
  -- the first lane empties the caches
  have hfirst : runLane (nextPc ig x.words) none (codeLane (nextPc ig x.words)) s { team := ig.team, n } =
      runLane (nextPc ig x.words) none (codeLane (nextPc ig x.words)) s.dropCode { team := ig.team, n } := by
    obtain ⟨th, hth⟩ := hlisted n (by simp [hts])
    have hout : (viewOf ig.team t n th).th.peerOut = [] := hall n (by simp [hts]) th hth
    rw [runLane_ok _ none _ s _ _ _ _ (view_eq s { team := ig.team, n } t th hteam hth) rfl (codeLane_goesOn hout),
      runLane_ok _ none _ s.dropCode _ _ _ _ (view_eq s.dropCode { team := ig.team, n } t th hteam hth) rfl (codeLane_goesOn hout),
      dropCode_dropCode]
  obtain ⟨s', he, hdoes⟩ := execLanes_does (words := x.words) (g := none) (f := codeLane) hf'
    (eff := fun c => Thread.at c.th (nextPc ig x.words)) fun n hn th hth => laneDoes_goesOn rfl fun s1 c1 h => by
      rw [codeLane_goesOn (by rw [h.th]; exact hall n hn th hth), dropCode_of_sameBut h.others]
  refine ⟨s', ?_, hdoes⟩
  rw [← he]
  show execLanes x.words none codeLane s = _
  rw [execLanes_next _ _ _ _ _ hig, execLanes_next _ _ _ _ _ hf'.1, runLanes, runLanes, hts, List.foldl_cons, List.foldl_cons]
  exact congrArg (fun s => Host.Outcome.next (List.foldl _ s rest)) hfirst


/-- Settles O25: each thread's part of a fence depends on what that thread has outstanding alone, and the instruction caches
are emptied by the first. -/
theorem fences : Obligations.Fences :=
  ⟨fenceSys_goes, fenceSys_faults, fenceIo_goes, fenceCode_drops, fenceCode_waits⟩

end Sys2Proof.Proofs.Fences

/-! The end of threads (R266): an issue group without threads, on a near-memory team of which no thread is live, still ends the
team, which the statement says stays. -/

namespace Sys2Proof.Proofs.EndOfThreads

open Sys2Proof Sys2Proof.Machine Sys2Proof.Claims

/-- A near-memory team without threads. -/
def endedTeam : Team := { place := .near 0 0 0, launch := 0, cluster := 0, dim := 1 }

/-- The state that holds `endedTeam` and an issue group of it without a thread. -/
def endedState : State := { teams := [(0, endedTeam)], ig := some { team := 0, threads := [], pc := 0 } }

/-- The `exit` removes the team, which has no live thread (R265). -/
theorem exit_endedState : ∃ s', exec .exitBase endedState = .next s' ∧ s'.team? 0 = none := ⟨_, rfl, rfl⟩

/-- Refutes O26: no thread of the issue group leaves its group without a live thread, since the issue group has no thread; yet
`exit` removes the near-memory team, all of whose threads have ended. -/
theorem not_endOfThreads : ¬ Obligations.EndOfThreads := by
  rintro ⟨⟨-, hexit, -⟩, -⟩
  have hf : Formed endedState { team := 0, threads := [], pc := 0 } endedTeam := ⟨rfl, rfl, List.nodup_nil, nofun⟩
  obtain ⟨s', he, -, t', hteam, -⟩ := hexit endedState _ endedTeam hf nofun nofun trivial
  obtain ⟨s'', he', hgone⟩ := exit_endedState
  obtain rfl : s'' = s' := Host.Outcome.next.inj (he'.symm.trans he)
  rw [hgone] at hteam
  cases hteam

end Sys2Proof.Proofs.EndOfThreads

/-! Accesses to memory by one thread (R177, R179, R297): the checks of its address, the operation that makes the access, and
what a forme bank makes of it; from these the statement about the forme window. -/

namespace Sys2Proof.Proofs.Accesses

open Sys2Proof Sys2Proof.Machine Sys2Proof.Claims Sys2Proof.Proofs.Lanes Sys2Proof.Proofs.Sweeps Sys2Proof.Proofs.Issue
  Sys2Proof.Proofs.Window

/-! ### Registers -/

section
variable {s : State} {ig : IssueGroup} {t : Team} {n : Nat} {th : Thread} {o : XOp} {x : XForm} {wa wb wc : Nat}
  {dsts : List Nat}

theorem ready_of_claimRegs {s : State} {c : View} {srcs dsts : List Nat} (h : s.claimRegs c srcs dsts = .ok s) :
    c.ready srcs dsts = .ok () := by
  unfold State.claimRegs at h
  cases hr : c.ready srcs dsts with
  | error e => rw [hr] at h; cases h
  | ok => rfl

theorem ready_usable (hf : Formed s ig t) (hth : Tab.find n t.threads = some th)
    (hu : Usable o x wa wb wc dsts s (viewOf ig.team t n th)) :
    (viewOf ig.team t n th).ready (regsOf (viewOf ig.team t n th) o x wa wb wc).srcs dsts = .ok () :=
  ready_of_claimRegs (claimRegs_usable (agrees_first hf hth) hu)

theorem observed_usable (hf : Formed s ig t) (hth : Tab.find n t.threads = some th)
    (hu : Usable o x wa wb wc dsts s (viewOf ig.team t n th)) :
    s.observed { team := ig.team, n } (regsOf (viewOf ig.team t n th) o x wa wb wc).srcs dsts = s := by
  rw [State.observed, view_eq s { team := ig.team, n } t th hf.2.1 hth]
  exact Collectives.observe_of_claimRegs (claimRegs_usable (agrees_first hf hth) hu)

/-! ### The checks of one thread's address -/

variable {words acc : Nat} {g : Option (BitVec 4)} {check : State → MemReq → Loc → Option Trap}
  {f : State → View → Lane MemReq} {act : State → Nat → Nat → List (Nat × MemReq × Loc) → List Nat → State × Machine.Faults}

/-- An access that passes its checks (R177). -/
theorem withAccess_go {s1 : State} {q : MemReq} {l : Loc} (hf : Formed s ig t) (hone : ig.threads = [n])
    (hth : Tab.find n t.threads = some th) (hg : (g.map th.guard).getD true = true)
    (hreq : f s (viewOf ig.team t n th) = .ok q) (hreach : s.reach (viewOf ig.team t n th) acc check q = (s1, .go q l))
    (hobs : s1.observed { team := ig.team, n } q.srcs dsts = s1) :
    withAccess words g acc check f act s dsts =
      .next ((act s1 ig.team (nextPc ig words) [(n, q, l)] []).1.deliverFaults
        (act s1 ig.team (nextPc ig words) [(n, q, l)] []).2) := by
  have hview : s.view { team := ig.team, n } = some (viewOf ig.team t n th) := view_eq s { team := ig.team, n } t th hf.2.1 hth
  have hguard : (g.map (viewOf ig.team t n th).th.guard).getD true = true := hg
  simp only [withAccess, hf.1, hone, State.reachAll, List.foldl_cons, List.foldl_nil, hview, hguard, if_true, hreq, hreach,
    List.nil_append, State.afterReach, List.filterMap_cons, List.filterMap_nil, List.eraseDups_nil, List.isEmpty_nil,
    List.any_cons, List.any_nil, Bool.or_false, Bool.not_false, Bool.and_true, hobs]
  rfl

/-- An access whose guard is false. -/
theorem withAccess_skip (hf : Formed s ig t) (hone : ig.threads = [n]) (hth : Tab.find n t.threads = some th)
    (hg : (g.map th.guard).getD true = false) : withAccess words g acc check f act s dsts =
      .next ((act s ig.team (nextPc ig words) [] [n]).1.deliverFaults (act s ig.team (nextPc ig words) [] [n]).2) := by
  have hview : s.view { team := ig.team, n } = some (viewOf ig.team t n th) := view_eq s { team := ig.team, n } t th hf.2.1 hth
  have hguard : (g.map (viewOf ig.team t n th).th.guard).getD true = false := hg
  simp only [withAccess, hf.1, hone, State.reachAll, List.foldl_cons, List.foldl_nil, hview, hguard, Bool.false_eq_true, if_false,
    List.nil_append, State.afterReach, List.filterMap_cons, List.filterMap_nil, List.eraseDups_nil, List.isEmpty_nil,
    List.any_cons, List.any_nil, Bool.or_false, Bool.not_false, Bool.and_true, if_true]
  rfl

/-- An access that faults at its checks. -/
theorem withAccess_fault {q : MemReq} {e : Trap} (hf : Formed s ig t) (hone : ig.threads = [n])
    (hth : Tab.find n t.threads = some th) (hg : (g.map th.guard).getD true = true)
    (hreq : f s (viewOf ig.team t n th) = .ok q)
    (hreach : s.reach (viewOf ig.team t n th) acc check q = (s, .stop (.fault e))) :
    withAccess words g acc check f act s dsts =
      .next ((act s ig.team (nextPc ig words) [] []).1.deliverFaults
        (({ team := ig.team, n }, e, nextPc ig words) :: (act s ig.team (nextPc ig words) [] []).2)) := by
  have hview : s.view { team := ig.team, n } = some (viewOf ig.team t n th) := view_eq s { team := ig.team, n } t th hf.2.1 hth
  have hguard : (g.map (viewOf ig.team t n th).th.guard).getD true = true := hg
  simp only [withAccess, hf.1, hone, State.reachAll, List.foldl_cons, List.foldl_nil, hview, hguard, if_true, hreq, hreach,
    List.nil_append, State.afterReach, List.filterMap_cons, List.filterMap_nil, List.eraseDups_nil, List.isEmpty_nil,
    List.any_cons, List.any_nil, Bool.or_false, Bool.not_false, Bool.and_true]
  rfl

end

/-! ### Where an access goes -/

section
variable {s : State} {c : View} {acc : Nat} {check : State → MemReq → Loc → Option Trap} {q : MemReq}

theorem reach_forme {k off : Nat} (hva : q.va < 2 ^ 57) (hal : q.va % q.size = 0) (hwin : inWindow q.va = true)
    (hnear : c.team.near = false) (hat : s.windowAt c.team.cluster q.va = some (k, off))
    (hcheck : check s q (.forme k off) = none) : s.reach c acc check q = (s, .go q (.forme k off)) := by
  simp only [State.reach, if_neg (Nat.not_le.2 hva), hal, ne_eq, not_true_eq_false, if_false, hwin, if_true, hnear,
    Bool.false_eq_true, hat, hcheck]

theorem reach_line {l : Loc} (hva : q.va < 2 ^ 57) (hal : q.va % q.size = 0) (hwin : inWindow q.va = false)
    (htr : s.translate (s.threadAsker c.id c.team acc) q.va = (s, .ok l)) (hcheck : check s q l = none) :
    s.reach c acc check q = (s, .go q l) := by
  simp only [State.reach, if_neg (Nat.not_le.2 hva), hal, ne_eq, not_true_eq_false, if_false, hwin, Bool.false_eq_true, htr,
    hcheck]

end

/-! ### The operation of one thread -/

/-- A thread waits for its operation. -/
def inMem (key : Nat) (th : Thread) : Thread := { th with wait := .mem key }

/-- The state in which the one access of operation `op` is tried. -/
def opened (s : State) (op : MemOp) (n : Nat) : State :=
  ({ s with nextKey := s.nextKey + 1, memops := Tab.put s.nextKey { op with accs := [] } s.memops } : State).modThread
    { team := op.team, n } (inMem s.nextKey)

/-- A thread goes on after its operation (R297). -/
def resume (next : Nat) (th : Thread) : Thread := { th with wait := .ready, pc := BitVec.ofNat 64 next }

theorem del_cons {α : Type} (k j : Nat) (v : α) (t : Tab α) :
    Tab.del k ((j, v) :: t) = if k = j then Tab.del k t else (j, v) :: Tab.del k t := by
  by_cases h : k = j
  · simp [Tab.del, h]
  · simp [Tab.del, h, Ne.symm h]

theorem del_put {α : Type} (k : Nat) (v : α) (t : Tab α) : Tab.del k (Tab.put k v t) = Tab.del k t := by
  induction t with
  | nil => rw [Tab.put, del_cons, if_pos rfl]
  | cons p t ih =>
    obtain ⟨j, w⟩ := p
    rw [Tab.put]
    split
    · rw [del_cons, if_pos rfl]
    · split
      next h => rw [h, del_cons, del_cons, if_pos rfl, if_pos rfl]
      next h => rw [del_cons, if_neg h, ih, del_cons, if_neg h]

theorem del_absent {α : Type} {k : Nat} {t : Tab α} (h : Tab.find k t = none) : Tab.del k t = t := by
  induction t with
  | nil => rfl
  | cons p t ih =>
    obtain ⟨j, w⟩ := p
    rw [Tab.find_cons] at h
    split at h
    · cases h
    next hne => rw [del_cons, if_neg hne, ih h]

theorem modify_put {α : Type} (k : Nat) (f : α → α) (v : α) (t : Tab α) : Tab.modify k f (Tab.put k v t) = Tab.put k (f v) t := by
  rw [Tab.modify, Tab.find_put_same]
  exact put_put k (f v) v t

/-- An operation of one access has no bundle: its line is the line of all of it. -/
theorem bundle_single {op : MemOp} {a : Access} (h : op.accs = [a]) : op.bundle = [] := by
  have htake : ∀ n, ((op.accs.take n).all fun b => some b.loc.line == ((op.accs.take n).head?.map fun b => b.loc.line)) = true := by
    intro n
    rw [h]
    cases n <;> simp
  unfold MemOp.bundle
  split
  · exact if_pos (htake _)
  · exact if_pos (htake _)
  · rfl
  · rfl
  · rfl

/-- The last access of an operation is performed. -/
theorem sweepLanes_done {s s2 : State} {key : Nat} {op : MemOp} {a : Access} {t : Team} (hfind : Tab.find key s.memops = some op)
    (haccs : op.accs = [a]) (hteam : s.team? op.team = some t)
    (hatt : (s.popAccess key).attempt key op t a = .done s2) : s.sweepLanes key 1 = (s2, []) := by
  simp only [State.sweepLanes, hfind, haccs, hteam, bundle_single haccs, List.isEmpty_nil, if_true, hatt]

theorem sweep_eq {s s2 : State} {key : Nat} {op : MemOp} {fs : Machine.Faults} (hfind : Tab.find key s.memops = some op)
    (hlanes : s.sweepLanes key op.accs.length = (s2, fs)) : s.sweep key = (s2.finishOp key, fs) := by
  simp only [State.sweep, hfind, hlanes]

/-- An operation of which nothing is left. -/
theorem finishOp_done {s : State} {key : Nat} {op : MemOp} (hfind : Tab.find key s.memops = some op) (haccs : op.accs = [])
    (hreplies : op.replies = []) (hkind : op.kind ≠ .record) :
    s.finishOp key = op.threads.foldl (fun s n => s.modThread { team := op.team, n } (resume op.next))
      { s with memops := Tab.del key s.memops } := by
  have hnot : (op.kind == .record) = false := by simpa using hkind
  simp only [State.finishOp, hfind, haccs, hreplies, List.isEmpty_nil, Bool.and_self, if_true, State.threadsGoOn, hnot,
    Bool.false_eq_true, if_false]
  rfl

section
variable {s : State} {t : Team} {team n hint scope next : Nat} {kind : AccKind} {q : MemReq} {l : Loc}

/-- The access of a request. -/
def accessOf (n : Nat) (q : MemReq) (l : Loc) : Access :=
  { tid := n, va := q.va, loc := l, size := q.size, ty := q.ty, value := q.value, compare := q.compare, dreg := q.dreg }

/-- The operation of one thread's access. -/
def opOf (kind : AccKind) (hint scope team next n : Nat) (q : MemReq) (l : Loc) : MemOp :=
  { team, kind, hint, scope, accs := [accessOf n q l], threads := [n], next }

/-- The state in which the operation of one thread has started. -/
def started (s : State) (op : MemOp) (n : Nat) : State :=
  ({ s with nextKey := s.nextKey + 1, memops := Tab.put s.nextKey op s.memops } : State).modThread { team := op.team, n }
    (inMem s.nextKey)

theorem startAccess_eq : startAccess kind hint scope s team next [(n, q, l)] [] =
    (started s (opOf kind hint scope team next n q l) n).sweep s.nextKey := rfl

theorem find_started (op : MemOp) : Tab.find s.nextKey (started s op n).memops = some op := Tab.find_put_same _ _ _

theorem team?_started {op : MemOp} (hteam : s.team? op.team = some t) :
    (started s op n).team? op.team = some (t.modThread n (inMem s.nextKey)) := by
  refine (team?_modThread _ { team := op.team, n } op.team _).trans ?_
  rw [if_pos rfl]
  exact congrArg (Option.map _) hteam

theorem popAccess_started {op : MemOp} {a : Access} (haccs : op.accs = [a]) :
    (started s op n).popAccess s.nextKey = opened s op n := by
  have hmodify := modify_put s.nextKey (fun o : MemOp => { o with accs := o.accs.drop 1 }) op s.memops
  rw [haccs] at hmodify
  exact (congrArg (fun m => { started s op n with memops := m }) hmodify :)

/-- An access that is performed at once: its thread goes on. -/
theorem startAccess_done {s2 : State} (hteam : s.team? team = some t) (hkey : Tab.find s.nextKey s.memops = none)
    (hrecord : kind ≠ .record)
    (hatt : (opened s (opOf kind hint scope team next n q l) n).attempt s.nextKey (opOf kind hint scope team next n q l)
      (t.modThread n (inMem s.nextKey)) (accessOf n q l) = .done s2)
    (hmemops : s2.memops = (opened s (opOf kind hint scope team next n q l) n).memops) :
    startAccess kind hint scope s team next [(n, q, l)] [] =
      (({ s2 with memops := s.memops } : State).modThread { team, n } (resume next), []) := by
  have hsweep := sweepLanes_done (find_started (opOf kind hint scope team next n q l)) rfl (team?_started hteam)
    (by rw [popAccess_started rfl]; exact hatt)
  have hfind2 : Tab.find s.nextKey s2.memops = some { opOf kind hint scope team next n q l with accs := [] } := by
    rw [hmemops]
    exact Tab.find_put_same _ _ _
  have hdel : Tab.del s.nextKey s2.memops = s.memops := by
    rw [hmemops]
    exact (del_put _ _ _).trans (del_absent hkey)
  have hfinish := finishOp_done hfind2 rfl rfl hrecord
  rw [hdel] at hfinish
  exact (sweep_eq (find_started _) hsweep).trans (congrArg (·, []) hfinish)

end

/-! ### What the thread receives -/

theorem setVs_inMem (key : Nat) (th : Thread) (n v w : Nat) : (inMem key th).setVs n v w = inMem key (th.setVs n v w) := by
  induction w generalizing th n v with
  | zero => rfl
  | succ w ih => exact ih (th.setV n (v % 2 ^ 32)) (n + 1) (v / 2 ^ 32)

/-- A thread of which an access has changed registers and flags alone, in what software sees, goes on. -/
theorem resumed_of {th u : Thread} {regs : Tab Word} {flags : BitVec 5} {next : Nat}
    (hrest : { u with regs := th.regs, fpflags := th.fpflags, bad := th.bad, seen := th.seen, spins := th.spins,
                      wait := th.wait } = th)
    (hregs : u.regs = regs) (hflags : u.fpflags = flags) : Resumed th (resume next u) regs flags next :=
  ⟨hregs, hflags, rfl, rfl, (congrArg Thread.preds hrest :), (congrArg Thread.live hrest :), (congrArg Thread.handler hrest :),
    (congrArg Thread.tcause hrest :), (congrArg Thread.tpc hrest :), (congrArg Thread.taddr hrest :),
    (congrArg Thread.tinfo hrest :), (congrArg Thread.pend hrest :)⟩

section
variable {key next : Nat} {th : Thread} {a : Access} {old flags : Nat} {new : Option Nat}

/-- A load returns its value (R181). -/
theorem resumed_load : Resumed th (resume next ((inMem key th).landed .load a old new flags))
    (th.setVs a.dreg (loadFill a.ty old) a.ty.regs).regs th.fpflags next := by
  have hset := setVs_rest th a.dreg (loadFill a.ty old) a.ty.regs
  have hflags : (th.setVs a.dreg (loadFill a.ty old) a.ty.regs).fpflags = th.fpflags := (congrArg Thread.fpflags hset :)
  simp only [Thread.landed, setVs_inMem]
  split
  · exact resumed_of (congrArg (fun u : Thread => { u with fpflags := th.fpflags, spins := th.spins, wait := th.wait }) hset :) rfl
      hflags
  · exact resumed_of (congrArg (fun u : Thread => { u with fpflags := th.fpflags, spins := th.spins, wait := th.wait }) hset :) rfl
      hflags

/-- A store or a reduction returns nothing (R181, R187). -/
theorem resumed_write {kind : AccKind} (h : kind = .store ∨ ∃ sub, kind = .red sub) :
    Resumed th (resume next ((inMem key th).landed kind a old new flags)) th.regs th.fpflags next := by
  obtain rfl | ⟨sub, rfl⟩ := h
  · exact resumed_of rfl rfl rfl
  · exact resumed_of rfl rfl rfl

/-- An atomic returns the old value and raises its flags (R187). -/
theorem resumed_atom {sub : Nat} : Resumed th (resume next ((inMem key th).landed (.atom sub) a old new flags))
    (th.setVs a.dreg old a.ty.regs).regs (th.fpflags ||| BitVec.ofNat 5 flags) next := by
  have hset := setVs_rest th a.dreg old a.ty.regs
  have hflags : (th.setVs a.dreg old a.ty.regs).fpflags = th.fpflags := (congrArg Thread.fpflags hset :)
  have hraised : (inMem key (th.setVs a.dreg old a.ty.regs)).fpflags ||| BitVec.ofNat 5 flags =
      th.fpflags ||| BitVec.ofNat 5 flags := congrArg (· ||| BitVec.ofNat 5 flags) hflags
  simp only [Thread.landed, setVs_inMem]
  split
  · exact resumed_of (congrArg (fun u : Thread => { u with fpflags := th.fpflags, spins := th.spins, wait := th.wait }) hset :) rfl
      hraised
  · exact resumed_of (congrArg (fun u : Thread => { u with fpflags := th.fpflags, spins := th.spins, wait := th.wait }) hset :) rfl
      hraised

end

/-- One thread changed, in a state in which the group is formed. -/
theorem touches_modThread {s : State} {ig : IssueGroup} {t : Team} {n : Nat} (hf : Formed s ig t) (hone : ig.threads = [n])
    {g : Thread → Thread} {p : View → Thread → Prop} (h : ∀ th, Tab.find n t.threads = some th → p (viewOf ig.team t n th) (g th)) :
    Touches s (s.modThread { team := ig.team, n } g) ig t p := by
  have hswept := foldl_modThread ig.team (fun _ => g) ig.threads s hf.2.2.1
  have hdoes : OnlyThreads s (ig.threads.foldl (fun s n => s.modThread { team := ig.team, n } g) s) ig t fun c => g c.th :=
    onlyThreads_of_swept hf hswept fun _ _ _ _ => rfl
  rw [hone] at hdoes
  obtain ⟨hin, hrest⟩ := hdoes
  refine ⟨fun m hm th hth => ⟨_, hin m hm th hth, ?_⟩, hrest⟩
  obtain rfl : m = n := by simpa [hone] using hm
  exact h th hth


/-! ### The forme bank -/

section
variable {s : State} {ig : IssueGroup} {t : Team} {n : Nat} {th : Thread} {k off : Nat} {f : Forme} {kind : AccKind}

/-- The bank after an access, and the time of the access (R66). -/
def banked (kind : AccKind) (a : Access) (off pts : Nat) (f : Forme) : Forme × Nat :=
  match (kind.write a (readBytes f.data off a.size)).1 with
  | none => ((f.load off a.size pts).1, (f.load off a.size pts).2.2)
  | some v => f.store off a.size v pts

/-- The uncorrectable units after an access: a write forgets those that it overwrites whole (R37). -/
def marks (kind : AccKind) (a : Access) (k off : Nat) (f : Forme) (bad : Tab Nat) : Tab Nat :=
  if (kind.write a (readBytes f.data off a.size)).1.isSome = true ∧ 8 ≤ a.size then
    (List.range (a.size / 8)).foldl (fun b i => Tab.del (badForme k (off + 8 * i)) b) bad
  else bad

theorem find_foldl_del {α : Type} (key : Nat → Nat) (a : Nat) (is : List Nat) (b : Tab α) :
    Tab.find a (is.foldl (fun b i => Tab.del (key i) b) b) = none ∨
      Tab.find a (is.foldl (fun b i => Tab.del (key i) b) b) = Tab.find a b := by
  induction is generalizing b with
  | nil => exact .inr rfl
  | cons i is ih =>
    rw [List.foldl_cons]
    rcases ih (Tab.del (key i) b) with h | h
    · exact .inl h
    · rw [h, Tab.find_del]
      split
      · exact .inl rfl
      · exact .inr rfl

theorem find_marks (a : Access) (j : Nat) : Tab.find j (marks kind a k off f s.bad) = none ∨
    Tab.find j (marks kind a k off f s.bad) = Tab.find j s.bad := by
  unfold marks
  split
  · exact find_foldl_del _ _ _ _
  · exact .inr rfl

/-- An access that nothing stops is performed at the bank. -/
theorem performForme_done {i : Tid} {a : Access} (hfind : Tab.find k s.formes = some f)
    (hcheck : s.formeCheck k off a.size a.va (kind == .store) = .ok ()) :
    s.performForme kind i t a k off =
      let b := banked kind a off (s.clock t.clockKey) f
      let w := kind.write a (readBytes f.data off a.size)
      .done (({ s with formes := Tab.put k b.1 s.formes, bad := marks kind a k off f s.bad } : State).perform kind i t a
        (readBytes f.data off a.size) w.1 w.2 b.2) := by
  have hforme : s.forme k = f := by rw [State.forme, hfind, Option.getD_some]
  have hmod : ∀ g, Tab.modify k (fun _ => g) s.formes = Tab.put k g s.formes := fun g => by rw [Tab.modify, hfind]
  unfold State.performForme
  rw [hcheck]
  simp only [hforme, State.modForme, marks, banked]
  cases (kind.write a (readBytes f.data off a.size)).1 with
  | none => simp only [hmod, Option.isSome_none, Bool.false_eq_true, false_and, if_false]
  | some v =>
    simp only [hmod, Option.isSome_some, true_and, if_true, State.healForme]
    split <;> rfl

/-- An instruction of one thread whose access goes to the forme window (R55, R65, R66). -/
theorem accesses_forme {words acc hint scope : Nat} {g : Option (BitVec 4)} {check : State → MemReq → Loc → Option Trap}
    {req : State → View → Lane MemReq} {q : MemReq} {dsts : List Nat} {i : Instr} {p : View → Thread → Prop}
    (halone : Alone s ig t n th) (hexec : exec i s = withAccess words g acc check req (startAccess kind hint scope) s dsts)
    (hg : (g.map th.guard).getD true = true) (hreq : req s (viewOf ig.team t n th) = .ok q)
    (hobs : s.observed { team := ig.team, n } q.srcs dsts = s)
    (hsite : FormeSite s (viewOf ig.team t n th) q.va q.size (kind == .store) k off f)
    (hcheck : check s q (.forme k off) = none) (hrecord : kind ≠ .record)
    (hp : ∀ key, p (viewOf ig.team t n th) (resume (nextPc ig words) ((inMem key th).landed kind (accessOf n q (.forme k off))
      (readBytes f.data off q.size) (kind.write (accessOf n q (.forme k off)) (readBytes f.data off q.size)).1
      (kind.write (accessOf n q (.forme k off)) (readBytes f.data off q.size)).2))) :
    ∃ s', exec i s = .next s' ∧
      AtForme s s' ig t k (banked kind (accessOf n q (.forme k off)) off (s.clock t.clockKey) f).1 p := by
  obtain ⟨hf, hone, hth, hnear, -, -, hkey⟩ := halone
  obtain ⟨hva, hal, hwin, hat, hform, hfind⟩ := hsite
  let a := accessOf n q (.forme k off)
  let op := opOf kind hint scope ig.team (nextPc ig words) n q (.forme k off)
  let s0 := opened s op n
  let t0 := t.modThread n (inMem s.nextKey)
  have hcore : t.clockKey = t.core := by
    obtain ⟨core, hplace⟩ := Collectives.core_of_not_near hnear
    simp only [Team.clockKey, Team.core, hplace]
  have hperform := performForme_done (s := s0) (t := t0) (kind := kind) (i := { team := ig.team, n }) (a := a) hfind hform
  have hatt : s0.attempt s.nextKey op t0 a = s0.performForme kind { team := ig.team, n } t0 a k off := by
    have hnear0 : t0.near = false := hnear
    simp only [State.attempt, hnear0, Bool.false_eq_true, if_false]
    rfl
  have hstart := startAccess_done (hint := hint) (scope := scope) hf.2.1 hkey hrecord (hatt.trans hperform) rfl
  rw [hexec, withAccess_go hf hone hth hg hreq (reach_forme hva hal hwin hnear hat hcheck) hobs, hstart]
  let s1 : State :=
    { s with
      formes := Tab.put k (banked kind a off (s.clock t.clockKey) f).1 s.formes
      clocks := (s.raise t.clockKey (banked kind a off (s.clock t.clockKey) f).2).clocks
      bad := marks kind a k off f s.bad, nextKey := s.nextKey + 1 }
  have hf1 : Formed s1 ig t := hf
  let landed : Thread → Thread := fun th => th.landed kind a (readBytes f.data off q.size)
    (kind.write a (readBytes f.data off q.size)).1 (kind.write a (readBytes f.data off q.size)).2
  refine ⟨((s1.modThread { team := ig.team, n } (inMem s.nextKey)).modThread { team := ig.team, n } landed).modThread
    { team := ig.team, n } (resume (nextPc ig words)), rfl, s1.clocks, marks kind a k off f s.bad, hcore ▸ ?_,
    fun j => find_marks a j, ?_⟩
  · exact ⟨fun j hj => (clock_raise s _ _ j).trans (if_neg hj), clock_le_raise s _ _ _⟩
  · rw [modThread_modThread, modThread_modThread]
    refine touches_modThread hf1 (by rw [hone]) fun u hu => ?_
    obtain rfl : u = th := Option.some.inj (hu.symm.trans hth)
    exact hp s.nextKey

end

/-! ### Requests -/

section
variable {s : State} {ig : IssueGroup} {t : Team} {n : Nat} {th : Thread} {x : XForm}

/-- What a load asks of memory. -/
def loadReq (x : XForm) (c : View) : MemReq :=
  { va := addrOf c .ld x 0 0, srcs := (regsOf c .ld x 2 0 0).srcs, size := tyBytes x.ty, ty := x.ty, dreg := x.d.toNat }

/-- The register checks of a load. -/
def loadAsk (x : XForm) : State → View → Lane MemReq := fun _ c => do
  c.dests (regSpan x.d.toNat x.ty.regs)
  let r ← c.operands .ld x 2 0 0
  c.ready r.srcs (regSpan x.d.toNat x.ty.regs)
  return { va := c.addr x r, srcs := r.srcs, size := tyBytes x.ty, ty := x.ty, dreg := x.d.toNat }

theorem loadOf_eq (words : Nat) (x : XForm) (s : State) : loadOf words x s =
    withAccess words none 0 (fun s => s.destCheck false) (loadAsk x) (startAccess .load x.h.toNat 0) s
      (regSpan x.d.toNat x.ty.regs) := rfl

theorem load_asks (hf : Formed s ig t) (hth : Tab.find n t.threads = some th)
    (hu : Usable .ld x 2 0 0 (destOf x x.ty.regs) s (viewOf ig.team t n th)) :
    loadAsk x s (viewOf ig.team t n th) = .ok (loadReq x (viewOf ig.team t n th)) := by
  have hdests : (viewOf ig.team t n th).dests (regSpan x.d.toNat x.ty.regs) = .ok () := hu.1
  have hready : (viewOf ig.team t n th).ready (regsOf (viewOf ig.team t n th) .ld x 2 0 0).srcs
    (regSpan x.d.toNat x.ty.regs) = .ok () := ready_usable hf hth hu
  simp only [loadAsk, hdests, operands_of_usable hu, hready, bind, Except.bind]
  rfl

/-- What a store asks of memory. -/
def storeReq (x : XForm) (c : View) : MemReq :=
  { va := addrOf c .st x x.ty.regs 0, srcs := (regsOf c .st x 2 x.ty.regs 0).srcs, size := tyBytes x.ty, ty := x.ty
    value := c.opB x (regsOf c .st x 2 x.ty.regs 0) x.ty.regs % 2 ^ x.ty.bits }

/-- The register checks of a store. -/
def storeAsk (x : XForm) : State → View → Lane MemReq := fun _ c => do
  let r ← c.operands .st x 2 x.ty.regs 0
  c.ready r.srcs []
  return { va := c.addr x r, srcs := r.srcs, size := tyBytes x.ty, ty := x.ty
           value := c.opB x r x.ty.regs % 2 ^ x.ty.bits }

theorem storeOf_eq (words : Nat) (x : XForm) (s : State) : storeOf words x s =
    withAccess words (some x.g) 1 (fun s => s.destCheck false) (storeAsk x) (startAccess .store x.h.toNat 0) s := rfl

theorem store_asks (hf : Formed s ig t) (hth : Tab.find n t.threads = some th)
    (hu : Usable .st x 2 x.ty.regs 0 [] s (viewOf ig.team t n th)) :
    storeAsk x s (viewOf ig.team t n th) = .ok (storeReq x (viewOf ig.team t n th)) := by
  simp only [storeAsk, operands_of_usable hu, ready_usable hf hth hu, bind, Except.bind]
  rfl

/-- The registers of an atomic's third operand. -/
def atomWc (x : XForm) : Nat := if x.sub.toNat = 7 then x.ty.regs else 0

/-- The registers that an atomic writes. -/
def atomDests (old : Bool) (x : XForm) : List Nat := if old then destOf x x.ty.regs else []

/-- The kind of access that an atomic or a reduction is. -/
def atomKind (old : Bool) (x : XForm) : AccKind := if old then .atom x.sub.toNat else .red x.sub.toNat

/-- What an atomic or a reduction asks of memory. -/
def atomReq (o : XOp) (x : XForm) (c : View) : MemReq :=
  { va := addrOf c o x x.ty.regs (atomWc x), srcs := (regsOf c o x 2 x.ty.regs (atomWc x)).srcs, size := tyBytes x.ty
    ty := x.ty, value := c.opB x (regsOf c o x 2 x.ty.regs (atomWc x)) x.ty.regs % 2 ^ x.ty.bits
    compare := c.th.vs (regsOf c o x 2 x.ty.regs (atomWc x)).c x.ty.regs % 2 ^ x.ty.bits, dreg := x.d.toNat }

/-- The register checks of an atomic or a reduction. -/
def atomAsk (o : XOp) (dsts : List Nat) (x : XForm) : State → View → Lane MemReq := fun _ c => do
  c.dests dsts
  let r ← c.operands o x 2 x.ty.regs (atomWc x)
  c.ready r.srcs dsts
  return { va := c.addr x r, srcs := r.srcs, size := tyBytes x.ty, ty := x.ty, value := c.opB x r x.ty.regs % 2 ^ x.ty.bits
           compare := c.th.vs r.c x.ty.regs % 2 ^ x.ty.bits, dreg := x.d.toNat }

theorem atomicOf_eq (o : XOp) (old : Bool) (x : XForm) (s : State) : atomicOf o old x s =
    withAccess x.words (some x.g) 2 (fun s => s.destCheck true) (atomAsk o (atomDests old x) x)
      (startAccess (atomKind old x) x.h.toNat x.sc.toNat) s (atomDests old x) := rfl

theorem atom_asks {o : XOp} {dsts : List Nat} (hf : Formed s ig t) (hth : Tab.find n t.threads = some th)
    (hu : Usable o x 2 x.ty.regs (atomWc x) dsts s (viewOf ig.team t n th)) :
    atomAsk o dsts x s (viewOf ig.team t n th) = .ok (atomReq o x (viewOf ig.team t n th)) := by
  simp only [atomAsk, hu.1, operands_of_usable hu, ready_usable hf hth hu, bind, Except.bind]
  rfl

/-- The value and the flags that an atomic or a reduction leaves (R187). -/
theorem atom_writes {o : XOp} {old : Bool} {c : View} {l : Loc} {before b : Nat} (hb : x.ty.bits = 8 * b) :
    (atomKind old x).write (accessOf n (atomReq o x c) l) before =
      let v := atomNew x.sub.toNat x.ty before (atomReq o x c).value (atomReq o x c).compare
      (some v.1, v.2) := by
  have hsize : 8 * tyBytes x.ty = x.ty.bits := by rw [tyBytes, hb]; omega
  have hnew : atomNew x.sub.toNat x.ty before ((atomReq o x c).value % 2 ^ (8 * tyBytes x.ty))
      ((atomReq o x c).compare % 2 ^ (8 * tyBytes x.ty)) =
        atomNew x.sub.toNat x.ty before (atomReq o x c).value (atomReq o x c).compare := by
    rw [hsize, atomReq]
    simp only [Nat.mod_mod]
  cases old with
  | true => exact congrArg (fun v : Nat × Nat => (some v.1, v.2)) hnew
  | false => exact congrArg (fun v : Nat × Nat => (some v.1, v.2)) hnew

end

/-! ### The forme window -/

theorem loadsForme {i : Instr} {x : XForm} {words : Nat} (hexec : ∀ s, exec i s = loadOf words x s) :
    LoadsForme i x words := by
  intro s ig t n th k off f halone c hu hsite
  obtain ⟨hf, -, hth, -⟩ := id halone
  obtain ⟨s', he, hat⟩ := accesses_forme (req := loadAsk x) (q := loadReq x c) (kind := .load) (dsts := regSpan x.d.toNat x.ty.regs)
    (p := fun c th' => Resumed c.th th' (put x c (loadFill x.ty (readBytes f.data off (x.ty.bits / 8)))).regs c.th.fpflags
      (nextPc ig words)) halone ((hexec s).trans (loadOf_eq words x s)) rfl (load_asks hf hth hu) (observed_usable hf hth hu)
    hsite rfl (by decide) fun _ => resumed_load
  exact ⟨s', (f.load off (tyBytes x.ty) (s.clock t.clockKey)).1, he, rfl, hat⟩

theorem storesForme {i : Instr} {x : XForm} {words : Nat} (hexec : ∀ s, exec i s = storeOf words x s) :
    StoresForme i x words := by
  intro s ig t n th k off f halone c w hu hg hsite
  obtain ⟨hf, -, hth, -⟩ := id halone
  obtain ⟨s', he, hat⟩ := accesses_forme (req := storeAsk x) (q := storeReq x c) (kind := .store)
    (p := fun c th' => Resumed c.th th' c.th.regs c.th.fpflags (nextPc ig words)) halone
    ((hexec s).trans (storeOf_eq words x s)) hg (store_asks hf hth hu) (observed_usable hf hth hu) hsite rfl (by decide)
    fun _ => resumed_write (.inl rfl)
  exact ⟨s', (f.store off (tyBytes x.ty) (storeReq x c).value (s.clock t.clockKey)).1, he, rfl,
    fun a => getD_writeBytes f.data off (tyBytes x.ty) (storeReq x c).value a, hat⟩

theorem atomicForme {i : Instr} {o : XOp} {x : XForm} {old : Bool} (hexec : ∀ s, exec i s = atomicOf o old x s) :
    AtomicForme i o x old := by
  intro s ig t n th k off f halone c w wc r before v ⟨b, hb⟩ hu hg hsite
  obtain ⟨hf, -, hth, -⟩ := id halone
  have hwrite := atom_writes (n := n) (o := o) (old := old) (c := c) (l := .forme k off) (before := before) hb
  have hbank : banked (atomKind old x) (accessOf n (atomReq o x c) (.forme k off)) off (s.clock t.clockKey) f =
      f.store off (tyBytes x.ty) v.1 (s.clock t.clockKey) := by
    have hfst := congrArg Prod.fst hwrite
    rw [banked, show readBytes f.data off (accessOf n (atomReq o x c) (.forme k off)).size = before from rfl, hfst]
    rfl
  have hkind : (atomKind old x == .store) = false := by cases old <;> rfl
  have hrecord : atomKind old x ≠ .record := by cases old <;> exact nofun
  obtain ⟨s', he, hat⟩ := accesses_forme (req := atomAsk o (atomDests old x) x) (q := atomReq o x c) (kind := atomKind old x)
    (p := fun c th' => Resumed c.th th' (if old then (put x c before).regs else c.th.regs)
      (if old then c.th.fpflags ||| BitVec.ofNat 5 v.2 else c.th.fpflags) (nextPc ig x.words)) halone
    ((hexec s).trans (atomicOf_eq o old x s)) hg (atom_asks hf hth hu) (observed_usable hf hth hu)
    (by rw [hkind]; exact hsite) rfl hrecord fun key => by
      have hsnd := congrArg Prod.snd hwrite
      rw [show readBytes f.data off (atomReq o x c).size = before from rfl, hsnd]
      cases old with
      | true => exact resumed_atom
      | false => exact resumed_write (.inr ⟨_, rfl⟩)
  rw [hbank] at hat
  exact ⟨s', (f.store off (tyBytes x.ty) v.1 (s.clock t.clockKey)).1, he, rfl,
    fun a => getD_writeBytes f.data off (tyBytes x.ty) v.1 a, hat⟩

/-- Settles O18: the one access of the operation is performed at the bank as it is tried, and its thread goes on. -/
theorem formeAccesses : Obligations.FormeAccesses :=
  ⟨fun _ => loadsForme fun _ => rfl, fun _ => loadsForme fun _ => rfl, fun _ => storesForme fun _ => rfl,
    fun _ => storesForme fun _ => rfl, fun _ => atomicForme fun _ => rfl, fun _ => atomicForme fun _ => rfl⟩

end Sys2Proof.Proofs.Accesses

/-! Accesses that are not made (R165, R177): what stands at an address that no access reaches, the operation of an issue group
that makes no access, the fault delivered after it, and from these the statement. -/

namespace Sys2Proof.Proofs.Accesses

open Sys2Proof Sys2Proof.Machine Sys2Proof.Claims Sys2Proof.Proofs.Lanes Sys2Proof.Proofs.Sweeps Sys2Proof.Proofs.Issue

/-! ### Faults of an address -/

section
variable {s : State} {c : View} {acc : Nat} {check : State → MemReq → Loc → Option Trap} {q : MemReq}

theorem reach_noncanonical (h : 2 ^ 57 ≤ q.va) : s.reach c acc check q = (s, .stop (.fault (protection 1 q.va))) := by
  rw [State.reach, if_pos h]

theorem reach_misaligned (hva : q.va < 2 ^ 57) (h : q.va % q.size ≠ 0) :
    s.reach c acc check q = (s, .stop (.fault { code := Code.misaligned, addr := q.va })) := by
  rw [State.reach, if_neg (Nat.not_le.2 hva), if_pos h]

theorem reach_noForme (hva : q.va < 2 ^ 57) (hal : q.va % q.size = 0) (hwin : inWindow q.va = true)
    (hat : s.windowAt c.team.cluster q.va = none) :
    s.reach c acc check q = (s, .stop (.fault { code := Code.formeRange, addr := q.va })) := by
  have hnone : (if c.team.near then none else s.windowAt c.team.cluster q.va) = none := by rw [hat, ite_self]
  rw [State.reach, if_neg (Nat.not_le.2 hva), if_neg (not_not.2 hal), if_pos hwin, hnone]

end

/-! ### An operation without an access -/

section
variable {s : State} {team hint scope next : Nat} {kind : AccKind}

/-- An operation without an access ends as it starts. -/
theorem idleOp_done {s1 : State} {op : MemOp} (hkey : Tab.find s.nextKey s.memops = none)
    (hmemops : s1.memops = Tab.put s.nextKey op s.memops) (haccs : op.accs = []) (hreplies : op.replies = [])
    (hkind : op.kind ≠ .record) :
    s1.sweep s.nextKey = (op.threads.foldl (fun s n => s.modThread { team := op.team, n } (resume op.next))
      { s1 with memops := s.memops }, []) := by
  have hfind : Tab.find s.nextKey s1.memops = some op := by rw [hmemops, Tab.find_put_same]
  have hfinish := finishOp_done hfind haccs hreplies hkind
  rw [hmemops, del_put, del_absent hkey] at hfinish
  have hlanes : s1.sweepLanes s.nextKey op.accs.length = (s1, []) := by rw [haccs]; rfl
  rw [sweep_eq hfind hlanes, hfinish]

theorem startAccess_none (hkey : Tab.find s.nextKey s.memops = none) (hrecord : kind ≠ .record) :
    startAccess kind hint scope s team next [] [] = ({ s with nextKey := s.nextKey + 1 }, []) :=
  idleOp_done (s1 := { s with
    nextKey := s.nextKey + 1
    memops := Tab.put s.nextKey { team, kind, hint, scope, accs := [], threads := [], next } s.memops }) hkey rfl rfl rfl hrecord

/-- A thread whose access is skipped goes on (R165). -/
theorem startAccess_skip (hkey : Tab.find s.nextKey s.memops = none) (hrecord : kind ≠ .record) (n : Nat) :
    startAccess kind hint scope s team next [] [n] =
      (({ s with nextKey := s.nextKey + 1 } : State).modThread { team, n } fun th => resume next (inMem s.nextKey th), []) := by
  have hdone := idleOp_done (s1 := ({ s with
    nextKey := s.nextKey + 1
    memops := Tab.put s.nextKey { team, kind, hint, scope, accs := [], threads := [n], next } s.memops } : State).modThread
      { team, n } (inMem s.nextKey)) hkey rfl rfl rfl hrecord
  refine hdone.trans (congrArg (·, []) ?_)
  exact modThread_modThread { s with nextKey := s.nextKey + 1 } { team, n } (inMem s.nextKey) (resume next)

end

/-! ### The two ends of an access that is not made -/

section
variable {s : State} {ig : IssueGroup} {t : Team} {n : Nat} {th : Thread}

/-- A thread's fault, found while its operation starts, takes it to the trap vector (R375). -/
theorem deliverFaults_enters (hf : Formed s ig t) (hone : ig.threads = [n]) (hcan : CanTrap s ig t)
    (hth : Tab.find n t.threads = some th) {e : Trap} {next : Nat} (hcode : e.code ≠ 0x17 ∧ e.code ≠ 0x18) :
    Touches s (s.deliverFaults [({ team := ig.team, n }, e, next)]) ig t fun c th' =>
      Trapped c.th th' (s.trapVec t) c.th.pc.toNat e := by
  obtain ⟨hnear, hstop, hvec, hhandler⟩ := hcan
  obtain ⟨core, hplace⟩ := Collectives.core_of_not_near hnear
  have hn : n ∈ ig.threads := by simp [hone]
  let ready : Thread → Thread := fun th => { th with wait := .ready }
  let s1 := s.modThread { team := ig.team, n } ready
  have hteam1 : s1.team? ig.team = some (t.modThread n ready) := by
    refine (team?_modThread s { team := ig.team, n } ig.team ready).trans ?_
    rw [if_pos rfl, hf.2.1, Option.map_some]
  have hth1 : Tab.find n (t.modThread n ready).threads = some (ready th) := by
    rw [Team.modThread_threads, Tab.find_modify, if_pos rfl, hth, Option.map_some]
  have hdeliver := deliver_enter s1 { team := ig.team, n } e next core _ _ hteam1 hth1 hplace hstop (hhandler n hn th hth) hvec
  have hfold : s.deliverFaults [({ team := ig.team, n }, e, next)] = s1.deliver { team := ig.team, n } e next := rfl
  rw [hfold, hdeliver, modThread_modThread, tpc_precise hcode]
  refine touches_modThread hf hone fun u hu => ?_
  obtain rfl : u = th := Option.some.inj (hu.symm.trans hth)
  exact trapped_enter _ _ _ _

/-- An instruction of one thread whose address no access reaches (R177). -/
theorem access_faults {words acc hint scope : Nat} {g : Option (BitVec 4)} {check : State → MemReq → Loc → Option Trap}
    {req : State → View → Lane MemReq} {q : MemReq} {dsts : List Nat} {i : Instr} {kind : AccKind} {e : Trap}
    (hf : Formed s ig t) (hone : ig.threads = [n]) (hcan : CanTrap s ig t) (hth : Tab.find n t.threads = some th)
    (hkey : Tab.find s.nextKey s.memops = none)
    (hexec : exec i s = withAccess words g acc check req (startAccess kind hint scope) s dsts)
    (hg : (g.map th.guard).getD true = true) (hreq : req s (viewOf ig.team t n th) = .ok q) (hrecord : kind ≠ .record)
    (hreach : s.reach (viewOf ig.team t n th) acc check q = (s, .stop (.fault e)))
    (hcode : e.code ≠ 0x17 ∧ e.code ≠ 0x18) :
    ∃ s', exec i s = .next s' ∧ Touches { s with nextKey := s.nextKey + 1 } s' ig t fun c th' =>
      Trapped c.th th' (s.trapVec t) c.th.pc.toNat e := by
  rw [hexec, withAccess_fault hf hone hth hg hreq hreach, startAccess_none hkey hrecord]
  exact ⟨_, rfl, deliverFaults_enters (s := { s with nextKey := s.nextKey + 1 }) hf hone hcan hth hcode⟩

/-- The addresses that no access reaches, for an instruction whose request names them (R177). -/
theorem unreachable_of {words acc hint wb wc : Nat} {scope : Nat} {g : Option (BitVec 4)} {o : XOp} {x : XForm}
    {check : State → MemReq → Loc → Option Trap} {req : State → View → Lane MemReq} {asked : View → MemReq}
    {dsts ds : List Nat} {i : Instr} {kind : AccKind} {guarded : Bool}
    (hexec : ∀ s, exec i s = withAccess words g acc check req (startAccess kind hint scope) s ds) (hrecord : kind ≠ .record)
    (hg : ∀ th : Thread, (guarded = true → th.guard x.g = true) → (g.map th.guard).getD true = true)
    (hva : ∀ c, (asked c).va = addrOf c o x wb wc) (hsize : ∀ c, (asked c).size = x.ty.bits / 8)
    (hreq : ∀ (s : State) (ig : IssueGroup) (t : Team) (n : Nat) (th : Thread), Formed s ig t →
      Tab.find n t.threads = some th → Usable o x 2 wb wc dsts s (viewOf ig.team t n th) →
      req s (viewOf ig.team t n th) = .ok (asked (viewOf ig.team t n th))) :
    Unreachable i o x wb wc dsts guarded := by
  have key : ∀ (bad : State → View → Prop) (code info : Nat), (code ≠ 0x17 ∧ code ≠ 0x18) →
      (∀ s c, bad s c → s.reach c acc check (asked c) = (s, .stop (.fault { code, info, addr := addrOf c o x wb wc }))) →
      ∀ s ig t, Formed s ig t → CanTrap s ig t → t.preempt = false → ig.threads.length = 1 →
        Tab.find s.nextKey s.memops = none →
        Each ig t (fun c => Usable o x 2 wb wc dsts s c ∧ (guarded = true → c.th.guard x.g = true) ∧ bad s c) →
        ∃ s', exec i s = .next s' ∧ Touches { s with nextKey := s.nextKey + 1 } s' ig t fun c th' =>
          Trapped c.th th' (s.trapVec t) c.th.pc.toNat { code, info, addr := addrOf c o x wb wc } := by
    intro bad code info hcode hreach s ig t hf hcan _ hlen hkey hall
    obtain ⟨n, hone⟩ := List.length_eq_one_iff.1 hlen
    have hn : n ∈ ig.threads := by simp [hone]
    obtain ⟨th, hth⟩ := hf.2.2.2 n hn
    obtain ⟨hu, hguard, hbad⟩ := hall n hn th hth
    obtain ⟨s', he, htouch, hrest⟩ := access_faults hf hone hcan hth hkey (hexec s) (hg th hguard) (hreq s ig t n th hf hth hu)
      hrecord (hreach s _ hbad) hcode
    refine ⟨s', he, fun m hm u hmu => ?_, hrest⟩
    obtain ⟨u', hu', htrapped⟩ := htouch m hm u hmu
    obtain rfl : m = n := by simpa [hone] using hm
    obtain rfl : u = th := Option.some.inj (hmu.symm.trans hth)
    exact ⟨u', hu', htrapped⟩
  refine ⟨key (fun _ c => 2 ^ 57 ≤ addrOf c o x wb wc) 0x06 1 (by decide) fun s c h => ?_,
    key (fun _ c => addrOf c o x wb wc < 2 ^ 57 ∧ addrOf c o x wb wc % (x.ty.bits / 8) ≠ 0) 0x04 0 (by decide)
      fun s c ⟨hlt, hmod⟩ => ?_,
    key (fun s c => addrOf c o x wb wc < 2 ^ 57 ∧ addrOf c o x wb wc % (x.ty.bits / 8) = 0 ∧
      inWindow (addrOf c o x wb wc) = true ∧ s.windowAt c.team.cluster (addrOf c o x wb wc) = none) 0x07 0 (by decide)
      fun s c ⟨hlt, hal, hwin, hat⟩ => ?_⟩
  · rw [← hva] at h ⊢
    exact reach_noncanonical h
  · rw [← hva, ← hsize] at hmod
    rw [← hva] at hlt ⊢
    exact reach_misaligned hlt hmod
  · rw [← hva, ← hsize] at hal
    rw [← hva] at hlt hwin hat ⊢
    exact reach_noForme hlt hal hwin hat

/-- An instruction of one thread whose guard is false (R165). -/
theorem access_skipped {words acc hint scope : Nat} {g : BitVec 4} {check : State → MemReq → Loc → Option Trap}
    {req : State → View → Lane MemReq} {dsts : List Nat} {i : Instr} {kind : AccKind} (halone : Alone s ig t n th)
    (hexec : exec i s = withAccess words (some g) acc check req (startAccess kind hint scope) s dsts)
    (hrecord : kind ≠ .record) (hg : th.guard g = false) :
    ∃ s', exec i s = .next s' ∧ Touches { s with nextKey := s.nextKey + 1 } s' ig t fun c th' =>
      Resumed c.th th' c.th.regs c.th.fpflags (nextPc ig words) := by
  obtain ⟨hf, hone, hth, -, -, -, hkey⟩ := halone
  rw [hexec, withAccess_skip (g := some g) hf hone hth hg, startAccess_skip hkey hrecord]
  exact ⟨_, rfl, touches_modThread (s := { s with nextKey := s.nextKey + 1 }) hf hone fun u _ =>
    resumed_of (u := inMem s.nextKey u) rfl rfl rfl⟩

end

theorem atomKind_not_record (old : Bool) (x : XForm) : atomKind old x ≠ .record := by cases old <;> exact nofun

theorem addressFaults : AddressFaults := by
  have load : ∀ (i : Instr) (x : XForm) (words : Nat), (∀ s, exec i s = loadOf words x s) →
      Unreachable i .ld x 0 0 (destOf x x.ty.regs) false := fun i x words hexec =>
    unreachable_of (fun s => (hexec s).trans (loadOf_eq words x s)) nofun (fun _ _ => rfl) (asked := loadReq x) (fun _ => rfl)
      (fun _ => rfl) fun _ _ _ _ _ hf hth hu => load_asks hf hth hu
  have store : ∀ (i : Instr) (x : XForm) (words : Nat), (∀ s, exec i s = storeOf words x s) →
      Unreachable i .st x x.ty.regs 0 [] true := fun i x words hexec =>
    unreachable_of (fun s => (hexec s).trans (storeOf_eq words x s)) nofun (fun _ h => h rfl) (asked := storeReq x) (fun _ => rfl)
      (fun _ => rfl) fun _ _ _ _ _ hf hth hu => store_asks hf hth hu
  have atom : ∀ (i : Instr) (o : XOp) (old : Bool) (x : XForm), (∀ s, exec i s = atomicOf o old x s) →
      Unreachable i o x x.ty.regs (atomWc x) (atomDests old x) true := fun i o old x hexec =>
    unreachable_of (fun s => (hexec s).trans (atomicOf_eq o old x s)) (atomKind_not_record old x) (fun _ h => h rfl)
      (asked := atomReq o x) (fun _ => rfl) (fun _ => rfl) fun _ _ _ _ _ hf hth hu => atom_asks hf hth hu
  exact ⟨fun x => load (.ld x) x x.words fun _ => rfl, fun f => load (.ldBase f) (BM.toX f) 1 fun _ => rfl,
    fun x => store (.st x) x x.words fun _ => rfl, fun f => store (.stBase f) (BM.toX f) 1 fun _ => rfl,
    fun x => ⟨atom (.atom x) .atom true x fun _ => rfl, atom (.red x) .red false x fun _ => rfl⟩⟩

theorem guardedAccessSkipped : GuardedAccessSkipped := fun x =>
  ⟨fun s _ _ _ _ halone hg => access_skipped halone (storeOf_eq x.words x s) nofun hg,
    fun s _ _ _ _ halone hg => access_skipped halone (atomicOf_eq .atom true x s) (atomKind_not_record true x) hg,
    fun s _ _ _ _ halone hg => access_skipped halone (atomicOf_eq .red false x s) (atomKind_not_record false x) hg⟩

/-- Settles O21: the operation that starts has no access, so it ends at once, and the fault found before it is delivered. -/
theorem accessChecks : Obligations.AccessChecks := ⟨addressFaults, guardedAccessSkipped⟩

end Sys2Proof.Proofs.Accesses

/-! Accesses to lines that the region slice holds (R43, R52 to R54): what an access leaves of the slice, and from these the
statement. -/

namespace Sys2Proof.Proofs.Accesses

open Sys2Proof Sys2Proof.Machine Sys2Proof.Claims Sys2Proof.Proofs.Lanes Sys2Proof.Proofs.Sweeps Sys2Proof.Proofs.Issue

/-! ### Hints -/

theorem mem_of_leastBy {α : Type} {f : α → Nat} {l : List α} {a : α} (h : leastBy f l = some a) : a ∈ l := by
  induction l generalizing a with
  | nil => cases h
  | cons b l ih =>
    rw [leastBy] at h
    cases hl : leastBy f l with
    | none =>
      rw [hl] at h
      exact Option.some.inj h ▸ List.mem_cons_self
    | some c =>
      simp only [hl] at h
      split at h
      · exact Option.some.inj h ▸ List.mem_cons_self
      · exact Option.some.inj h ▸ List.mem_cons_of_mem b (ih hl)

/-- The use that an access records in the slice (R54). -/
def usedAt (g : Region) (hint : Nat) : Nat := if hint = 1 ∨ hint = 3 then 0 else g.order + 1

/-- The copies of a slice once an access is recorded, and before an older sticky line loses its hint (R54). -/
def marked (g : Region) (ln hint : Nat) : Tab Copy := Tab.modify ln (fun c => { c with used := usedAt g hint, hint }) g.copies

/-- The other sticky lines of a line's set. -/
def stickies (g : Region) (ln hint : Nat) : Tab Copy :=
  (marked g ln hint).filter fun p => sameSet p.1 ln && p.2.hint == 2 && p.1 != ln

theorem touch_eq (g : Region) (ln hint : Nat) : g.touch ln hint =
    { g with
      order := g.order + 1
      copies := if hint = 2 ∧ 8 ≤ (stickies g ln hint).length then
          match leastBy (fun p => p.2.used) (stickies g ln hint) with
          | some v => Tab.modify v.1 (fun c => { c with hint := 0 }) (marked g ln hint)
          | none => marked g ln hint
        else marked g ln hint } := rfl

/-- At most one other line loses its hint. -/
theorem touch_spares (g : Region) (ln hint : Nat) : (g.touch ln hint).copies = marked g ln hint ∨ ∃ v, v ≠ ln ∧
    (g.touch ln hint).copies = Tab.modify v (fun c => { c with hint := 0 }) (marked g ln hint) := by
  rw [touch_eq]
  split
  · split
    next v hv =>
      have hmem := (List.mem_filter.1 (mem_of_leastBy hv)).2
      simp only [Bool.and_eq_true, bne_iff_ne] at hmem
      exact .inr ⟨v.1, hmem.2, rfl⟩
    next => exact .inl rfl
  · exact .inl rfl

/-- The slice after an access to a line that it holds: the line's copy, the other copies but for a hint, and the rest. -/
theorem touch_copies {g : Region} {ln hint : Nat} {cp : Copy} (h : Tab.find ln g.copies = some cp) :
    (∃ used, Tab.find ln (g.touch ln hint).copies = some { cp with used, hint }) ∧
      (∀ k, k ≠ ln → (Tab.find k (g.touch ln hint).copies).map (fun c => { c with hint := 0 }) =
        (Tab.find k g.copies).map fun c => { c with hint := 0 }) ∧
      { g.touch ln hint with copies := g.copies, order := g.order } = g := by
  have hline : Tab.find ln (marked g ln hint) = some { cp with used := usedAt g hint, hint } := by
    rw [marked, Tab.find_modify_same, h, Option.map_some]
  have hother : ∀ k, k ≠ ln → Tab.find k (marked g ln hint) = Tab.find k g.copies := fun k hk => Tab.find_modify_other hk _ _
  refine ⟨⟨usedAt g hint, ?_⟩, fun k hk => ?_, by rw [touch_eq]⟩
  · obtain hc | ⟨v, hv, hc⟩ := touch_spares g ln hint
    · rw [hc, hline]
    · rw [hc, Tab.find_modify_other (Ne.symm hv), hline]
  · obtain hc | ⟨v, hv, hc⟩ := touch_spares g ln hint
    · rw [hc, hother k hk]
    · rw [hc, Tab.find_modify]
      split
      · rw [Option.map_map, hother k hk]
        rfl
      · rw [hother k hk]

/-- A region in which a copy is replaced and the access recorded (R54). -/
def recopied (g : Region) (ln hint : Nat) (cp : Copy) : Region := ({ g with copies := Tab.put ln cp g.copies } : Region).touch ln hint

theorem recopied_copies (g : Region) (ln hint : Nat) (cp : Copy) :
    (∃ used, Tab.find ln (recopied g ln hint cp).copies = some { cp with used, hint }) ∧
      (∀ k, k ≠ ln → (Tab.find k (recopied g ln hint cp).copies).map (fun c => { c with hint := 0 }) =
        (Tab.find k g.copies).map fun c => { c with hint := 0 }) ∧
      { recopied g ln hint cp with copies := g.copies, order := g.order } = g := by
  obtain ⟨hline, hother, hrest⟩ := touch_copies (g := { g with copies := Tab.put ln cp g.copies }) (hint := hint)
    (Tab.find_put_same ln cp g.copies)
  exact ⟨hline, fun k hk => (hother k hk).trans (by rw [Tab.find_put_other hk]),
    (congrArg (fun u : Region => { u with copies := g.copies }) hrest :)⟩

/-! ### Accesses to a copy -/

section
variable {s : State} {ig : IssueGroup} {t : Team} {n : Nat} {th : Thread} {ln off : Nat} {cp : Copy}

/-- The RTS of a copy after a load at `time`: an owner's lease is extended (R43). -/
def readUntil (cp : Copy) (time : Nat) : Nat := if cp.owned then max cp.rts time else cp.rts

/-- A load that its copy answers (R43, R52). DEDUCED (log 36). -/
theorem performLine_load {op : MemOp} {i : Tid} {a : Access} (hkind : op.kind = .load)
    (hcopy : Tab.find ln (s.region (regionOf t.core)).copies = some cp) (hsound : lineBadRead cp.data off a.size = none)
    (hheld : cp.owned = true ∨ (s.clock t.core ≤ cp.rts ∧ op.hint ≠ 3)) (hcore : t.clockKey = t.core) :
    s.performLine op i t a ln off =
      .done ((s.modRegion (regionOf t.core) fun g =>
        recopied g ln op.hint { cp with rts := readUntil cp (max (s.clock t.clockKey) cp.wts) }).perform .load i t a
        (lineRead cp.data off a.size) none 0 (max (s.clock t.clockKey) cp.wts)) := by
  have hserved : (cp.owned || (decide (s.clock t.clockKey ≤ cp.rts) && (op.hint != 3 || op.atHome.contains ln))) = true := by
    obtain h | ⟨hle, hhint⟩ := hheld
    · rw [h, Bool.true_or]
    · simp [hcore, hle, hhint]
  have hstored : (AccKind.load == AccKind.store) = false := rfl
  simp only [State.performLine, hkind, AccKind.isRead, Bool.not_true, Bool.not_false, if_true, hcopy, hserved, hstored, hsound,
    Option.map_none, Bool.false_eq_true, if_false]
  rfl

/-- Words of a copy that hold no mark stay without one. -/
theorem lineWrite_sound {d : LineData} {off n v : Nat} (h : lineBadRead d off n = none) :
    lineWrite d off n v = writeBytes d off n v := by
  have hnone : ∀ u ∈ unitsOf off n, lineMark d u = none := List.findSome?_eq_none_iff.1 h
  have hempty : ((unitsOf off n).filter fun u => (lineMark d u).any fun a => wordCovered a off n u) = [] :=
    List.filter_eq_nil_iff.2 fun u hu => by simp [hnone u hu]
  rw [lineWrite, hempty]
  rfl

theorem lineBadWrite_sound {d : LineData} {off n : Nat} (h : lineBadRead d off n = none) : lineBadWrite d off n = none :=
  List.findSome?_eq_none_iff.2 fun u hu => by simp [List.findSome?_eq_none_iff.1 h u hu]

/-- A store to an owned line (R43, R47). -/
theorem performLine_store {op : MemOp} {i : Tid} {a : Access} (hkind : op.kind = .store) (hhint : op.hint ≠ 3)
    (hhome : op.atHome = []) (hcopy : Tab.find ln (s.region (regionOf t.core)).copies = some cp) (howned : cp.owned = true)
    (hsound : lineBadRead cp.data off a.size = none) :
    s.performLine op i t a ln off =
      .done ((s.modRegion (regionOf t.core) fun g => recopied g ln op.hint
        { cp with
          data := writeBytes cp.data off a.size a.value, dirty := true, wts := max (s.clock t.clockKey) (cp.rts + 1)
          rts := max (s.clock t.clockKey) (cp.rts + 1) }).perform .store i t a (lineRead cp.data off a.size) (some a.value) 0
            (max (s.clock t.clockKey) (cp.rts + 1))) := by
  have hsite : op.atHomeSite ln = false := by
    have hh : (op.hint == 3) = false := by simpa using hhint
    simp [MemOp.atHomeSite, hkind, hh]
  have hserved : (op.atHome.contains ln && s.lineState ln == .h && !(s.lineAt ln).hostHeld) = false := by
    rw [hhome]
    rfl
  have hstored : (AccKind.store == AccKind.store) = true := rfl
  rw [← lineWrite_sound (v := a.value) hsound]
  simp only [State.performLine, hkind, AccKind.isRead, Bool.not_false, Bool.not_true, Bool.false_eq_true, if_false, hserved,
    hsite, hcopy, howned, if_true, hstored, lineBadWrite_sound hsound, Option.map_none, AccKind.write, Option.getD_some]
  rfl

/-- The location of an access to a line. -/
theorem located {acc va size : Nat} {c : View} (h : LineSite s c acc va size ln off) :
    ∃ l, s.translate (s.threadAsker c.id c.team acc) va = (s, .ok l) ∧
      ((∃ pa, l = .device pa ∧ ln = deviceLine pa ∧ off = pa % 128) ∨ ∃ pa, l = .host pa ∧ ln = hostLine pa ∧ off = pa % 128) := by
  obtain ⟨-, -, -, pa, hoff, ⟨hln, htr⟩ | ⟨hln, htr⟩⟩ := h
  · exact ⟨_, htr, .inl ⟨pa, rfl, hln, hoff⟩⟩
  · exact ⟨_, htr, .inr ⟨pa, rfl, hln, hoff⟩⟩

/-- An access to a line is tried at that line. -/
theorem attempt_line {op : MemOp} {a : Access} {key : Nat} (hnear : t.near = false)
    (hl : (∃ pa, a.loc = .device pa ∧ ln = deviceLine pa ∧ off = pa % 128) ∨
      ∃ pa, a.loc = .host pa ∧ ln = hostLine pa ∧ off = pa % 128) :
    s.attempt key op t a = s.performLine op { team := op.team, n := a.tid } t a ln off := by
  obtain ⟨pa, hloc, rfl, rfl⟩ | ⟨pa, hloc, rfl, rfl⟩ := hl
  · simp only [State.attempt, hnear, Bool.false_eq_true, if_false, hloc]
  · simp only [State.attempt, hnear, Bool.false_eq_true, if_false, hloc]

theorem clockKey_core (hnear : t.near = false) : t.clockKey = t.core := by
  obtain ⟨core, hplace⟩ := Collectives.core_of_not_near hnear
  simp only [Team.clockKey, Team.core, hplace]

/-- An instruction of one thread whose access is performed at its region slice, of which it leaves `regions`. -/
theorem accesses_line {words acc hint scope old flags time : Nat} {new : Option Nat} {g : Option (BitVec 4)}
    {check : State → MemReq → Loc → Option Trap} {req : State → View → Lane MemReq} {q : MemReq} {dsts : List Nat} {i : Instr}
    {kind : AccKind} {regions : Tab Region} {p : View → Thread → Prop} (halone : Alone s ig t n th)
    (hexec : exec i s = withAccess words g acc check req (startAccess kind hint scope) s dsts)
    (hg : (g.map th.guard).getD true = true) (hreq : req s (viewOf ig.team t n th) = .ok q)
    (hobs : s.observed { team := ig.team, n } q.srcs dsts = s) (hsite : LineSite s (viewOf ig.team t n th) acc q.va q.size ln off)
    (hcheck : ∀ pa, check s q (.device pa) = none ∧ check s q (.host pa) = none) (hrecord : kind ≠ .record)
    (hatt : ∀ l, (opened s (opOf kind hint scope ig.team (nextPc ig words) n q l) n).performLine
      (opOf kind hint scope ig.team (nextPc ig words) n q l) { team := ig.team, n } (t.modThread n (inMem s.nextKey))
      (accessOf n q l) ln off = .done (({ opened s (opOf kind hint scope ig.team (nextPc ig words) n q l) n with
        regions := regions } : State).perform kind { team := ig.team, n } (t.modThread n (inMem s.nextKey)) (accessOf n q l)
          old new flags time))
    (hp : ∀ key l, p (viewOf ig.team t n th) (resume (nextPc ig words) ((inMem key th).landed kind (accessOf n q l) old new
      flags))) :
    ∃ s' clocks, exec i s = .next s' ∧ Raised s clocks t.core ∧
      Touches { s with regions := regions, clocks, nextKey := s.nextKey + 1 } s' ig t p := by
  obtain ⟨hf, hone, hth, hnear, -, -, hkey⟩ := halone
  obtain ⟨l, htr, hl⟩ := located hsite
  obtain ⟨hva, hal, hwin, -⟩ := hsite
  have hchecked : check s q l = none := by
    obtain ⟨pa, rfl, -⟩ | ⟨pa, rfl, -⟩ := hl
    · exact (hcheck pa).1
    · exact (hcheck pa).2
  have hnear0 : (t.modThread n (inMem s.nextKey)).near = false := hnear
  have hstart := startAccess_done (hint := hint) (scope := scope) hf.2.1 hkey hrecord
    ((attempt_line (a := accessOf n q l) (key := s.nextKey) hnear0 hl).trans (hatt l)) rfl
  rw [hexec, withAccess_go hf hone hth hg hreq (reach_line hva hal hwin htr hchecked) hobs, hstart]
  let s1 : State := { s with regions := regions, clocks := (s.raise t.clockKey time).clocks, nextKey := s.nextKey + 1 }
  have hf1 : Formed s1 ig t := hf
  let landed : Thread → Thread := fun th => th.landed kind (accessOf n q l) old new flags
  refine ⟨((s1.modThread { team := ig.team, n } (inMem s.nextKey)).modThread { team := ig.team, n } landed).modThread
    { team := ig.team, n } (resume (nextPc ig words)), s1.clocks, rfl, clockKey_core hnear ▸ ?_, ?_⟩
  · exact ⟨fun j hj => (clock_raise s _ _ j).trans (if_neg hj), clock_le_raise s _ _ _⟩
  · rw [modThread_modThread, modThread_modThread]
    refine touches_modThread hf1 hone fun u hu => ?_
    obtain rfl : u = th := Option.some.inj (hu.symm.trans hth)
    exact hp s.nextKey l

end

theorem loadFromRegionCopy : LoadFromRegionCopy := by
  intro x s ig t n th ln off cp halone c hu hsite hcopy hsound hheld
  obtain ⟨hf, -, hth, hnear, -⟩ := id halone
  have hhint : cp.owned = true ∨ (s.clock t.core ≤ cp.rts ∧ x.h.toNat ≠ 3) :=
    hheld.imp id fun ⟨hle, hne⟩ => ⟨hle, fun e => hne (BitVec.eq_of_toNat_eq e)⟩
  let r := regionOf t.core
  let g := recopied (s.region r) ln x.h.toNat { cp with rts := readUntil cp (max (s.clock t.clockKey) cp.wts) }
  obtain ⟨⟨used, hline⟩, hother, hrest⟩ := recopied_copies (s.region r) ln x.h.toNat
    { cp with rts := readUntil cp (max (s.clock t.clockKey) cp.wts) }
  obtain ⟨s', clocks, he, hraised, htouch⟩ := accesses_line (i := .ld x) (req := loadAsk x) (q := loadReq x c) (kind := .load)
    (old := lineRead cp.data off (tyBytes x.ty)) (new := none) (flags := 0) (time := max (s.clock t.clockKey) cp.wts)
    (regions := Tab.put r g s.regions)
    (p := fun c th' => Resumed c.th th' (put x c (loadFill x.ty (lineRead cp.data off (x.ty.bits / 8)))).regs c.th.fpflags
      (nextPc ig x.words)) halone (loadOf_eq x.words x s) rfl (load_asks hf hth hu) (observed_usable hf hth hu) hsite
    (fun _ => ⟨rfl, rfl⟩) (by decide)
    (fun l => performLine_load (s := opened s (opOf .load x.h.toNat 0 ig.team (nextPc ig x.words) n (loadReq x c) l) n)
      (op := opOf .load x.h.toNat 0 ig.team (nextPc ig x.words) n (loadReq x c) l) (i := { team := ig.team, n })
      (t := t.modThread n (inMem s.nextKey)) (a := accessOf n (loadReq x c) l) rfl hcopy hsound hhint (clockKey_core hnear))
    fun _ _ => resumed_load
  exact ⟨s', { cp with rts := readUntil cp (max (s.clock t.clockKey) cp.wts), used, hint := x.h.toNat }, he, rfl, clocks, g, hraised, hline, hother, hrest, htouch⟩

theorem storeToOwnedLine : StoreToOwnedLine := by
  intro x s ig t n th ln off cp halone c w hu hg hhint hsite hcopy howned hsound
  obtain ⟨hf, -, hth, hnear, -⟩ := id halone
  let r := regionOf t.core
  let time := max (s.clock t.clockKey) (cp.rts + 1)
  let cp' : Copy :=
    { cp with data := writeBytes cp.data off (tyBytes x.ty) (storeReq x c).value, dirty := true, wts := time, rts := time }
  let g := recopied (s.region r) ln x.h.toNat cp'
  obtain ⟨⟨used, hline⟩, hother, hrest⟩ := recopied_copies (s.region r) ln x.h.toNat cp'
  obtain ⟨s', clocks, he, hraised, htouch⟩ := accesses_line (i := .st x) (req := storeAsk x) (q := storeReq x c) (kind := .store)
    (old := lineRead cp.data off (tyBytes x.ty)) (new := some (storeReq x c).value) (flags := 0) (time := time)
    (regions := Tab.put r g s.regions) (p := fun c th' => Resumed c.th th' c.th.regs c.th.fpflags (nextPc ig x.words)) halone
    (storeOf_eq x.words x s) hg (store_asks hf hth hu) (observed_usable hf hth hu) hsite (fun _ => ⟨rfl, rfl⟩) (by decide)
    (fun l => performLine_store (s := opened s (opOf .store x.h.toNat 0 ig.team (nextPc ig x.words) n (storeReq x c) l) n)
      (op := opOf .store x.h.toNat 0 ig.team (nextPc ig x.words) n (storeReq x c) l) (i := { team := ig.team, n })
      (t := t.modThread n (inMem s.nextKey)) (a := accessOf n (storeReq x c) l) rfl
      (fun e => hhint (BitVec.eq_of_toNat_eq e)) rfl hcopy howned hsound)
    fun _ _ => resumed_write (.inl rfl)
  exact ⟨s', { cp' with used, hint := x.h.toNat }, he, howned, rfl, clockKey_core hnear ▸ rfl, rfl,
    fun a => getD_writeBytes cp.data off (tyBytes x.ty) (storeReq x c).value a, clocks, g, hraised, hline, hother, hrest,
    htouch⟩

/-- Settles O19: the access is performed at the slice as it is tried, and of the other copies no more than a hint changes. -/
theorem copiesOfLines : Obligations.CopiesOfLines := ⟨loadFromRegionCopy, storeToOwnedLine⟩

end Sys2Proof.Proofs.Accesses

/-! A load that misses (R46, R52, R53): the work of a region slice that makes room for a line, the request that it sends, and
from these the statement. -/

namespace Sys2Proof.Proofs.Slices

open Sys2Proof Sys2Proof.Machine Sys2Proof.Claims

/-! ### What a slice does to make room -/

/-- A slice has given up copies, by messages if need be; requests outstanding stay, and so does everything else. -/
def GivesUp (s s' : State) : Prop :=
  { s' with regions := s.regions, net := s.net, nextTag := s.nextTag, errors := s.errors } = s ∧ s.nextTag ≤ s'.nextTag ∧
    (∀ r, (s'.region r).asked = (s.region r).asked) ∧
    ∀ r ln c, Tab.find ln (s'.region r).copies = some c → Tab.find ln (s.region r).copies = some c

theorem givesUp_refl (s : State) : GivesUp s s := ⟨rfl, le_refl _, fun _ => rfl, fun _ _ _ h => h⟩

theorem GivesUp.trans {s s' s'' : State} (h : GivesUp s s') (h' : GivesUp s' s'') : GivesUp s s'' := by
  obtain ⟨hrest, htag, hasked, hcopies⟩ := h
  obtain ⟨hrest', htag', hasked', hcopies'⟩ := h'
  refine ⟨?_, Nat.le_trans htag htag', fun r => (hasked' r).trans (hasked r), fun r ln c hc => hcopies r ln c (hcopies' r ln c hc)⟩
  exact (congrArg (fun u : State => { u with regions := s.regions, net := s.net, nextTag := s.nextTag, errors := s.errors })
    hrest' :).trans hrest

theorem givesUp_foldl {α : Type} {F : State → α → State} (hF : ∀ s a, GivesUp s (F s a)) (l : List α) (s : State) :
    GivesUp s (l.foldl F s) := by
  induction l generalizing s with
  | nil => exact givesUp_refl s
  | cons a l ih => exact (hF s a).trans (ih _)

/-- A region changed in its copies, of which some may leave, and outside its requests. -/
theorem givesUp_modRegion (s : State) (r : Nat) {f : Region → Region} (hasked : (f (s.region r)).asked = (s.region r).asked)
    (hcopies : ∀ ln c, Tab.find ln (f (s.region r)).copies = some c → Tab.find ln (s.region r).copies = some c) :
    GivesUp s (s.modRegion r f) := by
  refine ⟨rfl, le_refl _, fun k => ?_, fun k ln c => ?_⟩
  · rw [region_modRegion]
    split
    next h => rw [hasked, h]
    next => rfl
  · rw [region_modRegion]
    split
    next h => rw [h]; exact hcopies ln c
    next => exact id

theorem find_del_some {α : Type} {k j : Nat} {t : Tab α} {v : α} (h : Tab.find j (Tab.del k t) = some v) : Tab.find j t = some v := by
  rw [Tab.find_del] at h
  split at h
  · cases h
  · exact h

theorem givesUp_logLine (s : State) (d : LineData) : GivesUp s (s.logLine d) := by
  unfold State.logLine
  split
  · exact ⟨rfl, le_refl _, fun _ => rfl, fun _ _ _ h => h⟩
  · exact givesUp_refl s

theorem givesUp_send (s : State) (m : Msg) : GivesUp s (s.send m) := ⟨rfl, Nat.le_succ _, fun _ => rfl, fun _ _ _ h => h⟩

theorem givesUp_dropCopy (s : State) (r ln : Nat) : GivesUp s (s.dropCopy r ln) := by
  unfold State.dropCopy
  dsimp only
  split
  · exact givesUp_refl s
  · split
    · exact givesUp_refl s
    · split
      · exact ((givesUp_logLine s _).trans (givesUp_modRegion _ r rfl fun _ _ => find_del_some)).trans (givesUp_send _ _)
      · exact givesUp_modRegion s r rfl fun _ _ => find_del_some

theorem givesUp_fitSlice (s : State) (core : Nat) : GivesUp s (s.fitSlice core) := by
  refine givesUp_foldl (fun s _ => ?_) _ s
  split
  · exact givesUp_dropCopy s _ _
  · exact givesUp_refl s

theorem givesUp_regionRoom (s : State) (r ln : Nat) : GivesUp s (s.regionRoom r ln).1 := by
  have keep : ∀ s : State, GivesUp s (s.modRegion r fun g => { g with ways := g.ways ++ [ln] }) := fun s =>
    givesUp_modRegion s r rfl fun _ _ h => h
  unfold State.regionRoom
  dsimp only
  split
  · exact givesUp_refl s
  · split
    · exact (givesUp_fitSlice s _).trans (keep _)
    · split
      · exact ((givesUp_fitSlice s _).trans (givesUp_dropCopy _ _ _)).trans (keep _)
      · exact givesUp_fitSlice s _

/-! ### What it does not look at -/

/-- A state with other teams and operations. -/
def withOps (teams : Tab Team) (memops : Tab MemOp) (key : Nat) (s : State) : State :=
  { s with teams := teams, memops := memops, nextKey := key }

section
variable (teams : Tab Team) (memops : Tab MemOp) (key : Nat)

theorem dropCopy_withOps (s : State) (r ln : Nat) :
    (withOps teams memops key s).dropCopy r ln = withOps teams memops key (s.dropCopy r ln) := by
  have hlog : ∀ d, (withOps teams memops key s).logLine d = withOps teams memops key (s.logLine d) := fun d => by
    unfold State.logLine
    split <;> rfl
  unfold State.dropCopy
  dsimp only
  rw [show (withOps teams memops key s).region r = s.region r from rfl]
  split
  · rfl
  · split
    · rfl
    · split
      · rw [hlog]
        rfl
      · rfl

theorem fitSlice_withOps (s : State) (core : Nat) :
    (withOps teams memops key s).fitSlice core = withOps teams memops key (s.fitSlice core) := by
  unfold State.fitSlice
  refine List.foldl_hom (withOps teams memops key) (fun s _ => ?_)
  rw [show (withOps teams memops key s).region (regionOf core) = s.region (regionOf core) from rfl]
  split
  · exact dropCopy_withOps teams memops key s _ _
  · rfl

theorem regionRoom_withOps (s : State) (r ln : Nat) :
    ((withOps teams memops key s).regionRoom r ln).2 = (s.regionRoom r ln).2 := by
  unfold State.regionRoom
  dsimp only
  rw [fitSlice_withOps]
  rw [show (withOps teams memops key s).region r = s.region r from rfl]
  split
  · rfl
  · rw [show ∀ u, (withOps teams memops key u).region r = u.region r from fun _ => rfl,
      show ∀ u c, (withOps teams memops key u).sliceLines c = u.sliceLines c from fun _ _ => rfl]
    split
    · rfl
    · split <;> rfl

end

/-! ### The request -/

/-- A request goes out when none is outstanding and its answer has a way (R46, R52). -/
theorem ask_sends {s : State} {key ln : Nat} {op : MemOp} {t : Team} {kind : ReqKind}
    (hasked : Tab.has (s.region (regionOf t.core)).asked ln = false)
    (hroom : kind.keeps = true → (s.regionRoom (regionOf t.core) ln).2 = true) :
    ∃ s1 q, GivesUp s s1 ∧ q.kind = kind ∧ q.line = ln ∧ q.region = regionOf t.core ∧ q.pts = s.clock t.clockKey ∧
      s.ask key op t ln kind =
        (s1.modRegion (regionOf t.core) fun g => { g with asked := Tab.put ln s1.nextTag g.asked }).send
          { kind := .req q, line := ln, region := regionOf t.core, tag := s1.nextTag, op := key } := by
  obtain ⟨p, hp, hgives, htrue⟩ : ∃ p : State × Bool, (if Tab.has (s.region (regionOf t.core)).asked ln || !kind.keeps then (s, true)
      else s.regionRoom (regionOf t.core) ln) = p ∧ GivesUp s p.1 ∧ p.2 = true := by
    rw [hasked, Bool.false_or]
    cases hkeeps : kind.keeps with
    | false => exact ⟨_, rfl, givesUp_refl s, rfl⟩
    | true => exact ⟨_, rfl, givesUp_regionRoom s _ ln, hroom hkeeps⟩
  obtain ⟨hrest, -, hsame, -⟩ := id hgives
  have hclock : p.1.clock t.clockKey = s.clock t.clockKey := (congrArg (State.clock · t.clockKey) hrest :)
  have hask : Tab.has (p.1.region (regionOf t.core)).asked ln = false := by rw [hsame]; exact hasked
  refine ⟨p.1, { kind, line := ln, region := regionOf t.core, tag := p.1.nextTag, pts := p.1.clock t.clockKey
                 wts := if kind == .gets true then none else (Tab.find ln (p.1.region (regionOf t.core)).copies).map Copy.wts
                 lease := p.1.lease (p.1.ctxOf t), hint := op.hint, op := key }, hgives, rfl, rfl, rfl, hclock, ?_⟩
  simp only [State.ask, hp, hask, htrue, Bool.not_true, Bool.or_self, Bool.false_eq_true, if_false]
  rfl

end Sys2Proof.Proofs.Slices

namespace Sys2Proof.Proofs.Accesses

open Sys2Proof Sys2Proof.Machine Sys2Proof.Claims Sys2Proof.Proofs.Lanes Sys2Proof.Proofs.Sweeps Sys2Proof.Proofs.Issue
  Sys2Proof.Proofs.Slices

/-! ### An operation that waits for a line -/

theorem sweepLanes_need {s : State} {key ln : Nat} {op : MemOp} {a : Access} {t : Team} {kind : ReqKind}
    (hfind : Tab.find key s.memops = some op) (haccs : op.accs = [a]) (hteam : s.team? op.team = some t)
    (hatt : (s.popAccess key).attempt key op t a = .need ln kind) : s.sweepLanes key 1 = (s.ask key op t ln kind, []) := by
  simp only [State.sweepLanes, hfind, haccs, hteam, bundle_single haccs, List.isEmpty_nil, if_true, hatt]

/-- An operation of one thread whose access waits stays, and its thread waits with it (R297). -/
theorem finishOp_waits {s : State} {key n : Nat} {op : MemOp} {a : Access} (hfind : Tab.find key s.memops = some op)
    (haccs : op.accs = [a]) (htid : a.tid = n) (hthreads : op.threads = [n]) (hkind : op.kind ≠ .record) :
    ∃ memops, s.finishOp key = { s with memops := memops } := by
  have hfind1 : Tab.find key (Tab.put key { op with atHome := [] } s.memops) = some { op with atHome := [] } :=
    Tab.find_put_same _ _ _
  have howes : ∀ u : State, u.owes { op with atHome := [] } n = true := fun u => by
    simp [State.owes, haccs, htid]
  have hnone : ∀ u : State, op.threads.filter (fun n => !u.owes { op with atHome := [] } n) = [] := fun u =>
    List.filter_eq_nil_iff.2 fun m hm => by
      obtain rfl : m = n := by simpa [hthreads] using hm
      rw [howes u]
      decide
  have hnot : (op.kind == .record) = false := by simpa using hkind
  have hstay : ∀ u : State, u.threadsGoOn { op with atHome := [] } [] = u := fun u => by
    simp only [State.threadsGoOn, hnot, Bool.false_eq_true, if_false, List.foldl_nil]
  rw [State.finishOp, hfind]
  simp only [haccs, List.isEmpty_cons, Bool.false_and, Bool.false_eq_true, if_false]
  rw [← haccs, State.releaseDone, hfind1]
  dsimp only
  split
  · rw [hnone, hstay]
    exact ⟨_, rfl⟩
  · exact ⟨_, rfl⟩

/-- An access that asks for its line: its operation stays, and the slice sends the request. -/
theorem startAccess_need {s s2 : State} {t : Team} {team n hint scope next ln : Nat} {kind : AccKind} {q : MemReq} {l : Loc}
    {want : ReqKind} (hteam : s.team? team = some t) (hrecord : kind ≠ .record)
    (hatt : (opened s (opOf kind hint scope team next n q l) n).attempt s.nextKey (opOf kind hint scope team next n q l)
      (t.modThread n (inMem s.nextKey)) (accessOf n q l) = .need ln want)
    (hask : (started s (opOf kind hint scope team next n q l) n).ask s.nextKey (opOf kind hint scope team next n q l)
      (t.modThread n (inMem s.nextKey)) ln want = s2)
    (hmemops : s2.memops = (started s (opOf kind hint scope team next n q l) n).memops) :
    ∃ memops, startAccess kind hint scope s team next [(n, q, l)] [] = ({ s2 with memops := memops }, []) := by
  have hsweep := sweepLanes_need (find_started (opOf kind hint scope team next n q l)) rfl (team?_started hteam)
    (by rw [popAccess_started rfl]; exact hatt)
  rw [hask] at hsweep
  have hfind2 : Tab.find s.nextKey s2.memops = some (opOf kind hint scope team next n q l) := by
    rw [hmemops]
    exact find_started _
  obtain ⟨memops, hfinish⟩ := finishOp_waits (n := n) hfind2 rfl rfl rfl hrecord
  exact ⟨memops, (sweep_eq (find_started _) hsweep).trans (congrArg (·, []) hfinish)⟩

/-- A load of a line that the region slice does not hold (R43, R53). -/
theorem performLine_miss {s : State} {op : MemOp} {i : Tid} {t : Team} {a : Access} {ln off : Nat} (hkind : op.kind = .load)
    (hcopy : Tab.find ln (s.region (regionOf t.core)).copies = none) :
    s.performLine op i t a ln off = .need ln (.gets (op.hint == 3)) := by
  simp only [State.performLine, hkind, AccKind.isRead, Bool.not_true, Bool.not_false, if_true, hcopy]

/-- Settles O20: the access tried finds no copy, so the slice asks, and the operation stays until the answer. -/
theorem loadMissAsksHome : Obligations.LoadMissAsksHome := by
  intro x s ig t n th ln off halone c r hu hsite hcopy hasked hroom
  obtain ⟨hf, hone, hth, hnear, -, -, hkey⟩ := id halone
  obtain ⟨l, htr, hl⟩ := located hsite
  obtain ⟨hva, hal, hwin, -⟩ := id hsite
  let op := opOf .load x.h.toNat 0 ig.team (nextPc ig x.words) n (loadReq x c) l
  let t0 := t.modThread n (inMem s.nextKey)
  let s0 := started s op n
  have hchecked : s.destCheck false (loadReq x c) l = none := by
    obtain ⟨pa, rfl, -⟩ | ⟨pa, rfl, -⟩ := hl <;> rfl
  have hthree : (x.h.toNat == 3) = (x.h == 3) := by
    rw [Bool.eq_iff_iff, beq_iff_eq, beq_iff_eq]
    exact ⟨fun h => BitVec.eq_of_toNat_eq h, fun h => by rw [h]; rfl⟩
  have hatt : (opened s op n).attempt s.nextKey op t0 (accessOf n (loadReq x c) l) = .need ln (.gets (x.h == 3)) := by
    refine (attempt_line (t := t0) (a := accessOf n (loadReq x c) l) hnear hl).trans ?_
    rw [← hthree]
    exact performLine_miss rfl hcopy
  obtain ⟨s1, q, hgives, hqkind, hqline, hqregion, hqpts, hask⟩ := ask_sends (s := s0) (key := s.nextKey) (op := op) (t := t0)
    (kind := .gets (x.h == 3)) hasked fun hkeeps => by
      have hne : x.h ≠ 3 := fun e => by
        rw [e] at hkeeps
        cases hkeeps
      have := regionRoom_withOps s0.teams s0.memops s0.nextKey s r ln
      exact this.trans (hroom hne)
  obtain ⟨hrest, htag, -, -⟩ := hgives
  obtain ⟨memops, hstart⟩ := startAccess_need (kind := .load) (hint := x.h.toNat) (scope := 0) hf.2.1 (by decide) hatt hask
    (congrArg State.memops hrest :)
  let s2 := (s1.modRegion (regionOf t0.core) fun g => { g with asked := Tab.put ln s1.nextTag g.asked }).send
    { kind := .req q, line := ln, region := regionOf t0.core, tag := s1.nextTag, op := s.nextKey }
  refine ⟨{ s2 with memops := memops }, q, s1.nextTag, ?_, Tab.find_put_same _ _ _, htag, hqkind, hqline, hqregion,
    hqpts.trans (congrArg s.clock (clockKey_core hnear)), ?_, (congrArg State.hbm hrest :), (congrArg State.hostMem hrest :),
    (congrArg State.homes hrest :), (congrArg State.formes hrest :)⟩
  · have hobs : s.observed { team := ig.team, n } (loadReq x c).srcs (regSpan x.d.toNat x.ty.regs) = s :=
      observed_usable hf hth hu
    show withAccess _ _ _ _ (loadAsk x) _ s _ = _
    rw [withAccess_go hf hone hth rfl (load_asks hf hth hu) (reach_line hva hal hwin htr hchecked) hobs, hstart]
    rfl
  · have hthread : s0.thread? { team := ig.team, n } = some (inMem s.nextKey th) := by
      refine (thread?_modThread_same _ { team := ig.team, n } _).trans ?_
      exact congrArg (Option.map _) (thread?_of_find hf.2.1 hth)
    have hsame : s1.thread? { team := ig.team, n } = s0.thread? { team := ig.team, n } :=
      (congrArg (State.thread? · { team := ig.team, n }) hrest :)
    exact congrArg (Option.map fun u : Thread => (u.wait, u.regs, u.pc)) (hsame.trans hthread)

end Sys2Proof.Proofs.Accesses

/-! Full/empty words (R96, R97, R182, R183): the checks of a word, its bit set while no thread waits for it, and from these the
statement. -/

namespace Sys2Proof.Proofs.Accesses

open Sys2Proof Sys2Proof.Machine Sys2Proof.Claims Sys2Proof.Proofs.Lanes Sys2Proof.Proofs.Sweeps Sys2Proof.Proofs.Issue
  Sys2Proof.Proofs.Window

/-! ### Words of the forme window -/

section
variable {s : State} {ig : IssueGroup} {t : Team} {n : Nat} {th : Thread} {k off : Nat} {f : Forme}

theorem windowCheck_ok {c : View} {va size : Nat} (hva : va < 2 ^ 57) (hal : va % size = 0) (hwin : inWindow va = true)
    (hat : s.windowAt c.team.cluster va = some (k, off)) : s.windowCheck c va size = .ok (k, off) := by
  simp only [State.windowCheck, if_neg (Nat.not_le.2 hva), hal, ne_eq, not_true_eq_false, if_false, hwin, if_true, hat]

/-- A word that nothing stops an access to. -/
theorem wordOf_ok {o : XOp} {x : XForm} {wb : Nat} {dsts : List Nat} {whole : Bool} (hf : Formed s ig t)
    (hth : Tab.find n t.threads = some th) (hu : Usable o x 2 wb 0 dsts s (viewOf ig.team t n th))
    (hsite : FormeSite s (viewOf ig.team t n th) (addrOf (viewOf ig.team t n th) o x wb 0) 4 whole k off f) :
    s.wordOf o x (viewOf ig.team t n th) wb dsts whole =
      .ok (s, regsOf (viewOf ig.team t n th) o x 2 wb 0, k, off) := by
  obtain ⟨hva, hal, hwin, hat, hcheck, -⟩ := hsite
  have hclaim := claimRegs_usable (agrees_first hf hth) hu
  have hwindow : s.windowCheck (viewOf ig.team t n th)
    ((viewOf ig.team t n th).addr x (regsOf (viewOf ig.team t n th) o x 2 wb 0)) 4 = .ok (k, off) := windowCheck_ok hva hal hwin hat
  have hform : s.formeCheck k off 4 ((viewOf ig.team t n th).addr x (regsOf (viewOf ig.team t n th) o x 2 wb 0)) whole =
    .ok () := hcheck
  simp only [State.wordOf, hu.1, operands_of_usable hu, hclaim, hwindow, hform, bind, Except.bind]
  rfl

theorem forme_of_find (hfind : Tab.find k s.formes = some f) : s.forme k = f := by rw [State.forme, hfind, Option.getD_some]

theorem modForme_const (hfind : Tab.find k s.formes = some f) (g : Forme) :
    s.modForme k (fun _ => g) = { s with formes := Tab.put k g s.formes } := by
  rw [State.modForme, Tab.modify, hfind]

/-- A word for which no thread waits is set (R97). -/
theorem setFull_quiet (hfind : Tab.find k s.formes = some f) (hquiet : ∀ w ∈ f.waiters, w.off ≠ off) (b : Bool) :
    s.setFull k off b = { s with formes := Tab.put k { f with full := Tab.set false (off / 4) b f.full } s.formes } := by
  have hmod : s.modForme k (fun f => { f with full := Tab.set false (off / 4) b f.full }) =
      { s with formes := Tab.put k { f with full := Tab.set false (off / 4) b f.full } s.formes } := by
    rw [State.modForme, Tab.modify, hfind]
  have hserve : ∀ fuel (u : State), (u.forme k).waiters = f.waiters → u.serveWord k off fuel = u := by
    intro fuel u hu
    cases fuel with
    | zero => rfl
    | succ fuel =>
      have hnone : f.waiters.find? (fun w => w.off == off && w.full == (u.forme k).isFull off) = none :=
        List.find?_eq_none.2 fun w hw => by simp [hquiet w hw]
      simp only [State.serveWord, hu, hnone]
  rw [State.setFull, hmod]
  refine hserve _ _ ?_
  rw [forme_of_find (Tab.find_put_same _ _ _)]

/-- A word set in a forme just replaced. -/
theorem setFull_put {g : Forme} {formes : Tab Forme} (hput : s.formes = Tab.put k g formes)
    (hquiet : ∀ w ∈ g.waiters, w.off ≠ off) (b : Bool) :
    s.setFull k off b = { s with formes := Tab.put k { g with full := Tab.set false (off / 4) b g.full } formes } := by
  rw [setFull_quiet (by rw [hput, Tab.find_put_same]) hquiet, hput, put_put]

theorem isFull_set (f : Forme) (off : Nat) (b : Bool) (a : Nat) :
    ({ f with full := Tab.set false (off / 4) b f.full } : Forme).isFull a = if a / 4 = off / 4 then b else f.isFull a := by
  rw [Forme.isFull, Tab.getD_set]
  rfl

theorem isFull_same (f : Forme) {off : Nat} {b : Bool} (h : f.isFull off = b) (a : Nat) :
    f.isFull a = if a / 4 = off / 4 then b else f.isFull a := by
  split
  next he => rw [← h, Forme.isFull, he]; rfl
  next => rfl

/-! ### One thread's part -/

/-- An instruction of one thread, as the part of that thread. -/
theorem execLanes_single {words : Nat} {g : Option (BitVec 4)} {lane : Nat → LaneFn} {s1 : State} {pc : Nat}
    (hf : Formed s ig t) (hone : ig.threads = [n]) (hth : Tab.find n t.threads = some th)
    (hg : (g.map th.guard).getD true = true) (hlane : lane (nextPc ig words) s (viewOf ig.team t n th) = .ok (s1, pc)) :
    execLanes words g lane s = .next (s1.modThread { team := ig.team, n } fun th => { th with pc := BitVec.ofNat 64 pc }) := by
  rw [execLanes_next words g lane s ig hf.1, runLanes, hone, List.foldl_cons, List.foldl_nil]
  exact congrArg Host.Outcome.next (runLane_ok _ g _ s _ _ s1 pc (view_eq s { team := ig.team, n } t th hf.2.1 hth) hg hlane)

/-- What an absent line that parks a thread makes of it: it has issued its instruction (R100, R128). -/
def noted (dsts : List Nat) (th : Thread) : Thread :=
  match th.wait with
  | .presence .. => th.issues dsts
  | _ => th

theorem noted_nil (th : Thread) : noted [] th = th := by
  unfold noted
  split <;> rfl

/-- An instruction of one thread that reads a forme. -/
theorem execReads_single {words : Nat} {dsts : List Nat} {lane : Nat → LaneFn} {s1 : State} {pc : Nat} (hf : Formed s ig t)
    (hone : ig.threads = [n]) (hth : Tab.find n t.threads = some th)
    (hlane : lane (nextPc ig words) s (viewOf ig.team t n th) = .ok (s1, pc)) :
    execReads words dsts lane s =
      .next (s1.modThread { team := ig.team, n } fun th => noted dsts { th with pc := BitVec.ofNat 64 pc }) := by
  have hrun := execLanes_single (words := words) (g := none) hf hone hth rfl hlane
  rw [execLanes_next words none lane s ig hf.1, hone] at hrun
  have hrun' : runLanes (ig.pc + 4 * words) none (lane (ig.pc + 4 * words)) s ig.team [n] = _ := Host.Outcome.next.inj hrun
  simp only [execReads, hf.1, hone, State.noteParked, List.foldl_cons, List.foldl_nil]
  rw [hrun']
  exact congrArg Host.Outcome.next (modThread_modThread s1 { team := ig.team, n } _ (noted dsts))

/-- What a word's access leaves of the machine: its forme and its agent's clock. -/
theorem wordBecame_of {f' : Forme} {full : Bool} {v : Option Nat} {time : Nat} {g : Thread → Thread}
    {p : View → Thread → Prop} (hf : Formed s ig t) (hone : ig.threads = [n])
    (hrest : { f' with data := f.data, full := f.full, wts := f.wts, rts := f.rts } = f)
    (hfull : ∀ a, f'.isFull a = if a / 4 = off / 4 then full else f.isFull a)
    (hdata : match v with | some v => Stored f.data f'.data off 4 v | none => f'.data = f.data)
    (hp : ∀ th, Tab.find n t.threads = some th → p (viewOf ig.team t n th) (g th)) :
    WordBecame s (({ s with formes := Tab.put k f' s.formes } : State).raise t.clockKey time |>.modThread
      { team := ig.team, n } g) ig t k off f full v p := by
  refine ⟨f', (s.raise t.clockKey time).clocks, ?_, hrest, hfull, hdata, ?_⟩
  · exact ⟨fun j hj => (clock_raise s _ _ j).trans (if_neg hj), clock_le_raise s _ _ _⟩
  · exact touches_modThread (s := { s with
      formes := Tab.put k f' s.formes, clocks := (s.raise t.clockKey time).clocks }) hf hone hp

end

/-! ### The three instructions -/

/-- What an `ldfe` makes of a full word (R96). -/
def taken (fe : Bool) (off pts : Nat) (f : Forme) : Forme × Nat :=
  if fe then ({ (f.stamp off pts).1 with full := Tab.set false (off / 4) false f.full }, (f.stamp off pts).2)
  else ((f.load off 4 pts).1, (f.load off 4 pts).2.2)

section
variable {x : XForm} {s : State} {ig : IssueGroup} {t : Team} {n : Nat} {th : Thread} {k off : Nat} {f : Forme}

/-- An `ldfe` of a full word. -/
theorem ldfe_full (hu : Usable .ldfe x 2 0 0 [x.d.toNat] s (viewOf ig.team t n th))
    (hsite : WordSite s ig t n th (addrOf (viewOf ig.team t n th) .ldfe x 0 0) false k off f) (hfull : f.isFull off = true) :
    exec (.ldfe x) s = .next ((({ s with
      formes := Tab.put k (taken (x.sub == 0) off (s.clock t.clockKey) f).1 s.formes } : State).raise t.clockKey
        (taken (x.sub == 0) off (s.clock t.clockKey) f).2).modThread { team := ig.team, n } fun th =>
          noted [x.d.toNat] (Thread.at (th.setV x.d.toNat (readBytes f.data off 4)) (nextPc ig x.words))) := by
  obtain ⟨hf, hone, hth, -, hform, hquiet⟩ := hsite
  have hfind := hform.2.2.2.2.2
  have hword := wordOf_ok hf hth hu hform
  have hnext : ∀ g : Forme, ({ s with formes := Tab.put k g s.formes } : State).forme k = g := fun g =>
    forme_of_find (Tab.find_put_same _ _ _)
  show execLdfe x s = _
  unfold execLdfe
  refine (execReads_single hf hone hth (s1 := (({ s with
    formes := Tab.put k (taken (x.sub == 0) off (s.clock t.clockKey) f).1 s.formes } : State).raise t.clockKey
      (taken (x.sub == 0) off (s.clock t.clockKey) f).2).modThread { team := ig.team, n } fun th =>
        th.setV x.d.toNat (readBytes f.data off 4)) (pc := nextPc ig x.words) ?_).trans ?_
  · simp only [hword, bind, Except.bind, forme_of_find hfind, hfull, if_true, taken]
    cases hfe : (x.sub == 0) with
    | true =>
      simp only [if_true, modForme_const hfind]
      exact congrArg (fun u => Except.ok (u, nextPc ig x.words)) (setFull_put (g := (f.stamp off (s.clock t.clockKey)).1) rfl hquiet false)
    | false =>
      simp only [Bool.false_eq_true, if_false, modForme_const hfind]
      rfl
  · exact congrArg Host.Outcome.next (modThread_modThread _ { team := ig.team, n } _ _)

/-- A thread that parks on its word (R95). -/
theorem wordParked_of {w : WordWait} {dsts : List Nat} (hf : Formed s ig t) (hone : ig.threads = [n])
    (hth : Tab.find n t.threads = some th) (hfind : Tab.find k s.formes = some f) (htid : w.tid = { team := ig.team, n }) :
    WordParked s ((s.awaitWord k w).modThread { team := ig.team, n } fun u =>
      noted dsts { u with pc := BitVec.ofNat 64 th.pc.toNat }) ig t k f w := by
  have hmod : s.modForme k (fun f => { f with waiters := f.waiters ++ [w] }) =
      { s with formes := Tab.put k { f with waiters := f.waiters ++ [w] } s.formes } := by
    rw [State.modForme, Tab.modify, hfind]
  rw [State.awaitWord, hmod, htid, modThread_modThread]
  refine touches_modThread (s := { s with formes := Tab.put k { f with waiters := f.waiters ++ [w] } s.formes }) hf hone
    fun u hu => ?_
  obtain rfl : u = th := Option.some.inj (hu.symm.trans hth)
  show noted dsts { u with wait := .word, pc := BitVec.ofNat 64 u.pc.toNat } = { u with wait := .word }
  rw [BitVec.ofNat_toNat, BitVec.setWidth_eq]
  rfl

theorem ldfe_words (hu : Usable .ldfe x 2 0 0 [x.d.toNat] s (viewOf ig.team t n th))
    (hsite : WordSite s ig t n th (addrOf (viewOf ig.team t n th) .ldfe x 0 0) false k off f) :
    ∃ s', exec (.ldfe x) s = .next s' ∧
      (f.isFull off = true → WordBecame s s' ig t k off f (x.sub != 0) none fun c th' =>
        Resumed c.th th' (c.th.setV x.d.toNat (readBytes f.data off 4)).regs c.th.fpflags (nextPc ig x.words)) ∧
      (f.isFull off = false → WordParked s s' ig t k f
        { off, full := true, fe := x.sub == 0, tid := { team := ig.team, n }, dreg := x.d.toNat, value := 0
          next := nextPc ig x.words }) := by
  cases hfull : f.isFull off with
  | true =>
    obtain ⟨hf, hone, hth, hready, -, -⟩ := id hsite
    refine ⟨_, ldfe_full hu hsite hfull, fun _ => wordBecame_of hf hone ?_ (fun a => ?_) ?_ fun u hu => ?_, nofun⟩
    · cases hfe : (x.sub == 0) <;> rfl
    · rw [bne]
      cases hfe : (x.sub == 0) with
      | true => exact isFull_set _ off false a
      | false => exact isFull_same f hfull a
    · cases hfe : (x.sub == 0) <;> rfl
    · obtain rfl : u = th := Option.some.inj (hu.symm.trans hth)
      rw [noted, show (Thread.at (u.setV x.d.toNat (readBytes f.data off 4)) (nextPc ig x.words)).wait = .ready from hready]
      exact ⟨rfl, rfl, rfl, hready, rfl, rfl, rfl, rfl, rfl, rfl, rfl, rfl⟩
  | false =>
    obtain ⟨hf, hone, hth, -, hform, -⟩ := id hsite
    have hfind := hform.2.2.2.2.2
    refine ⟨_, ?_, nofun, fun _ => wordParked_of (dsts := [x.d.toNat]) hf hone hth hfind rfl⟩
    show execLdfe x s = _
    unfold execLdfe
    refine execReads_single hf hone hth ?_
    simp only [wordOf_ok hf hth hu hform, bind, Except.bind, forme_of_find hfind, hfull, Bool.false_eq_true, if_false]
    rfl

theorem stfe_words (hu : Usable .stfe x 2 1 0 [] s (viewOf ig.team t n th)) (hg : th.guard x.g = true)
    (hsite : WordSite s ig t n th (addrOf (viewOf ig.team t n th) .stfe x 1 0) true k off f) :
    let v := (viewOf ig.team t n th).opB x (regsOf (viewOf ig.team t n th) .stfe x 2 1 0) 1
    ∃ s', exec (.stfe x) s = .next s' ∧
      (f.isFull off = false → WordBecame s s' ig t k off f true (some v) fun c th' =>
        Resumed c.th th' c.th.regs c.th.fpflags (nextPc ig x.words)) ∧
      (f.isFull off = true → WordParked s s' ig t k f
        { off, full := false, fe := false, tid := { team := ig.team, n }, dreg := 0, value := v
          next := nextPc ig x.words }) := by
  intro v
  obtain ⟨hf, hone, hth, hready, hform, hquiet⟩ := id hsite
  have hfind := hform.2.2.2.2.2
  have hword := wordOf_ok hf hth hu hform
  cases hfull : f.isFull off with
  | true =>
    refine ⟨_, ?_, nofun, fun _ => wordParked_of (dsts := []) hf hone hth hfind rfl⟩
    show execStfe x s = _
    unfold execStfe
    simp only [noted_nil]
    refine execLanes_single (g := some x.g) hf hone hth hg ?_
    simp only [hword, bind, Except.bind, forme_of_find hfind, hfull, if_true]
    rfl
  | false =>
    let g := (f.store off 4 v (s.clock t.clockKey)).1
    let time := (f.store off 4 v (s.clock t.clockKey)).2
    have hset := isFull_set g off true
    refine ⟨(({ s with formes := Tab.put k { g with full := Tab.set false (off / 4) true g.full } s.formes } : State).raise
      t.clockKey time).modThread { team := ig.team, n } fun th => Thread.at th.stirred (nextPc ig x.words), ?_,
      fun _ => wordBecame_of hf hone rfl hset (fun a => getD_writeBytes f.data off 4 v a) fun u hu => ?_, nofun⟩
    · show execStfe x s = _
      unfold execStfe
      refine (execLanes_single (g := some x.g) (pc := nextPc ig x.words) hf hone hth hg ?_).trans
        (congrArg Host.Outcome.next (modThread_modThread _ { team := ig.team, n } Thread.stirred _))
      simp only [hword, bind, Except.bind, forme_of_find hfind, hfull, Bool.false_eq_true, if_false, modForme_const hfind]
      exact congrArg (fun u => Except.ok (u, nextPc ig x.words)) (setFull_put (g := g) rfl hquiet true)
    · obtain rfl : u = th := Option.some.inj (hu.symm.trans hth)
      exact ⟨rfl, rfl, rfl, hready, rfl, rfl, rfl, rfl, rfl, rfl, rfl, rfl⟩

theorem feset_words (hu : Usable .feset x 2 0 0 [] s (viewOf ig.team t n th))
    (hsite : WordSite s ig t n th (addrOf (viewOf ig.team t n th) .feset x 0 0) false k off f) :
    ∃ s', exec (.feset x) s = .next s' ∧ WordBecame s s' ig t k off f (x.sub == 1) none fun c th' =>
      Resumed c.th th' c.th.regs c.th.fpflags (nextPc ig x.words) := by
  obtain ⟨hf, hone, hth, hready, hform, hquiet⟩ := id hsite
  have hfind := hform.2.2.2.2.2
  let g := (f.stamp off (s.clock t.clockKey)).1
  let time := (f.stamp off (s.clock t.clockKey)).2
  refine ⟨(({ s with formes := Tab.put k { g with full := Tab.set false (off / 4) (x.sub == 1) g.full } s.formes } : State).raise
    t.clockKey time).modThread { team := ig.team, n } fun th => Thread.at th.stirred (nextPc ig x.words), ?_,
    wordBecame_of hf hone rfl (isFull_set g off (x.sub == 1)) rfl fun u hu => ?_⟩
  · show execFeset x s = _
    unfold execFeset
    refine (execLanes_single (g := none) (pc := nextPc ig x.words) hf hone hth rfl ?_).trans
      (congrArg Host.Outcome.next (modThread_modThread _ { team := ig.team, n } Thread.stirred _))
    simp only [wordOf_ok hf hth hu hform, bind, Except.bind, forme_of_find hfind, modForme_const hfind]
    exact congrArg (fun u => Except.ok (u, nextPc ig x.words)) (setFull_put (g := g) rfl hquiet (x.sub == 1))
  · obtain rfl : u = th := Option.some.inj (hu.symm.trans hth)
    exact ⟨rfl, rfl, rfl, hready, rfl, rfl, rfl, rfl, rfl, rfl, rfl, rfl⟩

end

/-- Settles O22: the word's state decides between the access and a place in the bank's waiter table; no thread waits on the
word, so setting its bit serves none. -/
theorem fullEmptyWords : Obligations.FullEmptyWords :=
  ⟨fun _ _ _ _ _ _ _ _ _ => ldfe_words, fun _ _ _ _ _ _ _ _ _ => stfe_words, fun _ _ _ _ _ _ _ _ _ => feset_words⟩

end Sys2Proof.Proofs.Accesses

/-! Sweeps whose lanes change more than threads: `prq`, which raises clocks and the times of formes, and `pf`, which asks for
lines; and from these the statement about both (R101, R184, R185). -/

namespace Sys2Proof.Proofs.Sweeps

open Sys2Proof Sys2Proof.Machine Sys2Proof.Claims

/-- A property of a state that teams have no part in. -/
def TeamFree (Q : State → Prop) : Prop := ∀ (s : State) (teams : Tab Team), Q s → Q { s with teams := teams }

/-- Steps that each change one thread, and something else besides of which `Q` tells. -/
theorem foldl_sweepsAround {Q : State → Prop} (hQ : TeamFree Q) (F : State → Nat → State) (k : Nat)
    (eff : Nat → Thread → Thread) (ts : List Nat) : ∀ s, Q s → ts.Nodup →
    (∀ s1 n, n ∈ ts → Q s1 → (∀ j, (s1.team? j).map shell = (s.team? j).map shell) →
      s1.thread? { team := k, n } = s.thread? { team := k, n } →
      ∃ s2, Q s2 ∧ s2.teams = s1.teams ∧ F s1 n = s2.modThread { team := k, n } (eff n)) →
    ∃ s2, Q s2 ∧ s2.teams = s.teams ∧ Swept s2 (ts.foldl F s) k ts eff := by
  induction ts with
  | nil => exact fun s hs _ _ => ⟨s, hs, rfl, by simp, fun _ _ => rfl, SameBut.same s⟩
  | cons m ts ih =>
    intro s hs hnodup hstep
    obtain ⟨hm, hnodup⟩ := List.nodup_cons.1 hnodup
    obtain ⟨s1, hQ1, hteams1, hfirst⟩ := hstep s m List.mem_cons_self hs (fun _ => rfl) rfl
    have hteam1 : ∀ j, s1.team? j = s.team? j := fun j => by rw [State.team?, hteams1]; rfl
    have hthread1 : ∀ i, s1.thread? i = s.thread? i := fun i => by rw [State.thread?, hteam1]; rfl
    have hQF : Q (F s m) := hfirst ▸ hQ s1 _ hQ1
    have hshell : ∀ j, ((F s m).team? j).map shell = (s.team? j).map shell := fun j => by
      rw [hfirst, ← hteam1]
      exact ((SameBut.same s1).modThread { team := k, n := m } (eff m)).1 j
    have hrest : ∀ n, n ≠ m → (F s m).thread? { team := k, n } = s.thread? { team := k, n } := fun n hne => by
      rw [hfirst, thread?_modThread_other _ (by simpa using hne), hthread1]
    obtain ⟨s2, hQ2, hteams2, hin, hout, hbut⟩ := ih (F s m) hQF hnodup fun s1 n hn hs1 hsh ht =>
      hstep s1 n (List.mem_cons_of_mem m hn) hs1 (fun j => (hsh j).trans (hshell j))
        (ht.trans (hrest n fun e => hm (e ▸ hn)))
    have hteam2 : ∀ j, s2.team? j = (F s m).team? j := fun j => by rw [State.team?, hteams2]; rfl
    have hthread2 : ∀ i, s2.thread? i = (F s m).thread? i := fun i => by rw [State.thread?, hteam2]; rfl
    refine ⟨{ s2 with teams := s.teams }, hQ s2 _ hQ2, rfl, fun n hn => ?_, fun i hi => ?_, fun j => ?_,
      (congrArg (fun u : State => { u with teams := s.teams }) hbut.2 :)⟩
    · rw [List.foldl_cons]
      show _ = (s.thread? { team := k, n }).map (eff n)
      rcases List.mem_cons.1 hn with rfl | hn
      · rw [hout _ (by simpa using hm), hthread2, hfirst, thread?_modThread_same, hthread1]
      · rw [hin n hn, hthread2, hrest n fun e => hm (e ▸ hn)]
    · rw [List.foldl_cons, hout i fun h => hi ⟨h.1, List.mem_cons_of_mem m h.2⟩, hthread2, hfirst, thread?_modThread_other, hthread1]
      · rfl
      · rintro rfl
        exact hi ⟨rfl, List.mem_cons_self⟩
    · rw [List.foldl_cons]
      exact (hbut.1 j).trans ((congrArg (Option.map shell) (hteam2 j)).trans (hshell j))

/-- The lanes of an issue group, each of which changes its own thread and something else besides of which `Q` tells. -/
theorem execLanes_around {Q : State → Prop} (hQ : TeamFree Q) {words : Nat} {f : Nat → LaneFn} {s : State} {ig : IssueGroup}
    {t : Team} {eff : View → Thread} (hs : Q s) (hf : Formed s ig t)
    (hlane : ∀ n ∈ ig.threads, ∀ th, Tab.find n t.threads = some th → ∀ s1 t1, Q s1 → s1.team? ig.team = some t1 →
      { t1 with threads := t.threads } = t → s1.view { team := ig.team, n } = some (viewOf ig.team t1 n th) →
      s1.thread? { team := ig.team, n } = some th →
      ∃ s2 g, Q s2 ∧ s2.teams = s1.teams ∧ runLane (nextPc ig words) none (f (nextPc ig words)) s1 { team := ig.team, n } =
        s2.modThread { team := ig.team, n } g ∧ g th = eff (viewOf ig.team t n th)) :
    ∃ s' s2, Q s2 ∧ s2.teams = s.teams ∧ execLanes words none f s = .next s' ∧ OnlyThreads s2 s' ig t eff := by
  obtain ⟨hig, hteam, hnodup, hlisted⟩ := id hf
  have hsome : ∀ n ∈ ig.threads, ∃ th, Tab.find n t.threads = some th := hlisted
  obtain ⟨s2, hQ2, hteams2, hswept⟩ := foldl_sweepsAround hQ
    (fun s n => runLane (nextPc ig words) none (f (nextPc ig words)) s { team := ig.team, n }) ig.team
    (fun n _ => eff (viewOf ig.team t n (Collectives.threadAt t n))) ig.threads s hs hnodup fun s1 n hn hQ1 hshell hthread => by
      obtain ⟨th, hth⟩ := hsome n hn
      have hj := hshell ig.team
      rw [hteam] at hj
      cases hteam1 : s1.team? ig.team with
      | none => simp [hteam1] at hj
      | some t1 =>
        rw [hteam1, Option.map_some, Option.map_some, Option.some.injEq] at hj
        have hagree : { t1 with threads := t.threads } = t := congrArg (fun u : Team => { u with threads := t.threads }) hj
        have hth1 := hthread.trans (thread?_of_find hteam hth)
        have hfind1 : Tab.find n t1.threads = some th := by simpa [State.thread?, hteam1] using hth1
        obtain ⟨s2, g, hQ2, hteams2, hrun, hg⟩ := hlane n hn th hth s1 t1 hQ1 hteam1 hagree
          (view_eq s1 { team := ig.team, n } t1 th hteam1 hfind1) hth1
        refine ⟨s2, hQ2, hteams2, hrun.trans (Issue.modThread_congr (th := th) ?_ ?_)⟩
        · rw [State.thread?, State.team?, hteams2]
          exact hth1
        · rw [Collectives.threadAt, hth, Option.getD_some, hg]
  have hteam2 : s2.team? ig.team = some t := by
    rw [State.team?, hteams2]
    exact hteam
  obtain ⟨hin, hout, hbut⟩ := hswept
  refine ⟨_, s2, hQ2, hteams2, execLanes_next words none f s ig hig, fun n hn th hth => ?_, hout, hbut.1, hbut.2⟩
  refine (hin n hn).trans ?_
  simp only [thread?_of_find hteam2 hth, Option.map_some, Collectives.threadAt, hth, Option.getD_some]

end Sys2Proof.Proofs.Sweeps

/-! `prq` and `pf`. -/

namespace Sys2Proof.Proofs.Accesses

open Sys2Proof Sys2Proof.Machine Sys2Proof.Claims Sys2Proof.Proofs.Lanes Sys2Proof.Proofs.Sweeps Sys2Proof.Proofs.Issue
  Sys2Proof.Proofs.NamedBarriers Sys2Proof.Proofs.Slices

/-! ### `prq` -/

/-- The forme without the times of its last reads. -/
def unread (f : Forme) : Forme := { f with rts := [] }

/-- What `prq` may have changed by the turn of a lane: clocks and the times of last reads. -/
def Queried (s : State) (own : Nat) (s1 : State) : Prop :=
  (∃ formes clocks teams, s1 = { s with formes := formes, clocks := clocks, teams := teams } ∧ Raised s clocks own ∧
    ∀ k, (Tab.find k formes).map unread = (Tab.find k s.formes).map unread)

theorem teamFree_queried (s : State) (own : Nat) : TeamFree (Queried s own) := by
  rintro s1 teams ⟨formes, clocks, _, rfl, hraised, hformes⟩
  exact ⟨formes, clocks, teams, rfl, hraised, hformes⟩

section
variable {s s1 : State} {own : Nat} (h : Queried s own s1)
include h

theorem unread_forme (k : Nat) : unread (s1.forme k) = unread (s.forme k) := by
  obtain ⟨formes, clocks, teams, rfl, -, hformes⟩ := h
  have hk := hformes k
  simp only [State.forme]
  cases h1 : Tab.find k formes <;> cases h2 : Tab.find k s.formes <;> simp_all

theorem windowAt_queried (cluster va : Nat) : s1.windowAt cluster va = s.windowAt cluster va := by
  obtain ⟨formes, clocks, teams, rfl, -, hformes⟩ := h
  have hsize : ∀ k, (Tab.find k formes).map Forme.size = (Tab.find k s.formes).map Forme.size := fun k => by
    have := congrArg (Option.map Forme.size) (hformes k)
    simpa [Option.map_map, Function.comp_def, unread] using this
  unfold State.windowAt
  dsimp only
  split
  · rfl
  next k _ =>
    have hk := hsize k
    cases h1 : Tab.find k formes <;> cases h2 : Tab.find k s.formes <;> simp_all

theorem badUnits_queried (k off n : Nat) (whole : Bool) : s1.badUnits k off n whole = s.badUnits k off n whole := by
  obtain ⟨formes, clocks, teams, rfl, -, -⟩ := h
  rfl

end

theorem sees_of {s1 : State} {k n : Nat} {t t1 : Team} {th : Thread} (hagree : { t1 with threads := t.threads } = t)
    (hth : s1.thread? { team := k, n } = some th) : Sees (viewOf k t n th) s1 (viewOf k t1 n th) :=
  { id := rfl, th := rfl, alloc := (congrArg (Team.alloc · n) hagree :), thread := hth }

theorem queried_read {s s1 : State} {own k : Nat} (h : Queried s own s1) (off n pts time : Nat) :
    Queried s own ((s1.modForme k fun _ => ((s1.forme k).load off n pts).1).raise own time) := by
  obtain ⟨formes, clocks, teams, rfl, ⟨hother, hown⟩, hformes⟩ := h
  refine ⟨_, _, _, rfl, ⟨fun j hj => ?_, ?_⟩, fun j => ?_⟩
  · exact (Tab.getD_set_other 0 hj _ clocks).trans (hother j hj)
  · exact (hown.trans (Nat.le_max_left _ time)).trans (Nat.le_of_eq (Tab.getD_set_same 0 own _ clocks).symm)
  · rw [← hformes j]
    show (Tab.find j (Tab.modify k _ formes)).map unread = _
    rw [Tab.find_modify]
    split
    next hjk =>
      rw [hjk]
      cases hk : Tab.find k formes with
      | none => rfl
      | some f => simp only [Option.map_some, State.forme, hk, Option.getD_some]; rfl
    next => rfl

/-- One lane of `prq`. -/
def prqLane (x : XForm) (next : Nat) : LaneFn := fun s c => do
  c.dests [x.d.toNat]
  let r ← c.operands .prq x 2 0 0
  let s ← s.claimRegs c r.srcs [x.d.toNat]
  let va := c.addr x r
  let (k, off) ← s.windowCheck c va 4
  let f := s.forme k
  if f.tagged off then throw (.fault { code := Code.clobber, addr := va })
  if s.badUnits k off 4 false then throw (.fault { code := Code.ecc, info := arrSram, addr := va })
  let (f', _, time) := f.load off 4 (s.clock c.team.clockKey)
  let s := (s.modForme k fun _ => f').raise c.team.clockKey time
  return (s.modThread c.id fun th => th.setV x.d.toNat (f.presence (off / 128)), next)

/-- What a lane of `prq` answers and changes (R101, R184). -/
theorem prqLane_ok {x : XForm} {s s1 : State} {k n next : Nat} {t t1 : Team} {th : Thread} (hq : Queried s t.clockKey s1)
    (hagree : { t1 with threads := t.threads } = t) (hth : s1.thread? { team := k, n } = some th)
    (hu : Usable .prq x 2 0 0 [x.d.toNat] s (viewOf k t n th)) (hsite : PrqSite x s (viewOf k t n th)) :
    ∃ s2, Queried s t.clockKey s2 ∧ s2.teams = s1.teams ∧ prqLane x next s1 (viewOf k t1 n th) =
      .ok (s2.modThread { team := k, n } fun u => u.setV x.d.toNat (prqState x s (viewOf k t n th)), next) := by
  have hsees := sees_of hagree hth
  obtain ⟨hva, hal, hwin, fk, off, hat, htag, hbad⟩ := hsite
  have hcluster : t1.cluster = t.cluster := (congrArg Team.cluster hagree :)
  have hkey : t1.clockKey = t.clockKey := (congrArg Team.clockKey hagree :)
  have haddr : (viewOf k t1 n th).addr x (regsOf (viewOf k t n th) .prq x 2 0 0) = addrOf (viewOf k t n th) .prq x 0 0 := rfl
  have hat1 : s1.windowAt (viewOf k t1 n th).team.cluster (addrOf (viewOf k t n th) .prq x 0 0) = some (fk, off) := by
    rw [windowAt_queried hq, show (viewOf k t1 n th).team.cluster = t.cluster from hcluster]
    exact hat
  have hunread := unread_forme hq fk
  have htag1 : (s1.forme fk).tagged off = false :=
    ((congrArg (Forme.tagged · off) hunread :) : (s1.forme fk).tagged off = (s.forme fk).tagged off).trans htag
  have hpres : (s1.forme fk).presence (off / 128) = prqState x s (viewOf k t n th) := by
    rw [prqState, hat]
    exact (congrArg (Forme.presence · (off / 128)) hunread :)
  have hread := queried_read (k := fk) hq off 4 (s1.clock t1.clockKey)
    ((s1.forme fk).load off 4 (s1.clock t1.clockKey)).2.2
  rw [← hkey] at hread ⊢
  have hwindow : s1.windowCheck (viewOf k t1 n th) ((viewOf k t1 n th).addr x (regsOf (viewOf k t n th) .prq x 2 0 0)) 4 =
      .ok (fk, off) := by
    rw [haddr]
    exact windowCheck_ok hva hal hwin hat1
  refine ⟨(s1.modForme fk fun _ => ((s1.forme fk).load off 4 (s1.clock t1.clockKey)).1).raise t1.clockKey
    ((s1.forme fk).load off 4 (s1.clock t1.clockKey)).2.2, hread, rfl, ?_⟩
  rw [← hpres]
  simp only [prqLane, hsees.dests hu, hsees.operands hu, hsees.claimRegs hu, hwindow, htag1,
    badUnits_queried hq, hbad, bind, Except.bind, Bool.false_eq_true, if_false]
  rfl

theorem presenceQuery : PresenceQuery := by
  intro x s ig t hf hall
  have hstart : Queried s t.clockKey s := ⟨_, _, _, rfl, ⟨fun _ _ => rfl, le_refl _⟩, fun _ => rfl⟩
  obtain ⟨s', s2, ⟨formes, clocks, teams, rfl, hraised, hformes⟩, hteams, he, hin, hrest⟩ :=
    execLanes_around (teamFree_queried s t.clockKey) (words := x.words) (f := prqLane x)
      (eff := fun c => Thread.at (c.th.setV x.d.toNat (prqState x s c)) (nextPc ig x.words)) hstart hf
      fun n hn th hth s1 t1 hq hteam1 hagree hview hth1 => by
        obtain ⟨hready, hu, hsite⟩ := hall n hn th hth
        obtain ⟨s2, hq2, hteams2, hlane⟩ := prqLane_ok (next := nextPc ig x.words) hq hagree hth1 hu hsite
        refine ⟨s2, fun u => Thread.at (u.setV x.d.toNat (prqState x s (viewOf ig.team t n th))) (nextPc ig x.words), hq2,
          hteams2, ?_, rfl⟩
        exact (runLane_ok _ none _ s1 _ _ _ _ hview rfl hlane).trans (modThread_modThread _ _ _ _)
  obtain rfl : teams = s.teams := hteams
  refine ⟨s', formes, clocks, he, hraised, hformes, fun n hn th hth => ⟨_, hin n hn th hth, ?_⟩, hrest⟩
  obtain ⟨hready, -, -⟩ := hall n hn th hth
  exact ⟨rfl, rfl, rfl, hready, rfl, rfl, rfl, rfl, rfl, rfl, rfl, rfl⟩

/-! ### `pf` -/

/-- What `pf` may have changed by the turn of a lane. -/
def Fetched (s s1 : State) : Prop :=
  (∃ tlbs regions net nextTag errors teams, s1 = { s with
    tlbs := tlbs, regions := regions, net := net, nextTag := nextTag, errors := errors, teams := teams }) ∧
    ∀ r ln c, Tab.find ln (s1.region r).copies = some c → Tab.find ln (s.region r).copies = some c

theorem teamFree_fetched (s : State) : TeamFree (Fetched s) := by
  rintro s1 teams ⟨⟨tlbs, regions, net, nextTag, errors, _, rfl⟩, hcopies⟩
  exact ⟨⟨tlbs, regions, net, nextTag, errors, teams, rfl⟩, hcopies⟩

theorem fetched_givesUp {s s1 s2 : State} (h : Fetched s s1) (h2 : GivesUp s1 s2) : Fetched s s2 := by
  obtain ⟨⟨tlbs, regions, net, nextTag, errors, teams, rfl⟩, hcopies⟩ := h
  obtain ⟨hrest, -, -, hcopies2⟩ := h2
  exact ⟨⟨tlbs, s2.regions, s2.net, s2.nextTag, s2.errors, teams, (congrArg (fun u : State => { u with
    regions := s2.regions, net := s2.net, nextTag := s2.nextTag, errors := s2.errors }) hrest :)⟩,
    fun r ln c hc => hcopies r ln c (hcopies2 r ln c hc)⟩

theorem givesUp_teams {s s2 : State} (h : GivesUp s s2) : s2.teams = s.teams := by
  obtain ⟨hrest, -⟩ := h
  exact (congrArg State.teams hrest :)

/-- A translation comes nearer. -/
theorem held_fetched {s s1 : State} (h : Fetched s s1) (a : Asker) (va : Nat) :
    Fetched s (s1.held a va).1 ∧ (s1.held a va).1.teams = s1.teams := by
  obtain ⟨⟨tlbs, regions, net, nextTag, errors, teams, rfl⟩, hcopies⟩ := id h
  unfold State.held
  split
  · exact ⟨h, rfl⟩
  · split
    · exact ⟨h, rfl⟩
    · split
      · exact ⟨⟨⟨_, regions, net, nextTag, errors, teams, rfl⟩, hcopies⟩, rfl⟩
      · exact ⟨h, rfl⟩

/-- A request goes out, or does not. -/
theorem ask_fetched {s s1 : State} (h : Fetched s s1) (key ln : Nat) (op : MemOp) (t : Team) (kind : ReqKind) :
    Fetched s (s1.ask key op t ln kind) ∧ (s1.ask key op t ln kind).teams = s1.teams := by
  have hput : ∀ s2 : State, ∀ m, GivesUp s1 s2 →
      Fetched s ((s2.modRegion (regionOf t.core) fun g => { g with asked := Tab.put ln s2.nextTag g.asked }).send m) := fun s2 m h2 => by
    obtain ⟨⟨tlbs, regions, net, nextTag, errors, teams, hs2⟩, hcopies⟩ := fetched_givesUp h h2
    refine ⟨⟨tlbs, _, _, _, errors, teams, by rw [hs2]; rfl⟩, fun r ln' c hc => hcopies r ln' c ?_⟩
    rw [show ∀ u : State, (u.send m).region r = u.region r from fun _ => rfl, region_modRegion] at hc
    split at hc
    next hr => rw [hr]; exact hc
    next => exact hc
  obtain ⟨p, hp, hgives⟩ : ∃ p : State × Bool, (if Tab.has (s1.region (regionOf t.core)).asked ln || !kind.keeps then (s1, true)
      else s1.regionRoom (regionOf t.core) ln) = p ∧ GivesUp s1 p.1 := by
    split
    · exact ⟨_, rfl, givesUp_refl s1⟩
    · exact ⟨_, rfl, givesUp_regionRoom s1 _ ln⟩
  unfold State.ask
  dsimp only
  rw [hp]
  split
  · exact ⟨fetched_givesUp h hgives, givesUp_teams hgives⟩
  · exact ⟨hput _ _ hgives, (givesUp_teams hgives :)⟩

/-- One lane of `pf`. -/
def pfLane (x : XForm) (next : Nat) : LaneFn := fun s c => do
  let r ← c.operands .pf x 2 0 0
  let s ← s.claimRegs c r.srcs []
  let va := c.addr x r
  let a := s.threadAsker c.id c.team 0
  if decide (2 ^ 57 ≤ va) || inWindow va || x.h == 3 then return (s, next)
  match s.held a va with
  | (s, none) => return (s, next)
  | (s, some e) =>
    if (s.leafStop a e va).isSome then return (s, next)
    let ln := match s.locOf e va with
      | .device pa => some (deviceLine pa)
      | .host pa => some (hostLine pa)
      | _ => none
    match ln with
    | none => return (s, next)
    | some ln =>
      if Tab.has (s.region (regionOf c.team.core)).copies ln then return (s, next)
      let op : MemOp := { team := c.id.team, kind := .load, hint := x.h.toNat, scope := 0, accs := [], threads := [], next := 0 }
      return (s.ask 0 op c.team ln (.gets false), next)

/-- Whatever its address, a lane of `pf` goes on (R185). -/
theorem pfLane_ok {x : XForm} {s s1 : State} {k n next : Nat} {t t1 : Team} {th : Thread} (hq : Fetched s s1)
    (hagree : { t1 with threads := t.threads } = t) (hth : s1.thread? { team := k, n } = some th)
    (hu : Usable .pf x 2 0 0 [] s (viewOf k t n th)) :
    ∃ s2, Fetched s s2 ∧ s2.teams = s1.teams ∧ pfLane x next s1 (viewOf k t1 n th) = .ok (s2, next) := by
  have hsees := sees_of hagree hth
  have stays : ∃ s2, Fetched s s2 ∧ s2.teams = s1.teams ∧ (Except.ok (s1, next) : Except LaneStop (State × Nat)) = .ok (s2, next) :=
    ⟨s1, hq, rfl, rfl⟩
  unfold pfLane
  simp only [hsees.operands hu, hsees.claimRegs hu, bind, Except.bind, pure, Except.pure]
  split
  · exact stays
  obtain ⟨hheld, hteams⟩ := held_fetched hq (s1.threadAsker (viewOf k t1 n th).id (viewOf k t1 n th).team 0)
    ((viewOf k t1 n th).addr x (regsOf (viewOf k t n th) .pf x 2 0 0))
  split
  next s2 heq =>
    rw [heq] at hheld hteams
    exact ⟨s2, hheld, hteams, rfl⟩
  next s2 e heq =>
    rw [heq] at hheld hteams
    have here : ∃ s3, Fetched s s3 ∧ s3.teams = s1.teams ∧ (Except.ok (s2, next) : Except LaneStop (State × Nat)) = .ok (s3, next) :=
      ⟨s2, hheld, hteams, rfl⟩
    split
    · exact here
    split
    · exact here
    split
    · exact here
    · obtain ⟨hask, hteams3⟩ := ask_fetched hheld 0 _ _ (viewOf k t1 n th).team (.gets false)
      exact ⟨_, hask, hteams3.trans hteams, rfl⟩

theorem prefetchNeverFaults : PrefetchNeverFaults := by
  intro x s ig t hf hcore hall
  obtain ⟨s', s2, ⟨⟨tlbs, regions, net, nextTag, errors, teams, rfl⟩, hcopies⟩, hteams, he, hin, hrest⟩ :=
    execLanes_around (teamFree_fetched s) (words := x.words) (f := pfLane x)
      (eff := fun c => Thread.at c.th (nextPc ig x.words)) ⟨⟨_, _, _, _, _, _, rfl⟩, fun _ _ _ h => h⟩ hf
      fun n hn th hth s1 t1 hq hteam1 hagree hview hth1 => by
        obtain ⟨s2, hq2, hteams2, hlane⟩ := pfLane_ok (next := nextPc ig x.words) hq hagree hth1 (hall n hn th hth)
        exact ⟨s2, _, hq2, hteams2, runLane_ok _ none _ s1 _ _ _ _ hview rfl hlane, rfl⟩
  obtain rfl : teams = s.teams := hteams
  have hregions : s'.regions = regions := (congrArg State.regions hrest.2.2 :)
  refine ⟨s', tlbs, regions, net, nextTag, errors, he, fun r ln c hc => hcopies r ln c ?_,
    fun n hn th hth => ⟨_, hin n hn th hth, rfl⟩, hrest⟩
  rw [State.region, hregions] at hc
  exact hc

/-- Settles O23: `prq` lane by lane, over states that have raised only clocks and times of last reads; `pf` lane by lane, over
states in which translations came nearer, copies were given up and requests sent. -/
theorem presenceAndPrefetch : Obligations.PresenceAndPrefetch := ⟨presenceQuery, prefetchNeverFaults⟩

end Sys2Proof.Proofs.Accesses

/-! `waddr` (R60, R61, R189, R190): a line that its home holds, the least free key of a table, the installation of one thread,
and from these the statement. -/

namespace Sys2Proof.Proofs.Tables

open Sys2Proof Sys2Proof.Machine

variable {α : Type} {t : Tab α}

theorem mem_keys_of_has {k : Nat} (h : Tab.has t k = true) : k ∈ Tab.keys t := by
  induction t with
  | nil => cases h
  | cons e t ih =>
    by_cases hk : e.1 = k
    · exact List.mem_cons.2 (.inl hk.symm)
    · refine List.mem_cons.2 (.inr (ih ?_))
      simpa [Tab.has, Tab.find, Ne.symm hk] using h

theorem has_of_mem {k : Nat} {v : α} (h : (k, v) ∈ t) : Tab.has t k = true := by
  induction t with
  | nil => cases h
  | cons e t ih =>
    rcases List.mem_cons.1 h with rfl | h
    · simp [Tab.has, Tab.find]
    · have := ih h
      simp only [Tab.has, Tab.find] at this ⊢
      split
      · rfl
      · exact this

/-- A key that is free below the bound makes the search succeed. -/
theorem find_freeKey_of_free {fuel : Nat} : ∀ {n m : Nat}, n ≤ m → m < n + fuel → Tab.find m t = none →
    Tab.find (Tab.freeKey t fuel n) t = none := by
  induction fuel with
  | zero => exact fun hle hlt _ => absurd hlt (by omega)
  | succ fuel ih =>
    intro n m hle hlt hm
    unfold Tab.freeKey
    split
    next hn =>
      have hne : n ≠ m := by
        rintro rfl
        rw [Tab.has, hm] at hn
        cases hn
      exact ih (by omega) (by omega) hm
    next hn => simpa [Tab.has] using hn

/-- A table with fewer entries than keys to try has a free one. -/
theorem find_freeKey {fuel : Nat} (h : t.length < fuel) : Tab.find (Tab.freeKey t fuel 0) t = none := by
  obtain ⟨m, hm, hfree⟩ : ∃ m ∈ List.range fuel, Tab.has t m = false := by
    by_contra hall
    push Not at hall
    have hsub : List.range fuel ⊆ Tab.keys t := fun m hm => mem_keys_of_has (by simpa using hall m hm)
    have hle := (List.subperm_of_subset List.nodup_range hsub).length_le
    rw [List.length_range, Tab.keys, List.length_map] at hle
    omega
  exact find_freeKey_of_free (Nat.zero_le m) (by simpa using hm) (by simpa [Tab.has] using hfree)

end Sys2Proof.Proofs.Tables

namespace Sys2Proof.Proofs.Homes

open Sys2Proof Sys2Proof.Machine Sys2Proof.Claims

/-! ### A line that its home holds, with no request before -/

/-- A device line that its powered home holds in H, for which no request waits. -/
structure Here (s : State) (ln : Nat) : Prop where
  device : isHostLine ln = false
  power : s.homePowered ln = true
  first : ((s.home (homeOf ln)).queue.any fun q => q.line == ln) = false
  state : s.lineState ln = .h
  resident : s.isResident ln = true

theorem haveHostLine_device {s : State} {ln : Nat} (h : isHostLine ln = false) : s.haveHostLine ln = (s, true) := by
  simp only [State.haveHostLine, h, Bool.not_false, Bool.true_or, if_true]

theorem ensureWay_resident {s : State} {ln : Nat} (h : s.isResident ln = true) : s.ensureWay ln = (s, true) := by
  have : Tab.has (s.home (homeOf ln)).lines ln = true := h
  simp only [State.ensureWay, this, Bool.or_true, if_true]

theorem allocate_resident {s : State} {ln : Nat} (h : s.isResident ln = true) : s.allocate ln = s := by
  simp only [State.allocate, h, if_true]

/-- A request for a device line that stands in H is served as Table 3.3 says. -/
theorem serve_resident {s : State} {r : HReq} (hdevice : isHostLine r.line = false) (hstate : s.lineState r.line = .h)
    (hresident : s.isResident r.line = true) : s.serve r = s.serveH r := by
  simp only [State.serve, hstate, haveHostLine_device hdevice, ensureWay_resident hresident, allocate_resident hresident, if_true]

section
variable {s : State} {ln : Nat} (h : Here s ln)
include h

theorem haveHostLine_here : s.haveHostLine ln = (s, true) := haveHostLine_device h.device

theorem ensureWay_here : s.ensureWay ln = (s, true) := ensureWay_resident h.resident

theorem waitReady_here : s.waitReady ln = (s, true) := by
  simp only [State.waitReady, State.homeReady, h.state, h.power, h.first, haveHostLine_here h, ensureWay_here h, Bool.not_true,
    Bool.or_self, Bool.false_eq_true, if_false, if_true, Bool.false_and]

theorem serve_here {r : HReq} (hr : r.line = ln) : s.serve r = s.serveH r := by
  subst hr
  exact serve_resident h.device h.state h.resident

theorem request_here {r : HReq} (hr : r.line = ln) (hserved : (s.serveH r).2 = true) : s.request r = (s.serveH r).1 := by
  simp only [State.request, hr, h.first, Bool.false_eq_true, if_false, serve_here h hr, hserved, if_true]

end

theorem not_lent_of_h {s : State} {ln : Nat} (h : s.lineState ln = .h) : s.isLent ln = false := by
  unfold State.lineState at h
  split at h
  · cases h
  next hl => simpa using hl

theorem allReady_here {s : State} {ln : Nat} (h : Here s ln) : s.allReady [ln] = (s, true) := by
  simp only [State.allReady, List.foldl_cons, List.foldl_nil, not_lent_of_h h.state, Bool.false_eq_true, if_false,
    waitReady_here h, Bool.and_self]

theorem raised_raise (s : State) (own time : Nat) : Raised s (s.raise own time).clocks own :=
  ⟨fun j hj => (clock_raise s own time j).trans (if_neg hj), clock_le_raise s own time own⟩

end Sys2Proof.Proofs.Homes

namespace Sys2Proof.Proofs.Accesses

open Sys2Proof Sys2Proof.Machine Sys2Proof.Claims Sys2Proof.Proofs.Lanes Sys2Proof.Proofs.Sweeps Sys2Proof.Proofs.Issue
  Sys2Proof.Proofs.Homes

/-! ### The installation -/

/-- A line with the RTS of a load of `lease` at clock `pts` (R43). -/
def leased (l : HomeLine) (pts lease : Nat) : HomeLine :=
  { l with rts := if pts ≤ l.rts then l.rts else max l.rts (max (l.wts + lease) (pts + lease)) }

theorem homeLoad_eq (s : State) (ln pts lease : Nat) :
    s.homeLoad ln pts lease = (s.putLineAt ln (leased (s.lineAt ln) pts lease), max pts (s.lineAt ln).wts) := rfl

/-- Whether the condition of a wait entry holds on a line. -/
def waitHolds (w : WaitEntry) (l : HomeLine) : Bool :=
  waddrHolds w.cmp (8 * w.size) (lineRead l.data (w.addr % 128) w.size &&& w.mask) (w.expect &&& w.mask)

/-- The home has evaluated a wait entry as a load. -/
def evaluated (s : State) (t : Team) (w : WaitEntry) : State :=
  (s.putLineAt (deviceLine w.addr) (leased (s.lineAt (deviceLine w.addr)) (s.clock t.clockKey) (s.lease w.ctx))).raise
    t.clockKey (max (s.clock t.clockKey) (s.lineAt (deviceLine w.addr)).wts)

/-- A thread's `waddr` is answered. -/
def answered (w : WaitEntry) (next : Nat) (ok : Bool) (th : Thread) : Thread :=
  { th.setP w.pred ok with wait := .ready, pc := BitVec.ofNat 64 next }

theorem answered_waits (w : WaitEntry) (next : Nat) (ok : Bool) (th : Thread) (wait : Wait) :
    answered w next ok { th with wait := wait } = { th.setP w.pred ok with wait := .ready, pc := BitVec.ofNat 64 next } := by
  unfold answered Thread.setP
  split <;> rfl

/-- A thread's `waddr` parks with entry `k` of home `h`. -/
def parkedAt (h k : Nat) (th : Thread) : Thread := { th with wait := .address h k }

section
variable {s : State} {w : WaitEntry} {t : Team} {next : Nat}

/-- An evaluation leaves the data of every line as they were. -/
theorem evaluated_line (m : Nat) : ((evaluated s t w).lineAt m).data = (s.lineAt m).data := by
  refine (congrArg HomeLine.data (lineAt_putLineAt s _ m _)).trans ?_
  split
  next h => rw [h]; rfl
  next => rfl

theorem waitHolds_evaluated :
    waitHolds w ((evaluated s t w).lineAt (deviceLine w.addr)) = waitHolds w (s.lineAt (deviceLine w.addr)) := by
  rw [waitHolds, evaluated_line, waitHolds]

/-- What an installation does: the evaluation, and then an answer or an entry (R60). -/
theorem installAt_eq (hteam : s.team? w.tid.team = some t)
    (hsound : lineBadRead (s.lineAt (deviceLine w.addr)).data (w.addr % 128) w.size = none) : s.installAt w next =
      if waitHolds w (s.lineAt (deviceLine w.addr)) ||
          decide (256 ≤ ((evaluated s t w).home (homeOf (deviceLine w.addr))).waits.length) then
        (evaluated s t w).modThread w.tid (answered w next (waitHolds w (s.lineAt (deviceLine w.addr))))
      else
        ((evaluated s t w).modHome (homeOf (deviceLine w.addr)) fun h => { h with
          waits := Tab.put (Tab.freeKey ((evaluated s t w).home (homeOf (deviceLine w.addr))).waits 256 0) w h.waits }).modThread
            w.tid (parkedAt (homeOf (deviceLine w.addr))
              (Tab.freeKey ((evaluated s t w).home (homeOf (deviceLine w.addr))).waits 256 0)) := by
  rw [← waitHolds_evaluated (t := t)]
  simp only [State.installAt, hteam, hsound]
  rfl

theorem evaluated_waits (h : Nat) : ((evaluated s t w).home h).waits = (s.home h).waits := by
  show ((s.putLineAt _ _).home h).waits = _
  rw [State.putLineAt, home_modHome]
  split
  next hh => rw [hh]
  next => rfl

end

/-- The state in which a thread waits for its installation. -/
def asking (s : State) (w : WaitEntry) : State :=
  ({ s with nextTag := s.nextTag + 1 } : State).modThread w.tid fun th => { th with wait := .install (deviceLine w.addr) s.nextTag }

/-- A home that holds the line installs at once (R60). -/
theorem install_here {s : State} {w : WaitEntry} {next : Nat} {th : Thread} (h : Here s (deviceLine w.addr))
    (hth : s.thread? w.tid = some th) : s.install w next = (asking s w).installAt w next := by
  have hhere : Here (asking s w) (deviceLine w.addr) := ⟨h.device, h.power, h.first, h.state, h.resident⟩
  have hwait : ((asking s w).thread? w.tid).map Thread.wait = some (.install (deviceLine w.addr) s.nextTag) := by
    have := thread?_modThread_same { s with nextTag := s.nextTag + 1 } w.tid
      fun th => { th with wait := .install (deviceLine w.addr) s.nextTag }
    rw [asking, this, show ({ s with nextTag := s.nextTag + 1 } : State).thread? w.tid = some th from hth]
    rfl
  unfold State.install
  dsimp only [State.fresh]
  rw [show State.modThread _ _ _ = asking s w from rfl]
  have hserve : ∀ region, (asking s w).serveH
      { kind := .install w next, line := deviceLine w.addr, region, tag := s.nextTag } = ((asking s w).installAt w next, true) :=
    fun region => by simp only [State.serveH, State.isInstalling, hwait, beq_self_eq_true, if_true]
  rw [request_here hhere rfl (by rw [hserve]), hserve]

/-! ### The instruction -/

/-- What a `waddr` asks of memory. -/
def waitReq (x : XForm) (c : View) : MemReq :=
  { va := addrOf c .waddr x x.ty.regs x.ty.regs, srcs := (regsOf c .waddr x 2 x.ty.regs x.ty.regs).srcs, size := tyBytes x.ty
    ty := x.ty, value := c.th.vs (regsOf c .waddr x 2 x.ty.regs x.ty.regs).b x.ty.regs
    compare := c.th.vs (regsOf c .waddr x 2 x.ty.regs x.ty.regs).c x.ty.regs }

/-- The checks of a `waddr` before its address is translated. -/
def waitAsk (x : XForm) : State → View → Lane MemReq := fun _ c => do
  let r ← c.operands .waddr x 2 x.ty.regs x.ty.regs
  c.ready r.srcs []
  let va := c.addr x r
  if inWindow va && va % tyBytes x.ty == 0 then throw (.fault { code := Code.waitUnsupported, addr := va })
  return { va, srcs := r.srcs, size := tyBytes x.ty, ty := x.ty, value := c.th.vs r.b x.ty.regs, compare := c.th.vs r.c x.ty.regs }

theorem wait_asks {x : XForm} {s : State} {ig : IssueGroup} {t : Team} {n : Nat} {th : Thread} (hf : Formed s ig t)
    (hth : Tab.find n t.threads = some th) (hu : Usable .waddr x 2 x.ty.regs x.ty.regs [] s (viewOf ig.team t n th))
    (hwin : inWindow (addrOf (viewOf ig.team t n th) .waddr x x.ty.regs x.ty.regs) = false) :
    waitAsk x s (viewOf ig.team t n th) = .ok (waitReq x (viewOf ig.team t n th)) := by
  have hready : (viewOf ig.team t n th).ready (regsOf (viewOf ig.team t n th) .waddr x 2 x.ty.regs x.ty.regs).srcs [] = .ok () :=
    ready_usable hf hth hu
  have hwin' : inWindow ((viewOf ig.team t n th).addr x (regsOf (viewOf ig.team t n th) .waddr x 2 x.ty.regs x.ty.regs)) = false :=
    hwin
  simp only [waitAsk, operands_of_usable hu, hready, hwin', bind, Except.bind, Bool.false_and, Bool.false_eq_true, if_false]
  rfl

/-- The installations of an issue group. -/
def installing (x : XForm) (s : State) (team next : Nat) (go : List (Nat × MemReq × Loc)) (_ : List Nat) : State × Machine.Faults :=
  match s.allReady (go.filterMap fun e => e.2.2.deviceLine?).eraseDups with
  | (s, false) => (go.foldl (fun s (n, _) => s.modThread { team, n } fun th => { th with wait := .replay }) s, [])
  | (s, true) =>
    ((go.foldl (fun (acc : Installs) (n, r, l) =>
      match l with
      | .device pa =>
        acc.lane
          { addr := pa, size := r.size, mask := r.compare, cmp := x.sub.toNat, expect := r.value, tid := { team, n }
            ctx := ((s.team? team).map s.ctxOf).getD 0, va := r.va, pred := x.d.toNat } next
      | _ => acc) { state := s }).state, [])

theorem execWaddr_eq (x : XForm) (s : State) :
    exec (.waddr x) s = withAccess x.words none 0 (fun _ => waddrCheck) (waitAsk x) (installing x) s := rfl

/-- The wait entry of one thread's `waddr`. -/
def entryOf (x : XForm) (s : State) (t : Team) (c : View) (pa : Nat) : WaitEntry :=
  { addr := pa, size := x.ty.bits / 8, mask := c.th.vs (regsOf c .waddr x 2 x.ty.regs x.ty.regs).c x.ty.regs, cmp := x.sub.toNat
    expect := c.th.vs (regsOf c .waddr x 2 x.ty.regs x.ty.regs).b x.ty.regs, tid := c.id, ctx := s.ctxOf t
    va := addrOf c .waddr x x.ty.regs x.ty.regs, pred := x.d.toNat }

/-- One thread's `waddr` on a line that its home holds is installed (R190). -/
theorem installing_one {x : XForm} {s : State} {ig : IssueGroup} {t : Team} {n pa next : Nat} {th : Thread} (hf : Formed s ig t)
    (hhere : Here s (deviceLine pa)) (hth : Tab.find n t.threads = some th) :
    installing x s ig.team next [(n, waitReq x (viewOf ig.team t n th), .device pa)] [] =
      ((asking s (entryOf x s t (viewOf ig.team t n th) pa)).installAt (entryOf x s t (viewOf ig.team t n th) pa) next, []) := by
  have hthread : s.thread? { team := ig.team, n } = some th := thread?_of_find hf.2.1 hth
  have hone : ([(n, waitReq x (viewOf ig.team t n th), Loc.device pa)].filterMap fun e => e.2.2.deviceLine?).eraseDups =
      [deviceLine pa] := rfl
  have hctx : ((s.team? ig.team).map s.ctxOf).getD 0 = s.ctxOf t := by rw [hf.2.1]; rfl
  have hlane : ∀ w : WaitEntry, (Installs.lane { state := s } w next).state = s.install w next := fun w => by
    simp only [Installs.lane, List.all_nil, Bool.and_self, if_true]
    split <;> rfl
  rw [← install_here (th := th) hhere hthread, ← hlane]
  simp only [installing, hone, allReady_here hhere, List.foldl_cons, List.foldl_nil, hctx]
  rfl

/-- A thread whose `waddr` was answered goes on; clocks, and the times of its line, rise (R60, R190). -/
theorem answered_goesOn {s : State} {ig : IssueGroup} {t t1 : Team} {n next : Nat} {w : WaitEntry} {ok : Bool} {d : Nat}
    (hf : Formed s ig t) (hone : ig.threads = [n]) (hnear : t.near = false) (hplace : t1.clockKey = t.clockKey)
    (hid : w.tid = { team := ig.team, n }) (hd : w.pred = d) :
    ∃ homes clocks nextTag, Raised s clocks t.core ∧
      (∀ m, ((((evaluated (asking s w) t1 w).modThread w.tid (answered w next ok)).lineAt m).data) = (s.lineAt m).data) ∧
      (∀ h, (((evaluated (asking s w) t1 w).modThread w.tid (answered w next ok)).home h).waits = (s.home h).waits) ∧
      Touches { s with homes, clocks, nextTag } ((evaluated (asking s w) t1 w).modThread w.tid (answered w next ok)) ig t
        fun c th' => th' = { c.th.setP d ok with wait := .ready, pc := BitVec.ofNat 64 next } := by
  have hraised : Raised s (evaluated (asking s w) t1 w).clocks t.core := by
    rw [← clockKey_core hnear, ← hplace]
    exact raised_raise s _ _
  refine ⟨(evaluated (asking s w) t1 w).homes, _, s.nextTag + 1, hraised, fun m => evaluated_line (s := asking s w) m,
    fun h => evaluated_waits (s := asking s w) h, ?_⟩
  have hf1 : Formed { s with homes := (evaluated (asking s w) t1 w).homes, clocks := (evaluated (asking s w) t1 w).clocks
                             nextTag := s.nextTag + 1 } ig t := hf
  have hstate : (evaluated (asking s w) t1 w).modThread w.tid (answered w next ok) =
      State.modThread { s with homes := (evaluated (asking s w) t1 w).homes, clocks := (evaluated (asking s w) t1 w).clocks
                               nextTag := s.nextTag + 1 } { team := ig.team, n } fun th =>
        answered w next ok { th with wait := .install (deviceLine w.addr) s.nextTag } := by
    rw [← hid]
    exact modThread_modThread { s with homes := (evaluated (asking s w) t1 w).homes, clocks := (evaluated (asking s w) t1 w).clocks
                                       nextTag := s.nextTag + 1 } w.tid _ _
  rw [hstate]
  exact touches_modThread hf1 hone fun u hu => hd ▸ answered_waits w next ok u _

/-- Settles O24: the home that holds the line installs at once, so that the three outcomes are those of `installAt_eq`. -/
theorem waitOnAddress : Obligations.WaitOnAddress := by
  unfold Obligations.WaitOnAddress
  intro x s ig t n th pa l hf hone hth hnear c w r va size ln h waits holds goesOn hu hva hal hwin htr hdev hpow hqueue hstate
    hline hsound
  have hlineAt : s.lineAt ln = l := by rw [State.lineAt, hline]; rfl
  have hhere : Here s (deviceLine pa) :=
    { device := hdev, power := hpow, state := hstate
      first := by simpa using hqueue
      resident := by rw [State.isResident, Tab.has, hline]; rfl }
  have hexec := (execWaddr_eq x s).trans (withAccess_go hf hone hth rfl (wait_asks hf hth hu hwin)
    (reach_line (q := waitReq x c) hva hal hwin htr rfl) (observed_usable hf hth hu))
  rw [installing_one hf hhere hth, show ∀ u : State, u.deliverFaults [] = u from fun _ => rfl] at hexec
  set e := entryOf x s t c pa with he
  have hteam1 : (asking s e).team? e.tid.team = some (t.modThread n fun th => { th with wait := .install ln s.nextTag }) := by
    refine (team?_modThread { s with nextTag := s.nextTag + 1 } e.tid e.tid.team _).trans ?_
    rw [if_pos rfl, show ({ s with nextTag := s.nextTag + 1 } : State).team? e.tid.team = some t from hf.2.1]
    rfl
  have hasking : (asking s e).lineAt (deviceLine e.addr) = l := hlineAt
  have hwaits : ∀ t1, ((evaluated (asking s e) t1 e).home (homeOf (deviceLine e.addr))).waits = waits := fun t1 =>
    evaluated_waits (s := asking s e) h
  rw [installAt_eq hteam1 (by rw [hasking]; exact hsound), hasking, hwaits, show waitHolds e l = holds from rfl] at hexec
  have hgoesOn : ∀ ok t1, t1.clockKey = t.clockKey → goesOn ok ((evaluated (asking s e) t1 e).modThread e.tid
      (answered e (nextPc ig x.words) ok)) := fun ok t1 hkey => by
    obtain ⟨homes, clocks, nextTag, hraised, hlines, hkept, htouch⟩ :=
      answered_goesOn (next := nextPc ig x.words) (w := e) (ok := ok) (d := x.d.toNat) hf hone hnear hkey rfl rfl
    exact ⟨homes, clocks, nextTag, hraised, hlines, hkept h, htouch⟩
  refine ⟨_, hexec, fun hh => ?_, fun hh hfull => ?_, fun hh hroom => ⟨Tab.freeKey waits 256 0, Tables.find_freeKey hroom, ?_⟩⟩
  · rw [hh, Bool.true_or, if_pos rfl]
    exact hgoesOn true _ rfl
  · rw [hh, decide_eq_true hfull, Bool.or_true, if_pos rfl]
    exact hgoesOn false _ rfl
  · rw [hh, decide_eq_false (Nat.not_le.2 hroom), Bool.or_self, if_neg Bool.false_ne_true]
    obtain ⟨t1, ht1⟩ : ∃ t1, t1 = t.modThread n fun th => { th with wait := .install ln s.nextTag } := ⟨_, rfl⟩
    rw [← ht1]
    refine ⟨?_, ?_⟩
    · have hput := congrArg Home.waits (home_modHome (evaluated (asking s e) t1 e) h h fun g =>
        { g with waits := Tab.put (Tab.freeKey waits 256 0) e g.waits })
      rw [if_pos rfl] at hput
      exact hput.trans (congrArg (Tab.put _ e) (hwaits t1))
    · have hpark := thread?_modThread_same ((evaluated (asking s e) t1 e).modHome h fun g =>
        { g with waits := Tab.put (Tab.freeKey waits 256 0) e g.waits }) e.tid (parkedAt h (Tab.freeKey waits 256 0))
      have hask := thread?_modThread_same { s with nextTag := s.nextTag + 1 } e.tid
        fun th => { th with wait := .install ln s.nextTag }
      rw [show ({ s with nextTag := s.nextTag + 1 } : State).thread? e.tid = some th from thread?_of_find hf.2.1 hth] at hask
      exact hpark.trans (congrArg (Option.map _) hask)

end Sys2Proof.Proofs.Accesses

/-! Cancels (R352, R354, R367, R368): what a cancel may change, a launch once cancelled, and from these the three forms of
`cancq`. -/

namespace Sys2Proof.Proofs.Cancelling

open Sys2Proof Sys2Proof.Machine Sys2Proof.Claims Sys2Proof.Proofs.Lanes Sys2Proof.Proofs.Sweeps Sys2Proof.Proofs.Issue
  Sys2Proof.Proofs.Window

/-! ### What a cancel may change -/

/-- Nothing but the imprint tables has changed. -/
def Lowered (s s' : State) : Prop := { s' with imprints := s.imprints, boundaries := s.boundaries } = s

/-- Nothing but launches, the imprint tables and saved clusters has changed. -/
def LaunchSide (s s' : State) : Prop :=
  { s' with launches := s.launches, imprints := s.imprints, boundaries := s.boundaries, saved := s.saved } = s

theorem Lowered.trans {s s' s'' : State} (h : Lowered s s') (h' : Lowered s' s'') : Lowered s s'' :=
  (congrArg (fun u : State => { u with imprints := s.imprints, boundaries := s.boundaries }) h' :).trans h

theorem LaunchSide.trans {s s' s'' : State} (h : LaunchSide s s') (h' : LaunchSide s' s'') : LaunchSide s s'' :=
  (congrArg (fun u : State => { u with
    launches := s.launches, imprints := s.imprints, boundaries := s.boundaries, saved := s.saved }) h' :).trans h

theorem lowered_foldl {α : Type} {F : State → α → State} (hF : ∀ s a, Lowered s (F s a)) (l : List α) (s : State) :
    Lowered s (l.foldl F s) := by
  induction l generalizing s with
  | nil => rfl
  | cons a l ih => exact (hF s a).trans (ih _)

theorem launchSide_foldl {α : Type} {F : State → α → State} (hF : ∀ s a, LaunchSide s (F s a)) (l : List α) (s : State) :
    LaunchSide s (l.foldl F s) := by
  induction l generalizing s with
  | nil => rfl
  | cons a l ih => exact (hF s a).trans (ih _)

theorem Lowered.launchSide {s s' : State} (h : Lowered s s') : LaunchSide s s' :=
  (congrArg (fun u : State => { u with launches := s.launches, saved := s.saved }) h :)

theorem Lowered.launches {s s' : State} (h : Lowered s s') : s'.launches = s.launches := (congrArg State.launches h :)

theorem lowered_lowerInput (s : State) (ctx : Nat) (ran : Bool) (i : Input) : Lowered s (s.lowerInput ctx ran i) := by
  unfold State.lowerInput
  dsimp only
  repeat' split
  all_goals rfl

theorem lowered_lowerCluster (s : State) (l : Launch) (index : Nat) : Lowered s (s.lowerCluster l index) :=
  lowered_foldl (fun s i => lowered_lowerInput s l.ctx false i) _ s

theorem lowered_teamLowers (s : State) (t : Team) (l : Launch) : Lowered s (s.teamLowers t l) := by
  unfold State.teamLowers
  split
  · rfl
  · exact lowered_foldl (fun s i => lowered_lowerInput s l.ctx true i) _ s

theorem launchSide_retireSaved (s : State) (key : Nat) (v : SavedTeam) : LaunchSide s (s.retireSaved key v) := by
  unfold State.retireSaved
  split
  · exact (lowered_teamLowers s v.team _).launchSide.trans rfl
  · rfl

/-! ### The launch -/

/-- A launch but for its completion time. -/
def untimed (l : Launch) : Launch := { l with time := 0 }

/-- The retirement of a saved team changes no more of its launch than the completion time. -/
theorem retireSaved_launch (s : State) (key : Nat) (v : SavedTeam) :
    (Tab.find key (s.retireSaved key v).launches).map untimed = (Tab.find key s.launches).map untimed := by
  unfold State.retireSaved
  split
  next l hl =>
    show (Tab.find key (Tab.modify key _ (s.teamLowers v.team l).launches)).map untimed = _
    rw [Tab.find_modify_same, (lowered_teamLowers s v.team l).launches, Option.map_map]
    rfl
  next => rfl

theorem discardSaved_launch (s : State) (key : Nat) :
    (Tab.find key (s.discardSaved key).launches).map untimed = (Tab.find key s.launches).map untimed := by
  have hkeep : ∀ {α : Type} {F : State → α → State}, (∀ s a, (Tab.find key (F s a).launches).map untimed =
      (Tab.find key s.launches).map untimed) → ∀ (l : List α) (s : State),
      (Tab.find key (l.foldl F s).launches).map untimed = (Tab.find key s.launches).map untimed := by
    intro α F hF l
    induction l with
    | nil => exact fun s => rfl
    | cons a l ih => exact fun s => (ih _).trans (hF s a)
  exact hkeep (fun s (v : Saved) => hkeep (fun s t => retireSaved_launch s key t) v.teams s) _ s

theorem launchSide_discardSaved (s : State) (key : Nat) : LaunchSide s (s.discardSaved key) :=
  (launchSide_foldl (fun s (v : Saved) => launchSide_foldl (fun s t => launchSide_retireSaved s key t) v.teams s) _ s).trans rfl

theorem launchSide_cancelLaunch (s : State) (key : Nat) : LaunchSide s (s.cancelLaunch key) := by
  unfold State.cancelLaunch
  dsimp only
  split
  · exact rfl
  · split
    · exact rfl
    next l _ _ =>
      have hlower := lowered_foldl (fun s i => lowered_lowerCluster s l i) l.waiting s
      refine hlower.launchSide.trans (LaunchSide.trans ?_ (launchSide_discardSaved _ key))
      rfl

/-- A launch whose clusters not yet placed are dropped (R354). -/
def dropped (l : Launch) : Launch :=
  { l with
    cancel := true, waiting := [], next := recClusters l.record
    skip := l.skip + recTeams l.record * (recClusters l.record - l.next + l.waiting.length) }

/-- A launch once cancelled: the flag stands, and what was not placed has gone (R352, R354). -/
theorem cancelLaunch_launch {s : State} {key : Nat} {l : Launch} (hl : Tab.find key s.launches = some l) :
    ∃ l', Tab.find key (s.cancelLaunch key).launches = some l' ∧ l'.cancel = true ∧
      (l.cancel = false → l'.waiting = [] ∧ l'.next = recClusters l.record) := by
  unfold State.cancelLaunch
  simp only [hl]
  split
  next hc => exact ⟨l, hl, hc, fun hf => absurd (hc.symm.trans hf) (by decide)⟩
  next hc =>
    have hkept := discardSaved_launch ({ (l.waiting.foldl (fun s i => s.lowerCluster l i) s) with
      launches := Tab.put key (dropped l) (l.waiting.foldl (fun s i => s.lowerCluster l i) s).launches } : State) key
    rw [Tab.find_put_same, Option.map_some, Option.map_eq_some_iff] at hkept
    obtain ⟨l', hl', hsame⟩ := hkept
    exact ⟨l', hl', (congrArg Launch.cancel hsame :), fun _ => ⟨(congrArg Launch.waiting hsame :), (congrArg Launch.next hsame :)⟩⟩

theorem cancelLaunch_cancelled {s : State} {key : Nat} {l : Launch} (hl : Tab.find key s.launches = some l)
    (hc : l.cancel = true) : s.cancelLaunch key = s := by
  simp only [State.cancelLaunch, hl, hc, if_true]

/-! ### The core's flag -/

theorem flagCore_flags (s : State) (key core : Nat) : ((s.flagCore key core).core core).cancelled.contains key = true := by
  unfold State.flagCore
  dsimp only
  split
  next h => exact h
  next h =>
    have hcore := congrArg Core.cancelled (core_modCore s core core fun c =>
      { c with cancelled := key :: c.cancelled, bins := c.bins.filter fun (_, b) => b.launch != key })
    rw [if_pos rfl] at hcore
    exact (congrArg (List.contains · key) hcore).trans (by simp)

theorem flagCore_flagged {s : State} {key core : Nat} (h : (s.core core).cancelled.contains key = true) :
    s.flagCore key core = s := by simp only [State.flagCore, h, if_true]

/-- The flag changes no more of its launch than SKIP. -/
theorem flagCore_launch {s : State} {key core : Nat} {l : Launch} (hl : Tab.find key s.launches = some l) :
    ∃ skip, Tab.find key (s.flagCore key core).launches = some { l with skip } := by
  unfold State.flagCore
  dsimp only
  split
  · exact ⟨l.skip, hl⟩
  · exact ⟨_, (Tab.find_modify_same _ _ _).trans (congrArg (Option.map _) hl)⟩

/-- A flag changes launches and cores alone. -/
theorem flagCore_same (s : State) (key core : Nat) :
    { s.flagCore key core with launches := s.launches, cores := s.cores } = s := by
  unfold State.flagCore
  dsimp only
  split <;> rfl

/-! ### The instructions -/

theorem cancq_completes (x : XForm) : Completes (.cancq x) x.words (fun _ _ => True) fun s c =>
    c.th.setP x.d.toNat ((s.core c.team.core).cancelled.contains c.team.launch) := by
  refine completes_of_lane _ _ _ _ _ rfl fun s c s1 c1 h _ => ⟨_, rfl, ?_⟩
  have hcores : s1.cores = s.cores := (congrArg State.cores h.others.2 :)
  have hcore : c1.team.core = c.team.core := (congrArg Team.core h.team :)
  have hlaunch : c1.team.launch = c.team.launch := (congrArg Team.launch h.team :)
  rw [h.th, hcore, hlaunch, State.core, State.core, hcores]

/-- Lanes that need only the first of them to change the state: they run on it changed. -/
theorem execSeq_first {words : Nat} {f : State → View → Lane State} {s s1 : State} {ig : IssueGroup} {t : Team}
    (hf : Formed s ig t) (hne : ig.threads ≠ []) (hig : s1.ig = s.ig) (hteams : s1.teams = s.teams)
    (hfirst : ∀ n th, Tab.find n t.threads = some th → f s (viewOf ig.team t n th) = .ok s1)
    (hsecond : ∀ n th, Tab.find n t.threads = some th → f s1 (viewOf ig.team t n th) = .ok s1) :
    execSeq words none f s = execSeq words none f s1 := by
  obtain ⟨higs, hteam, -, hlisted⟩ := hf
  obtain ⟨n, ns, hns⟩ := List.exists_cons_of_ne_nil hne
  obtain ⟨th, hth⟩ := hlisted n (hns ▸ List.mem_cons_self)
  have hteam1 : s1.team? ig.team = some t := by rw [State.team?, hteams]; exact hteam
  have hview := view_eq s { team := ig.team, n } t th hteam hth
  have hview1 := view_eq s1 { team := ig.team, n } t th hteam1 hth
  refine (execLanes_next words none _ s ig higs).trans (.trans ?_ (execLanes_next words none _ s1 ig (hig.trans higs)).symm)
  rw [runLanes, runLanes, hns, List.foldl_cons, List.foldl_cons,
    runLane_ok _ none _ s _ _ s1 (nextPc ig words) hview rfl (congrArg (Except.map _) (hfirst n th hth)),
    runLane_ok _ none _ s1 _ _ s1 (nextPc ig words) hview1 rfl (congrArg (Except.map _) (hsecond n th hth))]

theorem cancqSelf_cancels {x : XForm} {s : State} {ig : IssueGroup} {t : Team} {l : Launch} (hf : Formed s ig t)
    (hne : ig.threads ≠ []) (hl : Tab.find t.launch s.launches = some l) :
    ∃ s' l', exec (.cancqSelf x) s = .next s' ∧ Tab.find t.launch s'.launches = some l' ∧ l'.cancel = true ∧
      (l.cancel = false → l'.waiting = [] ∧ l'.next = recClusters l.record) ∧
      (s'.core t.core).cancelled.contains t.launch = true ∧
      OnlyThreads { s with
        launches := s'.launches, imprints := s'.imprints, boundaries := s'.boundaries, saved := s'.saved, cores := s'.cores }
        s' ig t fun c => Thread.at c.th (nextPc ig x.words) := by
  obtain ⟨l1, hl1, hcancel, hgone⟩ := cancelLaunch_launch hl
  obtain ⟨u, hu⟩ : ∃ u, u = (s.cancelLaunch t.launch).flagCore t.launch t.core := ⟨_, rfl⟩
  obtain ⟨skip, hl2⟩ := flagCore_launch (core := t.core) hl1
  have hflag : (u.core t.core).cancelled.contains t.launch = true := hu ▸ flagCore_flags _ _ _
  have hsame : u = { s with
      launches := u.launches, imprints := u.imprints, boundaries := u.boundaries, saved := u.saved, cores := u.cores } := by
    have h1 := launchSide_cancelLaunch s t.launch
    have h2 := flagCore_same (s.cancelLaunch t.launch) t.launch t.core
    rw [← hu] at h2
    have h3 : { u with launches := s.launches, imprints := s.imprints, boundaries := s.boundaries, saved := s.saved
                       cores := (s.cancelLaunch t.launch).cores } = s :=
      (congrArg (fun w : State => { w with
        launches := s.launches, imprints := s.imprints, boundaries := s.boundaries, saved := s.saved }) h2 :).trans h1
    exact (congrArg (fun w : State => { w with launches := u.launches, imprints := u.imprints, boundaries := u.boundaries
                                               saved := u.saved, cores := u.cores }) h3 :)
  have hl3 : Tab.find t.launch u.launches = some { l1 with skip } := hu ▸ hl2
  have hteams : u.teams = s.teams := (congrArg State.teams hsame :)
  have hfu : Formed u ig t := by
    obtain ⟨hig, hteam, hrest⟩ := hf
    exact ⟨(congrArg State.ig hsame :).trans hig, by rw [State.team?, hteams]; exact hteam, hrest⟩
  have hstays : ∀ v : State, v.launches = u.launches → v.cores = u.cores →
      (v.cancelLaunch t.launch).flagCore t.launch t.core = v := fun v hlaunches hcores => by
    rw [cancelLaunch_cancelled (l := { l1 with skip }) (by rw [hlaunches]; exact hl3) hcancel, flagCore_flagged]
    rw [State.core, hcores]
    exact hflag
  have hexec : exec (.cancqSelf x) s = exec (.cancqSelf x) u :=
    execSeq_first hf hne (congrArg State.ig hsame :) hteams (fun n th _ => congrArg Except.ok hu.symm)
      fun n th _ => congrArg Except.ok (hstays u rfl rfl)
  obtain ⟨s', he, honly⟩ := execLanes_does (words := x.words) (g := none)
    (f := fun next s c => (Except.ok ((s.cancelLaunch c.team.launch).flagCore c.team.launch c.team.core) : Lane State).map
      fun s => (s, next)) (eff := fun c => Thread.at c.th (nextPc ig x.words)) hfu
    fun n hn th hth => laneDoes_goesOn rfl fun v c1 h => by
      have hcore : c1.team.core = t.core := (congrArg Team.core h.team :)
      have hlaunch : c1.team.launch = t.launch := (congrArg Team.launch h.team :)
      rw [hcore, hlaunch, hstays v (congrArg State.launches h.others.2 :) (congrArg State.cores h.others.2 :)]
      rfl
  have hrest := honly.2.2.2
  have hlaunches : s'.launches = u.launches := (congrArg State.launches hrest :)
  have hcores : s'.cores = u.cores := (congrArg State.cores hrest :)
  refine ⟨s', { l1 with skip }, hexec.trans he, by rw [hlaunches]; exact hl3, hcancel, hgone, ?_, ?_⟩
  · rw [State.core, hcores]
    exact hflag
  · rw [hlaunches, hcores, (congrArg State.imprints hrest :), (congrArg State.boundaries hrest :), (congrArg State.saved hrest :),
      ← hsame]
    exact honly

/-- The launch cancelled at a key has its flag set. -/
theorem cancelLaunch_flag {s : State} {key : Nat} (h : Tab.has s.launches key = true) :
    (Tab.find key (s.cancelLaunch key).launches).map Launch.cancel = some true := by
  obtain ⟨l, hl⟩ := Option.isSome_iff_exists.1 h
  obtain ⟨l', hl', hcancel, -⟩ := cancelLaunch_launch hl
  rw [hl', Option.map_some, hcancel]

/-- What `cancq.id` makes of the state but for its thread. -/
def cancelNamed (s : State) (t : Team) (id : Nat) : State :=
  match s.launchNamed id with
  | some (key, l) => if l.ctx = s.ctxOf t then s.cancelLaunch key else s
  | none => s

theorem launchSide_cancelNamed (s : State) (t : Team) (id : Nat) : LaunchSide s (cancelNamed s t id) := by
  unfold cancelNamed
  split
  · split
    · exact launchSide_cancelLaunch s _
    · rfl
  · rfl

theorem exec_cancqId {x : XForm} {s : State} {ig : IssueGroup} {t : Team} {n : Nat} {th : Thread} (hf : Formed s ig t)
    (hone : ig.threads = [n]) (hth : Tab.find n t.threads = some th) (hu : Usable .cancqId x 1 0 0 [] s (viewOf ig.team t n th)) :
    exec (.cancqId x) s =
      .next ((cancelNamed s t (th.vs (regsOf (viewOf ig.team t n th) .cancqId x 1 0 0).a 1)).modThread { team := ig.team, n }
        fun th => Thread.at th (nextPc ig x.words)) := by
  have hclaim : s.claimRegs (viewOf ig.team t n th) (regsOf (viewOf ig.team t n th) .cancqId x 1 0 0).srcs [] = .ok s :=
    claimRegs_usable (agrees_first hf hth) hu
  show execCancqId x s = _
  unfold execCancqId
  refine execSeq_single hf hone hth ?_
  simp only [operands_of_usable hu, hclaim, bind, Except.bind]
  rw [show th.vs _ 1 = (viewOf ig.team t n th).th.vs (regsOf (viewOf ig.team t n th) .cancqId x 1 0 0).a 1 from rfl, cancelNamed]
  cases s.launchNamed ((viewOf ig.team t n th).th.vs (regsOf (viewOf ig.team t n th) .cancqId x 1 0 0).a 1) <;> rfl

theorem cancqId_cancels {x : XForm} {s : State} {ig : IssueGroup} {t : Team} {n : Nat} {th : Thread} (hf : Formed s ig t)
    (hone : ig.threads = [n]) (hth : Tab.find n t.threads = some th) :
    let c := viewOf ig.team t n th
    Usable .cancqId x 1 0 0 [] s c →
    ∃ s', exec (.cancqId x) s = .next s' ∧
      OnlyThreads { s with
        launches := s'.launches, imprints := s'.imprints, boundaries := s'.boundaries, saved := s'.saved }
        s' ig t (fun c => Thread.at c.th (nextPc ig x.words)) ∧
      match s.launchNamed (c.th.vs (regsOf c .cancqId x 1 0 0).a 1) with
      | none => s'.launches = s.launches
      | some (k, l) =>
        if l.ctx = s.ctxOf t then (Tab.find k s'.launches).map Launch.cancel = some true else s'.launches = s.launches := by
  intro c hu
  obtain ⟨id, hid⟩ : ∃ id, id = c.th.vs (regsOf c .cancqId x 1 0 0).a 1 := ⟨_, rfl⟩
  obtain ⟨u, hcancel⟩ : ∃ u, u = cancelNamed s t id := ⟨_, rfl⟩
  have hside : LaunchSide s u := hcancel ▸ launchSide_cancelNamed s t id
  have hbase : { s with launches := u.launches, imprints := u.imprints, boundaries := u.boundaries, saved := u.saved } = u :=
    (congrArg (fun v : State => { v with
      launches := u.launches, imprints := u.imprints, boundaries := u.boundaries, saved := u.saved }) hside.symm :)
  have hfu : Formed u ig t := by
    rw [← hbase]
    exact hf
  have he := exec_cancqId hf hone hth hu
  rw [show th.vs _ 1 = id from hid.symm, ← hcancel] at he
  refine ⟨_, he, ?_, ?_⟩
  · rw [show ({ s with
      launches := (u.modThread { team := ig.team, n } fun th => Thread.at th (nextPc ig x.words)).launches
      imprints := (u.modThread { team := ig.team, n } fun th => Thread.at th (nextPc ig x.words)).imprints
      boundaries := (u.modThread { team := ig.team, n } fun th => Thread.at th (nextPc ig x.words)).boundaries
      saved := (u.modThread { team := ig.team, n } fun th => Thread.at th (nextPc ig x.words)).saved } : State) = u from hbase]
    exact onlyThreads_goesOn hfu hone _
  · rw [← hid]
    show match s.launchNamed id with
      | none => u.launches = s.launches
      | some (k, l) => if l.ctx = s.ctxOf t then (Tab.find k u.launches).map Launch.cancel = some true else u.launches = s.launches
    rw [hcancel, cancelNamed]
    cases hnamed : s.launchNamed id with
    | none => rfl
    | some e =>
      dsimp only
      split
      next => exact cancelLaunch_flag (Tables.has_of_mem (List.mem_of_find?_eq_some hnamed))
      next => rfl

/-- Settles O39: a cancel touches launches, the imprint tables and saved clusters alone, and once made, with the core's flag
set, it changes nothing again, so that an issue group cancels as its first lane does. -/
theorem cancels : Obligations.Cancels :=
  ⟨cancq_completes, fun _ _ _ _ _ hf hne hl => cancqSelf_cancels hf hne hl, fun _ _ _ _ _ _ hf hone hth => cancqId_cancels hf hone hth⟩

end Sys2Proof.Proofs.Cancelling

/-! Owners (R46, R48, R51): the region slice that a forward or a discovery reaches. -/

namespace Sys2Proof.Proofs.Owners

open Sys2Proof Sys2Proof.Machine Sys2Proof.Claims

section
variable {s : State} {tag : Nat} {m : Msg} {excl disc : Bool}

/-- An owner answers with the line's data and times, and gives the copy up or keeps it shared (R46). -/
theorem meetForward_owned {c : Copy} (hgrant : s.granting m.region m.line = false)
    (hc : Tab.find m.line (s.region m.region).copies = some c) (howned : c.owned = true) :
    s.meetForward tag m excl disc = ((s.taken tag).modRegion m.region fun g => g.surrender m.line !excl).send
      { kind := .answer !excl, line := m.line, region := m.region, tag := m.tag, data := c.data, dirty := c.dirty, wts := c.wts
        rts := c.rts, hint := c.hint } := by
  simp only [State.meetForward, hgrant, Bool.false_eq_true, if_false, hc, Option.filter, howned, if_true]

/-- A slice without the line answers FWD_GONE to a forward (R48). -/
theorem meetForward_gone (hgrant : s.granting m.region m.line = false)
    (hc : Tab.find m.line (s.region m.region).copies = none) :
    s.meetForward tag m excl false =
      (s.taken tag).send { kind := .fwdGone, line := m.line, region := m.region, tag := m.tag } := by
  simp only [State.meetForward, hgrant, Bool.false_eq_true, if_false, hc, Option.filter, Bool.not_false, Bool.or_true, if_true]

/-- A slice without the line, and without a write-back of it, does not answer a discovery (R51). -/
theorem meetForward_silent (hgrant : s.granting m.region m.line = false)
    (hc : Tab.find m.line (s.region m.region).copies = none) (hwbuf : Tab.has (s.region m.region).wbuf m.line = false) :
    s.meetForward tag m excl true = s.taken tag := by
  simp only [State.meetForward, hgrant, Bool.false_eq_true, if_false, hc, Option.filter, hwbuf, Bool.not_true, Bool.or_self]

/-- The copies of a region that has surrendered a line: that line's is shared or gone, and the others stay. -/
theorem find_surrender (g : Region) (ln k : Nat) (keep : Bool) : Tab.find k (g.surrender ln keep).copies =
    if k = ln then if keep then (Tab.find ln g.copies).map fun c => { c with owned := false, dirty := false } else none
    else Tab.find k g.copies := by
  cases keep
  · exact Tab.find_del _ _ _
  · refine (Tab.find_modify _ _ _ _).trans ?_
    split
    next h => rw [h]; rfl
    next => rfl

/-- The answer of an owner, and what is left of its copy. -/
theorem answers_of {i : Instr} {keeps : Bool} (hexec : exec i s = .next (s.meetForward tag m (!keeps) disc))
    (hgrant : s.granting m.region m.line = false) (c : Copy) (hc : Tab.find m.line (s.region m.region).copies = some c)
    (howned : c.owned = true) :
    ∃ s', exec i s = .next s' ∧
      Tab.find m.line (s'.region m.region).copies = (if keeps then some { c with owned := false, dirty := false } else none) ∧
      (∀ k, k ≠ m.line → Tab.find k (s'.region m.region).copies = Tab.find k (s.region m.region).copies) ∧ s'.homes = s.homes ∧
      Sent s s'
        { kind := .answer keeps, line := m.line, region := m.region, tag := m.tag, data := c.data, dirty := c.dirty
          wts := c.wts, rts := c.rts, hint := c.hint } := by
  rw [meetForward_owned hgrant hc howned, Bool.not_not] at hexec
  have hregion : (((s.taken tag).modRegion m.region fun g => g.surrender m.line keeps).region m.region) =
      (s.region m.region).surrender m.line keeps := (region_modRegion (s.taken tag) _ _ _).trans (if_pos rfl)
  refine ⟨_, hexec, ?_, fun k hk => ?_, rfl, (find_send _ _ _).trans (if_pos rfl)⟩
  · refine (congrArg (fun g : Region => Tab.find m.line g.copies) hregion).trans ((find_surrender _ _ _ _).trans ?_)
    rw [if_pos rfl, hc]
    rfl
  · exact (congrArg (fun g : Region => Tab.find k g.copies) hregion).trans ((find_surrender _ _ _ _).trans (if_neg hk))

theorem gone_of {i : Instr} (hexec : exec i s = .next (s.meetForward tag m excl false))
    (hgrant : s.granting m.region m.line = false) (hc : Tab.find m.line (s.region m.region).copies = none) :
    ∃ s', exec i s = .next s' ∧ s'.regions = s.regions ∧ s'.homes = s.homes ∧
      Sent s s' { kind := .fwdGone, line := m.line, region := m.region, tag := m.tag } :=
  ⟨_, hexec.trans (congrArg _ (meetForward_gone hgrant hc)), rfl, rfl, (find_send _ _ _).trans (if_pos rfl)⟩

end

/-- Settles O43: each message is `meetForward`, for sharing or for ownership, of a forward or of a discovery. -/
theorem ownersAnswer : Obligations.OwnersAnswer := by
  unfold Obligations.OwnersAnswer
  intro s tag m harrives htag hgrant copies answered gone
  refine ⟨fun hkind => ?_, fun hkind => ?_, fun excl hkind => ?_⟩
  · have hexec : exec (.fwdS tag) s = .next (s.meetForward tag m false false) := by
      show execFwdS tag s = _
      simp only [execFwdS, harrives, hkind, beq_self_eq_true, if_true]
    exact ⟨answers_of (keeps := true) hexec hgrant, gone_of hexec hgrant⟩
  · have hexec : exec (.fwdX tag) s = .next (s.meetForward tag m true false) := by
      show execFwdX tag s = _
      simp only [execFwdX, harrives, hkind, beq_self_eq_true, if_true]
    exact ⟨answers_of (keeps := false) hexec hgrant, gone_of hexec hgrant⟩
  · have hexec : exec (.disc tag) s = .next (s.meetForward tag m excl true) := by
      show execDisc tag s = _
      simp only [execDisc, harrives, hkind]
    exact ⟨answers_of (keeps := !excl) (by rw [Bool.not_not]; exact hexec) hgrant, fun hc hwbuf =>
      hexec.trans (congrArg _ (meetForward_silent hgrant hc hwbuf))⟩

end Sys2Proof.Proofs.Owners

/-! Replies at a region slice (R43, R46 to R49, R53, R60): the slice that a reply has reached, a `.byp` DATA, refusals and
wakes. -/

namespace Sys2Proof.Proofs.Replies

open Sys2Proof Sys2Proof.Machine Sys2Proof.Claims Sys2Proof.Proofs.Accesses

/-! ### The slice -/

/-- A copy but for its hint. -/
def unhinted (c : Copy) : Copy := { c with hint := 0 }

/-- A copy but for its use, with a given hint. -/
def hinted (hint : Nat) (c : Copy) : Copy := { c with used := 0, hint }

/-- A copy but for its use. -/
def unused (c : Copy) : Copy := { c with used := 0 }

/-- A line's copy once an access to it is recorded, whether the slice holds it or not (R54). -/
theorem touch_line (g : Region) (ln hint : Nat) :
    (Tab.find ln (g.touch ln hint).copies).map unused = (Tab.find ln g.copies).map (hinted hint) := by
  have hline : (Tab.find ln (marked g ln hint)).map unused = (Tab.find ln g.copies).map (hinted hint) := by
    rw [marked, Tab.find_modify_same, Option.map_map]
    rfl
  obtain hc | ⟨v, hv, hc⟩ := touch_spares g ln hint
  · rw [hc, hline]
  · rw [hc, Tab.find_modify_other (Ne.symm hv), hline]

theorem touch_other (g : Region) {ln k : Nat} (hint : Nat) (hk : k ≠ ln) :
    (Tab.find k (g.touch ln hint).copies).map unhinted = (Tab.find k g.copies).map unhinted := by
  have hother : Tab.find k (marked g ln hint) = Tab.find k g.copies := Tab.find_modify_other hk _ _
  obtain hc | ⟨v, -, hc⟩ := touch_spares g ln hint
  · rw [hc, hother]
  · rw [hc, Tab.find_modify]
    split
    · rw [Option.map_map, hother]
      rfl
    · rw [hother]

theorem asked_touch (g : Region) (ln hint : Nat) : (g.touch ln hint).asked = g.asked := rfl

theorem asked_answered {g : Region} {m : Msg} (h : Tab.find m.line g.asked = some m.tag) :
    Tab.find m.line (g.answered m).asked = none := by
  rw [Region.answered, if_pos h]
  exact (Tab.find_del _ _ _).trans (if_pos rfl)

/-! ### A reply -/

section
variable {s : State} {tag : Nat} {m : Msg}

/-- A message taken and a region changed: the rest of the state is as it was. -/
theorem taken_quiet (f : Region → Region) :
    Tab.find tag ((s.taken tag).modRegion m.region f).net = none ∧
      (∀ r, r ≠ m.region → ((s.taken tag).modRegion m.region f).region r = s.region r) ∧
      { (s.taken tag).modRegion m.region f with regions := s.regions, net := s.net } = s :=
  ⟨(find_taken s tag tag).trans (if_pos rfl), fun r hr => (region_modRegion _ _ r f).trans (if_neg hr), rfl⟩

theorem region_taken (f : Region → Region) : ((s.taken tag).modRegion m.region f).region m.region = f (s.region m.region) :=
  (region_modRegion (s.taken tag) m.region m.region f).trans (if_pos rfl)

/-- The line of a reply as its slice has it before the operations that waited go on (R43, R46, R53). -/
theorem meetReply_becomes {i : Instr} {f : Tab Copy → Tab Copy} {c : Option Copy} (hexec : exec i s = .next (s.meetReply tag m f))
    (hline : (Tab.find m.line (f (s.region m.region).copies)).map (hinted m.hint) = c.map (hinted m.hint))
    (hother : ∀ k, k ≠ m.line → Tab.find k (f (s.region m.region).copies) = Tab.find k (s.region m.region).copies)
    (hasked : Tab.find m.line (s.region m.region).asked = some m.tag) :
    ∃ s' : State, exec i s = .next (s'.sweepSlice m.region m.line) ∧
      (Tab.find m.line (s'.region m.region).copies).map unused = c.map (hinted m.hint) ∧
      Tab.find m.line (s'.region m.region).asked = none ∧
      (Tab.find tag s'.net = none ∧ (∀ r, r ≠ m.region → s'.region r = s.region r) ∧
        { s' with regions := s.regions, net := s.net } = s) ∧
      ∀ k, k ≠ m.line →
        (Tab.find k (s'.region m.region).copies).map unhinted = (Tab.find k (s.region m.region).copies).map unhinted := by
  refine ⟨_, hexec, ?_, ?_, taken_quiet _, fun k hk => ?_⟩
  · rw [region_taken, touch_line]
    exact hline
  · rw [region_taken, asked_touch]
    exact asked_answered hasked
  · rw [region_taken, touch_other _ _ hk]
    exact congrArg _ (hother k hk)

/-- The copies of a slice with one entry set back to what it was. -/
theorem find_restored (t : Tab Copy) (c : Copy) (ln k : Nat) :
    Tab.find k (match Tab.find ln t with | some b => Tab.put ln b (Tab.put ln c t) | none => Tab.del ln (Tab.put ln c t)) =
      Tab.find k t := by
  by_cases hk : k = ln
  · subst hk
    cases h : Tab.find k t with
    | none => exact (Tab.find_del _ _ _).trans (if_pos rfl)
    | some b => exact Tab.find_put_same _ _ _
  · cases Tab.find ln t with
    | none => exact (Tab.find_del _ _ _).trans ((if_neg hk).trans (Tab.find_put_other hk _ _))
    | some b => exact (Tab.find_put_other hk _ _).trans (Tab.find_put_other hk _ _)

/-- A `.byp` DATA serves the load that asked for it and leaves no copy (R43, R54). -/
theorem bypass_leaves (hhint : m.hint = 3) (hkind : m.kind = .data) (harrives : s.arriving tag = some m)
    (hops : s.memops = []) (hasked : Tab.find m.line (s.region m.region).asked = some m.tag) :
    ∃ s' : State, exec (.data tag) s = .next (s'.sweepSlice m.region m.line) ∧
      Tab.find m.line (s'.region m.region).asked = none ∧
      (Tab.find tag s'.net = none ∧ (∀ r, r ≠ m.region → s'.region r = s.region r) ∧
        { s' with regions := s.regions, net := s.net } = s) ∧
      ∀ k, Tab.find k (s'.region m.region).copies = Tab.find k (s.region m.region).copies := by
  obtain ⟨c, hc⟩ : ∃ c : Copy, c = { owned := false, data := m.data, wts := m.wts, rts := m.rts, hint := m.hint } := ⟨_, rfl⟩
  obtain ⟨u, hu⟩ : ∃ u : State, u = (s.taken tag).modRegion m.region fun g => { g.answered m with copies := Tab.put m.line c g.copies } :=
    ⟨_, rfl⟩
  have hregion : u.region m.region = { (s.region m.region).answered m with copies := Tab.put m.line c (s.region m.region).copies } :=
    hu ▸ region_taken _
  obtain ⟨v, hv⟩ : ∃ v : State, v = u.modRegion m.region fun g => { g with
      copies := match Tab.find m.line (s.region m.region).copies with
        | some b => Tab.put m.line b g.copies
        | none => Tab.del m.line g.copies } := ⟨_, rfl⟩
  have hregion2 : v.region m.region = { u.region m.region with
      copies := match Tab.find m.line (s.region m.region).copies with
        | some b => Tab.put m.line b (u.region m.region).copies
        | none => Tab.del m.line (u.region m.region).copies } := hv ▸ (region_modRegion _ _ _ _).trans (if_pos rfl)
  have hmemops : ({ u with memops := Tab.modify m.op (fun o => { o with atHome := m.line :: o.atHome }) u.memops } : State) = u := by
    have : u.memops = [] := by rw [hu]; exact hops
    rw [this]
    exact (congrArg (fun l => { u with memops := l }) this.symm :)
  have hsweep : u.sweep m.op = (u, []) := by
    rw [State.sweep, show u.memops = [] from by rw [hu]; exact hops]
    rfl
  have hexec : exec (.data tag) s = .next (v.sweepSlice m.region m.line) := by
    show execData tag s = _
    simp only [execData, harrives, hkind, beq_self_eq_true, if_true, hhint]
    rw [← hhint, ← hc, ← hu, hmemops, hsweep]
    exact congrArg (fun w : State => Host.Outcome.next (w.sweepSlice m.region m.line)) hv.symm
  refine ⟨v, hexec, ?_, ⟨?_, fun r hr => ?_, ?_⟩, fun k => ?_⟩
  · rw [hregion2, hregion]
    exact asked_answered hasked
  · rw [hv, hu]
    exact (find_taken s tag tag).trans (if_pos rfl)
  · rw [hv, region_modRegion, if_neg hr, hu]
    exact (region_modRegion _ _ r _).trans (if_neg hr)
  · rw [hv, hu]
    rfl
  · rw [hregion2, hregion]
    exact find_restored _ c m.line k

/-- A woken thread goes on with its predicate true, its core's clock at the time of the write (R60, R72). -/
theorem wake_goesOn {i : Tid} {p : Nat} {t : Team} {th : Thread} {h e : Nat} (harrives : s.arriving tag = some m)
    (hkind : m.kind = .wake i p) (hteam : s.team? i.team = some t) (hth : Tab.find i.n t.threads = some th)
    (hwait : th.wait = .address h e) :
    ∃ s' th', exec (.wake tag) s = .next s' ∧ s'.thread? i = some th' ∧ th'.wait = .ready ∧ th'.pc = th.pc + 12 ∧
      th'.preds = (th.setP p true).preds ∧ th'.regs = th.regs ∧ m.wts ≤ s'.clock t.clockKey ∧ s'.hbm = s.hbm := by
  have hexec : exec (.wake tag) s = .next (((s.taken tag).raise t.clockKey m.wts).modThread i fun th => th.woken p) := by
    show execWake tag s = _
    simp only [execWake, harrives, hkind, show (s.taken tag).team? i.team = some t from hteam]
  have hthread : s.thread? i = some th := by rw [State.thread?, hteam]; exact hth
  have hwoken : th.woken p = { th.setP p true with wait := .ready, age := 0, pc := th.pc + 12 }.stirred := by
    rw [Thread.woken, hwait]
  have hafter := thread?_modThread_same ((s.taken tag).raise t.clockKey m.wts) i fun th => th.woken p
  rw [show ((s.taken tag).raise t.clockKey m.wts).thread? i = some th from hthread, Option.map_some, hwoken] at hafter
  refine ⟨_, _, hexec, hafter, rfl, rfl, rfl, ?_, ?_, rfl⟩
  · show (th.setP p true).regs = th.regs
    unfold Thread.setP
    split <;> rfl
  · refine (Nat.le_max_right (s.clock t.clockKey) m.wts).trans (Nat.le_of_eq (Eq.symm ?_))
    exact (clock_raise (s.taken tag) t.clockKey m.wts t.clockKey).trans (if_pos rfl)

end

/-- Settles O44: each reply is `meetReply`, for the table of copies that it makes; a copy that is replaced has the message's
hint, and no other loses more than its own. -/
theorem repliesAtRegion : Obligations.RepliesAtRegion := by
  unfold Obligations.RepliesAtRegion
  intro s tag m harrives old keeps quiet becomes
  have hput : ∀ c : Copy, (Tab.find m.line (Tab.put m.line c old)).map (hinted m.hint) = (some c).map (hinted m.hint) := fun c => by
    rw [Tab.find_put_same]
  have hmodify : ∀ f : Copy → Copy, (Tab.find m.line (Tab.modify m.line f old)).map (hinted m.hint) =
      ((Tab.find m.line old).map f).map (hinted m.hint) := fun f => by rw [Tab.find_modify_same]
  refine ⟨fun hkind hhint => ?_, fun hkind hhint hops hasked => bypass_leaves hhint hkind harrives hops hasked, fun hkind => ?_,
    fun hkind => ?_, fun hkind => ?_, fun hkind => ?_, fun r hkind htag => ?_, fun r due hkind hdue htag => ?_,
    fun i p t th h e hkind hteam hth hwait => wake_goesOn harrives hkind hteam hth hwait⟩
  · refine meetReply_becomes (f := Tab.put m.line
      { owned := false, data := m.data, wts := m.wts, rts := m.rts, hint := m.hint }) ?_ ?_ fun k hk => Tab.find_put_other hk _ _
    · show execData tag s = _
      simp only [execData, harrives, hkind, beq_self_eq_true, if_true, if_neg hhint]
    · exact hput _
  · refine meetReply_becomes (f := Tab.put m.line
      { owned := true, data := m.data, wts := m.wts, rts := m.rts, hint := m.hint }) ?_ ?_ fun k hk => Tab.find_put_other hk _ _
    · show execDataX tag s = _
      simp only [execDataX, harrives, hkind, beq_self_eq_true, if_true]
    · exact hput _
  · refine meetReply_becomes (f := Tab.modify m.line fun c => { c with wts := m.wts, rts := m.rts }) ?_ (hmodify _)
      fun k hk => Tab.find_modify_other hk _ _
    show execRenew tag s = _
    simp only [execRenew, harrives, hkind, beq_self_eq_true, if_true]
  · refine meetReply_becomes (f := Tab.modify m.line fun c => { c with owned := true, wts := m.wts, rts := m.rts }) ?_ (hmodify _)
      fun k hk => Tab.find_modify_other hk _ _
    show execGrantX tag s = _
    simp only [execGrantX, harrives, hkind, beq_self_eq_true, if_true]
  · refine ⟨(s.taken tag).modRegion m.region fun g => { g with wbuf := Tab.del m.line g.wbuf }, ?_, ?_, ?_, taken_quiet _⟩
    · show execWbAck tag s = _
      simp only [execWbAck, harrives, hkind, beq_self_eq_true, if_true]
    · rw [region_taken]
      exact (Tab.find_del _ _ _).trans (if_pos rfl)
    · rw [region_taken]
  · have hexec : exec (.nack tag) s = .next ((s.taken tag).send
        { kind := .retry r (s.cycle + 16), line := m.line, region := m.region, tag := m.tag }) := by
      show execNack tag s = _
      simp only [execNack, harrives, hkind]
    exact ⟨_, hexec, rfl, (find_send _ _ _).trans (if_pos rfl)⟩
  · have hexec : exec (.nackRetry tag) s = .next ((s.taken tag).send
        { kind := .req r, line := m.line, region := m.region, tag := m.tag }) := by
      show execNackRetry tag s = _
      simp only [execNackRetry, harrives, hkind, hdue, if_true]
    exact ⟨_, hexec, rfl, (find_send _ _ _).trans (if_pos rfl)⟩

end Sys2Proof.Proofs.Replies

/-! Homes (R39 to R54): what recording an access changes, what is left once a home has served what it can, a GETS that meets its
line in H, and from these the statement about data that comes home. -/

namespace Sys2Proof.Proofs.Slices

open Sys2Proof Sys2Proof.Machine

/-! ### Messages on their way -/

/-- A slice has given up copies, and every message under an earlier tag is still on its way. -/
def Tidied (s s' : State) : Prop := GivesUp s s' ∧ ∀ tag, tag < s.nextTag → Tab.find tag s'.net = Tab.find tag s.net

theorem tidied_refl (s : State) : Tidied s s := ⟨givesUp_refl s, fun _ _ => rfl⟩

theorem Tidied.trans {s s' s'' : State} (h : Tidied s s') (h' : Tidied s' s'') : Tidied s s'' :=
  ⟨h.1.trans h'.1, fun tag ht => (h'.2 tag (Nat.lt_of_lt_of_le ht h.1.2.1)).trans (h.2 tag ht)⟩

theorem tidied_foldl {α : Type} {F : State → α → State} (hF : ∀ s a, Tidied s (F s a)) (l : List α) (s : State) :
    Tidied s (l.foldl F s) := by
  induction l generalizing s with
  | nil => exact tidied_refl s
  | cons a l ih => exact (hF s a).trans (ih _)

theorem tidied_dropCopy (s : State) (r ln : Nat) : Tidied s (s.dropCopy r ln) := by
  refine ⟨givesUp_dropCopy s r ln, fun tag ht => ?_⟩
  have hlog : ∀ d, (s.logLine d).net = s.net ∧ (s.logLine d).nextTag = s.nextTag := fun d => by
    unfold State.logLine
    split <;> exact ⟨rfl, rfl⟩
  unfold State.dropCopy
  dsimp only
  split
  · rfl
  next c _ =>
    split
    · rfl
    · split
      · obtain ⟨hnet, htag⟩ := hlog c.data
        refine (find_send _ _ _).trans ((if_neg ?_).trans (congrArg (Tab.find tag) hnet))
        exact Nat.ne_of_lt (ht.trans_eq htag.symm)
      · rfl

theorem tidied_fitSlice (s : State) (core : Nat) : Tidied s (s.fitSlice core) := by
  refine tidied_foldl (fun s _ => ?_) _ s
  split
  · exact tidied_dropCopy s _ _
  · exact tidied_refl s

theorem tidied_fitSlices (s : State) : Tidied s s.fitSlices :=
  tidied_foldl (fun s _ => tidied_foldl tidied_fitSlice _ s) _ s

section
variable {s s' : State} (h : Tidied s s')
include h

theorem Tidied.homes : s'.homes = s.homes := (congrArg State.homes h.1.1 :)

theorem Tidied.home (k : Nat) : s'.home k = s.home k := by rw [State.home, h.homes, State.home]

theorem Tidied.hbm : s'.hbm = s.hbm := (congrArg State.hbm h.1.1 :)

theorem Tidied.teams : s'.teams = s.teams := (congrArg State.teams h.1.1 :)

theorem Tidied.lineAt (ln : Nat) : s'.lineAt ln = s.lineAt ln := by
  obtain ⟨⟨hrest, -⟩, -⟩ := h
  exact (congrArg (State.lineAt · ln) hrest :)

end

end Sys2Proof.Proofs.Slices

namespace Sys2Proof.Proofs.Homes

open Sys2Proof Sys2Proof.Machine Sys2Proof.Claims Sys2Proof.Proofs.Slices Sys2Proof.Proofs.Accesses

/-! ### A home that nothing waits at -/

theorem serveOps_quiet {s : State} {h : Nat} (fuel : Nat) (hq : HomeQuiet s h) : s.serveOps h fuel = (s, []) := by
  obtain ⟨hqueue, -, hmarks⟩ := hq
  have hnone : (s.memops.filter fun (_, o) => !o.atHome.isEmpty) = [] := List.filter_eq_nil_iff.2 fun p hp => by
    simp [hmarks p hp]
  cases fuel with
  | zero => rfl
  | succ fuel => simp only [State.serveOps, hnone, List.isEmpty_nil, if_true, State.drainQueue, hqueue, List.foldl_nil,
      Bool.false_eq_true, if_false]

/-- A home that nothing waits at only tidies the slices (R10). -/
theorem settle_quiet {s : State} {h : Nat} (fuel : Nat) (hq : HomeQuiet s h) : Tidied s (s.settle h fuel) := by
  have hrequests : s.port.requests = [] := hq.2.1
  simp only [State.settle, serveOps_quiet fuel hq, show s.deliverFaults [] = s from rfl, hrequests, List.length_nil,
    State.servePort]
  exact tidied_fitSlices s

/-! ### Recording an access -/

/-- A home line with another use and hint. -/
def Reused (l l' : HomeLine) : Prop := ∃ used hint, l' = { l with used, hint }

/-- Homes differ in their lines and their count of uses alone. -/
def SameHomes (s s' : State) : Prop :=
  { s' with homes := s.homes } = s ∧
    ∀ k, { s'.home k with lines := (s.home k).lines, order := (s.home k).order } = s.home k

theorem SameHomes.trans {s s' s'' : State} (h : SameHomes s s') (h' : SameHomes s' s'') : SameHomes s s'' := by
  obtain ⟨hrest, hhome⟩ := h
  obtain ⟨hrest', hhome'⟩ := h'
  refine ⟨(congrArg (fun u : State => { u with homes := s.homes }) hrest' :).trans hrest, fun k => ?_⟩
  exact (congrArg (fun g : Home => { g with lines := (s.home k).lines, order := (s.home k).order }) (hhome' k) :).trans (hhome k)

/-- A home changed in its lines and its count of uses. -/
theorem sameHomes_modHome (s : State) (h : Nat) {f : Home → Home}
    (hf : { f (s.home h) with lines := (s.home h).lines, order := (s.home h).order } = s.home h) : SameHomes s (s.modHome h f) := by
  refine ⟨rfl, fun k => ?_⟩
  rw [home_modHome]
  split
  next hk => rw [hk]; exact hf
  next => rfl

theorem sameHomes_putLineAt (s : State) (ln : Nat) (l : HomeLine) : SameHomes s (s.putLineAt ln l) :=
  sameHomes_modHome s _ rfl

/-- What an access at the home records: uses and hints (R54). -/
theorem touchHome_same (s : State) (ln hint : Nat) : SameHomes s (s.touchHome ln hint) ∧
    ∀ m, Reused (s.lineAt m) ((s.touchHome ln hint).lineAt m) := by
  obtain ⟨u, hu⟩ : ∃ u, u = (s.modHome (homeOf ln) fun h => { h with order := h.order + 1 }).putLineAt ln
      { s.lineAt ln with used := if hint = 1 ∨ hint = 3 then 0 else (s.home (homeOf ln)).order + 1, hint } := ⟨_, rfl⟩
  have horder : ∀ m, (s.modHome (homeOf ln) fun h => { h with order := h.order + 1 }).lineAt m = s.lineAt m := fun m => by
    simp only [State.lineAt, home_modHome]
    split
    next h => rw [h]; rfl
    next => rfl
  have hsame : SameHomes s u := hu ▸ (sameHomes_modHome s _ rfl).trans (sameHomes_putLineAt _ _ _)
  have hlines : ∀ m, Reused (s.lineAt m) (u.lineAt m) := fun m => by
    rw [hu, lineAt_putLineAt]
    split
    next h => exact h ▸ ⟨_, _, rfl⟩
    next => exact ⟨_, _, horder m⟩
  have hunstick : ∀ v m, Reused (s.lineAt m) ((u.modHome (homeOf ln) fun h =>
      { h with lines := Tab.modify v (fun l => { l with hint := 0 }) h.lines }).lineAt m) := fun v m => by
    obtain ⟨used, hint', hm⟩ := hlines m
    have hstep : Reused (u.lineAt m) ((u.modHome (homeOf ln) fun h =>
        { h with lines := Tab.modify v (fun l => { l with hint := 0 }) h.lines }).lineAt m) := by
      simp only [State.lineAt, home_modHome]
      split
      next hh =>
        rw [hh, Tab.find_modify]
        split
        · cases Tab.find m (u.home (homeOf ln)).lines with
          | none => exact ⟨_, _, rfl⟩
          | some l => exact ⟨_, _, rfl⟩
        · exact ⟨_, _, rfl⟩
      next => exact ⟨_, _, rfl⟩
    obtain ⟨used2, hint2, hm2⟩ := hstep
    exact ⟨used2, hint2, by rw [hm2, hm]⟩
  unfold State.touchHome
  dsimp only
  rw [← hu]
  split
  · split
    · exact ⟨hsame.trans (sameHomes_modHome _ _ rfl), fun m => hunstick _ m⟩
    · exact ⟨hsame, hlines⟩
  · exact ⟨hsame, hlines⟩

section
variable {s s' : State} (h : SameHomes s s')
include h

theorem SameHomes.dir (k : Nat) : (s'.home k).dir = (s.home k).dir := (congrArg Home.dir (h.2 k) :)

theorem SameHomes.waits (k : Nat) : (s'.home k).waits = (s.home k).waits := (congrArg Home.waits (h.2 k) :)

theorem SameHomes.quiet {k : Nat} (hq : HomeQuiet s k) : HomeQuiet s' k := by
  obtain ⟨hqueue, hrequests, hmarks⟩ := hq
  have hport : s'.port = s.port := (congrArg State.port h.1 :)
  have hops : s'.memops = s.memops := (congrArg State.memops h.1 :)
  exact ⟨(congrArg Home.queue (h.2 k) :).trans hqueue, by rw [hport, hrequests], by rw [hops]; exact hmarks⟩

end

theorem quiet_send {s : State} {k : Nat} (m : Msg) (hq : HomeQuiet s k) : HomeQuiet (s.send m) k := hq

/-! ### GETS -/

/-- The RTS that a GETS asks for (R43). -/
def askedUntil (l : HomeLine) (r : HReq) : Nat := max l.rts (max (l.wts + r.lease) (r.pts + r.lease))

/-- The reply to a GETS: DATA, or RENEW where the requester's copy is current (R43). -/
def getsReply (l : HomeLine) (r : HReq) : Msg :=
  { kind := if r.wts = some l.wts then .renew else .data, line := r.line, region := r.region, tag := r.tag
    data := if r.wts = some l.wts then [] else l.data, wts := l.wts, rts := askedUntil l r, hint := r.hint, op := r.op }

/-- A GETS of a line in H extends its lease and is answered (R43). -/
theorem serveH_gets {s : State} {r : HReq} {byp : Bool} (hkind : r.kind = .gets byp) :
    ∃ u, s.serveH r = (u.send (getsReply (s.lineAt r.line) r), true) ∧ SameHomes s u ∧
      Reused { s.lineAt r.line with rts := askedUntil (s.lineAt r.line) r } (u.lineAt r.line) := by
  obtain ⟨l, hl⟩ : ∃ l, l = s.lineAt r.line := ⟨_, rfl⟩
  obtain ⟨hsame, hlines⟩ := touchHome_same (s.putLineAt r.line { l with rts := askedUntil l r }) r.line r.hint
  obtain ⟨used, hint, hline⟩ := hlines r.line
  rw [lineAt_putLineAt, if_pos rfl] at hline
  refine ⟨_, ?_, (sameHomes_putLineAt s _ _).trans hsame, hl ▸ ⟨used, hint, hline⟩⟩
  simp only [State.serveH, hkind, State.reply, ← hl, getsReply]
  rw [show State.touchHome (s.putLineAt r.line { l with rts := max l.rts (max (l.wts + r.lease) (r.pts + r.lease)) }) r.line r.hint =
    (s.putLineAt r.line { l with rts := askedUntil l r }).touchHome r.line r.hint from rfl, hline]
  split <;> rfl

/-! ### Data that comes home -/

theorem quiet_modHome {s : State} {h k : Nat} {f : Home → Home} (hf : (f (s.home h)).queue = (s.home h).queue)
    (hq : HomeQuiet s k) : HomeQuiet (s.modHome h f) k := by
  obtain ⟨hqueue, hrequests, hmarks⟩ := hq
  refine ⟨?_, hrequests, hmarks⟩
  rw [home_modHome]
  split
  next hk => rw [hf, ← hk, hqueue]
  next => exact hqueue

theorem quiet_takeBack {s : State} {k ln : Nat} {data : LineData} {dirty : Bool} {wts rts : Nat} (hq : HomeQuiet s k) :
    HomeQuiet (s.takeBack ln data dirty wts rts) k := quiet_modHome rfl (quiet_modHome rfl hq)

theorem lineState_of {s : State} {ln : Nat} (hlent : s.isLent ln = false) : s.lineState ln = (s.lineAt ln).state := by
  rw [State.lineState, hlent, if_neg Bool.false_ne_true]

/-- A line of which no request waits is completed by nothing. -/
theorem complete_none {s : State} {ln : Nat} (h : (s.lineAt ln).pend = none) : s.complete ln = s := by
  simp only [State.complete, h]

/-- The GETS that waited for a line is served (R46). -/
theorem complete_gets {s u : State} {ln : Nat} {r : HReq} {byp : Bool} (hpend : (s.lineAt ln).pend = some r) (hgets : r.kind = .gets byp)
    (hserve : (s.putLineAt ln { s.lineAt ln with pend := none }).serve r = (u, true)) : s.complete ln = u := by
  simp only [State.complete, hpend, hgets, hserve, if_true]

/-- A line as its home has it once its owner's data has come. -/
def broughtHome (l : HomeLine) (m : Msg) : HomeLine :=
  { l with state := .h, data := m.data, dirty := l.dirty || m.dirty, wts := m.wts, rts := m.rts }

/-- The home that has taken the data of a message. -/
def tookBack (s : State) (tag : Nat) (m : Msg) : State := (s.taken tag).takeBack m.line m.data m.dirty m.wts m.rts

section
variable {s : State} {tag : Nat} {m : Msg}

theorem lineAt_tookBack : (tookBack s tag m).lineAt m.line = broughtHome (s.lineAt m.line) m :=
  lineAt_takeBack (s.taken tag) _ _ _ _ _

/-- WB: the home takes the data and acknowledges (R46, R48). -/
theorem writeBack_comesHome (harrives : s.arriving tag = some m) (hq : HomeQuiet s (homeOf m.line)) (hkind : m.kind = .wb)
    (hpend : (s.lineAt m.line).pend = none) :
    ∃ s', Tidied ((tookBack s tag m).send { kind := .wbAck, line := m.line, region := m.region, tag := m.tag }) s' ∧
      exec (.wb tag) s = .next s' := by
  have hcomplete : (tookBack s tag m).complete m.line = tookBack s tag m :=
    complete_none ((congrArg HomeLine.pend lineAt_tookBack).trans hpend)
  refine ⟨_, settle_quiet (h := homeOf m.line) 64 (quiet_send _ (quiet_takeBack (s := s.taken tag) hq)), ?_⟩
  show execWb tag s = _
  simp only [execWb, harrives, hkind, beq_self_eq_true, if_true]
  rw [show State.takeBack (s.taken tag) _ _ _ _ _ = tookBack s tag m from rfl, hcomplete]

/-- The home that has taken the data of a message for which a request waited. -/
def unpended (s : State) (tag : Nat) (m : Msg) : State :=
  (tookBack s tag m).putLineAt m.line { (tookBack s tag m).lineAt m.line with pend := none }

theorem lineAt_unpended : (unpended s tag m).lineAt m.line = { broughtHome (s.lineAt m.line) m with pend := none } :=
  (lineAt_putLineAt _ _ _ _).trans ((if_pos rfl).trans (congrArg (fun l : HomeLine => { l with pend := none }) lineAt_tookBack))

/-- An owner's answer completes the GETS that waited for it (R46, R51). -/
theorem answer_comesHome {keeps byp : Bool} {r : HReq} (harrives : s.arriving tag = some m) (hdevice : isHostLine m.line = false)
    (hlent : s.isLent m.line = false) (hq : HomeQuiet s (homeOf m.line)) (hkind : m.kind = .answer keeps)
    (hpend : (s.lineAt m.line).pend = some r) (hr : r.line = m.line) (hgets : r.kind = .gets byp) :
    ∃ v s', SameHomes (unpended s tag m) v ∧
      Reused { (unpended s tag m).lineAt m.line with rts := askedUntil ((unpended s tag m).lineAt m.line) r } (v.lineAt m.line) ∧
      Tidied (v.send (getsReply ((unpended s tag m).lineAt m.line) r)) s' ∧ exec (.forwardAnswer tag) s = .next s' := by
  have hstate : (unpended s tag m).lineState r.line = .h := by rw [hr, lineState_of (by exact hlent), lineAt_unpended]; rfl
  have hresident : (unpended s tag m).isResident r.line = true := by
    rw [hr, unpended, isResident_putLineAt, decide_eq_true rfl, Bool.true_or]
  obtain ⟨v, hserve, hsame, hreused⟩ := serveH_gets (s := unpended s tag m) hgets
  rw [hr] at hserve hreused
  have hcomplete : (tookBack s tag m).complete m.line = v.send (getsReply ((unpended s tag m).lineAt m.line) r) :=
    complete_gets ((congrArg HomeLine.pend lineAt_tookBack).trans hpend) hgets
      ((serve_resident (hr ▸ hdevice) hstate hresident).trans hserve)
  have hquiet : HomeQuiet (unpended s tag m) (homeOf m.line) := quiet_modHome rfl (quiet_takeBack (s := s.taken tag) hq)
  refine ⟨v, _, hsame, hreused, settle_quiet (h := homeOf m.line) 64 (quiet_send _ (hsame.quiet hquiet)), ?_⟩
  show execForwardAnswer tag s = _
  simp only [execForwardAnswer, harrives, hkind]
  rw [show State.takeBack (s.taken tag) _ _ _ _ _ = tookBack s tag m from rfl, hcomplete]

end

/-- Settles O42: the home has the owner's data before the request that waited is served, and nothing else waits there. -/
theorem dataComesHome : Obligations.DataComesHome := by
  unfold Obligations.DataComesHome
  intro s tag m harrives htag hdevice hlent hq l home
  have hnodir : ∀ e ∈ ((tookBack s tag m).home (homeOf m.line)).dir, e.line ≠ m.line := dir_takeBack (s.taken tag) _ _ _ _ _
  refine ⟨fun hkind hpend => ?_, fun keeps r byp hkind hpend hr hgets hold => ?_, fun hkind => ?_⟩
  · obtain ⟨s', htidy, hexec⟩ := writeBack_comesHome harrives hq hkind hpend
    have hline : s'.lineAt m.line = broughtHome l m := (htidy.lineAt _).trans lineAt_tookBack
    refine ⟨s', hexec, ⟨?_, ?_, ?_, ?_, ?_⟩, ?_, ?_⟩
    · rw [hline]; rfl
    · rw [hline]; rfl
    · rw [hline]; rfl
    · rw [hline]; rfl
    · rw [htidy.home]; exact hnodir
    · rw [hline]; rfl
    · exact (htidy.2 _ (Nat.lt_succ_self _)).trans ((find_send _ _ _).trans (if_pos rfl))
  · obtain ⟨v, s', hsame, ⟨used, hint, hreused⟩, htidy, hexec⟩ := answer_comesHome harrives hdevice hlent hq hkind hpend hr hgets
    rw [lineAt_unpended] at hreused htidy
    have hline : s'.lineAt m.line = _ := (htidy.lineAt _).trans hreused
    have hnext : v.nextTag = s.nextTag := (congrArg State.nextTag hsame.1 :)
    refine ⟨s', hexec, ⟨?_, ?_, ?_, ?_, fun e he => ?_⟩, ?_, ?_⟩
    · rw [hline]; rfl
    · rw [hline]; rfl
    · rw [hline]; rfl
    · rw [hline]; rfl
    · rw [htidy.home, show (v.send _).home (homeOf m.line) = v.home (homeOf m.line) from rfl, hsame.dir, unpended, State.putLineAt,
        home_modHome, if_pos rfl] at he
      exact hnodir e he
    · rw [hline]
    · refine (htidy.2 _ (hnext ▸ Nat.lt_succ_self _)).trans ((find_send _ _ _).trans ((if_pos hnext.symm).trans ?_))
      rw [getsReply, if_neg (by exact hold), if_neg (by exact hold), hr]
      rfl
  · show execFwdGone tag s = _
    simp only [execFwdGone, harrives, hkind, beq_self_eq_true, if_true]
    rfl

end Sys2Proof.Proofs.Homes

/-! Requests that meet their line in H (R43, R46, R50, R55): a new owner, a store at the home with its wait table, an operation
let run there, and from these the statement. -/

namespace Sys2Proof.Proofs.Homes

open Sys2Proof Sys2Proof.Machine Sys2Proof.Claims Sys2Proof.Proofs.Slices Sys2Proof.Proofs.Accesses

/-! ### The arrival -/

section
variable {s : State} {tag : Nat} {m : Msg} {r : HReq} {l : HomeLine}

/-- A request that finds nothing waiting is served at once (R49). -/
theorem request_served {s u : State} {r : HReq} (hqueue : (s.home (homeOf r.line)).queue = []) (h : s.serve r = (u, true)) :
    s.request r = u := by
  simp only [State.request, hqueue, List.any_nil, Bool.false_eq_true, if_false, h, if_true]

theorem lineAt_free (hfree : HomeFree s r.line l) : s.lineAt r.line = l := by
  obtain ⟨-, -, -, hline, -⟩ := hfree
  rw [State.lineAt, hline, Option.getD_some]

theorem serve_free (hfree : HomeFree s r.line l) : s.serve r = s.serveH r := by
  have hl := lineAt_free hfree
  obtain ⟨hdevice, hlent, -, hline, hstate, -⟩ := hfree
  exact serve_resident hdevice ((lineState_of hlent).trans (hl ▸ hstate)) (by rw [State.isResident, Tab.has, hline]; rfl)

/-- A request that its home serves as it arrives, and after which nothing waits there. -/
theorem homeRequest_served {u : State} {name : String} {mine : ReqKind → Bool} (harrives : Arrives s tag m r)
    (hfree : HomeFree s r.line l) (hmine : mine r.kind = true) (hserve : (s.taken tag).serveH r = (u, true)) :
    homeRequest name mine tag s = .next (u.settle (homeOf r.line) 64) := by
  obtain ⟨hnow, hkind, hline, -⟩ := harrives
  have hqueue : ((s.taken tag).home (homeOf r.line)).queue = [] := hfree.2.2.1.1
  have hfree' : HomeFree (s.taken tag) r.line l := hfree
  simp only [homeRequest, hnow, hkind, hmine, if_true, request_served hqueue ((serve_free hfree').trans hserve), hline]

end

/-! ### A new owner -/

/-- The grant of a line (R46, R47). -/
def grantReply (l : HomeLine) (r : HReq) (renew : Bool) : Msg :=
  { kind := if renew then .grantX else .dataX, line := r.line, region := r.region, tag := r.tag
    data := if renew then [] else l.data, wts := l.wts, rts := l.rts, hint := r.hint, op := r.op }

/-- A line in H that nobody else holds or watches, and room in the directory: the requester becomes the owner (R46, R50). -/
theorem serveH_owns {s : State} {r : HReq} (hkind : r.kind = .getx ∨ r.kind = .upg) (hwatch : s.isWatched r.line = false)
    (hheld : (s.lineAt r.line).hostHeld = false) (hdevice : isHostLine r.line = false)
    (hdir : (s.home (homeOf r.line)).dir.length < 8) :
    ∃ u : State, s.serveH r = (u.send (grantReply (s.lineAt r.line) r (r.kind == .upg && r.wts == some (s.lineAt r.line).wts)), true) ∧
      { u with homes := s.homes } = s ∧ (∀ k, (u.home k).queue = (s.home k).queue) ∧
      (∃ used hint granted, u.lineAt r.line = { s.lineAt r.line with used, hint, granted, state := .o }) ∧
      ∃ e ∈ (u.home (homeOf r.line)).dir, e.line = r.line ∧ e.region = r.region := by
  obtain ⟨hsame, hlines⟩ := touchHome_same s r.line r.hint
  obtain ⟨used, hint, hline⟩ := hlines r.line
  obtain ⟨t, ht⟩ : ∃ t, t = s.touchHome r.line r.hint := ⟨_, rfl⟩
  rw [← ht] at hsame hline
  obtain ⟨v, hv⟩ : ∃ v, v = t.modHome (homeOf r.line) fun h =>
    { h with order := h.order + 1, dir := h.dir ++ [{ line := r.line, region := r.region, order := h.order + 1 }] } := ⟨_, rfl⟩
  have hvline : v.lineAt r.line = t.lineAt r.line := by
    rw [hv]
    simp only [State.lineAt, home_modHome, if_true]
    rfl
  have hvhome : v.home (homeOf r.line) = _ := hv ▸ (home_modHome t _ _ _).trans (if_pos rfl)
  refine ⟨v.putLineAt r.line { v.lineAt r.line with state := .o, granted := (v.home (homeOf r.line)).order }, ?_, ?_, fun k => ?_,
    ⟨used, hint, (v.home (homeOf r.line)).order, ?_⟩, { line := r.line, region := r.region, order := (t.home (homeOf r.line)).order + 1 },
    ?_, rfl, rfl⟩
  · have hroom : s.dirRoom r.line = (s, true) := by
      simp only [State.dirRoom, decide_eq_true hdir, Bool.or_true, if_true]
    have hserve : s.serveH r = ((v.putLineAt r.line { v.lineAt r.line with state := .o, granted := (v.home (homeOf r.line)).order }).reply
        r (if r.kind == .upg && r.wts == some (s.lineAt r.line).wts then .grantX else .dataX), true) := by
      obtain hk | hk := hkind <;>
        simp only [State.serveH, hk, hwatch, hheld, hdevice, Bool.false_eq_true, if_false, if_true, hroom, Bool.not_true] <;>
        rw [← ht, ← hv]
    have hput : (v.putLineAt r.line { v.lineAt r.line with state := .o, granted := (v.home (homeOf r.line)).order }).lineAt r.line =
        { s.lineAt r.line with used, hint, state := .o, granted := (v.home (homeOf r.line)).order } := by
      rw [lineAt_putLineAt, if_pos rfl, hvline, hline]
    rw [hserve]
    cases r.kind == .upg && r.wts == some (s.lineAt r.line).wts <;> simp only [State.reply, hput, grantReply] <;> rfl
  · rw [hv]
    exact hsame.1
  · rw [State.putLineAt, home_modHome]
    have hqueue : (v.home k).queue = (s.home k).queue := by
      rw [hv, home_modHome]
      split
      next hk => rw [hk]; exact (congrArg Home.queue (hsame.2 _) :)
      next => exact (congrArg Home.queue (hsame.2 k) :)
    split
    next hk =>
      rw [hk] at hqueue ⊢
      exact hqueue
    next => exact hqueue
  · rw [lineAt_putLineAt, if_pos rfl, hvline, hline]
  · rw [State.putLineAt, home_modHome, if_pos rfl, hvhome]
    exact List.mem_append_right _ List.mem_cons_self

/-! ### A store at the home -/

theorem find_writeBytes_mark (d : LineData) {off n : Nat} (v u : Nat) (h : off + n ≤ 128) :
    Tab.find (markKey u) (writeBytes d off n v) = Tab.find (markKey u) d := by
  induction n generalizing d off v with
  | zero => rfl
  | succ n ih =>
    refine (ih _ (v / 256) (by omega)).trans ?_
    have hne : markKey u ≠ off := by unfold markKey; omega
    unfold Tab.set
    split
    · exact (Tab.find_del _ _ _).trans (if_neg hne)
    · exact Tab.find_put_other hne _ _

theorem noMarks_lineWrite {d : LineData} {off n : Nat} (v : Nat) (hd : NoMarks d) (h : off + n ≤ 128) :
    NoMarks (lineWrite d off n v) := by
  have hsound : ∀ us : List Nat, NoMarks (lineSound d us) := fun us => by
    unfold lineSound
    induction us generalizing d with
    | nil => exact hd
    | cons a us ih =>
      refine ih (d := Tab.del (markKey a) d) fun u => ?_
      have hu := hd u
      unfold lineMark at hu ⊢
      rw [Tab.find_del]
      split
      · rfl
      · exact hu
  intro u
  rw [lineMark, lineWrite, find_writeBytes_mark _ _ _ h]
  exact hsound _ u

theorem lineBadRead_noMarks {d : LineData} (hd : NoMarks d) (off n : Nat) : lineBadRead d off n = none :=
  List.findSome?_eq_none_iff.2 fun u _ => hd u

/-- Nothing but wait tables has changed, and wakes have been sent. -/
def Watched (s s' : State) : Prop :=
  { s' with homes := s.homes, net := s.net, nextTag := s.nextTag } = s ∧
    ∀ k, { s'.home k with waits := (s.home k).waits } = s.home k

theorem Watched.trans {s s' s'' : State} (h : Watched s s') (h' : Watched s' s'') : Watched s s'' := by
  obtain ⟨hrest, hhome⟩ := h
  obtain ⟨hrest', hhome'⟩ := h'
  refine ⟨(congrArg (fun u : State => { u with homes := s.homes, net := s.net, nextTag := s.nextTag }) hrest' :).trans hrest,
    fun k => ?_⟩
  exact (congrArg (fun g : Home => { g with waits := (s.home k).waits }) (hhome' k) :).trans (hhome k)

theorem Watched.lineAt {s s' : State} (h : Watched s s') (ln : Nat) : s'.lineAt ln = s.lineAt ln := by
  obtain ⟨hrest, hhome⟩ := h
  have hlines : (s'.home (homeOf ln)).lines = (s.home (homeOf ln)).lines := (congrArg Home.lines (hhome _) :)
  have hmts : (s'.home (homeOf ln)).mts = (s.home (homeOf ln)).mts := (congrArg Home.mts (hhome _) :)
  have hbacking : s'.backing ln = s.backing ln := (congrArg (State.backing · ln) hrest :)
  simp only [State.lineAt, hlines, hmts, hbacking]

theorem Watched.quiet {s s' : State} (h : Watched s s') {k : Nat} (hq : HomeQuiet s k) : HomeQuiet s' k := by
  obtain ⟨hqueue, hrequests, hmarks⟩ := hq
  have hport : s'.port = s.port := (congrArg State.port h.1 :)
  have hops : s'.memops = s.memops := (congrArg State.memops h.1 :)
  exact ⟨(congrArg Home.queue (h.2 k) :).trans hqueue, by rw [hport, hrequests], by rw [hops]; exact hmarks⟩

theorem Watched.withOps {s s' : State} (h : Watched s s') (ops : Tab MemOp) :
    Watched { s with memops := ops } { s' with memops := ops } := ⟨(congrArg (fun u : State => { u with memops := ops }) h.1 :), h.2⟩

theorem SameHomes.withOps {s s' : State} (h : SameHomes s s') (ops : Tab MemOp) :
    SameHomes { s with memops := ops } { s' with memops := ops } := ⟨(congrArg (fun u : State => { u with memops := ops }) h.1 :), h.2⟩

/-- The evaluation of one entry on a sound line shows no fault (R37, R60). -/
theorem evalWait_sound {s : State} {ln k : Nat} {w : WaitEntry} (hsound : NoMarks (s.lineAt ln).data) :
    Watched s (s.evalWait ln k w).1 ∧ (s.evalWait ln k w).2 = [] := by
  unfold State.evalWait
  dsimp only
  rw [lineBadRead_noMarks hsound]
  dsimp only
  split
  · refine ⟨⟨rfl, fun j => ?_⟩, rfl⟩
    show { (s.modHome (homeOf ln) fun h => { h with waits := Tab.del k h.waits }).home j with waits := (s.home j).waits } = s.home j
    rw [home_modHome]
    split
    next h => rw [h]
    next => rfl
  · exact ⟨⟨rfl, fun _ => rfl⟩, rfl⟩

/-- The evaluation of the entries on a sound line (R60). -/
theorem evalWaits_sound {s : State} {ln : Nat} (hsound : NoMarks (s.lineAt ln).data) : Watched s (s.evalWaits ln) := by
  have hfold : ∀ (ws : Tab WaitEntry) (acc : State × Machine.Faults), Watched s acc.1 → acc.2 = [] →
      Watched s (ws.foldl (fun (acc : State × Machine.Faults) (k, w) =>
        if deviceLine w.addr == ln then
          let (s, f) := acc.1.evalWait ln k w
          (s, acc.2 ++ f)
        else acc) acc).1 ∧
      (ws.foldl (fun (acc : State × Machine.Faults) (k, w) =>
        if deviceLine w.addr == ln then
          let (s, f) := acc.1.evalWait ln k w
          (s, acc.2 ++ f)
        else acc) acc).2 = [] := by
    intro ws
    induction ws with
    | nil => exact fun acc h hf => ⟨h, hf⟩
    | cons e ws ih =>
      intro acc h hf
      rw [List.foldl_cons]
      obtain ⟨hstep, hshown⟩ := evalWait_sound (k := e.1) (w := e.2) (show NoMarks (acc.1.lineAt ln).data by rw [h.lineAt]; exact hsound)
      cases hline : deviceLine e.2.addr == ln with
      | false => simpa only [hline, Bool.false_eq_true, if_false] using ih acc h hf
      | true =>
        simpa only [hline, if_true] using ih ((acc.1.evalWait ln e.1 e.2).1, acc.2 ++ (acc.1.evalWait ln e.1 e.2).2) (h.trans hstep)
          (by rw [hf, hshown]; rfl)
  obtain ⟨hw, hnone⟩ := hfold (s.home (homeOf ln)).waits (s, []) ⟨rfl, fun _ => rfl⟩ rfl
  unfold State.evalWaits
  dsimp only
  rw [hnone]
  exact hw

/-- A line as a store at its home leaves it (R43). -/
def storedLine (l : HomeLine) (pts : Nat) (data : LineData) : HomeLine :=
  { l with data, dirty := true, wts := max pts (l.rts + 1), rts := max pts (l.rts + 1) }

/-- A store of sound data to a device line at its home (R43, R60). -/
theorem homeStore_sound {s : State} {ln pts : Nat} {data : LineData} (hdevice : isHostLine ln = false) (hsound : NoMarks data) :
    ∃ u, s.homeStore ln pts data = (u, max pts ((s.lineAt ln).rts + 1)) ∧
      Watched (s.putLineAt ln (storedLine (s.lineAt ln) pts data)) u := by
  refine ⟨_, rfl, ?_⟩
  rw [hdevice, if_neg Bool.false_ne_true]
  refine evalWaits_sound (s := s.putLineAt ln (storedLine (s.lineAt ln) pts data)) ?_
  rw [lineAt_putLineAt, if_pos rfl]
  exact hsound

/-! ### An operation let run at the home -/

theorem sweepAll_nil (s : State) : s.sweepAll [] = (s, []) := rfl

/-- With no operation left, no region has one to go on with. -/
theorem regions_idle {s : State} (hops : s.memops = []) (rs : List Nat) :
    rs.foldl (fun (acc : State × Machine.Faults) r =>
      let (s, fs) := acc.1.sweepAll (acc.1.opsOf r)
      (s, acc.2 ++ fs)) (s, []) = (s, []) := by
  have hnone : ∀ r, s.opsOf r = [] := fun r => by rw [State.opsOf, hops]; rfl
  induction rs with
  | nil => rfl
  | cons r rs ih => rw [List.foldl_cons, hnone, sweepAll_nil]; exact ih

/-- A home lets the one operation run, which leaves nothing (R55). -/
theorem settle_runs {s z : State} {h key fuel : Nat} {op : MemOp} (hops : s.memops = [(key, op)]) (hmark : op.atHome ≠ [])
    (hsweep : s.sweep key = (z, [])) (hdone : z.memops = []) (hq : HomeQuiet z h) : Tidied z (s.settle h (fuel + 1)) := by
  have hempty : op.atHome.isEmpty = false := by simpa using hmark
  have hmarked : (s.memops.filter fun (_, o) => !o.atHome.isEmpty) = [(key, op)] := by
    rw [hops]
    simp [hempty]
  have hall : s.sweepAll (Tab.keys [(key, op)]) = (z, []) := by
    show (let (u, fs) := s.sweep key; (u, [] ++ fs)) = _
    rw [hsweep]
    rfl
  have hserve : s.serveOps h (fuel + 1) = (z, []) := by
    simp only [State.serveOps, hmarked, List.isEmpty_cons, Bool.false_eq_true, if_false, hall, regions_idle hdone,
      serveOps_quiet fuel hq, List.append_nil]
  have hrequests : z.port.requests = [] := hq.2.1
  simp only [State.settle, hserve, show z.deliverFaults [] = z from rfl, hrequests, List.length_nil, State.servePort]
  exact tidied_fitSlices z

section
variable {s : State} {key ln pa sub : Nat} {op : MemOp} {a : Access} {t : Team} {th : Thread} {l : HomeLine}

/-- The state in which the one access of an operation has been taken up. -/
theorem popAccess_one (hops : s.memops = [(key, op)]) (haccs : op.accs = [a]) :
    s.popAccess key = { s with memops := [(key, { op with accs := [] })] } := by
  rw [State.popAccess, hops]
  simp [Tab.modify, Tab.find, Tab.put, haccs]

/-- What a reduction at the home writes. -/
def reduced (l : HomeLine) (a : Access) (sub off : Nat) : LineData :=
  lineWrite l.data off a.size
    (atomNew sub a.ty (lineRead l.data off a.size) (a.value % 2 ^ (8 * a.size)) (a.compare % 2 ^ (8 * a.size))).1

/-- A reduction that its home lets run is performed there, and its thread goes on (R43, R55). -/
theorem red_runs (hops : s.memops = [(key, op)]) (hkind : op.kind = .red sub) (haccs : op.accs = [a])
    (hthreads : op.threads = [a.tid]) (hreplies : op.replies = []) (hloc : a.loc = .device pa) (hteam : s.team? op.team = some t)
    (hnear : t.near = false) (hmark : op.atHome.contains (deviceLine pa) = true) (hdevice : isHostLine (deviceLine pa) = false)
    (hlent : s.isLent (deviceLine pa) = false) (hl : s.lineAt (deviceLine pa) = l) (hstate : l.state = .h) (hheld : l.hostHeld = false)
    (hsound : NoMarks l.data) (hin : pa % 128 + a.size ≤ 128) :
    ∃ w x : State, ∃ flags new, Watched ((s.popAccess key).putLineAt (deviceLine pa)
        (storedLine l (s.clock t.clockKey) (reduced l a sub (pa % 128)))) w ∧
      SameHomes w x ∧ (∀ m, Reused (w.lineAt m) (x.lineAt m)) ∧
      s.sweep key = (({ x.perform (.red sub) { team := op.team, n := a.tid } t a (lineRead l.data (pa % 128) a.size) new flags
        (max (s.clock t.clockKey) (l.rts + 1)) with memops := [] } : State).modThread { team := op.team, n := a.tid }
          (resume op.next), []) := by
  have hpop := popAccess_one hops haccs
  have hfind : Tab.find key s.memops = some op := by rw [hops]; simp [Tab.find]
  have hpopline : (s.popAccess key).lineAt (deviceLine pa) = l := hl
  obtain ⟨w, hstore, hwatched⟩ := homeStore_sound (s := s.popAccess key) (pts := s.clock t.clockKey) hdevice
    (noMarks_lineWrite (off := pa % 128) (n := a.size)
      (atomNew sub a.ty (lineRead l.data (pa % 128) a.size) (a.value % 2 ^ (8 * a.size)) (a.compare % 2 ^ (8 * a.size))).1 hsound hin)
  rw [hpopline] at hstore hwatched
  obtain ⟨hsame, hlines⟩ := touchHome_same w (deviceLine pa) op.hint
  obtain ⟨x, hx⟩ : ∃ x, x = w.touchHome (deviceLine pa) op.hint := ⟨_, rfl⟩
  rw [← hx] at hsame hlines
  have hxops : x.memops = [(key, { op with accs := [] })] := by
    have h1 : x.memops = w.memops := (congrArg State.memops hsame.1 :)
    have h2 : w.memops = (s.popAccess key).memops := (congrArg State.memops hwatched.1 :)
    rw [h1, h2, hpop]
  obtain ⟨flags, hflags⟩ : ∃ flags, flags = (atomNew sub a.ty (lineRead l.data (pa % 128) a.size) (a.value % 2 ^ (8 * a.size))
    (a.compare % 2 ^ (8 * a.size))).2 := ⟨_, rfl⟩
  obtain ⟨new, hnew⟩ : ∃ new, new = some (atomNew sub a.ty (lineRead l.data (pa % 128) a.size) (a.value % 2 ^ (8 * a.size))
    (a.compare % 2 ^ (8 * a.size))).1 := ⟨_, rfl⟩
  refine ⟨w, x, flags, new, hwatched, hsame, hlines, ?_⟩
  have hstate' : (s.popAccess key).lineState (deviceLine pa) = .h := by rw [lineState_of (by exact hlent), hpopline, hstate]
  have hatt : (s.popAccess key).attempt key op t a = .done (x.perform (.red sub) { team := op.team, n := a.tid } t a
      (lineRead l.data (pa % 128) a.size) new flags (max (s.clock t.clockKey) (l.rts + 1))) := by
    simp only [State.attempt, hnear, Bool.false_eq_true, if_false, hloc]
    simp only [State.performLine, hkind, AccKind.isRead, Bool.not_false, Bool.not_true, Bool.false_eq_true, if_false, hmark, hstate',
      hpopline, hheld, hdevice, Bool.false_and, show (AccKind.red sub == AccKind.store) = false from rfl,
      show (HState.h == HState.h) = true from rfl, Bool.and_self, if_true, lineBadRead_noMarks hsound, Option.map_none]
    refine (congrArg (fun p : State × Nat => Perf.done (State.perform (p.1.touchHome (deviceLine pa) op.hint) (.red sub)
      { team := op.team, n := a.tid } t a (lineRead l.data (pa % 128) a.size) _ _ p.2)) hstore).trans ?_
    rw [hx, hflags, hnew]
    rfl
  obtain ⟨y, hy⟩ : ∃ y, y = x.perform (.red sub) { team := op.team, n := a.tid } t a (lineRead l.data (pa % 128) a.size) new flags
    (max (s.clock t.clockKey) (l.rts + 1)) := ⟨_, rfl⟩
  rw [← hy] at hatt ⊢
  have hyops : y.memops = [(key, { op with accs := [] })] := by rw [hy]; exact hxops
  have hlanes : s.sweepLanes key op.accs.length = (y, []) := by
    rw [haccs]
    exact sweepLanes_done hfind haccs hteam hatt
  have hfinish := finishOp_done (s := y) (key := key) (op := { op with accs := [] }) (by rw [hyops]; simp [Tab.find]) rfl hreplies
    (by rw [hkind]; exact fun h => nomatch h)
  rw [sweep_eq hfind hlanes, hfinish, hthreads, hyops, List.foldl_cons, List.foldl_nil]
  simp [Tab.del]

end

/-! ### The statement -/

section
variable {s : State} {tag : Nat} {m : Msg} {r : HReq} {l : HomeLine}

theorem gets_atHome {byp : Bool} (harrives : Arrives s tag m r) (hfree : HomeFree s r.line l) (hkind : r.kind = .gets byp) :
    ∃ s', exec (.gets tag) s = .next s' ∧ (s'.lineAt r.line).rts = askedUntil l r ∧ (s'.lineAt r.line).wts = l.wts ∧
      (s'.lineAt r.line).data = l.data ∧ (s'.lineAt r.line).state = .h ∧ s'.hbm = s.hbm ∧ s'.teams = s.teams ∧
      Sent s s' (getsReply l r) := by
  obtain ⟨u, hserve, hsame, hreused⟩ := serveH_gets (s := s.taken tag) hkind
  have hl : (s.taken tag).lineAt r.line = l := lineAt_free hfree
  rw [hl] at hserve hreused
  obtain ⟨used, hint, hline⟩ := hreused
  have htidy := settle_quiet 64 (quiet_send (getsReply l r) (hsame.quiet (k := homeOf r.line) hfree.2.2.1))
  have hnext : u.nextTag = s.nextTag := (congrArg State.nextTag hsame.1 :)
  have hstate : l.state = .h := hfree.2.2.2.2.1
  have hlineAt := (htidy.lineAt r.line).trans hline
  have hexec : exec (.gets tag) s = _ := homeRequest_served (name := "GETS")
    (mine := fun k => match k with | .gets _ => true | _ => false) harrives hfree (by rw [hkind]) hserve
  refine ⟨_, hexec, ?_, ?_, ?_, ?_, htidy.hbm.trans (congrArg State.hbm hsame.1 :),
    htidy.teams.trans (congrArg State.teams hsame.1 :), ?_⟩
  · rw [hlineAt]
  · rw [hlineAt]
  · rw [hlineAt]
  · rw [hlineAt]; exact hstate
  · exact (htidy.2 _ (hnext ▸ Nat.lt_succ_self _)).trans ((find_send _ _ _).trans (if_pos hnext.symm))

theorem owner_atHome {name : String} {mine : ReqKind → Bool} (harrives : Arrives s tag m r) (hfree : HomeFree s r.line l)
    (hkind : r.kind = .getx ∨ r.kind = .upg) (hmine : mine r.kind = true) (hwatch : s.isWatched r.line = false)
    (hdir : (s.home (homeOf r.line)).dir.length < 8) :
    ∃ s', homeRequest name mine tag s = .next s' ∧ (s'.lineAt r.line).state = .o ∧ (s'.lineAt r.line).data = l.data ∧
      s'.hbm = s.hbm ∧ s'.teams = s.teams ∧ (∃ e ∈ (s'.home (homeOf r.line)).dir, e.line = r.line ∧ e.region = r.region) ∧
      Sent s s' (grantReply l r (r.kind == .upg && r.wts == some l.wts)) := by
  have hl : (s.taken tag).lineAt r.line = l := lineAt_free hfree
  obtain ⟨hdevice, -, hquiet, -, -, hheld⟩ := id hfree
  obtain ⟨u, hserve, hrest, hqueues, ⟨used, hint, granted, hline⟩, hentry⟩ :=
    serveH_owns (s := s.taken tag) hkind hwatch (by rw [hl]; exact hheld) hdevice hdir
  rw [hl] at hserve hline
  have hq : HomeQuiet u (homeOf r.line) := by
    have hport : u.port = s.port := (congrArg State.port hrest :)
    have hops : u.memops = s.memops := (congrArg State.memops hrest :)
    exact ⟨(hqueues _).trans hquiet.1, hport ▸ hquiet.2.1, hops ▸ hquiet.2.2⟩
  have htidy := settle_quiet 64 (quiet_send (grantReply l r (r.kind == .upg && r.wts == some l.wts)) hq)
  have hnext : u.nextTag = s.nextTag := (congrArg State.nextTag hrest :)
  have hlineAt := (htidy.lineAt r.line).trans hline
  refine ⟨_, homeRequest_served harrives hfree hmine hserve, ?_, ?_, htidy.hbm.trans (congrArg State.hbm hrest :),
    htidy.teams.trans (congrArg State.teams hrest :), ?_, ?_⟩
  · rw [hlineAt]
  · rw [hlineAt]
  · rw [htidy.home]
    exact hentry
  · exact (htidy.2 _ (hnext ▸ Nat.lt_succ_self _)).trans ((find_send _ _ _).trans (if_pos hnext.symm))

/-- ATOM: the reduction that asked for its line runs at the home (R55). -/
theorem atom_atHome {op : MemOp} {a : Access} {t : Team} {th : Thread} {sub pa : Nat} (harrives : Arrives s tag m r)
    (hfree : HomeFree s r.line l) (hatom : r.kind = .atom) (hops : s.memops = [(r.op, op)]) (hkind : op.kind = .red sub)
    (haccs : op.accs = [a]) (hthreads : op.threads = [a.tid]) (hreplies : op.replies = []) (hloc : a.loc = .device pa)
    (hln : deviceLine pa = r.line) (hteam : s.team? op.team = some t) (hnear : t.near = false)
    (hth : Tab.find a.tid t.threads = some th) (hsound : NoMarks l.data) (hin : pa % 128 + a.size ≤ 128) :
    ∃ s' th', exec (.atomRequest tag) s = .next s' ∧ s'.memops = [] ∧ (s'.lineAt r.line).data = reduced l a sub (pa % 128) ∧
      (s'.lineAt r.line).wts = max (s.clock t.core) (l.rts + 1) ∧ (s'.lineAt r.line).rts = (s'.lineAt r.line).wts ∧
      s'.thread? { team := op.team, n := a.tid } = some th' ∧ th'.wait = .ready ∧ th'.pc = BitVec.ofNat 64 op.next ∧
      th'.regs = th.regs := by
  have hl : (s.taken tag).lineAt r.line = l := lineAt_free hfree
  obtain ⟨hdevice, hlent, hquiet, -, hstate, hheld⟩ := id hfree
  obtain ⟨u, hu⟩ : ∃ u, u = (s.taken tag).letRun r := ⟨_, rfl⟩
  have huops : u.memops = [(r.op, { op with atHome := r.line :: op.atHome })] := by
    rw [hu, State.letRun, show State.memops (State.modRegion (s.taken tag) _ _) = s.memops from rfl, hops]
    simp [Tab.modify, Tab.find, Tab.put]
  have hserve : (s.taken tag).serveH r = (u, true) := by
    simp only [State.serveH, hatom, hl, hheld, hdevice, Bool.false_eq_true, if_false, if_true]
    rw [hu]
  obtain ⟨w, x, flags, new, hwatched, hsame, hlines, hsweep⟩ := red_runs (s := u) (l := l) huops hkind haccs hthreads hreplies hloc
    (t := t) (by rw [hu]; exact hteam) hnear (by rw [hln]; simp) (hln ▸ hdevice) (by rw [hln, hu]; exact hlent)
    (by rw [hln, hu]; exact hl) hstate hheld hsound hin
  rw [hln] at hwatched
  obtain ⟨i, hi⟩ : ∃ i : Tid, i = { team := op.team, n := a.tid } := ⟨_, rfl⟩
  obtain ⟨v, hv⟩ : ∃ v : State, v = { x.perform (.red sub) i t a (lineRead l.data (pa % 128) a.size) new flags
    (max (u.clock t.clockKey) (l.rts + 1)) with memops := [] } := ⟨_, rfl⟩
  rw [← hi, ← hv] at hsweep
  have hclock : u.clock t.clockKey = s.clock t.core := by rw [clockKey_core hnear, hu]; rfl
  have hline : v.lineAt r.line = x.lineAt r.line := by rw [hv]; rfl
  have hstored : ∃ used hint, x.lineAt r.line = { storedLine l (s.clock t.core) (reduced l a sub (pa % 128)) with used, hint } := by
    obtain ⟨used, hint, hx⟩ := hlines r.line
    rw [hwatched.lineAt, lineAt_putLineAt, if_pos rfl, hclock] at hx
    exact ⟨used, hint, hx⟩
  have hq : HomeQuiet v (homeOf r.line) := by
    have hbefore : HomeQuiet { (u.popAccess r.op).putLineAt r.line (storedLine l (u.clock t.clockKey) (reduced l a sub (pa % 128))) with
        memops := [] } (homeOf r.line) := by
      have hopen : HomeQuiet { u.popAccess r.op with memops := [] } (homeOf r.line) :=
        ⟨by rw [hu]; exact hquiet.1, by rw [hu]; exact hquiet.2.1, fun p hp => nomatch hp⟩
      exact quiet_modHome (h := homeOf r.line) (f := fun h => { h with
        lines := Tab.put r.line (storedLine l (u.clock t.clockKey) (reduced l a sub (pa % 128))) h.lines }) rfl hopen
    have hafter : HomeQuiet { x with memops := [] } (homeOf r.line) :=
      (hsame.withOps []).quiet ((hwatched.withOps []).quiet hbefore)
    rw [hv]
    exact hafter
  have hthread : x.thread? i = some th := by
    have h1 : x.teams = w.teams := (congrArg State.teams hsame.1 :)
    have h2 : w.teams = u.teams := (congrArg State.teams hwatched.1 :)
    rw [State.thread?, State.team?, h1, h2, hu, hi]
    exact Sweeps.thread?_of_find hteam hth
  obtain ⟨th', hth'⟩ : ∃ th', th' = resume op.next (th.landed (.red sub) a (lineRead l.data (pa % 128) a.size) new flags) := ⟨_, rfl⟩
  have hafter : (v.modThread i (resume op.next)).thread? i = some th' := by
    have hlanded := thread?_modThread_same (x.raise t.clockKey (max (u.clock t.clockKey) (l.rts + 1))) i
      fun th => th.landed (.red sub) a (lineRead l.data (pa % 128) a.size) new flags
    rw [show (x.raise t.clockKey (max (u.clock t.clockKey) (l.rts + 1))).thread? i = some th from hthread] at hlanded
    rw [thread?_modThread_same, hv, hth']
    exact congrArg (Option.map (resume op.next)) hlanded
  have hexec : exec (.atomRequest tag) s = _ := homeRequest_served (name := "ATOM_REQUEST")
    (mine := fun k => match k with | .atom | .install .. => true | _ => false) harrives hfree (by rw [hatom]) hserve
  have htidy := settle_runs (fuel := 63) huops (by simp) hsweep (by rw [hv]; rfl) (show HomeQuiet (v.modThread i _) (homeOf r.line) from hq)
  obtain ⟨used, hint, hx⟩ := hstored
  have hlineAt : ((u.settle (homeOf r.line) 64).lineAt r.line) = _ := (htidy.lineAt r.line).trans (hline.trans hx)
  refine ⟨_, th', hexec, ?_, ?_, ?_, ?_, ?_, ?_, ?_, ?_⟩
  · rw [(congrArg State.memops htidy.1.1 : State.memops _ = State.memops _), hv]
    rfl
  · rw [hlineAt]; rfl
  · rw [hlineAt]; rfl
  · rw [hlineAt]; rfl
  · rw [← hi, State.thread?, State.team?, htidy.teams]
    exact hafter
  · rw [hth']; rfl
  · rw [hth']; rfl
  · rw [hth']; rfl

end

/-- Settles O41: the home, quiet but for the request, serves it by Table 3.3 and then only tidies the slices. -/
theorem requestsAtHome : Obligations.RequestsAtHome := by
  unfold Obligations.RequestsAtHome
  intro s tag m r l harrives hfree ln rts
  refine ⟨?_, ?_, ?_⟩
  · intro byp hkind same
    obtain ⟨s', hexec, hrts, hwts, hdata, hstate, hhbm, hteams, hsent⟩ := gets_atHome harrives hfree hkind
    refine ⟨s', hexec, hrts, hwts, hdata, hstate, hhbm, hteams, hsent.trans (congrArg some ?_)⟩
    unfold getsReply
    by_cases h : r.wts = some l.wts
    · simp only [same, h, if_true, beq_self_eq_true]
      rfl
    · have hne : (r.wts == some l.wts) = false := by simpa using h
      simp only [same, h, if_false, hne, Bool.false_eq_true]
      rfl
  · intro hwatch hdir owns
    refine ⟨fun hkind => ?_, fun hkind => ?_⟩
    · obtain ⟨s', h⟩ := owner_atHome (name := "GETX") (mine := (· == .getx)) harrives hfree (.inl hkind) (by rw [hkind]; rfl)
        hwatch hdir
      rw [hkind] at h
      exact ⟨s', h⟩
    · obtain ⟨s', h⟩ := owner_atHome (name := "UPG") (mine := (· == .upg)) harrives hfree (.inr hkind) (by rw [hkind]; rfl)
        hwatch hdir
      rw [hkind] at h
      exact ⟨s', h⟩
  · intro op a t th sub pa hatom hops hkind haccs hthreads hreplies hloc hln hteam hnear hth hsound hin
    exact atom_atHome harrives hfree hatom hops hkind haccs hthreads hreplies hloc hln hteam hnear hth hsound hin

end Sys2Proof.Proofs.Homes

/-! Lines that pass between the part and the host (R40, R56, R57, R59, R83, R84): a line's way to the memory that backs it, a
line as its memory holds it, and from these the statement. -/

namespace Sys2Proof.Proofs.Homes

open Sys2Proof Sys2Proof.Machine Sys2Proof.Claims Sys2Proof.Proofs.Slices Sys2Proof.Proofs.Accesses

/-! ### Host lines -/

theorem isHostLine_host (line : Nat) : isHostLine (hostLineBase + line) = true := by simp [isHostLine]

theorem lineBase_host (line : Nat) : lineBase (hostLineBase + line) = line * 128 := by
  rw [lineBase, if_pos (isHostLine_host line), Nat.add_sub_cancel_left]

theorem homeOf_host (line : Nat) : homeOf (hostLineBase + line) = portHome := by rw [homeOf, if_pos (isHostLine_host line)]

/-! ### A line's way to the memory that backs it -/

/-- Nothing but memory, its marks and the error counts has changed. -/
def MemorySide (s s' : State) : Prop :=
  { s' with hbm := s.hbm, hostMem := s.hostMem, bad := s.bad, errors := s.errors } = s

theorem logLine_eq (s : State) (d : LineData) : ∃ errors, s.logLine d = { s with errors := errors } := by
  unfold State.logLine
  split <;> exact ⟨_, rfl⟩

/-- A line written back: the memory that backs it, and the marks (R37, R40, R56). -/
theorem writeBack_eq (s : State) (ln : Nat) (d : LineData) : ∃ errors bad, s.writeBack ln d =
    if isHostLine ln then { s with hostMem := putLine s.hostMem (lineBase ln) d, bad := bad, errors := errors }
    else { s with hbm := putLine s.hbm (lineBase ln) d, bad := bad, errors := errors } := by
  obtain ⟨errors, he⟩ := logLine_eq s d
  refine ⟨errors, (({ s with errors := errors } : State).putMarks ln d).bad, ?_⟩
  rw [State.writeBack, he, State.putBacking]
  cases isHostLine ln <;> rfl

theorem memorySide_writeBack (s : State) (ln : Nat) (d : LineData) : MemorySide s (s.writeBack ln d) := by
  obtain ⟨errors, bad, he⟩ := writeBack_eq s ln d
  rw [he]
  cases isHostLine ln <;> rfl

/-- The memory that a line of the part is written back to (R40). -/
theorem hbm_writeBack {s : State} {ln : Nat} {d : LineData} (h : isHostLine ln = false) :
    (s.writeBack ln d).hbm = putLine s.hbm (lineBase ln) d ∧ (s.writeBack ln d).hostMem = s.hostMem := by
  obtain ⟨errors, bad, he⟩ := writeBack_eq s ln d
  rw [he, h]
  exact ⟨rfl, rfl⟩

/-- The memory that a host line is written back to (R56). -/
theorem hostMem_writeBack {s : State} {ln : Nat} {d : LineData} (h : isHostLine ln = true) :
    (s.writeBack ln d).hostMem = putLine s.hostMem (lineBase ln) d := by
  obtain ⟨errors, bad, he⟩ := writeBack_eq s ln d
  rw [he, h]
  rfl

/-- The bytes of a line of memory that has been replaced. -/
theorem getD_putLine_line (m : Memory) (base : Nat) (d : LineData) {i : Nat} (hi : i < 128) :
    Tab.getD (putLine m base d) (base + i) 0 = Tab.getD d i 0 := by
  rw [getD_putLine, if_pos (by omega), Nat.add_sub_cancel_left]

section
variable {s s' : State} (h : MemorySide s s')
include h

theorem MemorySide.home (k : Nat) : s'.home k = s.home k := by
  have : s'.homes = s.homes := (congrArg State.homes h :)
  rw [State.home, this, State.home]

theorem MemorySide.quiet {k : Nat} (hq : HomeQuiet s k) : HomeQuiet s' k := by
  have hport : s'.port = s.port := (congrArg State.port h :)
  have hops : s'.memops = s.memops := (congrArg State.memops h :)
  exact ⟨by rw [h.home]; exact hq.1, by rw [hport]; exact hq.2.1, by rw [hops]; exact hq.2.2⟩

end

/-! ### A line as its memory holds it -/

/-- The marks of a line as a copy carries them, read at a key. -/
theorem find_marks (s : State) (ln : Nat) (is : List Nat) (k : Nat) :
    Tab.find (128 + k) (is.filterMap fun i =>
      (s.badAt (badMem (isHostLine ln) (lineBase ln) + i)).map fun a => (markKey (8 * i), BitVec.ofNat 8 a)) =
      if k ∈ is then (s.badAt (badMem (isHostLine ln) (lineBase ln) + k)).map (BitVec.ofNat 8) else none := by
  induction is with
  | nil => rfl
  | cons i is ih =>
    have hkey : markKey (8 * i) = 128 + i := by unfold markKey; omega
    rw [List.filterMap_cons]
    by_cases hik : k = i
    · subst hik
      rw [if_pos List.mem_cons_self]
      cases hbad : s.badAt (badMem (isHostLine ln) (lineBase ln) + k) with
      | none =>
        rw [Option.map_none, ih, hbad]
        exact ite_self _
      | some a => rw [Option.map_some, Tab.find_cons, hkey, if_pos rfl, Option.map_some]
    · have hmem : (k ∈ i :: is) ↔ k ∈ is := by simp [hik]
      rw [if_congr hmem rfl rfl]
      cases s.badAt (badMem (isHostLine ln) (lineBase ln) + i) with
      | none => rw [Option.map_none, ih]
      | some a => rw [Option.map_some, Tab.find_cons, hkey, if_neg (by omega), ih]

theorem find_lineOf_high (m : Memory) (base : Nat) {k : Nat} (hk : 128 ≤ k) : Tab.find k (lineOf m base) = none := by
  induction m with
  | nil => rfl
  | cons p m ih =>
    obtain ⟨a, v⟩ := p
    unfold lineOf at ih ⊢
    rw [List.filter_cons]
    split
    next h =>
      have hin : base ≤ a ∧ a < base + 128 := by simpa using h
      rw [List.map_cons, Tab.find_cons, if_neg (by omega), ih]
    next => exact ih

/-- The bytes and the marks of a line as the memory that backs it holds it (R37). -/
theorem lineMark_backing (s : State) (ln : Nat) {i : Nat} (hi : i < 16) :
    lineMark (s.backing ln) (8 * i) = (s.badAt (badMem (isHostLine ln) (lineBase ln) + i)).map (· % 256) := by
  have hkey : markKey (8 * i) = 128 + i := by unfold markKey; omega
  have hlow : Tab.find (128 + i) (if isHostLine ln then lineOf s.hostMem (lineBase ln) else lineOf s.hbm (lineBase ln)) = none := by
    split <;> exact find_lineOf_high _ _ (by omega)
  rw [lineMark, State.backing, hkey, find_append, hlow, Option.none_or, State.marksOf, find_marks s ln _ i,
    if_pos (List.mem_range.2 hi), Option.map_map]
  rfl

theorem find_marksOf_low (s : State) (ln : Nat) {k : Nat} (hk : k < 128) : Tab.find k (s.marksOf ln) = none := by
  unfold State.marksOf
  induction List.range 16 with
  | nil => rfl
  | cons i is ih =>
    rw [List.filterMap_cons]
    cases s.badAt (badMem (isHostLine ln) (lineBase ln) + i) with
    | none => exact ih
    | some a =>
      rw [Option.map_some, Tab.find_cons, if_neg (by unfold markKey; omega)]
      exact ih

theorem getD_backing_host (s : State) {ln : Nat} (h : isHostLine ln = true) {i : Nat} (hi : i < 128) :
    Tab.getD (s.backing ln) i 0 = Tab.getD s.hostMem (lineBase ln + i) 0 := by
  rw [← (getD_lineOf s.hostMem (lineBase ln) i).trans (if_pos hi), Tab.getD, State.backing, h, if_pos rfl, find_append,
    find_marksOf_low s ln hi, Option.or_none, Tab.getD]

/-! ### Answers, fetches and snoops -/

section
variable {s : State} {ln : Nat} {l : HomeLine}

theorem quiet_putLineAt {k : Nat} (hq : HomeQuiet s k) : HomeQuiet (s.putLineAt ln l) k := quiet_modHome rfl hq

/-- A line gives way at its home to what the host has left of it. -/
theorem leave_eq (hdevice : isHostLine ln = false) (hline : Tab.find ln (s.home (homeOf ln)).lines = some l) (hdirty : l.dirty = true) :
    s.leave ln = (s.writeBack ln l.data).modHome (homeOf ln) fun h =>
      { h with lines := Tab.del ln h.lines, mts := max h.mts l.rts } := by
  simp only [State.leave, hline, hdirty, if_true, hdevice, Bool.false_eq_true, if_false]

theorem find_resident {s : State} {ln : Nat} : s.isResident ln = (Tab.find ln (s.home (homeOf ln)).lines).isSome := rfl

/-- The state in which the answer to a back-invalidate has come. -/
def givenUp (s : State) (ln : Nat) (l : HomeLine) : State :=
  { s with port := { s.port with snoops := s.port.snoops.erase ln } }.putLineAt ln
    { l with state := .h, hostHeld := false, pend := if l.leaving then none else l.pend }

theorem exec_answer (hsnoop : s.port.snoops.contains ln = true) (hline : Tab.find ln (s.home (homeOf ln)).lines = some l) :
    exec (.backInvalidateAnswer ln) s =
      .next ((if l.leaving then (givenUp s ln l).leave ln else (givenUp s ln l).complete ln).settle (homeOf ln) 64) := by
  have hl : s.lineAt ln = l := by rw [State.lineAt, hline]; rfl
  have hl' : ({ s with port := { s.port with snoops := s.port.snoops.erase ln } } : State).lineAt ln = l := hl
  show execBackInvalidateAnswer ln s = _
  simp only [execBackInvalidateAnswer, hsnoop, if_true, hl']
  rfl

theorem find_givenUp : Tab.find ln ((givenUp s ln l).home (homeOf ln)).lines =
    some { l with state := .h, hostHeld := false, pend := if l.leaving then none else l.pend } := by
  rw [givenUp, State.putLineAt, home_modHome, if_pos rfl]
  exact Tab.find_put_same _ _ _

theorem quiet_givenUp {k : Nat} (hq : HomeQuiet s k) : HomeQuiet (givenUp s ln l) k :=
  quiet_putLineAt (s := { s with port := { s.port with snoops := s.port.snoops.erase ln } }) hq

/-- A dirty line that is to leave its slice goes to memory when the host has given it up (R40, R57). -/
theorem answer_leaves (hsnoop : s.port.snoops.contains ln = true) (hdevice : isHostLine ln = false)
    (hline : Tab.find ln (s.home (homeOf ln)).lines = some l) (hq : HomeQuiet s (homeOf ln)) (hleaving : l.leaving = true)
    (hdirty : l.dirty = true) :
    ∃ s', exec (.backInvalidateAnswer ln) s = .next s' ∧ s'.isResident ln = false ∧
      (∀ i, i < 128 → Tab.getD s'.hbm (lineBase ln + i) 0 = Tab.getD l.data i 0) ∧
      (∀ a, a < lineBase ln ∨ lineBase ln + 128 ≤ a → Tab.getD s'.hbm a 0 = Tab.getD s.hbm a 0) ∧
      l.rts ≤ (s'.home (homeOf ln)).mts ∧ s'.hostMem = s.hostMem ∧ s'.teams = s.teams := by
  obtain ⟨u, hu⟩ : ∃ u, u = (givenUp s ln l).writeBack ln l.data := ⟨_, rfl⟩
  have hmem : MemorySide (givenUp s ln l) u := hu ▸ memorySide_writeBack _ _ _
  obtain ⟨hhbm, hhost⟩ : u.hbm = putLine s.hbm (lineBase ln) l.data ∧ u.hostMem = s.hostMem :=
    hu ▸ hbm_writeBack (s := givenUp s ln l) hdevice
  obtain ⟨v, hv⟩ : ∃ v, v = u.modHome (homeOf ln) fun h => { h with lines := Tab.del ln h.lines, mts := max h.mts l.rts } := ⟨_, rfl⟩
  have hhome : v.home (homeOf ln) = _ := hv ▸ (home_modHome u _ _ _).trans (if_pos rfl)
  have hleft : (givenUp s ln l).leave ln = v := by
    rw [leave_eq hdevice find_givenUp hdirty, hv, hu]
  have hquiet : HomeQuiet v (homeOf ln) := hv ▸ quiet_modHome rfl (hmem.quiet (quiet_givenUp hq))
  have htidy := settle_quiet 64 hquiet
  have hexec := exec_answer hsnoop hline
  rw [hleaving, if_pos rfl, hleft] at hexec
  have hmemory : (v.settle (homeOf ln) 64).hbm = putLine s.hbm (lineBase ln) l.data := by
    rw [htidy.hbm, hv]
    exact hhbm
  refine ⟨_, hexec, ?_, fun i hi => ?_, fun a ha => ?_, ?_, ?_, ?_⟩
  · rw [find_resident, htidy.home, hhome]
    exact congrArg Option.isSome ((Tab.find_del ln ln _).trans (if_pos rfl))
  · rw [hmemory, getD_putLine_line _ _ _ hi]
  · rw [hmemory, getD_putLine, if_neg (by omega)]
  · rw [htidy.home, hhome]
    exact Nat.le_max_right _ _
  · rw [(congrArg State.hostMem htidy.1.1 : State.hostMem _ = State.hostMem _), hv]
    exact hhost
  · rw [htidy.teams, hv]
    exact (congrArg State.teams hmem :)

/-- Another line stays where it is, no longer held by the host (R57). -/
theorem answer_stays (hsnoop : s.port.snoops.contains ln = true) (hline : Tab.find ln (s.home (homeOf ln)).lines = some l)
    (hq : HomeQuiet s (homeOf ln)) (hpend : l.pend = none) :
    ∃ s', exec (.backInvalidateAnswer ln) s = .next s' ∧
      Tab.find ln (s'.home (homeOf ln)).lines = some { l with state := .h, hostHeld := false } ∧
      { s' with
        homes := s.homes, port := s.port, regions := s.regions, net := s.net, nextTag := s.nextTag, errors := s.errors } = s := by
  have hleaving : l.leaving = false := by rw [HomeLine.leaving, hpend]; rfl
  have hlines := find_givenUp (s := s) (ln := ln) (l := l)
  rw [hleaving, if_neg Bool.false_ne_true] at hlines
  have hcomplete : (givenUp s ln l).complete ln = givenUp s ln l := complete_none (by rw [State.lineAt, hlines]; exact hpend)
  have htidy := settle_quiet 64 (quiet_givenUp (ln := ln) (l := l) hq)
  have hexec := exec_answer hsnoop hline
  rw [hleaving, if_neg Bool.false_ne_true, hcomplete] at hexec
  refine ⟨_, hexec, ?_, ?_⟩
  · rw [htidy.home, hlines]
  · exact (congrArg (fun u : State => { u with
      homes := s.homes, port := s.port, regions := s.regions, net := s.net, nextTag := s.nextTag, errors := s.errors })
      htidy.1.1 :)

/-- A fetched host line enters the port at the port clock, with the marks of its memory (R56, R83). -/
theorem fetch_enters (line : Nat) (hfetch : s.port.fetching.contains (hostLineBase + line) = true) (hq : HomeQuiet s portHome) :
    ∃ s' d, exec (.hostLineFetch line) s = .next s' ∧
      Tab.find (hostLineBase + line) (s'.home portHome).lines =
        some { data := d, wts := s.clock portClock, rts := s.clock portClock } ∧
      (∀ i, i < 128 → Tab.getD d i 0 = Tab.getD s.hostMem (line * 128 + i) 0) ∧
      (∀ i, i < 16 → lineMark d (8 * i) = (s.badAt (badMem true (line * 128 + 8 * i))).map (· % 256)) ∧
      s'.hostMem = s.hostMem ∧ s'.hbm = s.hbm := by
  obtain ⟨u, hu⟩ : ∃ u : State, u = { s with port := { s.port with fetching := s.port.fetching.erase (hostLineBase + line) } }.putLineAt
    (hostLineBase + line) { data := s.backing (hostLineBase + line), wts := s.clock portClock, rts := s.clock portClock } := ⟨_, rfl⟩
  have hexec : exec (.hostLineFetch line) s = .next (u.settle portHome 64) := by
    show execHostLineFetch line s = _
    simp only [execHostLineFetch, hfetch, if_true]
    rw [hu]
    rfl
  have hquiet : HomeQuiet u portHome := by
    rw [hu]
    exact quiet_putLineAt (s := { s with port := { s.port with fetching := s.port.fetching.erase (hostLineBase + line) } }) hq
  have htidy := settle_quiet 64 hquiet
  have hlines : Tab.find (hostLineBase + line) (u.home portHome).lines =
      some { data := s.backing (hostLineBase + line), wts := s.clock portClock, rts := s.clock portClock } := by
    rw [hu, State.putLineAt, homeOf_host, home_modHome, if_pos rfl]
    exact Tab.find_put_same _ _ _
  refine ⟨_, s.backing (hostLineBase + line), hexec, ?_, fun i hi => ?_, fun i hi => ?_, ?_, ?_⟩
  · rw [htidy.home, hlines]
  · rw [getD_backing_host s (isHostLine_host line) hi, lineBase_host]
  · rw [lineMark_backing s _ hi, lineBase_host, isHostLine_host,
      show badMem true (line * 128) + i = badMem true (line * 128 + 8 * i) by simp only [badMem, if_true]; omega]
  · rw [(congrArg State.hostMem htidy.1.1 : State.hostMem _ = State.hostMem _), hu]
    rfl
  · rw [htidy.hbm, hu]
    rfl

/-- A host snoop is answered from the always-powered store (R59, R84). -/
theorem snoop_store (line : Nat) (hboot : s.busy.bootFailed = false) {d : LineData}
    (hstore : Tab.find (hostLineBase + line) s.port.store = some d) :
    ∃ s', exec (.hostSnoop line) s = .next s' ∧ s'.port.snoopData = some d ∧ s'.port.snoopHit = true ∧
      Tab.find (hostLineBase + line) s'.port.store = none ∧
      ∀ i, i < 128 → Tab.getD s'.hostMem (line * 128 + i) 0 = Tab.getD d i 0 := by
  obtain ⟨u, hu⟩ : ∃ u, u = s.writeBack (hostLineBase + line) d := ⟨_, rfl⟩
  have hexec : exec (.hostSnoop line) s = .next { u with port := { s.port with
      store := Tab.del (hostLineBase + line) s.port.store, snoopData := some d, snoopHit := true } } := by
    show execHostSnoop line s = _
    simp only [execHostSnoop, hboot, Bool.false_eq_true, if_false, hstore, ← hu]
    rfl
  refine ⟨_, hexec, rfl, rfl, (Tab.find_del _ _ _).trans (if_pos rfl), fun i hi => ?_⟩
  show Tab.getD u.hostMem _ 0 = _
  rw [hu, hostMem_writeBack (isHostLine_host line), lineBase_host, getD_putLine_line _ _ _ hi]

/-- A snoop of a line that the port does not have (R84). -/
theorem snoop_absent (line : Nat) (hboot : s.busy.bootFailed = false)
    (hstore : Tab.find (hostLineBase + line) s.port.store = none) (hres : s.isResident (hostLineBase + line) = false) :
    ∃ s', exec (.hostSnoop line) s = .next s' ∧ s'.port.snoopData = none ∧ s'.port.snoopHit = false ∧ s'.homes = s.homes ∧
      s'.hostMem = s.hostMem := by
  have hexec : exec (.hostSnoop line) s = .next { s with port := { s.port with snoopData := none, snoopHit := false } } := by
    show execHostSnoop line s = _
    simp only [execHostSnoop, hboot, Bool.false_eq_true, if_false, hstore, hres, Bool.not_false, if_true]
    rfl
  exact ⟨_, hexec, rfl, rfl, rfl, rfl⟩

/-- A snoop of a line that the port has takes it to the host (R84). That the line leaves the port and that the port clock rises
is the model's choice (log 74). -/
theorem snoop_port (line : Nat) (hboot : s.busy.bootFailed = false) {l : HomeLine}
    (hstore : Tab.find (hostLineBase + line) s.port.store = none)
    (hline : Tab.find (hostLineBase + line) (s.home portHome).lines = some l) (hstate : l.state = .h)
    (hlent : s.isLent (hostLineBase + line) = false) (hq : HomeQuiet s portHome) :
    ∃ s', exec (.hostSnoop line) s = .next s' ∧ s'.port.snoopData = some l.data ∧ s'.port.snoopHit = true ∧
      s'.isResident (hostLineBase + line) = false ∧ s'.clock portClock = max (s.clock portClock) (l.rts + 1) ∧
      ∀ i, i < 128 → Tab.getD s'.hostMem (line * 128 + i) 0 = Tab.getD l.data i 0 := by
  have hres : s.isResident (hostLineBase + line) = true := by rw [find_resident, homeOf_host, hline]; rfl
  have hl : s.lineAt (hostLineBase + line) = l := by rw [State.lineAt, homeOf_host, hline]; rfl
  have hls : s.lineState (hostLineBase + line) = .h := (lineState_of hlent).trans (hl ▸ hstate)
  obtain ⟨u, hu⟩ : ∃ u, u = (s.raise portClock (max (s.clock portClock) (l.rts + 1))).writeBack (hostLineBase + line) l.data := ⟨_, rfl⟩
  obtain ⟨v, hv⟩ : ∃ v, v = u.modHome portHome fun h => { h with lines := Tab.del (hostLineBase + line) h.lines } := ⟨_, rfl⟩
  obtain ⟨w, hw⟩ : ∃ w : State, w = { v with port := { v.port with snoopData := some l.data, snoopHit := true } } := ⟨_, rfl⟩
  have hexec : exec (.hostSnoop line) s = .next (w.settle portHome 64) := by
    show execHostSnoop line s = _
    simp only [execHostSnoop, hboot, Bool.false_eq_true, if_false, hstore, hres, Bool.not_true, hls, beq_self_eq_true, if_true, hl]
    rw [hw, hv, hu]
    rfl
  have hmem : MemorySide (s.raise portClock (max (s.clock portClock) (l.rts + 1))) u := hu ▸ memorySide_writeBack _ _ _
  have hqv : HomeQuiet v portHome := hv ▸ quiet_modHome rfl (hmem.quiet hq)
  have htidy := settle_quiet 64 (show HomeQuiet w portHome by rw [hw]; exact hqv)
  have hport : (w.settle portHome 64).port = w.port := (congrArg State.port htidy.1.1 :)
  refine ⟨_, hexec, ?_, ?_, ?_, ?_, fun i hi => ?_⟩
  · rw [hport, hw]
  · rw [hport, hw]
  · have hhome : w.home portHome = v.home portHome := by rw [hw]; rfl
    rw [find_resident, homeOf_host, htidy.home, hhome, hv, home_modHome, if_pos rfl]
    exact congrArg Option.isSome ((Tab.find_del _ _ _).trans (if_pos rfl))
  · have hclock : (w.settle portHome 64).clock portClock = w.clock portClock := (congrArg (State.clock · portClock) htidy.1.1 :)
    have hraise : u.clock portClock = _ := (congrArg (State.clock · portClock) hmem :)
    have hsame : w.clock portClock = u.clock portClock := by rw [hw, hv]; rfl
    rw [hclock, hsame, hraise, clock_raise, if_pos rfl]
    omega
  · have hsame : w.hostMem = u.hostMem := by rw [hw, hv]; rfl
    rw [(congrArg State.hostMem htidy.1.1 : State.hostMem _ = State.hostMem _), hsame, hu, hostMem_writeBack (isHostLine_host line), lineBase_host, getD_putLine_line _ _ _ hi]

end

/-- Settles O45: each step settles a home at which nothing waits, so that only its own change and the tidying of slices show. -/
theorem hostLines : Obligations.HostLines := by
  refine ⟨fun s ln l hsnoop hdevice _ hline hq => ⟨answer_leaves hsnoop hdevice hline hq, answer_stays hsnoop hline hq⟩,
    fun s line => ?_, fun s line => ?_, fun s line hboot => ?_⟩
  · intro ln hfetch hq
    exact fetch_enters line hfetch hq
  · intro ln hboot
    exact ⟨fun d => snoop_store line hboot, snoop_absent line hboot, fun l => snoop_port line hboot⟩
  · show execHostSnoop line s = _
    simp only [execHostSnoop, hboot, if_true]

end Sys2Proof.Proofs.Homes

/-! The host's port (R68, R87, R285, R377): the acknowledgement of a `.byp` store that lets a `fence.sys` raise the fault of a
lost peer write, whose event record goes to host memory. -/

namespace Sys2Proof.Proofs.HostPort

open Sys2Proof Sys2Proof.Machine Sys2Proof.Claims

/-- A thread in `fence.sys` of which a peer write was lost, and one `.byp` store is not yet acknowledged. -/
def fencingThread : Thread := { pc := 0, wait := .fenceSys, peerLost := true, hostOut := [0] }

/-- Its team, of no launch: there is no trap vector. -/
def fencingTeam : Team := { place := .core 0, launch := 0, cluster := 0, dim := 1, threads := [(0, fencingThread)] }

/-- The event ring is enabled, at address 0; the port holds no line. -/
def fencingState : State :=
  { teams := [(0, fencingTeam)], win := [(evtCtl, BitVec.ofNat 64 (2 ^ 31))]
    port := { bypStores := [(0, ({ team := 0, n := 0 }, 0, 8, 0))] } }

/-- The fence's fault is reported to the host: the first byte of its record, KIND, is written to the ring (R376, R377). -/
theorem done_fencingState : ∃ s', exec (.hostMemoryWriteDone 0) fencingState = .next s' ∧ Tab.getD s'.hostMem 0 0 = 1 :=
  ⟨_, rfl, by decide⟩

/-- Refutes O46: where the port holds nothing of the line, the acknowledgement is said to leave host memory as it was; but the
fence that it lets complete may raise the fault of a lost peer write, whose event record is written there. -/
theorem not_hostPort : ¬ Obligations.HostPort := by
  rintro ⟨-, -, -, hdone, -⟩
  obtain ⟨s', he, -, hnone, -⟩ := hdone fencingState 0 { team := 0, n := 0 } 0 8 0 fencingThread rfl rfl
  obtain ⟨s'', he', hwritten⟩ := done_fencingState
  obtain rfl : s'' = s' := Host.Outcome.next.inj (he'.symm.trans he)
  rw [hnone rfl] at hwritten
  exact absurd hwritten (by decide)

end Sys2Proof.Proofs.HostPort

/-! Pre-emption (R380): the settlement of a core after one team of the cluster has stopped may grant a claim that another team
of it still waits with, and a grant drops what the group held at and above its blocks. -/

namespace Sys2Proof.Proofs.Preemption

open Sys2Proof Sys2Proof.Machine Sys2Proof.Claims

/-- The team that stops first; it has no threads. -/
def firstTeam : Team := { place := .core 0, launch := 0, cluster := 0, dim := 1 }

/-- A team with a waiting claim of no registers and a value in register 16, which its blocks do not reach. -/
def claimingTeam : Team :=
  { firstTeam with rank := 1, groups := [(0, { claim := some 0 })], threads := [(0, { pc := 0, regs := [(16, 1)] })] }

/-- The cluster of both teams. -/
def pairCluster : Cluster := { launch := 0, index := 0, w := 2, teams := [0, 1] }

/-- The launch of the cluster. -/
def pairLaunch : Launch := { id := 0, ctx := 0, record := 0 }

/-- The state that holds the cluster, and a save pool of 16 MiB at address 0 for its context. -/
def pairState : State :=
  { teams := [(0, firstTeam), (1, claimingTeam)], clusters := [(0, pairCluster)], launches := [(0, pairLaunch)]
    win := [(savePool 0, 0x1000)] }

/-- The pool has room for the cluster's areas at address 0. -/
theorem poolPlace_pairState : pairState.poolPlace 0 (pairState.areaNeed pairCluster) = some 0 := by decide

/-- The pre-emption drops register 16 of the claiming team. -/
theorem preemptGo_pairState : ∃ s' t', exec (.preemptGo (BitVec.ofNat 64 (2 ^ 33))) pairState = .next s' ∧
    s'.team? 1 = some t' ∧ (Tab.find 0 t'.threads).map Thread.regs = some [] := ⟨_, _, rfl, rfl, rfl⟩

/-- Refutes O54: the stop of the first team grants the claim of the second, whose register 16 loses its value, so that the stop
does not keep the registers of the cluster's teams. -/
theorem not_preemption : ¬ Obligations.Preemption := by
  rintro ⟨-, -, hgo, -⟩
  obtain ⟨-, hroom⟩ := hgo pairState (BitVec.ofNat 64 (2 ^ 33)) 0 pairLaunch 0 pairCluster rfl rfl rfl rfl rfl rfl rfl
    (by decide)
  obtain ⟨s', he, -, -, -, -, hkept⟩ := hroom 0 poolPlace_pairState
  obtain ⟨s'', t', he', hteam, hregs⟩ := preemptGo_pairState
  obtain rfl : s'' = s' := Host.Outcome.next.inj (he'.symm.trans he)
  obtain ⟨u, hu, -, hthreads⟩ := hkept 1 (by decide) claimingTeam rfl
  obtain rfl : u = t' := Option.some.inj (hu.symm.trans hteam)
  have hheld := hthreads 0 _ rfl
  rw [hregs] at hheld
  cases hheld

end Sys2Proof.Proofs.Preemption

/-! Child teams (R361 to R364): what a team that becomes resident is, and from this the statement. -/

namespace Sys2Proof.Proofs.Residence

open Sys2Proof Sys2Proof.Machine Sys2Proof.Claims
open Sys2Proof.Proofs.Slices

/-! ### A team that becomes resident -/

/-- The entry at `n` of a table that lists the `d` numbers from `a` on. -/
theorem find_rangeTable' {α : Type} (f : Nat → α) (d a n : Nat) :
    Tab.find n ((List.range' a d).map fun i => (i, f i)) = if a ≤ n ∧ n < a + d then some (f n) else none := by
  induction d generalizing a with
  | zero => rw [if_neg (by omega)]; rfl
  | succ d ih =>
    simp only [List.range'_succ, List.map_cons, Tab.find, ih]
    by_cases h : n = a
    · simp [h]
    · simp only [h, if_false]
      exact if_congr (by omega) rfl rfl

/-- The entry at `n` of a table that lists every number below a bound. -/
theorem find_rangeTable {α : Type} (f : Nat → α) (d n : Nat) :
    Tab.find n ((List.range d).map fun i => (i, f i)) = if n < d then some (f n) else none := by
  rw [List.range_eq_range', find_rangeTable']
  exact if_congr (by omega) rfl rfl

/-- `s'` is `s` after a slice has given up what it has no room for and formes have come or moved. -/
def Seated (s s' : State) : Prop := ∃ u : State, GivesUp u s' ∧ { u with formes := s.formes } = s

theorem seated_allot (s : State) (key core : Nat) (f : Forme) : Seated s (s.allot key core f) := by
  refine ⟨_, givesUp_fitSlice _ core, ?_⟩
  split <;> rfl

/-- The forme that an allocation lists. -/
theorem find_allot (s : State) (key core : Nat) (f : Forme) :
    ∃ base, Tab.find key (s.allot key core f).formes = some { f with core, base } := by
  obtain ⟨base, u, hu⟩ : ∃ (base : Nat) (u : State), s.allot key core f =
      ({ u with formes := Tab.put key { f with core, base } u.formes } : State).fitSlice core := ⟨_, _, rfl⟩
  refine ⟨base, ?_⟩
  have h : (s.allot key core f).formes = Tab.put key { f with core, base } u.formes := by
    rw [hu]; exact (congrArg State.formes (givesUp_fitSlice _ core).1 :)
  rw [h, Tab.find_put, if_pos rfl]

variable {s s' : State} (h : Seated s s')
include h

theorem Seated.field {α : Type} (p : State → α)
    (hu : ∀ u u' : State, GivesUp u u' → p u' = p u) (hf : ∀ (u : State) f, p { u with formes := f } = p u) : p s' = p s := by
  obtain ⟨u, hgives, hrest⟩ := h
  exact (hu u s' hgives).trans ((hf u s.formes).symm.trans (congrArg p hrest))

theorem Seated.teams : s'.teams = s.teams := h.field State.teams (fun _ _ g => (congrArg State.teams g.1 :)) fun _ _ => rfl

theorem Seated.hbm : s'.hbm = s.hbm := h.field State.hbm (fun _ _ g => (congrArg State.hbm g.1 :)) fun _ _ => rfl

theorem Seated.hostMem : s'.hostMem = s.hostMem :=
  h.field State.hostMem (fun _ _ g => (congrArg State.hostMem g.1 :)) fun _ _ => rfl

theorem Seated.clocks : s'.clocks = s.clocks := h.field State.clocks (fun _ _ g => (congrArg State.clocks g.1 :)) fun _ _ => rfl

theorem Seated.cores : s'.cores = s.cores := h.field State.cores (fun _ _ g => (congrArg State.cores g.1 :)) fun _ _ => rfl

theorem Seated.stamp : s'.stamp = s.stamp := h.field State.stamp (fun _ _ g => (congrArg State.stamp g.1 :)) fun _ _ => rfl

omit h

/-- The team that `seat` makes resident. -/
def seatedTeam (s : State) (core : Nat) (t : Team) (entry : Nat) (init : Nat → Tab Word) : Team :=
  { t with
    place := .core core
    threads := (List.range t.dim).map fun n => (n, { pc := BitVec.ofNat 64 entry, regs := init n })
    groups := s.freshGroups core t.dim t.split, slugs := freshSlugs t.nslug }

theorem seated_seat (s : State) (core : Nat) (t : Team) (entry : Nat) (init : Nat → Tab Word) :
    Seated ({ s with nextKey := s.nextKey + 1
                     teams := Tab.put s.nextKey (seatedTeam { s with nextKey := s.nextKey + 1 } core t entry init) s.teams } : State)
      (s.seat core t entry init).1 := seated_allot _ _ _ _

/-- A team that becomes resident starts at its entry, and its forme is filled with zeros (R303). -/
theorem starts_seat (s : State) (core : Nat) (t : Team) (entry : Nat) (init : Nat → Tab Word) (hrun : t.stopped = false) :
    Starts (s.seat core t entry init).1 s.nextKey core entry t.dim t.forme (fun n i => Tab.getD (init n) i 0)
      (seatedTeam { s with nextKey := s.nextKey + 1 } core t entry init) := by
  obtain ⟨base, hforme⟩ := find_allot
    (({ s with nextKey := s.nextKey + 1 } : State).setTeam s.nextKey (seatedTeam { s with nextKey := s.nextKey + 1 } core t entry init))
    s.nextKey core { size := t.forme, cluster := t.cluster, core }
  refine ⟨?_, rfl, rfl, hrun, fun n hn => ?_, fun n hn => ?_, _, hforme, rfl, rfl, rfl, rfl, rfl⟩
  · rw [State.team?, (seated_seat s core t entry init).teams, Tab.find_put, if_pos rfl]
  · exact ⟨{ pc := BitVec.ofNat 64 entry, regs := init n }, (find_rangeTable _ _ _).trans (if_pos hn), rfl, rfl, rfl, rfl, rfl, rfl,
      rfl, fun _ => rfl⟩
  · exact (find_rangeTable _ _ _).trans (if_neg (Nat.not_lt.2 hn))

end Sys2Proof.Proofs.Residence

namespace Sys2Proof.Proofs.ChildTeams

open Sys2Proof Sys2Proof.Machine Sys2Proof.Claims
open Sys2Proof.Proofs.Residence

theorem le_foldl_max (l : List Nat) (a n : Nat) (h : n ≤ a ∨ n ∈ l) : n ≤ l.foldl max a := by
  induction l generalizing a with
  | nil => simpa using h
  | cons b l ih =>
    refine ih (max a b) ?_
    rcases h with h | h
    · exact .inl (by omega)
    · rcases List.mem_cons.1 h with rfl | h
      · exact .inl (by omega)
      · exact .inr h

/-- The registers in which a lane of a child team finds its task's argument (R126). -/
theorem getD_argument (arg i : Nat) :
    Tab.getD (Tab.set (0 : Word) 1 (BitVec.ofNat 32 (arg / 2 ^ 32)) (Tab.set 0 0 (BitVec.ofNat 32 arg) [])) i 0 =
      if i = 0 then BitVec.ofNat 32 arg else if i = 1 then BitVec.ofNat 32 (arg / 2 ^ 32) else 0 := by
  rw [Tab.getD_set, Tab.getD_set]
  by_cases h1 : i = 1
  · simp [h1]
  · simp [h1, Tab.getD, Tab.find]

/-- What the placement of a bin's child team leaves, as the statement says it. -/
def Placed (s : State) (core : Nat) (b : Bin) (s' : State) : Prop :=
  (∃ t, Starts s' (s.nextKey + 1) core b.entry b.tasks.length (roundForme (descForme b.desc)) (fun n i =>
      let arg := ((b.tasks[n]?).map Task.arg).getD 0
      if i = 0 then BitVec.ofNat 32 arg else if i = 1 then BitVec.ofNat 32 (arg / 2 ^ 32) else 0) t ∧
    t.launch = b.launch ∧ t.depth = b.depth ∧ t.stamp = s.stamp ∧ t.base = 8 * hdrBdiv8 (descHdr b.desc)) ∧
  (∀ task ∈ b.tasks, task.clock ≤ s'.clock core) ∧ s'.hbm = s.hbm ∧ s'.hostMem = s.hostMem

/-- The placement of a bin's child team starts it, and keeps the cores' records. -/
theorem placed_placeChild (s : State) (core : Nat) (b : Bin) :
    Placed s core b (s.placeChild core b) ∧ (s.placeChild core b).cores = s.cores := by
  obtain ⟨u, hu⟩ : ∃ u, u = ({ s with nextKey := s.nextKey + 1 } : State).raise core ((b.tasks.map Task.clock).foldl max 0) :=
    ⟨_, rfl⟩
  obtain ⟨c, hc⟩ : ∃ c, c = childTeam s.nextKey u.stamp core b := ⟨_, rfl⟩
  obtain ⟨init, hinit⟩ : ∃ init : Nat → Tab Word, init = fun n => Tab.set (0 : Word) 1 (BitVec.ofNat 32 (((b.tasks[n]?).map Task.arg).getD 0 / 2 ^ 32))
      (Tab.set 0 0 (BitVec.ofNat 32 (((b.tasks[n]?).map Task.arg).getD 0)) []) := ⟨_, rfl⟩
  have hseat := seated_seat u core c b.entry init
  obtain ⟨t, ht⟩ : ∃ t, t = seatedTeam { u with nextKey := u.nextKey + 1 } core c b.entry init := ⟨_, rfl⟩
  obtain ⟨hteam, hplace, hdim, hstop, hthreads, hnone, hforme⟩ := ht ▸ starts_seat u core c b.entry init (by rw [hc]; rfl)
  have hkey : u.nextKey = s.nextKey + 1 := by rw [hu]; rfl
  have hplaced : s.placeChild core b =
      { (u.seat core c b.entry init).1 with
        stamp := (u.seat core c b.entry init).1.stamp + 1
        clusters := Tab.put s.nextKey { launch := b.launch, index := 0, teams := [u.nextKey], child := true }
          (u.seat core c b.entry init).1.clusters } := by
    subst hu hc hinit; rfl
  rw [hplaced]
  rw [hkey] at hteam hforme
  refine ⟨⟨⟨t, ⟨hteam, hplace, ?_, hstop, fun n hn => ?_, fun n hn => hnone n ?_, ?_⟩, ?_, ?_, ?_, ?_⟩, fun task htask => ?_, ?_, ?_⟩, ?_⟩
  · rw [hdim, hc]; rfl
  · obtain ⟨th, hth, hpc, hlive, hwait, hpreds, hflags, hhandler, hpend, hregs⟩ := hthreads n (by rw [hc]; exact hn)
    refine ⟨th, hth, hpc, hlive, hwait, hpreds, hflags, hhandler, hpend, fun i => ?_⟩
    rw [hregs, hinit]
    exact getD_argument _ _
  · rw [hc]; exact hn
  · obtain ⟨f, hf, hsize, hrest⟩ := hforme
    exact ⟨f, hf, by rw [hsize, hc]; rfl, hrest⟩
  · rw [ht, hc]; rfl
  · rw [ht, hc]; rfl
  · rw [ht, hc, hu]; rfl
  · rw [ht, hc]; rfl
  · have hclock : ({ (u.seat core c b.entry init).1 with
        stamp := (u.seat core c b.entry init).1.stamp + 1
        clusters := Tab.put s.nextKey { launch := b.launch, index := 0, teams := [u.nextKey], child := true }
          (u.seat core c b.entry init).1.clusters } : State).clock core = u.clock core :=
      (congrArg (fun t => Tab.getD t core 0) hseat.clocks :)
    rw [hclock, hu, clock_raise, if_pos rfl]
    exact Nat.le_trans (le_foldl_max _ 0 _ (.inr (List.mem_map_of_mem htask))) (Nat.le_max_right _ _)
  · exact hseat.hbm.trans (by rw [hu]; rfl)
  · exact hseat.hostMem.trans (by rw [hu]; rfl)
  · exact hseat.cores.trans (by rw [hu]; rfl)

theorem core_placeChild (s : State) (core : Nat) (b : Bin) (c : Nat) : (s.placeChild core b).core c = s.core c := by
  rw [State.core, (placed_placeChild s core b).2, State.core]

/-- A victim is another core. -/
theorem victimOf_ne {s : State} {core v : Nat} (h : s.victimOf core = some v) : v ≠ core := by
  have hp := List.find?_some h
  rw [Bool.and_eq_true] at hp
  exact bne_iff_ne.1 hp.1

/-- An open bin whose timer has run out becomes ready (R361). -/
theorem exec_spawnBinTimer {s : State} {core k : Nat} {b : Bin} (hb : Tab.find k (s.core core).bins = some b)
    (hready : b.ready = none) (hdue : b.due ≤ s.cycle) :
    exec (.spawnBinTimer core k) s = .next (s.fresh.2.modCore core fun c =>
      { c with bins := Tab.put k { b with ready := some s.nextTag } c.bins }) := by
  show execSpawnBinTimer core k s = _
  simp only [execSpawnBinTimer, hb, hready, Option.isNone_none, hdue, decide_true, Bool.and_self, if_true, State.fresh]

/-- The bin that a core places next becomes a child team (R363). -/
theorem exec_spawnBinPlace {s : State} {core k : Nat} {b : Bin} (hnext : s.nextBin core = some (k, b)) :
    exec (.spawnBinPlace core k) s =
      .next ((s.modCore core fun c => { c with bins := Tab.del k c.bins }).placeChild core b) := by
  show execSpawnBinPlace core k s = _
  simp only [execSpawnBinPlace, hnext, if_true]

/-- Settles O53. -/
theorem childTeams : Obligations.ChildTeams := by
  refine ⟨fun s core k b hb hready hdue => ⟨_, exec_spawnBinTimer hb hready hdue, ?_, rfl⟩, fun s core b => ?_⟩
  · rw [core_modCore, if_pos rfl]
    exact (Tab.find_put _ _ _ _).trans (if_pos rfl)
  intro placed
  refine ⟨fun k hnext => ⟨_, exec_spawnBinPlace hnext, (placed_placeChild _ core b).1, ?_⟩, fun v k hidle hvictim hfits hbest => ?_⟩
  · rw [core_placeChild, core_modCore, if_pos rfl]
    exact (Tab.find_del _ _ _).trans (if_pos rfl)
  · have hne := victimOf_ne hvictim
    refine ⟨((s.modCore v fun c => { c with bins := Tab.del k c.bins }).modCore core fun c => { c with victim := some v }).placeChild
        core b, ?_, (placed_placeChild _ core b).1, ?_, ?_⟩
    · show execSpawnBinSteal core s = _
      unfold execSpawnBinSteal
      rw [if_pos hidle, hvictim]
      simp only [hbest, hfits, if_true]
    · rw [core_placeChild, core_modCore, if_neg hne, core_modCore, if_pos rfl]
      exact (Tab.find_del _ _ _).trans (if_pos rfl)
    · rw [core_placeChild, core_modCore, if_pos rfl]

end Sys2Proof.Proofs.ChildTeams

/-! The `fut` family (R121, R122, R133, R260): each lane's handle is free of an unread status, so that nothing is observed; the
lowest lane of `fut.shr` publishes, and the lanes after it own the register. -/

namespace Sys2Proof.Proofs.Issue

open Sys2Proof Sys2Proof.Machine Sys2Proof.Claims Sys2Proof.Proofs.Lanes

/-- An instruction whose every thread goes on at NextPC, changed or as it was. -/
theorem execSeq_goes {words : Nat} {f : State → View → Lane State} {s : State} {ig : IssueGroup} {t : Team}
    {eff : View → Thread} (hf : Formed s ig t)
    (h : Each ig t fun c => (∀ s1 c1, Agrees s c s1 c1 → ∃ e, f s1 c1 = .ok (s1.modThread c1.id e) ∧ e c.th = eff c) ∨
      (eff c = c.th ∧ ∀ s1 c1, Agrees s c s1 c1 → f s1 c1 = .ok s1)) :
    ∃ s', execSeq words none f s = .next s' ∧ OnlyThreads s s' ig t fun c => Thread.at (eff c) (nextPc ig words) := by
  refine execLanes_does hf fun n hn th hth => ?_
  rcases h n hn th hth with h | ⟨heff, h⟩
  · refine laneDoes_ok rfl fun s1 c1 hag => ?_
    obtain ⟨e, he, heff⟩ := h s1 c1 hag
    exact ⟨e, by rw [he]; rfl, heff⟩
  · rw [heff]
    exact laneDoes_goesOn rfl fun s1 c1 hag => by rw [h s1 c1 hag]; rfl

end Sys2Proof.Proofs.Issue

namespace Sys2Proof.Proofs.Futures

open Sys2Proof Sys2Proof.Machine Sys2Proof.Claims
open Sys2Proof.Proofs.Lanes Sys2Proof.Proofs.Sweeps Sys2Proof.Proofs.Issue Sys2Proof.Proofs.RegisterFiles
open Sys2Proof.Proofs.Window (onlyThreads_goesOn)

/-! ### Handles of a lane -/

/-- The register that holds the handle. -/
abbrev handleOf (o : XOp) (x : XForm) (c : View) : Nat := (regsOf c o x 1 0 0).a

/-- The register of the handle, as a lane finds it. -/
theorem handle_ok {s s1 : State} {c c1 : View} (h : Agrees s c s1 c1) {o : XOp} {x : XForm}
    (hops : ∃ r, c.operands o x 1 0 0 = .ok r) : c1.handle o x = .ok (handleOf o x c) := by
  obtain ⟨r, hr⟩ := hops
  have hr1 := (operands_agrees h o x 1 0 0).trans hr
  simp only [View.handle, hr1, bind, Except.bind, handleOf, regsOf, hr]
  rfl

/-- A register that holds no unread status is observed without effect. -/
theorem observe_unseen {s : State} {i : Tid} {th : Thread} {n : Nat} (hth : s.thread? i = some th)
    (hseen : Tab.find n th.seen = none) : s.observe i [n] = s := by
  obtain ⟨t, hteam, hfind⟩ := Option.bind_eq_some_iff.1 hth
  rw [State.observe, view_eq s i t th hteam hfind]
  simp [hseen]

/-! ### `fut.test`, `fut.cancel`, `fut.mov` -/

theorem futTest_completes (x : XForm) :
    Completes (.futTest x) x.words
      (fun _ c => (∃ r, c.operands .futTest x 1 0 0 = .ok r) ∧ Tab.find (handleOf .futTest x c) c.th.seen = none)
      (fun _ c => c.th.setP x.d.toNat (Tab.find (handleOf .futTest x c) c.th.pend).isNone) := by
  refine completes_of_lane (.futTest x) x.words _ _ _ rfl fun s c s1 c1 h ⟨hops, hseen⟩ => ?_
  have hobs : s1.observe c1.id [handleOf .futTest x c] = s1 := observe_unseen h.thread (h.th ▸ hseen)
  refine ⟨fun th => th.setP x.d.toNat (!Tab.has c1.th.pend (handleOf .futTest x c)), ?_, ?_⟩
  · simp only [handle_ok h hops, hobs, ite_self, bind, Except.bind]
    rfl
  · rw [h.th, Tab.has, Option.not_isSome]

theorem futCancel_completes (x : XForm) :
    Completes (.futCancel x) x.words
      (fun _ c => ((∃ r, c.operands .futCancel x 1 0 0 = .ok r) ∧ Tab.find (handleOf .futCancel x c) c.th.seen = none) ∧
        Tab.find (handleOf .futCancel x c) c.th.pend = none)
      (fun _ c => c.th) := by
  intro s ig t hf hall
  refine execSeq_goes hf fun n hn th hth => .inr ⟨rfl, fun s1 c1 h => ?_⟩
  obtain ⟨⟨hops, -⟩, hpend⟩ := hall n hn th hth
  simp only [handle_ok h hops, h.th, hpend, bind, Except.bind]
  rfl

/-- A pending handle's job is cancelled. -/
theorem futCancel_cancels {x : XForm} {s : State} {ig : IssueGroup} {t : Team} {n : Nat} {th : Thread} {j : Nat} {jb : Job}
    (hf : Formed s ig t) (hone : ig.threads = [n]) (hth : Tab.find n t.threads = some th)
    (hops : ∃ r, (viewOf ig.team t n th).operands .futCancel x 1 0 0 = .ok r)
    (hpend : Tab.find (handleOf .futCancel x (viewOf ig.team t n th)) th.pend = some j) (hjob : Tab.find j s.jobs = some jb) :
    ∃ s', exec (.futCancel x) s = .next s' ∧
      OnlyThreads { s with jobs := Tab.put j { jb with ended := some (jb.ended.getD (0xFF000000 + jb.lines)) } s.jobs }
        s' ig t fun c => Thread.at c.th (nextPc ig x.words) := by
  have hcancel : s.cancelJob j =
      { s with jobs := Tab.put j { jb with ended := some (jb.ended.getD (0xFF000000 + jb.lines)) } s.jobs } := by
    simp only [State.cancelJob, Tab.modify, hjob]
    rfl
  have hpend' : Tab.find (handleOf .futCancel x (viewOf ig.team t n th)) (viewOf ig.team t n th).th.pend = some j := hpend
  refine ⟨_, execSeq_single (s1 := s.cancelJob j) hf hone hth ?_, ?_⟩
  · simp only [handle_ok (agrees_first hf hth) hops, hpend', bind, Except.bind]
    rfl
  · exact hcancel ▸ onlyThreads_goesOn (s := s.cancelJob j) hf hone _

/-- A thread after `fut.mov` from `a` to `d`, as the statement says it. -/
def moved (a d : Nat) (th : Thread) : Thread :=
  if a = d then th
  else match Tab.find a th.pend with
    | some j => { th.setV a 0xFE000000 with pend := Tab.put d j (Tab.del a th.pend), seen := Tab.del d th.seen }
    | none => { th.setV d (th.v a).toNat with pend := Tab.del d th.pend, seen := Tab.del d th.seen }

theorem futMov_completes (x : XForm) :
    Completes (.futMov x) x.words
      (fun _ c => ((∃ r, c.operands .futMov x 1 0 0 = .ok r) ∧ Tab.find (handleOf .futMov x c) c.th.seen = none) ∧
        c.dests [x.d.toNat] = .ok () ∧ Sound c [handleOf .futMov x c])
      fun _ c => moved (handleOf .futMov x c) x.d.toNat c.th := by
  intro s ig t hf hall
  refine execSeq_goes hf fun n hn th hth => ?_
  obtain ⟨⟨hops, hseen⟩, hdests, hsound⟩ := hall n hn th hth
  obtain ⟨c, hc⟩ : ∃ c, c = viewOf ig.team t n th := ⟨_, rfl⟩
  rw [← hc] at hops hseen hdests hsound ⊢
  by_cases ha : handleOf .futMov x c = x.d.toNat
  · refine .inr ⟨by simp only [moved, if_pos ha], fun s1 c1 h => ?_⟩
    simp only [dests_agrees h, hdests, handle_ok h hops, ha, if_true, bind, Except.bind]
    rfl
  · refine .inl fun s1 c1 h => ?_
    simp only [moved, if_neg ha]
    cases hpend : Tab.find (handleOf .futMov x c) c.th.pend with
    | some j =>
      refine ⟨fun th => { th.setV (handleOf .futMov x c) 0xFE000000 with
        pend := Tab.put x.d.toNat j (Tab.del (handleOf .futMov x c) th.pend), seen := Tab.del x.d.toNat th.seen }, ?_, rfl⟩
      simp only [dests_agrees h, hdests, handle_ok h hops, h.th, hpend, ha, if_false, bind, Except.bind]
      rfl
    | none =>
      refine ⟨fun th => { th.setV x.d.toNat (c.th.v (handleOf .futMov x c)).toNat with pend := Tab.del x.d.toNat th.pend }, ?_, rfl⟩
      have hsnd : c1.sound [handleOf .futMov x c] = .ok () := sound_sound fun m hm => h.th.symm ▸ hsound m hm
      have hobs : s1.observe c1.id [handleOf .futMov x c] = s1 := observe_unseen h.thread (h.th ▸ hseen)
      simp only [dests_agrees h, hdests, handle_ok h hops, hsnd, hobs, h.th, hpend, ha, if_false, bind, Except.bind]
      rfl

theorem futures : Futures := fun x =>
  ⟨futTest_completes x, futCancel_completes x, fun _ _ _ _ _ _ _ hf hone hth hnamed hpend hjob =>
    futCancel_cancels hf hone hth hnamed.1 hpend hjob, futMov_completes x⟩

/-! ### `fut.shr` -/

/-- What the publishing lane does to its team's `k` register: the handle, or the status where it has ended. -/
def publish (d : Nat) (handle : Option Nat) (v : Nat) (t : Team) : Team :=
  match handle with
  | some j => { t with kp := Tab.put d j t.kp, kseen := Tab.del d t.kseen }
  | none => { t.setK d v 1 with kp := Tab.del d t.kp, kseen := Tab.del d t.kseen }

/-- One thread's part in `fut.shr`: the lowest lane publishes (R260). -/
def shareLane (x : XForm) (blocked : Option Nat) (first : Bool) (s : State) (c : View) : Lane State := do
  let a ← c.handle .futShr x
  match blocked with
  | some j => throw (.park (.future j))
  | none =>
    match Tab.find a c.th.pend with
    | some j => s.kWrite c [x.d.toNat] first fun t =>
        { t with kp := Tab.put x.d.toNat j t.kp, kseen := Tab.del x.d.toNat t.kseen }
    | none =>
      c.sound [a]
      let s := s.observe c.id [a]
      s.kWrite c [x.d.toNat] first fun t =>
        { t.setK x.d.toNat (c.th.v a).toNat 1 with kp := Tab.del x.d.toNat t.kp, kseen := Tab.del x.d.toNat t.kseen }

/-- One thread's turn in the sweep of `fut.shr`. -/
def shareTurn (x : XForm) (blocked : Option Nat) (team next : Nat) (acc : State × Bool) (n : Nat) : State × Bool :=
  match acc.1.view { team, n } with
  | none => acc
  | some c =>
    match shareLane x blocked acc.2 acc.1 c with
    | .ok s => (s.modThread c.id fun th => { th with pc := BitVec.ofNat 64 next }, false)
    | .error (.fault f) => (acc.1.deliver c.id f next, acc.2)
    | .error (.park w) => (acc.1.modThread c.id fun th => { th with wait := w }, acc.2)

theorem exec_futShr {x : XForm} {s : State} {ig : IssueGroup} (h : s.ig = some ig) :
    exec (.futShr x) s = .next (ig.threads.foldl
      (shareTurn x ((s.team? ig.team).bind fun t => Tab.find x.d.toNat t.kp) ig.team (nextPc ig x.words)) (s, true)).1 := by
  show execFutShr x s = _
  unfold execFutShr
  rw [h]
  rfl

/-- A write of one `k` register whose record names no other group. -/
theorem kWrite_ok {s : State} {k n d : Nat} {t : Team} {th : Thread} {first : Bool} {f : Team → Team}
    (hteam : s.team? k = some t) (hrace : t.kRace (t.gid n) [d] = none)
    (hseen : (viewOf k t n th).awaited (1024 + d) = true → Tab.find d t.kseen = none) :
    s.kWrite (viewOf k t n th) [d] first f = .ok (s.modTeam k fun u =>
      if first then (f (u.kForget [d])).kOwn (t.gid n) [d] else u.kOwn (t.gid n) [d]) := by
  have hobs : s.kObserve k ([d].filter fun r => (viewOf k t n th).awaited (1024 + r)) = s :=
    kObserve_ok hteam fun r hr => by
      obtain ⟨hmem, hawaited⟩ := List.mem_filter.1 hr
      obtain rfl := List.mem_singleton.1 hmem
      exact hseen hawaited
  have hrace' : (viewOf k t n th).team.kRace ((viewOf k t n th).team.gid (viewOf k t n th).id.n) [d] = none := hrace
  unfold State.kWrite
  simp only [hrace']
  show Except.ok ((s.kObserve k _).modTeam k _) = _
  rw [hobs]
  rfl

/-- A thread whose handle is free of an unread status publishes it, or owns the register after the publishing lane. -/
theorem shareLane_ok {x : XForm} {first : Bool} {s1 : State} {k n : Nat} {t t1 : Team} {th : Thread}
    (hteam : s1.team? k = some t1) (hth : Tab.find n t1.threads = some th) (halloc : t1.alloc n = t.alloc n)
    (hops : ∃ r, (viewOf k t n th).operands .futShr x 1 0 0 = .ok r)
    (hunseen : Tab.find (handleOf .futShr x (viewOf k t n th)) th.seen = none)
    (hsound : Sound (viewOf k t n th) [handleOf .futShr x (viewOf k t n th)])
    (hrace : t1.kRace (t1.gid n) [x.d.toNat] = none)
    (hseen : (viewOf k t1 n th).awaited (1024 + x.d.toNat) = true → Tab.find x.d.toNat t1.kseen = none) :
    let a := handleOf .futShr x (viewOf k t n th)
    shareLane x none first s1 (viewOf k t1 n th) = .ok (s1.modTeam k fun u =>
      if first then (publish x.d.toNat (Tab.find a th.pend) (th.v a).toNat (u.kForget [x.d.toNat])).kOwn (t1.gid n) [x.d.toNat]
      else u.kOwn (t1.gid n) [x.d.toNat]) := by
  intro a
  obtain ⟨r, hr⟩ := hops
  have hr1 : (viewOf k t1 n th).operands .futShr x 1 0 0 = .ok r :=
    (Laws.Completes.operands_team (viewOf k t1 n th) (viewOf k t n th) _ _ _ _ _ rfl halloc).trans hr
  have hhandle : (viewOf k t1 n th).handle .futShr x = .ok a := by
    simp only [View.handle, hr1, bind, Except.bind, a, handleOf, regsOf, hr]
    rfl
  have hobs : s1.observe (viewOf k t1 n th).id [a] = s1 := observe_unseen (thread?_of_find hteam hth) hunseen
  have hsnd : (viewOf k t1 n th).sound [a] = .ok () := sound_sound hsound
  unfold shareLane
  cases hpend : Tab.find a th.pend with
  | some j =>
    have hpend' : Tab.find a (viewOf k t1 n th).th.pend = some j := hpend
    simp only [hhandle, hpend', kWrite_ok hteam hrace hseen, bind, Except.bind, publish]
  | none =>
    have hpend' : Tab.find a (viewOf k t1 n th).th.pend = none := hpend
    simp only [hhandle, hpend', hsnd, hobs, kWrite_ok hteam hrace hseen, bind, Except.bind, publish]
    rfl

/-- The team's fields after the lowest lane has published (R133, R260). -/
def sharedTeam (d gid : Nat) (handle : Option Nat) (v : Nat) (t : Team) : Team :=
  (publish d handle v (t.kForget [d])).kOwn gid [d]

theorem sharedTeam_rest (d gid : Nat) (handle : Option Nat) (v : Nat) (t : Team) :
    { sharedTeam d gid handle v t with k := t.k, kw := t.kw, kp := t.kp, kseen := t.kseen, kbad := t.kbad } = t := by
  cases handle with
  | some j => rfl
  | none =>
    exact congrArg (fun u : Team => { u with k := t.k, kw := t.kw, kp := t.kp, kseen := t.kseen, kbad := t.kbad })
      (setK_rest (t.kForget [d]) d v 1)

theorem sharedTeam_kw (d gid : Nat) (handle : Option Nat) (v : Nat) (t : Team) :
    (sharedTeam d gid handle v t).kw = Tab.put d (gid + 1) t.kw := by
  cases handle with
  | some j => rfl
  | none => exact (congrArg (fun u : Team => Tab.put d (gid + 1) u.kw) (setK_rest (t.kForget [d]) d v 1) :)

theorem sharedTeam_kseen (d gid : Nat) (handle : Option Nat) (v : Nat) (t : Team) :
    Tab.find d (sharedTeam d gid handle v t).kseen = none := by
  cases handle <;> exact (Tab.find_del _ _ _).trans (if_pos rfl)

theorem sharedTeam_kp (d gid : Nat) (handle : Option Nat) (v : Nat) (t : Team) (k : Nat) :
    Tab.find k (sharedTeam d gid handle v t).kp = if k = d then handle else Tab.find k t.kp := by
  cases handle with
  | none => exact Tab.find_del _ _ _
  | some j => exact Tab.find_put _ _ _ _

section
variable {x : XForm} {s : State} {ig : IssueGroup} {t : Team} {n : Nat} (hf : Formed s ig t)
  (hgroup : ∀ m ∈ ig.threads, t.gid m = t.gid n)
  (hall : Each ig t fun c => (c.awaited (1024 + x.d.toNat) = true → Tab.find x.d.toNat t.kseen = none) ∧
    (∃ r, c.operands .futShr x 1 0 0 = .ok r) ∧ Tab.find (handleOf .futShr x c) c.th.seen = none ∧
    Sound c [handleOf .futShr x c])
include hf hall

/-- The lowest lane's turn. -/
theorem share_first {th : Thread} (hn : n ∈ ig.threads) (hth : Tab.find n t.threads = some th)
    (hrace : t.kRace (t.gid n) [x.d.toNat] = none) :
    let a := handleOf .futShr x (viewOf ig.team t n th)
    ∃ s1, shareTurn x none ig.team (nextPc ig x.words) (s, true) n = (s1, false) ∧
      KsetDone s ig.team (nextPc ig x.words) t
        (sharedTeam x.d.toNat (t.gid n) (Tab.find a th.pend) (th.v a).toNat t) [n] s1 := by
  intro a
  obtain ⟨hseen, hops, hunseen, hsound⟩ := hall n hn th hth
  have hview : s.view { team := ig.team, n } = some (viewOf ig.team t n th) := view_eq s _ t th hf.2.1 hth
  have hlane := shareLane_ok (first := true) hf.2.1 hth rfl hops hunseen hsound hrace hseen
  refine ⟨_, by simp only [shareTurn, hview, hlane]; rfl, ?_⟩
  refine ksetDone_turn hf.2.1 ⟨by simp, fun _ _ => rfl⟩ ⟨fun _ _ => rfl, rfl⟩ (by simp) rfl ?_
  exact (congrArg Team.threads (sharedTeam_rest x.d.toNat (t.gid n) (Tab.find a th.pend) (th.v a).toNat t) :)

include hgroup

/-- A later lane's turn. -/
theorem share_later {m v : Nat} {handle : Option Nat} {done : List Nat} {s1 : State} (hm : m ∈ ig.threads) (hnew : m ∉ done)
    (hdone : KsetDone s ig.team (nextPc ig x.words) t (sharedTeam x.d.toNat (t.gid n) handle v t) done s1) :
    ∃ s2, shareTurn x none ig.team (nextPc ig x.words) (s1, false) m = (s2, false) ∧
      KsetDone s ig.team (nextPc ig x.words) t (sharedTeam x.d.toNat (t.gid n) handle v t) (m :: done) s2 := by
  obtain ⟨t1, hteam1, hsame, hthreads, honly⟩ := hdone
  obtain ⟨th, hth⟩ := hf.2.2.2 m hm
  obtain ⟨-, hops, hunseen, hsound⟩ := hall m hm th hth
  have hth1 : Tab.find m t1.threads = some th := (hthreads.2 m hnew).trans hth
  have ht1 : { t1 with k := t.k, kw := t.kw, kp := t.kp, kseen := t.kseen, kbad := t.kbad, threads := t.threads } = t := by
    have h := congrArg (fun u : Team =>
      { u with k := t.k, kw := t.kw, kp := t.kp, kseen := t.kseen, kbad := t.kbad, threads := t.threads }) hsame
    exact h.trans (congrArg (fun u : Team => { u with threads := t.threads })
      (sharedTeam_rest x.d.toNat (t.gid n) handle v t))
  have hkw : t1.kw = (sharedTeam x.d.toNat (t.gid n) handle v t).kw := (congrArg Team.kw hsame :)
  have hkseen : t1.kseen = (sharedTeam x.d.toNat (t.gid n) handle v t).kseen := (congrArg Team.kseen hsame :)
  have hgid : t1.gid m = t.gid n := (congrArg (Team.gid · m) ht1 :).trans (hgroup m hm)
  have halloc : t1.alloc m = t.alloc m := (congrArg (Team.alloc · m) ht1 :)
  have hview : s1.view { team := ig.team, n := m } = some (viewOf ig.team t1 m th) := view_eq s1 _ t1 th hteam1 hth1
  have hrace : t1.kRace (t1.gid m) [x.d.toNat] = none := by
    rw [hgid]
    exact (congrArg (fun w => List.find? (fun k => match Tab.find k w with | some g => g != t.gid n + 1 | none => false)
      [x.d.toNat]) hkw).trans (kRace_kOwn _ _ _)
  have hlane := shareLane_ok (first := false) hteam1 hth1 halloc hops hunseen hsound hrace fun _ => by
    rw [hkseen, sharedTeam_kseen]
  refine ⟨_, by simp only [shareTurn, hview, hlane]; rfl, ?_⟩
  refine ksetDone_turn hteam1 hthreads honly hnew ?_ rfl
  rw [hgid]
  have howned := congrArg (fun u : Team => u.kOwn (t.gid n) [x.d.toNat]) hsame
  exact howned.trans (congrArg (fun u : Team => { u with threads := [] }) (kOwn_kOwn _ _ _))

/-- The turns after the first. -/
theorem share_rest {v : Nat} {handle : Option Nat} (ms : List Nat) : ∀ (done : List Nat) (s1 : State),
    (∀ m ∈ ms, m ∈ ig.threads) → ms.Nodup → (∀ m ∈ ms, m ∉ done) →
    KsetDone s ig.team (nextPc ig x.words) t (sharedTeam x.d.toNat (t.gid n) handle v t) done s1 →
    KsetDone s ig.team (nextPc ig x.words) t (sharedTeam x.d.toNat (t.gid n) handle v t) (ms.reverse ++ done)
      (ms.foldl (shareTurn x none ig.team (nextPc ig x.words)) (s1, false)).1 := by
  induction ms with
  | nil => exact fun _ _ _ _ _ h => h
  | cons m ms ih =>
    intro done s1 hin hnodup hnew hdone
    obtain ⟨hm, hnodup⟩ := List.nodup_cons.1 hnodup
    obtain ⟨s2, hturn, hdone2⟩ := share_later hf hgroup hall (hin m List.mem_cons_self) (hnew m List.mem_cons_self) hdone
    rw [List.foldl_cons, hturn, List.reverse_cons, List.append_assoc]
    refine ih (m :: done) s2 (fun a ha => hin a (List.mem_cons_of_mem m ha)) hnodup (fun a ha hmem => ?_) hdone2
    rcases List.mem_cons.1 hmem with rfl | hmem
    · exact hm ha
    · exact hnew a (List.mem_cons_of_mem m ha) hmem

end

theorem futureShared : FutureShared := by
  intro x s ig t n th rest d c a hf hthreads hth hgroup hkp hrace hall
  have hn : n ∈ ig.threads := by simp [hthreads]
  obtain ⟨hfresh, hnodup⟩ := List.nodup_cons.1 (hthreads ▸ hf.2.2.1)
  obtain ⟨s1, hturn, hfirst⟩ := share_first hf hall hn hth hrace
  obtain ⟨t', hteam, hfields, hdone, honly⟩ := share_rest hf hgroup hall rest [n] s1 (fun m hm => by simp [hthreads, hm])
    hnodup (fun m hm => by rintro h; exact hfresh (List.mem_singleton.1 h ▸ hm)) hfirst
  obtain ⟨u, hu⟩ : ∃ u, u = sharedTeam d (t.gid n) (Tab.find a th.pend) (th.v a).toNat t := ⟨_, rfl⟩
  have hfields' : { t' with threads := [] } = { u with threads := [] } := hu ▸ hfields
  have hkp' : t'.kp = u.kp := (congrArg Team.kp hfields' :)
  have hkw' : t'.kw = u.kw := (congrArg Team.kw hfields' :)
  have hk' : t'.k = u.k := (congrArg Team.k hfields' :)
  have hblocked : ((s.team? ig.team).bind fun t => Tab.find x.d.toNat t.kp) = none := by
    rw [hf.2.1]; exact hkp
  have hmem : ∀ m, m ∈ ig.threads ↔ m ∈ rest.reverse ++ [n] := fun m => by simp [hthreads, or_comm]
  refine ⟨_, t', by rw [exec_futShr hf.1, hblocked, hthreads, List.foldl_cons, hturn], honly, hteam, ?_, ?_, fun hended => ?_,
    fun k hk => ⟨?_, ?_, ?_⟩, ⟨fun m hm => hdone.1 m ((hmem m).1 hm), fun m hm => hdone.2 m fun h => hm ((hmem m).2 h)⟩, ?_⟩
  · rw [hkp', hu, sharedTeam_kp, if_pos rfl]
  · rw [hkw', hu, sharedTeam_kw, Tab.find_put, if_pos rfl]
  · rw [Team.kreg, hk', hu, hended]
    show (Tab.getD (Tab.set 0 d (BitVec.ofNat 32 (th.v a).toNat) t.k) d 0).toNat = _
    rw [Tab.getD_set_same, BitVec.ofNat_toNat, BitVec.setWidth_eq]
  · rw [Team.kreg, Team.kreg, hk', hu]
    cases Tab.find a th.pend with
    | some j => rfl
    | none => exact congrArg BitVec.toNat (Tab.getD_set_other _ hk _ _)
  · rw [hkp', hu, sharedTeam_kp, if_neg hk]
  · rw [hkw', hu, sharedTeam_kw, Tab.find_put, if_neg hk]
  · have hrest := congrArg (fun v : Team => { v with threads := [], k := [], kw := [], kp := [], kseen := [], kbad := [] })
      (hu ▸ sharedTeam_rest d (t.gid n) (Tab.find a th.pend) (th.v a).toNat t :
        { u with k := t.k, kw := t.kw, kp := t.kp, kseen := t.kseen, kbad := t.kbad } = t)
    exact (congrArg (fun v : Team => { v with k := [], kw := [], kp := [], kseen := [], kbad := [] }) hfields' :).trans hrest

/-- Settles O31. -/
theorem futureHandles : Obligations.FutureHandles := ⟨futures, futureShared⟩

end Sys2Proof.Proofs.Futures

/-! Allocation in the galley (R251 to R253): a table that lists one team among others, and from this that a request which
waits alone is the one that is granted. -/

namespace Sys2Proof.Proofs.OneTeam

open Sys2Proof Sys2Proof.Machine Sys2Proof.Claims Sys2Proof.Proofs.Sweeps

/-! ### One team in the table of teams -/

/-- The table of teams lists `t` under `k`, after `before`, whose keys are lower, and before `after`. -/
def Listed (s : State) (k : Nat) (t : Team) (before after : List (Nat × Team)) : Prop :=
  s.teams = before ++ (k, t) :: after ∧ ∀ p ∈ before, p.1 < k

theorem exists_listed {s : State} {k : Nat} {t : Team} (hs : Tab.sorted s.teams = true) (h : s.team? k = some t) :
    ∃ before after, Listed s k t before after := by
  obtain ⟨before, after, hsplit⟩ := List.append_of_mem (Tab.mem_of_find h)
  refine ⟨before, after, hsplit, fun p hp => ?_⟩
  rw [Tab.sorted_iff, hsplit] at hs
  exact (List.pairwise_append.1 hs).2.2 p hp (k, t) List.mem_cons_self

theorem find_listed {α : Type} {k : Nat} {v : α} {before after : List (Nat × α)} (h : ∀ p ∈ before, p.1 < k) :
    Tab.find k (before ++ (k, v) :: after) = some v := by
  induction before with
  | nil => simp
  | cons p before ih =>
    have hp := h p List.mem_cons_self
    rw [List.cons_append, Tab.find_cons, if_neg (by omega), ih fun q hq => h q (List.mem_cons_of_mem _ hq)]

theorem put_listed {α : Type} {k : Nat} {v w : α} {before after : List (Nat × α)} (h : ∀ p ∈ before, p.1 < k) :
    Tab.put k w (before ++ (k, v) :: after) = before ++ (k, w) :: after := by
  induction before with
  | nil => simp [Tab.put]
  | cons p before ih =>
    have hp := h p List.mem_cons_self
    rw [List.cons_append, Tab.put, if_neg (by omega), if_neg (by omega), ih fun q hq => h q (List.mem_cons_of_mem _ hq),
      List.cons_append]

section
variable {s : State} {k : Nat} {t : Team} {before after : List (Nat × Team)} (h : Listed s k t before after)
include h

theorem Listed.team? : s.team? k = some t := by rw [State.team?, h.1, find_listed h.2]

theorem Listed.modTeam (F : Team → Team) : Listed (s.modTeam k F) k (F t) before after := by
  refine ⟨?_, h.2⟩
  show Tab.modify k F s.teams = _
  rw [Tab.modify, h.1, find_listed h.2]
  exact put_listed h.2

theorem Listed.modTeam_id : s.modTeam k (fun t => t) = s := by
  have hteams : (s.modTeam k fun t => t).teams = s.teams := (h.modTeam fun t => t).1.trans h.1.symm
  exact (congrArg (fun l : Tab Team => { s with teams := l }) hteams :)

/-- Threads changed one after the other are one change of their team. -/
theorem Listed.sweep (f : Nat → Thread → Thread) (ns : List Nat) :
    ns.foldl (fun s n => s.modThread { team := k, n } (f n)) s = s.modTeam k (Team.sweep f ns) := by
  induction ns generalizing s t with
  | nil => exact h.modTeam_id.symm
  | cons n ns ih =>
    refine (ih (h.modTeam _)).trans ?_
    simp only [State.modTeam, modify_modify]
    rfl

/-- A team that moves to no other core is on the list of its core's teams in its place. -/
theorem Listed.teamsOn (core : Nat) :
    s.teamsOn core = (before.filter fun p => p.2.place == .core core) ++
      ((if t.place == .core core then [(k, t)] else []) ++ after.filter fun p => p.2.place == .core core) := by
  rw [State.teamsOn, h.1, List.filter_append, List.filter_cons]
  by_cases hp : (t.place == .core core) = true <;> simp only [hp, if_true, Bool.false_eq_true, if_false] <;> rfl

end

theorem isNone_team?_modTeam (s : State) (k j : Nat) (F : Team → Team) :
    ((s.modTeam k F).team? j).isNone = (s.team? j).isNone := by
  rw [team?_modTeam]
  split <;> simp

end Sys2Proof.Proofs.OneTeam

namespace Sys2Proof.Proofs.Galley

open Sys2Proof Sys2Proof.Machine Sys2Proof.Claims
open Sys2Proof.Proofs.Sweeps Sys2Proof.Proofs.OneTeam Sys2Proof.Proofs.RegisterPool

/-! ### What settles the requests of a partition -/

/-- Slugs in use do not change with what a team holds besides slugs. -/
theorem slugsUsed_modTeam {s : State} {k : Nat} {t : Team} {before after : List (Nat × Team)} {F : Team → Team}
    (h : Listed s k t before after) (hplace : (F t).place = t.place) (hslugs : (F t).slugs = t.slugs) (core part : Nat) :
    (s.modTeam k F).slugsUsed core part = s.slugsUsed core part := by
  have hgone : ∀ m : MatrixOp, ((s.modTeam k F).team? m.team).isNone = (s.team? m.team).isNone := fun m =>
    isNone_team?_modTeam s k m.team F
  have hqueue : (s.modTeam k F).matrixQueue core part = s.matrixQueue core part := rfl
  unfold State.slugsUsed
  simp only [hgone, hqueue, (h.modTeam F).teamsOn, h.teamsOn, hplace]
  split <;> simp [hslugs]

/-- No team but `k` waits for slugs. -/
def Alone (before after : List (Nat × Team)) : Prop := ∀ p ∈ before ++ after, p.2.slugAsk = []

theorem asks_none {l : List (Nat × Team)} (h : ∀ p ∈ l, p.2.slugAsk = []) (core part : Nat) :
    ((l.filter fun p => p.2.place == .core core).flatMap fun p => p.2.slugAsk.filterMap fun q =>
      if q.1 % 4 = part then some (p.2.stamp, p.1, q.1, q.2.1, q.2.2) else none) = [] := by
  refine List.flatMap_eq_nil_iff.2 fun p hp => ?_
  rw [h p (List.mem_filter.1 hp).1]
  rfl

/-- The requests that wait on a partition where one team may have any. -/
theorem slugAsks_listed {s : State} {k : Nat} {t : Team} {before after : List (Nat × Team)} (h : Listed s k t before after)
    (halone : Alone before after) (core part : Nat) {g : Nat} {ask : Nat × Nat}
    (hask : t.slugAsk = [] ∨ (t.place = .core core ∧ g % 4 = part ∧ t.slugAsk = [(g, ask)])) :
    s.slugAsks core part = if t.slugAsk = [] then [] else [(t.stamp, k, g, ask.1, ask.2)] := by
  have hbefore := asks_none (fun p hp => halone p (List.mem_append_left _ hp)) core part
  have hafter := asks_none (fun p hp => halone p (List.mem_append_right _ hp)) core part
  have hall : ((s.teamsOn core).flatMap fun p => p.2.slugAsk.filterMap fun q =>
      if q.1 % 4 = part then some (p.2.stamp, p.1, q.1, q.2.1, q.2.2) else none) =
      if t.slugAsk = [] then [] else [(t.stamp, k, g, ask.1, ask.2)] := by
    rw [h.teamsOn, List.flatMap_append, List.flatMap_append, hbefore, hafter, List.nil_append, List.append_nil]
    rcases hask with hask | ⟨hplace, hpart, hask⟩
    · split <;> simp [hask]
    · simp [hplace, hask, hpart]
  unfold State.slugAsks
  refine (congrArg (List.foldr _ []) hall).trans ?_
  split <;> rfl

/-- With no request waiting nothing is settled (R251, R252). -/
theorem settleSlugs_none {s : State} {core part : Nat} (h : s.slugAsks core part = []) (asked : Bool) (fuel : Nat) :
    s.settleSlugs core part asked fuel = s := by
  have hrefuse : ∀ f, s.refuseSlugs core part f = s
    | 0 => rfl
    | f + 1 => by rw [State.refuseSlugs, h]; rfl
  cases fuel with
  | zero => rfl
  | succ fuel =>
    rw [State.settleSlugs, State.grantSlug, h]
    simp only [hrefuse, ite_self]

/-- What the grant of a request makes of its team: the names are bound to zeroed slugs, and the group's threads are answered. -/
def granted (part first count g : Nat) (t : Team) : Team :=
  ({ t with slugs := (t.unbound part first count).foldl (fun m n => Tab.put (slugKey part n) [] m) t.slugs } : Team).answerSlugs
    g true

/-- A request that waits alone and fits is granted. -/
theorem settleSlugs_one {s : State} {k : Nat} {t : Team} {before after : List (Nat × Team)} (h : Listed s k t before after)
    (halone : Alone before after) {core part g first count : Nat} (hplace : t.place = .core core) (hpart : g % 4 = part)
    (hask : t.slugAsk = [(g, first, count)])
    (hfits : s.slugsUsed core part + (t.unbound part first count).length ≤ 16) (fuel : Nat) :
    ∃ bad, s.settleSlugs core part true (fuel + 1) = ({ s with bad } : State).modTeam k (granted part first count g) := by
  obtain ⟨bad, hbad⟩ : ∃ bad, bad = s.bad.filter fun p =>
    !((t.unbound part first count).flatMap fun n => (List.range 1024).map (badSlug k part n)).contains p.1 := ⟨_, rfl⟩
  have hasks := slugAsks_listed h halone core part (.inr ⟨hplace, hpart, hask⟩)
  rw [if_neg (by simp [hask])] at hasks
  have hbads : Listed ({ s with bad } : State) k t before after := h
  have hgranted : (({ s with bad } : State).modTeam k fun u =>
      ({ u with slugs := (t.unbound part first count).foldl (fun m n => Tab.put (slugKey part n) [] m) u.slugs } : Team).answerSlugs
        g true) = ({ s with bad } : State).modTeam k (granted part first count g) := by
    simp only [State.modTeam, Tab.modify, show Tab.find k s.teams = some t from h.team?, granted]
  have hgrant : s.grantSlug core part = some (({ s with bad } : State).modTeam k (granted part first count g)) := by
    rw [State.grantSlug, hasks]
    simp only [h.team?, hfits, if_true, ← hbad, hgranted]
  refine ⟨bad, ?_⟩
  rw [State.settleSlugs, hgrant]
  refine settleSlugs_none ?_ true fuel
  have hdone : (granted part first count g t).slugAsk = [] := by
    show Tab.del g t.slugAsk = []
    rw [hask]
    simp [Tab.del]
  exact (slugAsks_listed (hbads.modTeam _) halone core part (g := g) (ask := (0, 0)) (.inl hdone)).trans (if_pos hdone)

/-! ### Slugs of a team -/

/-- The slugs of a team after names have been bound. -/
theorem find_bind {α : Type} (key : Nat → Nat) (v : α) (ns : List Nat) (slugs : Tab α) (k : Nat) :
    Tab.find k (ns.foldl (fun m n => Tab.put (key n) v m) slugs) = if k ∈ ns.map key then some v else Tab.find k slugs := by
  induction ns generalizing slugs with
  | nil => simp
  | cons a ns ih =>
    rw [List.foldl_cons, ih, Tab.find_put]
    by_cases hk : k ∈ ns.map key <;> by_cases ha : k = key a <;> simp [hk, ha]

theorem find_unbind {α : Type} (key : Nat → Nat) (ns : List Nat) (slugs : Tab α) (k : Nat) :
    Tab.find k (ns.foldl (fun m n => Tab.del (key n) m) slugs) = if k ∈ ns.map key then none else Tab.find k slugs := by
  induction ns generalizing slugs with
  | nil => simp
  | cons a ns ih =>
    rw [List.foldl_cons, ih, Tab.find_del]
    by_cases hk : k ∈ ns.map key <;> by_cases ha : k = key a <;> simp [hk, ha]

/-- Binding the names not bound yet binds them all. -/
theorem find_bound (t : Team) (part first count k : Nat) :
    Tab.find k ((t.unbound part first count).foldl (fun m n => Tab.put (slugKey part n) [] m) t.slugs) =
      if k ∈ ((List.range count).map (first + ·)).map (slugKey part) then some ((Tab.find k t.slugs).getD [])
      else Tab.find k t.slugs := by
  rw [find_bind]
  have hmem : k ∈ (t.unbound part first count).map (slugKey part) ↔
      k ∈ ((List.range count).map (first + ·)).map (slugKey part) ∧ Tab.find k t.slugs = none := by
    simp only [Team.unbound, List.mem_map, List.mem_filter, Tab.has, Bool.not_eq_true', Option.isSome_eq_false_iff,
      Option.isNone_iff_eq_none]
    constructor
    · rintro ⟨n, ⟨hn, hnone⟩, rfl⟩
      exact ⟨⟨n, hn, rfl⟩, hnone⟩
    · rintro ⟨⟨n, hn, rfl⟩, hnone⟩
      exact ⟨n, ⟨hn, hnone⟩, rfl⟩
  cases hf : Tab.find k t.slugs with
  | none =>
    rw [hf] at hmem
    exact if_congr (hmem.trans (and_iff_left rfl)) rfl rfl
  | some w =>
    rw [if_neg fun hk => by simpa [hf] using hmem.1 hk]
    simp

/-- What the answer to a group's request makes of a thread (R251). -/
def answeredThread (t : Team) (g : Nat) (ok : Bool) (n : Nat) (th : Thread) : Thread :=
  if t.hw n ≠ g then th
  else match th.wait with
    | .slugs p next => { th.setP p ok with wait := .ready, age := 0, pc := BitVec.ofNat 64 next }
    | .slugTurn => { th with wait := .ready, age := 0 }
    | _ => th

theorem find_answerSlugs (t : Team) (g n : Nat) (ok : Bool) :
    Tab.find n (t.answerSlugs g ok).threads = (Tab.find n t.threads).map (answeredThread t g ok n) := by
  refine Eq.trans (congrArg (Tab.find n) (List.map_congr_left fun p _ => ?_)) (Tab.find_map_val (answeredThread t g ok) n t.threads)
  obtain ⟨m, th⟩ := p
  by_cases hg : t.hw m ≠ g
  · simp only [answeredThread, if_pos hg]
  · simp only [answeredThread, if_neg hg]
    cases th.wait <;> rfl

/-! ### The instructions -/

section
variable {o : XOp} {x : XForm} {f : State → Nat → Team → Nat → List Nat → Nat → State} {s : State} {ig : IssueGroup} {t : Team}
  {g n : Nat} (hf : Formed s ig t) (hn : n ∈ ig.threads) (hhw : ∀ m ∈ ig.threads, t.hw m = g) (hnear : t.near = false)
  (hsplit : t.split = false)
include hf hn hhw hnear hsplit

/-- An issue group of one hardware group acts once. -/
theorem execSlugGroups_single :
    execSlugGroups o x f s = .next (f s ig.team t g ig.threads (nextPc ig 3)) := by
  have hoff : s.offUnit t ig false (word0 o x) (ig.pc + 12) = none := by simp [State.offUnit, hnear, hsplit]
  have hgroups := groupsOf_single (f := t.hw) (List.ne_nil_of_mem hn) hhw
  unfold execSlugGroups
  simp only [hf.1, hf.2.1, hoff, hgroups, List.foldl_cons, List.foldl_nil, filter_single hhw]
  rfl

end

/-- An answer to all threads of the group. -/
theorem answerAll_answers {s : State} {ig : IssueGroup} {t : Team} (hf : Formed s ig t) (p next : Nat) (ok : Bool) :
    (∀ k ∈ ig.threads, ∀ th, Tab.find k t.threads = some th → ∃ th',
      (s.answerAll ig.team ig.threads p next ok).thread? { team := ig.team, n := k } = some th' ∧
        th'.preds = (th.setP p ok).preds ∧ th'.pc = BitVec.ofNat 64 next ∧ th'.regs = th.regs) ∧
    OnlyTeam s (s.answerAll ig.team ig.threads p next ok) ig.team := by
  have hacts := acts_sweep s ig.team (fun _ th => { th.setP p ok with pc := BitVec.ofNat 64 next }) ig.threads
  refine ⟨fun k hk th hth => ⟨{ th.setP p ok with pc := BitVec.ofNat 64 next }, ?_, rfl, rfl, ?_⟩, hacts.1⟩
  · refine thread?_of_find (hacts.team hf.2.1) ?_
    rw [find_sweep _ hf.2.2.1, if_pos hk, hth]
    rfl
  · show (th.setP p ok).regs = th.regs
    unfold Thread.setP
    split <;> rfl

/-- What `acalloc` does for one group (R251). -/
def allocate (x : XForm) (s : State) (team : Nat) (t : Team) (g : Nat) (ns : List Nat) (next : Nat) : State :=
  let park := fun (s : State) (w : Wait) => ns.foldl (fun s n => s.modThread { team, n } fun th => { th with wait := w }) s
  match Tab.find g t.slugAsk with
  | some a => (park s (if a = (slugFirst x, slugCount x) then .slugs x.d.toNat next else .slugTurn)).settleSlugs t.core (g % 4) true 64
  | none =>
    let m := (t.unbound (g % 4) (slugFirst x) (slugCount x)).length
    if m = 0 then s.answerAll team ns x.d.toNat next true
    else if 16 < m + t.slugsOn (g % 4) then s.answerAll team ns x.d.toNat next false
    else
      (park (s.modTeam team fun t => { t with slugAsk := Tab.put g (slugFirst x, slugCount x) t.slugAsk })
        (.slugs x.d.toNat next)).settleSlugs t.core (g % 4) true 64

theorem execAcalloc_eq (x : XForm) (s : State) : exec (.acalloc x) s = execSlugGroups .acalloc x (allocate x) s := rfl

/-- The bound ones of the names. -/
def boundNames (t : Team) (part first count : Nat) : List Nat :=
  ((List.range count).map (first + ·)).filter fun n => Tab.has t.slugs (slugKey part n)

/-- The team with the bound ones of the names unbound. -/
def freed (part first count : Nat) (t : Team) : Team :=
  { t with slugs := (boundNames t part first count).foldl (fun m n => Tab.del (slugKey part n) m) t.slugs }

/-- What `acfree` does for one group (R253). -/
def free (x : XForm) (s : State) (team : Nat) (t : Team) (g : Nat) (ns : List Nat) (next : Nat) : State :=
  let s := (boundNames t (g % 4) (slugFirst x) (slugCount x)).foldl (fun s n => s.freeSlug t.core team (slugKey (g % 4) n)) s
  (s.goOn team ns next).settleSlugs t.core (g % 4) false 64

theorem execAcfree_eq (x : XForm) (s : State) : exec (.acfree x) s = execSlugGroups .acfree x (free x) s := rfl

/-- What the request makes of its team: it waits, and its threads park. -/
def asking (x : XForm) (g next : Nat) (ns : List Nat) (t : Team) : Team :=
  Team.sweep (fun _ th => { th with wait := .slugs x.d.toNat next }) ns
    { t with slugAsk := Tab.put g (slugFirst x, slugCount x) t.slugAsk }

section
variable {x : XForm} {s : State} {k core g next : Nat} {t : Team} {before after : List (Nat × Team)} {ns : List Nat}
  (hat : Listed s k t before after) (halone : Alone before after) (hplace : t.place = .core core) (hask : t.slugAsk = [])
include hat halone hplace hask

/-- A request that fits while no other waits: its team waits for a moment, and has then been granted it. -/
theorem allocate_granted (hnz : (t.unbound (g % 4) (slugFirst x) (slugCount x)).length ≠ 0)
    (hsmall : (t.unbound (g % 4) (slugFirst x) (slugCount x)).length + t.slugsOn (g % 4) ≤ 16)
    (hfit : s.slugsUsed core (g % 4) + (t.unbound (g % 4) (slugFirst x) (slugCount x)).length ≤ 16) :
    (allocate x s k t g ns next).team? k =
      some (granted (g % 4) (slugFirst x) (slugCount x) g (asking x g next ns t)) := by
  obtain ⟨t1, ht1⟩ : ∃ t1, t1 = asking x g next ns t := ⟨_, rfl⟩
  have hbody := sweep_body (fun _ th => { th with wait := .slugs x.d.toNat next }) ns
    { t with slugAsk := Tab.put g (slugFirst x, slugCount x) t.slugAsk }
  have hplace1 : t1.place = .core core := ht1 ▸ (congrArg Team.place hbody :).trans hplace
  have hslugs1 : t1.slugs = t.slugs := ht1 ▸ (congrArg Team.slugs hbody :)
  have hask1 : t1.slugAsk = [(g, slugFirst x, slugCount x)] := by
    have h : t1.slugAsk = Tab.put g (slugFirst x, slugCount x) t.slugAsk := ht1 ▸ (congrArg Team.slugAsk hbody :)
    rw [h, hask]; rfl
  have hunbound : t1.unbound (g % 4) (slugFirst x) (slugCount x) = t.unbound (g % 4) (slugFirst x) (slugCount x) := by
    unfold Team.unbound
    rw [hslugs1]
  obtain ⟨s1, hs1⟩ : ∃ s1, s1 = s.modTeam k (asking x g next ns) := ⟨_, rfl⟩
  have hat1 : Listed s1 k t1 before after := by rw [hs1, ht1]; exact hat.modTeam _
  have hused : s1.slugsUsed core (g % 4) = s.slugsUsed core (g % 4) := by
    rw [hs1]
    exact slugsUsed_modTeam hat (ht1 ▸ hplace1.trans hplace.symm) (ht1 ▸ hslugs1) core (g % 4)
  obtain ⟨bad, hsettle⟩ := settleSlugs_one hat1 halone hplace1 rfl hask1 (by rw [hused, hunbound]; exact hfit) 63
  have hpark : (ns.foldl (fun s n => s.modThread { team := k, n } fun th => { th with wait := .slugs x.d.toNat next })
      (s.modTeam k fun t => { t with slugAsk := Tab.put g (slugFirst x, slugCount x) t.slugAsk })) = s1 := by
    rw [(hat.modTeam _).sweep, hs1]
    simp only [State.modTeam, modify_modify]
    rfl
  have hcore : t.core = core := by simp [Team.core, hplace]
  have hrun : allocate x s k t g ns next =
      ({ s1 with bad } : State).modTeam k (granted (g % 4) (slugFirst x) (slugCount x) g) := by
    unfold allocate
    simp only [hask, Tab.find_nil]
    rw [if_neg hnz, if_neg (by omega), hcore]
    exact (congrArg (fun u : State => u.settleSlugs core (g % 4) true 64) hpark).trans hsettle
  rw [hrun, ← ht1]
  exact Listed.team? (Listed.modTeam (s := { s1 with bad }) hat1 _)

omit halone hask in
/-- Names that no operation uses are unbound one after the other. -/
theorem freeSlugs_idle (part : Nat) (bound : List Nat)
    (hidle : ∀ n ∈ bound, s.slugBusy core k (slugKey part n) = false) :
    bound.foldl (fun s n => s.freeSlug core k (slugKey part n)) s =
      s.modTeam k fun t => { t with slugs := bound.foldl (fun m n => Tab.del (slugKey part n) m) t.slugs } := by
  induction bound generalizing s t with
  | nil => exact hat.modTeam_id.symm
  | cons n bound ih =>
    obtain ⟨F, hF⟩ : ∃ F : Team → Team, F = fun t => { t with slugs := Tab.del (slugKey part n) t.slugs } := ⟨_, rfl⟩
    have hfree : s.freeSlug core k (slugKey part n) = s.modTeam k F := by
      rw [State.freeSlug, hidle n List.mem_cons_self, hF]
      rfl
    have hbusy : ∀ m ∈ bound, (s.modTeam k F).slugBusy core k (slugKey part m) = false := fun m hm => by
      rw [← hidle m (List.mem_cons_of_mem _ hm)]
      unfold State.slugBusy
      rw [(hat.modTeam F).team?, hat.team?, hF]
      rfl
    rw [List.foldl_cons, hfree, ih (hat.modTeam F) (by rw [hF]; exact hplace) hbusy, hF]
    simp only [State.modTeam, modify_modify]
    rfl

/-- Names that no operation uses are unbound, and the threads go on. -/
theorem free_idle (hidle : ∀ n ∈ boundNames t (g % 4) (slugFirst x) (slugCount x), s.slugBusy core k (slugKey (g % 4) n) = false) :
    (free x s k t g ns next).team? k = some (Team.sweep (fun _ th => Thread.at th next) ns
      (freed (g % 4) (slugFirst x) (slugCount x) t)) := by
  obtain ⟨F, hF⟩ : ∃ F : Team → Team, F = fun u => { u with slugs :=
    (boundNames t (g % 4) (slugFirst x) (slugCount x)).foldl (fun m n => Tab.del (slugKey (g % 4) n) m) u.slugs } := ⟨_, rfl⟩
  have hcore : t.core = core := by simp [Team.core, hplace]
  obtain ⟨u, hu⟩ : ∃ u, u = ((s.modTeam k F).goOn k ns next) := ⟨_, rfl⟩
  have hlast : Listed u k (Team.sweep (fun _ th => Thread.at th next) ns (F t)) before after := by
    have h := (hat.modTeam F).modTeam (Team.sweep (fun _ th => Thread.at th next) ns)
    rw [← (hat.modTeam F).sweep] at h
    exact hu ▸ h
  have hquiet : (Team.sweep (fun _ th => Thread.at th next) ns (F t)).slugAsk = [] := by
    have h : (Team.sweep (fun _ th => Thread.at th next) ns (F t)).slugAsk = (F t).slugAsk :=
      (congrArg Team.slugAsk (sweep_body (fun _ th => Thread.at th next) ns (F t)) :)
    rw [h, hF]
    exact hask
  have hrun : free x s k t g ns next = u := by
    unfold free
    rw [hcore, freeSlugs_idle hat hplace (g % 4) _ hidle, ← hF]
    show ((s.modTeam k F).goOn k ns next).settleSlugs core (g % 4) false 64 = u
    rw [← hu]
    exact settleSlugs_none ((slugAsks_listed hlast halone core (g % 4) (g := g) (ask := (0, 0)) (.inl hquiet)).trans (if_pos hquiet))
      false 64
  rw [hrun, hlast.team?, hF]
  rfl

end

/-- Unbinding the bound names leaves none of the names bound. -/
theorem find_freed (t : Team) (part first count k : Nat) :
    Tab.find k ((boundNames t part first count).foldl (fun m n => Tab.del (slugKey part n) m) t.slugs) =
      if k ∈ ((List.range count).map (first + ·)).map (slugKey part) then none else Tab.find k t.slugs := by
  rw [find_unbind]
  have hmem : k ∈ (boundNames t part first count).map (slugKey part) ↔
      k ∈ ((List.range count).map (first + ·)).map (slugKey part) ∧ Tab.find k t.slugs ≠ none := by
    simp only [boundNames, List.mem_map, List.mem_filter, Tab.has, Option.isSome_iff_ne_none]
    constructor
    · rintro ⟨n, ⟨hn, hsome⟩, rfl⟩
      exact ⟨⟨n, hn, rfl⟩, hsome⟩
    · rintro ⟨⟨n, hn, rfl⟩, hsome⟩
      exact ⟨n, ⟨hn, hsome⟩, rfl⟩
  by_cases hnone : Tab.find k t.slugs = none
  · rw [if_neg fun h => (hmem.1 h).2 hnone, hnone, ite_self]
  · exact if_congr (hmem.trans (and_iff_left hnone)) rfl rfl

/-- A thread that waits with its group's request, answered. -/
theorem answeredThread_slugs {t : Team} {g n p next : Nat} (ok : Bool) (hhw : t.hw n = g) (th : Thread) :
    let th' := answeredThread t g ok n { th with wait := .slugs p next }
    th'.preds = (th.setP p ok).preds ∧ th'.pc = BitVec.ofNat 64 next ∧ th'.regs = th.regs := by
  intro th'
  have h : th' = { ({ th with wait := .slugs p next } : Thread).setP p ok with
      wait := .ready, age := 0, pc := BitVec.ofNat 64 next } := if_neg (not_not.2 hhw)
  rw [h]
  unfold Thread.setP
  split <;> exact ⟨rfl, rfl, rfl⟩

/-- Settles O35. -/
theorem galleyAllocation : Obligations.GalleyAllocation := by
  intro x s ig t g n hf hn hhw hnear hsplit hasks hsorted part names m answered
  obtain ⟨hig, hteam, hnodup, hlisted⟩ := id hf
  have hask : t.slugAsk = [] := hasks _ (Tab.mem_of_find hteam)
  obtain ⟨before, after, hat⟩ := exists_listed hsorted hteam
  have halone : Alone before after := fun p hp => hasks p (by
    rw [hat.1]
    rcases List.mem_append.1 hp with hp | hp
    · exact List.mem_append_left _ hp
    · exact List.mem_append_right _ (List.mem_cons_of_mem _ hp))
  obtain ⟨core, hplace⟩ : ∃ core, t.place = .core core := by
    cases hp : t.place with
    | core c => exact ⟨c, rfl⟩
    | near => simp [Team.near, hp] at hnear
  have hcore : t.core = core := by simp [Team.core, hplace]
  have halloc : exec (.acalloc x) s = .next (allocate x s ig.team t g ig.threads (nextPc ig 3)) :=
    (execAcalloc_eq x s).trans (execSlugGroups_single hf hn hhw hnear hsplit)
  refine ⟨fun hzero => ?_, fun hlarge hnz => ?_, fun hnz hsmall hfit => ?_, fun hidle => ?_⟩
  · obtain ⟨hanswers, honly⟩ := answerAll_answers hf x.d.toNat (nextPc ig 3) true
    refine ⟨_, halloc.trans (congrArg Host.Outcome.next ?_), hanswers, honly⟩
    simp only [allocate, hask, Tab.find_nil]
    exact if_pos hzero
  · obtain ⟨hanswers, honly⟩ := answerAll_answers hf x.d.toNat (nextPc ig 3) false
    refine ⟨_, halloc.trans (congrArg Host.Outcome.next ?_), hanswers, honly⟩
    simp only [allocate, hask, Tab.find_nil]
    exact (if_neg hnz).trans (if_pos hlarge)
  · have hteam' := allocate_granted (x := x) (next := nextPc ig 3) (ns := ig.threads) hat halone hplace hask hnz hsmall
      (hcore ▸ hfit)
    have hbody := sweep_body (fun _ th => { th with wait := .slugs x.d.toNat (nextPc ig 3) }) ig.threads
      { t with slugAsk := Tab.put g (slugFirst x, slugCount x) t.slugAsk }
    refine ⟨_, _, halloc, fun k hk th hth => ?_, hteam', ?_, fun k => ?_⟩
    · have hth1 : Tab.find k (asking x g (nextPc ig 3) ig.threads t).threads =
          some { th with wait := .slugs x.d.toNat (nextPc ig 3) } := by
        rw [asking, find_sweep _ hnodup, if_pos hk]
        exact congrArg _ hth
      have hfind := (find_answerSlugs { asking x g (nextPc ig 3) ig.threads t with
        slugs := ((asking x g (nextPc ig 3) ig.threads t).unbound part (slugFirst x) (slugCount x)).foldl
          (fun m n => Tab.put (slugKey part n) [] m) (asking x g (nextPc ig 3) ig.threads t).slugs } g k true).trans
        (congrArg _ hth1)
      exact ⟨_, thread?_of_find hteam' hfind,
        answeredThread_slugs true ((congrArg (Team.hw · k) hbody :).trans (hhw k hk)) th⟩
    · have h : (asking x g (nextPc ig 3) ig.threads t).slugAsk = [(g, slugFirst x, slugCount x)] :=
        (congrArg Team.slugAsk hbody :).trans (by simp only [hask]; rfl)
      show Tab.del g (asking x g (nextPc ig 3) ig.threads t).slugAsk = []
      rw [h]
      simp [Tab.del]
    · have h : (asking x g (nextPc ig 3) ig.threads t).slugs = t.slugs := (congrArg Team.slugs hbody :)
      refine (find_bound (asking x g (nextPc ig 3) ig.threads t) part _ _ k).trans ?_
      rw [h]
  · have hteam' := free_idle (x := x) (next := nextPc ig 3) (ns := ig.threads) (g := g) hat halone hplace hask fun k hk =>
      hcore ▸ hidle k (List.mem_filter.1 hk).1
    refine ⟨_, _, (execAcfree_eq x s).trans (execSlugGroups_single hf hn hhw hnear hsplit), hteam', fun k => ?_, fun k hk => ?_⟩
    · have h := (congrArg Team.slugs (sweep_body (fun _ th => Thread.at th (nextPc ig 3)) ig.threads
        (freed (g % 4) (slugFirst x) (slugCount x) t)) :)
      exact (congrArg (Tab.find k) h).trans (find_freed t part _ _ k)
    · rw [find_sweep _ hnodup, if_pos hk]
      rfl

end Sys2Proof.Proofs.Galley

/-! The instructions of the galley (R242, R246, R254, R255): the checks that every slug instruction makes, once for all of
them, and from them `acrd`, `acwr`, `aczero` and `acq`. -/

namespace Sys2Proof.Proofs.Sweeps

open Sys2Proof Sys2Proof.Machine Sys2Proof.Claims

/-- Two sweeps of the same threads are one. -/
theorem Swept.trans {s s' s'' : State} {k : Nat} {ts : List Nat} {e e' : Nat → Thread → Thread} (h : Swept s s' k ts e)
    (h' : Swept s' s'' k ts e') : Swept s s'' k ts fun n th => e' n (e n th) := by
  obtain ⟨hin, hout, hbut⟩ := h
  obtain ⟨hin', hout', hbut'⟩ := h'
  refine ⟨fun n hn => ?_, fun i hi => (hout' i hi).trans (hout i hi), sameBut_trans hbut hbut'⟩
  rw [hin' n hn, hin n hn, Option.map_map]
  rfl

theorem touches_of_swept {s s' : State} {ig : IssueGroup} {t : Team} {p : View → Thread → Prop} {e : Nat → Thread → Thread}
    (hf : Formed s ig t) (h : Swept s s' ig.team ig.threads e)
    (hp : ∀ n ∈ ig.threads, ∀ th, Tab.find n t.threads = some th → p (viewOf ig.team t n th) (e n th)) :
    Touches s s' ig t p := by
  obtain ⟨hin, hout, hbut⟩ := h
  refine ⟨fun n hn th hth => ⟨_, ?_, hp n hn th hth⟩, hout, hbut.1, hbut.2⟩
  rw [hin n hn, thread?_of_find hf.2.1 hth, Option.map_some]

end Sys2Proof.Proofs.Sweeps

namespace Sys2Proof.Proofs.Galley

open Sys2Proof Sys2Proof.Machine Sys2Proof.Claims
open Sys2Proof.Proofs.Sweeps Sys2Proof.Proofs.OneTeam Sys2Proof.Proofs.RegisterFiles

/-! ### The checks of a slug instruction -/

theorem mem_regSpan {m r n : Nat} : m ∈ regSpan r n ↔ r ≤ m ∧ m < r + n := by
  simp only [regSpan, List.mem_map, List.mem_range]
  constructor
  · rintro ⟨i, hi, rfl⟩; omega
  · intro ⟨h1, h2⟩; exact ⟨m - r, by omega, by omega⟩

/-- The registers of ranges. -/
def spans (rs : List (Nat × Nat)) : List Nat := rs.flatMap fun r => regSpan r.1 r.2

/-- Ranges whose registers are all allocated. -/
theorem ranges_none {c : View} {rs : List (Nat × Nat)} (hpos : ∀ r ∈ rs, 0 < r.2) (h : ∀ m ∈ spans rs, m < c.alloc) :
    c.ranges rs = none := by
  have hnone : (rs.find? fun r => decide (c.alloc < r.1 + r.2)) = none := List.find?_eq_none.2 fun r hr => by
    have hp := hpos r hr
    have hlast := h (r.1 + r.2 - 1) (List.mem_flatMap.2 ⟨r, hr, mem_regSpan.2 (by omega)⟩)
    simp only [decide_eq_true_eq]
    omega
  rw [View.ranges, hnone]
  rfl

/-- What a slug instruction asks of one thread: its registers are allocated, without handles and sound. -/
def Fit (rs ds : List (Nat × Nat)) (c : View) : Prop :=
  (∀ m ∈ spans rs ++ spans ds, m < c.alloc) ∧ Settled c (spans rs ++ spans ds) ∧ Sound c (spans rs)

theorem observe_settled {s : State} {k n : Nat} {t : Team} {th : Thread} {rs ds : List Nat} (hteam : s.team? k = some t)
    (hth : Tab.find n t.threads = some th) (h : Settled (viewOf k t n th) (rs ++ ds)) :
    s.observe (viewOf k t n th).id ((viewOf k t n th).observed rs ds) = s := by
  have hnone : ((viewOf k t n th).observed rs ds).filterMap (fun m => Tab.find m th.seen) = [] := by
    refine List.filterMap_eq_nil_iff.2 fun m hm => (h m ?_).2
    rcases List.mem_append.1 hm with hm | hm
    · exact List.mem_append_left _ hm
    · exact List.mem_append_right _ (List.mem_filter.1 hm).1
  have hview : s.view (viewOf k t n th).id = some (viewOf k t n th) := view_eq s _ t th hteam hth
  rw [State.observe, hview]
  simp only [show (viewOf k t n th).th = th from rfl, hnone]

section
variable {o : XOp} {x : XForm} {slotOk : Nat → Bool} {conv : Nat} {srcs dsts : Nat → List (Nat × Nat)}
  {act : State → SlugUse → State} {s : State} {ig : IssueGroup} {t : Team} {n : Nat} {w : Tab Word}

/-- The use that a slug instruction without links makes of its slug. -/
def useOf (x : XForm) (s : State) (ig : IssueGroup) (t : Team) (n : Nat) : SlugUse :=
  { team := ig.team, t, threads := ig.threads, core := t.core, part := t.part n, slug := slugKey (t.part n) (x.imm.toNat % 16)
    slot := s.fslot t x.fs.toNat, link := none, arrive := none, next := nextPc ig 3 }

variable (hf : Formed s ig t) (hhead : ig.threads.head? = some n) (hnear : t.near = false) (hsplit : t.split = false)
  (hslot : slotOk (s.fslot t x.fs.toNat) = true)
  (hconv : conv = 0 ∨ (t.converged ig.threads = true ∧ (conv = 1 ∨ ig.threads.length = 32)))
  (hwait : linkWait x = false) (harr : linkArr x = false)
  (hslug : Tab.find (slugKey (t.part n) (x.imm.toNat % 16)) t.slugs = some w)
  (hpos : ∀ r ∈ srcs (s.fslot t x.fs.toNat) ++ dsts (s.fslot t x.fs.toNat), 0 < r.2)
  (hfit : Each ig t (Fit (srcs (s.fslot t x.fs.toNat)) (dsts (s.fslot t x.fs.toNat))))
include hf hhead hnear hsplit hslot hconv hwait harr hslug hpos hfit

/-- A slug instruction that passes its checks, through no link, makes its access. -/
theorem slugInstr_acts : slugInstr o x slotOk conv srcs dsts act s = .next (act s (useOf x s ig t n)) := by
  obtain ⟨hig, hteam, hnodup, hlisted⟩ := id hf
  obtain ⟨rest, hthreads⟩ : ∃ rest, ig.threads = n :: rest := by
    cases hl : ig.threads with
    | nil => simp [hl] at hhead
    | cons a rest => exact ⟨rest, by simpa [hl] using hhead⟩
  obtain ⟨rs, hrs⟩ : ∃ rs, rs = srcs (s.fslot t x.fs.toNat) := ⟨_, rfl⟩
  obtain ⟨ds, hds⟩ : ∃ ds, ds = dsts (s.fslot t x.fs.toNat) := ⟨_, rfl⟩
  rw [← hrs, ← hds] at hpos hfit
  obtain ⟨views, hviews⟩ : ∃ views, views = ig.threads.filterMap fun n => s.view { team := ig.team, n } := ⟨_, rfl⟩
  have hmem : ∀ c ∈ views, ∃ m th, Tab.find m t.threads = some th ∧ c = viewOf ig.team t m th ∧ Fit rs ds c := fun c hc => by
    obtain ⟨m, hm, hview⟩ := List.mem_filterMap.1 (hviews ▸ hc)
    obtain ⟨th, hth⟩ := hlisted m hm
    obtain rfl := Option.some.inj ((view_eq s { team := ig.team, n := m } t th hteam hth).symm.trans hview)
    exact ⟨m, th, hth, rfl, hfit m hm th hth⟩
  have hoff : s.offUnit t ig false (word0 o x) (ig.pc + 12) = none := by simp [State.offUnit, hnear, hsplit]
  have hspan : spans (rs ++ ds) = spans rs ++ spans ds := List.flatMap_append
  have houtside : views.findSome? (fun c => c.ranges (rs ++ ds)) = none := List.findSome?_eq_none_iff.2 fun c hc => by
    obtain ⟨_, _, _, _, hin, _⟩ := hmem c hc
    exact ranges_none hpos (hspan ▸ hin)
  have hbad : (views.filterMap fun c => match c.sound (spans rs) with | .error (.fault f) => some (c.id, f) | _ => none) = [] :=
    List.filterMap_eq_nil_iff.2 fun c hc => by
      obtain ⟨_, _, _, _, _, _, hsnd⟩ := hmem c hc
      rw [sound_sound hsnd]
  have hpend : (views.findSome? fun c =>
      match c.unpended (spans rs ++ spans ds) with | .error (.park w) => some w | _ => none) = none :=
    List.findSome?_eq_none_iff.2 fun c hc => by
      obtain ⟨_, _, _, _, _, hset, _⟩ := hmem c hc
      rw [unpended_settled hset]
  have hobs : views.foldl (fun s c => s.observe c.id (c.observed (spans rs) (spans ds))) s = s :=
    foldl_unchanged views fun c hc => by
      obtain ⟨m, th, hth, rfl, _, hset, _⟩ := hmem c hc
      exact observe_settled hteam hth hset
  have hlink : ∀ held, s.link ig.team t x held = { object := none, result := .ok s } := fun held => by
    simp [State.link, hwait, harr]
  have hdiverge : ¬((decide (conv ≠ 0) && !(t.converged ig.threads && (conv == 1 || ig.threads.length == 32))) = true) := by
    rcases hconv with rfl | ⟨hc, rfl | hlen⟩
    · simp
    · simp [hc]
    · simp [hc, hlen]
  have hhas : Tab.has t.slugs (slugKey (t.part n) (x.imm.toNat % 16)) = true := by rw [Tab.has, hslug]; rfl
  unfold slugInstr
  rw [hthreads] at hviews hdiverge
  simp only [hig, hteam, hthreads, hoff, hslot, Bool.not_true, Bool.false_eq_true, if_false, if_neg hdiverge, hhas, ← hviews,
    ← hrs, ← hds, houtside, hlink]
  refine (if_neg fun h => ?_).trans ?_
  · exact Bool.false_ne_true ((congrArg (!List.isEmpty ·) hbad :).symm.trans h)
  split
  next h => cases h.symm.trans hpend
  next =>
    rw [harr, Bool.false_and, if_neg Bool.false_ne_true]
    exact congrArg₂ (fun s' u => Host.Outcome.next (act s' u)) hobs (by rw [useOf, hthreads]; rfl)

end

/-! ### Accesses -/

section
variable {x : XForm} {s : State} {ig : IssueGroup} {t : Team} {n : Nat} {w : Tab Word} (hf : Formed s ig t)
  (hqueue : s.matrixQueue t.core (t.part n) = [])
include hqueue

omit hf in
theorem groupQueued_empty : s.groupQueued (useOf x s ig t n) = false := by
  show (List.any (s.matrixQueue t.core (t.part n)) _) = false
  rw [hqueue, List.any_nil]

include hf

/-- An access to a slug on which nothing is queued is made at once. -/
theorem slugAccess_idle (hslug : Tab.find (slugKey (t.part n) (x.imm.toNat % 16)) t.slugs = some w)
    (f : Tab Word → SlugUse → State → State) :
    slugAccess f s (useOf x s ig t n) = (f w (useOf x s ig t n) s).pastLink ig.team ig.threads (nextPc ig 3) := by
  have hw : ((s.team? (useOf x s ig t n).team).bind fun t' => Tab.find (useOf x s ig t n).slug t'.slugs).getD [] = w := by
    show ((s.team? ig.team).bind fun t' => Tab.find (slugKey (t.part n) (x.imm.toNat % 16)) t'.slugs).getD [] = w
    rw [hf.2.1, Option.bind_some, hslug, Option.getD_some]
  unfold slugAccess
  rw [groupQueued_empty hqueue, if_neg Bool.false_ne_true]
  simp only [hw]
  rw [foldl_unchanged]
  · rfl
  · exact fun _ _ => rfl

end

/-- The slug's rows that the threads' lanes meet are sound. -/
theorem slugBad_sound {x : XForm} {s : State} {ig : IssueGroup} {t : Team} {n : Nat} (h : SlugSound x s ig t n) :
    s.slugBad (useOf x s ig t n) = false := by
  refine List.any_eq_false.2 fun m hm hany => ?_
  obtain ⟨c, hc, hbad⟩ := List.any_eq_true.1 hany
  have hnone := h m hm c (List.mem_range.1 hc)
  exact Bool.false_ne_true ((congrArg Option.isSome hnone).symm.trans hbad)

/-- Registers written one after the other (R124). -/
theorem foldl_setV (th : Thread) (d : Nat) (val : Nat → Nat) (k : Nat) :
    (∀ r, ((List.range k).foldl (fun th c => th.setV (d + c) (val c)) th).v r =
      if d ≤ r ∧ r < d + k then BitVec.ofNat 32 (val (r - d)) else th.v r) ∧
    { (List.range k).foldl (fun th c => th.setV (d + c) (val c)) th with regs := th.regs, bad := th.bad, seen := th.seen } = th := by
  induction k with
  | zero => exact ⟨fun r => (if_neg (by omega)).symm, rfl⟩
  | succ k ih =>
    rw [List.range_succ, List.foldl_append]
    obtain ⟨hv, hrest⟩ := ih
    refine ⟨fun r => ?_, hrest⟩
    rw [List.foldl_cons, List.foldl_nil, v_setV, hv]
    by_cases hr : r = d + k
    · rw [if_pos hr, if_pos (by omega), hr, Nat.add_sub_cancel_left]
    · rw [if_neg hr]
      exact if_congr (by omega) rfl rfl

/-! ### `acrd` and `acq` -/

/-- A read of a slug into the threads' registers. -/
theorem slugReadTo_reads {x : XForm} {s : State} {ig : IssueGroup} {t : Team} {n : Nat} {w : Tab Word} (hf : Formed s ig t)
    (hqueue : s.matrixQueue t.core (t.part n) = []) (hslug : Tab.find (slugKey (t.part n) (x.imm.toNat % 16)) t.slugs = some w)
    (hsound : SlugSound x s ig t n) (dsts : List Nat) (eff : Nat → Thread → Thread) {f : Tab Word → SlugUse → State → State}
    (hread : f w (useOf x s ig t n) s = ig.threads.foldl (fun s m => s.modThread { team := ig.team, n := m } (eff m)) s) :
    Swept s (slugReadTo dsts f s (useOf x s ig t n)) ig.team ig.threads fun m th =>
      { eff m th with wait := .ready, linked := none, pc := BitVec.ofNat 64 (nextPc ig 3) } := by
  have hrun : slugReadTo dsts f s (useOf x s ig t n) =
      (ig.threads.foldl (fun s m => s.modThread { team := ig.team, n := m } (eff m)) s).pastLink ig.team ig.threads (nextPc ig 3) := by
    rw [slugReadTo, groupQueued_empty hqueue, if_neg Bool.false_ne_true, State.slugSound, slugBad_sound hsound,
      if_neg Bool.false_ne_true, slugAccess_idle hf hqueue hslug, hread]
  rw [hrun]
  exact (foldl_modThread _ _ _ _ hf.2.2.1).trans (foldl_modThread _ _ _ _ hf.2.2.1)

/-- A thread of an access that has completed. -/
def Done (ig : IssueGroup) (th th' : Thread) : Prop :=
  th'.pc = BitVec.ofNat 64 (nextPc ig 3) ∧ th'.wait = .ready ∧ th'.preds = th.preds ∧ th'.live = th.live ∧ th'.pend = th.pend

/-- The site of an instruction whose registers are at most one range each. -/
theorem fit_of_ranges {rs ds : List (Nat × Nat)} {ig : IssueGroup} {t : Team} {srcs dsts : List Nat} (hs : spans rs = srcs)
    (hd : spans ds = dsts)
    (h : Each ig t fun c => (∀ r ∈ srcs ++ dsts, r < c.alloc) ∧ Settled c (srcs ++ dsts) ∧ Sound c srcs) : Each ig t (Fit rs ds) :=
  fun m hm th hth => by subst hs hd; exact h m hm th hth

theorem spans_single (r n : Nat) : spans [(r, n)] = regSpan r n := by simp [spans]

/-- What `acrd` does to its threads. -/
def readRow (x : XForm) (w : Tab Word) (u : SlugUse) (s : State) : State :=
  u.threads.foldl (fun s n => s.modThread { team := u.team, n } fun th =>
    (List.range 32).foldl (fun th c => th.setV (x.d.toNat + c) (slugWord w (u.t.lane n * 32 + c))) th) s

/-- The results of `acq` in one lane. -/
def rowResults (x : XForm) (slot : Nat) (w : Tab Word) (lane : Nat) : List (Nat × Nat) :=
  (List.range 32).map fun c => acqV x.ty slot (slugWord w (lane * 32 + c))

/-- What `acq` does to one thread. -/
def convertedThread (x : XForm) (rs : List (Nat × Nat)) (th : Thread) : Thread :=
  (th.setVs x.d.toNat (Bits.joinLE x.ty.bits (rs.map (·.1))) (acqRegs x.ty)).raiseFlags (rs.foldl (fun f r => f ||| r.2) 0)

/-- What `acq` does to its threads. -/
def convertRow (x : XForm) (w : Tab Word) (u : SlugUse) (s : State) : State :=
  u.threads.foldl (fun s n => s.modThread { team := u.team, n } fun th =>
    convertedThread x (rowResults x u.slot w (u.t.lane n)) th) s

section
variable {x : XForm} {s : State} {ig : IssueGroup} {t : Team} {n : Nat} {w : Tab Word}
  (hqueue : s.matrixQueue t.core (t.part n) = [])
include hqueue

theorem acrd_reads (hsite : GalleySite x true [] (regSpan x.d.toNat 32) s ig t n w) (hsound : SlugSound x s ig t n) :
    ∃ s', exec (.acrd x) s = .next s' ∧ Touches s s' ig t fun c th' => Done ig c.th th' ∧ th'.fpflags = c.th.fpflags ∧
      ∀ r, th'.v r =
        if x.d.toNat ≤ r ∧ r < x.d.toNat + 32 then BitVec.ofNat 32 (slugWord w (t.lane c.id.n * 32 + (r - x.d.toNat)))
        else c.th.v r := by
  obtain ⟨hf, hhead, hnear, hsplit, hconv, hwait, harr, hslug, hfit⟩ := hsite
  have he : execAcrd x s = .next (slugReadTo (regSpan x.d.toNat 32) (readRow x) s (useOf x s ig t n)) :=
    slugInstr_acts (o := .acrd) (slotOk := fun _ => true) (conv := 1) (srcs := fun _ => []) (dsts := fun _ => [(x.d.toNat, 32)])
      hf hhead hnear hsplit rfl (.inr ⟨hconv rfl, .inl rfl⟩) hwait harr hslug (by simp)
      (fit_of_ranges rfl (spans_single _ _) hfit)
  refine ⟨_, he, touches_of_swept hf (slugReadTo_reads hf hqueue hslug hsound _ _ rfl) fun m hm th hth => ?_⟩
  obtain ⟨hv, hrest⟩ := foldl_setV th x.d.toNat (fun c => slugWord w (t.lane m * 32 + c)) 32
  exact ⟨⟨rfl, rfl, (congrArg Thread.preds hrest :), (congrArg Thread.live hrest :), (congrArg Thread.pend hrest :)⟩,
    (congrArg Thread.fpflags hrest :), hv⟩

omit hqueue in
theorem bits_pos (ty : Ty) : 0 < ty.bits := by cases ty <;> decide

theorem acq_converts (hsite : GalleySite x true [] (regSpan x.d.toNat (acqRegs x.ty)) s ig t n w)
    (hslot : acqSlotOk x (s.fslot t x.fs.toNat) = true) (hsound : SlugSound x s ig t n) :
    ∃ s', exec (.acq x) s = .next s' ∧ Touches s s' ig t fun c th' =>
      let rs := (List.range 32).map fun i => acqV x.ty (s.fslot t x.fs.toNat) (slugWord w (t.lane c.id.n * 32 + i))
      Done ig c.th th' ∧
        th'.regs = (c.th.setVs x.d.toNat (Bits.joinLE x.ty.bits (rs.map Prod.fst)) (acqRegs x.ty)).regs ∧
        th'.fpflags = (c.th.raiseFlags (rs.foldl (fun f r => f ||| r.2) 0)).fpflags := by
  obtain ⟨hf, hhead, hnear, hsplit, hconv, hwait, harr, hslug, hfit⟩ := hsite
  have he : execAcq x s = .next (slugReadTo (regSpan x.d.toNat (acqRegs x.ty)) (convertRow x) s (useOf x s ig t n)) :=
    slugInstr_acts (o := .acq) (slotOk := acqSlotOk x) (conv := 1) (srcs := fun _ => [])
      (dsts := fun _ => [(x.d.toNat, acqRegs x.ty)])
      hf hhead hnear hsplit hslot (.inr ⟨hconv rfl, .inl rfl⟩) hwait harr hslug (by simpa [acqRegs] using bits_pos x.ty)
      (fit_of_ranges rfl (spans_single _ _) hfit)
  refine ⟨_, he, touches_of_swept hf (slugReadTo_reads hf hqueue hslug hsound _ _ rfl) fun m hm th hth => ?_⟩
  intro rs
  have hrest := setVs_rest th x.d.toNat (Bits.joinLE x.ty.bits (rs.map Prod.fst)) (acqRegs x.ty)
  refine ⟨⟨rfl, rfl, (congrArg Thread.preds hrest :), (congrArg Thread.live hrest :), (congrArg Thread.pend hrest :)⟩, rfl, ?_⟩
  exact congrArg (· ||| BitVec.ofNat 5 (rs.foldl (fun f r => f ||| r.2) 0)) (congrArg Thread.fpflags hrest :)

end

/-! ### `acwr` and `aczero` -/

/-- A slug written as a whole: its words are replaced, their marks forgotten, and the threads go on. -/
theorem slugBecame_put {x : XForm} {s : State} {ig : IssueGroup} {t : Team} {n : Nat} {w : Tab Word} (hf : Formed s ig t)
    (hslug : Tab.find (slugKey (t.part n) (x.imm.toNat % 16)) t.slugs = some w) (w' : Tab Word) (words : List Nat) :
    ∃ t', SlugBecame s
        (((s.putSlug ig.team (slugKey (t.part n) (x.imm.toNat % 16)) w').healSlug (useOf x s ig t n) words).pastLink ig.team
          ig.threads (nextPc ig 3)) ig.team t t' (slugKey (t.part n) (x.imm.toNat % 16)) w' ∧
      ∀ m ∈ ig.threads, ∀ th, Tab.find m t.threads = some th → ∃ th', Tab.find m t'.threads = some th' ∧ Done ig th th' ∧
        th'.regs = th.regs := by
  obtain ⟨key, hkey⟩ : ∃ key, key = slugKey (t.part n) (x.imm.toNat % 16) := ⟨_, rfl⟩
  rw [← hkey] at hslug ⊢
  obtain ⟨u, hu⟩ : ∃ u, u = (s.putSlug ig.team key w').healSlug (useOf x s ig t n) words := ⟨_, rfl⟩
  obtain ⟨t1, ht1⟩ : ∃ t1 : Team, t1 = { t with slugs := Tab.modify key (fun _ => w') t.slugs } := ⟨_, rfl⟩
  have hput := acts_modTeam s ig.team fun t => { t with slugs := Tab.modify key (fun _ => w') t.slugs }
  have hteam1 : u.team? ig.team = some t1 := by rw [hu, ht1]; exact hput.team hf.2.1
  have hsweep := acts_sweep u ig.team
    (fun _ th => { th with wait := .ready, linked := none, pc := BitVec.ofNat 64 (nextPc ig 3) }) ig.threads
  have hbody := sweep_body (fun _ th => { th with wait := .ready, linked := none, pc := BitVec.ofNat 64 (nextPc ig 3) })
    ig.threads t1
  have hslugs : (Team.sweep _ ig.threads t1).slugs = t1.slugs := (congrArg Team.slugs hbody :)
  rw [← hu]
  refine ⟨_, ⟨hsweep.team hteam1, fun i hi => ?_, ?_, fun i hi => ?_, ?_, ?_⟩, fun m hm th hth => ?_⟩
  · refine (hsweep.1.1 i hi).trans ?_
    rw [hu]
    exact hput.1.1 i hi
  · rw [hslugs, ht1, Tab.find_modify_same, hslug]
    rfl
  · rw [hslugs, ht1, Tab.find_modify, if_neg hi]
  · have h := congrArg (fun v : Team => { v with threads := [], slugs := [] }) hbody
    exact h.trans (by rw [ht1])
  · have h := congrArg (fun v : State => { v with teams := s.teams, bad := s.bad }) hsweep.1.2
    exact h.trans (by rw [hu]; rfl)
  · refine ⟨{ th with wait := .ready, linked := none, pc := BitVec.ofNat 64 (nextPc ig 3) }, ?_, ⟨rfl, rfl, rfl, rfl, rfl⟩, rfl⟩
    rw [find_sweep _ hf.2.2.1, if_pos hm, ht1]
    exact congrArg _ hth

/-- A row written word by word. -/
theorem getD_writeRow (w : Tab Word) (base : Nat) (val : Nat → Word) (k i : Nat) :
    Tab.getD ((List.range k).foldl (fun w c => Tab.set 0 (base + c) (val c) w) w) i 0 =
      if base ≤ i ∧ i < base + k then val (i - base) else Tab.getD w i 0 := by
  induction k with
  | zero => exact (if_neg (by omega)).symm
  | succ k ih =>
    rw [List.range_succ, List.foldl_append, List.foldl_cons, List.foldl_nil, Tab.getD_set, ih]
    by_cases hi : i = base + k
    · rw [if_pos hi, if_pos (by omega), hi, Nat.add_sub_cancel_left]
    · rw [if_neg hi]
      exact if_congr (by omega) rfl rfl

/-- The row of one lane, as `acwr` writes it. -/
def putRow (a : Nat) (s : State) (team lane n : Nat) (w : Tab Word) : Tab Word :=
  match s.thread? { team, n } with
  | some th => (List.range 32).foldl (fun w c => Tab.set 0 (lane * 32 + c) (th.v (a + c)) w) w
  | none => w

/-- The slug as `acwr` writes it. -/
def putRows (a : Nat) (s : State) (team : Nat) (t : Team) (ns : List Nat) (w : Tab Word) : Tab Word :=
  ns.foldl (fun w n => putRow a s team (t.lane n) n w) w

/-- What `acwr` does to its slug. -/
def writeRow (x : XForm) (w : Tab Word) (u : SlugUse) (s : State) : State :=
  (s.putSlug u.team u.slug (putRows x.a.toNat s u.team u.t u.threads w)).healSlug u
    (u.threads.flatMap fun n => (List.range 32).map fun c => u.t.lane n * 32 + c)

section
variable {s : State} {k : Nat} {t : Team} (hteam : s.team? k = some t) (a : Nat)
include hteam

theorem getD_putRow {n : Nat} {th : Thread} (hth : Tab.find n t.threads = some th) (w : Tab Word) (i : Nat) :
    Tab.getD (putRow a s k (t.lane n) n w) i 0 =
      if i / 32 = t.lane n then th.v (a + i % 32) else Tab.getD w i 0 := by
  rw [putRow, thread?_of_find hteam hth]
  refine (getD_writeRow w (t.lane n * 32) (fun c => th.v (a + c)) 32 i).trans ?_
  by_cases hi : i / 32 = t.lane n
  · rw [if_pos hi, if_pos (by omega), show i - t.lane n * 32 = i % 32 by omega]
  · rw [if_neg hi, if_neg (by omega)]

/-- The slug after the rows of some lanes have been written. -/
theorem getD_putRows (ns : List Nat) (hlisted : ∀ n ∈ ns, ∃ th, Tab.find n t.threads = some th)
    (hlanes : ns.Pairwise fun m n => t.lane m ≠ t.lane n) (w : Tab Word) (i : Nat) :
    (∀ n ∈ ns, ∀ th, Tab.find n t.threads = some th → i / 32 = t.lane n →
      Tab.getD (putRows a s k t ns w) i 0 = th.v (a + i % 32)) ∧
    ((∀ n ∈ ns, i / 32 ≠ t.lane n) → Tab.getD (putRows a s k t ns w) i 0 = Tab.getD w i 0) := by
  induction ns generalizing w with
  | nil => exact ⟨nofun, fun _ => rfl⟩
  | cons m ns ih =>
    obtain ⟨thm, hthm⟩ := hlisted m List.mem_cons_self
    obtain ⟨hm, hlanes⟩ := List.pairwise_cons.1 hlanes
    obtain ⟨hin, hout⟩ := ih (fun n hn => hlisted n (List.mem_cons_of_mem _ hn)) hlanes (putRow a s k (t.lane m) m w)
    refine ⟨fun n hn th hth hi => ?_, fun hi => ?_⟩
    · rcases List.mem_cons.1 hn with rfl | hn
      · obtain rfl := Option.some.inj (hth.symm.trans hthm)
        refine (hout fun b hb h => hm b hb (hi.symm.trans h)).trans ?_
        rw [getD_putRow hteam a hthm, if_pos hi]
      · exact hin n hn th hth hi
    · refine (hout fun b hb => hi b (List.mem_cons_of_mem _ hb)).trans ?_
      rw [getD_putRow hteam a hthm, if_neg (hi m List.mem_cons_self)]

end

/-- The threads of one group have lanes of their own. -/
theorem lanes_of_converged {t : Team} {ns : List Nat} (hnodup : ns.Nodup) (h : t.converged ns = true) :
    ns.Pairwise fun m n => t.lane m ≠ t.lane n := by
  cases ns with
  | nil => exact List.Pairwise.nil
  | cons a ns =>
    have hgid : ∀ m ∈ a :: ns, t.gid m = t.gid a := fun m hm => by
      have := (Bool.and_eq_true_iff.1 h).1
      exact beq_iff_eq.1 (List.all_eq_true.1 this m hm)
    refine hnodup.imp_of_mem fun {m n} hm hn hne hlane => hne ?_
    have h1 := Nat.div_add_mod m t.width
    have h2 := Nat.div_add_mod n t.width
    rw [← h1, ← h2, show m / t.width = n / t.width from (hgid m hm).trans (hgid n hn).symm, show m % t.width = n % t.width from hlane]

section
variable {x : XForm} {s : State} {ig : IssueGroup} {t : Team} {n : Nat} {w : Tab Word}
  (hqueue : s.matrixQueue t.core (t.part n) = [])
include hqueue

theorem acwr_writes (hsite : GalleySite x true (regSpan x.a.toNat 32) [] s ig t n w) :
    ∃ s' t' w', exec (.acwr x) s = .next s' ∧ SlugBecame s s' ig.team t t' (slugKey (t.part n) (x.imm.toNat % 16)) w' ∧
      (∀ m ∈ ig.threads, ∀ th, Tab.find m t.threads = some th → ∀ c, c < 32 →
        slugWord w' (t.lane m * 32 + c) = (th.v (x.a.toNat + c)).toNat) ∧
      (∀ i, (∀ m ∈ ig.threads, i / 32 ≠ t.lane m) → slugWord w' i = slugWord w i) ∧
      ∀ m ∈ ig.threads, ∀ th, Tab.find m t.threads = some th → ∃ th', Tab.find m t'.threads = some th' ∧ Done ig th th' ∧
        th'.regs = th.regs := by
  obtain ⟨hf, hhead, hnear, hsplit, hconv, hwait, harr, hslug, hfit⟩ := hsite
  have he : execAcwr x s = .next (slugAccess (writeRow x) s (useOf x s ig t n)) :=
    slugInstr_acts (o := .acwr) (slotOk := fun _ => true) (conv := 1) (srcs := fun _ => [(x.a.toNat, 32)]) (dsts := fun _ => [])
      hf hhead hnear hsplit rfl (.inr ⟨hconv rfl, .inl rfl⟩) hwait harr hslug (by simp)
      (fit_of_ranges (spans_single _ _) rfl hfit)
  rw [slugAccess_idle hf hqueue hslug] at he
  obtain ⟨t', hbecame, hthreads⟩ := slugBecame_put hf hslug (putRows x.a.toNat s ig.team t ig.threads w)
    (ig.threads.flatMap fun n => (List.range 32).map fun c => t.lane n * 32 + c)
  have hrows := getD_putRows hf.2.1 x.a.toNat ig.threads hf.2.2.2 (lanes_of_converged hf.2.2.1 (hconv rfl)) w
  refine ⟨_, t', _, he, hbecame, fun m hm th hth c hc => ?_, fun i hi => congrArg BitVec.toNat ((hrows i).2 hi), hthreads⟩
  have hrow := (hrows (t.lane m * 32 + c)).1 m hm th hth (by omega)
  rw [slugWord, hrow, show (t.lane m * 32 + c) % 32 = c by omega]

theorem aczero_clears (hsite : GalleySite x false [] [] s ig t n w) :
    ∃ s' t', exec (.aczero x) s = .next s' ∧ SlugBecame s s' ig.team t t' (slugKey (t.part n) (x.imm.toNat % 16)) [] ∧
      ∀ m ∈ ig.threads, ∀ th, Tab.find m t.threads = some th → ∃ th', Tab.find m t'.threads = some th' ∧ Done ig th th' ∧
        th'.regs = th.regs := by
  obtain ⟨hf, hhead, hnear, hsplit, -, hwait, harr, hslug, hfit⟩ := hsite
  have he : execAczero x s = .next (slugAccess (fun _ u s => (s.putSlug u.team u.slug []).healSlug u (List.range 1024)) s
      (useOf x s ig t n)) :=
    slugInstr_acts (o := .aczero) (slotOk := fun _ => true) (conv := 0) (srcs := fun _ => []) (dsts := fun _ => [])
      hf hhead hnear hsplit rfl (.inl rfl) hwait harr hslug (by simp) (fit_of_ranges rfl rfl hfit)
  rw [slugAccess_idle hf hqueue hslug] at he
  obtain ⟨t', hbecame, hthreads⟩ := slugBecame_put hf hslug [] (List.range 1024)
  exact ⟨_, t', he, hbecame, hthreads⟩

end

/-- Settles O32. -/
theorem galleyAccesses : Obligations.GalleyAccesses := by
  intro x s ig t n w key slot done hqueue
  exact ⟨acrd_reads hqueue, acwr_writes hqueue, aczero_clears hqueue, acq_converts hqueue⟩

end Sys2Proof.Proofs.Galley

/-! The completion of a matrix operation (R246, R249, R359): the words of its slug, one by one, and that nothing else of what
the statement speaks of changes while no group waits in a quad rendezvous. -/

namespace Sys2Proof.Proofs.Galley

open Sys2Proof Sys2Proof.Machine Sys2Proof.Claims
open Sys2Proof.Proofs.Sweeps Sys2Proof.Proofs.OneTeam

/-! ### The words of a result -/

/-- The table of the nonzero words of a list, numbered from `k` on. -/
theorem getD_numbered {β : Type} (z : β → Word) (l : List β) (k j : Nat) :
    Tab.getD ((l.zipIdx k).filterMap fun p => if z p.1 = 0 then none else some (p.2, z p.1)) j 0 =
      if j < k then 0 else (l[j - k]?.map z).getD 0 := by
  induction l generalizing k with
  | nil => simp [Tab.getD]
  | cons b l ih =>
    have ih' := ih (k + 1)
    rw [List.zipIdx_cons]
    by_cases hz : z b = 0
    · have hskip : (if z b = 0 then none else some (k, z b)) = none := if_pos hz
      simp only [List.filterMap_cons, hskip]
      rw [ih']
      rcases Nat.lt_trichotomy j k with h | rfl | h
      · rw [if_pos (by omega), if_pos h]
      · simp [hz]
      · rw [if_neg (by omega), if_neg (by omega), show j - k = (j - (k + 1)) + 1 by omega, List.getElem?_cons_succ]
    · have hkeep : (if z b = 0 then none else some (k, z b)) = some (k, z b) := if_neg hz
      simp only [List.filterMap_cons, hkeep]
      by_cases hj : j = k
      · subst hj
        simp [Tab.getD]
      · rw [Tab.getD, Tab.find_cons, if_neg hj, ← Tab.getD, ih']
        rcases Nat.lt_or_gt_of_ne hj with h | h
        · rw [if_pos (by omega), if_pos h]
        · rw [if_neg (by omega), if_neg (by omega), show j - k = (j - (k + 1)) + 1 by omega, List.getElem?_cons_succ]

/-- The element of a table of rows of `n`, read row by row. -/
theorem getElem?_rows {α : Type} (f : Nat → Nat → α) (n a : Nat) {l c : Nat} (hl : l < a) (hc : c < n) :
    ((List.range a).map fun l => (List.range n).map (f l)).flatten[l * n + c]? = some (f l c) := by
  have hlen : ∀ b, ((List.range b).map fun l => (List.range n).map (f l)).flatten.length = b * n := fun b => by
    induction b with
    | zero => simp
    | succ b ih => rw [List.range_succ, List.map_append, List.flatten_append, List.length_append, ih]; simp [Nat.succ_mul]
  induction a with
  | zero => omega
  | succ a ih =>
    rw [List.range_succ, List.map_append, List.flatten_append]
    by_cases h : l < a
    · have hlt : l * n + c < a * n := by
        have := Nat.mul_le_mul_right n (show l + 1 ≤ a from h)
        rw [Nat.succ_mul] at this
        omega
      rw [List.getElem?_append_left (by rw [hlen]; exact hlt), ih h]
    · obtain rfl : l = a := by omega
      rw [List.getElem?_append_right (by rw [hlen]; omega), hlen, Nat.add_sub_cancel_left]
      simp [hc]

theorem zipIdx_map_range {α β : Type} (h : Nat → α) (F : α → Nat → β) (n : Nat) :
    (((List.range n).map h).zipIdx.map fun p => F p.1 p.2) = (List.range n).map fun c => F (h c) c := by
  refine List.ext_getElem (by simp) fun i h1 h2 => ?_
  simp

/-- A word of the slug after an operation (R246). -/
theorem slugWord_result (m : MatrixOp) (w : Tab Word) {l c : Nat} (hl : l < 32) (hc : c < 32) :
    slugWord (m.result w).1 (l * 32 + c) = (dotV (m.rowA l) (m.colB c) (slugWord w (l * 32 + c))).1 % 2 ^ 32 := by
  obtain ⟨f, hf⟩ : ∃ f : Nat → Nat → Nat × Nat, f = fun l c => dotV (m.rowA l) (m.colB c) (slugWord w (l * 32 + c)) := ⟨_, rfl⟩
  have hrows : ((List.range 32).map fun l => (((List.range 32).map m.colB).zipIdx.map fun p =>
      dotV (m.rowA l) p.1 (slugWord w (l * 32 + p.2)))) = (List.range 32).map fun l => (List.range 32).map (f l) := by
    rw [hf]
    exact List.map_congr_left fun l _ => zipIdx_map_range m.colB (fun cb c => dotV (m.rowA l) cb (slugWord w (l * 32 + c))) 32
  have hwords : (m.result w).1 = ((((List.range 32).map fun l => (List.range 32).map (f l)).flatten).zipIdx 0).filterMap fun p =>
      if BitVec.ofNat 32 p.1.1 = 0 then none else some (p.2, BitVec.ofNat 32 p.1.1) := by
    rw [← hrows]; rfl
  rw [slugWord, hwords, getD_numbered fun d : Nat × Nat => BitVec.ofNat 32 d.1, if_neg (Nat.not_lt_zero _), Nat.sub_zero,
    getElem?_rows f 32 32 hl hc, hf]
  exact BitVec.toNat_ofNat _ _

/-! ### The completion -/

/-- No group waits in a quad rendezvous. -/
def NoQuads (s : State) : Prop := ∀ p ∈ s.teams, ∀ q ∈ p.2.groups, q.2.quad = none

theorem mem_put {α : Type} {k : Nat} {v : α} {p : Nat × α} {t : Tab α} (h : p ∈ Tab.put k v t) : p = (k, v) ∨ p ∈ t := by
  induction t with
  | nil => exact .inl (List.mem_singleton.1 h)
  | cons q t ih =>
    rw [Tab.put] at h
    split at h
    · exact (List.mem_cons.1 h).imp_right id
    · split at h
      · exact (List.mem_cons.1 h).imp_right (List.mem_cons_of_mem _)
      · rcases List.mem_cons.1 h with rfl | h
        · exact .inr List.mem_cons_self
        · exact (ih h).imp_right (List.mem_cons_of_mem _)

theorem noQuads_modTeam {s : State} (h : NoQuads s) (k : Nat) {F : Team → Team} (hF : ∀ t, (F t).groups = t.groups) :
    NoQuads (s.modTeam k F) := by
  intro p hp
  replace hp : p ∈ Tab.modify k F s.teams := hp
  unfold Tab.modify at hp
  split at hp
  next t ht =>
    rcases mem_put hp with rfl | hp
    · intro q hq
      exact h _ (Tab.mem_of_find ht) q (by rw [← hF t]; exact hq)
    · exact h p hp
  next => exact h p hp

theorem noQuads_wakeArray {s : State} (h : NoQuads s) (core part : Nat) : NoQuads (s.wakeArray core part) := by
  intro p hp
  obtain ⟨q, hq, rfl⟩ := List.mem_map.1 hp
  dsimp only
  split <;> exact h q hq

/-- Where no group waits, no rendezvous takes place. -/
theorem quadMeet_noQuads {s : State} (h : NoQuads s) (k g : Nat) : s.quadMeet k g = s := by
  unfold State.quadMeet
  cases hteam : s.team? k with
  | none => rfl
  | some t =>
    have hnone : ∀ m, ((Tab.find m t.groups).map fun x => x.quad.isSome).getD false = false := fun m => by
      cases hg : Tab.find m t.groups with
      | none => rfl
      | some x =>
        have hq : x.quad = none := h _ (Tab.mem_of_find hteam) _ (Tab.mem_of_find hg)
        simp [hq]
    have hmask : t.quadMask g = 0 := by
      unfold Team.quadMask
      rw [List.filter_eq_nil_iff.2 fun m _ => by simp [hnone m]]
      rfl
    simp only [hmask]
    exact if_pos (by decide)

/-- What an operation makes of its team: the flags reach its lanes, the words its slug. -/
def performed (group slug : Nat) (r : Tab Word × List Nat) (t : Team) : Team :=
  let u := r.2.zipIdx.foldl (fun t (f, l) => t.modThread (group * 32 + l) fun th => th.raiseFlags f) t
  { u with slugs := Tab.modify slug (fun _ => r.1) u.slugs }

theorem raised_body (group : Nat) (fs : List (Nat × Nat)) (t : Team) :
    { fs.foldl (fun t (f, l) => t.modThread (group * 32 + l) fun th => th.raiseFlags f) t with threads := t.threads } = t := by
  induction fs generalizing t with
  | nil => rfl
  | cons p fs ih => exact (congrArg (fun u : Team => { u with threads := t.threads }) (ih (t.modThread _ _)) :)

theorem performed_body (group slug : Nat) (r : Tab Word × List Nat) (t : Team) :
    { performed group slug r t with threads := t.threads, slugs := t.slugs } = t :=
  (congrArg (fun u : Team => { u with slugs := t.slugs }) (raised_body group r.2.zipIdx t) :)

theorem performed_slugs (group slug : Nat) (r : Tab Word × List Nat) (t : Team) :
    (performed group slug r t).slugs = Tab.modify slug (fun _ => r.1) t.slugs :=
  congrArg (Tab.modify slug fun _ => r.1) (congrArg Team.slugs (raised_body group r.2.zipIdx t) :)

/-- The state after the partition's only operation, whose result is `r`. -/
def afterOp (s : State) (core part : Nat) (m : MatrixOp) (r : Tab Word × List Nat) : State :=
  (({ s with matrix := Tab.del (core * 4 + part) s.matrix } : State).modTeam m.team (performed m.group m.slug r)).wakeArray core part

theorem completeOp_one {core part : Nat} {s : State} {m : MatrixOp} {t : Team} {w : Tab Word} {r : Tab Word × List Nat}
    (hr : m.result w = r) (hqueue : s.matrixQueue core part = [m]) (hteam : s.team? m.team = some t)
    (hslug : Tab.find m.slug t.slugs = some w) (hbound : m.slug < 64) (harrive : m.arrive = none) (hquads : NoQuads s) :
    s.completeOp core part = some (afterOp s core part m r) := by
  obtain ⟨s1, hs1⟩ : ∃ s1, s1 = ({ s with matrix := Tab.del (core * 4 + part) s.matrix } : State) := ⟨_, rfl⟩
  have hteam1 : s1.team? m.team = some t := by rw [hs1]; exact hteam
  have happly : s1.applyOp core part m = s1.modTeam m.team (performed m.group m.slug r) := by
    unfold State.applyOp
    simp only [hteam1, hslug, Option.getD_some, hr]
    rw [if_neg fun h => absurd h.1 (by omega)]
    simp only [State.putSlug, State.modTeam, modify_modify]
    rfl
  have hquads1 : NoQuads (s1.modTeam m.team (performed m.group m.slug r)) :=
    noQuads_modTeam (by rw [hs1]; exact hquads) _ fun t => (congrArg Team.groups (performed_body m.group m.slug r t) :)
  have hthere : ((s1.modTeam m.team (performed m.group m.slug r)).team? m.team).isNone = false := by
    rw [isNone_team?_modTeam, hteam1]; rfl
  unfold State.completeOp
  simp only [hqueue, List.isEmpty_nil, if_true, ← hs1, happly, harrive, State.linkArrive, hthere, Bool.false_eq_true, if_false]
  rw [foldl_unchanged]
  · rw [afterOp, ← hs1]
  · intro p _
    exact foldl_unchanged _ fun g _ => quadMeet_noQuads (noQuads_wakeArray hquads1 core part) _ _

theorem team?_wakeArray (s : State) (core part k : Nat) : (s.wakeArray core part).team? k = (s.team? k).map fun t =>
    if t.place == .core core then t.wakeArray part else t := by
  refine Eq.trans (congrArg (Tab.find k) (List.map_congr_left fun p _ => ?_))
    (Tab.find_map_val (fun _ (t : Team) => if t.place == .core core then t.wakeArray part else t) k s.teams)
  dsimp only
  split <;> rfl

/-- Settles O34. -/
theorem matrixOperationCompletes : Obligations.MatrixOperationCompletes := by
  intro core part s m t w hgrant hqueue hteam hslug hbound harrive hquads
  obtain ⟨r, hr⟩ : ∃ r, m.result w = r := ⟨_, rfl⟩
  obtain ⟨u, hu⟩ : ∃ u, u = afterOp s core part m r := ⟨_, rfl⟩
  have hop : s.completeOp core part = some u := hu ▸ completeOp_one hr hqueue hteam hslug hbound harrive hquads
  obtain ⟨t', hteam', hslugs⟩ : ∃ t', u.team? m.team = some t' ∧ t'.slugs = (performed m.group m.slug r t).slugs := by
    refine ⟨if (performed m.group m.slug r t).place == .core core then (performed m.group m.slug r t).wakeArray part
      else performed m.group m.slug r t, ?_, ?_⟩
    · rw [hu, afterOp, team?_wakeArray, team?_modTeam, if_pos rfl, Option.map_map]
      exact Eq.trans (congrArg (Option.map _) hteam) rfl
    · split <;> rfl
  rw [performed_slugs] at hslugs
  have hexec : exec (.matrixOpComplete core part) s =
      .next { u with starts := Tab.put (core * 4 + part) (Tab.getD u.starts (core * 4 + part) 0 + 1) u.starts } := by
    show execMatrixOpComplete core part s = _
    unfold execMatrixOpComplete
    rw [hgrant, Bool.not_true, if_neg Bool.false_ne_true, hop]
  refine ⟨_, t', r.1, hexec, ?_, hteam', ?_, fun l c hl hc => hr ▸ slugWord_result m w hl hc, fun k hk => ?_, ?_, ?_, ?_, ?_⟩
  · show Tab.getD u.matrix (core * 4 + part) [] = []
    rw [hu]
    show ((Tab.find (core * 4 + part) (Tab.del (core * 4 + part) s.matrix)).getD []) = []
    rw [Tab.find_del, if_pos rfl]
    rfl
  · rw [hslugs, Tab.find_modify_same, hslug]
    rfl
  · rw [hslugs, Tab.find_modify, if_neg hk]
  · show Tab.getD (Tab.put _ _ u.starts) (core * 4 + part) 0 = _
    rw [Tab.getD_put, if_pos rfl, hu]
    rfl
  · rw [hu]; rfl
  · rw [hu]; rfl
  · rw [hu]; rfl

end Sys2Proof.Proofs.Galley

/-! Matrix instructions (R246 to R248, R359): an instruction of one group joins its partition's queue; the fourth member of a
quad to arrive finds its three partners, and the four operations join the four queues. -/

namespace Sys2Proof.Proofs.Galley

open Sys2Proof Sys2Proof.Machine Sys2Proof.Claims
open Sys2Proof.Proofs.Sweeps Sys2Proof.Proofs.OneTeam Sys2Proof.Proofs.RegisterFiles

/-! ### What an operation reads -/

/-- Registers of lanes are those of their threads, whatever else has changed. -/
theorem laneRegs_congr {s s' : State} (h : ∀ i, (s'.thread? i).map Thread.regs = (s.thread? i).map Thread.regs)
    (team : Nat) (ns : List Nat) (r n : Nat) : s'.laneRegs team ns r n = s.laneRegs team ns r n := by
  refine List.map_congr_left fun m _ => ?_
  have hm := h { team, n := m }
  cases hs : s.thread? { team, n := m } with
  | none =>
    rw [hs, Option.map_none, Option.map_eq_none_iff] at hm
    rw [hm]
  | some th =>
    rw [hs, Option.map_some] at hm
    obtain ⟨th', hth', hregs⟩ := Option.map_eq_some_iff.1 hm
    simp only [hth', Thread.v, hregs]

theorem rowsOf_congr {s s' : State} (h : ∀ i, (s'.thread? i).map Thread.regs = (s.thread? i).map Thread.regs) (m : MatrixOp) :
    s'.rowsOf m = s.rowsOf m := by rw [State.rowsOf, laneRegs_congr h, State.rowsOf]

/-- Registers of the issue group, read as an operation reads them. -/
theorem laneRegs_group {s : State} {ig : IssueGroup} {t : Team} (hf : Formed s ig t) (r n : Nat) :
    s.laneRegs ig.team ig.threads r n = groupRegs ig t r n := by
  refine List.map_congr_left fun m hm => ?_
  obtain ⟨th, hth⟩ := hf.2.2.2 m hm
  rw [thread?_of_find hf.2.1 hth, hth]

section
variable {t : Team} {n : Nat} {ns : List Nat} (hnear : t.near = false) (hsplit : t.split = false)
include hnear hsplit

theorem hw_eq_gid (m : Nat) : t.hw m = t.gid m := by simp [Team.hw, Team.gid, Team.hwWidth, Team.width, hnear, hsplit]

theorem groupThreads_main (g : Nat) : t.groupThreads g = (List.range 32).map (g * 32 + ·) := by
  simp [Team.groupThreads, Team.width, hnear, hsplit]

/-- A whole converged group of 32 is all lanes of its hardware group, in order. -/
theorem lanes_of_whole (hhead : ns.head? = some n) (hconv : t.converged ns = true) (hlen : ns.length = 32) :
    (List.range 32).map (t.hw n * 32 + ·) = ns := by
  cases ns with
  | nil => cases hhead
  | cons a rest =>
    obtain rfl : a = n := Option.some.inj hhead
    have hlive : a :: rest = t.liveThreads (t.gid a) := beq_iff_eq.1 (Bool.and_eq_true_iff.1 hconv).2
    have hall : t.liveThreads (t.gid a) = t.groupThreads (t.gid a) := by
      refine List.Sublist.eq_of_length List.filter_sublist ?_
      rw [groupThreads_main hnear hsplit, List.length_map, List.length_range]
      exact (congrArg List.length hlive).symm.trans hlen
    rw [hw_eq_gid hnear hsplit, ← groupThreads_main hnear hsplit, ← hall, ← hlive]

/-- The threads of a converged group are the live threads of its hardware group. -/
theorem mem_converged (hhead : ns.head? = some n) (hconv : t.converged ns = true) (m : Nat) :
    m ∈ ns ↔ t.hw m = t.hw n ∧ t.liveAt m = true := by
  cases ns with
  | nil => cases hhead
  | cons a rest =>
    obtain rfl : a = n := Option.some.inj hhead
    have hlive : a :: rest = t.liveThreads (t.gid a) := beq_iff_eq.1 (Bool.and_eq_true_iff.1 hconv).2
    rw [hlive, Team.liveThreads, List.mem_filter, Rejoin.mem_groupThreads, hw_eq_gid hnear hsplit, hw_eq_gid hnear hsplit]

end

/-! ### `mma` and `mmas` -/

theorem rowRegs_pos (ty : Ty) (slot : Nat) {kept : Nat} (h : kept = 32 ∨ 2 ≤ kept) : 0 < rowRegs ty slot kept := by
  unfold rowRegs
  split
  · omega
  · omega

theorem quarterRegs_pos (slot : Nat) : 0 < quarterRegs slot := by
  unfold quarterRegs
  split <;> decide

theorem keptOf_two (sub : Nat) : 2 ≤ keptOf sub := by
  unfold keptOf
  split <;> decide

section
variable {o : XOp} {x : XForm} {kept cols : Nat} {quad : Bool} {s : State} {ig : IssueGroup} {t : Team} {n : Nat} {w : Tab Word}

/-- A matrix instruction that passes its checks joins its queue or its rendezvous. -/
theorem mmaOf_acts (hkept : kept = 32 ∨ 2 ≤ kept)
    (hcols : cols = if quad then quarterRegs (s.fslot t x.fs.toNat) else 4 * quarterRegs (s.fslot t x.fs.toNat))
    (hsite : GalleySite x true (regSpan x.a.toNat (rowRegs x.ty (s.fslot t x.fs.toNat) kept) ++ regSpan x.b.toNat cols) [] s ig t n w)
    (hlen : ig.threads.length = 32) (hslot : mmaSlotOk x (s.fslot t x.fs.toNat) = true) (hsound : SlugSound x s ig t n) :
    mmaOf o x kept quad s =
      .next (if quad then s.quadArrive (useOf x s ig t n) x kept else s.queueMma (useOf x s ig t n) x kept) := by
  obtain ⟨hf, hhead, hnear, hsplit, hconv, hwait, harr, hslug, hfit⟩ := hsite
  have hact := slugInstr_acts (o := o) (slotOk := mmaSlotOk x) (conv := 2)
    (srcs := fun slot => [(x.a.toNat, rowRegs x.ty slot kept),
      (x.b.toNat, if quad then quarterRegs slot else 4 * quarterRegs slot)]) (dsts := fun _ => [])
    (act := fun s u => s.slugSound u fun s u => if quad then s.quadArrive u x kept else s.queueMma u x kept)
    hf hhead hnear hsplit hslot (.inr ⟨hconv rfl, .inr hlen⟩) hwait harr hslug (fun r hr => ?_)
    (fit_of_ranges (srcs := regSpan x.a.toNat (rowRegs x.ty (s.fslot t x.fs.toNat) kept) ++ regSpan x.b.toNat cols)
      (by simp [spans, hcols]) rfl hfit)
  · refine hact.trans ?_
    rw [State.slugSound, slugBad_sound hsound, if_neg Bool.false_ne_true]
  · have hq := quarterRegs_pos (s.fslot t x.fs.toNat)
    rw [List.append_nil] at hr
    rcases List.mem_cons.1 hr with rfl | hr
    · exact rowRegs_pos _ _ hkept
    · rw [List.mem_singleton.1 hr]
      dsimp only
      split <;> omega

/-- A matrix instruction of a group alone (R246, R359). -/
theorem queues_of_mmaOf {i : Instr} (hkept : kept = 32 ∨ 2 ≤ kept) (hexec : ∀ s, exec i s = mmaOf o x kept false s) :
    QueuesMatrix i x kept := by
  intro s ig t n w slot part rows cols q hsite hlen hslot hsound
  have hrun := (hexec s).trans (mmaOf_acts (o := o) (quad := false) hkept rfl hsite hlen hslot hsound)
  obtain ⟨hf, hhead, hnear, hsplit, hconv, -⟩ := hsite
  have hfirst : ig.threads.headD 0 = n := by rw [List.headD_eq_head?_getD, hhead, Option.getD_some]
  have hlanes := lanes_of_whole hnear hsplit hhead (hconv rfl) hlen
  refine ⟨fun hroom => ?_, fun hfull => ⟨_, hrun, ?_⟩⟩
  · obtain ⟨m, hm⟩ : ∃ m, m = { (useOf x s ig t n).op x kept with
      a := s.rowsOf ((useOf x s ig t n).op x kept), b := s.laneRegs ig.team ig.threads x.b.toNat cols } := ⟨_, rfl⟩
    have hgroup : ((useOf x s ig t n).op x kept).group = t.hw n := congrArg t.hw hfirst
    have hqueue : s.queueMma (useOf x s ig t n) x kept = (s.pushOp t.core part m).pastLink ig.team ig.threads (nextPc ig 3) := by
      rw [hm]
      exact if_neg (Nat.not_le.2 hroom)
    refine ⟨_, m, hrun.trans (congrArg Host.Outcome.next hqueue), by rw [hm]; rfl, by rw [hm]; exact hgroup, by rw [hm]; rfl,
      by rw [hm]; rfl, by rw [hm]; rfl, ?_, by rw [hm]; exact laneRegs_group hf _ _, ?_⟩
    · rw [hm]
      have hgrouplanes : ((useOf x s ig t n).op x kept).lanes = ig.threads := by
        rw [MatrixOp.lanes, hgroup, hlanes]
      refine congrArg (List.map _) ?_
      rw [hgrouplanes]
      exact laneRegs_group hf _ _
    · exact onlyThreads_of_swept (s := s.pushOp t.core part m) hf (foldl_modThread _ _ _ _ hf.2.2.1) fun _ _ _ _ => rfl
  · have hqueue : s.queueMma (useOf x s ig t n) x kept = s.holdAll ig.team ig.threads .matrix none := if_pos hfull
    rw [if_neg Bool.false_ne_true, hqueue]
    exact onlyThreads_of_swept hf (foldl_modThread _ _ _ _ hf.2.2.1) fun _ _ _ _ => rfl

end

/-! ### The quad rendezvous -/

theorem quadMembers_eq (g : Nat) : quadMembers g = [g / 4 * 4 + 0, g / 4 * 4 + 1, g / 4 * 4 + 2, g / 4 * 4 + 3] := rfl

theorem mem_quadMembers {g m : Nat} : m ∈ quadMembers g ↔ m / 4 = g / 4 := by
  simp only [quadMembers_eq, List.mem_cons, List.not_mem_nil, or_false]
  omega

theorem filter_quadMembers {g m : Nat} (h : m ∈ quadMembers g) : (quadMembers g).filter (fun q => q % 4 = m % 4) = [m] := by
  have hm := mem_quadMembers.1 h
  have hpos : m % 4 = 0 ∨ m % 4 = 1 ∨ m % 4 = 2 ∨ m % 4 = 3 := by omega
  rw [quadMembers_eq]
  rcases hpos with hp | hp | hp | hp <;>
    simp only [List.filter_cons, List.filter_nil, hp, Nat.mul_comm (g / 4) 4] <;>
    simp <;> omega

/-- The operations pushed one after the other on their members' partitions. -/
theorem matrixQueue_pushed (core : Nat) (F : State → Nat → MatrixOp) (hF : ∀ s s' : State, s'.teams = s.teams → F s' = F s)
    (ms : List Nat) (s : State) (p : Nat) :
    (ms.foldl (fun s m => s.pushOp core (m % 4) (F s m)) s).matrixQueue core p =
      s.matrixQueue core p ++ (ms.filter (fun q => q % 4 = p)).map (F s) ∧
    (ms.foldl (fun s m => s.pushOp core (m % 4) (F s m)) s).teams = s.teams := by
  induction ms generalizing s with
  | nil => simp
  | cons m ms ih =>
    obtain ⟨hqueue, hteams⟩ := ih (s.pushOp core (m % 4) (F s m))
    rw [List.foldl_cons, hqueue, hteams, hF s (s.pushOp core (m % 4) (F s m)) rfl]
    refine ⟨?_, rfl⟩
    have hpush : (s.pushOp core (m % 4) (F s m)).matrixQueue core p =
        if p = m % 4 then s.matrixQueue core (m % 4) ++ [F s m] else s.matrixQueue core p := by
      show Tab.getD (Tab.put _ _ s.matrix) (core * 4 + p) [] = _
      rw [Tab.getD_put]
      exact if_congr (by omega) rfl rfl
    rw [hpush]
    by_cases h : m % 4 = p
    · rw [if_pos h.symm, List.filter_cons_of_pos (by simpa using h), List.map_cons, h, List.append_assoc]
      rfl
    · rw [if_neg (Ne.symm h), List.filter_cons_of_neg (by simpa using h)]

/-- All positions of a quad that waits. -/
theorem quadMask_full {t : Team} {g : Nat} (h : ∀ m ∈ quadMembers g, ((Tab.find m t.groups).bind Group.quad).isSome = true) :
    t.quadMask g = 15 := by
  have hall : (quadMembers g).filter (fun m => ((Tab.find m t.groups).map fun x => x.quad.isSome).getD false) = quadMembers g := by
    refine List.filter_eq_self.2 fun m hm => ?_
    have hm' := h m hm
    cases hg : Tab.find m t.groups with
    | none => rw [hg] at hm'; cases hm'
    | some x => rw [hg] at hm'; exact hm'
  unfold Team.quadMask
  rw [hall, quadMembers_eq]
  simp only [List.map_cons, List.map_nil, Nat.mul_comm (g / 4) 4, Nat.mul_add_mod]
  rfl

/-- The operation of a member at the rendezvous, with the registers that it reads there. -/
def readOp (s : State) (t : Team) (g n : Nat) (p : MatrixOp) : MatrixOp :=
  { p with
    a := s.rowsOf p
    b := (List.range 32).map fun c => (quadMembers g).flatMap fun m => (t.quarters m p.breg n).getD c [] }

/-- A member that leaves the rendezvous. -/
def leaves (x : Group) : Group := { x with quad := none, mmaq := x.mmaq + 1 }

/-- A thread that goes on from the rendezvous. -/
def released (th : Thread) : Thread := { th with wait := .ready, age := 0, linked := none, pc := th.pc + 12 }

/-- Four members that agree and can read their registers meet where their queues have room. -/
theorem quadMeet_meets {s : State} {k g b fs q : Nat} {t : Team} {Q : Nat → MatrixOp} (hteam : s.team? k = some t)
    (hQ : ∀ m ∈ quadMembers g, (Tab.find m t.groups).bind Group.quad = some (Q m))
    (hsame : ∀ m ∈ quadMembers g, (Q m).group = m ∧ (Q m).breg = b ∧ (Q m).fs = fs)
    (hroom : ∀ p, p < 4 → (s.matrixQueue t.core p).length < 4)
    (hq : quarterRegs (s.fslot t fs) = q) (hsound : ∀ m ∈ quadMembers g, t.badQuarters (Q m) q = []) :
    s.quadMeet k g = (quadMembers g).foldl (fun s m => (t.hwLive m).foldl
        (fun s n => s.modThread { team := k, n } released) s)
      (((quadMembers g).foldl (fun s m => s.pushOp t.core (m % 4) (readOp s t g q (Q m))) s).modTeam k
        fun t => (quadMembers g).foldl (fun t m => t.modGroup m leaves) t) := by
  have hmask : t.quadMask g = 15 := quadMask_full fun m hm => by rw [hQ m hm]; rfl
  have hops : ((quadMembers g).filterMap fun m => (Tab.find m t.groups).bind Group.quad) = (quadMembers g).map Q := by
    rw [← List.filterMap_eq_map]
    exact List.filterMap_congr hQ
  obtain ⟨m0, rest, hm0, hrest⟩ : ∃ m0 rest, m0 ∈ quadMembers g ∧ (quadMembers g).map Q = Q m0 :: rest :=
    ⟨g / 4 * 4 + 0, _, by rw [quadMembers_eq]; exact List.mem_cons_self, rfl⟩
  have hfirst := hsame m0 hm0
  have hagree : ((quadMembers g).map Q).all (fun p => p.breg == (Q m0).breg && p.fs == fs) =
      true := by
    refine List.all_eq_true.2 fun p hp => ?_
    obtain ⟨m, hm, rfl⟩ := List.mem_map.1 hp
    obtain ⟨_, hb, hfs⟩ := hsame m hm
    simp [hb, hfs, hfirst.2.1]
  have hfree : ((List.range 4).any fun p => decide (4 ≤ (s.matrixQueue t.core p).length)) = false :=
    List.any_eq_false.2 fun p hp => by simpa using hroom p (List.mem_range.1 hp)
  have hread : (((quadMembers g).map Q).filter fun m => !(t.badQuarters m q).isEmpty) = [] := by
    refine List.filter_eq_nil_iff.2 fun p hp => ?_
    obtain ⟨m, hm, rfl⟩ := List.mem_map.1 hp
    simp [hsound m hm]
  have hpush : ((quadMembers g).map Q).foldl (fun s p => s.pushOp t.core (p.group % 4) { p with
        a := s.rowsOf p
        b := (List.range 32).map fun c => (quadMembers g).flatMap fun m =>
          (t.quarters m (Q m0).breg q).getD c [] }) s =
      (quadMembers g).foldl (fun s m => s.pushOp t.core (m % 4) (readOp s t g q (Q m))) s := by
    rw [List.foldl_map]
    refine List.foldl_ext _ _ _ fun s' m hm => ?_
    obtain ⟨hgroup, hb, _⟩ := hsame m hm
    rw [readOp, hfirst.2.1.trans hb.symm, hgroup]
  unfold State.quadMeet
  simp only [hteam, hmask, ne_eq, not_true_eq_false, if_false, hops]
  rw [hrest] at hagree hread hpush ⊢
  simp only [hfirst.2.2, hagree, Bool.not_true, Bool.false_eq_true, if_false, hfree, hq, hread, List.isEmpty_nil, hpush]
  rfl

section
variable {t : Team}

theorem mem_hwLive {m n : Nat} (hs : Tab.sorted t.threads = true) :
    n ∈ t.hwLive m ↔ t.hw n = m ∧ ∃ th, Tab.find n t.threads = some th ∧ th.live = true := by
  unfold Team.hwLive
  simp only [List.mem_map, List.mem_filter, Bool.and_eq_true, beq_iff_eq]
  constructor
  · rintro ⟨⟨n', th⟩, ⟨hmem, hw, hlive⟩, rfl⟩
    exact ⟨hw, th, Tab.find_of_mem hs hmem, hlive⟩
  · rintro ⟨hw, th, hth, hlive⟩
    exact ⟨(n, th), ⟨Tab.mem_of_find hth, hw, hlive⟩, rfl⟩

theorem nodup_hwLive (hs : Tab.sorted t.threads = true) (m : Nat) : (t.hwLive m).Nodup := by
  rw [Tab.sorted_iff] at hs
  have hkeys : (t.threads.map (·.1)).Nodup := List.pairwise_map.2 (hs.imp fun h => Nat.ne_of_lt h)
  exact hkeys.sublist (List.filter_sublist.map _)

/-- The live threads of a quad, each once. -/
theorem nodup_quad (hs : Tab.sorted t.threads = true) (g : Nat) : ((quadMembers g).flatMap t.hwLive).Nodup := by
  refine List.nodup_flatMap.2 ⟨fun m _ => nodup_hwLive hs m, ?_⟩
  have hpair : (quadMembers g).Pairwise (· ≠ ·) := by
    rw [quadMembers_eq]
    simp
  refine hpair.imp fun {a b} hab => List.disjoint_left.2 fun n ha hb => hab ?_
  exact ((mem_hwLive hs).1 ha).1.symm.trans ((mem_hwLive hs).1 hb).1

end

theorem sorted_sweep (f : Nat → Thread → Thread) (ns : List Nat) {t : Team} (h : Tab.sorted t.threads = true) :
    Tab.sorted (Team.sweep f ns t).threads = true := by
  induction ns generalizing t with
  | nil => exact h
  | cons n ns ih => exact ih (Tab.sorted_modify _ _ _ h)

/-- A team whose members' groups change keeps everything else. -/
theorem modGroups_body (f : Group → Group) (ms : List Nat) (t : Team) :
    { ms.foldl (fun t m => t.modGroup m f) t with groups := t.groups } = t := by
  induction ms generalizing t with
  | nil => rfl
  | cons m ms ih => exact (congrArg (fun u : Team => { u with groups := t.groups }) (ih (t.modGroup m f)) :)

/-- What the meeting of a quad leaves: the four operations queued, the live threads of its members gone on. -/
theorem quad_released {s : State} {k g : Nat} {t : Team} {F : State → Nat → MatrixOp} (hteam : s.team? k = some t)
    (hs : Tab.sorted t.threads = true) (hF : ∀ s s' : State, s'.teams = s.teams → F s' = F s) {s' : State}
    (hs' : s' = (quadMembers g).foldl (fun s m => (t.hwLive m).foldl (fun s n => s.modThread { team := k, n } released) s)
      (((quadMembers g).foldl (fun s m => s.pushOp t.core (m % 4) (F s m)) s).modTeam k
        fun t => (quadMembers g).foldl (fun t m => t.modGroup m leaves) t)) :
    (∀ m ∈ quadMembers g, s'.matrixQueue t.core (m % 4) = s.matrixQueue t.core (m % 4) ++ [F s m]) ∧
    ∀ m ∈ quadMembers g, ∀ n th, t.hw n = m → Tab.find n t.threads = some th → th.live = true →
      s'.thread? { team := k, n } = some (released th) := by
  obtain ⟨u, hu⟩ : ∃ u, u = (quadMembers g).foldl (fun s m => s.pushOp t.core (m % 4) (F s m)) s := ⟨_, rfl⟩
  obtain ⟨v, hv⟩ : ∃ v, v = u.modTeam k fun t => (quadMembers g).foldl (fun t m => t.modGroup m leaves) t := ⟨_, rfl⟩
  have hflat : s' = ((quadMembers g).flatMap t.hwLive).foldl (fun s n => s.modThread { team := k, n } released) v := by
    rw [hs', List.foldl_flatMap, hv, hu]
  have hacts := acts_sweep v k (fun _ => released) ((quadMembers g).flatMap t.hwLive)
  rw [← hflat] at hacts
  refine ⟨fun m hm => ?_, fun m hm n th hhw hth hlive => ?_⟩
  · have hmatrix : s'.matrix = u.matrix := (congrArg State.matrix hacts.1.2 :).trans (by rw [hv]; rfl)
    obtain ⟨hqueue, -⟩ := matrixQueue_pushed t.core F hF (quadMembers g) s (m % 4)
    rw [← hu, filter_quadMembers hm] at hqueue
    show Tab.getD s'.matrix _ _ = _
    rw [hmatrix]
    exact hqueue
  · have hteamu : u.team? k = some t := by
      rw [State.team?, hu, (matrixQueue_pushed t.core F hF (quadMembers g) s 0).2]
      exact hteam
    have hteamv : v.team? k = some ((quadMembers g).foldl (fun t m => t.modGroup m leaves) t) := by
      rw [hv, team?_modTeam, if_pos rfl, hteamu, Option.map_some]
    refine thread?_of_find (hacts.team hteamv) ?_
    rw [find_sweep _ (nodup_quad hs g), if_pos (List.mem_flatMap.2 ⟨m, hm, (mem_hwLive hs).2 ⟨hhw, th, hth, hlive⟩⟩),
      show Team.threads _ = t.threads from (congrArg Team.threads (modGroups_body leaves (quadMembers g) t) :), hth,
      Option.map_some]

/-! #### The fourth arrival -/

/-- A thread that waits in the rendezvous. -/
def waiting (th : Thread) : Thread := { th with wait := .quad, linked := none }

/-- The team whose member `g` waits with `op` in its threads `ns`. -/
def arrived (g : Nat) (op : MatrixOp) (ns : List Nat) (t : Team) : Team :=
  Team.sweep (fun _ => waiting) ns (t.modGroup g fun x => { x with quad := some op })

section
variable {g : Nat} {op : MatrixOp} {ns : List Nat} {t : Team}

theorem arrived_body : { arrived g op ns t with threads := t.threads, groups := t.groups } = t :=
  (congrArg (fun u : Team => { u with groups := t.groups })
    (sweep_body (fun _ => waiting) ns (t.modGroup g fun x => { x with quad := some op })) :)

theorem arrived_groups (m : Nat) : Tab.find m (arrived g op ns t).groups =
    if m = g then (Tab.find m t.groups).map fun x => { x with quad := some op } else Tab.find m t.groups := by
  have h : (arrived g op ns t).groups = Tab.modify g (fun x => { x with quad := some op }) t.groups :=
    (congrArg Team.groups (sweep_body (fun _ => waiting) ns (t.modGroup g fun x => { x with quad := some op })) :)
  rw [h, Tab.find_modify]

theorem arrived_threads (hnodup : ns.Nodup) (m : Nat) : Tab.find m (arrived g op ns t).threads =
    if m ∈ ns then (Tab.find m t.threads).map waiting else Tab.find m t.threads := find_sweep _ hnodup _ _

/-- A thread keeps its registers and their marks, and goes on living. -/
theorem arrived_thread (hnodup : ns.Nodup) {m : Nat} {th : Thread} (hth : Tab.find m t.threads = some th) :
    ∃ th', Tab.find m (arrived g op ns t).threads = some th' ∧ th'.regs = th.regs ∧ th'.bad = th.bad ∧ th'.live = th.live ∧
      th'.pc = th.pc := by
  rw [arrived_threads hnodup, hth]
  split
  · exact ⟨_, rfl, rfl, rfl, rfl, rfl⟩
  · exact ⟨_, rfl, rfl, rfl, rfl, rfl⟩

theorem arrived_regs (hnodup : ns.Nodup) (m : Nat) :
    (Tab.find m (arrived g op ns t).threads).map Thread.regs = (Tab.find m t.threads).map Thread.regs := by
  rw [arrived_threads hnodup]
  split
  · rw [Option.map_map]; rfl
  · rfl

/-- A member's quarters of B are its lanes' registers. -/
theorem quarters_arrived (hnodup : ns.Nodup) {q c r n : Nat} (hc : c < 32) :
    ((arrived g op ns t).quarters q r n).getD c [] = threadRegs t (q * 32 + c) r n := by
  unfold Team.quarters
  rw [List.getD_eq_getElem?_getD, List.getElem?_map, List.getElem?_range hc, Option.map_some, Option.getD_some]
  have h := arrived_regs (g := g) (op := op) (t := t) hnodup (q * 32 + c)
  unfold threadRegs
  cases ht : Tab.find (q * 32 + c) t.threads with
  | none =>
    rw [ht, Option.map_none, Option.map_eq_none_iff] at h
    rw [h]
  | some th =>
    rw [ht, Option.map_some] at h
    obtain ⟨th', hth', hregs⟩ := Option.map_eq_some_iff.1 h
    simp only [hth', Thread.v, hregs]

/-- A member whose live threads' registers are sound can read them. -/
theorem badQuarters_arrived (hnodup : ns.Nodup) (hs : Tab.sorted t.threads = true) {m : MatrixOp} {n : Nat}
    (h : ∀ l th, t.hw l = m.group → Tab.find l t.threads = some th → th.live = true →
      ∀ r ∈ regSpan m.areg m.aregs ++ regSpan m.breg n, r ∉ th.bad) :
    (arrived g op ns t).badQuarters m n = [] := by
  refine List.filterMap_eq_nil_iff.2 fun l hl => ?_
  have hs' : Tab.sorted (arrived g op ns t).threads = true := sorted_sweep _ _ hs
  obtain ⟨hhw, th', hth', hlive⟩ := (mem_hwLive hs').1 hl
  have hhw' : t.hw l = m.group := (congrArg (Team.hw · l) (arrived_body (g := g) (op := op) (ns := ns)) :).symm.trans hhw
  obtain ⟨th, hth⟩ : ∃ th, Tab.find l t.threads = some th := by
    rw [arrived_threads hnodup] at hth'
    cases hf : Tab.find l t.threads with
    | none => rw [hf] at hth'; split at hth' <;> cases hth'
    | some th => exact ⟨th, rfl⟩
  obtain ⟨th2, hth2, -, hbad, hlive2, -⟩ := arrived_thread (g := g) (op := op) hnodup hth
  obtain rfl := Option.some.inj (hth2.symm.trans hth')
  have hnone : (regSpan m.areg m.aregs ++ regSpan m.breg n).find? (fun i => th2.bad.contains i) = none :=
    List.find?_eq_none.2 fun r hr => by
      rw [hbad]
      simpa using h l th hhw' hth (hlive2.symm.trans hlive) r hr
  rw [hth2, Option.bind_some, hnone]
  rfl

end

theorem fslot_congr {s s' : State} {t t' : Team} (hplace : t'.place = t.place) (hlaunch : t'.launch = t.launch)
    (hlaunches : s'.launches = s.launches) (hplatens : s'.platens = s.platens) (n : Nat) : s'.fslot t' n = s.fslot t n := by
  simp only [State.fslot, State.launchOf, State.call?, hplace, hlaunch, hlaunches, hplatens]

/-- A quad's last member finds its partners (R247). -/
theorem completes_of_mmaOf {i : Instr} {o : XOp} {x : XForm} {kept : Nat} (hkept : kept = 32 ∨ 2 ≤ kept)
    (hexec : ∀ s, exec i s = mmaOf o x kept true s) : CompletesQuad i x kept := by
  intro s ig t n w g slot rows hsite hlen hslot hsound hg hwhole hs hroom hpartners hregs
  have hrun := (hexec s).trans (mmaOf_acts (o := o) (quad := true) hkept rfl hsite hlen hslot hsound)
  obtain ⟨hf, hhead, hnear, hsplit, hconv, -, -, -, hfit⟩ := hsite
  have hnodup := hf.2.2.1
  have hfirst : t.hw (ig.threads.headD 0) = g := by rw [List.headD_eq_head?_getD, hhead, Option.getD_some, hg]
  have hlanes := lanes_of_whole hnear hsplit hhead (hconv rfl) hlen
  have hmine := mem_converged hnear hsplit hhead (hconv rfl)
  have hgin : g ∈ quadMembers g := mem_quadMembers.2 rfl
  obtain ⟨op, hop⟩ : ∃ op, op = (useOf x s ig t n).op x kept := ⟨_, rfl⟩
  have hopgroup : op.group = g := by rw [hop]; exact hfirst
  obtain ⟨t2, ht2⟩ : ∃ t2, t2 = arrived g op ig.threads t := ⟨_, rfl⟩
  obtain ⟨s2, hs2⟩ : ∃ s2, s2 = (s.modTeam ig.team fun t => t.modGroup g fun x => { x with quad := some op }).holdAll ig.team
    ig.threads .quad none := ⟨_, rfl⟩
  have hacts : Acts s s2 ig.team (arrived g op ig.threads) := by
    rw [hs2]
    exact (acts_modTeam s ig.team _).trans (acts_sweep _ ig.team (fun _ => waiting) ig.threads)
  have hteam2 : s2.team? ig.team = some t2 := by rw [ht2]; exact hacts.team hf.2.1
  have hbody2 : { t2 with threads := t.threads, groups := t.groups } = t := by rw [ht2]; exact arrived_body
  have hcore2 : t2.core = t.core := (congrArg Team.core hbody2 :)
  have hhw2 : ∀ m, t2.hw m = t.hw m := fun m => (congrArg (Team.hw · m) hbody2 :)
  have hmatrix2 : s2.matrix = s.matrix := (congrArg State.matrix hacts.1.2 :)
  have hregs2 : ∀ i, (s2.thread? i).map Thread.regs = (s.thread? i).map Thread.regs := fun i => by
    by_cases hi : i.team = ig.team
    · rw [State.thread?, State.thread?, hi, hteam2, hf.2.1, ht2]
      exact arrived_regs hnodup i.n
    · rw [State.thread?, State.thread?, hacts.1.1 _ hi]
  have harrive : s.quadArrive (useOf x s ig t n) x kept = s2.quadMeet ig.team g := by
    unfold State.quadArrive
    simp only [show (useOf x s ig t n).t = t from rfl, show (useOf x s ig t n).threads = ig.threads from rfl, hfirst, hwhole,
      Bool.not_true, Bool.false_eq_true, if_false, ← hop]
    rw [hs2]
    rfl
  obtain ⟨Q, hQdef⟩ : ∃ Q : Nat → MatrixOp, Q = fun m => if m = g then op else ((Tab.find m t.groups).bind Group.quad).getD op :=
    ⟨_, rfl⟩
  have hQg : Q g = op := by rw [hQdef]; exact if_pos rfl
  have hQ2 : ∀ m ∈ quadMembers g, m ≠ g → ∀ p, (Tab.find m t.groups).bind Group.quad = some p → Q m = p := fun m _ hne p hp => by
    rw [hQdef]
    simp only [if_neg hne, hp, Option.getD_some]
  have hQ : ∀ m ∈ quadMembers g, (Tab.find m t2.groups).bind Group.quad = some (Q m) := fun m hm => by
    rw [ht2, arrived_groups]
    by_cases hne : m = g
    · subst hne
      have hhas := (Bool.and_eq_true_iff.1 (List.all_eq_true.1 hwhole m hm)).1
      obtain ⟨gr, hgr⟩ := Option.isSome_iff_exists.1 hhas
      rw [if_pos rfl, hgr, hQg]
      rfl
    · obtain ⟨gr, p, hgr, hp, -⟩ := hpartners m hm hne
      have hbind : (Tab.find m t.groups).bind Group.quad = some p := by rw [hgr]; exact hp
      rw [if_neg hne, hbind, hQ2 m hm hne p hbind]
  have hsame : ∀ m ∈ quadMembers g, (Q m).group = m ∧ (Q m).breg = x.b.toNat ∧ (Q m).fs = x.fs.toNat := fun m hm => by
    by_cases hne : m = g
    · rw [hne, hQg]
      exact ⟨hopgroup, by rw [hop]; rfl, by rw [hop]; rfl⟩
    · obtain ⟨gr, p, hgr, hp, hgroup, hb, hfs, -⟩ := hpartners m hm hne
      rw [hQ2 m hm hne p (by rw [hgr]; exact hp)]
      exact ⟨hgroup, hb, hfs⟩
  have hslot2 : quarterRegs (s2.fslot t2 x.fs.toNat) = quarterRegs slot := congrArg quarterRegs
    (fslot_congr (congrArg Team.place hbody2 :) (congrArg Team.launch hbody2 :) (congrArg State.launches hacts.1.2 :)
      (congrArg State.platens hacts.1.2 :) _)
  have hread : ∀ m ∈ quadMembers g, t2.badQuarters (Q m) (quarterRegs slot) = [] := fun m hm => by
    rw [ht2]
    refine badQuarters_arrived hnodup hs fun l th hl hth hlive r hr => ?_
    rw [(hsame m hm).1] at hl
    rcases List.mem_append.1 hr with hr | hr
    · by_cases hne : m = g
      · have hin : l ∈ ig.threads := (hmine l).2 ⟨by rw [hl, hne, hg], by rw [Team.liveAt, hth]; exact hlive⟩
        obtain ⟨-, -, hsnd⟩ := hfit l hin th hth
        refine hsnd r (List.mem_append_left _ ?_)
        rw [hne, hQg, hop] at hr
        exact hr
      · obtain ⟨gr, p, hgr, hp, -, -, -, hbad⟩ := hpartners m hm hne
        rw [hQ2 m hm hne p (by rw [hgr]; exact hp)] at hr
        exact hbad l th hl hth r hr
    · rw [(hsame m hm).2.1] at hr
      exact hregs l th (by rw [hl]; exact hm) hth r hr
  have hmeet := quadMeet_meets hteam2 hQ hsame (fun p hp => by
    show (Tab.getD s2.matrix _ _).length < 4
    rw [hmatrix2, hcore2]
    exact hroom p hp) hslot2 hread
  have hsorted2 : Tab.sorted t2.threads = true := by rw [ht2]; exact sorted_sweep _ _ hs
  obtain ⟨hqueues, hgone⟩ := quad_released (F := fun s m => readOp s t2 g (quarterRegs slot) (Q m)) hteam2 hsorted2
    (fun u u' hteams => funext fun m => by
      simp only [readOp, rowsOf_congr (s := u) (s' := u') fun i => by rw [State.thread?, State.team?, hteams]; rfl]) hmeet
  refine ⟨_, hrun.trans (congrArg Host.Outcome.next harrive), fun m hm =>
    ⟨readOp s2 t2 g (quarterRegs slot) (Q m), ?_, (hsame m hm).1, fun hmg => ?_,
      fun p hne hp => ?_, ?_⟩, fun m hm th hth => ?_⟩
  · have h := hqueues m hm
    rw [hcore2] at h
    refine h.trans ?_
    show Tab.getD s2.matrix _ _ ++ _ = _
    rw [hmatrix2]
    rfl
  · show s2.rowsOf (Q m) = _
    rw [rowsOf_congr hregs2, hmg, hQg, State.rowsOf]
    have hgrouplanes : op.lanes = ig.threads := by rw [MatrixOp.lanes, hopgroup, ← hg, hlanes]
    have hteamop : op.team = ig.team := by rw [hop]; rfl
    rw [hgrouplanes, hteamop, laneRegs_group hf, hop]
    rfl
  · show s2.rowsOf (Q m) = _
    rw [rowsOf_congr hregs2, hQ2 m hm hne p hp]
  · refine List.map_congr_left fun c hc => List.flatMap_congr fun q _ => ?_
    rw [(hsame m hm).2.1, ht2]
    exact quarters_arrived hnodup (List.mem_range.1 hc)
  · obtain ⟨hw, hlive⟩ := (hmine m).1 hm
    have hth2 : Tab.find m t2.threads = some (waiting th) := by
      rw [ht2, arrived_threads hnodup, if_pos hm, hth, Option.map_some]
    rw [Team.liveAt, hth] at hlive
    exact ⟨_, hgone g hgin m _ ((hhw2 m).trans (hw.trans hg)) hth2 hlive, rfl, rfl, rfl⟩

/-- Settles O33. -/
theorem matrixIssue : Obligations.MatrixIssue := by
  refine ⟨⟨fun x => queues_of_mmaOf (.inl rfl) fun _ => rfl, fun x hsub => queues_of_mmaOf (o := .mmas)
    (.inr (keptOf_two _)) fun s => ?_⟩, ⟨fun x => completes_of_mmaOf (.inl rfl) fun _ => rfl, fun x hsub => completes_of_mmaOf
    (o := .mmas) (.inr (keptOf_two _)) fun s => ?_⟩⟩
  · show mmaOf .mmas x (keptOf x.sub.toNat) (decide (2 ≤ x.sub.toNat)) s = _
    rw [decide_eq_false (by omega)]
  · show mmaOf .mmas x (keptOf x.sub.toNat) (decide (2 ≤ x.sub.toNat)) s = _
    rw [decide_eq_true hsub]

end Sys2Proof.Proofs.Galley

/-! Imprints (R267 to R269, R349): what the change of an entry sets going touches no entry and no register; from this the
instructions and the host's retirement. -/

namespace Sys2Proof.Proofs.Together

open Sys2Proof Sys2Proof.Machine Sys2Proof.Claims Sys2Proof.Proofs.Lanes Sys2Proof.Proofs.Sweeps Sys2Proof.Proofs.Issue

/-- An instruction of one thread whose part is done. -/
theorem execTogether_single {words : Nat} {f : Nat → LaneFn} {s s1 : State} {ig : IssueGroup} {t : Team} {n : Nat} {th : Thread}
    {pc : Nat} (hf : Formed s ig t) (hone : ig.threads = [n]) (hth : Tab.find n t.threads = some th)
    (h : f (nextPc ig words) s (viewOf ig.team t n th) = .ok (s1, pc))
    (hwait : (s1.thread? { team := ig.team, n }).map Thread.wait ≠ some .replay) :
    execTogether words none f s = .next (s1.modThread { team := ig.team, n } fun th => { th with pc := BitVec.ofNat 64 pc }) := by
  have hrun := runLane_ok (nextPc ig words) none (f (nextPc ig words)) s { team := ig.team, n } _ s1 pc
    (view_eq s { team := ig.team, n } t th hf.2.1 hth) rfl h
  rw [execTogether_next hf.1, hone]
  simp only [State.inOrder, List.foldl_nil, ite_self, hrun]
  refine congrArg Host.Outcome.next (keepGroup_none fun m hm => ?_)
  obtain rfl := List.mem_singleton.1 hm
  rw [thread?_modThread_same, Option.map_map]
  exact hwait

end Sys2Proof.Proofs.Together

namespace Sys2Proof.Proofs.Imprints

open Sys2Proof Sys2Proof.Machine Sys2Proof.Claims
open Sys2Proof.Proofs.Lanes Sys2Proof.Proofs.Sweeps Sys2Proof.Proofs.Issue Sys2Proof.Proofs.Together
open Sys2Proof.Proofs.Accesses (execLanes_single)

/-! ### What the change of an entry sets going -/

/-- A thread has at most been woken: its registers are as they were. -/
def Woken (th th' : Thread) : Prop := th'.regs = th.regs ∧ th'.preds = th.preds ∧ (th'.wait = th.wait ∨ th'.wait = .ready)

theorem Woken.trans {a b c : Thread} (h : Woken a b) (h' : Woken b c) : Woken a c :=
  ⟨h'.1.trans h.1, h'.2.1.trans h.2.1, h'.2.2.elim (fun e => by rw [e]; exact h.2.2) .inr⟩

/-- The entries, the formes and HBM are the same, and threads have at most been woken. -/
def Stirred (s s' : State) : Prop :=
  s'.imprints = s.imprints ∧ s'.formes = s.formes ∧ s'.hbm = s.hbm ∧
    ∀ i th, s.thread? i = some th → ∃ th', s'.thread? i = some th' ∧ Woken th th'

theorem stirred_refl (s : State) : Stirred s s := ⟨rfl, rfl, rfl, fun _ th h => ⟨th, h, rfl, rfl, .inl rfl⟩⟩

theorem Stirred.trans {s s' s'' : State} (h : Stirred s s') (h' : Stirred s' s'') : Stirred s s'' := by
  obtain ⟨himp, hforme, hhbm, hth⟩ := h
  obtain ⟨himp', hforme', hhbm', hth'⟩ := h'
  refine ⟨himp'.trans himp, hforme'.trans hforme, hhbm'.trans hhbm, fun i th hi => ?_⟩
  obtain ⟨th1, h1, hw1⟩ := hth i th hi
  obtain ⟨th2, h2, hw2⟩ := hth' i th1 h1
  exact ⟨th2, h2, hw1.trans hw2⟩

theorem stirred_foldl {α : Type} {F : State → α → State} (hF : ∀ s a, Stirred s (F s a)) (l : List α) (s : State) :
    Stirred s (l.foldl F s) := by
  induction l generalizing s with
  | nil => exact stirred_refl s
  | cons a l ih => exact (hF s a).trans (ih _)

/-- A state with the same teams, entries, formes and HBM. -/
theorem stirred_of_same {s s' : State} (himp : s'.imprints = s.imprints) (hforme : s'.formes = s.formes) (hhbm : s'.hbm = s.hbm)
    (hteams : s'.teams = s.teams) : Stirred s s' :=
  ⟨himp, hforme, hhbm, fun i th h => ⟨th, by rw [State.thread?, State.team?, hteams]; exact h, rfl, rfl, .inl rfl⟩⟩

theorem stirred_setRegField (s : State) (off lo w v : Nat) : Stirred s (s.setRegField off lo w v) := stirred_of_same rfl rfl rfl rfl

theorem stirred_writeHost (s : State) (a n v : Nat) : Stirred s (s.writeHost a n v) := stirred_of_same rfl rfl rfl rfl

theorem stirred_withPort (s : State) (p : Port) : Stirred s { s with port := p } := stirred_of_same rfl rfl rfl rfl

theorem stirred_hostEvent (s : State) (e : HostEvent) : Stirred s (s.hostEvent e) := by
  unfold State.hostEvent
  simp only
  split
  · exact stirred_refl s
  · split
    · exact stirred_setRegField _ _ _ _ _
    · exact ((stirred_writeHost _ _ _ _).trans (stirred_setRegField _ _ _ _ _)).trans (stirred_withPort _ _)

/-- A thread woken from `imp.wait`. -/
theorem stirred_wake (s : State) (key time : Nat) (i : Tid) :
    Stirred s ((s.raise key time).modThread i fun th => { th with wait := .ready, age := 0, pc := th.pc + 12 }) := by
  refine ⟨rfl, rfl, rfl, fun j th h => ?_⟩
  rw [thread?_modThread]
  split
  · exact ⟨_, congrArg (Option.map _) h, rfl, rfl, .inr rfl⟩
  · exact ⟨th, h, rfl, rfl, .inl rfl⟩

theorem stirred_wakeImprints (s : State) : Stirred s s.wakeImprints := by
  refine stirred_foldl (fun s p => stirred_foldl (fun s q => ?_) _ s) _ s
  dsimp only
  split
  · split
    · exact stirred_wake _ _ _ _
    · exact stirred_refl s
  · exact stirred_refl s

theorem stirred_refuseStale (s : State) (key index : Nat) : Stirred s (s.refuseStale key index) := by
  unfold State.refuseStale
  split
  · exact stirred_refl s
  · split
    · exact stirred_refl s
    · refine Stirred.trans (stirred_foldl (fun s p => ?_) _ s) (stirred_of_same rfl rfl rfl rfl)
      exact (stirred_of_same rfl rfl rfl rfl : Stirred s (s.noteFault key Code.imprintStale p.2.1)).trans (stirred_hostEvent _ _)

theorem stirred_staleScan (s : State) : Stirred s s.staleScan := by
  refine stirred_foldl (fun s k => ?_) _ s
  split
  · exact stirred_refl s
  · exact stirred_foldl (fun s i => stirred_refuseStale s k i) _ s

theorem stirred_imprintsChanged (s : State) : Stirred s s.imprintsChanged :=
  (stirred_wakeImprints s).trans (stirred_staleScan _)

/-- An entry that is written or unlisted, and what that sets going. -/
theorem find_retireImprint (s : State) (k : Nat) (e : Imprint) :
    Tab.find k (s.retireImprint k e).imprintsChanged.imprints =
      if e.bound then some { e with posted := false, outst := 0 } else none := by
  rw [(stirred_imprintsChanged _).1, State.retireImprint]
  split
  · rw [Tab.find_put, if_pos rfl]
  · rw [Tab.find_del, if_pos rfl]

/-- The host's retirement of an entry looks at no OUTST (R349, log 27). -/
theorem hostRetiresImprint : HostRetiresImprint := by
  intro s ctx buf x y
  refine ⟨fun hnone => ?_, fun k e hentry => ⟨_, ?_, find_retireImprint s k e, (stirred_imprintsChanged _).2.2.1⟩⟩
  · show execImprintEntryRetire ctx buf x y s = _
    rw [execImprintEntryRetire, hnone]
  · show execImprintEntryRetire ctx buf x y s = _
    rw [execImprintEntryRetire, hentry]

/-! ### `imp.post` -/

theorem setP_regs (th : Thread) (p : Nat) (b : Bool) : (th.setP p b).regs = th.regs := by
  unfold Thread.setP
  split <;> rfl

theorem setP_wait (th : Thread) (p : Nat) (b : Bool) : (th.setP p b).wait = th.wait := by
  unfold Thread.setP
  split <;> rfl

theorem setP_preds_congr {th th' : Thread} (h : th'.preds = th.preds) (p : Nat) (b : Bool) :
    (th'.setP p b).preds = (th.setP p b).preds := by
  unfold Thread.setP
  split
  · rw [h]
  · exact h

/-- What a thread does in `imp.post`. -/
def postLane (x : XForm) (next : Nat) : LaneFn := fun s c => do
  let r ← c.operands .impPost x 1 0 0
  let s ← s.claimRegs c r.srcs []
  if s.teamWrites c.id.team then throw (.park .replay)
  let (s, ok) ← s.post c (c.th.vs r.a 1) (word0 .impPost x)
  return (s.modThread c.id fun th => th.setP x.d.toNat ok, next)

theorem exec_impPost (x : XForm) (s : State) : exec (.impPost x) s = execTogether x.words none (postLane x) s := rfl

/-- The tile that `imp.post` names. -/
def postTile (x : XForm) (c : View) : Nat := c.th.vs (regsOf c .impPost x 1 0 0).a 1

section
variable {x : XForm} {s : State} {c : View} (next : Nat) (hag : Agrees s c s c) (hu : Usable .impPost x 1 0 0 [] s c)
include hag hu

theorem postLane_waits (hwrites : s.teamWrites c.id.team = true) : postLane x next s c = .error (.park .replay) := by
  simp only [postLane, operands_of_usable hu, claimRegs_usable hag hu, bind, Except.bind, hwrites, if_true]
  rfl

theorem postLane_posts (hwrites : s.teamWrites c.id.team = false) {s1 : State} {ok : Bool}
    (hpost : s.post c (postTile x c) (word0 .impPost x) = .ok (s1, ok)) :
    postLane x next s c = .ok (s1.modThread c.id fun th => th.setP x.d.toNat ok, next) := by
  rw [postTile] at hpost
  simp only [postLane, operands_of_usable hu, claimRegs_usable hag hu, bind, Except.bind, hwrites, Bool.false_eq_true, if_false,
    hpost]
  rfl

end

section
variable {x : XForm} {s : State} {ig : IssueGroup} {t : Team} {n : Nat} {th : Thread} (hf : Formed s ig t)
  (hone : ig.threads = [n])
include hf hone

/-- One thread changed. -/
theorem onlyThreads_modThread (e : Thread → Thread) :
    OnlyThreads s (s.modThread { team := ig.team, n } e) ig t fun c => e c.th := by
  have hswept := foldl_modThread ig.team (fun _ => e) ig.threads s hf.2.2.1
  rw [hone] at hswept
  exact onlyThreads_of_swept hf (hone ▸ hswept) fun _ _ _ _ => rfl

/-- One thread changed twice. -/
theorem onlyThreads_modThread_modThread (e e' : Thread → Thread) : OnlyThreads s
    ((s.modThread { team := ig.team, n } e).modThread { team := ig.team, n } e') ig t fun c => e' (e c.th) := by
  rw [modThread_modThread]
  exact onlyThreads_modThread hf hone fun th => e' (e th)

variable (hth : Tab.find n t.threads = some th) (hu : Usable .impPost x 1 0 0 [] s (viewOf ig.team t n th))
include hth hu

theorem impPost_waits (hwrites : s.teamWrites ig.team = true) : ∃ s', exec (.impPost x) s = .next s' ∧
    OnlyThreads s s' ig t fun c => { c.th with wait := .replay } := by
  rw [exec_impPost]
  refine replays_of_together (f := postLane x) hf hone hth ?_
  exact postLane_waits _ (agrees_first hf hth) hu hwrites

/-- A post that is admitted, from what it does to the table. -/
theorem impPost_goes (hwait : th.wait = .ready) (hwrites : s.teamWrites ig.team = false) {s1 : State} {ok : Bool}
    (hpost : s.post (viewOf ig.team t n th) (postTile x (viewOf ig.team t n th)) (word0 .impPost x) = .ok (s1, ok))
    (hstir : ∃ imprints, Stirred { s with imprints } s1) :
    exec (.impPost x) s = .next ((s1.modThread { team := ig.team, n } fun th => th.setP x.d.toNat ok).modThread
      { team := ig.team, n } fun th => Thread.at th (nextPc ig x.words)) := by
  rw [exec_impPost]
  refine execTogether_single (f := postLane x) hf hone hth (postLane_posts _ (agrees_first hf hth) hu hwrites hpost) ?_
  · obtain ⟨imprints, himprints⟩ := hstir
    obtain ⟨th1, hth1, -, -, hwoken⟩ := himprints.2.2.2 { team := ig.team, n } th (thread?_of_find hf.2.1 hth)
    rw [thread?_modThread_same, hth1, Option.map_some, Option.map_some, setP_wait]
    rcases hwoken with h | h <;> rw [h]
    · rw [hwait]
      exact fun h => nomatch h
    · exact fun h => nomatch h

end

/-- A post in the output space of a launch. -/
theorem post_inside {s : State} {c : View} {tile w0 : Nat} {l : Launch} (hl : s.launchOf c.team = some l)
    (hout : recImpOut l.record = true) (htx : tile % 2 ^ 16 < recTx l.record) (hty : tile / 2 ^ 16 < recTy l.record) :
    s.post c tile w0 = if l.bnd then .ok (s, false) else
      match s.imprintAt l.ctx (recBuf l.record) (tile % 2 ^ 16) (tile / 2 ^ 16) with
      | none => .ok (s, false)
      | some (k, e) =>
        if e.posted && e.gen == e.pgen then .ok (s, true)
        else if e.posted && e.outst != 0 then
          .error (.fault { code := Code.imprintOverwrite, info := tile, addr := recBuf l.record })
        else
          .ok (({ s with imprints := Tab.put k { e with
            posted := true, gen := e.pgen, outst := recCons l.record, time := s.clock c.team.clockKey } s.imprints } :
              State).imprintsChanged, true) := by
  rw [State.post, hl]
  have hspace : (!recImpOut l.record || decide (recTx l.record ≤ tile % 2 ^ 16) || decide (recTy l.record ≤ tile / 2 ^ 16)) = false := by
    rw [hout, decide_eq_false (Nat.not_le.2 htx), decide_eq_false (Nat.not_le.2 hty)]
    rfl
  exact if_neg (Bool.eq_false_iff.1 hspace)

theorem imprintPosted : ImprintPosted := by
  intro x s ig t n th l hf hone hth hwait c tile tx ty r answers hu
  refine ⟨impPost_waits hf hone hth hu, fun hwrites hl hout htx hty => ?_⟩
  have hpost := post_inside (c := c) (tile := tile) (w0 := word0 .impPost x) hl hout htx hty
  refine ⟨fun hnone => ?_, fun k e hbnd hentry => ⟨fun ⟨hposted, hgen⟩ => ?_, fun hfree => ?_⟩⟩
  · have hpost' : s.post c tile (word0 .impPost x) = .ok (s, false) := by
      rcases hnone with h | h
      · exact hpost.trans (if_pos h)
      · refine hpost.trans ?_
        rw [show s.imprintAt l.ctx (recBuf l.record) (tile % 2 ^ 16) (tile / 2 ^ 16) = none from h]
        exact ite_self _
    exact ⟨_, impPost_goes hf hone hth hu hwait hwrites hpost' ⟨_, stirred_refl s⟩, onlyThreads_modThread_modThread hf hone _ _⟩
  · have hpost' : s.post c tile (word0 .impPost x) = .ok (s, true) := by
      refine (hpost.trans (if_neg (Bool.eq_false_iff.1 hbnd))).trans ?_
      rw [show s.imprintAt l.ctx (recBuf l.record) (tile % 2 ^ 16) (tile / 2 ^ 16) = some (k, e) from hentry]
      exact if_pos (by simp [hposted, hgen])
    exact ⟨_, impPost_goes hf hone hth hu hwait hwrites hpost' ⟨_, stirred_refl s⟩, onlyThreads_modThread_modThread hf hone _ _⟩
  · obtain ⟨e', he'⟩ : ∃ e' : Imprint, e' = { e with
      posted := true, gen := e.pgen, outst := recCons r, time := s.clock t.clockKey } := ⟨_, rfl⟩
    obtain ⟨s1, hs1⟩ : ∃ s1, s1 = ({ s with imprints := Tab.put k e' s.imprints } : State).imprintsChanged := ⟨_, rfl⟩
    have hpost' : s.post c tile (word0 .impPost x) = .ok (s1, true) := by
      refine (hpost.trans (if_neg (Bool.eq_false_iff.1 hbnd))).trans ?_
      rw [show s.imprintAt l.ctx (recBuf l.record) (tile % 2 ^ 16) (tile / 2 ^ 16) = some (k, e) from hentry, hs1, he']
      refine (if_neg ?_).trans (if_neg ?_)
      · rcases hfree with h | ⟨-, h⟩ <;> simp [h]
      · rcases hfree with h | ⟨h, -⟩ <;> simp [h]
    have hstir : Stirred { s with imprints := Tab.put k e' s.imprints } s1 := hs1 ▸ stirred_imprintsChanged _
    obtain ⟨himp, hforme, hhbm, hthreads⟩ := id hstir
    obtain ⟨th1, hth1, hregs, hpreds, -⟩ := hthreads { team := ig.team, n } th (thread?_of_find hf.2.1 hth)
    refine ⟨_, Thread.at (th1.setP x.d.toNat true) (nextPc ig x.words),
      impPost_goes hf hone hth hu hwait hwrites hpost' ⟨_, hstir⟩, ?_, fun j hj => ?_, ?_, setP_preds_congr hpreds _ _, rfl,
      (setP_regs _ _ _).trans hregs, hhbm, hforme⟩
    · show Tab.find k s1.imprints = _
      rw [himp, Tab.find_put, if_pos rfl, he']
    · show Tab.find j s1.imprints = _
      rw [himp, Tab.find_put, if_neg hj]
    · rw [modThread_modThread, thread?_modThread_same, hth1]
      rfl

/-! ### `imp.chk`, `imp.wait`, `imp.clear` -/

/-- What a thread does in `imp.chk`. -/
def chkLane (x : XForm) : State → View → Lane State := fun s c => do
  let r ← c.operands .impChk x 1 1 1
  let s ← s.claimRegs c r.srcs []
  let ready := s.tileReady (s.ctxOf c.team) (c.tile r)
  let s := match ready with | some t => s.raise c.team.clockKey t | none => s
  return s.modThread c.id fun th => th.setP x.d.toNat ready.isSome

/-- What a thread does in `imp.wait`. -/
def waitLane (x : XForm) (next : Nat) : LaneFn := fun s c => do
  let r ← c.operands .impWait x 1 1 1
  let s ← s.claimRegs c r.srcs []
  let i := c.tile r
  match s.tileReady (s.ctxOf c.team) i with
  | some t => return (s.raise c.team.clockKey t, next)
  | none =>
    let newer := match s.imprintAt (s.ctxOf c.team) i.buf i.tx i.ty with
      | some (_, e) => e.posted && newerGen e.gen i.gen
      | none => false
    if newer then throw (.fault { code := Code.imprintStale, info := tileWord i.tx i.ty, addr := i.buf })
    return (s.modThread c.id fun th => { th with wait := .imprint i.buf (tileWord i.tx i.ty) i.gen }, c.th.pc.toNat)

/-- What a thread does in `imp.clear`. -/
def clearLane (x : XForm) : State → View → Lane State := fun s c => do
  let r ← c.operands .impClear x 1 1 0
  let s ← s.claimRegs c r.srcs []
  let buf := c.th.vs r.a 1
  let tile := c.th.vs r.b 1
  match s.imprintAt (s.ctxOf c.team) buf (tile % 2 ^ 16) (tile / 2 ^ 16) with
  | none => return s
  | some (k, e) =>
    if e.outst ≠ 0 then throw (.fault { code := Code.imprintOverwrite, info := tile, addr := buf })
    return (s.retireImprint k e).imprintsChanged

theorem exec_impChk (x : XForm) (s : State) : exec (.impChk x) s = execSeq x.words none (chkLane x) s := rfl
theorem exec_impWait (x : XForm) (s : State) : exec (.impWait x) s = execLanes x.words none (waitLane x) s := rfl
theorem exec_impClear (x : XForm) (s : State) : exec (.impClear x) s = execSeq x.words none (clearLane x) s := rfl

/-- A time observed, where there is one (R72). -/
def observed (s : State) (key : Nat) (time : Option Nat) : State := match time with | some t => s.raise key t | none => s

theorem raised_raise (s : State) (own time : Nat) : Raised s (s.raise own time).clocks own := by
  refine ⟨fun j hj => (clock_raise s own time j).trans (if_neg hj), ?_⟩
  show _ ≤ (s.raise own time).clock own
  rw [clock_raise, if_pos rfl]
  exact Nat.le_max_left _ _

theorem raised_observed (s : State) (key : Nat) (time : Option Nat) :
    ∃ clocks, Raised s clocks key ∧ observed s key time = { s with clocks } := by
  cases time with
  | none => exact ⟨s.clocks, ⟨fun _ _ => rfl, Nat.le_refl _⟩, rfl⟩
  | some time => exact ⟨_, raised_raise s key time, rfl⟩

section
variable {x : XForm} {s : State} {c : View} (hag : Agrees s c s c)
include hag

theorem chkLane_eq (hu : Usable .impChk x 1 1 1 [] s c) {ready : Option Nat}
    (hready : s.tileReady (s.ctxOf c.team) (c.tile (regsOf c .impChk x 1 1 1)) = ready) :
    chkLane x s c = .ok ((observed s c.team.clockKey ready).modThread c.id fun th => th.setP x.d.toNat ready.isSome) := by
  subst hready
  simp only [chkLane, operands_of_usable hu, claimRegs_usable hag hu, bind, Except.bind]
  rfl

variable (next : Nat)

theorem waitLane_ready (hu : Usable .impWait x 1 1 1 [] s c) {time : Nat}
    (hready : s.tileReady (s.ctxOf c.team) (c.tile (regsOf c .impWait x 1 1 1)) = some time) :
    waitLane x next s c = .ok (s.raise c.team.clockKey time, next) := by
  simp only [waitLane, operands_of_usable hu, claimRegs_usable hag hu, bind, Except.bind, hready]
  rfl

theorem waitLane_parks (hu : Usable .impWait x 1 1 1 [] s c) {i : Input} (hi : c.tile (regsOf c .impWait x 1 1 1) = i)
    (hready : s.tileReady (s.ctxOf c.team) i = none) (hentry : s.imprintAt (s.ctxOf c.team) i.buf i.tx i.ty = none) :
    waitLane x next s c = .ok (s.modThread c.id fun th => { th with wait := .imprint i.buf (tileWord i.tx i.ty) i.gen },
      c.th.pc.toNat) := by
  simp only [waitLane, operands_of_usable hu, claimRegs_usable hag hu, bind, Except.bind, hi, hready, hentry]
  rfl

variable (hu : Usable .impClear x 1 1 0 [] s c) {buf tile : Nat} (hbuf : c.th.vs (regsOf c .impClear x 1 1 0).a 1 = buf)
  (htile : c.th.vs (regsOf c .impClear x 1 1 0).b 1 = tile)
include hu hbuf htile

omit next in
theorem clearLane_none (hentry : s.imprintAt (s.ctxOf c.team) buf (tile % 2 ^ 16) (tile / 2 ^ 16) = none) :
    clearLane x s c = .ok s := by
  simp only [clearLane, operands_of_usable hu, claimRegs_usable hag hu, bind, Except.bind, hbuf, htile, hentry]
  rfl

omit next in
theorem clearLane_retires {k : Nat} {e : Imprint} (hidle : e.outst = 0)
    (hentry : s.imprintAt (s.ctxOf c.team) buf (tile % 2 ^ 16) (tile / 2 ^ 16) = some (k, e)) :
    clearLane x s c = .ok (s.retireImprint k e).imprintsChanged := by
  simp only [clearLane, operands_of_usable hu, claimRegs_usable hag hu, bind, Except.bind, hbuf, htile, hentry, hidle, ne_eq,
    not_true_eq_false, if_false]
  rfl

end

theorem imprintConsumed : ImprintConsumed := by
  intro x s ig t n th hf hone hth hwait c tileOf ready buf tile _
  have hag := agrees_first hf hth
  refine ⟨fun hu => ?_, fun hu hready => ?_, fun hu hready => ?_, fun hu hnone => ?_, fun k e hu hentry hidle => ?_⟩
  · obtain ⟨clocks, hraised, hs1⟩ := raised_observed s t.clockKey (ready .impChk)
    refine ⟨_, (exec_impChk x s).trans (execSeq_single hf hone hth (chkLane_eq hag hu rfl)), clocks, hraised, ?_⟩
    rw [show observed s (viewOf ig.team t n th).team.clockKey (s.tileReady (s.ctxOf (viewOf ig.team t n th).team)
      ((viewOf ig.team t n th).tile (regsOf (viewOf ig.team t n th) .impChk x 1 1 1))) = { s with clocks } from hs1]
    exact onlyThreads_modThread_modThread (s := { s with clocks }) hf hone _ _
  · obtain ⟨time, htime⟩ := Option.isSome_iff_exists.1 hready
    exact ⟨_, (exec_impWait x s).trans (execLanes_single hf hone hth rfl (waitLane_ready hag _ hu htime)), _,
      raised_raise s _ time, onlyThreads_modThread (s := s.raise t.clockKey time) hf hone _⟩
  · intro i hentry
    refine ⟨_, (exec_impWait x s).trans (execLanes_single hf hone hth rfl (waitLane_parks hag _ hu rfl hready hentry)), ?_⟩
    have hchanged := onlyThreads_modThread_modThread (s := s) hf hone
      (fun th => { th with wait := .imprint i.buf (tileWord i.tx i.ty) i.gen }) fun u => { u with pc := BitVec.ofNat 64 th.pc.toNat }
    refine ⟨fun m hm u hfind => (hchanged.1 m hm u hfind).trans ?_, hchanged.2⟩
    obtain rfl : m = n := List.mem_singleton.1 (hone ▸ hm)
    obtain rfl : u = th := Option.some.inj (hfind.symm.trans hth)
    exact congrArg some (by rw [BitVec.ofNat_toNat, BitVec.setWidth_eq]; rfl)
  · exact ⟨_, (exec_impClear x s).trans (execSeq_single hf hone hth (clearLane_none hag hu rfl rfl hnone)),
      onlyThreads_modThread hf hone _⟩
  · refine ⟨_, (exec_impClear x s).trans (execSeq_single hf hone hth (clearLane_retires hag hu rfl rfl hidle hentry)),
      find_retireImprint s k e, ?_⟩
    obtain ⟨th1, hth1, hregs, hpreds, -⟩ := (stirred_imprintsChanged (s.retireImprint k e)).2.2.2 { team := ig.team, n } th
      (thread?_of_find hf.2.1 hth)
    rw [thread?_modThread_same, hth1]
    exact congrArg some (Prod.ext rfl (Prod.ext hregs hpreds))

/-- Settles O37: the change of an entry wakes threads and refuses clusters, and touches no entry and no register. -/
theorem imprints : Obligations.Imprints := ⟨imprintPosted, imprintConsumed, hostRetiresImprint⟩

end Sys2Proof.Proofs.Imprints

/-! `spawn` (R361, R362). -/

namespace Sys2Proof.Proofs.Spawning

open Sys2Proof Sys2Proof.Machine Sys2Proof.Claims
open Sys2Proof.Proofs.Lanes Sys2Proof.Proofs.Sweeps Sys2Proof.Proofs.Imprints

/-- Observing registers without an unread status changes nothing. -/
theorem observe_none {s : State} {i : Tid} {c : View} {ns : List Nat} (hview : s.view i = some c)
    (h : ∀ n ∈ ns, Tab.find n c.th.seen = none) : s.observe i ns = s := by
  have hnone : ns.filterMap (fun n => Tab.find n c.th.seen) = [] := List.filterMap_eq_nil_iff.2 h
  simp only [State.observe, hview, hnone]

section
variable {s : State} {ig : IssueGroup} {t : Team} {n : Nat} {th : Thread} (hf : Formed s ig t)
  (hth : Tab.find n t.threads = some th)
include hf hth

theorem offerWaits_eq : s.offerWaits { team := ig.team, n } = (t.depth != 8 && !(s.core t.core).cancelled.contains t.launch &&
    !th.peerOut.isEmpty) := by
  rw [State.offerWaits, view_eq s { team := ig.team, n } t th hf.2.1 hth]

variable (hone : ig.threads = [n]) (x : XForm)
include hone

omit hth in
theorem spawn_waits (hwaits : s.offerWaits { team := ig.team, n } = true) : ∃ s', exec (.spawn x) s = .next s' ∧
    OnlyThreads s s' ig t fun c => { c.th with wait := .replay } := by
  refine ⟨s.modThread { team := ig.team, n } fun th => { th with wait := .replay }, ?_, onlyThreads_modThread hf hone _⟩
  show execSpawn x s = _
  simp only [execSpawn, hf.1, hone, List.any_cons, List.any_nil, Bool.or_false, hwaits, if_true, State.replayAll, List.foldl_cons,
    List.foldl_nil]

/-- One thread that offers its task, or is answered, goes on. -/
theorem spawn_goes {s1 : State} (hwaits : s.offerWaits { team := ig.team, n } = false)
    (hlane : s.spawnLane (viewOf ig.team t n th) x = (s1, goesOn)) :
    exec (.spawn x) s = .next (s1.modThread { team := ig.team, n } fun th => Thread.at th (nextPc ig 3)) := by
  have hview : s.view { team := ig.team, n } = some (viewOf ig.team t n th) := view_eq s { team := ig.team, n } t th hf.2.1 hth
  have hobs : s1.observed { team := ig.team, n } [] [] = s1 := by
    unfold State.observed
    split
    · exact observe_none ‹_› fun _ h => nomatch h
    · rfl
  show execSpawn x s = _
  simp only [execSpawn, hf.1, hone, List.any_cons, List.any_nil, Bool.or_false, hwaits, Bool.false_eq_true, if_false,
    List.foldl_cons, List.foldl_nil, hview, hlane, goesOn, List.nil_append, State.afterReach, List.filterMap_cons,
    List.filterMap_nil, List.eraseDups_nil, List.isEmpty_nil, Bool.not_false, Bool.and_true, if_true, hobs, State.goOn,
    List.map_cons, List.map_nil]
  rfl

end

/-! ### The lane of a thread whose registers are ready -/

section
variable {o : XOp} {x : XForm} {s : State} {c : View} {wa wb wc : Nat} (hview : s.view c.id = some c) (hag : Agrees s c s c)
  (hu : Usable o x wa wb wc [] s c)
include hu

include hview in
theorem observe_sources : s.observe c.id (regsOf c o x wa wb wc).srcs = s := by
  obtain ⟨-, -, hset, -⟩ := hu
  exact observe_none hview fun m hm => (hset m hm).2

include hag in
theorem ready_sources : c.ready (regsOf c o x wa wb wc).srcs [] = .ok () :=
  Accesses.ready_of_claimRegs (claimRegs_usable hag hu)

end

/-- Registers A and B of `spawn` and `launch` (R360). -/
theorem pairs_usable {o : XOp} {x : XForm} {s : State} {c : View} (hag : Agrees s c s c) (hu : Usable o x 2 2 0 [] s c) :
    c.pairs o x = .ok (c.th.vs (regsOf c o x 2 2 0).a 2, c.th.vs (regsOf c o x 2 2 0).b 2, (regsOf c o x 2 2 0).srcs) := by
  simp only [View.pairs, operands_of_usable hu, ready_sources hag hu, bind, Except.bind]
  rfl

section
variable {x : XForm} {s : State} {c : View} (hview : s.view c.id = some c) (hag : Agrees s c s c)
  (hu : Usable .spawn x 2 2 0 [] s c)
include hview hag hu

/-- A spawn of a thread that is answered at once, for its depth or a cancel. -/
theorem spawnLane_refused (h : c.team.depth = 8 ∨ (s.core c.team.core).cancelled.contains c.team.launch = true) :
    s.spawnLane c x = (s.modThread c.id fun th => th.setP x.d.toNat false, goesOn) := by
  have hpairs := pairs_usable hag hu
  simp only [State.spawnLane, hpairs, observe_sources hview hu]
  rw [if_pos h]

/-- A spawn that offers its task, by the bin's answer. -/
theorem spawnLane_offers (h : ¬(c.team.depth = 8 ∨ (s.core c.team.core).cancelled.contains c.team.launch = true))
    {entry arg : Nat} (hentry : c.th.vs (regsOf c .spawn x 2 2 0).a 2 = entry)
    (harg : c.th.vs (regsOf c .spawn x 2 2 0).b 2 = arg) (hcanon : entry < 2 ^ 57) (halign : entry % 4 = 0)
    {s1 : State} {ok : Bool} (hoffer : s.offer c.team.core c.team.launch entry (c.team.depth + 1)
      { arg, clock := s.clock c.team.core, team := c.id.team }
      (fun s => s.descriptor c.team.window (s.threadAsker c.id c.team 3) entry) = (s1, .ok ok)) :
    s.spawnLane c x = (s1.modThread c.id fun th => th.setP x.d.toNat ok, goesOn) := by
  subst hentry harg
  have hpairs := pairs_usable hag hu
  simp only [State.spawnLane, hpairs, observe_sources hview hu]
  rw [if_neg h, if_neg (Nat.not_le.2 hcanon), if_neg (not_not_intro halign), hoffer]

end

/-! ### The bins (R361) -/

section
variable {s : State} {core launch entry depth : Nat} {task : Task} {read : State → State × DescRead}

/-- The state after a task has entered a bin. -/
theorem appendTask_eq (s : State) (core k : Nat) (b : Bin) (task : Task) : s.appendTask core k b task =
    { s with
      cores := Tab.put core { s.core core with bins := Tab.put k { b with
        tasks := b.tasks ++ [task], ready := if b.tasks.length = 31 then some s.nextTag else none } (s.core core).bins } s.cores
      nextTag := s.nextTag + 1 } := by
  have hlength : (b.tasks ++ [task]).length = 32 ↔ b.tasks.length = 31 := by simp
  simp only [State.appendTask, State.fresh, State.modCore, hlength]
  rfl

theorem offer_open {k : Nat} {b : Bin} (hopen : (s.core core).openBin launch entry depth = some (k, b)) :
    s.offer core launch entry depth task read = (s.appendTask core k b task, .ok true) := by
  simp only [State.offer, hopen]

theorem offer_full (hopen : (s.core core).openBin launch entry depth = none) (hfull : 32 ≤ (s.core core).bins.length) :
    s.offer core launch entry depth task read = (s, .ok false) := by
  simp only [State.offer, hopen, if_pos hfull]

theorem offer_first (hopen : (s.core core).openBin launch entry depth = none) (hroom : (s.core core).bins.length < 32)
    {d : Nat} (hread : read s = (s, .ok d)) (haccepted : descRefused entry d = false) :
    s.offer core launch entry depth task read = (s.appendTask core (Tab.freeKey (s.core core).bins 32 0)
      { launch, entry, depth, due := s.cycle + s.spawnTimer, desc := d } task, .ok true) := by
  simp only [State.offer, hopen, if_neg (Nat.not_le.2 hroom), hread, haccepted, Bool.false_eq_true, if_false]

end

/-- Settles O38: a thread whose registers are ready and whose peer writes are acknowledged is answered by the bin that its
task finds. -/
theorem spawnOffers : Obligations.SpawnOffers := by
  intro x s ig t n th hf hone hth _ c entry core task refused answers binned hu
  have hag := agrees_first hf hth
  have hview : s.view { team := ig.team, n } = some c := view_eq s { team := ig.team, n } t th hf.2.1 hth
  have hanswers : ∀ {s1 base : State} {ok : Bool}, s.offerWaits { team := ig.team, n } = false → Formed base ig t →
      s1 = base → s.spawnLane c x = (s1.modThread c.id fun th => th.setP x.d.toNat ok, goesOn) →
      ∃ s', exec (.spawn x) s = .next s' ∧ answers ok base s' := fun hwaits hbase hs1 hlane =>
    ⟨_, spawn_goes hf hth hone x hwaits hlane, hs1 ▸ onlyThreads_modThread_modThread hbase hone _ _⟩
  have hwaits : s.offerWaits { team := ig.team, n } = true ↔ ¬refused ∧ th.peerOut ≠ [] := by
    rw [offerWaits_eq hf hth]
    simp [refused, core]
  refine ⟨fun h => hanswers ?_ hf rfl (spawnLane_refused hview hag hu h), fun h hpeer => spawn_waits hf hone x ?_,
    fun h hcanon halign hpeer => ?_⟩
  · exact Bool.eq_false_iff.2 fun hw => (hwaits.1 hw).1 h
  · exact hwaits.2 ⟨h, hpeer⟩
  · have hfree : s.offerWaits { team := ig.team, n } = false := Bool.eq_false_iff.2 fun hw => (hwaits.1 hw).2 hpeer
    refine ⟨fun k b hopen => ?_, fun hopen hfull => ?_, fun d hopen hroom hread haccepted => ?_⟩
    · exact hanswers hfree (by exact hf) (appendTask_eq s t.core k b task)
        (spawnLane_offers hview hag hu h rfl rfl hcanon halign (offer_open hopen))
    · exact hanswers hfree hf rfl (spawnLane_offers hview hag hu h rfl rfl hcanon halign (offer_full hopen hfull))
    · obtain ⟨s', hs', hbut⟩ := hanswers hfree (by exact hf) (appendTask_eq s t.core _ _ task)
        (spawnLane_offers hview hag hu h rfl rfl hcanon halign (offer_first hopen hroom hread haccepted))
      exact ⟨s', _, hs', Tables.find_freeKey hroom, hbut⟩

end Sys2Proof.Proofs.Spawning

/-! `cp`, `cpg` and `coll` (R259): a job that does not end at its issue enters the scoreboard, and the lines that it is to write
are absent. -/

namespace Sys2Proof.Proofs.JobIssue

open Sys2Proof Sys2Proof.Machine Sys2Proof.Claims
open Sys2Proof.Proofs.Lanes Sys2Proof.Proofs.Together Sys2Proof.Proofs.Sweeps

/-! ### Lines made absent (R118) -/

section
variable (s : State) (k line key : Nat)

theorem lineAbsent_rest : ∃ formes, s.lineAbsent k line key = { s with formes } := ⟨_, rfl⟩

theorem find_lineAbsent (j : Nat) : Tab.find j (s.lineAbsent k line key).formes =
    (Tab.find j s.formes).map fun f => if j = k then
      { f with pres := Tab.set 0 line 1 f.pres, writer := Tab.put line key f.writer } else f := by
  show Tab.find j (Tab.modify k _ s.formes) = _
  rw [Tab.find_modify]
  split
  next h => subst h; rfl
  next => rw [Option.map_id']

theorem data_lineAbsent (j : Nat) : ((s.lineAbsent k line key).forme j).data = (s.forme j).data := by
  rw [State.forme, State.forme, find_lineAbsent]
  cases Tab.find j s.formes with
  | none => rfl
  | some f =>
    show (ite _ _ f).data = f.data
    split <;> rfl

end

/-- A line of a forme is absent. -/
def Absent (s : State) (p : Nat × Nat) : Prop := Tab.has s.formes p.1 = true → (s.forme p.1).presence p.2 = 1

theorem absent_lineAbsent (s : State) (p q : Nat × Nat) (key : Nat) (h : q = p ∨ Absent s q) :
    Absent (s.lineAbsent p.1 p.2 key) q := by
  intro hhas
  rw [Tab.has, find_lineAbsent, Option.isSome_map] at hhas
  obtain ⟨f, hf⟩ := Option.isSome_iff_exists.1 hhas
  have hforme : s.forme q.1 = f := Accesses.forme_of_find hf
  rw [State.forme, find_lineAbsent, hf, Option.map_some, Option.getD_some]
  split
  next hk =>
    show Tab.getD (Tab.set 0 p.2 1 f.pres) q.2 0 = 1
    rw [Tab.getD_set]
    split
    next => rfl
    next hline => exact hforme ▸ h.elim (fun e => absurd (congrArg Prod.snd e) hline) fun h => h hhas
  next hk => exact hforme ▸ h.elim (fun e => absurd (congrArg Prod.fst e) hk) fun h => h hhas

/-- Every line of a footprint becomes absent; nothing but the formes changes, and no byte of theirs. -/
theorem foldl_lineAbsent (key : Nat) (l : List (Nat × Nat)) : ∀ s : State,
    ∃ formes, l.foldl (fun s p => s.lineAbsent p.1 p.2 key) s = { s with formes } ∧
      (∀ k, (({ s with formes } : State).forme k).data = (s.forme k).data) ∧
      (∀ k, Tab.has formes k = Tab.has s.formes k) ∧ ∀ p, p ∈ l ∨ Absent s p → Absent { s with formes } p := by
  induction l with
  | nil => exact fun s => ⟨s.formes, rfl, fun _ => rfl, fun _ => rfl, fun p h => h.resolve_left List.not_mem_nil⟩
  | cons p l ih =>
    intro s
    obtain ⟨formes, hrun, hdata, hhas, habs⟩ := ih (s.lineAbsent p.1 p.2 key)
    refine ⟨formes, hrun, fun k => (hdata k).trans (data_lineAbsent ..), fun k => (hhas k).trans ?_, fun q hq => habs q ?_⟩
    · rw [Tab.has, find_lineAbsent, Option.isSome_map]
      rfl
    · rcases hq with hq | hq
      · rcases List.mem_cons.1 hq with rfl | hq
        · exact .inr (absent_lineAbsent s q q key (.inl rfl))
        · exact .inl hq
      · exact .inr (absent_lineAbsent s p q key (.inr hq))

/-! ### The group that stays together -/

/-- A group of one thread: nothing but its team's threads changes, and a thread that is not to wait with others is unchanged. -/
theorem keepGroup_single (s : State) (k pc next n : Nat) : ∃ teams, s.keepGroup k pc next [n] = { s with teams } ∧
    ∀ th, s.thread? { team := k, n } = some th → ({ s with teams } : State).thread? { team := k, n } = some th := by
  rw [State.keepGroup]
  split
  next => exact ⟨s.teams, rfl, fun _ h => h⟩
  next hagain =>
    refine ⟨_, rfl, fun th hth => (thread?_modThread_same ..).trans ?_⟩
    have hreplay : th.wait = .replay := by
      by_contra hw
      exact hagain (by simp [hth, hw])
    rw [hth, Option.map_some, hreplay]
    exact congrArg some (if_neg (by simp))

/-! ### The job (R259) -/

section
variable {s : State} {c : View} {core : Nat} {kind : JobKind} {card : List Nat} {obj : Option (Nat × Nat)} {dreg : Nat}

/-- The job as it enters. -/
def enteringJob (s : State) (c : View) (core : Nat) (kind : JobKind) (card : List Nat) (obj : Option (Nat × Nat)) : Job :=
  { kind, card, region := regionOf core, core, tid := c.id, launch := c.team.launch, ctx := s.ctxOf c.team
    system := c.team.system, cluster := c.team.cluster, clock := max (s.clock (engineClock kind core)) (s.clock core)
    edges := s.edgesTo (regionOf core) (s.ctxOf c.team) kind card, object := obj, endTime := s.clock core
    jseq := Tab.getD s.fabric.jseq (cardCgrp card) 0 }

/-- What the issue of a job leaves as it was. -/
def Issued (s s' : State) (c : View) (kind : JobKind) (card : List Nat) (dreg : Nat) (job : Job) : Prop :=
  Tab.find s.nextKey s'.jobs = some job ∧ (∀ p ∈ s.formeLines c.team.cluster kind card, Absent s' p) ∧
    (∀ k, Tab.has s'.formes k = Tab.has s.formes k) ∧ (∀ k, (s'.forme k).data = (s.forme k).data) ∧ s'.hbm = s.hbm ∧
    s'.hostMem = s.hostMem ∧ s'.homes = s.homes ∧
    s'.thread? c.id = (s.thread? c.id).map fun th => { th with pend := Tab.put dreg s.nextKey th.pend }

/-- The state in which the lines of the job become absent. -/
theorem issueJob_eq (hopen : kind = .coll → s.modId ≠ 0x3FF ∧ Bits.bit (s.cgrp (cardCgrp card)) 31 = true) :
    ∃ fabric, s.issueJob c core kind card obj dreg = (s.formeLines c.team.cluster kind card).foldl
      (fun s' p => s'.lineAbsent p.1 p.2 s.nextKey)
      ({ s with
        nextKey := s.nextKey + 1, fabric, jobs := Tab.put s.nextKey (enteringJob s c core kind card obj) s.jobs }.modThread c.id
          fun th => { th with pend := Tab.put dreg s.nextKey th.pend }) := by
  have hrefused : (kind == .coll && (s.modId == 0x3FF || !Bits.bit (s.cgrp (cardCgrp card)) 31)) = false := by
    by_cases hk : kind = .coll
    · obtain ⟨hid, hbit⟩ := hopen hk
      simp [hid, hbit]
    · simp [hk]
  have hmodId : ({ s with nextKey := s.nextKey + 1 } : State).modId = s.modId := rfl
  have hcgrp : ({ s with nextKey := s.nextKey + 1 } : State).cgrp (cardCgrp card) = s.cgrp (cardCgrp card) := rfl
  simp only [State.issueJob, State.freshKey, hmodId, hcgrp, hrefused, Bool.false_eq_true, if_false, Bool.not_false, Bool.and_true]
  split
  · exact ⟨_, rfl⟩
  · exact ⟨_, rfl⟩

theorem issueJob_enters (hopen : kind = .coll → s.modId ≠ 0x3FF ∧ Bits.bit (s.cgrp (cardCgrp card)) 31 = true) :
    Issued s (s.issueJob c core kind card obj dreg) c kind card dreg (enteringJob s c core kind card obj) := by
  obtain ⟨fabric, hrun⟩ := issueJob_eq (c := c) (core := core) (obj := obj) (dreg := dreg) hopen
  rw [hrun]
  obtain ⟨formes, hfold, hdata, hhas, habs⟩ := foldl_lineAbsent s.nextKey (s.formeLines c.team.cluster kind card) _
  rw [hfold]
  exact ⟨Tab.find_put_same _ _ _, fun p hp => habs p (.inl hp), hhas, hdata, rfl, rfl, rfl, thread?_modThread_same ..⟩

/-- A job with something to deliver does not end at its issue (R112). -/
theorem endIfDone_enters (hplan : if isPush kind card then 0 < groupCount card else planOf kind card ≠ []) {s' : State}
    {job : Job} (hjob : job = enteringJob s c core kind card obj) {key : Nat} (hfind : Tab.find key s'.jobs = some job) :
    s'.endIfDone key = s' := by
  have hopen : job.complete = false := by
    rw [hjob]
    show (if isPush kind card then decide (groupCount card ≤ 0) else decide ((planOf kind card).length ≤ 0)) = false
    split
    next h => exact decide_eq_false (Nat.not_le.2 (by simpa [h] using hplan))
    next h => exact decide_eq_false (Nat.not_le.2 (List.length_pos_iff.2 (by simpa [h] using hplan)))
  have hended : job.ended.isSome = false := by rw [hjob]; rfl
  rw [State.endIfDone, hfind]
  exact if_neg (by rw [hopen, hended]; exact Bool.false_ne_true)

end

/-- What the three instructions have in common. -/
theorem issuesJob_of {i : Instr} {o : XOp} {x : XForm} {kind : JobKind} {ok : State → List Nat → Prop}
    (hexec : ∀ s, exec i s = execTogether x.words (some x.g) (jobLane o x kind) s)
    (hok : ∀ s card, ok s card → (if isPush kind card then 0 < groupCount card else planOf kind card ≠ []) ∧
      (kind = .coll → s.modId ≠ 0x3FF ∧ Bits.bit (s.cgrp (cardCgrp card)) 31 = true)) : IssuesJob i o x kind ok := by
  intro s ig t n th reg obj hf hone hth _ c card srcs lines hguard hdests hreg hset hunheld hsound hpeer hcheck hroom hcard
  obtain ⟨hplan, hopen⟩ := hok s card hcard
  have hclaim : s.claimRegs c srcs [x.d.toNat] = .ok s := claimRegs_agrees (agrees_first hf hth) hset hunheld hsound
  have hperf : c.performed = .ok () := by rw [View.performed, show c.th.peerOut = [] from hpeer]; rfl
  obtain ⟨s1, hs1⟩ : ∃ s1, s1 = s.issueJob c t.core kind card obj x.d.toNat := ⟨_, rfl⟩
  have hissued : Issued s s1 c kind card x.d.toNat (enteringJob s c t.core kind card obj) := hs1 ▸ issueJob_enters hopen
  obtain ⟨hjob, habs, hhas, hdata, hhbm, hhost, hhomes, hthread⟩ := hissued
  have hlane : jobLane o x kind (nextPc ig x.words) s c = .ok (s1, nextPc ig x.words) := by
    have hend : s1.endIfDone s.nextKey = s1 := endIfDone_enters hplan rfl hjob
    simp only [jobLane, hdests, hreg, bind, Except.bind]
    rw [show s.claimRegs c (regSpan reg 8 ++ if x.xa then [x.c.toNat] else []) [x.d.toNat] = .ok s from hclaim]
    simp only [hperf]
    rw [show s.cardCheck c.team.cluster kind ((regSpan reg 8).map fun r => (c.th.v r).toNat) = .ok obj from hcheck]
    refine (if_neg (Nat.not_le.2 hroom)).trans ?_
    exact congrArg (fun u => Except.ok (u, nextPc ig x.words)) ((congrArg (State.endIfDone · s.nextKey) hs1.symm).trans hend)
  have hrun := runLane_ok (nextPc ig x.words) (some x.g) (jobLane o x kind (nextPc ig x.words)) s { team := ig.team, n } c s1
    (nextPc ig x.words) (view_eq s { team := ig.team, n } t th hf.2.1 hth) hguard hlane
  obtain ⟨s2, hs2⟩ : ∃ s2, s2 = s1.modThread { team := ig.team, n } fun th =>
      { th with pc := BitVec.ofNat 64 (nextPc ig x.words) } := ⟨_, rfl⟩
  obtain ⟨teams, hkeep, hkept⟩ := keepGroup_single s2 ig.team ig.pc (nextPc ig x.words) n
  refine ⟨{ s2 with teams }, enteringJob s c t.core kind card obj, ?_, ?_, rfl, rfl, rfl, rfl, rfl, rfl, rfl,
    fun p hp hp' => ?_, ?_⟩
  · rw [hexec, execTogether_next hf.1, hone, ← hkeep, hs2]
    simp only [State.inOrder, List.foldl_nil, ite_self, hrun]
  all_goals subst hs2
  · exact hjob
  · exact habs p hp ((hhas p.1).trans hp')
  · have hthread' := hthread.trans (congrArg (Option.map _) (thread?_of_find hf.2.1 hth))
    refine ⟨hdata, hhbm, hhost, hhomes, hkept _ ((thread?_modThread_same ..).trans ?_)⟩
    exact congrArg (Option.map _) hthread'

/-- Settles O30: none of the three jobs ends at its issue. -/
theorem jobIssue : Obligations.JobIssue := by
  refine ⟨fun x => issuesJob_of (fun _ => rfl) fun s card h => ⟨?_, nofun⟩,
    fun x => issuesJob_of (fun _ => rfl) fun s card h => ⟨?_, nofun⟩,
    fun x => issuesJob_of (fun _ => rfl) fun s card ⟨hplan, hid, hbit⟩ => ⟨hplan, fun _ => ⟨hid, hbit⟩⟩⟩
  · exact h
  · exact h

end Sys2Proof.Proofs.JobIssue

/-! `ncall` (R264, R265): a call that passes its checks is sent by its one thread. -/

namespace Sys2Proof.Proofs.PlatenCall

open Sys2Proof Sys2Proof.Machine Sys2Proof.Claims
open Sys2Proof.Proofs.Sweeps Sys2Proof.Proofs.Imprints

section
variable {s : State} {ig : IssueGroup} {t : Team} {n : Nat} (hf : Formed s ig t) (hone : ig.threads = [n])
include hf hone

/-- One thread's part is kept whether or not its group waits with it. -/
theorem onlyThreads_keepGroup (e : Thread → Thread) (pc next : Nat) :
    OnlyThreads s ((s.modThread { team := ig.team, n } e).keepGroup ig.team pc next [n]) ig t fun c => e c.th := by
  rw [State.keepGroup]
  split
  next => exact onlyThreads_modThread hf hone e
  next hagain =>
    refine ⟨fun m hm th hth => ?_, (onlyThreads_modThread_modThread hf hone e _).2⟩
    obtain rfl : m = n := List.mem_singleton.1 (hone ▸ hm)
    have hchanged : (s.modThread { team := ig.team, n := m } e).thread? { team := ig.team, n := m } = some (e th) := by
      rw [thread?_modThread_same, thread?_of_find hf.2.1 hth]
      rfl
    have hreplay : (e th).wait = .replay := by
      by_contra hw
      exact hagain (by simp [hchanged, hw])
    refine (thread?_modThread_same ..).trans ((congrArg (Option.map _) hchanged).trans (congrArg some (if_neg ?_)))
    simp [hreplay]

end

section
variable {s : State} {ig : IssueGroup} {t : Team} {n : Nat} {th : Thread} (hf : Formed s ig t)
  (hone : ig.threads = [n]) (hth : Tab.find n t.threads = some th) {x : XForm} {r : CallRead} {lines : List (Nat × Nat)}
  (hcard : s.callCard (viewOf ig.team t n th) x = .ok r)
  (hsites : s.callSites (viewOf ig.team t n th) r.card = (s, .ok lines)) (hseen : ∀ m ∈ r.srcs, Tab.find m th.seen = none)
include hf hone hth hcard hsites hseen

/-- An `ncall` that passes its checks sends its call. -/
theorem exec_ncall : exec (.ncall x) s = .next ((s.sendCall (viewOf ig.team t n th) r.card r.args r.obj lines
    (nextPc ig 3)).keepGroup ig.team ig.pc (nextPc ig 3) [n]) := by
  have hview : s.view { team := ig.team, n } = some (viewOf ig.team t n th) := view_eq s { team := ig.team, n } t th hf.2.1 hth
  have hobs : s.observed { team := ig.team, n } r.srcs [] = s := by
    simp only [State.observed, hview, View.observed, List.filter_nil, List.append_nil]
    exact Spawning.observe_none hview hseen
  show execNcall x s = _
  simp only [execNcall, hf.1, hone, List.foldl_cons, List.foldl_nil, hview, hcard, hsites, List.nil_append, State.afterReach,
    List.filterMap_cons, List.filterMap_nil, List.eraseDups_nil, List.isEmpty_nil, List.any_cons, List.any_nil, Bool.or_false,
    Bool.not_false, Bool.and_true, if_true, hobs, List.map_cons, List.map_nil, State.inOrder, ite_self]
  rfl

end

/-- The call that a thread sends (R264, R265). -/
def sentCall (s : State) (c : View) (r : CallRead) (lines : List (Nat × Nat)) (l : Launch) : Call :=
  { card := r.card, args := r.args, launch := c.team.launch, ctx := s.ctxOf c.team, tid := c.id, core := c.team.core, caller := l
    time := s.clock c.team.clockKey, lines, object := some r.obj }

section
variable {s : State} {c : View} {r : CallRead} {lines : List (Nat × Nat)} {next : Nat}

theorem sendCall_waits (hpeer : c.th.peerOut ≠ []) :
    s.sendCall c r.card r.args r.obj lines next = s.modThread c.id fun th => { th with wait := .replay } := by
  rw [State.sendCall]
  exact if_pos (by simp [hpeer])

theorem sendCall_sends {l : Launch} (hpeer : c.th.peerOut = []) (hroom : (s.platen (callStack r.card)).calls.length < 16)
    (hl : s.launchOf c.team = some l) : s.sendCall c r.card r.args r.obj lines next =
      (({ s with nextKey := s.nextKey + 1 } : State).modPlaten (callStack r.card) fun p =>
        { p with calls := Tab.put s.nextKey (sentCall s c r lines l) p.calls }).modThread c.id fun th => Thread.at th next := by
  rw [State.sendCall]
  refine (if_neg (by simp [hpeer, Nat.not_le.2 hroom])).trans ?_
  rw [hl]
  rfl

end

/-- Settles O36: a thread whose peer writes are acknowledged sends its call, another is to issue again. -/
theorem platenCallSent : Obligations.PlatenCallSent := by
  intro x s ig t n th r lines l hf hone hth c st hcard hsites hseen
  have hexec := exec_ncall hf hone hth hcard hsites hseen
  refine ⟨fun hpeer => ?_, fun hpeer hroom hl => ?_⟩
  · rw [sendCall_waits hpeer] at hexec
    exact ⟨_, hexec, onlyThreads_keepGroup hf hone _ _ _⟩
  · rw [sendCall_sends hpeer hroom hl] at hexec
    exact ⟨_, sentCall s c r lines l, hexec, rfl, rfl, rfl, rfl, rfl, rfl, rfl, rfl, rfl, rfl,
      onlyThreads_keepGroup (s := ({ s with nextKey := s.nextKey + 1 } : State).modPlaten st fun p =>
        { p with calls := Tab.put s.nextKey (sentCall s c r lines l) p.calls }) hf hone _ _ _⟩

end Sys2Proof.Proofs.PlatenCall

/-! `launch` (R366): the bytes of a record that is read in 32 loads, what the checks of its one thread leave, and the reading. -/

namespace Sys2Proof.Proofs.DeviceLaunch

open Sys2Proof Sys2Proof.Machine Sys2Proof.Claims
open Sys2Proof.Proofs.Sweeps Sys2Proof.Proofs.Accesses

/-! ### The bytes of a record -/

theorem readBytes_add (m : Memory) (a n k : Nat) :
    readBytes m a (n + k) = readBytes m a n + 256 ^ n * readBytes m (a + n) k := by
  induction n generalizing a with
  | zero => simp [readBytes]
  | succ n ih =>
    rw [Nat.succ_add, readBytes, readBytes, ih (a + 1), show a + 1 + n = a + (n + 1) by omega, Nat.pow_succ']
    ring

theorem field_readBytes (m : Memory) (a : Nat) {n j : Nat} (h : j < n) :
    Bits.field (readBytes m a n) (8 * j) 8 = (Tab.getD m (a + j) 0).toNat := by
  obtain ⟨k, rfl⟩ : ∃ k, n = j + (k + 1) := ⟨n - j - 1, by omega⟩
  have hlt := readBytes_lt m a j
  rw [readBytes_add, readBytes, Bits.field, Nat.pow_mul]
  have hbyte : (Tab.getD m (a + j) 0).toNat < 256 := (Tab.getD m (a + j) 0).isLt
  rw [show (2 : Nat) ^ 8 = 256 by rfl, Nat.add_mul_div_left _ _ (Nat.pow_pos (by decide)), Nat.div_eq_of_lt hlt, Nat.zero_add,
    Nat.add_mul_mod_self_left, Nat.mod_eq_of_lt hbyte]

/-- The pieces of a record as its thread collects them. -/
def gathered (m : Memory) (off n : Nat) : Tab Nat := (List.range n).map fun i => (i, readBytes m (off + 16 * i) 16)

theorem put_gathered (m : Memory) (off n : Nat) :
    Tab.put n (readBytes m (off + 16 * n) 16) (gathered m off n) = gathered m off (n + 1) := by
  have happend : ∀ t : Tab Nat, (∀ p ∈ t, p.1 < n) → ∀ v, Tab.put n v t = t ++ [(n, v)] := by
    intro t ht v
    induction t with
    | nil => rfl
    | cons p t ih =>
      have hp := ht p List.mem_cons_self
      rw [Tab.put, if_neg (Nat.not_lt.2 hp.le), if_neg hp.ne', ih fun q hq => ht q (List.mem_cons_of_mem _ hq)]
      rfl
  rw [happend _ (fun p hp => ?_), gathered, gathered, List.range_succ, List.map_append]
  · rfl
  · obtain ⟨i, hi, rfl⟩ := List.mem_map.1 hp
    exact List.mem_range.1 hi

theorem sum_gathered (m : Memory) (off n : Nat) :
    ((gathered m off n).map fun p => p.2 * 2 ^ (128 * p.1)).foldl (· + ·) 0 = readBytes m off (16 * n) := by
  induction n with
  | zero => rfl
  | succ n ih =>
    rw [gathered, List.range_succ, List.map_append, List.map_append, List.foldl_append]
    rw [gathered] at ih
    rw [ih, Nat.mul_succ, readBytes_add, show (256 : Nat) ^ (16 * n) = 2 ^ (128 * n) by
      rw [show (256 : Nat) = 2 ^ 8 by rfl, ← Nat.pow_mul]; congr 1; omega]
    simp only [List.map_cons, List.map_nil, List.foldl_cons, List.foldl_nil]
    ring

/-- A record with the context of its thread in CTX (Table 18.3, R366). -/
theorem record_split (bits ctx : Nat) : bits - Bits.field bits 8 6 * 2 ^ 8 + ctx * 2 ^ 8 =
    bits % 2 ^ 8 + ctx * 2 ^ 8 + bits / 2 ^ 14 * 2 ^ 14 := by
  simp only [Bits.field]
  omega

theorem ctx_record {bits ctx : Nat} (h : ctx < 64) : Bits.field (bits - Bits.field bits 8 6 * 2 ^ 8 + ctx * 2 ^ 8) 8 6 = ctx := by
  rw [record_split, Bits.field]
  omega

theorem byte_record {bits ctx j : Nat} (h : ctx < 64) (hj : j ≠ 1) :
    Bits.field (bits - Bits.field bits 8 6 * 2 ^ 8 + ctx * 2 ^ 8) (8 * j) 8 = Bits.field bits (8 * j) 8 := by
  rw [record_split, Bits.field, Bits.field]
  match j, hj with
  | 0, _ => omega
  | j + 2, _ =>
    have hhigh : ∀ v, v / 2 ^ (8 * (j + 2)) = v / 2 ^ 14 / 2 ^ (8 * j + 2) := fun v => by
      rw [Nat.div_div_eq_div_mul, ← Nat.pow_add]
      congr 2
      omega
    rw [hhigh, hhigh]
    congr 2
    omega

/-! ### What the checks leave -/

section
variable {s s' : State} {c : View} {acc held : Nat} {check : State → MemReq → Loc → Option Trap} {q r : MemReq} {loc : Loc}

theorem reach_go (h : s.reach c acc check q = (s', .go r loc)) : r = q := by
  have hfinish : ∀ (s1 : State) (l : Loc), (match check s1 q l with
      | some t => (s1, Reach.stop (.fault t))
      | none => (s1, Reach.go q l)) = (s', .go r loc) → r = q := by
    intro s1 l h
    split at h
    · cases h
    · cases h; rfl
  unfold State.reach at h
  simp only at h
  split at h
  · cases h
  split at h
  · cases h
  split at h
  · split at h
    · exact hfinish _ _ h
    · cases h
  · split at h
    · exact hfinish _ _ h
    all_goals cases h

/-- One piece of a record. -/
def pieceStep (c : View) (a : Nat) (q : LaunchReq) (acc : State × Reach × LaunchReq) (i : Nat) : State × Reach × LaunchReq :=
  match acc.2.1 with
  | .go _ _ =>
    match acc.1.reach c 0 (fun s => s.destCheck false) { va := a + 16 * i, size := 16, ty := .b128 } with
    | (s, .go r l) => (s, .go r l, { acc.2.2 with pieces := acc.2.2.pieces ++ [(a + 16 * i, l)] })
    | (s, r) => (s, r, q)
  | _ => acc

theorem recordPieces_eq (s : State) (c : View) (a : Nat) (q : LaunchReq) :
    s.recordPieces c a q = (List.range 32).foldl (pieceStep c a q) (s, goesOn, q) := rfl

/-- The pieces are asked for by requests that read no register; whether the queue was full is as before. -/
def PiecesOf (q : LaunchReq) (acc : State × Reach × LaunchReq) : Prop :=
  acc.2.2.full = q.full ∧ ∀ r l, acc.2.1 = .go r l → r.srcs = []

theorem piecesOf_pieceStep {a i : Nat} {q : LaunchReq} {acc : State × Reach × LaunchReq} (h : PiecesOf q acc) :
    PiecesOf q (pieceStep c a q acc i) := by
  unfold pieceStep
  split
  · split
    next heq => exact ⟨h.1, fun r l hr => by cases hr; rw [reach_go heq]⟩
    next hnot _ => exact ⟨rfl, fun r l hr => absurd hr (hnot r l)⟩
  · exact h

theorem recordPieces_go {a : Nat} {q q' : LaunchReq} (h : s.recordPieces c a q = (s', .go r loc, q')) :
    r.srcs = [] ∧ q'.full = q.full := by
  have hfold : ∀ (is : List Nat) acc, PiecesOf q acc → PiecesOf q (is.foldl (pieceStep c a q) acc) := by
    intro is
    induction is with
    | nil => exact fun _ h => h
    | cons i is ih => exact fun acc h => ih _ (piecesOf_pieceStep h)
  have hpieces := hfold (List.range 32) (s, goesOn, q) ⟨rfl, fun r l hr => by cases hr; rfl⟩
  rw [← recordPieces_eq, h] at hpieces
  exact ⟨hpieces.2 r loc rfl, hpieces.1⟩

theorem launchLane_go {x : XForm} {q : LaunchReq} (h : s.launchLane c x held = (s', .go r loc, q)) :
    r.srcs = [] ∧ q.full = decide (64 ≤ held) ∧ (64 ≤ held → q.pieces = []) := by
  unfold State.launchLane at h
  simp only at h
  split at h
  · cases h
  split at h
  · cases h
  split at h
  · cases h
  split at h
  · split at h
    next hheld =>
      cases h
      exact ⟨rfl, (decide_eq_true hheld).symm, fun _ => rfl⟩
    next hheld =>
      obtain ⟨hsrcs, hfull⟩ := recordPieces_go h
      exact ⟨hsrcs, hfull.trans (decide_eq_false hheld).symm, fun h => absurd h hheld⟩
  next hnot _ =>
    cases h
    exact absurd rfl (hnot _ _)

end

/-! ### The operation that reads the record -/

/-- What a thread that reads its record notes. -/
def launchingOf (x : XForm) (q : LaunchReq) : Launching :=
  { queue := x.imm.toNat % 16, pred := x.d.toNat, comp := q.comp, compPage := q.compPage }

/-- What a thread that goes on notes of its launch. -/
def noted (x : XForm) (q : LaunchReq) (th : Thread) : Thread :=
  if q.full then { th.setP x.d.toNat false with launching := none }
  else { th with launching := some (launchingOf x q) }

/-- A load of a piece. -/
def pieceAccess (n va : Nat) (l : Loc) (i : Nat) : Access := { tid := n, va, loc := l, size := 16, ty := .b128, dreg := i }

/-- The operation of one thread. -/
def recordOp (team next n : Nat) (accs : List Access) : MemOp :=
  { team, kind := .record, hint := 0, scope := 0, accs, threads := [n], next }

section
variable {s : State} {ig : IssueGroup} {t : Team} {n : Nat} {th : Thread} {x : XForm} {r : MemReq} {loc : Loc} {q : LaunchReq}

theorem exec_launch (hf : Formed s ig t) (hone : ig.threads = [n]) (hth : Tab.find n t.threads = some th)
    (hlane : s.launchLane (viewOf ig.team t n th) x (s.queueHolds (x.imm.toNat % 16)) = (s, .go r loc, q))
    (hseen : ∀ m ∈ q.srcs, Tab.find m th.seen = none) (hpeer : th.peerOut = []) : exec (.launch x) s =
      .next (((s.modThread { team := ig.team, n } (noted x q)).startOp (recordOp ig.team (nextPc ig 3) n
        (q.pieces.zipIdx.map fun p => pieceAccess n p.1.1 p.1.2 p.2))).1.deliverFaults
        ((s.modThread { team := ig.team, n } (noted x q)).startOp (recordOp ig.team (nextPc ig 3) n
          (q.pieces.zipIdx.map fun p => pieceAccess n p.1.1 p.1.2 p.2))).2) := by
  have hview : s.view { team := ig.team, n } = some (viewOf ig.team t n th) := view_eq s { team := ig.team, n } t th hf.2.1 hth
  have hperformed : s.unperformed { team := ig.team, n } = false := by
    rw [State.unperformed, thread?_of_find hf.2.1 hth, Option.map_some, hpeer]
    rfl
  have hobs : s.observed { team := ig.team, n } r.srcs [] = s := by
    rw [(launchLane_go hlane).1, State.observed, hview]
    exact Spawning.observe_none hview fun _ h => nomatch h
  show execLaunch x s = _
  simp only [execLaunch, hf.1, hone, List.any_cons, List.any_nil, Bool.or_false, hperformed, Bool.false_eq_true, if_false,
    State.launchLanes, List.foldl_cons, List.foldl_nil, hview, List.filter_nil, List.length_nil, Nat.add_zero, hlane,
    List.nil_append, List.map_cons, List.map_nil, State.afterReach, List.filterMap_cons, List.filterMap_nil, List.eraseDups_nil,
    List.isEmpty_nil, Bool.not_false, Bool.and_true, if_true, hobs, List.find?_cons, beq_self_eq_true, Option.map_some,
    Option.getD_some, Spawning.observe_none hview hseen, List.flatMap_cons, List.flatMap_nil, List.append_nil]
  rfl

end

/-! ### The reading -/

/-- Pieces read so far: the operation that is left, the forme but for its times, the thread with what it has got. -/
structure Reading (s : State) (key k n : Nat) (op : MemOp) (t : Team) (f : Forme) (th : Thread) (l : Launching) (got : Tab Nat)
    (s' : State) : Prop where
  memops : s'.memops = Tab.put key op s.memops
  forme : ∃ rts, Tab.find k s'.formes = some { f with rts }
  teamAt : ∃ threads, s'.team? op.team = some { t with threads }
  thread : s'.thread? { team := op.team, n } = some { th with wait := .mem key, launching := some { l with got } }
  bad : s'.bad = s.bad
  launches : s'.launches = s.launches
  queues : s'.devQueues = s.devQueues
  hbm : s'.hbm = s.hbm
  hostMem : s'.hostMem = s.hostMem

theorem bundle_record {op : MemOp} (h : op.kind = .record) : op.bundle = [] := by rw [MemOp.bundle, h]

/-- The checks at the bank look at no time. -/
theorem formeCheck_congr {s s' : State} {k : Nat} {f : Forme} {rts : Tab Nat} (h : Tab.find k s.formes = some f)
    (h' : Tab.find k s'.formes = some { f with rts }) (hbad : s'.bad = s.bad) (off n va : Nat) (whole : Bool) :
    s'.formeCheck k off n va whole = s.formeCheck k off n va whole := by
  simp only [State.formeCheck, State.presenceCheck, State.badUnits, State.badAt, forme_of_find h, forme_of_find h', hbad]
  rfl

section
variable {s s' : State} {key k n : Nat} {op : MemOp} {t : Team} {f : Forme} {th : Thread} {l : Launching} {got : Tab Nat}

/-- The state after a piece has been read at the bank `g`. -/
def pieceRead (s : State) (k : Nat) (i : Tid) (t : Team) (g : Forme) (a : Access) (off : Nat) : State :=
  ({ s with formes := Tab.put k (g.load off a.size (s.clock t.clockKey)).1 s.formes } : State).perform .record i t a
    (readBytes g.data off a.size) none 0 (g.load off a.size (s.clock t.clockKey)).2.2

theorem performForme_record {i : Tid} {a : Access} {g : Forme} {off : Nat} (hforme : Tab.find k s.formes = some g)
    (hcheck : s.formeCheck k off a.size a.va false = .ok ()) :
    s.performForme .record i t a k off = .done (pieceRead s k i t g a off) := by
  refine (performForme_done hforme hcheck).trans ?_
  simp only [banked, AccKind.write, marks, Option.isSome_none, Bool.false_eq_true, false_and, if_false]
  rfl

/-- A piece is read. -/
theorem reading_attempt {a : Access} {accs : List Access} {off : Nat} (h : Reading s key k n op t f th l got s')
    (hkind : op.kind = .record) (haccs : op.accs = a :: accs) (hfind : Tab.find k s.formes = some f) (hnear : t.near = false)
    (htid : a.tid = n) (hloc : a.loc = .forme k off) (hcheck : s.formeCheck k off a.size a.va false = .ok ())
    (threads : Tab Thread) : ∃ s'', (s'.popAccess key).attempt key op { t with threads } a = .done s'' ∧
      Reading s key k n { op with accs } t f th l (Tab.put a.dreg (readBytes f.data off a.size) got) s'' := by
  obtain ⟨rts, hforme⟩ := h.forme
  obtain ⟨threads', hteam⟩ := h.teamAt
  have hsite := performForme_record (s := s'.popAccess key) (t := { t with threads }) (i := { team := op.team, n }) (a := a)
    hforme ((formeCheck_congr (s := s) hfind hforme h.bad off _ _ _).trans hcheck)
  refine ⟨pieceRead (s'.popAccess key) k { team := op.team, n } { t with threads } { f with rts } a off, ?_, ?_,
    ⟨_, Tab.find_put_same k (({ f with rts } : Forme).load off a.size _).1 s'.formes⟩, ?_, ?_, h.bad, h.launches, h.queues,
    h.hbm, h.hostMem⟩
  · have hnear' : ({ t with threads } : Team).near = false := hnear
    simp only [State.attempt, hnear', Bool.false_eq_true, if_false, hloc, htid, hkind]
    exact hsite
  · show Tab.modify key _ s'.memops = _
    rw [h.memops, modify_put]
    simp only [haccs, List.drop_one, List.tail_cons]
  · exact ⟨(({ t with threads := threads' } : Team).modThread n fun th => th.landed .record a (readBytes f.data off a.size)
      none 0).threads, (team?_modThread _ _ _ _).trans ((if_pos rfl).trans (congrArg (Option.map _) hteam))⟩
  · refine (thread?_modThread_same ..).trans ((congrArg (Option.map _) h.thread).trans ?_)
    rfl

/-- All that is left of the pieces is read, in order. -/
theorem reading_sweep {v : Nat → Nat} {off : Nat} (hfind : Tab.find k s.formes = some f) (hnear : t.near = false) :
    ∀ (m i : Nat) {op : MemOp} {got : Tab Nat} {s' : State}, Reading s key k n op t f th l got s' → op.kind = .record →
    got = gathered f.data off i → op.accs = (List.range' i m).map (fun i => pieceAccess n (v i) (.forme k (off + 16 * i)) i) →
    (∀ j ∈ List.range' i m, s.formeCheck k (off + 16 * j) 16 (v j) false = .ok ()) →
    ∃ s'', s'.sweepLanes key m = (s'', []) ∧
      Reading s key k n { op with accs := [] } t f th l (gathered f.data off (i + m)) s'' := by
  intro m
  induction m with
  | zero =>
    intro i op got s' h hkind hgot haccs hcheck
    subst hgot
    obtain ⟨team, kind, hint, scope, accs, replies, threads, next, atHome⟩ := op
    obtain rfl : accs = [] := haccs
    exact ⟨s', rfl, h⟩
  | succ m ih =>
    intro i op got s' h hkind hgot haccs hcheck
    subst hgot
    rw [List.range'_succ, List.map_cons] at haccs
    obtain ⟨threads, hteam⟩ := h.teamAt
    obtain ⟨s1, hattempt, hnext⟩ := reading_attempt h hkind haccs hfind hnear rfl rfl
      (hcheck i (List.mem_range'_1.2 ⟨Nat.le_refl i, by omega⟩)) threads
    obtain ⟨s2, hsweep, hdone⟩ := ih (i + 1) hnext hkind (put_gathered f.data off i) rfl
      fun j hj => hcheck j (by rw [List.mem_range'_1] at hj ⊢; omega)
    refine ⟨s2, ?_, Nat.succ_add_eq_add_succ i m ▸ hdone⟩
    have hfindop : Tab.find key s'.memops = some op := by rw [h.memops, Tab.find_put_same]
    simp only [State.sweepLanes, hfindop, haccs, hteam, bundle_record hkind, List.isEmpty_nil, if_true, hattempt, hsweep]

end

/-! ### The end of the operation -/

theorem startOp_eq (s : State) (op : MemOp) {n : Nat} (h : op.threads = [n]) :
    s.startOp op = (started s op n).sweep s.nextKey := by
  rw [State.startOp, h]
  rfl

section
variable {s : State} {key : Nat} {op : MemOp} {n : Nat} (hfind : Tab.find key s.memops = some op) (haccs : op.accs = [])
  (hreplies : op.replies = []) (hkind : op.kind = .record) (hthreads : op.threads = [n])
include hfind haccs hreplies hkind hthreads

/-- The record that has been read is placed, and its thread goes on. -/
theorem finishOp_record : s.finishOp key =
    (({ s with memops := Tab.del key s.memops } : State).placeRecord { team := op.team, n }).modThread { team := op.team, n }
      (resume op.next) := by
  simp only [State.finishOp, hfind, haccs, hreplies, List.isEmpty_nil, Bool.and_self, if_true, State.threadsGoOn, hkind,
    beq_self_eq_true, hthreads, List.foldl_cons, List.foldl_nil]
  rfl

end

/-- A thread that reads no record has none to place. -/
theorem placeRecord_none {s : State} {i : Tid} {th : Thread} (hth : s.thread? i = some th) (h : th.launching = none) :
    s.placeRecord i = s := by
  unfold State.placeRecord
  split
  next hl =>
    rw [hth, Option.bind_some, h] at hl
    cases hl
  · rfl

/-- The record as it enters its queue. -/
def placedRecord (s : State) (t : Team) (l : Launching) (bits : Nat) : DevRecord :=
  { record := bits - Bits.field bits 8 6 * 2 ^ 8 + s.ctxOf t * 2 ^ 8, ctx := s.ctxOf t, comp := l.comp, compPage := l.compPage
    time := s.clock t.clockKey }

theorem placeRecord_some {s : State} {i : Tid} {t : Team} {th : Thread} {l : Launching} {bits : Nat}
    (hteam : s.team? i.team = some t) (hth : s.thread? i = some th) (hl : th.launching = some l)
    (hbits : (l.got.map fun p => p.2 * 2 ^ (128 * p.1)).foldl (· + ·) 0 = bits) : s.placeRecord i =
      ({ s with
        devQueues := Tab.put l.queue (Tab.getD s.devQueues l.queue [] ++ [placedRecord s t l bits]) s.devQueues }
          : State).modThread i fun th => { th.setP l.pred true with launching := none } := by
  have hbind : (s.thread? i).bind Thread.launching = some l := by rw [hth]; exact hl
  subst hbits
  simp only [State.placeRecord, hteam, hbind]
  rfl

section
variable {s : State} {ig : IssueGroup} {t : Team} {n : Nat} {th : Thread} {x : XForm} {q : LaunchReq} {next : Nat}

/-- A launch that loads nothing is over at once. -/
theorem startOp_empty (hf : Formed s ig t) (hth : Tab.find n t.threads = some th) (hkey : Tab.find s.nextKey s.memops = none)
    {e : Thread → Thread} (he : (e th).launching = none) :
    (s.modThread { team := ig.team, n } e).startOp (recordOp ig.team next n []) =
      ((({ s with nextKey := s.nextKey + 1 } : State).modThread { team := ig.team, n } fun th => inMem s.nextKey (e th)).modThread
        { team := ig.team, n } (resume next), []) := by
  have hfind : Tab.find s.nextKey (started (s.modThread { team := ig.team, n } e) (recordOp ig.team next n []) n).memops =
    some (recordOp ig.team next n []) := Tab.find_put_same _ _ _
  have hdel : Tab.del s.nextKey (started (s.modThread { team := ig.team, n } e) (recordOp ig.team next n []) n).memops =
      s.memops := (del_put _ _ _).trans (del_absent hkey)
  rw [startOp_eq _ _ rfl]
  refine (sweep_eq hfind rfl).trans (congrArg (·, []) ?_)
  rw [finishOp_record hfind rfl rfl rfl rfl, hdel]
  have hthread : ({ started (s.modThread { team := ig.team, n } e) (recordOp ig.team next n []) n with memops := s.memops } :
      State).thread? { team := ig.team, n } = some (inMem s.nextKey (e th)) := by
    refine (thread?_modThread_same ..).trans ((congrArg (Option.map _) (thread?_modThread_same ..)).trans ?_)
    exact congrArg (fun u => (u.map e).map (inMem s.nextKey)) (thread?_of_find hf.2.1 hth)
  refine (congrArg (State.modThread · _ _) (placeRecord_none hthread he)).trans ?_
  exact congrArg (State.modThread · _ _) 
    (modThread_modThread ({ s with nextKey := s.nextKey + 1 } : State) { team := ig.team, n } e (inMem s.nextKey))

/-- A launch of which every piece lies in a forme reads them all. -/
theorem startOp_record {k off a : Nat} {f : Forme} {l : Launching} (hf : Formed s ig t) (hth : Tab.find n t.threads = some th)
    (hnear : t.near = false) (hfind : Tab.find k s.formes = some f) (hl : l.got = [])
    (hcheck : ∀ i, i < 32 → s.formeCheck k (off + 16 * i) 16 (a + 16 * i) false = .ok ()) {accs : List Access}
    (haccs : accs = (List.range' 0 32).map fun i => pieceAccess n (a + 16 * i) (.forme k (off + 16 * i)) i) :
    ∃ s', (s.modThread { team := ig.team, n } fun th => { th with launching := some l }).startOp
        (recordOp ig.team next n accs) =
        ((({ s' with memops := Tab.del s.nextKey s'.memops } : State).placeRecord { team := ig.team, n }).modThread
          { team := ig.team, n } (resume next), []) ∧
      Reading (s.modThread { team := ig.team, n } fun th => { th with launching := some l }) s.nextKey k n
        (recordOp ig.team next n []) t f th l (gathered f.data off 32) s' := by
  subst haccs
  obtain ⟨s0, hs0⟩ : ∃ s0, s0 = s.modThread { team := ig.team, n } fun th => { th with launching := some l } := ⟨_, rfl⟩
  obtain ⟨op, hop⟩ : ∃ op, op = recordOp ig.team next n
    ((List.range' 0 32).map fun i => pieceAccess n (a + 16 * i) (.forme k (off + 16 * i)) i) := ⟨_, rfl⟩
  have hfindop : Tab.find s0.nextKey (started s0 op n).memops = some op := Tab.find_put_same _ _ _
  have hthread0 : s0.thread? { team := ig.team, n } = some { th with launching := some l } := by
    rw [hs0, thread?_modThread_same, thread?_of_find hf.2.1 hth]
    rfl
  have hcheck0 : ∀ i, i < 32 → s0.formeCheck k (off + 16 * i) 16 (a + 16 * i) false = .ok () := by rw [hs0]; exact hcheck
  have hteam0 : s0.team? ig.team = some (t.modThread n fun th => { th with launching := some l }) := by
    rw [hs0, team?_modThread, if_pos rfl, hf.2.1]
    rfl
  have hbegun : Reading s0 s0.nextKey k n op t f th l [] (started s0 op n) :=
    { memops := rfl
      forme := ⟨f.rts, by subst hs0; exact hfind⟩
      teamAt := ⟨((t.modThread n fun th => { th with launching := some l }).modThread n (inMem s0.nextKey)).threads,
        team?_started (t := t.modThread n fun th => { th with launching := some l }) (by rw [hop]; exact hteam0)⟩
      thread := by
        subst hop
        refine (thread?_modThread_same ..).trans ((congrArg (Option.map _) hthread0).trans ?_)
        obtain ⟨queue, pred, comp, compPage, got⟩ := l
        obtain rfl : got = [] := hl
        rfl
      bad := rfl, launches := rfl, queues := rfl, hbm := rfl, hostMem := rfl }
  obtain ⟨s', hsweep, hdone⟩ := reading_sweep (v := fun i => a + 16 * i) (off := off) (by subst hs0; exact hfind) hnear 32 0
    hbegun (by rw [hop]; rfl) rfl (by rw [hop]; rfl)
    fun i hi => hcheck0 i (Nat.lt_of_lt_of_eq (List.mem_range'_1.1 hi).2 (Nat.zero_add 32))
  refine ⟨s', ?_, by rw [← hs0, ← show s0.nextKey = s.nextKey by rw [hs0]; rfl]; rw [hop] at hdone; exact hdone⟩
  rw [← hs0, ← hop, startOp_eq s0 op (by rw [hop]; rfl)]
  refine (sweep_eq hfindop (by rw [show op.accs.length = 32 by rw [hop]; rfl]; exact hsweep)).trans (congrArg (·, []) ?_)
  subst hs0 hop
  exact finishOp_record (by rw [hdone.memops]; exact Tab.find_put_same _ _ _) rfl rfl rfl rfl

end

/-- Settles O40: a full queue leaves an operation without a load, one with room 32 of them. -/
theorem deviceLaunch : Obligations.DeviceLaunch := by
  intro x s ig t n th r loc q halone c queue held hlaunching hlane hseen hpeer
  obtain ⟨hf, hone, hth, hnear, -, -, hkey⟩ := halone
  obtain ⟨-, hfull, hnone⟩ := launchLane_go hlane
  have hexec := exec_launch hf hone hth hlane hseen hpeer
  refine ⟨fun h => ?_, fun a k off f hroom hctx hpieces hfind hcheck => ?_⟩
  · have hnoted : noted x q = fun th => { th.setP x.d.toNat false with launching := none } := by
      funext u
      exact if_pos (hfull.trans (decide_eq_true h))
    rw [hnone h, hnoted] at hexec
    have hstart := startOp_empty (next := nextPc ig 3) (e := fun th => { th.setP x.d.toNat false with launching := none }) hf hth
      hkey rfl
    refine ⟨_, hexec.trans (congrArg (fun p => Host.Outcome.next (p.1.deliverFaults p.2)) hstart), ?_⟩
    show Touches _ (State.modThread (State.modThread _ _ _) _ _) ig t _
    rw [modThread_modThread]
    exact touches_modThread (s := { s with nextKey := s.nextKey + 1 }) hf hone fun u hu => ⟨rfl, rfl, Imprints.setP_regs ..⟩
  · have hnoted : noted x q = fun th => { th with launching := some (launchingOf x q) } := by
      funext u
      exact if_neg (by rw [hfull]; simpa using hroom)
    rw [hnoted] at hexec
    obtain ⟨s', hstart, hread⟩ := startOp_record (next := nextPc ig 3)
      (l := launchingOf x q) hf hth hnear hfind rfl hcheck
      (accs := q.pieces.zipIdx.map fun p => pieceAccess n p.1.1 p.1.2 p.2) (by rw [hpieces]; rfl)
    have hctxOf : s'.ctxOf t = s.ctxOf t := by
      obtain ⟨core, hplace⟩ := Collectives.core_of_not_near hnear
      simp only [State.ctxOf, State.launchOf, hplace, hread.launches]
      rfl
    obtain ⟨threads, hteam⟩ := hread.teamAt
    have hdata : (s'.forme k).data = f.data := by
      obtain ⟨rts, hforme⟩ := hread.forme
      rw [State.forme, hforme]
      rfl
    have hplace := placeRecord_some (s := { s' with memops := Tab.del s.nextKey s'.memops })
      (i := { team := ig.team, n }) (t := { t with threads }) hteam hread.thread rfl
      (sum_gathered f.data off 32)
    have hrun := (hexec.trans (congrArg (fun p => Host.Outcome.next (p.1.deliverFaults p.2)) hstart)).trans
      (congrArg (fun u => Host.Outcome.next (State.modThread u { team := ig.team, n } (resume (nextPc ig 3)))) hplace)
    refine ⟨_, placedRecord s' t (launchingOf x q) (readBytes f.data off 512), hrun, ?_, hctxOf, rfl,
      (ctx_record (by rw [hctxOf]; exact hctx)).trans hctxOf, fun j hj hj1 => ?_, hdata,
      hread.hbm, hread.hostMem, _,
      (thread?_modThread_same ..).trans (congrArg (Option.map _) ((thread?_modThread_same ..).trans
        (congrArg (Option.map _) hread.thread))), ?_, rfl, Imprints.setP_regs .., rfl⟩
    · refine (Tab.getD_put ..).trans ((if_pos rfl).trans ?_)
      exact congrArg (· ++ _) (congrArg (Tab.getD · queue []) hread.queues)
    · exact (byte_record (by rw [hctxOf]; exact hctx) hj1).trans (field_readBytes _ _ hj)
    · exact Imprints.setP_preds_congr (th := th) (th' := { th with
        wait := .mem s.nextKey, launching := some { launchingOf x q with got := gathered f.data off 32 } }) rfl x.d.toNat true

end Sys2Proof.Proofs.DeviceLaunch

/-! The passing of time (R41, R45, R330, R355 to R359, R377, R378). -/

namespace Sys2Proof.Proofs.PassingTime

open Sys2Proof Sys2Proof.Machine Sys2Proof.Claims

/-! ### Ticks (R41) -/

theorem nodup_tickingClocks (s : State) : s.tickingClocks.Nodup := by
  have hall : (((List.range 2).flatMap dieClocks) ++ (List.range 12).map platenClock ++ [portClock]).Nodup := by decide +kernel
  refine hall.sublist ?_
  exact ((List.Sublist.flatMap List.filter_sublist _).append_right _).append_right _

/-- Clocks that each tick once. -/
theorem clock_ticks (ks : List Nat) (hks : ks.Nodup) (s : State) (k : Nat) :
    (ks.foldl (fun s k => s.raise k (s.clock k + 1)) s).clock k = if k ∈ ks then s.clock k + 1 else s.clock k := by
  induction ks generalizing s with
  | nil => rfl
  | cons j ks ih =>
    obtain ⟨hj, hks⟩ := List.nodup_cons.1 hks
    rw [List.foldl_cons, ih hks, clock_raise]
    by_cases hk : k = j
    · subst hk
      rw [if_neg hj, if_pos rfl, if_pos List.mem_cons_self]
      exact Nat.max_eq_right (Nat.le_succ _)
    · rw [if_neg hk]
      simp [hk]

theorem ticks_rest (ks : List Nat) (s : State) :
    { ks.foldl (fun s k => s.raise k (s.clock k + 1)) s with clocks := s.clocks } = s := by
  induction ks generalizing s with
  | nil => rfl
  | cons j ks ih =>
    have h := ih (s.raise j (s.clock j + 1))
    exact (congrArg (fun u : State => { u with clocks := s.clocks }) h :)

/-! ### The rebase (R45) -/

theorem back_eq (t : Nat) : back t = t - 2 ^ 61 := by rfl

theorem getD_map_back (t : Tab Nat) (k : Nat) : Tab.getD (t.map fun p => (p.1, back p.2)) k 0 = back (Tab.getD t k 0) := by
  rw [Tab.getD, Tab.getD, Tab.find_map_val (fun _ => back)]
  cases Tab.find k t with
  | none => rw [Option.map_none, Option.getD_none, back_eq, Nat.zero_sub]
  | some v => rw [Option.map_some, Option.getD_some, Option.getD_some]

/-- Keys above a key. -/
theorem find_none_of_lt {α : Type} {k : Nat} {t : Tab α} (h : ∀ p ∈ t, k < p.1) : Tab.find k t = none := by
  cases hfind : Tab.find k t with
  | none => rfl
  | some v => exact absurd (h _ (Tab.mem_of_find hfind)) (Nat.lt_irrefl k)

/-- Entries of 0 need not be listed. -/
theorem getD_filter_zero {t : Tab Nat} (h : Tab.sorted t = true) (k : Nat) :
    Tab.getD (t.filter fun p => p.2 != 0) k 0 = Tab.getD t k 0 := by
  rw [Tab.sorted_iff] at h
  induction t with
  | nil => rfl
  | cons p t ih =>
    obtain ⟨hp, ht⟩ := List.pairwise_cons.1 h
    have hrest := ih ht
    rw [Tab.getD, Tab.getD] at hrest ⊢
    rw [List.filter_cons]
    obtain ⟨j, v⟩ := p
    by_cases hk : k = j
    · subst hk
      have hnone : Tab.find k t = none := find_none_of_lt hp
      by_cases hv : v = 0
      · simp [hv, Tab.find, hrest, hnone]
      · simp [hv, Tab.find]
    · by_cases hv : v = 0
      · simp [hv, Tab.find, hk, hrest]
      · simp [hv, Tab.find, hk, hrest]

/-- A table of times after the rebase. -/
theorem lowered_backTab (t : Tab Nat) : Lowered t (backTab t) := by
  intro hsorted k
  have hmap : Tab.sorted (t.map fun p => (p.1, back p.2)) = true := by
    rw [Tab.sorted_iff] at hsorted ⊢
    exact List.pairwise_map.2 hsorted
  rw [← back_eq]
  exact (getD_filter_zero hmap k).trans (getD_map_back t k)

theorem find_map {α : Type} (f : α → α) (k : Nat) (t : Tab α) :
    Tab.find k (t.map fun p => (p.1, f p.2)) = (Tab.find k t).map f := Tab.find_map_val (fun _ => f) k t

theorem getD_map_list {α : Type} (f : α → α) (k : Nat) (t : Tab (List α)) :
    Tab.getD (t.map fun p => (p.1, p.2.map f)) k [] = (Tab.getD t k []).map f := by
  rw [Tab.getD, Tab.getD, find_map]
  cases Tab.find k t <;> rfl

section
variable (s : State) (busy : Busy)

theorem home_rebased (h : Nat) : ({ s.rebased with busy } : State).home h = (s.home h).rebased := by
  show Tab.getD (s.homes.map _) h {} = (Tab.getD s.homes h {}).rebased
  rw [Tab.getD, Tab.getD, find_map]
  cases Tab.find h s.homes with
  | none => rfl
  | some g => rfl

theorem region_rebased (r : Nat) : ({ s.rebased with busy } : State).region r = (s.region r).rebased := by
  show Tab.getD (s.regions.map _) r {} = (Tab.getD s.regions r {}).rebased
  rw [Tab.getD, Tab.getD, find_map]
  cases Tab.find r s.regions with
  | none => rfl
  | some g => rfl

/-- The owned copies, and no other, stay. -/
theorem find_copies_rebased (g : Region) (ln : Nat) : Tab.find ln g.rebased.copies =
    (Tab.find ln (g.copies.filter fun p => p.2.owned)).map Copy.rebased := find_map _ _ _

/-- The first listed copy stays where it is owned. -/
theorem find_filter_owned {t : Tab Copy} {ln : Nat} {c : Copy} (h : Tab.find ln t = some c) (ho : c.owned = true) :
    Tab.find ln (t.filter fun p => p.2.owned) = some c := by
  induction t with
  | nil => cases h
  | cons p t ih =>
    obtain ⟨j, c'⟩ := p
    by_cases hj : ln = j
    · obtain rfl : c' = c := by simpa [Tab.find, hj] using h
      simp [ho, hj]
    · have hrest := ih (by simpa [Tab.find, hj] using h)
      rw [List.filter_cons]
      split
      · simpa [Tab.find, hj] using hrest
      · exact hrest

theorem memoryRebased : MemoryRebased s { s.rebased with busy } := by
  simp only [MemoryRebased, ← back_eq, -Nat.reducePow]
  refine ⟨fun h => ?_, fun h ln l hl => ?_, fun r ln c hc => ?_, fun r ln c hc ho => ?_, fun k f hf => ?_, fun k p hp => ?_,
    ?_⟩
  · rw [home_rebased, Home.rebased]
  · rw [home_rebased]
    exact ⟨l.rebased, (find_map HomeLine.rebased ln _).trans (congrArg _ hl), by rw [HomeLine.rebased],
      by rw [HomeLine.rebased], by rw [HomeLine.rebased], by rw [HomeLine.rebased]⟩
  · rw [region_rebased, find_copies_rebased] at hc
    obtain ⟨c', hc', rfl⟩ := Option.map_eq_some_iff.1 hc
    rw [Copy.rebased]
    exact (List.mem_filter.1 (Tab.mem_of_find hc')).2
  · rw [region_rebased, find_copies_rebased, find_filter_owned hc ho, Option.map_some, Copy.rebased]
  · exact ⟨f.rebased, (find_map Forme.rebased k _).trans (congrArg _ hf), rfl, rfl, lowered_backTab _, lowered_backTab _,
      lowered_backTab _, lowered_backTab _⟩
  · exact ⟨p.rebased, (find_map Platen.rebased k _).trans (congrArg _ hp), by rw [Platen.rebased],
      fun ln => find_map back ln p.wts, fun ln => find_map back ln p.rts, fun c => find_map (fun c : Call => { c with
        time := back c.time, returned := back c.returned }) c p.calls⟩
  · exact ⟨rfl, rfl⟩

theorem thread?_rebased (i : Tid) : ({ s.rebased with busy } : State).thread? i = (s.thread? i).map Thread.rebased := by
  have hteam : ({ s.rebased with busy } : State).team? i.team = (s.team? i.team).map Team.rebased := find_map _ _ _
  rw [State.thread?, hteam, State.thread?]
  cases s.team? i.team with
  | none => rfl
  | some t => exact find_map Thread.rebased i.n t.threads

theorem agentsRebased : AgentsRebased s { s.rebased with busy } := by
  simp only [AgentsRebased, ← back_eq, -Nat.reducePow]
  exact ⟨lowered_backTab _, lowered_backTab _, fun k => find_map Job.rebased k s.jobs,
    fun k => find_map (fun l : Launch => { l with time := back l.time, after := back l.after }) k s.launches,
    fun k => find_map (fun e : Imprint => { e with time := back e.time }) k s.imprints,
    fun k => find_map (fun b : Boundary => { b with time := back b.time }) k s.boundaries,
    fun k => getD_map_list (fun e : TlbEntry => { e with time := back e.time }) k s.tlbs,
    fun q => getD_map_list (fun r : DevRecord => { r with time := back r.time }) q s.devQueues, thread?_rebased s busy⟩

end

/-! ### Windows, ages, the watchdog -/

/-- R41: every running clock rises by one. -/
theorem clockTick {s : State} (h : s.ticks < s.cycle / 64) : ∃ s', exec .clockTick s = .next s' ∧
    (∀ k, s'.clock k = if k ∈ s.tickingClocks then s.clock k + 1 else s.clock k) ∧ s'.ticks = s.ticks + 1 ∧
    { s' with clocks := s.clocks, ticks := s.ticks } = s := by
  have hrest := ticks_rest s.tickingClocks { s with ticks := s.ticks + 1 }
  refine ⟨s.tickingClocks.foldl (fun s k => s.raise k (s.clock k + 1)) { s with ticks := s.ticks + 1 }, if_pos h,
    fun k => clock_ticks s.tickingClocks (nodup_tickingClocks s) _ k, (congrArg State.ticks hrest :), ?_⟩
  exact (congrArg (fun u : State => { u with ticks := s.ticks }) hrest :)

/-- R45: a clock that has come to its limit starts the rebase. -/
theorem clockRebase {s : State} {k : Nat} (hbusy : s.busy.rebase = false) (h : 2 ^ 62 - 2 ^ 20 ≤ s.clock k) :
    exec .clockRebase s = .next { s with busy := { s.busy with rebase := true } } := by
  have hdue : s.rebaseDue = true := by
    rw [State.clock, Tab.getD] at h
    cases hfind : Tab.find k s.clocks with
    | none => rw [hfind] at h; exact absurd h (by decide)
    | some t =>
      rw [hfind] at h
      exact Bool.or_eq_true_iff.2 (.inl (List.any_eq_true.2 ⟨_, Tab.mem_of_find hfind, decide_eq_true h⟩))
  show execClockRebase s = _
  rw [execClockRebase, hbusy, hdue]
  rfl

/-- R359, R418: the grants of a window. -/
theorem powerWindow {s : State} {die : Nat} (hpower : s.hasPower die = true) (hdue : Tab.getD s.windows die 0 ≤ s.cycle) :
    ∃ s', exec (.powerWindow die) s = .next s' ∧
    64 ≤ Tab.getD s'.grants die 0 ∧ (Tab.getD s.throttled die false = true → Tab.getD s'.grants die 0 = 64) ∧
    (∀ k, dieOf (k / 4) = die → Tab.getD s'.starts k 0 = 0) ∧
    Tab.getD s'.windows die 0 = (s.cycle / 2700 + 1) * 2700 ∧ s'.teams = s.teams := by
  have hgo : (s.hasPower die && decide (Tab.getD s.windows die 0 ≤ s.cycle)) = true := by rw [hpower, decide_eq_true hdue]; rfl
  obtain ⟨more, hmore⟩ : ∃ more, more =
    if Tab.getD s.throttled die false then 0 else Config.freeNat s.oracle := ⟨_, rfl⟩
  refine ⟨{ s with
    oracle := s.oracle + 1, grants := Tab.put die (64 + more) s.grants
    starts := s.starts.filter fun p => dieOf (p.1 / 4) != die
    windows := Tab.put die ((s.cycle / 2700 + 1) * 2700) s.windows }, ?_, ?_, fun hthrottled => ?_, fun k hk => ?_, ?_, rfl⟩
  · subst hmore
    exact if_pos hgo
  · show 64 ≤ Tab.getD (Tab.put die (64 + more) s.grants) die 0
    rw [Tab.getD_put, if_pos rfl]
    exact Nat.le_add_right 64 more
  · show Tab.getD (Tab.put die (64 + more) s.grants) die 0 = 64
    rw [Tab.getD_put, if_pos rfl, hmore, if_pos hthrottled]
  · show Tab.getD (s.starts.filter fun p => dieOf (p.1 / 4) != die) k 0 = 0
    rw [Tab.getD, Tab.find_filter_key fun j => dieOf (j / 4) != die, if_neg (by simp [hk])]
    rfl
  · show Tab.getD (Tab.put die ((s.cycle / 2700 + 1) * 2700) s.windows) die 0 = _
    rw [Tab.getD_put, if_pos rfl]

/-- A thread that becomes urgent if it is an old one of the partition (R356). -/
def agedThread (core part : Nat) (t : Team) (n : Nat) (th : Thread) : Thread :=
  { th with urgent := th.urgent || (t.onPart core part n && decide (512 ≤ th.age) && !th.urgent) }

/-- A team whose old threads of a partition have become urgent. -/
def aged (core part : Nat) (t : Team) : Team := { t with threads := t.threads.map fun q => (q.1, agedThread core part t q.1 q.2) }

/-- R356: the threads of a partition that are old become urgent together. -/
theorem ageUrgent {s : State} {core part : Nat} {i : Tid} {t : Team} {th : Thread} (hteam : s.team? i.team = some t)
    (hth : Tab.find i.n t.threads = some th) (hplace : t.place = .core core) (hpart : t.part i.n = part) (hage : 512 ≤ th.age)
    (hurgent : th.urgent = false) :
    ∃ s', exec (.ageUrgent core part) s = .next s' ∧
      (∀ (j : Tid) tj u, s.team? j.team = some tj → s.thread? j = some u → s'.thread? j = some { u with
          urgent := u.urgent || (decide (tj.place = .core core) && decide (tj.part j.n = part) && decide (512 ≤ u.age)) }) ∧
      (∀ k, (s'.team? k).map shell = (s.team? k).map shell) ∧ { s' with teams := s.teams } = s := by
  have hold : (s.teams.any fun (_, t) => t.threads.any fun (n, th) =>
      t.onPart core part n && decide (512 ≤ th.age) && !th.urgent) = true := by
    refine List.any_eq_true.2 ⟨_, Tab.mem_of_find hteam, List.any_eq_true.2 ⟨_, Tab.mem_of_find hth, ?_⟩⟩
    simp [Team.onPart, hplace, hpart, hage, hurgent]
  have hteams : ∀ k, ({ s with teams := s.teams.map fun p => (p.1, aged core part p.2) } : State).team? k =
      (s.team? k).map (aged core part) := fun k => find_map _ _ _
  refine ⟨{ s with teams := s.teams.map fun p => (p.1, aged core part p.2) }, if_pos hold, fun j tj u hj hu => ?_,
    fun k => ?_, rfl⟩
  · obtain ⟨tj', hj', hu'⟩ := Option.bind_eq_some_iff.1 hu
    obtain rfl : tj' = tj := Option.some.inj (hj'.symm.trans hj)
    rw [State.thread?, hteams, hj, Option.map_some, Option.bind_some]
    refine (Tab.find_map_val (agedThread core part tj') j.n tj'.threads).trans ?_
    have hbool : ∀ a b : Bool, (a || (b && !a)) = (a || b) := by decide
    rw [hu', Option.map_some, agedThread, hbool, Team.onPart]
    rfl
  · rw [hteams]
    cases s.team? k <;> rfl

theorem becomes_modThread {s : State} {i : Instr} {team n : Nat} {th : Thread} {e : Thread → Thread}
    (hth : s.thread? { team, n } = some th) (h : exec i s = .next (s.modThread { team, n } e)) : ∃ s', exec i s = .next s' ∧
      s'.thread? { team, n } = some (e th) ∧ (∀ j : Tid, j ≠ { team, n } → s'.thread? j = s.thread? j) ∧
      { s' with teams := s.teams } = s :=
  ⟨_, h, by rw [thread?_modThread_same, hth]; rfl, fun j hj => thread?_modThread_other s hj e, rfl⟩

theorem hostEvent_rest (s : State) (e : HostEvent) : (s.hostEvent e).launches = s.launches ∧ (s.hostEvent e).teams = s.teams ∧
    (s.hostEvent e).hbm = s.hbm := by
  obtain ⟨hteams, hlaunches, -⟩ := SoftwareTraps.keepsRuns_hostEvent s e
  exact ⟨hlaunches, hteams, (Imprints.stirred_hostEvent s e).2.2.1⟩

/-- R377: no record is written where the ring is off. -/
theorem hostEvent_off {s : State} {e : HostEvent} (h : Bits.bit (s.reg evtCtl) 31 = false) : s.hostEvent e = s := by
  rw [State.hostEvent, h]
  rfl

/-- The state with an event record written. -/
def recorded (s : State) (a n bits tail : Nat) : State :=
  let s' := (s.writeHost a n bits).setRegField evtCtl 16 12 tail
  { s' with port := { s'.port with msix := s'.port.msix ++ [3] } }

theorem recorded_hostMem (s : State) (a n bits tail : Nat) :
    (recorded s a n bits tail).hostMem = writeBytes s.hostMem a n bits := rfl

theorem recorded_msix (s : State) (a n bits tail : Nat) : (recorded s a n bits tail).port.msix = s.port.msix ++ [3] := rfl

/-- R377: a record in a ring that is on and has room. -/
theorem hostEvent_written {s : State} {e : HostEvent} (hon : Bits.bit (s.reg evtCtl) 31 = true)
    (hroom : (Bits.field (s.reg evtCtl) 16 12 + 1) % 4096 ≠ Bits.field (s.reg evtCtl) 0 12) :
    (s.hostEvent e).port.msix = s.port.msix ++ [3] ∧
      Stored s.hostMem (s.hostEvent e).hostMem (s.reg 0x105000 / 4096 * 4096 + 64 * Bits.field (s.reg evtCtl) 16 12) 64
        e.bits := by
  have hrun : s.hostEvent e = recorded s (s.reg 0x105000 / 4096 * 4096 + 64 * Bits.field (s.reg evtCtl) 16 12) 64 e.bits
      ((Bits.field (s.reg evtCtl) 16 12 + 1) % 4096) := by
    rw [State.hostEvent, hon]
    exact (if_neg Bool.false_ne_true).trans (if_neg hroom)
  rw [hrun, recorded_hostMem, recorded_msix]
  exact ⟨rfl, getD_writeBytes s.hostMem _ 64 e.bits⟩

/-- R377, R378: the watchdog warns once, by an event record where the ring is on and has room. -/
theorem watchdog {s : State} {k : Nat} {l : Launch} (hfind : Tab.find k s.launches = some l)
    (hlimit : s.reg 0x105010 % 2 ^ 16 ≠ 0)
    (hwarned : l.warned = false) (hidle : l.idleSince + s.reg 0x105010 % 2 ^ 16 * 2 ^ 20 ≤ s.cycle) :
    ∃ s', exec (.watchdog k) s = .next s' ∧ Tab.find k s'.launches = some { l with warned := true } ∧
      s'.teams = s.teams ∧ s'.hbm = s.hbm ∧
      (Bits.bit (s.reg 0x105008) 31 = false → s'.hostMem = s.hostMem) ∧
      (Bits.bit (s.reg 0x105008) 31 = true →
        (Bits.field (s.reg 0x105008) 16 12 + 1) % 4096 ≠ Bits.field (s.reg 0x105008) 0 12 →
        s'.port.msix = s.port.msix ++ [3] ∧
          Stored s.hostMem s'.hostMem (s.reg 0x105000 / 4096 * 4096 + 64 * Bits.field (s.reg 0x105008) 16 12) 64
            (HostEvent.bits { kind := 5, code := 0x23, launch := l.id })) := by
  obtain ⟨s1, hs1⟩ : ∃ s1 : State, s1 =
    { s with launches := Tab.put k { l with warned := true } s.launches } := ⟨_, rfl⟩
  have hrun : exec (.watchdog k) s = .next (s1.hostEvent { kind := 5, code := Code.watchdog, launch := l.id }) := by
    show execWatchdog k s = _
    rw [execWatchdog, hfind, hs1]
    exact if_pos ⟨hlimit, by rw [hwarned]; rfl, hidle⟩
  obtain ⟨hlaunches, hteams, hhbm⟩ := hostEvent_rest s1 { kind := 5, code := Code.watchdog, launch := l.id }
  have hwritten := hostEvent_written (s := s1) (e := { kind := 5, code := Code.watchdog, launch := l.id })
  have hoff := hostEvent_off (s := s1) (e := { kind := 5, code := Code.watchdog, launch := l.id })
  refine ⟨_, hrun, by rw [hlaunches, hs1]; exact Tab.find_put_same .., by rw [hteams, hs1], by rw [hhbm, hs1], fun h => ?_,
    fun hon hroom => ?_⟩
  · rw [hoff (by rw [hs1]; exact h), hs1]
  · rw [hs1] at hwritten ⊢
    exact hwritten hon hroom

theorem signals_eventMsixSignal : Signals .eventMsixSignal 3 := by
  intro s h
  refine ⟨{ s with port := { s.port with
    msix := s.port.msix.erase 3, signalled := Tab.set 0 3 (Tab.getD s.port.signalled 3 0 + 1) s.port.signalled } }, ?_, rfl,
    ?_, rfl⟩
  rotate_left
  · exact Tab.getD_set_same 0 3 (Tab.getD s.port.signalled 3 0 + 1) s.port.signalled
  show execEventMsixSignal s = _
  rw [execEventMsixSignal, State.signalMsix, if_pos h]

/-- Settles O48: the rebase maps every table entry by entry; the other steps act at once. -/
theorem passingTime : Obligations.PassingTime := by
  refine ⟨fun s h => clockTick h, fun s k hbusy h => clockRebase hbusy h, fun s hbusy hready => ?_,
    fun s die hpower hdue => powerWindow hpower hdue,
    fun s core part i t th hteam hth hplace hpart hage hurgent => ageUrgent hteam hth hplace hpart hage hurgent,
    fun s team n th due hth hdue => ⟨fun h => ?_, fun h => ?_⟩,
    fun s k l => watchdog, signals_eventMsixSignal⟩
  · refine ⟨{ s.rebased with busy := { s.busy with rebase := false } }, ?_, rfl, memoryRebased s _, agentsRebased s _⟩
    show execRebaseComplete s = _
    rw [execRebaseComplete, hbusy, hready]
    rfl
  · refine becomes_modThread (e := fun th => { th with deferred := none }) hth ?_
    show execYieldExpire team n s = _
    rw [execYieldExpire, show (s.thread? { team, n }).bind Thread.deferred = some due by rw [hth]; exact h]
    exact if_pos hdue
  · refine becomes_modThread (e := fun th => { th with
      demoted := none, spins := th.spins.map fun x => { x with demotes := false } }) hth ?_
    show execDemotionExpire team n s = _
    rw [execDemotionExpire, show (s.thread? { team, n }).bind Thread.demoted = some due by rw [hth]; exact h]
    exact if_pos hdue

end Sys2Proof.Proofs.PassingTime

/-! Walks, fault records and replies, retries, invalidation (R28 to R31, R297, R371). -/

namespace Sys2Proof.Proofs.PageWalks

open Sys2Proof Sys2Proof.Machine Sys2Proof.Claims
open Sys2Proof.Proofs.Sweeps Sys2Proof.Proofs.PassingTime

/-! ### A change of every thread -/

section
variable (s : State) (f : Thread → Thread)

theorem team?_mapThreads (k : Nat) : (s.mapThreads f).team? k =
    (s.team? k).map fun t => { t with threads := t.threads.map fun p => (p.1, f p.2) } :=
  find_map (fun t : Team => { t with threads := t.threads.map fun p => (p.1, f p.2) }) k s.teams

theorem thread?_mapThreads (i : Tid) : (s.mapThreads f).thread? i = (s.thread? i).map f := by
  rw [State.thread?, team?_mapThreads, State.thread?]
  cases s.team? i.team with
  | none => rfl
  | some t => exact find_map f i.n t.threads

theorem shell_mapThreads (k : Nat) : ((s.mapThreads f).team? k).map shell = (s.team? k).map shell := by
  rw [team?_mapThreads]
  cases s.team? k <;> rfl

end

/-! ### Translations installed -/

/-- A translation is in its TLB once it is installed there, whatever leaves. -/
theorem mem_tlbFill_same (s : State) (k : Nat) (e : TlbEntry) : e ∈ Tab.getD (s.tlbFill k e).tlbs k [] := by
  rw [State.tlbFill, Tab.getD_put, if_pos rfl]
  have hsize : 1 ≤ tlbSize k := by
    unfold tlbSize
    split
    · decide
    · split <;> decide
  rw [List.drop_append, List.mem_append]
  right
  rw [show ∀ n, n = 0 → List.drop n [e] = [e] from fun n h => by rw [h]; rfl]
  · exact List.mem_singleton.2 rfl
  · rw [List.length_append, List.length_singleton]
    omega

theorem mem_tlbFill (s : State) (k j : Nat) (e : TlbEntry) (h : e ∈ Tab.getD s.tlbs j []) :
    e ∈ Tab.getD (s.tlbFill k e).tlbs j [] := by
  by_cases hj : j = k
  · subst hj
    exact mem_tlbFill_same s j e
  · rw [State.tlbFill, Tab.getD_put, if_neg hj]
    exact h

theorem mem_tlbFills (e : TlbEntry) (j : Nat) : ∀ (ks : List Nat) (s : State), j ∈ ks ∨ e ∈ Tab.getD s.tlbs j [] →
    e ∈ Tab.getD (ks.foldl (fun s k => s.tlbFill k e) s).tlbs j [] := by
  intro ks
  induction ks with
  | nil => exact fun s h => h.resolve_left List.not_mem_nil
  | cons k ks ih =>
    intro s h
    refine ih _ ?_
    rcases h with h | h
    · rcases List.mem_cons.1 h with rfl | h
      · exact .inr (mem_tlbFill_same s j e)
      · exact .inl h
    · exact .inr (mem_tlbFill s k j e h)

/-! ### What a walk's end leaves as it was -/

/-- Teams, launches, missing pages and memories are the same. -/
def Aside (s s' : State) : Prop :=
  s'.teams = s.teams ∧ s'.launches = s.launches ∧ s'.misses = s.misses ∧ s'.hbm = s.hbm ∧ s'.hostMem = s.hostMem

theorem Aside.refl (s : State) : Aside s s := ⟨rfl, rfl, rfl, rfl, rfl⟩

theorem Aside.trans {s s' s'' : State} (h : Aside s s') (h' : Aside s' s'') : Aside s s'' := by
  obtain ⟨a, b, c, d, e⟩ := h
  obtain ⟨a', b', c', d', e'⟩ := h'
  exact ⟨a'.trans a, b'.trans b, c'.trans c, d'.trans d, e'.trans e⟩

theorem aside_foldl {α : Type} {F : State → α → State} (h : ∀ s a, Aside s (F s a)) (l : List α) (s : State) :
    Aside s (l.foldl F s) := by
  induction l generalizing s with
  | nil => exact Aside.refl s
  | cons a l ih => exact (h s a).trans (ih _)

theorem aside_tlbFills (e : TlbEntry) (ks : List Nat) (s : State) : Aside s (ks.foldl (fun s k => s.tlbFill k e) s) :=
  aside_foldl (F := fun s k => s.tlbFill k e) (fun _ _ => ⟨rfl, rfl, rfl, rfl, rfl⟩) ks s

/-- A requester's clock rises to the walk's time; translations stay. -/
theorem aside_afterWalk (s : State) (r : Requester) (time : Nat) :
    Aside s (s.afterWalk r time) ∧ (s.afterWalk r time).tlbs = s.tlbs := by
  unfold State.afterWalk
  split
  · split <;> exact ⟨⟨rfl, rfl, rfl, rfl, rfl⟩, rfl⟩
  all_goals exact ⟨⟨rfl, rfl, rfl, rfl, rfl⟩, rfl⟩

theorem aside_afterWalks (rs : List Requester) (time : Nat) (s : State) :
    Aside s (rs.foldl (fun s r => s.afterWalk r time) s) ∧ (rs.foldl (fun s r => s.afterWalk r time) s).tlbs = s.tlbs := by
  induction rs generalizing s with
  | nil => exact ⟨Aside.refl s, rfl⟩
  | cons r rs ih =>
    obtain ⟨haside, htlbs⟩ := aside_afterWalk s r time
    obtain ⟨haside', htlbs'⟩ := ih (s.afterWalk r time)
    exact ⟨haside.trans haside', htlbs'.trans htlbs⟩

/-- What one requester joined to an entry does at its end (R31, R33). -/
def unstalled (denied : Option Trap) (s : State) (r : Requester) : State :=
  match r with
  | .job j => { s with jobs := Tab.modify j (fun j => { j with stalled := false, denied }) s.jobs }
  | .launcher q => { s with replyWait := Tab.put q (if denied.isSome then 2 else 0) s.replyWait }
  | .call stack call => match denied with
    | some t => s.callFault stack call { t with addr := s.callDesc stack call }
    | none => s
  | .thread _ => s

theorem unstall_eq (s : State) (m : Miss) (denied : Option Trap) : s.unstall m denied = m.joined.foldl (unstalled denied) s := rfl

theorem aside_unstall (s : State) (m : Miss) (denied : Option Trap) :
    Aside s (s.unstall m denied) ∧ (s.unstall m denied).tlbs = s.tlbs := by
  have hstep : ∀ s r, Aside s (unstalled denied s r) ∧ (unstalled denied s r).tlbs = s.tlbs := by
    intro s r
    unfold unstalled
    split
    · exact ⟨⟨rfl, rfl, rfl, rfl, rfl⟩, rfl⟩
    · exact ⟨⟨rfl, rfl, rfl, rfl, rfl⟩, rfl⟩
    · split <;> exact ⟨⟨rfl, rfl, rfl, rfl, rfl⟩, rfl⟩
    · exact ⟨⟨rfl, rfl, rfl, rfl, rfl⟩, rfl⟩
  rw [unstall_eq]
  generalize m.joined = rs
  induction rs generalizing s with
  | nil => exact ⟨Aside.refl s, rfl⟩
  | cons r rs ih =>
    obtain ⟨haside, htlbs⟩ := hstep s r
    obtain ⟨haside', htlbs'⟩ := ih (unstalled denied s r)
    exact ⟨haside.trans haside', htlbs'.trans htlbs⟩

theorem Aside.thread? {s s' : State} (h : Aside s s') (i : Tid) : s'.thread? i = s.thread? i := by
  rw [State.thread?, State.thread?, State.team?, State.team?, h.1]

/-! ### Success -/

/-- A thread that awaits one walk alone is ready to replay at its end. -/
theorem walked_last {th : Thread} {own : Option Nat} {va e : Nat} (h : th.wait = .walk own va [e]) :
    th.walked e = { th with wait := .ready } := by
  simp [Thread.walked, h]

/-- An entry released with success (R28, R31). -/
theorem replays_releaseMiss {s s1 : State} (h : Aside s s1) (e : Nat) (m : Miss) :
    Replays s (s1.releaseMiss e m) e ∧ (s1.releaseMiss e m).tlbs = s1.tlbs := by
  obtain ⟨haside, htlbs⟩ := aside_unstall s1 m none
  have hall := h.trans haside
  obtain ⟨hteams, -, hmisses, hhbm, hhost⟩ := id hall
  refine ⟨⟨?_, hhbm, hhost, fun i th own va hth hwait => ?_⟩, htlbs⟩
  · show Tab.find e (Tab.del e _) = none
    rw [Tab.find_del, if_pos rfl]
  · refine (thread?_mapThreads _ _ i).trans ?_
    have hthread : ({ s1.unstall m none with misses := Tab.del e (s1.unstall m none).misses } : State).thread? i = some th :=
      (hall.thread? i).trans hth
    rw [hthread, Option.map_some, walked_last hwait]

/-! ### Denial -/

/-- The same pages are missing. -/
def SameMisses (s s' : State) : Prop := s'.misses = s.misses

theorem SameMisses.trans {s s' s'' : State} (h : SameMisses s s') (h' : SameMisses s' s'') : SameMisses s s'' := Eq.trans h' h

theorem sameMisses_foldl {α : Type} {F : State → α → State} (h : ∀ s a, SameMisses s (F s a)) (l : List α) (s : State) :
    SameMisses s (l.foldl F s) := by
  induction l generalizing s with
  | nil => exact rfl
  | cons a l ih => exact (h s a).trans (ih _)

theorem sameMisses_setRegField (s : State) (off lo w v : Nat) : SameMisses s (s.setRegField off lo w v) := rfl

theorem sameMisses_writeHost (s : State) (pa n v : Nat) : SameMisses s (s.writeHost pa n v) := rfl

theorem sameMisses_withPort (s : State) (p : Port) : SameMisses s { s with port := p } := rfl

theorem sameMisses_hostEvent (s : State) (e : HostEvent) : SameMisses s (s.hostEvent e) := by
  unfold State.hostEvent
  simp only
  split
  · exact rfl
  · split
    · exact sameMisses_setRegField _ _ _ _ _
    · exact ((sameMisses_writeHost _ _ _ _).trans (sameMisses_setRegField _ _ _ _ _)).trans (sameMisses_withPort _ _)

theorem sameMisses_modThread (s : State) (i : Tid) (f : Thread → Thread) : SameMisses s (s.modThread i f) := rfl

theorem sameMisses_threadsGoOn (s : State) (op : MemOp) (ns : List Nat) : SameMisses s (s.threadsGoOn op ns) := by
  unfold State.threadsGoOn
  refine .trans ?_ (sameMisses_foldl (fun s n => sameMisses_modThread s _ _) ns _)
  split
  · refine sameMisses_foldl (fun s n => ?_) ns s
    unfold State.placeRecord
    split <;> exact rfl
  · exact rfl

theorem sameMisses_rewindOps (s : State) (k : Nat) : SameMisses s (s.rewindOps k) := by
  refine sameMisses_foldl (fun s p => ?_) s.memops s
  obtain ⟨key, op⟩ := p
  simp only
  split
  · exact rfl
  · have hundone := sameMisses_foldl (F := fun s n => s.modThread { team := k, n } fun th =>
      if th.wait == .mem key then { th with wait := .ready, launching := none } else th)
      (fun s n => sameMisses_modThread s _ _) (op.accs.map Access.tid) s
    split
    · exact hundone.trans (sameMisses_threadsGoOn _ _ _)
    · exact hundone

theorem sameMisses_deliver (s : State) (i : Tid) (x : Trap) (next : Nat) : SameMisses s (s.deliver i x next) := by
  unfold State.deliver
  split
  · exact rfl
  split
  · exact rfl
  split
  · exact rfl
  simp only
  split
  · exact rfl
  split
  · exact (sameMisses_hostEvent s _).trans (sameMisses_rewindOps _ _)
  · exact rfl

/-- One thread parked on an entry meets its fault. -/
def refusedAt (x : Trap) (s : State) (p : Tid × Nat) : State :=
  (s.modThread p.1 fun th => { th with wait := .ready }).deliver p.1 { x with addr := p.2 } 0

theorem refuseMiss_eq (s : State) (e : Nat) (m : Miss) (x : Trap) : s.refuseMiss e m x =
    ((s.parkedOn e).foldl (refusedAt x) { s.unstall m (some x) with misses := Tab.del e (s.unstall m (some x)).misses }).mapThreads
      fun th => th.walked e := rfl

/-- An entry released with a fault: the one thread parked on it enters the trap vector (R28, R31). -/
theorem denied_refuseMiss (s : State) (e : Nat) (m : Miss) {x : Trap} (hcode : x.code ≠ 0x17 ∧ x.code ≠ 0x18) :
    Denied s (s.refuseMiss e m x) e x.code x.info := by
  obtain ⟨haside, -⟩ := aside_unstall s m (some x)
  obtain ⟨hteams, hlaunches, hmisses, hhbm, hhost⟩ := id haside
  rw [refuseMiss_eq]
  obtain ⟨s1, hs1⟩ : ∃ s1, s1 = { s.unstall m (some x) with misses := Tab.del e (s.unstall m (some x)).misses } := ⟨_, rfl⟩
  rw [← hs1]
  refine ⟨?_, ?_, fun i va t th hparked hteam hnear hstop hvec hth hhandler => ?_⟩
  · have hsame : SameMisses s1 ((s.parkedOn e).foldl (refusedAt x) s1) :=
      sameMisses_foldl (F := refusedAt x) (fun s p => (sameMisses_modThread s p.1 _).trans (sameMisses_deliver _ _ _ _)) _ s1
    show Tab.find e ((s.parkedOn e).foldl (refusedAt x) s1).misses = none
    rw [hsame, hs1, Tab.find_del, if_pos rfl]
  · have hsame : KeepsMemory s1 ((s.parkedOn e).foldl (refusedAt x) s1) :=
      KeepsMemory.foldl (f := refusedAt x) (fun s p => (keepsMemory_modThread s p.1 _).trans (keepsMemory_deliver _ _ _ _)) _ s1
    exact hsame.1.trans (by rw [hs1]; exact hhbm)
  · obtain ⟨s2, hs2⟩ : ∃ s2, s2 = s1.modThread i fun th => { th with wait := .ready } := ⟨_, rfl⟩
    have hteam2 : s2.team? i.team = some (t.modThread i.n fun th => { th with wait := .ready }) := by
      have hteam1 : s1.team? i.team = some t := by rw [State.team?, hs1]; exact (congrArg (Tab.find i.team) hteams).trans hteam
      rw [hs2, team?_modThread, if_pos rfl, hteam1]
      rfl
    have hth2 : Tab.find i.n (t.modThread i.n fun th => { th with wait := .ready }).threads = some { th with wait := .ready } :=
      (Tab.find_modify_same ..).trans (congrArg (Option.map _) hth)
    have hvec2 : s2.trapVec (t.modThread i.n fun th => { th with wait := .ready }) = s.trapVec t := by
      obtain ⟨core, hplace⟩ := Collectives.core_of_not_near hnear
      simp only [State.trapVec, State.launchOf, Team.modThread, hplace]
      rw [hs2, hs1]
      exact congrArg (fun l => ((Tab.find t.launch l).map fun l => recField l.record 192 64).getD 0) hlaunches
    have hdeliver := Collectives.deliver_enters (next := 0) { x with addr := va } hteam2 hth2 hnear hstop (hvec2.symm ▸ hvec) hhandler
      (SameBut.same s2) rfl
    have hrun : (s.parkedOn e).foldl (refusedAt x) s1 = s2.modThread i fun th' =>
        th'.enter { x with addr := va } th.pc.toNat (s.trapVec t) := by
      rw [hparked, ← hvec2, ← Issue.tpc_precise (x := { x with addr := va }) hcode th.pc.toNat 0]
      subst hs2
      exact hdeliver
    rw [hrun]
    refine ⟨by rw [hs2, hs1]; exact hhost, ?_⟩
    have hthread : s2.thread? i = some { th with wait := .ready } := thread?_of_find hteam2 hth2
    refine ⟨_, (thread?_mapThreads _ _ i).trans (congrArg (Option.map _) ((thread?_modThread_same ..).trans
      (congrArg (Option.map _) hthread))), ?_⟩
    exact Issue.trapped_enter th { x with addr := va } th.pc.toNat (s.trapVec t)

theorem protection_code (reason va : Nat) : (protection reason va).code ≠ 0x17 ∧ (protection reason va).code ≠ 0x18 := by
  rw [show (protection reason va).code = 6 from rfl]
  decide

/-! ### The ends of a walk -/

section
variable {s s1 : State} {e : Nat} {m : Miss} {time : Nat}

/-- The TLBs that a translation enters. -/
def walkTlbs (s : State) (e : Nat) (m : Miss) : List Nat :=
  let tlbs := (m.joined.map fun r => s.tlbOf (e / 4096) r).eraseDups
  if tlbs.isEmpty then [dieTlb (e / 4096)] else tlbs

theorem tlbOf_mem_walkTlbs {r : Requester} (h : r ∈ m.joined) : s.tlbOf (e / 4096) r ∈ walkTlbs s e m := by
  have hmem : s.tlbOf (e / 4096) r ∈ (m.joined.map fun r => s.tlbOf (e / 4096) r).eraseDups :=
    List.mem_eraseDups.2 (List.mem_map_of_mem h)
  rw [walkTlbs, if_neg]
  · exact hmem
  · intro hempty
    rw [List.isEmpty_iff.1 hempty] at hmem
    exact List.not_mem_nil hmem

theorem walkEnds_leaf {size pte : Nat} (h : s.walkFrom m.ctx m.va = (s1, .leaf size pte, time)) : s.walkEnds e m =
    (m.joined.foldl (fun s r => s.afterWalk r time) ((walkTlbs s1 e m).foldl (fun s k => s.tlbFill k
      { ctx := m.ctx, va := m.va / size * size, size, pte, time }) s1)).releaseMiss e m := by
  rw [State.walkEnds, h]
  rfl

theorem walkEnds_malformed (h : s.walkFrom m.ctx m.va = (s1, .malformed, time)) :
    s.walkEnds e m = s1.refuseMiss e m (protection 5 m.va) := by
  rw [State.walkEnds, h]

/-- The state with a fault record written. -/
def faulted (s : State) (e : Nat) (m : Miss) (seq a n : Nat) : State :=
  let s' := ({ s with slotSeq := Tab.set 0 e seq s.slotSeq } : State).writeHost a n (faultRecord m e seq)
  { s' with misses := Tab.put e { m with reported := true } s'.misses, port := { s'.port with msix := s'.port.msix ++ [1] } }

theorem walkEnds_absent (h : s.walkFrom m.ctx m.va = (s1, .absent, time)) : s.walkEnds e m =
    (faulted s1 e m ((Tab.getD s1.slotSeq e 0 + 1) % 2 ^ 32) (Bits.field (s1.reg 0x100208) 8 44 * 2 ^ 8 + 32 * e) 32).mapThreads
      fun th => th.missing e := by
  rw [State.walkEnds, h]
  rfl

theorem faulted_parts (s : State) (e : Nat) (m : Miss) (seq a n : Nat) :
    (faulted s e m seq a n).misses = Tab.put e { m with reported := true } s.misses ∧
      (faulted s e m seq a n).slotSeq = Tab.set 0 e seq s.slotSeq ∧
      (faulted s e m seq a n).hostMem = writeBytes s.hostMem a n (faultRecord m e seq) ∧
      (faulted s e m seq a n).port.msix = s.port.msix ++ [1] ∧ (faulted s e m seq a n).teams = s.teams :=
  ⟨rfl, rfl, rfl, rfl, rfl⟩

theorem missing_own {th : Thread} {va : Nat} {all : List Nat} (h : th.wait = .walk (some e) va all) : th.missing e =
    { th with wait := .walk (some e) va [e], release := none, spins := th.spins.map fun x => { x with changed := true } } := by
  simp [Thread.missing, h]

end

theorem signals_of {i : Instr} {v : Nat} (h : ∀ s s1, s.signalMsix v = some s1 → exec i s = .next s1) : Signals i v := by
  intro s hv
  refine ⟨{ s with port := { s.port with
    msix := s.port.msix.erase v, signalled := Tab.set 0 v (Tab.getD s.port.signalled v 0 + 1) s.port.signalled } },
    h s _ (if_pos hv), rfl, ?_, rfl⟩
  exact Tab.getD_set_same 0 v (Tab.getD s.port.signalled v 0 + 1) s.port.signalled

theorem walksAndReplies : WalksAndReplies := by
  refine ⟨fun s die entry m s1 time => ?_, signals_of fun s s1 h => ?_, fun s slot seq => ⟨fun m hfind hrep hseq =>
    ?_, fun h => ?_⟩⟩
  · intro e i hfind hreported
    have hexec : exec i s = .next (s.walkEnds e m) := by
      show execWalkComplete die entry s = _
      rw [execWalkComplete, hfind]
      exact if_neg (Bool.eq_false_iff.1 hreported)
    refine ⟨fun size pte hwalk => ?_, fun hwalk => ?_, fun hwalk => ?_⟩
    · obtain ⟨tlb, htlb⟩ : ∃ tlb : TlbEntry, tlb = { ctx := m.ctx, va := m.va / size * size, size, pte, time } := ⟨_, rfl⟩
      obtain ⟨haside, htlbs⟩ := aside_afterWalks m.joined time ((walkTlbs s1 e m).foldl (fun s k => s.tlbFill k tlb) s1)
      obtain ⟨hreplays, hreleased⟩ := replays_releaseMiss ((aside_tlbFills tlb (walkTlbs s1 e m) s1).trans haside) e m
      have hheld : ∀ k ∈ walkTlbs s1 e m, tlb ∈ Tab.getD ((m.joined.foldl (fun s r => s.afterWalk r time)
          ((walkTlbs s1 e m).foldl (fun s k => s.tlbFill k tlb) s1)).releaseMiss e m).tlbs k [] := fun k hk => by
        rw [hreleased, htlbs]
        exact mem_tlbFills tlb k _ s1 (.inl hk)
      subst htlb
      exact ⟨_, hexec.trans (congrArg Host.Outcome.next (walkEnds_leaf hwalk)), hreplays,
        fun r hr => hheld _ (tlbOf_mem_walkTlbs hr), fun hnone => hheld _ (by rw [walkTlbs, hnone]; exact List.mem_singleton.2 rfl)⟩
    · exact ⟨_, hexec.trans (congrArg Host.Outcome.next (walkEnds_malformed hwalk)),
        denied_refuseMiss s1 e m (protection_code 5 m.va)⟩
    · obtain ⟨hmisses, hseq, hhost, hmsix, hteams⟩ := faulted_parts s1 e m ((Tab.getD s1.slotSeq e 0 + 1) % 2 ^ 32)
        (Bits.field (s1.reg 0x100208) 8 44 * 2 ^ 8 + 32 * e) 32
      refine ⟨_, hexec.trans (congrArg Host.Outcome.next (walkEnds_absent hwalk)), ?_⟩
      refine ⟨(congrArg (Tab.find e) hmisses).trans (Tab.find_put_same ..),
        (congrArg (Tab.getD · e 0) hseq).trans (Tab.getD_set_same ..),
        fun a => (congrArg (Tab.getD · a 0) hhost).trans (getD_writeBytes ..), hmsix, fun j th va all hth hwait => ?_⟩
      refine (thread?_mapThreads _ _ j).trans ?_
      rw [State.thread?, State.team?, hteams]
      exact (congrArg (Option.map _) hth).trans (congrArg some (missing_own hwait))
  · show execFaultMsixSignal s = _
    rw [execFaultMsixSignal, h]
  · have hanswered : s.answered slot seq = some m := by
      rw [State.answered, hfind]
      exact if_pos (by rw [hrep, hseq]; simp)
    refine ⟨⟨s.releaseMiss slot m, ?_, (replays_releaseMiss (Aside.refl s) slot m).1⟩,
      s.refuseMiss slot m (protection 7 m.va), ?_, denied_refuseMiss s slot m (protection_code 7 m.va)⟩
    · show execFltreplyRetry slot seq s = _
      rw [execFltreplyRetry, hanswered]
    · show execFltreplyFail slot seq s = _
      rw [execFltreplyFail, hanswered]
  · have hanswered : s.answered slot seq = none := by
      rw [State.answered]
      split
      next m hfind =>
        refine if_neg fun hm => ?_
        obtain ⟨-, hseq⟩ := Bool.and_eq_true_iff.1 hm
        exact h.elim (fun hnone => by rw [hnone] at hfind; cases hfind) fun hne => hne (beq_iff_eq.1 hseq)
      next => rfl
    refine ⟨?_, ?_⟩
    · show execFltreplyRetry slot seq s = _
      rw [execFltreplyRetry, hanswered]
    · show execFltreplyFail slot seq s = _
      rw [execFltreplyFail, hanswered]

/-! ### Retries (R28, R297, R371) -/

theorem pendingMissRetry (s : State) (die : Nat) : ∃ s', exec (.pendingMissRetry die) s = .next s' ∧
    (∀ i, s'.thread? i = (s.thread? i).map fun th => if th.wait = .missFull die then { th with wait := .ready } else th) ∧
    (∀ k, (s'.team? k).map shell = (s.team? k).map shell) ∧ { s' with teams := s.teams } = s := by
  refine ⟨_, rfl, fun i => ?_, shell_mapThreads s _, rfl⟩
  rw [thread?_mapThreads]
  simp only [beq_iff_eq]

/-- A thread that waits as another of its partition does is ready with it. -/
def awakened (t : Team) (n : Nat) (th : Thread) (m : Nat) (u : Thread) : Thread :=
  if t.part m = t.part n ∧ u.wait = th.wait ∧ u.pc = th.pc then { u with wait := .ready } else u

theorem awaken_threads (t : Team) (n : Nat) (th : Thread) :
    (t.awaken n th).threads = t.threads.map fun p => (p.1, awakened t n th p.1 p.2) := by
  refine List.map_congr_left fun p _ => ?_
  simp only [awakened, Bool.and_eq_true, beq_iff_eq, and_assoc]
  split <;> rfl

/-- R297, R371: a thread that may replay is ready, with those that wait as it does. -/
theorem instructionReplay {s : State} {team n : Nat} {t : Team} {th : Thread} (hteam : s.team? team = some t)
    (hth : Tab.find n t.threads = some th) (hmay : t.mayReplay th = true) :
    ∃ s', exec (.instructionReplay team n) s = .next s' ∧ OnlyTeam s s' team ∧
      (∀ m u, Tab.find m t.threads = some u → s'.thread? { team, n := m } =
        some (if t.part m = t.part n ∧ u.wait = th.wait ∧ u.pc = th.pc then { u with wait := .ready } else u)) ∧
      (s'.team? team).map shell = some (shell t) := by
  have hset : ∀ j, (s.setTeam team (t.awaken n th)).team? j = if j = team then some (t.awaken n th) else s.team? j :=
    fun j => Tab.find_put ..
  refine ⟨s.setTeam team (t.awaken n th), ?_, ⟨fun j hj => by rw [hset, if_neg hj], rfl⟩, fun m u hu => ?_, ?_⟩
  · show execInstructionReplay team n s = _
    rw [execInstructionReplay, hteam]
    simp only [hth, hmay, if_true]
  · rw [State.thread?, hset, if_pos rfl, Option.bind_some]
    refine (congrArg (Tab.find m) (awaken_threads t n th)).trans ((Tab.find_map_val (awakened t n th) m t.threads).trans ?_)
    rw [hu]
    rfl
  · rw [hset, if_pos rfl]
    rfl

theorem mayReplay_of {t : Team} {th : Thread} (h : th.wait = .replay ∨ th.wait = .matrix ∨ th.wait = .galley) :
    t.mayReplay th = true := by
  rcases h with h | h | h <;> simp [Team.mayReplay, Thread.replays, h]

/-! ### Invalidation (R29) -/

/-- A request that is in its kept form already. -/
theorem kept_eq {addr size whole ctx : Nat} (hsize : size < 4) (hwhole : whole < 4) (hctx : ctx < 64) (haddr : addr < 2 ^ 45)
    {v : Nat} (hv : v = addr * 2 ^ 12 + size * 2 ^ 8 + whole * 2 ^ 6 + ctx) :
    Bits.field v 12 45 * 2 ^ 12 + Bits.field v 8 2 * 2 ^ 8 + Bits.field v 6 2 * 2 ^ 6 + v % 2 ^ 6 = v ∧ v + 2 ^ 10 < 2 ^ 64 := by
  simp only [Bits.field]
  omega

theorem reg_setReg (s : State) (off v : Nat) : (s.setReg off v).reg off = v % 2 ^ 64 := by
  rw [State.reg, State.setReg, Tab.getD_put, if_pos rfl, BitVec.toNat_ofNat]

theorem tlbinvWrite_starts {i : Instr} {s : State} {v : Nat} (hexec : exec i s = .next (s.tlbinvWrite v))
    (hv : Bits.field v 12 45 * 2 ^ 12 + Bits.field v 8 2 * 2 ^ 8 + Bits.field v 6 2 * 2 ^ 6 + v % 2 ^ 6 = v ∧ v + 2 ^ 10 < 2 ^ 64) :
    (∀ b, s.busy.tlbinv = some b → exec i s = .next s) ∧
      (s.busy.tlbinv = none → ∃ s', exec i s = .next s' ∧ s'.busy.tlbinv = some v ∧ s'.reg 0x100200 = v + 2 ^ 10 ∧
        { s' with win := s.win, busy := s.busy } = s) := by
  obtain ⟨hkept, hlt⟩ := hv
  refine ⟨fun b hb => ?_, fun hnone => ⟨{ s.setReg tlbInv (v + 2 ^ 10) with busy := { s.busy with tlbinv := some v } }, ?_, rfl,
    (reg_setReg s tlbInv _).trans (Nat.mod_eq_of_lt hlt), rfl⟩⟩
  · rw [hexec, State.tlbinvWrite, hb]
    rfl
  · rw [hexec, State.tlbinvWrite, hnone]
    simp only [Option.isSome_none, Bool.false_eq_true, if_false, hkept]

theorem tlbinvComplete {s : State} {v : Nat} (hbusy : s.busy.tlbinv = some v) (huses : s.usesMatching v = false) :
    ∃ s', exec .tlbinvComplete s = .next s' ∧ s'.busy.tlbinv = none ∧ s'.reg 0x100200 = v % 2 ^ 64 ∧
    (∀ k e, e ∈ Tab.getD s'.tlbs k [] ↔ e ∈ Tab.getD s.tlbs k [] ∧ tlbinvMatches v e.ctx e.va e.size = false) ∧
    { s' with win := s.win, busy := s.busy, tlbs := s.tlbs } = s := by
  refine ⟨{ s.setReg tlbInv v with
    tlbs := s.tlbs.map fun (k, l) => (k, l.filter fun e => !tlbinvMatches v e.ctx e.va e.size)
    busy := { s.busy with tlbinv := none } }, ?_, rfl, reg_setReg s tlbInv v, fun k e => ?_, rfl⟩
  · show execTlbinvComplete s = _
    rw [execTlbinvComplete, hbusy]
    exact if_neg (Bool.eq_false_iff.1 huses)
  · show e ∈ Tab.getD (s.tlbs.map fun p => (p.1, p.2.filter fun e => !tlbinvMatches v e.ctx e.va e.size)) k [] ↔ _
    rw [Tab.getD, find_map, Tab.getD]
    cases Tab.find k s.tlbs <;> simp

theorem retriesAndInvalidation : RetriesAndInvalidation := by
  refine ⟨pendingMissRetry, fun s team n t th hteam hth hwait => instructionReplay hteam hth ?_, fun s ctx va size => ?_,
    fun s v => tlbinvComplete⟩
  · rcases hwait with h | h | h | ⟨hmay, -⟩
    · exact mayReplay_of (.inl h)
    · exact mayReplay_of (.inr (.inl h))
    · exact mayReplay_of (.inr (.inr h))
    · exact hmay
  · exact ⟨tlbinvWrite_starts rfl (kept_eq (addr := Bits.field va 12 45) (Nat.mod_lt size (by decide)) (by decide : 0 < 4)
      (Nat.mod_lt ctx (by decide)) (Nat.mod_lt _ (Nat.two_pow_pos 45)) (by simp)),
      tlbinvWrite_starts rfl (kept_eq (by decide : 0 < 4) (by decide : 2 < 4) (Nat.mod_lt ctx (by decide)) (by decide : 0 < 2 ^ 45)
        (by simp)),
      tlbinvWrite_starts rfl (kept_eq (by decide : 0 < 4) (by decide : 1 < 4) (by decide : 0 < 64) (by decide : 0 < 2 ^ 45)
        (by simp))⟩

/-- Settles O47: the end of a walk changes misses, translations and threads; what else it does leaves them as they are. -/
theorem pageWalks : Obligations.PageWalks := ⟨walksAndReplies, retriesAndInvalidation⟩

end Sys2Proof.Proofs.PageWalks

/-! Barrier objects (R102 to R105, R261, R262): the object as its forme's bytes hold it, what the operations do to the forme, and
the lane of a thread that reaches its object. -/

namespace Sys2Proof.Proofs.BarrierObjects

open Sys2Proof Sys2Proof.Machine Sys2Proof.Claims
open Sys2Proof.Proofs.Lanes Sys2Proof.Proofs.Sweeps Sys2Proof.Proofs.Accesses Sys2Proof.Proofs.Together Sys2Proof.Proofs.Imprints

/-! ### The object in its bytes (Table 5.3) -/

/-- An object whose fields have the widths of Table 5.3. -/
def Obj.Fits (o : Obj) : Prop := o.parr < 2 ^ 16 ∧ o.earr < 2 ^ 16 ∧ o.pbyt < 2 ^ 32 ∧ o.ebyt < 2 ^ 32

theorem readBytes_word (m : Memory) (a i : Nat) (h : i < 4) :
    readBytes m (a + 4 * i) 4 = readBytes m a 16 / 2 ^ (32 * i) % 2 ^ 32 := by
  have hword := readBytes_lt m (a + 4 * i) 4
  have hlow := readBytes_lt m a (4 * i)
  have hsplit : readBytes m a 16 = readBytes m a (4 * i) + 256 ^ (4 * i) *
      (readBytes m (a + 4 * i) 4 + 256 ^ 4 * readBytes m (a + 4 * i + 4) (12 - 4 * i)) := by
    have hlength : 16 = 4 * i + (4 + (12 - 4 * i)) := by omega
    rw [← DeviceLaunch.readBytes_add, ← DeviceLaunch.readBytes_add, ← hlength]
  have hpow : (2 : Nat) ^ (32 * i) = 256 ^ (4 * i) := by
    rw [show (256 : Nat) = 2 ^ 8 by rfl, ← Nat.pow_mul, ← Nat.mul_assoc]
  rw [hsplit, hpow, Nat.add_mul_div_left _ _ (Nat.pow_pos (by decide)), Nat.div_eq_of_lt hlow, Nat.zero_add,
    show (2 : Nat) ^ 32 = 256 ^ 4 by rfl, Nat.add_mul_mod_self_left, Nat.mod_eq_of_lt hword]

theorem obj_fits (f : Forme) (off : Nat) : Obj.Fits (f.obj off) :=
  ⟨Nat.mod_lt _ (by decide), Nat.mod_lt _ (by decide), readBytes_lt f.data (off + 4 * 2) 4, readBytes_lt f.data (off + 4 * 3) 4⟩

/-- An object that is written is read back. -/
theorem obj_written (f : Forme) (off : Nat) {o : Obj} (h : Obj.Fits o) :
    ({ f with data := writeBytes f.data off 16 o.bits } : Forme).obj off = o := by
  obtain ⟨hparr, hearr, hpbyt, hebyt⟩ := h
  have hword : ∀ i, i < 4 → readBytes (writeBytes f.data off 16 o.bits) (off + 4 * i) 4 = o.bits / 2 ^ (32 * i) % 2 ^ 32 := by
    intro i hi
    rw [readBytes_word _ _ _ hi, readBytes_writeBytes]
    have hbits : o.bits < 256 ^ 16 := by
      have := Bool.toNat_lt o.faulted
      have := Bool.toNat_lt o.phase
      simp only [Obj.bits]
      omega
    rw [Nat.mod_eq_of_lt hbits]
  obtain ⟨phase, faulted, parr, earr, pbyt, ebyt⟩ := o
  simp only [Forme.obj, hword 0 (by decide), hword 1 (by decide), hword 2 (by decide), hword 3 (by decide)]
  simp only [Obj.bits, Bits.bit, Obj.mk.injEq] at *
  cases phase <;> cases faulted <;> simp only [Bool.toNat_true, Bool.toNat_false, beq_iff_eq, beq_eq_false_iff_ne] <;> omega

/-- The bytes outside an object stay. -/
theorem getD_written (f : Forme) (off v a : Nat) (h : a < off ∨ off + 16 ≤ a) :
    Tab.getD (writeBytes f.data off 16 v) a 0 = Tab.getD f.data a 0 := by
  rw [getD_writeBytes, if_neg (by omega)]

/-- What an operation makes of the object at `off` in its forme: its bytes and no other, its tags, and times. -/
def Became (f : Forme) (off : Nat) (o : Obj) (tag : Option Bool) (f' : Forme) : Prop :=
  f'.obj off = o ∧ (∀ a, a < off ∨ off + 16 ≤ a → Tab.getD f'.data a 0 = Tab.getD f.data a 0) ∧
    (∀ a, f'.tagged a = if off / 16 = a / 16 then tag.getD (f.tagged a) else f.tagged a) ∧
    { f' with
      data := f.data, tag := f.tag, wts := f.wts, rts := f.rts, objTime := f.objTime, flipTime := f.flipTime
      objCause := f.objCause } = f

theorem became_refl (f : Forme) (off : Nat) : Became f off (f.obj off) none f :=
  ⟨rfl, fun _ _ => rfl, fun a => by rw [Option.getD_none, ite_self], rfl⟩

/-- Times change nothing of an object. -/
theorem became_timed {f g f' : Forme} {off : Nat} {o : Obj} {tag : Option Bool} (h : Became f off o tag g)
    (hdata : f'.data = g.data) (htag : f'.tag = g.tag)
    (hrest : { f' with
      wts := g.wts, rts := g.rts, objTime := g.objTime, flipTime := g.flipTime, objCause := g.objCause } = g) :
    Became f off o tag f' := by
  obtain ⟨hobj, hbytes, htags, hother⟩ := h
  refine ⟨?_, fun a ha => by rw [hdata, hbytes a ha], fun a => ?_, ?_⟩
  · rw [Forme.obj, hdata]
    exact hobj
  · rw [← htags a, Forme.tagged, htag]
    rfl
  · rw [← hother, ← hrest]

theorem tagged_of_became {f g : Forme} {off : Nat} {o : Obj} (h : Became f off o none g) (a : Nat) : g.tagged a = f.tagged a := by
  rw [h.2.2.1 a, Option.getD_none, ite_self]

/-- The object is written after an operation that left it and its tags. -/
theorem became_written {f g : Forme} {off : Nat} {o o' : Obj} {data : Tab Byte} (h : Became f off o none g) (hfits : Obj.Fits o')
    (hdata : data = writeBytes g.data off 16 o'.bits) : Became f off o' none { g with data } := by
  obtain ⟨-, hbytes, htags, hother⟩ := h
  refine ⟨?_, fun a ha => ?_, htags, ?_⟩
  · rw [hdata]
    exact obj_written g off hfits
  · show Tab.getD data a 0 = _
    rw [hdata, getD_written g _ _ _ ha, hbytes a ha]
  · rw [← hother]

/-- The four words of an object are tagged, or their tags go. -/
theorem became_tagged {f g f' : Forme} {off : Nat} {o : Obj} {b : Bool} (h : Became f off o none g) (halign : off % 16 = 0)
    (hdata : f'.data = g.data)
    (htag : ∀ i, Tab.getD f'.tag i false = if off / 4 ≤ i ∧ i < off / 4 + 4 then b else Tab.getD g.tag i false)
    (hrest : { f' with
      data := g.data, tag := g.tag, wts := g.wts, rts := g.rts, objTime := g.objTime, flipTime := g.flipTime
      objCause := g.objCause } = g) : Became f off o (some b) f' := by
  obtain ⟨hobj, hbytes, htags, hother⟩ := h
  refine ⟨?_, fun a ha => by rw [hdata, hbytes a ha], fun a => ?_, ?_⟩
  · rw [Forme.obj, hdata]
    exact hobj
  · have hsame : g.tagged a = f.tagged a := by rw [htags a, Option.getD_none, ite_self]
    rw [Forme.tagged, htag, Option.getD_some, ← hsame]
    by_cases ha : off / 16 = a / 16
    · rw [if_pos ha, if_pos (by omega)]
    · rw [if_neg ha, if_neg (by omega)]
      rfl
  · rw [← hother, ← hrest]

theorem getD_tags_put (t : Tab Bool) (w i : Nat) :
    Tab.getD ((List.range 4).foldl (fun t i => Tab.put (w + i) true t) t) i false =
      if w ≤ i ∧ i < w + 4 then true else Tab.getD t i false := by
  show Tab.getD (Tab.put (w + 3) true (Tab.put (w + 2) true (Tab.put (w + 1) true (Tab.put (w + 0) true t)))) i false = _
  simp only [Tab.getD_put]
  grind

theorem getD_tags_del (t : Tab Bool) (w i : Nat) :
    Tab.getD ((List.range 4).foldl (fun t i => Tab.del (w + i) t) t) i false =
      if w ≤ i ∧ i < w + 4 then false else Tab.getD t i false := by
  show Tab.getD (Tab.del (w + 3) (Tab.del (w + 2) (Tab.del (w + 1) (Tab.del (w + 0) t)))) i false = _
  simp only [Tab.getD, Tab.find_del]
  grind

section
variable {f g : Forme} {off : Nat} {o : Obj}

/-- The forme of an object that `bo.init` tags (R103). -/
def tagObj (off : Nat) (g : Forme) : Forme :=
  { g with
    tag := (List.range 4).foldl (fun t i => Tab.put (off / 4 + i) true t) g.tag
    objTime := Tab.del off g.objTime, flipTime := Tab.del off g.flipTime, objCause := Tab.del off g.objCause }

/-- The forme of an object whose tags `bo.free` takes (R103). -/
def untagObj (off : Nat) (g : Forme) : Forme :=
  { g with tag := (List.range 4).foldl (fun t i => Tab.del (off / 4 + i) t) g.tag }

theorem became_tagObj (h : Became f off o none g) (halign : off % 16 = 0) : Became f off o (some true) (tagObj off g) :=
  became_tagged h halign rfl (getD_tags_put g.tag (off / 4)) rfl

theorem became_untagObj (h : Became f off o none g) (halign : off % 16 = 0) : Became f off o (some false) (untagObj off g) :=
  became_tagged h halign rfl (getD_tags_del g.tag (off / 4)) rfl

end

/-! ### The state at the object's bank -/

/-- A state whose forme `k` became `g`, with the clocks given. -/
def atBank (s : State) (k : Nat) (g : Forme) (clocks : Tab Nat) : State := { s with formes := Tab.put k g s.formes, clocks }

section
variable (s : State) (k off : Nat) (g : Forme) (clocks : Tab Nat)

theorem forme_atBank : (atBank s k g clocks).forme k = g := forme_of_find (Tab.find_put_same _ _ _)

theorem modForme_atBank (h : Forme → Forme) : (atBank s k g clocks).modForme k h = atBank s k (h g) clocks :=
  congrArg (fun formes => ({ s with formes, clocks } : State)) (modify_put k h g s.formes)

theorem clock_atBank (key : Nat) : (atBank s k g clocks).clock key = Tab.getD clocks key 0 := rfl

theorem raised_atBank {own : Nat} (h : Raised s clocks own) (time : Nat) :
    Raised s ((atBank s k g clocks).raise own time).clocks own := by
  have htwice := raised_raise (atBank s k g clocks) own time
  exact ⟨fun j hj => (htwice.1 j hj).trans (h.1 j hj), h.2.trans htwice.2⟩

theorem objWaiters_atBank : (atBank s k g clocks).objWaiters k off = s.objWaiters k off := rfl

theorem isBound_atBank : (atBank s k g clocks).isBound k off = s.isBound k off := rfl

/-- An object without uncorrectable words has no marks to forget (R37). -/
theorem healForme_atBank (h : s.badUnits k off 16 false = false) : (atBank s k g clocks).healForme k off 16 = atBank s k g clocks := by
  have hunits : ∀ i < 2, Tab.find (badForme k (off + 8 * i)) s.bad = none := by
    intro i hi
    have hany : ((List.range 2).any fun i => (s.badAt (badForme k (off + 8 * i))).isSome) = false := h
    have hnot := List.any_eq_false.1 hany i (List.mem_range.2 hi)
    simpa [State.badAt] using hnot
  have hdel : (List.range 2).foldl (fun b i => Tab.del (badForme k (off + 8 * i)) b) s.bad = s.bad := by
    show Tab.del (badForme k (off + 8 * 1)) (Tab.del (badForme k (off + 8 * 0)) s.bad) = s.bad
    rw [del_absent (hunits 0 (by decide)), del_absent (hunits 1 (by decide))]
  exact congrArg (fun bad => { atBank s k g clocks with bad }) hdel

/-- The forme with an object written. -/
def withObj (off : Nat) (o : Obj) (g : Forme) : Forme := { g with data := writeBytes g.data off 16 o.bits }

theorem putObj_atBank (o : Obj) : (atBank s k g clocks).putObj k off o = atBank s k (withObj off o g) clocks :=
  modForme_atBank s k g clocks _

/-- The forme with the time of an arrival noted. -/
def withNote (off time : Nat) (g : Forme) : Forme :=
  { g with objTime := Tab.set 0 off (max (Tab.getD g.objTime off 0) time) g.objTime }

theorem objNote_atBank (time : Nat) : (atBank s k g clocks).objNote k off time = atBank s k (withNote off time g) clocks :=
  modForme_atBank s k g clocks _

/-- The object's phase, flipped (R103). -/
def nextPhase (o : Obj) : Obj := { o with phase := !o.phase, parr := o.earr, pbyt := o.ebyt }

/-- The time of a flip (R104). -/
def withFlip (off time : Nat) (g : Forme) : Forme :=
  { g with flipTime := Tab.set 0 off time g.flipTime, objTime := Tab.del off g.objTime }

/-- The forme after CheckFlip (R103, R104). -/
def flipped (off : Nat) (g : Forme) : Forme :=
  withFlip off (Tab.getD g.objTime off 0) (withObj off (nextPhase (g.obj off)) g)

/-- The object's phase flips when nothing of it is pending and it is not faulted (R103). -/
def Complete (o : Obj) : Prop := o.parr = 0 ∧ o.pbyt = 0 ∧ o.faulted = false

theorem checkFlip_complete {u : State} (h : Complete ((s.forme k).obj off))
    (hu : u = (s.putObj k off (nextPhase ((s.forme k).obj off))).modForme k (withFlip off (Tab.getD (s.forme k).objTime off 0)))
    (hfree : u.objWaiters k off = []) : s.checkFlip k off = u := by
  have hflip : ((s.forme k).obj off).parr = 0 ∧ ((s.forme k).obj off).pbyt = 0 ∧ (!((s.forme k).obj off).faulted) = true :=
    ⟨h.1, h.2.1, by rw [h.2.2]; rfl⟩
  subst hu
  refine (if_pos hflip).trans ?_
  show List.foldl _ _ (State.objWaiters _ k off) = _
  exact congrArg (List.foldl _ _) hfree

theorem checkFlip_atBank_complete (hfree : s.objWaiters k off = []) (h : Complete (g.obj off)) :
    (atBank s k g clocks).checkFlip k off = atBank s k (flipped off g) clocks := by
  refine checkFlip_complete (atBank s k g clocks) k off (by rwa [forme_atBank]) ?_ hfree
  rw [forme_atBank, putObj_atBank, modForme_atBank]
  rfl

theorem checkFlip_atBank_pending (h : ¬ Complete (g.obj off)) :
    (atBank s k g clocks).checkFlip k off = atBank s k g clocks := by
  have hstay : ¬ ((g.obj off).parr = 0 ∧ (g.obj off).pbyt = 0 ∧ (!(g.obj off).faulted) = true) := fun hc =>
    h ⟨hc.1, hc.2.1, by simpa using hc.2.2⟩
  simp only [State.checkFlip, forme_atBank, if_neg hstay]

end

/-! ### The object after an arrival -/

theorem arrived_complete {o : Obj} {n : Nat} (hn : n ≤ o.parr) (h : Complete { o with parr := o.parr - n }) :
    nextPhase { o with parr := o.parr - n } = arrived o n := by
  obtain ⟨hparr, hpbyt, hsound⟩ := h
  have hall : o.parr = n ∧ o.pbyt = 0 ∧ o.faulted = false := ⟨by have : o.parr - n = 0 := hparr; omega, hpbyt, hsound⟩
  rw [arrived, if_pos hall]
  rfl

theorem arrived_pending {o : Obj} {n : Nat} (h : ¬ Complete { o with parr := o.parr - n }) :
    { o with parr := o.parr - n } = arrived o n := by
  have hnot : ¬ (o.parr = n ∧ o.pbyt = 0 ∧ o.faulted = false) := fun hall =>
    h ⟨by show o.parr - n = 0; omega, hall.2.1, hall.2.2⟩
  rw [arrived, if_neg hnot]

section
variable {f g : Forme} {off : Nat} {o : Obj}

theorem became_withObj {o' : Obj} (h : Became f off o none g) (hfits : Obj.Fits o') : Became f off o' none (withObj off o' g) :=
  became_written h hfits rfl

theorem became_withNote (h : Became f off o none g) (time : Nat) : Became f off o none (withNote off time g) :=
  became_timed h rfl rfl rfl

theorem became_withFlip (h : Became f off o none g) (time : Nat) : Became f off o none (withFlip off time g) :=
  became_timed h rfl rfl rfl

theorem became_flipped (h : Became f off o none g) (hfits : Obj.Fits o) : Became f off (nextPhase o) none (flipped off g) := by
  have hnext : Obj.Fits (nextPhase o) := ⟨hfits.2.1, hfits.2.1, hfits.2.2.2, hfits.2.2.2⟩
  rw [flipped, h.1]
  exact became_withFlip (became_withObj h hnext) _

end

/-- CheckFlip after an arrival that the object admits (R103). -/
theorem checkFlip_arrived {s : State} {k off n : Nat} {f g : Forme} {clocks : Tab Nat} {o : Obj}
    (hfree : s.objWaiters k off = []) (hn : n ≤ o.parr) (hfits : Obj.Fits { o with parr := o.parr - n })
    (hg : Became f off { o with parr := o.parr - n } none g) :
    ∃ g', (atBank s k g clocks).checkFlip k off = atBank s k g' clocks ∧ Became f off (arrived o n) none g' := by
  by_cases hc : Complete (g.obj off)
  · refine ⟨flipped off g, checkFlip_atBank_complete s k off g clocks hfree hc, ?_⟩
    rw [← arrived_complete hn (hg.1 ▸ hc)]
    exact became_flipped hg hfits
  · refine ⟨g, checkFlip_atBank_pending s k off g clocks hc, ?_⟩
    rw [← arrived_pending (hg.1 ▸ hc)]
    exact hg

/-! ### One thread at its object -/

section
variable {s : State} {ig : IssueGroup} {t : Team} {n : Nat} {th : Thread} {k off va : Nat} {f : Forme} {o : XOp} {x : XForm}
  {wb wc : Nat} {dsts : List Nat}

theorem objectAt_ok (hsite : ObjSite s ig t n th va k off f) : s.objectAt t.cluster va = .ok (k, off) := by
  obtain ⟨-, -, -, -, hva, halign, hwin, hat, -⟩ := hsite
  simp only [State.objectAt, if_neg (Nat.not_le.2 hva), halign, ne_eq, not_true_eq_false, if_false, hwin, if_true, hat]

theorem off_aligned (hsite : ObjSite s ig t n th va k off f) : off % 16 = 0 := by
  obtain ⟨-, -, -, -, -, halign, -, hat, -⟩ := hsite
  unfold State.windowAt at hat
  simp only at hat
  split at hat
  · cases hat
  · split at hat
    · split at hat
      · obtain ⟨-, rfl⟩ := Prod.mk.inj (Option.some.inj hat)
        simp only [windowBase]
        omega
      · cases hat
    · cases hat

/-- The checks of a `bo` operation pass, and it goes to the object's bank. -/
theorem boLane_reaches (hu : Usable o x 2 wb wc dsts s (viewOf ig.team t n th))
    (hsite : ObjSite s ig t n th (addrOf (viewOf ig.team t n th) o x wb wc) k off f) (writes : Bool) :
    ∃ g clocks, Became f off (f.obj off) none g ∧ Raised s clocks t.clockKey ∧ ∀ act next,
      boLane o x wb wc dsts writes act next s (viewOf ig.team t n th) =
        act (atBank s k g clocks) (viewOf ig.team t n th) k off (addrOf (viewOf ig.team t n th) o x wb wc)
          ((viewOf ig.team t n th).opB x (regsOf (viewOf ig.team t n th) o x 2 wb wc) wb)
          (th.vs (regsOf (viewOf ig.team t n th) o x 2 wb wc).c wc) next := by
  have hobj := objectAt_ok hsite
  obtain ⟨hf, -, hth, -, -, -, -, -, hpres, hbad, hfind⟩ := hsite
  have hclaim := claimRegs_usable (agrees_first hf hth) hu
  have hunits : ∀ whole, s.badUnits k off 16 whole = false := by
    intro whole
    cases whole with
    | false => exact hbad
    | true => rfl
  have hobj' : s.objectAt (viewOf ig.team t n th).team.cluster
    ((viewOf ig.team t n th).addr x (regsOf (viewOf ig.team t n th) o x 2 wb wc)) = .ok (k, off) := hobj
  have hpres' : s.presenceCheck k off ((viewOf ig.team t n th).addr x (regsOf (viewOf ig.team t n th) o x 2 wb wc)) = .ok () :=
    hpres
  cases writes with
  | true =>
    refine ⟨(f.stamp off (s.clock t.clockKey)).1, (s.raise t.clockKey (f.stamp off (s.clock t.clockKey)).2).clocks,
      became_timed (became_refl f off) rfl rfl rfl, raised_raise s _ _, fun act next => ?_⟩
    simp only [boLane, hu.1, operands_of_usable hu, hclaim, hobj', hpres', hunits, bind, Except.bind, Bool.false_eq_true,
      if_false, if_true, forme_of_find hfind, modForme_const hfind]
    rfl
  | false =>
    refine ⟨(f.load off 16 (s.clock t.clockKey)).1, (s.raise t.clockKey (f.load off 16 (s.clock t.clockKey)).2.2).clocks,
      became_timed (became_refl f off) rfl rfl rfl, raised_raise s _ _, fun act next => ?_⟩
    simp only [boLane, hu.1, operands_of_usable hu, hclaim, hobj', hpres', hunits, bind, Except.bind, Bool.false_eq_true,
      if_false, forme_of_find hfind, modForme_const hfind]
    rfl

/-- What an operation leaves, from its forme, its clock and its thread. -/
theorem objBecame_of {g : Forme} {clocks : Tab Nat} {ob : Obj} {tag : Option Bool} {e : Thread → Thread}
    {p : View → Thread → Prop} (hsite : ObjSite s ig t n th va k off f) (hg : Became f off ob tag g)
    (hraised : Raised s clocks t.clockKey) (hp : p (viewOf ig.team t n th) (e th)) :
    ObjBecame s ((atBank s k g clocks).modThread { team := ig.team, n } e) ig t k off f ob tag p := by
  obtain ⟨hf, hone, hth, -⟩ := hsite
  obtain ⟨hobj, hbytes, htags, hother⟩ := hg
  refine ⟨g, clocks, hraised, hobj, hbytes, htags, hother, touches_modThread (s := atBank s k g clocks) hf hone fun u hu => ?_⟩
  obtain rfl : u = th := Option.some.inj (hu.symm.trans hth)
  exact hp

/-- A thread whose registers change and which goes on. -/
theorem resumed_at {th u : Thread} {next : Nat} (hwait : th.wait = .ready)
    (hrest : { u with regs := th.regs, bad := th.bad, seen := th.seen, spins := th.spins } = th) :
    Resumed th (Thread.at u next) u.regs th.fpflags next :=
  ⟨rfl, (congrArg Thread.fpflags hrest :), rfl, (congrArg Thread.wait hrest :).trans hwait, (congrArg Thread.preds hrest :),
    (congrArg Thread.live hrest :), (congrArg Thread.handler hrest :), (congrArg Thread.tcause hrest :),
    (congrArg Thread.tpc hrest :), (congrArg Thread.taddr hrest :), (congrArg Thread.tinfo hrest :),
    (congrArg Thread.pend hrest :)⟩

theorem thread?_atBank (hsite : ObjSite s ig t n th va k off f) (g : Forme) (clocks : Tab Nat) :
    ((atBank s k g clocks).thread? { team := ig.team, n }).map Thread.wait = some .ready := by
  obtain ⟨hf, -, hth, hwait, -⟩ := hsite
  have hthread : (atBank s k g clocks).thread? { team := ig.team, n } = some th := thread?_of_find hf.2.1 hth
  rw [hthread, Option.map_some, hwait]

/-- A part of the thread that counts an arrival at its object, or leaves another such effect. -/
theorem performed_ok (h : th.peerOut = []) : (viewOf ig.team t n th).performed = .ok () := by
  simp only [View.performed, viewOf, h, List.isEmpty_nil, if_true]

theorem performed_waits (h : th.peerOut ≠ []) : (viewOf ig.team t n th).performed = .error (.park .replay) := by
  have hsome : th.peerOut.isEmpty = false := by simpa using h
  simp only [View.performed, viewOf, hsome, Bool.false_eq_true, if_false]

end

/-! ### The operations (R103, R261, R262) -/

section
variable {s : State} {ig : IssueGroup} {t : Team} {n : Nat} {th : Thread} {k off : Nat} {f : Forme} {x : XForm}

theorem boArrive_counts (hu : Usable .boArrive x 2 1 0 [] s (viewOf ig.team t n th))
    (hsite : ObjSite s ig t n th (addrOf (viewOf ig.team t n th) .boArrive x 1 0) k off f) (hfree : s.objWaiters k off = [])
    (htag : f.tagged off = true) (hperf : th.peerOut = [])
    (hn : (viewOf ig.team t n th).opB x (regsOf (viewOf ig.team t n th) .boArrive x 2 1 0) 1 ≤ (f.obj off).parr) :
    ∃ s', exec (.boArrive x) s = .next s' ∧ ObjBecame s s' ig t k off f
      (arrived (f.obj off) ((viewOf ig.team t n th).opB x (regsOf (viewOf ig.team t n th) .boArrive x 2 1 0) 1)) none
      fun c th' => Resumed c.th th' c.th.regs c.th.fpflags (nextPc ig x.words) := by
  obtain ⟨g, clocks, hg, hraised, hlane⟩ := boLane_reaches hu hsite true
  obtain ⟨hf, hone, hth, hwait, -⟩ := id hsite
  generalize (viewOf ig.team t n th).opB x (regsOf (viewOf ig.team t n th) .boArrive x 2 1 0) 1 = b at *
  have htagged : g.tagged off = true := (tagged_of_became hg off).trans htag
  have hobj : g.obj off = f.obj off := hg.1
  have hfits := obj_fits f off
  have hfits1 : Obj.Fits { f.obj off with parr := (f.obj off).parr - b } :=
    ⟨(Nat.sub_le _ _).trans_lt hfits.1, hfits.2.1, hfits.2.2⟩
  obtain ⟨g2, hflip, hg2⟩ := checkFlip_arrived (clocks := clocks) hfree hn hfits1
    (became_withNote (became_withObj hg hfits1) (Tab.getD clocks t.clockKey 0))
  refine ⟨_, ?_, objBecame_of (e := fun th => Thread.at th (nextPc ig x.words)) hsite hg2 hraised (resumed_at hwait rfl)⟩
  show execBoArrive x s = _
  unfold execBoArrive
  refine execTogether_single hf hone hth ((hlane _ _).trans ?_) (by rw [thread?_atBank hsite]; exact fun h => nomatch h)
  simp only [forme_atBank, htagged, performed_ok hperf, hobj, if_neg (Nat.not_lt.2 hn), putObj_atBank, clock_atBank, objNote_atBank,
    bind, Except.bind, Bool.not_true, Bool.false_eq_true, if_false]
  exact congrArg (fun u => Except.ok (u, nextPc ig x.words)) hflip

theorem boArrive_waits (hu : Usable .boArrive x 2 1 0 [] s (viewOf ig.team t n th))
    (hsite : ObjSite s ig t n th (addrOf (viewOf ig.team t n th) .boArrive x 1 0) k off f)
    (htag : f.tagged off = true) (hout : th.peerOut ≠ []) :
    ∃ s', exec (.boArrive x) s = .next s' ∧ OnlyThreads s s' ig t fun c => { c.th with wait := .replay } := by
  obtain ⟨g, clocks, hg, -, hlane⟩ := boLane_reaches hu hsite true
  obtain ⟨hf, hone, hth, -⟩ := hsite
  have htagged : g.tagged off = true := (tagged_of_became hg off).trans htag
  show ∃ s', execBoArrive x s = _ ∧ _
  unfold execBoArrive
  refine replays_of_together hf hone hth ((hlane _ _).trans ?_)
  simp only [forme_atBank, htagged, performed_waits hout, bind, Except.bind, Bool.not_true, Bool.false_eq_true, if_false]

theorem boExpect_waits (hu : Usable .boExpect x 2 1 0 [] s (viewOf ig.team t n th))
    (hsite : ObjSite s ig t n th (addrOf (viewOf ig.team t n th) .boExpect x 1 0) k off f)
    (htag : f.tagged off = true) (hout : th.peerOut ≠ []) :
    ∃ s', exec (.boExpect x) s = .next s' ∧ OnlyThreads s s' ig t fun c => { c.th with wait := .replay } := by
  obtain ⟨g, clocks, hg, -, hlane⟩ := boLane_reaches hu hsite true
  obtain ⟨hf, hone, hth, -⟩ := hsite
  have htagged : g.tagged off = true := (tagged_of_became hg off).trans htag
  show ∃ s', execBoExpect x s = _ ∧ _
  unfold execBoExpect
  refine replays_of_together hf hone hth ((hlane _ _).trans ?_)
  simp only [forme_atBank, htagged, performed_waits hout, bind, Except.bind, Bool.not_true, Bool.false_eq_true, if_false]

theorem boExpect_adds (hu : Usable .boExpect x 2 1 0 [] s (viewOf ig.team t n th))
    (hsite : ObjSite s ig t n th (addrOf (viewOf ig.team t n th) .boExpect x 1 0) k off f)
    (htag : f.tagged off = true) (hperf : th.peerOut = [])
    (hn : (f.obj off).pbyt + (viewOf ig.team t n th).opB x (regsOf (viewOf ig.team t n th) .boExpect x 2 1 0) 1 ≤ 0xFFFFFFFF) :
    ∃ s', exec (.boExpect x) s = .next s' ∧ ObjBecame s s' ig t k off f
      { f.obj off with
        pbyt := (f.obj off).pbyt + (viewOf ig.team t n th).opB x (regsOf (viewOf ig.team t n th) .boExpect x 2 1 0) 1 } none
      fun c th' => Resumed c.th th' c.th.regs c.th.fpflags (nextPc ig x.words) := by
  obtain ⟨g, clocks, hg, hraised, hlane⟩ := boLane_reaches hu hsite true
  obtain ⟨hf, hone, hth, hwait, -⟩ := id hsite
  generalize (viewOf ig.team t n th).opB x (regsOf (viewOf ig.team t n th) .boExpect x 2 1 0) 1 = b at *
  have htagged : g.tagged off = true := (tagged_of_became hg off).trans htag
  have hfits := obj_fits f off
  have hfits1 : Obj.Fits { f.obj off with pbyt := (f.obj off).pbyt + b } :=
    ⟨hfits.1, hfits.2.1, Nat.lt_succ_of_le hn, hfits.2.2.2⟩
  refine ⟨_, ?_, objBecame_of (e := fun th => Thread.at th (nextPc ig x.words)) hsite (became_withObj hg hfits1) hraised
    (resumed_at hwait rfl)⟩
  show execBoExpect x s = _
  unfold execBoExpect
  refine execTogether_single hf hone hth ((hlane _ _).trans ?_) (by rw [thread?_atBank hsite]; exact fun h => nomatch h)
  simp only [forme_atBank, htagged, performed_ok hperf, hg.1, if_neg (Nat.not_lt.2 hn), putObj_atBank, bind, Except.bind,
    Bool.not_true, Bool.false_eq_true, if_false]
  rfl

theorem boWait_goes (hu : Usable .boWait x 2 1 0 [] s (viewOf ig.team t n th))
    (hsite : ObjSite s ig t n th (addrOf (viewOf ig.team t n th) .boWait x 1 0) k off f)
    (htag : f.tagged off = true) (hsound : (f.obj off).faulted = false) :
    ∃ s', exec (.boWait x) s = .next s' ∧ ObjBecame s s' ig t k off f (f.obj off) none fun c th' =>
      if (f.obj off).phase = Bits.bit ((viewOf ig.team t n th).opB x (regsOf (viewOf ig.team t n th) .boWait x 2 1 0) 1) 0 then
        th' = { c.th with wait := .object k off (f.obj off).phase }
      else Resumed c.th th' c.th.regs c.th.fpflags (nextPc ig x.words) := by
  obtain ⟨g, clocks, hg, hraised, hlane⟩ := boLane_reaches hu hsite false
  obtain ⟨hf, hone, hth, hwait, -⟩ := id hsite
  generalize (viewOf ig.team t n th).opB x (regsOf (viewOf ig.team t n th) .boWait x 2 1 0) 1 = b at *
  have htagged : g.tagged off = true := (tagged_of_became hg off).trans htag
  by_cases hph : (f.obj off).phase = Bits.bit b 0
  · refine ⟨_, ?_, objBecame_of (e := fun u => Thread.at { u with wait := .object k off (f.obj off).phase } th.pc.toNat)
      hsite hg hraised ?_⟩
    · show execBoWait x s = _
      unfold execBoWait
      refine (execLanes_single (g := none) (s1 := (atBank s k g clocks).modThread { team := ig.team, n } fun th =>
        { th with wait := .object k off (Bits.bit b 0) }) (pc := th.pc.toNat) hf hone hth rfl ((hlane _ _).trans ?_)).trans ?_
      · simp only [forme_atBank, htagged, hg.1, hsound, if_pos hph, bind, Except.bind, Bool.not_true, Bool.false_eq_true,
          if_false]
        rfl
      · rw [modThread_modThread, hph]
        rfl
    · rw [if_pos hph]
      show ({ th with wait := .object k off (f.obj off).phase, pc := BitVec.ofNat 64 th.pc.toNat } : Thread) = _
      rw [BitVec.ofNat_toNat, BitVec.setWidth_eq]
      rfl
  · refine ⟨_, ?_, objBecame_of (e := fun th => Thread.at th (nextPc ig x.words)) hsite hg
      (raised_atBank s k g clocks hraised (Tab.getD g.flipTime off 0)) ?_⟩
    · show execBoWait x s = _
      unfold execBoWait
      refine execLanes_single (g := none) hf hone hth rfl ((hlane _ _).trans ?_)
      simp only [forme_atBank, htagged, hg.1, hsound, if_neg hph, bind, Except.bind, Bool.not_true, Bool.false_eq_true,
        if_false]
      rfl
    · rw [if_neg hph]
      exact resumed_at hwait rfl

theorem boTest_answers (hu : Usable .boTest x 2 1 0 [x.d.toNat] s (viewOf ig.team t n th))
    (hsite : ObjSite s ig t n th (addrOf (viewOf ig.team t n th) .boTest x 1 0) k off f) (htag : f.tagged off = true) :
    ∃ s', exec (.boTest x) s = .next s' ∧ ObjBecame s s' ig t k off f (f.obj off) none fun c th' =>
      Resumed c.th th' (c.th.setV x.d.toNat
        (if (f.obj off).faulted then 2
         else if (f.obj off).phase != Bits.bit ((viewOf ig.team t n th).opB x (regsOf (viewOf ig.team t n th) .boTest x 2 1 0) 1) 0
           then 1 else 0)).regs c.th.fpflags (nextPc ig x.words) := by
  obtain ⟨g, clocks, hg, hraised, hlane⟩ := boLane_reaches hu hsite false
  obtain ⟨hf, hone, hth, hwait, -⟩ := id hsite
  generalize (viewOf ig.team t n th).opB x (regsOf (viewOf ig.team t n th) .boTest x 2 1 0) 1 = b at *
  have htagged : g.tagged off = true := (tagged_of_became hg off).trans htag
  generalize hv : (if (f.obj off).faulted then 2 else if (f.obj off).phase != Bits.bit b 0 then 1 else 0) = v
  obtain ⟨clocks', hclocks, hraised'⟩ : ∃ clocks', (if v = 1 then (atBank s k g clocks).raise t.clockKey (Tab.getD g.flipTime off 0)
      else atBank s k g clocks) = atBank s k g clocks' ∧ Raised s clocks' t.clockKey := by
    by_cases hone : v = 1
    · exact ⟨_, if_pos hone, raised_atBank s k g clocks hraised (Tab.getD g.flipTime off 0)⟩
    · exact ⟨clocks, if_neg hone, hraised⟩
  refine ⟨_, ?_, objBecame_of (e := fun th => noted [x.d.toNat] (Thread.at (th.setV x.d.toNat v) (nextPc ig x.words))) hsite hg
    hraised' ?_⟩
  · show execBoTest x s = _
    unfold execBoTest
    refine (execReads_single (s1 := (atBank s k g clocks').modThread { team := ig.team, n } fun th => th.setV x.d.toNat v)
      (pc := nextPc ig x.words) hf hone hth ((hlane _ _).trans ?_)).trans
      (congrArg Host.Outcome.next (modThread_modThread _ { team := ig.team, n } _ _))
    simp only [forme_atBank, htagged, hg.1, hv, bind, Except.bind, Bool.not_true, Bool.false_eq_true, if_false]
    exact congrArg (fun u : State => Except.ok (u.modThread { team := ig.team, n } fun th => th.setV x.d.toNat v, nextPc ig x.words))
      hclocks
  · have hready : (Thread.at (th.setV x.d.toNat v) (nextPc ig x.words)).wait = .ready := hwait
    rw [noted, hready]
    exact resumed_at hwait rfl

theorem vs_one_lt (th : Thread) (r : Nat) : th.vs r 1 < 2 ^ 32 := by
  show (th.v (r + 0)).toNat % 2 ^ 32 + 2 ^ 32 * 0 < 2 ^ 32
  exact Nat.mod_lt _ (by decide)

theorem boInit_starts (hu : Usable .boInit x 2 1 1 [] s (viewOf ig.team t n th))
    (hsite : ObjSite s ig t n th (addrOf (viewOf ig.team t n th) .boInit x 1 1) k off f)
    (hfree : s.objWaiters k off = [] ∧ s.isBound k off = false) :
    let a := (viewOf ig.team t n th).opB x (regsOf (viewOf ig.team t n th) .boInit x 2 1 1) 1 % 2 ^ 16
    let e := th.vs (regsOf (viewOf ig.team t n th) .boInit x 2 1 1).c 1
    ∃ s', exec (.boInit x) s = .next s' ∧
      ObjBecame s s' ig t k off f { parr := a, earr := a, pbyt := e, ebyt := e } (some true) fun c th' =>
        Resumed c.th th' c.th.regs c.th.fpflags (nextPc ig x.words) := by
  intro a e
  obtain ⟨g, clocks, hg, hraised, hlane⟩ := boLane_reaches hu hsite true
  obtain ⟨hf, hone, hth, hwait, -, -, -, -, -, hbad, -⟩ := id hsite
  have hword : a < 2 ^ 16 := Nat.mod_lt _ (by decide)
  have hbytes : e < 2 ^ 32 := vs_one_lt th _
  have hfits : Obj.Fits { parr := a, earr := a, pbyt := e, ebyt := e } := ⟨hword, hword, hbytes, hbytes⟩
  refine ⟨_, ?_, objBecame_of (e := fun th => Thread.at th (nextPc ig x.words)) hsite
    (became_tagObj (became_withObj hg hfits) (off_aligned hsite)) hraised (resumed_at hwait rfl)⟩
  show execBoInit x s = _
  unfold execBoInit
  refine execLanes_single (g := none) hf hone hth rfl ((hlane _ _).trans ?_)
  simp only [forme_atBank, objWaiters_atBank, isBound_atBank, hfree.1, hfree.2, List.isEmpty_nil, Bool.not_true, Bool.or_false,
    Bool.and_false, putObj_atBank, healForme_atBank _ _ _ _ _ hbad, modForme_atBank, bind, Except.bind, Bool.false_eq_true, if_false]
  rfl

theorem boFree_ends (hu : Usable .boFree x 2 0 0 [] s (viewOf ig.team t n th))
    (hsite : ObjSite s ig t n th (addrOf (viewOf ig.team t n th) .boFree x 0 0) k off f)
    (hfree : s.objWaiters k off = [] ∧ s.isBound k off = false) :
    ∃ s', exec (.boFree x) s = .next s' ∧ ObjBecame s s' ig t k off f (f.obj off) (some false) fun c th' =>
      Resumed c.th th' c.th.regs c.th.fpflags (nextPc ig x.words) := by
  obtain ⟨g, clocks, hg, hraised, hlane⟩ := boLane_reaches hu hsite true
  obtain ⟨hf, hone, hth, hwait, -⟩ := id hsite
  refine ⟨_, ?_, objBecame_of (e := fun th => Thread.at th (nextPc ig x.words)) hsite (became_untagObj hg (off_aligned hsite))
    hraised (resumed_at hwait rfl)⟩
  show execBoFree x s = _
  unfold execBoFree
  refine execLanes_single (g := none) hf hone hth rfl ((hlane _ _).trans ?_)
  simp only [objWaiters_atBank, isBound_atBank, hfree.1, hfree.2, List.isEmpty_nil, Bool.not_true, Bool.or_false,
    modForme_atBank, bind, Except.bind, Bool.false_eq_true, if_false]
  rfl

end

/-- Settles O29: each operation reaches its object, changes the bytes of its forme as the object's new fields say, and goes on; no
thread is parked on an object that flips. -/
theorem barrierObjects : Obligations.BarrierObjects := by
  intro x s ig t n th k off f c site b free old goes
  refine ⟨?_, ?_, ?_, ?_, ?_, ?_, ?_, ?_⟩
  · exact fun hsite hfree => boInit_starts hsite.1 hsite.2 hfree
  · exact fun hsite hfree htag hperf hn => boArrive_counts hsite.1 hsite.2 hfree htag hperf hn
  · exact fun hsite htag hout => boArrive_waits hsite.1 hsite.2 htag hout
  · exact fun hsite htag hperf hn => boExpect_adds hsite.1 hsite.2 htag hperf hn
  · exact fun hsite htag hout => boExpect_waits hsite.1 hsite.2 htag hout
  · exact fun hsite htag hsound => boWait_goes hsite.1 hsite.2 htag hsound
  · exact fun hsite htag => boTest_answers hsite.1 hsite.2 htag
  · exact fun hsite hfree => boFree_ends hsite.1 hsite.2 hfree

end Sys2Proof.Proofs.BarrierObjects

/-! Resets, temperature, gating, the loss of a die, readback (R58, R59, R63, R64, R378, R416 to R419, R421): what a flush of
lines and the always-powered store leaves of the machine, and from this the events. -/

namespace Sys2Proof.Proofs.Power

open Sys2Proof Sys2Proof.Machine Sys2Proof.Claims

/-! ### Flushing lines to memory -/

/-- `s'` is `s` but for the counters of errors, the marks, HBM and the host-line store. -/
def Flushed (s s' : State) : Prop :=
  { s' with errors := s.errors, bad := s.bad, hbm := s.hbm, port := { s'.port with store := s.port.store } } = s

theorem flushed_refl (s : State) : Flushed s s := rfl

theorem Flushed.trans {s s' s'' : State} (h : Flushed s s') (h' : Flushed s' s'') : Flushed s s'' := by
  unfold Flushed at *
  rw [← h, ← h']

theorem flushed_logLine (s : State) (d : LineData) : Flushed s (s.logLine d) := by
  unfold State.logLine
  split
  · rfl
  · rfl

theorem hbm_logLine (s : State) (d : LineData) : (s.logLine d).hbm = s.hbm := by
  unfold State.logLine
  split
  · rfl
  · rfl

theorem foldl_flushed {α : Type} {f : State → α → State} (l : List α) (h : ∀ s, ∀ a ∈ l, Flushed s (f s a)) (s : State) :
    Flushed s (l.foldl f s) := by
  induction l generalizing s with
  | nil => exact flushed_refl s
  | cons a l ih =>
    exact (h s a (List.mem_cons_self ..)).trans (ih (fun s b hb => h s b (List.mem_cons_of_mem a hb)) (f s a))

theorem flushed_writeBack {ln : Nat} (h : isHostLine ln = false) (s : State) (d : LineData) : Flushed s (s.writeBack ln d) := by
  refine (flushed_logLine s d).trans ?_
  unfold State.writeBack State.putBacking
  rw [h]
  rfl

theorem hbm_writeBack {ln : Nat} (h : isHostLine ln = false) (s : State) (d : LineData) :
    (s.writeBack ln d).hbm = putLine s.hbm (lineBase ln) d := by
  unfold State.writeBack State.putBacking
  rw [h]
  exact congrArg (fun m => putLine m (lineBase ln) d) (hbm_logLine s d)

theorem device_of_resident {s : State} {host : Bool} {ln : Nat} (h : ln ∈ s.residentLines host) : isHostLine ln = host := by
  unfold State.residentLines at h
  obtain ⟨p, -, hp⟩ := List.mem_flatMap.1 h
  exact beq_iff_eq.1 (List.mem_filter.1 hp).2

theorem flushed_flushDevice (s : State) (pick : Nat → Bool) : Flushed s (s.flushDevice pick) :=
  foldl_flushed _ (fun _ _ hln => flushed_writeBack (device_of_resident (List.mem_filter.1 hln).1) _ _) s

theorem find_foldl_put {α : Type} (k : Nat) (l : List (Nat × α)) (t : Tab α) (h : ∀ p ∈ l, p.1 ≠ k) :
    Tab.find k (l.foldl (fun t p => Tab.put p.1 p.2 t) t) = Tab.find k t := by
  induction l generalizing t with
  | nil => rfl
  | cons p l ih =>
    rw [List.foldl_cons, ih _ fun q hq => h q (List.mem_cons_of_mem p hq),
      Tab.find_put_other (Ne.symm (h p (List.mem_cons_self ..)))]

theorem foldl_logLine_eq (l : List (Nat × LineData)) (s : State) :
    ∃ errors, l.foldl (fun s p => s.logLine p.2) s = { s with errors } := by
  induction l generalizing s with
  | nil => exact ⟨s.errors, rfl⟩
  | cons p l ih =>
    obtain ⟨errors, h⟩ := ih (s.logLine p.2)
    refine ⟨errors, h.trans ?_⟩
    unfold State.logLine
    split
    · rfl
    · rfl

/-- The host-line store takes host lines alone (R59). -/
theorem fillStore_eq (s : State) (pick : Nat → Bool) : ∃ errors store,
    s.fillStore pick = { s with errors, port := { s.port with store } } ∧
      ∀ ln, isHostLine ln = false → Tab.find ln store = Tab.find ln s.port.store := by
  obtain ⟨errors, h⟩ := foldl_logLine_eq
    (((s.residentLines true).filter fun ln => pick ln && s.dirtyLine ln).map fun ln => (ln, s.newest ln)) s
  refine ⟨errors, (((s.residentLines true).filter fun ln => pick ln && s.dirtyLine ln).map fun ln => (ln, s.newest ln)).foldl
    (fun t p => Tab.put p.1 p.2 t) s.port.store, ?_, fun ln hln => ?_⟩
  · unfold State.fillStore
    simp only [h]
  · refine find_foldl_put ln _ _ fun p hp => ?_
    obtain ⟨host, hhost, rfl⟩ := List.mem_map.1 hp
    have hline := device_of_resident (List.mem_filter.1 hhost).1
    rintro rfl
    exact absurd (hline.symm.trans hln) (by decide)

theorem flushed_fillStore (s : State) (pick : Nat → Bool) : Flushed s (s.fillStore pick) := by
  obtain ⟨errors, store, h, -⟩ := fillStore_eq s pick
  rw [h]
  rfl

theorem hbm_fillStore (s : State) (pick : Nat → Bool) : (s.fillStore pick).hbm = s.hbm := by
  obtain ⟨errors, store, h, -⟩ := fillStore_eq s pick
  rw [h]

/-- The newest copy of a device line, after the host lines have gone to their store. -/
theorem newest_fillStore {ln : Nat} (hline : isHostLine ln = false) (s : State) (pick : Nat → Bool) :
    (s.fillStore pick).newest ln = s.newest ln := by
  obtain ⟨errors, store, h, hstore⟩ := fillStore_eq s pick
  rw [h]
  unfold State.newest
  rw [← hstore ln hline]
  rfl

theorem dirtyLine_fillStore (s : State) (pick : Nat → Bool) (ln : Nat) : (s.fillStore pick).dirtyLine ln = s.dirtyLine ln := by
  obtain ⟨errors, store, h, -⟩ := fillStore_eq s pick
  rw [h]
  rfl

theorem residentLines_fillStore (s : State) (pick : Nat → Bool) (host : Bool) :
    (s.fillStore pick).residentLines host = s.residentLines host := by
  obtain ⟨errors, store, h, -⟩ := fillStore_eq s pick
  rw [h]
  rfl

/-! ### Resets (R416 to R418) -/

theorem flushed_both (s : State) (pick pick' : Nat → Bool) : Flushed s ((s.fillStore pick).flushDevice pick') :=
  (flushed_fillStore s pick).trans (flushed_flushDevice _ pick')

theorem hbm_resetSteps_none {s : State} (h : s.residentLines false = []) : s.resetSteps.hbm = s.hbm := by
  show ((s.fillStore fun _ => true).flushDevice fun _ => true).hbm = s.hbm
  unfold State.flushDevice
  rw [residentLines_fillStore, h]
  exact hbm_fillStore s _

/-- The one line that the homes hold goes to HBM, if it is dirty (R416). -/
theorem hbm_resetSteps_one {s : State} {ln : Nat} (h : s.residentLines false = [ln]) (hdirty : s.dirtyLine ln = true)
    (hline : isHostLine ln = false) : s.resetSteps.hbm = putLine s.hbm (lineBase ln) (s.newest ln) := by
  show ((s.fillStore fun _ => true).flushDevice fun _ => true).hbm = _
  unfold State.flushDevice
  simp only [residentLines_fillStore, h, dirtyLine_fillStore, hdirty, List.filter_cons, List.filter_nil, Bool.and_true, if_true,
    List.foldl_cons, List.foldl_nil]
  rw [hbm_writeBack hline, newest_fillStore hline, hbm_fillStore]

theorem emptied_afterReset (s : State) (win : Tab DWord) (hbm : Memory) (bad : Tab Nat) (store : Tab LineData) :
    Emptied (s.afterReset win hbm bad store) :=
  ⟨rfl, rfl, rfl, rfl, rfl, rfl, rfl, rfl, rfl, fun _ => rfl⟩

theorem emptied_warmReset (s : State) : Emptied s.warmReset := ⟨rfl, rfl, rfl, rfl, rfl, rfl, rfl, rfl, rfl, fun _ => rfl⟩

/-- What a warm reset keeps in the window, and what it puts in place of the rest (R63, R416). -/
theorem reg_warmReset (s : State) (off : Nat) : s.warmReset.reg off =
    if off = 0x100600 then s.reg 0x100600 % 2 ^ 4 else if off = 0x106208 then s.reg 0x106208 else winReset off % 2 ^ 64 := by
  have hwin : s.warmReset.win =
    [(0x100600, BitVec.ofNat 64 (s.reg 0x100600 % 2 ^ 4)), (0x106208, BitVec.ofNat 64 (s.reg 0x106208))] := rfl
  have hlt : s.reg 0x106208 < 2 ^ 64 := BitVec.isLt _
  rw [State.reg, hwin, Tab.getD, Tab.find_cons, Tab.find_cons, Tab.find_nil]
  split
  · rw [Option.getD_some, BitVec.toNat_ofNat]
    omega
  · split
    · rw [Option.getD_some, BitVec.toNat_ofNat, Nat.mod_eq_of_lt hlt]
    · rw [Option.getD_none, BitVec.toNat_ofNat]

theorem askReset_warm {s : State} (hheld : s.busy.held = false) (hboot : s.busy.bootFailed = false) :
    s.askReset = s.warmReset := by
  unfold State.askReset
  rw [hheld, hboot]
  rfl

theorem askReset_ignored {s : State} (h : s.busy.bootFailed = true ∨ s.busy.held = true ∧ (90 ≤ s.junction 0 ∨ 90 ≤ s.junction 1)) :
    s.askReset = s := by
  refine if_pos ?_
  rcases h with hboot | ⟨hheld, hhot | hhot⟩
  · rw [hboot, Bool.true_or]
  · rw [hheld, decide_eq_false (Nat.not_lt.2 hhot), Bool.false_and, Bool.not_false, Bool.and_true, Bool.or_true]
  · rw [hheld, decide_eq_false (p := s.junction 1 < 90) (Nat.not_lt.2 hhot), Bool.and_false, Bool.not_false, Bool.and_true,
      Bool.or_true]

theorem resets_warm (s : State) (hheld : s.busy.held = false) (hboot : s.busy.bootFailed = false) :
    ∃ s', exec .warmReset s = .next s' ∧ exec .cxlHotReset s = .next s' ∧ Emptied s' ∧
      (∀ off, off ≠ 0x100600 → off ≠ 0x106208 → s'.reg off = winReset off % 2 ^ 64) ∧
      s'.reg 0x100600 = s.reg 0x100600 % 2 ^ 4 ∧ s'.reg 0x106208 = s.reg 0x106208 ∧ s'.hostMem = s.hostMem ∧
      (s.residentLines false = [] → s'.hbm = s.hbm) ∧
      ∀ ln, s.residentLines false = [ln] → s.dirtyLine ln = true → isHostLine ln = false →
        (∀ i, i < 128 → Tab.getD s'.hbm (lineBase ln + i) 0 = Tab.getD (s.newest ln) i 0) ∧
        ∀ a, a < lineBase ln ∨ lineBase ln + 128 ≤ a → Tab.getD s'.hbm a 0 = Tab.getD s.hbm a 0 := by
  have hhot : exec .cxlHotReset s = .next s.warmReset :=
    congrArg Host.Outcome.next (if_neg (by rw [hheld]; exact Bool.false_ne_true))
  refine ⟨s.warmReset, congrArg Host.Outcome.next (askReset_warm hheld hboot), hhot, emptied_warmReset s, fun off h h' => ?_, ?_, ?_,
    rfl, hbm_resetSteps_none, fun ln hone hdirty hline => ?_⟩
  · rw [reg_warmReset, if_neg h, if_neg h']
  · rw [reg_warmReset, if_pos rfl]
  · rw [reg_warmReset, if_neg (by decide), if_pos rfl]
  · have hhbm : s.warmReset.hbm = putLine s.hbm (lineBase ln) (s.newest ln) := hbm_resetSteps_one hone hdirty hline
    refine ⟨fun i hi => ?_, fun a ha => ?_⟩
    · rw [hhbm, getD_putLine, if_pos (by omega), Nat.add_sub_cancel_left]
    · rw [hhbm, getD_putLine, if_neg (by omega)]

theorem resets_cold (s : State) : ∃ s', exec .coldReset s = .next s' ∧ Emptied s' ∧ (∀ off, s'.reg off = winReset off % 2 ^ 64) ∧
    s'.hbm = [] ∧ s'.hostMem = s.hostMem ∧ s'.port.store = [] ∧ s'.cycle = 0 ∧ s'.busy.held = false :=
  ⟨_, rfl, emptied_afterReset s _ _ _ _, fun _ => BitVec.toNat_ofNat _ _, rfl, rfl, rfl, rfl, rfl⟩

/-! ### Temperature (R418) -/

theorem throttles (s : State) (die : Nat) {temp : Nat} (h : 100 < temp) (h' : temp ≤ 110) :
    ∃ s', exec (.thermalThrottle die temp) s = .next s' ∧ Tab.getD s'.throttled die false = true ∧
      Tab.getD s'.grants die 0 = 64 ∧ s'.teams = s.teams ∧ s'.hbm = s.hbm :=
  ⟨_, if_pos ⟨h, h'⟩, (Tab.getD_set_same false die true s.throttled :), by rw [Tab.getD_put, if_pos rfl], rfl, rfl⟩

theorem recovers (s : State) (die : Nat) {temp : Nat} (h : temp < 95) :
    ∃ s', exec (.thermalRecover die temp) s = .next s' ∧ Tab.getD s'.throttled die false = false ∧
      s'.teams = s.teams ∧ s'.hbm = s.hbm :=
  ⟨_, if_pos h, (Tab.getD_set_same false die false s.throttled :), rfl, rfl⟩

theorem trips (s : State) (die : Nat) {temp : Nat} (h : 110 < temp) :
    ∃ s', exec (.thermalTrip die temp) s = .next s' ∧ s'.busy.held = true ∧ s'.port.viral = true ∧
      s'.teams = [] ∧ s'.launches = [] ∧ s'.hostMem = s.hostMem := by
  refine ⟨_, if_pos h, rfl, rfl, rfl, rfl, ?_⟩
  exact (congrArg State.hostMem (flushed_both (s.setJunction die temp) (fun _ => true) fun _ => true) :)

theorem resets : Resets :=
  ⟨resets_warm, fun _ hboot => congrArg Host.Outcome.next (askReset_ignored (.inl hboot)),
    fun _ hheld => ⟨congrArg Host.Outcome.next (if_pos hheld), fun hhot => congrArg Host.Outcome.next (askReset_ignored (.inr ⟨hheld, hhot⟩))⟩,
    resets_cold, fun s die _ => ⟨throttles s die, recovers s die, trips s die⟩⟩

/-! ### Gating (R419) -/

/-- What a write to PWRCFG leaves of a GATE that it takes. -/
theorem pwrcfg_written (s : State) {b0 b1 gate : Nat} (h0 : b0 ≤ 1700) (h1 : b1 ≤ 1700) (hgate : gate < 4) :
    (s.setReg pwrCfg (b0 + b1 * 2 ^ 16 + gate * 2 ^ 32)).reg pwrCfg = b0 + b1 * 2 ^ 16 + gate * 2 ^ 32 := by
  rw [PageWalks.reg_setReg]
  exact Nat.mod_eq_of_lt (by omega)

theorem gateBit_written (s : State) {b0 b1 gate : Nat} (h0 : b0 ≤ 1700) (h1 : b1 ≤ 1700) (hgate : gate < 4) (die : Nat) :
    Bits.bit ((s.setReg pwrCfg (b0 + b1 * 2 ^ 16 + gate * 2 ^ 32)).reg pwrCfg) (32 + die) = Bits.bit gate die := by
  have hlow : b0 + b1 * 2 ^ 16 < 2 ^ 32 := by omega
  rw [pwrcfg_written s h0 h1 hgate, Bits.bit, Bits.bit, Nat.pow_add, ← Nat.div_div_eq_div_mul,
    Nat.add_mul_div_right _ _ (by decide), Nat.div_eq_of_lt hlow, Nat.zero_add]

theorem dieOpen_written (s : State) {b0 b1 gate : Nat} (h0 : b0 ≤ 1700) (h1 : b1 ≤ 1700) (hgate : gate < 4) (die : Nat) :
    (s.setReg pwrCfg (b0 + b1 * 2 ^ 16 + gate * 2 ^ 32)).dieOpen die = (s.hasPower die && !Bits.bit gate die) :=
  congrArg (fun b => s.hasPower die && !b) (gateBit_written s h0 h1 hgate die)

theorem gate_requested {r die : Nat} (hdie : die < 2) (h : Bits.field r 32 2 = 0) :
    Bits.field (r - Bits.field r (32 + die) 1 * 2 ^ (32 + die) + 2 ^ (32 + die)) 32 2 = 2 ^ die := by
  obtain rfl | rfl : die = 0 ∨ die = 1 := by omega
  · simp only [Bits.field] at *
    omega
  · simp only [Bits.field] at *
    omega

theorem gate_both {r die : Nat} (hdie : die < 2) (h : Bits.bit r (33 - die) = true) :
    Bits.field (r - Bits.field r (32 + die) 1 * 2 ^ (32 + die) + 2 ^ (32 + die)) 32 2 = 3 := by
  obtain rfl | rfl : die = 0 ∨ die = 1 := by omega
  · simp only [Bits.field, Bits.bit, beq_iff_eq] at *
    omega
  · simp only [Bits.field, Bits.bit, beq_iff_eq] at *
    omega

theorem gate_cleared {r die : Nat} (hdie : die < 2) (h : Bits.field r 32 2 = 2 ^ die) :
    Bits.field (r - Bits.field r (32 + die) 1 * 2 ^ (32 + die)) 32 2 = 0 := by
  obtain rfl | rfl : die = 0 ∨ die = 1 := by omega
  · simp only [Bits.field] at *
    omega
  · simp only [Bits.field] at *
    omega

/-- What a write to PWRCFG does for one die: it restores the power of one that is no longer gated. -/
def ungateOne (gate : Nat) (s : State) (d : Nat) : State := if !Bits.bit gate d && !s.hasPower d then s.ungate d else s

theorem writePwrcfg_eq {s : State} {v gate : Nat} (hgate : Bits.field v 32 2 = gate) (hne : gate ≠ 3) :
    s.writePwrcfg v = (List.range 2).foldl (ungateOne gate)
      (s.setReg pwrCfg (min 1700 (Bits.field v 0 16) + min 1700 (Bits.field v 16 16) * 2 ^ 16 + gate * 2 ^ 32)) := by
  subst hgate
  exact if_neg hne

theorem requests {s : State} {die : Nat} (hdie : die < 2) (h0 : s.hasPower 0 = true) (h1 : s.hasPower 1 = true) :
    (Bits.field (s.reg 0x106200) 32 2 = 0 → ∃ s', exec (.powerGateRequest die) s = .next s' ∧ s'.dieOpen die = false ∧
      s'.dieOpen (1 - die) = s.dieOpen (1 - die) ∧ { s' with win := s.win } = s) ∧
    (Bits.bit (s.reg 0x106200) (33 - die) = true → exec (.powerGateRequest die) s = .next s) := by
  refine ⟨fun hnone => ?_, fun hother => ?_⟩
  · have hgate := gate_requested hdie hnone
    generalize hv : s.reg 0x106200 - Bits.field (s.reg 0x106200) (32 + die) 1 * 2 ^ (32 + die) + 2 ^ (32 + die) = v at hgate
    have hlt : 2 ^ die < 4 ∧ 2 ^ die ≠ 3 := by
      obtain rfl | rfl : die = 0 ∨ die = 1 := by omega
      · decide
      · decide
    have hkeep : ∀ u : State, u.powered = s.powered → (List.range 2).foldl (ungateOne (2 ^ die)) u = u := by
      intro u hu
      have hpower : ∀ d, d < 2 → u.hasPower d = true := by
        intro d hd
        obtain rfl | rfl : d = 0 ∨ d = 1 := by omega
        · rw [State.hasPower, hu]; exact h0
        · rw [State.hasPower, hu]; exact h1
      have hstay : ∀ d, d < 2 → ungateOne (2 ^ die) u d = u := by
        intro d hd
        rw [ungateOne, hpower d hd, Bool.not_true, Bool.and_false]
        rfl
      show ungateOne (2 ^ die) (ungateOne (2 ^ die) u 0) 1 = u
      rw [hstay 0 (by decide), hstay 1 (by decide)]
    refine ⟨_, (congrArg (fun v => Host.Outcome.next (s.writePwrcfg v)) hv).trans
      (congrArg Host.Outcome.next ((writePwrcfg_eq hgate hlt.2).trans (hkeep _ rfl))), ?_, ?_, rfl⟩
    · rw [dieOpen_written s (Nat.min_le_left ..) (Nat.min_le_left ..) hlt.1 _]
      obtain rfl | rfl : die = 0 ∨ die = 1 := by omega
      · rw [h0]; decide
      · rw [h1]; decide
    · rw [dieOpen_written s (Nat.min_le_left ..) (Nat.min_le_left ..) hlt.1 _]
      show _ = (s.hasPower (1 - die) && !Bits.bit (s.reg 0x106200) (32 + (1 - die)))
      have hopen : Bits.bit (s.reg 0x106200) (32 + (1 - die)) = false := by
        obtain rfl | rfl : die = 0 ∨ die = 1 := by omega
        · simp only [Bits.field, Bits.bit, beq_eq_false_iff_ne] at *
          omega
        · simp only [Bits.field, Bits.bit, beq_eq_false_iff_ne] at *
          omega
      rw [hopen]
      obtain rfl | rfl : die = 0 ∨ die = 1 := by omega
      · rfl
      · rfl
  · exact congrArg Host.Outcome.next (if_pos (gate_both hdie hother))

/-! ### Power restored (R419) -/

theorem mem_set {α : Type} [DecidableEq α] {d v : α} {k : Nat} {t : Tab α} {p : Nat × α} (h : p ∈ Tab.set d k v t) :
    p = (k, v) ∨ p ∈ t := by
  unfold Tab.set at h
  split at h
  · exact .inr (List.mem_filter.1 h).1
  · exact Tab.mem_put h

/-- No clock of the part is above `m`. -/
def Below (s : State) (m : Nat) : Prop := ∀ p ∈ s.clocks, p.2 ≤ m

theorem below_latest (s : State) : Below s s.latest := fun _ hp => ChildTeams.le_foldl_max _ 0 _ (.inr (List.mem_map_of_mem hp))

theorem foldl_max_le (l : List Nat) {a m : Nat} (ha : a ≤ m) (h : ∀ n ∈ l, n ≤ m) : l.foldl max a ≤ m := by
  induction l generalizing a with
  | nil => exact ha
  | cons b l ih => exact ih (max_le ha (h b (List.mem_cons_self ..))) fun n hn => h n (List.mem_cons_of_mem b hn)

theorem latest_le {s : State} {m : Nat} (h : Below s m) : s.latest ≤ m :=
  foldl_max_le _ (Nat.zero_le m) fun n hn => by
    obtain ⟨p, hp, rfl⟩ := List.mem_map.1 hn
    exact h p hp

theorem clock_le {s : State} {m : Nat} (h : Below s m) (k : Nat) : s.clock k ≤ m := by
  unfold State.clock Tab.getD
  cases hf : Tab.find k s.clocks with
  | none => exact Nat.zero_le m
  | some t => exact h (k, t) (Tab.mem_of_find hf)

theorem clock_le_latest (s : State) (k : Nat) : s.clock k ≤ s.latest := clock_le (below_latest s) k

theorem below_raise {s : State} {m t : Nat} (h : Below s m) (ht : t ≤ m) (k : Nat) : Below (s.raise k t) m := by
  intro p hp
  rcases mem_set hp with rfl | hp
  · exact max_le (clock_le h k) ht
  · exact h p hp

/-- Clocks of a list of agents raised to a time. -/
theorem foldl_raise (ks : List Nat) (t m : Nat) (s : State) (h : Below s m) (ht : t ≤ m) :
    Below (ks.foldl (fun s k => s.raise k t) s) m ∧
      (∀ k, s.clock k ≤ (ks.foldl (fun s k => s.raise k t) s).clock k) ∧
      (∀ k ∈ ks, t ≤ (ks.foldl (fun s k => s.raise k t) s).clock k) ∧
      { ks.foldl (fun s k => s.raise k t) s with clocks := s.clocks } = s := by
  induction ks generalizing s with
  | nil => exact ⟨h, fun _ => Nat.le_refl _, nofun, rfl⟩
  | cons k ks ih =>
    obtain ⟨hbelow, hgrow, hall, hrest⟩ := ih (s.raise k t) (below_raise h ht k)
    have hstep : ∀ j, s.clock j ≤ (s.raise k t).clock j := fun j => by
      rw [clock_raise]
      split
      · next he => exact he ▸ Nat.le_max_left ..
      · exact Nat.le_refl _
    refine ⟨hbelow, fun j => (hstep j).trans (hgrow j), fun j hj => ?_, ?_⟩
    · rcases List.mem_cons.1 hj with rfl | hj
      · refine Nat.le_trans ?_ (hgrow j)
        rw [clock_raise, if_pos rfl]
        exact Nat.le_max_right ..
      · exact hall j hj
    · exact congrArg (fun u : State => { u with clocks := s.clocks }) hrest

theorem home_modHome (s : State) (h h' : Nat) (f : Home → Home) :
    (s.modHome h f).home h' = if h' = h then f (s.home h') else s.home h' := by
  rw [State.home, State.modHome, Tab.getD_put]
  split
  · next he => rw [he]
  · rfl

/-- Slices of a list whose MTS is set. -/
theorem foldl_mts (is : List Nat) (base t : Nat) (s : State) :
    (∀ i ∈ is, ((is.foldl (fun s i => s.modHome (base + i) fun h => { h with mts := t }) s).home (base + i)).mts = t) ∧
      (∀ k, (∀ i ∈ is, k ≠ base + i) → (is.foldl (fun s i => s.modHome (base + i) fun h => { h with mts := t }) s).home k = s.home k) ∧
      { is.foldl (fun s i => s.modHome (base + i) fun h => { h with mts := t }) s with homes := s.homes } = s := by
  induction is generalizing s with
  | nil => exact ⟨nofun, fun _ _ => rfl, rfl⟩
  | cons i is ih =>
    obtain ⟨hin, hout, hrest⟩ := ih (s.modHome (base + i) fun h => { h with mts := t })
    refine ⟨fun j hj => ?_, fun k hk => ?_, ?_⟩
    · by_cases hmem : j ∈ is
      · exact hin j hmem
      · obtain rfl : j = i := (List.mem_cons.1 hj).resolve_right hmem
        rw [List.foldl_cons, hout (base + j) fun i hi he => hmem (by rwa [Nat.add_left_cancel he]), home_modHome, if_pos rfl]
    · rw [List.foldl_cons, hout k fun j hj => hk j (List.mem_cons_of_mem i hj), home_modHome,
        if_neg (hk i (List.mem_cons_self ..))]
    · exact congrArg (fun u : State => { u with homes := s.homes }) hrest

theorem foldl_modPlaten (is : List Nat) (base : Nat) (f : Platen → Platen) (s : State) :
    { is.foldl (fun s i => s.modPlaten (base + i) f) s with platens := s.platens } = s := by
  induction is generalizing s with
  | nil => rfl
  | cons i is ih => exact congrArg (fun u : State => { u with platens := s.platens }) (ih (s.modPlaten (base + i) f))

/-- A die's clocks, and those of its platens, raised to `t` (R419). -/
def clocksAt (die t : Nat) (s : State) : State :=
  (dieClocks die ++ (List.range 6).map fun i => platenClock (die * 6 + i)).foldl (fun s k => s.raise k t) s

/-- The MTS of a die's slices set to `t` (R419). -/
def slicesAt (die t : Nat) (s : State) : State :=
  (List.range 72).foldl (fun s i => s.modHome (die * 72 + i) fun h => { h with mts := t }) s

/-- The time of a die's platens set to `t` (R419). -/
def platensAt (die t : Nat) (s : State) : State :=
  (List.range 6).foldl (fun s i => s.modPlaten (die * 6 + i) fun p => { p with mem := t }) s

theorem clocksAt_raised (die : Nat) (s : State) :
    Below (clocksAt die s.latest s) s.latest ∧ (∀ k, s.clock k ≤ (clocksAt die s.latest s).clock k) ∧
      ∀ k ∈ dieClocks die, s.latest ≤ (clocksAt die s.latest s).clock k := by
  unfold clocksAt
  obtain ⟨hbelow, hgrow, hall, -⟩ := foldl_raise
    (dieClocks die ++ (List.range 6).map fun i => platenClock (die * 6 + i)) s.latest s.latest s (below_latest s) (Nat.le_refl _)
  exact ⟨hbelow, hgrow, fun k hk => hall k (List.mem_append_left _ hk)⟩

theorem slicesAt_mts (die t : Nat) (s : State) : (∀ i, i < 72 → ((slicesAt die t s).home (die * 72 + i)).mts = t) ∧
    ∀ k, k / 72 ≠ die → (slicesAt die t s).home k = s.home k := by
  unfold slicesAt
  obtain ⟨hin, hout, -⟩ := foldl_mts (List.range 72) (die * 72) t s
  refine ⟨fun i hi => hin i (List.mem_range.2 hi), fun k hk => hout k fun i hi he => ?_⟩
  have := List.mem_range.1 hi
  omega

theorem ungate_eq (s : State) (die : Nat) : s.ungate die =
    { platensAt die s.latest (slicesAt die s.latest (clocksAt die s.latest s)) with
      powered := Tab.set true die true (platensAt die s.latest (slicesAt die s.latest (clocksAt die s.latest s))).powered } := rfl

theorem platensAt_rest (die t : Nat) (s : State) : { platensAt die t s with platens := s.platens } = s :=
  foldl_modPlaten (List.range 6) (die * 6) (fun p => { p with mem := t }) s

theorem slicesAt_rest (die t : Nat) (s : State) : { slicesAt die t s with homes := s.homes } = s :=
  (foldl_mts (List.range 72) (die * 72) t s).2.2

theorem clocksAt_rest (die : Nat) (s : State) : { clocksAt die s.latest s with clocks := s.clocks } = s :=
  (foldl_raise _ s.latest s.latest s (below_latest s) (Nat.le_refl _)).2.2.2

section
variable {s s1 s2 s3 : State} {powered : Tab Bool} (h1 : { s1 with clocks := s.clocks } = s)
  (h2 : { s2 with homes := s1.homes } = s1) (h3 : { s3 with platens := s2.platens } = s2)

include h1 in
theorem homes_of_clocks : s1.homes = s.homes := (congrArg State.homes h1 :)

include h3 in
theorem homes_of_platens : s3.homes = s2.homes := (congrArg State.homes h3 :)

include h2 h3 in
theorem clocks_of_steps : s3.clocks = s1.clocks :=
  (congrArg State.clocks h3 : _ = s2.clocks).trans (congrArg State.clocks h2 :)

include h1 h2 h3

theorem powered_of_steps : s3.powered = s.powered :=
  (congrArg State.powered h3 : _ = s2.powered).trans ((congrArg State.powered h2 : _ = s1.powered).trans (congrArg State.powered h1 :))

theorem rest_of_steps : { ({ s3 with powered } : State) with
    clocks := s.clocks, homes := s.homes, platens := s.platens, powered := s.powered } = s := by
  rw [← h1, ← h2, ← h3]

end

theorem homes_powered (s : State) (powered : Tab Bool) : ({ s with powered } : State).homes = s.homes := rfl
theorem clocks_powered (s : State) (powered : Tab Bool) : ({ s with powered } : State).clocks = s.clocks := rfl

section
variable (s : State) (die : Nat)

theorem ungate_rest :
    { s.ungate die with clocks := s.clocks, homes := s.homes, platens := s.platens, powered := s.powered } = s :=
  rest_of_steps (clocksAt_rest die s) (slicesAt_rest die s.latest _) (platensAt_rest die s.latest _)

theorem homes_clocksAt : (clocksAt die s.latest s).homes = s.homes := homes_of_clocks (clocksAt_rest die s)

theorem homes_ungate : (s.ungate die).homes = (slicesAt die s.latest (clocksAt die s.latest s)).homes :=
  (congrArg State.homes (ungate_eq s die)).trans ((homes_powered _ _).trans (homes_of_platens (platensAt_rest die s.latest _)))

theorem clocks_ungate : (s.ungate die).clocks = (clocksAt die s.latest s).clocks :=
  (congrArg State.clocks (ungate_eq s die)).trans
    ((clocks_powered _ _).trans (clocks_of_steps (slicesAt_rest die s.latest _) (platensAt_rest die s.latest _)))

theorem home_ungate (k : Nat) : (s.ungate die).home k = (slicesAt die s.latest (clocksAt die s.latest s)).home k := by
  rw [State.home, homes_ungate, State.home]

theorem clock_ungate (k : Nat) : (s.ungate die).clock k = (clocksAt die s.latest s).clock k := by
  rw [State.clock, clocks_ungate, State.clock]

theorem powered_ungate (d : Nat) : (s.ungate die).hasPower d = if d = die then true else s.hasPower d := by
  rw [ungate_eq, State.hasPower, Tab.getD_set, powered_of_steps (clocksAt_rest die s) (slicesAt_rest die s.latest _)
    (platensAt_rest die s.latest _), State.hasPower]

/-- What the return of a die's power leaves: no clock falls, none rises above the part's greatest; the clocks and slices of that
die stand there; the other die's slices are as before. -/
theorem ungated :
    Below (s.ungate die) s.latest ∧ (∀ k, s.clock k ≤ (s.ungate die).clock k) ∧
      (∀ k ∈ dieClocks die, s.latest ≤ (s.ungate die).clock k) ∧
      (∀ i, i < 72 → ((s.ungate die).home (die * 72 + i)).mts = s.latest) ∧
      ∀ k, k / 72 ≠ die → (s.ungate die).home k = s.home k := by
  obtain ⟨hbelow, hgrow, hall⟩ := clocksAt_raised die s
  obtain ⟨hin, hout⟩ := slicesAt_mts die s.latest (clocksAt die s.latest s)
  refine ⟨?_, fun k => ?_, fun k hk => ?_, fun i hi => ?_, fun k hk => ?_⟩
  · rw [Below, clocks_ungate]
    exact hbelow
  · rw [clock_ungate]
    exact hgrow k
  · rw [clock_ungate]
    exact hall k hk
  · rw [home_ungate]
    exact hin i hi
  · rw [home_ungate, hout k hk, State.home, homes_clocksAt, State.home]

end

/-- What PWRCFG does for the dies in turn. -/
structure Opened (s s' : State) (die : Nat) : Prop where
  latest : s'.latest = s.latest
  grows : ∀ k, s.clock k ≤ s'.clock k
  homes : ∀ k, k / 72 ≠ die → s'.home k = s.home k
  power : ∀ d, d ≠ die → s'.hasPower d = s.hasPower d
  rest : { s' with clocks := s.clocks, homes := s.homes, platens := s.platens, powered := s.powered } = s

section
variable {s s' : State} {die : Nat} (h : Opened s s' die)
include h

theorem Opened.win : s'.win = s.win := (congrArg State.win h.rest :)
theorem Opened.hbm : s'.hbm = s.hbm := (congrArg State.hbm h.rest :)
theorem Opened.teams : s'.teams = s.teams := (congrArg State.teams h.rest :)

end

theorem mem_dieClocks (die : Nat) : collClock die ∈ dieClocks die := by
  unfold dieClocks
  exact List.mem_append_right _ (List.mem_singleton_self _)

theorem latest_ungate (s : State) (die : Nat) : (s.ungate die).latest = s.latest := by
  obtain ⟨hbelow, -, hall, -⟩ := ungated s die
  exact Nat.le_antisymm (latest_le hbelow) ((hall _ (mem_dieClocks die)).trans (clock_le_latest _ _))

theorem opened_ungateOne (gate : Nat) (s : State) (die : Nat) : Opened s (ungateOne gate s die) die := by
  unfold ungateOne
  split
  · obtain ⟨-, hgrow, -, -, hout⟩ := ungated s die
    exact ⟨latest_ungate s die, hgrow, hout, fun d hd => (powered_ungate s die d).trans (if_neg hd), ungate_rest s die⟩
  · exact ⟨rfl, fun _ => Nat.le_refl _, fun _ _ => rfl, fun _ _ => rfl, rfl⟩

theorem ungates {s : State} {die : Nat} (hdie : die < 2) (hgate : Bits.field (s.reg 0x106200) 32 2 = 2 ^ die)
    (hoff : s.hasPower die = false) :
    ∃ s', exec (.powerUngate die) s = .next s' ∧ s'.hasPower die = true ∧ s'.dieOpen die = true ∧
      (∀ k ∈ dieClocks die, s.latest ≤ s'.clock k) ∧ (∀ i, i < 72 → (s'.home (die * 72 + i)).mts = s.latest) ∧
      s'.hbm = s.hbm ∧ s'.teams = s.teams := by
  have hcleared := gate_cleared hdie hgate
  let s0 := s.setReg pwrCfg (min 1700 (Bits.field (s.reg 0x106200 - Bits.field (s.reg 0x106200) (32 + die) 1 * 2 ^ (32 + die)) 0 16) +
    min 1700 (Bits.field (s.reg 0x106200 - Bits.field (s.reg 0x106200) (32 + die) 1 * 2 ^ (32 + die)) 16 16) * 2 ^ 16 + 0 * 2 ^ 32)
  let s1 := ungateOne 0 s0 0
  let s2 := ungateOne 0 s1 1
  have hexec : exec (.powerUngate die) s = .next s2 := congrArg Host.Outcome.next (writePwrcfg_eq hcleared (by decide))
  have h1 : Opened s0 s1 0 := opened_ungateOne 0 s0 0
  have h2 : Opened s1 s2 1 := opened_ungateOne 0 s1 1
  have hbit : Bits.bit (s2.reg 0x106200) (32 + die) = false := by
    have hwin : s2.win = s0.win := h2.win.trans h1.win
    have hreg : s2.reg 0x106200 = s0.reg 0x106200 := by rw [State.reg, hwin]; rfl
    rw [hreg]
    refine (gateBit_written s (Nat.min_le_left ..) (Nat.min_le_left ..) (by decide) die).trans ?_
    rw [Bits.bit, Nat.zero_div]
    rfl
  have hopen : s2.hasPower die = true → s2.dieOpen die = true := by
    intro hpower
    show (s2.hasPower die && !Bits.bit (s2.reg 0x106200) (32 + die)) = true
    rw [hpower, hbit]
    rfl
  have hpowered : s2.hasPower die = true ∧ (∀ k ∈ dieClocks die, s.latest ≤ s2.clock k) ∧
      ∀ i, i < 72 → (s2.home (die * 72 + i)).mts = s.latest := by
    obtain rfl | rfl : die = 0 ∨ die = 1 := by omega
    · have hone : s1 = s0.ungate 0 := if_pos (by rw [show s0.hasPower 0 = false from hoff]; rfl)
      obtain ⟨-, -, hall, hmts, -⟩ := ungated s0 0
      have hpower := powered_ungate s0 0
      rw [← hone] at hall hmts hpower
      refine ⟨(h2.power 0 (by decide)).trans ((hpower 0).trans (if_pos rfl)), fun k hk => (hall k hk).trans (h2.grows k), fun i hi => ?_⟩
      rw [h2.homes _ (by omega)]
      exact hmts i hi
    · have hone : s2 = s1.ungate 1 := if_pos (by rw [h1.power 1 (by decide), show s0.hasPower 1 = false from hoff]; rfl)
      obtain ⟨-, -, hall, hmts, -⟩ := ungated s1 1
      have hpower := powered_ungate s1 1
      rw [← hone, h1.latest] at hall hmts
      rw [← hone] at hpower
      exact ⟨(hpower 1).trans (if_pos rfl), hall, hmts⟩
  exact ⟨s2, hexec, hpowered.1, hopen hpowered.1, hpowered.2.1, hpowered.2.2, h2.hbm.trans h1.hbm,
    h2.teams.trans h1.teams⟩

/-! ### Power taken (R419) -/

/-- `s'` is `s` but for what its homes, regions, memory and host-line store hold, and for clocks. -/
def Emptying (s s' : State) : Prop :=
  { s' with
    homes := s.homes, regions := s.regions, errors := s.errors, bad := s.bad, hbm := s.hbm, port := s.port
    clocks := s.clocks } = s

theorem emptying_refl (s : State) : Emptying s s := rfl

theorem Emptying.trans {s s' s'' : State} (h : Emptying s s') (h' : Emptying s' s'') : Emptying s s'' := by
  unfold Emptying at *
  rw [← h, ← h']

theorem emptying_of_flushed {s s' : State} (h : Flushed s s') : Emptying s s' := by
  unfold Emptying Flushed at *
  rw [← h]

theorem emptying_recallNow (s : State) (ln : Nat) (excl : Bool) : Emptying s (s.recallNow ln excl).1 := by
  unfold State.recallNow
  split
  · rfl
  · split
    · rfl
    · rfl

theorem emptying_toStore (s : State) (ln : Nat) : Emptying s (s.toStore ln) := by
  refine (emptying_recallNow s ln true).trans ?_
  unfold State.toStore
  generalize (s.recallNow ln true).1 = u
  have hstored : Emptying u (if (u.lineAt ln).dirty then
      { u.logLine (u.lineAt ln).data with
        port := { (u.logLine (u.lineAt ln).data).port with store := Tab.put ln (u.lineAt ln).data (u.logLine (u.lineAt ln).data).port.store } }
    else u) := by
    split
    · exact (emptying_of_flushed (flushed_logLine u _)).trans rfl
    · rfl
  exact hstored.trans rfl

theorem foldl_emptying {f : State → Nat → State} (h : ∀ s a, Emptying s (f s a)) (l : List Nat) (s : State) :
    Emptying s (l.foldl f s) := by
  induction l generalizing s with
  | nil => exact emptying_refl s
  | cons a l ih => exact (h s a).trans (ih (f s a))

theorem emptying_gate (s : State) (die : Nat) :
    { s.gate die with
      homes := s.homes, regions := s.regions, errors := s.errors, bad := s.bad, hbm := s.hbm, port := s.port
      clocks := s.clocks, tlbs := s.tlbs, misses := s.misses, imprints := s.imprints, cores := s.cores, fabric := s.fabric
      powered := s.powered } = s := by
  have hrecalled := foldl_emptying (fun s ln => emptying_recallNow s ln true) (s.gateLines die) s
  have hflushed := emptying_of_flushed (flushed_flushDevice
    ((s.gateLines die).foldl (fun s ln => (s.recallNow ln true).1) s) fun ln => homeDie ln == some die)
  unfold State.gate
  dsimp only
  generalize (s.gateLines die).foldl (fun s ln => (s.recallNow ln true).1) s = s1 at *
  generalize s1.flushDevice (fun ln => homeDie ln == some die) = s2 at *
  have hstored := foldl_emptying emptying_toStore (s2.gateHostLines die) s2
  generalize (s2.gateHostLines die).foldl State.toStore s2 = s3 at *
  have hall := (hrecalled.trans hflushed).trans hstored
  unfold Emptying at hall
  rw [← hall]

theorem home_of_die {ln die : Nat} (hdie : die < 2) (h : homeDie ln = some die) :
    (decide (homeOf ln < 144) && homeOf ln / 72 == die) = true := by
  unfold homeDie at h
  split at h
  · cases h
  next hhost =>
    have hstack : stackOf (lineBase ln) / 6 = die := Option.some.inj h
    have hslice : homeInStack (lineBase ln) < 12 := Nat.mod_lt _ (by decide)
    rw [homeOf, if_neg hhost]
    simp only [Bool.and_eq_true, decide_eq_true_eq, beq_iff_eq]
    omega

theorem find_emptied (die k : Nat) (homes : Tab Home) (h : (decide (k < 144) && k / 72 == die) = true) :
    ∀ g, Tab.find k (homes.map fun (p : Nat × Home) =>
      if p.1 < 144 && p.1 / 72 == die then (p.1, ({ mts := p.2.mts } : Home)) else p) = some g → g.lines = [] := by
  have hmap : (fun (p : Nat × Home) => if p.1 < 144 && p.1 / 72 == die then (p.1, ({ mts := p.2.mts } : Home)) else p) =
      fun p => (p.1, if p.1 < 144 && p.1 / 72 == die then ({ mts := p.2.mts } : Home) else p.2) := by
    funext p
    split
    · rfl
    · rfl
  intro g hg
  rw [hmap, Tab.find_map_val (fun k (g : Home) => if k < 144 && k / 72 == die then ({ mts := g.mts } : Home) else g)] at hg
  obtain ⟨g', -, hg'⟩ := Option.map_eq_some_iff.1 hg
  rw [← hg', if_pos h]

theorem gates {s : State} {die : Nat} (hdie : die < 2) (hbit : Bits.bit (s.reg 0x106200) (32 + die) = true)
    (hpower : s.hasPower die = true) (hidle : s.dieIdle die = true) :
    (s.dieQuiet die = false → exec (.powerGateComplete die) s = .next s) ∧
    (s.dieQuiet die = true → ∃ s', exec (.powerGateComplete die) s = .next s' ∧ s'.hasPower die = false ∧
      (∀ ln, homeDie ln = some die → s'.isResident ln = false) ∧ s'.teams = s.teams ∧ s'.hostMem = s.hostMem) := by
  have hexec : exec (.powerGateComplete die) s = .next (if s.dieQuiet die then s.gate die else s) :=
    if_pos (by
      rw [hpower, hidle]
      exact (Bool.and_true _).trans ((Bool.and_true _).trans hbit))
  refine ⟨fun hquiet => ?_, fun hquiet => ⟨s.gate die, ?_, ?_, fun ln hln => ?_, ?_⟩⟩
  · rw [hexec, hquiet]
    rfl
  · rw [hexec, hquiet]
    rfl
  · exact (Tab.getD_set_same true die false _ :)
  · unfold State.isResident State.home Tab.has Tab.getD
    cases hf : Tab.find (homeOf ln) (s.gate die).homes with
    | none => rfl
    | some g =>
      have hnone := find_emptied die (homeOf ln) _ (home_of_die hdie hln) g hf
      rw [Option.getD_some, hnone]
      rfl
  · exact ⟨(congrArg State.teams (emptying_gate s die) :), (congrArg State.hostMem (emptying_gate s die) :)⟩

/-! ### The loss of a die (R63, R64) -/

theorem dieLost {s : State} {die : Nat} (hdead : s.busy.deadDie = none) (hpower : s.hasPower die = true) :
    ∃ s', exec (.dieLossDetect die) s = .next s' ∧ s'.busy.deadDie = some die ∧ s'.issuing = false ∧
      (∀ p ∈ s'.regions, p.1 / 8 ≠ die) ∧ (∀ p ∈ s'.homes, p.1 = 144 ∨ p.1 / 72 ≠ die) ∧ s'.hbm = s.hbm ∧ s'.teams = s.teams := by
  refine ⟨_, if_pos (by rw [hdead, hpower]; rfl), rfl, Bool.and_false _, fun p hp => ?_, fun p hp => ?_, rfl, rfl⟩
  · simpa using (List.mem_filter.1 hp).2
  · simpa [portHome] using (List.mem_filter.1 hp).2

/-- `s'` is `s` but for what the store of a completion entry and the faults it shows may change: `busy`, the port's `viral` and
`posted`, and the window registers but the event ring's are the same. -/
def Settling (s s' : State) : Prop :=
  s'.busy = s.busy ∧ s'.port.viral = s.port.viral ∧ s'.port.posted = s.port.posted ∧ ∀ off, off ≠ evtCtl → s'.reg off = s.reg off

theorem Settling.refl (s : State) : Settling s s := ⟨rfl, rfl, rfl, fun _ _ => rfl⟩

theorem Settling.trans {s s' s'' : State} (h : Settling s s') (h' : Settling s' s'') : Settling s s'' := by
  obtain ⟨hbusy, hviral, hposted, hreg⟩ := h
  obtain ⟨hbusy', hviral', hposted', hreg'⟩ := h'
  exact ⟨hbusy'.trans hbusy, hviral'.trans hviral, hposted'.trans hposted, fun off ho => (hreg' off ho).trans (hreg off ho)⟩

theorem settling_same {s s' : State} (hbusy : s'.busy = s.busy) (hport : s'.port = s.port) (hwin : s'.win = s.win) :
    Settling s s' :=
  ⟨hbusy, by rw [hport], by rw [hport], fun off _ => by rw [State.reg, hwin]; rfl⟩

theorem settling_foldl {α : Type} {F : State → α → State} (h : ∀ s a, Settling s (F s a)) (l : List α) (s : State) :
    Settling s (l.foldl F s) := by
  induction l generalizing s with
  | nil => exact .refl s
  | cons a l ih => exact (h s a).trans (ih _)

theorem settling_modThread (s : State) (i : Tid) (f : Thread → Thread) : Settling s (s.modThread i f) := settling_same rfl rfl rfl

theorem settling_writeHost (s : State) (pa n v : Nat) : Settling s (s.writeHost pa n v) := settling_same rfl rfl rfl

theorem settling_signal (s : State) (msix : List Nat) : Settling s { s with port := { s.port with msix } } :=
  ⟨rfl, rfl, rfl, fun _ _ => rfl⟩

theorem settling_setRegField (s : State) (lo w v : Nat) : Settling s (s.setRegField evtCtl lo w v) := by
  refine ⟨rfl, rfl, rfl, fun off ho => ?_⟩
  rw [State.reg, State.setRegField, State.setReg, Tab.getD_put, if_neg ho, State.reg]

theorem settling_hostEvent (s : State) (e : HostEvent) : Settling s (s.hostEvent e) := by
  unfold State.hostEvent
  simp only
  split
  · exact .refl s
  split
  · exact settling_setRegField ..
  · exact ((settling_writeHost s _ _ _).trans (settling_setRegField ..)).trans (settling_signal ..)

theorem settling_threadsGoOn (s : State) (op : MemOp) (ns : List Nat) : Settling s (s.threadsGoOn op ns) := by
  unfold State.threadsGoOn
  refine .trans ?_ (settling_foldl (fun s n => settling_modThread s _ _) ns _)
  split
  · refine settling_foldl (fun s n => ?_) ns s
    unfold State.placeRecord
    split <;> exact settling_same rfl rfl rfl
  · exact .refl s

theorem settling_rewindOps (s : State) (k : Nat) : Settling s (s.rewindOps k) := by
  refine settling_foldl (fun s p => ?_) s.memops s
  obtain ⟨key, op⟩ := p
  simp only
  split
  · exact .refl s
  · have hundone := settling_foldl (F := fun s n => s.modThread { team := k, n } fun th =>
      if th.wait == .mem key then { th with wait := .ready, launching := none } else th)
      (fun s n => settling_modThread s _ _) (op.accs.map Access.tid) s
    split
    · exact (hundone.trans (settling_same rfl rfl rfl)).trans (settling_threadsGoOn _ _ _)
    · exact hundone.trans (settling_same rfl rfl rfl)

theorem settling_deliver (s : State) (i : Tid) (x : Trap) (next : Nat) : Settling s (s.deliver i x next) := by
  unfold State.deliver
  split
  · exact .refl s
  split
  · exact .refl s
  split
  · exact settling_same rfl rfl rfl
  simp only
  split
  · exact settling_modThread ..
  split
  · exact ((settling_hostEvent s _).trans (settling_same rfl rfl rfl)).trans (settling_rewindOps _ _)
  · exact settling_modThread ..

theorem settling_deliverFaults (s : State) (l : Machine.Faults) : Settling s (s.deliverFaults l) := by
  refine settling_foldl (fun s e => ?_) _ s
  obtain ⟨i, x, next⟩ := e
  exact (settling_modThread s i _).trans (settling_deliver _ _ _ _)

theorem settling_evalWait (s : State) (ln k : Nat) (w : WaitEntry) : Settling s (s.evalWait ln k w).1 := by
  unfold State.evalWait
  simp only
  split
  · exact settling_same rfl rfl rfl
  split
  · exact settling_same rfl rfl rfl
  · exact .refl s

theorem settling_evalWaits (s : State) (ln : Nat) : Settling s (s.evalWaits ln) := by
  have hfold : ∀ (ws : Tab WaitEntry) (acc : State × Machine.Faults), Settling s acc.1 →
      Settling s (ws.foldl (fun (acc : State × Machine.Faults) (k, w) =>
        if deviceLine w.addr == ln then
          let (s, f) := acc.1.evalWait ln k w
          (s, acc.2 ++ f)
        else acc) acc).1 := by
    intro ws
    induction ws with
    | nil => exact fun _ h => h
    | cons e ws ih =>
      intro acc h
      rw [List.foldl_cons]
      refine ih _ ?_
      cases hline : deviceLine e.2.addr == ln with
      | false => simpa only [hline, Bool.false_eq_true, if_false] using h
      | true => simpa only [hline, if_true] using h.trans (settling_evalWait acc.1 ln e.1 e.2)
  exact (hfold (s.home (homeOf ln)).waits (s, []) (.refl s)).trans (settling_deliverFaults _ _)

theorem settling_writeEntry (s : State) (q index : Nat) (comp : Option Nat) (time v : Nat) :
    Settling s (s.writeEntry q index comp time v) := by
  unfold State.writeEntry
  simp only
  split
  · exact (settling_writeHost s _ _ _).trans (settling_signal ..)
  split
  · exact (settling_writeHost s _ _ _).trans (settling_signal ..)
  split
  · unfold State.entryStore
    simp only
    split
    · exact settling_same rfl rfl rfl
    · unfold State.homeStore
      simp only
      split
      · exact settling_same rfl rfl rfl
      · exact Settling.trans (settling_same rfl rfl rfl) (settling_evalWaits _ _)
  · exact .refl s

theorem settling_endLaunches (s : State) (lost : Nat) : Settling s (s.endLaunches lost) := by
  unfold State.endLaunches
  refine Settling.trans (settling_foldl (fun u k => ?_) _ s) (settling_same rfl rfl rfl)
  split
  · exact .refl u
  next l _ =>
    have hentry : ∀ able : Bool, Settling u (if able then
        u.writeEntry l.queue l.index l.comp l.time (compEntry l.skip 0 Code.homeLost l.id l.index l.bnd) else u) := by
      intro able
      cases able with
      | true => exact settling_writeEntry ..
      | false => exact .refl u
    exact hentry _

/-- A record to host memory, and its signal. -/
def hostRecord (s : State) (pa n v : Nat) : State :=
  { s.writeHost pa n v with port := { (s.writeHost pa n v).port with msix := (s.writeHost pa n v).port.msix ++ [2] } }

theorem hostRecord_keeps (s : State) (pa n v : Nat) :
    (hostRecord s pa n v).hbm = s.hbm ∧ (hostRecord s pa n v).launches = s.launches := ⟨rfl, rfl⟩

theorem writeEntry_host {s : State} {q : Nat} (h : q < 64) (index : Nat) (comp : Option Nat) (time v : Nat) :
    (s.writeEntry q index comp time v).hbm = s.hbm ∧ (s.writeEntry q index comp time v).launches = s.launches := by
  have hentry : s.writeEntry q index comp time v =
      hostRecord s (Bits.field (s.reg (hqComp q)) 12 40 * 2 ^ 12 + index % s.hqSlots q * 16) 16 v := if_pos h
  rw [hentry]
  exact hostRecord_keeps ..

/-- The entries of launches on the host's queues go to host memory (R344). -/
theorem hbm_endLaunches {s : State} (lost : Nat) (h : ∀ p ∈ s.launches, p.2.queue < 64) : (s.endLaunches lost).hbm = s.hbm := by
  have hstep : ∀ (ks : List Nat) (u : State), u.launches = s.launches → (ks.foldl (fun s k =>
      match Tab.find k s.launches with
      | none => s
      | some l =>
        let device := decide (64 ≤ l.queue) && decide (l.queue < sysQueue)
        let able := if device then (l.comp.map fun pa => homeDie (deviceLine pa) != some lost).getD false else lost != 0
        if able then
          s.writeEntry l.queue l.index l.comp l.time (compEntry l.skip 0 Code.homeLost l.id l.index l.bnd)
        else s) u).hbm = u.hbm := by
    intro ks
    induction ks with
    | nil => exact fun _ _ => rfl
    | cons k ks ih =>
      intro u hu
      rw [List.foldl_cons]
      cases hf : Tab.find k u.launches with
      | none => exact ih u hu
      | some l =>
        have hqueue : l.queue < 64 := h (k, l) (hu ▸ Tab.mem_of_find hf)
        have hwrite : ∀ able : Bool, (if able then u.writeEntry l.queue l.index l.comp l.time
            (compEntry l.skip 0 Code.homeLost l.id l.index l.bnd) else u).hbm = u.hbm ∧
            (if able then u.writeEntry l.queue l.index l.comp l.time
              (compEntry l.skip 0 Code.homeLost l.id l.index l.bnd) else u).launches = u.launches := by
          intro able
          cases able with
          | false => exact ⟨rfl, rfl⟩
          | true => exact writeEntry_host hqueue _ _ _ _
        exact (ih _ ((hwrite _).2.trans hu)).trans (hwrite _).1
  exact hstep s.launchKeys s rfl

/-! ### The salvage areas (R64) -/

theorem readBytes_prefix (m : Memory) (a v : Nat) {k n : Nat} (h : k ≤ n) : readBytes (writeBytes m a n v) a k = v % 256 ^ k := by
  rw [← readBytes_writeBytes m a k v]
  refine readBytes_congr fun i hi => ?_
  rw [getD_writeBytes, getD_writeBytes, if_pos (by omega), if_pos (by omega)]

/-- The first words of a salvage area's header (Table 3.7). -/
def areaHeader (count lost : Nat) : Nat := 1 + count * 2 ^ 64 + lost * 2 ^ 128

/-- A salvage area of a header of `n` bytes and records of `w` (Table 3.7). -/
def salvageArea (n w lost base : Nat) (mine : List ((Nat × Nat × Copy) × Nat)) (s : State) : State :=
  { s.healMem base (n + w * mine.length) with
    hbm := mine.foldl (fun m e => writeBytes m (base + n + w * (e.2 / 6)) w (salvageRecord e.1.1 e.1.2.1 e.1.2.2))
      (writeBytes s.hbm base n (areaHeader mine.length lost)) }

/-- The salvage area of one stack, if it has one. -/
def salvageAt (n w lost : Nat) (records : List ((Nat × Nat × Copy) × Nat)) (s : State) (k : Nat) : Option Nat → State
  | none => s
  | some base => salvageArea n w lost base (records.filter fun e => e.2 % 6 == k) s

/-- The salvage area of the survivor's stack `k`. -/
def salvageStep (lost : Nat) (records : List ((Nat × Nat × Copy) × Nat)) (s : State) (k : Nat) : State :=
  salvageAt 64 144 lost records s k (s.salvageBase ((1 - lost) * 6 + k))

theorem salvage_eq (s : State) (lost : Nat) :
    s.salvage lost = (List.range 6).foldl (salvageStep lost (s.salvageLines lost).zipIdx) s := by
  unfold State.salvage
  refine congrArg (fun F => List.foldl F s (List.range 6)) ?_
  funext u k
  unfold salvageStep
  generalize u.salvageBase ((1 - lost) * 6 + k) = base
  cases base with
  | none => rfl
  | some base => rfl

/-- `s'` is `s` but for HBM and its marks. -/
def Written (s s' : State) : Prop := { s' with hbm := s.hbm, bad := s.bad } = s
theorem Written.trans {s s' s'' : State} (h : Written s s') (h' : Written s' s'') : Written s s'' := by
  unfold Written at *
  rw [← h, ← h']

theorem written_salvageArea (n w lost base : Nat) (mine : List ((Nat × Nat × Copy) × Nat)) (s : State) :
    Written s (salvageArea n w lost base mine s) := rfl

theorem written_salvageAt (n w lost : Nat) (records : List ((Nat × Nat × Copy) × Nat)) (s : State) (k : Nat) (base : Option Nat) :
    Written s (salvageAt n w lost records s k base) := by
  cases base with
  | none => rfl
  | some base => exact written_salvageArea ..

theorem written_salvageStep (lost : Nat) (records : List ((Nat × Nat × Copy) × Nat)) (s : State) (k : Nat) :
    Written s (salvageStep lost records s k) := written_salvageAt ..

theorem written_foldl {F : State → Nat → State} (h : ∀ s k, Written s (F s k)) (ks : List Nat) (s : State) :
    Written s (ks.foldl F s) := by
  induction ks generalizing s with
  | nil => rfl
  | cons k ks ih => exact (h s k).trans (ih _)

theorem written_salvage (s : State) (lost : Nat) : Written s (s.salvage lost) := by
  rw [salvage_eq]
  exact written_foldl (written_salvageStep lost _) _ s

section
variable {s s' : State} (h : Written s s')
include h

theorem Written.win : s'.win = s.win := (congrArg State.win h :)
theorem Written.launches : s'.launches = s.launches := (congrArg State.launches h :)
theorem Written.settling : Settling s s' :=
  settling_same (congrArg State.busy h :) (congrArg State.port h :) (congrArg State.win h :)

theorem Written.salvageBase (stack : Nat) : s'.salvageBase stack = s.salvageBase stack := by
  unfold State.salvageBase State.reg
  rw [h.win]

end

theorem salvageBase_eq {s : State} {a x : Nat} (h : s.salvageBase a = some x) :
    ∃ size, size ≤ 2 ^ 34 ∧ x = linearBase + a * linearStride + 2 ^ 34 - size := by
  have hlinear : Config.stackBytes - Config.interleaved = 2 ^ 34 := by decide
  unfold State.salvageBase at h
  rw [hlinear] at h
  simp only at h
  split at h
  · cases h
  next hfits => exact ⟨_, Nat.not_lt.1 fun hlt => hfits (.inr hlt), (Option.some.inj h).symm⟩

theorem salvageBase_size {s : State} {a b x y : Nat} (ha : s.salvageBase a = some x) (hb : s.salvageBase b = some y) (h : a < b) :
    x + 208 ≤ y := by
  obtain ⟨n, hn, rfl⟩ := salvageBase_eq ha
  obtain ⟨m, hm, rfl⟩ := salvageBase_eq hb
  have hstride : linearStride = 2 ^ 36 := by decide
  rw [hstride]
  omega

/-- The area of a stack that has no record writes a header (Table 3.7). -/
theorem salvageAt_apart {s : State} {n w lost k top : Nat} {e : Nat × Nat × Copy} {base : Option Nat} (hk : 0 < k) (hk6 : k < 6)
    (hbase : ∀ b, base = some b → top ≤ b) (a : Nat) (ha : a < top) :
    Tab.getD (salvageAt n w lost [(e, 0)] s k base).hbm a 0 = Tab.getD s.hbm a 0 := by
  have hnone : ([(e, 0)].filter fun e : (Nat × Nat × Copy) × Nat => e.2 % 6 == k) = [] := by
    have hother : ((0 % 6 : Nat) == k) = false := beq_false_of_ne (by omega)
    rw [List.filter_cons, hother]
    rfl
  cases base with
  | none => rfl
  | some b =>
    have hapart := hbase b rfl
    rw [salvageAt, hnone]
    refine (getD_writeBytes s.hbm b n (areaHeader 0 lost) a).trans (if_neg (by omega))

theorem salvageSteps_apart {s : State} {lost base : Nat} {e : Nat × Nat × Copy} (hbase : s.salvageBase ((1 - lost) * 6) = some base)
    (ks : List Nat) (hks : ∀ k ∈ ks, 0 < k ∧ k < 6) : ∀ u, Written s u → ∀ a, a < base + 208 →
      Tab.getD (ks.foldl (salvageStep lost [(e, 0)]) u).hbm a 0 = Tab.getD u.hbm a 0 := by
  induction ks with
  | nil => exact fun _ _ _ _ => rfl
  | cons k ks ih =>
    intro u hu a ha
    obtain ⟨hk, hk6⟩ := hks k (List.mem_cons_self ..)
    rw [List.foldl_cons, ih (fun k hk => hks k (List.mem_cons_of_mem _ hk)) _ (hu.trans (written_salvageStep ..)) a ha]
    refine salvageAt_apart hk hk6 (fun b hb => ?_) a ha
    rw [hu.salvageBase] at hb
    exact salvageBase_size hbase hb (by omega)

theorem hbm_salvageArea_one (n w lost base : Nat) (e : Nat × Nat × Copy) (s : State) :
    (salvageArea n w lost base [(e, 0)] s).hbm =
      writeBytes (writeBytes s.hbm base n (areaHeader 1 lost)) (base + n + w * 0) w (salvageRecord e.1 e.2.1 e.2.2) := by
  simp only [salvageArea, List.foldl_cons, List.foldl_nil, List.length_singleton, Nat.zero_div]

/-- The salvage area that holds the one record (Table 3.7). -/
theorem salvage_one {s : State} {lost base r ln : Nat} {c : Copy} (hline : s.salvageLines lost = [(r, ln, c)])
    (hbase : s.salvageBase ((1 - lost) * 6) = some base) (hlost : lost < 2) :
    readBytes (s.salvage lost).hbm base 24 = 1 + 2 ^ 64 + lost * 2 ^ 128 ∧
      readBytes (s.salvage lost).hbm (base + 64) 144 = salvageRecord r ln c % 2 ^ 1152 := by
  let m := writeBytes (writeBytes s.hbm base 64 (areaHeader 1 lost)) (base + 64 + 144 * 0) 144 (salvageRecord r ln c)
  have hfold : s.salvage lost =
      [1, 2, 3, 4, 5].foldl (salvageStep lost [((r, ln, c), 0)]) (salvageStep lost [((r, ln, c), 0)] s 0) := by
    have hrange : List.range 6 = [0, 1, 2, 3, 4, 5] := by decide
    rw [salvage_eq, hline, hrange, List.foldl_cons, List.zipIdx_cons, List.zipIdx_nil]
  have hfirst : salvageStep lost [((r, ln, c), 0)] s 0 = salvageArea 64 144 lost base [((r, ln, c), 0)] s := by
    rw [salvageStep, Nat.add_zero, hbase]
    rfl
  have hbytes : ∀ a, a < base + 208 → Tab.getD (s.salvage lost).hbm a 0 = Tab.getD m a 0 := by
    intro a ha
    rw [hfold, salvageSteps_apart hbase [1, 2, 3, 4, 5] (by decide) _ (written_salvageStep ..) a ha, hfirst, hbm_salvageArea_one]
  have hpow : (2 : Nat) ^ 1152 = 256 ^ 144 := by rw [show (256 : Nat) = 2 ^ 8 by rfl, ← Nat.pow_mul]
  have hheader : areaHeader 1 lost < 256 ^ 24 := by
    rw [areaHeader, show (256 : Nat) ^ 24 = 2 ^ 192 by rfl]
    omega
  refine ⟨?_, ?_⟩
  · rw [readBytes_congr (m' := m) (a' := base) fun i hi => hbytes _ (by omega),
      readBytes_writeBytes_apart _ (by omega), readBytes_prefix _ _ _ (by decide), Nat.mod_eq_of_lt hheader, areaHeader, Nat.one_mul]
  · rw [readBytes_congr (m' := m) (a' := base + 64) fun i hi => hbytes _ (by omega)]
    rw [hpow]
    exact readBytes_writeBytes _ _ _ _

/-- SALVAGE_DONE, once the survivor's areas are written: DONE, and the survivor's report (R63, R64). -/
def reported (lost : Nat) (s : State) : State :=
  if lost = 0 then { s with port := { s.port with posted := s.port.posted ++ [(Code.homeLost, lost)] } }
  else ({ s with port := { s.port with viral := true } } : State).hostEvent { kind := 6, code := Code.homeLost, tinfo := lost }

/-- The state in which SALVAGE_DONE reports. -/
def salvageDone (s : State) : State :=
  { s.setRegField 0x100600 4 1 1 with busy := { (s.setRegField 0x100600 4 1 1).busy with salvaged := true } }

theorem exec_salvageDone {s : State} {lost : Nat} (hdead : s.busy.deadDie = some lost) (hdone : s.busy.salvaged = false) :
    exec .salvageDone s = .next (if s.survivorQuiet lost = true then
      (reported lost (salvageDone (s.salvage lost))).endLaunches lost else s) := by
  show execSalvageDone s = _
  unfold execSalvageDone salvageDone
  rw [hdead]
  refine (if_neg (by rw [hdone]; exact Bool.false_ne_true)).trans ?_
  generalize (s.salvage lost).setRegField 0x100600 4 1 1 = u
  cases s.survivorQuiet lost with
  | false => rfl
  | true => rfl

theorem done_setRegField (r : Nat) : Bits.bit ((r - Bits.field r 4 1 * 2 ^ 4 + 1 % 2 ^ 1 * 2 ^ 4) % 2 ^ 64) 4 = true := by
  simp only [Bits.bit, Bits.field, beq_iff_eq]
  omega

theorem done_salvageDone (s : State) : Bits.bit ((salvageDone s).reg 0x100600) 4 = true := by
  have hreg : (salvageDone s).reg 0x100600 = (s.setRegField 0x100600 4 1 1).reg 0x100600 := rfl
  rw [hreg, State.setRegField, PageWalks.reg_setReg]
  exact done_setRegField _

theorem posted_salvageDone (s : State) : (salvageDone s).port.posted = s.port.posted := rfl
theorem launches_salvageDone (s : State) : (salvageDone s).launches = s.launches := rfl
theorem hbm_salvageDone (s : State) : (salvageDone s).hbm = s.hbm := rfl
theorem salvaged_salvageDone (s : State) : (salvageDone s).busy.salvaged = true := rfl

theorem reported_keeps (lost : Nat) (s : State) : (reported lost s).hbm = s.hbm ∧ (reported lost s).busy = s.busy ∧
    (reported lost s).launches = s.launches ∧ (∀ off, off ≠ evtCtl → (reported lost s).reg off = s.reg off) ∧
    (lost = 1 → (reported lost s).port.viral = true) ∧
    (lost = 0 → (reported lost s).port.posted = s.port.posted ++ [(0x21, 0)]) := by
  unfold reported
  split
  next h =>
    subst h
    exact ⟨rfl, rfl, rfl, fun _ _ => rfl, fun h => absurd h (by decide), fun _ => rfl⟩
  next h =>
    have hset := settling_hostEvent ({ s with port := { s.port with viral := true } } : State)
      { kind := 6, code := Code.homeLost, tinfo := lost }
    obtain ⟨hbusy, hviral, -, hreg⟩ := hset
    exact ⟨(keepsMemory_hostEvent _ _).1, hbusy, (SoftwareTraps.keepsRuns_hostEvent _ _).2.1, hreg, fun _ => hviral,
      fun h' => absurd h' h⟩

theorem salvages {s : State} {lost : Nat} (hlost : lost < 2) (hdead : s.busy.deadDie = some lost)
    (hdone : s.busy.salvaged = false) :
    (s.survivorQuiet lost = false → exec .salvageDone s = .next s) ∧
    (s.survivorQuiet lost = true → ∃ s', exec .salvageDone s = .next s' ∧ s'.launches = [] ∧ s'.busy.salvaged = true ∧
      Bits.bit (s'.reg 0x100600) 4 = true ∧
      (lost = 1 → s'.port.viral = true) ∧ (lost = 0 → s'.port.posted = s.port.posted ++ [(0x21, 0)]) ∧
      ∀ r ln c base, s.salvageLines lost = [(r, ln, c)] → s.salvageBase ((1 - lost) * 6) = some base →
        (∀ p ∈ s.launches, p.2.queue < 64) →
        readBytes s'.hbm base 24 = 1 + 2 ^ 64 + lost * 2 ^ 128 ∧
        readBytes s'.hbm (base + 64) 144 = salvageRecord r ln c % 2 ^ 1152) := by
  have hexec := exec_salvageDone hdead hdone
  refine ⟨fun hquiet => ?_, fun hquiet => ?_⟩
  · rw [hexec, if_neg (by rw [hquiet]; exact Bool.false_ne_true)]
  · rw [if_pos hquiet] at hexec
    have hw := written_salvage s lost
    obtain ⟨hhbm, hbusy, hlaunches, hreg, hviral, hposted⟩ := reported_keeps lost (salvageDone (s.salvage lost))
    obtain ⟨hbusy', hviral', hposted', hreg'⟩ := settling_endLaunches (reported lost (salvageDone (s.salvage lost))) lost
    refine ⟨_, hexec, rfl, ?_, ?_, fun h => ?_, fun h => ?_, fun r ln c base hline hbase hqueues => ?_⟩
    · rw [hbusy', hbusy, salvaged_salvageDone]
    · rw [hreg' _ (by decide), hreg _ (by decide)]
      exact done_salvageDone _
    · rw [hviral', hviral h]
    · rw [hposted', hposted h]
      rw [posted_salvageDone, hw.settling.2.2.1]
    · have hqueues' : ∀ p ∈ (reported lost (salvageDone (s.salvage lost))).launches, p.2.queue < 64 := by
        rw [hlaunches, launches_salvageDone, hw.launches]
        exact hqueues
      rw [hbm_endLaunches lost hqueues', hhbm, hbm_salvageDone]
      exact salvage_one hline hbase hlost

theorem gatingAndLoss : GatingAndLoss :=
  ⟨fun _ _ hdie h0 h1 => requests hdie h0 h1, fun _ _ hdie hbit hpower hidle => gates hdie hbit hpower hidle,
    fun _ _ hdie hgate hoff => ungates hdie hgate hoff, fun _ _ hdead hpower => dieLost hdead hpower,
    fun _ _ hlost hdead hdone => salvages hlost hdead hdone⟩

/-! ### Readback (R421) -/

/-- `s'` is `s` beside team `k`: host memory, the window and the formes are the same, and so is the team, if no thread of it waits
for slugs. -/
structure Beside (k : Nat) (s s' : State) : Prop where
  hostMem : s'.hostMem = s.hostMem
  win : s'.win = s.win
  formes : s'.formes = s.formes
  sorted : Tab.sorted s.teams = true → Tab.sorted s'.teams = true
  team : Tab.sorted s.teams = true → (∀ t, s.team? k = some t → t.slugAsk = []) → s'.team? k = s.team? k

theorem Beside.refl (k : Nat) (s : State) : Beside k s s := ⟨rfl, rfl, rfl, id, fun _ _ => rfl⟩

theorem Beside.trans {k : Nat} {s s' s'' : State} (h : Beside k s s') (h' : Beside k s' s'') : Beside k s s'' where
  hostMem := h'.hostMem.trans h.hostMem
  win := h'.win.trans h.win
  formes := h'.formes.trans h.formes
  sorted hs := h'.sorted (h.sorted hs)
  team hs hq := by
    have hsame := h.team hs hq
    rw [h'.team (h.sorted hs) (by rw [hsame]; exact hq), hsame]

theorem beside_foldl {α : Type} {k : Nat} {F : State → α → State} (l : List α) (h : ∀ s, ∀ a ∈ l, Beside k s (F s a)) (s : State) :
    Beside k s (l.foldl F s) := by
  induction l generalizing s with
  | nil => exact .refl k s
  | cons a l ih => exact (h s a (List.mem_cons_self ..)).trans (ih (fun s b hb => h s b (List.mem_cons_of_mem a hb)) _)

theorem beside_same {k : Nat} {s s' : State} (hhost : s'.hostMem = s.hostMem) (hwin : s'.win = s.win) (hformes : s'.formes = s.formes)
    (hteams : s'.teams = s.teams) : Beside k s s' :=
  ⟨hhost, hwin, hformes, fun h => by rw [hteams]; exact h, fun _ _ => by rw [State.team?, hteams]; rfl⟩

theorem beside_modify {k j : Nat} {s s' : State} {f : Team → Team} (h : k ≠ j) (hhost : s'.hostMem = s.hostMem)
    (hwin : s'.win = s.win) (hformes : s'.formes = s.formes) (hteams : s'.teams = Tab.modify j f s.teams) : Beside k s s' :=
  ⟨hhost, hwin, hformes, fun hs => by rw [hteams]; exact Tab.sorted_modify _ _ _ hs,
    fun _ _ => by rw [State.team?, hteams]; exact Tab.find_modify_other h _ _⟩

theorem beside_put {k j : Nat} {s s' : State} {t : Team} (h : k ≠ j) (hhost : s'.hostMem = s.hostMem)
    (hwin : s'.win = s.win) (hformes : s'.formes = s.formes) (hteams : s'.teams = Tab.put j t s.teams) : Beside k s s' :=
  ⟨hhost, hwin, hformes, fun hs => by rw [hteams]; exact Tab.sorted_put _ _ _ hs,
    fun _ _ => by rw [State.team?, hteams]; exact Tab.find_put_other h _ _⟩

theorem beside_moveSlug {k j : Nat} (h : k ≠ j) (s : State) (core key key' : Nat) : Beside k s (s.moveSlug core j key key') :=
  beside_modify h rfl rfl rfl rfl

theorem beside_freeSlug {k j : Nat} (h : k ≠ j) (s : State) (core key : Nat) : Beside k s (s.freeSlug core j key) := by
  unfold State.freeSlug
  split
  · exact beside_modify h rfl rfl rfl rfl
  · exact beside_modify h rfl rfl rfl rfl

/-- A waiting request is of a team with a thread that waits for slugs. -/
theorem asks_slugAsks {s : State} {core part : Nat} {e : Nat × Nat × Nat × Nat × Nat} (h : e ∈ s.slugAsks core part) :
    ∃ t, (e.2.1, t) ∈ s.teams ∧ t.slugAsk ≠ [] := by
  have hsub : ∀ all : List (Nat × Nat × Nat × Nat × Nat), e ∈ all.foldr (fun e acc =>
      (acc.takeWhile fun a => a.1 < e.1) ++ e :: (acc.dropWhile fun a => a.1 < e.1)) [] → e ∈ all := by
    intro all
    induction all with
    | nil => exact id
    | cons a all ih =>
      intro he
      rw [List.foldr_cons] at he
      rcases List.mem_append.1 he with he | he
      · exact List.mem_cons_of_mem a (ih ((List.takeWhile_sublist _).subset he))
      · rcases List.mem_cons.1 he with rfl | he
        · exact List.mem_cons_self ..
        · exact List.mem_cons_of_mem a (ih ((List.dropWhile_sublist _).subset he))
  obtain ⟨p, hp, hask⟩ := List.mem_flatMap.1 (hsub _ h)
  obtain ⟨q, hq, hsome⟩ := List.mem_filterMap.1 hask
  refine ⟨p.2, ?_, fun hnil => ?_⟩
  · dsimp only at hsome
    split at hsome
    · rw [← Option.some.inj hsome]
      exact (List.mem_filter.1 hp).1
    · cases hsome
  · rw [hnil] at hq
    cases hq

theorem ne_of_ask {s : State} {k core part : Nat} {e : Nat × Nat × Nat × Nat × Nat} (hs : Tab.sorted s.teams = true)
    (hq : ∀ t, s.team? k = some t → t.slugAsk = []) (h : e ∈ s.slugAsks core part) : k ≠ e.2.1 := by
  rintro rfl
  obtain ⟨t, ht, hask⟩ := asks_slugAsks h
  exact hask (hq t (Tab.find_of_mem hs ht))

theorem beside_refuseSlugs (k core part fuel : Nat) (s : State) : Beside k s (s.refuseSlugs core part fuel) := by
  induction fuel generalizing s with
  | zero => exact .refl k s
  | succ fuel ih =>
    rw [State.refuseSlugs]
    split
    · exact .refl k s
    next stamp j rest hlast =>
      split
      · have hstep : ∀ f, Beside k s (s.modTeam j f) := fun f =>
          ⟨rfl, rfl, rfl, fun hs => Tab.sorted_modify _ _ _ hs,
            fun hs hq => Tab.find_modify_other (ne_of_ask hs hq (List.mem_of_getLast? hlast)) _ _⟩
        exact (hstep _).trans (ih _)
      · exact .refl k s

theorem beside_grantSlug {k core part : Nat} {s s' : State} (h : s.grantSlug core part = some s') : Beside k s s' := by
  unfold State.grantSlug at h
  split at h
  next stamp j g first count rest hasks =>
    split at h
    · cases h
    · simp only at h
      split at h
      · obtain rfl := Option.some.inj h
        refine ⟨rfl, rfl, rfl, fun hs => Tab.sorted_modify _ _ _ hs, fun hs hq => ?_⟩
        exact Tab.find_modify_other (ne_of_ask hs hq (hasks ▸ List.mem_cons_self ..)) _ _
      · cases h
  next => cases h

theorem beside_settleSlugs (k core part : Nat) (asked : Bool) (fuel : Nat) (s : State) :
    Beside k s (s.settleSlugs core part asked fuel) := by
  induction fuel generalizing s asked with
  | zero => exact .refl k s
  | succ fuel ih =>
    rw [State.settleSlugs]
    split
    next s' h => exact (beside_grantSlug h).trans (ih _ _)
    next =>
      split
      · exact beside_refuseSlugs ..
      · exact .refl k s

section
variable {s : State} {k : Nat} (hstop : ∀ t, s.team? k = some t → t.stopped = false)
include hstop

theorem ne_of_halted {j : Nat} (h : s.isHalted j = true) : k ≠ j := by
  rintro rfl
  unfold State.isHalted at h
  cases ht : s.team? k with
  | none => rw [ht] at h; cases h
  | some t => rw [ht, Option.map_some, Option.getD_some, hstop t ht] at h; cases h

/-- A slug that takes part in a binding is a stopped team's. -/
theorem ne_of_own {slugs : List (Nat × Nat × Tab Word)} {i : Nat} {p : Nat × Nat × Tab Word}
    (h : (slugs[i]?).filter (fun p => s.isHalted p.1) = some p) : k ≠ p.1 :=
  ne_of_halted hstop (Option.filter_eq_some_iff.1 h).2

theorem beside_rebindSlugs (core part b v : Nat) : Beside k s (s.rebindSlugs core part b v) := by
  have hmoved : ∀ {slugs : List (Nat × Nat × Tab Word)} {changed : List (Nat × Nat)} {kept : Nat × Nat × Tab Word → Nat × Nat → Nat}
      {m : Nat × Nat × Nat × Nat}, m ∈ changed.filterMap (fun c => ((slugs[c.2]?).filter fun p => s.isHalted p.1).map fun p =>
        (c.1, p.1, p.2.1, kept p c)) → k ≠ m.2.1 := by
    intro slugs changed kept m hm
    obtain ⟨c, -, hc⟩ := List.mem_filterMap.1 hm
    obtain ⟨p, hp, rfl⟩ := Option.map_eq_some_iff.1 hc
    exact ne_of_own hstop hp
  unfold State.rebindSlugs
  dsimp only
  have hfirst : ∀ nextTag bad, Beside k s { s with nextTag, bad } := fun _ _ => beside_same rfl rfl rfl rfl
  refine Beside.trans (Beside.trans (Beside.trans (Beside.trans (hfirst _ _) (beside_foldl _ (fun u m hm => ?_) _))
    (beside_foldl _ (fun u c _ => ?_) _)) (beside_foldl _ (fun u m hm => ?_) _)) (beside_settleSlugs ..)
  · exact beside_moveSlug (hmoved (kept := fun _ c => 64 + 4 * (s.nextTag + c.1) + part) hm) ..
  · split
    next p hp => exact beside_freeSlug (ne_of_own hstop hp) ..
    next => exact .refl k u
  · exact beside_moveSlug (hmoved (kept := fun _ c => 64 + 4 * (s.nextTag + c.1) + part) hm) ..

theorem beside_writeGalleySpace (core part b v : Nat) : Beside k s (s.writeGalleySpace core part b v) := by
  unfold State.writeGalleySpace
  split
  · exact beside_rebindSlugs hstop ..
  split
  · exact .refl k s
  next j name words _ =>
    split
    next hhalt => exact beside_modify (ne_of_halted hstop hhalt) rfl rfl rfl rfl
    next => exact .refl k s

theorem beside_writeGroupSpace (index b v : Nat) : Beside k s (s.writeGroupSpace index b v) := by
  unfold State.writeGroupSpace
  split
  · exact .refl k s
  next j t g _ =>
    split
    next hhalt => exact beside_put (ne_of_halted hstop hhalt) rfl rfl rfl rfl
    next => exact .refl k s

theorem beside_writeTeamSpace (index b v : Nat) : Beside k s (s.writeTeamSpace index b v) := by
  unfold State.writeTeamSpace
  split
  · exact .refl k s
  next j t _ =>
    split
    next hhalt =>
      simp only
      split
      · exact beside_put (ne_of_halted hstop hhalt) rfl rfl rfl rfl
      · exact beside_put (ne_of_halted hstop hhalt) rfl rfl rfl rfl
    next => exact .refl k s

omit hstop in
theorem beside_writeBinSpace (core b v : Nat) : Beside k s (s.writeBinSpace core b v) := by
  unfold State.writeBinSpace
  simp only
  split
  · exact .refl k s
  split
  · split
    · exact beside_same rfl rfl rfl rfl
    · exact .refl k s
  split
  · exact .refl k s
  · split
    · exact beside_same rfl rfl rfl rfl
    · exact .refl k s

/-- What no write of the aperture changes while team `k` is not stopped. -/
def Untouched (k : Nat) (s s' : State) : Prop := s'.hostMem = s.hostMem ∧ s'.win = s.win ∧
  Tab.find k s'.formes = Tab.find k s.formes ∧
  (Tab.sorted s.teams = true → (∀ t, s.team? k = some t → t.slugAsk = []) → s'.team? k = s.team? k)

omit hstop in
theorem untouched_of_beside {s' : State} (h : Beside k s s') : Untouched k s s' := ⟨h.hostMem, h.win, by rw [h.formes], h.team⟩

theorem untouched_writeFormeSpace (core b v : Nat) : Untouched k s (s.writeFormeSpace core b v) := by
  unfold State.writeFormeSpace
  simp only
  split
  · exact untouched_of_beside (.refl k s)
  next j f _ =>
    split
    next hhalt => exact ⟨rfl, rfl, Tab.find_put_other (ne_of_halted hstop hhalt) _ _, fun _ _ => rfl⟩
    next => exact untouched_of_beside (.refl k s)

omit hstop in
theorem untouched_writeHbmSpace (stack b v : Nat) : Untouched k s (s.writeHbmSpace stack b v) := by
  unfold State.writeHbmSpace
  split
  · exact ⟨rfl, rfl, rfl, fun _ _ => rfl⟩
  · exact untouched_of_beside (.refl k s)

theorem untouched_writeReadback (off v : Nat) : Untouched k s (s.writeReadback off v) := by
  unfold State.writeReadback
  generalize s.stPage * 2 ^ 24 + off % 2 ^ 24 = b
  split
  · exact untouched_of_beside (beside_writeGroupSpace hstop ..)
  · exact untouched_of_beside (beside_writeTeamSpace hstop ..)
  · exact untouched_writeFormeSpace hstop ..
  · simp only
    split
    · exact untouched_of_beside (beside_writeGalleySpace hstop ..)
    · exact untouched_of_beside (.refl k s)
  · exact untouched_of_beside (beside_writeBinSpace ..)
  · exact untouched_writeHbmSpace ..
  · exact untouched_of_beside (.refl k s)

end

theorem exec_readbackWrite (s : State) (off : Nat) (v : DWord) :
    exec (.stateReadbackWrite off v) s = .next (if off % 8 = 0 then s.writeReadback off v.toNat else s) := rfl

theorem writeReadback_hbm {s : State} (off v : Nat) (hspace : s.stSpace = 9) :
    s.writeReadback off v = s.writeHbmSpace s.stIndex (s.stPage * 2 ^ 24 + off % 2 ^ 24) v := by
  unfold State.writeReadback
  generalize s.stPage * 2 ^ 24 + off % 2 ^ 24 = b
  rw [hspace]
  rfl

/-- Eight bytes of a stack (R421). -/
def writeStack (n : Nat) (s : State) (pa v : Nat) : State := { s with hbm := writeBytes s.hbm pa n v }

theorem writeStack_stored (n : Nat) (s : State) (pa v : Nat) :
    Stored s.hbm (writeStack n s pa v).hbm pa n v ∧ { writeStack n s pa v with hbm := s.hbm } = s :=
  ⟨fun a => getD_writeBytes s.hbm pa n v a, rfl⟩

theorem writeHbmSpace_eq {s : State} {stack b : Nat} (v : Nat) (hstack : stack < 12) (hb : b < Config.stackBytes)
    (hpower : s.hasPower (dieOfStack stack) = true) : s.writeHbmSpace stack b v = writeStack 8 s (stackAddress stack b) v := by
  unfold State.writeHbmSpace
  refine if_pos ?_
  rw [hpower, decide_eq_true hb, decide_eq_true (p := stack < Config.stackCount) hstack]
  rfl

theorem readback : Readback := by
  refine ⟨fun s off v => ?_, fun s off v halign hspace hindex hpower => ?_⟩
  · rw [exec_readbackWrite]
    split
    · have hfree : ∀ t, s.team? (Tab.freeKey s.teams (s.teams.length + 1) 0) = some t → t.stopped = false := fun t ht => by
        rw [State.team?, Tables.find_freeKey (Nat.lt_succ_self _)] at ht
        cases ht
      obtain ⟨hhost, hwin, -⟩ := untouched_writeReadback hfree off v.toNat
      exact ⟨_, rfl, hhost, hwin, fun k hstop => (untouched_writeReadback hstop off v.toNat).2.2⟩
    · exact ⟨s, rfl, rfl, rfl, fun _ _ => ⟨rfl, fun _ _ => rfl⟩⟩
  · intro b hb
    rw [exec_readbackWrite, if_pos halign, writeReadback_hbm off _ hspace, writeHbmSpace_eq _ hindex hb hpower]
    exact ⟨_, rfl, writeStack_stored ..⟩

/-- Settles O55: a reset is the reset state but for what it keeps, a flush of lines touches memory alone, and no write of the
readback aperture reaches a team that runs. -/
theorem resetsAndPower : Obligations.ResetsAndPower := ⟨resets, gatingAndLoss, readback⟩

end Sys2Proof.Proofs.Power

/-! Engine jobs (R33, R34, R73, R103, R111, R114 to R120, R138): what the delivery of a fault leaves alone, once for every
relation between states, and from it what a job's end leaves. -/

namespace Sys2Proof.Proofs.Jobs

open Sys2Proof Sys2Proof.Machine Sys2Proof.Claims Sys2Proof.Proofs.Homes Sys2Proof.Proofs.Slices Sys2Proof.Proofs.Accesses

/-! ### What the delivery of a fault leaves -/

/-- What a fault leaves of a thread: its registers and the handles that they hold. -/
def holding (th : Thread) : Tab Word × Tab Nat := (th.regs, th.pend)

/-- A relation between states that every step of a fault's delivery respects (R372 to R376). -/
structure Unmoved (R : State → State → Prop) : Prop where
  refl : ∀ s, R s s
  trans : ∀ {s t u}, R s t → R t u → R s u
  hostEvent : ∀ s e, R s (s.hostEvent e)
  noteFault : ∀ s k c r, R s (s.noteFault k c r)
  thread : ∀ s i f, (∀ th, holding (f th) = holding th) → R s (s.modThread i f)
  stopped : ∀ s (i : Tid) x tpc, R s (s.modTeam i.team fun t => { t.modThread i.n (fun th => th.stop x tpc) with stopped := true })
  rest : ∀ s devQueues memops platens, R s { s with devQueues, memops, platens }

section
variable {R : State → State → Prop} (h : Unmoved R)
include h

theorem Unmoved.foldl {α : Type} {F : State → α → State} (hF : ∀ s a, R s (F s a)) (l : List α) (s : State) :
    R s (l.foldl F s) := by
  induction l generalizing s with
  | nil => exact h.refl s
  | cons a l ih => exact h.trans (hF s a) (ih _)

theorem Unmoved.memops (s : State) (memops : Tab MemOp) : R s { s with memops } := h.rest s s.devQueues memops s.platens

theorem Unmoved.threadsGoOn (s : State) (op : MemOp) (ns : List Nat) : R s (s.threadsGoOn op ns) := by
  unfold State.threadsGoOn
  refine h.trans ?_ (h.foldl (fun s n => ?_) ns _)
  rotate_left
  · exact h.thread s _ _ fun _ => rfl
  split
  · refine h.foldl (fun s n => ?_) ns s
    unfold State.placeRecord
    split
    · refine h.trans (h.rest s _ s.memops s.platens) (h.thread _ _ _ fun th => ?_)
      unfold Thread.setP
      split <;> rfl
    · exact h.refl s
  · exact h.refl s

theorem Unmoved.rewindOps (s : State) (k : Nat) : R s (s.rewindOps k) := by
  refine h.foldl (fun s p => ?_) s.memops s
  obtain ⟨key, op⟩ := p
  simp only
  split
  · exact h.refl s
  · have hundone := h.foldl (F := fun s n => s.modThread { team := k, n } fun th =>
      if th.wait == .mem key then { th with wait := .ready, launching := none } else th)
      (fun s n => h.thread s _ _ fun th => by split <;> rfl) (op.accs.map Access.tid) s
    split
    · exact h.trans (h.trans hundone (h.memops _ _)) (h.threadsGoOn _ _ _)
    · exact h.trans hundone (h.memops _ _)

theorem Unmoved.deliver (s : State) (i : Tid) (x : Trap) (next : Nat) : R s (s.deliver i x next) := by
  unfold State.deliver
  split
  · exact h.refl s
  split
  · exact h.refl s
  split
  · exact h.trans (h.rest s s.devQueues s.memops _) (h.thread _ _ _ fun _ => rfl)
  simp only
  split
  · exact h.thread s _ _ fun _ => rfl
  split
  · exact h.trans (h.trans (h.trans (h.hostEvent s _) (h.noteFault _ _ _ _)) (h.stopped _ i _ _)) (h.rewindOps _ _)
  · exact h.thread s _ _ fun _ => rfl

theorem Unmoved.deliverFaults (s : State) (l : Machine.Faults) : R s (s.deliverFaults l) := by
  refine h.foldl (fun s e => ?_) _ s
  obtain ⟨i, x, next⟩ := e
  refine h.trans (h.thread s i _ ?_) (h.deliver _ _ _ _)
  exact fun _ => rfl

theorem Unmoved.drainFault (s : State) (launch addr status : Nat) : R s (s.drainFault launch addr status) :=
  h.trans (h.noteFault s _ _ _) (h.hostEvent _ _)

end

/-! ### What a job's end leaves -/

/-- Jobs, formes and device memory are the same; launches keep their times, threads their registers and handles. -/
def Spared (s s' : State) : Prop :=
  s'.jobs = s.jobs ∧ s'.formes = s.formes ∧ s'.hbm = s.hbm ∧
    (∀ k, (Tab.find k s'.launches).map Launch.time = (Tab.find k s.launches).map Launch.time) ∧
    ∀ i, (s'.thread? i).map holding = (s.thread? i).map holding

theorem Spared.refl (s : State) : Spared s s := ⟨rfl, rfl, rfl, fun _ => rfl, fun _ => rfl⟩

theorem Spared.trans {s t u : State} (h : Spared s t) (h' : Spared t u) : Spared s u := by
  obtain ⟨hjobs, hformes, hhbm, htimes, hthreads⟩ := h
  obtain ⟨hjobs', hformes', hhbm', htimes', hthreads'⟩ := h'
  exact ⟨hjobs'.trans hjobs, hformes'.trans hformes, hhbm'.trans hhbm, fun k => (htimes' k).trans (htimes k),
    fun i => (hthreads' i).trans (hthreads i)⟩

theorem spared_same {s s' : State} (hjobs : s'.jobs = s.jobs) (hformes : s'.formes = s.formes) (hhbm : s'.hbm = s.hbm)
    (hlaunches : s'.launches = s.launches) (hteams : s'.teams = s.teams) : Spared s s' :=
  ⟨hjobs, hformes, hhbm, fun _ => by rw [hlaunches], fun _ => by simp only [State.thread?, State.team?, hteams]⟩

theorem spared_writeHost (s : State) (pa n v : Nat) : Spared s (s.writeHost pa n v) := spared_same rfl rfl rfl rfl rfl

theorem spared_setRegField (s : State) (off lo w v : Nat) : Spared s (s.setRegField off lo w v) :=
  spared_same rfl rfl rfl rfl rfl

theorem spared_withPort (s : State) (port : Port) : Spared s { s with port } := spared_same rfl rfl rfl rfl rfl

theorem spared_hostEvent (s : State) (e : HostEvent) : Spared s (s.hostEvent e) := by
  unfold State.hostEvent
  simp only
  split
  · exact .refl s
  split
  · exact spared_setRegField ..
  · exact ((spared_writeHost s _ _ _).trans (spared_setRegField ..)).trans (spared_withPort ..)

theorem spared_noteFault (s : State) (k code reason : Nat) : Spared s (s.noteFault k code reason) := by
  refine ⟨rfl, rfl, rfl, fun m => ?_, fun _ => rfl⟩
  rw [State.noteFault, Tab.find_modify]
  split
  · cases Tab.find m s.launches <;> rfl
  · rfl

theorem spared_modThread (s : State) (i : Tid) (f : Thread → Thread) (hf : ∀ th, holding (f th) = holding th) :
    Spared s (s.modThread i f) := by
  refine ⟨rfl, rfl, rfl, fun _ => rfl, fun j => ?_⟩
  rw [thread?_modThread]
  split
  · cases s.thread? j with
    | none => rfl
    | some th => exact congrArg some (hf th)
  · rfl

theorem spared_stopped (s : State) (i : Tid) (x : Trap) (tpc : Nat) :
    Spared s (s.modTeam i.team fun t => { t.modThread i.n (fun th => th.stop x tpc) with stopped := true }) := by
  have h := spared_modThread s i (fun th => th.stop x tpc) fun _ => rfl
  refine ⟨rfl, rfl, rfl, fun _ => rfl, fun j => (congrArg _ ?_).trans (h.2.2.2.2 j)⟩
  simp only [State.thread?, State.modThread, team?_modTeam]
  split
  · cases s.team? j.team <;> rfl
  · rfl

/-- A fault's delivery spares them (R372 to R376). -/
theorem unmoved_spared : Unmoved Spared where
  refl := .refl
  trans := .trans
  hostEvent := spared_hostEvent
  noteFault := spared_noteFault
  thread := spared_modThread
  stopped := spared_stopped
  rest _ _ _ _ := ⟨rfl, rfl, rfl, fun _ => rfl, fun _ => rfl⟩

theorem spared_futureSeen (s : State) (key time : Nat) : Spared s (s.futureSeen key time) := by
  refine unmoved_spared.foldl (fun s p => ?_) s.teams s
  dsimp only
  split
  · exact spared_same rfl rfl rfl rfl rfl
  · exact .refl s

theorem futureSeen_rest (s : State) (key time : Nat) : { s.futureSeen key time with clocks := s.clocks } = s := by
  have hfold : ∀ (ts : Tab Team) (s : State), { ts.foldl (fun s (p : Nat × Team) =>
      if p.2.threads.any fun q => q.2.wait == .future key then s.raise p.2.clockKey time else s) s with clocks := s.clocks } = s := by
    intro ts
    induction ts with
    | nil => exact fun _ => rfl
    | cons p ts ih =>
      intro s
      rw [List.foldl_cons]
      split
      · exact (congrArg (fun u : State => { u with clocks := s.clocks }) (ih (s.raise p.2.clockKey time)) :)
      · exact ih s
  exact hfold s.teams s

/-! ### The status in its registers -/

theorem setVs_all (ns : List Nat) (status time : Nat) (n : Nat) (th : Thread) :
    (ns.foldl (fun th n => { th.setV n status with seen := Tab.put n time th.seen }) th).v n =
      if n ∈ ns then BitVec.ofNat 32 status else th.v n := by
  induction ns generalizing th with
  | nil => rfl
  | cons a ns ih =>
    have hset : Thread.v { th.setV a status with seen := Tab.put a time th.seen } n =
        if n = a then BitVec.ofNat 32 status else th.v n := by
      simp only [Thread.v, Thread.setV, Tab.getD_set]
    rw [List.foldl_cons, ih, hset]
    by_cases ha : n = a <;> simp [ha]

theorem ended_holding (th : Thread) (ns : List Nat) : holding (th.ended ns) = holding th := by
  unfold Thread.ended
  split <;> rfl

theorem ended_wait (th : Thread) (ns : List Nat) : (th.ended ns).wait = th.wait := by
  unfold Thread.ended
  split <;> rfl

theorem setVs_wait (ns : List Nat) (status time : Nat) (th : Thread) :
    (ns.foldl (fun th n => { th.setV n status with seen := Tab.put n time th.seen }) th).wait = th.wait := by
  induction ns generalizing th with
  | nil => rfl
  | cons a ns ih => exact ih _

theorem setVs_pend (ns : List Nat) (status time : Nat) (th : Thread) :
    (ns.foldl (fun th n => { th.setV n status with seen := Tab.put n time th.seen }) th).pend = th.pend := by
  induction ns generalizing th with
  | nil => rfl
  | cons a ns ih => exact ih _

/-- A thread after a job's end, field by field (R120, R138). -/
theorem future_fields (th : Thread) (key status time : Nat) (ks : List Nat) :
    (th.future key status time ks).pend = (th.pend.filter fun p => p.2 != key) ∧
    (th.future key status time ks).wait = (if th.wait == .future key then .ready else th.wait) ∧
    ∀ n, (th.future key status time ks).v n =
      if n ∈ (th.pend.filter fun p => p.2 == key).map (·.1) then BitVec.ofNat 32 status else th.v n := by
  generalize hmine : (th.pend.filter fun p => p.2 == key).map (·.1) = mine
  obtain ⟨u, hu⟩ : ∃ u, u = (mine.foldl (fun th n => { th.setV n status with seen := Tab.put n time th.seen }) th).ended
    (mine ++ ks.map (1024 + ·)) := ⟨_, rfl⟩
  have hheld := ended_holding (mine.foldl (fun th n => { th.setV n status with seen := Tab.put n time th.seen }) th)
    (mine ++ ks.map (1024 + ·))
  have hwait := ended_wait (mine.foldl (fun th n => { th.setV n status with seen := Tab.put n time th.seen }) th)
    (mine ++ ks.map (1024 + ·))
  rw [← hu] at hheld hwait
  simp only [Thread.future, hmine, ← hu]
  refine ⟨?_, ?_, fun n => ?_⟩
  · exact congrArg _ ((congrArg Prod.snd hheld :).trans (setVs_pend mine status time th))
  · rw [hwait, setVs_wait]
  · rw [← setVs_all mine status time n th]
    exact congrArg (Tab.getD · n 0) (congrArg Prod.fst hheld : u.regs = _)

/-- The status stands in every register that held the mark, and the mark is gone (R120, R138). -/
theorem future_delivers {th : Thread} {key n : Nat} (status time : Nat) (ks : List Nat) (hsort : Tab.sorted th.pend = true)
    (h : Tab.find n th.pend = some key) :
    Tab.find n (th.future key status time ks).pend = none ∧ (th.future key status time ks).v n = BitVec.ofNat 32 status := by
  obtain ⟨hpend, -, hv⟩ := future_fields th key status time ks
  refine ⟨?_, ?_⟩
  · cases hfind : Tab.find n (th.future key status time ks).pend with
    | none => rfl
    | some v =>
      rw [hpend] at hfind
      obtain ⟨hin, hne⟩ := List.mem_filter.1 (Tab.mem_of_find hfind)
      obtain rfl : v = key := Option.some.inj ((Tab.find_of_mem hsort hin).symm.trans h)
      simp at hne
  · rw [hv, if_pos (List.mem_map.2 ⟨(n, key), List.mem_filter.2 ⟨Tab.mem_of_find h, by simp⟩, rfl⟩)]

/-! ### The end of a job -/

/-- A job's end when its lines and its object have been seen to: the status to its handles, the jobs that waited for it, the
launch's time (R78, R119, R120, R348). -/
def closed (s : State) (key : Nat) (j : Job) (status : Nat) : State :=
  (({ s with
      teams := s.teams.map fun (p : Nat × Team) => (p.1, p.2.future key status j.endTime)
      jobs := (Tab.del key s.jobs).map fun (p : Nat × Job) => (p.1, p.2.released key j.endTime)
      launches := Tab.modify j.launch (fun l => { l with time := max l.time j.endTime }) s.launches } : State).raise
    (engineClock j.kind j.core) j.endTime).stirLaunch j.launch

/-- What of a job's end is the same however it ended, of the states before and after: it is gone, no job waits for it, its
launch's time counts it, and its status stands in the registers that held its handle. -/
def Ends (s s' : State) (k : Nat) (j : Job) (status : Nat) : Prop :=
  Tab.find k s'.jobs = none ∧
    (∀ m b, m ≠ k → Tab.find m s.jobs = some b → ∃ b', Tab.find m s'.jobs = some b' ∧ b'.edges = b.edges.erase k) ∧
    s'.hbm = s.hbm ∧ (∀ l, Tab.find j.launch s.launches = some l →
      (Tab.find j.launch s'.launches).map Launch.time = some (max l.time j.endTime)) ∧
    ∀ i th, s.thread? i = some th → Tab.sorted th.pend = true → ∃ th', s'.thread? i = some th' ∧
      ∀ n, Tab.find n th.pend = some k → Tab.find n th'.pend = none ∧ th'.v n = BitVec.ofNat 32 status

theorem released_edges (b : Job) (key time : Nat) : (b.released key time).edges = b.edges.erase key := by
  unfold Job.released
  split
  · rfl
  next h => exact (List.erase_of_not_mem (by simpa using h)).symm

theorem kept_threads (ns : List Nat) (status time : Nat) (t : Team) :
    (ns.foldl (fun t n => { (t.kForget [n]).setK n status 1 with kseen := Tab.put n time t.kseen }) t).threads = t.threads := by
  induction ns generalizing t with
  | nil => rfl
  | cons a ns ih => exact ih _

theorem closed_thread (s : State) (key : Nat) (j : Job) (status : Nat) (i : Tid) :
    ∃ ks, (closed s key j status).thread? i = (s.thread? i).map fun th => th.future key status j.endTime ks := by
  have hteam : (closed s key j status).team? i.team = (s.team? i.team).map fun t => t.future key status j.endTime :=
    PassingTime.find_map (fun t : Team => t.future key status j.endTime) i.team s.teams
  cases ht : s.team? i.team with
  | none => exact ⟨[], by simp only [State.thread?, hteam, ht]; rfl⟩
  | some t =>
    refine ⟨(t.kp.filter fun p => p.2 == key).map (·.1), ?_⟩
    simp only [State.thread?, hteam, ht, Option.map_some, Option.bind_some]
    unfold Team.future
    dsimp only
    rw [kept_threads]
    exact PassingTime.find_map (fun th : Thread => th.future key status j.endTime _) i.n t.threads

theorem Ends.withFormes {s u : State} {k : Nat} {j : Job} {status : Nat} {formes : Tab Forme}
    (h : Ends s (closed { u with formes } k j status) k j status) : Ends s (closed u k j status) k j status := h

theorem closed_ends {s u : State} {k : Nat} {j : Job} {status : Nat} (h : Spared s u) : Ends s (closed u k j status) k j status := by
  obtain ⟨hjobs, -, hhbm, htimes, hthreads⟩ := h
  have hfind : ∀ m, Tab.find m (closed u k j status).jobs =
      (if m = k then none else Tab.find m s.jobs).map fun b => b.released k j.endTime := fun m => by
    rw [← Tab.find_del, ← hjobs]
    exact PassingTime.find_map (fun b : Job => b.released k j.endTime) m (Tab.del k u.jobs)
  refine ⟨by rw [hfind, if_pos rfl]; rfl, fun m b hm hb => ⟨_, by rw [hfind, if_neg hm, hb]; rfl, released_edges b _ _⟩, hhbm,
    fun l hl => ?_, fun i th hth hsort => ?_⟩
  · have htime := htimes j.launch
    show (Tab.find j.launch (Tab.modify j.launch _ (Tab.modify j.launch _ u.launches))).map Launch.time = _
    rw [Tab.find_modify_same, Tab.find_modify_same]
    rw [hl] at htime
    cases hu : Tab.find j.launch u.launches with
    | none => rw [hu] at htime; cases htime
    | some l' =>
      rw [hu] at htime
      exact congrArg (fun t => some (max t j.endTime)) (Option.some.inj htime)
  · have hheld := hthreads i
    rw [hth] at hheld
    obtain ⟨ks, hks⟩ := closed_thread u k j status i
    cases hu : u.thread? i with
    | none => rw [hu] at hheld; cases hheld
    | some th1 =>
      rw [hu] at hheld hks
      have hpend : th1.pend = th.pend := congrArg Prod.snd (Option.some.inj hheld)
      exact ⟨_, hks, fun n hn => future_delivers status _ ks (hpend ▸ hsort) (hpend ▸ hn)⟩

/-- A job that has done all its lines ends (R120). -/
theorem endJob_complete {s : State} {key : Nat} {j : Job} (h : j.ended = none) :
    s.endJob key j = closed (s.futureSeen key j.endTime) key j 0 := by
  have hearly : decide (0 < (0 : Nat) / 2 ^ 24) = false := by decide
  have hfault : isFaultStatus 0 = false := by decide
  simp only [State.endJob, h, Option.getD_none, Job.doneStatus, hearly, hfault, Bool.false_and, Bool.and_false, Bool.false_eq_true,
    if_false]
  rfl

/-- A job's end after a stop reports a discarded status to the host (R121). -/
def reported (s : State) (key : Nat) (j : Job) (status : Nat) : State :=
  if !s.isHeld key && isFaultStatus status then s.drainFault j.launch j.faultAddr status else s

theorem spared_reported (s : State) (key : Nat) (j : Job) (status : Nat) : Spared s (reported s key j status) := by
  unfold reported
  split
  · exact unmoved_spared.drainFault _ _ _ _
  · exact .refl s

/-- A job that stopped early, of no collective, ends (R99, R105, R121). -/
theorem endJob_early {s : State} {key status : Nat} {j : Job} (hkind : j.kind ≠ .coll) (h : j.ended = some status)
    (hstatus : 2 ^ 24 ≤ status) :
    s.endJob key j = closed (reported ((s.spoil key j status).futureSeen key j.endTime) key j status) key j status := by
  have hearly : decide (0 < status / 2 ^ 24) = true := decide_eq_true (Nat.div_pos hstatus (by decide))
  have hcoll : (j.kind == JobKind.coll) = false := by cases hk : j.kind <;> first | rfl | exact absurd hk hkind
  simp only [State.endJob, h, Option.getD_some, hearly, hcoll, Bool.and_false, Bool.false_and, Bool.false_eq_true, if_false, if_true]
  rfl

/-! ### The forme lines of a job that stopped early -/

/-- A line that its job did not deliver is faulted (R99). -/
def faulted (status : Nat) (s : State) (p : Nat × Nat) : State :=
  s.modForme p.1 fun f =>
    { f with pres := Tab.set 0 p.2 2 f.pres, writer := Tab.del p.2 f.writer, cause := Tab.set 0 p.2 status f.cause }

theorem faulted_rest (status : Nat) (l : List (Nat × Nat)) (s : State) :
    { l.foldl (faulted status) s with formes := s.formes } = s := by
  induction l generalizing s with
  | nil => rfl
  | cons p l ih => exact (congrArg (fun u : State => { u with formes := s.formes }) (ih (faulted status s p)) :)

theorem faulted_presence (status : Nat) (l : List (Nat × Nat)) (s : State) (k line : Nat) (hk : Tab.has s.formes k = true)
    (h : (s.forme k).presence line = 2 ∨ (k, line) ∈ l) : ((l.foldl (faulted status) s).forme k).presence line = 2 := by
  induction l generalizing s with
  | nil => exact h.resolve_right (List.not_mem_nil)
  | cons p l ih =>
    have hfind : Tab.find k (faulted status s p).formes = if k = p.1 then (Tab.find k s.formes).map _ else Tab.find k s.formes :=
      Tab.find_modify _ _ _ _
    obtain ⟨f, hf⟩ := Option.isSome_iff_exists.1 hk
    have hforme : s.forme k = f := by rw [State.forme, hf]; rfl
    refine ih (faulted status s p) (by rw [Tab.has, hfind, hf]; split <;> rfl) ?_
    have hpres : ((faulted status s p).forme k).presence line = if k = p.1 ∧ line = p.2 then 2 else f.presence line := by
      rw [State.forme, hfind, hf]
      by_cases hp : k = p.1
      · simp only [hp, if_true, true_and, Option.map_some, Option.getD_some, Forme.presence, Tab.getD_set]
      · simp only [hp, if_false, false_and, Option.getD_some]
    rw [hpres]
    by_cases hp : k = p.1 ∧ line = p.2
    · exact .inl (if_pos hp)
    · rw [if_neg hp, ← hforme]
      refine h.imp_right fun hin => (List.mem_cons.1 hin).resolve_left fun he => hp ?_
      exact ⟨congrArg Prod.fst he, congrArg Prod.snd he⟩

/-- The lines of a job without an object that stopped early, and the faults that this shows (R99, R100, R105). -/
theorem spoil_eq {s : State} {key status : Nat} {j : Job} (h : j.object = none) : ∃ l : Machine.Faults, s.spoil key j status =
    (((s.formeLines j.cluster j.kind j.card).filter fun p => Tab.find p.2 (s.forme p.1).writer == some key).foldl
      (faulted status) s).deliverFaults l := by
  unfold State.spoil
  rw [h]
  exact ⟨_, rfl⟩

theorem spared_of_formes {s t u : State} (ht : { t with formes := s.formes } = s) (h : Spared t u) :
    Spared s { u with formes := s.formes } := by
  obtain ⟨hjobs, -, hhbm, htimes, hthreads⟩ := h
  have hlaunches : t.launches = s.launches := (congrArg State.launches ht :)
  have hteams : ∀ i, t.thread? i = s.thread? i := fun i => (congrArg (fun u : State => u.thread? i) ht :)
  exact ⟨hjobs.trans (congrArg State.jobs ht :), rfl, hhbm.trans (congrArg State.hbm ht :),
    fun k => (htimes k).trans (by rw [hlaunches]), fun i => (hthreads i).trans (by rw [hteams])⟩

/-! ### The clauses of the end -/

section
variable {s : State} {k : Nat} {j : Job}

theorem jobEnd_complete (hfind : Tab.find k s.jobs = some j) (hstarted : j.started = true) (hdone : j.complete = true)
    (hended : j.ended = none) : ∃ s', exec (.jobEnd k) s = .next s' ∧ Ends s s' k j 0 ∧ s'.formes = s.formes ∧
      s'.hostMem = s.hostMem ∧
      ∀ i th, s.thread? i = some th → th.wait = .future k → (s'.thread? i).map Thread.wait = some .ready := by
  have hexec : exec (.jobEnd k) s = .next (s.endJob k j) := by
    show execJobEnd k s = _
    simp only [execJobEnd, hfind, hstarted, hdone, Bool.and_self, Bool.or_true, if_true]
  have hseen := spared_futureSeen s k j.endTime
  have hrest := futureSeen_rest s k j.endTime
  refine ⟨_, hexec.trans (congrArg _ (endJob_complete hended)), closed_ends hseen, hseen.2.1, (congrArg State.hostMem hrest :),
    fun i th hth hwait => ?_⟩
  obtain ⟨ks, hks⟩ := closed_thread (s.futureSeen k j.endTime) k j 0 i
  have hth' : (s.futureSeen k j.endTime).thread? i = some th := (congrArg (fun u : State => u.thread? i) hrest :).trans hth
  obtain ⟨-, hready, -⟩ := future_fields th k 0 j.endTime ks
  rw [hks, hth', Option.map_some, Option.map_some, hready, hwait]
  simp

theorem jobEnd_early {status : Nat} (hfind : Tab.find k s.jobs = some j) (hkind : j.kind ≠ .coll) (hended : j.ended = some status)
    (hstatus : 2 ^ 24 ≤ status) (hobject : j.object = none) : ∃ s', exec (.jobEnd k) s = .next s' ∧ Ends s s' k j status ∧
      ∀ p ∈ s.formeLines j.cluster j.kind j.card,
        Tab.find p.2 (s.forme p.1).writer = some k → (s'.forme p.1).presence p.2 = 2 := by
  have hexec : exec (.jobEnd k) s = .next (s.endJob k j) := by
    show execJobEnd k s = _
    simp only [execJobEnd, hfind, hended, Option.isSome_some, Bool.true_or, if_true]
  obtain ⟨mine, hmine⟩ : ∃ mine, mine = (s.formeLines j.cluster j.kind j.card).filter fun p =>
    Tab.find p.2 (s.forme p.1).writer == some k := ⟨_, rfl⟩
  obtain ⟨faults, hspoil⟩ := spoil_eq (s := s) (key := k) (status := status) hobject
  rw [← hmine] at hspoil
  obtain ⟨t, ht⟩ : ∃ t, t = mine.foldl (faulted status) s := ⟨_, rfl⟩
  rw [← ht] at hspoil
  have hspared : Spared t (reported ((s.spoil k j status).futureSeen k j.endTime) k j status) := by
    rw [hspoil]
    exact ((unmoved_spared.deliverFaults t faults).trans (spared_futureSeen _ _ _)).trans (spared_reported _ _ _ _)
  rw [endJob_early hkind hended hstatus] at hexec
  generalize reported ((s.spoil k j status).futureSeen k j.endTime) k j status = u at hspared hexec
  have hends := closed_ends (k := k) (j := j) (status := status)
    (spared_of_formes (s := s) (by rw [ht]; exact faulted_rest status mine s) hspared)
  refine ⟨_, hexec, hends.withFormes, fun p hp hwriter => ?_⟩
  have hk : Tab.has s.formes p.1 = true := by
    rw [State.forme] at hwriter
    rw [Tab.has]
    cases hf : Tab.find p.1 s.formes with
    | some f => rfl
    | none => rw [hf] at hwriter; cases hwriter
  have hin : p ∈ mine := hmine ▸ List.mem_filter.2 ⟨hp, by rw [hwriter]; exact beq_self_eq_true _⟩
  have hpres := faulted_presence status mine s p.1 p.2 hk (.inr hin)
  rw [← ht] at hpres
  rw [← hpres]
  exact congrArg (fun formes : Tab Forme => Forme.presence ((Tab.find p.1 formes).getD { size := 0, cluster := 0, core := 0 }) p.2)
    hspared.2.1

/-- A job starts (R111, R119). -/
theorem jobStart_starts (hfind : Tab.find k s.jobs = some j) (hedges : j.edges = []) (hstarted : j.started = false)
    (hended : j.ended = none) (hfirst : s.outranked j = false) :
    exec (.jobStart k) s = .next { s with jobs := Tab.put k { j with started := true } s.jobs } := by
  show execJobStart k s = _
  simp only [execJobStart, hfind, Job.startable, hedges, hstarted, hended, hfirst, List.isEmpty_nil, Bool.not_false,
    Option.isNone_none, Bool.and_self, if_true]

end

/-! ### A line at its home -/

section
variable {s : State} {ln : Nat} {l : HomeLine}

/-- A line that stands free at a powered home can be used there at once (R46, R57). -/
theorem homeReady_free (excl : Bool) (hfree : HomeFree s ln l) (hpower : s.homePowered ln = true) :
    s.homeReady ln excl = (s, true) := by
  have hl := lineAt_free (r := { kind := .gets false, line := ln, region := 0, tag := 0 }) hfree
  obtain ⟨hdevice, hlent, ⟨hqueue, -, -⟩, hline, hstate, hheld⟩ := hfree
  have hresident : s.isResident ln = true := by rw [State.isResident, Tab.has, hline]; rfl
  have hh : s.lineState ln = .h := by rw [lineState_of hlent, hl, hstate]
  simp only [State.homeReady, hpower, hqueue, hh, haveHostLine_device hdevice, ensureWay_resident hresident, hl, hheld, hdevice,
    List.any_nil, Bool.not_true, Bool.or_self, Bool.false_eq_true, if_false, if_true, Bool.and_false]

/-- What the homes' agents leave when a line has been used where it stands: its home has it as before but for its use. -/
theorem touched {u v : State} {used : Nat} (hv : v = u.touchHome ln used) :
    { v with homes := u.homes } = u ∧ ∃ used hint, v.lineAt ln = { u.lineAt ln with used, hint } := by
  obtain ⟨hsame, hlines⟩ := touchHome_same u ln used
  subst hv
  exact ⟨hsame.1, hlines ln⟩

end

theorem acting_job {s : State} {k : Nat} {j : Job} (h : s.acting k = some j) : Tab.find k s.jobs = some j := by
  unfold State.acting at h
  split at h
  · split at h
    · exact Option.some.inj h ▸ ‹_›
    · cases h
  · cases h

theorem sendGroups_copy {s : State} {k : Nat} {j : Job} (hfind : Tab.find k s.jobs = some j) (hkind : j.kind = .copy) (fuel : Nat) :
    s.sendGroups k fuel = s := by
  have hready : j.groupReady = none := by
    simp only [Job.groupReady, hkind, show (JobKind.copy == JobKind.coll) = false from rfl, Bool.false_and, Bool.false_eq_true, if_false]
  cases fuel with
  | zero => rfl
  | succ fuel => simp only [State.sendGroups, hfind, hready]

section
variable {s : State} {k ln pa : Nat} {j : Job} {l : HomeLine}

/-- A source line is read at its home (R43, R116, R117). -/
theorem lineRead_reads (hacting : s.acting k = some j) (hkind : j.kind = .copy) (hdenied : j.denied = none)
    (hnext : j.nextRead = .ok (some ln)) (hsite : s.lineSite k j (ln * 128) 4 = .ok (s, .device pa))
    (hfree : HomeFree s (deviceLine pa) l) (hpower : s.homePowered (deviceLine pa) = true) (hsound : lineBad l.data = none)
    (htimes : l.wts ≤ l.rts) : ∃ s', exec (.engineLineRead k) s = .next s' ∧
      Tab.find k s'.jobs = some { j with
        buf := Tab.put ln l.data j.buf, clock := max j.clock l.wts, endTime := max j.endTime (max j.clock l.wts) } ∧
      (s'.lineAt (deviceLine pa)).data = l.data ∧ (s'.lineAt (deviceLine pa)).wts = l.wts ∧
      max j.clock l.wts ≤ (s'.lineAt (deviceLine pa)).rts ∧ s'.hbm = s.hbm ∧ s'.teams = s.teams := by
  have hjob := acting_job hacting
  have hl : s.lineAt (deviceLine pa) = l := lineAt_free (r := { kind := .gets false, line := deviceLine pa, region := 0, tag := 0 }) hfree
  obtain ⟨u, hu⟩ : ∃ u, u = s.putLineAt (deviceLine pa) (leased l j.clock (s.lease j.ctx)) := ⟨_, rfl⟩
  have huline : u.lineAt (deviceLine pa) = leased l j.clock (s.lease j.ctx) := by rw [hu, lineAt_putLineAt, if_pos rfl]
  obtain ⟨v, hv⟩ : ∃ v, v = u.touchHome (deviceLine pa) 0 := ⟨_, rfl⟩
  obtain ⟨hrest, used, hint, hline⟩ := touched hv
  have hread : s.readLine j (ln * 128) (.device pa) = .ok (v, l.data, max j.clock l.wts) := by
    simp only [State.readLine, homeReady_free false hfree hpower, hl, hsound, homeLoad_eq]
    rw [← hu, huline, ← hv]
    rfl
  obtain ⟨w, hw⟩ : ∃ w : State, w = { v with jobs := Tab.modify k (fun i =>
    { i with buf := Tab.put ln l.data i.buf, clock := max j.clock l.wts, endTime := max i.endTime (max j.clock l.wts) }) v.jobs } :=
    ⟨_, rfl⟩
  have hvjobs : v.jobs = s.jobs := (congrArg State.jobs hrest :).trans (hu ▸ rfl)
  have hwjob : Tab.find k w.jobs = some { j with
      buf := Tab.put ln l.data j.buf, clock := max j.clock l.wts, endTime := max j.endTime (max j.clock l.wts) } := by
    rw [hw]
    exact (Tab.find_modify_same _ _ _).trans (by rw [hvjobs, hjob]; rfl)
  have hexec : exec (.engineLineRead k) s = .next w := by
    show execEngineLineRead k s = _
    simp only [execEngineLineRead, hacting, hdenied, hnext, hsite, hjob, Option.getD_some, hread]
    rw [← hw, sendGroups_copy hwjob hkind]
  have hwline : w.lineAt (deviceLine pa) = { leased l j.clock (s.lease j.ctx) with used, hint } := by
    rw [← huline, ← hline, hw]
    rfl
  refine ⟨w, hexec, hwjob, by rw [hwline]; rfl, by rw [hwline]; rfl, ?_, ?_, ?_⟩
  · rw [hwline]
    show _ ≤ (leased l j.clock (s.lease j.ctx)).rts
    unfold leased
    dsimp only
    split <;> omega
  · rw [hw]; exact (congrArg State.hbm hrest :).trans (hu ▸ rfl)
  · rw [hw]; exact (congrArg State.teams hrest :).trans (hu ▸ rfl)

end

/-! ### A destination line -/

theorem lineWrite_noMarks {d : LineData} (hd : NoMarks d) (off n v : Nat) : lineWrite d off n v = writeBytes d off n v := by
  have hnone : ((unitsOf off n).filter fun u => (lineMark d u).any fun a => wordCovered a off n u) = [] :=
    List.filter_eq_nil_iff.2 fun u _ => by rw [hd u]; exact Bool.false_ne_true
  rw [lineWrite, hnone]
  rfl

/-- A copy without marks that receives pieces within its line has none afterwards, and outside the pieces the same bytes. -/
theorem patch_sound (ps : List (Nat × Nat × Nat)) {d : LineData} (hd : NoMarks d) (hin : ∀ p ∈ ps, p.2.1 ≤ 128) :
    NoMarks (patch d ps) ∧ ∀ b, (∀ p ∈ ps, b < p.1 ∨ p.2.1 ≤ b) → Tab.getD (patch d ps) b 0 = Tab.getD d b 0 := by
  induction ps generalizing d with
  | nil => exact ⟨hd, fun _ _ => rfl⟩
  | cons p ps ih =>
    have hstep : NoMarks (lineWrite d p.1 (p.2.1 - p.1) p.2.2) := by
      by_cases hp : p.1 ≤ p.2.1
      · exact noMarks_lineWrite _ hd (by have := hin p List.mem_cons_self; omega)
      · rw [lineWrite_noMarks hd, Nat.sub_eq_zero_of_le (by omega)]
        exact hd
    obtain ⟨hsound, hother⟩ := ih hstep fun q hq => hin q (List.mem_cons_of_mem _ hq)
    refine ⟨hsound, fun b hb => (hother b fun q hq => hb q (List.mem_cons_of_mem _ hq)).trans ?_⟩
    have := hb p List.mem_cons_self
    rw [lineWrite_noMarks hd, getD_writeBytes, if_neg (by omega)]

theorem badUnder_noMarks {d : LineData} (hd : NoMarks d) (ps : List (Nat × Nat × Nat)) : badUnder d ps = [] := by
  refine List.filterMap_eq_nil_iff.2 fun i _ => ?_
  rw [hd]
  split <;> rfl

/-- A fold of writes of pieces of a line at `base` leaves every byte outside the line. -/
theorem getD_pieces (base a : Nat) (ps : List (Nat × Nat × Nat)) (m : Tab Byte) (hin : ∀ p ∈ ps, p.2.1 ≤ 128)
    (ha : a < base ∨ base + 128 ≤ a) :
    Tab.getD (ps.foldl (fun d p => writeBytes d (base + p.1) (p.2.1 - p.1) p.2.2) m) a 0 = Tab.getD m a 0 := by
  induction ps generalizing m with
  | nil => rfl
  | cons p ps ih =>
    refine (ih _ fun q hq => hin q (List.mem_cons_of_mem _ hq)).trans ?_
    have := hin p List.mem_cons_self
    rw [getD_writeBytes, if_neg (by omega)]

/-- A line that becomes present changes its forme and lets threads go on (R100). -/
theorem linePresent_rest (s : State) (f line : Nat) :
    { s.linePresent f line with teams := s.teams } =
      s.modForme f fun g => { g with pres := Tab.set 0 line 0 g.pres, writer := Tab.del line g.writer } := by
  have hfold : ∀ (l : List (Tid × Nat)) (u : State),
      { l.foldl (fun u (p : Tid × Nat) => u.modThread p.1 fun th => { th with wait := .ready, age := 0 }) u with teams := s.teams } =
        { u with teams := s.teams } := by
    intro l
    induction l with
    | nil => exact fun _ => rfl
    | cons p l ih => exact fun u => ih _
  exact hfold _ _

section
variable {s : State} {k ln : Nat} {j : Job} {ps : List Piece} {bs : List (Nat × Nat × Nat)}

/-- The job whose line has been written. -/
def wroteLine (j : Job) (time : Nat) : Job := { j with done := j.done + 1, clock := time, endTime := max j.endTime time }

/-- A copy writes its next destination line (R114, R123). -/
theorem lineWrite_writes {u v : State} {site : Loc} {time : Nat} (hacting : s.acting k = some j) (hkind : j.kind = .copy)
    (hdenied : j.denied = none) (hnext : j.nextRead = .ok none) (hmore : j.complete = false)
    (hplan : (planOf j.kind j.card)[j.done]? = some (ln, ps)) (hbytes : j.nextBytes ln ps = some bs) (hobject : j.object = none)
    (hsite : s.lineSite k j (ln * 128) 5 = .ok (s, site)) (hwrite : s.writeLine k j (ln * 128) site bs = .ok (u, time))
    (hjobs : u.jobs = s.jobs) (hv : v = { u with jobs := Tab.modify k (fun i => wroteLine i time) u.jobs }) :
    exec (.engineLineWrite k) s = .next v ∧ Tab.find k v.jobs = some (wroteLine j time) := by
  have hjob := acting_job hacting
  have hpush : isPush j.kind j.card = false := by rw [isPush, hkind]; rfl
  refine ⟨?_, by rw [hv, hjobs]; exact (Tab.find_modify_same _ _ _).trans (by rw [hjob]; rfl)⟩
  show execEngineLineWrite k s = _
  simp only [execEngineLineWrite, hacting, hdenied, hnext, hmore, hpush, hplan, hbytes, hsite, hjob, Option.getD_some, hwrite, hobject,
    Bool.false_eq_true, if_false, Option.filter_none, hv]
  rfl

/-- A destination line at its home (R43, R77, R114, R116). -/
theorem lineWrite_home {pa : Nat} {l : HomeLine} (hfree : HomeFree s (deviceLine pa) l)
    (hpower : s.homePowered (deviceLine pa) = true) (hsound : NoMarks l.data) (hin : ∀ p ∈ bs, p.2.1 ≤ 128) :
    ∃ u, s.writeLine k j (ln * 128) (.device pa) bs = .ok (u, max j.clock (l.rts + 1)) ∧ u.jobs = s.jobs ∧ u.hbm = s.hbm ∧
      u.teams = s.teams ∧ (u.lineAt (deviceLine pa)).data = patch l.data bs ∧
      (u.lineAt (deviceLine pa)).wts = max j.clock (l.rts + 1) := by
  have hl : s.lineAt (deviceLine pa) = l := lineAt_free (r := { kind := .gets false, line := deviceLine pa, region := 0, tag := 0 }) hfree
  obtain ⟨u, hstore, hwatched⟩ := homeStore_sound (s := s) (pts := j.clock) hfree.1 (patch_sound bs hsound hin).1
  rw [hl] at hstore hwatched
  obtain ⟨v, hv⟩ : ∃ v, v = u.touchHome (deviceLine pa) (cardHint j.card) := ⟨_, rfl⟩
  obtain ⟨hrest, used, hint, hline⟩ := touched hv
  have hbad : badPieces l.data bs = none := by rw [badPieces, badUnder_noMarks hsound]; rfl
  have hclean : soundPieces l.data bs = l.data := by rw [soundPieces, badUnder_noMarks hsound]; rfl
  have hvline : v.lineAt (deviceLine pa) = { storedLine l j.clock (patch l.data bs) with used, hint } := by
    rw [hline, hwatched.lineAt, lineAt_putLineAt, if_pos rfl]
  refine ⟨v, ?_, (congrArg State.jobs hrest :).trans (congrArg State.jobs hwatched.1 :),
    (congrArg State.hbm hrest :).trans (congrArg State.hbm hwatched.1 :),
    (congrArg State.teams hrest :).trans (congrArg State.teams hwatched.1 :), by rw [hvline]; rfl, by rw [hvline]; rfl⟩
  simp only [State.writeLine, homeReady_free true hfree hpower, hl, hbad, hclean, hstore, hv]

/-- A destination line in a forme, of which the job is the last writer (R66, R99, R114). -/
theorem lineWrite_forme {f off : Nat} {fm : Forme} (hfind : Tab.find f s.formes = some fm) (hbad : s.bad = [])
    (htag : fm.taggedAt (off / 128 * 128) 128 = none) (hwriter : Tab.find (off / 128) fm.writer = some k) :
    ∃ u time, s.writeLine k j (ln * 128) (.forme f off) bs = .ok (u, time) ∧ j.clock ≤ time ∧ u.jobs = s.jobs ∧ u.hbm = s.hbm ∧
      (u.forme f).presence (off / 128) = 0 ∧
      (u.forme f).data = bs.foldl (fun d p => writeBytes d (off / 128 * 128 + p.1) (p.2.1 - p.1) p.2.2) fm.data := by
  have hforme : s.forme f = fm := by rw [State.forme, hfind]; rfl
  have hunits : ((List.range 16).filter fun i => (s.badAt (badForme f (off / 128 * 128 + 8 * i))).isSome
      && (bs.any fun p => decide (p.1 < 8 * i + 8) && decide (8 * i < p.2.1))) = [] :=
    List.filter_eq_nil_iff.2 fun i _ => by rw [State.badAt, hbad]; exact Bool.false_ne_true
  obtain ⟨g, hg⟩ : ∃ g : Forme, g = { (fm.stamp (off / 128 * 128) j.clock).1 with
    data := bs.foldl (fun d p => writeBytes d (off / 128 * 128 + p.1) (p.2.1 - p.1) p.2.2)
      (fm.stamp (off / 128 * 128) j.clock).1.data } := ⟨_, rfl⟩
  obtain ⟨v, hv⟩ : ∃ v, v = s.modForme f fun _ => g := ⟨_, rfl⟩
  have hrest := linePresent_rest v f (off / 128)
  have hwriter' : Tab.find (off / 128) (fm.stamp (off / 128 * 128) j.clock).1.writer = some k := hwriter
  have huforme : (v.linePresent f (off / 128)).forme f =
      { g with pres := Tab.set 0 (off / 128) 0 g.pres, writer := Tab.del (off / 128) g.writer } := by
    have hformes := (congrArg State.formes hrest :)
    refine (congrArg (fun formes : Tab Forme => (Tab.find f formes).getD { size := 0, cluster := 0, core := 0 }) hformes).trans ?_
    rw [hv]
    show (Tab.find f (Tab.modify f _ (Tab.modify f _ s.formes))).getD _ = _
    rw [Tab.find_modify_same, Tab.find_modify_same, hfind]
    rfl
  refine ⟨v.linePresent f (off / 128), (fm.stamp (off / 128 * 128) j.clock).2, ?_, Nat.le_max_left _ _,
    (congrArg State.jobs hrest :).trans (hv ▸ rfl), (congrArg State.hbm hrest :).trans (hv ▸ rfl), ?_, ?_⟩
  · simp only [State.writeLine, hforme, htag, hunits, List.any_nil, Bool.false_eq_true, if_false, List.foldl_nil]
    rw [← hg, if_pos hwriter', hv]
  · rw [huforme]
    exact Tab.getD_set_same 0 (off / 128) 0 g.pres
  · rw [huforme, hg]
    rfl

end

/-- Settles O49: each step of a job is its model's function with its guards taken, and a job's end hands its status over whatever
the faults that it shows do. -/
theorem jobRuns : Obligations.JobRuns := by
  unfold Obligations.JobRuns
  refine ⟨?_, ?_, ?_, ?_⟩
  · intro s k j hfind hedges hstarted hended hfirst
    exact jobStart_starts hfind hedges hstarted hended hfirst
  · intro s k j ln pa l hacting hkind hdenied hnext hsite hfree hpower hsound htimes
    exact lineRead_reads hacting hkind hdenied hnext hsite hfree hpower hsound htimes
  · intro s k j ln ps bs hacting hkind hdenied hnext hmore hplan hbytes hobject wrote
    refine ⟨?_, ?_⟩
    · intro pa l hsite hfree hpower hsound hin
      obtain ⟨u, hwrite, hjobs, hhbm, hteams, hdata, hwts⟩ := lineWrite_home (k := k) (j := j) (ln := ln) hfree hpower hsound hin
      obtain ⟨hexec, hjob⟩ := lineWrite_writes hacting hkind hdenied hnext hmore hplan hbytes hobject hsite hwrite hjobs rfl
      exact ⟨_, ⟨hexec, hhbm, hjob⟩, hteams, hdata, fun b hb => (congrArg (Tab.getD · b 0) hdata).trans
        ((patch_sound bs hsound hin).2 b hb), hwts⟩
    · intro f off fm hsite hfind hbad htag hwriter
      obtain ⟨u, time, hwrite, htime, hjobs, hhbm, hpres, hdata⟩ := lineWrite_forme (j := j) (ln := ln) (bs := bs) hfind hbad htag hwriter
      obtain ⟨hexec, hjob⟩ := lineWrite_writes hacting hkind hdenied hnext hmore hplan hbytes hobject hsite hwrite hjobs rfl
      exact ⟨_, time, ⟨hexec, hhbm, hjob⟩, htime, hpres, fun a ha hin => (congrArg (Tab.getD · a 0) hdata).trans
        (getD_pieces _ a bs fm.data hin ha)⟩
  · intro s k j hfind ends
    refine ⟨?_, ?_⟩
    · intro _ hstarted hdone hended
      obtain ⟨s', hexec, ⟨hgone, hedges, hhbm, htime, hthreads⟩, hformes, hhost, hready⟩ := jobEnd_complete hfind hstarted hdone hended
      exact ⟨s', ⟨hexec, hgone, hedges, hhbm, htime, hthreads⟩, hformes, hhost, hready⟩
    · intro status hkind hended hstatus hobject
      obtain ⟨s', hexec, ⟨hgone, hedges, hhbm, htime, hthreads⟩, hpres⟩ := jobEnd_early hfind hkind hended hstatus hobject
      exact ⟨s', ⟨hexec, hgone, hedges, hhbm, htime, hthreads⟩, hpres⟩

end Sys2Proof.Proofs.Jobs

/-! Platen calls (R62, R80, R264, R265, R271, R272, R275 to R279): a call's entry, its range at the homes, its teams, its return
on the object, and a queued packet. -/

namespace Sys2Proof.Proofs.PlatenCalls

open Sys2Proof Sys2Proof.Machine Sys2Proof.Claims Sys2Proof.Proofs.Homes Sys2Proof.Proofs.Slices Sys2Proof.Proofs.Jobs

/-! ### A call's entry -/

section
variable {s : State} {stack call : Nat} {c : Call} {ph : CallPhase}

theorem callIn_eq_some : s.callIn stack call ph = some c ↔ s.call? stack call = some c ∧ c.phase = ph := by
  unfold State.callIn
  cases h : s.call? stack call with
  | none => simp
  | some d =>
    by_cases hd : d.phase = ph
    · simp only [Option.bind_some, hd, if_true, Option.some.injEq]
      exact ⟨fun he => ⟨he, he ▸ hd⟩, fun he => he.1⟩
    · simp only [Option.bind_some, hd, if_false, Option.some.injEq]
      exact ⟨nofun, fun he => absurd (he.1 ▸ he.2) hd⟩

theorem platen_of_call (h : s.call? stack call = some c) :
    ∃ p, Tab.find stack s.platens = some p ∧ Tab.find call p.calls = some c := Option.bind_eq_some_iff.1 h

theorem platen_modPlaten (s : State) (stack : Nat) (f : Platen → Platen) :
    (s.modPlaten stack f).platen stack = f (s.platen stack) := by
  rw [State.platen, State.modPlaten, Tab.getD_put, if_pos rfl]

theorem platen_of_find {p : Platen} (h : Tab.find stack s.platens = some p) : s.platen stack = p := by
  rw [State.platen, Tab.getD, h]
  rfl

theorem call?_modPlaten (f : Platen → Platen) : (s.modPlaten stack f).call? stack call = Tab.find call (f (s.platen stack)).calls := by
  rw [State.call?, State.modPlaten, Tab.find_put_same]
  rfl

theorem call?_modCall (f : Call → Call) (h : s.call? stack call = some c) :
    (s.modCall stack call f).call? stack call = some (f c) := by
  obtain ⟨p, hp, hc⟩ := platen_of_call h
  rw [State.modCall, call?_modPlaten, platen_of_find hp, Tab.find_modify_same, hc]
  rfl

theorem call?_congr {s' : State} (h : s'.platens = s.platens) : s'.call? stack call = s.call? stack call := by
  rw [State.call?, State.call?, h]

end

/-! ### Drain and writeback -/

theorem isPacket_iff (op : PeerOp) : isPacket op = true ↔ ∃ sub ty, op = .red sub ty := by
  cases op <;> simp [isPacket]

theorem rangePackets_iff (s : State) (c : Call) : s.rangePackets c = true ↔
    (∃ p ∈ s.fabric.homePackets, c.covers (deviceLine p.2.pa) = true) ∨
      ∃ p ∈ s.fabric.inbound, (∃ sub ty, p.1.op = .red sub ty) ∧ c.covers (deviceLine p.1.pa) = true := by
  simp only [State.rangePackets, Bool.or_eq_true, List.any_eq_true, Bool.and_eq_true, isPacket_iff]

section
variable {s : State} {stack call ln : Nat} {c : Call} {l : HomeLine}

theorem drain_waits (h : s.callIn stack call .drain = some c) (hwait : s.rangePackets c = true) :
    exec (.platenCallDrain stack call) s = .next s := by
  show execPlatenCallDrain stack call s = _
  simp only [execPlatenCallDrain, h, hwait, if_true]

theorem drain_done (h : s.callIn stack call .drain = some c) (hfree : ¬ s.rangePackets c = true) :
    exec (.platenCallDrain stack call) s = .next (s.modCall stack call fun c => { c with phase := .writeback }) := by
  show execPlatenCallDrain stack call s = _
  simp only [execPlatenCallDrain, h, hfree, if_false, Bool.false_eq_true]

/-- A range of one line that stands free at its home is written to memory (R57, R276). -/
theorem flushRange_one (hrange : s.residentRange stack c = [ln]) (hfree : HomeFree s ln l) (hpower : s.homePowered ln = true) :
    s.flushRange stack c =
      (if l.dirty then (s.writeBack ln l.data).putLineAt ln { l with dirty := false } else s, true) := by
  have hl : s.lineAt ln = l := lineAt_free (r := { kind := .gets false, line := ln, region := 0, tag := 0 }) hfree
  simp only [State.flushRange, hrange, List.foldl_cons, List.foldl_nil, homeReady_free true hfree hpower, hl, Bool.not_true,
    Bool.false_eq_true, if_false]
  split <;> rfl

theorem writeback_done (h : s.callIn stack call .writeback = some c) (hrange : s.residentRange stack c = [ln])
    (hfree : HomeFree s ln l) (hpower : s.homePowered ln = true) :
    ∃ s', exec (.platenCallWriteback stack call) s = .next s' ∧ s'.call? stack call = some { c with phase := .loan } ∧
      (s'.lineAt ln).dirty = false ∧ (s'.lineAt ln).data = l.data ∧
      (∀ i, i < 128 → Tab.getD s'.hbm (lineBase ln + i) 0 =
        if l.dirty then Tab.getD l.data i 0 else Tab.getD s.hbm (lineBase ln + i) 0) ∧
      ∀ a, a < lineBase ln ∨ lineBase ln + 128 ≤ a → Tab.getD s'.hbm a 0 = Tab.getD s.hbm a 0 := by
  have hl : s.lineAt ln = l := lineAt_free (r := { kind := .gets false, line := ln, region := 0, tag := 0 }) hfree
  have hcall := (callIn_eq_some.1 h).1
  obtain ⟨u, hu⟩ : ∃ u, u = if l.dirty then (s.writeBack ln l.data).putLineAt ln { l with dirty := false } else s := ⟨_, rfl⟩
  have hflush := flushRange_one hrange hfree hpower
  rw [← hu] at hflush
  have hexec : exec (.platenCallWriteback stack call) s = .next (u.modCall stack call fun c => { c with phase := .loan }) := by
    show execPlatenCallWriteback stack call s = _
    simp only [execPlatenCallWriteback, h, hflush]
  cases hdirty : l.dirty with
  | false =>
    rw [hdirty, if_neg Bool.false_ne_true] at hu
    subst hu
    refine ⟨_, hexec, call?_modCall _ hcall, ?_, ?_, fun _ _ => rfl, fun _ _ => rfl⟩
    · exact (congrArg HomeLine.dirty hl).trans hdirty
    · exact congrArg HomeLine.data hl
  | true =>
    rw [hdirty, if_pos rfl] at hu
    have hhbm : u.hbm = putLine s.hbm (lineBase ln) l.data := by rw [hu]; exact Power.hbm_writeBack hfree.1 s l.data
    have hplatens : u.platens = s.platens := by
      rw [hu]
      exact (congrArg State.platens (Power.flushed_writeBack hfree.1 s l.data) :)
    have huline : u.lineAt ln = { l with dirty := false } := by rw [hu, lineAt_putLineAt, if_pos rfl]
    refine ⟨_, hexec, call?_modCall _ ((call?_congr hplatens).trans hcall), ?_, ?_, fun i hi => ?_, fun a ha => ?_⟩
    · exact (congrArg HomeLine.dirty huline :)
    · exact (congrArg HomeLine.data huline :)
    · refine (congrArg (Tab.getD · _ 0) hhbm).trans ?_
      rw [getD_putLine, if_pos ⟨by omega, by omega⟩, Nat.add_sub_cancel_left, if_pos rfl]
    · refine (congrArg (Tab.getD · _ 0) hhbm).trans ?_
      rw [getD_putLine, if_neg (by omega)]

end

/-! ### Loan -/

theorem threadsGoOn_rest (s : State) (op : MemOp) (ns : List Nat) :
    { s.threadsGoOn op ns with teams := s.teams, devQueues := s.devQueues } = s := by
  have hready : ∀ (ns : List Nat) (s : State), { ns.foldl (fun s n => s.modThread { team := op.team, n } fun th =>
      { th with wait := .ready, pc := BitVec.ofNat 64 op.next }) s with teams := s.teams } = s := by
    intro ns
    induction ns with
    | nil => exact fun _ => rfl
    | cons n ns ih => exact fun s => (congrArg (fun u : State => { u with teams := s.teams }) (ih _) :)
  have hplace : ∀ (ns : List Nat) (s : State), { ns.foldl (fun s n => s.placeRecord { team := op.team, n }) s with
      teams := s.teams, devQueues := s.devQueues } = s := by
    intro ns
    induction ns with
    | nil => exact fun _ => rfl
    | cons n ns ih =>
      intro s
      have hone : { s.placeRecord { team := op.team, n } with teams := s.teams, devQueues := s.devQueues } = s := by
        unfold State.placeRecord
        split <;> rfl
      exact (congrArg (fun u : State => { u with teams := s.teams, devQueues := s.devQueues }) (ih _)).trans hone
  unfold State.threadsGoOn
  split
  · exact (congrArg (fun u : State => { u with teams := s.teams, devQueues := s.devQueues }) (hready ns _)).trans (hplace ns s)
  · exact (congrArg (fun u : State => { u with devQueues := s.devQueues }) (hready ns s) :)

/-- Threads that wait beside a line that is lent now go on: of everything else, operations alone change (R296). -/
theorem releaseDone_rest (keys : List Nat) (s : State) :
    { keys.foldl State.releaseDone s with teams := s.teams, devQueues := s.devQueues, memops := s.memops } = s := by
  induction keys generalizing s with
  | nil => rfl
  | cons k keys ih =>
    have hone : { s.releaseDone k with teams := s.teams, devQueues := s.devQueues, memops := s.memops } = s := by
      unfold State.releaseDone
      split
      · rfl
      · split
        · exact (congrArg (fun u : State => { u with memops := s.memops }) (threadsGoOn_rest _ _ _) :)
        · rfl
    exact (congrArg (fun u : State => { u with teams := s.teams, devQueues := s.devQueues, memops := s.memops }) (ih _)).trans hone

theorem anyLine_of_covers {c : Call} {p : Nat → Bool} {ln : Nat} (hcovers : c.covers ln = true) (hp : p ln = true) :
    c.anyLine p = true := by
  obtain ⟨r, hr, hin⟩ := List.any_eq_true.1 hcovers
  simp only [Bool.and_eq_true, decide_eq_true_eq] at hin
  refine List.any_eq_true.2 ⟨r, hr, List.any_eq_true.2 ⟨ln - r.1, List.mem_range.2 (by omega), ?_⟩⟩
  rwa [Nat.add_sub_of_le hin.1]

/-- The home slices of a stack are twelve. -/
theorem slice_index {ln stack : Nat} (h : homeOf ln / 12 = stack) : ∃ i, i < 12 ∧ stack * 12 + i = homeOf ln :=
  ⟨homeOf ln % 12, Nat.mod_lt _ (by decide), by omega⟩

theorem mem_slices {c : Call} {stack ln : Nat} {p : Nat → Bool} (hcovers : c.covers ln = true) (hstack : homeOf ln / 12 = stack)
    (hp : p ln = true) : homeOf ln ∈ c.slices stack p := by
  obtain ⟨i, hi, hslice⟩ := slice_index hstack
  refine List.mem_filter.2 ⟨List.mem_map.2 ⟨i, List.mem_range.2 hi, hslice⟩, anyLine_of_covers hcovers ?_⟩
  rw [hp, Bool.and_true]
  exact beq_self_eq_true _

section
variable {s : State} {stack call : Nat} {c : Call}

theorem rangeLease_line {ln : Nat} (h : ln ∈ s.residentRange stack c) : (s.lineAt ln).rts < s.rangeLease stack c :=
  Nat.lt_succ_of_le (ChildTeams.le_foldl_max _ 0 _ (.inr (List.mem_append_left _ (List.mem_map_of_mem h))))

theorem rangeLease_slice {ln : Nat} (hcovers : c.covers ln = true) (haway : s.isResident ln = false)
    (hstack : homeOf ln / 12 = stack) : (s.home (homeOf ln)).mts < s.rangeLease stack c :=
  Nat.lt_succ_of_le (ChildTeams.le_foldl_max _ 0 _ (.inr (List.mem_append_right _
    (List.mem_map_of_mem (f := fun h => (s.home h).mts) (mem_slices hcovers hstack (by rw [haway]; rfl))))))

theorem lent_by_call {ln : Nat} (h : s.call? stack call = some c) (hphase : c.phase = .run) (hcovers : c.covers ln = true) :
    s.isLent ln = true := by
  obtain ⟨p, hp, hc⟩ := platen_of_call h
  refine List.any_eq_true.2 ⟨(stack, p), Tab.mem_of_find hp, List.any_eq_true.2 ⟨(call, c), Tab.mem_of_find hc, ?_⟩⟩
  simp only [hphase, hcovers, Bool.and_true]
  rfl

/-- The loan of a range that is written back and meets no other loan (R80, R277). -/
theorem loan_done (h : s.callIn stack call .loan = some c) (hflush : s.flushRange stack c = (s, true)) (hlines : c.lines ≠ [])
    (hapart : ∀ p ∈ (s.platen stack).calls, p.2.phase = .run → runsMeet c.lines p.2.lines = false) :
    ∃ s', exec (.platenCallLoan stack call) s = .next s' ∧ s'.call? stack call = some { c with phase := .run } ∧
      (∀ ln, c.covers ln = true → s'.isLent ln = true) ∧ c.time ≤ s'.clock (platenClock stack) ∧
      s.clock (platenClock stack) ≤ s'.clock (platenClock stack) ∧
      (∀ ln ∈ s.residentRange stack c, (s.lineAt ln).rts < s'.clock (platenClock stack)) ∧
      (∀ ln, c.covers ln = true → s.isResident ln = false → homeOf ln / 12 = stack →
        (s.home (homeOf ln)).mts < s'.clock (platenClock stack)) ∧
      s'.hbm = s.hbm ∧ s'.homes = s.homes ∧ (s.memops = [] → { s' with platens := s.platens, clocks := s.clocks } = s) := by
  have hmeet : ((s.platen stack).calls.any fun (_, d) => d.phase == .run && runsMeet c.lines d.lines) = false := by
    refine List.any_eq_false.2 fun p hp hand => ?_
    obtain ⟨hrun, hmeets⟩ := Bool.and_eq_true_iff.1 hand
    rw [hapart p hp (beq_iff_eq.1 hrun)] at hmeets
    cases hmeets
  have hempty : c.lines.isEmpty = false := by simpa using hlines
  obtain ⟨u, hu⟩ : ∃ u, u = (s.raise (platenClock stack) (max c.time (s.rangeLease stack c))).modCall stack call
    fun c => { c with phase := .run } := ⟨_, rfl⟩
  have hexec : exec (.platenCallLoan stack call) s = .next ((Tab.keys u.memops).foldl State.releaseDone u) := by
    show execPlatenCallLoan stack call s = _
    simp only [execPlatenCallLoan, h, hmeet, hflush, hempty, Bool.false_eq_true, if_false]
    rw [hu]
  have hrest := releaseDone_rest (Tab.keys u.memops) u
  generalize hv : (Tab.keys u.memops).foldl State.releaseDone u = v at hexec hrest
  have hplatens : v.platens = u.platens := (congrArg State.platens hrest :)
  have hclocks : v.clocks = u.clocks := (congrArg State.clocks hrest :)
  have hcall : v.call? stack call = some { c with phase := .run } :=
    (call?_congr hplatens).trans (hu ▸ call?_modCall (s := s.raise _ _) _ (callIn_eq_some.1 h).1)
  have hclock : v.clock (platenClock stack) = max (s.clock (platenClock stack)) (max c.time (s.rangeLease stack c)) := by
    have hraised := clock_raise s (platenClock stack) (max c.time (s.rangeLease stack c)) (platenClock stack)
    rw [if_pos rfl] at hraised
    rw [← hraised, State.clock, hclocks, hu]
    rfl
  refine ⟨v, hexec, hcall, fun ln hln => lent_by_call hcall rfl hln, ?_, ?_, fun ln hln => ?_, fun ln hln haway hstack => ?_, ?_, ?_,
    fun hnone => ?_⟩
  · rw [hclock]; omega
  · rw [hclock]; omega
  · have := rangeLease_line hln
    rw [hclock]; omega
  · have := rangeLease_slice hln haway hstack
    rw [hclock]; omega
  · exact (congrArg State.hbm hrest :).trans (hu ▸ rfl)
  · exact (congrArg State.homes hrest :).trans (hu ▸ rfl)
  · have hkeys : Tab.keys u.memops = [] := by rw [hu]; exact congrArg Tab.keys hnone
    rw [hkeys] at hv
    rw [← hv, hu]
    rfl

end

/-! ### Teams of a call that are dropped -/

section
variable {s : State} {stack call : Nat} {c : Call}

/-- A team of the call is dropped with what it waits for (R275). -/
def dropTeam (s : State) (k : Nat) : State := { s.dropWaits k with teams := Tab.del k s.teams }

theorem dropTeams_rest (ks : List Nat) (s : State) :
    { ks.foldl dropTeam s with teams := s.teams, memops := s.memops, formes := s.formes, homes := s.homes } = s := by
  induction ks generalizing s with
  | nil => rfl
  | cons k ks ih =>
    exact (congrArg (fun u : State => { u with teams := s.teams, memops := s.memops, formes := s.formes, homes := s.homes })
      (ih (dropTeam s k)) :)

theorem dropTeams_team? (ks : List Nat) (s : State) (k : Nat) :
    (ks.foldl dropTeam s).team? k = if k ∈ ks then none else s.team? k := by
  induction ks generalizing s with
  | nil => rfl
  | cons a ks ih =>
    have hone : (dropTeam s a).team? k = if k = a then none else s.team? k := Tab.find_del _ _ _
    rw [List.foldl_cons, ih, hone]
    by_cases hk : k = a <;> simp [hk]

theorem mem_callTeamsOf (hsort : Tab.sorted s.teams = true) {k : Nat} {t : Team} (ht : s.team? k = some t) :
    k ∈ s.callTeamsOf stack call ↔ ∃ core, t.place = .near stack core call := by
  unfold State.callTeamsOf
  rw [List.mem_map]
  constructor
  · rintro ⟨p, hp, rfl⟩
    obtain ⟨hin, hplace⟩ := List.mem_filter.1 hp
    obtain rfl : p.2 = t := Option.some.inj ((Tab.find_of_mem hsort hin).symm.trans ht)
    obtain ⟨key, u⟩ := p
    dsimp only at hplace ⊢
    split at hplace
    next st core d h =>
      simp only [Bool.and_eq_true, beq_iff_eq] at hplace
      exact ⟨core, by rw [h, hplace.1, hplace.2]⟩
    next => cases hplace
  · rintro ⟨core, hplace⟩
    refine ⟨(k, t), List.mem_filter.2 ⟨Tab.mem_of_find ht, ?_⟩, rfl⟩
    simp only [hplace, beq_self_eq_true, Bool.and_self]

/-- A fault drops the call's teams (R275). -/
theorem fault_done (h : s.call? stack call = some c) (hstop : c.stopping = true) (hmore : c.started < callTeams c.card)
    (hsort : Tab.sorted s.teams = true) : ∃ s', exec (.platenCallFault stack call) s = .next s' ∧
      s'.call? stack call = some { c with started := callTeams c.card, returned := s.clock (platenClock stack) } ∧
      ∀ k t, s.team? k = some t → s'.team? k =
        match t.place with
        | .near st _ d => if st = stack ∧ d = call then none else some t
        | .core _ => some t := by
  have hne : (callTeams c.card == c.started) = false := by simpa using Nat.ne_of_gt hmore
  have hrest := dropTeams_rest (s.callTeamsOf stack call) s
  have hteams := dropTeams_team? (s.callTeamsOf stack call) s
  obtain ⟨u, hu⟩ : ∃ u, u = (s.callTeamsOf stack call).foldl dropTeam s := ⟨_, rfl⟩
  rw [← hu] at hrest hteams
  have hclock : u.clock (platenClock stack) = s.clock (platenClock stack) :=
    (congrArg (fun w : State => w.clock (platenClock stack)) hrest :)
  have hexec : exec (.platenCallFault stack call) s = .next (u.modCall stack call fun c =>
      { c with started := callTeams c.card, returned := s.clock (platenClock stack) }) := by
    show execPlatenCallFault stack call s = _
    simp only [execPlatenCallFault, h, hstop, hne, Bool.and_false, Bool.not_false, Bool.and_self, if_true]
    rw [← hclock, hu]
    rfl
  refine ⟨_, hexec, call?_modCall _ ((call?_congr (congrArg State.platens hrest :)).trans h), fun k t ht => ?_⟩
  have hmem := mem_callTeamsOf (stack := stack) (call := call) hsort ht
  refine (hteams k).trans ?_
  cases hplace : t.place with
  | near st core d => exact if_congr (hmem.trans (by simp [hplace])) rfl ht
  | core core =>
    refine (if_neg fun hin => ?_).trans ht
    obtain ⟨_, hnear⟩ := hmem.1 hin
    rw [hplace] at hnear
    cases hnear

end

/-! ### A queued packet -/

theorem ackPacket_rest (s : State) (p : Packet) : { s.ackPacket p with fabric := s.fabric } = s := by
  unfold State.ackPacket
  split
  · split <;> rfl
  · rfl

theorem sweepPlaten_idle {s : State} (h : s.memops = []) (stack : Nat) : s.sweepPlaten stack = s := by
  unfold State.sweepPlaten
  rw [h]
  rfl

/-- A queued packet is one read-modify-write at DRAM (R279). -/
theorem packet_applied {s : State} {stack index : Nat} {p : Packet} (h : (s.platen stack).packets[index]? = some p)
    (hapart : ∀ r ∈ (s.platen stack).packets.take index, r.pa + r.size ≤ p.pa ∨ p.pa + p.size ≤ r.pa) (hops : s.memops = [])
    (hfirst : s.earlierPacket p = false) (hsound : s.badRead p.pa p.size = none) :
    ∃ s', exec (.platenPacketApply stack index) s = .next s' ∧
      (s'.platen stack).packets = (s.platen stack).packets.eraseIdx index ∧ s'.teams = s.teams ∧
      Stored s.hbm s'.hbm p.pa p.size (atomNew p.sub p.ty (readBytes s.hbm p.pa p.size) p.value p.compare).1 := by
  obtain ⟨v, hv⟩ : ∃ v, v = (atomNew p.sub p.ty (readBytes s.hbm p.pa p.size) p.value p.compare).1 := ⟨_, rfl⟩
  have hclear : ((s.platen stack).packets.take index).any (fun r => decide (r.pa < p.pa + p.size) && decide (p.pa < r.pa + r.size)) =
      false := by
    refine List.any_eq_false.2 fun r hr hand => ?_
    simp only [Bool.and_eq_true, decide_eq_true_eq] at hand
    have := hapart r hr
    omega
  obtain ⟨u, hu⟩ : ∃ u, u = s.modPlaten stack fun r => { r with packets := (s.platen stack).packets.eraseIdx index } := ⟨_, rfl⟩
  obtain ⟨w, time, hw⟩ : ∃ w time, (w, time) = u.platenStamp stack (p.pa / 128) (u.clock (collClock (dieOfStack stack))) :=
    ⟨_, _, rfl⟩
  have hwrest : { w with platens := s.platens } = s ∧
      (w.platen stack).packets = (s.platen stack).packets.eraseIdx index := by
    obtain ⟨rfl, -⟩ := Prod.mk.inj hw
    refine ⟨hu ▸ rfl, ?_⟩
    rw [platen_modPlaten, hu, platen_modPlaten]
  obtain ⟨x, hx⟩ : ∃ x, x = State.ackPacket (({ w with hbm := writeBytes w.hbm p.pa p.size v } : State).raise
    (collClock (dieOfStack stack)) time) p := ⟨_, rfl⟩
  have hxrest : { x with fabric := w.fabric, clocks := w.clocks, hbm := w.hbm } = w := by
    rw [hx]
    exact (congrArg (fun y : State => { y with clocks := w.clocks, hbm := w.hbm }) (ackPacket_rest _ p) :)
  have hwops : w.memops = [] := (congrArg State.memops hwrest.1 :).trans hops
  have hxops : x.memops = [] := (congrArg State.memops hxrest :).trans hwops
  have hwhbm : w.hbm = s.hbm := (congrArg State.hbm hwrest.1 :)
  have hexec : exec (.platenPacketApply stack index) s = .next x := by
    show execPlatenPacketApply stack index s = _
    simp only [execPlatenPacketApply, h, hfirst, hclear, Bool.or_self, Bool.false_eq_true, if_false]
    rw [← hu, show u.badRead p.pa p.size = none from hu ▸ hsound, show u.hbm = s.hbm from hu ▸ rfl]
    dsimp only
    rw [← hw, ← hv, ← hx, sweepPlaten_idle hxops]
  have hxhbm : x.hbm = writeBytes s.hbm p.pa p.size v := by
    rw [hx, ← hwhbm]
    exact (congrArg State.hbm (ackPacket_rest _ p) :)
  refine ⟨x, hexec, ?_, (congrArg State.teams hxrest :).trans (congrArg State.teams hwrest.1 :), fun a => ?_⟩
  · rw [← hwrest.2]
    exact congrArg (fun platens : Tab Platen => (Tab.getD platens stack {}).packets) (congrArg State.platens hxrest :)
  · exact (congrArg (Tab.getD · a 0) hxhbm).trans ((getD_writeBytes s.hbm p.pa p.size v a).trans (by rw [hv]))

/-! ### A call's next team -/

/-- The registers that a call's argument words fill, from the first on. -/
theorem getD_args (l : List Nat) (start : Nat) (t : Tab Word) (i : Nat) :
    Tab.getD ((l.zipIdx start).foldl (fun r (p : Nat × Nat) => Tab.set 0 p.2 (BitVec.ofNat 32 p.1) r) t) i 0 =
      if start ≤ i ∧ i < start + l.length then BitVec.ofNat 32 (l.getD (i - start) 0) else Tab.getD t i 0 := by
  induction l generalizing start t with
  | nil => rw [if_neg (by simp only [List.length_nil]; omega)]; rfl
  | cons v l ih =>
    rw [List.zipIdx_cons, List.foldl_cons, ih, Tab.getD_set, List.length_cons]
    by_cases hi : i = start
    · subst hi
      rw [if_neg (by omega), if_pos rfl, if_pos (by omega), Nat.sub_self]
      rfl
    · rw [if_neg hi]
      by_cases hin : start + 1 ≤ i ∧ i < start + 1 + l.length
      · rw [if_pos hin, if_pos (by omega), show i - start = (i - (start + 1)) + 1 from by omega]
        rfl
      · rw [if_neg hin, if_neg (by omega)]

section
variable {s : State} {stack call : Nat} {c : Call} {hdr core : Nat}

/-- The header is read once and passes its checks (R271). The function is unfolded with its translation abstract: the kernel would
compute with the entry address, whose upper word it would count up. -/
theorem readHeader_ok {va : Nat} (hva : va = Bits.ofInt 64 ((callEntry c.card : Int) - 16))
    (h : ∃ pa, (s.translate (callAsker stack call c) va = (s, .ok (.platen pa)) ∨
      s.translate (callAsker stack call c) va = (s, .ok (.device pa))) ∧ linearStack pa = some stack ∧
      s.packetsFor pa = false ∧ s.badRead pa 4 = none ∧ readBytes s.hbm pa 4 = hdr ∧ nearHeaderOk hdr (callArgw c.card) = true) :
    s.readHeader stack call c = s.modCall stack call fun c => { c with hdr := some hdr } := by
  obtain ⟨pa, hsite, hlinear, hfree, hsound, hread, hok⟩ := h
  have hdef : @State.readHeader = @State.readHeader := rfl
  conv at hdef => rhs; delta State.readHeader
  generalize @State.translate = site at hdef hsite
  rw [hdef]
  beta_reduce
  rw [← hva]
  obtain hsite | hsite := hsite <;>
    simp only [hsite, hlinear, hfree, hsound, hread, hok, ne_eq, not_true_eq_false, if_false, if_true, Bool.false_eq_true]

/-- A call as its next team has been placed. -/
def placed (c : Call) (hdr : Nat) : Call := { c with started := c.started + 1, hdr := some hdr }

/-- The next team of a call is placed on the core that has room (R272). -/
theorem place_done {u : State} (h : s.callIn stack call .run = some c) (hstop : c.stopping = false)
    (hmore : c.started < callTeams c.card) (hfirst : ∀ p ∈ (s.platen stack).calls, p.1 < call → p.2.phase ≠ .run)
    (hu : u = if c.hdr.isSome then s else s.readHeader stack call c)
    (hcall : u.call? stack call = some { c with hdr := some hdr }) (hrest : { u with platens := s.platens } = s)
    (hroom : s.nearRoom stack (8 * Bits.field hdr 8 8) = some core) :
    ∃ s', exec (.platenTeamPlace stack call) s = .next s' ∧ s'.call? stack call = some (placed c hdr) ∧
      s'.team? s.nextKey = some (nearTeam stack core call c hdr) ∧ s'.hbm = s.hbm := by
  have hturn : ((s.platen stack).calls.any fun (k, d) =>
      decide (k < call) && d.phase == .run && !d.stopping && decide (d.started < callTeams d.card)) = false := by
    refine List.any_eq_false.2 fun p hp hand => ?_
    simp only [Bool.and_eq_true, decide_eq_true_eq, beq_iff_eq] at hand
    obtain ⟨⟨⟨hlt, hrun⟩, -⟩, -⟩ := hand
    exact hfirst p hp hlt hrun
  have hroom' : u.nearRoom stack (8 * Bits.field hdr 8 8) = some core :=
    (congrArg (fun w : State => w.nearRoom stack (8 * Bits.field hdr 8 8)) hrest :).trans hroom
  have hkey : u.nextKey = s.nextKey := (congrArg State.nextKey hrest :)
  obtain ⟨v, hv⟩ : ∃ v, v = ({ u with nextKey := u.nextKey + 1 } : State).setTeam u.nextKey (nearTeam stack core call c hdr) :=
    ⟨_, rfl⟩
  have hexec : exec (.platenTeamPlace stack call) s = .next (v.modCall stack call fun c => { c with started := c.started + 1 }) := by
    show execPlatenTeamPlace stack call s = _
    simp only [execPlatenTeamPlace, h, hstop, decide_eq_false (Nat.not_le.2 hmore), Bool.or_self, Bool.false_eq_true, if_false, hturn]
    rw [← hu, hcall]
    simp only [Option.bind_some, State.placeNear, hroom', hv]
    rfl
  have hvcall : v.call? stack call = some { c with hdr := some hdr } := (call?_congr (hv ▸ rfl)).trans hcall
  refine ⟨_, hexec, call?_modCall _ hvcall, ?_, ?_⟩
  · rw [← hkey]
    exact (congrArg (fun w : State => w.team? u.nextKey) hv).trans (Tab.find_put_same _ _ _)
  · rw [hv]
    exact (congrArg State.hbm hrest :)

/-- A thread of a near-memory team as it starts (R272). -/
theorem nearTeam_thread {n : Nat} (hn : n < 16) : ∃ th, Tab.find n (nearTeam stack core call c hdr).threads = some th ∧
    th.pc = BitVec.ofNat 64 (callEntry c.card) ∧ th.live = true ∧ th.wait = .ready ∧ th.preds = 0 ∧ th.fpflags = 0 ∧
    ∀ i, th.v i = BitVec.ofNat 32 ((c.args[i]?).getD 0) := by
  refine ⟨_, (Residence.find_rangeTable (fun _ => _) 16 n).trans (if_pos hn), rfl, rfl, rfl, rfl, rfl, fun i => ?_⟩
  refine (getD_args c.args 0 [] i).trans ?_
  split
  · rfl
  next h =>
    rw [List.getElem?_eq_none (by omega)]
    rfl

theorem team_placed (h : s.callIn stack call .run = some c) (hstop : c.stopping = false) (hmore : c.started < callTeams c.card)
    (hfirst : ∀ p ∈ (s.platen stack).calls, p.1 < call → p.2.phase ≠ .run)
    (hhdr : c.hdr = some hdr ∨ (c.hdr = none ∧
      s.readHeader stack call c = s.modCall stack call fun c => { c with hdr := some hdr }))
    (hroom : s.nearRoom stack (8 * Bits.field hdr 8 8) = some core) :
    ∃ s', exec (.platenTeamPlace stack call) s = .next s' ∧ s'.call? stack call = some (placed c hdr) ∧
      s'.team? s.nextKey = some (nearTeam stack core call c hdr) ∧ s'.hbm = s.hbm := by
  have hcall := (callIn_eq_some.1 h).1
  obtain hhas | ⟨hnone, hread⟩ := hhdr
  · refine place_done h hstop hmore hfirst (u := s) (by rw [hhas]; rfl) ?_ rfl hroom
    rw [hcall, ← hhas]
  · refine place_done h hstop hmore hfirst (u := s.modCall stack call fun c => { c with hdr := some hdr }) (by rw [hnone, hread]; rfl)
      (call?_modCall _ hcall) rfl hroom

end

/-! ### The range leaves its homes -/

/-- `s'` is `s` but for the lines and the memory times of its homes. -/
def Cleared (s s' : State) : Prop :=
  { s' with homes := s.homes } = s ∧ ∀ k, { s'.home k with lines := (s.home k).lines, mts := (s.home k).mts } = s.home k

theorem Cleared.trans {s t u : State} (h : Cleared s t) (h' : Cleared t u) : Cleared s u := by
  obtain ⟨hrest, hhome⟩ := h
  obtain ⟨hrest', hhome'⟩ := h'
  exact ⟨(congrArg (fun w : State => { w with homes := s.homes }) hrest' :).trans hrest, fun k =>
    (congrArg (fun g : Home => { g with lines := (s.home k).lines, mts := (s.home k).mts }) (hhome' k) :).trans (hhome k)⟩

theorem Cleared.refl (s : State) : Cleared s s := ⟨rfl, fun _ => rfl⟩

theorem cleared_foldl {α : Type} {F : State → α → State} (hF : ∀ s a, Cleared s (F s a)) (l : List α) (s : State) :
    Cleared s (l.foldl F s) := by
  induction l generalizing s with
  | nil => exact .refl s
  | cons a l ih => exact (hF s a).trans (ih _)

theorem cleared_modHome {s : State} {h : Nat} {f : Home → Home}
    (hf : ∀ g, { f g with lines := g.lines, mts := g.mts } = g) : Cleared s (s.modHome h f) := by
  refine ⟨rfl, fun k => ?_⟩
  rw [home_modHome]
  split
  next hk => rw [hk]; exact hf _
  next => rfl

section
variable {s s' : State} (h : Cleared s s')
include h

theorem Cleared.quiet {k : Nat} (hq : HomeQuiet s k) : HomeQuiet s' k := by
  obtain ⟨hqueue, hrequests, hmarks⟩ := hq
  have hport : s'.port = s.port := (congrArg State.port h.1 :)
  have hops : s'.memops = s.memops := (congrArg State.memops h.1 :)
  exact ⟨(congrArg Home.queue (h.2 k) :).trans hqueue, by rw [hport, hrequests], by rw [hops]; exact hmarks⟩

theorem Cleared.waits (k : Nat) : (s'.home k).waits = (s.home k).waits := (congrArg Home.waits (h.2 k) :)

end

/-- A line leaves its home (R62). -/
def dropLine (s : State) (ln : Nat) : State := s.modHome (homeOf ln) fun h => { h with lines := Tab.del ln h.lines }

theorem dropLines_resident (lns : List Nat) (s : State) (ln : Nat) :
    (lns.foldl dropLine s).isResident ln = (decide (ln ∉ lns) && s.isResident ln) := by
  induction lns generalizing s with
  | nil => rfl
  | cons a lns ih =>
    have hone : (dropLine s a).isResident ln = (decide (ln ≠ a) && s.isResident ln) := by
      simp only [State.isResident, dropLine, home_modHome, Tab.has]
      by_cases hhome : homeOf ln = homeOf a
      · rw [if_pos hhome, Tab.find_del, ← hhome]
        by_cases ha : ln = a <;> simp [ha]
      · have ha : ln ≠ a := fun he => hhome (congrArg homeOf he)
        simp [hhome, ha]
    rw [List.foldl_cons, ih, hone]
    by_cases ha : ln = a <;> simp [ha]

/-- A slice's memory time counts the return (R80). -/
def raiseMts (time : Nat) (s : State) (h : Nat) : State := s.modHome h fun g => { g with mts := max g.mts time }

theorem raiseMts_resident (time : Nat) (hs : List Nat) (s : State) (ln : Nat) :
    (hs.foldl (raiseMts time) s).isResident ln = s.isResident ln := by
  induction hs generalizing s with
  | nil => rfl
  | cons a hs ih =>
    refine (ih _).trans ?_
    simp only [State.isResident, raiseMts, home_modHome]
    split
    next h => rw [h]
    next => rfl

theorem raiseMts_mts (time : Nat) (hs : List Nat) (s : State) (h : Nat) (hin : h ∈ hs ∨ time ≤ (s.home h).mts) :
    time ≤ ((hs.foldl (raiseMts time) s).home h).mts := by
  induction hs generalizing s with
  | nil => exact hin.resolve_left List.not_mem_nil
  | cons a hs ih =>
    refine ih _ ?_
    simp only [raiseMts, home_modHome]
    by_cases ha : h = a
    · exact .inr (by rw [if_pos ha]; exact Nat.le_max_right _ _)
    · rw [if_neg ha]
      exact hin.imp_left fun hm => (List.mem_cons.1 hm).resolve_left ha

theorem Tidied.quiet {s s' : State} (h : Tidied s s') {k : Nat} (hq : HomeQuiet s k) : HomeQuiet s' k := by
  obtain ⟨hqueue, hrequests, hmarks⟩ := hq
  obtain ⟨⟨hrest, -⟩, -⟩ := id h
  have hport : s'.port = s.port := (congrArg State.port hrest :)
  have hops : s'.memops = s.memops := (congrArg State.memops hrest :)
  exact ⟨by rw [h.home, hqueue], by rw [hport, hrequests], by rw [hops]; exact hmarks⟩

/-- Slices at which nothing waits have nothing to serve. -/
theorem settles_quiet (is : List Nat) (base : Nat) (s : State) (hq : ∀ i ∈ is, HomeQuiet s (base + i)) :
    Tidied s (is.foldl (fun s i => s.settle (base + i) 64) s) := by
  induction is generalizing s with
  | nil => exact tidied_refl s
  | cons i is ih =>
    have hone := settle_quiet 64 (hq i List.mem_cons_self)
    exact hone.trans (ih _ fun j hj => Tidied.quiet hone (hq j (List.mem_cons_of_mem _ hj)))

section
variable {s : State} {stack call : Nat} {c : Call}

theorem mem_residentRange {ln : Nat} (hcovers : c.covers ln = true) (hstack : homeOf ln / 12 = stack)
    (h : s.isResident ln = true) : ln ∈ s.residentRange stack c := by
  obtain ⟨i, hi, hslice⟩ := slice_index hstack
  refine List.mem_flatMap.2 ⟨i, List.mem_range.2 hi, List.mem_filter.2 ⟨?_, hcovers⟩⟩
  rw [hslice]
  exact Tables.mem_keys_of_has h

/-- The lines of a call's ranges that threads watch (R61). -/
def watchedLines (s : State) (stack : Nat) (c : Call) : List Nat :=
  (List.range 12).flatMap fun i =>
    (((s.home (stack * 12 + i)).waits.map fun (_, w) => deviceLine w.addr).filter c.covers).eraseDups

/-- The lines leave, the slices count the return, watched lines are evaluated, and the slices serve what waits (R62, R80). -/
theorem invalidate_eq (h : s.callIn stack call .run = some c) (hteams : s.callTeamsOf stack call = [])
    (hall : callTeams c.card ≤ c.started) :
    let u := (c.slices stack fun _ => true).foldl (raiseMts c.returned)
      ((s.residentRange stack c).foldl dropLine (s.modCall stack call fun c => { c with phase := .ret }))
    exec (.platenCallInvalidate stack call) s = .next ((List.range 12).foldl (fun s i => s.settle (stack * 12 + i) 64)
      ((watchedLines u stack c).foldl (fun s ln => s.evalWaits ln) u)) := by
  intro u
  show execPlatenCallInvalidate stack call s = _
  simp only [execPlatenCallInvalidate, h, hteams, decide_eq_false (Nat.not_lt.2 hall), List.isEmpty_nil, Bool.not_true, Bool.or_self,
    Bool.false_eq_true, if_false]
  rfl

/-- After the last team the range leaves its homes, and its slices count the return (R62, R80). -/
theorem invalidate_done (h : s.callIn stack call .run = some c) (hteams : s.callTeamsOf stack call = [])
    (hall : callTeams c.card ≤ c.started)
    (hquiet : ∀ i, i < 12 → HomeQuiet s (stack * 12 + i) ∧ (s.home (stack * 12 + i)).waits = []) :
    ∃ s', exec (.platenCallInvalidate stack call) s = .next s' ∧ s'.call? stack call = some { c with phase := .ret } ∧
      (∀ ln, c.covers ln = true → homeOf ln / 12 = stack → s'.isResident ln = false) ∧
      (∀ ln, c.covers ln = true → homeOf ln / 12 = stack → c.returned ≤ (s'.home (homeOf ln)).mts) ∧
      s'.hbm = s.hbm ∧ s'.teams = s.teams := by
  obtain ⟨u, hu⟩ : ∃ u, u = s.modCall stack call fun c => { c with phase := .ret } := ⟨_, rfl⟩
  obtain ⟨v, hv⟩ : ∃ v, v = (c.slices stack fun _ => true).foldl (raiseMts c.returned) ((s.residentRange stack c).foldl dropLine u) :=
    ⟨_, rfl⟩
  have hcleared : Cleared u v := by
    rw [hv]
    refine (cleared_foldl (F := dropLine) (fun s ln => ?_) _ _).trans (cleared_foldl (F := raiseMts c.returned) (fun s h => ?_) _ _)
    · exact cleared_modHome fun _ => rfl
    · exact cleared_modHome fun _ => rfl
  have hvquiet : ∀ i, i < 12 → HomeQuiet v (stack * 12 + i) ∧ (v.home (stack * 12 + i)).waits = [] := fun i hi => by
    obtain ⟨hq, hwaits⟩ := hquiet i hi
    exact ⟨hcleared.quiet (show HomeQuiet u _ from hu ▸ hq), (hcleared.waits _).trans (hu ▸ hwaits)⟩
  have hwatched : watchedLines v stack c = [] :=
    List.flatMap_eq_nil_iff.2 fun i hi => by rw [(hvquiet i (List.mem_range.1 hi)).2]; rfl
  have htidy := settles_quiet (List.range 12) (stack * 12) v fun i hi => (hvquiet i (List.mem_range.1 hi)).1
  have hexec := invalidate_eq h hteams hall
  dsimp only at hexec
  rw [← hu, ← hv, hwatched, List.foldl_nil] at hexec
  generalize (List.range 12).foldl (fun s i => State.settle s (stack * 12 + i) 64) v = w at hexec htidy
  have hresident : ∀ ln, v.isResident ln = (decide (ln ∉ s.residentRange stack c) && s.isResident ln) := fun ln => by
    rw [hv, raiseMts_resident, dropLines_resident, hu]
    rfl
  have hcall : v.call? stack call = some { c with phase := .ret } :=
    (call?_congr (congrArg State.platens hcleared.1 :)).trans (hu ▸ call?_modCall _ (callIn_eq_some.1 h).1)
  refine ⟨_, hexec, (call?_congr (congrArg State.platens htidy.1.1 :)).trans hcall, fun ln hcovers hstack => ?_,
    fun ln hcovers hstack => ?_, htidy.hbm.trans ((congrArg State.hbm hcleared.1 :).trans (hu ▸ rfl)),
    htidy.teams.trans ((congrArg State.teams hcleared.1 :).trans (hu ▸ rfl))⟩
  · rw [State.isResident, htidy.home]
    refine (hresident ln).trans ?_
    cases hres : s.isResident ln with
    | false => exact Bool.and_false _
    | true => simp [mem_residentRange hcovers hstack hres]
  · rw [htidy.home, hv]
    exact raiseMts_mts _ _ _ _ (.inl (mem_slices hcovers hstack rfl))

end

/-! ### The return on the object -/

open Sys2Proof.Proofs.BarrierObjects

section
variable {s : State} {k off : Nat} {f g : Forme} {clocks : Tab Nat}

/-- Units that become sound leave sound units sound. -/
theorem healForme_bad (s : State) (k off n : Nat) : ∃ bad, s.healForme k off n = { s with bad } ∧
    ∀ key, Tab.find key s.bad = none → Tab.find key bad = none := by
  have hfold : ∀ (is : List Nat) (bad : Tab Nat) key, Tab.find key bad = none →
      Tab.find key (is.foldl (fun b i => Tab.del (badForme k (off + 8 * i)) b) bad) = none := by
    intro is
    induction is with
    | nil => exact fun _ _ h => h
    | cons i is ih =>
      refine fun bad key h => ih _ key ?_
      rw [Tab.find_del]
      split
      · rfl
      · exact h
  unfold State.healForme
  split
  · exact ⟨_, rfl, hfold _ _⟩
  · exact ⟨_, rfl, fun _ h => h⟩

theorem badUnits_sound {bad : Tab Nat} (h : s.badUnits k off 16 false = false)
    (hbad : ∀ key, Tab.find key s.bad = none → Tab.find key bad = none) :
    ({ s with bad } : State).badUnits k off 16 false = false := by
  unfold State.badUnits State.badAt at h ⊢
  rw [Bool.false_and, Bool.not_false, Bool.true_and, List.any_eq_false] at h ⊢
  refine fun i hi hsome => h i hi ?_
  cases hfind : Tab.find (badForme k (off + 8 * i)) s.bad with
  | some a => rfl
  | none =>
    dsimp only at hsome
    rw [hbad _ hfind] at hsome
    cases hsome

theorem raise_atBank (s : State) (k own time : Nat) (g : Forme) (clocks : Tab Nat) :
    (atBank s k g clocks).raise own time = atBank s k g ((atBank s k g clocks).raise own time).clocks := rfl

theorem has_atBank (s : State) (k : Nat) (g : Forme) (clocks : Tab Nat) : Tab.has (atBank s k g clocks).formes k = true := by
  have hfind : Tab.find k (atBank s k g clocks).formes = some g := Tab.find_put_same _ _ _
  rw [Tab.has, hfind]
  rfl

/-- The arrival of an agent on an object that is sound and pending, and for which no thread waits (R103, R265). -/
theorem agentArrive_atBank (hsound : s.badUnits k off 16 false = false) (hfree : s.objWaiters k off = [])
    (hparr : 1 ≤ (f.obj off).parr) (hg : Became f off (f.obj off) none g) (time : Nat) :
    ∃ g', (atBank s k g clocks).agentArrive k off time = atBank s k g' clocks ∧
      Became f off (arrived (f.obj off) 1) none g' := by
  have hobj : g.obj off = f.obj off := hg.1
  have hfits : Obj.Fits { f.obj off with parr := (f.obj off).parr - 1 } := by
    obtain ⟨h1, h2, h3, h4⟩ := obj_fits f off
    exact ⟨Nat.lt_of_le_of_lt (Nat.sub_le _ _) h1, h2, h3, h4⟩
  obtain ⟨g', hflip, hbecame⟩ := checkFlip_arrived (s := s) (clocks := clocks) hfree hparr hfits
    (became_withNote (became_withObj hg hfits) time)
  refine ⟨g', ?_, hbecame⟩
  have hbad : (atBank s k g clocks).badUnits k off 16 false = false := hsound
  simp only [State.agentArrive, forme_atBank, hobj, has_atBank, hbad, Nat.not_lt.2 hparr, Bool.not_true, Bool.false_eq_true, if_false,
    putObj_atBank, objNote_atBank, hflip]

/-- A link's arrival, an access in S at the bank (R245, R265). -/
theorem linkArrive_atBank (hsound : s.badUnits k off 16 false = false) (hfree : s.objWaiters k off = [])
    (hparr : 1 ≤ (g.obj off).parr) (htag : g.tagged off = true) (own : Nat) :
    ∃ g' clocks', (atBank s k g clocks).linkArrive own (some (k, off)) = atBank s k g' clocks' ∧
      Became g off (arrived (g.obj off) 1) none g' := by
  obtain ⟨h, time, hstamp⟩ : ∃ h time, (h, time) = g.stamp off ((atBank s k g clocks).clock own) := ⟨_, _, rfl⟩
  have hbecame : Became g off (g.obj off) none h := by
    obtain ⟨rfl, -⟩ := Prod.mk.inj hstamp
    exact became_timed (became_refl g off) rfl rfl rfl
  obtain ⟨g', harrive, hg'⟩ := agentArrive_atBank (clocks := ((atBank s k h clocks).raise own time).clocks) hsound hfree hparr hbecame
    time
  refine ⟨g', ((atBank s k h clocks).raise own time).clocks, ?_, hg'⟩
  simp only [State.linkArrive, has_atBank, forme_atBank, htag, Bool.and_self, if_true]
  rw [← hstamp]
  dsimp only
  rw [modForme_atBank, raise_atBank, harrive]
  rfl

end

theorem store_forme (f : Forme) (off n v pts : Nat) : (f.store off n v pts).1.data = writeBytes f.data off n v ∧
    (f.store off n v pts).1.tag = f.tag := ⟨rfl, rfl⟩

/-- The record is written as one access and leaves the object before it as it is (R265). -/
theorem obj_record {f g : Forme} {off n v : Nat} (hdata : g.data = writeBytes f.data (off + 16) n v) : g.obj off = f.obj off := by
  have hword : ∀ i < 4, readBytes g.data (off + 4 * i) 4 = readBytes f.data (off + 4 * i) 4 := fun i hi => by
    rw [hdata, readBytes_writeBytes_apart _ (.inl (by omega))]
  simp only [Forme.obj, hword 0 (by decide), hword 1 (by decide), hword 2 (by decide), hword 3 (by decide)]

/-- A call returns: its record, and the arrival on its object (R265). -/
theorem return_done {s : State} {stack call k off : Nat} {c : Call} {f : Forme} (h : s.callIn stack call .ret = some c)
    (hobject : c.object = some (k, off)) (hfind : Tab.find k s.formes = some f) (htag : f.tagged off = true)
    (hfree : s.objWaiters k off = []) (hparr : 1 ≤ (f.obj off).parr) (hsound : s.badUnits k off 16 false = false) :
    ∃ s', exec (.platenCallReturn stack call) s = .next s' ∧ s'.call? stack call = none ∧
      (s'.forme k).obj off = arrived (f.obj off) 1 ∧
      (∀ i, i < 16 → Tab.getD (s'.forme k).data (off + 16 + i) 0 = BitVec.ofNat 8 (c.record / 256 ^ i)) ∧
      ∀ a, a < off ∨ off + 32 ≤ a → Tab.getD (s'.forme k).data a 0 = Tab.getD f.data a 0 := by
  obtain ⟨u, hu⟩ : ∃ u, u = (s.modPlaten stack fun p => { p with calls := Tab.del call p.calls }).stirLaunch c.launch := ⟨_, rfl⟩
  have hucall : u.call? stack call = none := by
    have hcalls : (s.modPlaten stack fun p => { p with calls := Tab.del call p.calls }).call? stack call = none := by
      rw [call?_modPlaten, Tab.find_del_same]
    exact (congrArg (fun w : State => w.call? stack call) hu).trans hcalls
  have hufind : Tab.find k u.formes = some f := hu ▸ hfind
  have huforme : u.forme k = f := Accesses.forme_of_find hufind
  obtain ⟨g, time, hg⟩ : ∃ g time, (g, time) = f.store (off + 16) 16 c.record (max (u.clock (platenClock stack)) c.returned) :=
    ⟨_, _, rfl⟩
  have hdata : g.data = writeBytes f.data (off + 16) 16 c.record ∧ g.tag = f.tag := by
    obtain ⟨rfl, -⟩ := Prod.mk.inj hg
    exact store_forme _ _ _ _ _
  have hobj : g.obj off = f.obj off := obj_record hdata.1
  have hgtag : g.tagged off = true := by rw [Forme.tagged, hdata.2]; exact htag
  have hstored : (u.modForme k fun _ => g).raise (platenClock stack) time =
      atBank u k g (u.raise (platenClock stack) time).clocks := by
    rw [Accesses.modForme_const hufind]
    rfl
  obtain ⟨bad, hheal, hbad⟩ := healForme_bad (atBank u k g (u.raise (platenClock stack) time).clocks) k (off + 16) 16
  have husound : u.badUnits k off 16 false = false := by rw [hu]; exact hsound
  have hufree : u.objWaiters k off = [] := by rw [hu]; exact hfree
  obtain ⟨g', clocks', harrive, hobj', hbytes, -, -⟩ := linkArrive_atBank (s := { u with bad })
    (clocks := (u.raise (platenClock stack) time).clocks) (badUnits_sound husound hbad) hufree (hobj.symm ▸ hparr) hgtag
    (platenClock stack)
  have hexec : exec (.platenCallReturn stack call) s = .next (atBank { u with bad } k g' clocks') := by
    show execPlatenCallReturn stack call s = _
    simp only [execPlatenCallReturn, h, hobject]
    rw [← hu, huforme, ← hg]
    dsimp only
    rw [hstored, hheal, ← harrive]
    rfl
  refine ⟨_, hexec, hucall, ?_, fun i hi => ?_, fun a ha => ?_⟩
  · rw [forme_atBank, hobj', hobj]
  · rw [forme_atBank, hbytes _ (.inr (by omega)), hdata.1, getD_writeBytes, if_pos (by omega), Nat.add_sub_cancel_left]
  · rw [forme_atBank, hbytes _ (by omega), hdata.1, getD_writeBytes, if_neg (by omega)]

/-- Settles O50: each step of a call is its model's function with its guards taken, its range by the rules of the homes and its
return by those of objects. -/
theorem platenCalls : Obligations.PlatenCalls := by
  unfold Obligations.PlatenCalls
  intro s stack call c callOf clk
  refine ⟨?_, ?_, ?_, ?_, ?_, ?_, ?_, ?_⟩
  · intro h waiting
    refine ⟨fun hwait => drain_waits h ((rangePackets_iff s c).2 hwait), fun hfree => ⟨_, drain_done h fun hp =>
      hfree ((rangePackets_iff s c).1 hp), call?_modCall _ (callIn_eq_some.1 h).1, rfl⟩⟩
  · intro ln l h hrange hfree hpower
    exact writeback_done h hrange hfree hpower
  · intro h hflush hlines hapart
    exact loan_done h hflush hlines hapart
  · intro hdr core va isRead h hstop hmore hfirst hhdr hroom
    obtain ⟨s', hexec, hcall, hteam, hhbm⟩ := team_placed h hstop hmore hfirst
      (hhdr.imp_right fun hread => ⟨hread.1, readHeader_ok rfl hread.2⟩) hroom
    exact ⟨s', _, hexec, hcall, hteam, rfl, rfl, rfl, rfl, rfl, rfl, rfl, hhbm, fun n hn => nearTeam_thread hn⟩
  · intro h hstop hmore hsort
    exact fault_done h hstop hmore hsort
  · intro h hteams hall hquiet
    exact invalidate_done h hteams hall hquiet
  · intro k off f h hobject hfind htag hfree hparr hsound
    exact return_done h hobject hfind htag hfree hparr hsound
  · intro index p h hapart hops hfirst hsound
    exact packet_applied h hapart hops hfirst hsound

end Sys2Proof.Proofs.PlatenCalls

/-! Links, peer traffic and reductions (R85, R87, R280 to R292): what a plane that goes down loses, what a peer's answer leaves of
its thread, inbound accesses at their homes, reduction packets and collective results. -/

namespace Sys2Proof.Proofs.FabricTraffic

open Sys2Proof Sys2Proof.Machine Sys2Proof.Claims Sys2Proof.Proofs.Accesses Sys2Proof.Proofs.Slices Sys2Proof.Proofs.Homes
  Sys2Proof.Proofs.Jobs Sys2Proof.Proofs.PlatenCalls

/-! ### A peer access that is no longer outstanding -/

/-- The fabric without an outstanding access. -/
def forgets (s : State) (tag : Nat) : State := { s with fabric := { s.fabric with out := Tab.del tag s.fabric.out } }

/-- An acknowledgement leaves a thread's list. -/
def acked (tag : Nat) (th : Thread) : Thread := { th with peerOut := th.peerOut.erase tag }

section
variable {s : State} {tag : Nat} {o : PeerOut} {th : Thread}

theorem thread_acked (hth : s.thread? o.tid = some th) :
    ((forgets s tag).modThread o.tid (acked tag)).thread? o.tid = some (acked tag th) := by
  rw [thread?_modThread_same, show (forgets s tag).thread? o.tid = s.thread? o.tid from rfl, hth]
  rfl

/-- A thread in no fence only forgets the access. -/
theorem peerDone_plain (hth : s.thread? o.tid = some th) (hsys : th.wait ≠ .fenceSys) (hio : th.wait ≠ .fenceIo)
    (hcode : th.wait ≠ .fenceCode) : s.peerDone tag o = (forgets s tag).modThread o.tid (acked tag) := by
  have hthread := thread_acked (tag := tag) hth
  show ((forgets s tag).modThread o.tid (acked tag)).fenceDone o.tid = _
  simp only [State.fenceDone, hthread]
  show (match th.wait with
    | .fenceSys => _
    | .fenceIo => _
    | .fenceCode => _
    | _ => _) = _
  split
  · exact absurd ‹_› hsys
  · exact absurd ‹_› hio
  · exact absurd ‹_› hcode
  · rfl

theorem setRegField_fabric (s : State) (off lo w v : Nat) : (s.setRegField off lo w v).fabric = s.fabric := rfl

theorem writeHost_fabric (s : State) (pa n v : Nat) : (s.writeHost pa n v).fabric = s.fabric := rfl

theorem withPort_fabric (s : State) (port : Port) : ({ s with port } : State).fabric = s.fabric := rfl

theorem hostEvent_fabric (s : State) (e : HostEvent) : (s.hostEvent e).fabric = s.fabric := by
  unfold State.hostEvent
  simp only
  split
  · rfl
  split
  · exact setRegField_fabric ..
  · exact (withPort_fabric ..).trans ((setRegField_fabric ..).trans (writeHost_fabric s _ _ _))

/-- A step of a thread keeps the fabric. -/
theorem unmoved_fabric : Unmoved fun s s' => s'.fabric = s.fabric where
  refl _ := rfl
  trans h h' := h'.trans h
  hostEvent := hostEvent_fabric
  noteFault _ _ _ _ := rfl
  thread _ _ _ _ := rfl
  stopped _ _ _ _ := rfl
  rest _ _ _ _ := rfl

theorem fenceDone_fabric (s : State) (i : Tid) : (s.fenceDone i).fabric = s.fabric := by
  unfold State.fenceDone
  split
  · rfl
  · split
    · unfold State.fenceSys
      split
      · rfl
      · split
        · exact unmoved_fabric.deliver _ _ _ _
        · split <;> rfl
    · split <;> rfl
    · split <;> rfl
    · rfl

theorem peerDone_forgets (s : State) (tag : Nat) (o : PeerOut) : Tab.find tag (s.peerDone tag o).fabric.out = none := by
  have h := fenceDone_fabric ((forgets s tag).modThread o.tid (acked tag)) o.tid
  exact (congrArg (fun f : Fabric => Tab.find tag f.out) h :).trans (Tab.find_del_same _ _)

/-- A thread whose `fence.sys` waits for this access alone goes on (R87). -/
theorem peerDone_fence (hth : s.thread? o.tid = some th) (hwait : th.wait = .fenceSys) (hlost : th.peerLost = false)
    (hpeer : th.peerOut = [tag]) (hhost : th.hostOut = []) : (s.peerDone tag o).thread? o.tid =
      some { th with peerOut := [], wait := .ready, pc := BitVec.ofNat 64 (th.pc.toNat + 12) } := by
  obtain ⟨u, hu⟩ : ∃ u, u = (forgets s tag).modThread o.tid (acked tag) := ⟨_, rfl⟩
  have hempty : acked tag th = { th with peerOut := [] } := by rw [acked, hpeer, List.erase_cons_head]
  have hthread : u.thread? o.tid = some { th with peerOut := [] } := by rw [hu, thread_acked hth, hempty]
  have hdone : s.peerDone tag o =
      u.modThread o.tid fun th' => { th' with wait := .ready, pc := BitVec.ofNat 64 (th.pc.toNat + 12) } := by
    show ((forgets s tag).modThread o.tid (acked tag)).fenceDone o.tid = _
    rw [← hu]
    simp only [State.fenceDone, hthread, hwait, State.fenceSys, hlost, Bool.false_eq_true, if_false, Thread.settledSys, hhost,
      List.isEmpty_nil, Bool.and_self, if_true]
  rw [hdone, thread?_modThread_same, hthread]
  rfl

end

/-! ### Links -/

theorem planes_up (s : State) (port : Nat) (b : Bool) (p : Nat) :
    Tab.getD (Tab.set false port b s.fabric.up) p false = if p = port then b else Tab.getD s.fabric.up p false :=
  Tab.getD_set false port p b s.fabric.up

/-- A port of a powered die whose training succeeds is up (R280). -/
theorem train_up {s : State} {port : Nat} (hport : port < 128) (hpower : s.hasPower (port / 64) = true) :
    ∃ s', exec (.linkTrain port true) s = .next s' ∧
      (∀ p, Tab.getD s'.fabric.up p false = (p == port || Tab.getD s.fabric.up p false)) ∧
      { s' with fabric := { s'.fabric with up := s.fabric.up } } = s := by
  refine ⟨{ s with fabric := { s.fabric with up := Tab.set false port true s.fabric.up } }, ?_, fun p => ?_, rfl⟩
  · show execLinkTrain port true s = _
    simp only [execLinkTrain, if_pos hport, hpower, Bool.and_self, if_true]
  · rw [planes_up]
    by_cases hp : p = port <;> simp [hp]

/-- A training that fails leaves a plane that is down, and takes down one that is up (R280). -/
theorem train_down {s : State} {port : Nat} {good : Bool} (hport : port < 128) (h : good = false ∨ s.hasPower (port / 64) = false) :
    (Tab.getD s.fabric.up port false = false → exec (.linkTrain port good) s = .next s) ∧
      (Tab.getD s.fabric.up port false = true → exec (.linkTrain port good) s = exec (.linkDown port) s) := by
  have hbad : (good && s.hasPower (port / 64)) = false := by
    obtain h | h := h
    · rw [h, Bool.false_and]
    · rw [h, Bool.and_false]
  refine ⟨fun hup => ?_, fun hup => ?_⟩
  · show execLinkTrain port good s = _
    simp only [execLinkTrain, if_pos hport, hbad, hup, Bool.false_eq_true, if_false]
  · show execLinkTrain port good s = execLinkDown port s
    simp only [execLinkTrain, execLinkDown, if_pos hport, hbad, hup, Bool.false_eq_true, if_false, if_true]

/-- A plane is down. -/
def unplugged (s : State) (port : Nat) : State :=
  { s with fabric := { s.fabric with up := Tab.set false port false s.fabric.up } }

theorem linkDown_eq {s : State} {port : Nat} (hup : Tab.getD s.fabric.up port false = true) :
    exec (.linkDown port) s = .next (s.downPlane port) := by
  show execLinkDown port s = _
  simp only [execLinkDown, hup, if_true]

/-- A write outstanding on the plane is lost; its thread's next fence is to tell (R285). -/
theorem down_loses {s : State} {port tag : Nat} {o : PeerOut} {th : Thread} (hout : s.fabric.out = [(tag, o)])
    (hplane : o.plane = port) (hwrite : o.write = true) (hop : o.op = none) (hjob : o.job = none)
    (hio : Tab.has s.port.ioReads tag = false) (hth : s.thread? o.tid = some th) (hlive : th.live = true)
    (hwait : th.wait = .ready) (hjobs : ∀ p ∈ s.jobs, p.2.awaitsPlane port = false) :
    ∃ s', s.downPlane port = s' ∧ Tab.getD s'.fabric.up port false = false ∧ s'.fabric.out = [] ∧
      s'.fabric.lost = s.fabric.lost + 1 ∧ s'.hbm = s.hbm ∧ s'.jobs = s.jobs ∧
      s'.thread? o.tid = some { th with peerLost := true, peerOut := th.peerOut.erase tag } := by
  obtain ⟨v, hv⟩ : ∃ v : State, v = { unplugged s port with fabric :=
    { (unplugged s port).fabric with lost := (unplugged s port).fabric.lost + 1 } } := ⟨_, rfl⟩
  obtain ⟨w, hw⟩ : ∃ w, w = v.modThread o.tid fun th => { th with peerLost := true } := ⟨_, rfl⟩
  have hmine : ∀ {x : State} {th'}, x.thread? o.tid = some th' → th'.live = true → x.isThreads o = true := fun h hl => by
    rw [State.isThreads, hjob, h, Option.map_some, Option.getD_some, hl]
    rfl
  have hvth : v.thread? o.tid = some th := by rw [hv]; exact hth
  have hwth : w.thread? o.tid = some { th with peerLost := true } := by rw [hw, thread?_modThread_same, hvth]; rfl
  have hgone : ((unplugged s port).fabric.out.filter fun (p : Nat × PeerOut) =>
      p.2.plane == port && !Tab.has (unplugged s port).port.ioReads p.1) = [(tag, o)] := by
    show (s.fabric.out.filter _) = _
    rw [hout]
    simp [hplane, unplugged, hio]
  have hcount : (unplugged s port).countLost o = w := by
    have hmv := hmine hvth hlive
    rw [hv] at hmv
    simp only [State.countLost, hwrite, Bool.not_true, Bool.false_eq_true, if_false]
    rw [hmv, hw, hv]
    rfl
  have hlose : w.loseAccess tag o = (w.peerDone tag o, []) := by
    simp only [State.loseAccess, hop, hmine hwth hlive, Bool.true_or, if_true]
  have hdone := peerDone_plain (s := w) (tag := tag) hwth (by rw [hwait]; nofun) (by rw [hwait]; nofun) (by rw [hwait]; nofun)
  obtain ⟨x, hx⟩ : ∃ x, x = w.peerDone tag o := ⟨_, rfl⟩
  rw [← hx] at hlose hdone
  have hxjobs : x.jobs = s.jobs := by rw [hdone, hw, hv]; rfl
  have hnone : (x.jobs.filter fun (p : Nat × Job) => p.2.awaitsPlane port) = [] := by
    rw [hxjobs]
    exact List.filter_eq_nil_iff.2 fun p hp => by rw [hjobs p hp]; exact Bool.false_ne_true
  have hdown : s.downPlane port = x := by
    unfold State.downPlane
    dsimp only
    have hg := hgone
    unfold unplugged at hg hcount
    rw [hg]
    simp only [List.foldl_cons, List.foldl_nil, hcount, hlose, List.nil_append, show ∀ y : State, y.deliverFaults [] = y from fun _ => rfl,
      hnone]
  refine ⟨x, hdown, ?_, ?_, by rw [hdone, hw, hv]; rfl, by rw [hdone, hw, hv]; rfl, hxjobs, ?_⟩
  · rw [hdone, hw, hv]
    exact (planes_up s port false port).trans (if_pos rfl)
  · rw [hdone, hw, hv]
    show Tab.del tag s.fabric.out = []
    rw [hout]
    simp [Tab.del]
  · rw [hdone, thread_acked hwth]
    rfl

/-- A collective job that awaits the plane ends (R292). -/
theorem down_ends {s : State} {port k : Nat} {j : Job} (hout : s.fabric.out = []) (hjobs : s.jobs = [(k, j)])
    (hawaits : j.awaitsPlane port = true) :
    s.downPlane port = (unplugged s port).failJob k (protection 13 (cardAddr j.card 1)) := by
  have hgone : ((unplugged s port).fabric.out.filter fun (p : Nat × PeerOut) =>
      p.2.plane == port && !Tab.has (unplugged s port).port.ioReads p.1) = [] := by
    show (s.fabric.out.filter _) = _
    rw [hout]
    rfl
  have hone : ((unplugged s port).jobs.filter fun (p : Nat × Job) => p.2.awaitsPlane port) = [(k, j)] := by
    show s.jobs.filter _ = _
    rw [hjobs]
    simp [hawaits]
  unfold State.downPlane
  dsimp only
  unfold unplugged at hgone hone ⊢
  rw [hgone]
  simp only [List.foldl_nil, show ∀ y : State, y.deliverFaults [] = y from fun _ => rfl]
  rw [hone]
  rfl

theorem links : Links := by
  refine ⟨fun s port good hport => ⟨fun hgood hpower => ?_, train_down hport⟩, ?_, ?_⟩
  · subst hgood
    exact train_up hport hpower
  · intro s port tag o th hup hout hplane hwrite hop hjob hio hth hlive hwait hjobs
    obtain ⟨s', hdown, h⟩ := down_loses hout hplane hwrite hop hjob hio hth hlive hwait hjobs
    exact ⟨s', hdown ▸ linkDown_eq hup, h⟩
  · intro s port k j hup hout hjobs hawaits
    refine ⟨_, (linkDown_eq hup).trans (congrArg _ (down_ends hout hjobs hawaits)), ⟨{ j with
      ended := some (j.statusOf 0x06 13), faultAddr := cardAddr j.card 1 }, ?_, rfl⟩, rfl, rfl⟩
    refine (Tab.find_modify_same _ _ _).trans ?_
    show (Tab.find k s.jobs).map _ = _
    rw [hjobs, Tab.find_cons, if_pos rfl]
    rfl


/-! ### Answers to this module's accesses -/

section
variable {s : State} {tag op : Nat} {o : PeerOut} {th : Thread} {m : MemOp} {a : Access}

/-- The one reply that an operation awaited is there. -/
theorem replied_last (hop : Tab.find op s.memops = some m) (hreplies : m.replies = [tag]) :
    Tab.find op (s.replied op tag).memops = some { m with replies := [] } := by
  refine (Tab.find_modify_same _ _ _).trans ?_
  rw [hop, Option.map_some, hreplies, List.erase_cons_head]

/-- The value that a load awaited reaches its thread, which goes on (R284). -/
theorem value_reaches {v : Nat} (hth : s.thread? o.tid = some th) (hop : Tab.find op s.memops = some m) (haccs : m.accs = [])
    (hreplies : m.replies = [tag]) (hteam : m.team = o.tid.team) (hthreads : m.threads = [o.tid.n]) (hwait : th.wait = .mem op)
    (hkind : m.kind = .load) : ∃ th', Tab.find tag (s.peerValue tag o op a v).fabric.out = none ∧
      Tab.find op (s.peerValue tag o op a v).memops = none ∧ (s.peerValue tag o op a v).thread? o.tid = some th' ∧
      Resumed th th' (th.setVs a.dreg (loadFill a.ty v) a.ty.regs).regs th.fpflags m.next := by
  obtain ⟨new, flags, hwrite⟩ : ∃ new flags, m.kind.write a v = (new, flags) := ⟨_, _, rfl⟩
  obtain ⟨u, hu⟩ : ∃ u, u = s.modThread o.tid fun th => th.landed m.kind a v new flags := ⟨_, rfl⟩
  obtain ⟨x, hx⟩ : ∃ x : Thread, x = th.landed .load a v new flags := ⟨_, rfl⟩
  have hxrest : { x with regs := th.regs, fpflags := th.fpflags, bad := th.bad, seen := th.seen, spins := th.spins } = th := by
    have hset := setVs_rest th a.dreg (loadFill a.ty v) a.ty.regs
    rw [hx, Thread.landed]
    split
    · exact (congrArg (fun y : Thread => { y with fpflags := th.fpflags, spins := th.spins }) hset :)
    · exact (congrArg (fun y : Thread => { y with fpflags := th.fpflags, spins := th.spins }) hset :)
  have hxregs : x.regs = (th.setVs a.dreg (loadFill a.ty v) a.ty.regs).regs ∧ x.fpflags = th.fpflags := by
    have hset : (th.setVs a.dreg (loadFill a.ty v) a.ty.regs).fpflags = th.fpflags :=
      (congrArg Thread.fpflags (setVs_rest th a.dreg (loadFill a.ty v) a.ty.regs) :)
    rw [hx, Thread.landed]
    split
    · exact ⟨rfl, hset⟩
    · exact ⟨rfl, hset⟩
  have huth : (u.replied op tag).thread? o.tid = some x := by
    show u.thread? o.tid = _
    rw [hu, thread?_modThread_same, hth, hkind, hx]
    rfl
  have hxwait : x.wait = .mem op := (congrArg Thread.wait hxrest :).trans hwait
  have hdone := peerDone_plain (tag := tag) huth (by rw [hxwait]; nofun) (by rw [hxwait]; nofun) (by rw [hxwait]; nofun)
  have huop : Tab.find op u.memops = some m := by rw [hu]; exact hop
  obtain ⟨w, hw⟩ : ∃ w, w = (u.replied op tag).peerDone tag o := ⟨_, rfl⟩
  rw [← hw] at hdone
  have hwop : Tab.find op w.memops = some { m with replies := [] } := by rw [hdone]; exact replied_last huop hreplies
  have hwth : w.thread? o.tid = some (acked tag x) := by rw [hdone]; exact thread_acked huth
  have hvalue : s.peerValue tag o op a v =
      ({ w with memops := Tab.del op w.memops } : State).modThread o.tid (resume m.next) := by
    have hid : ({ team := m.team, n := o.tid.n } : Tid) = o.tid := by rw [hteam]
    simp only [State.peerValue, hop, hwrite]
    rw [← hu, ← hw, finishOp_done hwop haccs rfl (by rw [hkind]; nofun), hthreads, List.foldl_cons, List.foldl_nil, hid]
  rw [hvalue]
  refine ⟨resume m.next (acked tag x), ?_, Tab.find_del_same _ _, ?_, ?_⟩
  · rw [hdone]
    exact Tab.find_del_same _ _
  · rw [thread?_modThread_same, show State.thread? { w with memops := Tab.del op w.memops } o.tid = w.thread? o.tid from rfl, hwth]
    rfl
  · exact ⟨hxregs.1, hxregs.2, rfl, rfl, (congrArg Thread.preds hxrest :), (congrArg Thread.live hxrest :),
      (congrArg Thread.handler hxrest :), (congrArg Thread.tcause hxrest :), (congrArg Thread.tpc hxrest :),
      (congrArg Thread.taddr hxrest :), (congrArg Thread.tinfo hxrest :), (congrArg Thread.pend hxrest :)⟩

/-- A refusal of an access that a thread awaited is a fault at its instruction (R281, R283). -/
theorem refusal_traps {f : Trap} {t : Team} (hth : s.thread? o.tid = some th) (hacc : o.acc = some a)
    (hop : Tab.find op s.memops = some m) (haccs : m.accs = []) (hreplies : m.replies = [tag]) (hthreads : m.threads = [o.tid.n])
    (hwait : th.wait = .mem op) (ht : s.team? o.tid.team = some t) (hnear : t.near = false)
    (hstop : t.stopped = false) (hvec : s.trapVec t ≠ 0) (hhandler : th.handler = false) (hprecise : ∀ pc next, f.tpc pc next = pc) :
    ∃ th', Tab.find tag (s.peerFaults tag o op f).fabric.out = none ∧ Tab.find op (s.peerFaults tag o op f).memops = none ∧
      (s.peerFaults tag o op f).thread? o.tid = some th' ∧ Trapped th th' (s.trapVec t) th.pc.toNat f := by
  have hdone := peerDone_plain (s := s.replied op tag) (tag := tag) (o := o) hth (by rw [hwait]; nofun) (by rw [hwait]; nofun)
    (by rw [hwait]; nofun)
  obtain ⟨w, hw⟩ : ∃ w, w = (s.replied op tag).peerDone tag o := ⟨_, rfl⟩
  rw [← hw] at hdone
  have hwop : Tab.find op w.memops = some { m with replies := [] } := by rw [hdone]; exact replied_last hop hreplies
  have hhas : Tab.has w.memops op = true := by rw [Tab.has, hwop]; rfl
  obtain ⟨d, hd⟩ : ∃ d : State, d = { w with memops := Tab.modify op (fun p =>
    { p with threads := p.threads.erase o.tid.n, accs := p.accs.filter fun a => a.tid != o.tid.n }) w.memops } := ⟨_, rfl⟩
  have hdop : Tab.find op d.memops = some { m with threads := [], accs := [], replies := [] } := by
    rw [hd]
    refine (Tab.find_modify_same _ _ _).trans ?_
    rw [hwop, Option.map_some, hthreads, haccs, List.erase_cons_head]
    rfl
  obtain ⟨e, he⟩ : ∃ e : State, e = { d with memops := Tab.del op d.memops } := ⟨_, rfl⟩
  have hfinish : d.finishOp op = e := by
    simp only [State.finishOp, hdop, List.isEmpty_nil, Bool.and_self, if_true, State.threadsGoOn, List.foldl_nil]
    rw [he]
    split <;> rfl
  have hfault : s.peerFaults tag o op f = e.deliverFaults [(o.tid, f, m.next)] := by
    simp only [State.peerFaults, State.peerFault, hop, Option.map_some, Option.getD_some, hacc]
    rw [← hw]
    simp only [hhas, if_true, State.dropLane]
    rw [← hd, hfinish]
  have heteam : e.team? o.tid.team = some (t.modThread o.tid.n (acked tag)) := by
    rw [he, hd, hdone]
    refine (team?_modThread _ _ _ _).trans ((if_pos rfl).trans ?_)
    rw [show State.team? (forgets (s.replied op tag) tag) o.tid.team = s.team? o.tid.team from rfl, ht]
    rfl
  have heth : e.thread? o.tid = some (acked tag th) := by
    rw [he, hd, hdone]
    exact thread_acked (s := s.replied op tag) hth
  obtain ⟨u, hu⟩ : ∃ u, u = e.modThread o.tid fun th => { th with wait := .ready } := ⟨_, rfl⟩
  obtain ⟨t', ht'⟩ : ∃ t', t' = (t.modThread o.tid.n (acked tag)).modThread o.tid.n fun th => { th with wait := .ready } := ⟨_, rfl⟩
  have huteam : u.team? o.tid.team = some t' := by
    rw [hu, ht']
    exact (team?_modThread _ _ _ _).trans ((if_pos rfl).trans (by rw [heteam]; rfl))
  have huth : u.thread? o.tid = some { acked tag th with wait := .ready } := by
    rw [hu, thread?_modThread_same, heth]
    rfl
  have hutab : Tab.find o.tid.n t'.threads = some { acked tag th with wait := .ready } := by
    have h := huth
    rw [State.thread?, huteam] at h
    exact h
  obtain ⟨core, hplace⟩ : ∃ core, t'.place = .core core := by
    cases hp : t.place with
    | core core => exact ⟨core, by rw [ht']; exact hp⟩
    | near a b c => exact absurd hnear (by rw [Team.near, hp]; exact Bool.noConfusion)
  have huvec : u.trapVec t' = s.trapVec t := by rw [hu, ht', he, hd, hdone]; rfl
  have hdeliver := deliver_enter u o.tid f m.next core t' _ huteam hutab hplace (by rw [ht']; exact hstop) hhandler
    (by rw [huvec]; exact hvec)
  have hend : s.peerFaults tag o op f = u.deliver o.tid f m.next := by
    rw [hfault, hu]
    rfl
  rw [hend, hdeliver, huvec]
  refine ⟨_, ?_, ?_, (thread?_modThread_same _ _ _).trans (congrArg _ huth), ?_⟩
  · rw [hu, he, hd, hdone]
    exact Tab.find_del_same _ _
  · rw [hu, he]
    exact Tab.find_del_same _ _
  · rw [hprecise]
    exact Issue.trapped_enter { acked tag th with wait := .ready } f _ _

end

theorem peerAnswers : PeerAnswers := by
  intro s tag o th hfind hth hid
  refine ⟨fun op a m v hop hacc hm haccs hreplies hteam hthreads hwait => ⟨fun hkind => ?_, fun t r ht hnear hstop hvec hhandler => ?_⟩,
    fun hwrite hop => ?_⟩
  · obtain ⟨th', h⟩ := value_reaches (a := a) (v := v) hth hm haccs hreplies hteam hthreads hwait hkind
    refine ⟨_, th', ?_, h⟩
    show execPeerReplyReceive tag (.value v) s = _
    simp only [execPeerReplyReceive, hfind, hop, hacc, if_neg hid]
  · obtain ⟨th', h⟩ := refusal_traps (f := protection r o.va) hth hacc hm haccs hreplies hthreads hwait ht hnear hstop hvec
      hhandler fun _ _ => rfl
    refine ⟨_, th', ?_, h⟩
    show execPeerReplyReceive tag (.refusal r) s = _
    simp only [execPeerReplyReceive, hfind, hop, hacc, if_neg hid]
  · refine ⟨s.peerDone tag o, ?_, ?_⟩
    · show execPeerAckReceive tag s = _
      simp only [execPeerAckReceive, hfind, hwrite, hop, Option.isNone_none, Bool.and_self, if_true, if_neg hid]
    · exact ⟨peerDone_forgets s tag o, fun hsys hio hcode => by rw [peerDone_plain hth hsys hio hcode, thread_acked hth]; rfl,
        fun hwait hlost hpeer hhost => peerDone_fence hth hwait hlost hpeer hhost⟩


/-! ### Inbound accesses -/

/-- An access has arrived. -/
def offered (s : State) (req : PeerRequest) (kind : Nat) : State :=
  { s with fabric := { s.fabric with inbound := s.fabric.inbound ++ [(req, kind)] } }

theorem takePeers_none {s : State} (h : s.fabric.inbound = []) : s.takePeers = s := by rw [State.takePeers, h]; rfl

/-- The only access that waits is taken, and waits no longer. -/
theorem takePeers_one {s u : State} {req : PeerRequest} {kind : Nat} (h : s.fabric.inbound = [(req, kind)])
    (htake : s.takePeer req kind = (u, true)) :
    s.takePeers = { u with fabric := { u.fabric with inbound := u.fabric.inbound.erase (req, kind) } } := by
  simp only [State.takePeers, h, List.foldl_cons, List.foldl_nil, List.any_nil, Bool.false_eq_true, if_false, htake]

section
variable {s : State} {req : PeerRequest}

/-- A module without an identifier refuses every access (R281). -/
theorem refuses_unidentified (kind : Nat) (hid : s.modId = 0x3FF) : ∃ s', exec (.peerRequestReceive req kind) s = .next s' ∧
    s'.fabric.refused = s.fabric.refused + 1 ∧ s'.hbm = s.hbm ∧ s'.homes = s.homes ∧ s'.teams = s.teams ∧
    (isAnswered req.op = true → s'.fabric.answers = s.fabric.answers ++ [(req.tag, .refusal 13)]) ∧
    (isAnswered req.op = false → s'.fabric.answers = s.fabric.answers) := by
  have hexec : exec (.peerRequestReceive req kind) s =
      .next (if isAnswered req.op then s.logRefused.sendAnswer req.tag (.refusal 13) else s.logRefused) := by
    show execPeerRequestReceive req kind s = _
    simp only [execPeerRequestReceive, if_pos hid]
  cases hanswered : isAnswered req.op with
  | true => exact ⟨s.logRefused.sendAnswer req.tag (.refusal 13), hexec.trans (by rw [hanswered, if_pos rfl]),
      rfl, rfl, rfl, rfl, fun _ => rfl, nofun⟩
  | false =>
    exact ⟨s.logRefused, hexec.trans (by rw [hanswered, if_neg Bool.false_ne_true]), rfl, rfl, rfl, rfl, nofun, fun _ => rfl⟩

section
variable (hway : s.wayUp req = true) (hinbound : s.fabric.inbound = []) (hbacked : isBacked req.pa = true)
  (hpower : s.homePowered (deviceLine req.pa) = true)
include hway hinbound

/-- An access that its plane brings while none waits is taken at once. -/
theorem receive_takes {u : State} {kind : Nat} (htake : (offered s req kind).takePeer req kind = (u, true)) :
    exec (.peerRequestReceive req kind) s =
      .next { u with fabric := { u.fabric with inbound := u.fabric.inbound.erase (req, kind) } } := by
  have hid : s.modId ≠ 0x3FF := fun h => by
    simp [State.wayUp, State.planeUp, h] at hway
  show execPeerRequestReceive req kind s = _
  simp only [execPeerRequestReceive, if_neg hid, hway, Bool.not_true, Bool.false_eq_true, if_false]
  exact congrArg _ (takePeers_one (s := offered s req kind) (by rw [offered, hinbound]; rfl) htake)

include hbacked hpower

/-- A reduction waits in its turn as a packet of its die or of its platen (R283, R284). -/
theorem red_queued {sub : Nat} {ty : Ty} (hop : req.op = .red sub ty) :
    (∃ s', exec (.peerRequestReceive req 0) s = .next s' ∧ s'.fabric.homePackets = s.fabric.homePackets ++
      [(dieOfStack (stackOf req.pa), { peerPacket req sub ty with seq := s.fabric.arrivals })] ∧ s'.hbm = s.hbm ∧
      s'.homes = s.homes) ∧
    ((s.platen (stackOf req.pa)).packets.length < 256 →
      ∃ s', exec (.peerRequestReceive req 3) s = .next s' ∧ (s'.platen (stackOf req.pa)).packets =
        (s.platen (stackOf req.pa)).packets ++ [{ peerPacket req sub ty with seq := s.fabric.arrivals }] ∧ s'.hbm = s.hbm ∧
        s'.homes = s.homes) := by
  obtain ⟨packet, hpacket⟩ : ∃ packet : Packet, packet = { peerPacket req sub ty with seq := s.fabric.arrivals } := ⟨_, rfl⟩
  refine ⟨⟨_, receive_takes hway hinbound (kind := 0) (u := { s with fabric := { (offered s req 0).fabric with
    homePackets := s.fabric.homePackets ++ [(dieOfStack (stackOf req.pa), packet)], arrivals := s.fabric.arrivals + 1 } }) ?_,
    by rw [hpacket], rfl, rfl⟩, fun hroom => ⟨_, receive_takes hway hinbound (kind := 3)
    (u := { (offered s req 3).modPlaten (stackOf req.pa) fun p => { p with packets := p.packets ++ [packet] } with
      fabric := { (offered s req 3).fabric with arrivals := s.fabric.arrivals + 1 } }) ?_, ?_, rfl, rfl⟩⟩
  · have hpower' : (offered s req 0).homePowered (deviceLine req.pa) = true := hpower
    rw [hpacket]
    simp only [State.takePeer, hbacked, hpower', hop]
    rfl
  · have hpower' : (offered s req 3).homePowered (deviceLine req.pa) = true := hpower
    have hroom' : ¬ 256 ≤ ((offered s req 3).platen (stackOf req.pa)).packets.length := Nat.not_le.2 hroom
    rw [hpacket]
    simp only [State.takePeer, hbacked, hpower', hop]
    exact if_neg hroom'
  · rw [← hpacket]
    exact (congrArg Platen.packets (platen_modPlaten (offered s req 3) (stackOf req.pa) fun p =>
      { p with packets := p.packets ++ [packet] }) :)

end

theorem watched_refl (s : State) : Watched s s := ⟨rfl, fun _ => rfl⟩

/-- An access in its turn at a free home leaves the line's data, if it writes, and its answer (R43, R85). -/
theorem peerHome_free {l : HomeLine} {eff : Option Nat × PeerReply} (hfree : HomeFree s (deviceLine req.pa) l)
    (hpower : s.homePowered (deviceLine req.pa) = true) (hsound : NoMarks l.data) (hin : req.pa % 128 + req.size ≤ 128)
    (heff : eff = peerEffect req (lineRead l.data (req.pa % 128) req.size)) :
    ∃ u m time, s.peerHome req = ((u.raise (collClock (dieOfStack (stackOf req.pa))) time).answerPeer req eff.2, true) ∧
      Watched (s.putLineAt (deviceLine req.pa) m) u ∧
      m.data = (match eff.1 with
        | some v => lineWrite l.data (req.pa % 128) req.size v
        | none => l.data) ∧
      (eff.1.isSome = true → m.wts = max (s.clock (collClock (dieOfStack (stackOf req.pa)))) (l.rts + 1)) := by
  have hl : s.lineAt (deviceLine req.pa) = l := lineAt_free
    (r := { kind := .gets false, line := deviceLine req.pa, region := 0, tag := 0 }) hfree
  have hread := lineBadRead_noMarks hsound (req.pa % 128) req.size
  have hbad : (if req.op == .store then lineBadWrite l.data (req.pa % 128) req.size else lineBadRead l.data (req.pa % 128) req.size) =
      none := by
    split
    · exact lineBadWrite_sound hread
    · exact hread
  obtain ⟨new, r⟩ := eff
  cases new with
  | none =>
    refine ⟨_, leased l (s.clock (collClock (dieOfStack (stackOf req.pa)))) 32,
      max (s.clock (collClock (dieOfStack (stackOf req.pa)))) l.wts, ?_, watched_refl _, rfl, nofun⟩
    simp only [State.peerHome, homeReady_free _ hfree hpower, hl, hbad, ← heff]
    rw [homeLoad_eq, hl]
  | some v =>
    obtain ⟨u, hstore, hwatched⟩ := homeStore_sound (s := s) (ln := deviceLine req.pa)
      (pts := s.clock (collClock (dieOfStack (stackOf req.pa)))) hfree.1 (noMarks_lineWrite v hsound hin)
    rw [hl] at hstore hwatched
    refine ⟨u, _, max (s.clock (collClock (dieOfStack (stackOf req.pa)))) (l.rts + 1), ?_, hwatched, rfl, fun _ => rfl⟩
    simp only [State.peerHome, homeReady_free _ hfree hpower, hl, hbad, ← heff, hstore]

end

/-- What a home has after an access or a packet and its slice's settling: the line as it was put, device memory and threads as
before. -/
theorem watched_settles {s u v w : State} {ln : Nat} {m : HomeLine} (hwatched : Watched (s.putLineAt ln m) u)
    (hv : { v with fabric := u.fabric, clocks := u.clocks } = u) (hw : Tidied v w) :
    w.lineAt ln = m ∧ w.hbm = s.hbm ∧ w.teams = s.teams ∧ w.fabric = v.fabric := by
  have hvline : v.lineAt ln = u.lineAt ln := (congrArg (State.lineAt · ln) hv :)
  refine ⟨?_, hw.hbm.trans ((congrArg State.hbm hv :).trans (congrArg State.hbm hwatched.1 :)),
    hw.teams.trans ((congrArg State.teams hv :).trans (congrArg State.teams hwatched.1 :)), (congrArg State.fabric hw.1.1 :)⟩
  rw [hw.lineAt, hvline, hwatched.lineAt, lineAt_putLineAt, if_pos rfl]

/-- A slice at which nothing waits, after an access or a packet at it. -/
theorem watched_quiet {s u v : State} {ln : Nat} {m : HomeLine} (hq : HomeQuiet s (homeOf ln)) (hwatched : Watched (s.putLineAt ln m) u)
    (hv : { v with fabric := u.fabric, clocks := u.clocks } = u) : HomeQuiet v (homeOf ln) := by
  obtain ⟨hqueue, hrequests, hmarks⟩ := hwatched.quiet (quiet_modHome (f := fun h => { h with lines := Tab.put ln m h.lines }) rfl hq)
  have hhomes : v.homes = u.homes := (congrArg State.homes hv :)
  have hport : v.port = u.port := (congrArg State.port hv :)
  have hops : v.memops = u.memops := (congrArg State.memops hv :)
  exact ⟨by rw [State.home, hhomes]; exact hqueue, by rw [hport]; exact hrequests, by rw [hops]; exact hmarks⟩

/-- An access of device kind takes place at its home (R85). -/
theorem access_taken {s : State} {req : PeerRequest} {l : HomeLine} {eff : Option Nat × PeerReply} (hway : s.wayUp req = true)
    (hinbound : s.fabric.inbound = []) (hbacked : isBacked req.pa = true) (hpower : s.homePowered (deviceLine req.pa) = true)
    (hop : ∀ sub ty, req.op ≠ .red sub ty) (hapart : ∀ p ∈ s.fabric.homePackets, deviceLine p.2.pa ≠ deviceLine req.pa)
    (hfree : HomeFree s (deviceLine req.pa) l) (hpacket : s.packetOf (requestSender req) = false) (hsound : NoMarks l.data)
    (hin : req.pa % 128 + req.size ≤ 128) (heff : eff = peerEffect req (lineRead l.data (req.pa % 128) req.size)) :
    ∃ s', exec (.peerRequestReceive req 0) s = .next s' ∧ s'.fabric.answers = s.fabric.answers ++ [(req.tag, eff.2)] ∧
      s'.hbm = s.hbm ∧ s'.teams = s.teams ∧
      (s'.lineAt (deviceLine req.pa)).data = (match eff.1 with
        | some v => lineWrite l.data (req.pa % 128) req.size v
        | none => l.data) ∧
      (eff.1.isSome = true → (s'.lineAt (deviceLine req.pa)).wts =
        max (s.clock (collClock (dieOfStack (stackOf req.pa)))) (l.rts + 1)) := by
  obtain ⟨x, hx⟩ : ∃ x, x = offered s req 0 := ⟨_, rfl⟩
  have hxfree : HomeFree x (deviceLine req.pa) l := hx ▸ hfree
  have hxpower : x.homePowered (deviceLine req.pa) = true := hx ▸ hpower
  obtain ⟨u, m, time, hhome, hwatched, hdata, htime⟩ := peerHome_free hxfree hxpower hsound hin heff
  obtain ⟨v, hv⟩ : ∃ v, v = (u.raise (collClock (dieOfStack (stackOf req.pa))) time).answerPeer req eff.2 := ⟨_, rfl⟩
  rw [← hv] at hhome
  have hup : (u.raise (collClock (dieOfStack (stackOf req.pa))) time).wayUp req = true :=
    (congrArg (State.wayUp · req) hwatched.1 :).trans (hx ▸ hway)
  have hufabric : u.fabric = x.fabric := (congrArg State.fabric hwatched.1 :)
  have hanswers : v.fabric.answers = s.fabric.answers ++ [(req.tag, eff.2)] := by
    rw [hv, State.answerPeer, if_pos hup]
    show u.fabric.answers ++ _ = _
    rw [hufabric, hx]
    rfl
  have hvrest : { v with fabric := u.fabric, clocks := u.clocks } = u := by
    rw [hv, State.answerPeer, if_pos hup]
    rfl
  have htidy := settle_quiet 64 (watched_quiet hxfree.2.2.1 hwatched hvrest)
  obtain ⟨w, hw⟩ : ∃ w, w = v.settle (homeOf (deviceLine req.pa)) 64 := ⟨_, rfl⟩
  rw [← hw] at htidy
  obtain ⟨hline, hhbm, hteams, hfabric⟩ := watched_settles hwatched hvrest htidy
  have hnone : (x.fabric.homePackets.any fun (p : Nat × Packet) => deviceLine p.2.pa == deviceLine req.pa) = false :=
    List.any_eq_false.2 fun p hp => by simpa using hapart p (by rw [hx] at hp; exact hp)
  have htake : (offered s req 0).takePeer req 0 = (w, true) := by
    rw [← hx]
    have hpacket' : x.packetOf (requestSender req) = false := hx ▸ hpacket
    cases hkind : req.op with
    | red sub ty => exact absurd hkind (hop sub ty)
    | _ =>
      simp only [State.takePeer, hbacked, hxpower, hkind, hpacket', hnone, hhome, if_true, ← hw]
      rfl
  exact ⟨_, receive_takes hway hinbound htake, (congrArg Fabric.answers hfabric :).trans hanswers, hhbm.trans (hx ▸ rfl),
    hteams.trans (hx ▸ rfl), (congrArg HomeLine.data hline :).trans hdata, fun h => (congrArg HomeLine.wts hline :).trans
    ((htime h).trans (hx ▸ rfl))⟩

theorem inboundPeers : InboundPeers := by
  intro s req
  refine ⟨fun kind hid => refuses_unidentified kind hid, fun hway hinbound hbacked hpower =>
    ⟨fun sub ty hop => red_queued hway hinbound hbacked hpower hop, fun l hop hapart hfree hpacket hsound hin => ?_⟩⟩
  exact access_taken hway hinbound hbacked hpower hop hapart hfree hpacket hsound hin rfl

/-! ### Reduction packets -/

/-- The packets that a die has taken and not yet applied. -/
def waitingAt (die : Nat) (l : List (Nat × Packet)) : List Packet := (l.filter fun q => q.1 == die).map (·.2)

theorem waitingAt_dropNth (die : Nat) (l : List (Nat × Packet)) (i : Nat) :
    waitingAt die (dropNth die l i) = (waitingAt die l).eraseIdx i := by
  unfold waitingAt
  induction l generalizing i with
  | nil => rfl
  | cons q l ih =>
    obtain ⟨d, p⟩ := q
    by_cases hd : d = die
    · cases i with
      | zero => simp [dropNth, hd]
      | succ i => simp [dropNth, hd, ih]
    · simp [dropNth, hd, ih]

/-- A queued packet is applied at its home and acknowledged (R85, R284). -/
theorem packet_applied {s : State} {die index src tag : Nat} {p : Packet} {l : HomeLine} {v : Nat}
    (hmine : (waitingAt die s.fabric.homePackets)[index]? = some p)
    (hapart : ∀ r ∈ (waitingAt die s.fabric.homePackets).take index, r.pa + r.size ≤ p.pa ∨ p.pa + p.size ≤ r.pa)
    (hreply : p.reply = some (src, tag)) (hfree : HomeFree s (deviceLine p.pa) l) (hpower : s.homePowered (deviceLine p.pa) = true)
    (hfirst : s.earlierPacket p = false) (hheld : s.heldByCall (deviceLine p.pa) = false) (hsound : NoMarks l.data)
    (hin : p.pa % 128 + p.size ≤ 128) (hinbound : s.fabric.inbound = []) (hup : s.planeUp (p.plane.getD s.modId) = true)
    (hv : v = (atomNew p.sub p.ty (lineRead l.data (p.pa % 128) p.size) p.value p.compare).1) :
    ∃ s', exec (.reductionPacketApply die index) s = .next s' ∧
      (s'.lineAt (deviceLine p.pa)).data = lineWrite l.data (p.pa % 128) p.size v ∧
      (s'.lineAt (deviceLine p.pa)).wts = max (s.clock (collClock (dieOfStack (stackOf p.pa)))) (l.rts + 1) ∧
      waitingAt die s'.fabric.homePackets = (waitingAt die s.fabric.homePackets).eraseIdx index ∧
      s'.fabric.answers = s.fabric.answers ++ [(tag, .ack)] ∧ s'.hbm = s.hbm ∧ s'.teams = s.teams := by
  obtain ⟨x, hx⟩ : ∃ x : State, x = { s with fabric := { s.fabric with homePackets := dropNth die s.fabric.homePackets index } } :=
    ⟨_, rfl⟩
  have hl : x.lineAt (deviceLine p.pa) = l := hx ▸
    lineAt_free (r := { kind := .gets false, line := deviceLine p.pa, region := 0, tag := 0 }) hfree
  obtain ⟨u, hstore, hwatched⟩ := homeStore_sound (s := x) (ln := deviceLine p.pa)
    (pts := x.clock (collClock (dieOfStack (stackOf p.pa)))) hfree.1 (noMarks_lineWrite v hsound hin)
  rw [hl] at hstore hwatched
  obtain ⟨time, htime⟩ : ∃ time, time = max (x.clock (collClock (dieOfStack (stackOf p.pa)))) (l.rts + 1) := ⟨_, rfl⟩
  obtain ⟨y, hy⟩ : ∃ y, y = (u.raise (collClock (dieOfStack (stackOf p.pa))) time).ackPacket p := ⟨_, rfl⟩
  have hufabric : u.fabric = x.fabric := (congrArg State.fabric hwatched.1 :)
  have hplane : (u.raise (collClock (dieOfStack (stackOf p.pa))) time).planeUp
      (p.plane.getD (u.raise (collClock (dieOfStack (stackOf p.pa))) time).modId) = true :=
    (congrArg (fun z : State => z.planeUp (p.plane.getD z.modId)) hwatched.1 :).trans (hx ▸ hup)
  have hyrest : { y with fabric := u.fabric, clocks := u.clocks } = u := by
    rw [hy]
    exact (congrArg (fun z : State => { z with clocks := u.clocks }) (ackPacket_rest _ p) :)
  have hyfabric : y.fabric = { x.fabric with answers := s.fabric.answers ++ [(tag, .ack)] } := by
    rw [hy, State.ackPacket, hreply]
    dsimp only
    rw [if_pos hplane]
    exact (congrArg (fun f : Fabric => { f with answers := f.answers ++ [(tag, PeerReply.ack)] }) hufabric :).trans (by rw [hx])
  have htidy := settle_quiet 64 (watched_quiet (v := y) (hx ▸ hfree.2.2.1) hwatched hyrest)
  obtain ⟨w, hw⟩ : ∃ w, w = y.settle (homeOf (deviceLine p.pa)) 64 := ⟨_, rfl⟩
  rw [← hw] at htidy
  obtain ⟨hline, hhbm, hteams, hfabric⟩ := watched_settles hwatched hyrest htidy
  rw [hyfabric] at hfabric
  have hclear : ((waitingAt die s.fabric.homePackets).take index).any (fun r => decide (r.pa < p.pa + p.size) &&
      decide (p.pa < r.pa + r.size)) = false := by
    rw [List.any_eq_false]
    intro r hr
    have := hapart r hr
    simp only [Bool.and_eq_true, decide_eq_true_eq]
    omega
  have hexec : exec (.reductionPacketApply die index) s = .next w := by
    show execReductionPacketApply die index s = _
    unfold waitingAt at hmine hclear
    simp only [execReductionPacketApply, hmine, hfirst, hclear, Bool.or_self, Bool.false_eq_true, if_false, hheld,
      homeReady_free true hfree hpower]
    rw [← hx, hl, lineBadRead_noMarks hsound]
    dsimp only
    rw [← hv, hstore]
    dsimp only
    rw [← htime, ← hy, ← hw, takePeers_none (by rw [hfabric, hx]; exact hinbound)]
  refine ⟨w, hexec, by rw [hline]; rfl, ?_, ?_, by rw [hfabric], hhbm.trans (hx ▸ rfl), hteams.trans (hx ▸ rfl)⟩
  · rw [hline, hx]
    rfl
  · rw [hfabric, hx]
    exact waitingAt_dropNth die _ index

/-! ### Collective results and reduction groups -/

section
variable {s : State} {job : Nat} {j : Job}

/-- The switch's sum of an element group is kept with its job (R291). -/
theorem result_kept {g : Nat} {vals : List Word} (hjob : Tab.find job s.jobs = some j) (hkind : j.kind = .coll)
    (hended : j.ended = none) (hid : s.modId ≠ 0x3FF) (hsent : g < j.sent) (hnew : Tab.find g j.recvd = none)
    (hplane : s.groupPlane j g = true) : exec (.collResultReceive job g vals) s =
      .next { s with jobs := Tab.put job { j with recvd := Tab.put g (s.groupSum j g vals) j.recvd } s.jobs } := by
  have hhas : Tab.has j.recvd g = false := by rw [Tab.has, hnew]; rfl
  show execCollResultReceive job g vals s = _
  simp only [execCollResultReceive, if_neg hid, hjob, hkind, hended, hsent, hhas, hplane, beq_self_eq_true, decide_true,
    Bool.not_false, Option.isNone_none, Bool.and_self, if_true]

/-- An abort or a mismatch ends a job (R292). -/
theorem abort_ends {mismatch : Bool} {n : Nat} (hjob : Tab.find job s.jobs = some j) (hid : s.modId ≠ 0x3FF)
    (habort : s.abortable job j mismatch = true) (hn : n < 128) (hup : s.planeUp n = true) :
    exec (.collAbortReceive job mismatch) s = .next (s.failJob job (protection (if mismatch then 14 else 12) 0)) := by
  have hany : (List.range 128).any s.planeUp = true := List.any_eq_true.2 ⟨n, List.mem_range.2 hn, hup⟩
  show execCollAbortReceive job mismatch s = _
  simp only [execCollAbortReceive, if_neg hid, hjob, habort, hany, Bool.and_self, if_true]

end

/-- A reduction group's register keeps its defined fields; EN set resets the group's sequence counter (R286, R287). -/
theorem cgrptab_written {s : State} {g : Nat} {v : DWord} (hg : g < 1024) : ∃ s', exec (.cgrptabWrite g v) s = .next s' ∧
    s'.reg (0x101000 + 8 * g) = v.toNat % 2 ^ 10 + Bits.field v.toNat 11 10 * 2 ^ 11 + Bits.field v.toNat 31 1 * 2 ^ 31 ∧
    (∀ h, Tab.find h s'.fabric.jseq = if h = g ∧ Bits.bit v.toNat 31 = true then none else Tab.find h s.fabric.jseq) ∧
    s'.teams = s.teams ∧ s'.hbm = s.hbm := by
  obtain ⟨value, hvalue⟩ : ∃ value, value = v.toNat % 2 ^ 10 + Bits.field v.toNat 11 10 * 2 ^ 11 + Bits.field v.toNat 31 1 * 2 ^ 31 :=
    ⟨_, rfl⟩
  have hlow : value < 2 ^ 64 := by
    have h10 : Bits.field v.toNat 11 10 < 2 ^ 10 := Nat.mod_lt _ (by decide)
    have h1 : Bits.field v.toNat 31 1 < 2 ^ 1 := Nat.mod_lt _ (by decide)
    have := Nat.mod_lt v.toNat (show 0 < 2 ^ 10 by decide)
    omega
  obtain ⟨u, hu⟩ : ∃ u, u = s.setReg (0x101000 + 8 * g) value := ⟨_, rfl⟩
  have hexec : exec (.cgrptabWrite g v) s = .next (if Bits.bit v.toNat 31 then
      { u with fabric := { u.fabric with jseq := Tab.del g u.fabric.jseq } } else u) := by
    show execCgrptabWrite g v s = _
    rw [execCgrptabWrite, if_neg (by omega), State.writeCgrptab, ← hvalue, ← hu]
  have hreg : u.reg (0x101000 + 8 * g) = value := by
    rw [hu, PageWalks.reg_setReg, Nat.mod_eq_of_lt hlow]
  have hfabric : u.fabric = s.fabric := hu ▸ rfl
  rw [← hvalue]
  cases hbit : Bits.bit v.toNat 31 with
  | true =>
    refine ⟨{ u with fabric := { u.fabric with jseq := Tab.del g u.fabric.jseq } },
      hexec.trans (by rw [hbit, if_pos rfl]), hreg, fun h => ?_, hu ▸ rfl, hu ▸ rfl⟩
    refine (Tab.find_del g h u.fabric.jseq).trans ?_
    rw [hfabric]
    simp
  | false =>
    refine ⟨u, hexec.trans (by rw [hbit, if_neg Bool.false_ne_true]), hreg, fun h => ?_, hu ▸ rfl, hu ▸ rfl⟩
    rw [hfabric, if_neg (by simp)]

theorem reductions : Reductions := by
  refine ⟨fun s die index p l src tag hmine hapart hreply hfree hpower hfirst hheld hsound hin hinbound hup =>
      packet_applied hmine hapart hreply hfree hpower hfirst hheld hsound hin hinbound hup rfl,
    fun s job j hjob hkind hended hid => ⟨fun g vals hsent hnew hplane => ⟨_, result_kept hjob hkind hended hid hsent hnew hplane,
      Tab.find_put_same _ _ _, rfl⟩, fun mismatch n habort hn hup => ⟨_, abort_ends hjob hid habort hn hup, ?_, rfl⟩⟩,
    fun s g v hg => cgrptab_written hg⟩
  refine (Tab.find_modify_same _ _ _).trans ?_
  rw [hjob]
  cases mismatch <;> rfl

/-- Settles O51: links and what a plane that goes down loses, inbound accesses at their homes, a peer's answers, reduction packets
and collective results. -/
theorem fabricTraffic : Obligations.FabricTraffic := ⟨links, inboundPeers, peerAnswers, reductions⟩

end Sys2Proof.Proofs.FabricTraffic

/-! Host queues, the life of a launch, and cancels (R92, R93, R302 to R306, R342 to R348, R354, R368). -/

namespace Sys2Proof.Proofs.LauncherRuns

open Sys2Proof Sys2Proof.Machine Sys2Proof.Claims Sys2Proof.Proofs.Residence

/-! ### A field of a register -/

/-- A register's value with one field replaced (R342). -/
def withField (r lo w v : Nat) : Nat := r - Bits.field r lo w * 2 ^ lo + v % 2 ^ w * 2 ^ lo

theorem withField_eq (r lo w v : Nat) : withField r lo w v = r % 2 ^ lo + 2 ^ lo * (v % 2 ^ w + 2 ^ w * (r / 2 ^ (lo + w))) := by
  have hlow := Nat.mod_add_div r (2 ^ lo)
  have hhigh := Nat.mod_add_div (r / 2 ^ lo) (2 ^ w)
  rw [Nat.div_div_eq_div_mul, ← Nat.pow_add] at hhigh
  have hr : r = r % 2 ^ lo + 2 ^ lo * (r / 2 ^ lo % 2 ^ w + 2 ^ w * (r / 2 ^ (lo + w))) := by rw [hhigh, hlow]
  have hle : Bits.field r lo w * 2 ^ lo ≤ r := by
    unfold Bits.field
    calc r / 2 ^ lo % 2 ^ w * 2 ^ lo ≤ r / 2 ^ lo * 2 ^ lo := Nat.mul_le_mul_right _ (Nat.mod_le _ _)
      _ ≤ r := Nat.div_mul_le_self _ _
  unfold withField
  unfold Bits.field at hle ⊢
  rw [Nat.mul_add] at hr ⊢
  rw [Nat.mul_comm (v % 2 ^ w)]
  rw [Nat.mul_comm (r / 2 ^ lo % 2 ^ w)] at hle ⊢
  omega

/-- The field replaced. -/
theorem field_withField_same (r lo w v : Nat) : Bits.field (withField r lo w v) lo w = v % 2 ^ w := by
  rw [withField_eq, Bits.field, Nat.add_mul_div_left _ _ (Nat.two_pow_pos lo), Nat.div_eq_of_lt (Nat.mod_lt _ (Nat.two_pow_pos lo)),
    Nat.zero_add, Nat.add_mul_mod_self_left, Nat.mod_mod]

/-- A field that shares no bit with it. -/
theorem field_withField_other {lo w lo' w' : Nat} (r v : Nat) (h : lo' + w' ≤ lo ∨ lo + w ≤ lo') :
    Bits.field (withField r lo w v) lo' w' = Bits.field r lo' w' := by
  unfold Bits.field
  obtain h | h := h
  · have hmod : withField r lo w v % 2 ^ (lo' + w') = r % 2 ^ (lo' + w') := by
      rw [withField_eq, show lo = lo' + w' + (lo - (lo' + w')) by omega, Nat.pow_add, Nat.mul_assoc, Nat.add_mul_mod_self_left,
        Nat.mod_mod_of_dvd _ (Dvd.intro _ rfl)]
    rw [← Nat.mod_mul_right_div_self, ← Nat.mod_mul_right_div_self, ← Nat.pow_add, hmod]
  · have hdiv : withField r lo w v / 2 ^ (lo + w) = r / 2 ^ (lo + w) := by
      rw [withField_eq, Nat.pow_add, ← Nat.div_div_eq_div_mul, Nat.add_mul_div_left _ _ (Nat.two_pow_pos lo),
        Nat.div_eq_of_lt (Nat.mod_lt _ (Nat.two_pow_pos lo)), Nat.zero_add, Nat.add_mul_div_left _ _ (Nat.two_pow_pos w),
        Nat.div_eq_of_lt (Nat.mod_lt _ (Nat.two_pow_pos w)), Nat.zero_add]
    rw [show lo' = lo + w + (lo' - (lo + w)) by omega, Nat.pow_add, ← Nat.div_div_eq_div_mul, ← Nat.div_div_eq_div_mul, hdiv]

/-- Only as many bits as the register has are read back. -/
theorem field_mod {x lo w : Nat} (h : lo + w ≤ 64) : Bits.field (x % 2 ^ 64) lo w = Bits.field x lo w := by
  unfold Bits.field
  rw [← Nat.mod_mul_right_div_self, ← Nat.mod_mul_right_div_self, ← Nat.pow_add, Nat.mod_mod_of_dvd _ (Nat.pow_dvd_pow 2 h)]

theorem bit_eq_field (x i : Nat) : Bits.bit x i = (Bits.field x i 1 == 1) := rfl

section
variable (s : State) (off : Nat)

theorem field_setReg {lo w : Nat} (v : Nat) (h : lo + w ≤ 64) : Bits.field ((s.setReg off v).reg off) lo w = Bits.field v lo w := by
  rw [reg_setReg, if_pos rfl, field_mod h]

theorem field_setRegField_same {lo w : Nat} (v : Nat) (h : lo + w ≤ 64) :
    Bits.field ((s.setRegField off lo w v).reg off) lo w = v % 2 ^ w :=
  (field_setReg s off _ h).trans (field_withField_same _ _ _ _)

theorem field_setRegField_other {lo w lo' w' : Nat} (v : Nat) (h' : lo' + w' ≤ 64) (h : lo' + w' ≤ lo ∨ lo + w ≤ lo') :
    Bits.field ((s.setRegField off lo w v).reg off) lo' w' = Bits.field (s.reg off) lo' w' :=
  (field_setReg s off _ h').trans (field_withField_other _ _ h)

end

/-! ### Queue registers -/

section
variable {s : State} {q : Nat} {v : DWord}

/-- A queue that is enabled starts empty and without error (R342). -/
theorem enables (hoff : Bits.bit (s.reg (hqCtl q)) 31 = false) (hon : Bits.bit v.toNat 31 = true) :
    ∃ s', exec (.hqctlEnable q v) s = .next s' ∧ Bits.bit (s'.reg (hqCtl q)) 31 = true ∧
      Bits.bit (s'.reg (hqCtl q)) 30 = false ∧ s'.hqHead q = 0 ∧ s'.hqTail q = 0 ∧
      s'.reg (hqCtl q) % 32 = (if 4 ≤ v.toNat % 32 ∧ v.toNat % 32 ≤ 12 then v.toNat % 32 else 4) ∧
      Bits.field (s'.reg (hqCtl q)) 8 2 = Bits.field v.toNat 8 2 ∧ { s' with win := s.win } = s := by
  obtain ⟨size, hsize⟩ : ∃ size, size = if 4 ≤ v.toNat % 32 ∧ v.toNat % 32 ≤ 12 then v.toNat % 32 else 4 := ⟨_, rfl⟩
  obtain ⟨low, hlow⟩ : ∃ low, low = size + Bits.field v.toNat 8 2 * 2 ^ 8 + Bits.field v.toNat 11 1 * 2 ^ 11 := ⟨_, rfl⟩
  have hsmall : size ≤ 12 := by rw [hsize]; split <;> omega
  have hprio : Bits.field v.toNat 8 2 < 4 := Bits.field_lt _ _ _
  have hord : Bits.field v.toNat 11 1 < 2 := Bits.field_lt _ _ _
  have hreg : ((s.setReg (hqCtl q) (low + 2 ^ 31)).setReg (hqDb q) 0).reg (hqCtl q) = low + 2 ^ 31 := by
    rw [reg_setReg, if_neg (by unfold hqCtl hqDb; omega), reg_setReg, if_pos rfl, Nat.mod_eq_of_lt (by omega)]
  refine ⟨(s.setReg (hqCtl q) (low + 2 ^ 31)).setReg (hqDb q) 0, ?_, ?_, ?_, ?_, ?_, ?_, ?_, rfl⟩
  · show execHqctlEnable q v s = _
    simp only [execHqctlEnable, State.writeHqctl, hoff, hon, Bool.false_eq_true, if_false, if_true]
    rw [← hsize, ← hlow]
  · rw [hreg]; unfold Bits.bit; rw [beq_iff_eq]; omega
  · rw [hreg]; unfold Bits.bit; rw [beq_eq_false_iff_ne]; omega
  · rw [State.hqHead, hreg]; unfold Bits.field; omega
  · rw [State.hqTail, reg_setReg, if_pos rfl]; rfl
  · rw [hreg]; omega
  · rw [hreg]; unfold Bits.field at *; omega

theorem enabled_keeps (hon : Bits.bit (s.reg (hqCtl q)) 31 = true) (hv : Bits.bit v.toNat 31 = true) :
    exec (.hqctlEnable q v) s = .next s := by
  show execHqctlEnable q v s = _
  simp only [execHqctlEnable, State.writeHqctl, hon, hv, if_true]

/-- A queue that is disabled gives its head's descriptor read up (R342, R345). -/
theorem disables (hon : Bits.bit (s.reg (hqCtl q)) 31 = true) (hv : Bits.bit v.toNat 31 = false) :
    ∃ s', exec (.hqctlDisable q v) s = .next s' ∧ Bits.bit (s'.reg (hqCtl q)) 31 = false ∧ s'.hqHead q = s.hqHead q ∧
      s'.hqTail q = s.hqTail q ∧ Tab.find q s'.replyWait = none ∧
      (∀ k, Tab.find k s'.misses =
        (Tab.find k s.misses).map fun m => { m with joined := m.joined.filter fun w => w != .launcher q }) ∧
      { s' with win := s.win, replyWait := s.replyWait, misses := s.misses } = s := by
  refine ⟨(s.setRegField (hqCtl q) 31 1 0).endHeadRead q, ?_, ?_, ?_, ?_, Tab.find_del_same _ _, fun k => ?_, rfl⟩
  · show execHqctlDisable q v s = _
    simp only [execHqctlDisable, State.writeHqctl, hon, hv, Bool.false_eq_true, if_false, if_true]
  · rw [bit_eq_field]
    exact congrArg (· == 1) (field_setRegField_same s (hqCtl q) 0 (by omega))
  · exact field_setRegField_other s (hqCtl q) 0 (by omega) (by omega)
  · show (s.setRegField (hqCtl q) 31 1 0).reg (hqDb q) % 2 ^ 16 = _
    rw [State.setRegField, reg_setReg, if_neg (by unfold hqCtl hqDb; omega)]
    rfl
  · exact Tab.find_map_val (fun _ m => { m with joined := m.joined.filter fun w => w != Requester.launcher q }) k s.misses

/-- A doorbell moves TAIL within the ring; one beyond it sets ERR and reads nothing (R343). -/
theorem rings : let tail := v.toNat % 2 ^ 16
    let beyond := s.hqSlots q < (tail + 2 ^ 16 - s.hqHead q) % 2 ^ 16
    ∃ s', exec (.hqdb q v) s = .next s' ∧ s'.hqHead q = s.hqHead q ∧ { s' with win := s.win } = s ∧
      (beyond → s'.hqTail q = s.hqTail q ∧ Bits.bit (s'.reg (hqCtl q)) 30 = true) ∧ (¬beyond → s'.hqTail q = tail) := by
  intro tail beyond
  by_cases h : beyond
  · refine ⟨s.setRegField (hqCtl q) 30 1 1, ?_, ?_, rfl, fun _ => ⟨?_, ?_⟩, fun hn => absurd h hn⟩
    · show execHqdb q v s = _
      rw [execHqdb, State.doorbell, if_pos h]
    · exact field_setRegField_other s (hqCtl q) 1 (by omega) (by omega)
    · show (s.setRegField (hqCtl q) 30 1 1).reg (hqDb q) % 2 ^ 16 = _
      rw [State.setRegField, reg_setReg, if_neg (by unfold hqCtl hqDb; omega)]
      rfl
    · rw [bit_eq_field]
      exact congrArg (· == 1) (field_setRegField_same s (hqCtl q) 1 (by omega))
  · refine ⟨s.setReg (hqDb q) tail, ?_, ?_, rfl, fun hb => absurd hb h, fun _ => ?_⟩
    · show execHqdb q v s = _
      rw [execHqdb, State.doorbell, if_neg h]
    · rw [State.hqHead, reg_setReg, if_neg (by unfold hqCtl hqDb; omega)]
      rfl
    · show (s.setReg (hqDb q) tail).reg (hqDb q) % 2 ^ 16 = tail
      have htail : tail < 2 ^ 16 := Nat.mod_lt _ (by decide)
      rw [reg_setReg, if_pos rfl]
      omega

end

/-! ### Stale teams of other launches -/

/-- `s'` is `s` but for what a refusal of stale teams leaves: events, and changes of launches other than `key`. -/
def Scanned (key : Nat) (s s' : State) : Prop :=
  s'.launchId = s.launchId ∧ s'.hbm = s.hbm ∧ s'.teams = s.teams ∧ (∀ off, off ≠ evtCtl → s'.reg off = s.reg off) ∧
    Tab.find key s'.launches = Tab.find key s.launches

theorem Scanned.refl (key : Nat) (s : State) : Scanned key s s := ⟨rfl, rfl, rfl, fun _ _ => rfl, rfl⟩

theorem Scanned.trans {key : Nat} {s t u : State} (h : Scanned key s t) (h' : Scanned key t u) : Scanned key s u := by
  obtain ⟨hid, hhbm, hteams, hreg, hfind⟩ := h
  obtain ⟨hid', hhbm', hteams', hreg', hfind'⟩ := h'
  exact ⟨hid'.trans hid, hhbm'.trans hhbm, hteams'.trans hteams, fun off ho => (hreg' off ho).trans (hreg off ho), hfind'.trans hfind⟩

theorem scanned_foldl {key : Nat} {α : Type} {F : State → α → State} (h : ∀ s a, Scanned key s (F s a)) (l : List α) (s : State) :
    Scanned key s (l.foldl F s) := by
  induction l generalizing s with
  | nil => exact .refl key s
  | cons a l ih => exact (h s a).trans (ih _)

section
variable (key : Nat) (s : State)

theorem scanned_writeHost (pa n v : Nat) : Scanned key s (s.writeHost pa n v) := ⟨rfl, rfl, rfl, fun _ _ => rfl, rfl⟩

theorem scanned_withPort (port : Port) : Scanned key s { s with port } := ⟨rfl, rfl, rfl, fun _ _ => rfl, rfl⟩

theorem scanned_setRegField (lo w v : Nat) : Scanned key s (s.setRegField evtCtl lo w v) :=
  ⟨rfl, rfl, rfl, fun _ ho => (reg_setReg s evtCtl _ _).trans (if_neg ho), rfl⟩

theorem scanned_hostEvent (e : HostEvent) : Scanned key s (s.hostEvent e) := by
  unfold State.hostEvent
  simp only
  split
  · exact .refl key s
  split
  · exact scanned_setRegField ..
  · exact ((scanned_writeHost key s _ _ _).trans (scanned_setRegField ..)).trans (scanned_withPort ..)

theorem scanned_modify {k : Nat} (hk : key ≠ k) (f : Launch → Launch) :
    Scanned key s { s with launches := Tab.modify k f s.launches } :=
  ⟨rfl, rfl, rfl, fun _ _ => rfl, Tab.find_modify_other hk f s.launches⟩

theorem scanned_refuseStale {k : Nat} (hk : key ≠ k) (index : Nat) : Scanned key s (s.refuseStale k index) := by
  unfold State.refuseStale
  split
  · exact .refl key s
  split
  · exact .refl key s
  · refine .trans (scanned_foldl (fun u e => ?_) _ s) (scanned_modify key _ hk _)
    exact (scanned_modify key u hk _).trans (scanned_hostEvent ..)

/-- A launch without tiles awaits nothing, and no scan touches it (R353). -/
theorem scanned_staleScan {l : Launch} (hl : Tab.find key s.launches = some l) (hwaiting : l.waiting = []) :
    Scanned key s s.staleScan := by
  have hfold : ∀ (ks : List Nat) (u : State), Tab.find key u.launches = some l → Scanned key u (ks.foldl (fun s k =>
      match Tab.find k s.launches with
      | none => s
      | some l => l.waiting.foldl (fun s i => s.refuseStale k i) s) u) := by
    intro ks
    induction ks with
    | nil => exact fun u _ => .refl key u
    | cons k ks ih =>
      intro u hu
      rw [List.foldl_cons]
      have hstep : Scanned key u (match Tab.find k u.launches with
          | none => u
          | some l => l.waiting.foldl (fun s i => s.refuseStale k i) u) := by
        by_cases hk : key = k
        · subst hk
          rw [hu]
          dsimp only
          rw [hwaiting]
          exact .refl key u
        · split
          · exact .refl key u
          · exact scanned_foldl (fun v i => scanned_refuseStale key v hk i) _ u
      exact hstep.trans (ih _ (hstep.2.2.2.2.trans hu))
  exact hfold _ s hl

/-- Where no launch awaits tiles, no team is stale. -/
theorem staleScan_idle (h : ∀ p ∈ s.launches, p.2.waiting = []) : s.staleScan = s := by
  unfold State.staleScan
  generalize s.launchKeys = ks
  induction ks with
  | nil => rfl
  | cons k ks ih =>
    rw [List.foldl_cons]
    cases hl : Tab.find k s.launches with
    | none => exact ih
    | some l =>
      dsimp only
      rw [h _ (Tab.mem_of_find hl)]
      exact ih

end

/-! ### The head of a queue -/

/-- How the heads are considered: the first that may be admitted decides, unless it waits for a boundary entry (R346). -/
theorem consider_succ (s : State) (tried : List Nat) (fuel : Nat) : s.consider tried (fuel + 1) =
    match s.nextHead tried with
    | none => (s, false)
    | some q =>
      match s.headRecord q with
      | (s, none) => (s, true)
      | (s, some d) =>
        match s.compReady q d.comp with
        | (s, false) => (s, true)
        | (s, true) =>
          match s.checkRecord q d with
          | (s, .wait) => (s, true)
          | (s, .refuse reason) => (s.refuse q d reason, true)
          | (s, .pass hdr) =>
            match s.admitHead q d hdr with
            | some s => (s, true)
            | none => s.consider (q :: tried) fuel := by
  have hdef : @State.consider = @State.consider := rfl
  conv at hdef => rhs; delta State.consider State.consider._f
  generalize @State.nextHead = nextHead at hdef ⊢
  rw [hdef] <;> rfl

section
variable {s : State} {q : Nat}

/-- HEAD passes a host queue's record (R343). -/
theorem passHead_host (hq : q < 64) :
    s.passHead q = (s.endHeadRead q).setRegField (hqCtl q) 32 16 ((s.hqHead q + 1) % 2 ^ 16) := by
  rw [State.passHead]
  exact if_pos hq

theorem hqHead_passHead (hq : q < 64) : (s.passHead q).hqHead q = (s.hqHead q + 1) % 2 ^ 16 := by
  rw [passHead_host hq]
  exact (field_setRegField_same _ _ _ (by omega)).trans (Nat.mod_mod _ _)

theorem passHead_rest (hq : q < 64) :
    { s.passHead q with win := s.win, replyWait := s.replyWait, misses := s.misses } = s := by
  rw [passHead_host hq]
  rfl

theorem compReady_host (hq : q < 64) (comp : Option Nat) : s.compReady q comp = (s, true) := by
  cases comp with
  | none => rfl
  | some pa => exact if_pos (.inl hq)

/-- Where a record is considered first, its checks decide (R345). -/
theorem consider_refuses {s1 s2 : State} {d : DevRecord} {reason : Nat} (fuel : Nat) (hhead : s.nextHead [] = some q) (hq : q < 64)
    (hrecord : s.headRecord q = (s1, some d)) (hcheck : s1.checkRecord q d = (s2, .refuse reason)) :
    s.consider [] (fuel + 1) = (s2.refuse q d reason, true) := by
  simp only [consider_succ, hhead, hrecord, compReady_host hq, hcheck]

theorem consider_admits {s1 s2 u : State} {d : DevRecord} {hdr : Nat} (fuel : Nat) (hhead : s.nextHead [] = some q) (hq : q < 64)
    (hrecord : s.headRecord q = (s1, some d)) (hcheck : s1.checkRecord q d = (s2, .pass hdr))
    (hadmit : s2.admitHead q d hdr = some u) : s.consider [] (fuel + 1) = (u, true) := by
  simp only [consider_succ, hhead, hrecord, compReady_host hq, hcheck, hadmit]

theorem launchAdmit_eq {u : State} (hroom : s.launches.length < 128) (h : s.consider [] 81 = (u, true)) :
    exec .launchAdmit s = .next u := by
  show execLaunchAdmit s = _
  rw [execLaunchAdmit, if_neg (Nat.not_le.2 hroom), h]

end

/-- The launch of a host queue's record without tiles (R346). -/
def hostLaunch (s : State) (q : Nat) (d : DevRecord) (hdr : Nat) : Launch :=
  { id := s.launchId, ctx := d.ctx, record := d.record, prio := s.queuePrio q, queue := q, index := s.hqHead q, comp := d.comp
    compPage := d.compPage, system := q == sysQueue, order := s.admitted, base := 8 * hdrBdiv8 hdr, split := hdrSplit hdr
    profile := hdrProfile hdr, next := 0, waiting := []
    after := if Bits.bit (s.reg (hqCtl q)) 11 then Tab.getD s.doneTimes q 0 else 0, boundary := none, bnd := false
    idleSince := s.cycle }

/-- A record that passes its checks becomes a launch under the next identifier, and HEAD passes it (R346). -/
theorem admits {s : State} {q hdr : Nat} {d : DevRecord} (hq : q < 64) (hout : recImpOut d.record = false)
    (hin : recNin d.record = 0) : ∃ u, s.admitHead q d hdr = some u ∧
      Tab.find s.nextKey u.launches = some (hostLaunch s q d hdr) ∧ u.launchId = nextLaunchId s.launchId ∧
      u.hqHead q = (s.hqHead q + 1) % 2 ^ 16 ∧ u.hbm = s.hbm ∧ u.teams = s.teams := by
  obtain ⟨l, hl⟩ : ∃ l, l = hostLaunch s q d hdr := ⟨_, rfl⟩
  obtain ⟨v, hv⟩ : ∃ v : State, v = { s with
    nextKey := s.nextKey + 1, launches := Tab.put s.nextKey l s.launches, launchId := nextLaunchId s.launchId
    admitted := s.admitted + 1, lastQueue := q, running := Tab.put q s.nextKey s.running } := ⟨_, rfl⟩
  have hreserve : s.reserve d.ctx d.record s.launchId = some (s, none) := by
    rw [State.reserve, hout]
    rfl
  have hadmit : s.admitHead q d hdr = some (v.passHead q).staleScan := by
    simp only [State.admitHead, hreserve, hin, if_true, decide_eq_true hq, Bool.true_and, if_pos hq, Option.isSome_none,
      if_neg (show ¬(64 ≤ q ∧ q < sysQueue) by omega), State.freshKey]
    rw [hv, hl]
    rfl
  have hrest := passHead_rest (s := v) hq
  have hfind : Tab.find s.nextKey (v.passHead q).launches = some l := by
    rw [show (v.passHead q).launches = v.launches from (congrArg State.launches hrest :), hv]
    exact Tab.find_put_same _ _ _
  obtain ⟨hid, hhbm, hteams, hreg, hkept⟩ := scanned_staleScan s.nextKey (v.passHead q) hfind (hl ▸ rfl)
  have hctl : hqCtl q ≠ evtCtl := by unfold hqCtl evtCtl; omega
  refine ⟨_, hadmit, hkept.trans (hfind.trans (hl ▸ rfl)), hid.trans ((congrArg State.launchId hrest :).trans (hv ▸ rfl)), ?_,
    hhbm.trans ((congrArg State.hbm hrest :).trans (hv ▸ rfl)), hteams.trans ((congrArg State.teams hrest :).trans (hv ▸ rfl))⟩
  rw [State.hqHead, hreg _ hctl]
  exact (hqHead_passHead hq).trans (hv ▸ rfl)

/-- The completion entry of a host queue's record stands in its ring in host memory (R344). -/
theorem writeEntry_ring {s : State} {q : Nat} (hq : q < 64) (index : Nat) (comp : Option Nat) (time v : Nat) :
    s.writeEntry q index comp time v =
      Power.hostRecord s (Bits.field (s.reg (hqComp q)) 12 40 * 2 ^ 12 + index % s.hqSlots q * 16) 16 v := if_pos hq

theorem stored_writeHost (s : State) (pa n v : Nat) : Stored s.hostMem (s.writeHost pa n v).hostMem pa n v :=
  fun a => getD_writeBytes s.hostMem pa n v a

/-- A record that fails a check is answered at once, and HEAD passes it (R345). -/
theorem refuses {s : State} {q : Nat} {d : DevRecord} {reason : Nat} (hq : q < 64) :
    (s.refuse q d reason).launches = s.launches ∧ (s.refuse q d reason).hqHead q = (s.hqHead q + 1) % 2 ^ 16 ∧
      Stored s.hostMem (s.refuse q d reason).hostMem
        (Bits.field (s.reg (hqComp q)) 12 40 * 2 ^ 12 + s.hqHead q % s.hqSlots q * 16) 16
        (compEntry 0 reason 0xFD 0 (s.hqHead q) false) ∧
      (s.refuse q d reason).port.msix = s.port.msix ++ [2] ∧ (s.refuse q d reason).teams = s.teams := by
  obtain ⟨pa, hpa⟩ : ∃ pa, pa = Bits.field (s.reg (hqComp q)) 12 40 * 2 ^ 12 + s.hqHead q % s.hqSlots q * 16 := ⟨_, rfl⟩
  obtain ⟨entry, hentry⟩ : ∃ entry, entry = compEntry 0 reason 0xFD 0 (s.hqHead q) false := ⟨_, rfl⟩
  have hrefuse : s.refuse q d reason = (Power.hostRecord s pa 16 entry).passHead q := by
    simp only [State.refuse, if_pos hq]
    rw [writeEntry_ring hq, ← hentry, ← hpa]
  rw [hrefuse, ← hpa, ← hentry]
  obtain ⟨u, hu⟩ : ∃ u, u = Power.hostRecord s pa 16 entry := ⟨_, rfl⟩
  have hrest := passHead_rest (s := u) hq
  have hmem : u.hostMem = (s.writeHost pa 16 entry).hostMem := by rw [hu]; rfl
  rw [← hu]
  refine ⟨(congrArg State.launches hrest :).trans (hu ▸ (Power.hostRecord_keeps s pa 16 entry).2), (hqHead_passHead hq).trans ?_, ?_,
    (congrArg (fun x : State => x.port.msix) hrest :).trans ?_, (congrArg State.teams hrest :).trans ?_⟩
  · rw [hu]
    rfl
  · rw [show (u.passHead q).hostMem = u.hostMem from (congrArg State.hostMem hrest :), hmem]
    exact stored_writeHost s pa 16 entry
  · rw [hu]
    rfl
  · rw [hu]
    rfl

theorem hostQueues : HostQueues := by
  refine ⟨fun s q v hq => ⟨enables, enabled_keeps, disables, rings⟩, fun s s1 s2 q d hdr reason hroom hhead hq hrecord =>
    ⟨fun hcheck hout hin => ?_, fun hcheck => ⟨_, launchAdmit_eq hroom (consider_refuses 80 hhead hq hrecord hcheck), refuses hq⟩⟩,
    PageWalks.signals_of fun s s1 h => ?_⟩
  · obtain ⟨u, hadmit, hfind, h⟩ := admits (s := s2) (hdr := hdr) hq hout hin
    exact ⟨u, hostLaunch s2 q d hdr, launchAdmit_eq hroom (consider_admits 80 hhead hq hrecord hcheck hadmit), hfind, rfl, rfl, rfl,
      rfl, rfl, rfl, beq_eq_false_iff_ne.2 (by unfold sysQueue; omega), rfl, rfl, rfl, rfl, rfl, rfl, rfl, h⟩
  · show execCompletionMsixSignal s = _
    simp only [execCompletionMsixSignal, h]

/-! ### Releases -/

/-- Settling a partition where no claim waits changes at most the teams' table. -/
theorem settleClaims_rest {s : State} (h : NoClaims s) (core part : Nat) :
    { s.settleClaims core part with teams := s.teams } = s := by
  rw [State.settleClaims, RegisterPool.grantClaims_noClaims h]
  obtain hr | ⟨j, f, hr, hf⟩ := RegisterPool.refuseClaims_noClaims h core part
  · rw [hr, RegisterPool.grantClaims_noClaims h]
  · have hkeeps : NoClaims (s.modTeam j f) := RegisterPool.noClaims_modTeam_keeps h fun t ht => by
      rw [hf t ht]
      exact h _ (Tab.mem_of_find ht)
    rw [hr, RegisterPool.grantClaims_noClaims hkeeps]
    rfl

/-- A group that has left its slot (R304). -/
def vacated (g : Nat) (t : Team) : Team := t.modGroup g fun gr => { gr with held := false, claim := none }

theorem group_released {s : State} {team g : Nat} {t : Team} {gr : Group} (ht : s.team? team = some t) (hidle : t.groupIdle g = true)
    (hgr : Tab.find g t.groups = some gr) (hheld : gr.held = true) (hno : NoClaims s) :
    ∃ s' t', exec (.groupRelease team g) s = .next s' ∧ OnlyTeam s s' team ∧ s'.team? team = some t' ∧
      Tab.find g t'.groups = some { gr with held := false, claim := none } ∧ t'.threads = t.threads := by
  obtain ⟨u, hu⟩ : ∃ u, u = s.modTeam team (vacated g) := ⟨_, rfl⟩
  have hcond : (t.groupIdle g && ((Tab.find g t.groups).map Group.held).getD false) = true := by
    rw [hidle, hgr, Option.map_some, Option.getD_some, hheld]
    rfl
  have hrelease : s.releaseGroup team g = if t.near then u else u.settleClaims t.core (g % 4) := by
    simp only [State.releaseGroup, ht, hcond, if_true]
    rw [hu]
    rfl
  have hexec : exec (.groupRelease team g) s = .next (s.releaseGroup team g) := by
    show execGroupRelease team g s = _
    simp only [execGroupRelease, ht, hcond, if_true]
  have huteam : ∀ k, u.team? k = if k = team then (s.team? k).map (vacated g) else s.team? k := fun k => by
    rw [hu]
    exact team?_modTeam s team k _
  have huno : NoClaims u := hu ▸ RegisterPool.noClaims_modTeam_keeps hno fun t' ht' q hq => by
    have hold := hno _ (Tab.mem_of_find ht')
    unfold vacated Team.modGroup Tab.modify at hq
    simp only at hq
    split at hq
    · obtain rfl | hq := Tab.mem_put hq
      · rfl
      · exact hold q hq
    · exact hold q hq
  have hteams : ∀ k, (s.releaseGroup team g).team? k = u.team? k := fun k => by
    rw [hrelease]
    split
    · rfl
    · exact RegisterPool.settleClaims_noClaims huno _ _ k
  have hrest : { s.releaseGroup team g with teams := u.teams } = u := by
    rw [hrelease]
    split
    · rfl
    · exact settleClaims_rest huno _ _
  refine ⟨_, vacated g t, hexec, ⟨fun j hj => ?_, ?_⟩, ?_, ?_, rfl⟩
  · rw [hteams, huteam, if_neg hj]
  · exact (congrArg (fun x : State => { x with teams := s.teams }) hrest :).trans (hu ▸ rfl)
  · rw [hteams, huteam, if_pos rfl, ht]
    rfl
  · refine (Tab.find_modify_same _ _ _).trans ?_
    rw [hgr]
    rfl

/-- A tracker entry is freed when nothing of it is on its way (R305). -/
theorem tracker_freed {s : State} {core e launch : Nat} {tags jobs : List Nat}
    (hfind : Tab.find e (s.core core).tracker = some (tags, jobs, launch)) (htags : ∀ t ∈ tags, s.underWay t = false)
    (hjobs : ∀ j ∈ jobs, Tab.find j s.jobs = none) :
    ∃ s', exec (.trackerDrainDone core e) s = .next s' ∧ Tab.find e (s'.core core).tracker = none ∧
      (∀ k, k ≠ e → Tab.find k (s'.core core).tracker = Tab.find k (s.core core).tracker) ∧ { s' with cores := s.cores } = s := by
  have hcond : (tags.all (fun t => !s.underWay t) && jobs.all fun j => !Tab.has s.jobs j) = true := by
    rw [Bool.and_eq_true, List.all_eq_true, List.all_eq_true]
    exact ⟨fun t ht => by rw [htags t ht]; rfl, fun j hj => by rw [Tab.has, hjobs j hj]; rfl⟩
  have hcore := core_modCore s core core fun c => { c with tracker := Tab.del e c.tracker }
  rw [if_pos rfl] at hcore
  refine ⟨s.modCore core fun c => { c with tracker := Tab.del e c.tracker }, ?_, ?_, fun k hk => ?_, rfl⟩
  · show execTrackerDrainDone core e s = _
    simp only [execTrackerDrainDone, hfind, hcond, if_true]
  · rw [hcore]
    exact Tab.find_del_same e _
  · rw [hcore]
    exact Tab.find_del_other hk _

/-- The forme of every team of a cluster is released with it (R93). -/
theorem formes_released {s : State} {k : Nat} {c : Cluster} (hc : Tab.find k s.clusters = some c) (hfree : s.formeFree k c = true) :
    ∃ s', exec (.formeRelease k) s = .next s' ∧ Tab.find k s'.clusters = none ∧
      (∀ f, Tab.find f s'.formes = if f ∈ c.teams then none else Tab.find f s.formes) ∧
      { s' with clusters := s.clusters, formes := s.formes } = s := by
  refine ⟨{ s with clusters := Tab.del k s.clusters, formes := s.formes.filter fun (p : Nat × Forme) => !c.teams.contains p.1 }, ?_,
    Tab.find_del_same k _, fun f => ?_, rfl⟩
  · show execFormeRelease k s = _
    simp only [execFormeRelease, hc, hfree, if_true]
  · refine (Tab.find_filter_key (fun n => !c.teams.contains n) f s.formes).trans ?_
    by_cases hf : f ∈ c.teams <;> simp [hf]

/-! ### Retirement -/

/-- `s'` is `s` but for what the settling of a partition's slugs may change; no team comes. -/
def SlugsMoved (s s' : State) : Prop :=
  { s' with teams := s.teams, bad := s.bad } = s ∧ ∀ k, s.team? k = none → s'.team? k = none

theorem SlugsMoved.refl (s : State) : SlugsMoved s s := ⟨rfl, fun _ => id⟩

theorem SlugsMoved.trans {s t u : State} (h : SlugsMoved s t) (h' : SlugsMoved t u) : SlugsMoved s u :=
  ⟨(congrArg (fun x : State => { x with teams := s.teams, bad := s.bad }) h'.1 :).trans h.1, fun k hk => h'.2 k (h.2 k hk)⟩

theorem slugsMoved_modTeam (s : State) (bad : Tab Nat) (k : Nat) (f : Team → Team) :
    SlugsMoved s (({ s with bad } : State).modTeam k f) := by
  refine ⟨rfl, fun j hj => ?_⟩
  rw [team?_modTeam, show ({ s with bad } : State).team? j = s.team? j from rfl, hj]
  split <;> rfl

theorem slugsMoved_refuseSlugs (core part fuel : Nat) (s : State) : SlugsMoved s (s.refuseSlugs core part fuel) := by
  induction fuel generalizing s with
  | zero => exact .refl s
  | succ fuel ih =>
    rw [State.refuseSlugs]
    split
    · exact .refl s
    · split
      · exact (slugsMoved_modTeam s s.bad _ _).trans (ih _)
      · exact .refl s

theorem slugsMoved_settleSlugs (core part : Nat) (asked : Bool) (fuel : Nat) (s : State) :
    SlugsMoved s (s.settleSlugs core part asked fuel) := by
  induction fuel generalizing s asked with
  | zero => exact .refl s
  | succ fuel ih =>
    rw [State.settleSlugs]
    split
    next s' h =>
      refine SlugsMoved.trans ?_ (ih _ _)
      unfold State.grantSlug at h
      split at h
      next =>
        split at h
        · cases h
        · simp only at h
          split at h
          · obtain rfl := Option.some.inj h
            exact slugsMoved_modTeam s _ _ _
          · cases h
      next => cases h
    next =>
      split
      · exact slugsMoved_refuseSlugs ..
      · exact .refl s

/-- The slugs of a core's partitions are settled (R253). -/
def settleCore (core : Nat) (s : State) : State := (List.range 4).foldl (fun s p => s.settleSlugs core p false 64) s

theorem slugsMoved_settleCore (core : Nat) (s : State) : SlugsMoved s (settleCore core s) := by
  unfold settleCore
  generalize List.range 4 = ps
  induction ps generalizing s with
  | nil => exact .refl s
  | cons p ps ih => exact (slugsMoved_settleSlugs core p false 64 s).trans (ih _)

/-- The part without a retired team, whose core's clock counts in its launch's time (R348). -/
def retired (s : State) (k : Nat) (t : Team) : State :=
  { s with
    teams := Tab.del k s.teams
    launches := Tab.modify t.launch (fun l => { l with time := max l.time (s.clock t.clockKey) }) s.launches }

theorem retire_untiled {s : State} {k : Nat} {t : Team} {l : Launch} (hl : Tab.find t.launch s.launches = some l)
    (hin : recNin l.record = 0) : s.retire k t = settleCore t.core (retired s k t) := by
  have hlowers : s.teamLowers t l = s := by
    unfold State.teamLowers inputsAt
    rw [hin]
    split <;> rfl
  unfold State.retire settleCore
  rw [hl]
  dsimp only
  rw [hlowers, retired]

/-- A team of a launch without input tiles retires (R306, R348). -/
theorem team_retired {s : State} {k : Nat} {t : Team} {l : Launch} (ht : s.team? k = some t) (hnear : t.near = false)
    (hdone : t.done = true) (hl : Tab.find t.launch s.launches = some l) (hin : recNin l.record = 0) :
    ∃ s', exec (.teamRetire k) s = .next s' ∧ s'.team? k = none ∧
      Tab.find t.launch s'.launches = some { l with time := max l.time (s.clock t.clockKey) } ∧ s'.formes = s.formes ∧
      s'.hbm = s.hbm ∧ s'.hostMem = s.hostMem := by
  have hmoved := slugsMoved_settleCore t.core (retired s k t)
  rw [← retire_untiled hl hin] at hmoved
  have hexec : exec (.teamRetire k) s = .next (s.retire k t) := by
    show execTeamRetire k s = _
    simp only [execTeamRetire, ht, hnear, hdone, Bool.not_false, Bool.and_self, if_true]
  generalize s.retire k t = u at hmoved hexec
  obtain ⟨hrest, hnone⟩ := hmoved
  refine ⟨u, hexec, hnone k (Tab.find_del_same k s.teams), ?_, (congrArg State.formes hrest :), (congrArg State.hbm hrest :),
    (congrArg State.hostMem hrest :)⟩
  rw [show u.launches = (retired s k t).launches from (congrArg State.launches hrest :)]
  refine (Tab.find_modify_same _ _ _).trans ?_
  rw [hl]
  rfl

/-! ### Completion -/

/-- `s'` is `s` but for its teams and clocks. -/
def Roused (s s' : State) : Prop := { s' with teams := s.teams, clocks := s.clocks } = s

theorem roused_foldl {α : Type} {F : State → α → State} (h : ∀ s a, Roused s (F s a)) (l : List α) (s : State) :
    Roused s (l.foldl F s) := by
  induction l generalizing s with
  | nil => exact rfl
  | cons a l ih => exact (congrArg (fun x : State => { x with teams := s.teams, clocks := s.clocks }) (ih (F s a)) :).trans (h s a)

/-- What a change of an entry sets going in threads leaves all else (R268). -/
theorem roused_wakeImprints (s : State) : Roused s s.wakeImprints := by
  refine roused_foldl (fun s p => roused_foldl (fun s q => ?_) _ s) _ s
  dsimp only
  split
  · split <;> rfl
  · rfl

/-- The entries of a launch that completes (R349, R350). -/
def unbound (s : State) (l : Launch) : State :=
  { s with
    imprints := s.imprints.map fun (p : Nat × Imprint) => (p.1, releaseEntry l p.2)
    boundaries := match l.boundary with
      | none => s.boundaries
      | some b => Tab.modify b (Boundary.close l) s.boundaries }

/-- A launch has left the part. -/
def departed (s : State) (key : Nat) (l : Launch) : State :=
  { s with
    launches := Tab.del key s.launches
    doneTimes := if Tab.find l.queue s.running == some key then Tab.put l.queue l.time s.doneTimes else s.doneTimes
    cores := s.cores.map fun (p : Nat × Core) => (p.1, { p.2 with cancelled := p.2.cancelled.erase key }) }

/-- A launch of a host queue completes with its entry in the ring (R306, R344). -/
theorem launch_completed {s : State} {k : Nat} {l : Launch} (hl : Tab.find k s.launches = some l) (hdone : s.launchDone k l = true)
    (hq : l.queue < 64) (hstale : l.stale = []) (hwaiting : ∀ p ∈ s.launches, p.2.waiting = []) :
    ∃ s', exec (.launchComplete k) s = .next s' ∧ Tab.find k s'.launches = none ∧
      (Tab.find l.queue s.running = some k → Tab.find l.queue s'.doneTimes = some l.time) ∧
      Stored s.hostMem s'.hostMem (Bits.field (s.reg (hqComp l.queue)) 12 40 * 2 ^ 12 + l.index % s.hqSlots l.queue * 16) 16
        (compEntry l.skip l.code.2 l.code.1 l.id l.index l.bnd) ∧
      s'.port.msix = s.port.msix ++ [2] ∧ s'.hbm = s.hbm := by
  obtain ⟨pa, hpa⟩ : ∃ pa, pa = Bits.field (s.reg (hqComp l.queue)) 12 40 * 2 ^ 12 + l.index % s.hqSlots l.queue * 16 := ⟨_, rfl⟩
  obtain ⟨entry, hentry⟩ : ∃ entry, entry = compEntry l.skip l.code.2 l.code.1 l.id l.index l.bnd := ⟨_, rfl⟩
  obtain ⟨u, hu⟩ : ∃ u, u = unbound s l := ⟨_, rfl⟩
  obtain ⟨w, hw⟩ : ∃ w, w = departed (Power.hostRecord u pa 16 entry) k l := ⟨_, rfl⟩
  have hring : u.writeEntry l.queue l.index l.comp l.time entry = Power.hostRecord u pa 16 entry := by
    rw [writeEntry_ring hq, hpa, hu]
    rfl
  have hcomplete : s.completeLaunch k l = w.imprintsChanged := by
    have hdef : s.completeLaunch k l = (departed ((l.stale.foldl (fun s i => s.lowerCluster l i) (unbound s l)).writeEntry l.queue
      l.index l.comp l.time (compEntry l.skip l.code.2 l.code.1 l.id l.index l.bnd)) k l).imprintsChanged := rfl
    rw [hdef, hstale, List.foldl_nil, ← hentry, ← hu, hring, hw]
  have hlaunches : w.launches = Tab.del k s.launches := by rw [hw, hu]; rfl
  obtain ⟨x, hx⟩ : ∃ x, x = w.wakeImprints := ⟨_, rfl⟩
  have hrest : Roused w x := hx ▸ roused_wakeImprints w
  unfold Roused at hrest
  have hxlaunches : x.launches = Tab.del k s.launches := (congrArg State.launches hrest :).trans hlaunches
  have hidle : w.imprintsChanged = x := by
    rw [State.imprintsChanged, ← hx]
    refine staleScan_idle x fun p hp => hwaiting p ?_
    rw [hxlaunches] at hp
    exact (List.mem_filter.1 hp).1
  refine ⟨x, ?_, ?_, fun hrun => ?_, ?_, ?_, ?_⟩
  · show execLaunchComplete k s = _
    simp only [execLaunchComplete, hl, hdone, Bool.not_true, Bool.false_eq_true, if_false, compReady_host hq]
    rw [hcomplete, hidle]
  · rw [hxlaunches]
    exact Tab.find_del_same k _
  · rw [show x.doneTimes = w.doneTimes from (congrArg State.doneTimes hrest :), hw, hu]
    show Tab.find l.queue (if (Tab.find l.queue s.running == some k) = true then Tab.put l.queue l.time s.doneTimes else s.doneTimes) = _
    rw [hrun, if_pos (beq_self_eq_true _), Tab.find_put_same]
  · rw [show x.hostMem = w.hostMem from (congrArg State.hostMem hrest :), hw, hu, ← hpa, ← hentry]
    exact stored_writeHost s pa 16 entry
  · rw [show x.port = w.port from (congrArg State.port hrest :), hw, hu]
    rfl
  · rw [show x.hbm = w.hbm from (congrArg State.hbm hrest :), hw, hu]
    rfl

/-! ### Cancels -/

/-- A write of LCANCEL that names a resident launch without waiting or saved clusters drops what is not placed (R354). -/
theorem launch_cancelled {s : State} {id k : Nat} {l : Launch} (hnamed : s.launchNamed (id % 2 ^ 32) = some (k, l))
    (hl : Tab.find k s.launches = some l) (hcancel : l.cancel = false) (hwaiting : l.waiting = [])
    (hsaved : ∀ v ∈ s.saved, v.cluster.launch ≠ k) :
    ∃ s', exec (.lcancel id) s = .next s' ∧ Tab.find k s'.launches = some { l with
        cancel := true, next := recClusters l.record
        skip := l.skip + recTeams l.record * (recClusters l.record - l.next) } ∧
      s'.teams = s.teams ∧ s'.hbm = s.hbm ∧ s'.hostMem = s.hostMem := by
  obtain ⟨l', hl'⟩ : ∃ l' : Launch, l' = { l with
    cancel := true, waiting := [], next := recClusters l.record
    skip := l.skip + recTeams l.record * (recClusters l.record - l.next) } := ⟨_, rfl⟩
  obtain ⟨u, hu⟩ : ∃ u : State, u = { s with launches := Tab.put k l' s.launches } := ⟨_, rfl⟩
  have hnone : (u.saved.filter fun v => v.cluster.launch == k) = [] :=
    List.filter_eq_nil_iff.2 fun v hv => by simpa using hsaved v (by rw [hu] at hv; exact hv)
  have hall : (u.saved.filter fun v => v.cluster.launch != k) = u.saved :=
    List.filter_eq_self.2 fun v hv => by simpa using hsaved v (by rw [hu] at hv; exact hv)
  have hexec : exec (.lcancel id) s = .next u := by
    show execLcancel id s = _
    simp only [execLcancel, hnamed, State.cancelLaunch, hl, hcancel, Bool.false_eq_true, if_false, hwaiting, List.foldl_nil,
      List.length_nil, Nat.add_zero]
    rw [← hl', ← hu, State.discardSaved]
    simp only [hnone, hall, List.foldl_nil]
  refine ⟨u, hexec, ?_, hu ▸ rfl, hu ▸ rfl, hu ▸ rfl⟩
  rw [hu, hl', ← hwaiting]
  exact Tab.find_put_same _ _ _

/-- The flag reaches a core and purges the launch's bins there (R368). -/
theorem flag_reaches {s : State} {k core : Nat} {l : Launch} (hl : Tab.find k s.launches = some l) (hcancel : l.cancel = true)
    (hflag : (s.core core).cancelled.contains k = false) :
    ∃ s', exec (.cancelFlagSet k core) s = .next s' ∧ (s'.core core).cancelled.contains k = true ∧
      (∀ b, Tab.find b (s'.core core).bins ≠ none → ((Tab.find b (s'.core core).bins).map Bin.launch) ≠ some k) ∧
      Tab.find k s'.launches = some { l with
        skip := l.skip + ((s.core core).bins.filter fun p => p.2.launch == k).length } ∧
      { s' with cores := s.cores, launches := s.launches } = s := by
  obtain ⟨f, hf⟩ : ∃ f : Core → Core, f = fun c =>
    { c with cancelled := k :: c.cancelled, bins := c.bins.filter fun (p : Nat × Bin) => p.2.launch != k } := ⟨_, rfl⟩
  obtain ⟨gone, hgone⟩ : ∃ gone, gone = ((s.core core).bins.filter fun (p : Nat × Bin) => p.2.launch == k).length := ⟨_, rfl⟩
  obtain ⟨u, hu⟩ : ∃ u : State, u =
    { s.modCore core f with launches := (Tab.modify k (fun l => { l with skip := l.skip + gone }) (s.modCore core f).launches) } :=
    ⟨_, rfl⟩
  have hcore : u.core core = f (s.core core) := by
    rw [hu]
    exact (core_modCore s core core f).trans (if_pos rfl)
  have hexec : exec (.cancelFlagSet k core) s = .next u := by
    show execCancelFlagSet k core s = _
    simp only [execCancelFlagSet, hl, hcancel, hflag, Bool.not_false, Bool.and_self, if_true, State.flagCore, Bool.false_eq_true,
      if_false]
    rw [hu, hf, hgone]
  refine ⟨u, hexec, ?_, fun b _ h => ?_, ?_, by rw [hu]; rfl⟩
  · rw [hcore, hf]
    simp
  · rw [hcore, hf] at h
    obtain ⟨bin, hbin, hlaunch⟩ := Option.map_eq_some_iff.1 h
    have hmem := (List.mem_filter.1 (Tab.mem_of_find hbin)).2
    exact absurd hlaunch (by simpa using hmem)
  · rw [hu, ← hgone]
    refine (Tab.find_modify_same _ _ _).trans ?_
    rw [show (s.modCore core f).launches = s.launches from rfl, hl]
    rfl

theorem hostCancels : HostCancels := by
  refine ⟨fun s id hnone => ?_, fun s id k l hnamed hl hcancel hwaiting hsaved => launch_cancelled hnamed hl hcancel hwaiting hsaved,
    fun s k l core hl hcancel hflag => flag_reaches hl hcancel hflag⟩
  show execLcancel id s = _
  simp only [execLcancel, hnone]

/-! ### Placement -/

/-- An allocation leaves every other forme, but for its place (R91). -/
theorem find_allot_other {s : State} {key other core : Nat} {f g : Forme} (hne : other ≠ key) (hg : Tab.find other s.formes = some g) :
    ∃ base, Tab.find other (s.allot key core f).formes = some { g with base } := by
  obtain ⟨u, hu⟩ : ∃ u, u = if (s.formePlace core f.size).isSome then s else s.packFormes core := ⟨_, rfl⟩
  obtain ⟨at', hat⟩ : ∃ at', at' = (u.formePlace core f.size).getD 0 := ⟨_, rfl⟩
  have hallot : s.allot key core f =
      ({ u with formes := Tab.put key { f with core, base := at' } u.formes } : State).fitSlice core := by
    rw [State.allot, hat, hu]
  have hformes : (s.allot key core f).formes = Tab.put key { f with core, base := at' } u.formes := by
    rw [hallot]
    exact (congrArg State.formes (Slices.givesUp_fitSlice _ core).1 :)
  rw [hformes, Tab.find_put_other hne, hu]
  split
  · exact ⟨g.base, hg⟩
  · obtain ⟨below, hbelow⟩ : ∃ below : Forme → Nat, below = fun h =>
      ((s.formes.filter fun (p : Nat × Forme) => p.2.core == core && decide (p.2.base < h.base)).map fun (p : Nat × Forme) =>
        p.2.size).sum := ⟨_, rfl⟩
    have hpack : (s.packFormes core).formes = s.formes.map fun (p : Nat × Forme) =>
        (p.1, if p.2.core == core then { p.2 with base := below p.2 } else p.2) := by
      rw [hbelow]
      refine List.map_congr_left fun p _ => ?_
      dsimp only
      split <;> rfl
    rw [hpack, Tab.find_map_val (fun _ (h : Forme) => if h.core == core then { h with base := below h } else h), hg, Option.map_some]
    split
    · exact ⟨_, rfl⟩
    · exact ⟨g.base, rfl⟩

/-- `s'` is `s` with more teams resident: what was started stands as it was. -/
structure Advances (s s' : State) : Prop where
  nextKey : s.nextKey ≤ s'.nextKey
  clocks : ∀ c, s.clock c ≤ s'.clock c
  launches : s'.launches = s.launches
  hbm : s'.hbm = s.hbm
  hostMem : s'.hostMem = s.hostMem
  starts : ∀ {key core entry dim forme init t}, key < s.nextKey → Starts s key core entry dim forme init t →
    Starts s' key core entry dim forme init t

theorem Advances.refl (s : State) : Advances s s := ⟨le_refl _, fun _ => le_refl _, rfl, rfl, rfl, fun _ h => h⟩

theorem Advances.trans {s t u : State} (h : Advances s t) (h' : Advances t u) : Advances s u where
  nextKey := h.nextKey.trans h'.nextKey
  clocks c := (h.clocks c).trans (h'.clocks c)
  launches := h'.launches.trans h.launches
  hbm := h'.hbm.trans h.hbm
  hostMem := h'.hostMem.trans h.hostMem
  starts hkey hs := h'.starts (Nat.lt_of_lt_of_le hkey h.nextKey) (h.starts hkey hs)

theorem advances_seat (s : State) (core : Nat) (t : Team) (entry : Nat) (init : Nat → Tab Word) :
    Advances s (s.seat core t entry init).1 ∧ (s.seat core t entry init).1.nextKey = s.nextKey + 1 := by
  have hseat := seated_seat s core t entry init
  have hkey : (s.seat core t entry init).1.nextKey = s.nextKey + 1 :=
    hseat.field State.nextKey (fun _ _ g => (congrArg State.nextKey g.1 :)) fun _ _ => rfl
  refine ⟨⟨by omega, fun c => ?_, hseat.field State.launches (fun _ _ g => (congrArg State.launches g.1 :)) fun _ _ => rfl, hseat.hbm,
    hseat.hostMem, fun {key _ _ _ _ _ u} hlt hstarts => ?_⟩, hkey⟩
  · exact le_of_eq (congrArg (fun cs => Tab.getD cs c 0) hseat.clocks.symm :)
  · obtain ⟨hteam, hplace, hdim, hstop, hthreads, hnone, f, hf, hsize, hcore, hdata, hfull, htag⟩ := hstarts
    obtain ⟨base, hforme⟩ := find_allot_other (s := ({ s with nextKey := s.nextKey + 1 } : State).setTeam s.nextKey
      (seatedTeam { s with nextKey := s.nextKey + 1 } core t entry init)) (core := core)
      (f := { size := t.forme, cluster := t.cluster, core }) (Nat.ne_of_lt hlt) hf
    refine ⟨?_, hplace, hdim, hstop, hthreads, hnone, _, hforme, hsize, hcore, hdata, hfull, htag⟩
    rw [State.team?, hseat.teams]
    exact (Tab.find_put_other (Nat.ne_of_lt hlt) _ _).trans hteam

/-- The clock to which a placed team's core is raised: its predecessor's completion and its inputs' times (R348, R351). -/
def placeTime (s : State) (l : Launch) (index rank : Nat) : Nat :=
  ((inputsAt l.record (teamAt l.record index rank).1 (teamAt l.record index rank).2.1).filterMap fun i => s.tileReady l.ctx i).foldl
    max l.after

/-- One team of a cluster is placed. -/
def seatRank (key ck index : Nat) (l : Launch) (s : State) (core rank : Nat) : State :=
  let u := s.raise core (placeTime s l index rank)
  let v := (u.seat core (launchTeam key ck index rank u.stamp core l) (recEntry l.record) fun _ => []).1
  { v with stamp := v.stamp + 1 }

/-- A team of a launch as it stands in its place (R302, R303). -/
def Ranked (s : State) (key index : Nat) (l : Launch) (team core rank stamp : Nat) : Prop :=
  ∃ t, Starts s team core (recEntry l.record) (recDim l.record) (roundForme (recForme l.record)) (fun _ _ => 0) t ∧
    t.launch = key ∧ t.rank = rank ∧ t.stamp = stamp ∧ (t.x, t.y, t.z) = teamAt l.record index rank ∧ t.base = l.base ∧
    t.system = l.system ∧ (∀ i, i < recNargs l.record →
      Tab.getD t.k i 0 = BitVec.ofNat 32 (recField l.record (2048 + 32 * i) 32)) ∧ l.after ≤ s.clock core

theorem Ranked.advances {s s' : State} {key index team core rank stamp : Nat} {l : Launch}
    (h : Ranked s key index l team core rank stamp) (hlt : team < s.nextKey) (h' : Advances s s') :
    Ranked s' key index l team core rank stamp := by
  obtain ⟨t, hstarts, hlaunch, hrank, hstamp, hat, hbase, hsystem, hargs, hafter⟩ := h
  exact ⟨t, h'.starts hlt hstarts, hlaunch, hrank, hstamp, hat, hbase, hsystem, hargs, hafter.trans (h'.clocks core)⟩

theorem getD_foldl_set (f : Nat → Word) (n i : Nat) :
    Tab.getD ((List.range n).foldl (fun t i => Tab.set 0 i (f i) t) []) i 0 = if i < n then f i else 0 := by
  induction n with
  | zero => rfl
  | succ n ih =>
    rw [List.range_succ, List.foldl_append, List.foldl_cons, List.foldl_nil, Tab.getD_set, ih]
    by_cases h : i = n
    · subst h
      rw [if_pos rfl, if_pos (by omega)]
    · rw [if_neg h]
      exact if_congr (by omega) rfl rfl

/-- A placed team stands at the next key under the next stamp (R302, R303). -/
theorem seatRank_ranked (key ck index : Nat) (l : Launch) (s : State) (core rank : Nat) :
    Advances s (seatRank key ck index l s core rank) ∧ (seatRank key ck index l s core rank).nextKey = s.nextKey + 1 ∧
      (seatRank key ck index l s core rank).stamp = s.stamp + 1 ∧
      Ranked (seatRank key ck index l s core rank) key index l s.nextKey core rank s.stamp := by
  obtain ⟨u, hu⟩ : ∃ u, u = s.raise core (placeTime s l index rank) := ⟨_, rfl⟩
  obtain ⟨t, ht⟩ : ∃ t, t = launchTeam key ck index rank u.stamp core l := ⟨_, rfl⟩
  obtain ⟨v, hv⟩ : ∃ v, v = (u.seat core t (recEntry l.record) fun _ => []).1 := ⟨_, rfl⟩
  have hrank : seatRank key ck index l s core rank = { v with stamp := v.stamp + 1 } := by
    rw [seatRank, hv, ht, hu]
  obtain ⟨hadv, hkey⟩ := advances_seat u core t (recEntry l.record) fun _ => []
  have hstarts := starts_seat u core t (recEntry l.record) (fun _ => []) (by rw [ht]; rfl)
  have hseat := seated_seat u core t (recEntry l.record) fun _ => []
  obtain ⟨st, hst⟩ : ∃ st, st = seatedTeam { u with nextKey := u.nextKey + 1 } core t (recEntry l.record) fun _ => [] := ⟨_, rfl⟩
  rw [← hst] at hstarts
  have hvstamp : v.stamp = u.stamp := hv ▸ hseat.stamp
  rw [← hv] at hadv hkey hstarts
  have hraise : Advances s u := by
    rw [hu]
    exact ⟨le_refl _, fun c => clock_le_raise s core _ c, rfl, rfl, rfl, fun _ h => h⟩
  have hukey : u.nextKey = s.nextKey := hu ▸ rfl
  have hclock : v.clock core = u.clock core := (congrArg (fun cs => Tab.getD cs core 0) (hv ▸ hseat.clocks) :)
  rw [hrank]
  refine ⟨hraise.trans ⟨hadv.nextKey, hadv.clocks, hadv.launches, hadv.hbm, hadv.hostMem, fun hlt h => hadv.starts hlt h⟩,
    hkey.trans (by rw [hukey]), ?_, st, ?_, ?_, ?_, ?_, ?_, ?_, ?_, fun i hi => ?_, ?_⟩
  · rw [hvstamp, hu]
    rfl
  · rw [← hukey]
    rw [ht] at hstarts
    exact hstarts
  · rw [hst, ht]; rfl
  · rw [hst, ht]; rfl
  · rw [hst, ht, hu]; rfl
  · rw [hst, ht]; rfl
  · rw [hst, ht]; rfl
  · rw [hst, ht]; rfl
  · rw [hst, ht]
    exact (getD_foldl_set (fun i => BitVec.ofNat 32 (recField l.record (2048 + 32 * i) 32)) _ i).trans (if_pos hi)
  · show l.after ≤ v.clock core
    rw [hclock, hu, clock_raise, if_pos rfl]
    exact (ChildTeams.le_foldl_max _ _ _ (.inl (le_refl _))).trans (Nat.le_max_right _ _)

/-- The teams of a cluster take consecutive keys and stamps in rank order (R302, R303). -/
theorem ranks_placed (key ck index : Nat) (l : Launch) (cores : List Nat) (s : State) (first : Nat) (ks : List Nat) :
    ∃ u, (cores.zipIdx first).foldl (fun (acc : State × List Nat) (p : Nat × Nat) =>
        (seatRank key ck index l acc.1 p.1 p.2, acc.2 ++ [acc.1.nextKey])) (s, ks) =
      (u, ks ++ (List.range cores.length).map fun r => s.nextKey + r) ∧ Advances s u ∧
      ∀ r c, cores[r]? = some c → Ranked u key index l (s.nextKey + r) c (first + r) (s.stamp + r) := by
  induction cores generalizing s first ks with
  | nil => exact ⟨s, by simp, .refl s, nofun⟩
  | cons c cores ih =>
    obtain ⟨hadv, hkey, hstamp, hranked⟩ := seatRank_ranked key ck index l s c first
    obtain ⟨u, hu, hrest, hall⟩ := ih (seatRank key ck index l s c first) (first + 1) (ks ++ [s.nextKey])
    rw [hkey, hstamp] at hall
    rw [hkey] at hu
    refine ⟨u, ?_, hadv.trans hrest, fun r d hr => ?_⟩
    · rw [List.zipIdx_cons, List.foldl_cons, hu, List.append_assoc, List.length_cons, List.range_succ_eq_map]
      simp [Function.comp_def, Nat.add_assoc, Nat.add_comm 1]
    · cases r with
      | zero =>
        obtain rfl : c = d := by simpa using hr
        exact hranked.advances (by omega) hrest
      | succ r =>
        have h := hall r d (by simpa using hr)
        rw [show s.nextKey + 1 + r = s.nextKey + (r + 1) by omega, show first + 1 + r = first + (r + 1) by omega,
          show s.stamp + 1 + r = s.stamp + (r + 1) by omega] at h
        exact h

/-- A cluster takes its key, its teams their places, and its launch goes on to the next (R302). -/
def clustered (key index ck : Nat) (l : Launch) (placed : State × List Nat) : State :=
  { placed.1 with
    clusters := Tab.put ck { launch := key, index, w := recW l.record, h := recH l.record, teams := placed.2 } placed.1.clusters
    launches := Tab.modify key (fun l =>
      { l with next := if recNin l.record = 0 then index + 1 else l.next, waiting := l.waiting.erase index }) placed.1.launches }

theorem placeCluster_eq (s : State) (key index : Nat) (l : Launch) (cores : List Nat) : s.placeCluster key index l cores =
    clustered key index s.nextKey l (cores.zipIdx.foldl (fun (acc : State × List Nat) (p : Nat × Nat) =>
      (seatRank key s.nextKey index l acc.1 p.1 p.2, acc.2 ++ [acc.1.nextKey])) ({ s with nextKey := s.nextKey + 1 }, [])) := rfl

/-- A cluster of a launch without input tiles is placed (R302, R303). -/
theorem cluster_placed {s : State} {launch cluster core : Nat} {l : Launch} {cores : List Nat}
    (hl : Tab.find launch s.launches = some l) (hin : recNin l.record = 0) (hfits : s.clusterFits l core = some cores)
    (hnext : s.nextPlacement = some (.fresh launch cluster)) :
    ∃ s', exec (.clusterPlace launch cluster core) s = .next s' ∧
      (∀ r c, cores[r]? = some c → Ranked s' launch cluster l (s.nextKey + 1 + r) c r (s.stamp + r)) ∧
      Tab.find s.nextKey s'.clusters = some
        { launch, index := cluster, w := recW l.record, h := recH l.record
          teams := (List.range cores.length).map fun r => s.nextKey + 1 + r } ∧
      (Tab.find launch s'.launches).map Launch.next = some (cluster + 1) ∧ s'.hbm = s.hbm ∧ s'.hostMem = s.hostMem := by
  obtain ⟨u, hu, hadv, hall⟩ := ranks_placed launch s.nextKey cluster l cores { s with nextKey := s.nextKey + 1 } 0 []
  rw [List.nil_append] at hu
  have hplace : s.placeCluster launch cluster l cores =
      clustered launch cluster s.nextKey l (u, (List.range cores.length).map fun r => s.nextKey + 1 + r) := by
    rw [placeCluster_eq, hu]
  refine ⟨clustered launch cluster s.nextKey l (u, (List.range cores.length).map fun r => s.nextKey + 1 + r), ?_, fun r c hr => ?_,
    Tab.find_put_same _ _ _, ?_, hadv.hbm, hadv.hostMem⟩
  · show execClusterPlace launch cluster core s = _
    simp only [execClusterPlace, hl, hfits, hnext, if_true]
    rw [hplace]
  · have h := hall r c hr
    rw [Nat.zero_add] at h
    exact h
  · refine (congrArg (Option.map Launch.next) (Tab.find_modify_same _ _ _)).trans ?_
    rw [hadv.launches, hl]
    exact congrArg some (if_pos hin)

theorem launchLife : LaunchLife := by
  refine ⟨fun s launch cluster core l cores hl hin hfits hnext => ?_,
    fun s team g t gr ht hidle hgr hheld hno => group_released ht hidle hgr hheld hno,
    fun s core e tags jobs launch hfind htags hjobs => tracker_freed hfind htags hjobs,
    fun s k t l ht hnear hdone hl hin => team_retired ht hnear hdone hl hin,
    fun s k c hc hfree => formes_released hc hfree,
    fun s k l hl hdone hq hstale hwaiting => launch_completed hl hdone hq hstale hwaiting⟩
  exact cluster_placed hl hin hfits hnext

/-- Settles O52: host queues and the launcher's choice, the life of a launch without tiles, and cancels. -/
theorem launcherRuns : Obligations.LauncherRuns := ⟨hostQueues, launchLife, hostCancels⟩

end Sys2Proof.Proofs.LauncherRuns

/-! O59, 1: the canonical form of both memories, and the operations on the state, the operands and the places. Each
operation keeps the form; only a few write a memory, through `writeBytes`, `copyBytes`, `putLine` or single bytes. -/

namespace Sys2Proof.Proofs.Canonical
open Sys2Proof Sys2Proof.Machine

/-- Both memories are in canonical form. -/
def Canon (s : State) : Prop := Memory.wf s.hbm = true ∧ Memory.wf s.hostMem = true

variable {s : State}

theorem canonical_eq_true_iff : s.canonical = true ↔ Canon s := canonical_iff s

theorem canon_foldl {α : Type} {F : State → α → State} {l : List α} (hs : Canon s)
    (hF : ∀ s a, Canon s → Canon (F s a)) : Canon (l.foldl F s) :=
  List.foldlRecOn (motive := Canon) l F hs fun s h a _ => hF s a h

/-- Where a fold carries a result beside the state. -/
theorem canon_foldl_fst {α β : Type} {F : State × β → α → State × β} {l : List α} {p : State × β}
    (hs : Canon p.1) (hF : ∀ q a, Canon q.1 → Canon (F q a).1) : Canon (l.foldl F p).1 :=
  List.foldlRecOn (motive := fun q : State × β => Canon q.1) l F hs fun q h a _ => hF q a h

theorem canon_ite {p : Prop} [Decidable p] {a b : State} (ha : Canon a) (hb : Canon b) : Canon (if p then a else b) := by
  split <;> assumption

/-- A step of a computation that may fail: it gave a result, and so did what follows. -/
theorem except_bind_eq_ok {ε α β : Type} {x : Except ε α} {f : α → Except ε β} {b : β} (h : x >>= f = .ok b) :
    ∃ a, x = .ok a ∧ f a = .ok b := by
  cases x with
  | error e => exact absurd h (by simp [bind, Except.bind])
  | ok a => exact ⟨a, rfl, h⟩

theorem except_map_eq_ok {ε α β : Type} {x : Except ε α} {f : α → β} {b : β} (h : x.map f = .ok b) :
    ∃ a, x = .ok a ∧ f a = b := by
  cases x with
  | error e => exact absurd h (by simp [Except.map])
  | ok a => exact ⟨a, rfl, Except.ok.inj h⟩

/-- The next state of an instruction or an event, where there is one, is in canonical form. -/
def Kept (o : Host.Outcome State Fault Refusal) : Prop := ∀ s', o = .next s' → Canon s'

theorem kept_next : Kept (.next s) ↔ Canon s := by simp [Kept]

theorem kept_fault (f : Fault) : Kept (.fault f) := by simp [Kept]

theorem kept_refused (r : Refusal) : Kept (.refused r) := by simp [Kept]

theorem canon_raise (hs : Canon s) (k t : Nat) : Canon (s.raise k t) := hs

theorem canon_setTeam (hs : Canon s) (k : Nat) (t : Team) : Canon (s.setTeam k t) := hs

theorem canon_modTeam (hs : Canon s) (k : Nat) (f : Team → Team) : Canon (s.modTeam k f) := hs

theorem canon_modThread (hs : Canon s) (i : Tid) (f : Thread → Thread) : Canon (s.modThread i f) := hs

theorem canon_modGroup (hs : Canon s) (team g : Nat) (f : Group → Group) : Canon (s.modGroup team g f) := hs

theorem canon_setReg (hs : Canon s) (off v : Nat) : Canon (s.setReg off v) := hs

theorem canon_setRegField (hs : Canon s) (off lo width v : Nat) : Canon (s.setRegField off lo width v) := hs

theorem canon_writeHost (hs : Canon s) (pa n v : Nat) : Canon (s.writeHost pa n v) :=
  ⟨hs.1, writeBytes_wf _ _ _ _ hs.2⟩

/-- Bytes written to device memory keep the form. -/
theorem canon_writeHbm (hs : Canon s) (pa n v : Nat) : Canon { s with hbm := writeBytes s.hbm pa n v } :=
  ⟨writeBytes_wf _ _ _ _ hs.1, hs.2⟩

theorem canon_fresh (hs : Canon s) : Canon s.fresh.2 := hs

theorem canon_freshKey (hs : Canon s) : Canon s.freshKey.2 := hs

theorem canon_draw (hs : Canon s) : Canon s.draw.2 := hs

theorem canon_hostEvent (hs : Canon s) (e : HostEvent) : Canon (s.hostEvent e) := by
  unfold State.hostEvent
  grind [Canon, canon_setRegField, canon_writeHost]

theorem canon_noteFault (hs : Canon s) (launch code reason : Nat) : Canon (s.noteFault launch code reason) := hs

theorem canon_stirLaunch (hs : Canon s) (key : Nat) : Canon (s.stirLaunch key) := hs

theorem canon_drainFault (hs : Canon s) (launch addr status : Nat) : Canon (s.drainFault launch addr status) := by
  unfold State.drainFault
  grind [canon_hostEvent, canon_noteFault]

theorem canon_stopEvent (hs : Canon s) (i : Tid) (tm : Team) (t : Trap) (tpc kind : Nat) :
    Canon (s.stopEvent i tm t tpc kind) := by
  unfold State.stopEvent
  grind [canon_hostEvent]

theorem canon_callFault (hs : Canon s) (stack call : Nat) (t : Trap) : Canon (s.callFault stack call t) := hs

theorem canon_noteIssued (hs : Canon s) (team : Nat) (ns dsts : List Nat) : Canon (s.noteIssued team ns dsts) := by
  unfold State.noteIssued
  grind [canon_modThread, canon_foldl]

theorem canon_placeRecord (hs : Canon s) (i : Tid) : Canon (s.placeRecord i) := by
  unfold State.placeRecord
  grind [Canon, canon_modThread, canon_foldl, canon_foldl_fst]

theorem canon_threadsGoOn (hs : Canon s) (op : MemOp) (ns : List Nat) : Canon (s.threadsGoOn op ns) := by
  unfold State.threadsGoOn
  grind [canon_modThread, canon_placeRecord, canon_foldl]

theorem canon_rewindOps (hs : Canon s) (k : Nat) : Canon (s.rewindOps k) := by
  unfold State.rewindOps
  grind [Canon, canon_modThread, canon_threadsGoOn, canon_foldl, canon_foldl_fst]

theorem canon_deliver (hs : Canon s) (i : Tid) (t : Trap) (next : Nat) : Canon (s.deliver i t next) := by
  unfold State.deliver
  grind [canon_callFault, canon_modTeam, canon_modThread, canon_noteFault, canon_rewindOps, canon_stopEvent]

theorem canon_deliverFaults (hs : Canon s) (l : Faults) : Canon (s.deliverFaults l) := by
  unfold State.deliverFaults
  grind [canon_deliver, canon_modThread, canon_foldl]

theorem canon_observe (hs : Canon s) (i : Tid) (ns : List Nat) : Canon (s.observe i ns) := by
  unfold State.observe
  grind [canon_modThread, canon_raise, canon_foldl]

theorem canon_observed (hs : Canon s) (i : Tid) (srcs dsts : List Nat) : Canon (s.observed i srcs dsts) := by
  unfold State.observed
  grind [canon_observe]

theorem canon_claimRegs (hs : Canon s) (c : View) (srcs dsts : List Nat) {s' : State} (hr : s.claimRegs c srcs dsts =
    .ok s') :
    Canon s' := by
  unfold State.claimRegs at hr
  simp only [bind, Except.bind, pure, Except.pure] at hr
  grind [canon_observe]

theorem canon_computeLane (hs : Canon s) {o : XOp} {x : XForm} {wa wb wc : Nat} {dsts : List Nat}
    {put : Thread → Nat → Thread} {f : Nat → Nat → Nat → Nat} {c : View} {s' : State}
    (hr : computeLane o x wa wb wc dsts put f s c = .ok s') : Canon s' := by
  obtain ⟨-, -, hr⟩ := except_bind_eq_ok hr
  obtain ⟨r, -, hr⟩ := except_bind_eq_ok hr
  obtain ⟨s₁, h₁, hr⟩ := except_bind_eq_ok hr
  cases hr
  exact canon_modThread (canon_claimRegs hs _ _ _ h₁) _ _

/-- One thread's part keeps the form when the instruction's own part does. -/
theorem canon_runLane (hs : Canon s) {next : Nat} {g : Option (BitVec 4)} {f : LaneFn} {i : Tid}
    (hf : ∀ s c r, Canon s → f s c = .ok r → Canon r.1) : Canon (runLane next g f s i) := by
  unfold runLane
  grind [canon_modThread, canon_deliver]

theorem canon_runLanes (hs : Canon s) {next : Nat} {g : Option (BitVec 4)} {f : LaneFn} {team : Nat} {ts : List Nat}
    (hf : ∀ s c r, Canon s → f s c = .ok r → Canon r.1) : Canon (runLanes next g f s team ts) :=
  canon_foldl hs fun _ _ h => canon_runLane h hf

theorem canon_noteParked (hs : Canon s) (team : Nat) (ns dsts : List Nat) : Canon (s.noteParked team ns dsts) := by
  unfold State.noteParked
  grind [canon_modThread, canon_foldl]

theorem canon_keepGroup (hs : Canon s) (team pc next : Nat) (ns : List Nat) : Canon (s.keepGroup team pc next ns) := by
  unfold State.keepGroup
  grind [canon_modThread, canon_foldl]

theorem canon_inOrder {f : State → Tid → State} (hf : ∀ s i, Canon s → Canon (f s i)) (hs : Canon s) (team : Nat)
    (ns : List Nat) : Canon (State.inOrder f team ns s) := by
  induction ns generalizing s with
  | nil => exact hs
  | cons n ns ih =>
    rw [State.inOrder]
    split
    · exact canon_foldl (hf _ _ hs) fun _ _ h => canon_modThread h _ _
    · exact ih (hf _ _ hs)

theorem canon_predLane (hs : Canon s) {o : XOp} {x : XForm} {wa wb : Nat} {f : Nat → Nat → Bool} {c : View} {s' : State}
    (hr : predLane o x wa wb f s c = .ok s') : Canon s' := by
  obtain ⟨r, -, hr⟩ := except_bind_eq_ok hr
  obtain ⟨s₁, h₁, hr⟩ := except_bind_eq_ok hr
  cases hr
  exact canon_modThread (canon_claimRegs hs _ _ _ h₁) _ _

theorem canon_healMem (hs : Canon s) (pa n : Nat) : Canon (s.healMem pa n) := hs

theorem canon_putMarks (hs : Canon s) (ln : Nat) (d : LineData) : Canon (s.putMarks ln d) := hs

theorem canon_putBacking (hs : Canon s) (ln : Nat) (d : LineData) : Canon (s.putBacking ln d) :=
  canonical_eq_true_iff.1 (canonical_putBacking s ln d (canonical_eq_true_iff.2 hs))

theorem canon_markBad (hs : Canon s) (key array : Nat) : Canon (s.markBad key array) := by
  unfold State.markBad
  grind [Canon, canon_foldl]

theorem canon_countError (hs : Canon s) (array : Nat) : Canon (s.countError array) := hs

theorem canon_logLine (hs : Canon s) (d : LineData) : Canon (s.logLine d) := by
  unfold State.logLine
  grind [canon_countError]

theorem canon_modHome (hs : Canon s) (h : Nat) (f : Home → Home) : Canon (s.modHome h f) := hs

theorem canon_modRegion (hs : Canon s) (r : Nat) (f : Region → Region) : Canon (s.modRegion r f) := hs

theorem canon_send (hs : Canon s) (m : Msg) : Canon (s.send m) := hs

theorem canon_taken (hs : Canon s) (tag : Nat) : Canon (s.taken tag) := hs

theorem canon_modForme (hs : Canon s) (k : Nat) (f : Forme → Forme) : Canon (s.modForme k f) := hs

theorem canon_healForme (hs : Canon s) (k off n : Nat) : Canon (s.healForme k off n) := by
  unfold State.healForme
  grind [Canon, canon_foldl]

theorem canon_serveWaiter (hs : Canon s) (k : Nat) (w : WordWait) : Canon (s.serveWaiter k w) := by
  unfold State.serveWaiter
  grind [canon_deliver, canon_modForme, canon_modThread, canon_raise]

theorem canon_serveWord (hs : Canon s) (k off n : Nat) : Canon (s.serveWord k off n) := by
  induction n generalizing s with
  | zero => exact hs
  | succ n ih =>
    rw [State.serveWord]
    split
    · exact hs
    · exact ih (canon_serveWaiter hs _ _)

theorem canon_setFull (hs : Canon s) (k off : Nat) (b : Bool) : Canon (s.setFull k off b) := by
  unfold State.setFull
  grind [canon_modForme, canon_serveWord]

theorem canon_linePresent (hs : Canon s) (k line : Nat) : Canon (s.linePresent k line) := by
  unfold State.linePresent
  grind [canon_modForme, canon_modThread, canon_foldl, canon_foldl_fst]

theorem canon_lineAbsent (hs : Canon s) (k line job : Nat) : Canon (s.lineAbsent k line job) := hs

end Sys2Proof.Proofs.Canonical

/-! O59, 2: homes, host accesses, translation and accesses keep the canonical form. -/

namespace Sys2Proof.Proofs.Canonical
open Sys2Proof Sys2Proof.Machine

variable {s : State}

theorem canon_putLineAt (hs : Canon s) (ln : Nat) (l : HomeLine) : Canon (s.putLineAt ln l) := hs

theorem canon_writeBack (hs : Canon s) (ln : Nat) (d : LineData) : Canon (s.writeBack ln d) := by
  unfold State.writeBack
  grind [canon_logLine, canon_putBacking]

theorem canon_leave (hs : Canon s) (ln : Nat) : Canon (s.leave ln) := by
  unfold State.leave
  grind [canon_modHome, canon_raise, canon_writeBack]

theorem canon_backInvalidate (hs : Canon s) (ln : Nat) (pend : Option HReq) : Canon (s.backInvalidate ln pend) := hs

theorem canon_forward (hs : Canon s) (ln : Nat) (r : HReq) : Canon (s.forward ln r) := by
  unfold State.forward
  grind [canon_putLineAt, canon_send, canon_foldl]

theorem canon_ensureWay (hs : Canon s) (ln : Nat) : Canon (s.ensureWay ln).1 := by
  unfold State.ensureWay
  grind [canon_backInvalidate, canon_forward, canon_leave]

theorem canon_allocate (hs : Canon s) (ln : Nat) : Canon (s.allocate ln) := by
  unfold State.allocate
  grind [canon_putLineAt]

theorem canon_touchHome (hs : Canon s) (ln hint : Nat) : Canon (s.touchHome ln hint) := by
  unfold State.touchHome
  grind [canon_modHome, canon_putLineAt]

theorem canon_dirRoom (hs : Canon s) (ln : Nat) : Canon (s.dirRoom ln).1 := by
  unfold State.dirRoom
  grind [canon_modHome, canon_putLineAt]

theorem canon_takeBack (hs : Canon s) (ln : Nat) (data : LineData) (dirty : Bool) (wts rts : Nat) :
    Canon (s.takeBack ln data dirty wts rts) := hs

theorem canon_recallNow (hs : Canon s) (ln : Nat) (excl : Bool) : Canon (s.recallNow ln excl).1 := by
  unfold State.recallNow
  grind [canon_modRegion, canon_takeBack]

theorem canon_portClean (hs : Canon s) (ln : Nat) : Canon (s.portClean ln) := by
  unfold State.portClean
  grind [canon_putLineAt, canon_writeBack]

theorem canon_storeClean (hs : Canon s) (ln : Nat) (d : LineData) : Canon (s.storeClean ln d) := by
  unfold State.storeClean
  grind [Canon, canon_writeBack]

theorem canon_hostRoom (hs : Canon s) (ln : Nat) : Canon (s.hostRoom ln).1 := by
  unfold State.hostRoom
  grind [canon_portClean, canon_recallNow, canon_storeClean]

theorem canon_haveHostLine (hs : Canon s) (ln : Nat) : Canon (s.haveHostLine ln).1 := by
  unfold State.haveHostLine
  grind [Canon, canon_putLineAt]

theorem canon_reply (hs : Canon s) (r : HReq) (kind : MsgKind) : Canon (s.reply r kind) := hs

theorem canon_letRun (hs : Canon s) (r : HReq) : Canon (s.letRun r) := hs

theorem canon_homeLoad (hs : Canon s) (ln pts lease : Nat) : Canon (s.homeLoad ln pts lease).1 := hs

theorem canon_installAt (hs : Canon s) (w : WaitEntry) (next : Nat) : Canon (s.installAt w next) := by
  unfold State.installAt
  grind [canon_deliverFaults, canon_homeLoad, canon_modHome, canon_modThread, canon_raise]

theorem canon_serveH (hs : Canon s) (r : HReq) : Canon (s.serveH r).1 := by
  unfold State.serveH
  grind [canon_backInvalidate, canon_dirRoom, canon_hostRoom, canon_installAt, canon_letRun, canon_modHome,
    canon_putLineAt, canon_reply, canon_touchHome]

theorem canon_serve (hs : Canon s) (r : HReq) : Canon (s.serve r).1 := by
  unfold State.serve
  grind [canon_allocate, canon_ensureWay, canon_forward, canon_haveHostLine, canon_serveH]

theorem canon_enqueue (hs : Canon s) (r : HReq) : Canon (s.enqueue r) := by
  unfold State.enqueue
  grind [canon_modHome, canon_send]

theorem canon_request (hs : Canon s) (r : HReq) : Canon (s.request r) := by
  unfold State.request
  grind [canon_enqueue, canon_serve]

theorem canon_complete (hs : Canon s) (ln : Nat) : Canon (s.complete ln) := by
  unfold State.complete
  grind [canon_modHome, canon_putLineAt, canon_serve]

theorem canon_drainQueue (hs : Canon s) (h : Nat) : Canon (s.drainQueue h).1 := by
  unfold State.drainQueue
  grind [canon_modHome, canon_serve, canon_foldl, canon_foldl_fst]

theorem canon_homeReady (hs : Canon s) (ln : Nat) (excl : Bool) : Canon (s.homeReady ln excl).1 := by
  unfold State.homeReady
  grind [canon_backInvalidate, canon_ensureWay, canon_haveHostLine, canon_hostRoom, canon_recallNow]

theorem canon_evalWait (hs : Canon s) (ln k : Nat) (w : WaitEntry) : Canon (s.evalWait ln k w).1 := by
  unfold State.evalWait
  grind [canon_modHome, canon_send]

theorem canon_evalWaits (hs : Canon s) (ln : Nat) : Canon (s.evalWaits ln) := by
  unfold State.evalWaits
  grind [canon_deliverFaults, canon_evalWait, canon_foldl, canon_foldl_fst]

theorem canon_homeStore (hs : Canon s) (ln pts : Nat) (data : LineData) : Canon (s.homeStore ln pts data).1 := by
  unfold State.homeStore
  grind [canon_evalWaits, canon_putLineAt]

theorem canon_hostError (hs : Canon s) (array : Nat) : Canon (s.hostError array) := hs

theorem canon_waitReady (hs : Canon s) (ln : Nat) : Canon (s.waitReady ln).1 := by
  unfold State.waitReady
  grind [canon_homeReady, canon_recallNow]

theorem canon_hostRead (hs : Canon s) (pa len : Nat) : Canon (s.hostRead pa len).1 := by
  unfold State.hostRead
  grind [Canon, canon_homeLoad, canon_homeReady, canon_hostError, canon_putLineAt, canon_raise]

theorem canon_hostWrite (hs : Canon s) (pa : Nat) (bytes : List (Option Byte)) : Canon (s.hostWrite pa bytes).1 := by
  unfold State.hostWrite
  grind [canon_homeStore, canon_hostError, canon_raise, canon_waitReady]

theorem canon_hostAccess (hs : Canon s) (x : HostReq) : Canon (s.hostAccess x).1 := by
  unfold State.hostAccess
  grind [canon_hostRead, canon_hostWrite]

theorem canon_servePort (hs : Canon s) (n : Nat) : Canon (s.servePort n) := by
  induction n generalizing s with
  | zero => exact hs
  | succ n ih =>
    unfold State.servePort
    grind [Canon, canon_hostAccess]

theorem canon_receive (hs : Canon s) (r : HostReq) : Canon (s.receive r) := by
  unfold State.receive
  grind [Canon, canon_servePort]

theorem canon_walk (hs : Canon s) (lease va table time n : Nat) : Canon (s.walk lease va table time n).1 := by
  induction n generalizing s table time with
  | zero => exact hs
  | succ n ih =>
    unfold State.walk
    grind [canon_homeReady, canon_homeLoad]

theorem canon_walkFrom (hs : Canon s) (ctx va : Nat) : Canon (s.walkFrom ctx va).1 := by
  unfold State.walkFrom
  grind [canon_walk]

theorem canon_tlbFill (hs : Canon s) (k : Nat) (e : TlbEntry) : Canon (s.tlbFill k e) := hs

theorem canon_afterWalk (hs : Canon s) (r : Requester) (time : Nat) : Canon (s.afterWalk r time) := by
  unfold State.afterWalk
  grind [Canon, canon_raise]

theorem canon_miss (hs : Canon s) (a : Asker) (va : Nat) : Canon (s.miss a va).1 := by
  unfold State.miss
  grind [Canon, canon_draw]

theorem canon_held (hs : Canon s) (a : Asker) (va : Nat) : Canon (s.held a va).1 := by
  unfold State.held
  grind [canon_tlbFill]

theorem canon_translate (hs : Canon s) (a : Asker) (va : Nat) : Canon (s.translate a va).1 := by
  unfold State.translate
  grind [canon_afterWalk, canon_held, canon_miss]

theorem canon_mapThreads (hs : Canon s) (f : Thread → Thread) : Canon (s.mapThreads f) := hs

theorem canon_unstall (hs : Canon s) (m : Miss) (denied : Option Trap) : Canon (s.unstall m denied) := by
  unfold State.unstall
  grind [Canon, canon_callFault, canon_foldl]

theorem canon_releaseMiss (hs : Canon s) (e : Nat) (m : Miss) : Canon (s.releaseMiss e m) := by
  unfold State.releaseMiss
  grind [Canon, canon_mapThreads, canon_unstall]

theorem canon_refuseMiss (hs : Canon s) (e : Nat) (m : Miss) (t : Trap) : Canon (s.refuseMiss e m t) := by
  unfold State.refuseMiss
  grind [Canon, canon_deliver, canon_mapThreads, canon_modThread, canon_unstall, canon_foldl, canon_foldl_fst]

theorem canon_walkEnds (hs : Canon s) (e : Nat) (m : Miss) : Canon (s.walkEnds e m) := by
  unfold State.walkEnds
  grind [Canon, canon_afterWalk, canon_mapThreads, canon_refuseMiss, canon_releaseMiss, canon_tlbFill, canon_walkFrom,
    canon_writeHost, canon_foldl, canon_foldl_fst]

theorem canon_signalMsix (hs : Canon s) {vector : Nat} {s' : State} (hr : s.signalMsix vector = some s') : Canon s' := by
  unfold State.signalMsix at hr
  split at hr
  · cases hr; exact hs
  · exact absurd hr (by simp)

theorem canon_tlbinvWrite (hs : Canon s) (v : Nat) : Canon (s.tlbinvWrite v) := by
  unfold State.tlbinvWrite
  grind [Canon, canon_setReg]

theorem canon_perform (hs : Canon s) (k : AccKind) (i : Tid) (t : Team) (a : Access) (old : Nat) (new : Option Nat)
    (flags time : Nat) : Canon (s.perform k i t a old new flags time) := hs

theorem canon_performForme (hs : Canon s) {k : AccKind} {i : Tid} {t : Team} {a : Access} {fk off : Nat} {s' : State}
    (hr : s.performForme k i t a fk off = .done s') : Canon s' := by
  unfold State.performForme at hr
  grind [canon_perform, canon_modForme, canon_healForme, canon_serveWord]

theorem canon_dropCopy (hs : Canon s) (r ln : Nat) : Canon (s.dropCopy r ln) := by
  unfold State.dropCopy
  grind [canon_logLine, canon_modRegion, canon_send]

theorem canon_fitSlice (hs : Canon s) (core : Nat) : Canon (s.fitSlice core) := by
  unfold State.fitSlice
  grind [canon_dropCopy, canon_foldl]

theorem canon_regionRoom (hs : Canon s) (r ln : Nat) : Canon (s.regionRoom r ln).1 := by
  unfold State.regionRoom
  grind [canon_dropCopy, canon_fitSlice, canon_modRegion]

theorem canon_modPlaten (hs : Canon s) (st : Nat) (f : Platen → Platen) : Canon (s.modPlaten st f) := hs

theorem canon_platenLoad (hs : Canon s) (st ln pts : Nat) : Canon (s.platenLoad st ln pts).1 := hs

theorem canon_platenStamp (hs : Canon s) (st ln pts : Nat) : Canon (s.platenStamp st ln pts).1 := hs

theorem canon_ask (hs : Canon s) (key : Nat) (op : MemOp) (t : Team) (ln : Nat) (kind : ReqKind) :
    Canon (s.ask key op t ln kind) := by
  unfold State.ask
  grind [canon_modRegion, canon_regionRoom, canon_send]

theorem canon_dropLane (hs : Canon s) (key : Nat) (a : Access) (i : Tid) (next : Nat) (e : LaneStop) :
    Canon (s.dropLane key a i next e).1 := by
  unfold State.dropLane
  grind [Canon, canon_modThread]

theorem canon_popAccess (hs : Canon s) (key : Nat) : Canon (s.popAccess key) := hs

theorem canon_performLine (hs : Canon s) {op : MemOp} {i : Tid} {t : Team} {a : Access} {ln off : Nat} {s' : State}
    (hr : s.performLine op i t a ln off = .done s') : Canon s' := by
  unfold State.performLine at hr
  grind [Canon, canon_perform, canon_modRegion, canon_homeStore, canon_touchHome, canon_modThread, canon_fresh,
    Option.map_eq_some_iff]

theorem canon_performPlaten (hs : Canon s) {k : AccKind} {i : Tid} {t : Team} {a : Access} {pa : Nat} {s' : State}
    (hr : s.performPlaten k i t a pa = .done s') : Canon s' := by
  unfold State.performPlaten at hr
  grind [canon_perform, canon_platenLoad, canon_platenStamp, canon_healMem, canon_writeHbm]

theorem canon_performNear (hs : Canon s) {k : AccKind} {i : Tid} {t : Team} {a : Access} {pa : Nat} {s' : State}
    (hr : s.performNear k i t a pa = .done s') : Canon s' := by
  unfold State.performNear at hr
  grind [canon_perform, canon_healMem, canon_writeHbm]

theorem canon_performPeer (hs : Canon s) {key : Nat} {k : AccKind} {i : Tid} {a : Access} {module pa : Nat} {s' : State}
    (hr : s.performPeer key k i a module pa = .done s') : Canon s' := by
  unfold State.performPeer at hr
  grind [Canon, canon_fresh, canon_modThread]

theorem canon_performIo (hs : Canon s) {key : Nat} {k : AccKind} {i : Tid} {a : Access} {pa : Nat} {s' : State}
    (hr : s.performIo key k i a pa = .done s') : Canon s' := by
  unfold State.performIo at hr
  grind [Canon, canon_fresh, canon_modThread]

theorem canon_attempt (hs : Canon s) {key : Nat} {op : MemOp} {t : Team} {a : Access} {s' : State}
    (hr : s.attempt key op t a = .done s') : Canon s' := by
  unfold State.attempt at hr
  grind [canon_performForme, canon_performLine, canon_performPlaten, canon_performNear, canon_performPeer,
    canon_performIo]

theorem canon_bundleReady (hs : Canon s) (key : Nat) (op : MemOp) (t : Team) (a : Access) :
    Canon (s.bundleReady key op t a).1 := by
  unfold State.bundleReady
  grind [Canon, canon_homeReady]

end Sys2Proof.Proofs.Canonical

/-! O59, 3: settling, coherence, registers, lanes, rejoin sets and instruction fetches of memory keep the canonical form. -/

namespace Sys2Proof.Proofs.Canonical
open Sys2Proof Sys2Proof.Machine

variable {s : State}

theorem canon_sweepBundle (hs : Canon s) {key : Nat} {as : List Access} {r : State × Faults}
    (hr : s.sweepBundle key as = .ok r) : Canon r.1 := by
  induction as generalizing s r with
  | nil => cases hr; exact hs
  | cons a as ih =>
    unfold State.sweepBundle at hr
    split at hr
    · cases hr; exact hs
    next op _ =>
    split at hr
    · cases hr; exact hs
    next t _ =>
    split at hr
    · exact ih hs hr
    have hb := canon_bundleReady hs key op t a
    split at hr
    · exact absurd hr (by simp)
    next s₁ he =>
    rw [he] at hb
    dsimp only at hr hb
    split at hr
    · next s₂ h₂ => exact ih (canon_attempt (canon_popAccess hb _) h₂) hr
    · obtain ⟨q, hq, rfl⟩ := except_map_eq_ok hr
      exact ih (r := q) (canon_dropLane hb _ _ _ _ _) hq
    · exact absurd hr (by simp)
    · exact absurd hr (by simp)

theorem canon_sweepLanes (hs : Canon s) (key n : Nat) : Canon (s.sweepLanes key n).1 := by
  induction n generalizing s with
  | zero => exact hs
  | succ n ih =>
    unfold State.sweepLanes
    split
    · exact hs
    split
    · split
      · split
        · grind [canon_popAccess, canon_attempt]
        · grind [canon_dropLane, canon_popAccess]
        · grind [canon_ask]
        · grind [canon_ask]
      · split
        · next h => exact ih (canon_sweepBundle hs h)
        · exact canon_ask hs _ _ _ _ _
        · exact hs
    · exact hs

theorem canon_releaseDone (hs : Canon s) (key : Nat) : Canon (s.releaseDone key) := by
  unfold State.releaseDone
  grind [Canon, canon_threadsGoOn]

theorem canon_finishOp (hs : Canon s) (key : Nat) : Canon (s.finishOp key) := by
  unfold State.finishOp
  grind [Canon, canon_releaseDone, canon_threadsGoOn]

theorem canon_sweep (hs : Canon s) (key : Nat) : Canon (s.sweep key).1 := by
  unfold State.sweep
  grind [canon_finishOp, canon_sweepLanes]

theorem canon_sweepAll (hs : Canon s) (keys : List Nat) : Canon (s.sweepAll keys).1 := by
  unfold State.sweepAll
  grind [canon_sweep, canon_foldl, canon_foldl_fst]

theorem canon_startOp (hs : Canon s) (op : MemOp) : Canon (s.startOp op).1 := by
  unfold State.startOp
  grind [Canon, canon_freshKey, canon_modThread, canon_sweep, canon_foldl]

theorem canon_sweepPlaten (hs : Canon s) (st : Nat) : Canon (s.sweepPlaten st) := by
  unfold State.sweepPlaten
  grind [canon_deliverFaults, canon_sweepAll]

theorem canon_fitSlices (hs : Canon s) : Canon s.fitSlices := by
  unfold State.fitSlices
  grind [canon_fitSlice, canon_foldl]

theorem canon_serveOps (hs : Canon s) (h n : Nat) : Canon (s.serveOps h n).1 := by
  induction n generalizing s with
  | zero => exact hs
  | succ n ih =>
    unfold State.serveOps
    grind [canon_drainQueue, canon_sweepAll, canon_foldl_fst]

theorem canon_settle (hs : Canon s) (h fuel : Nat) : Canon (s.settle h fuel) := by
  unfold State.settle
  grind [canon_deliverFaults, canon_fitSlices, canon_serveOps, canon_servePort]

theorem canon_meetForward (hs : Canon s) (tag : Nat) (m : Msg) (excl disc : Bool) :
    Canon (s.meetForward tag m excl disc) := by
  unfold State.meetForward
  grind [canon_modRegion, canon_send, canon_taken]

theorem canon_sweepSlice (hs : Canon s) (r ln : Nat) (before : optParam Faults []) :
    Canon (s.sweepSlice r ln before) := by
  unfold State.sweepSlice
  grind [canon_deliverFaults, canon_fitSlice, canon_sweepAll]

theorem canon_meetReply (hs : Canon s) (tag : Nat) (m : Msg) (f : Tab Copy → Tab Copy) :
    Canon (s.meetReply tag m f) := by
  unfold State.meetReply
  grind [canon_modRegion, canon_sweepSlice, canon_taken]

theorem canon_replaceCopy (hs : Canon s) (r ln : Nat) : Canon (s.replaceCopy r ln) := by
  unfold State.replaceCopy
  grind [canon_dropCopy]

theorem canon_dropHome (hs : Canon s) (ln : Nat) : Canon (s.dropHome ln) := by
  unfold State.dropHome
  grind [canon_backInvalidate, canon_leave]

theorem canon_dropTranslation (hs : Canon s) (k ctx va : Nat) : Canon (s.dropTranslation k ctx va) := hs

theorem canon_grantClaims (hs : Canon s) (core part n : Nat) : Canon (s.grantClaims core part n) := by
  induction n generalizing s with
  | zero => exact hs
  | succ n ih =>
    unfold State.grantClaims
    grind [canon_modTeam]

theorem canon_refuseClaims (hs : Canon s) (core part : Nat) : Canon (s.refuseClaims core part) := by
  unfold State.refuseClaims
  grind [canon_modTeam, canon_foldl]

theorem canon_settleClaims (hs : Canon s) (core part : Nat) : Canon (s.settleClaims core part) := by
  unfold State.settleClaims
  grind [canon_grantClaims, canon_refuseClaims]

theorem canon_shrink (hs : Canon s) (k gk target : Nat) : Canon (s.shrink k gk target) := by
  unfold State.shrink
  grind [canon_modTeam, canon_settleClaims]

theorem canon_kObserve (hs : Canon s) (k : Nat) (ns : List Nat) : Canon (s.kObserve k ns) := by
  unfold State.kObserve
  grind [canon_modTeam, canon_raise, canon_foldl]

theorem canon_diverged (hs : Canon s) (t : Team) (team : Nat) (ns : List Nat) (next : Nat) :
    Canon (s.diverged t team ns next) := by
  unfold State.diverged
  grind [canon_deliver, canon_foldl]

theorem canon_answer (hs : Canon s) (team : Nat) (ns : List Nat) (pred : Nat) (ok : Bool) (next : Nat) :
    Canon (s.answer team ns pred ok next) := by
  unfold State.answer
  grind [canon_modThread, canon_foldl]

theorem canon_claim (hs : Canon s) (team gk target pred next : Nat) (ns : List Nat) :
    Canon (s.claim team gk target pred next ns) := by
  unfold State.claim
  grind [canon_answer, canon_modGroup, canon_modThread, canon_settleClaims, canon_foldl]

theorem canon_kWrite (hs : Canon s) {c : View} {ks : List Nat} {mine : Bool} {f : Team → Team} {s' : State}
    (hr : s.kWrite c ks mine f = .ok s') : Canon s' := by
  unfold State.kWrite at hr
  dsimp only at hr
  split at hr
  · exact absurd hr (by simp [throw, throwThe, MonadExceptOf.throw])
  · cases hr; exact canon_modTeam (canon_kObserve hs _ _) _ _

theorem canon_rejoinRelease (hs : Canon s) (team n j : Nat) : Canon (s.rejoinRelease team n j) := by
  unfold State.rejoinRelease
  grind [canon_fresh, canon_modTeam, canon_foldl]

theorem canon_orphanCheck (hs : Canon s) (team n : Nat) : Canon (s.orphanCheck team n) := by
  unfold State.orphanCheck
  grind [canon_deliver, canon_modTeam, canon_foldl, canon_foldl_fst]

theorem canon_goOn (hs : Canon s) (team : Nat) (ns : List Nat) (next : Nat) : Canon (s.goOn team ns next) := by
  unfold State.goOn
  grind [canon_modThread, canon_foldl]

theorem canon_deliverAll (hs : Canon s) (team : Nat) (ns : List Nat) (f : Trap) (next : Nat) :
    Canon (s.deliverAll team ns f next) := by
  unfold State.deliverAll
  grind [canon_deliver, canon_foldl]

theorem canon_sieve (hs : Canon s) {team : Nat} {ns : List Nat} {f : State → View → Lane (State × Nat)}
    (hf : ∀ s c r, Canon s → f s c = .ok r → Canon r.1) : Canon (s.sieve team ns f).1 := by
  refine canon_foldl_fst hs fun q n hq => ?_
  split
  · exact hq
  · split
    · next h => exact hf _ _ _ hq h
    · exact hq
    · exact canon_modThread hq _ _

theorem canon_deliverEach (hs : Canon s) (team : Nat) (ns : List Nat) (faults : List (Nat × Trap)) (next : Nat) :
    Canon (s.deliverEach team ns faults next) := by
  unfold State.deliverEach
  grind [canon_deliver, canon_foldl, canon_foldl_fst]

theorem canon_jform (hs : Canon s) (team j mask next : Nat) (ns : List Nat) (v : Sieved) :
    Canon (s.jform team j mask next ns v) := by
  unfold State.jform
  grind [canon_deliverEach, canon_goOn, canon_modTeam]

theorem canon_jwait (hs : Canon s) (team j next : Nat) (ns : List Nat) : Canon (s.jwait team j next ns) := by
  unfold State.jwait
  grind [canon_deliverAll, canon_modTeam, canon_modThread, canon_orphanCheck, canon_rejoinRelease, canon_foldl,
    canon_foldl_fst]

theorem canon_leaveSets (hs : Canon s) (team n : Nat) : Canon (s.leaveSets team n) := by
  unfold State.leaveSets
  grind [canon_modTeam, canon_rejoinRelease, canon_foldl]

theorem canon_directLane (hs : Canon s) {off : BitVec 22} {link : Option Nat} {next : Nat} {c : View} {r : State × Nat}
    (hr : directLane off link next s c = .ok r) : Canon r.1 := by
  unfold directLane at hr
  simp only [bind, Except.bind, pure, Except.pure] at hr
  grind [canon_claimRegs, canon_modThread]

theorem canon_indirectLane (hs : Canon s) {o : XOp} {x : XForm} {link : Option Nat} {next : Nat} {c : View}
    {r : State × Nat} (hr : indirectLane o x link next s c = .ok r) : Canon r.1 := by
  obtain ⟨-, -, hr⟩ := except_bind_eq_ok hr
  obtain ⟨r, -, hr⟩ := except_bind_eq_ok hr
  obtain ⟨s₁, h₁, hr⟩ := except_bind_eq_ok hr
  cases hr
  have := canon_claimRegs hs _ _ _ h₁
  cases link with
  | none => exact this
  | some d => exact canon_modThread this _ _

theorem canon_barLane (hs : Canon s) {o : XOp} {x : XForm} {next : Nat} {c : View} {r : State × Nat}
    (hr : barLane o x next s c = .ok r) : Canon r.1 := by
  obtain ⟨-, -, hr⟩ := except_bind_eq_ok hr
  obtain ⟨r, -, hr⟩ := except_bind_eq_ok hr
  obtain ⟨s₁, h₁, hr⟩ := except_bind_eq_ok hr
  have := canon_claimRegs hs _ _ _ h₁
  simp only [bind, Except.bind, pure, Except.pure, throw, throwThe, MonadExceptOf.throw] at hr
  grind [canon_modThread, canon_modTeam]

theorem canon_reach (hs : Canon s) (c : View) (acc : Nat) (check : State → MemReq → Loc → Option Trap) (r : MemReq) :
    Canon (s.reach c acc check r).1 := by
  unfold State.reach
  grind [canon_translate]

theorem canon_reachAll (hs : Canon s) (team : Nat) (ns : List Nat) (g : Option (BitVec 4)) (acc : Nat) (check : State
    → MemReq → Loc → Option Trap) (f : State → View → Lane MemReq) :
    Canon (s.reachAll team ns g acc check f).1 := by
  unfold State.reachAll
  grind [canon_reach, canon_foldl, canon_foldl_fst]

theorem canon_startAccess (hs : Canon s) (kind : AccKind) (hint scope team next : Nat) (go : List (Nat × MemReq ×
    Loc)) (skip : List Nat) :
    Canon (startAccess kind hint scope s team next go skip).1 := by
  unfold startAccess
  grind [canon_startOp]

theorem canon_wordOf (hs : Canon s) {o : XOp} {x : XForm} {c : View} {wb : Nat} {dsts : List Nat} {whole : Bool}
    {r : State × OpRegs × Nat × Nat} (hr : s.wordOf o x c wb dsts whole = .ok r) : Canon r.1 := by
  obtain ⟨-, -, hr⟩ := except_bind_eq_ok hr
  obtain ⟨r, -, hr⟩ := except_bind_eq_ok hr
  obtain ⟨s₁, h₁, hr⟩ := except_bind_eq_ok hr
  obtain ⟨p, -, hr⟩ := except_bind_eq_ok hr
  obtain ⟨-, -, hr⟩ := except_bind_eq_ok hr
  cases hr
  exact canon_claimRegs hs _ _ _ h₁

theorem canon_awaitWord (hs : Canon s) (k : Nat) (w : WordWait) : Canon (s.awaitWord k w) := hs

theorem canon_install (hs : Canon s) (w : WaitEntry) (next : Nat) : Canon (s.install w next) := by
  unfold State.install
  grind [canon_fresh, canon_modThread, canon_request]

theorem canon_allReady (hs : Canon s) (lns : List Nat) : Canon (s.allReady lns).1 := by
  unfold State.allReady
  grind [canon_waitReady, canon_foldl, canon_foldl_fst]

theorem canon_fenceSys (hs : Canon s) (i : Tid) (next : Nat) : Canon (s.fenceSys i next) := by
  unfold State.fenceSys
  grind [canon_deliver, canon_modThread]

theorem canon_dropCode (hs : Canon s) : Canon s.dropCode := hs

theorem canon_fenceDone (hs : Canon s) (i : Tid) : Canon (s.fenceDone i) := by
  unfold State.fenceDone
  grind [canon_dropCode, canon_fenceSys, canon_modThread]

end Sys2Proof.Proofs.Canonical

/-! O59, 4: barrier objects, cards and engine jobs keep the canonical form. -/

namespace Sys2Proof.Proofs.Canonical
open Sys2Proof Sys2Proof.Machine

variable {s : State}

theorem canon_putObj (hs : Canon s) (k off : Nat) (o : Obj) : Canon (s.putObj k off o) := hs

theorem canon_objRelease (hs : Canon s) (i : Tid) (time : Nat) : Canon (s.objRelease i time) := by
  unfold State.objRelease
  grind [canon_modThread, canon_raise]

theorem canon_checkFlip (hs : Canon s) (k off : Nat) : Canon (s.checkFlip k off) := by
  unfold State.checkFlip
  grind [canon_modForme, canon_objRelease, canon_putObj, canon_foldl]

theorem canon_objNote (hs : Canon s) (k off time : Nat) : Canon (s.objNote k off time) := hs

theorem canon_setFaulted (hs : Canon s) (k off : Nat) : Canon (s.setFaulted k off) := by
  unfold State.setFaulted
  grind [canon_countError, canon_putObj]

theorem canon_objFault (hs : Canon s) (k off cause : Nat) : Canon (s.objFault k off cause) := by
  unfold State.objFault
  grind [canon_deliver, canon_modForme, canon_modThread, canon_setFaulted, canon_foldl]

theorem canon_agentArrive (hs : Canon s) (k off time : Nat) : Canon (s.agentArrive k off time) := by
  unfold State.agentArrive
  grind [canon_checkFlip, canon_countError, canon_objFault, canon_objNote, canon_putObj]

theorem canon_objLine (hs : Canon s) (k off n time : Nat) : Canon (s.objLine k off n time).1 := by
  unfold State.objLine
  grind [canon_checkFlip, canon_objNote, canon_putObj]

theorem canon_boLane (hs : Canon s) {o : XOp} {x : XForm} {wb wc : Nat} {dsts : List Nat} {writes : Bool}
    {act : State → View → Nat → Nat → Nat → Nat → Nat → Nat → Lane (State × Nat)} {next : Nat} {c : View} {r : State × Nat}
    (hact : ∀ s k off va b d r, Canon s → act s c k off va b d next = .ok r → Canon r.1)
    (hr : boLane o x wb wc dsts writes act next s c = .ok r) : Canon r.1 := by
  obtain ⟨-, -, hr⟩ := except_bind_eq_ok hr
  obtain ⟨r, -, hr⟩ := except_bind_eq_ok hr
  obtain ⟨s₁, h₁, hr⟩ := except_bind_eq_ok hr
  have := canon_claimRegs hs _ _ _ h₁
  obtain ⟨p, -, hr⟩ := except_bind_eq_ok hr
  obtain ⟨-, -, hr⟩ := except_bind_eq_ok hr
  simp only [bind, Except.bind, throw, throwThe, MonadExceptOf.throw] at hr
  grind [canon_raise, canon_modForme]

theorem canon_issueJob (hs : Canon s) (c : View) (core : Nat) (k : JobKind) (card : List Nat) (obj : Option (Nat ×
    Nat)) (dreg : Nat) :
    Canon (s.issueJob c core k card obj dreg) := by
  unfold State.issueJob
  grind [Canon, canon_freshKey, canon_lineAbsent, canon_modThread, canon_foldl]

theorem canon_failJob (hs : Canon s) (key : Nat) (t : Trap) : Canon (s.failJob key t) := hs

theorem canon_spoil (hs : Canon s) (key : Nat) (j : Job) (status : Nat) : Canon (s.spoil key j status) := by
  unfold State.spoil
  grind [canon_deliverFaults, canon_modForme, canon_setFaulted, canon_foldl, canon_foldl_fst]

theorem canon_abortJob (hs : Canon s) (j : Job) : Canon (s.abortJob j) := hs

theorem canon_futureSeen (hs : Canon s) (key time : Nat) : Canon (s.futureSeen key time) := by
  unfold State.futureSeen
  grind [canon_raise, canon_foldl]

theorem canon_endJob (hs : Canon s) (key : Nat) (j : Job) : Canon (s.endJob key j) := by
  unfold State.endJob
  grind [Canon, canon_abortJob, canon_drainFault, canon_futureSeen, canon_raise, canon_spoil, canon_stirLaunch]

theorem canon_endIfDone (hs : Canon s) (key : Nat) : Canon (s.endIfDone key) := by
  unfold State.endIfDone
  grind [canon_endJob]

theorem canon_jobLane (hs : Canon s) {o : XOp} {x : XForm} {k : JobKind} {next : Nat} {c : View} {r : State × Nat}
    (hr : jobLane o x k next s c = .ok r) : Canon r.1 := by
  obtain ⟨-, -, hr⟩ := except_bind_eq_ok hr
  obtain ⟨n, -, hr⟩ := except_bind_eq_ok hr
  obtain ⟨s₁, h₁, hr⟩ := except_bind_eq_ok hr
  have := canon_claimRegs hs _ _ _ h₁
  obtain ⟨-, -, hr⟩ := except_bind_eq_ok hr
  simp only [bind, Except.bind, pure, Except.pure, throw, throwThe, MonadExceptOf.throw] at hr
  grind [canon_issueJob, canon_endIfDone]

theorem canon_cancelJob (hs : Canon s) (key : Nat) : Canon (s.cancelJob key) := hs

/-- Every state that a try of a line leaves is in canonical form. -/
def LineKept {α : Type} : LineTry (State × α) → Prop
  | .ok r => Canon r.1
  | .fault _ => True
  | .hold s => Canon s

theorem lineKept_ok {α : Type} (r : State × α) : LineKept (.ok r) ↔ Canon r.1 := Iff.rfl
theorem lineKept_fault {α : Type} (t : Trap) : LineKept (.fault t : LineTry (State × α)) := trivial
theorem lineKept_hold {α : Type} (s : State) : LineKept (.hold s : LineTry (State × α)) ↔ Canon s := Iff.rfl

theorem kept_lineSite (hs : Canon s) (key : Nat) (j : Job) (va acc : Nat) : LineKept (s.lineSite key j va acc) := by
  unfold State.lineSite
  grind [Canon, lineKept_ok, lineKept_hold, lineKept_fault, canon_translate]

theorem kept_readLine (hs : Canon s) (j : Job) (va : Nat) (l : Loc) : LineKept (s.readLine j va l) := by
  unfold State.readLine
  grind [canon_homeReady, canon_homeLoad, canon_modForme, canon_platenLoad, canon_touchHome, lineKept_ok, lineKept_hold,
    lineKept_fault]

/-- Pieces written to device memory keep the form. -/
theorem canon_writePieces (hs : Canon s) (base : Nat) (ps : List (Nat × Nat × Nat)) :
    Canon { s with hbm := ps.foldl (fun m p => writeBytes m (base + p.1) (p.2.1 - p.1) p.2.2) s.hbm } :=
  ⟨foldl_writeBytes_wf (fun p : Nat × Nat × Nat => (base + p.1, p.2.1 - p.1, p.2.2)) ps _ hs.1, hs.2⟩

theorem kept_writeLine (hs : Canon s) (key : Nat) (j : Job) (va : Nat) (l : Loc) (ps : List (Nat × Nat × Nat)) :
    LineKept (s.writeLine key j va l ps) := by
  unfold State.writeLine
  split
  case h_4 pa =>
    dsimp only
    split
    · exact hs
    split
    · exact lineKept_fault _
    · exact canon_writePieces (canon_platenStamp (canon_putMarks hs _ _) _ _ _) _ _
  all_goals grind [Canon, canon_homeReady, canon_homeStore, canon_linePresent, canon_modForme, canon_touchHome,
    lineKept_ok, lineKept_hold, lineKept_fault]

theorem canon_sendGroups (hs : Canon s) (key n : Nat) : Canon (s.sendGroups key n) := by
  induction n generalizing s with
  | zero => exact hs
  | succ n ih =>
    unfold State.sendGroups
    split
    · exact hs
    split
    · exact hs
    split
    · exact canon_failJob hs _ _
    · exact ih hs

theorem kept_pushDests (hs : Canon s) (key : Nat) (j : Job) (elems : List Nat) :
    LineKept (s.pushDests key j elems) := by
  unfold State.pushDests
  refine List.foldlRecOn (motive := LineKept) _ _ hs fun acc h e _ => ?_
  grind [lineKept_ok, lineKept_hold, lineKept_fault, kept_lineSite]

theorem canon_pushGroup (hs : Canon s) (key : Nat) (j : Job) : Canon (s.pushGroup key j) := by
  unfold State.pushGroup
  grind [Canon, canon_failJob, canon_fresh, kept_pushDests, lineKept_ok, lineKept_hold]

theorem canon_overrun (hs : Canon s) (key k off : Nat) : Canon (s.overrun key k off) := hs

end Sys2Proof.Proofs.Canonical

/-! O59, 5: the array, the ends of threads, calls and the fabric keep the canonical form. -/

namespace Sys2Proof.Proofs.Canonical
open Sys2Proof Sys2Proof.Machine

variable {s : State}

theorem canon_grantSlug (hs : Canon s) {core part : Nat} {s' : State} (hr : s.grantSlug core part = some s') :
    Canon s' := by
  unfold State.grantSlug at hr
  split at hr
  · split at hr
    · exact absurd hr (by simp)
    · dsimp only at hr
      split at hr
      · cases hr; exact hs
      · exact absurd hr (by simp)
  · exact absurd hr (by simp)

theorem canon_refuseSlugs (hs : Canon s) (core part n : Nat) : Canon (s.refuseSlugs core part n) := by
  induction n generalizing s with
  | zero => exact hs
  | succ n ih =>
    unfold State.refuseSlugs
    grind [canon_modTeam]

theorem canon_settleSlugs (hs : Canon s) (core part : Nat) (asked : Bool) (n : Nat) :
    Canon (s.settleSlugs core part asked n) := by
  induction n generalizing s asked with
  | zero => exact hs
  | succ n ih =>
    unfold State.settleSlugs
    grind [canon_grantSlug, canon_refuseSlugs]

theorem canon_moveSlug (hs : Canon s) (core k key key' : Nat) : Canon (s.moveSlug core k key key') := hs

theorem canon_reapSlugs (hs : Canon s) (core k : Nat) : Canon (s.reapSlugs core k) := by
  unfold State.reapSlugs
  grind [canon_modTeam, canon_settleSlugs, canon_foldl]

theorem canon_freeSlug (hs : Canon s) (core k key : Nat) : Canon (s.freeSlug core k key) := by
  unfold State.freeSlug
  grind [canon_fresh, canon_modTeam, canon_moveSlug]

theorem canon_linkCheck (hs : Canon s) (t : Team) (x : XForm) (fk off : Nat) {s' : State} (hr : s.linkCheck t x fk off
    = .ok s') :
    Canon s' := by
  unfold State.linkCheck at hr
  simp only [bind, Except.bind, pure, Except.pure] at hr
  grind [canon_modForme, canon_raise]

theorem canon_linkArrive (hs : Canon s) (clock : Nat) (arr : Option (Nat × Nat)) : Canon (s.linkArrive clock arr) := by
  unfold State.linkArrive
  grind [canon_agentArrive, canon_modForme, canon_raise]

theorem canon_holdAll (hs : Canon s) (team : Nat) (ns : List Nat) (w : Wait) (linked : Option (Nat × Nat × Bool)) :
    Canon (s.holdAll team ns w linked) := by
  unfold State.holdAll
  grind [canon_modThread, canon_foldl]

theorem canon_pastLink (hs : Canon s) (team : Nat) (ns : List Nat) (next : Nat) : Canon (s.pastLink team ns next) := by
  unfold State.pastLink
  grind [canon_modThread, canon_foldl]

theorem canon_offUnit (hs : Canon s) (t : Team) (ig : IssueGroup) (halves : Bool) (w0 next : Nat) {s' : State} (hr :
    s.offUnit t ig halves w0 next = some s') :
    Canon s' := by
  unfold State.offUnit at hr
  grind [canon_deliverAll]

theorem canon_pushOp (hs : Canon s) (core part : Nat) (m : MatrixOp) : Canon (s.pushOp core part m) := hs

theorem canon_queueMma (hs : Canon s) (u : SlugUse) (x : XForm) (kept : Nat) : Canon (s.queueMma u x kept) := by
  unfold State.queueMma
  grind [canon_holdAll, canon_pastLink, canon_pushOp]

theorem canon_quadMismatch (hs : Canon s) (k g : Nat) : Canon (s.quadMismatch k g) := by
  unfold State.quadMismatch
  grind [canon_deliver, canon_modTeam, canon_modThread, canon_reapSlugs, canon_foldl]

theorem canon_quadUnsound (hs : Canon s) (k m : Nat) (bad : List (Nat × Nat)) : Canon (s.quadUnsound k m bad) := by
  unfold State.quadUnsound
  grind [canon_deliver, canon_modTeam, canon_modThread, canon_reapSlugs, canon_foldl]

theorem canon_quadMeet (hs : Canon s) (k g : Nat) : Canon (s.quadMeet k g) := by
  unfold State.quadMeet
  grind [canon_modTeam, canon_modThread, canon_pushOp, canon_quadMismatch, canon_quadUnsound, canon_foldl,
    canon_foldl_fst]

theorem canon_quadArrive (hs : Canon s) (u : SlugUse) (x : XForm) (kept : Nat) : Canon (s.quadArrive u x kept) := by
  unfold State.quadArrive
  grind [canon_deliverAll, canon_holdAll, canon_modTeam, canon_quadMeet]

theorem canon_quadLost (hs : Canon s) (k g : Nat) : Canon (s.quadLost k g) := by
  unfold State.quadLost
  grind [canon_quadMismatch]

theorem canon_slugSound (hs : Canon s) {u : SlugUse} {act : State → SlugUse → State}
    (hact : ∀ s u, Canon s → Canon (act s u)) : Canon (s.slugSound u act) := by
  unfold State.slugSound
  grind [canon_deliverAll]

theorem canon_slugAccess (hs : Canon s) {u : SlugUse} {f : Tab Word → SlugUse → State → State}
    (hf : ∀ w u s, Canon s → Canon (f w u s)) : Canon (slugAccess f s u) := by
  unfold slugAccess
  grind [canon_holdAll, canon_pastLink, canon_linkArrive, canon_foldl]

theorem canon_slugReadTo (hs : Canon s) {dsts : List Nat} {u : SlugUse} {f : Tab Word → SlugUse → State → State}
    (hf : ∀ w u s, Canon s → Canon (f w u s)) : Canon (slugReadTo dsts f s u) := by
  unfold slugReadTo
  split
  · exact canon_slugAccess (canon_noteIssued hs _ _ _) hf
  · exact canon_slugSound hs fun _ _ h => canon_slugAccess h hf

theorem canon_putSlug (hs : Canon s) (k key : Nat) (w : Tab Word) : Canon (s.putSlug k key w) := hs

theorem canon_healSlug (hs : Canon s) (u : SlugUse) (words : List Nat) : Canon (s.healSlug u words) := hs

theorem canon_answerAll (hs : Canon s) (team : Nat) (ns : List Nat) (p next : Nat) (ok : Bool) :
    Canon (s.answerAll team ns p next ok) := by
  unfold State.answerAll
  grind [canon_modThread, canon_foldl]

theorem canon_wakeArray (hs : Canon s) (core part : Nat) : Canon (s.wakeArray core part) := hs

theorem canon_applyOp (hs : Canon s) (core part : Nat) (m : MatrixOp) : Canon (s.applyOp core part m) := by
  unfold State.applyOp
  grind [canon_modTeam, canon_putSlug, canon_settleSlugs, canon_foldl]

theorem canon_completeOp (hs : Canon s) {core part : Nat} {s' : State} (hr : s.completeOp core part = some s') :
    Canon s' := by
  unfold State.completeOp at hr
  grind [Canon, canon_applyOp, canon_linkArrive, canon_settleSlugs, canon_wakeArray, canon_quadMeet, canon_foldl]

theorem canon_endThread (hs : Canon s) (i : Tid) : Canon (s.endThread i) := by
  unfold State.endThread
  grind [canon_leaveSets, canon_modThread]

theorem canon_releaseGroup (hs : Canon s) (k g : Nat) : Canon (s.releaseGroup k g) := by
  unfold State.releaseGroup
  grind [canon_modGroup, canon_settleClaims]

theorem canon_nearDone (hs : Canon s) (k : Nat) : Canon (s.nearDone k) := by
  unfold State.nearDone
  grind [Canon]

theorem canon_afterEnd (hs : Canon s) (k : Nat) (ns : List Nat) : Canon (s.afterEnd k ns) := by
  unfold State.afterEnd
  grind [canon_nearDone, canon_orphanCheck, canon_quadLost, canon_releaseGroup, canon_foldl]

theorem canon_exitThreads (hs : Canon s) (k : Nat) (ns : List Nat) : Canon (s.exitThreads k ns) := by
  unfold State.exitThreads
  grind [canon_afterEnd, canon_endThread, canon_foldl]

theorem canon_modCore (hs : Canon s) (c : Nat) (f : Core → Core) : Canon (s.modCore c f) := hs

theorem canon_callAddr (hs : Canon s) (c : View) (i va : Nat) : Canon (s.callAddr c i va).1 := by
  unfold State.callAddr
  grind [canon_translate]

theorem canon_callSites (hs : Canon s) (c : View) (card : List Nat) : Canon (s.callSites c card).1 := by
  unfold State.callSites
  grind [canon_callAddr, canon_foldl, canon_foldl_fst]

theorem canon_sendCall (hs : Canon s) (c : View) (card args : List Nat) (obj : Nat × Nat) (lines : List (Nat × Nat))
    (next : Nat) :
    Canon (s.sendCall c card args obj lines next) := by
  unfold State.sendCall
  grind [canon_freshKey, canon_modPlaten, canon_modThread]

theorem canon_modCall (hs : Canon s) (stack call : Nat) (f : Call → Call) : Canon (s.modCall stack call f) := hs

theorem canon_flushRange (hs : Canon s) (stack : Nat) (c : Call) : Canon (s.flushRange stack c).1 := by
  unfold State.flushRange
  grind [canon_homeReady, canon_putLineAt, canon_writeBack, canon_foldl, canon_foldl_fst]

theorem canon_placeNear (hs : Canon s) (stack call : Nat) (c : Call) (hdr : Nat) :
    Canon (s.placeNear stack call c hdr) := by
  unfold State.placeNear
  grind [canon_freshKey, canon_modCall, canon_setTeam]

/-- The function is unfolded with its translation abstract: the kernel would compute with the entry address. -/
theorem canon_readHeader (hs : Canon s) (stack call : Nat) (c : Call) : Canon (s.readHeader stack call c) := by
  have htr := fun c va => canon_translate hs c va
  have hdef : @State.readHeader = @State.readHeader := rfl
  conv at hdef => rhs; delta State.readHeader
  generalize @State.translate = site at hdef htr
  rw [hdef]
  beta_reduce
  obtain ⟨va, hva⟩ : ∃ va, va = Bits.ofInt 64 ((callEntry c.card : Int) - 16) := ⟨_, rfl⟩
  rw [← hva]
  have h := htr (callAsker stack call c) va
  generalize site s (callAsker stack call c) va = p at h ⊢
  rcases p with ⟨s₁, x⟩
  grind [canon_callFault, canon_modCall]

theorem canon_dropWaits (hs : Canon s) (k : Nat) : Canon (s.dropWaits k) := hs

theorem canon_sendAnswer (hs : Canon s) (tag : Nat) (r : PeerReply) : Canon (s.sendAnswer tag r) := hs

theorem canon_ackPacket (hs : Canon s) (p : Packet) : Canon (s.ackPacket p) := by
  unfold State.ackPacket
  grind [canon_sendAnswer]

theorem canon_dropPacket (hs : Canon s) (array : Nat) : Canon (s.dropPacket array) := hs

theorem canon_dropTimes (hs : Canon s) (stack ln : Nat) : Canon (s.dropTimes stack ln) := hs

theorem canon_logRefused (hs : Canon s) : Canon s.logRefused := hs

theorem canon_answerPeer (hs : Canon s) (req : PeerRequest) (r : PeerReply) : Canon (s.answerPeer req r) := by
  unfold State.answerPeer
  grind [canon_sendAnswer]

theorem canon_refusePeer (hs : Canon s) (req : PeerRequest) (r : PeerReply) : Canon (s.refusePeer req r) := by
  unfold State.refusePeer
  grind [canon_answerPeer, canon_logRefused]

theorem canon_peerHome (hs : Canon s) (req : PeerRequest) : Canon (s.peerHome req).1 := by
  unfold State.peerHome
  grind [canon_answerPeer, canon_homeLoad, canon_homeReady, canon_homeStore, canon_raise, canon_refusePeer]

theorem canon_peerPlaten (hs : Canon s) (req : PeerRequest) : Canon (s.peerPlaten req) := by
  unfold State.peerPlaten
  grind [canon_healMem, canon_answerPeer, canon_raise, canon_platenStamp, canon_platenLoad, canon_refusePeer,
    canon_writeHbm]

theorem canon_takePeer (hs : Canon s) (req : PeerRequest) (kind : Nat) : Canon (s.takePeer req kind).1 := by
  unfold State.takePeer
  grind [Canon, canon_modPlaten, canon_peerHome, canon_peerPlaten, canon_refusePeer, canon_settle]

theorem canon_takePeers (hs : Canon s) : Canon s.takePeers := by
  unfold State.takePeers
  grind [Canon, canon_takePeer, canon_foldl, canon_foldl_fst]

theorem canon_peerDone (hs : Canon s) (tag : Nat) (o : PeerOut) : Canon (s.peerDone tag o) := by
  unfold State.peerDone
  grind [Canon, canon_fenceDone, canon_modThread]

theorem canon_replied (hs : Canon s) (op tag : Nat) : Canon (s.replied op tag) := hs

theorem canon_peerValue (hs : Canon s) (tag : Nat) (o : PeerOut) (op : Nat) (a : Access) (v : Nat) :
    Canon (s.peerValue tag o op a v) := by
  unfold State.peerValue
  grind [canon_finishOp, canon_modThread, canon_peerDone, canon_replied]

theorem canon_peerFault (hs : Canon s) (tag : Nat) (o : PeerOut) (op : Nat) (f : Trap) :
    Canon (s.peerFault tag o op f).1 := by
  unfold State.peerFault
  grind [canon_dropLane, canon_finishOp, canon_peerDone, canon_replied]

theorem canon_peerFaults (hs : Canon s) (tag : Nat) (o : PeerOut) (op : Nat) (f : Trap) :
    Canon (s.peerFaults tag o op f) := by
  unfold State.peerFaults
  grind [canon_deliverFaults, canon_peerFault]

theorem canon_countLost (hs : Canon s) (o : PeerOut) : Canon (s.countLost o) := by
  unfold State.countLost
  grind [Canon, canon_modThread]

theorem canon_loseAccess (hs : Canon s) (tag : Nat) (o : PeerOut) : Canon (s.loseAccess tag o).1 := by
  unfold State.loseAccess
  grind [canon_drainFault, canon_peerDone, canon_peerFault]

theorem canon_downPlane (hs : Canon s) (port : Nat) : Canon (s.downPlane port) := by
  unfold State.downPlane
  grind [Canon, canon_countLost, canon_deliverFaults, canon_failJob, canon_loseAccess, canon_foldl, canon_foldl_fst]

theorem canon_writeCgrptab (hs : Canon s) (group v : Nat) : Canon (s.writeCgrptab group v) := by
  unfold State.writeCgrptab
  grind [Canon, canon_setReg]

end Sys2Proof.Proofs.Canonical

/-! O59, 6: imprints, launches and tasks keep the canonical form. -/

namespace Sys2Proof.Proofs.Canonical
open Sys2Proof Sys2Proof.Machine

variable {s : State}

theorem canon_lowerInput (hs : Canon s) (ctx : Nat) (ran : Bool) (i : Input) : Canon (s.lowerInput ctx ran i) := by
  unfold State.lowerInput
  grind [Canon]

theorem canon_lowerCluster (hs : Canon s) (l : Launch) (index : Nat) : Canon (s.lowerCluster l index) := by
  unfold State.lowerCluster
  grind [canon_lowerInput, canon_foldl]

theorem canon_wakeImprints (hs : Canon s) : Canon s.wakeImprints := by
  unfold State.wakeImprints
  grind [canon_modThread, canon_raise, canon_foldl]

theorem canon_refuseStale (hs : Canon s) (key index : Nat) : Canon (s.refuseStale key index) := by
  unfold State.refuseStale
  grind [Canon, canon_hostEvent, canon_noteFault, canon_foldl]

theorem canon_staleScan (hs : Canon s) : Canon s.staleScan := by
  unfold State.staleScan
  grind [canon_refuseStale, canon_foldl]

theorem canon_imprintsChanged (hs : Canon s) : Canon s.imprintsChanged := by
  unfold State.imprintsChanged
  grind [canon_staleScan, canon_wakeImprints]

theorem canon_post (hs : Canon s) {c : View} {tile w0 : Nat} {r : State × Bool} (hr : s.post c tile w0 = .ok r) :
    Canon r.1 := by
  unfold State.post at hr
  grind [Canon, canon_imprintsChanged]

theorem canon_retireImprint (hs : Canon s) (k : Nat) (e : Imprint) : Canon (s.retireImprint k e) := hs

theorem canon_bindTile (hs : Canon s) (die ctx r id : Nat) (tile : Nat × Nat) :
    Canon (s.bindTile die ctx r id tile) := by
  unfold State.bindTile
  grind [Canon]

theorem canon_bindSpace (hs : Canon s) (ctx r id : Nat) {s' : State} (hr : s.bindSpace ctx r id = some s') :
    Canon s' := by
  unfold State.bindSpace at hr
  grind [canon_bindTile, canon_foldl]

theorem canon_fetchRead (hs : Canon s) (va : Nat) (l : Loc) (n : Nat) : Canon (s.fetchRead va l n).1 := by
  unfold State.fetchRead
  grind [canon_draw]

theorem canon_fetchSite (hs : Canon s) (cluster : Option Nat) (a : Asker) (va : Nat) :
    Canon (s.fetchSite cluster a va).1 := by
  unfold State.fetchSite
  grind [canon_translate]

theorem canon_descriptor (hs : Canon s) (cluster : Option Nat) (a : Asker) (entry : Nat) :
    Canon (s.descriptor cluster a entry).1 := by
  unfold State.descriptor
  grind [canon_fetchRead, canon_fetchSite]

/-- The function is unfolded with its reads abstract: the kernel would compute with the record. -/
theorem canon_readHostRecord (hs : Canon s) (pa : Nat) : Canon (s.readHostRecord pa).1 := by
  have hready := fun s hs ln w => @canon_homeReady s hs ln w
  have hload := fun s hs ln t l => @canon_homeLoad s hs ln t l
  have hdef : @State.readHostRecord = @State.readHostRecord := rfl
  conv at hdef => rhs; delta State.readHostRecord
  generalize @State.homeReady = ready at hdef hready
  generalize @State.homeLoad = load at hdef hload
  generalize @Bits.field = field at hdef
  rw [hdef]
  beta_reduce
  grind [canon_raise, canon_logLine, canon_foldl_fst]

theorem canon_headRecord (hs : Canon s) (q : Nat) : Canon (s.headRecord q).1 := by
  unfold State.headRecord
  grind [canon_readHostRecord]

theorem canon_endHeadRead (hs : Canon s) (q : Nat) : Canon (s.endHeadRead q) := hs

theorem canon_passHead (hs : Canon s) (q : Nat) : Canon (s.passHead q) := by
  unfold State.passHead
  grind [Canon, canon_endHeadRead, canon_setRegField]

theorem canon_compReady (hs : Canon s) (q : Nat) (comp : Option Nat) : Canon (s.compReady q comp).1 := by
  unfold State.compReady
  grind [canon_homeReady]

theorem canon_entryStore (hs : Canon s) (pa time v : Nat) : Canon (s.entryStore pa time v) := by
  unfold State.entryStore
  grind [canon_countError, canon_homeStore]

theorem canon_writeEntry (hs : Canon s) (q index : Nat) (comp : Option Nat) (time v : Nat) :
    Canon (s.writeEntry q index comp time v) := by
  unfold State.writeEntry
  grind [Canon, canon_entryStore, canon_writeHost]

theorem canon_checkRecord (hs : Canon s) (q : Nat) (d : DevRecord) : Canon (s.checkRecord q d).1 := by
  unfold State.checkRecord
  grind [Canon, canon_descriptor]

theorem canon_reserve (hs : Canon s) (ctx r id : Nat) {out} (hr : s.reserve ctx r id = some out) : Canon out.1 := by
  unfold State.reserve at hr
  grind [Canon, canon_bindSpace]

theorem canon_admitHead (hs : Canon s) {q : Nat} {d : DevRecord} {hdr : Nat} {s' : State}
    (hr : s.admitHead q d hdr = some s') : Canon s' := by
  unfold State.admitHead at hr
  dsimp only at hr
  split at hr
  · exact absurd hr (by simp)
  · next s₁ b he =>
    obtain ⟨hb, hh⟩ := canon_reserve hs _ _ _ he
    rw [← Option.some.inj hr]
    refine canon_staleScan ?_
    split
    · apply canon_writeEntry
      apply canon_passHead
      exact ⟨hb, hh⟩
    · apply canon_passHead
      exact ⟨hb, hh⟩

theorem canon_refuse (hs : Canon s) (q : Nat) (d : DevRecord) (reason : Nat) : Canon (s.refuse q d reason) := by
  unfold State.refuse
  grind [canon_passHead, canon_writeEntry]

theorem canon_consider (hs : Canon s) (tried : List Nat) (n : Nat) : Canon (s.consider tried n).1 := by
  induction n generalizing s tried with
  | zero => exact hs
  | succ n ih =>
    rw [LauncherRuns.consider_succ]
    split
    · exact hs
    next q _ =>
    have h := canon_headRecord hs q
    generalize s.headRecord q = p at h ⊢
    rcases p with ⟨s₁, _ | d⟩
    · exact h
    have h₁ := canon_compReady h q d.comp
    dsimp only at h₁ ⊢
    generalize s₁.compReady q d.comp = p at h₁ ⊢
    rcases p with ⟨s₂, _ | _⟩
    · exact h₁
    have h₂ := canon_checkRecord h₁ q d
    dsimp only at h₂ ⊢
    generalize s₂.checkRecord q d = p at h₂ ⊢
    rcases p with ⟨s₃, _ | _ | _⟩
    all_goals grind [canon_refuse, canon_admitHead]

theorem canon_packFormes (hs : Canon s) (core : Nat) : Canon (s.packFormes core) := hs

theorem canon_allot (hs : Canon s) (key core : Nat) (f : Forme) : Canon (s.allot key core f) := by
  unfold State.allot
  grind [Canon, canon_fitSlice, canon_packFormes]

theorem canon_seat (hs : Canon s) (core : Nat) (t : Team) (entry : Nat) (init : Nat → Tab Word) :
    Canon (s.seat core t entry init).1 := by
  unfold State.seat
  grind [canon_allot, canon_freshKey, canon_setTeam]

theorem canon_placeCluster (hs : Canon s) (key index : Nat) (l : Launch) (cores : List Nat) :
    Canon (s.placeCluster key index l cores) := by
  unfold State.placeCluster
  grind [Canon, canon_freshKey, canon_raise, canon_seat, canon_foldl, canon_foldl_fst]

theorem canon_teamLowers (hs : Canon s) (t : Team) (l : Launch) : Canon (s.teamLowers t l) := by
  unfold State.teamLowers
  grind [canon_lowerInput, canon_foldl]

theorem canon_retire (hs : Canon s) (k : Nat) (t : Team) : Canon (s.retire k t) := by
  refine canon_foldl ?_ fun s p h => canon_settleSlugs h _ _ _ _
  cases Tab.find t.launch s.launches with
  | none => exact hs
  | some l => exact canon_teamLowers hs t l

theorem canon_completeLaunch (hs : Canon s) (key : Nat) (l : Launch) : Canon (s.completeLaunch key l) := by
  unfold State.completeLaunch
  grind [Canon, canon_imprintsChanged, canon_lowerCluster, canon_writeEntry, canon_foldl]

theorem canon_writeHqctl (hs : Canon s) (q v : Nat) : Canon (s.writeHqctl q v) := by
  unfold State.writeHqctl
  grind [canon_endHeadRead, canon_setReg, canon_setRegField]

theorem canon_doorbell (hs : Canon s) (q v : Nat) : Canon (s.doorbell q v) := by
  unfold State.doorbell
  grind [canon_setReg, canon_setRegField]

theorem canon_retireSaved (hs : Canon s) (key : Nat) (v : SavedTeam) : Canon (s.retireSaved key v) := by
  unfold State.retireSaved
  grind [Canon, canon_teamLowers]

theorem canon_discardSaved (hs : Canon s) (key : Nat) : Canon (s.discardSaved key) := by
  unfold State.discardSaved
  grind [Canon, canon_retireSaved, canon_foldl]

theorem canon_cancelLaunch (hs : Canon s) (key : Nat) : Canon (s.cancelLaunch key) := by
  unfold State.cancelLaunch
  grind [Canon, canon_discardSaved, canon_lowerCluster, canon_foldl]

theorem canon_flagCore (hs : Canon s) (key core : Nat) : Canon (s.flagCore key core) := by
  unfold State.flagCore
  grind [Canon, canon_modCore]

theorem canon_appendTask (hs : Canon s) (core k : Nat) (b : Bin) (t : Task) : Canon (s.appendTask core k b t) := hs

theorem canon_offer (hs : Canon s) {core launch entry depth : Nat} {t : Task} {read : State → State × DescRead}
    (hread : ∀ s, Canon s → Canon (read s).1) : Canon (s.offer core launch entry depth t read).1 := by
  have h := hread s hs
  unfold State.offer
  grind [canon_appendTask]

theorem canon_spawnLane (hs : Canon s) (c : View) (x : XForm) : Canon (s.spawnLane c x).1 := by
  unfold State.spawnLane
  grind [Canon, canon_descriptor, canon_modThread, canon_observe, canon_offer]

theorem canon_replayAll (hs : Canon s) (ig : IssueGroup) : Canon (s.replayAll ig) := by
  unfold State.replayAll
  grind [canon_modThread, canon_foldl]

theorem canon_placeChild (hs : Canon s) (core : Nat) (b : Bin) : Canon (s.placeChild core b) := by
  unfold State.placeChild
  grind [Canon, canon_freshKey, canon_raise, canon_seat, canon_foldl]

theorem canon_recordPieces (hs : Canon s) (c : View) (a : Nat) (q : LaunchReq) : Canon (s.recordPieces c a q).1 := by
  unfold State.recordPieces
  grind [canon_reach, canon_foldl, canon_foldl_fst]

theorem canon_launchLane (hs : Canon s) (c : View) (x : XForm) (held : Nat) : Canon (s.launchLane c x held).1 := by
  unfold State.launchLane
  grind [canon_reach, canon_recordPieces]

theorem canon_launchLanes (hs : Canon s) (ig : IssueGroup) (x : XForm) (q : Nat) : Canon (s.launchLanes ig x q).1 := by
  unfold State.launchLanes
  grind [canon_launchLane, canon_foldl, canon_foldl_fst]

end Sys2Proof.Proofs.Canonical

/-! O59, 7: save areas, pre-emption, time and the host's port keep the canonical form. -/

namespace Sys2Proof.Proofs.Canonical
open Sys2Proof Sys2Proof.Machine

variable {s : State}

theorem canon_logArea (hs : Canon s) (base bytes : Nat) : Canon (s.logArea base bytes) := by
  unfold State.logArea
  grind [canon_logLine, canon_foldl]

theorem canon_writeArea (hs : Canon s) (base bytes pts : Nat) (img : LineData) :
    Canon (s.writeArea base bytes pts img).1 := by
  unfold State.writeArea
  grind [canon_homeReady, canon_homeStore, canon_foldl, canon_foldl_fst]

theorem canon_settleCore (hs : Canon s) (core : Nat) : Canon (s.settleCore core) := by
  unfold State.settleCore
  grind [canon_reapSlugs, canon_settleClaims, canon_settleSlugs, canon_foldl]

theorem canon_unpark (hs : Canon s) (k : Nat) : Canon (s.unpark k) := hs

theorem canon_stopTeam (hs : Canon s) (k : Nat) : Canon (s.stopTeam k) := by
  unfold State.stopTeam
  grind [canon_modTeam, canon_rewindOps, canon_settleCore, canon_unpark]

/-- The place in the pool is kept abstract: the kernel would compute with it. -/
theorem canon_preemptCluster (hs : Canon s) (key : Nat) : Canon (s.preemptCluster key) := by
  unfold State.preemptCluster
  obtain ⟨place, hplace⟩ : ∃ f, f = @State.poolPlace := ⟨_, rfl⟩
  rw [← hplace]
  grind [Canon, canon_stopTeam, canon_foldl]

theorem canon_writePreempt (hs : Canon s) (v : Nat) : Canon (s.writePreempt v) := by
  unfold State.writePreempt
  grind [Canon, canon_preemptCluster, canon_setReg, canon_foldl]

theorem canon_releaseTeam (hs : Canon s) (v : SavedTeam) : Canon (s.releaseTeam v) := by
  obtain ⟨hb, hh⟩ := canon_dropWaits hs v.key
  unfold State.releaseTeam
  apply canon_settleCore
  exact ⟨hb, hh⟩

theorem canon_saveCluster (hs : Canon s) (key : Nat) (c : Cluster) (base size : Nat) :
    Canon (s.saveCluster key c base size) := by
  unfold State.saveCluster
  grind [Canon, canon_discardSaved, canon_releaseTeam, canon_writeArea, canon_foldl, canon_foldl_fst]

theorem canon_offerAll (hs : Canon s) {core k : Nat} {bs : List Bin} {read : Bin → State → State × DescRead}
    (hread : ∀ b s, Canon s → Canon (read b s).1) : Canon (s.offerAll core k bs read).1 := by
  refine canon_foldl_fst hs fun q b hq => ?_
  split
  · exact hq
  · next t _ _ =>
    have h := canon_offer hq (core := core) (launch := b.launch) (entry := b.entry) (depth := b.depth)
      (t := { t with team := k }) (hread b)
    split <;> simp_all

theorem canon_restoreRead (hs : Canon s) (cluster core : Nat) (b : Bin) : Canon (s.restoreRead cluster core b).1 := by
  unfold State.restoreRead
  grind [canon_descriptor]

theorem canon_restoreReads (hs : Canon s) (v : Saved) (cores : List Nat) : Canon (s.restoreReads v cores).1 := by
  unfold State.restoreReads
  grind [canon_restoreRead, canon_foldl, canon_foldl_fst]

theorem canon_restoreTeam (hs : Canon s) (cluster : Nat) (v : SavedTeam) (core : Nat) :
    Canon (s.restoreTeam cluster v core) := by
  unfold State.restoreTeam
  grind [canon_install, canon_offerAll, canon_restoreRead, canon_setTeam, canon_foldl]

theorem canon_restoreForme (hs : Canon s) (v : Saved) (images : List (SavedTeam × LineData)) (rank core : Nat) :
    Canon (s.restoreForme v images rank core) := by
  unfold State.restoreForme
  grind [canon_allot]

theorem canon_restoreCluster (hs : Canon s) (i : Nat) (v : Saved) (cores : List Nat) :
    Canon (s.restoreCluster i v cores) := by
  unfold State.restoreCluster
  grind [Canon, canon_endHeadRead, canon_logArea, canon_raise, canon_restoreForme, canon_restoreTeam, canon_foldl,
    canon_foldl_fst]

theorem canon_resume (hs : Canon s) (k : Nat) : Canon (s.resume k) := by
  unfold State.resume
  grind [canon_modTeam]

theorem canon_discardTeam (hs : Canon s) (k : Nat) : Canon (s.discardTeam k) := by
  unfold State.discardTeam
  grind [canon_dropWaits, canon_exitThreads, canon_modTeam, canon_settleCore]

theorem canon_teamctl (hs : Canon s) (op core part slot : Nat) : Canon (s.teamctl op core part slot) := by
  unfold State.teamctl
  grind [canon_discardTeam, canon_resume]

theorem canon_rebased (hs : Canon s) : Canon s.rebased := hs

/-- The function is unfolded with the line's address abstract: the kernel would compute with it. -/
theorem kept_execHostSnoop (hs : Canon s) (line : Nat) : Kept (execHostSnoop line s) := by
  have hsettle := fun s hs => @canon_settle s hs portHome 64
  have hdef : @execHostSnoop = @execHostSnoop := rfl
  conv at hdef => rhs; delta execHostSnoop
  generalize hostLineBase = base at hdef
  generalize @State.settle = settle at hdef hsettle
  rw [hdef]
  beta_reduce
  grind [Canon, kept_next, canon_writeBack, canon_recallNow, canon_raise, canon_modHome]

theorem canon_hostTakes (hs : Canon s) (line : Nat) : Canon (s.hostTakes line).1 := by
  unfold State.hostTakes
  grind [kept_execHostSnoop, kept_next]

theorem canon_hostStore (hs : Canon s) (pa : Nat) (bytes : List Byte) : Canon (s.hostStore pa bytes).1 := by
  unfold State.hostStore
  dsimp only
  have h : Canon ((hostLinesOf pa bytes.length).foldl (fun (acc : State × Bool) ln =>
      if acc.1.isResident (hostLineBase + ln) || Tab.has acc.1.port.store (hostLineBase + ln) then
        ((acc.1.hostTakes ln).1, acc.2 && (acc.1.hostTakes ln).2)
      else acc) (s, true)).1 :=
    canon_foldl_fst hs fun q ln hq => by grind [canon_hostTakes]
  split
  · exact ⟨h.1, hostBytes_wf _ _ _ h.2⟩
  · exact h

theorem canon_portWrites (hs : Canon s) (pa size : Nat) : Canon (s.portWrites pa size) := by
  unfold State.portWrites
  grind [canon_writeHost]

end Sys2Proof.Proofs.Canonical

/-! O59, 8: resets, power, readback, register writes and instruction fetch keep the canonical form. -/

namespace Sys2Proof.Proofs.Canonical
open Sys2Proof Sys2Proof.Machine

variable {s : State}

theorem canon_fillStore (hs : Canon s) (pick : Nat → Bool) : Canon (s.fillStore pick) := by
  unfold State.fillStore
  grind [Canon, canon_logLine, canon_foldl]

theorem canon_flushDevice (hs : Canon s) (pick : Nat → Bool) : Canon (s.flushDevice pick) := by
  unfold State.flushDevice
  grind [canon_writeBack, canon_foldl]

theorem canon_afterReset (hs : Canon s) (win : Tab DWord) {hbm : Memory} (hb : Memory.wf hbm = true) (bad : Tab Nat)
    (store : Tab LineData) : Canon (s.afterReset win hbm bad store) := ⟨hb, hs.2⟩

theorem canon_resetSteps (hs : Canon s) : Canon s.resetSteps := by
  unfold State.resetSteps
  grind [Canon, canon_fillStore, canon_flushDevice]

theorem canon_warmReset (hs : Canon s) : Canon s.warmReset := by
  obtain ⟨hb, hh⟩ := canon_afterReset hs s.keptWindow (canon_resetSteps hs).1 (memoryMarks s.resetSteps.bad)
    s.resetSteps.port.store
  exact ⟨hb, hh⟩

theorem canon_askReset (hs : Canon s) : Canon s.askReset := by
  unfold State.askReset
  grind [canon_warmReset]

theorem canon_setJunction (hs : Canon s) (die temp : Nat) : Canon (s.setJunction die temp) := hs

theorem canon_sense (hs : Canon s) (sensor temp : Nat) : Canon (s.sense sensor temp) := by
  unfold State.sense
  grind [canon_setJunction, canon_setRegField]

theorem canon_ungate (hs : Canon s) (die : Nat) : Canon (s.ungate die) := by
  have hpower : ∀ s : State, Canon s → Canon { s with powered := Tab.set true die true s.powered } :=
    fun _ h => ⟨h.1, h.2⟩
  refine hpower _ (canon_foldl (canon_foldl (canon_foldl hs ?_) ?_) ?_)
  · exact fun s k h => canon_raise h _ _
  · exact fun s i h => canon_modHome h _ _
  · exact fun s i h => canon_modPlaten h _ _

theorem canon_writePwrcfg (hs : Canon s) (v : Nat) : Canon (s.writePwrcfg v) := by
  unfold State.writePwrcfg
  grind [canon_setReg, canon_ungate, canon_foldl]

theorem canon_toStore (hs : Canon s) (ln : Nat) : Canon (s.toStore ln) := by
  unfold State.toStore
  grind [Canon, canon_logLine, canon_modHome, canon_raise, canon_recallNow]

theorem canon_gate (hs : Canon s) (die : Nat) : Canon (s.gate die) := by
  unfold State.gate
  grind [Canon, canon_flushDevice, canon_recallNow, canon_toStore, canon_foldl, canon_foldl_fst]

theorem canon_salvage (hs : Canon s) (lost : Nat) : Canon (s.salvage lost) := by
  unfold State.salvage
  refine canon_foldl hs fun s k h => ?_
  split
  · exact h
  · next base _ =>
    exact ⟨foldl_writeBytes_wf (fun e : (Nat × Nat × Copy) × Nat =>
      (base + 64 + 144 * (e.2 / 6), 144, salvageRecord e.1.1 e.1.2.1 e.1.2.2)) _ _ (writeBytes_wf _ _ _ _ h.1), h.2⟩

theorem canon_endLaunches (hs : Canon s) (lost : Nat) : Canon (s.endLaunches lost) := by
  unfold State.endLaunches
  grind [Canon, canon_writeEntry, canon_foldl]

theorem canon_writeGroupSpace (hs : Canon s) (index b v : Nat) : Canon (s.writeGroupSpace index b v) := by
  unfold State.writeGroupSpace
  grind [canon_setTeam]

theorem canon_writeTeamSpace (hs : Canon s) (index b v : Nat) : Canon (s.writeTeamSpace index b v) := by
  unfold State.writeTeamSpace
  grind [Canon, canon_raise, canon_setTeam]

theorem canon_writeFormeSpace (hs : Canon s) (core b v : Nat) : Canon (s.writeFormeSpace core b v) := by
  unfold State.writeFormeSpace
  grind [Canon]

theorem canon_rebindSlugs (hs : Canon s) (core part b v : Nat) : Canon (s.rebindSlugs core part b v) := by
  unfold State.rebindSlugs
  grind [Canon, canon_freeSlug, canon_moveSlug, canon_settleSlugs, canon_foldl, canon_foldl_fst]

theorem canon_writeGalleySpace (hs : Canon s) (core part b v : Nat) : Canon (s.writeGalleySpace core part b v) := by
  unfold State.writeGalleySpace
  grind [Canon, canon_modTeam, canon_rebindSlugs]

theorem canon_writeHbmSpace (hs : Canon s) (stack b v : Nat) : Canon (s.writeHbmSpace stack b v) := by
  unfold State.writeHbmSpace
  split
  · exact canon_writeHbm hs _ _ _
  · exact hs

theorem canon_writeBinSpace (hs : Canon s) (core b v : Nat) : Canon (s.writeBinSpace core b v) := by
  unfold State.writeBinSpace
  grind [canon_modCore]

theorem canon_writeReadback (hs : Canon s) (off v : Nat) : Canon (s.writeReadback off v) := by
  unfold State.writeReadback
  grind [canon_writeBinSpace, canon_writeFormeSpace, canon_writeGalleySpace, canon_writeGroupSpace,
    canon_writeHbmSpace, canon_writeTeamSpace]

theorem canon_writeCodeinv (hs : Canon s) (v : Nat) : Canon (s.writeCodeinv v) := by
  unfold State.writeCodeinv
  grind [Canon]

theorem canon_writeSyslaunch (hs : Canon s) (v : Nat) : Canon (s.writeSyslaunch v) := by
  unfold State.writeSyslaunch
  grind [Canon, canon_setReg]

theorem canon_writeFltreply (hs : Canon s) (v : Nat) : Canon (s.writeFltreply v) := by
  unfold State.writeFltreply
  grind [canon_refuseMiss, canon_releaseMiss]

theorem canon_writeQueue (hs : Canon s) (off q v : Nat) : Canon (s.writeQueue off q v) := by
  unfold State.writeQueue
  grind [canon_doorbell, canon_setReg, canon_writeHqctl]

theorem canon_writeReg (hs : Canon s) (off v : Nat) : Canon (s.writeReg off v) := by
  unfold State.writeReg
  refine canon_ite hs <| canon_ite (canon_writeReadback hs _ _) <| canon_ite (canon_tlbinvWrite hs _) <|
    canon_ite (canon_writeFltreply hs _) <| canon_ite (canon_writeCgrptab hs _ _) <|
    canon_ite (canon_writeQueue hs _ _ _) <| canon_ite ?_ <| canon_ite (canon_writePreempt hs _) <|
    canon_ite (canon_teamctl hs _ _ _ _) <| canon_ite (canon_writeCodeinv hs _) <|
    canon_ite (canon_writeSyslaunch hs _) <| canon_ite (canon_ite (canon_askReset hs) hs) <|
    canon_ite (canon_writePwrcfg hs _) ?_
  · split
    · exact canon_cancelLaunch hs _
    · exact hs
  · split <;> exact hs

theorem canon_windowWrite (hs : Canon s) (off size v : Nat) : Canon (s.windowWrite off size v) := by
  unfold State.windowWrite
  grind [canon_writeReg]

theorem canon_setCodeCache (hs : Canon s) (t : Team) (c : Tab LineData) : Canon (s.setCodeCache t c) := by
  unfold State.setCodeCache
  grind [Canon, canon_modCore]

theorem canon_codeWord (hs : Canon s) (t : Team) (va : Nat) (l : Loc) : Canon (s.codeWord t va l).1 := by
  unfold State.codeWord
  grind [canon_fetchRead, canon_setCodeCache]

theorem canon_fetchWord (hs : Canon s) (t : Team) (i : Tid) (va : Nat) : Canon (s.fetchWord t i va).1 := by
  unfold State.fetchWord
  grind [canon_codeWord, canon_fetchSite]

theorem canon_fetchWords (hs : Canon s) (t : Team) (i : Tid) (va n : Nat) : Canon (s.fetchWords t i va n).1 := by
  induction n generalizing s va with
  | zero => exact hs
  | succ n ih =>
    unfold State.fetchWords
    grind [canon_fetchWord]

theorem canon_fetch (hs : Canon s) (t : Team) (i : Tid) (pc : Nat) : Canon (s.fetch t i pc).1 := by
  unfold State.fetch
  grind [canon_fetchWord, canon_fetchWords]

theorem canon_fetchWait (hs : Canon s) (k : Nat) (t : Team) (ts : List Nat) (va : Nat) :
    Canon (s.fetchWait k t ts va) := by
  unfold State.fetchWait
  grind [canon_modThread, canon_translate, canon_foldl]

theorem canon_noteSpins (hs : Canon s') (s : State) : Canon (s'.noteSpins s) := by
  unfold State.noteSpins
  grind [Canon]

theorem canon_bookIssue (hs : Canon s) (core part : Nat) (c : Option Candidate) : Canon (s.bookIssue core part c) := hs

theorem canon_afterIssue (hs : Canon s') (s : State) (c : Candidate) (len : Nat) (branch : Bool) :
    Canon (s'.afterIssue s c len branch) := by
  unfold State.afterIssue
  grind [Canon, canon_modThread, canon_noteSpins, canon_foldl]

theorem canon_replaceCode (hs : Canon s) (k ln : Nat) : Canon (s.replaceCode k ln) := by
  unfold State.replaceCode
  grind [Canon, canon_modCore]

theorem canon_upsetReg (hs : Canon s) (i : Tid) (n : Nat) : Canon (s.upsetReg i n) := by
  unfold State.upsetReg
  grind [canon_modThread]

theorem canon_upsetLine (hs : Canon s) (region : Option Nat) (ln unit : Nat) : Canon (s.upsetLine region ln unit) := by
  unfold State.upsetLine
  grind [canon_modHome, canon_modRegion]

end Sys2Proof.Proofs.Canonical

/-! O59, 9: rules for the parts of instructions. One thread's part is a chain of checks, of `claimRegs` and of a last state;
an instruction runs such parts over its issue group. -/

namespace Sys2Proof.Proofs.Canonical
open Sys2Proof Sys2Proof.Machine

variable {s : State}

/-- The state of a pair whose value is known. -/
theorem canon_fst {β : Type} {p : State × β} {b : β} (h : Canon p.1) (he : p = (s, b)) : Canon s := by
  subst he; exact h

/-! ### One thread's part -/

/-- Where a thread's part gives a result, the result has a property. -/
def LaneKept {α : Type} (P : α → Prop) (x : Lane α) : Prop := ∀ a, x = .ok a → P a

section
variable {α β : Type} {P : β → Prop}

theorem laneKept_ok {b : β} (h : P b) : LaneKept P (.ok b) := fun _ hr => by cases hr; exact h

theorem laneKept_pure {b : β} (h : P b) : LaneKept P (pure b) := laneKept_ok h

theorem laneKept_error (e : LaneStop) : LaneKept P (.error e) := fun _ hr => by cases hr

theorem laneKept_throw (e : LaneStop) : LaneKept P (throw e) := laneKept_error e

/-- A check, or what reads something. -/
theorem laneKept_skip {x : Lane α} {f : α → Lane β} (h : ∀ a, LaneKept P (f a)) : LaneKept P (x >>= f) := fun b hb => by
  obtain ⟨a, -, hb⟩ := except_bind_eq_ok hb
  exact h a b hb

theorem laneKept_bind {Q : α → Prop} {x : Lane α} {f : α → Lane β} (hx : LaneKept Q x) (h : ∀ a, Q a → LaneKept P (f a)) :
    LaneKept P (x >>= f) := fun b hb => by
  obtain ⟨a, ha, hb⟩ := except_bind_eq_ok hb
  exact h a (hx a ha) b hb

theorem laneKept_claim (hs : Canon s) {c : View} {srcs dsts : List Nat} {f : State → Lane β}
    (h : ∀ s, Canon s → LaneKept P (f s)) : LaneKept P (s.claimRegs c srcs dsts >>= f) :=
  laneKept_bind (fun _ hr => canon_claimRegs hs _ _ _ hr) h

theorem laneKept_ite {p : Prop} [Decidable p] {x y : Lane β} (hx : LaneKept P x) (hy : LaneKept P y) :
    LaneKept P (if p then x else y) := by
  split <;> assumption

/-- A check written as `if … then throw …` before what follows. -/
theorem laneKept_guard {p : Prop} [Decidable p] {e : LaneStop} {f : α → Lane β} {y : Lane β} (h : LaneKept P y) :
    LaneKept P (if p then throw e >>= f else y) :=
  laneKept_ite (fun _ hr => by cases hr) h

end

/-! ### Instructions over their issue groups -/

/-- A thread's part that gives a state and the thread's next program counter. -/
def PartKept (f : LaneFn) : Prop := ∀ s c, Canon s → LaneKept (fun r => Canon r.1) (f s c)

theorem kept_execLanes (hs : Canon s) {words : Nat} {g : Option (BitVec 4)} {f : Nat → LaneFn}
    (hf : ∀ next, PartKept (f next)) : Kept (execLanes words g f s) := by
  unfold execLanes
  cases s.ig with
  | none => exact kept_fault _
  | some ig => exact kept_next.2 (canon_runLanes hs fun s c r h => hf _ s c h r)

theorem kept_execReads (hs : Canon s) {words : Nat} {dsts : List Nat} {f : Nat → LaneFn}
    (hf : ∀ next, PartKept (f next)) : Kept (execReads words dsts f s) := by
  unfold execReads
  cases s.ig with
  | none => exact kept_fault _
  | some ig => exact kept_next.2 (canon_noteParked (canon_runLanes hs fun s c r h => hf _ s c h r) _ _ _)

theorem kept_execTogether (hs : Canon s) {words : Nat} {g : Option (BitVec 4)} {f : Nat → LaneFn}
    (hf : ∀ next, PartKept (f next)) : Kept (execTogether words g f s) := by
  unfold execTogether
  cases s.ig with
  | none => exact kept_fault _
  | some ig =>
    exact kept_next.2 (canon_keepGroup
      (canon_inOrder (fun s i h => canon_runLane h fun s c r h => hf _ s c h r) hs _ _) _ _ _ _)

theorem kept_execSeq (hs : Canon s) {words : Nat} {g : Option (BitVec 4)} {f : State → View → Lane State}
    (hf : ∀ s c, Canon s → LaneKept Canon (f s c)) : Kept (execSeq words g f s) :=
  kept_execLanes hs fun next s c h r hr => by
    obtain ⟨s₁, h₁, rfl⟩ := except_map_eq_ok hr
    exact hf s c h s₁ h₁

theorem kept_collective (hs : Canon s) {words : Nat} {check : State → View → Lane (Nat × Nat × List Nat × List Nat)}
    {wa wb : Nat} {write : Nat → List Contribution → Contribution → Thread} :
    Kept (collective words check wa wb write s) := by
  unfold collective
  split
  · exact kept_fault _
  dsimp only
  split
  · exact kept_next.2 hs
  split
  · exact kept_next.2 (canon_diverged hs _ _ _ _)
  split
  · refine kept_next.2 (canon_foldl (canon_foldl hs fun s a h => ?_) fun s c h => canon_modThread h _ _)
    split
    · exact canon_observe h _ _
    · exact h
  · exact kept_next.2 (canon_foldl hs fun s c h => canon_modThread h _ _)
  · exact kept_next.2 (canon_foldl hs fun s c h => canon_deliver h _ _ _)

theorem kept_execGroups (hs : Canon s) {words : Nat} {f : Nat → State → Team → Nat → Nat → List Nat → State}
    (hf : ∀ next s t team gk ns, Canon s → Canon (f next s t team gk ns)) : Kept (execGroups words f s) := by
  unfold execGroups
  split
  · exact kept_fault _
  split
  · exact kept_next.2 hs
  · exact kept_next.2 (canon_foldl hs fun s gk h => hf _ _ _ _ _ _ h)

theorem kept_execHalves (hs : Canon s) {words : Nat} {f : Nat → State → Nat → List Nat → State}
    (hf : ∀ next s team ns, Canon s → Canon (f next s team ns)) : Kept (execHalves words f s) := by
  unfold execHalves
  split
  · exact kept_fault _
  split
  · exact kept_next.2 hs
  · exact kept_next.2 (canon_foldl hs fun s g h => hf _ _ _ _ h)

theorem kept_execSlugGroups (hs : Canon s) {o : XOp} {x : XForm} {f : State → Nat → Team → Nat → List Nat → Nat → State}
    (hf : ∀ s team t g ns next, Canon s → Canon (f s team t g ns next)) : Kept (execSlugGroups o x f s) := by
  unfold execSlugGroups
  split
  · exact kept_fault _
  split
  · exact kept_next.2 hs
  split
  · next h => exact kept_next.2 (canon_offUnit hs _ _ _ _ _ h)
  · refine kept_next.2 (canon_foldl hs fun s g h => ?_)
    split
    · exact hf _ _ _ _ _ _ h
    · exact h

/-- What a memory instruction does once its threads' addresses are translated. -/
theorem kept_afterReach (hs : Canon s) {ig : IssueGroup} {next : Nat} {all : List (Nat × Reach)}
    {act : State → Nat → Nat → List (Nat × MemReq × Loc) → List Nat → State × Faults} {dsts : List Nat}
    (hact : ∀ s team next go skip, Canon s → Canon (act s team next go skip).1) :
    Kept (s.afterReach ig next all act dsts) := by
  unfold State.afterReach
  dsimp only
  split
  · refine kept_next.2 (canon_deliverFaults (hact _ _ _ _ _ (canon_foldl (canon_foldl hs fun s a h => ?_) fun s a h => ?_)) _)
    · grind [canon_modThread]
    · exact canon_observed h _ _ _
  · refine kept_next.2 (canon_deliverFaults (canon_foldl (canon_foldl hs fun s a h => ?_) fun s a h => ?_) _)
    · grind [canon_modThread]
    · grind [canon_modThread]

theorem kept_withAccess (hs : Canon s) {words : Nat} {g : Option (BitVec 4)} {acc : Nat}
    {check : State → MemReq → Loc → Option Trap} {f : State → View → Lane MemReq}
    {act : State → Nat → Nat → List (Nat × MemReq × Loc) → List Nat → State × Faults} {dsts : List Nat}
    (hact : ∀ s team next go skip, Canon s → Canon (act s team next go skip).1) :
    Kept (withAccess words g acc check f act s dsts) := by
  unfold withAccess
  split
  · exact kept_fault _
  · exact kept_afterReach (canon_reachAll hs _ _ _ _ _ _) hact

theorem canon_link (hs : Canon s) {k : Nat} {t : Team} {x : XForm} {held : Option (Nat × Nat × Bool)} {s' : State}
    (hr : (s.link k t x held).result = .ok s') : Canon s' := by
  unfold State.link at hr
  grind [canon_linkCheck, canon_kObserve]

theorem kept_slugInstr (hs : Canon s) {o : XOp} {x : XForm} {slotOk : Nat → Bool} {conv : Nat}
    {srcs dsts : Nat → List (Nat × Nat)} {act : State → SlugUse → State} (hact : ∀ s u, Canon s → Canon (act s u)) :
    Kept (slugInstr o x slotOk conv srcs dsts act s) := by
  unfold slugInstr
  split
  · exact kept_fault _
  split
  · dsimp only
    split
    · next h => exact kept_next.2 (canon_offUnit hs _ _ _ _ _ h)
    split
    · exact kept_next.2 (canon_deliverAll hs _ _ _ _)
    split
    · exact kept_next.2 (canon_diverged hs _ _ _ _)
    split
    · exact kept_next.2 (canon_deliverAll hs _ _ _ _)
    split
    · exact kept_next.2 (canon_deliverAll hs _ _ _ _)
    split
    · exact kept_next.2 (canon_deliverAll hs _ _ _ _)
    · exact kept_next.2 (canon_holdAll hs _ _ _ _)
    · next h =>
      have h₁ := canon_link hs h
      split
      · exact kept_next.2 (canon_foldl h₁ fun s p h => canon_deliver h _ _ _)
      split
      · exact kept_next.2 (canon_holdAll h₁ _ _ _ _)
      split
      · exact kept_next.2 (canon_holdAll h₁ _ _ _ _)
      · exact kept_next.2 (hact _ _ (canon_foldl h₁ fun s c h => canon_observe h _ _))
  · exact kept_next.2 hs

end Sys2Proof.Proofs.Canonical

/-! O59, 10: integer, float and control instructions keep the canonical form. -/

namespace Sys2Proof.Proofs.Canonical
open Sys2Proof Sys2Proof.Machine

variable {s : State}

/-! ### Integers, predicates and floats -/

theorem laneKept_computeLane (hs : Canon s) {o : XOp} {x : XForm} {wa wb wc : Nat} {dsts : List Nat}
    {put : Thread → Nat → Thread} {f : Nat → Nat → Nat → Nat} {c : View} :
    LaneKept Canon (computeLane o x wa wb wc dsts put f s c) := fun _ hr => canon_computeLane hs hr

theorem kept_compute (hs : Canon s) {words : Nat} {o : XOp} {x : XForm} {wa wb wc : Nat} {dsts : List Nat}
    {put : Thread → Nat → Thread} {f : Nat → Nat → Nat → Nat} :
    Kept (execSeq words none (computeLane o x wa wb wc dsts put f) s) :=
  kept_execSeq hs fun _ _ hs => laneKept_computeLane hs

theorem kept_twoX (hs : Canon s) {o : XOp} {f : Ty → Nat → Nat → Nat} {x : XForm} {words : Nat} :
    Kept (twoX o f x words s) := kept_compute hs

theorem kept_shiftX (hs : Canon s) {o : XOp} {f : Ty → Nat → Nat → Nat} {x : XForm} {words : Nat} :
    Kept (shiftX o f x words s) := kept_compute hs

theorem kept_oneX (hs : Canon s) {o : XOp} {f : Ty → Nat → Nat} {x : XForm} : Kept (oneX o f x s) := kept_compute hs

theorem kept_countX (hs : Canon s) {o : XOp} {f : Ty → Nat → Nat} {x : XForm} : Kept (countX o f x s) := kept_compute hs

theorem kept_madX (hs : Canon s) {x : XForm} {words : Nat} : Kept (madX x words s) := kept_compute hs

theorem kept_predX (hs : Canon s) {f : Bool → Bool → Bool} {x : XForm} : Kept (predX f x s) :=
  kept_execSeq hs fun _ _ hs => laneKept_ok (canon_modThread hs _ _)

theorem kept_ldiX (hs : Canon s) {ty : Ty} {d v words : Nat} : Kept (ldiX ty d v words s) :=
  kept_execSeq hs fun _ _ hs => laneKept_skip fun _ => laneKept_claim hs fun _ hs => laneKept_pure (canon_modThread hs _ _)

theorem kept_execBfi (hs : Canon s) (x : XForm) : Kept (execBfi x s) := by
  unfold execBfi
  exact kept_compute hs

theorem kept_execLea (hs : Canon s) (x : XForm) : Kept (execLea x s) := by
  unfold execLea
  exact kept_compute hs

theorem kept_execCvt (hs : Canon s) (x : XForm) : Kept (execCvt x s) := by
  unfold execCvt
  exact kept_compute hs

theorem kept_execPset (hs : Canon s) (x : XForm) : Kept (execPset x s) := by
  unfold execPset
  exact kept_compute hs

theorem kept_execMovBase (hs : Canon s) (d a : BitVec 6) : Kept (execMovBase d a s) := by
  unfold execMovBase
  exact kept_compute hs

theorem kept_execSel (hs : Canon s) (x : XForm) : Kept (execSel x s) :=
  kept_execSeq hs fun _ _ hs => laneKept_computeLane hs

theorem kept_execCmp (hs : Canon s) (x : XForm) : Kept (execCmp x s) :=
  kept_execSeq hs fun _ _ hs _ hr => canon_predLane hs hr

theorem kept_execPget (hs : Canon s) (x : XForm) : Kept (execPget x s) :=
  kept_execSeq hs fun _ _ hs => laneKept_skip fun _ => laneKept_claim hs fun _ hs => laneKept_pure (canon_modThread hs _ _)

theorem kept_floatX (hs : Canon s) {o : XOp} {nb nc : Bool} {f : Fmt → Nat → Nat → Nat → Nat × Nat} {x : XForm}
    {words : Nat} : Kept (floatX o nb nc f x words s) :=
  kept_execSeq hs fun _ _ hs => laneKept_skip fun _ => laneKept_skip fun _ => laneKept_claim hs fun _ hs =>
    laneKept_pure (canon_modThread hs _ _)

theorem kept_execFcmp (hs : Canon s) (x : XForm) : Kept (execFcmp x s) :=
  kept_execSeq hs fun _ _ hs => laneKept_skip fun _ => laneKept_claim hs fun _ hs =>
    laneKept_pure (canon_modThread hs _ _)

theorem kept_execFcvt (hs : Canon s) (x : XForm) : Kept (execFcvt x s) :=
  kept_execSeq hs fun _ _ hs => laneKept_guard <|
    laneKept_skip fun _ => laneKept_skip fun _ => laneKept_claim hs fun _ hs => laneKept_pure (canon_modThread hs _ _)

theorem kept_execMxq (hs : Canon s) (x : XForm) : Kept (execMxq x s) :=
  kept_execSeq hs fun _ _ hs => laneKept_guard <| laneKept_skip fun _ => laneKept_skip fun _ => laneKept_skip fun _ =>
    laneKept_skip fun _ => laneKept_claim hs fun _ hs => laneKept_pure (canon_modThread hs _ _)

theorem kept_execMxdq (hs : Canon s) (x : XForm) : Kept (execMxdq x s) :=
  kept_execSeq hs fun _ _ hs => laneKept_guard <| laneKept_skip fun _ => laneKept_skip fun _ => laneKept_skip fun _ =>
    laneKept_claim hs fun _ hs => laneKept_pure (canon_modThread hs _ _)

/-! ### Registers and lanes -/

theorem kept_execVget (hs : Canon s) (x : XForm) : Kept (execVget x s) :=
  kept_execSeq hs fun _ _ hs => laneKept_skip fun _ => laneKept_skip fun _ => laneKept_claim hs fun _ hs =>
    laneKept_pure (canon_modThread hs _ _)

theorem kept_execVput (hs : Canon s) (x : XForm) : Kept (execVput x s) :=
  kept_execSeq hs fun _ _ hs => laneKept_skip fun _ => laneKept_skip fun _ => laneKept_claim hs fun _ hs =>
    laneKept_pure (canon_modThread hs _ _)

theorem kept_execKmov (hs : Canon s) (x : XForm) : Kept (execKmov x s) :=
  kept_execSeq hs fun _ _ hs => laneKept_skip fun _ => laneKept_skip fun _ => laneKept_skip fun _ =>
    laneKept_claim hs fun _ hs => laneKept_pure (canon_modThread (canon_kObserve hs _ _) _ _)

theorem kept_execSysrd (hs : Canon s) (x : XForm) : Kept (execSysrd x s) := by
  refine kept_execSeq ?_ fun _ _ hs => laneKept_guard <| laneKept_skip fun _ => laneKept_claim hs fun _ hs =>
    laneKept_pure (canon_modThread hs _ _)
  split
  · exact canon_ite (canon_noteIssued hs _ _ _) hs
  · exact hs

theorem kept_execVote (hs : Canon s) (x : XForm) : Kept (execVote x s) := by
  unfold execVote
  split <;> exact kept_collective hs

theorem kept_execKset (hs : Canon s) (x : XForm) : Kept (execKset x s) := by
  unfold execKset
  dsimp only
  split
  · exact kept_fault _
  refine kept_next.2 (canon_foldl_fst hs fun q n hq => ?_)
  split
  · exact hq
  split
  · next s₁ hr =>
    refine canon_modThread ?_ _ _
    exact laneKept_skip (P := Canon) (fun _ => laneKept_skip fun _ =>
      laneKept_claim hq fun _ hs _ hr => canon_kWrite hs hr) s₁ hr
  · exact canon_deliver hq _ _ _
  · exact canon_modThread hq _ _

theorem kept_execXclaim (hs : Canon s) (x : XForm) : Kept (execXclaim x s) :=
  kept_execGroups hs fun _ _ _ _ _ _ hs => canon_claim hs _ _ _ _ _ _

theorem kept_execXgive (hs : Canon s) (x : XForm) : Kept (execXgive x s) := by
  unfold execXgive
  refine kept_execGroups hs fun _ _ _ _ _ _ hs => ?_
  split
  · exact hs
  · exact canon_foldl (canon_shrink hs _ _ _) fun _ _ h => canon_modThread h _ _

/-! ### Rejoin sets -/

/-- The register checks of `jinit` and `jrest`, which read one operand. -/
theorem canon_sieveOperand (hs : Canon s) {team : Nat} {ns : List Nat} {o : XOp} {x : XForm} {w : Nat} :
    Canon (s.sieve team ns fun s c => do
      let r ← c.operands o x w 0 0
      let s ← s.claimRegs c r.srcs []
      return (s, c.th.vs r.a 1)).1 :=
  canon_sieve hs fun _ _ r hs hr =>
    laneKept_skip (P := fun r : State × Nat => Canon r.1) (fun _ => laneKept_claim hs fun _ hs => laneKept_pure hs) r hr

theorem kept_execJinit (hs : Canon s) (x : XForm) : Kept (execJinit x s) :=
  kept_execHalves hs fun _ _ _ _ hs => canon_jform (canon_sieveOperand hs) _ _ _ _ _ _

theorem kept_execJrest (hs : Canon s) (x : XForm) : Kept (execJrest x s) :=
  kept_execHalves hs fun _ _ _ _ hs => canon_jform (canon_sieveOperand hs) _ _ _ _ _ _

theorem kept_execJenter (hs : Canon s) (x : XForm) : Kept (execJenter x s) :=
  kept_execHalves hs fun _ _ _ _ hs => canon_goOn (canon_foldl hs fun _ _ h => canon_modTeam h _ _) _ _ _

theorem kept_execJquit (hs : Canon s) (x : XForm) : Kept (execJquit x s) :=
  kept_execHalves hs fun _ _ _ ns hs => by
    cases ns with
    | nil => exact hs
    | cons n ns => exact canon_orphanCheck (canon_rejoinRelease (canon_goOn (canon_modTeam hs _ _) _ _ _) _ _ _) _ _

theorem kept_execJwait (hs : Canon s) (x : XForm) : Kept (execJwait x s) :=
  kept_execHalves hs fun _ _ _ _ hs => canon_jwait hs _ _ _ _

theorem kept_execJwaitBase (hs : Canon s) (set : BitVec 4) : Kept (execJwaitBase set s) :=
  kept_execHalves hs fun _ _ _ _ hs => canon_jwait hs _ _ _ _

theorem kept_execJread (hs : Canon s) (x : XForm) : Kept (execJread x s) :=
  kept_execSeq hs fun _ _ hs => laneKept_skip fun _ => laneKept_claim hs fun _ hs => laneKept_pure (canon_modThread hs _ _)

theorem kept_execJsave (hs : Canon s) (x : XForm) : Kept (execJsave x s) :=
  kept_execSeq hs fun _ _ hs => laneKept_skip fun _ => laneKept_claim hs fun _ hs => laneKept_pure (canon_modThread hs _ _)

/-! ### Control -/

theorem kept_direct (hs : Canon s) {words : Nat} {g : Option (BitVec 4)} {off : BitVec 22} {link : Option Nat} :
    Kept (execLanes words g (directLane off link) s) :=
  kept_execLanes hs fun _ _ _ hs _ hr => canon_directLane hs hr

theorem kept_indirect (hs : Canon s) {words : Nat} {g : Option (BitVec 4)} {o : XOp} {x : XForm} {link : Option Nat} :
    Kept (execLanes words g (indirectLane o x link) s) :=
  kept_execLanes hs fun _ _ _ hs _ hr => canon_indirectLane hs hr

theorem kept_execYield (hs : Canon s) (x : XForm) : Kept (execYield x s) :=
  kept_execSeq hs fun _ _ hs => laneKept_ok (canon_modThread hs _ _)

/-- `nop` and `stage` change nothing but the program counter. -/
theorem kept_advance (hs : Canon s) {words : Nat} : Kept (execSeq words none (fun s _ => .ok s) s) :=
  kept_execSeq hs fun _ _ hs => laneKept_ok hs

/-- `trap` and `brk` fault in every thread. -/
theorem kept_traps (hs : Canon s) {words : Nat} {t : Trap} : Kept (execSeq words none (fun _ _ => .error (.fault t)) s) :=
  kept_execSeq hs fun _ _ _ => laneKept_error _

theorem kept_execRte (hs : Canon s) (x : XForm) : Kept (execRte x s) :=
  kept_execLanes hs fun _ _ _ hs => laneKept_skip fun _ => laneKept_claim hs fun _ hs => laneKept_guard <|
    laneKept_pure (canon_modThread hs _ _)

theorem kept_barrier (hs : Canon s) {words : Nat} {g : Option (BitVec 4)} {o : XOp} {x : XForm} :
    Kept (execTogether words g (barLane o x) s) :=
  kept_execTogether hs fun _ _ _ hs _ hr => canon_barLane hs hr

theorem kept_execBarWait (hs : Canon s) (x : XForm) : Kept (execBarWait x s) :=
  kept_execLanes hs fun _ _ _ hs => laneKept_skip fun _ => laneKept_claim hs fun _ hs => laneKept_guard <|
    laneKept_ite (laneKept_pure (canon_modThread hs _ _)) (laneKept_pure hs)

theorem kept_execHalt (hs : Canon s) (x : XForm) : Kept (execHalt x s) := by
  unfold execHalt
  grind [kept_next, kept_fault, canon_deliverAll, canon_goOn, canon_modTeam, canon_rewindOps]

theorem kept_execSyswr (hs : Canon s) (x : XForm) : Kept (execSyswr x s) :=
  kept_execSeq hs fun _ _ hs => laneKept_ite (laneKept_error _) <| laneKept_skip fun _ => laneKept_claim hs fun _ hs =>
    laneKept_pure (canon_windowWrite hs _ _ _)

end Sys2Proof.Proofs.Canonical

/-! O59, 11: instructions on memory, objects, jobs, the array, imprints and tasks keep the canonical form. -/

namespace Sys2Proof.Proofs.Canonical
open Sys2Proof Sys2Proof.Machine

variable {s : State}

/-! ### Memory -/

theorem kept_access (hs : Canon s) {words : Nat} {g : Option (BitVec 4)} {acc : Nat}
    {check : State → MemReq → Loc → Option Trap} {f : State → View → Lane MemReq} {kind : AccKind} {hint scope : Nat}
    {dsts : List Nat} : Kept (withAccess words g acc check f (startAccess kind hint scope) s dsts) :=
  kept_withAccess hs fun _ _ _ _ _ hs => canon_startAccess hs _ _ _ _ _ _ _

theorem kept_loadOf (hs : Canon s) {words : Nat} {x : XForm} : Kept (loadOf words x s) := by
  unfold loadOf
  exact kept_access hs

theorem kept_storeOf (hs : Canon s) {words : Nat} {x : XForm} : Kept (storeOf words x s) := by
  unfold storeOf
  exact kept_access hs

theorem kept_atomicOf (hs : Canon s) {o : XOp} {old : Bool} {x : XForm} : Kept (atomicOf o old x s) := by
  unfold atomicOf
  exact kept_access hs

/-- An access to one forme word, before what it does there. -/
theorem laneKept_wordOf (hs : Canon s) {o : XOp} {x : XForm} {c : View} {wb : Nat} {dsts : List Nat} {whole : Bool}
    {f : State × OpRegs × Nat × Nat → Lane (State × Nat)}
    (h : ∀ p, Canon p.1 → LaneKept (fun r => Canon r.1) (f p)) :
    LaneKept (fun r => Canon r.1) (s.wordOf o x c wb dsts whole >>= f) :=
  laneKept_bind (fun _ hr => canon_wordOf hs hr) h

theorem kept_execLdfe (hs : Canon s) (x : XForm) : Kept (execLdfe x s) :=
  kept_execReads hs fun _ _ _ hs => laneKept_wordOf hs fun ⟨_, _, _, _⟩ hs => by
    dsimp only
    refine laneKept_ite (laneKept_pure ?_) (laneKept_pure (canon_awaitWord hs _ _))
    split
    · exact canon_setFull (canon_modThread (canon_raise (canon_modForme hs _ _) _ _) _ _) _ _ _
    · exact canon_modThread (canon_raise (canon_modForme hs _ _) _ _) _ _

theorem kept_execStfe (hs : Canon s) (x : XForm) : Kept (execStfe x s) :=
  kept_execLanes hs fun _ _ _ hs => laneKept_wordOf hs fun ⟨_, _, _, _⟩ hs =>
    laneKept_ite (laneKept_pure (canon_awaitWord hs _ _)) <| laneKept_pure
      (canon_setFull (canon_modThread (canon_raise (canon_modForme hs _ _) _ _) _ _) _ _ _)

theorem kept_execFeset (hs : Canon s) (x : XForm) : Kept (execFeset x s) :=
  kept_execLanes hs fun _ _ _ hs => laneKept_wordOf hs fun ⟨_, _, _, _⟩ hs => laneKept_pure
    (canon_setFull (canon_modThread (canon_raise (canon_modForme hs _ _) _ _) _ _) _ _ _)

theorem kept_execPrq (hs : Canon s) (x : XForm) : Kept (execPrq x s) :=
  kept_execLanes hs fun _ _ _ hs => laneKept_skip fun _ => laneKept_skip fun _ => laneKept_claim hs fun _ hs =>
    laneKept_skip fun ⟨_, _⟩ => laneKept_guard <| laneKept_guard <|
      laneKept_pure (canon_modThread (canon_raise (canon_modForme hs _ _) _ _) _ _)

theorem kept_execPf (hs : Canon s) (x : XForm) : Kept (execPf x s) :=
  kept_execLanes hs fun _ s c hs => laneKept_skip fun _ => laneKept_claim hs fun s hs => by
    refine laneKept_ite (laneKept_pure hs) ?_
    split
    · next he => exact laneKept_pure (canon_fst (canon_held hs _ _) he)
    next s₁ e he =>
    have h₁ : Canon s₁ := canon_fst (canon_held hs _ _) he
    refine laneKept_ite (laneKept_pure h₁) ?_
    dsimp only
    split
    · exact laneKept_pure h₁
    · exact laneKept_ite (laneKept_pure h₁) (laneKept_pure (canon_ask h₁ _ _ _ _ _))

theorem canon_installsLane {i : Installs} (h : Canon i.state) (w : WaitEntry) (next : Nat) :
    Canon (i.lane w next).state := by
  unfold Installs.lane
  grind [canon_install, canon_modThread]

theorem kept_execWaddr (hs : Canon s) (x : XForm) : Kept (execWaddr x s) := by
  unfold execWaddr
  refine kept_withAccess hs fun s team next go skip hs => ?_
  dsimp only
  split
  · next he => exact canon_foldl (canon_fst (canon_allReady hs _) he) fun _ _ h => canon_modThread h _ _
  · next he =>
    refine List.foldlRecOn (motive := fun i : Installs => Canon i.state) _ _ (canon_fst (canon_allReady hs _) he)
      fun i hi e _ => ?_
    split
    · exact canon_installsLane hi _ _
    · exact hi

theorem kept_execFenceSys (hs : Canon s) (x : XForm) : Kept (execFenceSys x s) := by
  unfold execFenceSys
  split
  · exact kept_fault _
  · exact kept_next.2 (canon_foldl hs fun _ _ h => canon_fenceSys h _ _)

theorem kept_execFenceIo (hs : Canon s) (x : XForm) : Kept (execFenceIo x s) :=
  kept_execLanes hs fun _ _ _ hs => laneKept_ite (laneKept_ok hs) (laneKept_ok (canon_modThread hs _ _))

theorem kept_execFenceCode (hs : Canon s) (x : XForm) : Kept (execFenceCode x s) :=
  kept_execLanes hs fun _ _ _ hs => laneKept_ite (laneKept_ok (canon_dropCode hs)) (laneKept_ok (canon_modThread hs _ _))

/-! ### Barrier objects -/

/-- A `bo` operation keeps the form where its act on the object does. -/
theorem partKept_boLane {o : XOp} {x : XForm} {wb wc : Nat} {dsts : List Nat} {writes : Bool}
    {act : State → View → Nat → Nat → Nat → Nat → Nat → Nat → Lane (State × Nat)} {next : Nat}
    (hact : ∀ s c k off va b d, Canon s → LaneKept (fun r => Canon r.1) (act s c k off va b d next)) :
    PartKept (boLane o x wb wc dsts writes act next) :=
  fun _ _ hs _ hr => canon_boLane hs (fun s k off va b d r hs hr => hact s _ k off va b d hs r hr) hr

theorem kept_execBoInit (hs : Canon s) (x : XForm) : Kept (execBoInit x s) :=
  kept_execLanes hs fun _ => partKept_boLane fun _ _ _ _ _ _ _ hs => laneKept_guard <|
    laneKept_pure (canon_modForme (canon_healForme (canon_putObj hs _ _ _) _ _ _) _ _)

theorem kept_execBoArrive (hs : Canon s) (x : XForm) : Kept (execBoArrive x s) :=
  kept_execTogether hs fun _ => partKept_boLane fun _ _ _ _ _ _ _ hs => laneKept_guard <| laneKept_skip fun _ =>
    laneKept_guard <| laneKept_pure (canon_checkFlip (canon_objNote (canon_putObj hs _ _ _) _ _ _) _ _)

theorem kept_execBoExpect (hs : Canon s) (x : XForm) : Kept (execBoExpect x s) :=
  kept_execTogether hs fun _ => partKept_boLane fun _ _ _ _ _ _ _ hs => laneKept_guard <| laneKept_skip fun _ =>
    laneKept_guard <| laneKept_pure (canon_putObj hs _ _ _)

theorem kept_execBoWait (hs : Canon s) (x : XForm) : Kept (execBoWait x s) :=
  kept_execLanes hs fun _ => partKept_boLane fun _ _ _ _ _ _ _ hs => laneKept_guard <| laneKept_guard <|
    laneKept_ite (laneKept_pure (canon_modThread hs _ _)) (laneKept_pure (canon_raise hs _ _))

theorem kept_execBoTest (hs : Canon s) (x : XForm) : Kept (execBoTest x s) :=
  kept_execReads hs fun _ => partKept_boLane fun _ _ _ _ _ _ _ hs => laneKept_guard <|
    laneKept_pure (canon_modThread (canon_ite (canon_raise hs _ _) hs) _ _)

theorem kept_execBoFree (hs : Canon s) (x : XForm) : Kept (execBoFree x s) :=
  kept_execLanes hs fun _ => partKept_boLane fun _ _ _ _ _ _ _ hs => laneKept_guard <|
    laneKept_pure (canon_modForme hs _ _)

/-! ### Jobs and futures -/

theorem kept_jobs (hs : Canon s) {words : Nat} {g : Option (BitVec 4)} {o : XOp} {x : XForm} {k : JobKind} :
    Kept (execTogether words g (jobLane o x k) s) :=
  kept_execTogether hs fun _ _ _ hs _ hr => canon_jobLane hs hr

theorem kept_execFutTest (hs : Canon s) (x : XForm) : Kept (execFutTest x s) :=
  kept_execSeq hs fun _ _ hs => laneKept_skip fun _ =>
    laneKept_pure (canon_modThread (canon_ite (canon_observe hs _ _) hs) _ _)

theorem kept_execFutCancel (hs : Canon s) (x : XForm) : Kept (execFutCancel x s) :=
  kept_execSeq hs fun _ _ hs => laneKept_skip fun _ => by
    split
    · exact laneKept_pure (canon_cancelJob hs _)
    · exact laneKept_pure hs

theorem kept_execFutMov (hs : Canon s) (x : XForm) : Kept (execFutMov x s) :=
  kept_execSeq hs fun _ _ hs => laneKept_skip fun _ => laneKept_skip fun _ => laneKept_ite (laneKept_pure hs) <| by
    split
    · exact laneKept_pure (canon_modThread hs _ _)
    · exact laneKept_skip fun _ => laneKept_pure (canon_modThread (canon_observe hs _ _) _ _)

theorem kept_execFutShr (hs : Canon s) (x : XForm) : Kept (execFutShr x s) := by
  unfold execFutShr
  dsimp only
  split
  · exact kept_fault _
  refine kept_next.2 (canon_foldl_fst hs fun q n hq => ?_)
  split
  · exact hq
  split
  · next s₁ hr =>
    refine canon_modThread ?_ _ _
    refine laneKept_skip (P := Canon) (fun a => ?_) s₁ hr
    split
    · exact laneKept_throw _
    split
    · exact fun _ hr => canon_kWrite hq hr
    · exact laneKept_skip fun _ _ hr => canon_kWrite (canon_observe hq _ _) hr
  · exact canon_deliver hq _ _ _
  · exact canon_modThread hq _ _

/-! ### The array -/

theorem kept_mmaOf (hs : Canon s) {o : XOp} {x : XForm} {kept : Nat} {quad : Bool} : Kept (mmaOf o x kept quad s) :=
  kept_slugInstr hs fun _ _ hs => canon_slugSound hs fun _ _ hs => canon_ite (canon_quadArrive hs _ _ _)
    (canon_queueMma hs _ _ _)

theorem kept_execAcrd (hs : Canon s) (x : XForm) : Kept (execAcrd x s) :=
  kept_slugInstr hs fun _ _ hs => canon_slugReadTo hs fun _ _ _ hs => canon_foldl hs fun _ _ h => canon_modThread h _ _

theorem kept_execAcq (hs : Canon s) (x : XForm) : Kept (execAcq x s) :=
  kept_slugInstr hs fun _ _ hs => canon_slugReadTo hs fun _ _ _ hs => canon_foldl hs fun _ _ h => canon_modThread h _ _

theorem kept_execAcwr (hs : Canon s) (x : XForm) : Kept (execAcwr x s) :=
  kept_slugInstr hs fun _ _ hs => canon_slugAccess hs fun _ _ _ hs => canon_healSlug (canon_putSlug hs _ _ _) _ _

theorem kept_execAczero (hs : Canon s) (x : XForm) : Kept (execAczero x s) :=
  kept_slugInstr hs fun _ _ hs => canon_slugAccess hs fun _ _ _ hs => canon_healSlug (canon_putSlug hs _ _ _) _ _

theorem kept_execAcalloc (hs : Canon s) (x : XForm) : Kept (execAcalloc x s) := by
  refine kept_execSlugGroups hs fun s team t g ns next hs => ?_
  grind [canon_settleSlugs, canon_modThread, canon_modTeam, canon_answerAll, canon_foldl]

theorem kept_execAcfree (hs : Canon s) (x : XForm) : Kept (execAcfree x s) :=
  kept_execSlugGroups hs fun _ _ _ _ _ _ hs =>
    canon_settleSlugs (canon_goOn (canon_foldl hs fun _ _ h => canon_freeSlug h _ _ _) _ _ _) _ _ _ _

/-! ### Ends of threads and calls -/

theorem kept_exitOf (hs : Canon s) : Kept (exitOf s) := by
  unfold exitOf
  grind [kept_next, kept_fault, canon_exitThreads]

theorem kept_execNret (hs : Canon s) (x : XForm) : Kept (execNret x s) := by
  unfold execNret
  grind [kept_next, kept_fault, canon_exitThreads, canon_deliverAll]

theorem kept_execTail (hs : Canon s) (x : XForm) : Kept (execTail x s) := by
  unfold execTail
  grind [kept_next, kept_fault, canon_exitThreads, canon_deliverAll, canon_modCore, canon_modThread, canon_foldl]

theorem kept_execNcall (hs : Canon s) (x : XForm) : Kept (execNcall x s) := by
  unfold execNcall
  split
  · exact kept_fault _
  dsimp only
  refine kept_afterReach (canon_foldl_fst hs fun q n hq => ?_) fun s team next go skip hs =>
    canon_keepGroup (canon_inOrder (fun s i hs => ?_) hs _ _) _ _ _ _
  · grind [canon_callSites]
  · grind [canon_callSites, canon_sendCall]

/-! ### Imprints and tasks -/

theorem kept_execImpPost (hs : Canon s) (x : XForm) : Kept (execImpPost x s) :=
  kept_execTogether hs fun _ _ _ hs => laneKept_skip fun _ => laneKept_claim hs fun _ hs => laneKept_guard <|
    laneKept_bind (Q := fun r => Canon r.1) (fun _ hr => canon_post hs hr) fun ⟨_, _⟩ hs =>
      laneKept_pure (canon_modThread hs _ _)

theorem kept_execImpChk (hs : Canon s) (x : XForm) : Kept (execImpChk x s) :=
  kept_execSeq hs fun _ _ hs => laneKept_skip fun _ => laneKept_claim hs fun _ hs => laneKept_pure <|
    canon_modThread (by split <;> [exact canon_raise hs _ _; exact hs]) _ _

theorem kept_execImpWait (hs : Canon s) (x : XForm) : Kept (execImpWait x s) :=
  kept_execLanes hs fun _ _ _ hs => laneKept_skip fun _ => laneKept_claim hs fun _ hs => by
    dsimp only
    split
    · exact laneKept_pure (canon_raise hs _ _)
    · exact laneKept_guard <| laneKept_pure (canon_modThread hs _ _)

theorem kept_execImpClear (hs : Canon s) (x : XForm) : Kept (execImpClear x s) :=
  kept_execSeq hs fun _ _ hs => laneKept_skip fun _ => laneKept_claim hs fun _ hs => by
    dsimp only
    split
    · exact laneKept_pure hs
    · exact laneKept_guard <| laneKept_pure (canon_imprintsChanged (canon_retireImprint hs _ _))

theorem kept_execSpawn (hs : Canon s) (x : XForm) : Kept (execSpawn x s) := by
  unfold execSpawn
  split
  · exact kept_fault _
  next ig _ =>
  split
  · exact kept_next.2 (canon_replayAll hs _)
  dsimp only
  generalize hp : List.foldl _ _ ig.threads = p
  obtain ⟨hb, hh⟩ : Canon p.1 := by
    rw [← hp]
    exact canon_foldl_fst hs fun q n hq => by grind [canon_spawnLane]
  split
  · exact kept_next.2 (canon_replayAll hs _)
  · refine kept_afterReach ?_ fun _ _ _ _ _ hs => canon_goOn hs _ _ _
    split <;> exact ⟨hb, hh⟩

theorem kept_execLaunch (hs : Canon s) (x : XForm) : Kept (execLaunch x s) := by
  unfold execLaunch
  split
  · exact kept_fault _
  split
  · exact kept_next.2 (canon_replayAll hs _)
  refine kept_afterReach (canon_launchLanes hs _ _ _) fun s team next go skip hs =>
    canon_startOp (canon_foldl hs fun s e h => canon_modThread (canon_observe h _ _) _ _) _

theorem kept_execCancq (hs : Canon s) (x : XForm) : Kept (execCancq x s) :=
  kept_execSeq hs fun _ _ hs => laneKept_ok (canon_modThread hs _ _)

theorem kept_execCancqSelf (hs : Canon s) (x : XForm) : Kept (execCancqSelf x s) :=
  kept_execSeq hs fun _ _ hs => laneKept_ok (canon_flagCore (canon_cancelLaunch hs _) _ _)

theorem kept_execCancqId (hs : Canon s) (x : XForm) : Kept (execCancqId x s) :=
  kept_execSeq hs fun _ _ hs => laneKept_skip fun _ => laneKept_claim hs fun _ hs => by
    split
    · exact laneKept_pure (canon_ite (canon_cancelLaunch hs _) hs)
    · exact laneKept_pure hs

end Sys2Proof.Proofs.Canonical

/-! O59, 12: the memory system's, the jobs' and the host's events keep the canonical form. -/

namespace Sys2Proof.Proofs.Canonical
open Sys2Proof Sys2Proof.Machine

variable {s : State}

theorem kept_notEnabled (name : String) : Kept (notEnabled name) := kept_fault _

theorem kept_homeRequest (hs : Canon s) {name : String} {mine : ReqKind → Bool} {tag : Nat} :
    Kept (homeRequest name mine tag s) := by
  unfold homeRequest
  grind [kept_next, kept_notEnabled, canon_taken, canon_settle, canon_request]

theorem kept_execWalkComplete (hs : Canon s) (die entry : Nat) : Kept (execWalkComplete die entry s) := by
  unfold execWalkComplete
  grind [canon_walkEnds, kept_next, kept_notEnabled, kept_fault]

theorem kept_execPendingMissRetry (hs : Canon s) (die : Nat) : Kept (execPendingMissRetry die s) := by
  unfold execPendingMissRetry
  grind [canon_mapThreads, kept_next]

theorem kept_execFaultMsixSignal (hs : Canon s) : Kept (execFaultMsixSignal s) := by
  unfold execFaultMsixSignal
  grind [canon_signalMsix, kept_next, kept_notEnabled, kept_fault]

theorem kept_execFltreplyRetry (hs : Canon s) (slot seq : Nat) : Kept (execFltreplyRetry slot seq s) := by
  unfold execFltreplyRetry
  grind [canon_releaseMiss, kept_next]

theorem kept_execFltreplyFail (hs : Canon s) (slot seq : Nat) : Kept (execFltreplyFail slot seq s) := by
  unfold execFltreplyFail
  grind [canon_refuseMiss, kept_next]

theorem kept_execTlbinvRange (hs : Canon s) (ctx va size : Nat) : Kept (execTlbinvRange ctx va size s) := by
  unfold execTlbinvRange
  grind [canon_tlbinvWrite, kept_next]

theorem kept_execTlbinvWhole (hs : Canon s) (ctx : Nat) : Kept (execTlbinvWhole ctx s) := by
  unfold execTlbinvWhole
  grind [canon_tlbinvWrite, kept_next]

theorem kept_execTlbinvAllctx (hs : Canon s) : Kept (execTlbinvAllctx s) := by
  unfold execTlbinvAllctx
  grind [canon_tlbinvWrite, kept_next]

theorem kept_execTlbinvComplete (hs : Canon s) : Kept (execTlbinvComplete s) := by
  unfold execTlbinvComplete
  grind [Canon, canon_setReg, kept_next, kept_notEnabled, kept_fault]

theorem kept_execGets (hs : Canon s) (tag : Nat) : Kept (execGets tag s) := kept_homeRequest hs

theorem kept_execGetx (hs : Canon s) (tag : Nat) : Kept (execGetx tag s) := kept_homeRequest hs

theorem kept_execUpg (hs : Canon s) (tag : Nat) : Kept (execUpg tag s) := kept_homeRequest hs

theorem kept_execAtomRequest (hs : Canon s) (tag : Nat) : Kept (execAtomRequest tag s) := kept_homeRequest hs

theorem kept_execWb (hs : Canon s) (tag : Nat) : Kept (execWb tag s) := by
  unfold execWb
  grind [canon_complete, canon_send, canon_settle, canon_takeBack, canon_taken, kept_next, kept_notEnabled]

theorem kept_execForwardAnswer (hs : Canon s) (tag : Nat) : Kept (execForwardAnswer tag s) := by
  unfold execForwardAnswer
  grind [canon_complete, canon_settle, canon_takeBack, canon_taken, kept_next, kept_notEnabled]

theorem kept_execFwdGone (hs : Canon s) (tag : Nat) : Kept (execFwdGone tag s) := by
  unfold execFwdGone
  grind [canon_taken, kept_next, kept_notEnabled]

theorem kept_execFwdS (hs : Canon s) (tag : Nat) : Kept (execFwdS tag s) := by
  unfold execFwdS
  grind [canon_meetForward, kept_next, kept_notEnabled]

theorem kept_execFwdX (hs : Canon s) (tag : Nat) : Kept (execFwdX tag s) := by
  unfold execFwdX
  grind [canon_meetForward, kept_next, kept_notEnabled]

theorem kept_execDisc (hs : Canon s) (tag : Nat) : Kept (execDisc tag s) := by
  unfold execDisc
  grind [canon_meetForward, kept_next, kept_notEnabled]

theorem kept_execData (hs : Canon s) (tag : Nat) : Kept (execData tag s) := by
  unfold execData
  grind [Canon, canon_meetReply, canon_modRegion, canon_sweep, canon_sweepSlice, canon_taken, kept_next,
    kept_notEnabled]

theorem kept_execRenew (hs : Canon s) (tag : Nat) : Kept (execRenew tag s) := by
  unfold execRenew
  grind [canon_meetReply, kept_next, kept_notEnabled]

theorem kept_execDataX (hs : Canon s) (tag : Nat) : Kept (execDataX tag s) := by
  unfold execDataX
  grind [canon_meetReply, kept_next, kept_notEnabled]

theorem kept_execGrantX (hs : Canon s) (tag : Nat) : Kept (execGrantX tag s) := by
  unfold execGrantX
  grind [canon_meetReply, kept_next, kept_notEnabled]

theorem kept_execWbAck (hs : Canon s) (tag : Nat) : Kept (execWbAck tag s) := by
  unfold execWbAck
  grind [canon_modRegion, canon_sweepSlice, canon_taken, kept_next, kept_notEnabled]

theorem kept_execNack (hs : Canon s) (tag : Nat) : Kept (execNack tag s) := by
  unfold execNack
  grind [canon_send, canon_taken, kept_next, kept_notEnabled]

theorem kept_execNackRetry (hs : Canon s) (tag : Nat) : Kept (execNackRetry tag s) := by
  unfold execNackRetry
  grind [canon_send, canon_taken, kept_next, kept_notEnabled]

theorem kept_execWake (hs : Canon s) (tag : Nat) : Kept (execWake tag s) := by
  unfold execWake
  grind [canon_modThread, canon_raise, canon_taken, kept_next, kept_notEnabled]

theorem kept_execBackInvalidateAnswer (hs : Canon s) (line : Nat) : Kept (execBackInvalidateAnswer line s) := by
  unfold execBackInvalidateAnswer
  grind [Canon, canon_complete, canon_leave, canon_putLineAt, canon_settle, kept_next, kept_notEnabled]

theorem kept_execHostLineFetch (hs : Canon s) (line : Nat) : Kept (execHostLineFetch line s) := by
  unfold execHostLineFetch
  grind [Canon, canon_putLineAt, canon_settle, kept_next, kept_notEnabled]

theorem kept_execJobStart (hs : Canon s) (job : Nat) : Kept (execJobStart job s) := by
  unfold execJobStart
  grind [Canon, kept_next, kept_notEnabled]

theorem kept_execEngineLineRead (hs : Canon s) (job : Nat) : Kept (execEngineLineRead job s) := by
  unfold execEngineLineRead
  split
  · exact kept_notEnabled _
  split
  · exact kept_next.2 (canon_failJob hs _ _)
  split
  · exact kept_next.2 (canon_failJob hs _ _)
  · exact kept_notEnabled _
  split
  · exact kept_next.2 (canon_failJob hs _ _)
  · next he => exact kept_next.2 ((lineKept_hold _).1 (he ▸ kept_lineSite hs _ _ _ _))
  next he =>
  have h₁ := (lineKept_ok _).1 (he ▸ kept_lineSite hs _ _ _ _)
  split
  · exact kept_next.2 (canon_failJob h₁ _ _)
  · next he => exact kept_next.2 ((lineKept_hold _).1 (he ▸ kept_readLine h₁ _ _ _))
  next he =>
  obtain ⟨hb, hh⟩ := (lineKept_ok _).1 (he ▸ kept_readLine h₁ _ _ _)
  refine kept_next.2 ?_
  apply canon_sendGroups
  exact ⟨hb, hh⟩

theorem kept_execEngineLineWrite (hs : Canon s) (job : Nat) : Kept (execEngineLineWrite job s) := by
  unfold execEngineLineWrite
  split
  · exact kept_notEnabled _
  split
  · exact kept_next.2 (canon_failJob hs _ _)
  · exact kept_next.2 (canon_failJob hs _ _)
  · exact kept_notEnabled _
  split
  · exact kept_notEnabled _
  split
  · exact kept_next.2 (canon_pushGroup hs _ _)
  split
  · exact kept_notEnabled _
  split
  · exact kept_notEnabled _
  split
  · exact kept_next.2 (canon_failJob hs _ _)
  · next he => exact kept_next.2 ((lineKept_hold _).1 (he ▸ kept_lineSite hs _ _ _ _))
  next he =>
  have h₁ := (lineKept_ok _).1 (he ▸ kept_lineSite hs _ _ _ _)
  split
  · exact kept_next.2 (canon_failJob h₁ _ _)
  · next he => exact kept_next.2 ((lineKept_hold _).1 (he ▸ kept_writeLine h₁ _ _ _ _ _))
  next he =>
  obtain ⟨hb, hh⟩ := (lineKept_ok _).1 (he ▸ kept_writeLine h₁ _ _ _ _ _)
  dsimp only
  split
  · exact kept_next.2 ⟨hb, hh⟩
  split
  · refine kept_next.2 ?_
    apply canon_failJob
    exact ⟨hb, hh⟩
  · refine kept_next.2 (canon_ite ?_ ?_)
    · apply canon_objLine
      exact ⟨hb, hh⟩
    · apply canon_overrun
      apply canon_objLine
      exact ⟨hb, hh⟩

theorem kept_execJobEnd (hs : Canon s) (job : Nat) : Kept (execJobEnd job s) := by
  unfold execJobEnd
  grind [canon_endJob, kept_next, kept_notEnabled]

theorem kept_execMatrixOpComplete (hs : Canon s) (core part : Nat) : Kept (execMatrixOpComplete core part s) := by
  unfold execMatrixOpComplete
  split
  · exact kept_notEnabled _
  split
  · next he => exact kept_next.2 ⟨(canon_completeOp hs he).1, (canon_completeOp hs he).2⟩
  · exact kept_notEnabled _

theorem kept_execGroupRelease (hs : Canon s) (team group : Nat) : Kept (execGroupRelease team group s) := by
  unfold execGroupRelease
  grind [canon_releaseGroup, kept_next, kept_notEnabled]

theorem kept_execTrackerDrainDone (hs : Canon s) (core entry : Nat) : Kept (execTrackerDrainDone core entry s) := by
  unfold execTrackerDrainDone
  grind [canon_modCore, kept_next, kept_notEnabled]

theorem kept_execPlatenCallDrain (hs : Canon s) (stack call : Nat) : Kept (execPlatenCallDrain stack call s) := by
  unfold execPlatenCallDrain
  grind [canon_modCall, kept_next, kept_notEnabled]

theorem kept_execPlatenCallWriteback (hs : Canon s) (stack call : Nat) :
    Kept (execPlatenCallWriteback stack call s) := by
  unfold execPlatenCallWriteback
  grind [canon_flushRange, canon_modCall, kept_next, kept_notEnabled]

theorem kept_execPlatenCallLoan (hs : Canon s) (stack call : Nat) : Kept (execPlatenCallLoan stack call s) := by
  unfold execPlatenCallLoan
  grind [canon_flushRange, canon_modCall, canon_raise, canon_releaseDone, kept_next, kept_notEnabled, canon_foldl]

theorem kept_execPlatenTeamPlace (hs : Canon s) (stack call : Nat) : Kept (execPlatenTeamPlace stack call s) := by
  unfold execPlatenTeamPlace
  grind [canon_placeNear, canon_readHeader, kept_next, kept_notEnabled]

theorem kept_execPlatenCallFault (hs : Canon s) (stack call : Nat) : Kept (execPlatenCallFault stack call s) := by
  unfold execPlatenCallFault
  grind [Canon, canon_dropWaits, canon_modCall, kept_next, kept_notEnabled, canon_foldl]

theorem kept_execPlatenCallInvalidate (hs : Canon s) (stack call : Nat) :
    Kept (execPlatenCallInvalidate stack call s) := by
  unfold execPlatenCallInvalidate
  grind [canon_evalWaits, canon_modCall, canon_modHome, canon_settle, kept_next, kept_notEnabled, canon_foldl]

theorem kept_execPlatenCallReturn (hs : Canon s) (stack call : Nat) : Kept (execPlatenCallReturn stack call s) := by
  unfold execPlatenCallReturn
  grind [canon_healForme, canon_linkArrive, canon_modForme, canon_modPlaten, canon_raise, canon_stirLaunch, kept_next,
    kept_notEnabled]

theorem kept_execPlatenPacketApply (hs : Canon s) (stack index : Nat) : Kept (execPlatenPacketApply stack index s) := by
  unfold execPlatenPacketApply
  dsimp only
  split
  · exact kept_notEnabled _
  split
  · exact kept_notEnabled _
  split
  · exact kept_next.2 (canon_sweepPlaten (canon_dropPacket (canon_modPlaten hs _ _) _) _)
  · exact kept_next.2 (canon_sweepPlaten (canon_ackPacket (canon_raise
      (canon_writeHbm (canon_platenStamp (canon_modPlaten hs _ _) _ _ _) _ _ _) _ _) _) _)

theorem kept_execPeerRequestReceive (hs : Canon s) (req : PeerRequest) (kind : Nat) :
    Kept (execPeerRequestReceive req kind s) := by
  unfold execPeerRequestReceive
  grind [Canon, canon_logRefused, canon_sendAnswer, canon_takePeers, kept_next, kept_notEnabled]

theorem kept_execReductionPacketApply (hs : Canon s) (die index : Nat) :
    Kept (execReductionPacketApply die index s) := by
  unfold execReductionPacketApply
  grind [Canon, canon_ackPacket, canon_dropPacket, canon_homeReady, canon_homeStore, canon_raise, canon_settle,
    canon_takePeers, kept_next, kept_notEnabled]

theorem kept_execPeerReplyReceive (hs : Canon s) (tag : Nat) (reply : PeerReply) :
    Kept (execPeerReplyReceive tag reply s) := by
  unfold execPeerReplyReceive
  grind [canon_logRefused, canon_peerFaults, canon_peerValue, kept_next, kept_notEnabled]

theorem kept_execPeerAckReceive (hs : Canon s) (tag : Nat) : Kept (execPeerAckReceive tag s) := by
  unfold execPeerAckReceive
  grind [canon_logRefused, canon_peerDone, kept_next, kept_notEnabled]

theorem kept_execLinkDown (hs : Canon s) (port : Nat) : Kept (execLinkDown port s) := by
  unfold execLinkDown
  grind [canon_downPlane, kept_next, kept_notEnabled]

theorem kept_execLinkTrain (hs : Canon s) (port : Nat) (good : Bool) : Kept (execLinkTrain port good s) := by
  unfold execLinkTrain
  grind [Canon, canon_downPlane, kept_next, kept_notEnabled]

theorem kept_execCollResultReceive (hs : Canon s) (job group : Nat) (vals : List Word) :
    Kept (execCollResultReceive job group vals s) := by
  unfold execCollResultReceive
  grind [Canon, canon_logRefused, kept_next, kept_notEnabled]

theorem kept_execCollAbortReceive (hs : Canon s) (job : Nat) (mismatch : Bool) :
    Kept (execCollAbortReceive job mismatch s) := by
  unfold execCollAbortReceive
  grind [canon_failJob, canon_logRefused, kept_next, kept_notEnabled]

theorem kept_execCgrptabWrite (hs : Canon s) (group : Nat) (value : DWord) :
    Kept (execCgrptabWrite group value s) := by
  unfold execCgrptabWrite
  grind [canon_writeCgrptab, kept_next, kept_notEnabled]

theorem kept_execImprintEntryRetire (hs : Canon s) (ctx buf x y : Nat) :
    Kept (execImprintEntryRetire ctx buf x y s) := by
  unfold execImprintEntryRetire
  grind [canon_imprintsChanged, canon_retireImprint, kept_next]

end Sys2Proof.Proofs.Canonical

/-! O59, 13: the launcher's, the tasks', time's and power's events keep the canonical form. -/

namespace Sys2Proof.Proofs.Canonical
open Sys2Proof Sys2Proof.Machine

variable {s : State}

theorem kept_execCompletionMsixSignal (hs : Canon s) : Kept (execCompletionMsixSignal s) := by
  unfold execCompletionMsixSignal
  grind [canon_signalMsix, kept_next, kept_notEnabled]

theorem kept_execLaunchAdmit (hs : Canon s) : Kept (execLaunchAdmit s) := by
  unfold execLaunchAdmit
  grind [canon_consider, kept_next, kept_notEnabled]

theorem kept_execTeamRetire (hs : Canon s) (team : Nat) : Kept (execTeamRetire team s) := by
  unfold execTeamRetire
  grind [canon_retire, kept_next, kept_notEnabled]

theorem kept_execFormeRelease (hs : Canon s) (cluster : Nat) : Kept (execFormeRelease cluster s) := by
  unfold execFormeRelease
  grind [Canon, kept_next, kept_notEnabled]

theorem kept_execLaunchComplete (hs : Canon s) (launch : Nat) : Kept (execLaunchComplete launch s) := by
  unfold execLaunchComplete
  grind [canon_compReady, canon_completeLaunch, kept_next, kept_notEnabled]

theorem kept_execHqctlEnable (hs : Canon s) (queue : Nat) (value : DWord) : Kept (execHqctlEnable queue value s) := by
  unfold execHqctlEnable
  grind [canon_writeHqctl, kept_next]

theorem kept_execHqctlDisable (hs : Canon s) (queue : Nat) (value : DWord) :
    Kept (execHqctlDisable queue value s) := by
  unfold execHqctlDisable
  grind [canon_writeHqctl, kept_next]

theorem kept_execHqdb (hs : Canon s) (queue : Nat) (value : DWord) : Kept (execHqdb queue value s) := by
  unfold execHqdb
  grind [canon_doorbell, kept_next]

theorem kept_execLcancel (hs : Canon s) (launch : Nat) : Kept (execLcancel launch s) := by
  unfold execLcancel
  grind [canon_cancelLaunch, kept_next]

theorem kept_execCancelFlagSet (hs : Canon s) (launch core : Nat) : Kept (execCancelFlagSet launch core s) := by
  unfold execCancelFlagSet
  grind [canon_flagCore, kept_next, kept_notEnabled]

theorem kept_execSpawnBinTimer (hs : Canon s) (core bin : Nat) : Kept (execSpawnBinTimer core bin s) := by
  unfold execSpawnBinTimer
  grind [canon_fresh, canon_modCore, kept_next, kept_notEnabled]

theorem kept_execSpawnBinPlace (hs : Canon s) (core bin : Nat) : Kept (execSpawnBinPlace core bin s) := by
  unfold execSpawnBinPlace
  grind [canon_modCore, canon_placeChild, kept_next, kept_notEnabled]

theorem kept_execSpawnBinSteal (hs : Canon s) (core : Nat) : Kept (execSpawnBinSteal core s) := by
  unfold execSpawnBinSteal
  grind [canon_modCore, canon_placeChild, kept_next, kept_notEnabled, canon_foldl]

theorem kept_execPreemptGo (hs : Canon s) (value : DWord) : Kept (execPreemptGo value s) := by
  unfold execPreemptGo
  grind [canon_writePreempt, kept_next]

theorem kept_execPreemptHold (hs : Canon s) (value : DWord) : Kept (execPreemptHold value s) := by
  unfold execPreemptHold
  grind [canon_writePreempt, kept_next]

theorem kept_execPreemptSave (hs : Canon s) (cluster : Nat) : Kept (execPreemptSave cluster s) := by
  unfold execPreemptSave
  grind [canon_saveCluster, kept_next, kept_notEnabled]

theorem kept_execPreemptDone (hs : Canon s) : Kept (execPreemptDone s) := by
  unfold execPreemptDone
  grind [Canon, canon_hostEvent, kept_next, kept_notEnabled]

theorem kept_execClusterPlace (hs : Canon s) (launch cluster core : Nat) :
    Kept (execClusterPlace launch cluster core s) := by
  unfold execClusterPlace
  grind [canon_placeCluster, kept_next, kept_notEnabled]

theorem kept_execClusterRestore (hs : Canon s) (saved core : Nat) : Kept (execClusterRestore saved core s) := by
  unfold execClusterRestore
  grind [canon_restoreCluster, canon_restoreReads, kept_next, kept_notEnabled]

theorem kept_execTeamctlResume (hs : Canon s) (core part slot : Nat) : Kept (execTeamctlResume core part slot s) := by
  unfold execTeamctlResume
  grind [canon_teamctl, kept_next]

theorem kept_execTeamctlDiscard (hs : Canon s) (core part slot : Nat) :
    Kept (execTeamctlDiscard core part slot s) := by
  unfold execTeamctlDiscard
  grind [canon_teamctl, kept_next]

theorem kept_execClockTick (hs : Canon s) : Kept (execClockTick s) := by
  unfold execClockTick
  grind [Canon, canon_raise, kept_next, kept_notEnabled, canon_foldl]

theorem kept_execClockRebase (hs : Canon s) : Kept (execClockRebase s) := by
  unfold execClockRebase
  grind [Canon, kept_next, kept_notEnabled]

theorem kept_execRebaseComplete (hs : Canon s) : Kept (execRebaseComplete s) := by
  unfold execRebaseComplete
  grind [Canon, canon_rebased, kept_next, kept_notEnabled]

theorem kept_execPowerWindow (hs : Canon s) (die : Nat) : Kept (execPowerWindow die s) := by
  unfold execPowerWindow
  grind [Canon, canon_draw, kept_next, kept_notEnabled]

theorem kept_execAgeUrgent (hs : Canon s) (core part : Nat) : Kept (execAgeUrgent core part s) := by
  unfold execAgeUrgent
  grind [Canon, kept_next, kept_notEnabled]

theorem kept_execYieldExpire (hs : Canon s) (team thread : Nat) : Kept (execYieldExpire team thread s) := by
  unfold execYieldExpire
  grind [canon_modThread, kept_next, kept_notEnabled]

theorem kept_execDemotionExpire (hs : Canon s) (team thread : Nat) : Kept (execDemotionExpire team thread s) := by
  unfold execDemotionExpire
  grind [canon_modThread, kept_next, kept_notEnabled]

theorem kept_execInstructionReplay (hs : Canon s) (team thread : Nat) :
    Kept (execInstructionReplay team thread s) := by
  unfold execInstructionReplay
  grind [canon_setTeam, kept_next, kept_notEnabled]

theorem kept_execWatchdog (hs : Canon s) (launch : Nat) : Kept (execWatchdog launch s) := by
  unfold execWatchdog
  grind [Canon, canon_hostEvent, kept_next, kept_notEnabled]

theorem kept_execEventMsixSignal (hs : Canon s) : Kept (execEventMsixSignal s) := by
  unfold execEventMsixSignal
  grind [canon_signalMsix, kept_next, kept_notEnabled]

theorem kept_execHostMemRead (hs : Canon s) (pa len : Nat) : Kept (execHostMemRead pa len s) := by
  unfold execHostMemRead
  grind [canon_receive, kept_next, kept_notEnabled]

theorem kept_execHostMemWrite (hs : Canon s) (pa : Nat) (bytes : List (Option Byte)) :
    Kept (execHostMemWrite pa bytes s) := by
  unfold execHostMemWrite
  grind [canon_receive, kept_next, kept_notEnabled]

theorem kept_execHostMemoryWriteDone (hs : Canon s) (tag : Nat) : Kept (execHostMemoryWriteDone tag s) := by
  unfold execHostMemoryWriteDone
  grind [Canon, canon_fenceDone, canon_modThread, canon_portWrites, kept_next, kept_notEnabled]

theorem kept_execIoReadReturn (hs : Canon s) (tag data : Nat) : Kept (execIoReadReturn tag data s) := by
  unfold execIoReadReturn
  grind [Canon, canon_modThread, canon_peerDone, canon_peerValue, kept_next, kept_notEnabled]

theorem kept_execPatrolScrub (hs : Canon s) (pa : Nat) : Kept (execPatrolScrub pa s) := by
  unfold execPatrolScrub
  grind [canon_countError, kept_next, kept_notEnabled]

theorem kept_execDoeRequest (hs : Canon s) (request : Nat) : Kept (execDoeRequest request s) := by
  unfold execDoeRequest
  grind [Canon, kept_next]

theorem kept_execWarmReset (hs : Canon s) : Kept (execWarmReset s) := by
  unfold execWarmReset
  grind [canon_askReset, kept_next]

theorem kept_execCxlHotReset (hs : Canon s) : Kept (execCxlHotReset s) := by
  unfold execCxlHotReset
  grind [canon_warmReset, kept_next]

theorem kept_execColdReset (hs : Canon s) : Kept (execColdReset s) :=
  kept_next.2 (canon_afterReset hs _ (by decide) _ _)

theorem kept_execThermalThrottle (hs : Canon s) (die temp : Nat) : Kept (execThermalThrottle die temp s) := by
  unfold execThermalThrottle
  grind [Canon, canon_setJunction, kept_next, kept_notEnabled]

theorem kept_execThermalRecover (hs : Canon s) (die temp : Nat) : Kept (execThermalRecover die temp s) := by
  unfold execThermalRecover
  grind [Canon, canon_setJunction, kept_next, kept_notEnabled]

theorem kept_execThermalTrip (hs : Canon s) (die temp : Nat) : Kept (execThermalTrip die temp s) := by
  unfold execThermalTrip
  grind [Canon, canon_resetSteps, canon_setJunction, kept_next, kept_notEnabled]

theorem kept_execPowerGateRequest (hs : Canon s) (die : Nat) : Kept (execPowerGateRequest die s) := by
  unfold execPowerGateRequest
  grind [canon_writePwrcfg, kept_next]

theorem kept_execPowerUngate (hs : Canon s) (die : Nat) : Kept (execPowerUngate die s) := by
  unfold execPowerUngate
  grind [canon_writePwrcfg, kept_next]

theorem kept_execPowerGateComplete (hs : Canon s) (die : Nat) : Kept (execPowerGateComplete die s) := by
  unfold execPowerGateComplete
  grind [canon_gate, kept_next, kept_notEnabled]

theorem kept_execDieLossDetect (hs : Canon s) (die : Nat) : Kept (execDieLossDetect die s) := by
  unfold execDieLossDetect
  grind [Canon, kept_next, kept_notEnabled]

/-- The areas' contents are kept abstract: the kernel would compute with them. -/
theorem kept_execSalvageDone (hs : Canon s) : Kept (execSalvageDone s) := by
  unfold execSalvageDone
  have hsalvage := fun lost => canon_salvage hs lost
  obtain ⟨area, harea⟩ : ∃ f, f = @State.salvage := ⟨_, rfl⟩
  rw [← harea] at hsalvage ⊢
  grind [Canon, canon_endLaunches, canon_hostEvent, canon_setRegField, kept_next, kept_notEnabled]

theorem kept_execStateReadbackWrite (hs : Canon s) (offset : Nat) (value : DWord) :
    Kept (execStateReadbackWrite offset value s) := by
  unfold execStateReadbackWrite
  grind [canon_writeReadback, kept_next]

theorem kept_execCodeinvGo (hs : Canon s) : Kept (execCodeinvGo s) := by
  unfold execCodeinvGo
  grind [canon_writeCodeinv, kept_next]

theorem kept_execCodeinvComplete (hs : Canon s) : Kept (execCodeinvComplete s) := by
  unfold execCodeinvComplete
  grind [Canon, kept_next, kept_notEnabled]

theorem kept_execSyslaunch (hs : Canon s) (value : DWord) : Kept (execSyslaunch value s) := by
  unfold execSyslaunch
  grind [canon_writeSyslaunch, kept_next]

theorem kept_execRegisterWrite (hs : Canon s) (offset : Nat) (value : DWord) :
    Kept (execRegisterWrite offset value s) := by
  unfold execRegisterWrite
  grind [canon_windowWrite, kept_next]

end Sys2Proof.Proofs.Canonical

/-! O59, 14: every instruction, every event and every step keeps the canonical form. -/

namespace Sys2Proof.Proofs.Canonical
open Sys2Proof Sys2Proof.Machine

variable {s : State}

/-- An instruction, or an agent's step, keeps both memories in canonical form: by the lemma about its meaning. -/
theorem kept_exec (hs : Canon s) (i : Instr) : Kept (exec i s) := by
  cases i with
  | add | addBase | addImmBase | sub | subBase | subImmBase | mul | mulBase | mulImmBase | mulhi | mulhiBase |
    mulhiImmBase | minI | minIBase | minIImmBase | maxI | maxIBase | maxIImmBase | bitAnd | bitAndBase |
    bitAndImmBase | bitOr | bitOrBase | bitOrImmBase | bitXor | bitXorBase | bitXorImmBase | div | rem =>
    exact kept_twoX hs
  | mad | madBase | madImmBase => exact kept_madX hs
  | shl | shlBase | shlImmBase | shr | shrBase | shrImmBase | sra | sraBase | sraImmBase | rol | rolBase |
    rolImmBase | bfe => exact kept_shiftX hs
  | popc | clz | ctz =>
    unfold exec
    simp only [execPopc, execClz, execCtz]
    exact kept_countX hs
  | brev | absI | negI | bitNot | mov =>
    unfold exec
    simp only [execBrev, execAbsI, execNegI, execBitNot, execMov]
    exact kept_oneX hs
  | ldi | ldiBase => exact kept_ldiX hs
  | pand | por | pxor | pandn | pnot | pmov =>
    unfold exec
    simp only [execPand, execPor, execPxor, execPandn, execPnot, execPmov]
    exact kept_predX hs
  | fadd | faddBase | fsub | fsubBase | fmul | fmulBase | fma | fmaBase | fmin | fminBase | fmax | fmaxBase | fabs |
    fneg | fsgn | frnd | frcp | frsq | fsqrt | fdiv | fex2 | flg2 | fsinr | fcosr =>
    unfold exec
    simp only [execFadd, execFaddBase, execFsub, execFsubBase, execFmul, execFmulBase, execFma, execFmaBase,
      execFmin, execFminBase, execFmax, execFmaxBase, execFabs, execFneg, execFsgn, execFrnd, execFrcp, execFrsq,
      execFsqrt, execFdiv, execFex2, execFlg2, execFsinr, execFcosr]
    exact kept_floatX hs
  | shfl | perm | redux | cdet | matchV =>
    unfold exec
    simp only [execShfl, execPerm, execRedux, execCdet, execMatchV]
    exact kept_collective hs
  | stage | nop | nopBase => exact kept_advance hs
  | ld | ldBase => exact kept_loadOf hs
  | st | stBase => exact kept_storeOf hs
  | atom | red => exact kept_atomicOf hs
  | mma | mmaQ | mmas => exact kept_mmaOf hs
  | cp | cpg | coll => exact kept_jobs hs
  | br | brBase | call | callBase => exact kept_direct hs
  | brx | calli | ret | retBase => exact kept_indirect hs
  | exit | exitBase => exact kept_exitOf hs
  | barArrive | barSync => exact kept_barrier hs
  | trap | trapBase | brk => exact kept_traps hs
  | bfi => exact kept_execBfi hs _
  | lea => exact kept_execLea hs _
  | sel => exact kept_execSel hs _
  | movBase => exact kept_execMovBase hs _ _
  | cvt => exact kept_execCvt hs _
  | cmp => exact kept_execCmp hs _
  | pget => exact kept_execPget hs _
  | pset => exact kept_execPset hs _
  | fcmp => exact kept_execFcmp hs _
  | fcvt => exact kept_execFcvt hs _
  | mxq => exact kept_execMxq hs _
  | mxdq => exact kept_execMxdq hs _
  | vote => exact kept_execVote hs _
  | vget => exact kept_execVget hs _
  | vput => exact kept_execVput hs _
  | xclaim => exact kept_execXclaim hs _
  | xgive => exact kept_execXgive hs _
  | kmov => exact kept_execKmov hs _
  | kset => exact kept_execKset hs _
  | sysrd => exact kept_execSysrd hs _
  | ldfe => exact kept_execLdfe hs _
  | stfe => exact kept_execStfe hs _
  | feset => exact kept_execFeset hs _
  | pf => exact kept_execPf hs _
  | prq => exact kept_execPrq hs _
  | waddr => exact kept_execWaddr hs _
  | fenceSys => exact kept_execFenceSys hs _
  | fenceIo => exact kept_execFenceIo hs _
  | fenceCode => exact kept_execFenceCode hs _
  | acalloc => exact kept_execAcalloc hs _
  | acfree => exact kept_execAcfree hs _
  | acrd => exact kept_execAcrd hs _
  | acwr => exact kept_execAcwr hs _
  | aczero => exact kept_execAczero hs _
  | acq => exact kept_execAcq hs _
  | matrixOpComplete => exact kept_execMatrixOpComplete hs _ _
  | futTest => exact kept_execFutTest hs _
  | futCancel => exact kept_execFutCancel hs _
  | futMov => exact kept_execFutMov hs _
  | futShr => exact kept_execFutShr hs _
  | boInit => exact kept_execBoInit hs _
  | boArrive => exact kept_execBoArrive hs _
  | boExpect => exact kept_execBoExpect hs _
  | boWait => exact kept_execBoWait hs _
  | boTest => exact kept_execBoTest hs _
  | boFree => exact kept_execBoFree hs _
  | ncall => exact kept_execNcall hs _
  | nret => exact kept_execNret hs _
  | impPost => exact kept_execImpPost hs _
  | impChk => exact kept_execImpChk hs _
  | impWait => exact kept_execImpWait hs _
  | impClear => exact kept_execImpClear hs _
  | tail => exact kept_execTail hs _
  | yield => exact kept_execYield hs _
  | barWait => exact kept_execBarWait hs _
  | rte => exact kept_execRte hs _
  | syswr => exact kept_execSyswr hs _
  | halt => exact kept_execHalt hs _
  | jinit => exact kept_execJinit hs _
  | jenter => exact kept_execJenter hs _
  | jquit => exact kept_execJquit hs _
  | jwait => exact kept_execJwait hs _
  | jwaitBase => exact kept_execJwaitBase hs _
  | jread => exact kept_execJread hs _
  | jsave => exact kept_execJsave hs _
  | jrest => exact kept_execJrest hs _
  | spawn => exact kept_execSpawn hs _
  | cancq => exact kept_execCancq hs _
  | cancqSelf => exact kept_execCancqSelf hs _
  | cancqId => exact kept_execCancqId hs _
  | launch => exact kept_execLaunch hs _
  | instructionReplay => exact kept_execInstructionReplay hs _ _
  | pendingMissRetry => exact kept_execPendingMissRetry hs _
  | walkComplete => exact kept_execWalkComplete hs _ _
  | faultMsixSignal => exact kept_execFaultMsixSignal hs
  | fltreplyRetry => exact kept_execFltreplyRetry hs _ _
  | fltreplyFail => exact kept_execFltreplyFail hs _ _
  | tlbinvRange => exact kept_execTlbinvRange hs _ _ _
  | tlbinvWhole => exact kept_execTlbinvWhole hs _
  | tlbinvAllctx => exact kept_execTlbinvAllctx hs
  | tlbinvComplete => exact kept_execTlbinvComplete hs
  | patrolScrub => exact kept_execPatrolScrub hs _
  | clockTick => exact kept_execClockTick hs
  | clockRebase => exact kept_execClockRebase hs
  | rebaseComplete => exact kept_execRebaseComplete hs
  | gets => exact kept_execGets hs _
  | getx => exact kept_execGetx hs _
  | upg => exact kept_execUpg hs _
  | wb => exact kept_execWb hs _
  | atomRequest => exact kept_execAtomRequest hs _
  | fwdS => exact kept_execFwdS hs _
  | fwdX => exact kept_execFwdX hs _
  | forwardAnswer => exact kept_execForwardAnswer hs _
  | fwdGone => exact kept_execFwdGone hs _
  | disc => exact kept_execDisc hs _
  | data => exact kept_execData hs _
  | renew => exact kept_execRenew hs _
  | dataX => exact kept_execDataX hs _
  | grantX => exact kept_execGrantX hs _
  | wbAck => exact kept_execWbAck hs _
  | nack => exact kept_execNack hs _
  | nackRetry => exact kept_execNackRetry hs _
  | backInvalidateAnswer => exact kept_execBackInvalidateAnswer hs _
  | hostSnoop => exact kept_execHostSnoop hs _
  | hostMemRead => exact kept_execHostMemRead hs _ _
  | hostMemWrite => exact kept_execHostMemWrite hs _ _
  | hostLineFetch => exact kept_execHostLineFetch hs _
  | wake => exact kept_execWake hs _
  | dieLossDetect => exact kept_execDieLossDetect hs _
  | salvageDone => exact kept_execSalvageDone hs
  | formeRelease => exact kept_execFormeRelease hs _
  | jobStart => exact kept_execJobStart hs _
  | engineLineRead => exact kept_execEngineLineRead hs _
  | engineLineWrite => exact kept_execEngineLineWrite hs _
  | jobEnd => exact kept_execJobEnd hs _
  | platenCallDrain => exact kept_execPlatenCallDrain hs _ _
  | platenCallWriteback => exact kept_execPlatenCallWriteback hs _ _
  | platenCallLoan => exact kept_execPlatenCallLoan hs _ _
  | platenTeamPlace => exact kept_execPlatenTeamPlace hs _ _
  | platenCallFault => exact kept_execPlatenCallFault hs _ _
  | platenCallInvalidate => exact kept_execPlatenCallInvalidate hs _ _
  | platenCallReturn => exact kept_execPlatenCallReturn hs _ _
  | platenPacketApply => exact kept_execPlatenPacketApply hs _ _
  | linkTrain => exact kept_execLinkTrain hs _ _
  | linkDown => exact kept_execLinkDown hs _
  | peerRequestReceive => exact kept_execPeerRequestReceive hs _ _
  | peerReplyReceive => exact kept_execPeerReplyReceive hs _ _
  | peerAckReceive => exact kept_execPeerAckReceive hs _
  | reductionPacketApply => exact kept_execReductionPacketApply hs _ _
  | collResultReceive => exact kept_execCollResultReceive hs _ _ _
  | collAbortReceive => exact kept_execCollAbortReceive hs _ _
  | cgrptabWrite => exact kept_execCgrptabWrite hs _ _
  | clusterPlace => exact kept_execClusterPlace hs _ _ _
  | groupRelease => exact kept_execGroupRelease hs _ _
  | trackerDrainDone => exact kept_execTrackerDrainDone hs _ _
  | teamRetire => exact kept_execTeamRetire hs _
  | launchComplete => exact kept_execLaunchComplete hs _
  | hqdb => exact kept_execHqdb hs _ _
  | hqctlEnable => exact kept_execHqctlEnable hs _ _
  | hqctlDisable => exact kept_execHqctlDisable hs _ _
  | launchAdmit => exact kept_execLaunchAdmit hs
  | completionMsixSignal => exact kept_execCompletionMsixSignal hs
  | lcancel => exact kept_execLcancel hs _
  | cancelFlagSet => exact kept_execCancelFlagSet hs _ _
  | ageUrgent => exact kept_execAgeUrgent hs _ _
  | yieldExpire => exact kept_execYieldExpire hs _ _
  | demotionExpire => exact kept_execDemotionExpire hs _ _
  | powerWindow => exact kept_execPowerWindow hs _
  | spawnBinTimer => exact kept_execSpawnBinTimer hs _ _
  | spawnBinPlace => exact kept_execSpawnBinPlace hs _ _
  | spawnBinSteal => exact kept_execSpawnBinSteal hs _
  | eventMsixSignal => exact kept_execEventMsixSignal hs
  | watchdog => exact kept_execWatchdog hs _
  | preemptGo => exact kept_execPreemptGo hs _
  | preemptHold => exact kept_execPreemptHold hs _
  | preemptSave => exact kept_execPreemptSave hs _
  | preemptDone => exact kept_execPreemptDone hs
  | clusterRestore => exact kept_execClusterRestore hs _ _
  | teamctlResume => exact kept_execTeamctlResume hs _ _ _
  | teamctlDiscard => exact kept_execTeamctlDiscard hs _ _ _
  | codeinvGo => exact kept_execCodeinvGo hs
  | codeinvComplete => exact kept_execCodeinvComplete hs
  | syslaunch => exact kept_execSyslaunch hs _
  | warmReset => exact kept_execWarmReset hs
  | cxlHotReset => exact kept_execCxlHotReset hs
  | coldReset => exact kept_execColdReset hs
  | thermalThrottle => exact kept_execThermalThrottle hs _ _
  | thermalRecover => exact kept_execThermalRecover hs _ _
  | thermalTrip => exact kept_execThermalTrip hs _ _
  | powerGateRequest => exact kept_execPowerGateRequest hs _
  | powerGateComplete => exact kept_execPowerGateComplete hs _
  | powerUngate => exact kept_execPowerUngate hs _
  | stateReadbackWrite => exact kept_execStateReadbackWrite hs _ _
  | registerWrite => exact kept_execRegisterWrite hs _ _
  | ioReadReturn => exact kept_execIoReadReturn hs _ _
  | hostMemoryWriteDone => exact kept_execHostMemoryWriteDone hs _
  | doeRequest => exact kept_execDoeRequest hs _
  | imprintEntryRetire => exact kept_execImprintEntryRetire hs _ _ _ _

/-! ### Candidates and the agenda's events -/

theorem kept_runCandidate (hs : Canon s) (c : Candidate) : Kept (s.runCandidate c) := by
  unfold State.runCandidate
  split
  · exact kept_next.2 hs
  next t _ =>
  have h := canon_fetch hs t { team := c.team, n := c.threads.headD 0 } c.pc
  split
  · next he => exact kept_next.2 (canon_deliverAll (canon_fst h he) _ _ _ _)
  · next he => exact kept_next.2 (canon_fetchWait (canon_fst h he) _ _ _ _)
  · next s₁ i he =>
    have h₁ := canon_fst h he
    have hk : Kept (exec i { s₁ with ig := some { team := c.team, threads := c.threads, pc := c.pc } }) := by
      apply kept_exec
      exact ⟨h₁.1, h₁.2⟩
    split
    · next ho => exact kept_next.2 (canon_afterIssue (hk _ ho) _ _ _ _)
    · exact kept_fault _
    · exact kept_refused _

theorem kept_issueAt (hs : Canon s) (core part : Nat) : Kept (s.issueAt core part) := by
  unfold State.issueAt
  dsimp only
  split
  · exact kept_next.2 ⟨hs.1, hs.2⟩
  split
  · refine kept_next.2 ?_
    apply canon_bookIssue
    exact ⟨hs.1, hs.2⟩
  · apply kept_runCandidate
    apply canon_stirLaunch
    apply canon_bookIssue
    exact ⟨hs.1, hs.2⟩

theorem kept_event (hs : Canon s) (i : Instr) : Kept (s.event i) := by
  unfold State.event
  have h := kept_exec hs i
  split
  · exact kept_next.2 hs
  split
  · next ho => exact kept_next.2 (canon_noteSpins (h _ ho) _)
  · exact kept_fault _
  · exact kept_refused _

/-! ### Steps that arise -/

/-- A step of an agent keeps the form in every state. -/
def MoveKept (f : Move) : Prop := ∀ s, Canon s → Kept (f s)

theorem moveKept_arrivalOf (tag : Nat) (m : Msg) : MoveKept (arrivalOf tag m) := by
  unfold arrivalOf
  split
  · split
    · exact fun _ hs => kept_execGets hs _
    · exact fun _ hs => kept_execGets hs _
    · exact fun _ hs => kept_execGetx hs _
    · exact fun _ hs => kept_execUpg hs _
    · exact fun _ hs => kept_execAtomRequest hs _
    · exact fun _ hs => kept_execAtomRequest hs _
  · exact fun _ hs => kept_execWb hs _
  · exact fun _ hs => kept_execFwdS hs _
  · exact fun _ hs => kept_execFwdX hs _
  · exact fun _ hs => kept_execDisc hs _
  · exact fun _ hs => kept_execForwardAnswer hs _
  · exact fun _ hs => kept_execFwdGone hs _
  · exact fun _ hs => kept_execData hs _
  · exact fun _ hs => kept_execRenew hs _
  · exact fun _ hs => kept_execDataX hs _
  · exact fun _ hs => kept_execGrantX hs _
  · exact fun _ hs => kept_execWbAck hs _
  · exact fun _ hs => kept_execNack hs _
  · exact fun _ hs => kept_execNackRetry hs _
  · exact fun _ hs => kept_execWake hs _

theorem forall_mem_ite {α : Type} {p : Prop} [Decidable p] {l m : List α} {P : α → Prop} (hl : ∀ a ∈ l, P a)
    (hm : ∀ a ∈ m, P a) : ∀ a ∈ (if p then l else m), P a := by
  split <;> assumption

theorem moveKept_due (team n : Nat) (th : Thread) : ∀ f ∈ th.due team n, MoveKept f := by
  unfold Thread.due
  simp only [List.forall_mem_append]
  refine ⟨⟨forall_mem_ite ?_ (by simp), forall_mem_ite ?_ (by simp)⟩, forall_mem_ite ?_ (by simp)⟩ <;>
    simp only [List.forall_mem_singleton]
  · exact fun _ hs => kept_execInstructionReplay hs _ _
  · exact fun _ hs => kept_execYieldExpire hs _ _
  · exact fun _ hs => kept_execDemotionExpire hs _ _

theorem moveKept_memoryEvents (u : State) : ∀ f ∈ u.memoryEvents, MoveKept f := by
  unfold State.memoryEvents
  simp only [List.forall_mem_append, List.forall_mem_map, List.forall_mem_cons]
  refine ⟨⟨⟨⟨⟨?_, ?_⟩, ?_, ?_, ?_, by simp⟩, ?_⟩, ?_⟩, ?_⟩
  · exact fun p _ => moveKept_arrivalOf _ _
  · exact fun p _ _ hs => kept_execWalkComplete hs _ _
  · exact fun _ hs => kept_execPendingMissRetry hs _
  · exact fun _ hs => kept_execPendingMissRetry hs _
  · exact fun _ hs => kept_execTlbinvComplete hs
  · exact fun ln _ _ hs => kept_execHostLineFetch hs _
  · exact fun ln _ _ hs => kept_execBackInvalidateAnswer hs _
  · exact fun p _ _ hs => kept_execHostMemoryWriteDone hs _

theorem moveKept_engineEvents (u : State) : ∀ f ∈ u.engineEvents, MoveKept f := by
  unfold State.engineEvents
  simp only [List.forall_mem_append, List.forall_mem_map, List.forall_mem_flatMap, List.forall_mem_cons]
  refine ⟨⟨⟨⟨⟨⟨fun p _ => ⟨?_, ?_, ?_, ?_, by simp⟩, fun p _ c _ => ⟨?_, ?_, ?_, ?_, ?_, ?_, ?_, by simp⟩⟩,
    fun p _ i _ => ?_⟩, fun i _ => ⟨?_, ?_, by simp⟩⟩, forall_mem_ite (by simp) ?_⟩, forall_mem_ite (by simp) ?_⟩,
    fun p _ => ?_⟩
  · exact fun _ hs => kept_execJobStart hs _
  · exact fun _ hs => kept_execEngineLineRead hs _
  · exact fun _ hs => kept_execEngineLineWrite hs _
  · exact fun _ hs => kept_execJobEnd hs _
  · exact fun _ hs => kept_execPlatenCallDrain hs _ _
  · exact fun _ hs => kept_execPlatenCallWriteback hs _ _
  · exact fun _ hs => kept_execPlatenCallLoan hs _ _
  · exact fun _ hs => kept_execPlatenTeamPlace hs _ _
  · exact fun _ hs => kept_execPlatenCallFault hs _ _
  · exact fun _ hs => kept_execPlatenCallInvalidate hs _ _
  · exact fun _ hs => kept_execPlatenCallReturn hs _ _
  · exact fun _ hs => kept_execPlatenPacketApply hs _ _
  · exact fun _ hs => kept_execReductionPacketApply hs _ _
  · exact fun _ hs => kept_execReductionPacketApply hs _ _
  · exact List.forall_mem_singleton.2 fun _ hs =>
      kept_next.2 (canon_foldl (canon_takePeers hs) fun _ _ h => canon_sweepPlaten h _)
  · exact List.forall_mem_singleton.2 fun _ hs => kept_next.2 (canon_servePort hs _)
  · exact fun _ hs => kept_execMatrixOpComplete hs _ _

theorem moveKept_launchEvents (u : State) : ∀ f ∈ u.launchEvents, MoveKept f := by
  unfold State.launchEvents
  simp only [List.forall_mem_append, List.forall_mem_map, List.forall_mem_flatMap, List.forall_mem_cons]
  refine ⟨⟨⟨⟨⟨⟨?_, ?_, fun p _ => ?_⟩, fun p _ => forall_mem_ite ?_ (by simp)⟩, fun p _ => ⟨?_, fun g _ => ?_⟩⟩,
    fun p _ => ⟨?_, ?_, by simp⟩⟩, fun c _ => ⟨fun e _ => ?_, fun b _ => ⟨?_, ?_, by simp⟩⟩⟩,
    forall_mem_ite ?_ (by simp)⟩
  · split
    · exact List.forall_mem_map.2 fun c _ _ hs => kept_execClusterPlace hs _ _ _
    · exact List.forall_mem_map.2 fun c _ _ hs => kept_execClusterRestore hs _ _
    · simp
  · exact fun _ hs => kept_execLaunchAdmit hs
  · exact fun _ hs => kept_execLaunchComplete hs _
  · exact List.forall_mem_map.2 fun c _ _ hs => kept_execCancelFlagSet hs _ _
  · exact fun _ hs => kept_execTeamRetire hs _
  · exact fun _ hs => kept_execGroupRelease hs _ _
  · exact fun _ hs => kept_execFormeRelease hs _
  · exact fun _ hs => kept_execPreemptSave hs _
  · exact fun _ hs => kept_execTrackerDrainDone hs _ _
  · exact fun _ hs => kept_execSpawnBinTimer hs _ _
  · exact fun _ hs => kept_execSpawnBinPlace hs _ _
  · exact List.forall_mem_map.2 fun c _ _ hs => kept_execSpawnBinSteal hs _

theorem moveKept_timedEvents (u : State) : ∀ f ∈ u.timedEvents, MoveKept f := by
  unfold State.timedEvents
  simp only [List.forall_mem_append, List.forall_mem_map, List.forall_mem_flatMap, List.forall_mem_cons]
  refine ⟨⟨⟨⟨?_, ?_, ?_, ?_, ?_, ?_, ?_, ?_, ?_, ?_, ?_, ?_, ?_, by simp⟩, fun p _ => ?_⟩,
    fun p _ q _ => moveKept_due _ _ _⟩, fun p _ i _ => ?_⟩
  · exact fun _ hs => kept_execClockTick hs
  · exact fun _ hs => kept_execClockRebase hs
  · exact fun _ hs => kept_execRebaseComplete hs
  · exact fun _ hs => kept_execPowerWindow hs _
  · exact fun _ hs => kept_execPowerWindow hs _
  · exact fun _ hs => kept_execFaultMsixSignal hs
  · exact fun _ hs => kept_execCompletionMsixSignal hs
  · exact fun _ hs => kept_execEventMsixSignal hs
  · exact fun _ hs => kept_execCodeinvComplete hs
  · exact fun _ hs => kept_execPreemptDone hs
  · exact fun _ hs => kept_execSalvageDone hs
  · exact fun _ hs => kept_execPowerGateComplete hs _
  · exact fun _ hs => kept_execPowerGateComplete hs _
  · exact fun _ hs => kept_execWatchdog hs _
  · exact fun _ hs => kept_execAgeUrgent hs _ _

theorem moveKept_events (u : State) : ∀ f ∈ u.events, MoveKept f := by
  unfold State.events
  simp only [List.forall_mem_append]
  exact ⟨⟨⟨moveKept_memoryEvents u, moveKept_engineEvents u⟩, moveKept_launchEvents u⟩, moveKept_timedEvents u⟩

theorem moveKept_rotate {l : List Move} (h : ∀ f ∈ l, MoveKept f) (n : Nat) : ∀ f ∈ rotate n l, MoveKept f := by
  unfold rotate
  simp only [List.forall_mem_append]
  exact ⟨fun f hf => h f (List.mem_of_mem_drop hf), fun f hf => h f (List.mem_of_mem_take hf)⟩

theorem canon_firstMove (hs : Canon s) {fs : List Move} (hf : ∀ f ∈ fs, MoveKept f) {s' : State}
    (hr : s.firstMove fs = some s') : Canon s' := by
  induction fs with
  | nil => exact absurd hr (by simp [State.firstMove])
  | cons f fs ih =>
    obtain ⟨hf, hfs⟩ := List.forall_mem_cons.1 hf
    unfold State.firstMove at hr
    split at hr
    · next s₁ h₁ =>
      split at hr
      · exact ih hfs hr
      · cases hr; exact hf s hs _ h₁
    · exact ih hfs hr

/-! ### A step -/

theorem kept_idle (hs : Canon s) : Kept s.idle := by
  have hlater : ∀ s : State, Canon s → Kept (.next { s with cycle := s.cycle + 1 }) :=
    fun s h => kept_next.2 ⟨h.1, h.2⟩
  have hevent : ∀ s', (s.firstMove (rotate (s.cycle / 2) s.events)).map (fun s' => s'.noteSpins s) = some s' → Canon s' := by
    intro s' h
    obtain ⟨s₁, h₁, rfl⟩ := Option.map_eq_some_iff.1 h
    exact canon_noteSpins (canon_firstMove hs (moveKept_rotate (moveKept_events s) _) h₁) _
  unfold State.idle
  dsimp only
  split
  · exact hlater _ hs
  split
  · split
    · next h => exact hlater _ (hevent _ h)
    · exact kept_issueAt hs _ _
    · exact hlater _ hs
  · split
    · exact kept_issueAt hs _ _
    · next h => exact hlater _ (hevent _ h)
    · exact hlater _ hs

theorem kept_turn (hs : Canon s) (t : Turn) : Kept (s.turn t) := by
  cases t with
  | event i => exact kept_event hs i
  | issue core part => exact kept_issueAt hs core part
  | clocks n => exact kept_next.2 ⟨hs.1, hs.2⟩
  | dropCopy region line => exact kept_next.2 (canon_replaceCopy hs region line)
  | dropHome line => exact kept_next.2 (canon_dropHome hs line)
  | dropTranslation tlb ctx va => exact kept_next.2 (canon_dropTranslation hs tlb ctx va)
  | dropCode core line => exact kept_next.2 (canon_replaceCode hs core line)
  | upset key array => exact kept_next.2 (canon_markBad hs key array)
  | upsetLine region line unit => exact kept_next.2 (canon_upsetLine hs region line unit)
  | upsetReg tid n => exact kept_next.2 (canon_upsetReg hs tid n)
  | upsetK team n => exact kept_next.2 (canon_ite (canon_modTeam hs _ _) hs)
  | temperature sensor temp => exact kept_next.2 (canon_sense hs sensor temp)
  | window off size value => exact kept_next.2 (canon_windowWrite hs off size value)
  | corrected array => exact kept_next.2 (canon_countError hs array)
  | dropTimes stack line => exact kept_next.2 (canon_dropTimes hs stack line)
  | hostStore pa bytes =>
    have h := canon_hostStore hs pa bytes
    show Kept (match s.hostStore pa bytes with
      | (s, true) => .next s
      | (s', false) =>
        match s'.idle with
        | .next s'' => .next { s'' with agenda := .hostStore pa bytes :: s''.agenda }
        | o => o)
    split
    · next he => exact kept_next.2 (canon_fst h he)
    · next he =>
      have hi := kept_idle (canon_fst h he)
      split
      · next ho => exact kept_next.2 ⟨(hi _ ho).1, (hi _ ho).2⟩
      · exact hi

theorem kept_step (hs : Canon s) : Kept (step s) := by
  unfold step
  split
  · exact kept_idle hs
  · apply kept_turn
    exact ⟨hs.1, hs.2⟩

/-- Settles O59: every operation of the model keeps both memories in canonical form, for a memory is written through
`writeBytes`, `putLine` and single bytes alone, and so does every instruction, every event and every step. -/
theorem stepsKeepMemoriesCanonical : Obligations.StepsKeepMemoriesCanonical := by
  unfold Obligations.StepsKeepMemoriesCanonical
  intro s s' hs hstep
  exact canonical_eq_true_iff.2 (kept_step (canonical_eq_true_iff.1 hs) s' hstep)

end Sys2Proof.Proofs.Canonical
